-- ==== Sys2Proof/Word.lean ====
section
/-! DEFINITION. The plain word types of the model: 64-bit words (registers, R7), bytes, and sparse tables keyed by a number.
Numbers the manual only counts or indexes are `Nat`; contents that software reads as bits are bit vectors. -/

namespace Sys2Proof

/-- A 64-bit word (R7, R77). -/
abbrev Word := BitVec 64

/-- One byte of memory. -/
abbrev Byte := BitVec 8

/-- A sparse table: entries with rising keys; a key that is not listed has the default its reader gives. -/
abbrev Tab (α : Type) := List (Nat × α)

end Sys2Proof
end

