-- ==== Sys2Proof/Syntax.lean ====
section
/-! DEFINITION. The commands of the block: one constructor of `Instr` per row of spec/opcode_table.json, with the row's operands.
A thread instruction names its thread slot and the fields of its encoding (R113, R114); a host command names the function that
writes and the field values written; an event names the unit it happens at and whatever the outside world brings with it. -/

namespace Sys2Proof

/-- General register number (R77, R114). -/
abbrev Reg := BitVec 6
/-- Vector register number. -/
abbrev VReg := BitVec 3
/-- Mask register number. -/
abbrev MReg := BitVec 3
/-- Exact accumulator number. -/
abbrev EaReg := BitVec 3
/-- A function, named by its instance number: a PF is VI 0 or 128, VF n of port p is VI 128 p + n (R255, R293). -/
abbrev Fn := BitVec 8
/-- A virtual instance (R255). -/
abbrev Vi := BitVec 8
/-- A high-speed port 0-11 (R25). -/
abbrev Port := Fin 12
/-- The immediate field of formats I and VM. -/
abbrev Imm := BitVec 32

/-- A thread slot: Facet n = 8 c + FCT of cluster c (R263, R569), slot 0-63 (R72). -/
structure Tid where
  facet : BitVec 10
  slot  : BitVec 6
  deriving DecidableEq, Repr

/-- The last operand of a major 0x00 or 0x01 instruction (R117). -/
inductive Src where
  | reg (b : Reg)
  | imm (v : Imm)
  deriving DecidableEq, Repr

/-- Width of `sext` (R117). -/
inductive SextW where
  | b | h | w
  deriving DecidableEq, Repr

/-- Element types (R137). -/
inductive EType where
  | i8 | i16 | i32 | i64 | e4m3 | e5m2 | f16 | bf16 | f32 | f64 | mxfp4 | mxfp6e2 | mxfp6e3 | mxfp8e4 | mxfp8e5
  deriving DecidableEq, Repr

/-- Conditions of the compare-and-branch row (R118). -/
inductive Cond where
  | eq | ne | lt | ge | ltu | geu
  deriving DecidableEq, Repr

/-- Access forms of `ld` and `lds` (R121). -/
inductive LdW where
  | b | h | w | d | sb | sh | sw
  deriving DecidableEq, Repr

/-- Access forms of `st` and `sts` (R121). -/
inductive StW where
  | b | h | w | d
  deriving DecidableEq, Repr

/-- Atomic operations (R125). -/
inductive AmoOp where
  | add | and | or | xor | min | max | minu | maxu | swap | cas
  deriving DecidableEq, Repr

/-- `scans` variants (R134). -/
inductive ScanVar where
  | eq | ne | isIn | out
  deriving DecidableEq, Repr

/-- The vb operand: a vector register, or with BG 1 the general register g broadcast (R140). -/
inductive VB where
  | vec (v : VReg)
  | gen (g : Reg)
  deriving DecidableEq, Repr

/-- The fields shared by three-operand format V instructions. -/
structure VOp where
  et : EType
  vd : VReg
  va : VReg
  vb : VB
  km : MReg
  deriving DecidableEq, Repr

/-- The fields shared by two-operand format V instructions. -/
structure VUn where
  et : EType
  vd : VReg
  va : VReg
  km : MReg
  deriving DecidableEq, Repr

inductive MinMax where
  | min | max | minu | maxu
  deriving DecidableEq, Repr

inductive VLog where
  | and | or | xor | andn
  deriving DecidableEq, Repr

inductive VShift where
  | shl | shr | sra | rol
  deriving DecidableEq, Repr

inductive VCmp where
  | eq | ne | lt | le | ltu | leu | un
  deriving DecidableEq, Repr

inductive VArith where
  | add | sub | mul
  deriving DecidableEq, Repr

inductive MaskOp where
  | and | or | xor | andn | not
  deriving DecidableEq, Repr

/-- The fields of format VM with an immediate (R114, R121). -/
structure VMem where
  et  : EType
  vd  : VReg
  km  : MReg
  a   : Reg
  imm : Imm
  deriving DecidableEq, Repr

/-- The fields of a gather or scatter (R121). -/
structure VIdx where
  et : EType
  vd : VReg
  km : MReg
  vx : VReg
  a  : Reg
  deriving DecidableEq, Repr

/-- The fields of `vcvt` and `vcvtu` (R144). -/
structure VCvt where
  et  : EType
  src : EType
  p   : BitVec 3
  vd  : VReg
  va  : VReg
  km  : MReg
  md  : MReg
  deriving DecidableEq, Repr

/-- A thread whose end is reported: one of this device, or one of a launch's threads on another device (R64, R95). -/
inductive EndedAt where
  | here (t : Tid)
  | remote (launch : Nat) (index : BitVec 32) (status : BitVec 8)
  deriving DecidableEq, Repr

/-- A thread saved off its Facet (R66, R67, R276). -/
structure SavedId where
  vi      : Vi
  handler : Bool
  launch  : Nat
  index   : BitVec 32
  deriving DecidableEq, Repr

/-- A BRM packet as it arrives (R413): header fields, payload in the clear, the device it comes from, and whether the
tag of an encrypted packet verified (R415). -/
structure Pkt where
  src      : BitVec 16      -- sending device, coded as PEER_DEV
  poison   : Bool := false
  enc      : Bool := false
  authOk   : Bool := true
  thread   : Bool := false
  fence    : Bool := false
  acc      : Bool := false
  notify   : Bool := false
  dqp      : BitVec 24
  dqgen    : BitVec 16
  svi      : Vi
  aux      : BitVec 8 := 0
  psn      : BitVec 32
  msn      : BitVec 32
  keyslot  : BitVec 8 := 0
  rkey     : BitVec 48 := 0
  addr     : BitVec 64 := 0
  mlen     : BitVec 40 := 0
  data     : List Byte := []
  deriving DecidableEq, Repr

/-- The fields of `CMP_CMD` besides OP (chapter Units, register `CMP_CMD`). -/
structure CmpArgs where
  number  : BitVec 16 := 0
  grantEn : Bool := false       -- EXPORT_EN
  lock    : Bool := false
  count   : BitVec 9 := 0
  vi      : Vi := 0
  deriving DecidableEq, Repr

/-- Messages about remote members (R49): the home's answer to this device, and, at the home, a request or its withdrawal. -/
inductive ConfirmMsg where
  | answer (home : BitVec 16) (ud : BitVec 64) (ok : Bool) (leaves : List (BitVec 64 × Nat)) (level : Nat)
  | ask (dev : BitVec 16) (vi : Vi) (ud : BitVec 64) (others : List (BitVec 64))
  | drop (dev : BitVec 16) (ud : BitVec 64)
  deriving DecidableEq, Repr

/-- What a patrol read of a block finds (R209, R212). -/
inductive ScrubFinds where
  | clean | corrected | uncorrectable
  deriving DecidableEq, Repr

/-- The fields of `SYN_CMD` besides OP. -/
structure SynArgs where
  obj : BitVec 16
  ty  : BitVec 2 := 0
  vi  : Vi := 0
  deriving DecidableEq, Repr

/-- What reaches a home, or the near unit on its way (R232, R241). -/
inductive SyncArrival where
  | op (t : Tid) (op : Nat)
  | near (q : BitVec 2) (obj : BitVec 16)
  | remote (obj : BitVec 16) (dev : BitVec 16) (count : Nat) (member : Nat)
  deriving DecidableEq, Repr

/-- Fields of `VI_RES_CMD` as written: CLUSTER, GROUP. -/
structure ResSel where
  cluster : BitVec 7
  group   : BitVec 10
  deriving DecidableEq, Repr

/-- Fields of `VI_HDL_CFG` but EN: TCTL_INIT, STORE_KIB, COUNT. -/
structure HdlCfg where
  tctl  : BitVec 16
  store : BitVec 9
  count : BitVec 3
  deriving DecidableEq, Repr

/-- What has finished reshaping (R70): a composite, or what a TAKE waits for. -/
inductive Reshaped where
  | comp (n : BitVec 16)
  | taken
  deriving DecidableEq, Repr

/-- Fields of `VI_SQ_CFG` but EN. -/
structure SqCfgW where
  kind : BitVec 4
  cq   : BitVec 4
  size : BitVec 5
  deriving DecidableEq, Repr

/-- How a read that the device sent ends (R308, R324, R326). -/
inductive RdOut where
  | ok | poisoned | refused   -- `refused`: Unsupported Request or Completer Abort
  deriving DecidableEq, Repr

/-- A read of host memory or a peer that is outstanding. -/
inductive ReadOf where
  | thread (t : Tid) (op : Nat)
  | fetch (vi : Vi) (q : BitVec 4)
  | desc (vi : Vi) (q : BitVec 4) (seq : BitVec 48)
  | brm (vi : Vi) (q : BitVec 4)      -- LOCAL of the next BRM descriptor of a queue
  | tx (vi : Vi) (r : BitVec 4)       -- the next slot of a transmit ring
  deriving DecidableEq, Repr

/-- A drive's request to the storage data window. -/
inductive WinReq where
  | read (n : BitVec 13)
  | write (data : List Byte) (poison : Bool)
  deriving DecidableEq, Repr

/-- Link power states below L0 (R318). -/
inductive L1Sub where
  | l1 | l11 | l12
  deriving DecidableEq, Repr

/-- Sources that offer frames to an Iris, other than transmit rings and Prism (R372). -/
inductive IrisSrc where
  | brm (vi : Vi) | storage | snapshot | telemetry | steward
  deriving DecidableEq, Repr

/-- A credit shaper of a port (R380). -/
inductive ShaperId where
  | inst (vi : Vi)
  | cls (c : BitVec 2)
  deriving DecidableEq, Repr

/-- Fields of `IRS_GCL_CTRL` that software writes. -/
structure GclW where
  init : BitVec 16
  alen : BitVec 9
  en   : Bool
  deriving DecidableEq, Repr

/-- Fields of `VI_RX_CFG` and `VI_TX_CFG` but EN. -/
structure RingCfg where
  pcntEn : Bool
  port   : BitVec 4
  slot   : BitVec 4
  ccnt   : BitVec 16
  pcnt   : BitVec 16
  size   : BitVec 5
  deriving DecidableEq, Repr

/-- The register value of a ring configuration. -/
def RingCfg.word (c : RingCfg) (en : Bool) : BitVec 64 :=
  (if en then 0x8000000000000000 else 0) ||| (if c.pcntEn then 0x4000000000000000 else 0) ||| (c.port.setWidth 64 <<< 56)
    ||| (c.slot.setWidth 64 <<< 48) ||| (c.ccnt.setWidth 64 <<< 32) ||| (c.pcnt.setWidth 64 <<< 16) ||| c.size.setWidth 64

/-- Fields of `IRS_SMP_CFG`. -/
structure SmpCfg where
  en     : Bool
  pcntEn : Bool
  vi     : Vi
  qmask  : BitVec 16
  period : BitVec 16
  size   : BitVec 5
  deriving DecidableEq, Repr

/-- The register value of a sampling configuration. -/
def SmpCfg.word (c : SmpCfg) : BitVec 64 :=
  (if c.en then 0x8000000000000000 else 0) ||| (if c.pcntEn then 0x4000000000000000 else 0) ||| (c.vi.setWidth 64 <<< 48)
    ||| (c.qmask.setWidth 64 <<< 32) ||| (c.period.setWidth 64 <<< 16) ||| c.size.setWidth 64

/-- The SecTAG of a received frame, and whether its ICV verifies under the association's key (R492). -/
structure MsecTag where
  sc    : BitVec 3
  an    : BitVec 2
  pn    : BitVec 64
  icvOk : Bool
  deriving DecidableEq, Repr

/-- A frame as it arrives at a MAC, FCS excluded: in clear, without its SecTAG and ICV (R345, R492). -/
structure RxFrame where
  data    : List Byte
  tag     : Option MsecTag
  stopped : Bool      -- the input stopped mid-frame
  overrun : Bool      -- it found the input buffer full (R349)
  deriving DecidableEq, Repr

/-- What a Steward does with a slow-path frame of a protocol the firmware owns or not (R512). -/
inductive SlowUse where
  | consume          -- a protocol the firmware owns
  | other            -- every other frame
  deriving DecidableEq, Repr

/-- Fields of `PRM_MODE` that software writes. -/
structure PrmModeW where
  l3bad : Bool
  deepSlow : Bool
  fallback : Bool
  fragSlow : Bool
  keysel : Bool
  mode : BitVec 2
  deriving DecidableEq, Repr

/-- Transports of SPDM and MCTP (R486, R521): the DOE mailbox of a PF, PCIe VDM of an upstream port, SMBus. -/
inductive SpdmVia where
  | doe (port : Fin 2)
  | vdm (port : Fin 2)
  | smbus
  deriving DecidableEq, Repr

/-- A firmware image (R481, R507): what its verification rests on. -/
structure Image where
  version : BitVec 32
  svn     : BitVec 8
  key     : Option (BitVec 2)    -- fused key whose digest its public key has
  sigOk   : Bool                 -- its signature verifies
  digest  : BitVec 384
  deriving DecidableEq, Repr

/-- What a storage controller answers to STG_BIND (R339, R505): block size exponent where it became ready. -/
structure BindIn where
  ready : Bool
  bsz   : BitVec 16
  qpairs : BitVec 8
  tmo   : Nat
  wz    : Bool
  ns    : List (BitVec 32 × BitVec 16)
  deriving DecidableEq, Repr

/-- Mailbox commands (R505), with what the image or the controller brings. -/
inductive MbCmd where
  | getInfo | featureSet | featureGet
  | stage (img : Image)
  | activate | activateCancel | svnCommit | keyRevoke | logCfg | traceCfg
  | stgBind (r : BindIn)
  | stgUnbind | slowCfg | ptpCfg | restart
  | bad (op : BitVec 8)
  deriving DecidableEq, Repr

/-- Fields of `SEC_MSEC_CFG` (R492). -/
structure MsecCfg where
  en      : Bool
  xpn     : Bool
  strict  : Bool
  protect : Bool
  replay  : Bool
  txAn    : BitVec 2
  window  : BitVec 30
  deriving DecidableEq, Repr

/-- A key of an IDE stream (R490): stream, direction, sub-stream (posted, non-posted, completion), key set. -/
structure IdeKey where
  stream : Fin 2
  tx     : Bool
  sub    : Fin 3
  set    : Fin 2
  deriving DecidableEq, Repr

/-- A Barvar link packet as a receiver sees it (R436): header fields, body, the state of its CRCs, and a stomp marker (R439). Device
codes as DST of the link header. -/
structure LinkPkt where
  ty     : BitVec 8
  vc     : BitVec 4
  dord   : Bool := false    -- DO
  dl     : Bool := false
  detour : Bool := false
  dst    : BitVec 16
  src    : BitVec 16
  lseq   : BitVec 12 := 0
  hops   : BitVec 6 := 0
  body   : List Byte := []
  hcrcOk : Bool := true
  pcrcOk : Bool := true
  stomp  : Bool := false
  deriving DecidableEq, Repr

/-- What a LINK_INIT carries (R440). -/
structure LinkInit where
  dev  : BitVec 16
  use_ : BitVec 2
  dir  : BitVec 3
  size : BitVec 12        -- NXM, NYM, NZM, four bits each
  deriving DecidableEq, Repr

/-- The fields of `PHY_CFG` besides EN (R434). -/
structure PhyCfgW where
  use_ : BitVec 2
  dir  : BitVec 3
  maxFrame : BitVec 14
  deriving DecidableEq, Repr

/-- What a PAIR packet carries of its sender (R448): MODE, ROLE and `DEV_FAB_CFG` sizes. -/
structure PairMsg where
  mode : BitVec 2
  role : Bool             -- STANDBY
  size : BitVec 12
  deriving DecidableEq, Repr

/-- How the write and read-back of a chunk, or of the trailer, end at a snapshot's target (R465, R468). -/
inductive TargetOut where
  | ok
  | mismatch
  | failed (status : BitVec 8)
  deriving DecidableEq, Repr

/-- What the header and trailer of a catalogue entry hold (R474), with its directory and whether its page table has PTCRC. -/
structure CatIn where
  hdrOk    : Bool
  trailerOk : Bool
  step     : BitVec 64
  setId    : BitVec 64
  shard    : BitVec 16
  shards   : BitVec 16
  shape    : BitVec 64
  enc      : Bool
  ivbase   : BitVec 32
  sealTime : BitVec 64
  dir      : List (BitVec 12 × Bool)    -- INDEX and PLACE of each directory entry
  tableOk  : Bool
  deriving DecidableEq, Repr

/-- A page as a restore reads it from its target (R475). -/
structure PageIn where
  data   : List Byte
  poison : List (BitVec 10)
  authOk : Bool
  crcOk  : Bool
  failed : Option (BitVec 8)
  deriving DecidableEq, Repr

/-- How an upstream port is reset (R578). -/
inductive PortRst where
  | perst | hotReset | linkLoss
  deriving DecidableEq, Repr

/-- A metering cartridge and what it keeps without power (R523, R527, R528, R537). -/
structure Cartridge where
  serial   : Word := 0
  fwVer    : BitVec 32 := 0
  boots    : BitVec 32 := 0
  seq      : Word := 0                    -- SEQ of the next record
  eTotal   : Word := 0                    -- E_TOTAL at the end of the last interval, mJ
  time     : Word := 0                    -- ISLAND_TIME at the end of the last interval
  cum      : Tab Nat := []                -- energy apportioned to each account, 256 for U
  records  : List (Word × List Byte) := []   -- retained records with their SEQ, newest first
  tampered : Bool := false
  sat      : Bool := false                -- SATURATED
  unclean  : Bool := false                -- the last removal was not recorded
  deriving DecidableEq, Repr

/-- What the island measured since the interval began (R526, R535). -/
structure Measured where
  ns   : BitVec 30     -- powered time
  e    : Word          -- energy, mJ
  vMin : BitVec 32
  vMax : BitVec 32
  pMax : BitVec 32
  deriving DecidableEq, Repr

/-- What becomes of the oldest frame on the tally link (R524, R531). -/
inductive FrameFate where
  | good | bad
  | lost      -- it never arrives
  | strange   -- a frame of another kind arrives instead
  deriving DecidableEq, Repr

/-- The cartridge found at a power-up of the island (R540). -/
inductive CartIn where
  | same | absent
  | other (c : Cartridge)
  deriving DecidableEq, Repr

/-- Wake sources that no command of the host's own brings (R549, R550). -/
inductive WakeSrc where
  | hostRead     -- a host read of a block that does not answer in Dark
  | smbus
  deriving DecidableEq, Repr

/-- Routes of a debug command (R581). -/
inductive DbgVia where
  | jtag
  | pf (port : Fin 2)
  deriving DecidableEq, Repr

/-- Fields of `CNT_SMP_CFG` (R592). -/
structure SmpW where
  vi     : Vi
  period : BitVec 16
  size   : BitVec 5
  deriving DecidableEq, Repr

/-- Fields of `TRC_CFG` (R597-R599). -/
structure TrcW where
  en      : Bool
  reserve : BitVec 3
  ovfMib  : BitVec 13
  postKib : BitVec 24
  deriving DecidableEq, Repr

/-- What training and self-test find (R610, R615). -/
inductive TrainOut where
  | ok
  | stack (n : Fin 32)
  | bridge (n : Fin 32)
  | link (n : Fin 6)
  | facet (f : BitVec 10)
  deriving DecidableEq, Repr

/-- Fields of `FW_LOG_RING` (R514). -/
structure LogRingW where
  base : Word
  en   : Bool
  size : BitVec 5
  deriving DecidableEq, Repr

/-- Increments of one account since the previous tally frame, for the kinds the hardware counts beside the model (R529). -/
structure TallyIn where
  account : Option Vi      -- none for U
  incs    : List Word      -- by kind from 0xF0 on
  deriving DecidableEq, Repr

/-- Address spaces of a register write. -/
inductive RegSpace where
  | bar0
  | config (bus : BitVec 8)  -- configuration space of the function (R320), addressed by this bus number
  | switch (n : Fin 10)  -- of a downstream switch port 0 to 5, of the internal port of a switch, 6 and 7, or of its upstream port, 8 and 9 (R329)
  deriving DecidableEq, Repr

/-- Access widths (R9). -/
inductive AccW where
  | w8 | w16 | w32 | w64
  deriving DecidableEq, Repr

/-- A read of `UNT_CNTVAL`: the function, the byte of the register it starts at, and its width (R7, R59). -/
structure CntRead where
  fn   : Fn
  part : BitVec 3
  w    : AccW
  deriving DecidableEq, Repr

/-- A barrier whose answers are late at a near unit, and whether the near unit cannot reach its home (R243). -/
structure NearWait where
  obj : BitVec 16
  cut : Bool
  deriving DecidableEq, Repr

/-- A downstream port whose link was lost, and whether its device was removed (R330, R344). -/
structure PortLoss where
  port    : Fin 6
  removed : Bool
  deriving DecidableEq, Repr

/-- How a request that reaches the endpoint is bad (R320). -/
inductive BadTlp where
  | malformed | ecrc | unsupported   -- the last: an I/O or AtomicOp request
  deriving DecidableEq, Repr

/-- An error the hardware's own checkers find that no other command meets (R571): correctable and uncorrectable errors of SRAM, links
inside the device, and internal structures. Structures: 1 store, 2 registers, 3 fold unit, 4 context cache, 5 sync unit, 6 composite
table. -/
inductive HwFind where
  | memCe (block : BitVec 36)   -- a read of the block meets an error of one symbol, which the code corrects (R209)
  | memBad (block : BitVec 36)  -- an error the code cannot correct stands in the block; the next read of it finds it (R209)
  | facetCe (f : BitVec 10) (structure_ : Fin 3)
  | quadCe (q : BitVec 2) (structure_ : Fin 3)
  | facetUe (f : BitVec 10) (store : Bool) (slots : List (BitVec 6))   -- the threads that hold the word
  | foldUe (f : BitVec 10) (ea : EaReg)
  | contextUe (n : Nat)
  | syncUe (obj : BitVec 16)
  | linkDead (n : Fin 6)        -- a die-to-die link that cannot deliver
  | bridgeDead (n : Fin 32)     -- a column bridge that cannot deliver
  | dieLink (n : Fin 6)         -- a replay of a die-to-die link
  | internal (structure_ : BitVec 8)
  | recRefused (vi : Vi) (q : BitVec 4)   -- the host will refuse the next completion record of a queue (R312)
  | swErr (n : Fin 10) (cor : Bool) (b : Fin 32)   -- an error of the links of a switch function (R320, R330)
  | tlp (fn : Fn) (kind : BadTlp) (hdr : List Byte)   -- a request the endpoint of a function refuses, with its header (R320)
  deriving DecidableEq, Repr

/-- The commands of the block, one constructor for each row of the table, in the table's order. -/
inductive Instr where
  -- Scalar integer (R117, R136)
  | add (t : Tid) (d a : Reg) (b : Src)
  | sub (t : Tid) (d a : Reg) (b : Src)
  | addv (t : Tid) (d a : Reg) (b : Src)
  | subv (t : Tid) (d a : Reg) (b : Src)
  | and (t : Tid) (d a : Reg) (b : Src)
  | or (t : Tid) (d a : Reg) (b : Src)
  | xor (t : Tid) (d a : Reg) (b : Src)
  | andn (t : Tid) (d a : Reg) (b : Src)
  | slt (t : Tid) (d a : Reg) (b : Src)
  | sltu (t : Tid) (d a : Reg) (b : Src)
  | seq (t : Tid) (d a : Reg) (b : Src)
  | min (t : Tid) (d a : Reg) (b : Src)
  | minu (t : Tid) (d a : Reg) (b : Src)
  | max (t : Tid) (d a : Reg) (b : Src)
  | maxu (t : Tid) (d a : Reg) (b : Src)
  | shl (t : Tid) (d a : Reg) (b : Src)
  | shr (t : Tid) (d a : Reg) (b : Src)
  | sra (t : Tid) (d a : Reg) (b : Src)
  | rol (t : Tid) (d a : Reg) (b : Src)
  | ror (t : Tid) (d a : Reg) (b : Src)
  | mov (t : Tid) (d : Reg) (src : Src)
  | neg (t : Tid) (d a : Reg)
  | negs (t : Tid) (d a : Reg)
  | sext (t : Tid) (fw : SextW) (d a : Reg)
  | zextW (t : Tid) (d a : Reg)
  | movhi (t : Tid) (d a : Reg) (imm : Imm)
  | mul (t : Tid) (d a b : Reg)
  | mulv (t : Tid) (d a b : Reg)
  | mulh (t : Tid) (d a b : Reg)
  | mulhu (t : Tid) (d a b : Reg)
  | div (t : Tid) (d a b : Reg)
  | divu (t : Tid) (d a b : Reg)
  | rem (t : Tid) (d a b : Reg)
  | remu (t : Tid) (d a b : Reg)
  | popc (t : Tid) (d a : Reg)
  | clz (t : Tid) (d a : Reg)
  | ctz (t : Tid) (d a : Reg)
  | rngk (t : Tid) (d a b : Reg)
  -- Control (R118)
  | b (t : Tid) (imm : Imm)
  | call (t : Tid) (imm : Imm)
  | bcc (t : Tid) (c : Cond) (a d : Reg) (imm : Imm)
  | br (t : Tid) (a : Reg)
  | callr (t : Tid) (a : Reg)
  | ret (t : Tid)
  | wait (t : Tid) (a b : BitVec 6)
  | brep (t : Tid) (a : Reg) (len : Imm)
  | tend (t : Tid)
  -- Memory (R121, R125)
  | ld (t : Tid) (fw : LdW) (d a : Reg) (imm : Imm)
  | st (t : Tid) (fw : StW) (d a : Reg) (imm : Imm)
  | vld (t : Tid) (f : VMem)
  | vst (t : Tid) (f : VMem)
  | vldx (t : Tid) (f : VIdx)
  | vstx (t : Tid) (f : VIdx)
  | lds (t : Tid) (fw : LdW) (d a : Reg) (imm : Imm)
  | sts (t : Tid) (fw : StW) (d a : Reg) (imm : Imm)
  | vlds (t : Tid) (f : VMem)
  | vsts (t : Tid) (f : VMem)
  | amo (t : Tid) (op : AmoOp) (dbl n : Bool) (d a b c : Reg)
  | rspush (t : Tid) (a : Reg) (imm : Imm)
  | rspop (t : Tid) (a : Reg) (imm : Imm)
  -- String (R134)
  | movs (t : Tid) (desc exit : Bool) (d sr n : Reg)
  | fills (t : Tid) (exit : Bool) (d n v : Reg)
  | cmps (t : Tid) (exit : Bool) (r a b n : Reg)
  | scans (t : Tid) (var : ScanVar) (exit : Bool) (r p n c : Reg)
  | xlats (t : Tid) (del exit : Bool) (d sr n tb e : Reg)
  | rhash (t : Tid) (exit : Bool) (h p n k : Reg) (w : BitVec 6)
  | distsB (t : Tid) (exit : Bool) (d a b c : Reg)
  -- Vector (R142)
  | vaddI (t : Tid) (sub : Bool) (f : VOp)
  | vadds (t : Tid) (sub : Bool) (f : VOp)
  | vminI (t : Tid) (k : MinMax) (f : VOp)
  | vlogic (t : Tid) (k : VLog) (f : VOp)
  | vshift (t : Tid) (k : VShift) (f : VOp)
  | vnegI (t : Tid) (f : VUn)
  | vcmp (t : Tid) (k : VCmp) (et : EType) (md : MReg) (va : VReg) (vb : VB) (km : MReg)
  | vsel (t : Tid) (et : EType) (vd va vb : VReg) (km : MReg)
  | vmov (t : Tid) (f : VUn)
  | vbcast (t : Tid) (et : EType) (vd : VReg) (g : Reg) (km : MReg)
  | vperm (t : Tid) (et : EType) (vd va vb : VReg) (km : MReg)
  | vins (t : Tid) (et : EType) (vd : VReg) (g : Reg) (x : BitVec 7) (km : MReg)
  | vext (t : Tid) (et : EType) (g : Reg) (va : VReg) (x : BitVec 7)
  | vaddF (t : Tid) (k : VArith) (f : VOp)
  | vfma (t : Tid) (f : VOp) (vc : VReg)
  | vminF (t : Tid) (max : Bool) (f : VOp)
  | vnegF (t : Tid) (abs : Bool) (f : VUn)
  | vmac (t : Tid) (f : VOp)
  | vmulI (t : Tid) (f : VOp)
  | vcvt (t : Tid) (f : VCvt)
  | vcvtu (t : Tid) (f : VCvt)
  | vredAdd (t : Tid) (et : EType) (g : Reg) (va : VReg) (km : MReg)
  | vredMinmax (t : Tid) (k : MinMax) (et : EType) (g : Reg) (va : VReg) (km : MReg)
  | maskLogic (t : Tid) (k : MaskOp) (md a b : MReg)
  | mset (t : Tid) (md : MReg) (x : BitVec 7) (g : Reg)
  | mpop (t : Tid) (et : EType) (g : Reg) (a : MReg)
  -- Exact accumulators (R146)
  | eaadd (t : Tid) (et : EType) (ea : EaReg) (va : VReg) (km : MReg)
  | eamac (t : Tid) (et : EType) (ea : EaReg) (va vb : VReg) (km : MReg)
  | eaclr (t : Tid) (ea : EaReg)
  | earound (t : Tid) (et : EType) (g : Reg) (ea : EaReg)
  | eainfo (t : Tid) (g : Reg) (ea : EaReg)
  | eamerge (t : Tid) (ea : EaReg) (g : Reg)
  | easave (t : Tid) (g : Reg) (ea : EaReg)
  -- Sync (R148)
  | ubar (t : Tid) (d : Reg) (scope : Imm)
  | sbar (t : Tid) (d a : Reg)
  | semp (t : Tid) (d a b : Reg)
  | semv (t : Tid) (d a b : Reg)
  | semt (t : Tid) (d a b : Reg)
  | ecadd (t : Tid) (d a b : Reg)
  | ecwait (t : Tid) (d a b : Reg)
  | ecread (t : Tid) (d a : Reg)
  | lkacq (t : Tid) (d a : Reg)
  | lkrel (t : Tid) (d a : Reg)
  | lktry (t : Tid) (d a : Reg)
  -- System (R150)
  | mfs (t : Tid) (d : Reg) (sreg : Imm)
  | mts (t : Tid) (sreg : Imm) (a : Reg)
  | brk (t : Tid) (imm : Imm)
  | hcall (t : Tid) (imm : Imm)
  | nop (t : Tid)
  | launch (t : Tid) (d a : Reg)
  | tresume (t : Tid) (a : Reg)
  | tendOther (t : Tid) (a d : Reg)
  | evwait (t : Tid) (d : Reg)
  | sysrd (t : Tid) (d a : Reg)
  | syswr (t : Tid) (a d : Reg)
  | evpost (t : Tid) (a d : Reg)
  | handlerModeTrap (vi : Vi)
  | loadComplete (t : Tid) (op : Nat) (status : BitVec 8) (data : List Byte)
  | storeComplete (t : Tid) (op : Nat) (status : BitVec 8)
  | threadDrained (e : EndedAt)
  | saveComplete (t : Tid)
  | threadResume (w : SavedId)
  | launchTake (vi : Vi) (q : BitVec 4)
  | launchAdmit (num : Nat)
  | cmpCreate (fn : Fn) (c : CmpArgs)
  | cmpAdd (fn : Fn) (c : CmpArgs)
  | cmpRemove (fn : Fn) (c : CmpArgs)
  | cmpDestroy (fn : Fn) (c : CmpArgs)
  | cmpRead (fn : Fn) (c : CmpArgs)
  | cmpReset (fn : Fn) (c : CmpArgs)
  | cmpExport (fn : Fn) (c : CmpArgs)
  | compositeConfirm (m : ConfirmMsg)
  | unitResetComplete
  | reshapingComplete (what : Reshaped)
  | untCntvalRead (rd : CntRead)
  | gtMap (fn : Fn) (vi : Vi) (index : BitVec 12) (confirmed : Bool)
  | gtUnmap (fn : Fn) (vi : Vi) (index : BitVec 12)
  | gtSetattr (fn : Fn) (vi : Vi) (index : BitVec 12) (confirmed : Bool)
  | gtRead (fn : Fn) (vi : Vi) (index : BitVec 12)
  | scrubComplete (g : BitVec 12)
  | makeColumnLocal (fn : Fn) (row : BitVec 7)
  | makeSpread (fn : Fn) (row : BitVec 7)
  | viSpillWrite (fn : Fn) (vi : Vi) (host : Bool) (v : BitVec 64)
  | devCtxSpillWrite (fn : Fn) (v : BitVec 64)
  | patrolScrub (block : BitVec 36) (found : ScrubFinds)
  | mirrorWr (src : BitVec 12) (g : BitVec 12) (off : BitVec 30) (data : List Byte) (marker : BitVec 30)
  | mirrorAck (seq : BitVec 32)
  | synConfig (fn : Fn) (c : SynArgs)
  | synRead (fn : Fn) (c : SynArgs)
  | synRestore (fn : Fn) (c : SynArgs)
  | synUnset (fn : Fn) (c : SynArgs)
  | hostSemv (fn : Fn) (c : SynArgs)
  | hostSemt (fn : Fn) (c : SynArgs)
  | hostEcadd (fn : Fn) (c : SynArgs)
  | hostEcread (fn : Fn) (c : SynArgs)
  | syncOpAtHome (a : SyncArrival)
  | nearUnitRelease (q : BitVec 2) (obj : BitVec 16)
  | syncWithdraw (t : Tid) (op : Nat)
  | syncWatchdog (obj : BitVec 16)
  | nearUnitTimeout (q : BitVec 2) (late : NearWait)
  | vfEnable (fn : Fn) (n : BitVec 16)
  | vfDisable (fn : Fn)
  | viPollWrite (fn : Fn) (vi : Vi) (v : BitVec 64)
  | give (fn : Fn) (vi : Vi) (r : ResSel)
  | share (fn : Fn) (vi : Vi) (r : ResSel)
  | take (fn : Fn) (vi : Vi) (r : ResSel)
  | reshare (fn : Fn) (vi : Vi) (r : ResSel)
  | giveGroup (fn : Fn) (vi : Vi) (r : ResSel)
  | takeGroup (fn : Fn) (vi : Vi) (r : ResSel)
  | resRead (fn : Fn) (vi : Vi) (r : ResSel)
  | viShareWrite (fn : Fn) (vi : Vi) (v : BitVec 64)
  | viLimitsWrite (fn : Fn) (vi : Vi) (v : BitVec 64)
  | handlerStart (fn : Fn) (vi : Vi) (c : HdlCfg)
  | handlerStop (fn : Fn) (vi : Vi) (c : HdlCfg)
  | viEvRingWrite (fn : Fn) (vi : Vi) (v : BitVec 64)
  | viEvAckWrite (fn : Fn) (vi : Vi) (v : BitVec 64)
  | viEvPostWrite (fn : Fn) (vi : Vi) (v : BitVec 64)
  | instanceReset (fn : Fn) (vi : Vi)
  | resetDrainComplete (vi : Vi)
  | resetForceTimeout (vi : Vi)
  | releaseComplete (vi : Vi)
  | busMasterClear (fn : Fn)
  | busMasterSet (fn : Fn)
  | powerStateWrite (fn : Fn) (d3 : Bool)
  | functionLevelReset (fn : Fn)
  | bar2Read (fn : Fn) (off : BitVec 36) (n : BitVec 13)
  | bar2Write (fn : Fn) (off : BitVec 36) (data : List Byte) (poison : Bool)
  | sqEnable (fn : Fn) (vi : Vi) (q : BitVec 4) (c : SqCfgW)
  | sqDisable (fn : Fn) (vi : Vi) (q : BitVec 4) (c : SqCfgW)
  | sqDrainComplete (vi : Vi) (q : BitVec 4)
  | cqEnable (fn : Fn) (vi : Vi) (q : BitVec 4) (size : BitVec 5)
  | cqDisable (fn : Fn) (vi : Vi) (q : BitVec 4) (size : BitVec 5)
  | sqDoorbell (fn : Fn) (vi : Vi) (q : BitVec 4) (index : BitVec 16)
  | cqDoorbell (fn : Fn) (vi : Vi) (q : BitVec 4) (index : BitVec 16)
  | descriptorFetch (vi : Vi) (q : BitVec 4) (n : BitVec 4) (out : RdOut) (data : List Byte)
  | pollPageUpdate (vi : Vi)
  | hostReadCompletion (vi : Vi) (q : BitVec 4) (seq : BitVec 48) (out : RdOut) (data : List Byte)
  | completionTimeout (r : ReadOf) (tag : BitVec 14) (hdr : List Byte)
  | unexpectedCompletion (fn : Fn) (tag : BitVec 14) (hdr : List Byte)
  | l0pEnter (port : Fin 2) (lanes : BitVec 4)
  | aspmL1Enter (port : Fin 2) (sub : L1Sub)
  | linkPowerExit (port : Fin 2)
  | upstreamPortReset (port : Fin 2) (kind : PortRst)
  | perstDeassert (port : Fin 2)
  | copy (vi : Vi) (q : BitVec 4)
  | descriptorGateRelease (vi : Vi) (q : BitVec 4) (seq : BitVec 48)
  | stgRead (vi : Vi) (q : BitVec 4)
  | stgWrite (vi : Vi) (q : BitVec 4)
  | stgFlush (vi : Vi) (q : BitVec 4)
  | stgDeallocate (vi : Vi) (q : BitVec 4)
  | stgWriteZeroes (vi : Vi) (q : BitVec 4)
  | nvmeCompletion (vi : Vi) (q : BitVec 4) (seq : BitVec 48) (status : BitVec 15) (data : List Byte)
  | nvmeCmdTimeout (vi : Vi) (q : BitVec 4) (seq : BitVec 48)
  | storageWindowAccess (port : Fin 2) (rid : BitVec 16) (off : BitVec 34) (r : WinReq) (ext : List Byte)
  | downstreamLinkLoss (loss : PortLoss)
  | downstreamPerstRelease (port : Fin 6)
  | tcpRetransmit (target : BitVec 6) (data : List Byte)
  | frameReceive (port : Port) (f : RxFrame)
  | prmModeWrite (fn : Fn) (port : Port) (m : PrmModeW)
  | ruleWrite (fn : Fn) (port : Port) (index : BitVec 11)
  | ruleRead (fn : Fn) (port : Port) (index : BitVec 11)
  | ruleClear (fn : Fn) (port : Port) (index : BitVec 11)
  | commit (fn : Fn) (port : Port)
  | bankCopyComplete (port : Port)
  | test (fn : Fn) (port : Port) (pass : Bool)
  | tplWrite (fn : Fn) (port : Port) (index : BitVec 11)
  | tplRead (fn : Fn) (port : Port) (index : BitVec 11)
  | bankError (port : Port)
  | flowInsert (fn : Fn) (port : Port) (vi : Vi)
  | flowRemove (fn : Fn) (port : Port) (ctx : BitVec 24)
  | flowRead (fn : Fn) (port : Port) (ctx : BitVec 24)
  | rxRingEnable (fn : Fn) (vi : Vi) (r : BitVec 4) (c : RingCfg)
  | rxRingDisable (fn : Fn) (vi : Vi) (r : BitVec 4) (c : RingCfg)
  | slowPathFrame (quad : BitVec 2) (owned : Bool)
  | reassemblyTimeout (quad : BitVec 2) (n : Nat)
  | frameToIris (port : Port) (src : IrisSrc) (data : List Byte)
  | shaperRefill (port : Port) (sh : ShaperId)
  | frameTransmitStart (port : Port)
  | frameTransmitEnd (port : Port)
  | viShapeWrite (fn : Fn) (vi : Vi) (port : Port) (v : BitVec 64)
  | irsCshapeWrite (fn : Fn) (port : Port) (c : BitVec 2) (v : BitVec 64)
  | irsQcfgWrite (fn : Fn) (port : Port) (q : BitVec 4) (v : BitVec 64)
  | configChange (fn : Fn) (port : Port) (c : GclW)
  | cancel (fn : Fn) (port : Port) (c : GclW)
  | gateEnWrite (fn : Fn) (port : Port) (c : GclW)
  | gateEntryAdvance (port : Port)
  | configChangeTime (port : Port)
  | txRingEnable (fn : Fn) (vi : Vi) (r : BitVec 4) (c : RingCfg)
  | txRingDisable (fn : Fn) (vi : Vi) (r : BitVec 4) (c : RingCfg)
  | txSlotTake (vi : Vi) (r : BitVec 4) (ext : List Byte)
  | queueSample (port : Port)
  | sampleRingEnable (fn : Fn) (port : Port) (c : SmpCfg)
  | brmWrite (vi : Vi) (q : BitVec 4)
  | brmRead (vi : Vi) (q : BitVec 4)
  | brmAtomic (vi : Vi) (q : BitVec 4)
  | qpCreate (vi : Vi) (q : BitVec 4)
  | connect (vi : Vi) (q : BitVec 4)
  | qpDestroy (vi : Vi) (q : BitVec 4)
  | qpQuery (vi : Vi) (q : BitVec 4)
  | register (vi : Vi) (q : BitVec 4)
  | revoke (vi : Vi) (q : BitVec 4)
  | revokeComplete (ctx : BitVec 24)
  | qpCloseComplete (qp : BitVec 24)
  | writePacket (p : Pkt)
  | readReq (p : Pkt)
  | readResp (p : Pkt)
  | atomicReq (p : Pkt)
  | atomicResp (p : Pkt)
  | ack (p : Pkt)
  | nak (p : Pkt)
  | held (p : Pkt)
  | connectReq (p : Pkt)
  | connectResp (p : Pkt)
  | disconnect (p : Pkt)
  | placementPerformed (qp : BitVec 24) (psn : BitVec 32)
  | ackTimer (qp : BitVec 24)
  | retransmitTimeout (qp : BitVec 24) (psn : BitVec 32)
  | busyRetransmit (qp : BitVec 24) (psn : BitVec 32)
  | connectReqTimer (qp : BitVec 24)
  | connectTimeout (qp : BitVec 24)
  | messageExpiry (qp : BitVec 24) (msn : BitVec 32)
  | portEnable (fn : Fn) (port : Port) (c : PhyCfgW)
  | portDisable (fn : Fn) (port : Port) (c : PhyCfgW)
  | linkPacketReceive (port : Port) (p : LinkPkt)
  | linkRetryRequest (port : Port) (lseq : BitVec 12)
  | linkCtlAck (port : Port) (lseq : BitVec 12) (credits : Vector Nat 8)
  | linkInit (port : Port) (far : LinkInit)
  | laneFailure (port : Port) (lane : Fin 8)
  | lossOfLock (port : Port)
  | trainingTimeout (port : Port)
  | retrainTimer (port : Port)
  | devFabCfgWrite (fn : Fn) (v : BitVec 64)
  | devPairCfgWrite (fn : Fn) (v : BitVec 64)
  | takeover (fn : Fn)
  | resync (fn : Fn)
  | resyncComplete
  | pairHeartbeat
  | pairPacketReceive (m : PairMsg)
  | partnerLost
  | mirrorLostNotice
  | mirrorLostRepeat
  | mirrorLostAck
  | snapshot (fn : Fn) (vi : Vi) (fits : Bool)
  | snapshotArm (vi : Vi)
  | pageCopy (vi : Vi) (page : Nat)
  | chunkVerify (vi : Vi) (pages : List Nat) (out : TargetOut)
  | snapshotSeal (vi : Vi) (out : TargetOut)
  | restore (fn : Fn) (vi : Vi)
  | catalogueReadComplete (vi : Vi) (found : List CatIn)
  | restorePage (vi : Vi) (p : PageIn)
  | abort (fn : Fn) (vi : Vi)
  | install (fn : Fn) (slot : BitVec 8) (vi : Vi) (ext : List Byte)
  | clear (fn : Fn) (slot : BitVec 8)
  | keyRead (fn : Fn) (slot : BitVec 8)
  | installSa (fn : Fn) (vi : Vi) (ext : List Byte)
  | retireSa (fn : Fn) (vi : Vi) (ext : List Byte)
  | msecCfgWrite (fn : Fn) (port : Port) (c : MsecCfg)
  | getVersion (via : SpdmVia)
  | getCapabilities (via : SpdmVia)
  | negotiateAlgorithms (via : SpdmVia) (match_ : Bool)
  | getDigests (via : SpdmVia)
  | getCertificate (via : SpdmVia) (slot : BitVec 4)
  | challenge (via : SpdmVia) (slot : BitVec 4) (nonce : BitVec 256)
  | getMeasurements (via : SpdmVia) (block : BitVec 8)
  | keyExchange (via : SpdmVia) (beat : Nat)
  | finish (via : SpdmVia) (sid : Nat) (ok : Bool)
  | heartbeat (via : SpdmVia) (sid : Nat)
  | keyUpdate (via : SpdmVia) (sid : Nat)
  | endSession (via : SpdmVia) (sid : Nat)
  | setKek (via : SpdmVia) (sid : Nat) (kek : BitVec 256)
  | ideQuery (port : Fin 2) (sid : Nat)
  | keyProg (port : Fin 2) (sid : Nat) (k : IdeKey) (key : BitVec 256)
  | kSetGo (port : Fin 2) (sid : Nat) (k : IdeKey)
  | kSetStop (port : Fin 2) (sid : Nat) (k : IdeKey)
  | getInfo (fn : Fn) (tag : BitVec 8)
  | featureSet (fn : Fn) (tag : BitVec 8)
  | featureGet (fn : Fn) (tag : BitVec 8)
  | stage (fn : Fn) (tag : BitVec 8) (img : Image)
  | activate (fn : Fn) (tag : BitVec 8)
  | activateCancel (fn : Fn) (tag : BitVec 8)
  | deferredActivationTimer
  | svnCommit (fn : Fn) (tag : BitVec 8)
  | keyRevoke (fn : Fn) (tag : BitVec 8)
  | logCfg (fn : Fn) (tag : BitVec 8)
  | traceCfg (fn : Fn) (tag : BitVec 8)
  | stgBind (fn : Fn) (tag : BitVec 8) (r : BindIn)
  | stgUnbind (fn : Fn) (tag : BitVec 8)
  | slowCfg (fn : Fn) (tag : BitVec 8)
  | ptpCfg (fn : Fn) (tag : BitVec 8)
  | restart (fn : Fn) (tag : BitVec 8)
  | ptpMessage (port : Port) (rate : Int)
  | stewardWatchdog (core : BitVec 4) (pc : Word)
  | stewardFault (core : BitVec 4) (pc : Word)
  | stewardRestartDone (core : BitVec 4)
  | fwLogRingWrite (fn : Fn) (c : LogRingW)
  | fwLogAckWrite (fn : Fn) (r : BitVec 48)
  | mctpControl (via : SpdmVia) (eid : Option (BitVec 8))
  | pldmPlatform (via : SpdmVia) (sensor : BitVec 16)
  | pldmFirmwareUpdate (via : SpdmVia) (img : Image)
  | activateFirmware (via : SpdmVia)
  | tallyFrameSend (blocks : List TallyIn)
  | tallyFrameReceive (fate : FrameFate)
  | intervalEnd (m : Measured)
  | fetch (fn : Fn) (tag : BitVec 8)
  | quote (fn : Fn) (tag : BitVec 8) (ns : BitVec 30) (e : Word)
  | sealBroken
  | islandPowerUp (c : CartIn) (m : Measured)
  | goBright (fn : Fn)
  | goDim (fn : Fn)
  | goDark (fn : Fn)
  | darkEntryComplete
  | autoDimTimeout
  | wake (src : WakeSrc)
  | wakeTimer
  | pwrCluFreqWrite (fn : Fn) (c : Fin 128) (v : BitVec 5)
  | freqChangeDone (c : Fin 128)
  | lpeChcfgWrite (fn : Fn) (crit : BitVec 16) (warn : BitVec 16)
  | loupeSample (ch : Fin 74) (raw : BitVec 16)
  | loupeMsTick
  | inputOvercurrent (ma : BitVec 16)
  | errorHandle (found : List HwFind)
  | errorSecondTick
  | errAckWrite (fn : Fn) (r : BitVec 48)
  | errCfgWrite (fn : Fn) (auto_ : Bool)
  | errFctOffWrite (fn : Fn) (k : Fin 16) (off : Word)
  | devTimeMax
  | deviceReset (fn : Fn)
  | deviceResetComplete
  | readPhys (via : DbgVia) (addr : Word)
  | writePhys (via : DbgVia) (addr : Word) (data : Word)
  | readSreg (via : DbgVia) (addr : Word)
  | writeSreg (via : DbgVia) (addr : Word) (data : Word)
  | haltThread (via : DbgVia) (index : BitVec 32) (launch : Word)
  | resumeThread (via : DbgVia) (vi : Vi) (rec_ : Word)
  | endThread (via : DbgVia) (vi : Vi) (rec_ : Word) (status : BitVec 8)
  | haltCore (via : DbgVia) (core : BitVec 4)
  | stepCore (via : DbgVia) (core : BitVec 4)
  | resumeCore (via : DbgVia) (core : BitVec 4)
  | extest (shift : List Bool)
  | samplePreload (shift : List Bool)
  | idcode
  | dbgacc (op : BitVec 8) (addr : Word) (data : Word)
  | bypass
  | tapReset
  | cntVicfgWrite (fn : Fn) (en : Bool) (autoReset : Bool)
  | samplerEnable (fn : Fn) (k : Fin 4) (c : SmpW)
  | counterSample (k : Fin 4)
  | trcCfgWrite (fn : Fn) (c : TrcW)
  | fire (fn : Fn)
  | arm (fn : Fn)
  | trcMarkWrite (fn : Fn) (v : Word)
  | trcHostAckWrite (fn : Fn) (v : Word)
  | pwrEnHigh (held : Bool)
  | pwrEnLow
  | inputRise (held : Bool)
  | inputUndervoltage
  | inputRemoved (m : Measured) (persisted : Bool)
  | modRst
  | convert (ms : BitVec 16) (addr1 : Bool) (addr0 : Bool)
  | coolant
  | coolantTimeout
  | rails
  | secure
  | train (r : TrainOut)
  | fill
  | firmware
  | registerWrite (fn : Fn) (space : RegSpace) (off : BitVec 28) (w : AccW) (v : Word)
  | illegalEncoding (t : Tid) (word : Word)
  | presenceDetectChange (port : Fin 6)
  | ethernetLinkDown (port : Port)
  | ethernetLinkUp (port : Port)
  | linkAckInterval (port : Port)
  | wakeComplete
  | activationComplete (gone : List Nat)
  | heartbeatPeriodExpiry (via : SpdmVia) (sid : Nat)
  deriving DecidableEq, Repr

end Sys2Proof
end

