-- ==== Sys2Proof/Decode.lean ====
section
/-! DEFINITION. The command a word of the opcode table's bits spells. The table gives no row any bits, so no word spells one. -/

namespace Sys2Proof

/-- The command read from a word whose bits are numbered as spec/opcode_table.json numbers them. -/
def decodeTableWord (_nbits _w : Nat) : Option Instr := none

end Sys2Proof
end

