-- ==== Sys2Proof/Machine/Encode.lean ====
section
/-! DEFINITION. The 64-bit words of thread instructions (R113-R118, R121, R125, R134, R142, R146, R148, R150): a trap that saves the
instruction word and a replay descriptor hold them. Beside them, the operand rules whose breach traps with ILLEGAL (R115). -/

namespace Sys2Proof

/-- Element width in bits (R137). -/
def EType.width : EType → Nat
  | .i8 => 8 | .i16 => 16 | .i32 => 32 | .i64 => 64 | .e4m3 => 8 | .e5m2 => 8 | .f16 => 16 | .bf16 => 16 | .f32 => 32
  | .f64 => 64 | .mxfp4 => 4 | .mxfp6e2 => 6 | .mxfp6e3 => 6 | .mxfp8e4 => 8 | .mxfp8e5 => 8

/-- Elements per register (R137). -/
def EType.lanes : EType → Nat
  | .i8 => 128 | .i16 => 64 | .i32 => 32 | .i64 => 16 | .e4m3 => 128 | .e5m2 => 128 | .f16 => 64 | .bf16 => 64 | .f32 => 32
  | .f64 => 16 | .mxfp4 => 256 | .mxfp6e2 => 160 | .mxfp6e3 => 160 | .mxfp8e4 => 128 | .mxfp8e5 => 128

/-- ET code (R137). -/
def EType.code : EType → Nat
  | .i8 => 0 | .i16 => 1 | .i32 => 2 | .i64 => 3 | .e4m3 => 4 | .e5m2 => 5 | .f16 => 6 | .bf16 => 7 | .f32 => 8 | .f64 => 9
  | .mxfp4 => 10 | .mxfp6e2 => 11 | .mxfp6e3 => 12 | .mxfp8e4 => 13 | .mxfp8e5 => 14

/-- i8 to i64. -/
def EType.isInt (e : EType) : Bool := decide (e.code ≤ 3)
/-- The MX types. -/
def EType.isMx (e : EType) : Bool := decide (10 ≤ e.code)
/-- e4m3 to f64. -/
def EType.isFp (e : EType) : Bool := !e.isInt && !e.isMx
/-- f16, bf16, f32, f64: the types of the vector floating-point arithmetic (R142). -/
def EType.isArith (e : EType) : Bool := decide (6 ≤ e.code) && decide (e.code ≤ 9)

/-! ## FN and VAR codes -/

def SextW.fn : SextW → Nat
  | .b => 0x1B | .h => 0x1C | .w => 0x1D
def Cond.fn : Cond → Nat
  | .eq => 0 | .ne => 1 | .lt => 2 | .ge => 3 | .ltu => 4 | .geu => 5
def LdW.fn : LdW → Nat
  | .b => 0 | .h => 1 | .w => 2 | .d => 3 | .sb => 4 | .sh => 5 | .sw => 6
def StW.fn : StW → Nat
  | .b => 8 | .h => 9 | .w => 10 | .d => 11
/-- Bytes of a load. -/
def LdW.size : LdW → Nat
  | .b => 1 | .h => 2 | .w => 4 | .d => 8 | .sb => 1 | .sh => 2 | .sw => 4
/-- The load sign-extends. -/
def LdW.signed : LdW → Bool
  | .b => false | .h => false | .w => false | .d => false | .sb => true | .sh => true | .sw => true
/-- Bytes of a store. -/
def StW.size : StW → Nat
  | .b => 1 | .h => 2 | .w => 4 | .d => 8
def AmoOp.code : AmoOp → Nat
  | .add => 0 | .and => 1 | .or => 2 | .xor => 3 | .min => 4 | .max => 5 | .minu => 6 | .maxu => 7 | .swap => 8 | .cas => 9
def ScanVar.code : ScanVar → Nat
  | .eq => 0 | .ne => 1 | .isIn => 2 | .out => 3
def MinMax.code : MinMax → Nat
  | .min => 0 | .max => 1 | .minu => 2 | .maxu => 3
def VLog.code : VLog → Nat
  | .and => 0 | .or => 1 | .xor => 2 | .andn => 3
def VShift.code : VShift → Nat
  | .shl => 0 | .shr => 1 | .sra => 2 | .rol => 3
def VCmp.code : VCmp → Nat
  | .eq => 0 | .ne => 1 | .lt => 2 | .le => 3 | .ltu => 4 | .leu => 5 | .un => 6
def VArith.code : VArith → Nat
  | .add => 0 | .sub => 1 | .mul => 2
def MaskOp.code : MaskOp → Nat
  | .and => 0 | .or => 1 | .xor => 2 | .andn => 3 | .not => 4

namespace Machine

/-! ## Formats (R114) -/

/-- A field at a bit position. -/
def fld (v lo : Nat) : Word := BitVec.ofNat 64 (v <<< lo)

/-- Major code and FN. -/
def encOp (major fn : Nat) : Word := fld major 58 ||| fld fn 52

/-- Format T. -/
def encT (major fn : Nat) (d a b : Reg) (c : Reg := 0) : Word :=
  encOp major fn ||| fld d.toNat 46 ||| fld a.toNat 40 ||| fld b.toNat 34 ||| fld c.toNat 28

/-- Format I. -/
def encI (major fn : Nat) (d a : Reg) (imm : Imm) : Word :=
  encOp major fn ||| fld d.toNat 46 ||| fld a.toNat 40 ||| imm.setWidth 64

/-- Format S. -/
def encS (fn : Nat) (d a b c e : Reg) (exit : Bool) (var : Nat) (w : BitVec 6 := 0) : Word :=
  encT 0x18 fn d a b c ||| fld e.toNat 22 ||| fld (if exit then 1 else 0) 21 ||| fld var 18 ||| fld w.toNat 12

/-- Format V. -/
def encV (major fn : Nat) (et : Nat) (vd va vb vc : Nat) (mk md : MReg) (g : Reg) (bg : Bool) (x : Nat) : Word :=
  encOp major fn ||| fld et 48 ||| fld vd 45 ||| fld va 42 ||| fld vb 39 ||| fld vc 36
  ||| fld mk.toNat 33 ||| fld md.toNat 30 ||| fld g.toNat 24 ||| fld (if bg then 1 else 0) 23 ||| fld x 16

/-- The vb operand's fields: VB, G and BG (R140). -/
def encVB (b : VB) : Nat × Reg × Bool :=
  match b with
  | .vec v => (v.toNat, 0, false)
  | .gen g => (0, g, true)

/-- Format V with three operands. -/
def encVOp (major fn : Nat) (f : VOp) (vc : VReg := 0) : Word :=
  let b := encVB f.vb
  encV major fn f.et.code f.vd.toNat f.va.toNat b.1 vc.toNat f.km 0 b.2.1 b.2.2 0

/-- Format V with two operands. -/
def encVUn (major fn : Nat) (f : VUn) : Word := encV major fn f.et.code f.vd.toNat f.va.toNat 0 0 f.km 0 0 false 0

/-- Format VM. -/
def encVM (major fn : Nat) (et : EType) (vd : VReg) (mk : MReg) (vx : VReg) (a : Reg) (imm : Imm) : Word :=
  encOp major fn ||| fld et.code 48 ||| fld vd.toNat 45 ||| fld mk.toNat 42 ||| fld vx.toNat 39 ||| fld a.toNat 33
  ||| imm.setWidth 64

/-- Format E. -/
def encE (major fn et : Nat) (ea : EaReg) (va vb : VReg) (mk : MReg) (g : Reg) : Word :=
  encOp major fn ||| fld et 48 ||| fld ea.toNat 45 ||| fld va.toNat 42 ||| fld vb.toNat 39 ||| fld mk.toNat 33 ||| fld g.toNat 24

/-- Majors 0x00 and 0x01: the same FN, by the form of the last operand (R117). -/
def encAlu (fn : Nat) (d a : Reg) (b : Src) : Word :=
  match b with
  | .reg r => encT 0x00 fn d a r
  | .imm v => encI 0x01 fn d a v

/-! ## Operand rules (R115) -/

/-- Block length of `brep` (R118). -/
def okBrep (len : Imm) : Bool := decide (1 ≤ len.toNat) && decide (len.toNat ≤ 1024)
/-- Special register number (R80): reserved numbers and non-zero bits above the number break the encoding. -/
def okSreg (n : Imm) : Bool := decide (n.toNat ≤ 8)
/-- Scope of `ubar` (R148). -/
def okScope (n : Imm) : Bool := decide (n.toNat ≤ 1)
/-- `amo` (R125): no `.n` of `swap` and `cas`, D zero in `.n`, C only in `cas`. -/
def okAmo (op : AmoOp) (n : Bool) (d c : Reg) : Bool :=
  !(n && decide (op.code ≥ 8)) && !(n && d != 0) && (op == .cas || c == 0)
/-- The registers a string instruction updates differ from one another and from g0 (R131). -/
def okDistinct : List Reg → Bool
  | [] => true
  | r :: l => r != 0 && !l.contains r && okDistinct l
/-- Window of `rhash` (R134). -/
def okWin (w : BitVec 6) : Bool := decide (w.toNat ≤ 32)
/-- Lane number of `vins` and `vext` (R142). -/
def okLane (et : EType) (x : BitVec 7) : Bool := !et.isMx && decide (x.toNat < et.lanes)
/-- Half of `mset` (R142). -/
def okHalf (x : BitVec 7) : Bool := decide (x.toNat ≤ 1)
/-- Types of a vector compare (R142). -/
def okVcmp (k : VCmp) (et : EType) : Bool :=
  match k with
  | .ltu => et.isInt | .leu => et.isInt
  | .un => et.isFp
  | .eq => !et.isMx | .ne => !et.isMx | .lt => !et.isMx | .le => !et.isMx
/-- Types of `vmac` (R142). -/
def okVmac (et : EType) : Bool := et == .i8 || !et.isInt
/-- Types of `eaadd` and `eamac` (R146). -/
def okFold (et : EType) : Bool := !et.isInt
/-- Types of `earound` (R146). -/
def okRound (et : EType) : Bool := et == .i64 || et.isFp
/-- Types of `vred.add` (R142). -/
def okRed (et : EType) : Bool := et.isInt || et.isArith
/-- A mask instruction leaves VB zero when it does not use it. -/
def okMask (k : MaskOp) (b : MReg) : Bool := !(k == .not) || b == 0
/-- Part and types of `vcvt` (R144): the part lies in the larger count. `vcvtu` and `vcvt` name no MX scale they do not use. -/
def okCvt (f : VCvt) : Bool :=
  let n := Nat.min f.et.lanes f.src.lanes
  let big := Nat.max f.et.lanes f.src.lanes
  decide (f.p.toNat * n + n ≤ big) && (f.et.isMx || f.md == 0)

end Machine

end Sys2Proof
end

