-- ==== Sys2Proof/Config.lean ====
section
/-! DEFINITION. What the spec leaves to the device or to published algorithms it only names.
Every constant here is opaque: it has no body, so no proof can see a value (a free value, R4). -/

namespace Sys2Proof.Config

/-- The free value drawn at count `n` for use `tag` (R4: a value the manual calls unspecified). Assumption 2. -/
opaque freeNat (n tag : Nat) : Nat

/-- A byte that comes from outside the device and that the command did not bring (host memory, a drive, a peer).
`n` is the draw count, `addr` the address. Assumption 3. -/
opaque extByte (n addr : Nat) : Byte

/-- Host memory answers a read at the address with poisoned data. Assumption 3. -/
opaque extPoison (n addr : Nat) : Bool

/-- A thread whose slot is READY meets the other conditions of R73 now: four cycles since it last issued, and no hold of its next
instruction (R76). Assumption 50. -/
opaque readyNow (n key : Nat) : Bool

/-- The module serial number (DDT header, R301; metering island). Assumption 4. -/
opaque serial : Word

/-- SHA-384 of a byte string (R480, R484). Assumption 5. -/
opaque sha384 (data : List Byte) : BitVec 384

/-- SHA-512 of a byte string (metering island records). Assumption 5. -/
opaque sha512 (data : List Byte) : BitVec 512

/-- The ECDSA signature the device's key gives for the digest (R487). Assumption 5. -/
opaque ecdsaSign (keyId : Nat) (digest : BitVec 384) : BitVec 768

/-- The Ed25519 signature of the metering island over the bytes (R536). Assumption 5. -/
opaque ed25519Sign (data : List Byte) : BitVec 512

/-- AES-256-GCM: the 128-bit tag. Assumption 5. -/
opaque gcmTag (key : BitVec 256) (iv : BitVec 96) (aad : List Byte) (data : List Byte) : BitVec 128

/-- AES key wrap (RFC 3394): the unwrapped key, `none` when the integrity check fails (R494). Assumption 5. -/
opaque keyUnwrap (kek : BitVec 256) (wrapped : BitVec 320) : Option (BitVec 256)

end Sys2Proof.Config
end

