-- ==== Sys2Proof/Machine/State.lean ====
section
/-! DEFINITION. The whole state of one Terrus 3272 module as plain data, the reasons a step can stop, and the state after reset. -/

namespace Sys2Proof.Machine

/-- Reasons a step can stop the machine. The spec gives every happening an effect within the limits of R3,
so no command of this model raises one; the type is kept closed for the host's interface. -/
inductive Fault where
  /-- Operation outside the limits of R3, where the spec calls the behaviour uncharacterised. Safe: the machine stops.
  Raised by no command: every row of the table has an effect inside those limits. -/
  | uncharacterised
  deriving DecidableEq, Repr

/-- Reasons a command is refused a meaning. -/
inductive Refusal where
  /-- A row of the opcode table whose meaning is not written yet. Safe. Raised only by an arm of `exec`. -/
  | notModelled (mnemonic : String)
  deriving DecidableEq, Repr

/-! ## Facet threads (chapter Facet execution and threads) -/

/-- Thread slot states (R75); an EMPTY slot is not listed in `State.threads`. -/
inductive SlotState where
  | ready
  | waiting (a b : BitVec 6)   -- at a `wait` with these limits (R90)
  | trapped
  | saving
  | ending
  deriving DecidableEq, Repr

/-- Register files named by a result (R111 FILE). -/
inductive RFile where
  | gen | vec | mask | special
  deriving DecidableEq, Repr

/-- A fixed-latency result not yet visible (R81, R111): `due` own instructions are still to issue before it is. -/
structure PendRes where
  due   : Nat
  file  : RFile
  num   : BitVec 6
  bytes : BitVec 128
  data  : BitVec 1024
  flags : Word          -- TSTAT bits set at visibility (R85)
  deriving DecidableEq, Repr

/-- The destination of a load-class operation. -/
structure Dest where
  file  : RFile
  num   : BitVec 6
  bytes : BitVec 128
  deriving DecidableEq, Repr

/-- What an outstanding load-class or store-class operation performs (R88). -/
inductive Act where
  /-- load `size` bytes at an instance address, sign-extended or not -/
  | ldScalar (addr : Word) (size : Nat) (signed : Bool)
  /-- load lanes: (byte offset in the register, instance address), `w` bytes each -/
  | ldLanes (w : Nat) (lanes : List (Nat × Word))
  /-- store the byte strings at the instance addresses, in order -/
  | stLanes (w : Nat) (lanes : List (Word × List Byte))
  | amo (op : AmoOp) (w : Nat) (addr x y : Word) (ret : Bool)
  | rspop (addr : Word)
  | eamerge (addr : Word) (ea : EaReg)
  /-- a sync operation: instruction word, handle (or scope for `ubar`), operand -/
  | sync (word handle operand : Word)
  | evwait (word : Word)
  | launch (addr : Word)
  | tresume (addr : Word)
  | tendOther (addr : Word) (status : BitVec 8)
  | sysrd (addr : Word)
  | syswr (addr v : Word)
  | evpost (vi : Vi) (v : Word)
  deriving DecidableEq, Repr

/-- One outstanding operation of a thread. -/
structure Op where
  id    : Nat
  act   : Act
  dest  : Option Dest
  res   : BitVec 1024 := 0
  parts : Nat := 0                       -- messages to another device not yet answered (R430)
  got   : List (Nat × List Byte) := []   -- bytes they answered, by place in the access
  perf  : Bool := false                  -- handed to memory; complete once held and mirrored parts are (R217, R223)
  done  : Bool := false
  fault : Option (Bool × Word) := none   -- (poison?, address) (R106)
  wd    : Bool := false                  -- sync operation withdrawn by a save (R242)
  clob  : Bool := false                  -- destination written by a fixed-latency instruction (R92)
  sent  : Bool := true                   -- its requests to host memory were issued (R326)
  sentAt : Word := 0                     -- when (R323)
  deriving DecidableEq, Repr

/-- Faults counted in a save record with REASON 1 or 3, still to be raised (R110). -/
structure PendFault where
  count  : Nat
  poison : Bool
  addr   : Word
  second : Option Bool := none     -- poison?, of the second of them, where the device still knows it (R111 FCAUSE)
  ldist  : Option Nat
  sdist  : Option Nat
  deriving DecidableEq, Repr

/-- Where a save record or accumulator set lies (R203). -/
inductive RecLoc where
  | dev (addr : Word)    -- instance address in the device spill area
  | host (bus : Word)    -- bus address in the host spill area
  deriving DecidableEq, Repr

/-- A resident thread (R77, R80, R111). -/
structure Thread where
  st      : SlotState
  vi      : Vi
  handler : Bool
  launch  : Nat
  index   : BitVec 32
  member  : BitVec 32
  pc      : Word
  g       : Vector Word 64
  v       : Vector (BitVec 1024) 8
  m       : Vector (BitVec 128) 8
  rs      : Vector Word 8
  tctl    : Word
  tstat   : Word
  brc     : Word
  brs     : Word
  rsp     : Word
  pend    : List PendRes
  loads   : List Op
  stores  : List Op
  nextOp  : Nat
  pf      : Option PendFault
  evTaken : Option (BitVec 48)     -- event taken and not yet retired (R282)
  recd    : Option RecLoc          -- save record of a TRAPPED thread (R112)
  cause   : BitVec 8
  reason  : BitVec 8               -- REASON of the save in progress (R111)
  endSt   : BitVec 8               -- status with which the thread ends
  replay  : List (Word × Word)     -- sync operations withdrawn for replay (R109, R110)
  evRep   : Option Word            -- an `evwait` withdrawn for replay
  deriving DecidableEq, Repr

/-- A thread saved off its Facet and waiting (R66, R67, R584). -/
structure Saved where
  vi      : Vi
  handler : Bool
  launch  : Nat
  index   : BitVec 32
  loc     : RecLoc
  facet   : BitVec 10              -- Facet it left
  trapped : Bool
  resumed : Bool                   -- `tresume` was issued for it while it waits (R291)
  halted  : Bool                   -- debug halt (R584)
  pf      : Option PendFault       -- faults not raised yet (R106)
  evTaken : Option (BitVec 48) := none   -- event a handler thread took and has not retired (R282)
  image   : Option (List Byte) := none   -- its record as `tresume` loaded it (R112, R291)
  deriving DecidableEq, Repr

/-- Where an accumulator set is (R165, R166). -/
inductive AccLoc where
  | held (accs : Vector (BitVec 4352) 8)   -- in the fold unit
  | spilled (loc : RecLoc)                 -- in the thread spill area
  deriving DecidableEq, Repr

/-- A serialised set of a Facet a launch left, waiting to be merged (R68). -/
structure WaitSet where
  launch : Nat
  vi     : Vi
  facet  : BitVec 10
  loc    : RecLoc
  low    : Option (BitVec 32)   -- lowest-indexed thread saved from that Facet
  deriving DecidableEq, Repr

/-! ## Launches and composites -/

/-- A launch descriptor's fields (R60). -/
structure LaunchDesc where
  target   : Word
  entry    : Word
  arg      : Word
  storeKib : BitVec 16
  spread   : BitVec 4
  perFacet : BitVec 8
  threads  : BitVec 32
  compq    : BitVec 16
  tctl     : BitVec 32
  tag      : Word
  startQ   : BitVec 16
  startAt  : BitVec 48
  subbar   : Bool
  startEn  : Bool
  resv     : Bool               -- some reserved field is not zero
  deriving DecidableEq, Repr

/-- A launch queued or running (R60-R64). -/
structure Launch where
  num      : Nat
  vi       : Vi
  d        : LaunchDesc
  sq       : Option (BitVec 4)   -- the SQ, none for a `launch` instruction
  seq      : BitVec 48
  admitted : Bool
  counts   : List (Word × Nat × Nat)   -- by leaf position: UD of the Facet, threads, first-level member (R61, R63)
  bar      : Nat                 -- object of the TARGET barrier
  subs     : List (Nat × Nat)    -- (first-level member, object) with SUBBAR
  ended    : Nat
  okCount  : Nat
  fail     : Option (BitVec 32 × BitVec 8)   -- lowest-indexed failed thread and its status
  stores   : List Nat            -- Facets on which the launch has a store allocation
  away     : List Nat := []      -- indices of its threads on other devices that have ended
  deriving DecidableEq, Repr

/-- A member entry of a composite (chapter Units, *Member entry*). -/
structure Member where
  ud     : Word
  remote : Bool
  home   : BitVec 16
  leaves : List (Word × Nat) := []   -- remote member: Facets and slots its home reported (R49)
  level  : Nat := 0                  -- remote member: its nesting level as its home reported
  extra  : Bool := false             -- a further unit substituted under R65, not placed
  deriving DecidableEq, Repr

/-- A composite table entry (R40-R53). State FREE is an entry with `st` 0. -/
structure Composite where
  st       : BitVec 3 := 0
  gen      : BitVec 15 := 0
  owner    : Vi := 0
  lock     : Bool := false
  members  : List Member := []
  exported : Option (Vi × BitVec 16) := none   -- grant: importing VI and device
  imports  : List (BitVec 16) := []            -- devices that hold it as a confirmed remote member
  deriving DecidableEq, Repr

/-- Composite commands (`CMP_CMD.OP`): CREATE, ADD, REMOVE, DESTROY, READ, RESET, EXPORT. -/
inductive CmpOp where
  | create | add | remove | destroy | read | reset | grant
  deriving DecidableEq, Repr

/-- A command received by the composite manager; it executes them one at a time, in the order received (R51). -/
structure CmpJob where
  fn       : Fn
  pf       : Bool               -- came through a PF
  vi       : Vi                 -- instance acted for
  op       : CmpOp
  number   : Nat
  lock     : Bool
  grantEn  : Bool               -- EXPORT_EN
  count    : Nat
  mems     : List Member        -- the first COUNT entries of `CMP_MEMBUF`
  bad      : Bool               -- one of them has a reserved bit set, or HOME without REMOTE (R52)
  arg      : Word
  started  : Bool := false      -- waits for confirmations, or for a unit reset (R49, R58)
  unconf   : List (BitVec 16 × Word) := []
  deriving DecidableEq, Repr

/-! ## Synchronisation objects -/

/-- The sync operations of R232. -/
inductive SyncKind where
  | bar | semp | semv | semt | ecadd | ecwait | ecread | lkacq | lkrel | lktry
  deriving DecidableEq, Repr

/-- An operation waiting at the home (R234, R238). -/
structure Waiter where
  kind    : SyncKind
  t       : Tid
  op      : Nat            -- operation number of the thread
  operand : BitVec 48
  launch  : Nat
  index   : BitVec 32
  since   : Word
  near    : Option (BitVec 2)   -- answered through this near unit (R241)
  deriving DecidableEq, Repr

/-- A sync object (R227-R254, *Registers of the sync block*). -/
structure SynObj where
  st       : BitVec 2 := 0
  ty       : BitVec 2 := 0
  phase    : Bool := false
  launch   : Option Nat := none       -- launch it is allocated to (R240)
  target   : Bool := false            -- TARGET scope (R254)
  value    : BitVec 48 := 0           -- VALUE, or ARRIVED of a barrier
  gen      : BitVec 16 := 0
  wdog     : BitVec 26 := 0
  expect   : BitVec 32 := 0
  owner    : Option (Nat × BitVec 32) := none
  waiters  : List Waiter := []
  remote   : List (BitVec 16 × Nat × Word) := []   -- near units of other devices: device, arrivals counted, since when
  lastSkew : BitVec 32 := 0
  lastMem  : BitVec 16 := 0
  late     : Tab (BitVec 48 × Bool) := []
  bad      : Bool := false            -- its storage met an uncorrectable error (R571 SRAM_UE)
  deriving DecidableEq, Repr

/-- Host operations on a sync object (`SYN_CMD.OP`). -/
inductive SynOp where
  | config | read | restore | unset | semv | semt | ecadd | ecread
  deriving DecidableEq, Repr

/-- A command of the sync block. -/
structure SynJob where
  fn  : Fn
  op  : SynOp
  vi  : Vi
  obj : Nat
  ty  : BitVec 2
  deriving DecidableEq, Repr

/-- A near unit's record of one barrier whose home is elsewhere (R241, R243). -/
structure NearBar where
  inFlight : List Waiter := []     -- arrivals in the message on its way
  gathered : List Waiter := []     -- arrivals that gather meanwhile
  sent     : List Waiter := []     -- arrivals counted at the home, waiting for the release
  rel      : List (List Waiter × Bool × BitVec 8) := []   -- answers on their way back: arrivals, phase, status
  deriving DecidableEq, Repr

/-! ## Instances -/

/-- A sharer of a cluster (R264). -/
structure Sharer where
  vi     : Vi
  slots  : Nat
  store  : Nat
  weight : Nat
  deriving DecidableEq, Repr

/-- Holding of a cluster (R264). -/
inductive CluHold where
  | none
  | dedicated (vi : Vi)
  | shared (l : List Sharer)
  deriving DecidableEq, Repr

/-- An event as posted or held (R280). -/
structure Event where
  cause : BitVec 8
  args  : Vector Word 5
  deriving DecidableEq, Repr

/-- The dynamic state of an instance (R257, R261, R275-R291). -/
structure Inst where
  st        : BitVec 3 := 0          -- *Instance states*
  gen       : BitVec 32 := 1
  fromAct   : Bool := false          -- the reset in progress was accepted from ACTIVE (R286)
  release   : Bool := false          -- release follows the reset (R259, R291)
  -- events
  produced  : BitVec 48 := 0
  retired   : BitVec 48 := 0
  nextTake  : BitVec 48 := 0         -- oldest event not taken (R282)
  retMarks  : List (BitVec 48) := [] -- retired ahead of RETIRED, waiting for the events before them
  causes    : Tab (BitVec 8) := []   -- CAUSE of the posted events not yet taken, by SEQ
  evq       : List (Nat × Nat) := [] -- `evwait` operations waiting, in issue order: thread key, operation
  heldTraps : List Event := []
  lost      : Vector Nat 6 := Vector.replicate 6 0   -- SYNC, UNIT_RESET, RESOURCE, HOST, STEWARD, ERROR (R284)
  lostTotal : BitVec 48 := 0
  lostWrap  : Bool := false
  deferred  : List Event := []       -- events held until after RESET_DONE (R287)
  errors    : BitVec 32 := 0         -- ERRORS of the Poll Page (R314)
  memPoison : Bool := false
  -- handler (VI_HDL_STAT)
  hdlSt     : BitVec 3 := 0
  hdlStatus : BitVec 8 := 0
  hdlDetail : BitVec 8 := 0
  hdlCause  : BitVec 8 := 0
  hdlThread : BitVec 8 := 0
  -- reset (VI_RST_STAT, VI_RST_CNT)
  rstPhase  : BitVec 3 := 0
  rstDur    : BitVec 16 := 0
  rstSrc    : BitVec 4 := 0
  rstForced : Bool := false
  rstOvr    : Bool := false
  rstStart  : Word := 0
  cntDesc   : Nat := 0
  cntReads  : Nat := 0
  cntStale  : Nat := 0
  cntForced : Nat := 0
  -- Poll Page
  pollSeq   : Word := 0
  ctx       : Nat := 0               -- contexts held (VI_USE.CTX)
  tlSeq     : BitVec 48 := 0         -- launches queued by `launch` instructions (R310)
  deriving DecidableEq, Repr

/-! ## Errors -/

/-- An error as detected (R570, R571); `sev` as R561. -/
structure Err where
  cause : BitVec 8
  sev   : BitVec 2
  vi    : Option Vi := none
  status : BitVec 8 := 0
  unit  : Word := 0
  addr  : Word := 0
  arg0  : Word := 0
  arg1  : Word := 0
  arg2  : Word := 0
  time  : Word := 0
  gen   : BitVec 32 := 0
  slot  : Bool := true        -- it took one of the 256 slots (R566)
  storm : Bool := false
  count : BitVec 16 := 0
  preempted : Bool := false
  deriving DecidableEq, Repr

/-! ## Memory -/

/-- A byte memory: (address, byte) pairs, addresses strictly rising, no entry zero (an unlisted address reads zero: R181, R500). -/
abbrev Memory := List Host.Cell

/-- States of a physical granule other than FREE (R195); RESERVED granules are those above 2,287. -/
inductive GranSt where
  | mapped (vi : Vi) (index : BitVec 12)
  | scrubbing
  deriving DecidableEq, Repr

/-- Who issued a write that memory may hold or that the partner must acknowledge (R217, R223). -/
inductive Writer where
  | thread (t : Tid) (op : Nat)     -- a store-class or atomic operation of a thread
  | engine (vi : Vi)
  | bar2 (fn : Fn)                   -- a BAR2 write of a function
  | partner                          -- an arriving mirrored write
  | brm (qp : Nat) (msn : BitVec 32) (psn : BitVec 32)   -- a payload placed by BRM (R416)
  | desc (id : Nat)                  -- a transfer or storage descriptor (R337)
  deriving DecidableEq, Repr

/-- What a held write performs. -/
inductive WAct where
  | bytes (pa : Nat) (data : List Byte)
  | amo (pa : Nat) (op : AmoOp) (w : Nat) (x y : Word)
  | mark (pa n : Nat)           -- a poison marker over the blocks of a range (R216, R300)
  deriving DecidableEq, Repr

/-- A write held by the snapshot guard (R223), in arrival order. -/
structure HeldW where
  page   : Nat            -- 64 KiB page of local physical memory
  act    : WAct
  vi     : Vi
  mirror : Option Nat     -- partner's physical granule when mirrored
  writer : Writer
  deriving DecidableEq, Repr

/-- A mirrored write sent to the partner and not yet acknowledged (R217). -/
structure MirOut where
  pa     : Nat            -- partner's physical address
  data   : List Byte
  mark   : Nat := 0          -- bytes of a poison marker, instead of data
  writer : Writer
  seq    : BitVec 32 := 0    -- mirror sequence (chapter Fabric, MIRROR_ACK)
  deriving DecidableEq, Repr

/-! ## Queues (chapter Host endpoint) -/

/-- A completion record before it is written (R310). -/
structure CRec where
  status : BitVec 8
  queue  : BitVec 16
  dcode  : BitVec 8
  seq    : BitVec 48
  bytes  : Word
  detail : BitVec 32
  deriving DecidableEq, Repr

/-- A submission queue's dynamic state (VI_SQ_STATq, R306, R310, R410). -/
structure Sq where
  st      : BitVec 2 := 0
  tail    : BitVec 16 := 0
  head    : BitVec 16 := 0
  refused : BitVec 8 := 0
  status  : BitVec 8 := 0
  detail  : BitVec 8 := 0
  seq     : BitVec 48 := 0      -- descriptors taken
  done    : BitVec 48 := 0      -- VI_SQ_DONE
  taken   : Nat := 0            -- descriptors taken and not yet completed (R305)
  got     : List (List Byte) := []   -- descriptors read and not yet taken (R307)
  reqAt   : Word := 0           -- since when a read of descriptors may be outstanding (R323)
  flight  : Bool := false       -- a read was outstanding when the function ceased to issue requests (R326)
  deriving DecidableEq, Repr

/-- A completion queue's dynamic state (VI_CQ_STATq, R312). -/
structure Cq where
  st     : BitVec 2 := 0
  tail   : BitVec 16 := 0
  head   : BitVec 16 := 0
  phase  : Bool := false
  status : BitVec 8 := 0
  detail : BitVec 8 := 0
  held   : List CRec := []
  refuse : Bool := false       -- the host will refuse the next record written (R312)
  deriving DecidableEq, Repr

/-! ## Function configuration -/

/-- A function's configuration state that software changes (R292-R328). -/
structure Cfg where
  mse    : Bool := false
  bme    : Bool := false
  d3     : Bool := false
  bus    : Nat := 0            -- PF: bus number captured from the last configuration write
  vfEn   : Bool := false       -- PF: VF Enable
  numVfs : BitVec 16 := 0      -- PF: NumVFs
  vfMse  : Bool := false       -- PF: VF MSE
  intDis : Bool := false       -- Interrupt Disable: reads as written, no effect (R294)
  flr    : Bool := false       -- Function Level Reset in progress
  ctoVal : BitVec 4 := 0       -- Completion Timeout Value
  ctoDis : Bool := false
  ro     : Bool := true        -- Enable Relaxed Ordering (PCIe default 1)
  ido    : Bool := false
  -- AER (R320-R322)
  uncSt  : Word := 0
  uncMsk : Word := 0x400000
  uncSev : Word := 0x0C462030
  corSt  : Word := 0
  corMsk : Word := 0x6000
  fep    : Option (BitVec 5) := none   -- First Error Pointer, while valid
  hdr    : List Byte := []             -- Header Log
  ats    : Bool := false
  ecrcGen : Bool := false      -- ECRC Generation Enable
  ecrcChk : Bool := false      -- ECRC Check Enable (R320)
  devCtl : BitVec 16 := 0x2100 -- the other bits of Device Control, as written
  deriving DecidableEq, Repr

/-! ## Trace (R594-R599) -/

/-- The trace unit's state; a packet is its list of 64-bit words. -/
structure Trc where
  st       : BitVec 2 := 0
  held     : List (List Word) := []    -- packets waiting for the host area, oldest first
  hostProd : Word := 0
  hostFn   : Fn := 0                   -- PF that last wrote TRC_HOST_BASE
  lost     : BitVec 48 := 0
  lostWrap : Bool := false
  pendLoss : Nat := 0                  -- drops since the last LOSS packet
  pendTime : Word := 0
  post     : Nat := 0                  -- bytes entered after the TRIGGER packet
  needSync : List Nat := []            -- Steward cores whose next packet must be SYNC (R596)
  deriving DecidableEq, Repr

/-! ## Errors: the error manager -/

/-- The error manager (R563-R577). -/
structure ErrMgr where
  pending    : List Err := []          -- detected, in order of detection; the one being handled is first of `cur`
  cur        : List (Err × Nat) := []  -- being handled and suspended, innermost first, with the next step (R564)
  unfreed    : Nat := 0                -- slots whose record is written and not freed (R572)
  seq        : BitVec 48 := 0          -- ERR_PRODUCED
  retired    : BitVec 48 := 0
  ring       : Tab (List Word) := []   -- the 256 record slots
  overflow   : Bool := false
  lostNotice : Nat := 0
  lostCorr   : Nat := 0
  lostCont   : Nat := 0
  suppressed : BitVec 48 := 0
  suppWrap   : Bool := false
  storms     : List (Err × Nat) := []  -- detections of the current second (R567)
  second     : Nat := 0                -- the whole second of DEV_TIME they count in
  ceRate     : Tab Nat := []           -- corrected errors of each stack in the last whole second (`DEV_STK_STAT`)
  hist       : List (List Word) := []  -- the history, oldest first (R573)
  histLost   : Nat := 0
  fatal      : Bool := false
  fatals     : Nat := 0
  fatalRec   : List Word := []
  fctOff     : List Nat := []          -- withdrawn Facets (R569)
  owed       : List (Vi × BitVec 8 × Word) := []  -- ERROR events of errors lost for want of a slot (R566)
  deriving DecidableEq, Repr

/-! ## Redundant pair -/

/-- The pair manager (R448-R457) and the mirror (R216-R220). -/
structure Pair where
  st         : BitVec 3 := 0        -- DEV_PAIR_STAT.STATE
  viaTorus   : Bool := false
  nbr        : BitVec 16 := 0
  mirAtLoss  : Bool := false
  resyncLeft : Nat := 0
  detail     : BitVec 8 := 0
  status     : BitVec 8 := 0
  ovr        : Bool := false
  busy       : Bool := false
  mir        : BitVec 2 := 0        -- DEV_MIR_STAT.STATE
  unmirrored : BitVec 48 := 0
  holding    : Bool := false        -- writes to mirrored granules held at their issuers (R451)
  out        : List MirOut := []    -- mirrored writes not yet acknowledged
  mirSeq     : BitVec 32 := 0       -- sequence of the next mirrored write
  mirGot     : BitVec 32 := 0       -- mirrored writes that have arrived from the partner
  resyncAt   : Option Nat := none   -- RESYNC: next 64 KiB page to copy, in physical order
  partner    : Option Word := none  -- MODE, ROLE and sizes of the partner's last PAIR packet
  lastHeard  : Word := 0
  mode       : BitVec 2 := 0        -- MODE in effect
  isolated   : Bool := false        -- ACTIVE member that admits no launch of a mirrored instance (R454)
  noticeAt   : Word := 0            -- when the last MIRROR_LOST notice was sent
  beatAt     : Word := 0            -- when the last heartbeat was sent
  deriving DecidableEq, Repr

/-! ## Barvar Remote Memory (R399-R433) -/

/-- What a message answers when it completes. -/
inductive MsgSrc where
  | desc (q : Nat) (seq : BitVec 48) (user : BitVec 32)   -- a descriptor of the owner's SQ q
  | thread (t : Tid) (op : Nat)                            -- a thread access (R430)
  | gone                                                   -- a thread access whose thread was discarded
  deriving DecidableEq, Repr

/-- A data-bearing packet sent and not yet acknowledged (R419, R420). -/
structure TxPkt where
  psn   : BitVec 32
  msn   : BitVec 32
  opc   : BitVec 8
  off   : Nat              -- offset of its first byte within the message
  bytes : Nat              -- message bytes it accounts for
  data  : List Byte        -- payload
  poison : Bool
  sends : Nat := 1         -- transmissions under R420
  since : Word             -- time of the last one, or of the HELD that restarted the timer
  path  : Nat := 0
  busy  : Bool := false    -- refused with NAK_BUSY, waiting BUSY_US
  key   : Option (BitVec 8) := none   -- key slot of an encrypted packet (R415)
  hdr   : List Byte := []  -- its BRM header (R413)
  deriving DecidableEq, Repr

/-- A packet the engine has for an Ethernet port: its instance, the QP's parameter block, the path, and the bytes after the UDP header
(R412). -/
structure BrmOut where
  vi   : Vi
  par  : BitVec 1024
  path : Nat
  pkt  : List Byte
  deriving DecidableEq, Repr

/-- A message one end requests (R414, R421). -/
structure TxMsg where
  msn    : BitVec 32
  opc    : BitVec 8        -- WRITE, READ_REQ or ATOMIC_REQ
  src    : MsgSrc
  loc    : Word            -- LOCAL
  rkey   : BitVec 48
  roff   : Nat
  len    : Nat
  aux    : BitVec 8 := 0
  keyslot : BitVec 8 := 0
  thread : Bool := false
  enc    : Bool := false
  fence  : Bool := false
  notify : Bool := false
  acc    : Bool := false
  data   : List Byte := [] -- operands of an atomic, data of a thread store
  cut    : Nat := 0        -- bytes cut into packets
  acked  : List (Nat × Nat) := []   -- (offset, bytes) of acknowledged packets
  got    : Nat := 0        -- bytes of the response placed at LOCAL
  poisoned : Bool := false
  refusal : Option (BitVec 8 × BitVec 8) := none
  deriving DecidableEq, Repr

/-- An inbound message not complete at its receiver (R416, R427). -/
structure RxMsg where
  msn     : BitVec 32
  opc     : BitVec 8
  count   : Nat
  mlen    : Nat
  firstAt : Word
  notify  : Bool
  fence   : Bool
  deriving DecidableEq, Repr

/-- A placed payload not yet performed (R416, R417). -/
structure RxPlaced where
  psn   : BitVec 32
  msn   : BitVec 32
  opc   : BitVec 8
  bytes : Nat
  res   : Option (Nat × Bool) := none   -- an atomic's old value and poison, once memory performed it
  enc   : Option (BitVec 8) := none
  deriving DecidableEq, Repr

/-- A queue pair end (R399-R405). -/
structure Qp where
  owner  : Vi
  st     : BitVec 3 := 0
  gen    : BitVec 16
  par    : BitVec 1024               -- the parameter block (R402)
  home   : BitVec 2
  peer   : Word := 0                 -- peer handle named by CONNECT
  sentReq : Bool := false
  accepted : Bool := false           -- accepted the peer's CONNECT_REQ or CONNECT_RESP
  connect : Option (Nat × BitVec 48 × BitVec 32) := none    -- CONNECT descriptor waiting
  connAt : Word := 0
  reqAt  : Word := 0                 -- last CONNECT_REQ
  destroy : Option (Nat × BitVec 48 × BitVec 32) := none    -- QP_DESTROY descriptor waiting
  txPsn  : BitVec 32 := 0
  txMsn  : BitVec 32 := 0
  pkts   : List TxPkt := []
  msgs   : List TxMsg := []
  cum    : BitVec 32 := 0
  perf   : List (BitVec 32) := []    -- performed beyond `cum`
  rmsgs  : List RxMsg := []
  placed : List RxPlaced := []
  fenced : List Pkt := []            -- fence buffer entries, in arrival order (R424)
  outcomes : List (BitVec 32 × Bool) := []   -- most recent 128 inbound MSNs, completed or not (R427)
  resps  : List TxMsg := []          -- READ_RESP and ATOMIC_RESP streams not fully sent, oldest first
  doneTo : BitVec 32 := 0            -- every inbound MSN before it has an outcome (R423)
  doneSet : List (BitVec 32) := []   -- outcomes beyond `doneTo`
  failed : Option (BitVec 32) := none   -- lowest inbound MSN that expired or failed (R425)
  flows  : List Nat := []            -- flows the engine inserted for a UDP QP (R404)
  toAck  : Nat := 0                  -- performed packets not yet acknowledged
  ackFrom : Word := 0                -- time of the first of them
  status : BitVec 8 := 0
  detail : BitVec 8 := 0
  retrans  : Nat := 0
  expired  : Nat := 0
  received : Nat := 0
  bad    : Bool := false             -- its context met an uncorrectable error (R571 SRAM_UE)
  deriving DecidableEq, Repr

/-- A region (R406, R429). -/
structure Region where
  owner  : Vi
  gen    : BitVec 24
  blk    : BitVec 256                -- the region block
  revoke : Option (Nat × BitVec 48 × BitVec 32) := none     -- REVOKE descriptor waiting
  admitted : List (Nat × BitVec 32) := []    -- packets past check 10 and not performed: QP, PSN
  bad    : Bool := false             -- its context met an uncorrectable error
  deriving DecidableEq, Repr

/-! ## The platform: host access, start-up, power, device reset -/

/-- A host access or debug command held while the device is Dark or waking (R549, R581), or behind a held BAR2 write of its function (R300),
in arrival order. -/
inductive HostWr where
  | reg (fn : Fn) (off : Nat) (v : Word)
  | half (fn : Fn) (off : Nat) (v : BitVec 32)
  | bar2 (fn : Fn) (off : Nat) (data : List Byte) (poison : Bool)
  | dbg (op : BitVec 8) (addr data : Word)      -- a debug command of the JTAG port (R581)
  | rd (fn : Fn) (off : Nat) (w : AccW)         -- a read of BAR0
  deriving DecidableEq, Repr

/-- Start-up (R601-R616): the phase, its failure, and the levels of the module's pins. -/
structure Boot where
  phase    : BitVec 4 := 1        -- *Phases of start-up*; 0 while conversion is off
  fail     : BitVec 8 := 0
  failUnit : BitVec 8 := 0
  ms       : BitVec 16 := 0       -- `DEV_BOOT_STAT.MS`
  convMs   : Nat := 0             -- ms from conversion on to the start of `DEV_TIME`
  pwrEn    : Bool := true         -- PWR_EN
  risen    : Bool := true         -- the input has risen through 43.0 V and not fallen through 41.0 V since (R605)
  locked   : Bool := false        -- a trip keeps conversion off (R607)
  perst    : Vector Bool 2 := Vector.replicate 2 true      -- PERST# of each upstream port asserted
  upLink   : Vector Bool 2 := Vector.replicate 2 false     -- upstream link up
  downRst  : Vector Bool 6 := Vector.replicate 6 true      -- PERST# output of each downstream port asserted (R614)
  smbAddr  : Option (BitVec 7) := none                     -- SMBus address, once the straps were sampled (R602)
  deriving DecidableEq, Repr

/-- A Loupe channel (R552). -/
structure Chan where
  window : List Nat := []         -- samples of its longest filter, newest first
  level  : BitVec 2 := 0          -- 0 NORMAL, 1 WARNING, 2 CRITICAL
  since  : Word := 0              -- when it entered the level
  beyond : Nat := 0               -- successive samples beyond its trip threshold (R558)
  deriving DecidableEq, Repr

/-- A cluster's clock island (R551, R555-R557). -/
structure Island where
  set_    : Nat := 16             -- SET, in units of 100 MHz
  cur     : Nat := 16             -- running frequency
  t       : Nat := 16             -- thermal cap T[c]
  tAt     : Word := 0             -- when T[c] last changed
  lowAt   : Option Word := none   -- since when CAP is 4
  stopped : Bool := false
  deriving DecidableEq, Repr

/-- Power states and the Loupe's caps (R544-R560). -/
structure Pwr where
  st       : BitVec 3 := 0        -- `PWR_STATE.STATE`
  former   : BitVec 3 := 0        -- state before an entry to Dark
  wake     : BitVec 8 := 0        -- `PWR_STATE.WAKE`
  auto     : Bool := false        -- Dim entered by AUTO_DIM (R546)
  busyAt   : Word := 0            -- when the device last had work, or last came to Bright (R546)
  chans    : Tab Chan := []
  isl      : Tab Island := []     -- by cluster
  g        : Nat := 16            -- power cap G (R556)
  gAt      : Word := 0            -- when G last changed
  below    : Option Word := none  -- since when the 100 ms mean of channel 71 is below 95 % of CAP_W
  msAt     : Option Word := none  -- last millisecond the Loupe decided at
  crits    : Nat := 0             -- CRIT_ENTRIES
  hot      : List Nat := []       -- stacks in high-temperature refresh (R214)
  trip     : Word := 0            -- `PWR_TRIP`, non-volatile
  deriving DecidableEq, Repr

/-- The JTAG port (R582). -/
structure Jtag where
  ir     : BitVec 8 := 0x02       -- instruction last selected
  opened : Bool := false          -- DBGACC since the last module or TAP reset
  bsr    : List Bool := []        -- boundary register, as last shifted in
  dr     : BitVec 200 := 0        -- data register as last captured
  deriving DecidableEq, Repr

/-- A counter sampler's dynamic state (R592, R593). -/
structure Sampler where
  run  : Bool := false
  n    : BitVec 48 := 0           -- number of the next sample
  last : Option Word := none      -- time of the last sample
  lost : BitVec 48 := 0
  wrap : Bool := false
  deriving DecidableEq, Repr

/-! ## The metering island (R523-R543) -/

/-- A tally frame on the tally link (R531): by account, 256 for U, its generation and the increments of kinds 0xF0 to 0xFE. -/
structure TallyFrame where
  fseq   : BitVec 32
  time   : Word
  blocks : List (Nat × BitVec 32 × List Word)
  deriving DecidableEq, Repr

/-- An account's tallies in the frames accepted in the interval. -/
structure Account where
  gen    : BitVec 32
  mixed  : Bool := false          -- two or more generations
  w      : Nat := 0               -- weighted sum, fJ
  deriving DecidableEq, Repr

/-- The island, and the device's side of its links. -/
structure Mtr where
  cart     : Option Cartridge := some {}   -- cartridge in place
  running  : Bool := false        -- powered and started
  iStart   : Word := 0            -- ISLAND_TIME at the start of the interval
  noTally  : Bool := false        -- the last interval had no frame, and none came since (R543)
  expect   : Option (BitVec 32) := none    -- FSEQ of the next frame
  accounts : Tab Account := []
  frames   : Nat := 0
  lost     : Nat := 0             -- in the interval
  lostAll  : Nat := 0             -- since the island started
  lastDev  : Word := 0            -- DEV_TIME of the last frame accepted
  link     : List TallyFrame := []         -- frames on the tally link, oldest first
  fseq     : BitVec 32 := 0       -- FSEQ of the next frame sent
  sent     : Tab Nat := []        -- tallies already sent, by account and kind
  tag      : BitVec 8 := 0        -- TAG of the last request completed
  fetch    : List Byte := []      -- fetch window
  quote    : List Byte := []      -- quote window
  deriving DecidableEq, Repr

/-- Device reset (R579). -/
structure DevRst where
  phase    : BitVec 3 := 0
  source   : BitVec 4 := 0
  ovr      : Bool := false
  deriving DecidableEq, Repr

/-! ## Security -/

/-- A loaded key slot (R494, R496); an EMPTY slot is not listed. -/
structure KeySlot where
  owner  : Vi
  decOnly : Bool
  key    : List Byte
  iv     : Nat := 0          -- checkpoint IV counter, up to 2^32 (R472, R496)
  deriving DecidableEq, Repr

/-- A switch port's configuration state (R329, R330): a downstream port 0 to 5, or the internal port of a switch, 6 and 7. -/
structure SwPort where
  present : Bool := false      -- Presence Detect State
  pdc     : Bool := false      -- Presence Detect Changed
  dllsc   : Bool := false      -- Data Link Layer State Changed
  link    : Bool := false      -- Data Link Layer Link Active
  acs     : BitVec 7 := 0      -- ACS Control
  dpcEn   : BitVec 2 := 0      -- DPC Trigger Enable
  dpcTrig : Bool := false      -- DPC Trigger Status
  sbr     : Bool := false      -- Secondary Bus Reset
  speed   : BitVec 4 := 0      -- Current Link Speed, while the link is up (R330)
  width   : BitVec 6 := 0      -- Negotiated Link Width, while the link is up
  uncSt   : BitVec 32 := 0     -- Advanced Error Reporting (R330)
  uncMsk  : BitVec 32 := 0x400000
  uncSev  : BitVec 32 := 0x0C462030
  corSt   : BitVec 32 := 0
  corMsk  : BitVec 32 := 0x6000
  deriving DecidableEq, Repr

/-! ## Checkpoint and restore (R458-R479) -/

/-- The parameter block of a snapshot (R460). -/
structure SnapPar where
  tkind      : BitVec 2 := 0
  enc        : Bool := false
  map        : BitVec 3 := 0
  keyslot    : BitVec 8 := 0
  qp         : Word := 0
  toff       : Word := 0
  rkey       : BitVec 48 := 0
  step       : Word := 0
  setId      : Word := 0
  shard      : BitVec 16 := 0
  shards     : BitVec 16 := 0
  shape      : Word := 0
  startQ     : BitVec 16 := 0
  startAt    : BitVec 48 := 0
  startEn    : Bool := false
  stageFirst : BitVec 12 := 0
  stageCount : BitVec 6 := 0
  cq         : BitVec 4 := 0
  user       : BitVec 32 := 0
  deriving DecidableEq, Repr

/-- A granule covered by a snapshot: index in the instance, physical granule, PLACE and MIRROR at arming (R462, R470). -/
structure SnapGran where
  index  : Nat
  pgran  : Nat
  place  : Bool
  mirror : Bool
  deriving DecidableEq, Repr

/-- A page in the staging area (R464, R465). -/
structure Staged where
  page   : Nat               -- page ordinal (R470)
  entry  : Nat               -- 64 KiB entry of the staging area
  crc    : BitVec 32
  poison : List Nat          -- poisoned 64-byte blocks of the page
  fails  : Nat := 0          -- read-back mismatches of its chunk
  deriving DecidableEq, Repr

/-- A snapshot or restore operation of an instance. -/
structure Snap where
  vi      : Vi
  st      : BitVec 3            -- `SNP_PROG.STATE`
  p       : SnapPar := {}
  grans   : List SnapGran := []
  armed   : Word := 0
  ivbase  : BitVec 32 := 0
  todo    : List Nat := []      -- pages not copied yet, in walk order
  staged  : List Staged := []
  table   : Tab (BitVec 32 × Option Nat × BitVec 128) := []   -- page table: CRC, poison table index, tag
  poisons : List (List Nat) := []                             -- poison table
  verified : Nat := 0           -- pages verified
  ooo     : BitVec 48 := 0      -- `SNP_GUARD.PAGES`
  oooWrap : Bool := false
  -- restore
  catCount : Nat := 0
  listAt   : Word := 0
  stepMax  : Word := 0
  catalogue : Word := 0
  dir      : List (Nat × Bool) := []      -- directory of the chosen shard: instance granule index, PLACE
  pages    : Nat := 0
  sealFails : Nat := 0                    -- mismatches of the trailer's read-back (R465, R468)
  head     : List Byte := []              -- header, directory and page table of the last sealed shard, as on its target (R470)
  tail     : List Byte := []              -- its trailer and poison table
  deriving DecidableEq, Repr
/-! ## Resource commands (R266-R268) -/

/-- Resource commands (`VI_RES_CMD.OP`). -/
inductive ResOp where
  | give | share | take | reshare | giveGroup | takeGroup | read
  deriving DecidableEq, Repr

/-- A command received by the instance manager; it executes them one at a time, in the order received (R268). -/
structure ResJob where
  vi      : Vi
  pf      : Bool           -- came through a PF
  op      : ResOp
  cluster : Nat
  group   : Nat
  started : Bool := false  -- a TAKE that waits for its reshaping
  saved   : Nat := 0
  deriving DecidableEq, Repr

/-! ## Descriptors in progress and the upstream links -/

/-- Progress of a taken TRANSFER, STORAGE or BRM descriptor. -/
inductive DSt where
  | waiting     -- for its counter, its order, or Bus Master Enable (R326, R335, R411)
  | reading     -- data requested from the host or a peer
  | drive       -- issued to a storage target (R342)
  | writing     -- data written, some writes not complete (R337)
  | message     -- a BRM message, handshake, closing or revocation in progress (R409)
  deriving DecidableEq, Repr

/-- A descriptor taken and not completed. -/
structure DOp where
  id    : Nat
  vi    : Vi
  q     : Nat
  kind  : Nat
  seq   : BitVec 48
  desc  : List Byte
  wins  : List Word := []     -- peer windows and storage map as they stood when it was taken (R334)
  st    : DSt := .waiting
  since : Word := 0           -- when it was issued to the target
  poisoned : Bool := false
  dead  : Bool := false       -- its instance was reset (R344)
  fin   : Option (BitVec 8 × BitVec 8 × Word × BitVec 32) := none   -- outcome, while writes are not complete
  deriving DecidableEq, Repr

/-- What the firmware learnt of a storage target when it was bound (R339, R340, R343, R506). -/
structure StgT where
  tmo   : Nat := 10000                        -- command timeout in ms
  wz    : Bool := true                        -- the controller reports Write Zeroes
  ns    : List (BitVec 32 × BitVec 16) := []  -- log2 of the block size of its namespaces
  flows : List Nat := []                      -- flow contexts of an NVMe/TCP target's connections
  deriving DecidableEq, Repr

/-- Power state of an upstream link (R318). -/
structure UpLink where
  lanes : BitVec 5 := 16
  pm    : BitVec 2 := 0       -- 0 L0, 1 L1, 2 L1.1, 3 L1.2
  en    : BitVec 4 := 0       -- enabled in the upstream port function: L0p, L1, L1.1, L1.2
  deriving DecidableEq, Repr

/-! ## Ports: links, Prism and Iris -/

/-- A packet that waits for a link: the port it came in by, none for the device's own, the instance it is of, the packet as it stood before
this hop, and as it leaves (R397, R441). -/
structure LinkOut where
  inp : Option Port
  vi  : Option Vi
  was : LinkPkt
  pkt : LinkPkt
  deriving DecidableEq, Repr

/-- Link state of a high-speed port (R440, *Register `PHY_STAT`*). -/
structure Phy where
  st     : BitVec 3 := 0           -- 0 DOWN, 1 TRAINING, 2 UP, 3 DEGRADED, 4 MISWIRED, 5 OFF
  lanes  : BitVec 4 := 0
  nbr    : BitVec 16 := 0
  since  : Word := 0               -- when it entered the state
  half   : Bool := false           -- reduced to 4 lanes until EN is written 0 (R440)
  badHigh : Bool := false          -- the failed lane is one of lanes 4 to 7
  txSeq  : BitVec 12 := 0          -- LSEQ of the next packet sent (R437)
  rxSeq  : BitVec 12 := 0          -- LSEQ expected
  queue  : List LinkOut := []      -- packets routed to the link and not yet sent (R441)
  served : Nat × Nat := (0, 0)     -- units of 256 bytes that transit and local traffic got while both waited (R397)
  retry  : List LinkPkt := []      -- packets sent and not acknowledged, oldest first (R437)
  replays : Nat := 0               -- successive replays from the same LSEQ
  replayAt : BitVec 12 := 0
  credit : Vector Nat 8 := Vector.replicate 8 512   -- 64-byte units of the far receive buffer of each VC (R438)
  ackDue : Nat := 0                -- packets received since the last acknowledgement
  ackAt  : Word := 0
  cnt    : Tab (BitVec 48 × Bool) := []             -- `PHY_CNT`k
  deriving DecidableEq, Repr

/-- A bank of a Prism's rule table (R352): rules of 192 bytes (VALUE, MASK, action), comparators, templates. -/
structure Bank where
  rules  : Tab (List Byte) := []
  ranges : Tab Word := []
  tpls   : Tab (List Byte) := []
  deriving DecidableEq, Repr

/-- FRAMES and BYTES of a rule or flow, each with WRAP. -/
structure FCount where
  frames : BitVec 48 := 0
  fwrap  : Bool := false
  bytes  : BitVec 48 := 0
  bwrap  : Bool := false
  deriving DecidableEq, Repr

/-- A port's Prism (R345-R371). -/
structure Prism where
  cur     : BitVec 2 := 0
  bank    : Bool := false          -- active bank
  active  : Bank := {}
  shadow  : Bank := {}
  copying : Bool := false
  cnts    : Tab FCount := []
  drops   : Tab (BitVec 48 × Bool) := []
  samples : Tab Nat := []          -- selected frames of each mirror session (R368)
  deriving DecidableEq, Repr

/-- A frame on the slow path (R369). -/
structure SlowFrame where
  port     : Nat
  cause    : Nat
  data     : List Byte
  reinject : Bool
  time     : Word
  fhash    : BitVec 32
  deriving DecidableEq, Repr

/-- A datagram being reassembled (R370): its flow of fragments, by (offset, bytes), and the first header. -/
structure Datagram where
  quad   : BitVec 2
  port   : Nat
  key    : List Byte               -- addresses, protocol and identification
  head   : List Byte               -- bytes of the first fragment before its payload
  parts  : List (Nat × List Byte)
  total  : Option Nat
  first  : Word
  deriving DecidableEq, Repr

/-- A receive or transmit ring's dynamic state (R365, R392). -/
structure Ring where
  run    : Bool := false
  base   : BitVec 48 := 0          -- released or posted base
  count  : BitVec 48 := 0          -- FRAMES or TAKEN
  wrap   : Bool := false
  reqAt  : Word := 0               -- transmit ring: since when its next slot may be being read (R323)
  deriving DecidableEq, Repr

/-- A frame at an Iris (R372). -/
structure IFrame where
  kind   : Nat
  data   : List Byte               -- FCS excluded
  vi     : Option Vi := none
  slot   : Option (Nat × Word × Bool) := none   -- transmit ring, instance address of the slot, TS
  mirror : Option Nat := none      -- mirror copy: port whose Prism made it (R368)
  since  : Word := 0               -- when it entered its queue
  deriving DecidableEq, Repr

/-- A credit shaper (R380-R384). -/
structure Shaper where
  credit : Int := 0
  stage  : List IFrame := []
  pend   : List (Word × Word) := []       -- class shaper: values written and when, oldest first (R384)
  last   : Option Word := none     -- time of the last refill
  deriving DecidableEq, Repr

/-- A port's Iris (R372-R398). -/
structure Iris where
  queues  : Tab (List IFrame) := []
  deficit : Tab Nat := []
  ptr     : Nat := 15              -- weighted group's pointer
  drops   : Tab (BitVec 48 × Bool) := []
  viSh    : Tab Shaper := []       -- by instance
  clSh    : Tab Shaper := []       -- by class
  tx      : Option (IFrame × Word × Nat) := none   -- frame on the wire, start time, queue
  -- gate control
  oper    : List Word := []
  obase   : Word := 0
  ocycle  : Nat := 0
  chtime  : Word := 0
  pend    : Bool := false
  gclErr  : BitVec 8 := 0
  gates   : BitVec 16 := 0xFFFF    -- gate states last applied (R387)
  -- queue sampling
  smpRun  : Bool := false
  smpBase : BitVec 48 := 0
  smpRecs : BitVec 48 := 0         -- records written since EN
  smpNum  : BitVec 48 := 0
  smpLost : BitVec 48 := 0
  smpWrap : Bool := false
  smpAt   : Option Word := none    -- time of the last sample
  smpDrop : Tab Nat := []          -- drops of each queue since its last sample
  smpMax  : Tab Nat := []          -- longest delay of each queue since its last sample
  deriving DecidableEq, Repr

/-! ## Security: sessions, measurements, IDE, MACsec (R480-R501) -/

/-- A secured SPDM session (R486, R489). -/
structure Session where
  via    : SpdmVia
  id     : Nat
  secured : Bool := false
  beat   : Nat := 0          -- heartbeat period in seconds, 0 none
  last   : Word              -- time of the last HEARTBEAT
  keyGen : Nat := 0          -- KEY_UPDATEs
  deriving DecidableEq, Repr

/-- A selective IDE stream of a PF (R490, R491). -/
structure IdeStream where
  en     : Bool := false
  assoc  : Bool := false     -- its Requester ID association is valid
  ridLo  : BitVec 16 := 0    -- Requester IDs of its association
  ridHi  : BitVec 16 := 0
  keys   : Tab (BitVec 256) := []   -- by direction, sub-stream and key set
  go     : Tab Nat := []            -- key set in use, by direction and sub-stream
  deriving DecidableEq, Repr

/-- A MACsec security association (R492, *Key block and SA block*). -/
structure Sa where
  sci    : Word
  pn     : Word              -- transmit: next PN; receive: lowest acceptable PN
  ssci   : BitVec 32
  salt   : List Byte
  key    : List Byte
  deriving DecidableEq, Repr

/-- The security controller. -/
structure Sec where
  svn      : BitVec 8 := 0
  fused    : BitVec 8 := 0
  revoked  : BitVec 4 := 0
  keyUsed  : BitVec 2 := 0
  slot     : BitVec 2 := 0
  boot     : BitVec 4 := 0
  debugSeen : Bool := false
  meas     : Tab (BitVec 384 × Nat) := []     -- measurement registers with their extensions
  conn     : Tab Nat := []                    -- negotiation reached on each transport
  sessions : List Session := []
  kek      : Tab (BitVec 256 × Nat) := []     -- key-encryption key of each PF, with its session (R489)
  ide      : Tab IdeStream := []              -- two streams for each PF
  sas      : Tab Sa := []
  msCnt    : Tab (BitVec 48 × Bool) := []     -- `SEC_MSEC_CNT`
  pnHigh   : List Nat := []                   -- ports with PN_HIGH
  deriving DecidableEq, Repr

/-! ## Steward firmware (R502-R522) -/

/-- A Steward core. -/
structure StwCore where
  st       : BitVec 2 := 0         -- 0 RUNNING, 1 RESTARTING, 2 HELD
  restarts : Nat := 0
  cause    : BitVec 8 := 0
  pc       : Word := 0             -- program counter saved at the last restart
  times    : List Word := []       -- restarts of the last 60 s
  by_      : Option (Fn × BitVec 8) := none   -- RESTART command that waits: PF and TAG
  halted   : Bool := false         -- by a debug command (R585)
  deriving DecidableEq, Repr

/-- Log ring state of a PF (R514-R516). -/
structure FwLog where
  prod   : BitVec 48 := 0
  lost   : Nat := 0
  owed   : Nat := 0                -- records lost since the last CODE 0xFF record
  kept   : List (List Nat) := []   -- records kept before the ring is enabled, oldest first: words 0 (without SEQ) to 7
  deriving DecidableEq, Repr

/-- The firmware. -/
structure Fw where
  up       : Bool := false
  restarts : Nat := 0
  cores    : Tab StwCore := []
  images   : Tab Image :=          -- image slots 0 to 2; slot 2 holds the factory recovery image (R507)
    [(2, { version := 0, svn := 0, key := some 0, sigOk := true, digest := 0 })]
  active   : Nat := 0
  pref     : Nat := 0
  staged   : Bool := false
  features : Tab Nat := []         -- versions in effect that differ from those before negotiation
  act      : Nat := 0              -- 0 none, 1 DEFERRED, 2 ACTIVATING
  actBy    : Option (Fn × BitVec 8) := none   -- ACTIVATE that waits for its result
  actWas   : Bool := false         -- the activation under way was deferred
  auto     : Bool := false
  actVer   : BitVec 32 := 0
  actSt    : BitVec 8 := 0
  actDt    : BitVec 8 := 0
  clear    : Option Word := none   -- since when no emergency stands, while an activation is deferred
  mbWait   : List (Fn × BitVec 8 × MbCmd) := []
  rseq     : Tab (BitVec 32) := []
  logs     : Tab FwLog := []
  level    : Nat := 2
  trace    : Word := 0
  slow     : Tab Word := []        -- SLOW_CFG of each port
  slowCnt  : Tab (BitVec 48 × Bool) := []
  ptp      : Tab (Word × Word) := []
  rate     : Int := 0              -- rate of `DEV_TIME` against its oscillator, parts per 10^9 (R513)
  eid      : Tab (BitVec 8) := []  -- MCTP endpoint identifier on each transport
  deriving DecidableEq, Repr

/-- Feature versions in effect (*Features listed in the DDT of stepping B0*). -/
def featureVer (f : Fw) (n : Nat) : Nat :=
  match f.features.find? (fun e => e.1 == n) with
  | some e => e.2
  | none => if 1 ≤ n ∧ n ≤ 3 then 1 else 0

/-- What a context number holds (R207). -/
inductive Ctx where
  | qp (x : Qp)
  | region (x : Region)
  | queue (vi : Vi) (cq : Bool) (q : Nat)
  | flow (owner : Vi) (key : List Byte) (action : List Byte) (cnt : FCount)   -- exact-match flow (R362)
  deriving DecidableEq, Repr


/-! ## The whole machine -/

/-- Reset values, other than zero, of the plainly stored registers that the device shares, by BAR0 offset. -/
def resetTable : List (Nat × Word) :=
  [(0x14020, 24),                   -- DEV_SCRUB_CFG (R212)
   (0x14800, 0x4000000000000000),   -- DEV_FAB_CFG (R442)
   (0x14808, 0x64),                 -- DEV_PAIR_CFG (R448)
   (0x300000, 0x00004B48000503E8),  -- RMA_CFG (chapter 13)
   (0xC00018, 1),                   -- ERR_CFG
   (0xC10000, 0x0100180000000000),  -- TRC_CFG
   (0xF08018, 0x000000640000044C),  -- PWR_CFG
   (0xF08020, 0xA000000000000000)]  -- PWR_WAKE

/-- The state of the module. -/
structure State where
  /-- Commands that wait, first in, first out: the block's own input, not the module's. -/
  pending    : List Instr
  /-- Draw count of free values: the model's own field, no state of the module. -/
  free       : Nat
  devTime    : Word
  /-- Plainly stored registers, by name (`fnReg`, BAR0 offset, `cntReg`). -/
  regs       : Tab Word
  mem        : Memory
  /-- Host memory as the device last wrote it: the outside world, kept so that the device reads back what it wrote. -/
  hostMem    : Tab Byte
  hostHeld   : List (Fn × Nat × List Byte)
  -- stacked memory
  poison     : List Nat
  ue         : List Nat
  guard      : List Nat
  stkUe      : Tab Nat
  heldW      : List HeldW
  unmaps     : List (Vi × BitVec 12) -- UNMAPs that wait for held writes of their granule (R199)
  rowSpread  : BitVec 72
  gt         : Tab Word
  gran       : Tab GranSt
  spill      : List (Vi × RecLoc)
  ctxFn      : Fn                    -- PF that last wrote `DEV_CTX_SPILL` (R208)
  snaps      : Tab Snap
  -- functions, Facets, launches
  cfg        : Tab Cfg
  threads    : Tab Thread
  saved      : List Saved
  accs       : Tab AccLoc
  waitSets   : List WaitSet
  fstore     : Tab Memory
  nextLaunch : Nat
  launches   : List Launch
  comps      : Tab Composite
  cmpJobs    : List CmpJob
  resJobs    : List ResJob
  syn        : Tab SynObj
  near       : Tab NearBar
  grp        : Tab Vi
  clu        : Tab CluHold
  arb        : Tab (Tab Nat)         -- issue credits left in the round of a shared Facet, by instance (R270)
  rounds     : Tab (Tab Nat)         -- what a shared engine may still take in its round, by instance; 16 where not listed (R272)
  inst       : Tab Inst
  sqs        : Tab Sq
  cqs        : Tab Cq
  cnts       : Tab (BitVec 48 × Bool)
  -- contexts and Barvar Remote Memory
  ctxs       : Tab Ctx
  qpGens     : Tab (BitVec 16)
  regGens    : Tab (BitVec 24)
  brmIv      : Tab Nat
  rmaDrop    : Tab Nat
  keys       : Tab KeySlot         -- loaded key slots (R494)
  sec        : Sec
  fw         : Fw
  -- platform
  phy        : Tab Phy
  prism      : Tab Prism
  iris       : Tab Iris
  rx         : Tab Ring            -- receive rings, 16 for each instance
  tx         : Tab Ring            -- transmit rings
  slowQ      : List (BitVec 2 × SlowFrame)
  brmIn      : List (List Byte)    -- frames Prism has passed to the BRM engine (R357)
  brmOut     : List BrmOut         -- packets the engine has for Ethernet ports, oldest first (R381, R412)
  linkOut    : List (Option Vi × LinkPkt)   -- packets of the device's own for its Barvar links, with the instance they are of (R397)
  reasm      : List Datagram
  descs      : List DOp
  nextDesc   : Nat
  stgWin     : Tab (Nat × Nat)     -- page of a storage data window: descriptor, page of its buffer (R333)
  stgs       : Tab StgT            -- what the firmware knows of a bound storage target (R339-R343, R506)
  lateTags   : List (Fn × Nat × Word)   -- timed-out tags, with the time until which they are not reused (R325)
  links      : Vector UpLink 2
  sw         : Tab SwPort
  reply      : List Byte           -- data last answered to a host, a drive or a debugger
  replyPoison : Bool
  heldHost   : List HostWr
  boot       : Boot
  pwr        : Pwr
  drst       : DevRst
  trc        : Trc
  err        : ErrMgr
  pair       : Pair
  -- debug, counting, metering
  jtag       : Jtag
  smp        : Tab Sampler         -- counter samplers
  tally      : Tab Nat             -- tallies counted by the model, by Facet, instance and kind (R529)
  mtr        : Mtr
  deriving DecidableEq, Repr

/-- The module right after reset. -/
def State.reset : State where
  pending := []
  free := 0
  devTime := 0
  regs := []
  mem := []
  hostMem := []
  hostHeld := []
  poison := []
  ue := []
  guard := []
  stkUe := []
  heldW := []
  unmaps := []
  rowSpread := 0
  gt := []
  gran := []
  spill := []
  ctxFn := 0
  snaps := []
  cfg := []
  threads := []
  saved := []
  accs := []
  waitSets := []
  fstore := []
  nextLaunch := 0
  launches := []
  comps := []
  cmpJobs := []
  resJobs := []
  syn := []
  near := []
  grp := []
  clu := []
  arb := []
  rounds := []
  inst := [(0, { st := 1 }), (128, { st := 1 })]
  sqs := []
  cqs := []
  cnts := []
  ctxs := []
  qpGens := []
  regGens := []
  brmIv := []
  rmaDrop := []
  keys := []
  sec := {}
  fw := {}
  phy := []
  prism := []
  iris := []
  rx := []
  tx := []
  slowQ := []
  brmIn := []
  brmOut := []
  linkOut := []
  reasm := []
  descs := []
  nextDesc := 0
  stgWin := []
  stgs := []
  lateTags := []
  links := Vector.replicate 2 {}
  sw := []
  reply := []
  replyPoison := false
  heldHost := []
  boot := {}
  pwr := {}
  drst := {}
  trc := {}
  err := {}
  pair := {}
  jtag := {}
  smp := []
  tally := []
  mtr := {}

end Sys2Proof.Machine
end

