-- ==== Sys2Proof/Machine/Ops.lean ====
section
/-! DEFINITION. The named operations every family shares: bit fields, sparse tables, byte memories, free values, the register
file, and the raising of an error (chapter Errors and resets). -/

namespace Sys2Proof.Machine

/-! ## Bit fields -/

/-- Bits `[hi:lo]` of a bit vector, as a number. -/
def bits {n : Nat} (w : BitVec n) (hi lo : Nat) : Nat := (w.toNat >>> lo) % 2 ^ (hi + 1 - lo)

/-- Bit `i` of a bit vector. -/
def bit {n : Nat} (w : BitVec n) (i : Nat) : Bool := w.toNat.testBit i

/-- The word with bits `[hi:lo]` replaced by `v`. -/
def setBits (w : Word) (hi lo v : Nat) : Word :=
  (w &&& ~~~(BitVec.ofNat 64 ((2 ^ (hi + 1 - lo) - 1) <<< lo))) ||| BitVec.ofNat 64 ((v % 2 ^ (hi + 1 - lo)) <<< lo)

/-- A field value in its place: `v` at bit `lo`. -/
def at_ (v lo : Nat) : Word := BitVec.ofNat 64 (v <<< lo)

/-- A Bool as a number. -/
def b2n (b : Bool) : Nat := if b then 1 else 0

/-- Saturation of a count. -/
def sat (m n : Nat) : Nat := Nat.min m n

/-- Serial-number order of R6: `a` is at or after `b`, counts of `n` bits. -/
def atOrAfter {n : Nat} (a b : BitVec n) : Bool := decide ((a - b).toNat < 2 ^ (n - 1))

/-- Sign-extension of the low `k` bits of a number to a 64-bit word. -/
def sextN (k v : Nat) : Word :=
  let v := v % 2 ^ k
  if v ≥ 2 ^ (k - 1) then BitVec.ofNat 64 (v + (2 ^ 64 - 2 ^ k)) else BitVec.ofNat 64 v

/-- The `n` little-endian bytes of a number (R5). -/
def toBytes : Nat → Nat → List Byte
  | 0, _ => []
  | n + 1, v => BitVec.ofNat 8 v :: toBytes n (v / 256)

/-- The number of little-endian bytes (R5). -/
def ofBytes : List Byte → Nat
  | [] => 0
  | b :: r => b.toNat + 256 * ofBytes r

/-- Big-endian number of `n` bytes at an offset; a byte beyond the end reads zero. -/
def be (b : List Byte) (off : Nat) : Nat → Nat
  | 0 => 0
  | n + 1 => (b.getD off 0).toNat * 256 ^ n + be b (off + 1) n

/-- The `n` big-endian bytes of a number. -/
def beBytes (n v : Nat) : List Byte := (toBytes n v).reverse

/-! ## Sparse tables -/

/-- The entry at `k`, if listed. -/
def tget? {α : Type} : Tab α → Nat → Option α
  | [], _ => none
  | (j, v) :: r, k => if j = k then some v else tget? r k

/-- The entry at `k`, or the default. -/
def tget {α : Type} (t : Tab α) (k : Nat) (d : α) : α := (tget? t k).getD d

/-- The table with the entry at `k` set; keys stay rising. -/
def tset {α : Type} : Tab α → Nat → α → Tab α
  | [], k, v => [(k, v)]
  | (j, w) :: r, k, v =>
    if k < j then (k, v) :: (j, w) :: r
    else if k = j then (k, v) :: r
    else (j, w) :: tset r k v

/-- The table without the entry at `k`. -/
def tdel {α : Type} : Tab α → Nat → Tab α
  | [], _ => []
  | (j, w) :: r, k => if j = k then r else (j, w) :: tdel r k

/-! ## Byte memories -/

/-- The byte at an address; an unlisted address reads zero (R181, R500). -/
def Memory.byte (m : Memory) (a : Nat) : Byte := tget m a 0

/-- The memory with one byte written; a zero byte is not listed. -/
def Memory.put (m : Memory) (a : Nat) (b : Byte) : Memory := if b = 0 then tdel m a else tset m a b

/-- Keys strictly rise from `lo` on. -/
def risingFrom {α : Type} : Nat → Tab α → Bool
  | _, [] => true
  | lo, (k, _) :: r => decide (lo ≤ k) && risingFrom (k + 1) r

/-- The canonical form of a byte memory: addresses strictly rise, and no entry equals what an unlisted address reads as. -/
def Memory.wf (m : Memory) : Bool := risingFrom 0 m && m.all (fun c => c.2 != 0)

/-- `n` bytes from address `a`. -/
def Memory.bytes (m : Memory) (a : Nat) : Nat → List Byte
  | 0 => []
  | n + 1 => m.byte a :: Memory.bytes m (a + 1) n

/-- Bytes written from address `a` on. -/
def Memory.puts (m : Memory) (a : Nat) : List Byte → Memory
  | [] => m
  | b :: r => Memory.puts (m.put a b) (a + 1) r

/-- `n` bytes set to zero from address `a`: the listed entries of the range are dropped. -/
def Memory.zero (m : Memory) (a n : Nat) : Memory := m.filter (fun c => !(decide (a ≤ c.1) && decide (c.1 < a + n)))

/-! ## Free values -/

/-- A free value of `w` bits for use `tag` at the current draw count (R4, R91). -/
def freeBits (s : State) (w tag : Nat) : BitVec w := BitVec.ofNat w (Config.freeNat s.free tag)

/-- The next draw count. -/
def nextFree (s : State) : State := { s with free := s.free + 1 }

/-- The first `n` bytes an outside agent brought, a missing byte being free. -/
def extBytes (s : State) (d : List Byte) (addr : Nat) : Nat → List Byte
  | 0 => []
  | n + 1 => match d with
    | b :: r => b :: extBytes s r (addr + 1) n
    | [] => Config.extByte s.free addr :: extBytes s [] (addr + 1) n

/-- The bytes of host memory from a bus address: what the device last wrote there, else what the command brings. -/
def hostWrite (s : State) (bus : Nat) (d : List Byte) : State :=
  { s with hostMem := (d.zipIdx).foldl (fun t p => tset t (bus + p.2) p.1) s.hostMem }

/-- A byte of host memory as the device last wrote it; a byte it never wrote is outside knowledge (free). -/
def hostByte (s : State) (bus : Nat) : Byte := (tget? s.hostMem bus).getD (Config.extByte s.free bus)

def hostBytes (s : State) (bus : Nat) : Nat → List Byte
  | 0 => []
  | n + 1 => hostByte s bus :: hostBytes s (bus + 1) n

/-! ## Register file

A register that the device shares is named by its BAR0 offset through a PF (R298). A register that each function has for
itself is named by `fnReg`. -/

/-- Name of a register that each function holds for itself. -/
def fnReg (fn : Fn) (off : Nat) : Nat := 0x10000000 * (1 + fn.toNat) + off

/-- Name of a DEV block register (R298). -/
def devReg (off : Nat) : Nat := 0x10000 + off
/-- Name of a register of the VI block of an instance. -/
def viReg (vi : Vi) (off : Nat) : Nat := 0x100000 + 0x1000 * vi.toNat + off
/-- Name of a register of a port block. -/
def portReg (p : Port) (off : Nat) : Nat := 0x200000 + 0x10000 * p.val + off

/-- USE and DIR of a port at reset (R25); the flexible port 10 starts in Ethernet use (DESIGN CHOICE). -/
def portDefault (p : Nat) : Nat × Nat :=
  match p with
  | 0 => (2, 0) | 1 => (2, 4) | 3 => (2, 1) | 4 => (2, 5) | 6 => (2, 2) | 7 => (3, 0) | 9 => (2, 3) | _ => (1, 0)

/-- Reset values of a port block's registers (chapters Prism, Iris and Fabric). -/
def portRegReset (p off : Nat) : Word :=
  if off = 0 then 0x18                                             -- PRM_MODE
  else if off = 0x4000 then 0x14000000                             -- IRS_PORT
  else if off = 0x4100 then 0x8000000000000200                     -- IRS_QCFG0
  else if 0x4100 < off ∧ off < 0x4180 then 0x0001000000000200      -- IRS_QCFG
  else if off = 0x4300 ∨ off = 0x4308 then 0xFEDCBA98FEDCBA98      -- IRS_MAP
  else if off = 0x4310 ∨ off = 0x4318 then 0xFEDCBA98
  else if 0x4400 ≤ off ∧ off < 0x4420 then 0x0014000000000000      -- IRS_CSHAPE
  else if off = 0x4800 then 0xFFFF000000000000                     -- IRS_GCL_CTRL
  else if off = 0x4A00 then 0x10001                                -- IRS_FAB
  else if off = 0x8000 then                                        -- PHY_CFG
    at_ 1 63 ||| at_ (portDefault p).1 58 ||| at_ (portDefault p).2 55 ||| 9216
  else 0

/-- Reset values other than zero of the plainly stored registers. -/
def regReset (k : Nat) : Word :=
  if 0x100000 ≤ k ∧ k < 0x200000 then
    match (k - 0x100000) % 0x1000 with
    | 0x18 => 16                          -- VI_SHARE
    | 0x50 => 0x03E801F4                  -- VI_POLL_CFG
    | 0x300 => 7 | 0x308 => 7 | 0x310 => 7 | 0x318 => 7   -- VI_PEER_WIN0-3
    | o => if 0xE00 ≤ o ∧ o < 0xE60 then 0x0014000000000000 else 0       -- VI_SHAPE
  else if 0x200000 ≤ k ∧ k < 0x2C0000 then portRegReset ((k - 0x200000) / 0x10000) (k % 0x10000)
  else if 0x40000000000 ≤ k then
    -- configuration space: Interrupt Line 0xFF and System Page Size 1 (R294)
    (if 0x40000100000 ≤ k then 0 else if k % 0x1000 = 0x3C then 0xFF else if k % 0x1000 = 0x170 then 1 else 0)
  else if 0x10000000000 ≤ k then (if 0x100 ≤ k % 0x1000 ∧ k % 0x1000 < 0x200 then 0xFF else 0)   -- CNT_IDXj
  else resetTable.foldr (fun e r => if e.1 = k then e.2 else r) 0

/-- A plainly stored register. -/
def rget (s : State) (k : Nat) : Word := tget s.regs k (regReset k)
/-- The state with a plainly stored register set. -/
def rset (s : State) (k : Nat) (v : Word) : State := { s with regs := tset s.regs k v }

/-! ## Command status registers

Most command blocks report through a register with BUSY [0], OVR [1], STATUS [15:8] and DETAIL [23:16]. -/

/-- A command register as written: a reserved OP, above those the command knows, leaves the old one (R11). -/
def opKept (old v : Word) (known : Nat) : Word := if bits v 3 0 ≤ known then v else setBits v 3 0 (bits old 3 0)

def statBusy (s : State) (k : Nat) : Bool := bit (rget s k) 0
/-- A command was written while BUSY was 1 and was ignored. -/
def statOvr (s : State) (k : Nat) : State := rset s k (rget s k ||| 2)
def statStart (s : State) (k : Nat) : State := rset s k (rget s k ||| 1)
/-- The command is complete: BUSY 0, STATUS and DETAIL as given. -/
def statDone (s : State) (k : Nat) (r : BitVec 8 × BitVec 8) : State :=
  rset s k (setBits (setBits (setBits (rget s k) 23 16 r.2.toNat) 15 8 r.1.toNat) 0 0 0)

/-- `TRC_DBG_DATA` and `TRC_DBG_STAT`. -/
def dbgData : Nat := 0xC10110
def dbgStat : Nat := 0xC10118

/-! ## Units by number -/

/-- Cluster of a Facet number (R569). -/
def cluOf (f : BitVec 10) : Nat := f.toNat / 8
/-- Column (stack) of a Facet number (R263). -/
def colOf (f : BitVec 10) : Nat := f.toNat / 32
/-- Quadrant of a Facet number (R263). -/
def quadOf (f : BitVec 10) : BitVec 2 := BitVec.ofNat 2 (f.toNat / 256)
/-- Upstream port of an instance (R255). -/
def portOf (vi : Vi) : Nat := vi.toNat / 128
/-- The function is a PF (R255). -/
def isPf (fn : Fn) : Bool := decide (fn.toNat % 128 = 0)
/-- Key of a thread slot. -/
def Tid.key (t : Tid) : Nat := 64 * t.facet.toNat + t.slot.toNat

/-- The fabric configuration `DEV_FAB_CFG` (R442). -/
def fabCfg (s : State) : Word := rget s (devReg 0x4800)
/-- `DEV_FAB_CFG.EN`. -/
def fabEn (s : State) : Bool := bit (fabCfg s) 63
/-- Own site and MEMBER as SX[15:12], SY[11:8], SZ[7:4], MEMBER[3:0] (R39, R442): the device code of *Member entry*. -/
def ownDev (s : State) : BitVec 16 := if fabEn s then (fabCfg s).setWidth 16 else 0
/-- Own site and member as written (R442). -/
def ownSite (s : State) : BitVec 16 := (fabCfg s).setWidth 16
/-- The partner's device code (R39). -/
def partnerDev (s : State) : BitVec 16 := ownSite s ^^^ 1
/-- The device code names a device of the configured fabric (R38). -/
def inFabric (s : State) (d : BitVec 16) : Bool :=
  if fabEn s then
    decide (bits d 15 12 ≤ bits (fabCfg s) 47 44) && decide (bits d 11 8 ≤ bits (fabCfg s) 43 40)
      && decide (bits d 7 4 ≤ bits (fabCfg s) 38 36) && decide (bits d 3 0 ≤ 1)
  else d == 0

/-- Physical UD of a Facet of this device (R36). -/
def facetUd (s : State) (f : BitVec 10) : Word :=
  at_ 6 59 ||| at_ (bits (ownDev s) 15 12) 55 ||| at_ (bits (ownDev s) 11 8) 51 ||| at_ (bits (ownDev s) 7 4) 47
  ||| at_ (bits (ownDev s) 3 0) 43 ||| at_ (f.toNat / 256) 39 ||| at_ (f.toNat / 32 % 8) 35 ||| at_ (f.toNat / 8 % 4) 31
  ||| at_ (f.toNat % 8) 27

/-- Physical UD of a column of this device. -/
def columnUd (s : State) (c : Nat) : Word :=
  at_ 4 59 ||| (facetUd s 0 &&& 0x07FFF80000000000) ||| at_ (c / 8) 39 ||| at_ (c % 8) 35

/-- Physical UD of a quadrant of this device. -/
def quadUd (s : State) (q : Nat) : Word := at_ 3 59 ||| (facetUd s 0 &&& 0x07FFF80000000000) ||| at_ q 39

/-- Physical UD of a cluster of this device (R263). -/
def clusterUd (s : State) (c : Nat) : Word :=
  at_ 5 59 ||| (facetUd s 0 &&& 0x07FFF80000000000) ||| at_ (c / 32) 39 ||| at_ (c / 4 % 8) 35 ||| at_ (c % 4) 31

/-! ## Power, clocks and Stewards (R502, R544-R557, R576, R579) -/

/-- The device works: started, in no device reset, Bright or Dim, not fatal (R548, R576, R579, R610). -/
def working (s : State) : Bool :=
  s.boot.phase == 8 && s.drst.phase == 0 && !s.err.fatal && (s.pwr.st == 0 || s.pwr.st == 1)

/-- A device in Dim by AUTO_DIM returns to Bright as work is taken (R546). -/
def wakeDim (s : State) : State :=
  let s := { s with pwr := { s.pwr with busyAt := s.devTime } }
  if s.pwr.st = 1 ∧ s.pwr.auto then { s with pwr := { s.pwr with st := 0, auto := false } } else s

/-- The device is Bright; a time of idleness counts from when it came there (R546). -/
def toBright (s : State) : State :=
  { s with pwr := { s.pwr with st := 0, auto := false, busyAt := if s.pwr.st = 0 then s.pwr.busyAt else s.devTime } }

def getIsl (s : State) (c : Nat) : Island := tget s.pwr.isl c {}
def setIsl (s : State) (c : Nat) (x : Island) : State := { s with pwr := { s.pwr with isl := tset s.pwr.isl c x } }
/-- CAP of a cluster (R556). -/
def islCap (s : State) (c : Nat) : Nat := Nat.min (getIsl s c).t s.pwr.g
/-- Cap of the power state (R544); an entry to Dark keeps the cap of the state it leaves. -/
def stateCap (s : State) : Nat := if s.pwr.st = 1 ∨ (s.pwr.st = 3 ∧ s.pwr.former = 1) then 4 else 16
/-- The frequency a cluster is to run at (R551). -/
def islTarget (s : State) (c : Nat) : Nat := Nat.min (getIsl s c).set_ (Nat.min (islCap s c) (stateCap s))
/-- The clock of a cluster runs and no change of its frequency is under way (R33, R557). -/
def clusterRuns (s : State) (c : Nat) : Bool := !(getIsl s c).stopped && (getIsl s c).cur == islTarget s c

/-- A Facet can issue: the device is started, in no reset, not fatal and not in Dark, and its cluster's clock runs. -/
def facetRuns (s : State) (f : BitVec 10) : Bool :=
  s.boot.phase == 8 && s.drst.phase == 0 && !s.err.fatal && (s.pwr.st == 0 || s.pwr.st == 1 || s.pwr.st == 3) && clusterRuns s (cluOf f)

/-- A Steward core runs its duties: released, not restarting, held in reset or halted, and not stopped for an activation or in Dark (R509,
R519, R520, R548, R585). -/
def stwRuns (s : State) (core : Nat) : Bool :=
  let c := tget s.fw.cores core {}
  s.fw.up && s.boot.phase == 8 && s.drst.phase == 0 && s.fw.act != 2
    && (s.pwr.st == 0 || s.pwr.st == 1 || s.pwr.st == 3) && c.st == 0 && !c.halted

/-- The core that has the duties of core `own`: itself, or the lowest of its quadrant not held in reset (R502). -/
def dutyCore (s : State) (own : Nat) : Nat :=
  let st (n : Nat) : Bool := (tget s.fw.cores n {}).st != 2
  if st own then own else ((List.range 4).find? (fun k => st (own / 4 * 4 + k))).elim own (fun k => own / 4 * 4 + k)

/-- The duties of core `own` are served now. -/
def dutyUp (s : State) (own : Nat) : Bool := stwRuns s (dutyCore s own)

/-- The slow path, storage administration and handler-mode traps of a quadrant are served now (R502). -/
def slowUp (s : State) (q : Nat) : Bool := dutyUp s (4 * q + 2) || dutyUp s (4 * q + 3)

/-! ## Errors (R562-R567) -/

/-- Slots of the error ring in use: PENDING ones, those being handled, and written ones not yet freed (R566, R572). -/
def errUsed (s : State) : Nat := (s.err.pending.filter (·.slot)).length + (s.err.cur.filter (·.1.slot)).length + s.err.unfreed

/-- Two errors count together for storms: same unit (UNIT and ARG0) and cause (R567). -/
def sameStorm (a b : Err) : Bool := a.unit == b.unit && a.arg0 == b.arg0 && a.cause == b.cause

/-- Error detected earlier in the same second of the same unit and cause (R567). -/
def stormCount (s : State) (e : Err) : Nat :=
  ((s.err.storms.find? (fun p => sameStorm p.1 e)).map (·.2)).getD 0

/-- The storm counters with one more detection. -/
def bumpStorm (l : List (Err × Nat)) (e : Err) : List (Err × Nat) :=
  match l with
  | [] => [(e, 1)]
  | (x, n) :: r => if sameStorm x e then (x, n + 1) :: r else (x, n) :: bumpStorm r e

/-- Count an error lost for want of a slot (R566). -/
def countLost (s : State) (e : Err) : State :=
  let er := s.err
  let er := { er with
    overflow := true,
    lostNotice := if e.sev = 0 then sat 65535 (er.lostNotice + 1) else er.lostNotice,
    lostCorr := if e.sev = 1 then sat 65535 (er.lostCorr + 1) else er.lostCorr,
    lostCont := if e.sev = 2 then sat 65535 (er.lostCont + 1) else er.lostCont,
    owed := match e.vi with
      | some v => if e.sev = 2 then er.owed ++ [(v, e.status, e.addr)] else er.owed
      | none => er.owed }
  { s with err := er }

/-- Take a slot as PENDING, or lose the error (R566). A FATAL error never waits for a slot, and the device stops at once (R564, R576). -/
def enqueueErr (s : State) (e : Err) : State :=
  if e.sev = 3 then { s with err := { s.err with pending := s.err.pending ++ [{ e with slot := false }], fatal := true } }
  else if errUsed s < 256 then { s with err := { s.err with pending := s.err.pending ++ [{ e with slot := true }] } }
  else countLost s e

/-- The generation of an instance. -/
def genOf (s : State) (vi : Vi) : BitVec 32 := (tget s.inst vi.toNat {}).gen

/-- The storm counts are those of the present whole second of `DEV_TIME` (R567); the corrected errors of each stack in the second before show
in `DEV_STK_STAT.CE_RATE`. -/
def rollSecond (s : State) : State :=
  let now := s.devTime.toNat / 1000000000
  if now = s.err.second then s
  else
    let rate := s.err.storms.foldl (fun (t : Tab Nat) p =>
      if p.1.cause = 0x02 then tset t p.1.arg0.toNat (sat 65535 (tget t p.1.arg0.toNat 0 + p.2)) else t) []
    { s with err := { s.err with second := now, storms := [], ceRate := if now = s.err.second + 1 then rate else [] } }

/-- Detection of an error: stamped with time, generation and count; storms are escalated or suppressed (R567). -/
def raiseErr (s : State) (e : Err) : State :=
  let s := rollSecond s
  let n := stormCount s e + 1
  let e := { e with time := s.devTime, gen := (e.vi.map (genOf s)).getD 0, count := BitVec.ofNat 16 (sat 65535 n) }
  let s := { s with err := { s.err with storms := bumpStorm s.err.storms e } }
  let limited := e.sev == 1 || (e.sev == 0 && e.cause == 0x01)
  if !limited || n ≤ 16 then enqueueErr s e
  else if e.sev = 1 ∧ n = 17 then enqueueErr s { e with sev := 2, storm := true }
  else
    { s with err := { s.err with
        suppressed := s.err.suppressed + 1,
        suppWrap := s.err.suppWrap || decide (s.err.suppressed + 1 = 0) } }

/-- Requester ID of a function (R571): bus number is the host's, held in State; function number from R293. -/
def requesterId (s : State) (fn : Fn) : Word :=
  BitVec.ofNat 64 ((tget s.cfg (128 * portOf fn) {}).bus * 256 + fn.toNat % 128)

/-- "Recorded as an access error" for an access of a function (R571 cause ACCESS). -/
def accessErr (s : State) (fn : Fn) (addr : Nat) : State :=
  raiseErr s { cause := 0x01, sev := 0, vi := some fn, addr := BitVec.ofNat 64 addr, arg0 := requesterId s fn }

/-- An access error made inside the device: ARG0 0, the unit in UNIT (R571). -/
def accessErrUnit (s : State) (unit addr : Word) : State :=
  raiseErr s { cause := 0x01, sev := 0, unit := unit, addr := addr }

/-! ## Instances and clusters -/

/-- The dynamic state of an instance. -/
def getInst (s : State) (vi : Vi) : Inst := tget s.inst vi.toNat {}
/-- The state with an instance changed. -/
def modInst (s : State) (vi : Vi) (f : Inst → Inst) : State :=
  { s with inst := tset s.inst vi.toNat (f (getInst s vi)) }

/-- The holding of a cluster (R264). -/
def getClu (s : State) (c : Nat) : CluHold := tget s.clu c .none

/-- What an instance holds on each Facet of a cluster: slots and store (R264); `none` if it does not hold the cluster. -/
def holdOf (h : CluHold) (vi : Vi) : Option (Nat × Nat × Nat) :=
  match h with
  | .none => none
  | .dedicated v => if v = vi then some (64, 256, 0) else none
  | .shared l => (l.find? (fun x => x.vi == vi)).map (fun x => (x.slots, x.store, x.weight))

/-- The Facet is withdrawn from service (R569). -/
def withdrawn (s : State) (f : BitVec 10) : Bool := s.err.fctOff.contains f.toNat

/-- The instance holds the Facet (R44, R264, R569). -/
def holdsFacet (s : State) (vi : Vi) (f : BitVec 10) : Bool :=
  (holdOf (getClu s (cluOf f)) vi).isSome && !withdrawn s f

/-- The clusters an instance holds, ascending. -/
def clustersOf (s : State) (vi : Vi) : List Nat :=
  (List.range 128).filter (fun c => (holdOf (getClu s c) vi).isSome)

/-- A thread of the table. -/
def getThr (s : State) (t : Tid) : Option Thread := tget? s.threads (Tid.key t)
/-- The state with a thread written. -/
def putThr (s : State) (t : Tid) (th : Thread) : State := { s with threads := tset s.threads (Tid.key t) th }
/-- The state with a slot made EMPTY. -/
def delThr (s : State) (t : Tid) : State := { s with threads := tdel s.threads (Tid.key t) }
/-- The thread slot of a key. -/
def tidOf (k : Nat) : Tid := ⟨BitVec.ofNat 10 (k / 64), BitVec.ofNat 6 k⟩

/-- A launch by its number. -/
def getLaunch (s : State) (n : Nat) : Option Launch := s.launches.find? (fun l => l.num == n)
/-- The state with a launch changed. -/
def modLaunch (s : State) (n : Nat) (f : Launch → Launch) : State :=
  { s with launches := s.launches.map (fun l => if l.num = n then f l else l) }

end Sys2Proof.Machine
end

