-- ==== Sys2Proof/Machine/Flags.lean ====
section
/-! DEFINITION. Flag computations and number formats: integer overflow, the floating-point formats (R152-R156), the one rounding
(R157-R161), MX block scaling (R162, R163), and the bits of `TSTAT` each raises. -/

namespace Sys2Proof.Machine

/-! ## TSTAT bits (register map of `TSTAT`) -/

def fV : Word := 0x1
def fDZ : Word := 0x2
def fRSW : Word := 0x4
def fRSU : Word := 0x8
def fNV : Word := 0x100
def fOF : Word := 0x400
def fUF : Word := 0x800
def fNX : Word := 0x1000
def fMIG : Word := 0x10000
def fRES : Word := 0x20000

/-- A flag when a condition holds. -/
def flagIf (c : Bool) (f : Word) : Word := if c then f else 0

/-! ## Integers -/

/-- The signed value of the low `w` bits of a number. -/
def sval (w v : Nat) : Int := if v % 2 ^ w ≥ 2 ^ (w - 1) then (v % 2 ^ w : Int) - 2 ^ w else (v % 2 ^ w : Int)

/-- The low `w` bits of an integer, as a number. -/
def uval (w : Nat) (x : Int) : Nat := (x % (2 ^ w : Int)).toNat

/-- The integer fits `w` bits as two's complement. -/
def fitsS (w : Nat) (x : Int) : Bool := decide (-(2 ^ (w - 1) : Int) ≤ x) && decide (x < (2 ^ (w - 1) : Int))

/-- The nearest signed value of `w` bits (R151). -/
def satS (w : Nat) (x : Int) : Int :=
  if x < -(2 ^ (w - 1) : Int) then -(2 ^ (w - 1) : Int)
  else if x > (2 ^ (w - 1) : Int) - 1 then (2 ^ (w - 1) : Int) - 1 else x

/-! ## Floating-point formats -/

/-- A format of R152: exponent and fraction bits, bias, and the special encodings of R153. -/
structure Fmt where
  e    : Nat
  t    : Nat
  bias : Nat
  inf  : Bool      -- has infinities and IEEE NaNs
  nan1 : Bool      -- E4M3: one NaN encoding per sign
  deriving DecidableEq, Repr

def fp64 : Fmt := ⟨11, 52, 1023, true, false⟩
def fp32 : Fmt := ⟨8, 23, 127, true, false⟩
def fp16 : Fmt := ⟨5, 10, 15, true, false⟩
def bf16 : Fmt := ⟨8, 7, 127, true, false⟩
def e5m2 : Fmt := ⟨5, 2, 15, true, false⟩
def e4m3 : Fmt := ⟨4, 3, 7, false, true⟩
def e3m2 : Fmt := ⟨3, 2, 3, false, false⟩
def e2m3 : Fmt := ⟨2, 3, 1, false, false⟩
def e2m1 : Fmt := ⟨2, 1, 1, false, false⟩

/-- Width of an encoding. -/
def Fmt.width (f : Fmt) : Nat := 1 + f.e + f.t

/-- Encoding of the largest finite magnitude (R152). -/
def Fmt.maxFin (f : Fmt) : Nat :=
  if f.inf then (2 ^ f.e - 1) * 2 ^ f.t - 1 else if f.nan1 then 2 ^ (f.e + f.t) - 2 else 2 ^ (f.e + f.t) - 1

/-- Magnitude encoding of infinity. -/
def Fmt.infMag (f : Fmt) : Nat := (2 ^ f.e - 1) * 2 ^ f.t

/-- Magnitude encoding of the default NaN (R160). -/
def Fmt.qnan (f : Fmt) : Nat := if f.inf then f.infMag + 2 ^ (f.t - 1) else 2 ^ (f.e + f.t) - 1

/-- A decoded value: NaN keeps sign, payload and whether it signals; a finite value is (-1)^neg m 2^x exactly. -/
inductive FVal where
  | nan (neg : Bool) (payload : Nat) (snan : Bool)
  | inf (neg : Bool)
  | fin (neg : Bool) (m : Nat) (x : Int)
  deriving DecidableEq, Repr

/-- The value of an encoding (R152, R153); subnormals are values (R154). -/
def fdec (f : Fmt) (v : Nat) : FVal :=
  let neg := v.testBit (f.e + f.t)
  let ex := (v >>> f.t) % 2 ^ f.e
  let fr := v % 2 ^ f.t
  if f.inf && ex == 2 ^ f.e - 1 then
    if fr = 0 then .inf neg else .nan neg fr (!fr.testBit (f.t - 1))
  else if f.nan1 && ex == 2 ^ f.e - 1 && fr == 2 ^ f.t - 1 then .nan neg 0 false
  else if ex = 0 then .fin neg fr (1 - (f.bias : Int) - f.t)
  else .fin neg (fr + 2 ^ f.t) ((ex : Int) - f.bias - f.t)

/-- The sign bit in place. -/
def Fmt.sgn (f : Fmt) (neg : Bool) : Nat := if neg then 2 ^ (f.e + f.t) else 0

/-- Whether the magnitude is rounded up: `r` of `2^d` is the discarded part, `odd` the last kept bit (R157). -/
def roundUp (rm : Nat) (neg odd : Bool) (r d : Nat) : Bool :=
  match rm with
  | 0 => decide (2 * r > 2 ^ d) || (decide (2 * r = 2 ^ d) && odd)
  | 1 => false
  | 2 => !neg && decide (r ≠ 0)
  | 3 => neg && decide (r ≠ 0)
  | _ => decide (2 * r ≥ 2 ^ d)

/-- `m 2^x` as a multiple of `2^q`, rounded: (multiple, inexact). -/
def quantize (rm : Nat) (neg : Bool) (m : Nat) (x q : Int) : Nat × Bool :=
  if q ≤ x then (m * 2 ^ (x - q).toNat, false)
  else
    let d := (q - x).toNat
    let k := m >>> d
    let r := m % 2 ^ d
    (k + b2n (roundUp rm neg (k % 2 == 1) r d), decide (r ≠ 0))

/-- Bit length of a number. -/
def bitLen (m : Nat) : Nat := if m = 0 then 0 else Nat.log2 m + 1

/-- Result when the rounded magnitude exceeds the largest finite value (R158). -/
def overflowMag (f : Fmt) (rm : Nat) (neg : Bool) : Nat :=
  if !f.inf then f.maxFin
  else match rm with
    | 1 => f.maxFin
    | 2 => if neg then f.maxFin else f.infMag
    | 3 => if neg then f.infMag else f.maxFin
    | _ => f.infMag

/-- The one rounding (R157-R159): encoding and TSTAT flags of (-1)^neg m 2^x in the format. -/
def fround (f : Fmt) (rm : Nat) (neg : Bool) (m : Nat) (x : Int) : Nat × Word :=
  if m = 0 then (f.sgn neg, 0)
  else
    let top : Int := x + (bitLen m : Int) - 1
    let emin : Int := 1 - f.bias
    let q : Int := (if top < emin then emin else top) - f.t
    let (k, inexact) := quantize rm neg m x q
    let mag := (q - (emin - f.t)).toNat * 2 ^ f.t + k
    if mag > f.maxFin then (f.sgn neg + overflowMag f rm neg, fOF ||| fNX)
    else
      let (ku, _) := quantize rm neg m x (top - f.t)     -- with unbounded exponent: tininess after rounding (R159)
      let tiny := decide (top < emin) && !(decide (top + 1 = emin) && decide (ku ≥ 2 ^ (f.t + 1)))
      (f.sgn neg + mag, flagIf inexact fNX ||| flagIf (tiny && inexact) fUF)

/-- A NaN operand as a result in the same format: its quiet bit set (R160). -/
def quiet (f : Fmt) (v : Nat) : Nat := if f.inf then v ||| 2 ^ (f.t - 1) else v

/-- The encoding is a NaN. -/
def isNan (f : Fmt) (v : Nat) : Bool := match fdec f v with | .nan _ _ _ => true | _ => false
/-- The encoding is a signalling NaN. -/
def isSnan (f : Fmt) (v : Nat) : Bool := match fdec f v with | .nan _ _ s => s | _ => false

/-- A signed dyadic sum: `a 2^x + b 2^y` as an integer times a power of two. -/
def dyAdd (a : Int) (x : Int) (b : Int) (y : Int) : Int × Int :=
  if x ≤ y then (a + b * 2 ^ (y - x).toNat, x) else (a * 2 ^ (x - y).toNat + b, y)

/-- The signed mantissa of a finite value. -/
def smant (neg : Bool) (m : Nat) : Int := if neg then -(m : Int) else (m : Int)

/-- Round a signed dyadic number; an exact zero takes the sign `zneg`. -/
def froundS (f : Fmt) (rm : Nat) (zneg : Bool) (v : Int) (x : Int) : Nat × Word :=
  if v = 0 then (f.sgn zneg, 0) else fround f rm (decide (v < 0)) v.natAbs x

/-- Product of two values for exact use: `none` for 0 × ∞. -/
def fmulVal : FVal → FVal → Option FVal
  | .fin n m x, .fin n' m' x' => some (.fin (n != n') (m * m') (x + x'))
  | .inf n, .inf n' => some (.inf (n != n'))
  | .inf n, .fin n' m _ => if m = 0 then none else some (.inf (n != n'))
  | .fin n' m _, .inf n => if m = 0 then none else some (.inf (n != n'))
  | a, _ => some a

/-- Sign of an exact sum that is zero, from the signs of its terms (IEEE 754-2019). -/
def zeroSign (rm : Nat) (allNeg allPos : Bool) : Bool := if allNeg then true else if allPos then false else decide (rm = 3)

/-- The exact sum of values, rounded once: all terms finite or infinite, no NaN (R143, R157). -/
def fsum (f : Fmt) (rm : Nat) (l : List FVal) : Nat × Word :=
  let pinf := l.any (fun v => v == .inf false)
  let ninf := l.any (fun v => v == .inf true)
  if pinf && ninf then (f.qnan, fNV)
  else if pinf then (f.infMag, 0)
  else if ninf then (f.sgn true + f.infMag, 0)
  else
    let (v, x) := l.foldl (fun a t => match t with | .fin n m y => dyAdd a.1 a.2 (smant n m) y | _ => a) ((0 : Int), (0 : Int))
    let neg := l.all (fun t => match t with | .fin n m _ => n && m == 0 | _ => false)
    let pos := l.all (fun t => match t with | .fin n m _ => !n && m == 0 | _ => false)
    froundS f rm (zeroSign rm neg pos) v x

/-- First NaN among operands in order, made quiet (R160). -/
def firstNan (f : Fmt) (l : List Nat) : Option Nat := (l.find? (isNan f)).map (quiet f)

/-- NV for a signalling NaN among operands (R159). -/
def snanFlag (f : Fmt) (l : List Nat) : Word := flagIf (l.any (isSnan f)) fNV

/-- Lane-wise add (R142). -/
def fadd (f : Fmt) (rm : Nat) (a b : Nat) : Nat × Word :=
  match firstNan f [a, b] with
  | some r => (r, snanFlag f [a, b])
  | none => fsum f rm [fdec f a, fdec f b]

/-- The encoding with its sign bit changed (R160: even of a NaN). -/
def fnegate (f : Fmt) (v : Nat) : Nat := v ^^^ 2 ^ (f.e + f.t)

/-- Lane-wise subtract: the second operand's sign changes unless it is a NaN, whose payload is kept (R160). -/
def fsub (f : Fmt) (rm : Nat) (a b : Nat) : Nat × Word :=
  match firstNan f [a, b] with
  | some r => (r, snanFlag f [a, b])
  | none => fsum f rm [fdec f a, fdec f (fnegate f b)]

/-- Lane-wise multiply (R142). -/
def fmul (f : Fmt) (rm : Nat) (a b : Nat) : Nat × Word :=
  match firstNan f [a, b] with
  | some r => (r, snanFlag f [a, b])
  | none => match fmulVal (fdec f a) (fdec f b) with
    | none => (f.qnan, fNV)
    | some (.fin n m x) => fround f rm n m x
    | some (.inf n) => (f.sgn n + f.infMag, 0)
    | some _ => (f.qnan, 0)

/-- Fused multiply-add `a b + c`, rounded once; NV for 0 × ∞ even with a NaN addend (R159, R160). -/
def ffma (f : Fmt) (rm : Nat) (a b c : Nat) : Nat × Word :=
  let bad := !isNan f a && !isNan f b && (fmulVal (fdec f a) (fdec f b)).isNone
  match firstNan f [a, b, c] with
  | some r => (r, snanFlag f [a, b, c] ||| flagIf bad fNV)
  | none => match fmulVal (fdec f a) (fdec f b) with
    | none => (f.qnan, fNV)
    | some p => fsum f rm [p, fdec f c]

/-- Compare two non-NaN values: negative, zero or positive. -/
def fcmpVal (a b : FVal) : Int :=
  match a, b with
  | .inf n, .inf n' => if n = n' then 0 else if n then -1 else 1
  | .inf n, _ => if n then -1 else 1
  | _, .inf n => if n then 1 else -1
  | .fin n m x, .fin n' m' x' => let d := (dyAdd (smant n m) x (-(smant n' m')) x').1; if d < 0 then -1 else if d = 0 then 0 else 1
  | _, _ => 0

/-- IEEE minimumNumber and maximumNumber (R142): a NaN loses to a number, -0 is below +0. -/
def fminmax (f : Fmt) (mx : Bool) (a b : Nat) : Nat × Word :=
  let fl := snanFlag f [a, b]
  match isNan f a, isNan f b with
  | true, true => (quiet f a, fl)
  | true, false => (b, fl)
  | false, true => (a, fl)
  | false, false =>
    let c := fcmpVal (fdec f a) (fdec f b)
    let aFirst := if c = 0 then (a.testBit (f.e + f.t) != mx) else (decide (c < 0) != mx)
    (if aFirst then a else b, fl)

/-- Vector compares (R142): result and NV. -/
def fcmp (f : Fmt) (k : VCmp) (a b : Nat) : Bool × Word :=
  let nan := isNan f a || isNan f b
  let c := fcmpVal (fdec f a) (fdec f b)
  match k with
  | .eq => (!nan && decide (c = 0), snanFlag f [a, b])
  | .ne => (nan || decide (c ≠ 0), snanFlag f [a, b])
  | .lt => (!nan && decide (c < 0), flagIf nan fNV)
  | .le => (!nan && decide (c ≤ 0), flagIf nan fNV)
  | .un => (nan, snanFlag f [a, b])
  | .ltu => (false, 0)
  | .leu => (false, 0)

/-! ## Conversions (R144, R151, R161) -/

/-- NaN of one format into another: sign kept, most significant payload bits kept, quiet (R161). -/
def nanInto (src dst : Fmt) (neg : Bool) (payload : Nat) : Nat :=
  if !dst.inf then dst.sgn neg + (2 ^ (dst.e + dst.t) - 1)
  else if !src.inf then dst.sgn neg + dst.qnan
  else
    let p := if src.t ≤ dst.t then payload * 2 ^ (dst.t - src.t) else payload / 2 ^ (src.t - dst.t)
    dst.sgn neg + dst.infMag + (p % 2 ^ (dst.t - 1)) + 2 ^ (dst.t - 1)

/-- A value into a format (R161); infinity into a format without one saturates with NV and NX (R151, R158). -/
def fconv (src dst : Fmt) (rm : Nat) (v : FVal) : Nat × Word :=
  match v with
  | .nan n p s => (nanInto src dst n p, flagIf s fNV)
  | .inf n => if dst.inf then (dst.sgn n + dst.infMag, 0) else (dst.sgn n + dst.maxFin, fNV ||| fNX)
  | .fin n m x => fround dst rm n m x

/-- A value to an integer of `w` bits (R151): rounded under RM, saturating, NaN to 0; `sgn` chooses the signed range. -/
def ftoi (rm w : Nat) (sgn : Bool) (v : FVal) : Nat × Word :=
  let lo : Int := if sgn then -(2 ^ (w - 1) : Int) else 0
  let hi : Int := if sgn then (2 ^ (w - 1) : Int) - 1 else (2 ^ w : Int) - 1
  match v with
  | .nan _ _ _ => (0, fNV)
  | .inf n => (uval w (if n then lo else hi), fNV)
  | .fin n m x =>
    let (k, inexact) := quantize rm n m x 0
    let r := smant n k
    if r < lo then (uval w lo, fNV) else if r > hi then (uval w hi, fNV) else (uval w r, flagIf inexact fNX)

/-- An integer into a format (R151). -/
def itof (f : Fmt) (rm : Nat) (x : Int) : Nat × Word := froundS f rm false x 0

/-! ## MX block scaling (R155, R156, R162, R163) -/

/-- An element of an MX block under scale byte X: the quiet NaN of X = 0xFF, else 2^(X-127) times the element. -/
def mxVal (f : Fmt) (scale v : Nat) : FVal :=
  if scale = 255 then .nan false 0 false
  else match fdec f v with
    | .fin n m x => .fin n m (x + (scale : Int) - 127)
    | .inf n => .inf n
    | .nan n p s => .nan n p s

/-- floor(log2 |v|) of a finite nonzero value. -/
def flog2 (m : Nat) (x : Int) : Int := x + (bitLen m : Int) - 1

/-- Unbiased exponent of the element format's largest finite value (R162). -/
def Fmt.emax (f : Fmt) : Int := ((f.maxFin >>> f.t : Nat) : Int) - f.bias

/-- One block of source values into an MX format (R162, R163): scale byte, element encodings, flags. -/
def mxBlock (f : Fmt) (rm : Nat) (xs : List FVal) : Nat × List Nat × Word :=
  let special := xs.any (fun v => match v with | .fin _ _ _ => false | _ => true)
  if special then
    (255, xs.map (fun _ => 0), flagIf (xs.any (fun v => match v with | .inf _ => true | .nan _ _ s => s | _ => false)) fNV)
  else
    let logs := xs.filterMap (fun v => match v with | .fin _ m x => if m = 0 then none else some (flog2 m x) | _ => none)
    let p0 : Int := match logs with
      | [] => -127
      | l :: r => r.foldl (fun a b => if b > a then b else a) l - f.emax
    let hi := decide (p0 > 127)
    let lo := decide (p0 < -127)
    let p : Int := if hi then 127 else if lo then -127 else p0
    let es := xs.map (fun v => match v with
      | .fin n m x => fround { f with inf := false } rm n m (x - p)
      | _ => (0, 0))
    -- E5M2 elements saturate at the largest finite value (R158, R162)
    let es := es.map (fun e => if f.inf && (e.1 % 2 ^ (f.e + f.t)) > f.maxFin then
      ((e.1 / 2 ^ (f.e + f.t)) * 2 ^ (f.e + f.t) + f.maxFin, fOF ||| fNX) else e)
    let inexact := es.any (fun e => e.2 &&& fNX != 0)
    let ovf := es.any (fun e => e.2 &&& fOF != 0)
    ((p + 127).toNat, es.map (·.1), flagIf inexact fNX ||| flagIf (hi && ovf) fOF ||| flagIf (lo && inexact) fUF)

/-! ## Exact accumulators (R167-R175) -/

/-- Bits of VALUE. -/
def accBits : Nat := 4259
/-- VALUE as a signed integer. -/
def accValue (a : BitVec 4352) : Int := sval accBits a.toNat
/-- TERMS. -/
def accTerms (a : BitVec 4352) : Nat := bits a 4320 4259
def accPinf (a : BitVec 4352) : Bool := bit a 4321
def accNinf (a : BitVec 4352) : Bool := bit a 4322
def accNan (a : BitVec 4352) : Bool := bit a 4323
def accNv (a : BitVec 4352) : Bool := bit a 4324
def accRange (a : BitVec 4352) : Bool := bit a 4325

/-- An accumulator state from its fields (R167). -/
def accMk (value : Int) (terms : Nat) (pinf ninf nan nv range : Bool) : BitVec 4352 :=
  BitVec.ofNat 4352 (uval accBits value + (terms % 2 ^ 62) <<< 4259 + (b2n pinf) <<< 4321 + (b2n ninf) <<< 4322
    + (b2n nan) <<< 4323 + (b2n nv) <<< 4324 + (b2n range) <<< 4325)

/-- 2^62 - 1 (R167). -/
def termsMax : Nat := 2 ^ 62 - 1

/-- What one term of a fold is (R168): its value, and whether it or a factor is a signalling NaN or an invalid product. -/
inductive Term where
  | val (v : FVal)
  | nan (nv : Bool)
  deriving DecidableEq, Repr

/-- Fold one term (R168). -/
def accFold (a : BitVec 4352) (t : Term) : BitVec 4352 :=
  let range := accRange a || accTerms a == termsMax
  let terms := if accTerms a = termsMax then termsMax else accTerms a + 1
  match t with
  | .nan nv => accMk (accValue a) terms (accPinf a) (accNinf a) true (accNv a || nv) range
  | .val (.inf false) => accMk (accValue a) terms true (accNinf a) (accNan a) (accNv a) range
  | .val (.inf true) => accMk (accValue a) terms (accPinf a) true (accNan a) (accNv a) range
  | .val (.nan _ _ s) => accMk (accValue a) terms (accPinf a) (accNinf a) true (accNv a || s) range
  | .val (.fin n m x) =>
    accMk (accValue a + smant n m * 2 ^ (x + 2148).toNat) terms (accPinf a) (accNinf a) (accNan a) (accNv a) range

/-- Merge of a serialised state (R171). -/
def accMerge (a b : BitVec 4352) : BitVec 4352 :=
  let t := accTerms a + accTerms b
  accMk (accValue a + accValue b) (Nat.min t termsMax) (accPinf a || accPinf b) (accNinf a || accNinf b)
    (accNan a || accNan b) (accNv a || accNv b) (accRange a || accRange b || decide (t ≥ 2 ^ 62))

/-- Round-out to a floating-point format (R173): encoding and flags. -/
def accRoundF (f : Fmt) (rm : Nat) (a : BitVec 4352) : Nat × Word :=
  let both := accPinf a && accNinf a
  if accRange a || accNan a || both then (f.qnan, flagIf (accRange a || accNv a || both) fNV)
  else if accPinf a || accNinf a then
    let n := !accPinf a
    if f.inf then (f.sgn n + f.infMag, 0) else (f.sgn n + f.maxFin, fNV ||| fNX)
  else if accValue a = 0 then (f.sgn (decide (rm = 3)), 0)
  else fround f rm (decide (accValue a < 0)) (accValue a).natAbs (-2148)

/-- Round-out to i64 (R173, R151). -/
def accRoundI (rm : Nat) (a : BitVec 4352) : Nat × Word :=
  if accRange a || accNan a || (accPinf a && accNinf a) then (0, fNV)
  else if accPinf a then (2 ^ 63 - 1, fNV)
  else if accNinf a then (2 ^ 63, fNV)
  else ftoi rm 64 true (.fin (decide (accValue a < 0)) (accValue a).natAbs (-2148))

/-- The status word of `eainfo` (R174). -/
def accInfo (a : BitVec 4352) : Word :=
  let v := accValue a
  at_ (b2n (accRange a)) 63 ||| at_ (b2n (accNv a)) 62 ||| at_ (b2n (accNan a)) 61 ||| at_ (b2n (accNinf a)) 60
  ||| at_ (b2n (accPinf a)) 59 ||| at_ (b2n (decide (v < 0))) 58 ||| at_ (b2n (decide (v = 0))) 57
  ||| at_ (if v = 0 then 0 else Nat.log2 v.natAbs) 44 ||| BitVec.ofNat 64 (Nat.min (accTerms a) (2 ^ 44 - 1))

/-- The 544-byte serialised form (R175). -/
def accBytes (a : BitVec 4352) : List Byte := toBytes 544 a.toNat

/-- An accumulator state read from 544 bytes; reserved bits are ignored (R171). -/
def accOf (l : List Byte) : BitVec 4352 := BitVec.ofNat 4352 (ofBytes (l.take 544) % 2 ^ 4326)

/-- A state whose storage failed: NAN and NV set (R172). -/
def accPoison (a : BitVec 4352) : BitVec 4352 := accMk (accValue a) (accTerms a) (accPinf a) (accNinf a) true true (accRange a)

end Sys2Proof.Machine
end

