-- ==== Sys2Proof/Machine/Operands.lean ====
section
/-! DEFINITION. Operand forms of thread instructions: reading registers as their slot sees them (R82, R91), lanes and masks
(R78, R79, R137-R140), and the result writes with their latencies (R81-R85). -/

namespace Sys2Proof.Machine

/-! ## Special register fields -/

def Thread.rm (t : Thread) : Nat := bits t.tctl 2 0
def Thread.dzt (t : Thread) : Bool := bit t.tctl 4
def Thread.vt (t : Thread) : Bool := bit t.tctl 5
def Thread.rso (t : Thread) : Bool := bit t.tctl 6
def Thread.sstep (t : Thread) : Bool := bit t.tctl 7
def Thread.priv (t : Thread) : Nat := bits t.tctl 31 30
/-- FPT mask at the positions of TSTAT [12:8]; bit 9 has no effect (R159). -/
def Thread.fpt (t : Thread) : Word := t.tctl &&& 0x1D00
def Thread.brcLen (t : Thread) : Nat := bits t.brc 47 32
def Thread.brcCount (t : Thread) : Nat := bits t.brc 31 0
def Thread.rspDepth (t : Thread) : Nat := bits t.rsp 3 0
def Thread.rspTop (t : Thread) : Nat := bits t.rsp 10 8

/-- LCNT: operations from the first one not complete on (R88). -/
def outstanding (l : List Op) : Nat := (l.dropWhile (·.done)).length
def Thread.lcnt (t : Thread) : Nat := outstanding t.loads
def Thread.scnt (t : Thread) : Nat := outstanding t.stores

/-- An `rspop` has not met its matching wait: the return stack is unspecified (R101). -/
def Thread.rsBusy (t : Thread) : Bool := t.loads.any (fun o => match o.act with | .rspop _ => true | _ => false)

/-! ## Reading registers -/

/-- The register is the destination of a load-class operation whose matching wait has not completed (R91). -/
def isDest (t : Thread) (f : RFile) (n : Nat) : Bool :=
  t.loads.any (fun o => match o.dest with | some d => d.file == f && d.num.toNat == n | none => false)

/-- A general register as the instruction reads it: g0 is zero (R77), an awaited destination is free (R91). -/
def rdG (s : State) (t : Thread) (r : Reg) : Word :=
  if r = 0 then 0 else if isDest t .gen r.toNat then freeBits s 64 (1000 + r.toNat) else t.g[r.toFin]

/-- A vector register as the instruction reads it. -/
def rdV (s : State) (t : Thread) (r : VReg) : BitVec 1024 :=
  if isDest t .vec r.toNat then freeBits s 1024 (2000 + r.toNat) else t.v[r.toFin]

/-- A mask register: m0 is all ones (R77). -/
def rdM (t : Thread) (r : MReg) : BitVec 128 := if r = 0 then BitVec.allOnes 128 else t.m[r.toFin]

/-- The last operand of major 0x00 or 0x01; an immediate is sign-extended (R116). -/
def rdSrc (s : State) (t : Thread) (x : Src) : Word :=
  match x with
  | .reg b => rdG s t b
  | .imm v => v.signExtend 64

/-- An immediate, sign-extended (R116). -/
def immS (v : Imm) : Word := v.signExtend 64

/-! ## Writes -/

/-- A result write: latency and pending entry with `due` still to be set (R81). -/
structure Wr where
  lat : Nat
  p   : PendRes
  deriving DecidableEq, Repr

/-- Write of a general register with flags. -/
def wrG (lat : Nat) (r : Reg) (v : Word) (flags : Word := 0) : Wr :=
  ⟨lat, ⟨0, .gen, r, 0xFF, v.setWidth 1024, flags⟩⟩

/-- Write of a vector register under byte enables. -/
def wrV (lat : Nat) (r : VReg) (bytes : BitVec 128) (v : BitVec 1024) (flags : Word := 0) : Wr :=
  ⟨lat, ⟨0, .vec, r.setWidth 6, bytes, v, flags⟩⟩

/-- Write of a mask register under byte enables. -/
def wrM (lat : Nat) (r : MReg) (bytes : BitVec 128) (v : BitVec 128) (flags : Word := 0) : Wr :=
  ⟨lat, ⟨0, .mask, r.setWidth 6, bytes, v.setWidth 1024, flags⟩⟩

/-- Write of a special register. -/
def wrS (lat : Nat) (n : BitVec 6) (v : Word) : Wr := ⟨lat, ⟨0, .special, n, 0xFF, v.setWidth 1024, 0⟩⟩

/-- Flags alone, set at the retire slot. -/
def wrFlags (lat : Nat) (flags : Word) : Wr := ⟨lat, ⟨0, .gen, 0, 0, 0, flags⟩⟩

/-- The bit mask of byte enables over `n` bytes. -/
def byteMask (n : Nat) (en : BitVec 128) : Nat :=
  (List.range n).foldl (fun a i => if en.toNat.testBit i then a + 255 <<< (8 * i) else a) 0

/-- A value with enabled bytes replaced. -/
def mergeBytes (w : Nat) (en : BitVec 128) (old new : BitVec w) : BitVec w :=
  let m := BitVec.ofNat w (byteMask (w / 8) en)
  (old &&& ~~~m) ||| (new &&& m)

/-- Write of a special register at its visibility (R80): what the profile may not write is ignored, a reserved value of
`TCTL.RM` or `RSP.DEPTH` leaves that field (R11), TSTAT clears by ones. -/
def writeSpecial (t : Thread) (n : Nat) (v : Word) : Thread :=
  let hnd := decide (t.priv ≥ 1)
  match n with
  | 0 =>
    let w := (v &&& 0x1FF8 &&& ~~~(0x88 : Word)) ||| (if hnd then v &&& 0x80 else t.tctl &&& 0x80)
    let rm := if bits v 2 0 ≤ 4 then bits v 2 0 else bits t.tctl 2 0
    { t with tctl := (t.tctl &&& 0xFFFFFFFFC0000000) ||| (w &&& 0x1FF0) ||| BitVec.ofNat 64 rm }
  | 1 => { t with tstat := t.tstat &&& ~~~v }
  | 2 => { t with brc := v &&& 0x0000FFFFFFFFFFFF }
  | 3 => { t with brs := v &&& 0xFFFFFFFFFFFFFFF8 }
  | 6 => if hnd then
      let depth := if bits v 3 0 ≤ 8 then bits v 3 0 else bits t.rsp 3 0
      { t with rsp := (v &&& 0x700) ||| BitVec.ofNat 64 depth }
    else t
  | _ => t

/-- What a special register's bytes that a write does not enable are taken as (R111 BYTES): the value held; `TSTAT` clears by ones, so
nothing there. -/
def specialOld (t : Thread) (n : Nat) : Word :=
  match n with
  | 0 => t.tctl
  | 2 => t.brc
  | 3 => t.brs
  | 6 => t.rsp
  | _ => 0

/-- A retired result is written (R81, R83); g0 and m0 discard writes (R77). A write to an awaited destination makes the
register unspecified at the matching wait (R92). -/
def applyRes (t : Thread) (p : PendRes) : Thread :=
  let t := match p.file with
    | .gen =>
      if p.num = 0 then t
      else { t with g := t.g.set p.num.toFin (mergeBytes 64 p.bytes t.g[p.num.toFin] (p.data.setWidth 64)) }
    | .vec =>
      let r : VReg := p.num.setWidth 3
      { t with v := t.v.set r.toFin (mergeBytes 1024 p.bytes t.v[r.toFin] p.data) }
    | .mask =>
      let r : MReg := p.num.setWidth 3
      if r = 0 then t
      else { t with m := t.m.set r.toFin (mergeBytes 128 p.bytes t.m[r.toFin] (p.data.setWidth 128)) }
    | .special => writeSpecial t p.num.toNat (mergeBytes 64 p.bytes (specialOld t p.num.toNat) (p.data.setWidth 64))
  t

/-- The write names the destination of the operation; `rspop` has `RSP` for one (R101). -/
def hitsDest (o : Op) (p : PendRes) : Bool :=
  match o.dest, o.act with
  | some d, _ => d.file == p.file && d.num == p.num
  | none, .rspop _ => p.file == .special && p.num == 6
  | none, _ => false

/-- Mark the outstanding loads whose destination a fixed-latency instruction writes (R92). -/
def clobber (l : List Op) (p : PendRes) : List Op :=
  l.map (fun o => if hitsDest o p && p.bytes != 0 then { o with clob := true } else o)

/-- Retire the results due now, in issue order; sticky flags are set after every write of the slot (R83, R85). -/
def retire (t : Thread) : Thread :=
  let now := t.pend.filter (fun p => p.due == 0)
  let later := t.pend.filter (fun p => p.due != 0)
  let t := now.foldl (fun t p => { applyRes t p with loads := clobber t.loads p }) { t with pend := later }
  { t with tstat := t.tstat ||| now.foldl (fun f p => f ||| p.flags) 0 }

/-- The slot of an issued instruction ends: pending results come one instruction nearer, its own writes join them (R81). -/
def advanceSlot (t : Thread) (ws : List Wr) : Thread :=
  let old := t.pend.map (fun p => { p with due := p.due - 1 })
  let new := ws.map (fun w => { w.p with due := w.lat - 1 })
  retire { t with pend := old ++ new, loads := new.foldl clobber t.loads }

/-! ## Lanes -/

end Sys2Proof.Machine

namespace Sys2Proof

/-- The format of a floating-point or MX element (R152); FP32 for an integer type, where it is not used. -/
def EType.fmt : EType → Machine.Fmt
  | .e4m3 => Machine.e4m3 | .e5m2 => Machine.e5m2 | .f16 => Machine.fp16 | .bf16 => Machine.bf16
  | .f64 => Machine.fp64 | .mxfp4 => Machine.e2m1 | .mxfp6e2 => Machine.e2m3 | .mxfp6e3 => Machine.e3m2 | .mxfp8e4 => Machine.e4m3
  | .mxfp8e5 => Machine.e5m2 | .f32 => Machine.fp32 | .i8 => Machine.fp32 | .i16 => Machine.fp32 | .i32 => Machine.fp32 | .i64 => Machine.fp32

end Sys2Proof

namespace Sys2Proof.Machine

/-- Lane k of a register at `w` bits (R78, R138). -/
def lane (w : Nat) (v : BitVec 1024) (k : Nat) : Nat := (v.toNat >>> (w * k)) % 2 ^ w

/-- A register from its lanes, lane 0 first. -/
def packNat (w : Nat) (l : List Nat) : Nat := l.foldr (fun x r => x % 2 ^ w + 2 ^ w * r) 0
def pack (w : Nat) (l : List Nat) : BitVec 1024 := BitVec.ofNat 1024 (packNat w l)

/-- Mask bit k. -/
def active (m : BitVec 128) (k : Nat) : Bool := m.toNat.testBit k

/-- Byte enables of the lanes whose mask bit is 1, `w` bits a lane (R79). -/
def laneBytes (w n : Nat) (m : BitVec 128) : BitVec 128 :=
  BitVec.ofNat 128 ((List.range n).foldl (fun a k => if active m k then a + (2 ^ (w / 8) - 1) <<< (w / 8 * k) else a) 0)

/-- The vb operand as lanes: a register, or the low bits of g in every lane (R140). -/
def rdVB (s : State) (t : Thread) (w : Nat) (b : VB) (k : Nat) : Nat :=
  match b with
  | .vec v => lane w (rdV s t v) k
  | .gen g => (rdG s t g).toNat % 2 ^ w

/-- Union of the flags of the active lanes (R141, R139). -/
def laneFlags (m : BitVec 128) (l : List (Nat × Word)) : Word :=
  (l.zipIdx).foldl (fun f p => if active m p.2 then f ||| p.1.2 else f) 0

end Sys2Proof.Machine
end

