-- ==== Sys2Proof/Machine/Memory.lean ====
section
/-! DEFINITION. Stacked memory: placement (R182-R184), instance addresses (R188-R193), error correction and poisoning (R209-R211),
the snapshot guard (R221-R226), mirrored granules (R216-R220) and the thread spill areas (R202-R205). -/

namespace Sys2Proof.Machine

/-! ## Placement -/

/-- First physical address with no memory behind it (R182). -/
def memEnd : Nat := 0x24000000000
/-- The row is spread (R183); row 71 never is. -/
def rowIsSpread (s : State) (r : Nat) : Bool := decide (r ≤ 70) && s.rowSpread.toNat.testBit r

/-- Stack of a local physical address (R184). -/
def stackOf (s : State) (pa : Nat) : Nat :=
  let g := pa / 2 ^ 30
  let b := pa % 2 ^ 30
  if rowIsSpread s (g / 32) then (g % 32 + b / 4096) % 32 else g % 32

/-- Stack-local address of a local physical address (R184). -/
def stackLocal (s : State) (pa : Nat) : Nat :=
  let g := pa / 2 ^ 30
  let b := pa % 2 ^ 30
  if rowIsSpread s (g / 32) then g / 32 * 2 ^ 30 + g % 32 * 2 ^ 25 + b / 4096 / 32 * 4096 + b % 4096 else g / 32 * 2 ^ 30 + b

/-! ## Granule tables and instance addresses -/

/-- A granule table entry as stored (R194), PLACE computed by its reader. -/
def gtEntry (s : State) (vi : Vi) (i : Nat) : Word := tget s.gt (vi.toNat * 4096 + i) 0
def gtValid (e : Word) : Bool := bit e 63
def gtRd (e : Word) : Bool := bit e 62
def gtWr (e : Word) : Bool := bit e 61
def gtEx (e : Word) : Bool := bit e 60
def gtMirror (e : Word) : Bool := bit e 59
def gtSnap (e : Word) : Bool := bit e 58
def gtMpgran (e : Word) : Nat := bits e 43 32
def gtPgran (e : Word) : Nat := bits e 11 0

/-- Kinds of access (R191). -/
inductive AccKind where
  | rd | wr | rdwr | ex
  deriving DecidableEq, Repr

/-- The entry permits the access (R191). -/
def permits (e : Word) (k : AccKind) : Bool :=
  gtValid e && (match k with | .rd => gtRd e | .wr => gtWr e | .rdwr => gtRd e && gtWr e | .ex => gtEx e)

/-- Where an instance address leads (R189-R193). -/
inductive Xlat where
  | fault
  | dev (pa : Nat) (mirror : Option Nat)     -- local physical address, partner's granule when mirrored
  | host (bus : Nat)
  | remote (d : BitVec 16) (off : Nat)
  deriving DecidableEq, Repr

/-- Device code of an instance address that does not set SELF. -/
def addrDev (a : Word) : BitVec 16 :=
  BitVec.ofNat 16 (bits a 63 60 * 4096 + bits a 59 56 * 256 + bits a 55 52 * 16 + bits a 51 51)

/-- Translation of an instance address for `n` bytes (R188-R193). -/
def translate (s : State) (vi : Vi) (a : Word) (n : Nat) (k : AccKind) : Xlat :=
  let off := bits a 41 0
  let self := bit a 49
  let hostB := bit a 50
  if bits a 48 42 ≠ 0 then .fault
  else if self && bits a 63 51 != 0 then .fault
  else if hostB && !self then .fault
  else if hostB then
    let w := rget s (viReg vi 0x218)
    if off + n ≤ bits w 12 0 * 2 ^ 30 ∧ (k = .rd ∨ k = .wr) then .host (bits w 63 30 * 2 ^ 30 + off) else .fault
  else if !self && !inFabric s (addrDev a) then .fault
  else if self || addrDev a == ownDev s then
    let e := gtEntry s vi (off / 2 ^ 30)
    -- an access that runs past its granule is translated from its first byte's entry only when it stays inside it
    if permits e k && decide (off % 2 ^ 30 + n ≤ 2 ^ 30) then
      .dev (gtPgran e * 2 ^ 30 + off % 2 ^ 30) (if gtMirror e then some (gtMpgran e) else none)
    else .fault
  else if k = .ex then .fault
  else .remote (addrDev a) off

/-! ## Error correction and poisoning -/

/-- 64-byte block number of a physical address. -/
def blockOf (pa : Nat) : Nat := pa / 64
/-- Blocks touched by `n` bytes from `pa`. -/
def blocksOf (pa n : Nat) : List Nat :=
  if n = 0 then [] else (List.range ((pa + n - 1) / 64 - pa / 64 + 1)).map (· + pa / 64)

/-- Mark a block poisoned. -/
def poisonBlock (s : State) (b : Nat) : State :=
  if s.poison.contains b then s else { s with poison := b :: s.poison }

/-- An uncorrectable error is found in a block: poisoned, counted and recorded (R210, R212). -/
def foundUe (s : State) (b : Nat) (consumer : Option Vi) : State :=
  let st := stackOf s (b * 64)
  let s := poisonBlock { s with ue := s.ue.filter (· != b) } b
  let s := { s with stkUe := tset s.stkUe st (sat 65535 (tget s.stkUe st 0 + 1)) }
  let s := match consumer with
    | some v => modInst s v (fun i => { i with memPoison := true })
    | none => s
  raiseErr s {
    cause := 0x03, sev := 2, vi := consumer, status := 0x0A, unit := columnUd s st,
    addr := BitVec.ofNat 64 (b * 64), arg0 := BitVec.ofNat 64 st }

/-- The memory controller reads blocks: an error it cannot correct poisons the block (R210). -/
def touchBlocks (s : State) (pa n : Nat) (consumer : Option Vi) : State :=
  (blocksOf pa n).foldl (fun s b => if s.ue.contains b then foundUe s b consumer else s) s

/-- Some block of the range is poisoned. -/
def anyPoison (s : State) (pa n : Nat) : Bool := (blocksOf pa n).any (fun b => s.poison.contains b)

/-- A read of device memory: state after, bytes, poisoned (R210). -/
def devRead (s : State) (pa n : Nat) (consumer : Option Vi) : State × List Byte × Bool :=
  let s := touchBlocks s pa n consumer
  let p := anyPoison s pa n
  let s := match consumer with
    | some v => if p then modInst s v (fun i => { i with memPoison := true }) else s
    | none => s
  (s, s.mem.bytes pa n, p)

/-- One block's share of a write (R211). -/
def writeBlock (s : State) (vi : Option Vi) (pa : Nat) (d : List Byte) : State :=
  let b := pa / 64
  if d.length = 64 then
    { s with mem := s.mem.puts pa d, poison := s.poison.filter (· != b), ue := s.ue.filter (· != b) }
  else
    let s := if s.ue.contains b then foundUe s b vi else s
    if s.poison.contains b then
      let st := stackOf s pa
      raiseErr s {
        cause := 0x04, sev := 2, vi := vi, status := 0x0A, unit := columnUd s st,
        addr := BitVec.ofNat 64 pa, arg0 := BitVec.ofNat 64 st }
    else { s with mem := s.mem.puts pa d }

/-- A write split at block boundaries; `fuel` bounds the blocks. -/
def writeBlocks (s : State) (vi : Option Vi) (pa : Nat) (d : List Byte) : Nat → State
  | 0 => s
  | fuel + 1 =>
    if d.isEmpty then s
    else
      let k := 64 - pa % 64
      writeBlocks (writeBlock s vi pa (d.take k)) vi (pa + k) (d.drop k) fuel

/-- A write of device memory (R211). -/
def devWrite (s : State) (vi : Option Vi) (pa : Nat) (d : List Byte) : State := writeBlocks s vi pa d (d.length / 64 + 2)

/-! ## Atomics (R125) -/

/-- New value of an atomic over `w` bits. -/
def amoNew (op : AmoOp) (w old x y : Nat) : Nat :=
  match op with
  | .add => (old + x) % 2 ^ w
  | .and => Nat.land old x
  | .or => Nat.lor old x
  | .xor => Nat.xor old x
  | .min => if sval w old ≤ sval w x then old else x
  | .max => if sval w old ≥ sval w x then old else x
  | .minu => Nat.min old x
  | .maxu => Nat.max old x
  | .swap => x
  | .cas => if old = y then x else old

/-! ## The snapshot guard and mirroring -/

/-- 64 KiB page of a physical address. -/
def pageOf (pa : Nat) : Nat := pa / 65536
/-- The guard bits of the page are set (R221, R222). -/
def guarded (s : State) (page : Nat) : Bool := s.guard.contains page

/-- Mirrored writes are being sent to the partner (R216): the mirror is ACTIVE, or a RESYNC has passed the page (R456). -/
def mirrorSends (s : State) (pa : Nat) : Bool :=
  match s.pair.resyncAt with
  | some next => decide (pageOf pa < next)
  | none => s.pair.mir == 1

/-- Writes to mirrored granules are held at their issuer (R451). -/
def mirrorHeld (s : State) : Bool := s.pair.holding

/-- Body of a MIRROR_WR (R436): the partner's address, the own granule with the marker bit and the count, the data. -/
def mirrorBody (src dst n : Nat) (mark : Bool) (d : List Byte) : List Byte :=
  toBytes 8 dst ++ toBytes 8 (src / 2 ^ 30 + 4096 * b2n mark + 65536 * n) ++ d

/-- One MIRROR_WR of at most 4,096 bytes goes to the Mirror link (R216, R436, R444). -/
def mirrorSend (s : State) (src dst n : Nat) (mark : Bool) (d : List Byte) (w : Writer) : State :=
  { s with
    pair := { s.pair with
      out := s.pair.out ++ [{ pa := dst, data := d, mark := if mark then n else 0, writer := w, seq := s.pair.mirSeq }]
      mirSeq := s.pair.mirSeq + 1 }
    linkOut := s.linkOut ++ [(none, { ty := 3, vc := 1, dst := partnerDev s, src := ownSite s, body := mirrorBody src dst n mark d })] }

/-- A mirrored write of `n` bytes, or a marker, cut into packets; `fuel` bounds them. -/
def mirrorCut (s : State) (src dst n : Nat) (mark : Bool) (d : List Byte) (w : Writer) : Nat → State
  | 0 => s
  | fuel + 1 =>
    if n ≤ 4096 then mirrorSend s src dst n mark d w
    else mirrorCut (mirrorSend s src dst 4096 mark (d.take 4096) w) (src + 4096) (dst + 4096) (n - 4096) mark (d.drop 4096) w fuel

/-- Book-keeping of one performed write or poison marker in a mirrored granule (R216, R217, R220): sent to the partner, or counted. `mark` is
the length of a marker, and 0 for a write of `d`. -/
def mirrorOut (s : State) (mirror : Option Nat) (pa : Nat) (d : List Byte) (mark : Nat) (w : Writer) : State :=
  match mirror with
  | none => s
  | some g =>
    let n := if mark = 0 then d.length else mark
    if mirrorSends s pa then mirrorCut s pa (g * 2 ^ 30 + pa % 2 ^ 30) n (mark != 0) d w (n / 4096 + 1)
    else if s.pair.mir = 2 then
      { s with pair := { s.pair with unmirrored := s.pair.unmirrored + BitVec.ofNat 48 (blocksOf pa n).length } }
    else s

/-- Blocks of a range are marked poisoned, on the partner too when mirrored (R216). -/
def markPoison (s : State) (mirror : Option Nat) (pa n : Nat) (w : Writer) : State :=
  mirrorOut ((blocksOf pa n).foldl poisonBlock { s with ue := s.ue.filter (fun b => !(blocksOf pa n).contains b) }) mirror pa [] n w

/-- A write or atomic is performed at memory: state after, the old value of an atomic, poisoned (R125, R211). -/
def performW (s : State) (vi : Option Vi) (mirror : Option Nat) (w : Writer) (a : WAct) : State × Nat × Bool :=
  match a with
  | .bytes pa d => (mirrorOut (devWrite s vi pa d) mirror pa d 0 w, 0, false)
  | .amo pa op wd x y =>
    let (s, b, p) := devRead s pa (wd / 8) vi
    if p then (s, 0, true)
    else
      let old := ofBytes b
      let d := toBytes (wd / 8) (amoNew op wd old (x.toNat % 2 ^ wd) (y.toNat % 2 ^ wd))
      (mirrorOut (devWrite s vi pa d) mirror pa d 0 w, old, false)
  | .mark pa n => (markPoison s mirror pa n w, 0, false)

/-- A write cut at the boundaries of 64 KiB pages, in address order: each part meets the guard of its own page (R221, R223). An atomic lies
in one page. `fuel` bounds the parts. -/
def pageParts : Nat → WAct → List WAct
  | 0, _ => []
  | fuel + 1, a =>
    match a with
    | .bytes pa d =>
      let k := 65536 - pa % 65536
      if d.isEmpty then [] else if d.length ≤ k then [a] else .bytes pa (d.take k) :: pageParts fuel (.bytes (pa + k) (d.drop k))
    | .amo _ _ _ _ _ => [a]
    | .mark pa n =>
      let k := 65536 - pa % 65536
      if n = 0 then [] else if n ≤ k then [a] else .mark pa k :: pageParts fuel (.mark (pa + k) (n - k))
/-- Bytes a write covers. -/
def WAct.span : WAct → Nat
  | .bytes _ d => d.length
  | .amo _ _ wd _ _ => wd / 8
  | .mark _ n => n
/-- Every part of a write. -/
def WAct.parts (a : WAct) : List WAct := pageParts (a.span / 65536 + 2) a
/-- The page a part lies in. -/
def WAct.page : WAct → Nat
  | .bytes pa _ => pageOf pa
  | .amo pa _ _ _ _ => pageOf pa
  | .mark pa _ => pageOf pa

/-- A part of a write is held: its page is guarded (R223), it is mirrored while the state of the mirror is open after its link failed
(R451), or it came through BAR2 behind a held write of the same function, since those are performed in the order they arrive (R300).
`earlier` are the writes held before it. -/
def holds (s : State) (earlier : List HeldW) (mirror : Option Nat) (w : Writer) (a : WAct) : Bool :=
  guarded s a.page || (mirror.isSome && mirrorHeld s) || (match w with
    | .bar2 _ => earlier.any (fun h => h.writer == w)
    | .thread _ _ => false | .engine _ => false | .partner => false | .brm _ _ _ => false | .desc _ => false)

/-- One part of a write at memory, held or performed at once: state after, and what an atomic performed at once returned. -/
def partAct (s : State) (vi : Vi) (mirror : Option Nat) (w : Writer) (a : WAct) : State × Option (Nat × Bool) :=
  if holds s s.heldW mirror w a then ({ s with heldW := s.heldW ++ [⟨a.page, a, vi, mirror, w⟩] }, none)
  else
    let (s, v, p) := performW s (some vi) mirror w a
    (s, some (v, p))

/-- A write at memory, its parts in order (R223, R451). -/
def engAct (s : State) (vi : Vi) (mirror : Option Nat) (a : WAct) (w : Writer) : State :=
  a.parts.foldl (fun s p => (partAct s vi mirror w p).1) s

/-- An engine's write of bytes. -/
def engWrite (s : State) (vi : Vi) (pa : Nat) (mirror : Option Nat) (d : List Byte) (w : Writer) : State :=
  engAct s vi mirror (.bytes pa d) w

/-! ## Function enables and host writes -/

/-- Requester ID of a function, as a number. -/
def ridOf (s : State) (fn : Fn) : Nat := (requesterId s fn).toNat

/-- An enabled IDE stream that is not Secure covers the function's requests: they are held (R491). -/
def ideHolds (s : State) (fn : Fn) : Bool :=
  (List.range 2).any (fun i => match tget? s.sec.ide (fn.toNat / 128 * 2 + i) with
    | some x => x.en && x.assoc && decide (x.ridLo.toNat ≤ ridOf s fn) && decide (ridOf s fn ≤ x.ridHi.toNat)
        && !(List.range 6).all (fun k => (tget? x.go k).isSome)
    | none => false)

/-- Bus Master Enable governs requests of a function (R326); in D3hot it issues none (R297); an IDE stream may hold them (R491). -/
def busMaster (s : State) (fn : Fn) : Bool :=
  let c := tget s.cfg fn.toNat {}
  c.bme && !c.d3 && !ideHolds s fn

/-- A write of the device to host memory for a function, held in order while the function may not issue it (R326). -/
def hostPut (s : State) (fn : Fn) (bus : Nat) (d : List Byte) : State :=
  if busMaster s fn then hostWrite s bus d else { s with hostHeld := s.hostHeld ++ [(fn, bus, d)] }

/-- An engine's write at an instance address of the device or the host: `none` where it faults. -/
def instWrite (s : State) (vi : Vi) (a : Word) (d : List Byte) : Option State :=
  match translate s vi a d.length .wr with
  | .dev pa m => some (engWrite s vi pa m d (.engine vi))
  | .host bus => some (hostPut s vi bus d)
  | .fault => none
  | .remote _ _ => none

/-- An engine's read at an instance address; host bytes are those the command brings. `none` where it faults. -/
def instRead (s : State) (vi : Vi) (a : Word) (n : Nat) (ext : List Byte) : Option (State × List Byte × Bool) :=
  match translate s vi a n .rd with
  | .dev pa _ => some (devRead s pa n (some vi))
  | .host bus => some (s, extBytes s ext bus n, false)
  | .fault => none
  | .remote _ _ => none

/-- A range of instance addresses cut at granule boundaries, as (address, bytes). -/
def pieces : Nat → Word → Nat → List (Word × Nat)
  | 0, _, _ => []
  | fuel + 1, a, n =>
    if n = 0 then []
    else
      let k := Nat.min n (2 ^ 30 - bits a 29 0)
      (a, k) :: pieces fuel (a + BitVec.ofNat 64 k) (n - k)

/-- The pieces of a range of any length. -/
def rangePieces (a : Word) (n : Nat) : List (Word × Nat) := pieces (n / 2 ^ 30 + 2) a n

/-- Every piece of a range is memory of this device or of the host that permits the access. -/
def rangeOk (s : State) (vi : Vi) (a : Word) (n : Nat) (k : AccKind) : Bool :=
  (rangePieces a n).all (fun p => match translate s vi p.1 p.2 k with
    | .dev _ _ => true | .host _ => true | .fault => false | .remote _ _ => false)

/-- An engine's read of a range: state after, bytes, poisoned. -/
def rangeRead (s : State) (vi : Vi) (a : Word) (n : Nat) (ext : List Byte) : Option (State × List Byte × Bool) :=
  if rangeOk s vi a n .rd then
    some ((rangePieces a n).foldl (fun r p =>
      match instRead r.1 vi p.1 p.2 (ext.drop r.2.1.length) with
      | some (s, d, q) => (s, r.2.1 ++ d, r.2.2 || q)
      | none => r) (s, [], false))
  else none

/-- An engine's write of a range, performed on behalf of a writer. -/
def rangeWriteBy (s : State) (vi : Vi) (a : Word) (d : List Byte) (w : Writer) : Option State :=
  if rangeOk s vi a d.length .wr then
    some ((rangePieces a d.length).foldl (fun r p =>
      let b := (d.drop r.2).take p.2
      match translate r.1 vi p.1 p.2 .wr with
      | .dev pa m => (engWrite r.1 vi pa m b w, r.2 + p.2)
      | .host bus => (hostPut r.1 vi bus b, r.2 + p.2)
      | .fault => r
      | .remote _ _ => r) (s, 0)).1
  else none

/-- An engine's write of a range. -/
def rangeWrite (s : State) (vi : Vi) (a : Word) (d : List Byte) : Option State := rangeWriteBy s vi a d (.engine vi)

/-! ## Thread spill areas (R202-R205) -/

/-- Size of a save record or accumulator set (R111). -/
def recSize : Nat := 4352
/-- Entries of a granule (R203). -/
def granEntries : Nat := 246723

/-- First and count of the device spill area. -/
def spillDevRun (s : State) (vi : Vi) : Nat × Nat :=
  let w := rget s (viReg vi 0x220)
  (bits w 11 0, bits w 28 16)

/-- Entries of the host spill area (R203). -/
def spillHostEntries (s : State) (vi : Vi) : Nat := bits (rget s (viReg vi 0x228)) 11 0 * 2097152 / recSize
def spillHostBase (s : State) (vi : Vi) : Nat := bits (rget s (viReg vi 0x228)) 63 21 * 2097152

/-- Instance address of entry k of instance granule i (SELF set). -/
def spillAddr (i k : Nat) : Word := BitVec.ofNat 64 (2 ^ 49 + i * 2 ^ 30 + k * recSize)

/-- Numbers of the used entries of an instance granule. -/
def usedIn (s : State) (vi : Vi) (i : Nat) : List Nat :=
  s.spill.filterMap (fun p => match p.2 with
    | .dev a => if p.1 = vi ∧ bits a 41 30 = i then some (bits a 29 0 / recSize) else none
    | .host _ => none)

/-- Least number not in a list. -/
def leastFree (l : List Nat) : Nat := ((List.range (l.length + 1)).find? (fun k => !l.contains k)).getD l.length

/-- Rung of a granule seen from a Facet (R202, R204): 0 own stack, 1 own quadrant, 2 elsewhere or spread. -/
def spillRung (s : State) (vi : Vi) (f : BitVec 10) (i : Nat) : Nat :=
  let g := gtPgran (gtEntry s vi i)
  if rowIsSpread s (g / 32) then 2
  else if g % 32 = colOf f then 0
  else if g % 32 / 8 = f.toNat / 256 then 1 else 2

/-- The entry a save or an accumulator set takes next: earliest rung, then lowest address (R202, R204). -/
def spillPick (s : State) (vi : Vi) (f : BitVec 10) : Option RecLoc :=
  let (first, count) := spillDevRun s vi
  let cands := (List.range count).filterMap (fun j =>
    let i := first + j
    let k := leastFree (usedIn s vi i)
    if k < granEntries ∧ permits (gtEntry s vi i) .rdwr then some (spillRung s vi f i, i, k) else none)
  let pick (r : Nat) := cands.find? (fun c => c.1 == r)
  match (pick 0).orElse (fun _ => (pick 1).orElse (fun _ => pick 2)) with
  | some c => some (.dev (spillAddr c.2.1 c.2.2))
  | none =>
    let used := s.spill.filterMap (fun p => match p.2 with
      | .host b => if p.1 = vi then some ((b.toNat - spillHostBase s vi) / recSize) else none
      | .dev _ => none)
    let k := leastFree used
    if k < spillHostEntries s vi then some (.host (BitVec.ofNat 64 (spillHostBase s vi + k * recSize))) else none

/-- Write the bytes of an entry. -/
def spillWrite (s : State) (vi : Vi) (loc : RecLoc) (d : List Byte) : State :=
  match loc with
  | .dev a => (instWrite s vi a d).getD s
  | .host b => hostPut s vi b.toNat d

/-- Bytes read at `a` as they will stand once the writes of a list, each an address and its bytes, are performed in order. -/
def overlay (a : Nat) (d : List Byte) : List (Nat × List Byte) → List Byte
  | [] => d
  | (b, x) :: r =>
    overlay a (d.zipIdx.map (fun p => if b ≤ a + p.2 ∧ a + p.2 < b + x.length then x.getD (a + p.2 - b) 0 else p.1)) r

/-- Writes of bytes that the guard or the mirror still holds, by physical address. -/
def heldBytes (s : State) : List (Nat × List Byte) :=
  s.heldW.filterMap (fun h => match h.act with | .bytes pa d => some (pa, d) | .amo _ _ _ _ _ => none | .mark _ _ => none)

/-- Read the bytes of an entry: state after, bytes, poisoned. A write of the entry that is still held is read as it was written (DEDUCED,
Assumption 49); whether host memory answers with poisoned data is outside knowledge (Assumption 3). -/
def spillRead (s : State) (vi : Vi) (loc : RecLoc) (n : Nat) : State × List Byte × Bool :=
  match loc with
  | .dev a =>
    let (s, d, p) := (instRead s vi a n []).getD (s, List.replicate n 0, false)
    (s, match translate s vi a n .rd with
      | .dev pa _ => overlay pa d (heldBytes s)
      | _ => d, p)
  | .host b =>
    (s, overlay b.toNat (hostBytes s b.toNat n) (s.hostHeld.map (·.2)), Config.extPoison s.free b.toNat)

/-- Take an entry. -/
def spillTake (s : State) (vi : Vi) (loc : RecLoc) : State := { s with spill := (vi, loc) :: s.spill }
/-- Free an entry. -/
def spillFree (s : State) (vi : Vi) (loc : RecLoc) : State := { s with spill := s.spill.filter (fun p => !(p.1 == vi && p.2 == loc)) }

/-- Entries the two areas hold, and the number the rule of R205 asks for the clusters held. -/
def spillCapacity (s : State) (vi : Vi) : Nat := (spillDevRun s vi).2 * granEntries + spillHostEntries s vi
def spillNeed (clusters : Nat) : Nat := 128 * 8 * clusters

end Sys2Proof.Machine
end

