-- ==== Sys2Proof/Machine/Events.lean ====
section
/-! DEFINITION. What the device reports: trace packets (R594-R599), operation counters (R586), events (R278-R284, R287) and
completion records (R310-R313). -/

namespace Sys2Proof.Machine

/-! ## Trace -/

def trcCfg (s : State) : Word := rget s 0xC10000
def trcEn (s : State) : Bool := bit (trcCfg s) 63
/-- Capacity C in bytes (R597). -/
def trcCap (s : State) : Nat := 4194304 + bits (trcCfg s) 44 32 * 1048576 + bits (rget s 0xC10010) 15 0 * 1048576
/-- The reserve in bytes (R598); RESERVE 0 is taken as 1. -/
def trcReserve (s : State) : Nat :=
  let r := bits (trcCfg s) 58 56
  (if r = 0 then 1 else r) * trcCap s / 8 / 16 * 16
def pktBytes (p : List Word) : Nat := 8 * p.length
/-- FILL: bytes of packets held in any store and not retired (R597). -/
def trcFill (s : State) : Nat :=
  (s.trc.held.foldl (fun a p => a + pktBytes p) 0) + (s.trc.hostProd.toNat - (rget s 0xC10020).toNat)

/-- Header word of a packet (R595). -/
def pktHeader (ty units : Nat) (flag : Bool) (quad src : Nat) (time : Word) : Word :=
  at_ ty 0 ||| at_ (units - 1) 8 ||| at_ (b2n flag) 11 ||| at_ quad 12 ||| at_ src 16 ||| at_ (bits time 39 0) 24

/-- Bytes of the host area of the trace (`TRC_HOST_SIZE`). -/
def trcSize (s : State) : Nat := bits (rget s 0xC10010) 15 0 * 1048576

/-- Packets move to the host area in order while it has room (R597); `fuel` bounds the packets moved. -/
def trcFlush (s : State) : Nat → State
  | 0 => s
  | fuel + 1 =>
    let size := trcSize s
    match s.trc.held with
    | [] => s
    | p :: r =>
      let prod := s.trc.hostProd.toNat
      let room := size - (prod - (rget s 0xC10020).toNat)
      let offs := if size = 0 then 0 else prod % size
      let pad := if offs + pktBytes p > size then size - offs else 0
      if size = 0 ∨ pad + pktBytes p > room then s
      else
        let base := bits (rget s 0xC10008) 63 12 * 4096
        let s := if pad = 0 then s else hostPut s s.trc.hostFn (base + offs) (List.replicate pad 0)
        let o := if pad = 0 then offs else 0
        let s := hostPut s s.trc.hostFn (base + o) (p.flatMap (fun w => toBytes 8 w.toNat))
        trcFlush { s with trc := { s.trc with held := r, hostProd := BitVec.ofNat 64 (prod + pad + pktBytes p) } } fuel

/-- A packet enters the buffer; after the trigger its bytes count towards POST_KIB (R599). -/
def trcEnter (s : State) (p : List Word) : State :=
  let post := if s.trc.st = 2 then s.trc.post + pktBytes p else s.trc.post
  let kib := bits (trcCfg s) 23 0
  let stop := decide (s.trc.st = 2) && decide (kib ≠ 0) && decide (post ≥ kib * 1024)
  trcFlush { s with trc := { s.trc with held := s.trc.held ++ [p], post := post, st := if stop then 3 else s.trc.st } } 8

/-- A LOSS packet for the drops since the last one. -/
def lossPkt (s : State) : List Word :=
  [pktHeader 0x08 1 false 0 0x3F s.trc.pendTime, BitVec.ofNat 64 (s.trc.pendLoss % 2 ^ 48)]

/-- `TRC_LOST` counts one drop. -/
def trcCount (s : State) : State :=
  { s with trc := { s.trc with lost := s.trc.lost + 1, lostWrap := s.trc.lostWrap || decide (s.trc.lost + 1 = 0) } }

/-- The packet, with the LOSS packet that must enter first, fits: below the reserve until the trigger, up to C after it (R598). -/
def trcFits (s : State) (p : List Word) : Bool :=
  let limit := if s.trc.st = 1 then trcCap s - trcReserve s else trcCap s
  decide (trcFill s + (pktBytes p + (if s.trc.pendLoss = 0 then 0 else 16)) ≤ limit)

/-- A packet that cannot enter is dropped and counted (R598); while STOPPED it is discarded, with no LOSS packet (R599). -/
def trcDrop (s : State) : State :=
  let s := trcCount s
  if s.trc.st = 3 then s
  else { s with trc := { s.trc with
    pendTime := if s.trc.pendLoss = 0 then s.devTime else s.trc.pendTime, pendLoss := s.trc.pendLoss + 1 } }

/-- The pending LOSS packet enters. -/
def trcLoss (s : State) : State :=
  if s.trc.pendLoss = 0 then s
  else
    let l := lossPkt s
    trcEnter { s with trc := { s.trc with pendLoss := 0 } } l

/-- A packet is offered to the buffer (R598, R599). -/
def trcOffer (s : State) (p : List Word) : State :=
  if !trcEn s || s.trc.st = 0 then s
  else if s.trc.st = 3 ∨ !trcFits s p then trcDrop s
  else trcEnter (trcLoss s) p

/-- SYNC of a Steward core (R595, R596): its program counter is the firmware's own, free (Assumption 2). -/
def syncPkt (s : State) (n : Nat) : List Word :=
  [pktHeader 0x01 2 false (n / 4) n s.devTime, freeBits s 64 (6000 + n), s.devTime, 0]

/-- A packet of a Steward core; a drop is remembered. -/
def stwPut (s : State) (n : Nat) (p : List Word) : State :=
  if s.trc.st ≠ 3 ∧ trcFits s p then trcOffer s p
  else
    let s := trcOffer s p
    { s with trc := { s.trc with needSync := if s.trc.needSync.contains n then s.trc.needSync else n :: s.trc.needSync } }

/-- A packet of Steward core n: after a dropped packet of the core, SYNC enters before the next one while its instructions are traced
(R596). -/
def stwOffer (s : State) (n : Nat) (p : List Word) : State :=
  if !trcEn s || s.trc.st = 0 then s
  else if bit (rget s 0xC10048) n && s.trc.needSync.contains n then
    let y := syncPkt s n
    if s.trc.st ≠ 3 ∧ trcFits s y then
      stwPut (nextFree (trcOffer { s with trc := { s.trc with needSync := s.trc.needSync.filter (· != n) } } y)) n p
    else trcDrop s
  else stwPut s n p

/-- A trigger source fires (R599): only while ARMED and enabled in `TRC_TRIG`. -/
def trcTrigger (s : State) (src : Nat) : State :=
  if trcEn s && s.trc.st == 1 && bit (rget s 0xC10040) src then
    let s := trcEnter (trcLoss s) [pktHeader 0x07 1 false 0 0x3F s.devTime, BitVec.ofNat 64 src]
    { s with trc := { s.trc with st := 2, post := 0 } }
  else s

/-- A Facet event packet (R594, R595): kind 1 admitted, 2 ended, 3 trap, 4 saved, 5 resumed, 6 barrier released. -/
def facetEvent (s : State) (kind : Nat) (vi : Vi) (status : BitVec 8) (launch : Nat) (index : BitVec 32) (f : BitVec 10) : State :=
  let viOn := bit (rget s (0xC10080 + 8 * (vi.toNat / 64))) (vi.toNat % 64)
  let s' := if viOn && bit (rget s 0xC10050) kind then
      trcOffer s [pktHeader 0x05 3 false (f.toNat / 256) 0x20 s.devTime,
        at_ kind 0 ||| at_ vi.toNat 8 ||| at_ status.toNat 16, BitVec.ofNat 64 launch, index.setWidth 64, facetUd s f, 0]
    else s
  if kind = 3 ∧ viOn ∧ bits (rget s 0xC10040) 31 24 = status.toNat then trcTrigger s' 2 else s'

/-! ## Operation counters (R586) -/

/-- Key of counter j of an instance on a Facet. -/
def cntKey (f : BitVec 10) (vi : Vi) (j : Nat) : Nat := (f.toNat * 256 + vi.toNat) * 32 + j

/-- Name of a configuration register of the counter block held for each instance. -/
def cntReg (vi : Vi) (off : Nat) : Nat := 0x10000000000 + 0x1000 * vi.toNat + off

/-- An event of the index happens `n` times for the instance on the Facet. -/
def countEv (s : State) (f : BitVec 10) (vi : Vi) (idx n : Nat) : State :=
  if bit (rget s (cntReg vi 0x8)) 63 then
    (List.range 32).foldl (fun s j =>
      if bits (rget s (cntReg vi (0x100 + 8 * j))) 7 0 = idx then
        let (v, w) := tget s.cnts (cntKey f vi j) ((0 : BitVec 48), false)
        let v' := v.toNat + n
        { s with cnts := tset s.cnts (cntKey f vi j) (BitVec.ofNat 48 v', w || decide (v' ≥ 2 ^ 48)) }
      else s) s
  else s

/-- Key of an instance's tally of a kind on a Facet. -/
def tallyKey (f : Nat) (vi : Vi) (kind : Nat) : Nat := (f * 256 + vi.toNat) * 16 + kind
/-- A count is added to a tally. -/
def tallyAdd (t : Tab Nat) (f : Nat) (vi : Vi) (kind n : Nat) : Tab Nat :=
  tset t (tallyKey f vi kind) (tget t (tallyKey f vi kind) 0 + n)
/-- An activity tally of an instance on a Facet (R529): kind 0 SCALAR_ISSUE, 4 STORE_ACCESS. -/
def addTally (s : State) (f : BitVec 10) (vi : Vi) (kind n : Nat) : State := { s with tally := tallyAdd s.tally f.toNat vi kind n }

/-- What one nanosecond adds to the tallies that count time (R529): thread slots resident (12), clusters held in 1/64 units (13) and granules
MAPPED (14), each kept in nanoseconds; a cluster's stands under its first Facet, a granule's under Facet 0. -/
def tallyTime (s : State) : Tab Nat :=
  let t := s.threads.foldl (fun t p => tallyAdd t (p.1 / 64) p.2.vi 12 1) s.tally
  let t := s.clu.foldl (fun t p => match p.2 with
    | .none => t
    | .dedicated v => tallyAdd t (8 * p.1) v 13 64
    | .shared l => l.foldl (fun t x => tallyAdd t (8 * p.1) x.vi 13 x.slots) t) t
  s.gran.foldl (fun t p => match p.2 with | .mapped v _ => tallyAdd t 0 v 14 1 | .scrubbing => t) t
/-- Nanoseconds in a unit of a tally that counts time; 1 for a tally of events. Fractions are kept, and a reader sees whole units (DESIGN
CHOICE, Assumption 28). -/
def tallyUnit (kind : Nat) : Nat := if kind = 12 ∨ kind = 13 then 1000 else if kind = 14 then 1000000 else 1
/-- A tally of an instance on a Facet. -/
def facetTally (s : State) (f : BitVec 10) (vi : Vi) (kind : Nat) : Nat :=
  tget s.tally (tallyKey f.toNat vi kind) 0 / tallyUnit kind

/-- A Facet store access is counted and tallied (R529, R587). -/
def countStore (s : State) (f : BitVec 10) (vi : Vi) : State := addTally (countEv s f vi 0x50 1) f vi 4 1

/-! ## Events (R278-R284) -/

/-- Entries of the event ring (R278). -/
def evEntries (s : State) (vi : Vi) : Nat := 256 * 2 ^ bits (rget s (viReg vi 0xC0)) 3 0

/-- The instance has a handler (R276). -/
def hasHandler (s : State) (vi : Vi) : Bool :=
  let i := getInst s vi
  i.hdlSt == 1 || i.hdlSt == 3

/-- Counter of R284 for a cause; TRAP, LOST and RESET_DONE have none. -/
def lostIndex (c : BitVec 8) : Option (Fin 6) :=
  if c = 2 then some 0 else if c = 3 then some 1 else if c = 4 then some 2 else if c = 5 then some 3
  else if c = 6 then some 4 else if c = 7 then some 5 else none

/-- An event that finds no entry: TRAP is held, every other cause counted (R284). -/
def loseEvent (s : State) (vi : Vi) (e : Event) : State :=
  modInst s vi (fun i =>
    if e.cause = 1 then { i with heldTraps := i.heldTraps ++ [e] }
    else
      let i := { i with lostTotal := i.lostTotal + 1, lostWrap := i.lostWrap || decide (i.lostTotal + 1 = 0) }
      match lostIndex e.cause with
      | some k => { i with lost := i.lost.set k (sat 65535 (i.lost[k] + 1)) }
      | none => i)

/-- The 64-byte record of an event (*Event record*). -/
def eventBytes (s : State) (seq : BitVec 48) (e : Event) : List Byte :=
  toBytes 8 (seq.toNat + e.cause.toNat * 2 ^ 48) ++ toBytes 8 s.devTime.toNat
    ++ e.args.toList.flatMap (fun w => toBytes 8 w.toNat) ++ toBytes 8 0

/-- Every entry holds an unretired event (R284). -/
def ringFull (s : State) (vi : Vi) : Bool :=
  let i := getInst s vi
  decide ((i.produced - i.retired).toNat ≥ evEntries s vi)

/-- Write an event into the ring (R278, R279, R281); a faulting ring is recorded and the event lost. -/
def writeEvent (s : State) (vi : Vi) (e : Event) : State :=
  let i := getInst s vi
  let base := bits (rget s (viReg vi 0xC0)) 63 12 * 4096
  let a := BitVec.ofNat 64 (base + 64 * (i.produced.toNat % evEntries s vi))
  match instWrite s vi a (eventBytes s i.produced e) with
  | some s => modInst s vi (fun i => { i with
      causes := tset i.causes i.produced.toNat e.cause, produced := i.produced + 1 })
  | none =>
    let s := raiseErr s { cause := 0x12, sev := 0, vi := some vi, status := 0x05, addr := a, arg0 := 0x100 }
    loseEvent s vi e

/-- Post an event to an instance (R280, R284, R287). -/
def postEvent (s : State) (vi : Vi) (e : Event) : State :=
  let i := getInst s vi
  if i.st = 0 then s
  else
    let s := if e.cause = 7 then modInst s vi (fun i => { i with errors := i.errors + 1 }) else s
    if i.st = 3 ∨ (i.st = 4 ∧ i.rstPhase ≠ 0) then
      -- during a reset: TRAP and UNIT_RESET of the old generation are discarded, others wait (R287)
      if e.cause = 1 ∨ e.cause = 3 then s else modInst s vi (fun i => { i with deferred := i.deferred ++ [e] })
    else if ringFull s vi then loseEvent s vi e
    else writeEvent s vi e

/-- Entries freed: one LOST event with the counts, then the held TRAP events in order (R284). `fuel` bounds the events. -/
def drainTraps (s : State) (vi : Vi) : Nat → State
  | 0 => s
  | fuel + 1 =>
    match (getInst s vi).heldTraps with
    | [] => s
    | e :: r =>
      if ringFull s vi then s
      else drainTraps (writeEvent (modInst s vi (fun i => { i with heldTraps := r })) vi e) vi fuel

/-- The LOST event of the counts. -/
def lostEvent (i : Inst) : Event :=
  ⟨8, #v[at_ i.lost[0] 0 ||| at_ i.lost[1] 16 ||| at_ i.lost[2] 32 ||| at_ i.lost[3] 48,
    at_ i.lost[4] 0 ||| at_ i.lost[5] 16, 0, 0, 0]⟩

/-- Some count of R284 is not zero. -/
def anyLost (i : Inst) : Bool := i.lost.toList.any (· != 0)

/-- One LOST event when counts stand and an entry is free. -/
def postLost (s : State) (vi : Vi) : State :=
  let i := getInst s vi
  if anyLost i && !ringFull s vi then
    writeEvent (modInst s vi (fun i => { i with lost := Vector.replicate 6 0 })) vi (lostEvent i)
  else s

/-- After entries were freed (R284). -/
def drainEvents (s : State) (vi : Vi) : State :=
  let s := postLost s vi
  drainTraps s vi ((getInst s vi).heldTraps.length)

/-- RETIRED passes over the events already retired one by one (R282). -/
def passRetired (i : Inst) : Nat → Inst
  | 0 => i
  | fuel + 1 =>
    if i.retMarks.contains i.retired then
      passRetired { i with retMarks := i.retMarks.filter (· != i.retired), retired := i.retired + 1 } fuel
    else i

/-- One event is retired (R282). -/
def retireEvent (s : State) (vi : Vi) (seq : BitVec 48) : State :=
  drainEvents (modInst s vi (fun i =>
    passRetired { i with retMarks := seq :: i.retMarks } (i.retMarks.length + 1))) vi

/-- An ERROR event (R574). -/
def errorEvent (arg0 arg1 arg2 : Word) : Event := ⟨7, #v[arg0, arg1, arg2, 0, 0]⟩

/-! ## Completion records (R310-R313) -/

def getSq (s : State) (vi : Vi) (q : Nat) : Sq := tget s.sqs (vi.toNat * 16 + q) {}
/-- A snapshot may be armed: it is ARMING, or GATED with DONE of START_QUEUE at or after START_AT (R462). -/
def snapGate (s : State) (x : Snap) : Bool :=
  x.st == 2 || (x.st == 1 && atOrAfter (getSq s x.vi x.p.startQ.toNat).done x.p.startAt)
/-- A snapshot that arms, or a restore, stops the instance's queues and the admission of its launches (R462 step 1, R473). -/
def snapStops (s : State) (vi : Vi) : Bool := ((tget? s.snaps vi.toNat).map (fun x => snapGate s x || x.st == 5)).getD false
def setSq (s : State) (vi : Vi) (q : Nat) (x : Sq) : State := { s with sqs := tset s.sqs (vi.toNat * 16 + q) x }
def getCq (s : State) (vi : Vi) (q : Nat) : Cq := tget s.cqs (vi.toNat * 16 + q) {}
def setCq (s : State) (vi : Vi) (q : Nat) (x : Cq) : State := { s with cqs := tset s.cqs (vi.toNat * 16 + q) x }
/-- `VI_SQ_CFGq`. -/
def sqCfg (s : State) (vi : Vi) (q : Nat) : Word := rget s (viReg vi (0x408 + 0x20 * q))
/-- `VI_CQ_CFGq`. -/
def cqCfg (s : State) (vi : Vi) (q : Nat) : Word := rget s (viReg vi (0x608 + 0x20 * q))
def sqSize (s : State) (vi : Vi) (q : Nat) : Nat := 2 ^ bits (sqCfg s vi q) 4 0
def cqSize (s : State) (vi : Vi) (q : Nat) : Nat := 2 ^ bits (cqCfg s vi q) 4 0

/-- The CQ is full: one entry always stays unwritten (R313). -/
def cqFull (s : State) (vi : Vi) (q : Nat) : Bool :=
  let c := getCq s vi q
  let n := cqSize s vi q
  decide ((c.tail.toNat + n - c.head.toNat % n) % n = n - 1)

/-- The 32-byte record (R310). -/
def recBytes (s : State) (phase : Bool) (r : CRec) : List Byte :=
  toBytes 8 (r.status.toNat + (b2n phase) * 256 + r.queue.toNat * 65536 + r.dcode.toNat * 2 ^ 32)
    ++ toBytes 8 r.seq.toNat ++ toBytes 8 r.bytes.toNat ++ toBytes 8 (bits s.devTime 31 0 + r.detail.toNat * 2 ^ 32)

/-- Write one record at TAIL, counting it in its SQ's `VI_SQ_DONE` (R410), or keep it: FAULTED when the write faults or the host refuses it (R312). -/
def cqWrite (s : State) (vi : Vi) (q : Nat) (r : CRec) : State :=
  let c := getCq s vi q
  let n := cqSize s vi q
  let a := BitVec.ofNat 64 (bits (rget s (viReg vi (0x600 + 0x20 * q))) 63 12 * 4096 + 32 * c.tail.toNat)
  let refused := c.refuse && bit a 50
  match (if refused then none else instWrite s vi a (recBytes s c.phase r)) with
  | some s =>
    let t := (c.tail.toNat + 1) % n
    let s := if r.queue.toNat < 16 then
        let x := getSq s vi r.queue.toNat
        setSq s vi r.queue.toNat { x with done := x.done + 1 }
      else s
    setCq s vi q { c with tail := BitVec.ofNat 16 t, phase := if t = 0 then !c.phase else c.phase }
  | none =>
    let s := raiseErr s { cause := 0x12, sev := 0, vi := some vi, status := 0x05, addr := a, arg0 := BitVec.ofNat 64 q }
    setCq s vi q { c with st := 3, held := c.held ++ [r], refuse := c.refuse && !refused }

/-- Bus Master Enable lets the record out when its ring lies in host memory (R326). -/
def cqCanWrite (s : State) (vi : Vi) (q : Nat) : Bool :=
  !bit (rget s (viReg vi (0x600 + 0x20 * q))) 50 || busMaster s vi

/-- A completion record is produced (R310, R312): written, or held while the CQ is full, faulted or may not write. -/
def complete (s : State) (vi : Vi) (q : Nat) (r : CRec) : State :=
  let c := getCq s vi q
  if c.st = 0 then s
  else if c.st = 3 ∨ c.held ≠ [] then setCq s vi q { c with held := c.held ++ [r] }
  else if cqFull s vi q ∨ !cqCanWrite s vi q then setCq s vi q { c with st := 2, held := c.held ++ [r] }
  else cqWrite s vi q r

/-- Held records are tried again in order (R312, R313). -/
def cqRetry (s : State) (vi : Vi) (q : Nat) : Nat → State
  | 0 => s
  | fuel + 1 =>
    let c := getCq s vi q
    match c.held with
    | [] => setCq s vi q { c with st := if c.st = 0 then 0 else 1 }
    | r :: rest =>
      if cqFull s vi q ∨ !cqCanWrite s vi q then setCq s vi q { c with st := 2 }
      else
        let s := cqWrite (setCq s vi q { c with held := [], st := 1 }) vi q r
        let c' := getCq s vi q
        if c'.st = 3 then setCq s vi q { c' with held := r :: rest }
        else cqRetry (setCq s vi q { c' with held := rest }) vi q fuel

/-- A descriptor taken from an SQ is complete. -/
def sqUntake (s : State) (vi : Vi) (q : Nat) : State :=
  let x := getSq s vi q
  setSq s vi q { x with taken := x.taken - 1 }

/-- A taken descriptor of an SQ completes with a record to the SQ's CQ. -/
def completeSq (s : State) (vi : Vi) (q : Nat) (seq : BitVec 48) (status dcode : BitVec 8) (bytes : Word) (detail : BitVec 32) : State :=
  let s := sqUntake s vi q
  complete s vi (bits (sqCfg s vi q) 51 48) ⟨status, BitVec.ofNat 16 q, dcode, seq, bytes, detail⟩

end Sys2Proof.Machine
end

