-- ==== Sys2Proof/Machine/Sync.lean ====
section
/-! DEFINITION. Synchronisation objects (R227-R254): what the home does with an operation, waiters and answers. -/

namespace Sys2Proof.Machine

/-! ## Answers -/

/-- A sync result word (R149). -/
def syncWord (value : BitVec 48) (phase : Bool) (status : BitVec 8) : Word :=
  at_ value.toNat 16 ||| at_ (b2n phase) 8 ||| status.setWidth 64

/-- A load-class operation of a thread is complete with a result (R89). -/
def opDone (s : State) (t : Tid) (op : Nat) (res : BitVec 1024) (fault : Option (Bool × Word) := none) : State :=
  match getThr s t with
  | none => s
  | some th => putThr s t { th with loads := th.loads.map (fun o =>
      if o.id = op ∧ !o.done then { o with done := true, res := res, fault := fault } else o) }

/-- A store-class operation of a thread is complete. -/
def stDone (s : State) (t : Tid) (op : Nat) (fault : Option (Bool × Word) := none) : State :=
  match getThr s t with
  | none => s
  | some th => putThr s t { th with stores := th.stores.map (fun o =>
      if o.id = op ∧ !o.done then { o with done := true, fault := fault } else o) }

/-- The identity of a thread at the sync units: handler threads belong to no launch. -/
def syncIdent (th : Thread) : Nat × BitVec 32 := if th.handler then (0, 0x80000000 + th.index) else (th.launch, th.index)

/-- The answer to a waiter: its operation completes, if its thread still holds the slot (R248). -/
def answer (s : State) (w : Waiter) (value : BitVec 48) (phase : Bool) (status : BitVec 8) : State :=
  match getThr s w.t with
  | none => s
  | some th =>
    if syncIdent th != (w.launch, w.index) then s
    else
      let s := if status = 0 then s else countEv s w.t.facet th.vi 0x64 1
      opDone s w.t w.op ((syncWord value phase status).setWidth 1024)

/-! ## Objects -/

def getSyn (s : State) (n : Nat) : SynObj := tget s.syn n {}
def setSyn (s : State) (n : Nat) (o : SynObj) : State := { s with syn := tset s.syn n o }
/-- Home quadrant of an object (R227). -/
def homeOf (n : Nat) : BitVec 2 := BitVec.ofNat 2 (n / 16384)
/-- The instance that holds an object's group (R227). -/
def objHolder (s : State) (n : Nat) : Option Vi := tget? s.grp (n / 64)
/-- Handle of an object (R228). -/
def handleOf (s : State) (n : Nat) : Word :=
  let o := getSyn s n
  at_ o.gen.toNat 32 ||| at_ o.ty.toNat 16 ||| BitVec.ofNat 64 n

def nearKey (q : BitVec 2) (n : Nat) : Nat := q.toNat * 65536 + n
def getNear (s : State) (q : BitVec 2) (n : Nat) : NearBar := tget s.near (nearKey q n) {}
def setNear (s : State) (q : BitVec 2) (n : Nat) (x : NearBar) : State := { s with near := tset s.near (nearKey q n) x }

/-- VALUE of a result: the object's value of a semaphore or an event counter, zero of any other (R149). The value of an object whose storage
met an uncorrectable error is free (Assumption 42). -/
def objVal (s : State) (n : Nat) : BitVec 48 :=
  let o := getSyn s n
  if o.ty = 1 ∨ o.ty = 2 then (if o.bad then freeBits s 48 4900 else o.value) else 0

/-- VALUE of an operation refused at the home: zero where its handle names no configured object of the instance. -/
def refusedVal (s : State) (n : Nat) (status : BitVec 8) : BitVec 48 := if status = 0x05 then 0 else objVal s n

/-- Answer every waiter of a list, those of near units through them. -/
def answerAll (s : State) (n : Nat) (ws : List Waiter) (value : BitVec 48) (phase : Bool) (status : BitVec 8) : State :=
  let direct := ws.filter (fun w => w.near.isNone)
  let s := direct.foldl (fun s w => answer s w value phase status) s
  [0, 1, 2, 3].foldl (fun s (q : BitVec 2) =>
    let mine := ws.filter (fun w => w.near == some q)
    if mine.isEmpty then s
    else
      let x := getNear s q n
      setNear s q n { x with
        sent := x.sent.filter (fun w => !mine.any (fun v => v.t == w.t && v.op == w.op)),
        rel := x.rel ++ [(mine, phase, status)] }) s

/-- Waiting `semp` or `lkacq` operations are served from the head (R234); `fuel` bounds them. -/
def serveQueue (s : State) (n : Nat) : Nat → State
  | 0 => s
  | fuel + 1 =>
    let o := getSyn s n
    match o.waiters with
    | [] => s
    | w :: r =>
      match w.kind with
      | .semp =>
        if w.operand.toNat ≤ o.value.toNat then
          let v := o.value - w.operand
          serveQueue (answer (setSyn s n { o with value := v, waiters := r }) w v false 0) n fuel
        else s
      | .lkacq =>
        if o.owner.isNone ∧ o.st = 1 then
          serveQueue (answer (setSyn s n { o with owner := some (w.launch, w.index), waiters := r }) w 0 false 0) n fuel
        else s
      | .bar | .semv | .semt | .ecadd | .ecwait | .ecread | .lkrel | .lktry => s

/-- All waiting `ecwait` operations whose condition holds are answered together (R234). -/
def serveEc (s : State) (n : Nat) : State :=
  let o := getSyn s n
  let ready := o.waiters.filter (fun w => atOrAfter o.value w.operand)
  answerAll (setSyn s n { o with waiters := o.waiters.filter (fun w => !atOrAfter o.value w.operand) }) n ready o.value false 0

/-- Nanoseconds since the first of the operations that wait at the home: its own waiters, and the messages counted for near units of
other devices. -/
def firstAge (s : State) (o : SynObj) : Nat :=
  (o.waiters.map (·.since) ++ o.remote.map (·.2.2)).foldl (fun a t => Nat.max a (s.devTime - t).toNat) 0

/-- Release of a phase in one step (R233), with the figures of R253 and R254. `mem` is the first-level member of the last arrival. -/
def releaseBar (s : State) (n : Nat) (mem : Nat) : State :=
  let o := getSyn s n
  let skew := sat (2 ^ 32 - 1) (firstAge s o)
  let o' := { o with value := 0, phase := !o.phase, waiters := [], remote := [], lastSkew := BitVec.ofNat 32 skew }
  let o' := if o.launch.isSome then { o' with lastMem := BitVec.ofNat 16 mem } else o'
  let o' := if o.launch.isSome && o.target then
      let (c, w) := tget o.late mem ((0 : BitVec 48), false)
      { o' with late := tset o.late mem (c + 1, w || decide (c + 1 = 0)) }
    else o'
  answerAll (setSyn s n o') n o.waiters 0 o.phase 0

/-- Arrivals at a barrier (R232, R233): `ws` are their waiter entries, `extra` counts arrivals of another device. -/
def arrive (s : State) (n : Nat) (ws : List Waiter) (extra : Nat) (dev : BitVec 16) (mem : Nat) : State :=
  let o := getSyn s n
  let o := { o with
    value := o.value + BitVec.ofNat 48 (ws.length + extra), waiters := o.waiters ++ ws.map (fun w => { w with since := s.devTime }),
    remote := if extra = 0 then o.remote else o.remote ++ [(dev, extra, s.devTime)] }
  let s := setSyn s n o
  if o.value.toNat ≥ o.expect.toNat then releaseBar s n mem else s

/-- The checks of a handle or operation, first failure in order (R229, R245, R247): 0 when the operation is performed. -/
def synCheck (s : State) (vi : Vi) (handle : Word) (k : SyncKind) (handler : Bool) : BitVec 8 :=
  let n := bits handle 15 0
  let o := getSyn s n
  let suits := match k with
    | .bar => o.ty == 0
    | .semp => o.ty == 1 | .semv => o.ty == 1 | .semt => o.ty == 1
    | .ecadd => o.ty == 2 | .ecwait => o.ty == 2 | .ecread => o.ty == 2
    | .lkacq => o.ty == 3 | .lkrel => o.ty == 3 | .lktry => o.ty == 3
  if bits handle 63 48 ≠ 0 ∨ bits handle 31 18 ≠ 0 ∨ objHolder s n ≠ some vi then 0x05
  else if o.st = 0 then 0x05
  else if bits handle 47 32 ≠ o.gen.toNat then 0x08
  else if o.bad then 0x0A
  else if bits handle 17 16 ≠ o.ty.toNat ∨ !suits then 0x80
  else if o.st = 2 then 0x07
  else if o.st = 3 ∧ !(k == .lkrel && handler) then 0x06
  else 0

/-- Effect of a checked operation on the object (R232). The answer is given at once or the waiter queues. -/
def synPerform (s : State) (n : Nat) (w : Waiter) (mem : Nat) : State :=
  let o := getSyn s n
  match w.kind with
  | .bar => arrive s n [w] 0 0 mem
  | .semp =>
    if o.waiters.isEmpty && decide (w.operand.toNat ≤ o.value.toNat) then
      answer (setSyn s n { o with value := o.value - w.operand }) w (o.value - w.operand) false 0
    else setSyn s n { o with waiters := o.waiters ++ [w] }
  | .semv =>
    if o.value.toNat + w.operand.toNat ≥ 2 ^ 48 then answer s w o.value false 0x83
    else
      let v := o.value + w.operand
      let s := answer (setSyn s n { o with value := v }) w v false 0
      serveQueue s n o.waiters.length
  | .semt =>
    if o.waiters.isEmpty && decide (w.operand.toNat ≤ o.value.toNat) then
      answer (setSyn s n { o with value := o.value - w.operand }) w (o.value - w.operand) false 0
    else answer s w o.value false 0x01
  | .ecadd =>
    let v := o.value + w.operand
    serveEc (answer (setSyn s n { o with value := v }) w v false 0) n
  | .ecwait =>
    if atOrAfter o.value w.operand then answer s w o.value false 0
    else setSyn s n { o with waiters := o.waiters ++ [w] }
  | .ecread => answer s w o.value false 0
  | .lkacq =>
    if o.owner = some (w.launch, w.index) then answer s w 0 false 0x82
    else if o.owner.isNone && o.waiters.isEmpty then
      answer (setSyn s n { o with owner := some (w.launch, w.index) }) w 0 false 0
    else setSyn s n { o with waiters := o.waiters ++ [w] }
  | .lktry =>
    if o.owner = some (w.launch, w.index) then answer s w 0 false 0x82
    else if o.owner.isNone && o.waiters.isEmpty then
      answer (setSyn s n { o with owner := some (w.launch, w.index) }) w 0 false 0
    else answer s w 0 false 0x01
  | .lkrel =>
    if o.st = 3 then answer (setSyn s n { o with st := 1, owner := none }) w 0 false 0       -- handler mode (R250)
    else if o.owner = some (w.launch, w.index) then
      serveQueue (answer (setSyn s n { o with owner := none }) w 0 false 0) n o.waiters.length
    else answer s w 0 false 0x81

/-- A sync event (R249, R280). -/
def syncEvent (s : State) (n : Nat) (status : BitVec 8) (phase : Bool) (answered : Nat) (owner : Option (Nat × BitVec 32)) : Event :=
  ⟨2, #v[handleOf s n, status.setWidth 64 ||| at_ (b2n phase) 8 ||| at_ answered 32,
    BitVec.ofNat 64 ((owner.map (·.1)).getD 0), ((owner.map Prod.snd).getD (0 : BitVec 32)).setWidth 64, 0]⟩

/-- A lock whose owner ended or was discarded becomes ABANDONED (R247). -/
def abandonLock (s : State) (vi : Vi) (n : Nat) : State :=
  let o := getSyn s n
  let ev := syncEvent s n 0x06 false o.waiters.length o.owner
  let s := answerAll (setSyn s n { o with st := 3, waiters := [], owner := none }) n o.waiters 0 false 0x06
  postEvent s vi ev

/-- Every lock the thread owns is abandoned (R247), a FAULTED one too. -/
def abandonLocks (s : State) (vi : Vi) (launch : Nat) (index : BitVec 32) : State :=
  let mine := s.syn.filter (fun p => p.2.ty == 3 && (p.2.st == 1 || p.2.st == 2) && p.2.owner == some (launch, index)
    && objHolder s p.1 == some vi)
  mine.foldl (fun s p => abandonLock s vi p.1) s

/-- The home removes a withdrawn operation it has not answered (R242): an arrival is subtracted, a waiter leaves the queue. -/
def withdrawAt (s : State) (n : Nat) (t : Tid) (op : Nat) : State :=
  let o := getSyn s n
  if o.waiters.any (fun w => w.t == t && w.op == op) then
    let bar := decide (o.ty = 0)
    let s := setSyn s n { o with
      waiters := o.waiters.filter (fun w => !(w.t == t && w.op == op)),
      value := if bar then o.value - 1 else o.value }
    if bar then s else serveQueue s n o.waiters.length
  else s

/-- The operation is one of a list of waiters. -/
def isWaiter (t : Tid) (op : Nat) (l : List Waiter) : Bool := l.any (fun w => w.t == t && w.op == op)

/-- The answer to an operation that has left its home and is on its way back to the near unit: PHASE and STATUS (R242). -/
def nearAnswer (s : State) (t : Tid) (op : Nat) : Option (Bool × BitVec 8) :=
  (s.near.findSome? (fun p => p.2.rel.find? (fun r => isWaiter t op r.1))).map (·.2)

/-- A near unit without an operation: what gathered goes next where its message has lost every arrival. -/
def NearBar.without (x : NearBar) (t : Tid) (op : Nat) : NearBar :=
  let drop (l : List Waiter) := l.filter (fun w => !(w.t == t && w.op == op))
  let fly := drop x.inFlight
  let got := drop x.gathered
  { x with
    inFlight := if fly.isEmpty then got else fly, gathered := if fly.isEmpty then [] else got,
    sent := drop x.sent, rel := x.rel.map (fun r => (drop r.1, r.2)) }

/-- A withdrawn operation leaves every object and near unit, an answer on its way with them (R242, R248). -/
def withdrawOp (s : State) (t : Tid) (op : Nat) : State :=
  let hit := s.syn.filter (fun p => isWaiter t op p.2.waiters)
  let s := hit.foldl (fun s p => withdrawAt s p.1 t op) s
  { s with near := s.near.map (fun p => (p.1, p.2.without t op)) }

/-- The watchdog period of an object in µs; 0 gives 1 s (R244). -/
def wdogUs (o : SynObj) : Nat := if o.wdog = 0 then 1000000 else o.wdog.toNat

/-- The watchdog of an object is due: some waiter has waited for the whole period (R244, R246). -/
def wdogDue (s : State) (o : SynObj) : Bool :=
  let us := wdogUs o * 1000
  (!o.waiters.isEmpty || !o.remote.isEmpty) && decide (firstAge s o ≥ us)

/-- The watchdog fires (R244). -/
def wdogFire (s : State) (n : Nat) : State :=
  let o := getSyn s n
  let ev := syncEvent s n 0x07 o.phase (o.waiters.length + o.remote.foldl (fun a p => a + p.2.1) 0) none
  let s := answerAll (setSyn s n { o with st := 2, waiters := [], remote := [] }) n o.waiters (objVal s n) false 0x07
  match objHolder s n with
  | some vi => postEvent s vi ev
  | none => s

/-- Allocate the lowest-numbered UNSET object of an instance to a launch as a barrier (R240, R229). -/
def allocBar (s : State) (vi : Vi) (launch expect : Nat) (target : Bool) : Option (Nat × State) :=
  let groups := (s.grp.filter (fun p => p.2 == vi)).map (·.1)
  let objs := groups.flatMap (fun g => (List.range 64).map (· + 64 * g))
  match objs.find? (fun n => (getSyn s n).st == 0) with
  | none => none
  | some n =>
    let o := getSyn s n
    let wd := bits (rget s (viReg vi 0x48)) 25 0
    some (n, setSyn s n {
      st := 1, ty := 0, launch := some launch, target := target,
      gen := if o.gen = 0xFFFF then 1 else o.gen + 1,
      wdog := BitVec.ofNat 26 (if wd = 0 then 1000000 else wd), expect := BitVec.ofNat 32 expect })

/-- The end of a launch returns its barriers to UNSET; skew and LATE keep their values (R240, R254). -/
def freeBar (s : State) (n : Nat) : State :=
  let o := getSyn s n
  setSyn s n { o with st := 0, launch := none, waiters := [], remote := [], value := 0 }

/-- UNSET objects of an instance (SYN_STAT.FREE). -/
def freeObjs (s : State) (vi : Vi) : Nat :=
  (s.grp.filter (fun p => p.2 == vi)).foldl (fun a p =>
    a + ((List.range 64).filter (fun k => (getSyn s (64 * p.1 + k)).st == 0)).length) 0

end Sys2Proof.Machine
end

