-- ==== Sys2Proof/Machine/Acc.lean ====
section
/-! DEFINITION. Exact-accumulator sets (R165, R166): which set a thread uses, the exchange, and what a set read back from the
spill area holds (R172). -/

namespace Sys2Proof.Machine

/-- The set of eight zero accumulators. -/
def zeroSet : Vector (BitVec 4352) 8 := Vector.replicate 8 0

/-- Key of the set a thread uses: its launch's set on its Facet (R165). A handler thread, which belongs to no launch, uses a set
of its instance's handler threads on that Facet. Assumption 14 (DESIGN CHOICE). -/
def accLaunch (th : Thread) : Nat := if th.handler then 2 ^ 40 + th.vi.toNat else th.launch
def accKey (l : Nat) (f : BitVec 10) : Nat := l * 1024 + f.toNat

/-- The instance a set belongs to. -/
def accOwner (s : State) (key : Nat) : Vi :=
  let l := key / 1024
  if l ≥ 2 ^ 40 then BitVec.ofNat 8 (l - 2 ^ 40) else ((getLaunch s l).map (·.vi)).getD 0

/-- The 4,352 bytes of a set. -/
def setBytes (v : Vector (BitVec 4352) 8) : List Byte := v.toList.flatMap accBytes

/-- One accumulator read back: blocks that are poisoned read as zero and set NAN and NV (R172). -/
def readAcc (poisoned : List Bool) (i : Nat) (b : List Byte) : BitVec 4352 :=
  let mine := (List.range 544).map (fun k => ((544 * i + k) / 64, (b.drop (544 * i)).getD k 0))
  let bad := mine.any (fun p => poisoned.getD p.1 false)
  let a := accOf (mine.map (fun p => if poisoned.getD p.1 false then 0 else p.2))
  if bad then accPoison a else a

/-- A set read back from a spill entry: state after, accumulators (R166, R172). The entry is freed. -/
def setLoad (s : State) (vi : Vi) (loc : RecLoc) : State × Vector (BitVec 4352) 8 :=
  let (s, bs, ps) := (List.range 68).foldl (fun (r : State × List Byte × List Bool) k =>
    let l := match loc with
      | .dev a => RecLoc.dev (a + BitVec.ofNat 64 (64 * k))
      | .host b => RecLoc.host (b + BitVec.ofNat 64 (64 * k))
    let (s, d, p) := spillRead r.1 vi l 64
    (s, r.2.1 ++ d, r.2.2 ++ [p])) (s, [], [])
  (spillFree s vi loc, Vector.ofFn (fun i => readAcc ps i.val bs))

/-- The key of the set in a Facet's fold unit. -/
def heldKey (s : State) (f : BitVec 10) : Option Nat :=
  (s.accs.find? (fun p => p.1 % 1024 == f.toNat && (match p.2 with | .held _ => true | .spilled _ => false))).map (·.1)

/-- The set in the fold unit is written out to its instance's spill area (R166). -/
def writeOut (s : State) (key : Nat) : State :=
  match tget? s.accs key with
  | some (.held v) =>
    let vi := accOwner s key
    match spillPick s vi (BitVec.ofNat 10 key) with
    | some loc =>
      let s := spillWrite (spillTake s vi loc) vi loc (setBytes v)
      { s with accs := tset s.accs key (.spilled loc) }
    | none => s
  | _ => s

/-- The set of a launch on a Facet is in the fold unit: state after, and the accumulators (R166). -/
def accUse (s : State) (vi : Vi) (l : Nat) (f : BitVec 10) : State × Vector (BitVec 4352) 8 :=
  let key := accKey l f
  match tget? s.accs key with
  | some (.held v) => (s, v)
  | x =>
    let s := match heldKey s f with
      | some k => countEv (writeOut s k) f vi 0x7A 1
      | none => s
    let (s, v) := match x with
      | some (.spilled loc) => setLoad s vi loc
      | _ => (s, zeroSet)
    ({ s with accs := tset s.accs key (.held v) }, v)

/-- An accumulator of the set in the fold unit is written. -/
def accPut (s : State) (l : Nat) (f : BitVec 10) (v : Vector (BitVec 4352) 8) : State :=
  { s with accs := tset s.accs (accKey l f) (.held v) }

end Sys2Proof.Machine
end

