-- ==== Sys2Proof/Machine/BrmCore.lean ====
section
/-! DEFINITION. Contexts (R207) and the sending side of Barvar Remote Memory (R399-R421): queue pair fields, messages, packets. -/

namespace Sys2Proof.Machine

/-! ## Contexts (R207, R208) -/

/-- Highest context number the device may allocate, plus one. -/
def ctxLimit (s : State) : Nat := 1048576 + 1024 * bits (rget s (devReg 0x4030)) 13 0

/-- Lowest free context number for an instance under `VI_LIMITS.CTX_MAX` (R269). -/
def allocCtx (s : State) (vi : Vi) : Option Nat :=
  let n := leastFree (s.ctxs.map (·.1))
  let most := bits (rget s (viReg vi 0x38)) 56 32
  if (most = 0 ∨ (getInst s vi).ctx < most) ∧ n < ctxLimit s then some n else none

/-- A context can be reached: it lies in the device, or the link to its host store is up (R208). -/
def ctxReachable (s : State) (n : Nat) : Bool :=
  decide (n < 1048576) || s.boot.upLink.toList.getD (portOf s.ctxFn) false

/-- The context an operation allocates, or why it cannot: no context (LIMIT), or its host store does not answer (TIMEOUT, R208). -/
def pickCtx (s : State) (vi : Vi) : Except (BitVec 8) Nat :=
  match allocCtx s vi with
  | none => .error 0x0C
  | some n => if ctxReachable s n then .ok n else .error 0x04

/-- Bus address of a context held in host memory (R207). -/
def ctxAddr (s : State) (n : Nat) : Nat :=
  (rget s (devReg 0x4030) &&& 0xFFFFFFFFFFE00000).toNat + (n - 1048576) * 2048

/-- A context takes a value. One held in host memory is written there; the spec does not say in what form, so its 2,048 bytes are free
(R207, Assumption 51). -/
def putCtx (s : State) (n : Nat) (c : Ctx) : State :=
  let s := { s with ctxs := tset s.ctxs n c }
  if n < 1048576 then s
  else nextFree (hostPut s s.ctxFn (ctxAddr s n) ((List.range 2048).map (fun i => freeBits s 8 (0x2070000 + i))))
/-- A new context counts in `VI_USE.CTX`. -/
def newCtx (s : State) (vi : Vi) (n : Nat) (c : Ctx) : State :=
  modInst (putCtx s n c) vi (fun i => { i with ctx := i.ctx + 1 })
/-- A context is freed. -/
def freeCtx (s : State) (vi : Vi) (n : Nat) : State :=
  modInst { s with ctxs := tdel s.ctxs n } vi (fun i => { i with ctx := i.ctx - 1 })

/-- Flows in the device's table. -/
def flowCount (s : State) : Nat := (s.ctxs.filter (fun e => match e.2 with | .flow _ _ _ _ => true | _ => false)).length

/-! ## Queue pair fields (R402) -/

def qpLink (q : Qp) : Nat := bits q.par 1 0
def qpSerial (q : Qp) : Bool := bit q.par 2
def qpThreads (q : Qp) : Bool := bit q.par 3
def qpPaths (q : Qp) : Nat := bits q.par 6 4 + 1
def qpPort (q : Qp) : Nat := bits q.par 11 8
/-- Largest payload in bytes; on a Barvar link 0 is taken as 1. -/
def qpPay (q : Qp) : Nat :=
  let p := bits q.par 13 12
  if p = 0 then (if qpLink q = 0 then 4096 else 8192) else 8192 / 2 ^ p
def qpEnc (q : Qp) : Bool := bit q.par 14
def qpKey (q : Qp) : BitVec 8 := BitVec.ofNat 8 (bits q.par 47 40)
def qpPeerDev (q : Qp) : BitVec 16 := BitVec.ofNat 16 (bits q.par 79 64)
def qpPeerVi (q : Qp) : Vi := BitVec.ofNat 8 (bits q.par 87 80)
def qpSport (q : Qp) : Nat := bits q.par 111 96
/-- RTO_US with its default. -/
def qpRtoUs (q : Qp) : Nat :=
  let r := bits q.par 543 512
  if r = 0 then (if qpLink q = 0 then 20 else 100) else r
def qpRetries (q : Qp) : Nat := let r := bits q.par 547 544; if r = 0 then 7 else r
def qpMsgUs (q : Qp) : Nat := let r := bits q.par 607 576; if r = 0 then 100000 else r
def qpRecvEc (q : Qp) : Nat := bits q.par 623 608
def qpRecvEcEn (q : Qp) : Bool := bit q.par 624

/-- Handle of a QP end (R399). -/
def qpHandle (n : Nat) (q : Qp) : Word := at_ q.gen.toNat 24 ||| BitVec.ofNat 64 n

/-- The QP end of a context number. -/
def getQp (s : State) (n : Nat) : Option Qp :=
  match tget? s.ctxs n with | some (.qp q) => some q | _ => none
/-- The state with a QP end written. -/
def setQp (s : State) (n : Nat) (q : Qp) : State := putCtx s n (.qp q)

/-- The CONNECTED QP with THREADS 1 that joins the instance to a device (R430, R431). -/
def threadQp (s : State) (vi : Vi) (d : BitVec 16) : Option (Nat × Qp) :=
  (s.ctxs.filterMap (fun p => match p.2 with
    | .qp q => if q.owner = vi ∧ q.st = 2 ∧ qpThreads q ∧ qpPeerDev q = d then some (p.1, q) else none
    | _ => none)).head?

/-! ## Sparse accumulator form (R176) -/

/-- Word w of VALUE sign-extended to 67 words. -/
def accWord (v : Int) (w : Nat) : Nat := uval (64 * 67) v / 2 ^ (64 * w) % 2 ^ 64

/-- The sparse form of a state. -/
def accSparse (a : BitVec 4352) : List Byte :=
  let v := accValue a
  let fill := if v < 0 then 2 ^ 64 - 1 else 0
  let ws := (List.range 67).filter (fun w => accWord v w != fill)
  toBytes 8 (2 + ws.length * 65536 + b2n (decide (v < 0)) * 2 ^ 23 + b2n (accPinf a) * 2 ^ 24 + b2n (accNinf a) * 2 ^ 25
      + b2n (accNan a) * 2 ^ 26 + b2n (accNv a) * 2 ^ 27 + b2n (accRange a) * 2 ^ 28)
    ++ toBytes 8 (accTerms a) ++ toBytes 16 (ws.foldl (fun m w => m + 2 ^ w) 0)
    ++ ws.flatMap (fun w => toBytes 8 (accWord v w))

/-- The words of a sparse form: those present in order, the fill elsewhere. -/
def sparseWords (fill : Nat) (map : Nat) : List Nat → List Byte → List Nat
  | [], _ => []
  | w :: r, b =>
    if map.testBit w then ofBytes (b.take 8) :: sparseWords fill map r (b.drop 8) else fill :: sparseWords fill map r b

/-- A state read from the head of a sparse sequence, with the bytes after it; `none` where the form breaks R176. -/
def accFromSparse (b : List Byte) : Option (BitVec 4352 × List Byte) :=
  let h := ofBytes (b.take 8)
  let n := h / 65536 % 128
  let terms := ofBytes ((b.drop 8).take 8)
  let map := ofBytes ((b.drop 16).take 16)
  let fill := if h.testBit 23 then 2 ^ 64 - 1 else 0
  let ws := sparseWords fill map (List.range 67) (b.drop 32)
  let v := sval (64 * 67) (ws.foldr (fun w r => w + 2 ^ 64 * r) 0)
  if b.length < 32 + 8 * n ∨ h % 65536 ≠ 2 ∨ h / 2 ^ 29 ≠ 0 ∨ terms ≥ 2 ^ 62 ∨ map ≥ 2 ^ 67 ∨ n > 67
      ∨ ((List.range 67).filter (fun w => map.testBit w)).length ≠ n
      ∨ h.testBit 23 ≠ decide (v < 0) ∨ v < -(2 ^ 4258) ∨ v ≥ 2 ^ 4258 then none
  else some (accMk v terms (h.testBit 24) (h.testBit 25) (h.testBit 26) (h.testBit 27) (h.testBit 28),
    b.drop (32 + 8 * n))

/-! ## Sending -/

/-- The IV counter of a quadrant and key slot advances for an encrypted packet (R415). -/
def bumpIv (s : State) (quad : BitVec 2) (slot : BitVec 8) : State :=
  let k := slot.toNat * 4 + quad.toNat
  { s with brmIv := tset s.brmIv k (tget s.brmIv k 0 + 1) }

/-- Accumulator states packed into one payload, whole sparse forms only (R432): payload and states taken. -/
def packSparse (maxPay : Nat) : List (BitVec 4352) → List Byte → Nat → List Byte × Nat
  | [], acc, n => (acc, n)
  | a :: r, acc, n =>
    let f := accSparse a
    if acc.length + f.length ≤ maxPay then packSparse maxPay r (acc ++ f) (n + 1) else (acc, n)

/-- Serialised states of a byte string. -/
def splitStates : Nat → List Byte → List (BitVec 4352)
  | 0, _ => []
  | n + 1, b => if b.isEmpty then [] else accOf b :: splitStates n (b.drop 544)

/-- The next packet of a message or response: state after, payload, message bytes it accounts for, poisoned; `none` where its memory
faults. -/
def nextPayload (s : State) (q : Qp) (m : TxMsg) : Option (State × List Byte × Nat × Bool) :=
  let a := m.loc + BitVec.ofNat 64 m.cut
  let mem := match m.src with | .desc _ _ _ => m.opc == 0x01 || m.opc == 0x03 | _ => m.opc == 0x03
  if !mem then some (s, m.data, m.len, m.poisoned)
  else if m.acc then
    let n := Nat.min (m.len - m.cut) (544 * (qpPay q / 32))
    match rangeRead s q.owner a n [] with
    | none => none
    | some (s, d, p) =>
      let (pay, k) := packSparse (qpPay q) (splitStates (n / 544) d) [] 0
      some (s, pay, 544 * k, p)
  else
    let n := Nat.min (m.len - m.cut) (qpPay q)
    match rangeRead s q.owner a n [] with
    | none => none
    | some (s, d, p) => some (s, d, n, p)

/-- A message has nothing left to send. -/
def TxMsg.cutDone (m : TxMsg) : Bool := decide (m.cut ≥ m.len) || m.refusal.isSome

/-- Host-window reads of a message's data wait for Bus Master Enable (R326, R433). -/
def mayRead (s : State) (q : Qp) (m : TxMsg) : Bool := m.opc != 0x01 || m.thread || !bit m.loc 50 || busMaster s q.owner

/-- The BRM header of a packet with `plen` payload bytes, in network byte order (R413). -/
def brmHeader (opc : BitVec 8) (p : Pkt) (plen : Nat) : List Byte :=
  [BitVec.ofNat 8 (16 + 8 * b2n p.fence + 4 * b2n p.thread + 2 * b2n p.enc + b2n p.poison), opc] ++ beBytes 2 plen ++ beBytes 4 p.dqp.toNat
    ++ beBytes 2 p.dqgen.toNat ++ [p.svi, p.aux] ++ beBytes 4 p.psn.toNat ++ beBytes 4 p.msn.toNat
    ++ [p.keyslot, BitVec.ofNat 8 (b2n p.acc + 2 * b2n p.notify), 0, 0] ++ beBytes 8 p.rkey.toNat ++ beBytes 8 p.addr.toNat
    ++ beBytes 8 p.mlen.toNat

/-- The opcode is of the class RESP (R444). -/
def respOpc (opc : BitVec 8) : Bool := [3, 5, 8, 9, 0x0A].contains opc.toNat

/-- The channel a BRM packet starts on (R444, R446 step 3). -/
def brmVc (s : State) (opc : BitVec 8) : BitVec 4 :=
  if bit (fabCfg s) 62 then (if respOpc opc then 3 else 0) else (if respOpc opc then 4 else 1)

/-- Device code of the own device in an IV (R415). -/
def ivDev (s : State) (q : Qp) : Nat := if qpLink q = 0 then (ownSite s).toNat else bits (rget s 0x300000) 63 48

/-- The bytes after the header of an encrypted packet (R415): the counter, the ciphertext, which is free, and the tag. -/
def sealed (s : State) (q : Qp) (slot : BitVec 8) (hdr data : List Byte) : List Byte :=
  let c := tget s.brmIv (slot.toNat * 4 + q.home.toNat) 0
  let iv := beBytes 2 (ivDev s q) ++ [q.home.setWidth 8, 0] ++ beBytes 8 c
  let text := (List.range data.length).map (fun i => freeBits s 8 (0x2090000 + i))
  let key := ofBytes (((tget? s.keys slot.toNat).map (·.key)).getD [])
  beBytes 8 c ++ text ++ beBytes 16 (Config.gcmTag (BitVec.ofNat 256 key) (BitVec.ofNat 96 (ofBytes iv)) hdr data).toNat

/-- A packet leaves the engine (R412): for the device's Barvar links, or for the port of a UDP QP by one of its paths. -/
def emit (s : State) (q : Qp) (opc : BitVec 8) (hdr data : List Byte) (path : Nat) (key : Option (BitVec 8)) : State :=
  let b := hdr ++ (match key with | some k => sealed s q k hdr data | none => data)
  let s := match key with | some k => nextFree (bumpIv s q.home k) | none => s
  if qpLink q = 0 then
    { s with linkOut := s.linkOut ++ [(some q.owner, { ty := 1, vc := brmVc s opc, dst := qpPeerDev q, src := ownSite s, body := b })] }
  else { s with brmOut := s.brmOut ++ [{ vi := q.owner, par := q.par, path := path, pkt := b }] }

/-- A packet to the peer of a QP end, without payload fields. -/
def toPeer (q : Qp) (psn msn : BitVec 32) : Pkt :=
  { src := 0, dqp := q.peer.setWidth 24, dqgen := BitVec.ofNat 16 (bits q.peer 39 24), svi := q.owner, psn := psn, msn := msn }

/-- A packet without a PSN of its own (R413); over UDP it takes path 0 (DESIGN CHOICE, Assumption 37). -/
def emitCtl (s : State) (q : Qp) (opc : BitVec 8) (psn msn : BitVec 32) (aux : BitVec 8) (data : List Byte) : State :=
  emit s q opc (brmHeader opc { toPeer q psn msn with aux := aux } data.length) data 0 none

/-- The header of a packet of a message or response stream. -/
def msgHeader (q : Qp) (m : TxMsg) (plen : Nat) (poison : Bool) : List Byte :=
  let at0 := if m.opc = 0x03 ∨ m.opc = 0x05 then m.cut else m.roff + (if m.opc = 0x01 then m.cut else 0)
  brmHeader m.opc { toPeer q q.txPsn m.msn with
    poison := poison, enc := m.enc, thread := m.thread, fence := m.fence, acc := m.acc, notify := m.notify, aux := m.aux
    keyslot := if m.enc then m.keyslot else 0, rkey := m.rkey, addr := BitVec.ofNat 64 at0, mlen := BitVec.ofNat 40 m.len } plen

/-- A packet is sent (R412, R419): recorded until it is acknowledged. -/
def sendPkt (s : State) (n : Nat) (q : Qp) (m : TxMsg) (d : List Byte) (k : Nat) (p : Bool) : State × Qp :=
  let pk : TxPkt := {
    psn := q.txPsn, msn := m.msn, opc := m.opc, off := m.cut, bytes := k, data := d, poison := p, hdr := msgHeader q m d.length p
    since := s.devTime, path := q.txPsn.toNat % qpPaths q, key := if m.enc then some m.keyslot else none }
  let s := emit s q m.opc pk.hdr d pk.path pk.key
  let q := { q with txPsn := q.txPsn + 1, pkts := q.pkts ++ [pk] }
  (setQp s n q, q)

/-- What is sent next: a response stream first, then the first message with something to cut; a serial QP has one message in flight
(R426), and at most 64 are incomplete (R419). -/
def nextToSend (s : State) (q : Qp) : Option (Bool × TxMsg) :=
  match q.resps with
  | m :: _ => some (true, m)
  | [] =>
    let active := if qpSerial q then q.msgs.take 1 else q.msgs.take 64
    (active.find? (fun m => !m.cutDone && mayRead s q m)).map (fun m => (false, m))

/-- Send the packets the window permits (R419, R426), `fuel` packets at most. -/
def pump (s : State) (n : Nat) : Nat → State
  | 0 => s
  | fuel + 1 =>
    match getQp s n with
    | none => s
    | some q =>
      if q.st ≠ 2 ∧ q.st ≠ 4 then s
      else if q.pkts.length ≥ 4096 then s
      else match nextToSend s q with
        | none => s
        | some (true, m) =>
          match nextPayload s q m with
          | none => pump (setQp s n { q with resps := q.resps.drop 1 }) n fuel
          | some (s, d, k, p) =>
            let (s, q) := sendPkt s n q m d k p
            let c := m.cut + (if k = 0 then m.len else k)
            pump (setQp s n { q with
              resps := if c ≥ m.len then q.resps.drop 1 else { m with cut := c } :: q.resps.drop 1 }) n fuel
        | some (false, m) =>
          match nextPayload s q m with
          | none =>
            pump (setQp s n { q with
              msgs := q.msgs.map (fun x => if x.msn = m.msn then { x with refusal := some (0x05, 0) } else x) }) n fuel
          | some (s, d, k, p) =>
            let (s, q) := sendPkt s n q m d k p
            pump (setQp s n { q with
              msgs := q.msgs.map (fun x => if x.msn = m.msn then { x with
                cut := x.cut + (if k = 0 then x.len else k),
                poisoned := x.poisoned || p } else x) }) n fuel

/-- The packets a pump may send at most. -/
def pumpAll (s : State) (n : Nat) : State := pump s n 4097

/-- A message joins the QP's outgoing messages (R414) and its packets are sent as far as the window permits. -/
def sendMsg (s : State) (n : Nat) (q : Qp) (m : TxMsg) : State :=
  pumpAll (setQp s n { q with msgs := q.msgs ++ [{ m with msn := q.txMsn }], txMsn := q.txMsn + 1 }) n

/-- A thread access sent as one message of one packet (R430); `place` is where its bytes stand in the access. -/
def sendThread (s : State) (n : Nat) (q : Qp) (t : Tid) (op : Nat) (opc : BitVec 8) (place off len : Nat) (aux : BitVec 8)
    (data : List Byte) : State :=
  sendMsg s n q {
    msn := 0, opc := opc, src := .thread t op, loc := BitVec.ofNat 64 place, rkey := 0, roff := off, len := len, aux := aux,
    keyslot := if qpEnc q then qpKey q else 0, thread := true, enc := qpEnc q, data := data }

end Sys2Proof.Machine
end

