-- ==== Sys2Proof/Machine/Units.lean ====
section
/-! DEFINITION. Unit Designators (R36-R41), composites as data (R43-R53), leaf enumeration (R61, R618) and launches: checks,
submission, admission and completion (R60-R64, R619). -/

namespace Sys2Proof.Machine

/-! ## Unit Designators -/

def udDepth (ud : Word) : Nat := bits ud 62 59
/-- Device code of a physical UD. -/
def udDev (ud : Word) : BitVec 16 :=
  BitVec.ofNat 16 (bits ud 58 55 * 4096 + bits ud 54 51 * 256 + bits ud 50 47 * 16 + bits ud 46 43)

/-- A physical UD is valid (R37, R38). -/
def validPhys (s : State) (ud : Word) : Bool :=
  let d := udDepth ud
  let z (hi lo : Nat) := decide (bits ud hi lo = 0)
  !bit ud 63 && decide (d ≤ 6) && z 26 0
    && (if d = 0 then z 58 27 else true) && (if d = 1 then z 46 27 else true) && (if d = 2 then z 42 27 else true)
    && (if d = 3 then z 38 27 else true) && (if d = 4 then z 34 27 else true) && (if d = 5 then z 30 27 else true)
    && decide (bits ud 50 47 ≤ 7) && decide (bits ud 46 43 ≤ 1) && decide (bits ud 42 39 ≤ 3) && decide (bits ud 38 35 ≤ 7)
    && decide (bits ud 34 31 ≤ 3) && decide (bits ud 30 27 ≤ 7) && inFabric s (udDev ud)

/-- Facet number of a depth-6 UD. -/
def facetOfUd (ud : Word) : BitVec 10 :=
  BitVec.ofNat 10 (bits ud 42 39 * 256 + bits ud 38 35 * 32 + bits ud 34 31 * 8 + bits ud 30 27)

/-- Facets of this device under a physical UD, in the order of the leaf enumeration. -/
def physFacets (s : State) (ud : Word) : List Nat :=
  let own := ownDev s
  let base := (facetOfUd ud).toNat
  match udDepth ud with
  | 0 => List.range 1024
  | 1 => if bits (udDev ud) 15 4 = bits own 15 4 then List.range 1024 else []
  | 2 => if udDev ud = own then List.range 1024 else []
  | 3 => if udDev ud = own then (List.range 256).map (· + base) else []
  | 4 => if udDev ud = own then (List.range 32).map (· + base) else []
  | 5 => if udDev ud = own then (List.range 8).map (· + base) else []
  | _ => if udDev ud = own then [base] else []

/-! ## Composites -/

/-- Generation of an instance's resource composite (R43). -/
def resGen (s : State) (vi : Vi) : BitVec 15 := BitVec.ofNat 15 (((getInst s vi).gen.toNat - 1) % 32767 + 1)

/-- A composite table entry; entries 1 to 256 are the resource composites (R43). -/
def compEntry (s : State) (n : Nat) : Composite :=
  if 1 ≤ n ∧ n ≤ 256 then
    let vi : Vi := BitVec.ofNat 8 (n - 1)
    let e := tget s.comps n { st := 1 }
    { e with gen := resGen s vi, owner := vi, lock := true,
             members := (clustersOf s vi).map (fun c => { ud := clusterUd s c, remote := false, home := 0 }) }
  else tget s.comps n {}

/-- The state with the state code of an entry changed. -/
def setCompSt (s : State) (n : Nat) (st : BitVec 3) : State :=
  { s with comps := tset s.comps n { tget s.comps n { st := 1 } with st := st } }

def isComp (ud : Word) : Bool := bit ud 63
def compNum (ud : Word) : Nat := bits ud 47 0
/-- Composite UD of an entry (R40). -/
def compUd (s : State) (n : Nat) : Word := at_ 1 63 ||| at_ (compEntry s n).gen.toNat 48 ||| BitVec.ofNat 64 n

/-- Resolution of a UD (R38, R41): status and detail, (0, 0) when it names a unit. -/
def resolveUd (s : State) (ud : Word) : BitVec 8 × BitVec 8 :=
  if isComp ud then
    let n := compNum ud
    if n = 0 ∨ n > 0xFFFF ∨ (compEntry s n).st = 0 then (0x05, 0x84)
    else if bits ud 62 48 ≠ (compEntry s n).gen.toNat then (0x08, 0x89) else (0, 0)
  else if validPhys s ud then (0, 0) else (0x05, 0x84)

/-- Resolution of a UD and, depth first, of every composite it holds here: the first failure (R41, R259). Nesting has at most 16
levels (R47). -/
def resolveDeep (s : State) (ud : Word) : Nat → BitVec 8 × BitVec 8
  | 0 => (0, 0)
  | fuel + 1 =>
    let r := resolveUd s ud
    if r.1 ≠ 0 ∨ !isComp ud then r
    else (compEntry s (compNum ud)).members.foldl (fun r m =>
      if r.1 ≠ 0 ∨ m.remote then r else resolveDeep s m.ud fuel) (0, 0)

/-- Facets under a UD with the slots a remote home reported (none for own Facets), depth first in member order. A UD that no longer
resolves reaches nothing. -/
def expand (s : State) (ud : Word) : Nat → List (Word × Option Nat)
  | 0 => []
  | fuel + 1 =>
    if isComp ud then
      if (resolveUd s ud).1 ≠ 0 then [] else
      (compEntry s (compNum ud)).members.flatMap (fun m =>
        if m.remote then m.leaves.map (fun l => (l.1, some l.2)) else expand s m.ud fuel)
    else (physFacets s ud).map (fun f => (facetUd s (BitVec.ofNat 10 f), none))

/-- The closure of a UD: the Facets it reaches (R46). -/
def closure (s : State) (ud : Word) : List Word := (expand s ud 17).map (·.1)

/-- A Facet UD lies on this device. -/
def isLocal (s : State) (ud : Word) : Bool := udDev ud == ownDev s

/-- First-level members of a target, each with its number and the UDs it expands to (R618). -/
def firstLevel (s : State) (ud : Word) : List (Nat × List (Word × Option Nat)) :=
  if isComp ud then
    ((compEntry s (compNum ud)).members.zipIdx).map (fun p =>
      (p.2, if p.1.remote then p.1.leaves.map (fun l => (l.1, some l.2)) else expand s p.1.ud 16))
  else
    let fs := expand s ud 1
    let nx := bits (fabCfg s) 47 44 + 1
    let ny := bits (fabCfg s) 43 40 + 1
    let num (f : Word) : Nat := match udDepth ud with
      | 0 => bits f 58 55 + nx * (bits f 54 51 + ny * bits f 50 47)
      | 1 => bits f 46 43
      | 2 => bits f 42 39
      | 3 => bits f 38 35
      | 4 => bits f 34 31
      | 5 => bits f 30 27
      | _ => 0
    fs.map (fun f => (num f.1, [f]))

/-- Slots the instance holds on an own Facet. -/
def slotsHeld (s : State) (vi : Vi) (f : BitVec 10) : Nat :=
  if withdrawn s f then 0 else ((holdOf (getClu s (cluOf f)) vi).map (·.1)).getD 0
/-- Facet store in KiB the instance holds on an own Facet. -/
def storeHeld (s : State) (vi : Vi) (f : BitVec 10) : Nat := ((holdOf (getClu s (cluOf f)) vi).map (·.2.1)).getD 0

/-- Leaf enumeration for an instance: UD, capacity and first-level member of each position; Facets not held are skipped. -/
def leafEnum (s : State) (vi : Vi) (ud : Word) (perFacet : Nat) : List (Word × Nat × Nat) :=
  let pf := if perFacet = 0 then 64 else perFacet
  (firstLevel s ud).flatMap (fun m => m.2.filterMap (fun l =>
    match l.2 with
    | some slots => some (l.1, Nat.min pf slots, m.1)
    | none => if holdsFacet s vi (facetOfUd l.1) then some (l.1, Nat.min pf (slotsHeld s vi (facetOfUd l.1)), m.1) else none))

/-! ## Assignment of threads (R61) -/

/-- FILL: counts by position. -/
def assignFill : List Nat → Nat → List Nat
  | [], _ => []
  | c :: r, t => Nat.min c t :: assignFill r (t - Nat.min c t)

/-- EVEN, one round: every position not full takes one more while threads are left. -/
def evenRound : List (Nat × Nat) → Nat → List (Nat × Nat) × Nat
  | [], t => ([], t)
  | (cap, n) :: r, t =>
    if t > 0 ∧ n < cap then
      let (r', t') := evenRound r (t - 1)
      ((cap, n + 1) :: r', t')
    else
      let (r', t') := evenRound r t
      ((cap, n) :: r', t')

/-- EVEN: rounds until no threads are left; a Facet takes at most 64, so 64 rounds suffice. -/
def evenRounds : Nat → List (Nat × Nat) → Nat → List (Nat × Nat)
  | 0, l, _ => l
  | k + 1, l, t => if t = 0 then l else let (l', t') := evenRound l t; evenRounds k l' t'

/-- Thread counts by position (R61). -/
def assign (spread : BitVec 4) (caps : List Nat) (threads : Nat) : List Nat :=
  if spread = 1 then assignFill caps threads else (evenRounds 64 (caps.map (fun c => (c, 0))) threads).map (·.2)

/-! ## Launch descriptors -/

/-- The fields of a 64-byte launch descriptor (R60). -/
def parseDesc (d : List Byte) : LaunchDesc :=
  let w (i : Nat) : Word := BitVec.ofNat 64 (ofBytes ((d.drop (8 * i)).take 8))
  { target := w 0, entry := w 1, arg := w 2,
    storeKib := BitVec.ofNat 16 (bits (w 3) 63 48), spread := BitVec.ofNat 4 (bits (w 3) 43 40),
    perFacet := BitVec.ofNat 8 (bits (w 3) 39 32), threads := BitVec.ofNat 32 (bits (w 3) 31 0),
    compq := BitVec.ofNat 16 (bits (w 4) 47 32), tctl := BitVec.ofNat 32 (bits (w 4) 31 0), tag := w 5,
    startQ := BitVec.ofNat 16 (bits (w 6) 63 48), startAt := BitVec.ofNat 48 (bits (w 6) 47 0),
    subbar := bit (w 7) 1, startEn := bit (w 7) 0,
    resv := decide (bits (w 3) 47 44 ≠ 0) || decide (bits (w 4) 63 48 ≠ 0) || decide (bits (w 7) 63 2 ≠ 0) }

/-- First-level members to which R61 assigns a thread (R64). -/
def usedMembers (counts : List (Word × Nat × Nat)) : List Nat :=
  counts.foldl (fun a c => if c.2.1 > 0 ∧ !a.contains c.2.2 then a ++ [c.2.2] else a) []

/-- The CQ a launch names is enabled (R311). -/
def compqOk (s : State) (vi : Vi) (d : LaunchDesc) : Bool :=
  decide (d.compq.toNat ≤ 15) && decide ((getCq s vi d.compq.toNat).st ≠ 0)

/-- Counts of a launch on the present closure. -/
def launchCounts (s : State) (vi : Vi) (d : LaunchDesc) : List (Word × Nat × Nat) :=
  let leaf := leafEnum s vi d.target d.perFacet.toNat
  let ns := assign d.spread (leaf.map (·.2.1)) d.threads.toNat
  (leaf.zip ns).map (fun p => (p.1.1, p.2, p.1.2.2))

/-- The checks of a launch, first failure in order (R619): status and detail. R619 lists no check of ENTRY, whose alignment the first fetch
meets, nor of START_QUEUE: an ENTRY that is not 8-byte aligned is accepted, and a START_QUEUE above 15 is BAD_DESC with START_EN 1 alone
(DESIGN CHOICE, Assumption 50). -/
def launchCheck (s : State) (vi : Vi) (d : LaunchDesc) : BitVec 8 × BitVec 8 :=
  if d.resv ∨ d.spread.toNat > 1 ∨ d.storeKib.toNat > 256 ∨ d.perFacet.toNat > 64 ∨ d.threads = 0 ∨ d.threads.toNat > 2 ^ 28
      ∨ bits d.tctl 2 0 > 4 ∨ (d.startEn ∧ d.startQ.toNat > 15) then (0x0B, 0x85)
  else
    let r := resolveDeep s d.target 17
    if r.1 ≠ 0 then r
    else if !compqOk s vi d then (0x0B, 0x84)
    else
      let counts := launchCounts s vi d
      let short := counts.any (fun c => isLocal s c.1 && decide (storeHeld s vi (facetOfUd c.1) < d.storeKib.toNat))
      if short then (0x0C, 0x8C)
      else if counts.foldl (fun a c => a + c.2.1) 0 < d.threads.toNat then (0x0C, 0x8A)
      else
        let bars := 1 + (if d.subbar then (usedMembers counts).length else 0)
        if freeObjs s vi < bars then (0x0C, 0x8B) else (0, 0)

/-- Sub-barriers of a launch, one for each used first-level member (R64). -/
def allocSubs (s : State) (vi : Vi) (num : Nat) (counts : List (Word × Nat × Nat)) : List Nat → State × List (Nat × Nat)
  | [] => (s, [])
  | m :: r =>
    let n := counts.foldl (fun a c => if c.2.2 = m then a + c.2.1 else a) 0
    match allocBar s vi num n false with
    | none => (s, [])
    | some (o, s) => let (s, l) := allocSubs s vi num counts r; (s, (m, o) :: l)

/-- A launch is accepted: barriers allocated (R64, R240), queued for admission; its composite is RUNNING (R53). -/
def acceptLaunch (s : State) (vi : Vi) (d : LaunchDesc) (sq : Option (BitVec 4)) (seq : BitVec 48) : State :=
  let counts := launchCounts s vi d
  let num := s.nextLaunch
  match allocBar s vi num d.threads.toNat true with
  | none => s
  | some (bar, s) =>
    let (s, subs) := if d.subbar then allocSubs s vi num counts (usedMembers counts) else (s, [])
    let l : Launch := {
      num := num, vi := vi, d := d, sq := sq, seq := seq, admitted := false, counts := [],
      bar := bar, subs := subs, ended := 0, okCount := 0, fail := none, stores := [] }
    let s := { s with nextLaunch := num + 1, launches := s.launches ++ [l] }
    if isComp d.target && (compEntry s (compNum d.target)).st == 1 then setCompSt s (compNum d.target) 2 else s

/-- A `launch` instruction submits a descriptor (R150, R274, R311): status and detail for gd. -/
def submitThread (s : State) (vi : Vi) (d : LaunchDesc) : State × BitVec 8 × BitVec 8 :=
  if bits (rget s (viReg vi 0x18)) 9 0 = 0 then (s, 0x0D, 0)
  else
    let r := launchCheck s vi d
    if r.1 ≠ 0 then (s, r)
    else
      let seq := (getInst s vi).tlSeq
      let s := acceptLaunch (wakeDim s) vi d none seq
      (modInst s vi (fun i => { i with tlSeq := i.tlSeq + 1 }), 0, 0)

/-! ## Completion of a launch (R64) -/

/-- Launches of other numbers that have the same target composite. -/
def othersOn (s : State) (n num : Nat) : Bool :=
  s.launches.any (fun l => l.num != num && isComp l.d.target && compNum l.d.target == n)

/-- The launch leaves the device: its barriers, stores, accumulator sets and waiting sets go (R165, R240, R500); its composite
is IDLE again when it was the last (R53). -/
def dropLaunch (s : State) (l : Launch) : State :=
  let s := freeBar s l.bar
  let s := l.subs.foldl (fun s p => freeBar s p.2) s
  let gone := s.waitSets.filter (fun w => w.launch == l.num)
  let s := gone.foldl (fun s w => spillFree s w.vi w.loc) s
  let mySets := s.accs.filter (fun p => p.1 / 1024 == l.num)
  let s := mySets.foldl (fun s p => match p.2 with | .spilled loc => spillFree s l.vi loc | .held _ => s) s
  let s := { s with
    waitSets := s.waitSets.filter (fun w => w.launch != l.num)
    accs := s.accs.filter (fun p => p.1 / 1024 != l.num)
    fstore := s.fstore.filter (fun p => p.1 / 1024 != l.num)
    launches := s.launches.filter (fun x => x.num != l.num) }
  let n := compNum l.d.target
  if isComp l.d.target && !othersOn s n l.num && ((compEntry s n).st == 2) then setCompSt s n 1 else s

/-- The completion record of a launch (R64, R310): to its COMPQ; a launch from a queue also completes its descriptor. -/
def launchRecord (s : State) (l : Launch) (status : BitVec 8) (bytes detail : Nat) (dcode : BitVec 8 := 0) : State :=
  let s := match l.sq with
    | some q => sqUntake s l.vi q.toNat
    | none => s
  complete s l.vi l.d.compq.toNat ⟨status, match l.sq with | some q => q.setWidth 16 | none => 0xFFFF, dcode, l.seq,
    BitVec.ofNat 64 bytes, BitVec.ofNat 32 detail⟩

/-- The launch completes when every thread has ended (R64). -/
def checkLaunchDone (s : State) (num : Nat) : State :=
  match getLaunch s num with
  | none => s
  | some l =>
    if l.admitted ∧ l.ended ≥ l.d.threads.toNat then
      let (st, det) := match l.fail with | some (i, st) => (st, i.toNat) | none => (0, 0)
      dropLaunch (launchRecord s l st l.okCount det) l
    else s

/-- A thread of a launch has ended with a status (R64, R95). -/
def launchThreadEnded (s : State) (num : Nat) (index : BitVec 32) (status : BitVec 8) : State :=
  let s := modLaunch s num (fun l => { l with
    ended := l.ended + 1,
    okCount := if status = 0 then l.okCount + 1 else l.okCount,
    fail := if status = 0 then l.fail else match l.fail with
      | some (i, st) => if index.toNat < i.toNat then some (index, status) else some (i, st)
      | none => some (index, status) })
  checkLaunchDone s num

/-! ## Rounds of a shared engine (R272, R274) -/

/-- QWEIGHT of an instance. -/
def qweight (s : State) (vi : Nat) : Nat := bits (rget s (viReg (BitVec.ofNat 8 vi) 0x18)) 9 0

/-- What an engine may still take from an instance in its round; nothing before its first round. -/
def quota (s : State) (eng vi : Nat) : Nat := match tget? s.rounds eng with | none => 0 | some q => tget q vi 16

/-- QWEIGHTs as a round starts, those of 16 not listed. -/
def newQuotas (s : State) : Tab Nat :=
  (List.range 256).filterMap (fun v => if qweight s v = 16 then none else some (v, qweight s v))

/-- The engine takes one descriptor or launch of an instance: the lowest instance that has work and some of its QWEIGHT left is served,
and a new round starts when none has (R272); `none` where another instance has the turn. Engines 1 to 4 take descriptors of their KIND,
engine 5 admits launches, and engine 6 + p is the Iris of port p, which takes transmit slots (Assumption 50). -/
def roundTake (s : State) (eng : Nat) (work : List Nat) (vi : Vi) : Option State :=
  let left := work.filter (fun v => decide (quota s eng v > 0))
  let q := if left.isEmpty then newQuotas s else tget s.rounds eng []
  let left := if left.isEmpty then work.filter (fun v => decide (tget q v 16 > 0)) else left
  if left.any (fun v => decide (v < vi.toNat)) || !left.contains vi.toNat then none
  else some { s with rounds := tset s.rounds eng (tset q vi.toNat (tget q vi.toNat 16 - 1)) }

/-- QWEIGHT 0 ends what is left to the instance in every round, so that a later weight counts from each engine's next round (R274). -/
def freezeRounds (s : State) (vi : Vi) : State := { s with rounds := s.rounds.map (fun p => (p.1, tset p.2 vi.toNat 0)) }

/-! ## Admission (R62, R63) -/

/-- Slots of a Facet in use. -/
def slotsUsed (s : State) (f : BitVec 10) : List Nat :=
  s.threads.filterMap (fun p => if p.1 / 64 = f.toNat then some (p.1 % 64) else none)
/-- Slots of a Facet that an instance's threads use. -/
def slotsUsedBy (s : State) (vi : Vi) (f : BitVec 10) : Nat :=
  (s.threads.filter (fun p => p.1 / 64 == f.toNat && p.2.vi == vi)).length
/-- Slots free for an instance on a Facet. -/
def slotsFree (s : State) (vi : Vi) (f : BitVec 10) : Nat :=
  Nat.min (64 - (slotsUsed s f).length) (slotsHeld s vi f - slotsUsedBy s vi f)
/-- Lowest-numbered free slot of a Facet (R72). -/
def freeSlot (s : State) (f : BitVec 10) : Nat := leastFree (slotsUsed s f)

/-- Facet store in KiB allocated to an instance on a Facet: its launches there, and its handler threads (R265, R275). -/
def storeUsed (s : State) (vi : Vi) (f : BitVec 10) : Nat :=
  s.launches.foldl (fun a l => if l.vi = vi ∧ l.stores.contains f.toNat then a + l.d.storeKib.toNat else a) 0
    + (if s.threads.any (fun p => p.2.handler && p.2.vi == vi && decide (p.1 / 64 = f.toNat))
       then bits (rget s (viReg vi 0x80)) 24 16 else 0)
/-- Facet store free for an instance on a Facet. -/
def storeFree (s : State) (vi : Vi) (f : BitVec 10) : Nat := storeHeld s vi f - storeUsed s vi f

/-- A thread at start (R63). A handler thread (R275) has no TAG, no TARGET and no leaf position: its g2, g5 and g7 are zero (DEDUCED, entry 48). -/
def newThread (s : State) (vi : Vi) (handler : Bool) (launch : Nat) (index threads member : Nat) (pos : Nat) (f : BitVec 10)
    (entry arg tag : Word) (tctl : Word) : Thread :=
  let g : Vector Word 64 := Vector.replicate 64 0
  let g := (((g.set 1 arg).set 2 tag).set 3 (BitVec.ofNat 64 index)).set 4 (BitVec.ofNat 64 threads)
  let g := ((g.set 5 (BitVec.ofNat 64 member)).set 6 (facetUd s f)).set 7 (BitVec.ofNat 64 pos)
  { st := .ready, vi := vi, handler := handler, launch := launch, index := BitVec.ofNat 32 index, member := BitVec.ofNat 32 member,
    pc := entry, g := g, v := Vector.replicate 8 0, m := (Vector.replicate 8 (0 : BitVec 128)).set 0 (BitVec.allOnes 128),
    rs := Vector.replicate 8 0, tctl := tctl, tstat := 0, brc := 0, brs := 0, rsp := 0, pend := [], loads := [], stores := [],
    nextOp := 0, pf := none, evTaken := none, recd := none, cause := 0, reason := 0, endSt := 0, replay := [], evRep := none }

/-- Initial TCTL: writable fields of TCTL_INIT with PRIV of the profile (register map of `TCTL`); SSTEP is 0 at reset. -/
def tctlInit (init : Word) (priv : Nat) : Word := (init &&& 0x1F77) ||| at_ priv 30

/-- Counters of the instance on a Facet are zeroed when a launch starts its first thread there (R589). -/
def autoReset (s : State) (vi : Vi) (f : BitVec 10) : State :=
  if bit (rget s (cntReg vi 0x8)) 62 then
    { s with cnts := s.cnts.filter (fun p => !(decide (p.1 / 32 = f.toNat * 256 + vi.toNat))) }
  else s

/-- Start the `k` threads of one position, indices from `idx` on. -/
def startAt (s : State) (l : Launch) (ud : Word) (member pos idx : Nat) : Nat → State
  | 0 => s
  | k + 1 =>
    let f := facetOfUd ud
    let t : Tid := ⟨f, BitVec.ofNat 6 (freeSlot s f)⟩
    let s := putThr s t (newThread s l.vi false l.num idx l.d.threads.toNat member pos f l.d.entry l.d.arg l.d.tag
      (tctlInit (l.d.tctl.setWidth 64) 0))
    let s := facetEvent s 1 l.vi 0 l.num (BitVec.ofNat 32 idx) f
    startAt s l ud member pos (idx + 1) k

/-- Start the threads of every position of this device (R61, R72). -/
def startAll (s : State) (l : Launch) : List (Word × Nat × Nat) → Nat → Nat → State
  | [], _, _ => s
  | (ud, n, m) :: r, pos, idx =>
    let s := if isLocal s ud && decide (n > 0) then startAt (autoReset s l.vi (facetOfUd ud)) l ud m pos idx n else s
    startAll s l r (pos + 1) (idx + n)

/-- START_EN: the counter of START_QUEUE is at or after START_AT (R60, R410). -/
def startGate (s : State) (l : Launch) : Bool :=
  !l.d.startEn || atOrAfter (getSq s l.vi (l.d.startQ.toNat % 16)).done l.d.startAt

/-- Every thread the launch places can be resident at once, with its store (R62, R265). -/
def canAdmit (s : State) (l : Launch) (counts : List (Word × Nat × Nat)) : Bool :=
  decide (counts.foldl (fun a c => a + c.2.1) 0 = l.d.threads.toNat)
    && counts.all (fun c => !isLocal s c.1 || decide (c.2.1 = 0)
      || (decide (c.2.1 ≤ slotsFree s l.vi (facetOfUd c.1)) && decide (l.d.storeKib.toNat ≤ storeFree s l.vi (facetOfUd c.1))))

/-- The instance holds a mirrored granule. -/
def holdsMirror (s : State) (vi : Vi) : Bool := s.gt.any (fun p => decide (p.1 / 4096 = vi.toNat) && gtValid p.2 && gtMirror p.2)

/-- An earlier launch of the same queue still waits (R62). The launches of an instance's `launch` instructions, which come from no queue,
count as those of one (DESIGN CHOICE, Assumption 50). -/
def earlierWaits (s : State) (l : Launch) : Bool :=
  s.launches.any (fun x => decide (x.num < l.num) && x.vi == l.vi && x.sq == l.sq && !x.admitted)

/-- The target composite may run launches (R54). -/
def targetOpen (s : State) (l : Launch) : Bool :=
  !isComp l.d.target || (compEntry s (compNum l.d.target)).st == 1 || (compEntry s (compNum l.d.target)).st == 2

/-- Sub-barriers of a launch as its members stand at admission: objects of its submission are kept in order, further ones allocated, those
left over returned (R63, R64). -/
def fitSubs (s : State) (vi : Vi) (num : Nat) (counts : List (Word × Nat × Nat)) : List Nat → List Nat → State × List (Nat × Nat)
  | [], objs => (objs.foldl freeBar s, [])
  | m :: r, [] => allocSubs s vi num counts (m :: r)
  | m :: r, o :: os =>
    let n := counts.foldl (fun a c => if c.2.2 = m then a + c.2.1 else a) 0
    let (s, l) := fitSubs (setSyn s o { getSyn s o with expect := BitVec.ofNat 32 n }) vi num counts r os
    (s, (m, o) :: l)

/-- Barrier objects for the members the launch now has are free (R64). -/
def subsFit (s : State) (l : Launch) (counts : List (Word × Nat × Nat)) : Bool :=
  !l.d.subbar || decide ((usedMembers counts).length ≤ l.subs.length + freeObjs s l.vi)

/-- Nothing but its engine's round keeps a waiting launch from being admitted (R54, R60, R62, R274, R454, R473). -/
def admissible (s : State) (l : Launch) : Bool :=
  let counts := launchCounts s l.vi l.d
  working s && !l.admitted && (getInst s l.vi).st == 2 && !snapStops s l.vi && decide (qweight s l.vi.toNat ≠ 0) && startGate s l
    && targetOpen s l && !earlierWaits s l && canAdmit s l counts && subsFit s l counts && !(s.pair.isolated && holdsMirror s l.vi)

/-- The launch is admitted: its barriers fit its members, and all its threads start (R62-R64). -/
def startLaunch (s : State) (l : Launch) : State :=
  let counts := launchCounts s l.vi l.d
  let here := counts.filter (fun c => isLocal s c.1 && decide (c.2.1 > 0))
  let (s, subs) := if l.d.subbar then fitSubs s l.vi l.num counts (usedMembers counts) (l.subs.map (·.2)) else (s, l.subs)
  let s := modLaunch s l.num (fun l => { l with
    admitted := true, counts := counts, subs := subs,
    stores := if l.d.storeKib = 0 then [] else here.map (fun c => (facetOfUd c.1).toNat) })
  let s := if isComp l.d.target && (compEntry s (compNum l.d.target)).st == 1 then setCompSt s (compNum l.d.target) 2 else s
  startAll s l counts 0 0

/-- LAUNCH_ADMIT (R62, R272): the launch is admitted in its instance's turn, or it keeps waiting. -/
def admitLaunch (s : State) (num : Nat) : State :=
  match getLaunch s num with
  | none => s
  | some l =>
    if admissible s l then
      match roundTake s 5 ((s.launches.filter (admissible s)).map (fun x => x.vi.toNat)) l.vi with
      | some s => startLaunch s l
      | none => s
    else s

end Sys2Proof.Machine
end

