-- ==== Sys2Proof/Machine/Threads.lean ====
section
/-! DEFINITION. What every thread instruction shares: performing outstanding operations (R88, R89, R123-R125), save records (R111),
traps (R103-R108), the matching wait (R90, R91, R106), ending, and the issue of one instruction (R76, R97, R102, R105, R115). -/

namespace Sys2Proof.Machine

/-! ## Performing memory operations -/

/-- What performing an operation gives: its result, a fault (poison?, address), or that it is performed but not yet complete. -/
structure ActRes where
  res   : BitVec 1024 := 0
  fault : Option (Bool × Word) := none
  wait  : Bool := false
  deriving DecidableEq, Repr

/-- A fault from a status an outside memory answered: POISONED is poison, any other is an access fault (R324, R431). -/
def outFault (status : BitVec 8) (a : Word) : Option (Bool × Word) :=
  if status = 0 then none else some (status == 0x0A, a)

/-- One read at an instance address: state, bytes, fault. `ext` are the bytes an outside memory brought. -/
def readAt (s : State) (vi : Vi) (a : Word) (n : Nat) (status : BitVec 8) (ext : List Byte) :
    State × List Byte × Option (Bool × Word) :=
  match translate s vi a n .rd with
  | .fault => (s, [], some (false, a))
  | .remote _ _ => (s, extBytes s ext a.toNat n, outFault status a)
  | .host bus => (if status = 0x0A then modInst s vi (fun i => { i with memPoison := true }) else s, extBytes s ext bus n, outFault status a)
  | .dev pa _ =>
    let (s, d, p) := devRead s pa n (some vi)
    (s, d, if p then some (true, a) else none)

/-- One access that may cross granules: each granule's part under its own entry (R190), the address named in a fault being the access's. -/
def readSpan (s : State) (vi : Vi) (a : Word) (n : Nat) (status : BitVec 8) (ext : List Byte) :
    State × List Byte × Option (Bool × Word) :=
  (rangePieces a n).foldl (fun r p =>
    let (s, d, f) := readAt r.1 vi p.1 p.2 status (ext.drop r.2.1.length)
    (s, r.2.1 ++ d, r.2.2.orElse (fun _ => f.map (fun x => (x.1, a))))) (s, [], none)

/-- The lanes of a load, in order: bytes gathered into the result, first fault kept (R123). -/
def readLanes (s : State) (vi : Vi) (w : Nat) (status : BitVec 8) : List (Nat × Word) → List Byte → ActRes → State × ActRes
  | [], _, r => (s, r)
  | (off, a) :: l, ext, r =>
    let (s, d, f) := readAt s vi a w status ext
    let r := { r with res := r.res ||| BitVec.ofNat 1024 (ofBytes d <<< (8 * off)), fault := r.fault.orElse (fun _ => f) }
    readLanes s vi w status l (match translate s vi a w .rd with | .dev _ _ => ext | _ => ext.drop w) r

/-- First lane of a store that faults in translation or permission (R123). -/
def storeFault (s : State) (vi : Vi) : List (Word × List Byte) → Option Word
  | [] => none
  | (a, d) :: l => match translate s vi a d.length .wr with
    | .fault => some a
    | _ => storeFault s vi l

/-- Stores joined where one follows the other in memory, so that a store is one write per run (R211). -/
def joinRuns : List (Word × List Byte) → List (Word × List Byte)
  | [] => []
  | (a, d) :: l => match joinRuns l with
    | (b, e) :: r => if b = a + BitVec.ofNat 64 d.length ∧ bits a 29 0 + d.length + e.length ≤ 2 ^ 30 then (a, d ++ e) :: r
        else (a, d) :: (b, e) :: r
    | [] => [(a, d)]

/-- The writes of a store, in order (R123, R216, R223). -/
def writeLanes (s : State) (vi : Vi) (t : Tid) (o : Op) : List (Word × List Byte) → State
  | [] => s
  | (a, d) :: l =>
    let s := match translate s vi a d.length .wr with
      | .dev pa m => engWrite s vi pa m d (.thread t o.id)
      | .host bus => if o.sent then hostWrite s bus d else hostPut s vi bus d
      | _ => s
    writeLanes s vi t o l

/-- A write of the operation is still held by a guard or unacknowledged by the partner (R217, R223). -/
def writeOpen (s : State) (t : Tid) (op : Nat) : Bool :=
  s.heldW.any (fun h => h.writer == .thread t op) || s.pair.out.any (fun m => m.writer == .thread t op)

/-- A vector, scalar or accumulator memory operation, or a launch submission, is performed (R89). -/
def performAct (s : State) (t : Tid) (th : Thread) (op : Op) (status : BitVec 8) (ext : List Byte) : State × ActRes :=
  match op.act with
  | .ldScalar a n sg =>
    let (s, d, f) := readAt s th.vi a n status ext
    let v := ofBytes d
    (s, { res := if sg then (sextN (8 * n) v).setWidth 1024 else BitVec.ofNat 1024 v, fault := f })
  | .ldLanes w l => readLanes s th.vi w status l ext {}
  | .stLanes _ l =>
    match storeFault s th.vi l with
    | some a => (s, { fault := some (false, a) })
    | none =>
      let s := writeLanes s th.vi t op (joinRuns l)
      let out := l.find? (fun p => match translate s th.vi p.1 p.2.length .wr with | .remote _ _ => true | .host _ => true | _ => false)
      (s, { fault := out.bind (fun p => outFault status p.1), wait := writeOpen s t op.id })
  | .amo o w a x y ret =>
    match translate s th.vi a w .rdwr with
    | .dev pa m =>
      let act := WAct.amo pa o (8 * w) x y
      match partAct s th.vi m (.thread t op.id) act with
      | (s, none) => (s, { wait := true })
      | (s, some (old, p)) =>
        (s, { res := BitVec.ofNat 1024 old, fault := if p ∧ ret then some (true, a) else none, wait := writeOpen s t op.id })
    | .remote _ _ => (s, { res := BitVec.ofNat 1024 (ofBytes (extBytes s ext a.toNat w)), fault := outFault status a })
    | _ => (s, { fault := some (false, a) })
  | .rspop a =>
    let (s, d, f) := readSpan s th.vi a 72 status ext
    (s, { res := BitVec.ofNat 1024 (ofBytes d), fault := f })
  | .eamerge a ea =>
    let (s, d, f) := readSpan s th.vi a 544 status ext
    match f with
    | some _ => (s, { fault := f })
    | none =>
      let (s, v) := accUse s th.vi (accLaunch th) t.facet
      (accPut s (accLaunch th) t.facet (v.set ea.toFin (accMerge v[ea.toFin] (accOf d))), {})
  | .launch a =>
    let (s, d, f) := readAt s th.vi a 64 status ext
    match f with
    | some _ => (s, { fault := f })
    | none =>
      let (s, st, det) := submitThread s th.vi (parseDesc d)
      (s, { res := (st.setWidth 1024 ||| (det.setWidth 1024 <<< 8)) })
  | .sync _ _ _ => (s, {})
  | .evwait _ => (s, {})
  | .tresume _ => (s, {})
  | .tendOther _ _ => (s, {})
  | .sysrd _ => (s, {})
  | .syswr _ _ => (s, {})
  | .evpost _ _ => (s, {})

/-- A memory operation in the sense of R109 step 2. -/
def isMemAct : Act → Bool
  | .sync _ _ _ => false | .evwait _ => false
  | .tresume _ => false | .tendOther _ _ => false | .sysrd _ => false | .syswr _ _ => false | .evpost _ _ => false
  | .ldScalar _ _ _ => true | .ldLanes _ _ => true | .stLanes _ _ => true | .amo _ _ _ _ _ _ => true
  | .rspop _ => true | .eamerge _ _ => true | .launch _ => true

def isSyncAct : Act → Bool
  | .sync _ _ _ => true
  | .evwait _ => false
  | .tresume _ => false | .tendOther _ _ => false | .sysrd _ => false | .syswr _ _ => false | .evpost _ _ => false
  | .ldScalar _ _ _ => false | .ldLanes _ _ => false | .stLanes _ _ => false | .amo _ _ _ _ _ _ => false
  | .rspop _ => false | .eamerge _ _ => false | .launch _ => false

/-- Operations of both lists in issue order. -/
def opsInOrder (th : Thread) : List Op := (th.loads ++ th.stores).mergeSort (fun a b => decide (a.id ≤ b.id))

/-- Write back one operation in whichever list holds it. -/
def setOp (th : Thread) (o : Op) : Thread :=
  { th with loads := th.loads.map (fun x => if x.id = o.id then o else x),
            stores := th.stores.map (fun x => if x.id = o.id then o else x) }

/-- One outstanding memory operation completes inside a save or trap (R109 step 2): what an outside memory would bring is free. -/
def drainOne (s : State) (t : Tid) (o : Op) : State :=
  match getThr s t with
  | none => s
  | some th =>
    if o.done ∨ !isMemAct o.act then s
    else if o.perf then
      -- a held atomic has no result yet: its value is free (Assumption 2)
      let open_ := s.heldW.any (fun h => h.writer == .thread t o.id)
      putThr s t (setOp th { o with done := true, res := if open_ then freeBits s 1024 (4000 + o.id) else o.res })
    else
      let (s, r) := performAct s t th o 0 []
      putThr s t (setOp th { o with done := true, perf := true, res := r.res, fault := r.fault })

/-- Every outstanding memory operation completes, in issue order (R109 step 2, R124). -/
def drainMem (s : State) (t : Tid) : State :=
  match getThr s t with
  | none => s
  | some th => (opsInOrder th).foldl (fun s o => drainOne s t o) s

/-! ## Results at the matching wait -/

/-- The result of a load-class operation reaches its destination (R91, R92, R101, R106). An unspecified destination is unspecified as a
whole, the inactive lanes of a masked load with it. -/
def applyOp (s : State) (th : Thread) (o : Op) : Thread :=
  let bad := o.clob || o.fault.isSome
  let free := freeBits s 1024 (3000 + o.id)
  let v : BitVec 1024 := if bad then free else o.res
  let th := match o.dest with
    | some d => applyRes th ⟨0, d.file, d.num, if bad then BitVec.allOnes 128 else d.bytes, v, 0⟩
    | none => th
  match o.act with
  | .rspop _ =>
    let v := if o.fault.isSome then free else o.res
    let w (i : Nat) : Word := BitVec.ofNat 64 (v.toNat >>> (64 * i))
    let r : Word := if bad then BitVec.ofNat 64 (free.toNat >>> 512) else w 8
    let depth := if bits r 3 0 ≤ 8 then bits r 3 0 else bits th.rsp 3 0
    { th with rs := Vector.ofFn (fun i => w i.val), rsp := (r &&& 0x700) ||| BitVec.ofNat 64 depth }
  | _ => th

/-- Results of operations reach their registers in issue order. -/
def applyOps (s : State) (th : Thread) (l : List Op) : Thread := l.foldl (applyOp s) th

/-! ## Faults (R106, R110) -/

/-- Faulted operations in issue order. -/
def faultedOps (th : Thread) : List Op := (opsInOrder th).filter (fun o => o.done && o.fault.isSome)

/-- Operations issued after the earliest faulted one of a list. -/
def distOf (l : List Op) : Option Nat :=
  match l.dropWhile (fun o => !(o.done && o.fault.isSome)) with
  | [] => none
  | _ :: r => some r.length

/-- The faults still to be raised: those of an earlier record first (R110, R111). -/
def pendOf (th : Thread) : Option PendFault :=
  let fs := faultedOps th
  let n := fs.length + (th.pf.map (·.count)).getD 0
  if n = 0 then none
  else
    let first : Bool × Word := match th.pf with
      | some p => (p.poison, p.addr)
      | none => ((fs.head?.bind (·.fault)).getD (false, 0))
    let second : Option Bool := match th.pf with
      | some p => if p.count ≥ 2 then p.second else (fs.head?.bind (·.fault)).map (·.1)
      | none => ((fs.drop 1).head?.bind (·.fault)).map (·.1)
    some {
      count := n, poison := first.1, addr := first.2, second := second,
      ldist := (th.pf.bind (·.ldist)).orElse (fun _ => distOf th.loads),
      sdist := (th.pf.bind (·.sdist)).orElse (fun _ => distOf th.stores) }

/-- Operations met by a `wait` of limits a and b: all but the last a loads and the last b stores (R91). A limit of 48 or more meets the
operations with that many later ones, which R76 makes complete. -/
def metLoads (th : Thread) (a : Nat) : List Op := th.loads.take (th.loads.length - a)
def metStores (th : Thread) (b : Nat) : List Op := th.stores.take (th.stores.length - b)

/-- A fault is raised at this `wait`: one of its own operations faulted, or a recorded fault's distance is met (R106, R110). -/
def faultsAt (th : Thread) (a b : Nat) : Bool :=
  (metLoads th a ++ metStores th b).any (fun o => o.fault.isSome)
    || (match th.pf with
        | none => false
        | some p => (match p.ldist with | some d => decide (a ≤ d) | none => false)
                    || (match p.sdist with | some d => decide (b ≤ d) | none => false))

/-! ## Save records (R111) -/

/-- Flags of a pending entry: `TSTAT` [12:8] and [1:0] as [6:2] and [1:0]. -/
def packFlags (f : Word) : Nat := bits f 12 8 * 4 + bits f 1 0
def unpackFlags (n : Nat) : Word := BitVec.ofNat 64 (n / 4 % 32 * 256 + n % 4)

def RFile.code : RFile → Nat
  | .gen => 0 | .vec => 1 | .mask => 2 | .special => 3
def RFile.ofCode (n : Nat) : RFile := if n = 0 then .gen else if n = 1 then .vec else if n = 2 then .mask else .special

/-- One pending result entry, 152 bytes. -/
def pendBytes (order : Nat) (p : PendRes) : List Byte :=
  toBytes 8 (p.due + RFile.code p.file * 256 + p.num.toNat * 1024 + order * 65536 + 2 ^ 24 + packFlags p.flags * 2 ^ 32)
    ++ toBytes 16 p.bytes.toNat ++ toBytes 128 p.data.toNat

/-- The record of a thread (R111). `faults` and `fcause` are the header's FAULTS and FCAUSE; `pf` gives the distances of pending
faults of a record with REASON 1 or 3, at most 48 (R111: 0 to 48). TVAL of a record with REASON 1 or 3 and no pending fault is 0, and so
is CAUSE (DESIGN CHOICE, Assumption 49). -/
def recOf (s : State) (t : Tid) (th : Thread) (reason : Nat) (tval : Word) (faults fcause : Nat) (pf : Option PendFault) :
    List Byte :=
  let replays := th.replay.take 4
  let ld := pf.bind (·.ldist)
  let sd := pf.bind (·.sdist)
  let dist := match ld with | some d => sat 48 d + 64 | none => 0
  let sdst := match sd with | some d => sat 48 d + 64 | none => 0
  let hdr := toBytes 8 (1 + 0x1100 * 65536 + th.vi.toNat * 2 ^ 32 + th.cause.toNat * 2 ^ 40 + reason * 2 ^ 48
        + th.pend.length * 2 ^ 56)
    ++ toBytes 8 (th.index.toNat + replays.length * 2 ^ 32 + b2n th.evRep.isSome * 2 ^ 35 + sat 96 faults * 2 ^ 36
        + fcause * 2 ^ 44)
    ++ toBytes 8 th.launch ++ toBytes 8 th.pc.toNat ++ toBytes 8 tval.toNat ++ toBytes 8 (facetUd s t.facet).toNat
    ++ toBytes 8 s.devTime.toNat
    ++ toBytes 8 (th.member.toNat + dist * 2 ^ 32 + sdst * 2 ^ 40)
  let gen := th.g.toList.flatMap (fun w => toBytes 8 w.toNat)
  let vec := th.v.toList.flatMap (fun w => toBytes 128 w.toNat)
  let msk := (th.m.set 0 (BitVec.allOnes 128)).toList.flatMap (fun w => toBytes 16 w.toNat)
  let spc := [th.tctl, th.tstat, th.brc, th.brs, th.rsp, 0].flatMap (fun w => toBytes 8 w.toNat)
    ++ toBytes 8 ((th.evRep.getD 0).toNat) ++ toBytes 8 0
  let rep := (replays.flatMap (fun p => toBytes 8 p.1.toNat ++ toBytes 8 p.2.toNat))
  let rep := rep ++ List.replicate (64 - rep.length) 0
  let stk := th.rs.toList.flatMap (fun w => toBytes 8 w.toNat)
  let pnd := ((th.pend.take 16).zipIdx).flatMap (fun p => pendBytes p.2 p.1)
  let pnd := pnd ++ List.replicate (2432 - pnd.length) 0
  hdr ++ gen ++ vec ++ msk ++ spc ++ rep ++ stk ++ pnd

/-- A number of `n` bytes at an offset of a record. -/
def recNat (b : List Byte) (off n : Nat) : Nat := ofBytes ((b.drop off).take n)

/-- Pending entries of a record, in their issue order. -/
def recPend (b : List Byte) : List PendRes :=
  let es := (List.range 16).filterMap (fun i =>
    let o := 0x780 + 152 * i
    let h := recNat b o 8
    if h.testBit 24 then
      some (h / 65536 % 256, ({
        due := h % 16, file := RFile.ofCode (h / 256 % 4), num := BitVec.ofNat 6 (h / 1024),
        bytes := BitVec.ofNat 128 (recNat b (o + 8) 16), data := BitVec.ofNat 1024 (recNat b (o + 24) 128),
        flags := unpackFlags (h / 2 ^ 32 % 128) } : PendRes))
    else none)
  (es.mergeSort (fun x y => decide (x.1 ≤ y.1))).map (·.2)

/-- The pending faults of a record with REASON 1 or 3 (R110). -/
def recFaults (b : List Byte) : Option PendFault :=
  let h := recNat b 8 8
  let m := recNat b 0x38 8
  let reason := recNat b 6 1
  if reason ≠ 2 ∧ h / 2 ^ 36 % 256 ≠ 0 then
    some {
      count := h / 2 ^ 36 % 256, poison := decide (h / 2 ^ 44 % 256 = 5), addr := BitVec.ofNat 64 (recNat b 0x20 8),
      ldist := if m.testBit 38 then some (m / 2 ^ 32 % 64) else none,
      sdist := if m.testBit 46 then some (m / 2 ^ 40 % 64) else none }
  else none

/-- The registers of a record put into a thread (R110 steps 1, 2 and 4); replay descriptors are left to be reissued. -/
def recInto (th : Thread) (b : List Byte) (migrated : Bool) : Thread :=
  let h := recNat b 8 8
  let w (off : Nat) : Word := BitVec.ofNat 64 (recNat b off 8)
  { th with
    pc := w 0x18
    g := (Vector.ofFn (fun (i : Fin 64) => w (0x40 + 8 * i.val))).set 0 0
    v := Vector.ofFn (fun i => BitVec.ofNat 1024 (recNat b (0x240 + 128 * i.val) 128))
    m := (Vector.ofFn (fun (i : Fin 8) => BitVec.ofNat 128 (recNat b (0x640 + 16 * i.val) 16))).set 0 (BitVec.allOnes 128)
    rs := Vector.ofFn (fun i => w (0x740 + 8 * i.val))
    tctl := (w 0x6C0 &&& 0x1FF7) ||| (th.tctl &&& 0xC0000000)
    tstat := (w 0x6C8 &&& 0x31F0F) ||| fRES ||| flagIf migrated fMIG
    brc := w 0x6D0 &&& 0x0000FFFFFFFFFFFF
    brs := w 0x6D8 &&& 0xFFFFFFFFFFFFFFF8
    rsp := w 0x6E0 &&& 0x70F
    pend := recPend b
    loads := [], stores := []
    pf := (recFaults b).orElse (fun _ => th.pf)
    cause := BitVec.ofNat 8 (recNat b 5 1)
    replay := (List.range (Nat.min 4 (h / 2 ^ 32 % 8))).map (fun i => (w (0x700 + 16 * i), w (0x708 + 16 * i)))
    evRep := if h.testBit 35 then some (w 0x6F0) else none }

/-- A record breaks R617: a reserved value in `TCTL.RM` or `RSP.DEPTH`. -/
def recBad (b : List Byte) : Bool := decide (recNat b 0x6C0 1 % 8 > 4) || decide (recNat b 0x6E0 1 % 16 > 8)

/-! ## Ending and traps -/

/-- A thread ends with a status (R75, R95): its slot is ENDING until its operations are complete. -/
def endThread (s : State) (t : Tid) (th : Thread) (status : BitVec 8) : State :=
  putThr s t { th with st := .ending, endSt := status, pend := [] }

/-- Status of an unhandled trap (R104). -/
def trapStatus (cause : Nat) : BitVec 8 :=
  if cause = 1 then 0x0B else if cause ≤ 4 then 0x05 else if cause = 5 then 0x0A else BitVec.ofNat 8 (0xC0 + cause)

/-- Operations of a thread withdrawn for replay (R109 step 3): the replay list in issue order, and the lists without them. The one operand
value of a descriptor is the handle of a one-operand operation, gb of a two-operand one, whose handle is read again from ga at resume,
and 0 for `ubar` (DESIGN CHOICE, Assumption 49). -/
def takeSyncs (th : Thread) : Thread :=
  let out := th.loads.filter (fun o => !o.done && isSyncAct o.act)
  { th with
    replay := out.map (fun o => match o.act with
      | .sync w h x => (w, if bits w 63 58 = 0x38 ∨ bits w 63 58 = 0x3B ∨ (bits w 63 58 = 0x3A ∧ bits w 57 52 = 2) then
          (if bits w 63 52 = 0x38 * 64 then 0 else h) else x)
      | _ => (0, 0)),
    loads := th.loads.filter (fun o => !(!o.done && isSyncAct o.act)) }

/-- A sync operation is withdrawn where it waits, or completes with the answer that has left its home (R109, R242). -/
def withdrawSync (s : State) (t : Tid) (op : Nat) : State :=
  match nearAnswer s t op with
  | some (phase, status) => opDone (withdrawOp s t op) t op ((syncWord 0 phase status).setWidth 1024)
  | none => withdrawOp s t op

/-- Every outstanding sync operation and `evwait` of a thread is withdrawn where it waits (R109, R242). -/
def withdrawSyncs (s : State) (t : Tid) : State :=
  match getThr s t with
  | none => s
  | some th =>
    let s := (th.loads.filter (fun o => !o.done && isSyncAct o.act)).foldl (fun s o => withdrawSync s t o.id) s
    modInst s th.vi (fun i => { i with evq := i.evq.filter (fun p => p.1 != Tid.key t) })

/-- The evwait withdrawn for replay. -/
def takeEv (th : Thread) : Thread :=
  let ev := th.loads.find? (fun o => match o.act with | .evwait _ => !o.done | _ => false)
  { th with
    evRep := ev.bind (fun o => match o.act with | .evwait w => some w | _ => none),
    loads := th.loads.filter (fun o => match o.act with | .evwait _ => o.done | _ => true) }

/-- The thread as a record holds it: memory operations complete and their results written, sync operations withdrawn
(R109 steps 2 and 3). State after, and the thread with empty operation lists. -/
def quiesce (s : State) (t : Tid) : State × Option Thread :=
  let s := withdrawSyncs (drainMem s t) t
  match getThr s t with
  | none => (s, none)
  | some th =>
    let pf := pendOf th
    let th := takeEv (takeSyncs th)
    let th := { applyOps s th (th.loads.filter (·.done)) with loads := [], stores := [], pf := pf }
    (s, some th)

/-- The instance address of a record (R188, R192, R203): one in the host spill area that lies in the host window is named through the
window, and one outside it by its bus address (DESIGN CHOICE, Assumption 22). -/
def recAddr (s : State) (vi : Vi) (loc : RecLoc) : Word :=
  match loc with
  | .dev a => a
  | .host b =>
    let w := rget s (viReg vi 0x218)
    let base := bits w 63 30 * 2 ^ 30
    if base ≤ b.toNat ∧ b.toNat + recSize ≤ base + bits w 12 0 * 2 ^ 30 then BitVec.ofNat 64 (2 ^ 50 + 2 ^ 49 + (b.toNat - base)) else b

/-- An address with the own device named through SELF, so that the two spellings of R190 compare equal. -/
def selfForm (s : State) (a : Word) : Word :=
  if !bit a 49 && addrDev a == ownDev s then (a &&& 0x7FFFFFFFFFFFF) ||| at_ 1 49 else a

/-- The address names the record. -/
def namesRec (s : State) (vi : Vi) (loc : RecLoc) (a : Word) : Bool := recAddr s vi loc == selfForm s a || recAddr s vi loc == a

/-- A TRAP event (R280). -/
def trapEvent (s : State) (t : Tid) (th : Thread) (loc : RecLoc) (tval : Word) : Event :=
  ⟨1, #v[recAddr s th.vi loc, BitVec.ofNat 64 th.launch, th.index.setWidth 64 ||| at_ th.cause.toNat 32, facetUd s t.facet, tval]⟩

/-- FCAUSE of a record with REASON 2: the cause of the second of the faults raised together. A record with REASON 1 or 3 carries the cause
of the first alone, so of two faults it carried the second's cause is free (Assumption 49). -/
def fcauseOf (s : State) (p : Option PendFault) : Nat :=
  match p with
  | none => 0
  | some p =>
    if p.count < 2 then 0
    else if p.second.getD (freeBits s 1 3999 == 1) then 5 else 4

/-- Taking a trap (R103, R107, R108): `th` is the thread with the saved PC. `raised` are the faults a `wait` raises. A trap in handler mode
goes to the firmware, writes no save record and takes no spill entry (DEDUCED, Assumption 49). -/
def takeTrap (s : State) (t : Tid) (th : Thread) (cause : Nat) (tval : Word) (atWait : Bool) : State :=
  let th := { th with cause := BitVec.ofNat 8 cause }
  let s := countEv s t.facet th.vi (0x50 + cause) 1
  let s := facetEvent s 3 th.vi (BitVec.ofNat 8 cause) th.launch th.index t.facet
  let s := putThr s t th
  if th.handler then putThr s t { th with st := .trapped }                       -- R108: the firmware ends it
  else if hasHandler s th.vi then
    let (s, q) := quiesce s t
    match q with
    | none => s
    | some th =>
      let raised := if atWait then (th.pf.map (·.count)).getD 0 else 0
      let fcause := if atWait then fcauseOf s th.pf else 0
      -- faults raised at this wait are raised once; FAULTS counts those besides the one in TVAL
      let th := if atWait then { th with pf := none } else th
      match spillPick s th.vi t.facet with
      | none => endThread s t th (trapStatus cause)
      | some loc =>
        let s := spillTake s th.vi loc
        let s := spillWrite s th.vi loc (recOf s t th 2 tval (raised - 1) fcause none)
        let s := putThr s t { th with st := .trapped, recd := some loc, replay := [], evRep := none }
        postEvent s th.vi (trapEvent s t th loc tval)
  else endThread s t th (trapStatus cause)

/-! ## Block-repeat and the program counter (R97, R98) -/

/-- Where a thread goes after an instruction issues. -/
inductive Goes where
  | on                               -- to the next address, unless the block loops
  | to (a : Word) (call : Bool)      -- a taken transfer
  deriving DecidableEq, Repr

/-- The address lies within the block. -/
def inBlock (th : Thread) (a : Word) : Bool := decide ((a - th.brs).toNat < 8 * th.brcLen)

/-- PC and block registers after the instruction at PC (R97, R98). -/
def goNext (th : Thread) (g : Goes) : Thread :=
  match g with
  | .to a call =>
    let th := if !call ∧ inBlock th th.pc ∧ !inBlock th a then { th with brc := 0 } else th
    { th with pc := a }
  | .on =>
    if th.pc = th.brs + BitVec.ofNat 64 (8 * th.brcLen) - 8 then
      if th.brcCount > 1 then { th with brc := th.brc - 1, pc := th.brs }
      else { th with brc := 0, pc := th.pc + 8 }
    else { th with pc := th.pc + 8 }

/-! ## The wait of R90 -/

/-- The condition of `wait a, b` holds. -/
def waitHolds (th : Thread) (a b : Nat) : Bool :=
  (decide (a ≥ 48) || decide (th.lcnt ≤ a)) && (decide (b ≥ 48) || decide (th.scnt ≤ b))

/-- STEP after an issued instruction (R104, R105). -/
def stepTrap (s : State) (t : Tid) (on : Bool) : State :=
  match getThr s t with
  | some th => if on && th.st == .ready then takeTrap s t th 0x0F 0 false else s
  | none => s

/-- A `wait` whose condition holds completes, or raises the faults of its operations (R91, R106, R110). -/
def finishWait (s : State) (t : Tid) (th : Thread) (a b : Nat) : State :=
  let th := { th with st := .ready }
  if faultsAt th a b then
    let s := drainMem (putThr s t th) t
    match getThr s t with
    | none => s
    | some th =>
      let pf := (pendOf th).getD ⟨1, false, 0, none, none, none⟩
      takeTrap s t th (if pf.poison then 5 else 4) pf.addr true
  else
    let th' := applyOps s th (metLoads th a)
    let th' := { th' with loads := th'.loads.drop (metLoads th a).length, stores := th'.stores.drop (metStores th b).length }
    let step := th.sstep
    stepTrap (putThr (nextFree s) t (advanceSlot (goNext th' .on) [])) t step

/-- Every WAITING thread whose condition now holds completes its `wait` (R90); what arrives at an island during a change of its frequency
waits in the bridge (R33). -/
def settle (s : State) : State :=
  s.threads.foldl (fun s p => match p.2.st with
    | .waiting a b =>
      match getThr s (tidOf p.1) with
      | some th => if th.st = .waiting a b ∧ clusterRuns s (p.1 / 64 / 8) ∧ waitHolds th a.toNat b.toNat then finishWait s (tidOf p.1) th a.toNat b.toNat else s
      | none => s
    | _ => s) s

/-! ## Issue -/

/-- What an instruction does when it issues: a trap that leaves no effect, or the state and thread after, the results with their
latencies, and where the thread goes. `after` is BREAK or HCALL, which trap once the instruction has issued (R103). -/
inductive Eff where
  | hold
  | trap (cause : Nat) (tval : Word)
  | ok (s : State) (th : Thread) (ws : List Wr) (g : Goes) (after : Option (Nat × Word))
  | waits (a b : BitVec 6)
  | ends
  deriving DecidableEq

/-- An instruction issues: counters 0x01 and of its major class, and the tally SCALAR_ISSUE (R529, R587). -/
def countIssue (s : State) (f : BitVec 10) (vi : Vi) (major : Nat) : State :=
  let s := countEv (countEv s f vi 0x01 1) f vi (0x02 + major) 1
  if major ≤ 2 ∨ major ≥ 6 then addTally s f vi 0 1 else s

/-- Load-class and store-class operations outstanding on a Facet (R76). -/
def facetOps (s : State) (f : BitVec 10) : Nat :=
  s.threads.foldl (fun n p => if p.1 / 64 = f.toNat then n + p.2.lcnt + p.2.scnt else n) 0

/-- Classes of an instruction: counter class of R587, and whether it is load-class, store-class or a sync operation. -/
structure Cls where
  major : Nat
  ld    : Bool := false
  st    : Bool := false
  sync  : Bool := false
  deriving DecidableEq, Repr

/-- A hold of R76 or R237 that the thread's own state decides. -/
def held (s : State) (t : Tid) (th : Thread) (c : Cls) : Bool :=
  (c.ld && decide (th.lcnt ≥ 48)) || (c.st && decide (th.scnt ≥ 48)) || ((c.ld || c.st) && decide (facetOps s t.facet ≥ 1024))
    || (c.sync && decide ((th.loads.filter (fun o => !o.done && isSyncAct o.act)).length ≥ 4))

/-! ## Weighted issue on a shared Facet (R270, R271) -/

/-- A sharer has a ready thread on the Facet: the thread of the command, which issues next, or another whose slot is READY. -/
def sharerReady (s : State) (t : Tid) (vi : Vi) : Bool :=
  s.threads.any (fun p => decide (p.1 / 64 = t.facet.toNat) && p.2.vi == vi
    && (p.1 == Tid.key t || (p.2.st == .ready && Config.readyNow s.free p.1)))

/-- Issue credits left to an instance in the round of a Facet. -/
def issueCredit (s : State) (f : BitVec 10) (vi : Vi) : Nat := tget (tget s.arb f.toNat []) vi.toNat 0

/-- A round of the Facet starts: each sharer's WEIGHT is read (R270). -/
def newCredits (l : List Sharer) : Tab Nat := l.foldl (fun c x => tset c x.vi.toNat x.weight) []

/-- The sharer with the largest credit, ties to the lowest VI. -/
def topSharer (l : List (Vi × Nat)) : Option Vi :=
  (l.foldl (fun (b : Option (Vi × Nat)) x => match b with
    | none => some x
    | some y => if x.2 > y.2 ∨ (x.2 = y.2 ∧ x.1.toNat < y.1.toNat) then some x else some y) none).map (·.1)

/-- The instance that issues next on a Facet with these sharers, and the credits of the round it issues in (R270). -/
def arbiter (s : State) (t : Tid) (l : List Sharer) : Option (Vi × Tab Nat) :=
  let ready := l.filter (fun x => sharerReady s t x.vi)
  let e := ready.filter (fun x => decide (issueCredit s t.facet x.vi > 0))
  let c := if e.isEmpty then newCredits l else tget s.arb t.facet.toNat []
  let e := if e.isEmpty then ready else e
  (topSharer (e.map (fun x => (x.vi, tget c x.vi.toNat 0)))).map (fun v => (v, c))

/-- The thread's instance issues next on its Facet: the state with its credit spent, or `none` where another sharer has the turn. A
dedicated Facet has no arbiter. -/
def takeTurn (s : State) (t : Tid) (vi : Vi) : Option State :=
  match getClu s (cluOf t.facet) with
  | .none => some s
  | .dedicated _ => some s
  | .shared l =>
    match arbiter s t l with
    | none => none
    | some (v, c) =>
      if v = vi then some { s with arb := tset s.arb t.facet.toNat (tset c vi.toNat (tget c vi.toNat 0 - 1)) } else none

/-- The fetch of the instruction at PC (R119): state after the read, and the trap it raises. -/
def fetchFault (s : State) (th : Thread) : State × Option (Nat × Word) :=
  match translate s th.vi th.pc 8 .ex with
  | .dev pa _ =>
    let s := touchBlocks s pa 8 (some th.vi)
    (s, if anyPoison s pa 8 then some (5, th.pc) else none)
  | _ => (s, some (4, th.pc))

/-- The instruction of a thread that has its turn issues: `s` is the state before, `s1` with its credit spent. An instruction that is held
after all (R76) leaves the state as it was. -/
def issueNow (t : Tid) (c : Cls) (wf : Bool) (priv : Nat) (word : Word) (body : State → Thread → Eff) (s : State) (th : Thread)
    (s1 : State) : State :=
  let (s1, ff) := fetchFault s1 th
  match ff with
  | some (cause, tval) => settle (takeTrap s1 t th cause tval false)
  | none =>
    if !wf then settle (takeTrap s1 t th 1 word false)
    else if th.priv < priv then settle (takeTrap s1 t th 2 word false)
    else match body s1 th with
      | .hold => s
      | .trap cause tval => settle (takeTrap s1 t th cause tval false)
      | .ends => endThread (countIssue s1 t.facet th.vi c.major) t th 0
      | .waits a b =>
        let s1 := countIssue s1 t.facet th.vi c.major
        if waitHolds th a.toNat b.toNat then settle (finishWait s1 t th a.toNat b.toNat)
        else putThr s1 t { th with st := .waiting a b }
      | .ok s' th' ws g after =>
        let s' := countIssue s' t.facet th.vi c.major
        let th' := advanceSlot (goNext th' g) ws
        let s' := putThr (nextFree s') t th'
        match after with
        | some (cause, tval) => settle (takeTrap s' t th' cause tval false)
        | none => settle (stepTrap s' t th.sstep)

/-- Issue of one instruction by a READY thread: holds, the arbiter of a shared Facet, fetch, ILLEGAL, PRIVILEGE, then the instruction
itself (R76, R102-R105, R270). A command for a thread that cannot issue it now changes nothing; where another sharer has the turn it waits,
and only the draw count goes on. -/
def issue (t : Tid) (c : Cls) (wf : Bool) (priv : Nat) (word : Word) (body : State → Thread → Eff) (s : State) :
    Host.Outcome State Fault Refusal :=
  match getThr s t with
  | none => .next s
  | some th =>
    if th.st ≠ .ready ∨ !facetRuns s t.facet ∨ held s t th c then .next s
    else match takeTurn s t th.vi with
      | none => .next (nextFree s)
      | some s1 => .next (issueNow t c wf priv word body s th s1)

/-- An instruction that only writes registers. -/
def justWr (s : State) (th : Thread) (ws : List Wr) : Eff := .ok s th ws .on none

/-- A load-class operation is issued: it joins the thread's loads. -/
def addLoad (th : Thread) (act : Act) (dest : Option Dest) : Thread :=
  { th with
    loads := th.loads ++ [{ id := th.nextOp, act := act, dest := dest }], nextOp := th.nextOp + 1,
    pf := th.pf.map (fun p => { p with ldist := p.ldist.map (· + 1) }) }

/-- A store-class operation is issued. -/
def addStore (th : Thread) (act : Act) : Thread :=
  { th with
    stores := th.stores ++ [{ id := th.nextOp, act := act, dest := none }], nextOp := th.nextOp + 1,
    pf := th.pf.map (fun p => { p with sdist := p.sdist.map (· + 1) }) }

/-- A general register as the destination of a load; g0 discards. -/
def destG (r : Reg) : Option Dest := some ⟨.gen, r, 0xFF⟩

end Sys2Proof.Machine
end

