-- ==== Sys2Proof/Machine/MemInstr.lean ====
section
/-! DEFINITION. Memory instructions (R93, R101, R120-R128) and thread accesses to other devices (R430, R431). -/

namespace Sys2Proof.Machine

/-! ## The Facet store (R120) -/

/-- Bytes of the Facet store a thread may address. -/
def fsSize (s : State) (th : Thread) : Nat :=
  if th.handler then bits (rget s (viReg th.vi 0x80)) 24 16 * 1024
  else ((getLaunch s th.launch).map (fun l => l.d.storeKib.toNat)).getD 0 * 1024

/-- Every byte of the access lies in the allocation. -/
def fsIn (s : State) (th : Thread) (a : Word) (n : Nat) : Bool := decide (a.toNat + n ≤ fsSize s th)

/-- The allocation's bytes. -/
def fsMem (s : State) (t : Tid) (th : Thread) : Memory := tget s.fstore (accKey (accLaunch th) t.facet) []
def fsByte (s : State) (t : Tid) (th : Thread) (a : Nat) : Byte := (fsMem s t th).byte a
def fsBytes (s : State) (t : Tid) (th : Thread) (a n : Nat) : List Byte := (fsMem s t th).bytes a n
def fsPut (s : State) (t : Tid) (th : Thread) (a : Nat) (d : List Byte) : State :=
  { s with fstore := tset s.fstore (accKey (accLaunch th) t.facet) ((fsMem s t th).puts a d) }

/-! ## Accesses to other devices (R430) -/

/-- What a load-class access reads: place in the access, instance address, bytes. -/
def actReads : Act → List (Nat × Word × Nat)
  | .ldScalar a n _ => [(0, a, n)]
  | .ldLanes w l => l.map (fun p => (p.1, p.2, w))
  | .rspop a => [(0, a, 72)]
  | .eamerge a _ => [(0, a, 544)]
  | .launch a => [(0, a, 64)]
  | .stLanes _ _ => [] | .amo _ _ _ _ _ _ => [] | .sync _ _ _ => [] | .evwait _ => [] | .tresume _ => []
  | .tendOther _ _ => [] | .sysrd _ => [] | .syswr _ _ => [] | .evpost _ _ => []

/-- The remote part of a list of reads, in runs of at most 128 bytes (R430); `fuel` bounds the cutting of long runs. -/
def joinReads : List (Nat × Word × Nat) → List (Nat × Word × Nat)
  | [] => []
  | (o, a, n) :: l => match joinReads l with
    | (o', a', n') :: r =>
      if o' = o + n ∧ a' = a + BitVec.ofNat 64 n ∧ n + n' ≤ 128 then (o, a, n + n') :: r else (o, a, n) :: (o', a', n') :: r
    | [] => [(o, a, n)]

def cutRead : Nat → Nat × Word × Nat → List (Nat × Word × Nat)
  | 0, r => [r]
  | fuel + 1, (o, a, n) => if n ≤ 128 then [(o, a, n)] else (o, a, 128) :: cutRead fuel (o + 128, a + 128, n - 128)

/-- Device and offset of an address that names another device. -/
def remoteOf (s : State) (vi : Vi) (a : Word) (n : Nat) : Option (BitVec 16 × Nat) :=
  match translate s vi a n .rd with
  | .remote d off => some (d, off)
  | _ => none

/-- First run of an access that names another device no QP carries (R431). -/
def noQp (s : State) (vi : Vi) (l : List (Nat × Word × Nat × List Byte)) : Option Word :=
  (l.find? (fun r => match remoteOf s vi r.2.1 r.2.2.1 with
    | some (dev, _) => (threadQp s vi dev).isNone
    | none => false)).map (fun r => r.2.1)

/-- Send the messages of an access: one for each run. -/
def sendRuns (s : State) (t : Tid) (vi : Vi) (op : Nat) (opc aux : BitVec 8) :
    List (Nat × Word × Nat × List Byte) → State × Nat
  | [] => (s, 0)
  | (o, a, n, d) :: l =>
    match remoteOf s vi a n with
    | none => sendRuns s t vi op opc aux l
    | some (dev, off) =>
      match threadQp s vi dev with
      | none => sendRuns s t vi op opc aux l
      | some (k, q) =>
        let (s, c) := sendRuns (sendThread s k q t op opc o off n aux d) t vi op opc aux l
        (s, c + 1)

/-- The runs of an access, with their opcode and its modifier. -/
def accRuns (s : State) (vi : Vi) (a : Act) : BitVec 8 × BitVec 8 × List (Nat × Word × Nat × List Byte) :=
  match a with
  | .stLanes _ l => (0x01, 0, (joinRuns l).map (fun p => (0, p.1, p.2.length, p.2)))
  | .amo op w a x y _ =>
    (0x04, BitVec.ofNat 8 (op.code * 16 + b2n (decide (w = 8))), [(0, a, w, toBytes 8 x.toNat ++ toBytes 8 y.toNat)])
  | a =>
    let rd := (joinReads ((actReads a).filter (fun r => (remoteOf s vi r.2.1 r.2.2).isSome))).flatMap (cutRead 8)
    (0x02, 0, rd.map (fun r => (r.1, r.2.1, r.2.2, [])))

/-- The first lane of a store that faults at this device (R123). -/
def actFault (s : State) (vi : Vi) (a : Act) : Option Word :=
  match a with
  | .stLanes _ l => storeFault s vi l
  | _ => none

/-- An operation of the thread has been issued: its messages to other devices are sent, or it faults at once. No lane of a store is sent
where one of its lanes here has faulted, and no message where one of them has no QP (R123, R431). -/
def sendRemote (s : State) (t : Tid) (th : Thread) (o : Op) : State × Thread :=
  let (opc, aux, runs) := accRuns s th.vi o.act
  if o.done then (s, th)
  else match noQp s th.vi runs with
    | some a => (s, setOp th { o with done := true, fault := some (false, a) })
    | none =>
      let (s, c) := sendRuns s t th.vi o.id opc aux runs
      (s, if c = 0 then th else setOp th { o with parts := c })

/-! ## Order of a thread's own accesses (R124) -/

/-- What an operation accesses: instance address and bytes. -/
def actSpans (a : Act) : List (Word × Nat) :=
  match a with
  | .stLanes _ l => l.map (fun p => (p.1, p.2.length))
  | .amo _ w a _ _ _ => [(a, w)]
  | _ => (actReads a).map (fun r => r.2)

/-- The spans that lie in the own device's memory, by offset in the instance's memory. -/
def ownSpans (s : State) (a : Act) : List (Nat × Nat) :=
  (actSpans a).filterMap (fun p =>
    if !bit p.1 50 && (bit p.1 49 || addrDev p.1 == ownDev s) then some (bits p.1 41 0, p.2) else none)

def spansMeet (a b : List (Nat × Nat)) : Bool :=
  a.any (fun x => b.any (fun y => decide (x.1 < y.1 + y.2) && decide (y.1 < x.1 + x.2)))

/-- Memory has performed the operation. -/
def performed (s : State) (t : Tid) (o : Op) : Bool :=
  o.done || (o.perf && !s.heldW.any (fun h => h.writer == .thread t o.id))

/-- An earlier access of the thread to overlapping bytes of its own device is not performed yet (R124). -/
def behind (s : State) (t : Tid) (th : Thread) (o : Op) : Bool :=
  (th.loads ++ th.stores).any (fun x => decide (x.id < o.id) && isMemAct x.act && !performed s t x
    && spansMeet (ownSpans s x.act) (ownSpans s o.act))

/-- The access issues a request to host memory: a host atomic faults and issues none (R128, R192). -/
def asksHost (a : Act) : Bool :=
  match a with
  | .amo _ _ _ _ _ _ => false
  | a => (actSpans a).any (fun p => bit p.1 50)

/-- The operation reads, so that what answers it may arrive poisoned (R320). -/
def isLoadAct (a : Act) : Bool := match a with | .stLanes _ _ => false | _ => true

/-- The bytes other devices answered, in the order of their places in the access. -/
def gotBytes (o : Op) : List Byte := (o.got.mergeSort (fun a b => decide (a.1 ≤ b.1))).flatMap (·.2)

/-- A message of a thread access is answered: `d` are the bytes of a response (R421, R431). The access completes with its last
message. -/
def remoteDone (s : State) (t : Tid) (op place : Nat) (d : List Byte) (fault : Option (Bool × Word)) : State :=
  match getThr s t with
  | none => s
  | some th =>
    match (th.loads ++ th.stores).find? (fun o => o.id == op && !o.done && decide (o.parts > 0)) with
    | none => s
    | some o =>
      let o := { o with parts := o.parts - 1, got := o.got ++ [(place, d)], fault := o.fault.orElse (fun _ => fault) }
      if o.parts > 0 then putThr s t (setOp th o)
      else match o.fault with
        | some _ => putThr s t (setOp th { o with done := true })
        | none =>
          -- the part in the own device's memory keeps its order (R124)
          if behind s t th o then putThr s t (setOp th o)
          else
            let (s, r) := performAct s t th o 0 (gotBytes o)
            putThr s t (setOp th { o with done := !r.wait, perf := true, res := r.res, fault := r.fault })

/-! ## Counters by target (R587) -/

/-- Target of an access: own stack 0, another column of the quadrant 1, another quadrant 2, another device 3, host 4. -/
def targetOf (s : State) (vi : Vi) (f : BitVec 10) (a : Word) (n : Nat) (k : AccKind) : Option Nat :=
  match translate s vi a n k with
  | .fault => none
  | .host _ => some 4
  | .remote _ _ => some 3
  | .dev pa _ =>
    let st := stackOf s pa
    some (if st = colOf f then 0 else if st / 8 = f.toNat / 256 then 1 else 2)

def countTarget (s : State) (t : Tid) (vi : Vi) (base : Nat) (a : Word) (n : Nat) (k : AccKind) : State :=
  match targetOf s vi t.facet a n k with
  | some i => countEv s t.facet vi (base + i) 1
  | none => s

/-! ## Issuing loads and stores -/

/-- A memory operation as it is issued now: a request to the host is sent while Bus Master Enable lets it (R326), and a store one of whose
lanes here faults has faulted (R123). -/
def opNow (s : State) (th : Thread) (act : Act) (dest : Option Dest) : Op :=
  let f := actFault s th.vi act
  { id := th.nextOp, act := act, dest := dest, done := f.isSome, fault := f.map (fun a => (false, a)),
    sent := !asksHost act || busMaster s th.vi, sentAt := s.devTime }

/-- The thread with one more load-class memory operation outstanding. -/
def withLoad (s : State) (th : Thread) (act : Act) (dest : Option Dest) : Thread := setOp (addLoad th act dest) (opNow s th act dest)
/-- The thread with one more store-class memory operation outstanding. -/
def withStore (s : State) (th : Thread) (act : Act) : Thread := setOp (addStore th act) (opNow s th act none)

/-- A load-class memory operation issues. `a`, `n` name the address its counter and target are taken from. -/
def startLoad (s : State) (t : Tid) (th : Thread) (act : Act) (dest : Option Dest) (a : Word) (n : Nat) (k : AccKind) : Eff :=
  let (s, th) := sendRemote (countTarget s t th.vi 0x40 a n k) t (withLoad s th act dest) (opNow s th act dest)
  .ok s th [] .on none

/-- A store-class memory operation issues. -/
def startStore (s : State) (t : Tid) (th : Thread) (act : Act) (a : Word) (n : Nat) (k : AccKind) : Eff :=
  let (s, th) := sendRemote (countTarget s t th.vi 0x48 a n k) t (withStore s th act) (opNow s th act none)
  .ok s th [] .on none

/-- The address is a multiple of the access size (R122). -/
def aligned (a : Word) (n : Nat) : Bool := decide (a.toNat % n = 0)

/-- Issue of a load. -/
def memLoad (t : Tid) (wf : Bool) (word : Word) (body : State → Thread → Eff) (s : State) : Host.Outcome State Fault Refusal :=
  issue t { major := 2, ld := true } wf 0 word body s
/-- Issue of a store. -/
def memStore (t : Tid) (wf : Bool) (word : Word) (body : State → Thread → Eff) (s : State) : Host.Outcome State Fault Refusal :=
  issue t { major := 2, st := true } wf 0 word body s
/-- Issue of a Facet store access. -/
def memFs (t : Tid) (word : Word) (body : State → Thread → Eff) (s : State) : Host.Outcome State Fault Refusal :=
  issue t { major := 2 } true 0 word (fun s th => body (countStore s t.facet th.vi) th) s

def execLd (t : Tid) (fw : LdW) (d a : Reg) (imm : Imm) (s : State) : Host.Outcome State Fault Refusal :=
  memLoad t true (encI 0x10 fw.fn d a imm) (fun s th =>
    let ea := rdG s th a + immS imm
    if !aligned ea fw.size then .trap 3 ea
    else startLoad s t th (.ldScalar ea fw.size fw.signed) (destG d) ea fw.size .rd) s

def execSt (t : Tid) (fw : StW) (d a : Reg) (imm : Imm) (s : State) : Host.Outcome State Fault Refusal :=
  memStore t true (encI 0x10 fw.fn d a imm) (fun s th =>
    let ea := rdG s th a + immS imm
    if !aligned ea fw.size then .trap 3 ea
    else startStore s t th (.stLanes fw.size [(ea, toBytes fw.size (rdG s th d).toNat)]) ea fw.size .wr) s

/-- Bytes and number of the lanes of a vector memory access. The lanes of an MX type are its bytes. Assumption 15 (DEDUCED). -/
def memLane (et : EType) : Nat := if et.isMx then 1 else et.width / 8
def memLanes (et : EType) : Nat := 128 / memLane et

/-- Active lane numbers of a vector memory access (R78, R123). -/
def activeLanes (th : Thread) (et : EType) (mk : MReg) : List Nat := (List.range (memLanes et)).filter (active (rdM th mk))

/-- The bytes of lane k of a register. -/
def laneOf (w : Nat) (v : BitVec 1024) (k : Nat) : List Byte := toBytes w (v.toNat >>> (8 * w * k))

/-- A vector access whose address is not a multiple of the element width (R122); one with no active lane accesses nothing and raises nothing
(R123; DEDUCED, Assumption 24). -/
def misaligned (th : Thread) (f : VMem) (ea : Word) : Bool := !aligned ea (memLane f.et) && !(activeLanes th f.et f.km).isEmpty

/-- The destination of a vector load: the bytes of its active lanes (R79). -/
def destV (th : Thread) (et : EType) (vd : VReg) (mk : MReg) : Dest :=
  ⟨.vec, vd.setWidth 6, laneBytes (8 * memLane et) (memLanes et) (rdM th mk)⟩

def execVld (t : Tid) (f : VMem) (s : State) : Host.Outcome State Fault Refusal :=
  memLoad t true (encVM 0x11 0x00 f.et f.vd f.km 0 f.a f.imm) (fun s th =>
    let ea := rdG s th f.a + immS f.imm
    let w := memLane f.et
    if misaligned th f ea then .trap 3 ea
    else startLoad s t th (.ldLanes w ((activeLanes th f.et f.km).map (fun k => (w * k, ea + BitVec.ofNat 64 (w * k)))))
      (some (destV th f.et f.vd f.km)) ea w .rd) s

def execVst (t : Tid) (f : VMem) (s : State) : Host.Outcome State Fault Refusal :=
  memStore t true (encVM 0x11 0x01 f.et f.vd f.km 0 f.a f.imm) (fun s th =>
    let ea := rdG s th f.a + immS f.imm
    let w := memLane f.et
    let v := rdV s th f.vd
    if misaligned th f ea then .trap 3 ea
    else startStore s t th
      (.stLanes w ((activeLanes th f.et f.km).map (fun k => (ea + BitVec.ofNat 64 (w * k), laneOf w v k)))) ea w .wr) s

/-- Addresses of a gather or scatter: lane and address (R121). -/
def idxLanes (s : State) (th : Thread) (f : VIdx) : List (Nat × Word) :=
  let w := memLane f.et
  (activeLanes th f.et f.km).map (fun k => (k, rdG s th f.a + BitVec.ofNat 64 (lane (8 * w) (rdV s th f.vx) k)))

def execVldx (t : Tid) (f : VIdx) (s : State) : Host.Outcome State Fault Refusal :=
  memLoad t true (encVM 0x11 0x02 f.et f.vd f.km f.vx f.a 0) (fun s th =>
    let w := memLane f.et
    let l := idxLanes s th f
    match l.find? (fun p => !aligned p.2 w) with
    | some p => .trap 3 p.2
    | none => startLoad s t th (.ldLanes w (l.map (fun p => (w * p.1, p.2)))) (some (destV th f.et f.vd f.km))
        ((l.head?.map (·.2)).getD 0) w .rd) s

def execVstx (t : Tid) (f : VIdx) (s : State) : Host.Outcome State Fault Refusal :=
  memStore t true (encVM 0x11 0x03 f.et f.vd f.km f.vx f.a 0) (fun s th =>
    let w := memLane f.et
    let v := rdV s th f.vd
    let l := idxLanes s th f
    match l.find? (fun p => !aligned p.2 w) with
    | some p => .trap 3 p.2
    | none => startStore s t th (.stLanes w (l.map (fun p => (p.2, laneOf w v p.1)))) ((l.head?.map (·.2)).getD 0) w .wr) s

def execLds (t : Tid) (fw : LdW) (d a : Reg) (imm : Imm) (s : State) : Host.Outcome State Fault Refusal :=
  memFs t (encI 0x12 fw.fn d a imm) (fun s th =>
    let ea := rdG s th a + immS imm
    if !aligned ea fw.size then .trap 3 ea
    else if !fsIn s th ea fw.size then .trap 4 ea
    else
      let v := ofBytes (fsBytes s t th ea.toNat fw.size)
      justWr s th [wrG 3 d (if fw.signed then sextN (8 * fw.size) v else BitVec.ofNat 64 v)]) s

def execSts (t : Tid) (fw : StW) (d a : Reg) (imm : Imm) (s : State) : Host.Outcome State Fault Refusal :=
  memFs t (encI 0x12 fw.fn d a imm) (fun s th =>
    let ea := rdG s th a + immS imm
    if !aligned ea fw.size then .trap 3 ea
    else if !fsIn s th ea fw.size then .trap 4 ea
    else justWr (fsPut s t th ea.toNat (toBytes fw.size (rdG s th d).toNat)) th []) s

/-- First active lane that leaves the Facet store allocation (R120, R123). -/
def fsFault (s : State) (th : Thread) (ea : Word) (w : Nat) (l : List Nat) : Option Word :=
  (l.map (fun k => ea + BitVec.ofNat 64 (w * k))).find? (fun a => !fsIn s th a w)

def execVlds (t : Tid) (f : VMem) (s : State) : Host.Outcome State Fault Refusal :=
  memFs t (encVM 0x12 0x10 f.et f.vd f.km 0 f.a f.imm) (fun s th =>
    let ea := rdG s th f.a + immS f.imm
    let w := memLane f.et
    let l := activeLanes th f.et f.km
    if misaligned th f ea then .trap 3 ea
    else match fsFault s th ea w l with
      | some a => .trap 4 a
      | none =>
        let v := l.foldl (fun r k =>
          r + ofBytes (fsBytes s t th (ea + BitVec.ofNat 64 (w * k)).toNat w) <<< (8 * w * k)) 0
        justWr s th [wrV 3 f.vd (destV th f.et f.vd f.km).bytes (BitVec.ofNat 1024 v)]) s

def execVsts (t : Tid) (f : VMem) (s : State) : Host.Outcome State Fault Refusal :=
  memFs t (encVM 0x12 0x11 f.et f.vd f.km 0 f.a f.imm) (fun s th =>
    let ea := rdG s th f.a + immS f.imm
    let w := memLane f.et
    let v := rdV s th f.vd
    let l := activeLanes th f.et f.km
    if misaligned th f ea then .trap 3 ea
    else match fsFault s th ea w l with
      | some a => .trap 4 a
      | none => justWr (l.foldl (fun s k => fsPut s t th (ea + BitVec.ofNat 64 (w * k)).toNat (laneOf w v k)) s) th []) s

def execAmo (t : Tid) (op : AmoOp) (dbl n : Bool) (d a b c : Reg) (s : State) : Host.Outcome State Fault Refusal :=
  let word := encT 0x13 (b2n dbl * 32 + b2n n * 16 + op.code) d a b c
  let w := if dbl then 8 else 4
  issue t { major := 2, ld := !n, st := n } (okAmo op n d c) 0 word (fun s th =>
    let ea := rdG s th a
    let act := Act.amo op w ea (rdG s th b) (rdG s th c) (!n)
    if !aligned ea w then .trap 3 ea
    else if n then startStore s t th act ea w .rdwr else startLoad s t th act (destG d) ea w .rdwr) s

/-- A record of 8-byte words as the lanes of a store, so that each word is checked under its own granule's entry (R190). -/
def wordLanes (a : Word) (d : List Byte) : List (Word × List Byte) :=
  (List.range (d.length / 8)).map (fun i => (a + BitVec.ofNat 64 (8 * i), (d.drop (8 * i)).take 8))

def execRspush (t : Tid) (a : Reg) (imm : Imm) (s : State) : Host.Outcome State Fault Refusal :=
  memStore t true (encI 0x14 0x00 0 a imm) (fun s th =>
    let ea := rdG s th a + immS imm
    if !aligned ea 8 then .trap 3 ea
    else
      let d := if th.rsBusy then toBytes 72 (freeBits s 576 4000).toNat
        else th.rs.toList.flatMap (fun w => toBytes 8 w.toNat) ++ toBytes 8 th.rsp.toNat
      startStore s t { th with rsp := th.rsp &&& 0x700 } (.stLanes 8 (wordLanes ea d)) ea 8 .wr) s

def execRspop (t : Tid) (a : Reg) (imm : Imm) (s : State) : Host.Outcome State Fault Refusal :=
  memLoad t true (encI 0x14 0x01 0 a imm) (fun s th =>
    let ea := rdG s th a + immS imm
    if !aligned ea 8 then .trap 3 ea else startLoad s t th (.rspop ea) none ea 8 .rd) s

end Sys2Proof.Machine
end

