-- ==== Sys2Proof/Machine/Vector.lean ====
section
/-! DEFINITION. Vector instructions (R137-R145, R151, R157-R164). -/

namespace Sys2Proof.Machine

/-- Issue of a vector instruction; `n` lane operations of type `et` are counted (R587). -/
def vector (t : Tid) (wf : Bool) (word : Word) (et : EType) (n : Nat) (body : State → Thread → Eff) (s : State) :
    Host.Outcome State Fault Refusal :=
  issue t { major := 4 } wf 0 word (fun s th => body (countEv s t.facet th.vi (0x10 + et.code) n) th) s

/-- The writes of an instruction with its flags: V with `TCTL.VT` traps with OVERFLOW, an enabled exception with FP_EXCEPTION
(R141, R151); raised exceptions are counted (R587). -/
def flagged (s : State) (t : Tid) (th : Thread) (flags : Word) (ws : List Wr) : Eff :=
  if (flags &&& fV != 0) && th.vt then .trap 7 0
  else if flags &&& th.fpt ≠ 0 then .trap 8 (flags &&& 0x1F00)
  else
    let c (s : State) (f : Word) (i : Nat) := if flags &&& f != 0 then countEv s t.facet th.vi i 1 else s
    justWr (c (c (c (c s fNV 0x70) fOF 0x71) fUF 0x72) fNX 0x73) th ws

/-- A lane-wise result under the write mask: values and flags of every lane in order (R79, R139, R141). -/
def laneWrite (s : State) (t : Tid) (th : Thread) (lat : Nat) (et : EType) (vd : VReg) (mk : MReg) (l : List (Nat × Word)) : Eff :=
  let m := rdM th mk
  let fl := laneFlags m l
  flagged s t th fl [wrV lat vd (laneBytes et.width et.lanes m) (pack et.width (l.map (·.1))) fl]

/-- Lanes of a three-operand instruction. -/
def lanes2 (s : State) (th : Thread) (f : VOp) (g : Nat → Nat → Nat × Word) : List (Nat × Word) :=
  let w := f.et.width
  let va := rdV s th f.va
  (List.range f.et.lanes).map (fun k => g (lane w va k) (rdVB s th w f.vb k))

/-- Lanes of a two-operand instruction. -/
def lanes1 (s : State) (th : Thread) (f : VUn) (g : Nat → Nat × Word) : List (Nat × Word) :=
  let w := f.et.width
  let va := rdV s th f.va
  (List.range f.et.lanes).map (fun k => g (lane w va k))

/-- A lane-wise instruction of two operands. -/
def vec2 (t : Tid) (major fn lat : Nat) (ok : Bool) (f : VOp) (g : Thread → Nat → Nat → Nat × Word) (s : State) :
    Host.Outcome State Fault Refusal :=
  vector t ok (encVOp major fn f) f.et f.et.lanes (fun s th =>
    laneWrite s t th lat f.et f.vd f.km (lanes2 s th f (g th))) s

/-- A lane-wise instruction of one operand. -/
def vec1 (t : Tid) (major fn lat : Nat) (ok : Bool) (f : VUn) (g : Thread → Nat → Nat × Word) (s : State) :
    Host.Outcome State Fault Refusal :=
  vector t ok (encVUn major fn f) f.et f.et.lanes (fun s th =>
    laneWrite s t th lat f.et f.vd f.km (lanes1 s th f (g th))) s

def execVaddI (t : Tid) (sub : Bool) (f : VOp) (s : State) : Host.Outcome State Fault Refusal :=
  vec2 t 0x20 (b2n sub) 2 f.et.isInt f (fun _ a b =>
    let w := f.et.width
    (if sub then (a + 2 ^ w - b) % 2 ^ w else (a + b) % 2 ^ w, 0)) s

def execVadds (t : Tid) (sub : Bool) (f : VOp) (s : State) : Host.Outcome State Fault Refusal :=
  vec2 t 0x20 (2 + b2n sub) 2 f.et.isInt f (fun _ a b =>
    let w := f.et.width
    let x := if sub then sval w a - sval w b else sval w a + sval w b
    (uval w (satS w x), flagIf (!fitsS w x) fV)) s

/-- Lane-wise minimum or maximum, signed or unsigned. -/
def minMax (k : MinMax) (w a b : Nat) : Nat :=
  match k with
  | .min => if sval w a ≤ sval w b then a else b
  | .max => if sval w a ≥ sval w b then a else b
  | .minu => Nat.min a b
  | .maxu => Nat.max a b

def execVminI (t : Tid) (k : MinMax) (f : VOp) (s : State) : Host.Outcome State Fault Refusal :=
  vec2 t 0x20 (4 + k.code) 2 f.et.isInt f (fun _ a b => (minMax k f.et.width a b, 0)) s

def execVlogic (t : Tid) (k : VLog) (f : VOp) (s : State) : Host.Outcome State Fault Refusal :=
  vec2 t 0x20 (8 + k.code) 2 f.et.isInt f (fun _ a b =>
    (match k with
      | .and => Nat.land a b | .or => Nat.lor a b | .xor => Nat.xor a b
      | .andn => Nat.land a (2 ^ f.et.width - 1 - b), 0)) s

/-- Lane shifts by the low 8 bits of the lane of vb (R142, R151). -/
def laneShift (k : VShift) (w a b : Nat) : Nat :=
  let n := b % 256
  match k with
  | .shl => if n ≥ w then 0 else a * 2 ^ n % 2 ^ w
  | .shr => if n ≥ w then 0 else a / 2 ^ n
  | .sra => uval w (sval w a / 2 ^ (Nat.min n w))
  | .rol => let r := n % w; (a * 2 ^ r + a / 2 ^ (w - r)) % 2 ^ w

def execVshift (t : Tid) (k : VShift) (f : VOp) (s : State) : Host.Outcome State Fault Refusal :=
  vec2 t 0x20 (12 + k.code) 2 f.et.isInt f (fun _ a b => (laneShift k f.et.width a b, 0)) s

def execVnegI (t : Tid) (f : VUn) (s : State) : Host.Outcome State Fault Refusal :=
  vec1 t 0x20 0x10 2 f.et.isInt f (fun _ a =>
    let w := f.et.width
    ((2 ^ w - a) % 2 ^ w, flagIf (a == 2 ^ (w - 1)) fV)) s

/-- The comparison of two lanes (R142): result and flags. -/
def laneCmp (k : VCmp) (et : EType) (a b : Nat) : Bool × Word :=
  if et.isInt then
    let w := et.width
    (match k with
      | .eq => a == b
      | .ne => a != b
      | .lt => decide (sval w a < sval w b)
      | .le => decide (sval w a ≤ sval w b)
      | .ltu => decide (a < b)
      | .leu => decide (a ≤ b)
      | .un => false, 0)
  else fcmp et.fmt k a b

/-- Mask bits from truth values, bit 0 first. -/
def maskOf (l : List Bool) : BitVec 128 := BitVec.ofNat 128 (l.foldr (fun b r => b2n b + 2 * r) 0)

def execVcmp (t : Tid) (k : VCmp) (et : EType) (md : MReg) (va : VReg) (vb : VB) (km : MReg) (s : State) :
    Host.Outcome State Fault Refusal :=
  let b := encVB vb
  vector t (okVcmp k et) (encV 0x21 k.code et.code 0 va.toNat b.1 0 km md b.2.1 b.2.2 0) et et.lanes (fun s th =>
    let w := et.width
    let x := rdV s th va
    let m := rdM th km
    let l := (List.range et.lanes).map (fun j => laneCmp k et (lane w x j) (rdVB s th w vb j))
    let fl := laneFlags m (l.map (fun p => (0, p.2)))
    flagged s t th fl [wrM 2 md 0xFFFF (maskOf ((l.zipIdx).map (fun p => p.1.1 && active m p.2))) fl]) s

def execVsel (t : Tid) (et : EType) (vd va vb : VReg) (km : MReg) (s : State) : Host.Outcome State Fault Refusal :=
  vector t (!et.isMx) (encV 0x22 0x00 et.code vd.toNat va.toNat vb.toNat 0 km 0 0 false 0) et et.lanes (fun s th =>
    let w := et.width
    let x := rdV s th va
    let y := rdV s th vb
    let m := rdM th km
    justWr s th [wrV 2 vd (BitVec.allOnes 128)
      (pack w ((List.range et.lanes).map (fun k => if active m k then lane w x k else lane w y k)))]) s

def execVmov (t : Tid) (f : VUn) (s : State) : Host.Outcome State Fault Refusal :=
  vec1 t 0x22 0x01 2 (!f.et.isMx) f (fun _ a => (a, 0)) s

def execVbcast (t : Tid) (et : EType) (vd : VReg) (g : Reg) (km : MReg) (s : State) : Host.Outcome State Fault Refusal :=
  vector t (!et.isMx) (encV 0x22 0x02 et.code vd.toNat 0 0 0 km 0 g false 0) et et.lanes (fun s th =>
    let x := (rdG s th g).toNat % 2 ^ et.width
    laneWrite s t th 3 et vd km ((List.range et.lanes).map (fun _ => (x, 0)))) s

def execVperm (t : Tid) (et : EType) (vd va vb : VReg) (km : MReg) (s : State) : Host.Outcome State Fault Refusal :=
  vector t (!et.isMx) (encV 0x22 0x03 et.code vd.toNat va.toNat vb.toNat 0 km 0 0 false 0) et et.lanes (fun s th =>
    let w := et.width
    let x := rdV s th va
    let y := rdV s th vb
    laneWrite s t th 3 et vd km ((List.range et.lanes).map (fun k => (lane w x (lane w y k % et.lanes), 0)))) s

def execVins (t : Tid) (et : EType) (vd : VReg) (g : Reg) (x : BitVec 7) (km : MReg) (s : State) :
    Host.Outcome State Fault Refusal :=
  vector t (okLane et x) (encV 0x22 0x04 et.code vd.toNat 0 0 0 km 0 g false x.toNat) et 1 (fun s th =>
    let w := et.width
    let one := BitVec.ofNat 128 (2 ^ x.toNat)
    let v := BitVec.ofNat 1024 (((rdG s th g).toNat % 2 ^ w) <<< (w * x.toNat))
    justWr s th [wrV 3 vd (laneBytes w et.lanes (rdM th km &&& one)) v]) s

def execVext (t : Tid) (et : EType) (g : Reg) (va : VReg) (x : BitVec 7) (s : State) : Host.Outcome State Fault Refusal :=
  vector t (okLane et x) (encV 0x22 0x05 et.code 0 va.toNat 0 0 0 0 g false x.toNat) et 1 (fun s th =>
    justWr s th [wrG 3 g (BitVec.ofNat 64 (lane et.width (rdV s th va) x.toNat))]) s

def execVaddF (t : Tid) (k : VArith) (f : VOp) (s : State) : Host.Outcome State Fault Refusal :=
  vec2 t 0x23 k.code 4 f.et.isArith f (fun th a b =>
    match k with
    | .add => fadd f.et.fmt th.rm a b
    | .sub => fsub f.et.fmt th.rm a b
    | .mul => fmul f.et.fmt th.rm a b) s

def execVfma (t : Tid) (f : VOp) (vc : VReg) (s : State) : Host.Outcome State Fault Refusal :=
  vector t f.et.isArith (encVOp 0x23 0x03 f vc) f.et f.et.lanes (fun s th =>
    let w := f.et.width
    let va := rdV s th f.va
    let c := rdV s th vc
    laneWrite s t th 4 f.et f.vd f.km ((List.range f.et.lanes).map (fun k =>
      ffma f.et.fmt th.rm (lane w va k) (rdVB s th w f.vb k) (lane w c k)))) s

def execVminF (t : Tid) (max : Bool) (f : VOp) (s : State) : Host.Outcome State Fault Refusal :=
  vec2 t 0x23 (4 + b2n max) 4 f.et.isArith f (fun _ a b => fminmax f.et.fmt max a b) s

def execVnegF (t : Tid) (abs : Bool) (f : VUn) (s : State) : Host.Outcome State Fault Refusal :=
  vec1 t 0x23 (6 + b2n abs) 4 f.et.isArith f (fun _ a =>
    (if abs then a % 2 ^ (f.et.width - 1) else fnegate f.et.fmt a, 0)) s

/-! ## Multiply-accumulate (R143) -/

/-- Destination type, destination lanes and products per lane of `vmac` (R143). -/
def macShape (et : EType) : EType × Nat × Nat :=
  match et with
  | .i8 => (.i32, 32, 4)
  | .e4m3 => (.f32, 32, 4) | .e5m2 => (.f32, 32, 4) | .mxfp8e4 => (.f32, 32, 4) | .mxfp8e5 => (.f32, 32, 4)
  | .f16 => (.f32, 32, 2) | .bf16 => (.f32, 32, 2)
  | .f32 => (.f32, 32, 1)
  | .f64 => (.f64, 16, 1)
  | .mxfp6e2 => (.f32, 32, 5) | .mxfp6e3 => (.f32, 32, 5)
  | .mxfp4 => (.f32, 32, 8)
  | .i16 => (.i32, 32, 1) | .i32 => (.i32, 32, 1) | .i64 => (.i64, 16, 1)

/-- Value of element k of a source: an MX element carries the scale in byte `base` + block of the mask register (R138, R156). -/
def srcVal (th : Thread) (et : EType) (mk : MReg) (base : Nat) (v k : Nat) : FVal :=
  if et.isMx then mxVal et.fmt ((rdM th mk).toNat >>> (8 * (base + k / 32)) % 256) v else fdec et.fmt v

/-- One floating-point lane of `vmac`: operands of its group in order, then the old value (R143, R159, R160). -/
def macLane (src dst : Fmt) (rm : Nat) (ps : List (FVal × FVal)) (old : Nat) : Nat × Word :=
  let ops := ps.flatMap (fun p => [p.1, p.2])
  let isN (v : FVal) : Bool := match v with | .nan _ _ _ => true | _ => false
  let sig := ops.any (fun v => match v with | .nan _ _ q => q | _ => false) || isSnan dst old
  let prods := ps.map (fun p => if isN p.1 || isN p.2 then none else some (fmulVal p.1 p.2))
  let bad := prods.any (fun p => match p with | some none => true | _ => false)
  let good := prods.filterMap (fun p => match p with | some (some v) => some v | _ => none)
  let terms := fdec dst old :: good
  let clash := terms.any (fun v => v == .inf false) && terms.any (fun v => v == .inf true)
  let nv := flagIf (sig || bad || clash) fNV
  match ops.find? isN with
  | some (.nan n p _) => (nanInto src dst n p, nv)
  | _ =>
    if isNan dst old then (quiet dst old, nv)
    else if bad then (dst.qnan, nv)
    else
      let (r, fl) := fsum dst rm (good ++ [fdec dst old])
      (r, fl ||| nv)

def execVmac (t : Tid) (f : VOp) (s : State) : Host.Outcome State Fault Refusal :=
  let (dt, n, k) := macShape f.et
  vector t (okVmac f.et) (encVOp 0x24 0x00 f) f.et (n * k) (fun s th =>
    let w := f.et.width
    let va := rdV s th f.va
    let old := rdV s th f.vd
    let m := if f.et.isMx then BitVec.allOnes 128 else rdM th f.km
    let l := (List.range n).map (fun j =>
      let es := (List.range k).map (fun i => k * j + i)
      if f.et = .i8 then
        let x := es.foldl (fun a e => a + sval 8 (lane 8 va e) * sval 8 (rdVB s th 8 f.vb e)) (sval 32 (lane 32 old j))
        (uval 32 x, (0 : Word))
      else
        macLane f.et.fmt dt.fmt th.rm (es.map (fun e =>
          (srcVal th f.et f.km 0 (lane w va e) e, srcVal th f.et f.km 8 (rdVB s th w f.vb e) e))) (lane dt.width old j))
    let fl := laneFlags m l
    flagged s t th fl [wrV 4 f.vd (laneBytes dt.width n m) (pack dt.width (l.map (·.1))) fl]) s

def execVmulI (t : Tid) (f : VOp) (s : State) : Host.Outcome State Fault Refusal :=
  vec2 t 0x24 0x01 4 f.et.isInt f (fun _ a b => (a * b % 2 ^ f.et.width, 0)) s

/-! ## Conversions (R144, R161-R163) -/

/-- A value as a conversion takes it: an integer, or a floating-point or MX element. -/
def cvtVal (th : Thread) (f : VCvt) (uns : Bool) (v k : Nat) : FVal :=
  if f.src.isInt then
    let x : Int := if uns then (v : Int) else sval f.src.width v
    .fin (decide (x < 0)) x.natAbs 0
  else srcVal th f.src f.km 0 v k

/-- One element converted to a destination that is not MX (R151, R161). -/
def cvtOne (th : Thread) (f : VCvt) (uns : Bool) (v k : Nat) : Nat × Word :=
  if f.src.isInt && f.et.isInt then
    let w := f.et.width
    if uns then (if v < 2 ^ w then (v, 0) else (2 ^ w - 1, fV))
    else
      let x := sval f.src.width v
      (uval w (satS w x), flagIf (!fitsS w x) fV)
  else if f.et.isInt then ftoi th.rm f.et.width (!uns) (cvtVal th f uns v k)
  else fconv f.src.fmt f.et.fmt th.rm (cvtVal th f uns v k)

/-- First source and first destination element, and the number of elements (R144). -/
def cvtRange (f : VCvt) : Nat × Nat × Nat :=
  let n := Nat.min f.et.lanes f.src.lanes
  if f.et.lanes > f.src.lanes then (0, f.p.toNat * n, n) else (f.p.toNat * n, 0, n)

/-- The blocks of a list of values, 32 elements each. -/
def blocks32 : Nat → List FVal → List (List FVal)
  | 0, _ => []
  | fuel + 1, l => if l.isEmpty then [] else l.take 32 :: blocks32 fuel (l.drop 32)

/-- A conversion: the lanes it writes, the scales of an MX destination, and its flags. -/
def convert (s : State) (t : Tid) (th : Thread) (f : VCvt) (uns : Bool) : Eff :=
  let (s0, d0, n) := cvtRange f
  let va := rdV s th f.va
  let sw := f.src.width
  let dw := f.et.width
  let place (l : List Nat) : BitVec 1024 := BitVec.ofNat 1024 (packNat dw l <<< (dw * d0))
  -- byte enables of destination elements d0 .. d0 + n - 1; the written part of an MX register is whole bytes
  let span : Nat := (2 ^ (dw * n / 8) - 1) <<< (dw * d0 / 8)
  if f.et.isMx then
    let xs := (List.range n).map (fun i => cvtVal th f uns (lane sw va (s0 + i)) (s0 + i))
    let bs := (blocks32 8 xs).map (mxBlock f.et.fmt th.rm)
    let fl := bs.foldl (fun a b => a ||| b.2.2) 0
    let pad : Nat := if dw = 6 then (2 ^ 8 - 1) <<< 120 else 0
    let b0 := d0 / 32
    flagged s t th fl
      [wrV 4 f.vd (BitVec.ofNat 128 (span + pad)) (place (bs.flatMap (·.2.1))) fl,
       wrM 4 f.md (BitVec.ofNat 128 ((2 ^ bs.length - 1) <<< b0))
         (BitVec.ofNat 128 (packNat 8 (bs.map (·.1)) <<< (8 * b0)))]
  else
    let m := if f.src.isMx then BitVec.allOnes 128 else rdM th f.km
    let l := (List.range n).map (fun i => cvtOne th f uns (lane sw va (s0 + i)) (s0 + i))
    let fl := (l.zipIdx).foldl (fun a p => if active m (d0 + p.2) then a ||| p.1.2 else a) 0
    flagged s t th fl
      [wrV 4 f.vd (laneBytes dw f.et.lanes m &&& BitVec.ofNat 128 span) (place (l.map (·.1))) fl]

/-- The word of a conversion: X holds P in [22:20] and the source type in [19:16] (R144). -/
def encCvt (fn : Nat) (f : VCvt) : Word :=
  encV 0x25 fn f.et.code f.vd.toNat f.va.toNat 0 0 f.km f.md 0 false (f.p.toNat * 16 + f.src.code)

def execVcvt (t : Tid) (f : VCvt) (s : State) : Host.Outcome State Fault Refusal :=
  vector t (okCvt f) (encCvt 0 f) f.et (cvtRange f).2.2 (fun s th => convert s t th f false) s

def execVcvtu (t : Tid) (f : VCvt) (s : State) : Host.Outcome State Fault Refusal :=
  vector t (okCvt f) (encCvt 1 f) f.et (cvtRange f).2.2 (fun s th => convert s t th f true) s

/-! ## Reductions (R142, R145) -/

/-- One level of the tree: neighbours added, each sum rounded; flags gathered. -/
def treeLevel (f : Fmt) (rm : Nat) : List Nat → List Nat × Word
  | a :: b :: r =>
    let (v, fl) := fadd f rm a b
    let (l, fl') := treeLevel f rm r
    (v :: l, fl ||| fl')
  | l => (l, 0)

/-- The tree sum: levels until one lane is left; `fuel` bounds the levels. -/
def treeSum (f : Fmt) (rm : Nat) : Nat → List Nat → Word → Nat × Word
  | 0, l, fl => (l.headD 0, fl)
  | fuel + 1, l, fl =>
    if l.length ≤ 1 then (l.headD 0, fl)
    else
      let (l', fl') := treeLevel f rm l
      treeSum f rm fuel l' (fl ||| fl')

def execVredAdd (t : Tid) (et : EType) (g : Reg) (va : VReg) (km : MReg) (s : State) : Host.Outcome State Fault Refusal :=
  vector t (okRed et) (encV 0x26 0x00 et.code 0 va.toNat 0 0 km 0 g false 0) et et.lanes (fun s th =>
    let w := et.width
    let x := rdV s th va
    let m := rdM th km
    if et.isInt then
      let sum := (List.range et.lanes).foldl (fun a k => if active m k then a + sval w (lane w x k) else a) (0 : Int)
      justWr s th [wrG 5 g (BitVec.ofInt 64 sum)]
    else
      let (r, fl) := treeSum et.fmt th.rm 7 ((List.range et.lanes).map (fun k => if active m k then lane w x k else 0)) 0
      flagged s t th fl [wrG 6 g (BitVec.ofNat 64 r) fl]) s

def execVredMinmax (t : Tid) (k : MinMax) (et : EType) (g : Reg) (va : VReg) (km : MReg) (s : State) :
    Host.Outcome State Fault Refusal :=
  vector t et.isInt (encV 0x26 (1 + k.code) et.code 0 va.toNat 0 0 km 0 g false 0) et et.lanes (fun s th =>
    let w := et.width
    let x := rdV s th va
    let m := rdM th km
    let ident := match k with | .min => 2 ^ (w - 1) - 1 | .max => 2 ^ (w - 1) | .minu => 2 ^ w - 1 | .maxu => 0
    let r := (List.range et.lanes).foldl (fun a j => if active m j then minMax k w a (lane w x j) else a) ident
    let v := match k with
      | .min => BitVec.ofInt 64 (sval w r) | .max => BitVec.ofInt 64 (sval w r)
      | .minu => BitVec.ofNat 64 r | .maxu => BitVec.ofNat 64 r
    justWr s th [wrG 5 g v]) s

/-! ## Mask instructions (major 0x27) -/

def execMaskLogic (t : Tid) (k : MaskOp) (md a b : MReg) (s : State) : Host.Outcome State Fault Refusal :=
  issue t { major := 4 } (okMask k b) 0 (encV 0x27 k.code 0 0 a.toNat b.toNat 0 0 md 0 false 0) (fun s th =>
    let x := rdM th a
    let y := rdM th b
    justWr s th [wrM 1 md 0xFFFF (match k with
      | .and => x &&& y | .or => x ||| y | .xor => x ^^^ y | .andn => x &&& ~~~y | .not => ~~~x)]) s

def execMset (t : Tid) (md : MReg) (x : BitVec 7) (g : Reg) (s : State) : Host.Outcome State Fault Refusal :=
  issue t { major := 4 } (okHalf x) 0 (encV 0x27 0x05 0 0 0 0 0 0 md g false x.toNat) (fun s th =>
    justWr s th [wrM 1 md (BitVec.ofNat 128 (0xFF <<< (8 * x.toNat)))
      ((rdG s th g).setWidth 128 <<< (64 * x.toNat))]) s

def execMpop (t : Tid) (et : EType) (g : Reg) (a : MReg) (s : State) : Host.Outcome State Fault Refusal :=
  issue t { major := 4 } true 0 (encV 0x27 0x06 et.code 0 a.toNat 0 0 0 0 g false 0) (fun s th =>
    let n := ((List.range (Nat.min 128 et.lanes)).filter (active (rdM th a))).length
    justWr s th [wrG 2 g (BitVec.ofNat 64 n)]) s

end Sys2Proof.Machine
end

