-- ==== Sys2Proof/Machine/Accumulator.lean ====
section
/-! DEFINITION. Exact-accumulator instructions (R146, R147, R165-R175). -/

namespace Sys2Proof.Machine

/-- An `eamerge` of the thread into the accumulator is outstanding: what reads or clears it waits (R87, R147). -/
def mergeOpen (th : Thread) (ea : EaReg) : Bool :=
  th.loads.any (fun o => !o.done && (match o.act with | .eamerge _ e => e == ea | _ => false))

/-- Issue of an accumulator instruction. -/
def accInstr (t : Tid) (wf : Bool) (word : Word) (body : State → Thread → Eff) (s : State) :
    Host.Outcome State Fault Refusal :=
  issue t { major := 5 } wf 0 word body s

/-- The thread's accumulators are in the fold unit (R166); the accumulator is replaced. -/
def accUpdate (s : State) (t : Tid) (th : Thread) (ea : EaReg) (f : BitVec 4352 → BitVec 4352) : State :=
  let (s, v) := accUse s th.vi (accLaunch th) t.facet
  accPut s (accLaunch th) t.facet (v.set ea.toFin (f v[ea.toFin]))

/-- The thread's accumulators are in the fold unit; the value of one. -/
def accRead (s : State) (t : Tid) (th : Thread) (ea : EaReg) : State × BitVec 4352 :=
  let (s, v) := accUse s th.vi (accLaunch th) t.facet
  (s, v[ea.toFin])

/-- The product of two elements as a term (R168). -/
def prodTerm (a b : FVal) : Term :=
  match a, b with
  | .nan _ _ p, .nan _ _ q => .nan (p || q)
  | .nan _ _ p, _ => .nan p
  | _, .nan _ _ q => .nan q
  | x, y => match fmulVal x y with | none => .nan true | some v => .val v

/-- Elements a fold takes: every one of an MX operand, else the active lanes (R139, R146). -/
def foldLanes (th : Thread) (et : EType) (mk : MReg) : List Nat :=
  (List.range et.lanes).filter (fun k => et.isMx || active (rdM th mk) k)

def execEaadd (t : Tid) (et : EType) (ea : EaReg) (va : VReg) (km : MReg) (s : State) : Host.Outcome State Fault Refusal :=
  accInstr t (okFold et) (encE 0x30 0x00 et.code ea va 0 km 0) (fun s th =>
    let x := rdV s th va
    let ks := foldLanes th et km
    let s := countEv s t.facet th.vi (0x20 + et.code) ks.length
    justWr (accUpdate s t th ea (fun a =>
      ks.foldl (fun a k => accFold a (.val (srcVal th et km 0 (lane et.width x k) k))) a)) th []) s

def execEamac (t : Tid) (et : EType) (ea : EaReg) (va vb : VReg) (km : MReg) (s : State) : Host.Outcome State Fault Refusal :=
  accInstr t (okFold et) (encE 0x30 0x01 et.code ea va vb km 0) (fun s th =>
    let x := rdV s th va
    let y := rdV s th vb
    let w := et.width
    let ks := foldLanes th et km
    let s := countEv s t.facet th.vi (0x20 + et.code) ks.length
    justWr (accUpdate s t th ea (fun a =>
      ks.foldl (fun a k => accFold a (prodTerm (srcVal th et km 0 (lane w x k) k) (srcVal th et km 8 (lane w y k) k))) a)) th []) s

def execEaclr (t : Tid) (ea : EaReg) (s : State) : Host.Outcome State Fault Refusal :=
  accInstr t true (encE 0x31 0x00 0 ea 0 0 0 0) (fun s th =>
    if mergeOpen th ea then .hold else justWr (accUpdate s t th ea (fun _ => 0)) th []) s

def execEaround (t : Tid) (et : EType) (g : Reg) (ea : EaReg) (s : State) : Host.Outcome State Fault Refusal :=
  accInstr t (okRound et) (encE 0x31 0x01 et.code ea 0 0 0 g) (fun s th =>
    if mergeOpen th ea then .hold
    else
      let (s, a) := accRead s t th ea
      let (r, fl) := if et.isInt then accRoundI th.rm a else accRoundF et.fmt th.rm a
      flagged s t th fl [wrG 8 g (BitVec.ofNat 64 r) fl]) s

def execEainfo (t : Tid) (g : Reg) (ea : EaReg) (s : State) : Host.Outcome State Fault Refusal :=
  accInstr t true (encE 0x31 0x02 0 ea 0 0 0 g) (fun s th =>
    if mergeOpen th ea then .hold
    else
      let (s, a) := accRead s t th ea
      justWr s th [wrG 8 g (accInfo a)]) s

def execEamerge (t : Tid) (ea : EaReg) (g : Reg) (s : State) : Host.Outcome State Fault Refusal :=
  issue t { major := 5, ld := true } true 0 (encE 0x32 0x00 0 ea 0 0 0 g) (fun s th =>
    let a := rdG s th g
    if !aligned a 64 then .trap 3 a else startLoad s t th (.eamerge a ea) none a 8 .rd) s

def execEasave (t : Tid) (g : Reg) (ea : EaReg) (s : State) : Host.Outcome State Fault Refusal :=
  issue t { major := 5, st := true } true 0 (encE 0x32 0x01 0 ea 0 0 0 g) (fun s th =>
    let a := rdG s th g
    if !aligned a 64 then .trap 3 a
    else if mergeOpen th ea then .hold
    else
      let (s, v) := accRead s t th ea
      startStore s t th (.stLanes 8 (wordLanes a (accBytes v))) a 8 .wr) s

end Sys2Proof.Machine
end

