-- ==== Sys2Proof/Machine/SystemInstr.lean ====
section
/-! DEFINITION. System instructions at issue (R80, R102, R104, R150, R237, R282). -/

namespace Sys2Proof.Machine

/-- Issue of a system instruction of a profile. -/
def sysInstr (t : Tid) (c : Cls) (wf : Bool) (priv : Nat) (word : Word) (body : State → Thread → Eff) (s : State) :
    Host.Outcome State Fault Refusal :=
  issue t c wf priv word body s

/-- The value `mfs` reads (R80): a special register as visible at the slot. `LCNT` and `SCNT` are the operations outstanding, `PC`
the address of the `mfs`, `DEVT` the time; `RSP` is unspecified while an `rspop` is outstanding (R101). -/
def readSpecial (s : State) (th : Thread) (n : Nat) : Word :=
  match n with
  | 0 => th.tctl
  | 1 => th.tstat
  | 2 => th.brc
  | 3 => th.brs
  | 4 => BitVec.ofNat 64 th.lcnt
  | 5 => BitVec.ofNat 64 th.scnt
  | 6 => if th.rsBusy then freeBits s 64 4001 else th.rsp
  | 7 => th.pc
  | _ => s.devTime

def execMfs (t : Tid) (d : Reg) (sreg : Imm) (s : State) : Host.Outcome State Fault Refusal :=
  sysInstr t { major := 7 } (okSreg sreg) 0 (encI 0x3C 0x00 d 0 sreg) (fun s th =>
    justWr s th [wrG 1 d (readSpecial s th sreg.toNat)]) s

def execMts (t : Tid) (sreg : Imm) (a : Reg) (s : State) : Host.Outcome State Fault Refusal :=
  sysInstr t { major := 7 } (okSreg sreg) 0 (encI 0x3C 0x01 0 a sreg) (fun s th =>
    justWr s th [wrS 2 (sreg.setWidth 6) (rdG s th a)]) s

def execBrk (t : Tid) (imm : Imm) (s : State) : Host.Outcome State Fault Refusal :=
  sysInstr t { major := 7 } true 0 (encI 0x3C 0x02 0 0 imm) (fun s th => .ok s th [] .on (some (0x0D, immS imm))) s

def execHcall (t : Tid) (imm : Imm) (s : State) : Host.Outcome State Fault Refusal :=
  sysInstr t { major := 7 } true 0 (encI 0x3C 0x03 0 0 imm) (fun s th => .ok s th [] .on (some (0x0E, immS imm))) s

def execNop (t : Tid) (s : State) : Host.Outcome State Fault Refusal :=
  sysInstr t { major := 7 } true 0 (encI 0x3C 0x04 0 0 0) (fun s th => justWr s th []) s

def execLaunch (t : Tid) (d a : Reg) (s : State) : Host.Outcome State Fault Refusal :=
  sysInstr t { major := 7, ld := true } true 0 (encI 0x3C 0x05 d a 0) (fun s th =>
    let ea := rdG s th a
    if !aligned ea 64 then .trap 3 ea else startLoad s t th (.launch ea) (destG d) ea 64 .rd) s

def execTresume (t : Tid) (a : Reg) (s : State) : Host.Outcome State Fault Refusal :=
  sysInstr t { major := 7, st := true } true 1 (encI 0x3D 0x00 0 a 0) (fun s th =>
    let ea := rdG s th a
    if !aligned ea 64 then .trap 3 ea else .ok s (addStore th (.tresume ea)) [] .on none) s

def execTendOther (t : Tid) (a d : Reg) (s : State) : Host.Outcome State Fault Refusal :=
  sysInstr t { major := 7, st := true } true 1 (encI 0x3D 0x01 d a 0) (fun s th =>
    .ok s (addStore th (.tendOther (rdG s th a) ((rdG s th d).setWidth 8))) [] .on none) s

/-- `evwait`: at most one is outstanding (R237). The event its thread had taken before is retired (R282). -/
def execEvwait (t : Tid) (d : Reg) (s : State) : Host.Outcome State Fault Refusal :=
  let word := encI 0x3D 0x02 d 0 0
  sysInstr t { major := 7, ld := true } true 1 word (fun s th =>
    if th.loads.any (fun o => !o.done && (match o.act with | .evwait _ => true | _ => false)) then .hold
    else
      let s := match th.evTaken with | some e => retireEvent s th.vi e | none => s
      let s := modInst s th.vi (fun i => { i with evq := i.evq ++ [(Tid.key t, th.nextOp)] })
      .ok s (addLoad { th with evTaken := none } (.evwait word) (destG d)) [] .on none) s

def execSysrd (t : Tid) (d a : Reg) (s : State) : Host.Outcome State Fault Refusal :=
  sysInstr t { major := 7, ld := true } true 2 (encI 0x3E 0x00 d a 0) (fun s th =>
    .ok s (addLoad th (.sysrd (rdG s th a)) (destG d)) [] .on none) s

def execSyswr (t : Tid) (a d : Reg) (s : State) : Host.Outcome State Fault Refusal :=
  sysInstr t { major := 7, st := true } true 2 (encI 0x3E 0x01 d a 0) (fun s th =>
    .ok s (addStore th (.syswr (rdG s th a) (rdG s th d))) [] .on none) s

def execEvpost (t : Tid) (a d : Reg) (s : State) : Host.Outcome State Fault Refusal :=
  sysInstr t { major := 7, st := true } true 2 (encI 0x3E 0x02 d a 0) (fun s th =>
    .ok s (addStore th (.evpost ((rdG s th a).setWidth 8) (rdG s th d))) [] .on none) s

/-- A word with a reserved major code or another reserved encoding traps with ILLEGAL, `TVAL` holding the word (R115). -/
def execIllegalEncoding (t : Tid) (word : Word) (s : State) : Host.Outcome State Fault Refusal :=
  sysInstr t { major := 7 } false 0 word (fun s th => justWr s th []) s

end Sys2Proof.Machine
end

