-- ==== Sys2Proof/Machine/ThreadEvents.lean ====
section
/-! DEFINITION. Ends, saves, resumes and merges of threads (R66-R69, R75, R95, R109-R112, R275-R277, R291), and launch admission. -/

namespace Sys2Proof.Machine

/-! ## Waiting accumulator sets (R68) -/

/-- The thread with an index is resident: its slot. -/
def residentAt (s : State) (launch : Nat) (index : BitVec 32) : Option Tid :=
  (s.threads.find? (fun p => !p.2.handler && p.2.launch == launch && p.2.index == index)).map (fun p => tidOf p.1)

/-- The lowest-indexed resident thread of a launch. -/
def lowestResident (s : State) (launch : Nat) : Option Tid :=
  let ts := s.threads.filter (fun p => !p.2.handler && p.2.launch == launch && p.2.st != .ending)
  (ts.foldl (fun (b : Option (Nat × Thread)) p => match b with
    | none => some p
    | some q => if p.2.index.toNat < q.2.index.toNat then some p else some q) none).map (fun p => tidOf p.1)

/-- A thread of the index is saved and waiting. -/
def isSaved (s : State) (launch : Nat) (index : BitVec 32) : Bool :=
  s.saved.any (fun x => !x.handler && x.launch == launch && x.index == index)

/-- Where a waiting set is merged now: the Facet that has resumed the lowest-indexed thread saved from its Facet, or, when none was
saved from there, the Facet of the launch's lowest-indexed resident thread. An ENDING thread is not taken as the lowest-indexed resident
one, and where that saved thread ends without being resumed the set merges as one from where none was saved (DESIGN CHOICE, Assumption
49). -/
def mergeTarget (s : State) (w : WaitSet) : Option (BitVec 10) :=
  match w.low with
  | some i =>
    match residentAt s w.launch i with
    | some t => some t.facet
    | none => if isSaved s w.launch i then none else (lowestResident s w.launch).map (·.facet)
  | none => (lowestResident s w.launch).map (·.facet)

/-- A waiting set merges exactly, accumulator by accumulator (R68, R171, R172). -/
def mergeSet (s : State) (w : WaitSet) (f : BitVec 10) : State :=
  let (s, b) := setLoad s w.vi w.loc
  let (s, a) := accUse s w.vi w.launch f
  let s := accPut s w.launch f (Vector.ofFn (fun i => accMerge a[i] b[i]))
  { s with waitSets := s.waitSets.filter (fun x => x != w) }

/-- Every waiting set of a launch that can be merged is merged. -/
def mergeWaiting (s : State) (launch : Nat) : State :=
  (s.waitSets.filter (fun w => w.launch == launch)).foldl (fun s w => match mergeTarget s w with
    | some f => mergeSet s w f
    | none => s) s

/-! ## Leaving a Facet -/

/-- Threads of a launch on a Facet that have still to leave it: an ENDING thread stays (R66). -/
def leavers (s : State) (launch : Nat) (f : BitVec 10) : Bool :=
  s.threads.any (fun p => !p.2.handler && p.2.launch == launch && decide (p.1 / 64 = f.toNat) && p.2.st != .ending)

/-- The Facet lies outside the launch's closure or is no longer held (R66, R569). -/
def outside (s : State) (l : Launch) (f : BitVec 10) : Bool :=
  !holdsFacet s l.vi f || !(closure s l.d.target).contains (facetUd s f)

/-- The launch has left a Facet: its set is serialised and waits to be merged, and its store allocation there is discarded (R66). -/
def leaveFacet (s : State) (num : Nat) (f : BitVec 10) : State :=
  match getLaunch s num with
  | none => s
  | some l =>
    if leavers s num f || !outside s l f then s
    else
      let key := accKey num f
      let s := writeOut s key
      let mine := s.saved.filter (fun x => !x.handler && x.launch == num && x.facet == f)
      let low := mine.foldl (fun (b : Option (BitVec 32)) x => match b with
        | none => some x.index
        | some i => some (if x.index.toNat < i.toNat then x.index else i)) none
      let s := match tget? s.accs key with
        | some (.spilled loc) =>
          { s with accs := tdel s.accs key, waitSets := s.waitSets ++ [({ launch := num, vi := l.vi, facet := f, loc := loc, low := low } : WaitSet)] }
        | _ => s
      let s := { s with fstore := tdel s.fstore key }
      let s := modLaunch s num (fun l => { l with stores := l.stores.filter (· != f.toNat) })
      mergeWaiting s num

/-! ## Saving (R109) -/

/-- Issue stops and the thread will be saved with a reason (R66, R109 step 1). A TRAPPED thread leaves its slot without a new save,
keeping its record (R291); an ENDING thread stays. -/
def beginSave (s : State) (t : Tid) (reason : BitVec 8) : State :=
  match getThr s t with
  | none => s
  | some th =>
    match th.st with
    | .ready => putThr s t { th with st := .saving, reason := reason }
    | .waiting _ _ => putThr s t { th with st := .saving, reason := reason }
    | .trapped =>
      match th.recd with
      | some loc =>
        let s := delThr s t
        { s with saved := s.saved ++ [{
            vi := th.vi, handler := th.handler, launch := th.launch, index := th.index, loc := loc,
            facet := t.facet, trapped := true, resumed := false, halted := false, pf := th.pf, evTaken := th.evTaken }] }
      | none => s
    | .saving => s
    | .ending => s

/-- Every outstanding operation but an `evwait` is complete, and every sync operation answered or withdrawn (R109, R242). -/
def savable (th : Thread) : Bool :=
  (th.loads ++ th.stores).all (fun o => o.done || o.wd || (match o.act with | .evwait _ => true | _ => false))

/-- SAVE_COMPLETE: the record is written and the slot becomes EMPTY (R75, R109, R111). -/
def execSaveComplete (t : Tid) (s : State) : Host.Outcome State Fault Refusal :=
  match getThr s t with
  | none => .next s
  | some th =>
    if th.st ≠ .saving ∨ !savable th then .next s
    else
      match spillPick s th.vi t.facet with
      | none => .next s
      | some loc =>
        let s := modInst s th.vi (fun i => { i with evq := i.evq.filter (fun p => p.1 != Tid.key t) })
        let pf := pendOf th
        let th := takeEv (takeSyncs th)
        let th := { applyOps s th (th.loads.filter (·.done)) with loads := [], stores := [], pf := none, cause := 0 }
        let s := spillTake s th.vi loc
        let s := spillWrite s th.vi loc (recOf s t th th.reason.toNat ((pf.map (·.addr)).getD 0) ((pf.map (·.count)).getD 0)
          ((pf.map (fun p => if p.poison then 5 else 4)).getD 0) pf)
        let s := countEv s t.facet th.vi 0x78 1
        let s := facetEvent s 4 th.vi 0 th.launch th.index t.facet
        let s := delThr s t
        let s := { s with saved := s.saved ++ [{
            vi := th.vi, handler := th.handler, launch := th.launch, index := th.index,
            loc := loc, facet := t.facet, trapped := false, resumed := false, halted := decide (th.reason = 3), pf := none,
            evTaken := th.evTaken }] }
        -- the save of HALT_THREAD answers the debug command (R584)
        let s := if th.reason = 3 then statDone (rset s dbgData (recAddr s th.vi loc)) dbgStat (0, 0) else s
        .next (settle (if th.handler then s else leaveFacet s th.launch t.facet))

/-! ## Resuming (R110) -/

/-- Replayed sync operations and `evwait` are issued again, in record order (R110 step 3). A descriptor that is no sync operation
is passed over. -/
def replayOps (s : State) (th : Thread) : Thread :=
  let th' := th.replay.foldl (fun (th : Thread) r =>
    let w := r.1
    let major := bits w 63 58
    let d : Reg := BitVec.ofNat 6 (bits w 51 46)
    let a : Reg := BitVec.ofNat 6 (bits w 45 40)
    let one := major == 0x38 || major == 0x3B || (major == 0x3A && bits w 57 52 == 2)
    let ubar := major == 0x38 && bits w 57 52 == 0
    if major < 0x38 ∨ major > 0x3B then th
    else
      let act := if ubar then Act.sync w ((BitVec.ofNat 32 (bits w 31 0)).setWidth 64) 0
        else if one then Act.sync w r.2 0 else Act.sync w (rdG s th a) r.2
      { th with loads := th.loads ++ [{ id := th.nextOp, act := act, dest := destG d }], nextOp := th.nextOp + 1 }) th
  { th' with replay := [] }

/-- The replayed `evwait` waits again. -/
def replayEv (s : State) (t : Tid) (th : Thread) : State × Thread :=
  match th.evRep with
  | none => (s, th)
  | some w =>
    let d : Reg := BitVec.ofNat 6 (bits w 51 46)
    (modInst s th.vi (fun i => { i with evq := i.evq ++ [(Tid.key t, th.nextOp)] }),
      { th with
        evRep := none, nextOp := th.nextOp + 1,
        loads := th.loads ++ [{ id := th.nextOp, act := .evwait w, dest := destG d }] })

/-- A thread resumes in a slot from a record's bytes: registers, pending results, replays, RES and MIG (R110). -/
def resumeIn (s : State) (t : Tid) (th : Thread) (rec_ : List Byte) : State :=
  let left : Word := BitVec.ofNat 64 (recNat rec_ 0x28 8)
  let mig := left != facetUd s t.facet
  let th := recInto th rec_ mig
  let th := retire { th with st := .ready, recd := none, pend := th.pend }
  let th := replayOps s th
  let (s, th) := replayEv s t th
  let s := if mig then countEv s t.facet th.vi 0x79 1 else s
  let s := facetEvent s 5 th.vi 0 th.launch th.index t.facet
  putThr s t th

/-- A thread before its record is loaded. -/
def blankThread (s : State) (x : Saved) (f : BitVec 10) : Thread :=
  let priv := if x.handler then 1 else 0
  let th := newThread s x.vi x.handler x.launch x.index.toNat 0 0 0 f 0 0 0 (at_ priv 30)
  { th with pf := x.pf, evTaken := x.evTaken }

/-- The member index a record holds. -/
def recMember (b : List Byte) : BitVec 32 := BitVec.ofNat 32 (recNat b 0x38 4)

/-- A saved thread is placed on a Facet: TRAPPED ones stay TRAPPED with their record, unless `tresume` has been issued for them
(R67, R110, R291). -/
def placeSaved (s : State) (x : Saved) (f : BitVec 10) : State :=
  let t : Tid := ⟨f, BitVec.ofNat 6 (freeSlot s f)⟩
  let s := { s with saved := s.saved.filter (fun y => y != x) }
  let (s, b) := match x.image with
    | some b => (s, b)
    | none => let (s, b, _) := spillRead s x.vi x.loc recSize; (s, b)
  let th := { blankThread s x f with member := recMember b }
  if x.trapped && !x.resumed then
    putThr s t { th with st := .trapped, recd := some x.loc, cause := BitVec.ofNat 8 (recNat b 5 1) }
  else if recBad b then endThread (spillFree s x.vi x.loc) t th 0x0B     -- R617
  else resumeIn (spillFree s x.vi x.loc) t th b

/-- First position for a saved thread of a launch (R67): a slot free for the instance and, where the launch has no store allocation
yet, the store free. Positions of other devices are their devices' own. -/
def positionFor (s : State) (l : Launch) : Option (BitVec 10) :=
  ((leafEnum s l.vi l.d.target 0).filter (fun c => isLocal s c.1)).findSome? (fun c =>
    let f := facetOfUd c.1
    if slotsFree s l.vi f > 0 ∧ (l.d.storeKib = 0 ∨ l.stores.contains f.toNat ∨ l.d.storeKib.toNat ≤ storeFree s l.vi f)
    then some f else none)

/-- First position for a handler thread: the resource composite's enumeration (R276). -/
def handlerPosition (s : State) (vi : Vi) : Option (BitVec 10) :=
  ((clustersOf s vi).flatMap (fun c => (List.range 8).map (fun k => BitVec.ofNat 10 (8 * c + k)))).find? (fun f =>
    holdsFacet s vi f && decide (slotsFree s vi f > 0))

/-- A thread of the launch is still being saved from the Facet that this one left, so its accumulators are not yet serialised. -/
def stillLeaving (s : State) (x : Saved) : Bool :=
  s.threads.any (fun p => p.2.launch == x.launch && p.2.handler == x.handler && p.2.vi == x.vi && p.2.st == .saving
    && decide (p.1 / 64 = x.facet.toNat))

/-- Handler threads resident of an instance, and the register that names their Facet (R276). -/
def handlerMoved (s : State) (vi : Vi) (f : BitVec 10) : State :=
  let s := rset s (viReg vi 0x98) (facetUd s f)
  modInst s vi (fun i => { i with hdlSt := if i.hdlSt = 3 then 1 else i.hdlSt })

/-- A waiting thread that is offered a position takes it (R67, R68, R276). -/
def resumeSaved (s : State) (x : Saved) : State :=
  let st := (getInst s x.vi).st
  if x.halted ∨ (st ≠ 2 ∧ !(x.handler ∧ st = 1)) then s
  else if x.handler then
    match handlerPosition s x.vi with
    | none => modInst s x.vi (fun i => { i with hdlSt := if i.hdlSt = 1 then 3 else i.hdlSt })
    | some f => settle (handlerMoved (placeSaved s x f) x.vi f)
  else
    let lower := s.saved.any (fun y => !y.handler && y.launch == x.launch && !y.halted && decide (y.index.toNat < x.index.toNat))
    match getLaunch s x.launch with
    | none => s
    | some l =>
      if lower ∨ stillLeaving s x then s
      else match positionFor s l with
        | none => s
        | some f =>
          let s := modLaunch s x.launch (fun l => { l with
            stores := if l.d.storeKib = 0 ∨ l.stores.contains f.toNat then l.stores else l.stores ++ [f.toNat] })
          settle (mergeWaiting (placeSaved s x f) x.launch)

/-- THREAD_RESUME: the lowest-indexed waiting thread of a launch that is offered a position takes it (R67, R68, R276). -/
def execThreadResume (w : SavedId) (s : State) : Host.Outcome State Fault Refusal :=
  match s.saved.find? (fun x => x.vi == w.vi && x.handler == w.handler && x.launch == w.launch && x.index == w.index) with
  | none => .next s
  | some x => .next (resumeSaved s x)

/-! ## Ends -/

/-- A slot empties: locks abandoned, the taken event retired, the thread counted as ended (R64, R95, R247, R282). -/
def emptySlot (s : State) (t : Tid) (th : Thread) : State :=
  let s := match th.evTaken with | some e => retireEvent s th.vi e | none => s
  let s := modInst s th.vi (fun i => { i with evq := i.evq.filter (fun p => p.1 != Tid.key t) })
  let s := if th.handler then abandonLocks s th.vi 0 (0x80000000 + th.index) else abandonLocks s th.vi th.launch th.index
  let s := facetEvent s 2 th.vi th.endSt th.launch th.index t.facet
  let s := delThr s t
  if th.handler then s else launchThreadEnded s th.launch th.index th.endSt

/-- THREAD_DRAINED (R95): an ENDING thread with no operation outstanding leaves its slot; or a thread on another device has ended. -/
def execThreadDrained (e : EndedAt) (s : State) : Host.Outcome State Fault Refusal :=
  match e with
  | .here t =>
    match getThr s t with
    | none => .next s
    | some th =>
      if th.st = .ending ∧ th.lcnt = 0 ∧ th.scnt = 0 then .next (settle (emptySlot s t th)) else .next s
  | .remote launch index status =>
    match getLaunch s launch with
    | some l =>
      -- only a launch with threads on another device has one end there
      if l.admitted && l.counts.any (fun c => !isLocal s c.1 && decide (c.2.1 > 0)) then
        let s := modLaunch s launch (fun l => { l with away := index.toNat :: l.away })
        .next (settle (launchThreadEnded s launch index status))
      else .next s
    | none => .next s

/-- The record of a TRAPPED thread is given up as its thread ends. -/
def dropRecord (s : State) (th : Thread) : State :=
  match th.recd with | some loc => spillFree s th.vi loc | none => s

/-- A TRAPPED thread ends with a status, by its handler or for want of one (R75, R107, R277). -/
def endTrapped (s : State) (t : Tid) (th : Thread) (status : BitVec 8) : State :=
  endThread (dropRecord s th) t { th with recd := none } status

/-- A saved TRAPPED thread ends where it waits: it holds no slot, so it ends at once. -/
def endSaved (s : State) (x : Saved) (status : BitVec 8) : State :=
  let s := spillFree { s with saved := s.saved.filter (fun y => y != x) } x.vi x.loc
  let s := match x.evTaken with | some e => retireEvent s x.vi e | none => s
  let s := if x.handler then abandonLocks s x.vi 0 (0x80000000 + x.index) else abandonLocks s x.vi x.launch x.index
  if x.handler then s else launchThreadEnded s x.launch x.index status

/-- The cause code in the record of a saved thread. -/
def savedCause (s : State) (x : Saved) : Nat := recNat (spillRead s x.vi x.loc 8).2.1 5 1

/-- The instance has no handler any more: every thread in TRAPPED ends with the status of its cause (R277). -/
def endAllTrapped (s : State) (vi : Vi) : State :=
  let s := (s.threads.filter (fun p => p.2.vi == vi && !p.2.handler && p.2.st == .trapped)).foldl (fun s p =>
    match getThr s (tidOf p.1) with
    | some th => endTrapped s (tidOf p.1) th (trapStatus th.cause.toNat)
    | none => s) s
  (s.saved.filter (fun x => x.vi == vi && !x.handler && x.trapped && !x.resumed)).foldl (fun s x =>
    endSaved s x (trapStatus (savedCause s x))) s

/-- Every handler thread of an instance ends: what they wait for is withdrawn (R277). -/
def endHandlers (s : State) (vi : Vi) : State :=
  let s := (s.threads.filter (fun p => p.2.vi == vi && p.2.handler)).foldl (fun s p =>
    let t := tidOf p.1
    let s := withdrawSyncs s t
    match getThr s t with
    | some th =>
      let keep := th.loads.filter (fun o => o.done || isMemAct o.act)
      endThread s t { th with loads := keep } 0
    | none => s) s
  let hs := s.saved.filter (fun x => x.vi == vi && x.handler)
  hs.foldl (fun s x => endSaved s x 0) s

/-- HANDLER_MODE_TRAP: the firmware ends the instance's handler threads and sets FAILED with the cause (R108, R277). -/
def execHandlerModeTrap (vi : Vi) (s : State) : Host.Outcome State Fault Refusal :=
  match s.threads.find? (fun p => p.2.vi == vi && p.2.handler && p.2.st == .trapped) with
  | none => .next s
  | some p =>
    if !slowUp s (p.1 / 64 / 256) then .next s
    else
    let s := endHandlers s vi
    let s := modInst s vi (fun i => { i with hdlSt := 2, hdlCause := p.2.cause, hdlThread := p.2.index.setWidth 8 })
    .next (settle (endAllTrapped s vi))

/-! ## Admission -/

def execLaunchAdmit (num : Nat) (s : State) : Host.Outcome State Fault Refusal := .next (admitLaunch s num)

end Sys2Proof.Machine
end

