-- ==== Sys2Proof/Machine/Host.lean ====
section
/-! DEFINITION. How a host access reaches the device: the endpoint's gates (R297, R549, R576, R579, R612, R615), command status
registers, and Advanced Error Reporting (R320-R322). -/

namespace Sys2Proof.Machine

/-- A function's configuration state. -/
def getCfg (s : State) (fn : Fn) : Cfg := tget s.cfg fn.toNat {}
def modCfg (s : State) (fn : Fn) (f : Cfg → Cfg) : State := { s with cfg := tset s.cfg fn.toNat (f (getCfg s fn)) }
/-- Name of a plainly stored dword of configuration space; the switch functions follow the 256 functions. -/
def cfgReg (k d : Nat) : Nat := 0x40000000000 + 0x1000 * k + d
/-- The PF of the port of a function. -/
def pfOf (fn : Fn) : Fn := BitVec.ofNat 8 (128 * portOf fn)

/-! ## Advanced Error Reporting (R320-R322) -/

/-- An uncorrectable error that is handled as an Advisory Non-Fatal Error while its severity is non-fatal (R321). -/
def advisoryBit (b : Nat) : Bool := b == 12 || b == 14 || b == 16

/-- A correctable status bit is set. -/
def aerCor (s : State) (fn : Fn) (b : Nat) : State :=
  modCfg s fn (fun c => { c with corSt := c.corSt ||| at_ 1 b })

/-- An error AER reports is also recorded as PCIE (R571): ARG0 holds the bit, and 0x100 more for the correctable register
(DESIGN CHOICE, Assumption 16). -/
def aerRecord (s : State) (fn : Fn) (arg0 : Nat) : State :=
  raiseErr s { cause := 0x13, sev := 0, vi := some fn, arg0 := BitVec.ofNat 64 arg0 }

/-- An uncorrectable error of the endpoint with the header of its request (R320-R322). -/
def aerUnc (s : State) (fn : Fn) (b : Nat) (hdr : List Byte) : State :=
  let c := getCfg s fn
  let masked := bit c.uncMsk b
  let s := modCfg s fn (fun c => { c with uncSt := c.uncSt ||| at_ 1 b })
  let s := if masked then s
    else match c.fep with
      | none => modCfg s fn (fun c => { c with fep := some (BitVec.ofNat 5 b), hdr := hdr })
      | some _ => aerCor s fn 15
  let s := if advisoryBit b && !bit c.uncSev b then aerCor s fn 13 else s
  aerRecord s fn b

/-- An uncorrectable error of a request whose header the command does not bring: what the Header Log takes is the request's own, which the
model does not hold (free bytes, Assumption 51). -/
def aerReq (s : State) (fn : Fn) (b : Nat) : State :=
  nextFree (aerUnc s fn b ((List.range 16).map (fun i => freeBits s 8 (0x3220000 + i))))

/-- Poisoned data arrives for an instance: Poisoned TLP Received, and MEM_POISON of its Poll Page (R314, R320). -/
def gotPoison (s : State) (vi : Vi) : State := aerReq (modInst s vi (fun i => { i with memPoison := true })) vi 12

/-! ## Held BAR2 writes (R239, R300) -/

/-- BAR2 writes of the function are still held (R239). -/
def bar2Held (s : State) (fn : Fn) : Bool := s.heldW.any (fun h => h.writer == .bar2 fn)

/-- The function a held host access came from; none for the JTAG port. -/
def HostWr.fn? : HostWr → Option Fn
  | .reg fn _ _ => some fn
  | .half fn _ _ => some fn
  | .bar2 fn _ _ _ => some fn
  | .dbg _ _ _ => none
  | .rd fn _ _ => some fn

/-- An earlier access of the function is held. -/
def hostWaits (s : State) (fn : Fn) : Bool := s.heldHost.any (fun h => h.fn? == some fn)

/-! ## Gates -/

/-- The function exists (R257, R293): a PF always, a VF while its instance is not OFF. -/
def fnExists (s : State) (fn : Fn) : Bool := isPf fn || decide ((getInst s fn).st ≠ 0)

/-- The endpoint of the function's port answers: its PERST# is deasserted, conversion is on, and no device reset runs (R579, R612). -/
def endpointUp (s : State) (fn : Fn) : Bool :=
  decide (s.boot.phase.toNat ≥ 8) && !(s.boot.perst.toList.getD (portOf fn) true) && s.drst.phase == 0

/-- The function's BARs answer (R297, R327). -/
def barsOn (s : State) (fn : Fn) : Bool :=
  let c := getCfg s fn
  (if isPf fn then c.mse else (getCfg s (pfOf fn)).vfMse) && !c.d3 && !c.flr

/-- BAR0 offsets that answer in FAILED (R615). -/
def failedBlock (off : Nat) : Bool :=
  decide (off < 0x20000) || (decide (0xE00000 ≤ off) && decide (off < 0x1000000))

/-- BAR0 offsets that answer in the fatal state (R576): the DDT, `DEV_RST_CMD` and the ERR, MTR, LPE, PWR, SEC and FW blocks. -/
def fatalBlock (off : Nat) : Bool :=
  decide (off < 0x10000) || decide (off = 0x10100) || (decide (0xC00000 ≤ off) && decide (off < 0xC05000))
    || (decide (0xE00000 ≤ off) && decide (off < 0x1000000))

/-- What becomes of a host access to a BAR0 offset; `none` for BAR2. -/
inductive Gate where
  | absent      -- no endpoint answers it: nothing happens in the device
  | ur          -- Unsupported Request (R297)
  | ignored     -- write ignored, read returns zero (R576, R615)
  | held        -- held until the device is Bright (R549)
  | behind      -- held behind BAR2 writes of the same function that memory holds (R300)
  | pass
  deriving DecidableEq, Repr

/-- The gate of an access. -/
def gate (s : State) (fn : Fn) (off : Option Nat) : Gate :=
  if !fnExists s fn || !endpointUp s fn then .absent
  else if !barsOn s fn then .ur
  else if s.boot.phase = 9 then (if (off.map failedBlock).getD false then .pass else .ignored)
  else if s.err.fatal then (if (off.map fatalBlock).getD false then .pass else .ignored)
  else if s.pwr.st = 2 ∨ s.pwr.st = 4 then .held
  else if off.isSome && (bar2Held s fn || hostWaits s fn) then .behind
  else .pass

/-- A wake starts for an enabled source (R550). -/
def startWake (s : State) (cause : BitVec 8) (enBit : Nat) : State :=
  if s.pwr.st = 2 ∧ bit (rget s 0xF08020) enBit then { s with pwr := { s.pwr with st := 4, wake := cause } } else s

/-- A host access during the entry to Dark is a wake source (R560): the entry stops at its current step, GO_DARK completes with RETRY
and WOKEN, and the device returns to its former state. -/
def stopEntry (s : State) (cause : BitVec 8) (enBit : Nat) : State :=
  if s.pwr.st = 3 ∧ bit (rget s 0xF08020) enBit then
    statDone { s with pwr := { s.pwr with st := s.pwr.former, wake := cause, busyAt := s.devTime } } 0xF08010 (0x01, 0xF4)
  else s

/-- A write that arrives at a BAR0 offset: performed, held or refused by the gates (R297, R549, R576, R615). -/
def hostWr (fn : Fn) (off : Nat) (v : Word) (body : State → State) (s : State) : Host.Outcome State Fault Refusal :=
  match gate s fn (some off) with
  | .absent => .next s
  | .ur => .next (aerReq s fn 20)
  | .ignored => .next s
  | .held => .next (startWake { s with heldHost := s.heldHost ++ [.reg fn off v] } 1 63)
  | .behind => .next (stopEntry { s with heldHost := s.heldHost ++ [.reg fn off v] } 1 63)
  | .pass => .next (settle (body (stopEntry s 1 63)))

/-- A PF acts for the instances of its own upstream port only. -/
def samePort (fn : Fn) (vi : Vi) : Bool := portOf fn == portOf vi

end Sys2Proof.Machine
end

