-- ==== Sys2Proof/Machine/Discard.lean ====
section
/-! DEFINITION. Threads and launches discarded by a reset (R55-R57, R247, R248), and the reshaping of running launches when Facets leave
their closure (R65-R70). -/

namespace Sys2Proof.Machine

/-! ## Discarding -/

/-- Writes and messages of a discarded thread go on, answered to nobody (R285 step 4). -/
def orphan (s : State) (vi : Vi) (t : Tid) : State :=
  let mine : Writer → Bool := fun w => match w with
    | .thread u _ => u == t
    | .engine _ => false | .bar2 _ => false | .partner => false | .brm _ _ _ => false
    | .desc _ => false
  let re (w : Writer) : Writer := if mine w then .engine vi else w
  let msg (m : TxMsg) : TxMsg := match m.src with
    | .thread u _ => if u = t then { m with src := .gone } else m
    | .desc _ _ _ => m
    | .gone => m
  { s with
    heldW := s.heldW.map (fun h => { h with writer := re h.writer })
    pair := { s.pair with out := s.pair.out.map (fun m => { m with writer := re m.writer }) }
    ctxs := s.ctxs.map (fun p => match p.2 with
      | .qp q => (p.1, .qp { q with msgs := q.msgs.map msg })
      | .region _ => p
      | .queue _ _ _ => p
      | .flow _ _ _ _ => p) }

/-- A resident thread is discarded: its sync operations are withdrawn without replay, its locks abandoned, its record and slot freed
(R55, R247, R248). -/
def discardThread (s : State) (t : Tid) : State :=
  match getThr s t with
  | none => s
  | some th =>
    let s := withdrawSyncs s t
    let s := orphan s th.vi t
    let s := if th.handler then abandonLocks s th.vi 0 (0x80000000 + th.index) else abandonLocks s th.vi th.launch th.index
    -- a thread that a debug command was saving is live no more (R584)
    let s := if th.st = .saving ∧ th.reason = 3 then statDone s dbgStat (0x05, 0x80) else s
    delThr (dropRecord s th) t

/-- A saved thread is discarded with its record. -/
def discardSaved (s : State) (x : Saved) : State :=
  let s := if x.handler then abandonLocks s x.vi 0 (0x80000000 + x.index) else abandonLocks s x.vi x.launch x.index
  spillFree { s with saved := s.saved.filter (fun y => y != x) } x.vi x.loc

/-- Every thread of a launch, resident or saved, is discarded. -/
def discardLaunchThreads (s : State) (num : Nat) : State :=
  let s := (s.threads.filter (fun p => !p.2.handler && p.2.launch == num)).foldl (fun s p => discardThread s (tidOf p.1)) s
  (s.saved.filter (fun x => !x.handler && x.launch == num)).foldl discardSaved s

/-- Indices of a launch's threads on other devices that have not ended: positions of other devices take index blocks (R61). -/
def awayLive (s : State) (l : Launch) : List Nat :=
  (l.counts.foldl (fun (a : Nat × List Nat) c =>
    (a.1 + c.2.1, if isLocal s c.1 then a.2
      else a.2 ++ ((List.range c.2.1).map (· + a.1)).filter (fun i => !l.away.contains i))) (0, [])).2

/-- The index an aborted launch reports: the lowest that had failed or was live, 0 when never admitted (R56). -/
def abortIndex (s : State) (l : Launch) : Nat :=
  if !l.admitted then 0
  else
    let live := (s.threads.filter (fun p => !p.2.handler && p.2.launch == l.num)).map (fun p => p.2.index.toNat)
      ++ (s.saved.filter (fun x => !x.handler && x.launch == l.num)).map (fun x => x.index.toNat) ++ awayLive s l
    let all := match l.fail with | some (i, _) => i.toNat :: live | none => live
    match all with
    | [] => 0
    | i :: r => r.foldl Nat.min i

/-- A launch is aborted whole with ABORTED_RESET (R56); `dcode` is PARTNER_LOST where it lost Facets of a lost partner (R452). -/
def abortLaunch (s : State) (l : Launch) (dcode : BitVec 8 := 0) : State :=
  let i := abortIndex s l
  dropLaunch (launchRecord (discardLaunchThreads s l.num) l 0x02 l.okCount i dcode) l

/-! ## Reshaping (R65-R70) -/

/-- Own Facets of a launch: those with a thread of it, an accumulator set, a Facet store or a store allocation. -/
def launchFacets (s : State) (num : Nat) : List Nat :=
  let a := (s.threads.filter (fun p => !p.2.handler && p.2.launch == num)).map (fun p => p.1 / 64)
  let b := (s.accs.filter (fun p => p.1 / 1024 == num)).map (fun p => p.1 % 1024)
  let c := (s.fstore.filter (fun p => p.1 / 1024 == num)).map (fun p => p.1 % 1024)
  let d := (s.launches.filter (fun l => l.num == num)).flatMap (fun l => l.stores)
  (a ++ b ++ c ++ d).dedup

/-- Threads of a launch on a Facet that have to leave it. -/
def threadsOn (s : State) (num f : Nat) : List Nat :=
  (s.threads.filter (fun p => !p.2.handler && p.2.launch == num && decide (p.1 / 64 = f) && p.2.st != .ending)).map (·.1)

/-- A Facet has left a running launch's closure: its threads are saved, and what the launch has there leaves with the last (R66).
State after, and how many threads are moved. -/
def leaveOne (s : State) (num f : Nat) : State × Nat :=
  let ts := threadsOn s num f
  let s := ts.foldl (fun s k => beginSave s (tidOf k) 1) s
  (leaveFacet s num (BitVec.ofNat 10 f), ts.length)

/-- Every Facet outside a launch's closure is left. -/
def reshapeLaunch (s : State) (l : Launch) : State × Nat :=
  if !l.admitted then (s, 0)
  else
    let (s, n) := ((launchFacets s l.num).filter (fun f => outside s l (BitVec.ofNat 10 f))).foldl
      (fun (a : State × Nat) f => let (s, k) := leaveOne a.1 l.num f; (s, a.2 + k)) (s, 0)
    -- a member change that moves threads takes a RUNNING composite to RESHAPING (R53)
    let c := compNum l.d.target
    if n > 0 ∧ isComp l.d.target ∧ (compEntry s c).st = 2 then (setCompSt s c 3, n) else (s, n)

/-- Handler threads on Facets the instance no longer holds are saved (R276). -/
def reshapeHandlers (s : State) (vi : Vi) : State × Nat :=
  let ts := s.threads.filter (fun p => p.2.handler && p.2.vi == vi && p.2.st != .ending
    && !holdsFacet s vi (BitVec.ofNat 10 (p.1 / 64)))
  (ts.foldl (fun s p => beginSave s (tidOf p.1) 1) s, ts.length)

/-- Every running launch follows its closure, whichever instance launched it on a composite of this one (R66), and this instance's handler
threads follow what it holds: state after and threads moved. -/
def reshape (s : State) (vi : Vi) : State × Nat :=
  let (s, n) := s.launches.foldl
    (fun (a : State × Nat) l => let (s, k) := reshapeLaunch a.1 l; (s, a.2 + k)) (s, 0)
  let (s, k) := reshapeHandlers s vi
  (s, n + k)

/-- A waiting thread of a launch has no free position, or is held by a debugger. -/
def offered (s : State) (l : Launch) : Bool :=
  let mine := s.saved.filter (fun x => !x.handler && x.launch == l.num && !x.halted)
  mine.isEmpty || (positionFor s l).isNone

/-- The moves of a launch are complete (R70): no thread is still being saved off a Facet outside its closure, and every saved thread
has been offered a position. -/
def movesDone (s : State) (l : Launch) : Bool :=
  !s.threads.any (fun p => !p.2.handler && p.2.launch == l.num && p.2.st == .saving
      && outside s l (BitVec.ofNat 10 (p.1 / 64)))
    && offered s l

end Sys2Proof.Machine
end

