-- ==== Sys2Proof/Machine/Composite.lean ====
section
/-! DEFINITION. The composite manager: CREATE, ADD, REMOVE, DESTROY, READ, RESET and EXPORT (R40-R58), confirmations of remote members
(R49) and the completion of a unit reset. -/

namespace Sys2Proof.Machine

/-! ## Registers of the CMP block -/

def cmpCmdReg (fn : Fn) : Nat := fnReg fn 0x810000
def cmpArgReg (fn : Fn) : Nat := fnReg fn 0x810008
def cmpStatReg (fn : Fn) : Nat := fnReg fn 0x810010
def cmpResultReg (fn : Fn) : Nat := fnReg fn 0x810018
/-- The two registers of entry i of `CMP_MEMBUF`. -/
def memLoReg (fn : Fn) (i : Nat) : Nat := fnReg fn (0x811000 + 16 * i)
def memHiReg (fn : Fn) (i : Nat) : Nat := fnReg fn (0x811008 + 16 * i)

def CmpOp.code : CmpOp → Nat
  | .create => 1 | .add => 2 | .remove => 3 | .destroy => 4 | .read => 5 | .reset => 6 | .grant => 7

def cmpOpOf (n : Nat) : Option CmpOp :=
  match n with
  | 1 => some .create | 2 => some .add | 3 => some .remove | 4 => some .destroy | 5 => some .read | 6 => some .reset
  | 7 => some .grant | _ => none

/-- `CMP_CMD` as written. -/
def cmpWord (op : CmpOp) (c : CmpArgs) : Word :=
  at_ c.number.toNat 48 ||| at_ (b2n c.grantEn) 33 ||| at_ (b2n c.lock) 32 ||| at_ c.count.toNat 16 ||| at_ c.vi.toNat 8 ||| at_ op.code 0

/-- The fields of a value written to `CMP_CMD`. -/
def cmpArgs (w : Word) : CmpArgs :=
  { number := BitVec.ofNat 16 (bits w 63 48), grantEn := bit w 33, lock := bit w 32, count := BitVec.ofNat 9 (bits w 24 16),
    vi := BitVec.ofNat 8 (bits w 15 8) }

/-- Entry i of the member buffer, and whether it breaks R52. -/
def membufEntry (s : State) (fn : Fn) (i : Nat) : Member × Bool :=
  let hi := rget s (memHiReg fn i)
  let remote := bit hi 16
  ({ ud := rget s (memLoReg fn i), remote := remote, home := BitVec.ofNat 16 (bits hi 15 0) },
    decide (bits hi 63 17 ≠ 0) || (!remote && decide (bits hi 15 0 ≠ 0)))

/-! ## Structure of composites -/

/-- Physical units under a UD, with the Facets a remote home reported. -/
def physLeaves (s : State) (ud : Word) : Nat → List Word
  | 0 => []
  | fuel + 1 =>
    if isComp ud then
      if (resolveUd s ud).1 ≠ 0 then []
      else (compEntry s (compNum ud)).members.flatMap (fun m => if m.remote then m.leaves.map (·.1) else physLeaves s m.ud fuel)
    else [ud]

/-- Lowest bit of a physical UD that its depth uses (R37). -/
def udLow (d : Nat) : Nat :=
  match d with
  | 0 => 59 | 1 => 47 | 2 => 43 | 3 => 39 | 4 => 35 | 5 => 31 | _ => 27

/-- One physical unit lies within another. -/
def covers (a b : Word) : Bool :=
  let lo := udLow (udDepth a)
  decide (udDepth a ≤ udDepth b) && decide (a.toNat % 2 ^ 59 / 2 ^ lo = b.toNat % 2 ^ 59 / 2 ^ lo)

/-- Two units share a Facet. -/
def meets (a b : Word) : Bool := covers a b || covers b a

/-- Two units of a list share a Facet (R46). -/
def overlapping : List Word → Bool
  | [] => false
  | a :: r => r.any (meets a) || overlapping r

/-- Composite UDs reached from a UD, itself included. -/
def reached (s : State) (ud : Word) : Nat → List Word
  | 0 => []
  | fuel + 1 =>
    if !isComp ud then []
    else if (resolveUd s ud).1 ≠ 0 then [ud]
    else ud :: (compEntry s (compNum ud)).members.flatMap (fun m => if m.remote then [] else reached s m.ud fuel)

/-- Nesting level of a composite entry (R47). -/
def levelOf (s : State) (n : Nat) : Nat → Nat
  | 0 => 0
  | fuel + 1 =>
    1 + (compEntry s n).members.foldl (fun a m =>
      Nat.max a (if m.remote then m.level else if isComp m.ud then levelOf s (compNum m.ud) fuel else 0)) 0

/-- Entries that hold a composite, at any depth. -/
def ancestors (s : State) (n : Nat) : List Nat :=
  (s.comps.map (·.1)).filter (fun m => m != n && decide ((compEntry s m).st ≠ 0) && (reached s (compUd s m) 18).contains (compUd s n))

/-- A composite is a member of another. -/
def hasParent (s : State) (n : Nat) : Bool :=
  s.comps.any (fun p => p.2.st != 0 && p.2.members.any (fun m => !m.remote && m.ud == compUd s n))

/-- Levels and overlaps of an entry and of every composite that holds it (R46, R47). -/
def structCheck (s : State) (n : Nat) : BitVec 8 × BitVec 8 :=
  let all := n :: ancestors s n
  if all.any (fun m => decide (levelOf s m 20 > 16)) then (0x0B, 0x81)
  else if all.any (fun m => overlapping (physLeaves s (compUd s m) 18)) then (0x0B, 0x82)
  else (0, 0)

/-- Own clusters under a physical unit. -/
def clustersUnder (s : State) (ud : Word) : List Nat := ((physFacets s ud).map (· / 8)).dedup

/-- A physical unit reaches beyond this device (R44). -/
def beyond (s : State) (ud : Word) : Bool :=
  match udDepth ud with
  | 0 => fabEn s
  | 1 => fabEn s
  | _ => udDev ud != ownDev s

/-- An instance may place a member (R38, R41, R44, R45, R49). A REMOTE entry that names no composite of another device of the fabric, which
no home could confirm, is NO_SUCH_UNIT (DESIGN CHOICE, Assumption 40). -/
def placeCheck (s : State) (vi : Vi) (m : Member) : BitVec 8 × BitVec 8 :=
  if m.remote then
    if !isComp m.ud ∨ m.home = ownDev s ∨ !inFabric s m.home then (0x05, 0x84) else (0, 0)
  else
    let r := resolveDeep s m.ud 17
    if r.1 ≠ 0 then r
    else if isComp m.ud then (if (compEntry s (compNum m.ud)).owner = vi then (0, 0) else (0x05, 0x85))
    else if beyond s m.ud ∧ vi ≠ 0 ∧ vi ≠ 128 then (0x05, 0x85)
    else if (clustersUnder s m.ud).all (fun c => (holdOf (getClu s c) vi).isSome) then (0, 0)
    else (0x05, 0x85)

/-- First failure of a list of checks. -/
def firstFail : List (BitVec 8 × BitVec 8) → BitVec 8 × BitVec 8
  | [] => (0, 0)
  | r :: l => if r.1 ≠ 0 then r else firstFail l

/-- Composite entries an instance owns (`VI_USE.CMP`). -/
def compsOwned (s : State) (vi : Vi) : Nat :=
  (s.comps.filter (fun p => decide (p.1 > 256) && p.2.st != 0 && p.2.owner == vi)).length

/-- FREE entries among those for commands (`CMP_FREE`). -/
def compsFree (s : State) : Nat := 65279 - (s.comps.filter (fun p => decide (p.1 > 256) && p.2.st != 0)).length

/-- Lowest-numbered FREE entry for commands (DESIGN CHOICE, Assumption 17). -/
def freeComp (s : State) : Nat :=
  let used := s.comps.filterMap (fun p => if p.1 > 256 ∧ p.2.st ≠ 0 then some (p.1 - 257) else none)
  257 + leastFree used

/-- The state with an entry's members set. -/
def setMembers (s : State) (n : Nat) (ms : List Member) : State :=
  { s with comps := tset s.comps n { tget s.comps n {} with members := ms } }

/-! ## Commands -/

/-- What a command does: complete with codes, or wait. -/
inductive CmpRes where
  | done (s : State) (r : BitVec 8 × BitVec 8)
  | wait (s : State)

/-- Checks of an entry named by NUMBER (R41, R43, R50, table of detail codes). `change` also refuses resource composites and, to the
owner, locked ones. -/
def entryCheck (s : State) (j : CmpJob) (change lockable : Bool) : BitVec 8 × BitVec 8 :=
  let e := compEntry s j.number
  if j.number = 0 ∨ e.st = 0 then (0x05, 0x84)
  else if change ∧ j.number ≤ 256 then (0x05, 0x85)
  else if e.owner ≠ j.vi then (0x05, 0x85)
  else if lockable ∧ e.lock ∧ !j.pf then (0x05, 0x85)
  else (0, 0)

/-- Placed members of an entry: units substituted under R65 count once. -/
def placedCount (ms : List Member) : Nat := (ms.filter (fun m => !m.extra)).length

/-- Next generation of an entry (R42). -/
def nextGen (g : BitVec 15) : BitVec 15 := if g = 32767 then 1 else g + 1

/-- CREATE or ADD once every remote member is confirmed: levels and overlaps, then the change. -/
def applyMembers (s : State) (j : CmpJob) : State × (BitVec 8 × BitVec 8) :=
  match j.op with
  | .create =>
    let n := freeComp s
    let g := nextGen (tget s.comps n {}).gen
    let s' := { s with comps := tset s.comps n { st := 1, gen := g, owner := j.vi, lock := j.pf && j.lock, members := j.mems } }
    let r := structCheck s' n
    if r.1 ≠ 0 then (s, r) else (rset s' (cmpResultReg j.fn) (compUd s' n), (0, 0))
  | .add =>
    let s' := setMembers s j.number ((tget s.comps j.number {}).members ++ j.mems)
    let r := structCheck s' j.number
    if r.1 ≠ 0 then (s, r) else (s', (0, 0))
  | .remove => (s, (0, 0))
  | .destroy => (s, (0, 0))
  | .read => (s, (0, 0))
  | .reset => (s, (0, 0))
  | .grant => (s, (0, 0))

/-- CREATE and ADD: the checks that need no other device, then the wait for confirmations (R44-R49). Of several failures the first counts
in this order: TOO_MANY, a bad entry, CYCLE, placement, TABLE_FULL, the confirmations, TOO_DEEP, OVERLAP (DESIGN CHOICE, Assumption 40). -/
def startMembers (s : State) (j : CmpJob) : CmpRes :=
  let target : Word := match j.op with
    | .create => let n := freeComp s; at_ 1 63 ||| at_ (nextGen (tget s.comps n {}).gen).toNat 48 ||| BitVec.ofNat 64 n
    | _ => compUd s j.number
  let have_ := match j.op with | .add => placedCount (compEntry s j.number).members | _ => 0
  let full := match j.op with
    | .create => decide (compsFree s = 0) || (let m := bits (rget s (viReg j.vi 0x38)) 15 0; decide (m ≠ 0) && decide (compsOwned s j.vi ≥ m))
    | _ => false
  if j.count > 256 ∨ have_ + j.mems.length > 256 then .done s (0x0B, 0x83)
  else if j.bad then .done s (0x05, 0x84)
  else if j.mems.any (fun m => !m.remote && (reached s m.ud 18).contains target) then .done s (0x0B, 0x80)
  else
    let r := firstFail (j.mems.map (placeCheck s j.vi))
    if r.1 ≠ 0 then .done s r
    else if full then .done s (0x0C, 0x88)
    else
      let un := (j.mems.filter (·.remote)).map (fun m => (m.home, m.ud))
      if un = [] then let (s, r) := applyMembers s j; .done s r
      else
        match s.cmpJobs with
        | [] => .wait s
        | h :: rest => .wait { s with cmpJobs := { h with started := true, unconf := un } :: rest }

/-- REMOVE (R52, R66). -/
def removeMembers (s : State) (j : CmpJob) : State × (BitVec 8 × BitVec 8) :=
  let ms := (tget s.comps j.number {}).members
  let hit (m : Member) : Bool := j.mems.any (fun x => x.ud == m.ud && x.remote == m.remote && (!m.remote || x.home == m.home))
  if j.mems.all (fun x => ms.any (fun m => x.ud == m.ud && x.remote == m.remote && (!m.remote || x.home == m.home))) then
    ((reshape (setMembers s j.number (ms.filter (fun m => !hit m))) j.vi).1, (0, 0))
  else (s, (0x05, 0x84))

/-- READ copies the first 256 members to the buffer and sets RCOUNT (R52). -/
def readMembers (s : State) (fn : Fn) (n : Nat) : State :=
  let ms := (compEntry s n).members.take 256
  let s := (ms.zipIdx).foldl (fun s p =>
    rset (rset s (memLoReg fn p.2) p.1.ud) (memHiReg fn p.2) (at_ (b2n p.1.remote) 16 ||| p.1.home.setWidth 64)) s
  rset s (cmpStatReg fn) (setBits (rget s (cmpStatReg fn)) 40 32 ms.length)

/-- A unit reset aborts the launches of an instance that meet the unit (R56): state after and launches aborted. -/
def abortMeeting (s : State) (vi : Vi) (leaves : List Word) : State × Nat :=
  let ls := s.launches.filter (fun l => l.vi == vi
    && (physLeaves s l.d.target 18).any (fun a => leaves.any (meets a)))
  (ls.foldl (fun s l => match getLaunch s l.num with | some l => abortLaunch s l | none => s) s, ls.length)

/-- Own Facets under the units a reset reaches. -/
def facetsUnder (s : State) (leaves : List Word) : List Nat :=
  (List.range 1024).filter (fun f => leaves.any (fun a => covers a (facetUd s (BitVec.ofNat 10 f))))

/-- An instance's handler threads on the Facets of a unit reset are discarded, and its handler's accumulators and Facet store there
cleared (R55): the state after, and whether a thread was. An event such a thread had taken is retired, as when it ends (R282);
`VI_HDL_STAT.STATE` stays as it is (DESIGN CHOICE, Assumption 35). -/
def resetHandlers (s : State) (vi : Vi) (fs : List Nat) : State × Bool :=
  let ts := s.threads.filter (fun p => p.2.handler && p.2.vi == vi && fs.contains (p.1 / 64))
  let here : Nat → Bool := fun k => k / 1024 == 2 ^ 40 + vi.toNat && fs.contains (k % 1024)
  let s := ts.foldl (fun s p =>
    let s := match p.2.evTaken with | some e => retireEvent s vi e | none => s
    discardThread s (tidOf p.1)) s
  let s := (s.accs.filter (fun p => here p.1)).foldl (fun s p => match p.2 with | .spilled loc => spillFree s vi loc | .held _ => s) s
  ({ s with accs := s.accs.filter (fun p => !here p.1), fstore := s.fstore.filter (fun p => !here p.1) }, !ts.isEmpty)

/-- A unit reset acts on one instance (R55, R56): the state after, the launches aborted, and whether it is affected. -/
def resetOn (s : State) (vi : Vi) (leaves : List Word) : State × Nat × Bool :=
  let (s, n) := abortMeeting s vi leaves
  let (s, h) := resetHandlers s vi (facetsUnder s leaves)
  (s, n, h || decide (n > 0))

/-- RESET of a unit is accepted (R54-R57). An instance whose launches were aborted while they waited for admission is an affected one and
receives UNIT_RESET too, though it had no threads there (DEDUCED from R57, Assumption 35). -/
def resetUnit (s : State) (j : CmpJob) : CmpRes :=
  let ud := j.arg
  let r := resolveDeep s ud 17
  if r.1 ≠ 0 then .done s r
  else if isComp ud ∧ (compEntry s (compNum ud)).owner ≠ j.vi then .done s (0x05, 0x85)
  else
    let leaves := physLeaves s ud 18
    let s := if isComp ud ∧ ((compEntry s (compNum ud)).st = 1 ∨ (compEntry s (compNum ud)).st = 2)
      then setCompSt s (compNum ud) 4 else s
    let s :=
      if !isComp ud ∧ (j.vi = 0 ∨ j.vi = 128) then
        (List.range 256).foldl (fun s v =>
          let vi : Vi := BitVec.ofNat 8 v
          let (s, n, hit) := resetOn s vi leaves
          if hit ∧ (getInst s vi).st ≠ 3 ∧ (getInst s vi).st ≠ 4 then
            postEvent s vi ⟨3, #v[ud, j.vi.setWidth 64 ||| at_ n 32, 0, 0, 0]⟩ else s) s
      else (resetOn s j.vi leaves).1
    match s.cmpJobs with
    | [] => .wait s
    | h :: rest => .wait { s with cmpJobs := { h with started := true } :: rest }

/-- The manager executes one command (R51, R52). -/
def cmpExec (s : State) (j : CmpJob) : CmpRes :=
  match j.op with
  | .create => startMembers s j
  | .add =>
    let r := entryCheck s j true true
    if r.1 ≠ 0 then .done s r else startMembers s j
  | .remove =>
    let r := entryCheck s j true true
    if r.1 ≠ 0 then .done s r else let (s, r) := removeMembers s j; .done s r
  | .destroy =>
    let r := entryCheck s j true true
    if r.1 ≠ 0 then .done s r
    else
      let e := compEntry s j.number
      if e.st ≠ 1 ∨ hasParent s j.number ∨ e.imports ≠ [] then .done s (0x01, 0x86)
      else .done { s with comps := tset s.comps j.number { gen := e.gen } } (0, 0)
  | .read =>
    let r := entryCheck s j false false
    if r.1 ≠ 0 then .done s r else .done (readMembers s j.fn j.number) (0, 0)
  | .reset => resetUnit s j
  | .grant =>
    let r := entryCheck s j true false
    if r.1 ≠ 0 then .done s r
    else
      let e := tget s.comps j.number {}
      if e.imports ≠ [] then .done s (0x01, 0x86)
      else
        let g := if j.grantEn then some (BitVec.ofNat 8 (bits j.arg 23 16), BitVec.ofNat 16 (bits j.arg 15 0)) else none
        .done { s with comps := tset s.comps j.number { e with exported := g } } (0, 0)

/-- Commands run in order until one waits (R51); `fuel` bounds them. -/
def cmpRun (s : State) : Nat → State
  | 0 => s
  | fuel + 1 =>
    match s.cmpJobs with
    | [] => s
    | j :: rest =>
      if j.started then s
      else match cmpExec s j with
        | .done s r => cmpRun (statDone { s with cmpJobs := rest } (cmpStatReg j.fn) r) fuel
        | .wait s => s

/-- The command at the head is complete; the next ones run. -/
def cmpFinish (s : State) (j : CmpJob) (r : BitVec 8 × BitVec 8) : State :=
  let rest := s.cmpJobs.drop 1
  cmpRun (statDone { s with cmpJobs := rest } (cmpStatReg j.fn) r) rest.length

/-- A write of `CMP_CMD` with an OP (R50, R51): refused while the feature COMPOSITES is withdrawn. A COUNT above 256 uses the 256 entries there
are; CREATE and ADD refuse it as TOO_MANY, REMOVE runs (DESIGN CHOICE, Assumption 40). -/
def cmpCommand (fn : Fn) (op : CmpOp) (c : CmpArgs) (s : State) : State :=
  let k := cmpStatReg fn
  if statBusy s k then statOvr s k
  else
    let s := rset s (cmpCmdReg fn) (cmpWord op c)
    let pf := isPf fn
    if featureVer s.fw 2 = 0 then statDone s k (0x0B, 0)
    else if pf ∧ !samePort fn c.vi then statDone s k (0x05, 0x85)
    else
      let es := (List.range (Nat.min c.count.toNat 256)).map (membufEntry s fn)
      let j : CmpJob := {
        fn := fn, pf := pf, vi := if pf then c.vi else fn, op := op, number := c.number.toNat, lock := c.lock,
        grantEn := c.grantEn, count := c.count.toNat, mems := es.map (·.1), bad := es.any (·.2), arg := rget s (cmpArgReg fn) }
      let s := statStart { s with cmpJobs := s.cmpJobs ++ [j] } k
      cmpRun s s.cmpJobs.length

def execCmpCreate (fn : Fn) (c : CmpArgs) (s : State) : Host.Outcome State Fault Refusal :=
  hostWr fn 0x810000 (cmpWord .create c) (cmpCommand fn .create c) s
def execCmpAdd (fn : Fn) (c : CmpArgs) (s : State) : Host.Outcome State Fault Refusal :=
  hostWr fn 0x810000 (cmpWord .add c) (cmpCommand fn .add c) s
def execCmpRemove (fn : Fn) (c : CmpArgs) (s : State) : Host.Outcome State Fault Refusal :=
  hostWr fn 0x810000 (cmpWord .remove c) (cmpCommand fn .remove c) s
def execCmpDestroy (fn : Fn) (c : CmpArgs) (s : State) : Host.Outcome State Fault Refusal :=
  hostWr fn 0x810000 (cmpWord .destroy c) (cmpCommand fn .destroy c) s
def execCmpRead (fn : Fn) (c : CmpArgs) (s : State) : Host.Outcome State Fault Refusal :=
  hostWr fn 0x810000 (cmpWord .read c) (cmpCommand fn .read c) s
def execCmpReset (fn : Fn) (c : CmpArgs) (s : State) : Host.Outcome State Fault Refusal :=
  hostWr fn 0x810000 (cmpWord .reset c) (cmpCommand fn .reset c) s
def execCmpExport (fn : Fn) (c : CmpArgs) (s : State) : Host.Outcome State Fault Refusal :=
  hostWr fn 0x810000 (cmpWord .grant c) (cmpCommand fn .grant c) s

/-! ## Confirmation (R49) -/

/-- The home's three conditions, and that remote members of one importer are disjoint (R49). -/
def homeConfirms (s : State) (dev : BitVec 16) (vi : Vi) (ud : Word) (others : List Word) : Bool :=
  let e := compEntry s (compNum ud)
  isComp ud && (resolveUd s ud).1 == 0 && e.exported == some (vi, dev) && !e.members.any (·.remote)
    && !(physLeaves s ud 18).any (fun a => others.any (fun o => (physLeaves s o 18).any (meets a)))

/-- COMPOSITE_CONFIRM (R49): an answer reaches the command that waits for it; at a home, a request is confirmed or withdrawn. -/
def execCompositeConfirm (m : ConfirmMsg) (s : State) : Host.Outcome State Fault Refusal :=
  match m with
  | .answer home ud ok leaves level =>
    match s.cmpJobs with
    | [] => .next s
    | j :: rest =>
      if !j.started ∨ !j.unconf.contains (home, ud) then .next s
      else if !ok then .next (settle (cmpFinish s j (0x05, 0x87)))
      else
        let mems := j.mems.map (fun m => if m.remote ∧ m.home = home ∧ m.ud = ud then { m with leaves := leaves, level := level } else m)
        let j' := { j with mems := mems, unconf := j.unconf.filter (fun x => x != (home, ud)) }
        if j'.unconf ≠ [] then .next { s with cmpJobs := j' :: rest }
        else
          let (s, r) := applyMembers { s with cmpJobs := j' :: rest } j'
          .next (settle (cmpFinish s j' r))
  | .ask dev vi ud others =>
    let n := compNum ud
    if homeConfirms s dev vi ud others then
      .next { s with comps := tset s.comps n { tget s.comps n {} with imports := (compEntry s n).imports ++ [dev] } }
    else .next s
  | .drop dev ud =>
    let n := compNum ud
    if (resolveUd s ud).1 = 0 ∧ n > 256 then
      .next { s with comps := tset s.comps n { tget s.comps n {} with imports := (compEntry s n).imports.erase dev } }
    else .next s

/-- A launch waits on a composite. -/
def launchOn (s : State) (n : Nat) : Bool := s.launches.any (fun l => isComp l.d.target && compNum l.d.target == n)

/-- UNIT_RESET_COMPLETE (R53, R54, R58): the last Facet of the closure is complete. A composite on which a launch was submitted meanwhile is
RUNNING at once, since it has one waiting. -/
def execUnitResetComplete (s : State) : Host.Outcome State Fault Refusal :=
  match s.cmpJobs with
  | [] => .next s
  | j :: _ =>
    if j.started && j.op == .reset then
      let n := compNum j.arg
      let s := if isComp j.arg ∧ (resolveUd s j.arg).1 = 0 ∧ (compEntry s n).st = 4 then setCompSt s n (if launchOn s n then 2 else 1) else s
      .next (settle (cmpFinish s j (0, 0)))
    else .next s

end Sys2Proof.Machine
end

