-- ==== Sys2Proof/Machine/MemMgmt.lean ====
section
/-! DEFINITION. Granule tables, row modes, spill areas, scrubbing and mirrored writes (R182-R226). -/

namespace Sys2Proof.Machine

/-! ## The VI block -/

/-- BAR0 offset at which a function reaches a register of an instance's VI block (R258, R298). -/
def viOff (fn : Fn) (vi : Vi) (off : Nat) : Nat := if isPf fn then 0x100000 + 0x1000 * vi.toNat + off else 0x100000 + off

/-- A function reaches the VI block of an instance: a PF those of its port, a VF its own (R258). -/
def viReach (fn : Fn) (vi : Vi) : Bool := if isPf fn then samePort fn vi else fn == vi

/-- A write of a register of a VI block. -/
def hostVi (fn : Fn) (vi : Vi) (off : Nat) (v : Word) (body : State → State) (s : State) : Host.Outcome State Fault Refusal :=
  if viReach fn vi then hostWr fn (viOff fn vi off) v body s else .next s

/-- A write of a register that only a PF reaches, at a BAR0 offset. -/
def hostPf (fn : Fn) (off : Nat) (v : Word) (body : State → State) (s : State) : Host.Outcome State Fault Refusal :=
  if isPf fn then hostWr fn off v body s else .next s

/-- A VF's write of a register that only a PF may write: ignored and recorded (R260). -/
def viRefused (s : State) (fn vi : Fn) (off : Nat) : State := accessErr s fn (viOff fn vi off)

/-! ## Granule tables (R194-R199) -/

def gtStatReg (vi : Vi) : Nat := viReg vi 0x210
def gtArgReg (vi : Vi) : Nat := viReg vi 0x208

/-- State of a physical granule (R195). -/
def granFree (s : State) (g : Nat) : Bool := decide (g ≤ 2287) && (tget? s.gran g).isNone

/-- Lowest-numbered FREE granule whose row has a mode. -/
def pickGran (s : State) (spread : Bool) : Option Nat :=
  (List.range 2288).find? (fun g => granFree s g && rowIsSpread s (g / 32) == spread)

/-- FREE granules in rows of a mode (`DEV_GRAN_STAT`). -/
def freeGrans (s : State) (spread : Bool) : Nat :=
  ((List.range 2288).filter (fun g => granFree s g && rowIsSpread s (g / 32) == spread)).length

/-- The fields of an entry that commands set: VALID, RD, WR, EX, MIRROR, SNAP, MPGRAN, PGRAN. -/
def mkEntry (a : Word) (g : Nat) : Word :=
  at_ 1 63 ||| (a &&& 0x7C00000000000000) ||| (if gtMirror a then at_ (gtMpgran a) 32 else 0) ||| BitVec.ofNat 64 g

/-- Entry i with PLACE computed (R194). -/
def gtShow (s : State) (vi : Vi) (i : Nat) : Word :=
  let e := gtEntry s vi i
  if gtValid e && rowIsSpread s (gtPgran e / 32) then e ||| at_ 1 57 else e

/-- A snapshot operation of the instance that guards or will guard its SNAP granules (R463). -/
def snapGuards (s : State) (vi : Vi) : Bool :=
  match tget? s.snaps vi.toNat with
  | some x => x.st == 1 || x.st == 2 || x.st == 3
  | none => false

/-- A snapshot covers a granule of the instance, until it has finished (R199, R226, R463): before its set of granules is fixed, each one with
SNAP 1. -/
def snapCovers (s : State) (vi : Vi) (i : Nat) : Bool :=
  match tget? s.snaps vi.toNat with
  | some x =>
    if x.st = 1 ∨ x.st = 2 then gtSnap (gtEntry s vi i)
    else if x.st = 3 ∨ x.st = 4 then x.grans.any (fun g => g.index == i)
    else false
  | none => false

/-- MIRROR may be set: the pair is in Mirrored mode and the partner confirms MPGRAN (detail NO_MIRROR). -/
def mirrorOk (s : State) (a : Word) (confirmed : Bool) : Bool := !gtMirror a || (s.pair.mode == 1 && confirmed)

/-- A granule table command is written: BUSY, OVR and the command register (R197). -/
def gtCmd (vi : Vi) (op index : Nat) (body : State → State) (s : State) : State :=
  if statBusy s (gtStatReg vi) then statOvr s (gtStatReg vi)
  else body (rset s (viReg vi 0x200) (at_ index 16 ||| at_ op 0))

def gtDone (s : State) (vi : Vi) (r : BitVec 8 × BitVec 8) : State := statDone s (gtStatReg vi) r

/-- MAP (R195, R197, R201). -/
def doMap (fn : Fn) (vi : Vi) (index : BitVec 12) (confirmed : Bool) (s : State) : State :=
  let a := rget s (gtArgReg vi)
  let want := gtPgran a
  let g? := if want = 0xFFF then pickGran s (bit a 57) else some want
  if !isPf fn then gtDone s vi (0x05, 0x88)
  else if gtValid (gtEntry s vi index.toNat) then gtDone s vi (0x0B, 0x84)
  else match g? with
    | none => gtDone s vi (0x0C, 0x85)
    | some g =>
      if g > 2287 then gtDone s vi (0x05, 0x81)
      else if tget? s.gran g = some .scrubbing then gtDone s vi (0x01, 0x83)
      else if (tget? s.gran g).isSome then gtDone s vi (0x05, 0x82)
      else if !mirrorOk s a confirmed then gtDone s vi (0x0B, 0x8A)
      else
        let s := { s with
          gt := tset s.gt (vi.toNat * 4096 + index.toNat) (mkEntry a g), gran := tset s.gran g (.mapped vi index) }
        gtDone (rset s (gtStatReg vi) (setBits (rget s (gtStatReg vi)) 43 32 g)) vi (0, 0)

/-- UNMAP (R199): the granule goes to SCRUBBING, once every write translated under the entry has been performed. -/
def doUnmap (fn : Fn) (vi : Vi) (index : BitVec 12) (s : State) : State :=
  let e := gtEntry s vi index.toNat
  if !isPf fn then gtDone s vi (0x05, 0x88)
  else if !gtValid e then gtDone s vi (0x05, 0x81)
  else if snapCovers s vi index.toNat then gtDone s vi (0x01, 0x86)
  else if usedIn s vi index.toNat ≠ [] then gtDone s vi (0x01, 0x87)
  else if s.heldW.any (fun h => decide (h.page / 16384 = gtPgran e)) then
    statStart { s with unmaps := s.unmaps ++ [(vi, index)] } (gtStatReg vi)
  else
    gtDone { s with gt := tdel s.gt (vi.toNat * 4096 + index.toNat), gran := tset s.gran (gtPgran e) .scrubbing } vi (0, 0)

/-- SETATTR (R197, R199, R463): a VF changes RD, WR and EX only. -/
def doSetattr (fn : Fn) (vi : Vi) (index : BitVec 12) (confirmed : Bool) (s : State) : State :=
  let a := rget s (gtArgReg vi)
  let e := gtEntry s vi index.toNat
  let new := mkEntry a (gtPgran e)
  let mirCh := gtMirror a != gtMirror e || (gtMirror a && gtMpgran a != gtMpgran e)
  let snapCh := gtSnap a != gtSnap e
  if !isPf fn ∧ gtValid e ∧ (mirCh ∨ snapCh) then gtDone s vi (0x05, 0x88)
  else if !gtValid e then gtDone s vi (0x05, 0x81)
  else if snapCh ∧ snapGuards s vi then gtDone s vi (0x01, 0x86)
  else if mirCh ∧ !mirrorOk s a confirmed then gtDone s vi (0x0B, 0x8A)
  else gtDone { s with gt := tset s.gt (vi.toNat * 4096 + index.toNat) new } vi (0, 0)

/-- READ (R199). -/
def doGtRead (vi : Vi) (index : BitVec 12) (s : State) : State :=
  gtDone (rset s (gtArgReg vi) (gtShow s vi index.toNat)) vi (0, 0)

/-- `VI_GT_CMD` as written. -/
def gtWord (op : Nat) (index : BitVec 12) : Word := at_ index.toNat 16 ||| at_ op 0

def execGtMap (fn : Fn) (vi : Vi) (index : BitVec 12) (confirmed : Bool) (s : State) : Host.Outcome State Fault Refusal :=
  hostVi fn vi 0x200 (gtWord 1 index) (gtCmd vi 1 index.toNat (doMap fn vi index confirmed)) s
def execGtUnmap (fn : Fn) (vi : Vi) (index : BitVec 12) (s : State) : Host.Outcome State Fault Refusal :=
  hostVi fn vi 0x200 (gtWord 2 index) (gtCmd vi 2 index.toNat (doUnmap fn vi index)) s
def execGtSetattr (fn : Fn) (vi : Vi) (index : BitVec 12) (confirmed : Bool) (s : State) : Host.Outcome State Fault Refusal :=
  hostVi fn vi 0x200 (gtWord 3 index) (gtCmd vi 3 index.toNat (doSetattr fn vi index confirmed)) s
def execGtRead (fn : Fn) (vi : Vi) (index : BitVec 12) (s : State) : Host.Outcome State Fault Refusal :=
  hostVi fn vi 0x200 (gtWord 4 index) (gtCmd vi 4 index.toNat (doGtRead vi index)) s

/-- Bytes, poison and undetected errors of a run of physical memory become zeros (R181, R196, R500). -/
def zeroFill (s : State) (pa n : Nat) : State :=
  let inside (b : Nat) : Bool := decide (pa / 64 ≤ b) && decide (b < (pa + n) / 64)
  { s with
    mem := s.mem.zero pa n
    poison := s.poison.filter (fun b => !inside b)
    ue := s.ue.filter (fun b => !inside b) }

/-- SCRUB_COMPLETE (R195, R196): a SCRUBBING granule holds zeros and is FREE. -/
def execScrubComplete (g : BitVec 12) (s : State) : Host.Outcome State Fault Refusal :=
  if tget? s.gran g.toNat = some .scrubbing then
    .next (zeroFill { s with gran := tdel s.gran g.toNat } (g.toNat * 2 ^ 30) (2 ^ 30))
  else .next s

/-! ## Row modes (R183, R185) -/

def granStatReg : Nat := devReg 0x4008

/-- A row mode command (R185): refused with a granule of the row not FREE. -/
def rowCommand (op : Nat) (row : BitVec 7) (s : State) : State :=
  if statBusy s granStatReg then statOvr s granStatReg
  else
    let s := rset s (devReg 0x4000) (at_ row.toNat 8 ||| at_ op 0)
    let r := row.toNat
    if r > 70 then statDone s granStatReg (0x05, 0x81)
    else if !(List.range 32).all (fun k => granFree s (32 * r + k)) then statDone s granStatReg (0x01, 0x80)
    else
      let m : BitVec 72 := BitVec.ofNat 72 (2 ^ r)
      statDone { s with rowSpread := if op = 2 then s.rowSpread ||| m else s.rowSpread &&& ~~~m } granStatReg (0, 0)

def execMakeColumnLocal (fn : Fn) (row : BitVec 7) (s : State) : Host.Outcome State Fault Refusal :=
  hostPf fn (devReg 0x4000) (at_ row.toNat 8 ||| at_ 1 0) (rowCommand 1 row) s
def execMakeSpread (fn : Fn) (row : BitVec 7) (s : State) : Host.Outcome State Fault Refusal :=
  hostPf fn (devReg 0x4000) (at_ row.toNat 8 ||| at_ 2 0) (rowCommand 2 row) s

/-! ## Spill areas (R203-R208) -/

/-- The value a write of `VI_SPILL_DEV` gives: a COUNT above 4,096 keeps the old one. -/
def spillDevVal (old v : Word) : Word :=
  let c := bits v 28 16
  at_ (if c > 4096 then bits old 28 16 else c) 16 ||| at_ (bits v 11 0) 0

/-- Clusters an instance holds or shares. -/
def cluCount (s : State) (vi : Vi) : Nat := (clustersOf s vi).length

/-- Checks of a spill area register (R203, R205): status and detail. -/
def spillCheck (s : State) (vi : Vi) (host : Bool) (v : Word) : BitVec 8 × BitVec 8 :=
  let s' := rset s (viReg vi (if host then 0x228 else 0x220)) v
  let (first, count) := spillDevRun s' vi
  let badRun := !host && (List.range count).any (fun j =>
    decide (first + j > 4095) || !permits (gtEntry s vi (first + j)) .rdwr)
  let lost := s.spill.any (fun p => p.1 == vi && (match p.2 with
    | .dev a => !host && !(decide (first ≤ bits a 41 30) && decide (bits a 41 30 < first + count))
    | .host b => host && !(decide (spillHostBase s' vi = spillHostBase s vi)
        && decide ((b.toNat - spillHostBase s vi) / recSize < spillHostEntries s' vi))))
  if badRun then (0x05, 0x81)
  else if lost then (0x01, 0x87)
  else if spillCapacity s' vi < spillNeed (cluCount s vi) then (0x0C, 0x89)
  else (0, 0)

/-- A write of `VI_SPILL_DEV` or `VI_SPILL_HOST` (R205, R206). -/
def spillWriteReg (fn : Fn) (vi : Vi) (host : Bool) (v : Word) (s : State) : State :=
  let off := if host then 0x228 else 0x220
  if !isPf fn then viRefused s fn vi off
  else
    let v := if host then v &&& 0xFFFFFFFFFFE00FFF else spillDevVal (rget s (viReg vi off)) v
    let r := spillCheck s vi host v
    if r.1 = 0 then rset s (viReg vi off) v
    else viRefused (statDone s (gtStatReg vi) r) fn vi off

def execViSpillWrite (fn : Fn) (vi : Vi) (host : Bool) (v : Word) (s : State) : Host.Outcome State Fault Refusal :=
  hostVi fn vi (if host then 0x228 else 0x220) v (spillWriteReg fn vi host v) s

/-- A write of `DEV_CTX_SPILL` (R208): ignored while a host-held context is allocated. A COUNT above 15,360 keeps the old one. -/
def ctxSpillWrite (fn : Fn) (v : Word) (s : State) : State :=
  if s.ctxs.any (fun p => decide (p.1 ≥ 1048576)) then accessErr s fn (devReg 0x4030)
  else
    let old := rget s (devReg 0x4030)
    let c := bits v 13 0
    rset { s with ctxFn := fn } (devReg 0x4030) ((v &&& 0xFFFFFFFFFFE00000) ||| at_ (if c > 15360 then bits old 13 0 else c) 0)

def execDevCtxSpillWrite (fn : Fn) (v : Word) (s : State) : Host.Outcome State Fault Refusal :=
  hostPf fn (devReg 0x4030) v (ctxSpillWrite fn v) s

/-! ## Scrubbing (R209-R213) -/

/-- A corrected error of a block is recorded (R209, R213). -/
def foundCe (s : State) (b : Nat) : State :=
  let st := stackOf s (b * 64)
  raiseErr s { cause := 0x02, sev := 1, unit := columnUd s st, addr := BitVec.ofNat 64 (b * 64), arg0 := BitVec.ofNat 64 st }

/-- PATROL_SCRUB (R212): the read of a block corrects it, or poisons it without a trap. -/
def execPatrolScrub (block : BitVec 36) (found : ScrubFinds) (s : State) : Host.Outcome State Fault Refusal :=
  let b := block.toNat
  if b * 64 ≥ memEnd ∨ s.pwr.st = 2 ∨ s.boot.phase ≠ 8 then .next s
  else
    match found with
    | .clean => .next (if s.ue.contains b then foundUe s b none else s)
    | .corrected => .next (if s.ue.contains b then foundUe s b none else foundCe s b)
    | .uncorrectable => .next (if s.poison.contains b then s else foundUe s b none)

/-! ## Mirrored writes (R216-R220) and the release of held ones -/

/-- A write of the descriptor is still held by a guard or unacknowledged by the partner (R217, R223). -/
def descOpen (s : State) (id : Nat) : Bool :=
  s.heldW.any (fun h => h.writer == .desc id) || s.pair.out.any (fun m => m.writer == .desc id)

/-- A descriptor in progress is complete: its record is produced (R310, R337) unless a reset made it old
(R287), and its window pages are freed (R333). -/
def dropDesc (s : State) (d : DOp) (f : BitVec 8 × BitVec 8 × Word × BitVec 32) : State :=
  let s := { s with descs := s.descs.filter (fun x => x.id != d.id), stgWin := s.stgWin.filter (fun p => p.2.1 != d.id) }
  if d.dead then s else completeSq s d.vi d.q d.seq f.1 f.2.1 f.2.2.1 f.2.2.2

/-- A MIRROR_ACK goes out with the sequence of the last mirrored write that arrived, once every one is performed (R217, R436). -/
def mirrorAckOut (s : State) : State :=
  if s.heldW.any (fun h => h.writer == .partner) then s
  else { s with linkOut := s.linkOut ++ [(none, {
    ty := 4, vc := 4, dst := partnerDev s, src := ownSite s, body := toBytes 4 (s.pair.mirGot - 1).toNat })] }

/-- The operation of a thread whose write memory has performed: complete once no part is held or unacknowledged (R217, R223). `res` is
what a held atomic returned, with its poison. -/
def writerDone (s : State) (w : Writer) (res : Option (Nat × Bool)) : State :=
  match w with
  | .thread t op =>
    match getThr s t with
    | none => s
    | some th =>
      match (th.loads ++ th.stores).find? (fun o => o.id == op && o.perf && !o.done) with
      | none => s
      | some o =>
        let o := match res with
          | some (v, p) =>
            let poisoned : Option (Bool × Word) := match o.act with
              | .amo _ _ a _ _ ret => if p && ret then some (true, a) else none
              | _ => none
            { o with res := BitVec.ofNat 1024 v, fault := o.fault.orElse (fun _ => poisoned) }
          | none => o
        putThr s t (setOp th { o with done := !writeOpen s t op })
  | .engine _ => s
  | .bar2 _ => s
  | .partner => mirrorAckOut s
  | .brm n _ psn =>
    match tget? s.ctxs n, res with
    | some (.qp q), some r =>
      { s with ctxs := tset s.ctxs n (.qp { q with placed := q.placed.map (fun x => if x.psn = psn then { x with res := some r } else x) }) }
    | _, _ => s
  | .desc id =>
    match s.descs.find? (fun d => d.id == id && d.st == .writing) with
    | none => s
    | some d =>
      match d.fin with
      | some f => if descOpen s id then s else dropDesc s d f
      | none => s

/-- The writes held before one. -/
def heldBefore (s : State) (h : HeldW) : List HeldW := s.heldW.takeWhile (fun x => x != h)

/-- A write that memory held is performed now, unless something still holds it (R223, R300, R451). -/
def releaseOne (s : State) (h : HeldW) : State :=
  if !s.heldW.contains h || holds s (heldBefore s h) h.mirror h.writer h.act then s
  else
    let vi? : Option Vi := match h.writer with | .partner => none | _ => some h.vi
    let (s, v, p) := performW { s with heldW := s.heldW.erase h } vi? h.mirror h.writer h.act
    writerDone s h.writer (match h.act with | .amo _ _ _ _ _ => some (v, p) | .bytes _ _ => none | .mark _ _ => none)

/-- A granule whose UNMAP has waited for the writes translated under its entry leaves the table (R199). -/
def unmapDone (s : State) (p : Vi × BitVec 12) : State :=
  let e := gtEntry s p.1 p.2.toNat
  gtDone { s with
    unmaps := s.unmaps.erase p
    gt := tdel s.gt (p.1.toNat * 4096 + p.2.toNat)
    gran := if gtValid e then tset s.gran (gtPgran e) .scrubbing else s.gran } p.1 (0, 0)

/-- A held write lies in the granule an entry maps. -/
def granHeld (s : State) (e : Word) : Bool := s.heldW.any (fun h => decide (h.page / 16384 = gtPgran e))

/-- Every UNMAP whose granule has no held write any more completes. -/
def finishUnmaps (s : State) : State :=
  s.unmaps.foldl (fun s p => if granHeld s (gtEntry s p.1 p.2.toNat) then s else unmapDone s p) s

/-- Held writes that nothing holds any more are performed, in the order they arrived (R222, R223), and what waited for them goes on. -/
def releaseHeld (s : State) : State := finishUnmaps (s.heldW.foldl releaseOne s)

/-- A page's guard bits clear, and the writes held for it are performed (R222, R223). -/
def clearGuard (s : State) (page : Nat) : State := releaseHeld { s with guard := s.guard.filter (· != page) }

/-- The entry that maps a physical granule, with its instance. -/
def mapOf (s : State) (g : Nat) : Option (Vi × Word) :=
  match tget? s.gran g with
  | some (.mapped vi i) => some (vi, gtEntry s vi i.toNat)
  | some .scrubbing => none
  | none => none

/-- A mirrored write of the partner's granule `src` arrives for granule `g` (R219, R223): performed and acknowledged, or refused with an
error. `marker` bytes of poison marker stand in place of data. One that would run past its granule is only counted as arrived. -/
def mirrorArrive (src g off : Nat) (data : List Byte) (marker : Nat) (s : State) : State :=
  let n := if marker = 0 then data.length else marker
  let pa := g * 2 ^ 30 + off
  let s := { s with pair := { s.pair with mirGot := s.pair.mirGot + 1 } }
  let bad (vi : Option Vi) : State :=
    raiseErr s { cause := 0x10, sev := 2, vi := vi, addr := BitVec.ofNat 64 pa, arg0 := BitVec.ofNat 64 src }
  match mapOf s g with
  | some (vi, e) =>
    if gtMirror e && decide (gtMpgran e = src) then
      if off + n ≤ 2 ^ 30 then mirrorAckOut (engAct s vi none (if marker = 0 then .bytes pa data else .mark pa n) .partner) else s
    else bad (some vi)
  | none => bad none

/-- MIRROR_WR (R216, R219). -/
def execMirrorWr (src g : BitVec 12) (off : BitVec 30) (data : List Byte) (marker : BitVec 30) (s : State) :
    Host.Outcome State Fault Refusal :=
  .next (settle (mirrorArrive src.toNat g.toNat off.toNat data marker.toNat s))

/-- Mirrored writes leave the list of those unacknowledged, and their issuers complete (R217). -/
def ackWrites (s : State) (done : MirOut → Bool) : State :=
  let gone := s.pair.out.filter done
  let s := { s with pair := { s.pair with out := s.pair.out.filter (fun m => !done m) } }
  gone.foldl (fun s m => writerDone s m.writer none) s

/-- MIRROR_ACK (R217): every mirrored write up to a sequence is performed at the partner. -/
def execMirrorAck (seq : BitVec 32) (s : State) : Host.Outcome State Fault Refusal :=
  .next (settle (ackWrites s (fun m => atOrAfter seq m.seq)))

end Sys2Proof.Machine
end

