-- ==== Sys2Proof/Machine/SyncHost.lean ====
section
/-! DEFINITION. Sync operations at their homes and near units (R232-R246), and the sync commands of the host (R228-R231, R239, R250, R620). -/

namespace Sys2Proof.Machine

/-! ## Registers of the sync block -/

def synStatReg (fn : Fn) : Nat := fnReg fn 0x400018
def synArg0 (s : State) (fn : Fn) : Nat := bits (rget s (fnReg fn 0x400008)) 47 0
def synArg1 (s : State) (fn : Fn) : Nat := bits (rget s (fnReg fn 0x400010)) 25 0
def synDataReg (fn : Fn) (i : Nat) : Nat := fnReg fn (0x400020 + 8 * i)

def SynOp.code : SynOp → Nat
  | .config => 1 | .read => 2 | .restore => 3 | .unset => 4 | .semv => 5 | .semt => 6 | .ecadd => 7 | .ecread => 8

def synOpOf (n : Nat) : Option SynOp :=
  match n with
  | 1 => some .config | 2 => some .read | 3 => some .restore | 4 => some .unset
  | 5 => some .semv | 6 => some .semt | 7 => some .ecadd | 8 => some .ecread | _ => none

/-- `SYN_CMD` as written. -/
def synCmdWord (op : SynOp) (c : SynArgs) : Word :=
  at_ c.obj.toNat 48 ||| at_ c.ty.toNat 24 ||| at_ c.vi.toNat 8 ||| at_ op.code 0

/-- Operations waiting at the home, a near unit's message counting once for each arrival (`SYN_DATA2.WAITERS`). -/
def waitersOf (o : SynObj) : Nat := o.waiters.length + o.remote.foldl (fun a p => a + p.2.1) 0

/-- `SYN_DATA0` to `SYN_DATA3` of an object. -/
def synData (s : State) (vi : Vi) (n : Nat) : Vector Word 4 :=
  let o := getSyn s n
  let owned := decide (o.ty = 3) && o.owner.isSome
  let value := if o.ty = 3 then b2n owned else o.value.toNat
  let aux := if o.ty = 0 then o.expect.toNat else if owned then ((o.owner.map Prod.snd).getD (0 : BitVec 32)).toNat else 0
  let aux2 := if o.ty = 0 then o.lastSkew.toNat * 2 ^ 32 + o.lastMem.toNat * 65536
    else if owned then (o.owner.map Prod.fst).getD 0 else 0
  #v[at_ o.st.toNat 62 ||| at_ o.ty.toNat 60 ||| at_ (b2n o.phase) 59 ||| at_ (b2n o.launch.isSome) 58 ||| BitVec.ofNat 64 value,
     at_ o.gen.toNat 48 ||| at_ vi.toNat 40 ||| o.wdog.setWidth 64,
     at_ (waitersOf o) 44 ||| BitVec.ofNat 64 aux,
     BitVec.ofNat 64 aux2]

/-- The data registers are filled from an object. -/
def fillSyn (s : State) (fn : Fn) (vi : Vi) (n : Nat) : State :=
  let d := synData s vi n
  rset (rset (rset (rset s (synDataReg fn 0) d[0]) (synDataReg fn 1) d[1]) (synDataReg fn 2) d[2]) (synDataReg fn 3) d[3]

/-- `SYN_DATA0.VALUE` after a host operation. -/
def fillValue (s : State) (fn : Fn) (v : BitVec 48) : State :=
  rset s (synDataReg fn 0) (setBits (rget s (synDataReg fn 0)) 47 0 v.toNat)

/-- The object has waiters or is allocated to a launch (OBJ_BUSY). -/
def synBusy (o : SynObj) : Bool := o.waiters != [] || o.remote != [] || o.launch.isSome

/-- The object is a lock that has an owner: an ABANDONED one has none any more (R247, R250). -/
def lockOwned (o : SynObj) : Bool := o.ty == 3 && o.st != 0 && o.owner.isSome

/-- CONFIG (R229, R230, R250). -/
def synConfigure (s : State) (fn : Fn) (vi : Vi) (n : Nat) (ty : BitVec 2) : State × (BitVec 8 × BitVec 8) :=
  let o := getSyn s n
  let v := synArg0 s fn
  let w := synArg1 s fn
  if synBusy o ∨ lockOwned o then (s, (0x01, 0x84))
  else if (ty = 0 ∧ (v = 0 ∨ v > 2 ^ 28)) ∨ w > 60000000 then (s, (0x0B, 0x86))
  else
    let o' : SynObj := {
      st := 1, ty := ty, gen := if o.gen = 0xFFFF then 1 else o.gen + 1,
      value := if ty = 1 ∨ ty = 2 then BitVec.ofNat 48 v else 0,
      expect := if ty = 0 then BitVec.ofNat 32 v else 0,
      wdog := BitVec.ofNat 26 (if w = 0 then 1000000 else w) }
    (fillSyn (setSyn s n o') fn vi n, (0, 0))

/-- RESTORE (R250). -/
def synRestoreObj (s : State) (fn : Fn) (n : Nat) : State × (BitVec 8 × BitVec 8) :=
  let o := getSyn s n
  if o.st = 0 then (s, (0x05, 0x87))
  else if synBusy o ∨ lockOwned o then (s, (0x01, 0x84))
  else (setSyn s n { o with
    st := 1, owner := none, bad := false,
    value := if o.ty = 1 ∨ o.ty = 2 then BitVec.ofNat 48 (synArg0 s fn) else 0 }, (0, 0))

/-- UNSET (R230). -/
def synUnsetObj (s : State) (n : Nat) : State × (BitVec 8 × BitVec 8) :=
  let o := getSyn s n
  if synBusy o then (s, (0x01, 0x84)) else (setSyn s n { o with st := 0, owner := none, value := 0, bad := false }, (0, 0))

/-- Checks of a host operation (R229, R239): the object's state and type. -/
def hostOpCheck (o : SynObj) (ty : BitVec 2) : BitVec 8 × BitVec 8 :=
  if o.st = 0 then (0x05, 0)
  else if o.bad then (0x0A, 0)
  else if o.ty ≠ ty then (0x0B, 0x80)
  else if o.st = 2 then (0x07, 0) else (0, 0)

/-- A host operation on an ACTIVE object (R232, R239). -/
def hostOp (s : State) (fn : Fn) (n : Nat) (op : SynOp) : State × (BitVec 8 × BitVec 8) :=
  let o := getSyn s n
  let v := synArg0 s fn
  let x : BitVec 48 := BitVec.ofNat 48 v
  match op with
  | .semv =>
    if o.value.toNat + v ≥ 2 ^ 48 then (fillValue s fn o.value, (0x0B, 0x83))
    else (serveQueue (fillValue (setSyn s n { o with value := o.value + x }) fn (o.value + x)) n o.waiters.length, (0, 0))
  | .semt =>
    if o.waiters.isEmpty ∧ v ≤ o.value.toNat then (fillValue (setSyn s n { o with value := o.value - x }) fn (o.value - x), (0, 0))
    else (fillValue s fn o.value, (0x01, 0))
  | .ecadd => (serveEc (fillValue (setSyn s n { o with value := o.value + x }) fn (o.value + x)) n, (0, 0))
  | .ecread => (fillValue s fn o.value, (0, 0))
  | .config => (s, (0, 0))
  | .read => (s, (0, 0))
  | .restore => (s, (0, 0))
  | .unset => (s, (0, 0))

/-- A checked host operation. -/
def hostOpOn (s : State) (fn : Fn) (n : Nat) (op : SynOp) (ty : BitVec 2) : State × (BitVec 8 × BitVec 8) :=
  let r := hostOpCheck (getSyn s n) ty
  if r.1 ≠ 0 then (s, r) else hostOp s fn n op

/-- One command of the sync block (R239, R250, R620). -/
def synExec (s : State) (j : SynJob) : State × (BitVec 8 × BitVec 8) :=
  if objHolder s j.obj ≠ some j.vi then (s, (0x05, 0x85))
  else match j.op with
    | .config => synConfigure s j.fn j.vi j.obj j.ty
    | .read => (fillSyn s j.fn j.vi j.obj, (0, 0))
    | .restore => synRestoreObj s j.fn j.obj
    | .unset => synUnsetObj s j.obj
    | .semv => hostOpOn s j.fn j.obj .semv 1
    | .semt => hostOpOn s j.fn j.obj .semt 1
    | .ecadd => hostOpOn s j.fn j.obj .ecadd 2
    | .ecread => hostOpOn s j.fn j.obj .ecread 2

/-- A write of `SYN_CMD` with an OP. A write of the function that memory holds has kept the command waiting at BAR0 (R239, R300). -/
def synCommand (fn : Fn) (op : SynOp) (c : SynArgs) (s : State) : State :=
  let k := synStatReg fn
  if statBusy s k then statOvr s k
  else
    let s := rset s (fnReg fn 0x400000) (synCmdWord op c)
    if isPf fn ∧ !samePort fn c.vi then statDone s k (0x05, 0x85)
    else
      let j : SynJob := { fn := fn, op := op, vi := if isPf fn then c.vi else fn, obj := c.obj.toNat, ty := c.ty }
      let (s, r) := synExec s j
      statDone s k r

def execSynConfig (fn : Fn) (c : SynArgs) (s : State) : Host.Outcome State Fault Refusal :=
  hostWr fn 0x400000 (synCmdWord .config c) (synCommand fn .config c) s
def execSynRead (fn : Fn) (c : SynArgs) (s : State) : Host.Outcome State Fault Refusal :=
  hostWr fn 0x400000 (synCmdWord .read c) (synCommand fn .read c) s
def execSynRestore (fn : Fn) (c : SynArgs) (s : State) : Host.Outcome State Fault Refusal :=
  hostWr fn 0x400000 (synCmdWord .restore c) (synCommand fn .restore c) s
def execSynUnset (fn : Fn) (c : SynArgs) (s : State) : Host.Outcome State Fault Refusal :=
  hostWr fn 0x400000 (synCmdWord .unset c) (synCommand fn .unset c) s
def execHostSemv (fn : Fn) (c : SynArgs) (s : State) : Host.Outcome State Fault Refusal :=
  hostWr fn 0x400000 (synCmdWord .semv c) (synCommand fn .semv c) s
def execHostSemt (fn : Fn) (c : SynArgs) (s : State) : Host.Outcome State Fault Refusal :=
  hostWr fn 0x400000 (synCmdWord .semt c) (synCommand fn .semt c) s
def execHostEcadd (fn : Fn) (c : SynArgs) (s : State) : Host.Outcome State Fault Refusal :=
  hostWr fn 0x400000 (synCmdWord .ecadd c) (synCommand fn .ecadd c) s
def execHostEcread (fn : Fn) (c : SynArgs) (s : State) : Host.Outcome State Fault Refusal :=
  hostWr fn 0x400000 (synCmdWord .ecread c) (synCommand fn .ecread c) s

/-! ## Operations at the home (R232-R241) -/

/-- The kind of a sync instruction word (R148). -/
def syncKind (w : Word) : Option SyncKind :=
  match bits w 63 58, bits w 57 52 with
  | 0x38, 0 => some .bar | 0x38, 1 => some .bar
  | 0x39, 0 => some .semp | 0x39, 1 => some .semv | 0x39, 2 => some .semt
  | 0x3A, 0 => some .ecadd | 0x3A, 1 => some .ecwait | 0x3A, 2 => some .ecread
  | 0x3B, 0 => some .lkacq | 0x3B, 1 => some .lkrel | 0x3B, 2 => some .lktry
  | _, _ => none

/-- `ubar`: the barrier has no handle. -/
def isUbar (w : Word) : Bool := decide (bits w 63 52 = 0x38 * 64)

/-- The operation waits for the thread's stores before it is sent (R94, R236). -/
def needsStores : SyncKind → Bool
  | .bar => true | .semv => true | .ecadd => true | .lkrel => true
  | .semp => false | .semt => false | .ecwait => false | .ecread => false | .lkacq => false | .lktry => false

/-- The operation already waits at a home or a near unit. -/
def alreadySent (s : State) (t : Tid) (op : Nat) : Bool :=
  s.syn.any (fun p => isWaiter t op p.2.waiters)
    || s.near.any (fun p => isWaiter t op p.2.inFlight || isWaiter t op p.2.gathered || isWaiter t op p.2.sent
        || p.2.rel.any (fun r => isWaiter t op r.1))

/-- The launch barrier of a `ubar`: scope 1 is the member's barrier where there is one (R64). -/
def ubarObj (l : Launch) (th : Thread) (scope : Word) : Nat :=
  if scope = 1 then ((l.subs.find? (fun p => decide (p.1 = th.member.toNat))).map (·.2)).getD l.bar else l.bar

/-- Arrivals of one launch reach a launch barrier at its home (R233, R241, R245). `mem` is the member of the last of them. -/
def barrierArrive (s : State) (n : Nat) (ws : List Waiter) (extra : Nat) (dev : BitVec 16) (mem launch : Nat) : State :=
  let o := getSyn s n
  if o.launch ≠ some launch then answerAll s n ws 0 o.phase 0x05
  else if o.st = 2 then answerAll s n ws 0 o.phase 0x07
  else arrive (mergeWaiting s launch) n ws extra dev mem

/-- A `ubar` reaches its near unit (R241): performed there when it is the home, else forwarded or gathered. -/
def ubarArrive (s : State) (t : Tid) (th : Thread) (w : Waiter) (l : Launch) (scope : Word) : State :=
  let n := ubarObj l th scope
  let q := quadOf t.facet
  if homeOf n = q then barrierArrive s n [w] 0 0 th.member.toNat l.num
  else
    let x := getNear s q n
    let w := { w with near := some q }
    setNear s q n (if x.inFlight.isEmpty then { x with inFlight := [w] } else { x with gathered := x.gathered ++ [w] })

/-- The sync unit an operation of a thread is sent to: its home, the near unit's for a `ubar` (R227, R241). -/
def syncUnit (s : State) (th : Thread) (o : Op) : Option (BitVec 2) :=
  match o.act with
  | .sync word handle _ =>
    if isUbar word then (getLaunch s th.launch).map (fun l => homeOf (ubarObj l th handle)) else some (homeOf (bits handle 15 0))
  | _ => none

/-- An earlier sync operation of the thread for the same home has not arrived: a thread's operations for one home arrive in the order it
issued them (R24; that they are sent in issue order is DEDUCED, Assumption 42). -/
def behindSync (s : State) (t : Tid) (th : Thread) (o : Op) : Bool :=
  th.loads.any (fun x => decide (x.id < o.id) && isSyncAct x.act && !x.done && !x.wd && !alreadySent s t x.id
    && syncUnit s th x == syncUnit s th o)

/-- A thread's operation arrives. -/
def opArrive (s : State) (t : Tid) (op : Nat) : State :=
  match getThr s t with
  | none => s
  | some th =>
    match th.loads.find? (fun o => o.id == op && !o.done && !o.wd && isSyncAct o.act) with
    | none => s
    | some o =>
      match o.act with
      | .sync word handle operand =>
        match syncKind word with
        | none => s
        | some k =>
          if alreadySent s t op ∨ (needsStores k ∧ th.scnt ≠ 0) ∨ behindSync s t th o then s
          else
            let id := syncIdent th
            let w : Waiter := {
              kind := k, t := t, op := op, operand := BitVec.ofNat 48 operand.toNat, launch := id.1, index := id.2,
              since := s.devTime, near := none }
            if isUbar word then
              match getLaunch s th.launch with
              | some l => ubarArrive s t th w l handle
              | none => s
            else
              let c := synCheck s th.vi handle k th.handler
              if c ≠ 0 then answer s w (refusedVal s (bits handle 15 0) c) false c
              else synPerform s (bits handle 15 0) w th.member.toNat
      | .ldScalar _ _ _ => s | .ldLanes _ _ => s | .stLanes _ _ => s | .amo _ _ _ _ _ _ => s | .rspop _ => s | .eamerge _ _ => s
      | .evwait _ => s | .launch _ => s | .tresume _ => s | .tendOther _ _ => s | .sysrd _ => s | .syswr _ _ => s | .evpost _ _ => s

/-- Member index of the thread of a waiter. -/
def memberOf (s : State) (ws : List Waiter) : Nat :=
  match ws.getLast? with
  | some w => ((getThr s w.t).map (fun th => th.member.toNat)).getD 0
  | none => 0

/-- A near unit's combined message reaches the home; the arrivals that gathered meanwhile go next (R241). -/
def nearArrive (s : State) (q : BitVec 2) (n : Nat) : State :=
  let x := getNear s q n
  match x.inFlight with
  | [] => s
  | w :: r =>
    let ws := w :: r
    let s := setNear s q n { x with inFlight := x.gathered, gathered := [], sent := x.sent ++ ws }
    barrierArrive s n ws 0 0 (memberOf s ws) w.launch

/-- SYNC_OP_AT_HOME (R232, R241). -/
def execSyncOpAtHome (a : SyncArrival) (s : State) : Host.Outcome State Fault Refusal :=
  match a with
  | .op t op => .next (settle (opArrive s t op))
  | .near q obj => .next (settle (nearArrive s q obj.toNat))
  | .remote obj dev count member =>
    match (getSyn s obj.toNat).launch with
    | some l => if count = 0 then .next s else .next (settle (barrierArrive s obj.toNat [] count dev member l))
    | none => .next s

/-- NEAR_UNIT_RELEASE (R241): the oldest answer on its way reaches the near unit and fans out. -/
def execNearUnitRelease (q : BitVec 2) (obj : BitVec 16) (s : State) : Host.Outcome State Fault Refusal :=
  let x := getNear s q obj.toNat
  match x.rel with
  | [] => .next s
  | (ws, phase, status) :: r =>
    let s := setNear s q obj.toNat { x with rel := r }
    .next (settle (ws.foldl (fun s w => answer s w 0 phase status) s))

/-- SYNC_WITHDRAW (R242): the withdrawal of a saving thread's operation is decided at the home. -/
def execSyncWithdraw (t : Tid) (op : Nat) (s : State) : Host.Outcome State Fault Refusal :=
  match getThr s t with
  | none => .next s
  | some th =>
    match th.loads.find? (fun o => o.id == op && !o.done && !o.wd && isSyncAct o.act) with
    | none => .next s
    | some o =>
      -- an answer on its way back has left the home: the operation is complete with its result
      if th.st ≠ .saving ∨ (nearAnswer s t op).isSome then .next s
      else
        let s := withdrawOp s t op
        match getThr s t with
        | some th => .next (settle (putThr s t (setOp th { o with wd := true })))
        | none => .next s

/-- SYNC_WATCHDOG (R244, R246). -/
def execSyncWatchdog (obj : BitVec 16) (s : State) : Host.Outcome State Fault Refusal :=
  let o := getSyn s obj.toNat
  if o.st = 1 ∧ wdogDue s o then .next (settle (wdogFire s obj.toNat)) else .next s

/-- NEAR_UNIT_TIMEOUT (R243): twice the object's period after the first of its waiters arrived. `late.cut` says that the near unit cannot reach
the home, which nothing of the state shows (Assumption 42). -/
def execNearUnitTimeout (q : BitVec 2) (late : NearWait) (s : State) : Host.Outcome State Fault Refusal :=
  let obj := late.obj
  let x := getNear s q obj.toNat
  let ws := x.sent ++ x.inFlight ++ x.gathered
  if late.cut && ws.any (fun w => decide ((s.devTime - w.since).toNat ≥ 2 * (wdogUs (getSyn s obj.toNat) * 1000))) then
    let s := setNear s q obj.toNat { x with sent := [], inFlight := [], gathered := [] }
    .next (settle (ws.foldl (fun s w => answer s w 0 false 0x04) s))
  else .next s

end Sys2Proof.Machine
end

