-- ==== Sys2Proof/Machine/Resource.lean ====
section
/-! DEFINITION. What an instance holds and how it changes: resource commands (R263-R271), reshaping on a TAKE (R65, R70), shares and
limits (R269, R272-R274), handler threads (R275-R277) and the host's side of the event ring (R278-R284). -/

namespace Sys2Proof.Machine

def ResOp.code : ResOp → Nat
  | .give => 1 | .share => 2 | .take => 3 | .reshare => 4 | .giveGroup => 5 | .takeGroup => 6 | .read => 7

def resOpOf (n : Nat) : Option ResOp :=
  match n with
  | 1 => some .give | 2 => some .share | 3 => some .take | 4 => some .reshare | 5 => some .giveGroup | 6 => some .takeGroup
  | 7 => some .read | _ => none

/-- `VI_RES_CMD` as written. -/
def resWord (op : ResOp) (r : ResSel) : Word := at_ r.group.toNat 32 ||| at_ r.cluster.toNat 16 ||| at_ op.code 0
def resSel (w : Word) : ResSel := { cluster := BitVec.ofNat 7 (bits w 22 16), group := BitVec.ofNat 10 (bits w 41 32) }

def resStatReg (vi : Vi) : Nat := viReg vi 0x30
def resArg (s : State) (vi : Vi) : Word := rget s (viReg vi 0x28)

/-- The holding of a cluster written. -/
def setClu (s : State) (c : Nat) (h : CluHold) : State := { s with clu := tset s.clu c h }

/-! ## Substitution of units that lose a cluster (R65) -/

/-- The units of the next depth that make up a physical unit: those the configured fabric has (R38). -/
def children (s : State) (ud : Word) : List Word :=
  let d := udDepth ud
  let base := setBits ud 62 59 (d + 1)
  let put (hi lo n : Nat) : List Word := (List.range n).map (fun k => setBits base hi lo k)
  List.filter (validPhys s) <| match d with
  | 0 =>
    let nx := bits (fabCfg s) 47 44 + 1
    let ny := bits (fabCfg s) 43 40 + 1
    let nz := bits (fabCfg s) 38 36 + 1
    (List.range nz).flatMap (fun z => (List.range ny).flatMap (fun y => (List.range nx).map (fun x =>
      setBits (setBits (setBits base 50 47 z) 54 51 y) 58 55 x)))
  | 1 => put 46 43 2
  | 2 => put 42 39 4
  | 3 => put 38 35 8
  | 4 => put 34 31 4
  | 5 => put 30 27 8
  | _ => []

/-- The fewest physical units that cover what remains of a unit without a lost one. -/
def remains (s : State) (lost ud : Word) : Nat → List Word
  | 0 => []
  | fuel + 1 =>
    if !meets ud lost then [ud]
    else if covers lost ud then []
    else (children s ud).flatMap (fun c => remains s lost c fuel)

/-- A member after the loss: replaced in place, or deleted when it loses everything. -/
def loseMember (s : State) (lost : Word) (m : Member) : List Member :=
  if m.remote || isComp m.ud || !meets m.ud lost then [m]
  else match remains s lost m.ud 8 with
    | [] => []
    | u :: r => { m with ud := u } :: r.map (fun x => { m with ud := x, extra := true })

/-- Every created composite of an instance loses a unit (R65). -/
def loseUnit (s : State) (vi : Vi) (lost : Word) : State :=
  { s with comps := s.comps.map (fun p =>
      if p.1 > 256 ∧ p.2.st ≠ 0 ∧ p.2.owner = vi then (p.1, { p.2 with members := p.2.members.flatMap (loseMember s lost) }) else p) }

/-- Handler threads of an instance still leave a Facet it no longer holds. -/
def handlersLeaving (s : State) (vi : Vi) : Bool :=
  s.threads.any (fun p => p.2.handler && p.2.vi == vi && p.2.st == .saving && !holdsFacet s vi (BitVec.ofNat 10 (p.1 / 64)))

/-- The reshaping of every composite of an instance is complete (R70, R268). -/
def takeDone (s : State) (vi : Vi) : Bool :=
  (s.launches.filter (fun l => l.vi == vi)).all (movesDone s) && !handlersLeaving s vi
    && (s.comps.all (fun p => p.2.st != 3 || (compEntry s p.1).owner != vi))

/-! ## Resource commands (R266-R268) -/

/-- What a resource command does: complete with codes and whether it changed something, or wait for reshaping. -/
inductive ResRes where
  | done (s : State) (r : BitVec 8 × BitVec 8) (changed : Bool)
  | wait (s : State)

/-- Sums of R264 over the sharers. -/
def overLimit (l : List Sharer) : Bool :=
  decide (l.foldl (fun a x => a + x.slots) 0 > 64) || decide (l.foldl (fun a x => a + x.store) 0 > 256)

/-- The sharer that `VI_RES_ARG` describes. -/
def argSharer (s : State) (vi : Vi) : Sharer :=
  let a := resArg s vi
  { vi := vi, slots := bits a 22 16, store := bits a 40 32, weight := bits a 9 0 }

/-- WEIGHT 0, SLOTS 0 or STORE_KIB above 256 (R267). -/
def badSharer (x : Sharer) : Bool := x.weight == 0 || x.slots == 0 || decide (x.store > 256)

/-- The entries of the spill areas do not suffice for one more cluster (R205). -/
def spillShort (s : State) (vi : Vi) : Bool := decide (spillCapacity s vi < spillNeed (cluCount s vi + 1))

/-- GIVE. -/
def resGive (s : State) (vi : Vi) (c : Nat) : ResRes :=
  match getClu s c with
  | .none => if spillShort s vi then .done s (0x0C, 0x8A) false else .done (setClu s c (.dedicated vi)) (0, 0) true
  | .dedicated v => if v = vi then .done s (0, 0) false else .done s (0x05, 0x80) false
  | .shared l =>
    if l.all (fun x => x.vi == vi) then .done (setClu s c (.dedicated vi)) (0, 0) true else .done s (0x05, 0x80) false

/-- SHARE. -/
def resShare (s : State) (vi : Vi) (c : Nat) : ResRes :=
  let x := argSharer s vi
  let join (l : List Sharer) : ResRes :=
    if l.length ≥ 4 then .done s (0x0C, 0x81) false
    else if overLimit (l ++ [x]) then .done s (0x0B, 0x82) false
    else if spillShort s vi then .done s (0x0C, 0x8A) false
    else .done (setClu s c (.shared (l ++ [x]))) (0, 0) true
  if badSharer x then .done s (0x0B, 0x88) false
  else if (holdOf (getClu s c) vi).isSome then .done s (0x0B, 0x8D) false
  else match getClu s c with
    | .none => join []
    | .dedicated _ => .done s (0x05, 0x80) false
    | .shared l => join l

/-- A cluster no longer held by the instance. -/
def dropHold (h : CluHold) (vi : Vi) : CluHold :=
  match h with
  | .none => .none
  | .dedicated v => if v = vi then .none else .dedicated v
  | .shared l => match l.filter (fun x => x.vi != vi) with | [] => .none | r => .shared r

/-- TAKE (R65-R70). -/
def resTake (s : State) (vi : Vi) (c : Nat) : ResRes :=
  if (holdOf (getClu s c) vi).isNone then .done s (0x05, 0x83) false
  else
    let s := setClu s c (dropHold (getClu s c) vi)
    let (s, n) := reshape (loseUnit s vi (clusterUd s c)) vi
    match s.resJobs with
    | [] => .wait s
    | h :: r =>
      let s := { s with resJobs := { h with started := true, saved := n } :: r }
      if takeDone s vi then .done s (0, 0) true else .wait s

/-- The Facets of a cluster. -/
def facetsOfClu (c : Nat) : List (BitVec 10) := (List.range 8).map (fun k => BitVec.ofNat 10 (8 * c + k))

/-- RESHARE. -/
def resReshare (s : State) (vi : Vi) (c : Nat) : ResRes :=
  let x := argSharer s vi
  let inUse := (facetsOfClu c).any (fun f => decide (slotsUsedBy s vi f > x.slots) || decide (storeUsed s vi f > x.store))
  let change (l : List Sharer) : ResRes :=
    if overLimit l then .done s (0x0B, 0x82) false
    else if inUse then .done s (0x01, 0x84) false
    else .done (setClu s c (.shared l)) (0, 0) true
  if badSharer x then .done s (0x0B, 0x88) false
  else match getClu s c with
    | .none => .done s (0x05, 0x83) false
    | .dedicated v => if v = vi then change [x] else .done s (0x05, 0x83) false
    | .shared l =>
      if l.any (fun y => y.vi == vi) then change (l.map (fun y => if y.vi = vi then x else y)) else .done s (0x05, 0x83) false

/-- Objects of a sync group. -/
def objsOfGroup (g : Nat) : List Nat := (List.range 64).map (· + 64 * g)

/-- GIVE_GROUP. -/
def resGiveGroup (s : State) (vi : Vi) (g : Nat) : ResRes :=
  if (tget? s.grp g).isSome then .done s (0x05, 0x85) false else .done { s with grp := tset s.grp g vi } (0, 0) true

/-- TAKE_GROUP. -/
def resTakeGroup (s : State) (vi : Vi) (g : Nat) : ResRes :=
  if tget? s.grp g ≠ some vi then .done s (0x05, 0x83) false
  else if (objsOfGroup g).any (fun n => (getSyn s n).st != 0) then .done s (0x01, 0x84) false
  else .done { s with grp := tdel s.grp g } (0, 0) true

/-- What READ reports in `VI_RES_ARG`. -/
def resReport (s : State) (vi : Vi) (c g : Nat) : Word :=
  let h := getClu s c
  let shared := match h with | .none => false | .dedicated _ => false | .shared _ => true
  let mine := (holdOf h vi).getD (0, 0, 0)
  at_ (b2n (holdOf h vi).isSome) 63 ||| at_ (b2n shared) 62 ||| at_ (b2n (tget? s.grp g == some vi)) 61
    ||| at_ mine.2.1 32 ||| at_ mine.1 16 ||| at_ mine.2.2 0

/-- The instance manager executes one command (R268). -/
def resExec (s : State) (j : ResJob) : ResRes :=
  let st := (getInst s j.vi).st
  match j.op with
  | .read => .done (rset s (viReg j.vi 0x28) (resReport s j.vi j.cluster j.group)) (0, 0) false
  | op =>
    if !j.pf then .done s (0x05, 0x87) false
    else if st = 3 ∨ st = 4 then .done s (0x01, 0x86) false
    else if st = 0 then .done s (0x0B, 0x8B) false
    else match op with
      | .give => resGive s j.vi j.cluster
      | .share => resShare s j.vi j.cluster
      | .take => resTake s j.vi j.cluster
      | .reshare => resReshare s j.vi j.cluster
      | .giveGroup => resGiveGroup s j.vi j.group
      | .takeGroup => resTakeGroup s j.vi j.group
      | .read => .done s (0, 0) false

/-- A RESOURCE event (R280). -/
def resourceEvent (a0 a1 : Word) (saved : Nat) : Event := ⟨4, #v[a0, a1, BitVec.ofNat 64 (saved % 2 ^ 32), 0, 0]⟩

/-- A command is complete: SAVED of a TAKE or GIVE, the codes, and the event of a change. -/
def resFinish (s : State) (j : ResJob) (r : BitVec 8 × BitVec 8) (changed : Bool) : State :=
  let k := resStatReg j.vi
  let s := if j.op == .take || j.op == .give then rset s k (setBits (rget s k) 47 32 (sat 65535 j.saved)) else s
  let s := statDone s k r
  if changed then postEvent s j.vi (resourceEvent (rget s (viReg j.vi 0x20)) (resArg s j.vi) j.saved) else s

/-- Commands run in order until one waits; `fuel` bounds them. -/
def resRun (s : State) : Nat → State
  | 0 => s
  | fuel + 1 =>
    match s.resJobs with
    | [] => s
    | j :: rest =>
      if j.started then s
      else match resExec s j with
        | .done s r ch =>
          let saved := (s.resJobs.head?.map (·.saved)).getD 0
          resRun (resFinish { s with resJobs := rest } { j with saved := saved } r ch) fuel
        | .wait s => s

/-- A TAKE whose reshaping is complete completes, and the commands behind it run. -/
def resTakeDone (s : State) : State :=
  match s.resJobs with
  | [] => s
  | j :: rest =>
    if j.started && takeDone s j.vi then resRun (resFinish { s with resJobs := rest } j (0, 0) true) rest.length else s

/-- A write of `VI_RES_CMD` with an OP. -/
def resCommand (fn : Fn) (vi : Vi) (op : ResOp) (r : ResSel) (s : State) : State :=
  let k := resStatReg vi
  if statBusy s k then statOvr s k
  else
    let s := rset s (viReg vi 0x20) (resWord op r)
    let j : ResJob := { vi := vi, pf := isPf fn, op := op, cluster := r.cluster.toNat, group := r.group.toNat }
    let s := statStart { s with resJobs := s.resJobs ++ [j] } k
    resRun s s.resJobs.length

def execGive (fn : Fn) (vi : Vi) (r : ResSel) (s : State) : Host.Outcome State Fault Refusal :=
  hostVi fn vi 0x20 (resWord .give r) (resCommand fn vi .give r) s
def execShare (fn : Fn) (vi : Vi) (r : ResSel) (s : State) : Host.Outcome State Fault Refusal :=
  hostVi fn vi 0x20 (resWord .share r) (resCommand fn vi .share r) s
def execTake (fn : Fn) (vi : Vi) (r : ResSel) (s : State) : Host.Outcome State Fault Refusal :=
  hostVi fn vi 0x20 (resWord .take r) (resCommand fn vi .take r) s
def execReshare (fn : Fn) (vi : Vi) (r : ResSel) (s : State) : Host.Outcome State Fault Refusal :=
  hostVi fn vi 0x20 (resWord .reshare r) (resCommand fn vi .reshare r) s
def execGiveGroup (fn : Fn) (vi : Vi) (r : ResSel) (s : State) : Host.Outcome State Fault Refusal :=
  hostVi fn vi 0x20 (resWord .giveGroup r) (resCommand fn vi .giveGroup r) s
def execTakeGroup (fn : Fn) (vi : Vi) (r : ResSel) (s : State) : Host.Outcome State Fault Refusal :=
  hostVi fn vi 0x20 (resWord .takeGroup r) (resCommand fn vi .takeGroup r) s
def execResRead (fn : Fn) (vi : Vi) (r : ResSel) (s : State) : Host.Outcome State Fault Refusal :=
  hostVi fn vi 0x20 (resWord .read r) (resCommand fn vi .read r) s

/-- The moves of a composite's launches are complete: it returns to RUNNING (R53, R70), or to IDLE when none is left (DEDUCED). -/
def reshapedComp (s : State) (n : Nat) : State :=
  if (compEntry s n).st = 3 then
    let ls := s.launches.filter (fun l => isComp l.d.target && compNum l.d.target == n)
    if ls.all (movesDone s) then setCompSt s n (if ls.isEmpty then 1 else 2) else s
  else s

/-- RESHAPING_COMPLETE (R70). -/
def execReshapingComplete (what : Reshaped) (s : State) : Host.Outcome State Fault Refusal :=
  match what with
  | .comp n => .next (settle (resTakeDone (reshapedComp s n.toNat)))
  | .taken => .next (settle (resTakeDone s))

/-! ## Shares and limits (R269, R272-R274) -/

/-- A write of `VI_SHARE` (R272, R274). -/
def viShareWr (fn : Fn) (vi : Vi) (v : Word) (s : State) : State :=
  if !isPf fn then viRefused s fn vi 0x18
  else
    let w := v &&& 0x3FF
    let s := rset s (viReg vi 0x18) w
    postEvent (if w = 0 then freezeRounds s vi else s) vi (resourceEvent 0 w 0)

/-- The value a write of `VI_LIMITS` gives: a count beyond its range keeps the old one. -/
def viLimitsVal (old v : Word) : Word :=
  at_ (if bits v 56 32 > 16777216 then bits old 56 32 else bits v 56 32) 32
    ||| at_ (if bits v 15 0 > 65279 then bits old 15 0 else bits v 15 0) 0

/-- A write of `VI_LIMITS` (R269). -/
def viLimitsWr (fn : Fn) (vi : Vi) (v : Word) (s : State) : State :=
  if !isPf fn then viRefused s fn vi 0x38
  else
    let w := viLimitsVal (rget s (viReg vi 0x38)) v
    postEvent (rset s (viReg vi 0x38) w) vi (resourceEvent 0 w 0)

def execViShareWrite (fn : Fn) (vi : Vi) (v : Word) (s : State) : Host.Outcome State Fault Refusal :=
  hostVi fn vi 0x18 v (viShareWr fn vi v) s
def execViLimitsWrite (fn : Fn) (vi : Vi) (v : Word) (s : State) : Host.Outcome State Fault Refusal :=
  hostVi fn vi 0x38 v (viLimitsWr fn vi v) s

/-- The instance's queues are frozen (R274). -/
def frozen (s : State) (vi : Vi) : Bool := decide (bits (rget s (viReg vi 0x18)) 9 0 = 0)

/-! ## The Poll Page register (R257, R262) -/

/-- A write of `VI_POLL`: of an OFF instance it is ignored (DESIGN CHOICE: such an instance has no function to write for). -/
def viPollWr (fn : Fn) (vi : Vi) (v : Word) (s : State) : State :=
  if (getInst s vi).st = 1 then
    let s := rset s (viReg vi 0x10) (v &&& 0xFFFFFFFFFFFFF001)
    if bit v 0 then modInst s vi (fun i => { i with st := 2 }) else s
  else accessErr s fn (viOff fn vi 0x10)

def execViPollWrite (fn : Fn) (vi : Vi) (v : Word) (s : State) : Host.Outcome State Fault Refusal :=
  hostVi fn vi 0x10 v (viPollWr fn vi v) s

/-! ## Handler threads (R275-R277) -/

/-- `VI_HDL_CFG` as written. -/
def hdlWord (en : Bool) (c : HdlCfg) : Word := at_ c.tctl.toNat 32 ||| at_ c.store.toNat 16 ||| at_ c.count.toNat 8 ||| at_ (b2n en) 0

/-- COUNT of a configuration; 0 is taken as 1. -/
def hdlCount (w : Word) : Nat := if bits w 10 8 = 0 then 1 else bits w 10 8

/-- First failure of a handler start (R275). A COUNT of 5 to 7 is refused as a field out of range (DESIGN CHOICE). -/
def hdlCheck (s : State) (vi : Vi) : BitVec 8 × BitVec 8 :=
  let w := rget s (viReg vi 0x80)
  let ud := rget s (viReg vi 0x98)
  let f := facetOfUd ud
  if bits w 24 16 > 64 ∨ bits w 34 32 > 4 ∨ hdlCount w > 4 then (0x0B, 0x88)
  else if !validPhys s ud || udDepth ud != 6 || !isLocal s ud || !holdsFacet s vi f then (0x05, 0x83)
  else if (spillDevRun s vi).2 = 0 then (0x0C, 0x8A)
  else if slotsFree s vi f < hdlCount w ∨ storeFree s vi f < bits w 24 16 then (0x0C, 0x89)
  else (0, 0)

/-- The handler threads from index k on are placed. -/
def placeHandlers (s : State) (vi : Vi) (f : BitVec 10) (w : Word) (k : Nat) : Nat → State
  | 0 => s
  | n + 1 =>
    let t : Tid := ⟨f, BitVec.ofNat 6 (freeSlot s f)⟩
    let th := newThread s vi true 0 k (hdlCount w) 0 0 f (rget s (viReg vi 0x88)) (rget s (viReg vi 0x90)) 0
      (tctlInit (at_ (bits w 47 32) 0) 1)
    placeHandlers (putThr s t th) vi f w (k + 1) n

/-- A handler start from OFF or FAILED (R275). -/
def startHandlers (s : State) (vi : Vi) : State :=
  let r := hdlCheck s vi
  if r.1 ≠ 0 then modInst s vi (fun i => { i with hdlStatus := r.1, hdlDetail := r.2 })
  else
    let w := rget s (viReg vi 0x80)
    let s := modInst s vi (fun i => { i with hdlSt := 1, hdlStatus := 0, hdlDetail := 0, hdlCause := 0, hdlThread := 0 })
    placeHandlers s vi (facetOfUd (rget s (viReg vi 0x98))) w 0 (hdlCount w)

/-- A write of `VI_HDL_CFG` (R275, R277). While the instance is RESETTING or RELEASING only the register changes: step 9 of R285
starts the threads. -/
def hdlWrite (vi : Vi) (v : Word) (s : State) : State :=
  let s := rset s (viReg vi 0x80) (v &&& 0x0000FFFF01FF0701)
  let i := getInst s vi
  if i.st = 3 ∨ i.st = 4 then s
  else if bit v 0 then (if i.hdlSt = 0 ∨ i.hdlSt = 2 then startHandlers s vi else s)
  else if hasHandler s vi then
    let s := endHandlers s vi
    endAllTrapped (modInst s vi (fun i => { i with hdlSt := 0 })) vi
  else modInst s vi (fun i => { i with hdlSt := 0, hdlCause := 0, hdlThread := 0 })

def execHandlerStart (fn : Fn) (vi : Vi) (c : HdlCfg) (s : State) : Host.Outcome State Fault Refusal :=
  hostVi fn vi 0x80 (hdlWord true c) (hdlWrite vi (hdlWord true c)) s
def execHandlerStop (fn : Fn) (vi : Vi) (c : HdlCfg) (s : State) : Host.Outcome State Fault Refusal :=
  hostVi fn vi 0x80 (hdlWord false c) (hdlWrite vi (hdlWord false c)) s

/-! ## The event ring (R278-R284) -/

/-- A write of `VI_EV_RING` (R279); a reserved SIZE keeps the old one (R11). -/
def evRingWr (fn : Fn) (vi : Vi) (v : Word) (s : State) : State :=
  let i := getInst s vi
  if (i.hdlSt = 0 ∨ i.hdlSt = 2) ∧ i.produced = i.retired then
    let old := rget s (viReg vi 0xC0)
    rset s (viReg vi 0xC0) ((v &&& 0xFFFFFFFFFFFFF000) ||| at_ (if bits v 3 0 > 8 then bits old 3 0 else bits v 3 0) 0)
  else accessErr s fn (viOff fn vi 0xC0)

/-- A write of `VI_EV_ACK` (R282, R283). -/
def evAckWr (fn : Fn) (vi : Vi) (v : Word) (s : State) : State :=
  let i := getInst s vi
  let a : BitVec 48 := BitVec.ofNat 48 v.toNat
  if hasHandler s vi then s
  else if (a - i.retired).toNat ≤ (i.produced - i.retired).toNat then
    let s := modInst s vi (fun i => { i with
      retired := a, nextTake := if atOrAfter i.nextTake a then i.nextTake else a,
      retMarks := i.retMarks.filter (fun m => atOrAfter m a) })
    drainEvents s vi
  else accessErr s fn (viOff fn vi 0xD0)

/-- A write of `VI_EV_POST` (R280). -/
def evPostWr (vi : Vi) (v : Word) (s : State) : State := postEvent (rset s (viReg vi 0xE0) v) vi ⟨5, #v[v, 0, 0, 0, 0]⟩

def execViEvRingWrite (fn : Fn) (vi : Vi) (v : Word) (s : State) : Host.Outcome State Fault Refusal :=
  hostVi fn vi 0xC0 v (evRingWr fn vi v) s
def execViEvAckWrite (fn : Fn) (vi : Vi) (v : Word) (s : State) : Host.Outcome State Fault Refusal :=
  hostVi fn vi 0xD0 v (evAckWr fn vi v) s
def execViEvPostWrite (fn : Fn) (vi : Vi) (v : Word) (s : State) : Host.Outcome State Fault Refusal :=
  hostVi fn vi 0xE0 v (evPostWr vi v) s

end Sys2Proof.Machine
end

