-- ==== Sys2Proof/Machine/Queues.lean ====
section
/-! DEFINITION. Submission and completion queues: enabling, disabling, doorbells, descriptor reads, and the taking of launches
(R303-R313, R410, R619). -/

namespace Sys2Proof.Machine

/-! ## The queue page (R303) -/

/-- A write of a queue register: a PF's in the VI block, a VF's in its queue page. -/
def hostQ (fn : Fn) (vi : Vi) (off : Nat) (v : Word) (body : State → State) (s : State) : Host.Outcome State Fault Refusal :=
  if isPf fn then hostVi fn vi off v body s
  else if fn = vi then hostWr fn (0x200000 + off) v body s else .next s

/-- BAR0 offset of a queue register as the function reaches it. -/
def qOff (fn : Fn) (vi : Vi) (off : Nat) : Nat := if isPf fn then viOff fn vi off else 0x200000 + off

def sqCfgReg (vi : Vi) (q : Nat) : Nat := viReg vi (0x408 + 0x20 * q)
def cqCfgReg (vi : Vi) (q : Nat) : Nat := viReg vi (0x608 + 0x20 * q)
def sqBase (s : State) (vi : Vi) (q : Nat) : Word := rget s (viReg vi (0x400 + 0x20 * q)) &&& 0xFFFFFFFFFFFFF000
def cqBase (s : State) (vi : Vi) (q : Nat) : Word := rget s (viReg vi (0x600 + 0x20 * q)) &&& 0xFFFFFFFFFFFFF000

/-- The context of a queue. -/
def queueCtx (s : State) (vi : Vi) (cq : Bool) (q : Nat) : Option Nat :=
  (s.ctxs.find? (fun p => p.2 == .queue vi cq q)).map (·.1)

/-- A queue's context is freed. -/
def freeQueueCtx (s : State) (vi : Vi) (cq : Bool) (q : Nat) : State :=
  match queueCtx s vi cq q with | some n => freeCtx s vi n | none => s

/-! ## Submission queues (R304, R305) -/

/-- `VI_SQ_CFG` as written. -/
def sqCfgWord (en : Bool) (c : SqCfgW) : Word :=
  at_ (b2n en) 63 ||| at_ c.kind.toNat 56 ||| at_ c.cq.toNat 48 ||| at_ c.size.toNat 0

/-- The configuration a write gives a DISABLED queue: a reserved KIND keeps the old one (R11, R304). -/
def sqCfgVal (old v : Word) : Word :=
  let k := bits v 59 56
  at_ (bits v 63 63) 63 ||| at_ (if k = 0 ∨ k > 4 then bits old 59 56 else k) 56 ||| at_ (bits v 51 48) 48 ||| at_ (bits v 4 0) 0

/-- The checks of an enable (R304). -/
def sqCfgOk (s : State) (vi : Vi) (q : Nat) : Bool :=
  let w := sqCfg s vi q
  let size := bits w 4 0
  decide (bits w 59 56 ≠ 0) && decide (4 ≤ size) && decide (size ≤ 15) && decide ((getCq s vi (bits w 51 48)).st ≠ 0)
    && rangeOk s vi (sqBase s vi q) (64 * 2 ^ size) .rd

/-- A DISABLED submission queue is enabled. -/
def sqStart (s : State) (vi : Vi) (q : Nat) : State :=
  if !sqCfgOk s vi q then setSq s vi q { getSq s vi q with status := 0x0B, detail := 0x80 }
  else match pickCtx s vi with
    | .error e => setSq s vi q { getSq s vi q with status := e, detail := 0 }
    | .ok n => newCtx (setSq s vi q { st := 1 }) vi n (.queue vi false q)

/-- A write of `VI_SQ_CFG`. -/
def sqCfgWr (fn : Fn) (vi : Vi) (q : Nat) (v : Word) (s : State) : State :=
  let k := sqCfgReg vi q
  let old := rget s k
  let x := getSq s vi q
  let s := setSq s vi q { x with refused := 0 }
  if x.st = 0 then
    let s := rset s k (sqCfgVal old v)
    if bit v 63 then sqStart s vi q else s
  else
    -- SIZE, KIND and CQ of an enabled queue stand (R304)
    let s := if sqCfgVal old v ||| at_ 1 63 ≠ old ||| at_ 1 63 then accessErr s fn (qOff fn vi (0x408 + 0x20 * q)) else s
    if bit v 63 then s
    else
      let s := rset s k (setBits old 63 63 0)
      let x := getSq s vi q
      if x.st = 1 ∨ x.st = 2 then setSq s vi q { x with st := 3, got := [] } else s

def execSqEnable (fn : Fn) (vi : Vi) (q : BitVec 4) (c : SqCfgW) (s : State) : Host.Outcome State Fault Refusal :=
  hostQ fn vi (0x408 + 0x20 * q.toNat) (sqCfgWord true c) (sqCfgWr fn vi q.toNat (sqCfgWord true c)) s
def execSqDisable (fn : Fn) (vi : Vi) (q : BitVec 4) (c : SqCfgW) (s : State) : Host.Outcome State Fault Refusal :=
  hostQ fn vi (0x408 + 0x20 * q.toNat) (sqCfgWord false c) (sqCfgWr fn vi q.toNat (sqCfgWord false c)) s

/-- A DRAINING queue with nothing taken becomes DISABLED and frees its context. -/
def sqDrained (s : State) (vi : Vi) (q : Nat) : State :=
  let x := getSq s vi q
  if x.st = 3 ∧ x.taken = 0 then freeQueueCtx (setSq s vi q { x with st := 0 }) vi false q else s

/-- SQ_DRAIN_COMPLETE (R305). -/
def execSqDrainComplete (vi : Vi) (q : BitVec 4) (s : State) : Host.Outcome State Fault Refusal := .next (sqDrained s vi q.toNat)

/-! ## Completion queues (R304, R305) -/

def cqCfgWord (en : Bool) (size : BitVec 5) : Word := at_ (b2n en) 63 ||| at_ size.toNat 0

/-- A DISABLED completion queue is enabled. -/
def cqStart (s : State) (vi : Vi) (q : Nat) : State :=
  let size := bits (cqCfg s vi q) 4 0
  if size < 4 ∨ size > 16 ∨ !rangeOk s vi (cqBase s vi q) (32 * 2 ^ size) .wr then
    setCq s vi q { getCq s vi q with status := 0x0B, detail := 0x80 }
  else match pickCtx s vi with
    | .error e => setCq s vi q { getCq s vi q with status := e, detail := 0 }
    | .ok n => newCtx (setCq s vi q { st := 1, phase := true }) vi n (.queue vi true q)

/-- An enabled SQ names the CQ, or a launch of the instance names it in COMPQ (R305). -/
def cqUsed (s : State) (vi : Vi) (q : Nat) : Bool :=
  (List.range 16).any (fun i => (getSq s vi i).st != 0 && decide (bits (sqCfg s vi i) 51 48 = q))
    || s.launches.any (fun l => l.vi == vi && decide (l.d.compq.toNat = q))

/-- A write of `VI_CQ_CFG`. -/
def cqCfgWr (fn : Fn) (vi : Vi) (q : Nat) (v : Word) (s : State) : State :=
  let k := cqCfgReg vi q
  let off := qOff fn vi (0x608 + 0x20 * q)
  let old := rget s k
  if (getCq s vi q).st = 0 then
    let s := rset s k (at_ (bits v 63 63) 63 ||| at_ (bits v 4 0) 0)
    if bit v 63 then cqStart s vi q else s
  else
    let s := if bits v 4 0 ≠ bits old 4 0 then accessErr s fn off else s
    if bit v 63 then s
    else if cqUsed s vi q then accessErr s fn off
    else
      let s := rset s k (setBits old 63 63 0)
      freeQueueCtx (setCq s vi q { getCq s vi q with st := 0, held := [] }) vi true q

def execCqEnable (fn : Fn) (vi : Vi) (q : BitVec 4) (size : BitVec 5) (s : State) : Host.Outcome State Fault Refusal :=
  hostQ fn vi (0x608 + 0x20 * q.toNat) (cqCfgWord true size) (cqCfgWr fn vi q.toNat (cqCfgWord true size)) s
def execCqDisable (fn : Fn) (vi : Vi) (q : BitVec 4) (size : BitVec 5) (s : State) : Host.Outcome State Fault Refusal :=
  hostQ fn vi (0x608 + 0x20 * q.toNat) (cqCfgWord false size) (cqCfgWr fn vi q.toNat (cqCfgWord false size)) s

/-- A write of `VI_SQ_BASE` or `VI_CQ_BASE` (R304). -/
def qBaseWr (fn : Fn) (vi : Vi) (cq : Bool) (q : Nat) (v : Word) (s : State) : State :=
  let off := (if cq then 0x600 else 0x400) + 0x20 * q
  let idle := if cq then (getCq s vi q).st == 0 else (getSq s vi q).st == 0
  if idle then rset s (viReg vi off) (v &&& 0xFFFFFFFFFFFFF000) else accessErr s fn (qOff fn vi off)

/-! ## Doorbells (R306, R313) -/

/-- A write of `VI_SQ_DB`. -/
def sqDbWr (fn : Fn) (vi : Vi) (q : Nat) (t : Nat) (s : State) : State :=
  let i := getInst s vi
  let x := getSq s vi q
  let n := sqSize s vi q
  if i.st = 3 ∨ i.st = 4 then s
  else if i.st = 1 ∨ x.st ≠ 1 then accessErr s fn (qOff fn vi (0x800 + 8 * q))
  else
    let add := (t + n - x.tail.toNat % n) % n
    let free := n - 1 - (x.tail.toNat + n - x.head.toNat % n) % n
    if t < n ∧ add ≤ free then
      setSq s vi q { x with tail := BitVec.ofNat 16 t, reqAt := if x.tail = x.head ∧ x.got = [] then s.devTime else x.reqAt }
    else setSq s vi q { x with refused := if x.refused = 255 then 255 else x.refused + 1 }

/-- A write of `VI_CQ_DB`. -/
def cqDbWr (fn : Fn) (vi : Vi) (q : Nat) (h : Nat) (s : State) : State :=
  let i := getInst s vi
  let c := getCq s vi q
  let n := cqSize s vi q
  let off := qOff fn vi (0x880 + 8 * q)
  if i.st = 1 then accessErr s fn off
  else if i.st = 3 ∨ i.st = 4 ∨ c.st = 0 then s
  else
    let rel := (h + n - c.head.toNat % n) % n
    let written := (c.tail.toNat + n - c.head.toNat % n) % n
    if h < n ∧ rel ≤ written then
      cqRetry (setCq s vi q { c with head := BitVec.ofNat 16 h }) vi q (c.held.length + 1)
    else accessErr s fn off

def execSqDoorbell (fn : Fn) (vi : Vi) (q : BitVec 4) (index : BitVec 16) (s : State) : Host.Outcome State Fault Refusal :=
  hostQ fn vi (0x800 + 8 * q.toNat) (index.setWidth 64) (sqDbWr fn vi q.toNat index.toNat) s
def execCqDoorbell (fn : Fn) (vi : Vi) (q : BitVec 4) (index : BitVec 16) (s : State) : Host.Outcome State Fault Refusal :=
  hostQ fn vi (0x880 + 8 * q.toNat) (index.setWidth 64) (cqDbWr fn vi q.toNat index.toNat) s

/-! ## Reading and taking descriptors (R272, R274, R307, R308, R312) -/

/-- The engines may take descriptors of a queue. -/
def canTake (s : State) (vi : Vi) (q : Nat) : Bool :=
  working s && (getInst s vi).st == 2 && (getSq s vi q).st == 1 && !frozen s vi && !snapStops s vi
    && decide ((getCq s vi (bits (sqCfg s vi q) 51 48)).held.length < 64)

/-- A queue stops on a failed descriptor read (R308). -/
def stopSq (s : State) (vi : Vi) (q : Nat) (status detail : BitVec 8) : State :=
  let s := setSq s vi q { getSq s vi q with st := 2, status := status, detail := detail, got := [] }
  raiseErr s { cause := 0x17, sev := 2, vi := some vi, status := status, arg0 := BitVec.ofNat 64 q, arg1 := detail.setWidth 64 }

/-- The n-th descriptor from HEAD on: bytes, or the status and detail of its failed read. -/
def readDesc (s : State) (vi : Vi) (q i : Nat) (out : RdOut) (ext : List Byte) :
    State × Except (BitVec 8 × BitVec 8) (List Byte) :=
  let e := ((getSq s vi q).head.toNat + i) % sqSize s vi q
  let a := sqBase s vi q + BitVec.ofNat 64 (64 * e)
  match translate s vi a 64 .rd with
  | .fault => (s, .error (0x05, 0x81))
  | .remote _ _ => (s, .error (0x05, 0x81))
  | .dev pa _ =>
    let (s, d, p) := devRead s pa 64 (some vi)
    if p then (s, .error (0x0A, 0x82)) else (s, .ok d)
  | .host bus =>
    match out with
    | .ok => (s, .ok (extBytes s ext bus 64))
    | .poisoned => (gotPoison s vi, .error (0x0A, 0x82))
    | .refused => (s, .error (0x05, 0x81))

/-- Descriptors of one request, up to the first that fails. -/
def readDescs (s : State) (vi : Vi) (q : Nat) (out : RdOut) (ext : List Byte) (i : Nat) : Nat → State × List (List Byte) × (BitVec 8 × BitVec 8)
  | 0 => (s, [], (0, 0))
  | n + 1 =>
    match readDesc s vi q i out ext with
    | (s, .error r) => (s, [], r)
    | (s, .ok d) =>
      let (s, l, r) := readDescs s vi q out (ext.drop 64) (i + 1) n
      (s, d :: l, r)

/-- The ring of a queue lies in the host window. -/
def sqInHost (s : State) (vi : Vi) (q : Nat) : Bool := bit (sqBase s vi q) 50

/-- DESCRIPTOR_FETCH (R307, R308, R326): a request for up to 8 descriptors ends; the queue stops when the first of them cannot be read. -/
def execDescriptorFetch (vi : Vi) (q : BitVec 4) (n : BitVec 4) (out : RdOut) (data : List Byte) (s : State) :
    Host.Outcome State Fault Refusal :=
  let q := q.toNat
  let x := getSq s vi q
  let size := sqSize s vi q
  let avail := (x.tail.toNat + size - x.head.toNat % size) % size
  let n := Nat.min (Nat.min n.toNat 8) avail
  if !canTake s vi q ∨ x.got ≠ [] ∨ n = 0 ∨ (sqInHost s vi q ∧ !busMaster s vi ∧ !x.flight) then .next s
  else
    let s := setSq s vi q { x with flight := false }
    let (s, l, r) := readDescs s vi q out data 0 n
    if l = [] then .next (stopSq s vi q r.1 r.2) else .next (setSq s vi q { getSq s vi q with got := l })

/-- Instances with a descriptor that an engine may take: its queues of the engine's KIND hold one that was read. -/
def descWork (s : State) (kind : Nat) : List Nat :=
  (s.sqs.filter (fun p => !p.2.got.isEmpty && decide (bits (sqCfg s (BitVec.ofNat 8 (p.1 / 16)) (p.1 % 16)) 59 56 = kind)
    && canTake s (BitVec.ofNat 8 (p.1 / 16)) (p.1 % 16))).map (fun p => p.1 / 16)

/-- The descriptor at HEAD is taken, in the instance's turn of the engine's round: state after, its bytes and its SEQ (R272, R307). -/
def takeHead (s : State) (vi : Vi) (q kind : Nat) : Option (State × List Byte × BitVec 48) :=
  if canTake s vi q ∧ bits (sqCfg s vi q) 59 56 = kind then
    match (getSq s vi q).got with
    | [] => none
    | d :: r =>
      match roundTake s kind (descWork s kind) vi with
      | none => none
      | some s =>
        let x := getSq s vi q
        let s := setSq s vi q { x with
          got := r, reqAt := if r = [] then s.devTime else x.reqAt, head := BitVec.ofNat 16 ((x.head.toNat + 1) % sqSize s vi q), seq := x.seq + 1, taken := x.taken + 1 }
        some (wakeDim s, d, x.seq)
  else none

/-- LAUNCH_TAKE (R60, R310, R311, R619): a launch is taken and checked; a refused one completes at once. -/
def execLaunchTake (vi : Vi) (q : BitVec 4) (s : State) : Host.Outcome State Fault Refusal :=
  match takeHead s vi q.toNat 1 with
  | none => .next s
  | some (s, b, seq) =>
    let d := parseDesc b
    let r := launchCheck s vi d
    if r.1 = 0 then .next (acceptLaunch s vi d (some q) seq)
    else if compqOk s vi d then
      .next (complete (sqUntake s vi q.toNat) vi d.compq.toNat ⟨r.1, q.setWidth 16, r.2, seq, 0, 0⟩)
    else .next (completeSq s vi q.toNat seq r.1 r.2 0 0)

end Sys2Proof.Machine
end

