-- ==== Sys2Proof/Machine/Transfer.lean ====
section
/-! DEFINITION. Transfer and storage descriptors (R331-R344): spaces and windows, COPY, storage commands, the storage data window, NVMe
completions and the loss of a downstream link. -/

namespace Sys2Proof.Machine

/-! ## Descriptor fields (R335, R341) -/

/-- Word i of a descriptor. -/
def dWord (d : DOp) (i : Nat) : Word := BitVec.ofNat 64 (ofBytes ((d.desc.drop (8 * i)).take 8))
def dOrdered (d : DOp) : Bool := bit (dWord d 0) 18
def dStartEn (d : DOp) : Bool := bit (dWord d 7) 0
/-- USER of a transfer or storage descriptor. -/
def dUser (d : DOp) : BitVec 32 := BitVec.ofNat 32 (bits (dWord d 4) 31 0)

/-- The reserved fields and counters that transfer and storage descriptors share are well (R309, R410). -/
def dTailOk (d : DOp) : Bool :=
  decide (bits (dWord d 4) 63 32 = 0) && decide (dWord d 5 = 0) && decide (bits (dWord d 7) 63 1 = 0)
    && !(dStartEn d && decide (bits (dWord d 6) 63 48 > 15))

/-- A transfer descriptor has no reserved value (R309, R335, R336). -/
def copyOk (d : DOp) : Bool :=
  decide (bits (dWord d 0) 7 0 = 1) && decide (bits (dWord d 0) 63 19 = 0) && decide (bits (dWord d 0) 11 8 ≤ 4)
    && decide (bits (dWord d 0) 15 12 ≤ 4) && decide (bits (dWord d 3) 63 40 = 0) && decide (bits (dWord d 3) 39 0 ≠ 0) && dTailOk d

/-! ## Spaces (R336) -/

/-- A peer window: base, bytes, port; `none` while it is disabled. -/
def peerWin (w : Word) : Option (Nat × Nat × Nat) :=
  let size := bits w 20 4 * 2097152
  if size = 0 ∨ bits w 2 0 > 5 then none else some (bits w 63 21 * 2097152, size, bits w 2 0)

/-- The peer window of a space 1-4 as it stood when the descriptor was taken. -/
def dWin (d : DOp) (sp : Nat) : Option (Nat × Nat × Nat) := peerWin (d.wins.getD (sp - 1) 0)

/-- A range lies in its space. -/
def spaceOk (s : State) (d : DOp) (sp : Nat) (a : Word) (n : Nat) (k : AccKind) : Bool :=
  if sp = 0 then rangeOk s d.vi a n k
  else match dWin d sp with | some (_, size, _) => decide (a.toNat + n ≤ size) | none => false

/-- A range is reached by requests of the function: a peer window, or the host window. -/
def spaceOut (sp : Nat) (a : Word) : Bool := decide (sp ≠ 0) || bit a 50

/-- The downstream port of a space. -/
def spacePort (d : DOp) (sp : Nat) : Option Nat := if sp = 0 then none else (dWin d sp).map (·.2.2)

/-! ## Completion -/

/-- A descriptor has its outcome: it completes once every write of it is complete (R337). -/
def finish (s : State) (d : DOp) (status dcode : BitVec 8) (bytes : Nat) (detail : BitVec 32) : State :=
  let f := (status, dcode, BitVec.ofNat 64 bytes, detail)
  if descOpen s d.id then
    { s with descs := s.descs.map (fun x => if x.id = d.id then { x with st := .writing, fin := some f } else x) }
  else dropDesc s d f

/-- The state with a descriptor changed. -/
def modDesc (s : State) (id : Nat) (f : DOp → DOp) : State :=
  { s with descs := s.descs.map (fun x => if x.id = id then f x else x) }

/-- A descriptor in progress by its queue and SEQ. -/
def findDesc (s : State) (vi : Vi) (q : Nat) (seq : BitVec 48) : Option DOp :=
  s.descs.find? (fun d => d.vi == vi && d.q == q && d.seq == seq && !d.dead)

/-- A descriptor in a given progress by its queue and SEQ: one of the instance's present generation before one that a reset left (R344). -/
def findDescIn (s : State) (vi : Vi) (q : Nat) (seq : BitVec 48) (st : DSt) : Option DOp :=
  let mine := s.descs.filter (fun d => d.vi == vi && d.q == q && d.seq == seq && d.st == st)
  (mine.find? (fun d => !d.dead)).orElse (fun _ => mine.head?)

/-! ## COPY (R337) -/

/-- Parts of a device range, block by block: (offset, bytes, poisoned). -/
def blockParts (s : State) (pa n off : Nat) : List (Nat × Nat × Bool) :=
  (blocksOf pa n).map (fun b =>
    let lo := Nat.max pa (64 * b)
    let hi := Nat.min (pa + n) (64 * b + 64)
    (off + (lo - pa), hi - lo, s.poison.contains b))

/-- Parts joined where one follows the other with the same poison. -/
def joinParts : List (Nat × Nat × Bool) → List (Nat × Nat × Bool)
  | [] => []
  | p :: l => match joinParts l with
    | x :: r => if p.1 + p.2.1 = x.1 ∧ p.2.2 = x.2.2 then (p.1, p.2.1 + x.2.1, p.2.2) :: r else p :: x :: r
    | [] => [p]

/-- The parts of an instance range. -/
def rangeParts (s : State) (vi : Vi) (a : Word) (n : Nat) : List (Nat × Nat × Bool) :=
  let ps := rangePieces a n
  joinParts ((ps.foldl (fun (r : Nat × List (Nat × Nat × Bool)) p =>
    let l := match translate s vi p.1 p.2 .rd with
      | .dev pa _ => blockParts s pa p.2 r.1
      | _ => [(r.1, p.2, false)]
    (r.1 + p.2, r.2 ++ l)) (0, [])).2)

/-- A range is marked poisoned, as poisoned data written there (R210, R300). Host memory takes a poisoned request. -/
def rangeMark (s : State) (vi : Vi) (a : Word) (n : Nat) (w : Writer) : State :=
  (rangePieces a n).foldl (fun s p => match translate s vi p.1 p.2 .wr with
    | .dev pa m => engAct s vi m (.mark pa p.2) w
    | _ => s) s

/-- The destination of a COPY takes the data, part by part; a peer's memory is outside. -/
def copyOut (s : State) (d : DOp) (data : List Byte) (parts : List (Nat × Nat × Bool)) : State :=
  if bits (dWord d 0) 15 12 ≠ 0 then s
  else
    let dst := dWord d 2
    parts.foldl (fun s p =>
      let a := dst + BitVec.ofNat 64 p.1
      if p.2.2 then rangeMark s d.vi a p.2.1 (.desc d.id)
      else (rangeWriteBy s d.vi a ((data.drop p.1).take p.2.1) (.desc d.id)).getD s) s

/-- Bytes before the first poisoned part. -/
def goodBytes : List (Nat × Nat × Bool) → Nat
  | [] => 0
  | p :: r => if p.2.2 then 0 else p.2.1 + goodBytes r

/-- What a COPY within instance memory writes: bytes of the destination that lie in the source range are unspecified (R337). -/
def copyBytes (s : State) (src dst : Word) (n : Nat) (data : List Byte) : List Byte :=
  if dst.toNat + n ≤ src.toNat ∨ src.toNat + n ≤ dst.toNat then data
  else data.mapIdx (fun i b =>
    if src.toNat ≤ dst.toNat + i ∧ dst.toNat + i < src.toNat + n then freeBits s 8 (0x3370000 + i) else b)

/-- A COPY moves its bytes: the source read, the destination written, the record (R210, R337). -/
def copyMove (s : State) (d : DOp) (ext : List Byte) : State :=
  let n := bits (dWord d 3) 39 0
  let sp := bits (dWord d 0) 11 8
  let src := dWord d 1
  if !spaceOk s d (bits (dWord d 0) 15 12) (dWord d 2) n .wr then finish s d 0x05 0x80 0 (dUser d)
  else if sp ≠ 0 then
    finish (copyOut s d (extBytes s ext src.toNat n) [(0, n, false)]) d 0 0 n (dUser d)
  else match rangeRead s d.vi src n ext with
    | none => finish s d 0x05 0x80 0 (dUser d)
    | some (s, data, p) =>
      let parts := if p then rangeParts s d.vi src n else [(0, n, false)]
      let s := nextFree (copyOut s d (if bits (dWord d 0) 15 12 = 0 then copyBytes s src (dWord d 2) n data else data) parts)
      if p then finish s d 0x0A 0 (goodBytes parts) (dUser d) else finish s d 0 0 n (dUser d)

/-- A COPY starts (R336, R337): both ranges are checked first; data from the host or a peer is requested. -/
def startCopy (s : State) (d : DOp) : State :=
  let n := bits (dWord d 3) 39 0
  let sp := bits (dWord d 0) 11 8
  let dp := bits (dWord d 0) 15 12
  if !copyOk d then finish s d 0x0B 0x85 0 (dUser d)
  else if !spaceOk s d sp (dWord d 1) n .rd || !spaceOk s d dp (dWord d 2) n .wr then finish s d 0x05 0x80 0 (dUser d)
  else if spaceOut sp (dWord d 1) || spaceOut dp (dWord d 2) then
    if !busMaster s d.vi then s
    else if spaceOut sp (dWord d 1) then modDesc s d.id (fun x => { x with st := .reading, since := s.devTime })
    else copyMove s d []
  else copyMove s d []

/-! ## Storage commands (R341-R343) -/

def stgTgtReg (t : Nat) : Nat := devReg (0x5400 + 8 * t)
/-- Storage map m of the instance, as three registers. -/
def stgMap (s : State) (vi : Vi) (m : Nat) : List Word :=
  (List.range 3).map (fun k => rget s (viReg vi (0x900 + 32 * m + 8 * k)))
def dMapCfg (d : DOp) : Word := d.wins.getD 4 0
def dTarget (d : DOp) : Nat := bits (dMapCfg d) 13 8
def dNlb (d : DOp) : Nat := bits (dWord d 3) 16 0
def dOp (d : DOp) : Nat := bits (dWord d 0) 7 0
/-- Bytes of the command's blocks. -/
def stgBytes (s : State) (d : DOp) : Nat := dNlb d * 2 ^ bits (rget s (stgTgtReg (dTarget d))) 47 32
/-- The command has a buffer. -/
def hasBuf (d : DOp) : Bool := dOp d == 1 || dOp d == 2
def bufSpace (d : DOp) : Nat := bits (dWord d 0) 15 12

/-- A storage descriptor has no reserved value (R309, R341). -/
def stgOk (d : DOp) : Bool :=
  decide (1 ≤ dOp d) && decide (dOp d ≤ 5) && decide (bits (dWord d 0) 11 8 = 0) && decide (bits (dWord d 0) 23 20 = 0)
    && decide (bits (dWord d 0) 63 27 = 0) && (!hasBuf d || decide (bufSpace d ≤ 4)) && decide (bits (dWord d 3) 63 17 = 0)
    && (dOp d == 3 || (decide (1 ≤ dNlb d) && decide (dNlb d ≤ 65536))) && dTailOk d

/-- The target is a local drive whose data passes through the storage data window (R342). -/
def usesWindow (s : State) (d : DOp) : Bool :=
  hasBuf d && bufSpace d == 0 && decide (bits (rget s (stgTgtReg (dTarget d))) 61 60 = 1)

/-- Free pages of a window, lowest first. -/
def freePages (s : State) (port n : Nat) : List Nat :=
  let used := s.stgWin.map (·.1)
  (((List.range (n + used.length)).map (· + port * 4194304)).filter (fun p => !used.contains p)).take n

/-- The map's namespace has another block size than the one the target was bound with (R506). -/
def otherBlocks (s : State) (d : DOp) : Bool :=
  (tget s.stgs (dTarget d) {}).ns.any (fun p => p.1.toNat == bits (dMapCfg d) 63 32
    && p.2.toNat != bits (rget s (stgTgtReg (dTarget d))) 47 32)

/-- A local target lies behind the other upstream port's switch, which the instance does not reach (R332). -/
def otherSwitch (s : State) (d : DOp) : Bool :=
  let tgt := rget s (stgTgtReg (dTarget d))
  decide (bits tgt 61 60 = 1) && decide (bits tgt 59 56 / 3 ≠ portOf d.vi)

/-- The target was READY when the descriptor was taken (R343), and still is. -/
def tgtReady (s : State) (d : DOp) : Bool :=
  decide (bits (d.wins.getD 7 0) 63 62 = 1) && decide (bits (rget s (stgTgtReg (dTarget d))) 63 62 = 1)

/-- A storage command starts: the checks of R342 in its order, the target's state, then one NVMe command. A target of the other switch is
refused as an operation its map does not permit, and WRITE_ZEROES to a controller that does not report it as UNSUPPORTED (DESIGN CHOICE,
Assumption 52). -/
def startStorage (s : State) (d : DOp) : State :=
  let op := dOp d
  let lba := (dWord d 2).toNat
  let blocks := (d.wins.getD 6 0).toNat
  let bytes := stgBytes s d
  if !stgOk d then finish s d 0x0B 0x85 0 0
  else if !bit (dMapCfg d) 0 ∨ otherBlocks s d ∨ otherSwitch s d ∨ (op ≠ 3 ∧ lba + dNlb d > blocks) ∨ ((op = 2 ∨ op = 4 ∨ op = 5) ∧ !bit (dMapCfg d) 1) then
    finish s d 0x05 0x81 0 0
  else if hasBuf d && !spaceOk s d (bufSpace d) (dWord d 1) bytes (if op = 1 then .wr else .rd) then finish s d 0x05 0x80 0 0
  else if !tgtReady s d then finish s d 0x01 0x84 0 0
  else if op = 5 ∧ !(tget s.stgs (dTarget d) {}).wz then finish s d 0x0B 0 0 0
  else if !busMaster s d.vi then s
  else
    let pages := (bytes + 4095) / 4096
    let free := freePages s (portOf d.vi) pages
    if usesWindow s d ∧ (free.length < pages ∨ (free.any (fun p => decide (p ≥ (portOf d.vi + 1) * 4194304)))) then s
    else
      let s := if usesWindow s d then
          { s with stgWin := free.zipIdx.foldl (fun t p => tset t p.1 (d.id, p.2)) s.stgWin } else s
      modDesc s d.id (fun x => { x with st := .drive, since := s.devTime })

/-! ## Taking and gating (R335, R410, R411) -/

/-- The counter START_QUEUE has reached START_AT (R411). -/
def startMet (s : State) (d : DOp) : Bool :=
  !dStartEn d || decide (bits (dWord d 6) 63 48 > 15) || (decide (d.kind ≠ 4) && !dTailOk d)
    || atOrAfter (getSq s d.vi (bits (dWord d 6) 63 48)).done (BitVec.ofNat 48 (bits (dWord d 6) 47 0))

/-- Earlier descriptors of the same SQ that are not complete. -/
def earlier (s : State) (d : DOp) : List DOp := s.descs.filter (fun x => x.vi == d.vi && x.q == d.q && decide (x.id < d.id))

/-- A waiting descriptor may start: its own counter, no earlier one of its SQ held for its counter, and ORDERED. -/
def gateOk (s : State) (d : DOp) : Bool :=
  startMet s d && !(earlier s d).any (fun x => x.st == .waiting && !startMet s x)
    && !(dOrdered d && !(earlier s d).isEmpty)

/-- A descriptor is taken into progress. -/
def newDesc (s : State) (vi : Vi) (q kind : Nat) (seq : BitVec 48) (b : List Byte) : State × DOp :=
  let m := bits (BitVec.ofNat 64 (ofBytes (b.take 8))) 26 24
  let map := stgMap s vi m
  let d : DOp := {
    id := s.nextDesc, vi := vi, q := q, kind := kind, seq := seq, desc := b,
    wins := (List.range 4).map (fun k => rget s (viReg vi (0x300 + 8 * k))) ++ map ++ [rget s (stgTgtReg (bits (map.getD 0 0) 13 8))] }
  ({ s with nextDesc := s.nextDesc + 1, descs := s.descs ++ [d] }, d)

/-- A TRANSFER or STORAGE descriptor starts when it may. -/
def tryStart (s : State) (d : DOp) : State :=
  if d.st = .waiting ∧ gateOk s d then (if d.kind = 2 then startCopy s d else if d.kind = 3 then startStorage s d else s) else s

/-- The next descriptor of a queue is taken if its OP is one of the row's, and starts when it may. -/
def takeOp (s : State) (vi : Vi) (q kind : Nat) (mine : Nat → Bool) : State :=
  match (getSq s vi q).got with
  | [] => s
  | b :: _ =>
    if !mine (ofBytes (b.take 1)) then s
    else match takeHead s vi q kind with
      | none => s
      | some (s, b, seq) =>
        let (s, d) := newDesc s vi q kind seq b
        tryStart s d

/-- COPY: a transfer descriptor is taken; one with a reserved OP completes with BAD_DESC (R309). -/
def execCopy (vi : Vi) (q : BitVec 4) (s : State) : Host.Outcome State Fault Refusal :=
  .next (settle (takeOp s vi q.toNat 2 (fun _ => true)))
/-- STG_READ takes READ descriptors, and those with a reserved OP, which complete with BAD_DESC (R309). -/
def execStgRead (vi : Vi) (q : BitVec 4) (s : State) : Host.Outcome State Fault Refusal :=
  .next (takeOp s vi q.toNat 3 (fun op => op == 1 || decide (op = 0 ∨ op > 5)))
def execStgWrite (vi : Vi) (q : BitVec 4) (s : State) : Host.Outcome State Fault Refusal :=
  .next (takeOp s vi q.toNat 3 (fun op => op == 2))
def execStgFlush (vi : Vi) (q : BitVec 4) (s : State) : Host.Outcome State Fault Refusal :=
  .next (takeOp s vi q.toNat 3 (fun op => op == 3))
def execStgDeallocate (vi : Vi) (q : BitVec 4) (s : State) : Host.Outcome State Fault Refusal :=
  .next (takeOp s vi q.toNat 3 (fun op => op == 4))
def execStgWriteZeroes (vi : Vi) (q : BitVec 4) (s : State) : Host.Outcome State Fault Refusal :=
  .next (takeOp s vi q.toNat 3 (fun op => op == 5))

/-! ## The storage data window -/

/-- STORAGE_WINDOW_ACCESS (R333): a drive reads or writes a page mapped for it. -/
def winAccess (s : State) (port : Nat) (rid : BitVec 16) (off : Nat) (r : WinReq) (ext : List Byte) : State :=
  let refuse (s : State) : State :=
    raiseErr { s with reply := [], replyPoison := false }
      { cause := 0x01, sev := 0, addr := BitVec.ofNat 64 off, arg0 := rid.setWidth 64 }
  match tget? s.stgWin (port * 4194304 + off / 4096) with
  | none => refuse s
  | some (id, k) =>
    match s.descs.find? (fun d => d.id == id) with
    | none => refuse s
    | some d =>
      let at0 := 4096 * k + off % 4096
      let a := dWord d 1 + BitVec.ofNat 64 at0
      let len := match r with | .read n => n.toNat | .write b _ => b.length
      if bits (rget s (stgTgtReg (dTarget d))) 15 0 ≠ rid.toNat ∨ at0 + len > stgBytes s d ∨ off % 4096 + len > 4096 then refuse s
      else match r with
        | .read n =>
          if d.dead then { s with reply := [], replyPoison := false }
          else match rangeRead s d.vi a n.toNat ext with
            | none => refuse s
            | some (s, b, p) =>
              { modDesc s id (fun x => { x with poisoned := x.poisoned || p }) with reply := b, replyPoison := p }
        | .write b p =>
          if d.dead then s
          else if p then
            gotPoison (modDesc (rangeMark s d.vi a b.length (.desc id)) id (fun x => { x with poisoned := true })) d.vi
          else (rangeWriteBy s d.vi a b (.desc id)).getD s

def execStorageWindowAccess (port : Fin 2) (rid : BitVec 16) (off : BitVec 34) (r : WinReq) (ext : List Byte) (s : State) :
    Host.Outcome State Fault Refusal := .next (winAccess s port.val rid off.toNat r ext)

/-- The window pages of a command are unmapped: the drive's completion, or the abort of the command (R333, R344). -/
def unmapWin (s : State) (id : Nat) : State := { s with stgWin := s.stgWin.filter (fun p => p.2.1 != id) }

/-- A command of an instance that was reset ends without a record (R344). -/
def dropDead (s : State) (id : Nat) : State := { unmapWin s id with descs := s.descs.filter (fun x => x.id != id) }

/-- Unrecovered Read Error of the NVMe Status Field: status code type 2, code 0x81. -/
def unrecovered (f : BitVec 15) : Bool := bits f 10 0 == 0x281

/-- NVME_COMPLETION (R342, R343, R344). -/
def execNvmeCompletion (vi : Vi) (q : BitVec 4) (seq : BitVec 48) (status : BitVec 15) (data : List Byte) (s : State) :
    Host.Outcome State Fault Refusal :=
  match findDescIn s vi q.toNat seq .drive with
  | none => .next s
  | some d =>
    if d.st ≠ .drive then .next s
    else if d.dead then
      .next (dropDead s d.id)
    else if status ≠ 0 then
      .next (finish (unmapWin s d.id) d (if unrecovered status then 0x0A else 0x05) 0x85 0 (status.setWidth 32))
    else
      let s := unmapWin s d.id
      let n := stgBytes s d
      let s := if dOp d = 1 ∧ bufSpace d = 0 ∧ !usesWindow s d then
          (rangeWriteBy s d.vi (dWord d 1) (extBytes s data (dWord d 1).toNat n) (.desc d.id)).getD s else s
      if d.poisoned then .next (finish s d 0x0A 0 0 0)
      else .next (finish s d 0 0 (if dOp d = 3 then 0 else n) (dUser d))

/-- The command timeout of a target in ms. -/
def tgtTimeout (s : State) (t : Nat) : Nat := (tget s.stgs t {}).tmo

/-- NVME_CMD_TIMEOUT (R343): the command is aborted. -/
def execNvmeCmdTimeout (vi : Vi) (q : BitVec 4) (seq : BitVec 48) (s : State) : Host.Outcome State Fault Refusal :=
  match findDescIn s vi q.toNat seq .drive with
  | none => .next s
  | some d =>
    if d.st ≠ .drive ∨ (s.devTime - d.since).toNat < tgtTimeout s (dTarget d) * 1000000 then .next s
    else if d.dead then
      .next (dropDead s d.id)
    else .next (finish (unmapWin s d.id) d 0x04 0x86 0 0)

/-! ## Data from the host or a peer -/

/-- HOST_READ_COMPLETION (R326, R343): the data a descriptor requested arrives, poisoned, or not at all. -/
def execHostReadCompletion (vi : Vi) (q : BitVec 4) (seq : BitVec 48) (out : RdOut) (data : List Byte) (s : State) :
    Host.Outcome State Fault Refusal :=
  match findDescIn s vi q.toNat seq .reading with
  | none => .next s
  | some d =>
    if d.dead then
      -- an old-generation read answers into nothing (R285 step 5)
      .next (modInst { s with descs := s.descs.filter (fun x => x.id != d.id) } vi (fun i => { i with cntReads := sat 65535 (i.cntReads + 1) }))
    else match out with
      | .ok => .next (settle (copyMove s d data))
      | .poisoned =>
        let s := gotPoison s vi
        let n := bits (dWord d 3) 39 0
        .next (settle (finish (copyOut s d [] [(0, n, true)]) d 0x0A 0 0 (dUser d)))
      | .refused => .next (finish s d 0x05 0x82 0 (dUser d))

/-! ## Loss of a downstream link (R344) -/

/-- The descriptor uses a downstream port: a peer window there, or a local target there. -/
def usesPort (s : State) (d : DOp) (port : Nat) : Bool :=
  let tgt := rget s (stgTgtReg (dTarget d))
  if d.kind = 2 then
    spacePort d (bits (dWord d 0) 11 8) == some port || spacePort d (bits (dWord d 0) 15 12) == some port
  else if d.kind = 3 then
    (hasBuf d && spacePort d (bufSpace d) == some port) || (decide (bits tgt 61 60 = 1) && decide (bits tgt 59 56 = port))
  else false

/-- DOWNSTREAM_LINK_LOSS: local targets of the port become FAILED, and descriptors using it complete with LINK_DOWN. -/
def linkLoss (s : State) (port : Nat) : State :=
  let users := s.descs.filter (fun d => (d.st == .waiting || d.st == .reading || d.st == .drive) && usesPort s d port)
  let s := (List.range 64).foldl (fun s t =>
    let w := rget s (stgTgtReg t)
    if bits w 61 60 = 1 ∧ bits w 59 56 = port ∧ bits w 63 62 ≠ 0 then rset s (stgTgtReg t) (setBits w 63 62 2) else s) s
  users.foldl (fun s d =>
    if d.dead then dropDead s d.id
    else finish (unmapWin s d.id) d 0x05 0x83 0 (if d.kind = 2 then dUser d else 0)) s

/-- Slot Status and DPC Status of a downstream port whose link was lost (R330): containment triggers where it is enabled. A removed device
also leaves its slot. -/
def slotLost (s : State) (port : Nat) (removed : Bool) : State :=
  let w : SwPort := tget s.sw port {}
  { s with sw := tset s.sw port { w with
      link := false, speed := 0, width := 0, dllsc := w.dllsc || w.link, dpcTrig := w.dpcTrig || w.dpcEn != 0,
      present := w.present && !removed, pdc := w.pdc || (removed && w.present) } }

def execDownstreamLinkLoss (loss : PortLoss) (s : State) : Host.Outcome State Fault Refusal :=
  .next (linkLoss (slotLost s loss.port.val loss.removed) loss.port.val)

/-- A downstream port trains while its device is present, out of reset, and nothing keeps the link down. The speed and width a link trains
at are its device's choice among those of R330 (free). -/
def swTrain (s : State) (p : Nat) (w : SwPort) : SwPort :=
  let up := w.present && !(s.boot.downRst.toList.getD p true) && !w.dpcTrig && !w.sbr
  { w with
    link := up
    dllsc := w.dllsc || (up != w.link)
    speed := if !up then 0 else if w.link then w.speed else 1 + BitVec.ofNat 4 ((freeBits s 8 (0x3300000 + p)).toNat % 6)
    width := if !up then 0 else if w.link then w.width else BitVec.ofNat 6 (2 ^ ((freeBits s 8 (0x3300010 + p)).toNat % 5)) }

/-- A downstream port trains with what keeps its link down as it is now. -/
def trainPort (s : State) (p : Nat) : State := nextFree { s with sw := tset s.sw p (swTrain s p (tget s.sw p {})) }

/-- DOWNSTREAM_PERST_RELEASE (R614): the output is released while the upstream link of its switch is up. -/
def execDownstreamPerstRelease (port : Fin 6) (s : State) : Host.Outcome State Fault Refusal :=
  if s.boot.upLink.toList.getD (port.val / 3) false then
    .next (trainPort { s with boot := { s.boot with downRst := s.boot.downRst.set port false } } port.val)
  else .next s

end Sys2Proof.Machine
end

