-- ==== Sys2Proof/Machine/Endpoint.lean ====
section
/-! DEFINITION. The BAR2 aperture (R299, R300) and the power states of the upstream links (R318, R319). -/

namespace Sys2Proof.Machine

/-! ## BAR2 (R299, R300) -/

/-- `DEV_APER` of a slot, which each PF holds for itself. -/
def aperReg (fn : Fn) (slot : Nat) : Nat := fnReg fn (devReg (0x5000 + 8 * slot))

/-- What a BAR2 access reaches: the instance and its address, SELF set; `none` where the slot is not VALID. -/
def aperAddr (s : State) (fn : Fn) (off : Nat) : Option (Vi × Word) :=
  let w := rget s (aperReg fn (off / 2 ^ 30))
  if bit w 63 then
    some (BitVec.ofNat 8 (bits w 55 48), BitVec.ofNat 64 (2 ^ 49 + bits w 11 0 * 2 ^ 30 + off % 2 ^ 30))
  else none

/-- A request of 1 to 4,096 bytes that crosses no 4 KiB boundary, as PCIe has them. -/
def tlpOk (off n : Nat) : Bool := decide (1 ≤ n) && decide (n ≤ 4096) && decide (off % 4096 + n ≤ 4096)

/-- An answer to the host. -/
def answerHost (s : State) (d : List Byte) (p : Bool) : State := { s with reply := d, replyPoison := p }

/-- A read that reaches the aperture. -/
def aperRead (s : State) (fn : Fn) (off n : Nat) : State :=
  let refuse := answerHost (accessErr s fn off) (List.replicate n 0) false
  match aperAddr s fn off with
  | none => refuse
  | some (vi, a) =>
    match translate s vi a n .rd with
    | .dev pa _ => let (s, d, p) := devRead s pa n none; answerHost s d p
    | .host _ => refuse
    | .remote _ _ => refuse
    | .fault => refuse

/-- BAR2_READ. A read while the device is Dark returns zero and starts a wake (R549). -/
def execBar2Read (fn : Fn) (off : BitVec 36) (n : BitVec 13) (s : State) : Host.Outcome State Fault Refusal :=
  if !isPf fn || !tlpOk off.toNat n.toNat then .next s
  else match gate s fn none with
    | .absent => .next s
    | .ur => .next (aerReq (answerHost s [] false) fn 20)
    | .ignored => .next (answerHost s (List.replicate n.toNat 0) false)
    | .held => .next (startWake (answerHost s (List.replicate n.toNat 0) false) 1 63)
    | .behind => .next s
    | .pass => .next (aperRead (stopEntry s 1 63) fn off.toNat n.toNat)

/-- A write that reaches the aperture; poisoned data marks its blocks. -/
def aperWrite (fn : Fn) (off : Nat) (data : List Byte) (poison : Bool) (s : State) : State :=
  match aperAddr s fn off with
  | none => accessErr s fn off
  | some (vi, a) =>
    match translate s vi a data.length .wr with
    | .dev pa m =>
      let s := engAct s vi m (if poison then .mark pa data.length else .bytes pa data) (.bar2 fn)
      if poison then aerReq s fn 12 else s
    | .host _ => accessErr s fn off
    | .remote _ _ => accessErr s fn off
    | .fault => accessErr s fn off

def execBar2Write (fn : Fn) (off : BitVec 36) (data : List Byte) (poison : Bool) (s : State) : Host.Outcome State Fault Refusal :=
  if !isPf fn || !tlpOk off.toNat data.length then .next s
  else match gate s fn none with
    | .absent => .next s
    | .ur => .next (aerReq s fn 20)
    | .ignored => .next s
    | .held => .next (startWake { s with heldHost := s.heldHost ++ [.bar2 fn off.toNat data poison] } 1 63)
    | .behind => .next s
    | .pass =>
      if hostWaits s fn then .next (stopEntry { s with heldHost := s.heldHost ++ [.bar2 fn off.toNat data poison] } 1 63)
      else .next (settle (aperWrite fn off.toNat data poison (stopEntry s 1 63)))

/-- A write of `DEV_APER`: an instance of the other port is refused as a whole. -/
def aperWr (fn : Fn) (slot : Nat) (v : Word) (s : State) : State :=
  if portOf (BitVec.ofNat 8 (bits v 55 48)) = portOf fn then rset s (aperReg fn slot) (v &&& 0x80FF000000000FFF)
  else accessErr s fn (devReg (0x5000 + 8 * slot))

/-! ## Link power (R318, R319) -/

def upLinkUp (s : State) (port : Fin 2) : Bool := s.boot.upLink[port]
def setLink (s : State) (port : Fin 2) (l : UpLink) : State := { s with links := s.links.set port l }

/-- Some instance of the port has a RUNNING queue (R319). -/
def queueRuns (s : State) (port : Nat) : Bool :=
  s.sqs.any (fun p => p.2.st == 1 && decide (p.1 / 16 / 128 = port)) || s.cqs.any (fun p => p.2.st == 1 && decide (p.1 / 16 / 128 = port))

/-- The latency the PF reports through LTR in µs (R319). -/
def ltrUs (s : State) (port : Nat) : Nat := if queueRuns s port then 10 else 1000

/-- L0P_ENTER (R318): x8, x4 or x2. -/
def execL0pEnter (port : Fin 2) (lanes : BitVec 4) (s : State) : Host.Outcome State Fault Refusal :=
  let l := s.links[port]
  if upLinkUp s port && bit l.en 0 && l.pm == 0 && (lanes == 8 || lanes == 4 || lanes == 2) && decide (lanes.toNat < l.lanes.toNat) then
    .next (setLink s port { l with lanes := lanes.setWidth 5 })
  else .next s

/-- ASPM_L1_ENTER (R318): L1.2 only while LTR permits, with no queue running (R319). -/
def execAspmL1Enter (port : Fin 2) (sub : L1Sub) (s : State) : Host.Outcome State Fault Refusal :=
  let l := s.links[port]
  if !upLinkUp s port || !bit l.en 1 then .next s
  else match sub with
    | .l1 => if l.pm = 0 then .next (setLink s port { l with pm := 1 }) else .next s
    | .l11 => if l.pm ≤ 1 ∧ bit l.en 2 then .next (setLink s port { l with pm := 2 }) else .next s
    | .l12 => if l.pm ≤ 2 ∧ bit l.en 3 ∧ ltrUs s port.val = 1000 then .next (setLink s port { l with pm := 3 }) else .next s

/-- LINK_POWER_EXIT (R318): the link is back in L0 at its full width. -/
def execLinkPowerExit (port : Fin 2) (s : State) : Host.Outcome State Fault Refusal :=
  if upLinkUp s port then .next (setLink s port { s.links[port] with pm := 0, lanes := 16 }) else .next s

end Sys2Proof.Machine
end

