-- ==== Sys2Proof/Machine/Net.lean ====
section
/-! DEFINITION. Frames: CRC-32C (RFC 3720), the headers Prism parses (R345), its key (R346, R347) and the edits of a frame (R358-R360). -/

namespace Sys2Proof.Machine

/-! ## CRC-32C -/

/-- Eight steps of the reflected CRC-32C. -/
def crcByte (c : Nat) : Nat → Nat
  | 0 => c
  | n + 1 => crcByte (if c.testBit 0 then Nat.xor (c / 2) 0x82F63B78 else c / 2) n

/-- CRC-32C of a byte string (RFC 3720). -/
def crc32c (b : List Byte) : Nat := Nat.xor (b.foldl (fun c x => crcByte (Nat.xor c x.toNat) 8) 0xFFFFFFFF) 0xFFFFFFFF

/-! ## Bytes of a frame -/

/-- The bytes from an offset on replaced. -/
def patch (b : List Byte) (off : Nat) (d : List Byte) : List Byte := b.take off ++ d ++ b.drop (off + d.length)

/-- One's complement sum of the 16-bit big-endian words of a byte string (RFC 1071). -/
def onesSum : List Byte → Nat
  | [] => 0
  | [a] => a.toNat * 256
  | a :: b :: r => a.toNat * 256 + b.toNat + onesSum r

/-- A sum folded to 16 bits with end-around carries; five folds suffice for any sum of a frame. -/
def fold16 (v : Nat) : Nat :=
  let f (x : Nat) : Nat := x % 65536 + x / 65536
  f (f (f (f (f v))))

/-- Checksum field of a string whose own field is zero. -/
def checksum (v : Nat) : Nat := 65535 - fold16 v

/-- Incremental update of a checksum for bytes that change (RFC 1624). -/
def updSum (old : Nat) (was now : List Byte) : Nat := 65535 - fold16 ((65535 - old) + (65535 * (was.length + 1) - onesSum was) + onesSum now)

/-! ## Parsing (R345) -/

/-- One level of parsed headers. -/
structure PHdr where
  dmac  : Nat := 0
  smac  : Nat := 0
  etype : Nat := 0
  v0    : Nat := 0
  v1    : Nat := 0
  tags  : Nat := 0
  l3    : Nat := 0           -- 0 none, 1 IPv4, 2 IPv6
  l4    : Nat := 0           -- 0 none, 1 UDP, 2 TCP, 3 other
  proto : Nat := 0
  sip   : List Byte := List.replicate 16 0
  dip   : List Byte := List.replicate 16 0
  sport : Nat := 0
  dport : Nat := 0
  tc    : Nat := 0
  ttl   : Nat := 0
  tcpf  : Nat := 0
  frag  : Bool := false
  later : Bool := false      -- a non-first fragment
  l3bad : Bool := false
  opts  : Bool := false
  deep  : Bool := false
  l3Off : Nat := 0
  l4Off : Nat := 0           -- 0 where no L4 header was reached
  deriving DecidableEq, Repr

/-- `n` bytes at an offset lie within the first 256 bytes of the frame. -/
def within (b : List Byte) (off n : Nat) : Bool := decide (off + n ≤ 256) && decide (off + n ≤ b.length)
/-- Headers continue past byte 256 of a frame that is long enough. -/
def pastEnd (off n : Nat) : Bool := decide (off + n > 256)

/-- VLAN tags, at most `k`: next offset, and the tag fields as the key has them. -/
def parseTags (b : List Byte) (off : Nat) : Nat → Nat × List Nat
  | 0 => (off, [])
  | k + 1 =>
    let t := be b off 2
    if (t = 0x8100 ∨ t = 0x88A8) ∧ within b off 4 then
      let tci := be b (off + 2) 2
      let (o, r) := parseTags b (off + 4) k
      (o, (32768 + tci / 8192 * 4096 + tci % 4096) :: r)
    else (off, [])

/-- The L4 header at an offset. -/
def parseL4 (b : List Byte) (h : PHdr) (off : Nat) : PHdr :=
  let h := { h with deep := h.deep || decide (off > 256) }
  if h.later then { h with l4 := if h.proto = 17 then 1 else if h.proto = 6 then 2 else 3 }
  else if h.proto = 17 then
    if within b off 8 then { h with l4 := 1, sport := be b off 2, dport := be b (off + 2) 2, l4Off := off }
    else { h with l4 := 1, deep := h.deep || pastEnd off 8 }
  else if h.proto = 6 then
    if within b off 20 then
      { h with l4 := 2, sport := be b off 2, dport := be b (off + 2) 2, tcpf := be b (off + 13) 1, l4Off := off }
    else { h with l4 := 2, deep := h.deep || pastEnd off 20 }
  else { h with l4 := 3 }

/-- IPv6 extension headers, at most `k` more; then the L4 header. -/
def parseExt (b : List Byte) (h : PHdr) (off : Nat) (nh : Nat) : Nat → PHdr
  | 0 =>
    if nh = 0 ∨ nh = 43 ∨ nh = 44 ∨ nh = 60 then { h with deep := true, proto := nh } else parseL4 b { h with proto := nh } off
  | k + 1 =>
    if nh = 0 ∨ nh = 43 ∨ nh = 60 then
      if within b off 8 then parseExt b { h with opts := true } (off + (be b (off + 1) 1 + 1) * 8) (be b off 1) k
      else { h with opts := true, proto := nh, deep := h.deep || pastEnd off 8 }
    else if nh = 44 then
      if within b off 8 then
        let fo := be b (off + 2) 2
        let h := { h with opts := true, frag := decide (fo / 8 ≠ 0) || decide (fo % 2 = 1), later := decide (fo / 8 ≠ 0) }
        parseExt b h (off + 8) (be b off 1) k
      else { h with opts := true, proto := nh, deep := h.deep || pastEnd off 8 }
    else parseL4 b { h with proto := nh } off

/-- The L3 header at an offset. -/
def parseL3 (b : List Byte) (h : PHdr) (off : Nat) : PHdr :=
  if h.etype = 0x0800 then
    if !within b off 20 then { h with deep := pastEnd off 20, l3bad := !pastEnd off 20 }
    else
      let ihl := be b off 1 % 16 * 4
      let tl := be b (off + 2) 2
      let fo := be b (off + 6) 2
      let bad := decide (be b off 1 / 16 ≠ 4) || decide (ihl < 20) || decide (tl < ihl) || decide (off + tl > b.length)
        || decide (fold16 (onesSum ((b.drop off).take ihl)) ≠ 65535)
      let h := { h with
        l3 := 1, l3Off := off, l3bad := bad, opts := decide (ihl > 20),
        proto := be b (off + 9) 1, ttl := be b (off + 8) 1, tc := be b (off + 1) 1,
        sip := (b.drop (off + 12)).take 4 ++ List.replicate 12 0, dip := (b.drop (off + 16)).take 4 ++ List.replicate 12 0,
        frag := decide (fo % 16384 ≠ 0), later := decide (fo % 8192 ≠ 0) }
      if ihl < 20 then h else parseL4 b h (off + ihl)
  else if h.etype = 0x86DD then
    if !within b off 40 then { h with deep := pastEnd off 40, l3bad := !pastEnd off 40 }
    else
      let bad := decide (be b off 1 / 16 ≠ 6) || decide (off + 40 + be b (off + 4) 2 > b.length)
      let h := { h with
        l3 := 2, l3Off := off, l3bad := bad, ttl := be b (off + 7) 1, tc := be b off 2 / 16 % 256,
        sip := (b.drop (off + 8)).take 16, dip := (b.drop (off + 24)).take 16 }
      parseExt b h (off + 40) (be b (off + 6) 1) 2
  else h

/-- One level: Ethernet II, VLAN tags, L3, L4. -/
def parseLayer (b : List Byte) (off maxTags : Nat) : PHdr :=
  if !within b off 14 then { deep := pastEnd off 14 }
  else
    let (o, vs) := parseTags b (off + 12) maxTags
    let h : PHdr := {
      dmac := be b off 6, smac := be b (off + 6) 6, etype := if within b o 2 then be b o 2 else 0,
      v0 := vs.getD 0 0, v1 := vs.getD 1 0, tags := vs.length, deep := !within b o 2 && pastEnd o 2 }
    parseL3 b h (o + 2)

/-- A parsed frame: outer headers, tunnel kind, VNI, where the frame inside the tunnel starts and its headers, which are absent where
the parse stops before them. -/
structure Parsed where
  outer  : PHdr
  tunnel : Nat := 0
  vni    : Nat := 0
  start  : Nat := 0
  inner  : PHdr := {}
  deriving DecidableEq, Repr

/-- The inner frame at an offset; a tunnel inside it sets DEEP. -/
def parseInner (b : List Byte) (off : Nat) : PHdr :=
  let h := parseLayer b off 1
  if h.l4 = 1 ∧ (h.dport = 4789 ∨ h.dport = 6081) then { h with deep := true } else h

/-- The headers of a frame (R345). -/
def parseFrame (b : List Byte) : Parsed :=
  let o := parseLayer b 0 2
  if o.l4 = 1 ∧ o.l4Off ≠ 0 ∧ o.dport = 4789 then
    let t := o.l4Off + 8
    if within b t 8 then { outer := o, tunnel := 1, vni := be b (t + 4) 3, start := t + 8, inner := parseInner b (t + 8) }
    else { outer := { o with deep := o.deep || pastEnd t 8 } }
  else if o.l4 = 1 ∧ o.l4Off ≠ 0 ∧ o.dport = 6081 then
    let t := o.l4Off + 8
    let ol := be b t 1 % 64 * 4
    if !within b t 8 then { outer := { o with deep := o.deep || pastEnd t 8 } }
    else if ol > 64 then { outer := { o with deep := true }, tunnel := 2, vni := be b (t + 4) 3, start := t + 8 + ol }
    else { outer := o, tunnel := 2, vni := be b (t + 4) 3, start := t + 8 + ol, inner := parseInner b (t + 8 + ol) }
  else { outer := o }

/-! ## The key (R346, R347) -/

/-- The headers that offsets 0x00 to 0x3A come from. -/
def keyHdr (p : Parsed) (keysel : Bool) : PHdr := if keysel && p.tunnel != 0 then p.inner else p.outer

/-- FLAGS of a level, without SECURED and REINJECT. -/
def hdrFlags (h : PHdr) : Nat := b2n h.frag + 2 * b2n h.l3bad + 4 * b2n h.opts + 16 * b2n h.deep

/-- FLAGS of the key; DEEP tells of the whole frame, whichever headers the key takes (R345). -/
def keyFlags (p : Parsed) (keysel secured reinject : Bool) : Nat :=
  let f := if keysel then Nat.lor (hdrFlags p.outer) (hdrFlags p.inner) else hdrFlags { p.outer with deep := p.outer.deep || p.inner.deep }
  Nat.lor f (8 * b2n secured + 32 * b2n reinject)

/-- The 40-byte flow string (R347). -/
def flowString (h : PHdr) (vni : Nat) : List Byte :=
  h.sip ++ h.dip ++ beBytes 2 h.sport ++ beBytes 2 h.dport ++ beBytes 1 h.proto ++ beBytes 3 vni

/-- FHASH (R347). -/
def flowHash (h : PHdr) (vni : Nat) : Nat :=
  if h.l3 = 0 then crc32c (beBytes 6 h.dmac ++ beBytes 6 h.smac ++ beBytes 2 h.etype) else crc32c (flowString h vni)

/-- A comparator's field of the key. -/
def rangeField (h : PHdr) (vni f : Nat) : Nat :=
  match f with
  | 0 => h.sport | 1 => h.dport | 2 => h.v0 % 4096 | 3 => h.v1 % 4096 | 4 => h.etype | 5 => vni % 65536 | _ => 0

/-- Range comparator n holds (R354). -/
def rangeHolds (h : PHdr) (vni : Nat) (w : Word) : Bool :=
  let x := rangeField h vni (bits w 58 56)
  bit w 63 && decide (bits w 15 0 ≤ x) && decide (x ≤ bits w 31 16)

/-- RANGE of the key. -/
def rangeBits (h : PHdr) (vni : Nat) (ranges : Tab Word) : Nat :=
  (List.range 32).foldl (fun a n => if rangeHolds h vni (tget ranges n 0) then a + 2 ^ n else a) 0

/-- The 72-byte key (R346). -/
def buildKey (p : Parsed) (keysel : Bool) (flags port range_ fhash : Nat) : List Byte :=
  let h := keyHdr p keysel
  beBytes 6 h.dmac ++ beBytes 6 h.smac ++ beBytes 2 h.etype ++ beBytes 2 h.v0 ++ beBytes 2 h.v1
    ++ beBytes 1 (h.l3 + 4 * h.l4 + 16 * p.tunnel) ++ beBytes 1 h.proto ++ h.sip ++ h.dip ++ beBytes 2 h.sport ++ beBytes 2 h.dport
    ++ beBytes 1 h.tc ++ beBytes 1 h.ttl ++ beBytes 1 h.tcpf ++ beBytes 1 flags ++ beBytes 3 p.vni ++ beBytes 1 port
    ++ beBytes 4 range_ ++ beBytes 4 fhash

/-! ## Actions (R355) -/

/-- Word i of an action. -/
def actWord (a : List Byte) (i : Nat) : Nat := ofBytes ((a.drop (8 * i)).take 8)
/-- Bits of word i of an action. -/
def actBits (a : List Byte) (i hi lo : Nat) : Nat := actWord a i / 2 ^ lo % 2 ^ (hi + 1 - lo)
def actKind (a : List Byte) : Nat := actBits a 0 3 0

/-! ## Edits (R358-R360) -/

/-- L4 checksum field offset: 6 in UDP, 16 in TCP. -/
def sumOff (h : PHdr) : Nat := if h.l4 = 1 then h.l4Off + 6 else h.l4Off + 16

/-- The L4 checksum updated for changed bytes (R359): an IPv4 UDP checksum of zero stays zero. -/
def fixL4 (b : List Byte) (h : PHdr) (was now : List Byte) : List Byte :=
  if h.l4Off = 0 ∨ h.l4 = 3 then b
  else
    let old := be b (sumOff h) 2
    if h.l4 = 1 ∧ h.l3 = 1 ∧ old = 0 then b
    else
      let v := updSum old was now
      patch b (sumOff h) (beBytes 2 (if h.l4 = 1 ∧ v = 0 then 65535 else v))

/-- The IPv4 header checksum recomputed. -/
def fixL3 (b : List Byte) (h : PHdr) : List Byte :=
  if h.l3 ≠ 1 then b
  else
    let ihl := be b h.l3Off 1 % 16 * 4
    let z := patch b (h.l3Off + 10) [0, 0]
    patch z (h.l3Off + 10) (beBytes 2 (checksum (onesSum ((z.drop h.l3Off).take ihl))))

/-- A field of the L3 header or L4 ports replaced, with the checksum it enters. -/
def setField (b : List Byte) (h : PHdr) (off : Nat) (d : List Byte) : List Byte :=
  let was := (b.drop off).take d.length
  fixL4 (patch b off d) h was d

/-- One rewrite of R355; a field whose header is absent is left. -/
def rewriteOne (a : List Byte) (b : List Byte) (i : Nat) : List Byte :=
  let h := parseLayer b 0 2
  match i with
  | 0 => patch b 0 (beBytes 6 (actBits a 2 47 0))
  | 1 => patch b 6 (beBytes 6 (actBits a 3 47 0))
  | 2 => if h.tags = 0 then b else patch b 14 (beBytes 2 (be b 14 2 / 4096 * 4096 + actBits a 5 11 0))
  | 3 => if h.tags = 0 then b else patch b 14 (beBytes 2 (be b 14 2 % 8192 + actBits a 5 14 12 * 8192))
  | 4 =>
    if h.l3 = 1 then patch b (h.l3Off + 1) (beBytes 1 (be b (h.l3Off + 1) 1 % 4 + actBits a 5 21 16 * 4))
    else if h.l3 = 2 then
      let w := be b h.l3Off 2
      patch b h.l3Off (beBytes 2 (w / 4096 * 4096 + actBits a 5 21 16 * 64 + w % 64))
    else b
  | 5 => if h.l3 = 1 then setField b h (h.l3Off + 12) (beBytes 4 (actBits a 4 31 0)) else b
  | 6 => if h.l3 = 1 then setField b h (h.l3Off + 16) (beBytes 4 (actBits a 4 63 32)) else b
  | 7 => if h.l4Off ≠ 0 ∧ h.l4 ≠ 3 then setField b h (h.l4Off + 2) (beBytes 2 (actBits a 5 47 32)) else b
  | _ => b

/-- Every rewrite of the REWRITE field, in bit order. -/
def rewriteAll (a b : List Byte) : List Byte :=
  (List.range 8).foldl (fun b i => if actWord a 0 / 2 ^ (48 + i) % 2 = 1 then rewriteOne a b i else b) b

/-- TTL or hop limit decremented. -/
def ttlDec (b : List Byte) : List Byte :=
  let h := parseLayer b 0 2
  if h.l3 = 1 then patch b (h.l3Off + 8) (beBytes 1 (h.ttl - 1))
  else if h.l3 = 2 then patch b (h.l3Off + 7) (beBytes 1 (h.ttl - 1)) else b

/-- Pseudo-header sum of an IPv6 UDP datagram. -/
def pseudo6 (h : PHdr) (len : Nat) : Nat := onesSum (h.sip ++ h.dip) + len + 17

/-- The outer headers of a tunnelled frame with lengths and checksums for the bytes they now carry; `port` is a new UDP source port. -/
def fillOuter (f : List Byte) (port : Option Nat) : List Byte :=
  let h := parseLayer f 0 2
  let f := if h.l3 = 1 then patch f (h.l3Off + 2) (beBytes 2 (f.length - h.l3Off))
    else if h.l3 = 2 then patch f (h.l3Off + 4) (beBytes 2 (f.length - h.l3Off - 40)) else f
  let f := fixL3 f h
  if h.l4 ≠ 1 ∨ h.l4Off = 0 then f
  else
    let ul := f.length - h.l4Off
    let f := match port with | some v => patch f h.l4Off (beBytes 2 v) | none => f
    let f := patch f (h.l4Off + 4) (beBytes 2 ul ++ [0, 0])
    if h.l3 = 2 then
      let v := checksum (onesSum (f.drop h.l4Off) + pseudo6 h ul)
      patch f (h.l4Off + 6) (beBytes 2 (if v = 0 then 65535 else v))
    else f

/-- PUSH_ENCAP (R359): the template's headers before the frame, with lengths, checksums and source port filled. -/
def pushEncap (tpl b : List Byte) (fhash : Nat) : List Byte :=
  fillOuter ((tpl.drop 8).take ((ofBytes (tpl.take 1)) % 128) ++ b) (some (0xC000 + fhash % 16384))

/-- The edits of an action up to REWRITE: tags and outer headers removed. -/
def stripEdits (a b : List Byte) : List Byte :=
  let p := parseFrame b
  let k := actBits a 0 33 32
  let b' := if k ≤ p.outer.tags then b.take 12 ++ b.drop (12 + 4 * k) else b
  if actBits a 0 34 34 = 1 ∧ p.tunnel ≠ 0 ∧ p.start < b.length then b.drop p.start else b'

/-- TTL_DEC meets a TTL of 0 or 1 (R360). -/
def ttlExpires (a b : List Byte) : Bool :=
  let h := parseLayer (stripEdits a b) 0 2
  actBits a 0 56 56 == 1 && h.l3 != 0 && decide (h.ttl ≤ 1)

/-- The edits of an action in order (R358). -/
def editFrame (a b tpl : List Byte) (fhash : Nat) : List Byte :=
  let b := stripEdits a b
  let b := rewriteAll a b
  let b := if actBits a 0 56 56 = 1 then ttlDec b else b
  let b := if actBits a 0 56 48 ≠ 0 then fixL3 b (parseLayer b 0 2) else b
  let b := if actBits a 0 36 36 = 1 then b.take 12 ++ beBytes 2 (actBits a 1 31 16) ++ beBytes 2 (actBits a 1 15 0) ++ b.drop 12 else b
  if actBits a 0 37 37 = 1 then pushEncap tpl b fhash else b

end Sys2Proof.Machine
end

