-- ==== Sys2Proof/Machine/Iris.lean ====
section
/-! DEFINITION. Iris (R372-R398): queues, credit shapers, gate control lists, transmit rings, queue sampling, and the links of Ethernet
ports (R435, R611). -/

namespace Sys2Proof.Machine

/-! ## Ports -/

def irsReg (p : Port) (off : Nat) : Nat := portReg p (0x4000 + off)
def getIris (s : State) (p : Port) : Iris := tget s.iris p.val {}
def setIris (s : State) (p : Port) (x : Iris) : State := { s with iris := tset s.iris p.val x }
def getPhy (s : State) (p : Port) : Phy := tget s.phy p.val {}
def setPhy (s : State) (p : Port) (x : Phy) : State := { s with phy := tset s.phy p.val x }
def phyCfg (s : State) (p : Port) : Word := rget s (portReg p 0x8000)
/-- USE of a port (R434). -/
def portUse (s : State) (p : Port) : Nat := bits (phyCfg s p) 59 58
/-- The port runs as Ethernet. -/
def runsEth (s : State) (p : Port) : Bool := portUse s p == 1
/-- MAXFRAME of a port (R435). -/
def maxFrame (s : State) (p : Port) : Nat := bits (phyCfg s p) 13 0
/-- Quadrant of a port (R25). -/
def portQuad (p : Port) : BitVec 2 := BitVec.ofNat 2 (p.val / 3)
/-- A port's number as a port. -/
def portOfNat (n : Nat) : Option Port := if h : n < 12 then some ⟨n, h⟩ else none

/-- A counter of 48 bits with WRAP advances. -/
def bumpCnt (t : Tab (BitVec 48 × Bool)) (k n : Nat) : Tab (BitVec 48 × Bool) :=
  let (v, w) := tget t k ((0 : BitVec 48), false)
  tset t k (BitVec.ofNat 48 (v.toNat + n), w || decide (v.toNat + n ≥ 2 ^ 48))

/-- A signed 8-bit field. -/
def signed8 (n : Nat) : Int := if n ≥ 128 then (n : Int) - 256 else n

/-! ## Lengths (R378, R379) -/

/-- MACsec protects frames the port transmits, adding 32 bytes (R492). -/
def macsecTx (s : State) (p : Port) : Bool :=
  let w := rget s (0xF81000 + 0x40 * p.val)
  bit w 63 && bit w 60

/-- Transmitted length: padding, FCS, SecTAG and ICV included. -/
def txLen (s : State) (p : Port) (f : IFrame) : Nat := Nat.max 64 (f.data.length + 4) + (if macsecTx s p then 32 else 0)

/-- Accounted length under an overhead. -/
def accLen (n : Nat) (ovh : Int) : Nat := (max ((n : Int) + ovh) 1).toNat

def portOvh (s : State) (p : Port) : Int := signed8 (bits (rget s (irsReg p 0)) 31 24)

/-! ## Queues (R373-R375) -/

def qCfg (s : State) (p : Port) (q : Nat) : Word := rget s (irsReg p (0x100 + 8 * q))
def queueOf (x : Iris) (q : Nat) : List IFrame := tget x.queues q []
/-- DEPTH of a list of frames in bytes. -/
def depth (s : State) (p : Port) (l : List IFrame) : Nat := l.foldl (fun a f => a + txLen s p f) 0
/-- Bytes in the egress buffer of a port. -/
def bufBytes (s : State) (p : Port) (x : Iris) : Nat := x.queues.foldl (fun a e => a + depth s p e.2) 0

/-- A queue is full (R374). -/
def qFull (s : State) (p : Port) (x : Iris) (q : Nat) : Bool :=
  decide (depth s p (queueOf x q) ≥ bits (qCfg s p q) 13 0 * 1024) || decide (bufBytes s p x ≥ 8388608)

/-- PCP of a frame as transmitted (R373). -/
def pcpOf (b : List Byte) : Nat := let h := parseLayer b 0 2; if h.tags = 0 then 0 else h.v0 / 4096 % 8

/-- Queue of a frame: `IRS_MAP` by kind and PCP (R373). -/
def mapQueue (s : State) (p : Port) (f : IFrame) : Nat :=
  let w := rget s (irsReg p (0x300 + 8 * (f.kind / 2)))
  let lo := (if f.kind % 2 = 1 then 32 else 0) + 4 * pcpOf f.data
  bits w (lo + 3) lo

/-- A frame enters its queue, or is dropped there and counted: state of the Iris, dropped. -/
def enqueue (s : State) (p : Port) (x : Iris) (f : IFrame) : Iris × Bool :=
  let q := mapQueue s p f
  if qFull s p x q then
    ({ x with drops := bumpCnt x.drops q 1, smpDrop := tset x.smpDrop q (tget x.smpDrop q 0 + 1) }, true)
  else ({ x with queues := tset x.queues q (queueOf x q ++ [{ f with since := s.devTime }]) }, false)

/-! ## Shapers (R380-R384) -/

/-- Class of a kind: STORAGE, CHECKPOINT, TELEMETRY, CONTROL. -/
def classOf (kind : Nat) : Nat := kind - 2
def viShapeReg (vi : Vi) (p : Port) : Nat := viReg vi (0xE00 + 8 * p.val)
def clShapeReg (p : Port) (c : Nat) : Nat := irsReg p (0x400 + 8 * c)

/-- Frames of a stage released while CREDIT is greater than 0 and their queue has room; mirror copies that meet a full queue are
dropped (R372). `w` is the shaper's register. The last part of the result lists the Prisms whose copies were dropped. -/
def releaseStage (s : State) (p : Port) (w : Word) : List IFrame → Int → Iris → List Nat → Iris × List IFrame × Int × List Nat
  | [], c, x, k => (x, [], c, k)
  | f :: r, c, x, k =>
    let en := bit w 63
    let cost : Int := 8 * (accLen (txLen s p f) (signed8 (bits w 55 48)) : Int)
    if en ∧ c ≤ 0 then (x, f :: r, c, k)
    else
      let q := mapQueue s p f
      if qFull s p x q then
        match f.mirror with
        | some m =>
          releaseStage s p w r c { x with
            drops := bumpCnt x.drops q 1, smpDrop := tset x.smpDrop q (tget x.smpDrop q 0 + 1) } (k ++ [m])
        | none => (x, f :: r, c, k)
      else
        let (x, _) := enqueue s p x f
        releaseStage s p w r (if en then c - cost else c) x k

/-- Full credit of a shaper's register. -/
def fullCredit (w : Word) : Int := 8 * (bits w 47 24 : Int)

/-- A Prism counts a drop (*Drop reasons*). -/
def prismDrop (s : State) (p k : Nat) : State :=
  let m := tget s.prism p ({} : Prism)
  { s with prism := tset s.prism p { m with drops := bumpCnt m.drops k 1 } }

/-- The shapers of a list of keys release what they may. -/
def runShaper (s : State) (p : Port) (inst : Bool) (k : Nat) : State :=
  let x := getIris s p
  let sh := if inst then tget x.viSh k {} else tget x.clSh k {}
  let w := if inst then rget s (viShapeReg (BitVec.ofNat 8 k) p) else rget s (clShapeReg p k)
  let c0 := if bit w 63 then sh.credit else fullCredit w
  let (x, stage, c, lost) := releaseStage s p w sh.stage c0 x []
  let sh := { sh with stage := stage, credit := c }
  let s := setIris s p (if inst then { x with viSh := tset x.viSh k sh } else { x with clSh := tset x.clSh k sh })
  lost.foldl (fun s m => prismDrop s m 12) s

/-- Every stage of a port releases what it may: instances in ascending number, then the classes. -/
def runShapers (s : State) (p : Port) : State :=
  let s := ((getIris s p).viSh.map (·.1)).foldl (fun s k => runShaper s p true k) s
  ((getIris s p).clSh.map (·.1)).foldl (fun s k => runShaper s p false k) s

/-- An instance's stage for a port is full (R381). -/
def stageFull (s : State) (p : Port) (vi : Vi) : Bool := decide ((tget (getIris s p).viSh vi.toNat {}).stage.length ≥ 64)

/-- A frame is offered to the Iris of a port by its kind (R372, R381). -/
def toIris (s : State) (p : Port) (f : IFrame) : State :=
  let x := getIris s p
  if f.kind ≤ 1 then
    match f.vi with
    | none => s
    | some vi =>
      if stageFull s p vi then s
      else
        let sh := tget x.viSh vi.toNat {}
        runShaper (setIris s p { x with viSh := tset x.viSh vi.toNat { sh with stage := sh.stage ++ [f] } }) p true vi.toNat
  else if f.kind ≤ 5 then
    let c := classOf f.kind
    let sh := tget x.clSh c {}
    runShaper (setIris s p { x with clSh := tset x.clSh c { sh with stage := sh.stage ++ [f] } }) p false c
  else
    let (x, _) := enqueue s p x f
    setIris s p x

/-- The frame of a BRM packet over UDP (R412). What the spec does not give of its headers is free: the IPv4 identification, the flow label,
and the time to live or hop limit. -/
def brmFrameOut (s : State) (o : BrmOut) : List Byte :=
  let par := o.par
  let ttl : Byte := freeBits s 8 0x20A0000
  let id := freeBits s 16 0x20A0001
  let v6 := decide (bits par 1 0 = 2)
  let eth := beBytes 6 (bits par 175 128) ++ beBytes 6 (bits par 239 192)
    ++ (if bit par 7 then beBytes 2 0x8100 ++ beBytes 2 (bits par 31 16) else []) ++ beBytes 2 (if v6 then 0x86DD else 0x0800)
  let adr (lo : Nat) : List Byte := toBytes (if v6 then 16 else 4) (bits par (lo + 127) lo)
  let ip := if v6 then beBytes 4 (6 * 2 ^ 28 + bits par 39 32 * 2 ^ 20 + id.toNat) ++ [0, 0, 17, ttl]
    else [0x45, BitVec.ofNat 8 (bits par 39 32), 0, 0] ++ beBytes 2 id.toNat ++ [0x40, 0, ttl, 17, 0, 0]
  let udp := beBytes 2 ((bits par 111 96 + o.path) % 65536) ++ beBytes 2 (bits (rget s 0x300000) 47 32) ++ [0, 0, 0, 0]
  fillOuter (eth ++ ip ++ adr 256 ++ adr 384 ++ udp ++ o.pkt) none

/-- The BRM engine's next packet of an instance for a port goes to the instance's stage there; a full stage holds it (R381, R412). -/
def brmToIris (s : State) (port : Port) (vi : Vi) : State :=
  match s.brmOut.find? (fun o => o.vi == vi && decide (bits o.par 11 8 = port.val)) with
  | none => s
  | some o =>
    if stageFull s port vi then s
    else toIris (nextFree { s with brmOut := s.brmOut.erase o }) port { kind := 1, data := brmFrameOut s o, vi := some vi }

/-- A frame an engine or a Steward brings, by its kind (R372). -/
def offer (s : State) (port : Port) (src : IrisSrc) (data : List Byte) : State :=
  match src with
  | .brm vi => toIris s port { kind := 1, data := data, vi := some vi }
  | .storage => toIris s port { kind := 2, data := data }
  | .snapshot => toIris s port { kind := 3, data := data }
  | .telemetry => toIris s port { kind := 4, data := data }
  | .steward => toIris s port { kind := 5, data := data }

/-- FRAME_TO_IRIS (R381): the BRM, storage and snapshot engines and the Stewards offer a frame. The BRM engine's is the next of its own. -/
def execFrameToIris (port : Port) (src : IrisSrc) (data : List Byte) (s : State) : Host.Outcome State Fault Refusal :=
  if !runsEth s port then .next s
  else match src with
    | .brm vi => .next (brmToIris s port vi)
    | src => if data.length < 14 || data.length + 4 > maxFrame s port then .next s else .next (offer s port src data)

/-- TCP_RETRANSMIT (R340): a Steward sends a lost segment or a keep-alive of an NVMe/TCP target again, once those of its quadrant that have
the duty run (R502). -/
def execTcpRetransmit (target : BitVec 6) (data : List Byte) (s : State) : Host.Outcome State Fault Refusal :=
  let w := rget s (stgTgtReg target.toNat)
  match portOfNat (bits w 59 56) with
  | none => .next s
  | some p =>
    if bits w 61 60 = 2 ∧ (bits w 63 62 = 1 ∨ bits w 63 62 = 3) ∧ slowUp s (p.val / 3) ∧ runsEth s p ∧ 14 ≤ data.length ∧ data.length + 4 ≤ maxFrame s p then
      .next (toIris s p { kind := 2, data := data })
    else .next s

/-- CREDIT after a refill. -/
def refillTo (w : Word) (c : Int) : Int :=
  if bit w 63 then min (c + (bits w 20 0 : Int)) (fullCredit w) else fullCredit w

/-- SHAPER_REFILL (R380, R384): at a multiple of 1,000 ns, once for each of them. -/
def execShaperRefill (port : Port) (sh : ShaperId) (s : State) : Host.Outcome State Fault Refusal :=
  let x := getIris s port
  if s.devTime.toNat % 1000 ≠ 0 then .next s
  else match sh with
    | .inst vi =>
      let h := tget x.viSh vi.toNat {}
      if h.last = some s.devTime then .next s
      else
        let w := rget s (viShapeReg vi port)
        let h := { h with credit := refillTo w h.credit, last := some s.devTime }
        .next (runShaper (setIris s port { x with viSh := tset x.viSh vi.toNat h }) port true vi.toNat)
    | .cls c =>
      let k := c.toNat
      let h := tget x.clSh k {}
      if h.last = some s.devTime then .next s
      else
        let s := match (h.pend.filter (fun p => p.2 != s.devTime)).getLast? with
          | some (v, _) => rset s (clShapeReg port k) v
          | none => s
        let w := rget s (clShapeReg port k)
        let h := { h with
          credit := refillTo w (min h.credit (fullCredit w)), last := some s.devTime, pend := h.pend.filter (fun p => p.2 == s.devTime) }
        .next (runShaper (setIris s port { x with clSh := tset x.clSh k h }) port false k)

/-- A shaper's register as a write leaves it: a RATE above 1,600,000 is ignored, and an OVH below -64 keeps the old one (R11). -/
def shapeVal (old v mask : Word) : Word :=
  let v := v &&& mask
  let v := if 128 ≤ bits v 55 48 ∧ bits v 55 48 < 192 then setBits v 55 48 (bits old 55 48) else v
  if bits v 20 0 > 1600000 then setBits v 20 0 (bits old 20 0) else v

/-- The credit of an instance's shaper is set as its FULL gives (R383, R398). -/
def viCredit (s : State) (vi : Vi) (p : Port) : State :=
  let w := rget s (viShapeReg vi p)
  let x := getIris s p
  let c := if bit w 62 ∨ !bit w 63 then fullCredit w else 0
  setIris s p { x with viSh := tset x.viSh vi.toNat { tget x.viSh vi.toNat {} with credit := c } }

/-- A write of `VI_SHAPE` (R383). -/
def viShapeWr (fn : Fn) (vi : Vi) (p : Port) (v : Word) (s : State) : State :=
  if !isPf fn then viRefused s fn vi (0xE00 + 8 * p.val)
  else
    let k := viShapeReg vi p
    runShaper (viCredit (rset s k (shapeVal (rget s k) v 0xC0FFFFFFFF1FFFFF)) vi p) p true vi.toNat

def execViShapeWrite (fn : Fn) (vi : Vi) (port : Port) (v : Word) (s : State) : Host.Outcome State Fault Refusal :=
  hostVi fn vi (0xE00 + 8 * port.val) v (viShapeWr fn vi port v) s

/-- The value of `IRS_CSHAPE` as last written, whether or not it applies yet. -/
def cShapeLast (s : State) (p : Port) (c : Nat) : Word :=
  (((tget (getIris s p).clSh c {}).pend.getLast?).map (·.1)).getD (rget s (clShapeReg p c))

/-- A write of `IRS_CSHAPE` (R384): it waits for a refill; the last of several applies. -/
def cShapeWr (p : Port) (c : Nat) (v : Word) (s : State) : State :=
  let x := getIris s p
  let sh := tget x.clSh c {}
  let w := shapeVal (cShapeLast s p c) v 0x80FFFFFFFF1FFFFF
  setIris s p { x with clSh := tset x.clSh c { sh with pend := sh.pend ++ [(w, s.devTime)] } }

/-- BAR0 offset of a register of a port block. -/
def portOff (p : Port) (off : Nat) : Nat := 0x200000 + 0x10000 * p.val + off

def execIrsCshapeWrite (fn : Fn) (port : Port) (c : BitVec 2) (v : Word) (s : State) : Host.Outcome State Fault Refusal :=
  hostPf fn (portOff port (0x4400 + 8 * c.toNat)) v (cShapeWr port c.toNat v) s

/-- A write of `IRS_QCFG` (R375, R377): a WEIGHT or LIMIT_KIB out of range keeps the old one. -/
def qCfgWr (p : Port) (q : Nat) (v : Word) (s : State) : State :=
  let k := irsReg p (0x100 + 8 * q)
  let old := rget s k
  let wt := bits v 57 48
  let lim := bits v 13 0
  let w := at_ (bits v 63 63) 63 ||| at_ (if wt = 0 ∧ !bit v 63 then bits old 57 48 else wt) 48
    ||| at_ (if lim = 0 ∨ lim > 8192 then bits old 13 0 else lim) 0
  let x := getIris s p
  let s := if bit w 63 != bit old 63 then setIris s p { x with deficit := tset x.deficit q 0 } else s
  runShapers (rset s k w) p

def execIrsQcfgWrite (fn : Fn) (port : Port) (q : BitVec 4) (v : Word) (s : State) : Host.Outcome State Fault Refusal :=
  hostPf fn (portOff port (0x4100 + 8 * q.toNat)) v (qCfgWr port q.toNat v) s

/-! ## Gates (R385-R391) -/

def gclReg (p : Port) : Nat := irsReg p 0x800
def aBase (s : State) (p : Port) : Nat := (rget s (irsReg p 0x808)).toNat
def aCycle (s : State) (p : Port) : Nat := bits (rget s (irsReg p 0x810)) 31 0
def aExt (s : State) (p : Port) : Nat := bits (rget s (irsReg p 0x810)) 63 32
def aLen (s : State) (p : Port) : Nat := bits (rget s (gclReg p)) 21 13
/-- The administrative list. -/
def aList (s : State) (p : Port) : List Word := (List.range (aLen s p)).map (fun i => rget s (irsReg p (0x1000 + 8 * i)))

/-- GATES of a list at a place within its cycle: the last entry's states hold to the cycle's end (R387). -/
def listGates : List Word → Nat → Nat
  | [], _ => 0xFFFF
  | [e], _ => bits e 63 48
  | e :: r, t => if t < bits e 31 0 then bits e 63 48 else listGates r (t - bits e 31 0)

/-- Gate states at a time, the pending change counted (R386, R387, R390). -/
def gatesAt (s : State) (p : Port) (t : Nat) : Nat :=
  let x := getIris s p
  let ct := x.chtime.toNat
  let ob := x.obase.toNat
  if !bit (rget s (gclReg p)) 0 then 0xFFFF
  else if x.pend ∧ t ≥ ct then listGates (aList s p) (t - ct)
  else if x.oper = [] ∨ x.ocycle = 0 then bits (rget s (gclReg p)) 63 48
  else
    let start := ob + (ct - ob) / x.ocycle * x.ocycle
    if x.pend ∧ start > ob ∧ ct - start < aExt s p ∧ t ≥ start then listGates x.oper (x.ocycle - 1)
    else listGates x.oper ((t - ob) % x.ocycle)

/-- Gate q is open at a time. -/
def gateOpen (s : State) (p : Port) (q t : Nat) : Bool := (gatesAt s p t).testBit q

/-- Nanoseconds a frame of an accounted length takes at 1.6 Tb/s (R388, R435). -/
def wireNs (len : Nat) : Nat := (8 * len + 1599) / 1600

/-- Segments (gates, duration) of one cycle of a list; those past the cycle's end last no time. -/
def segments : List Word → Nat → List (Nat × Nat)
  | [], _ => []
  | [e], left => [(bits e 63 48, left)]
  | e :: r, left =>
    let d := Nat.min (bits e 31 0) left
    (bits e 63 48, d) :: segments r (left - d)

/-- Longest run of open time of gate q over a list of segments: (longest, current). -/
def longestRun (q : Nat) (l : List (Nat × Nat)) : Nat :=
  (l.foldl (fun (a : Nat × Nat) g => if g.1.testBit q then (Nat.max a.1 (a.2 + g.2), a.2 + g.2) else (a.1, 0)) (0, 0)).1

/-- The longest continuous open time of a gate in the operational list, `none` where it never closes (R389). -/
def longestOpen (x : Iris) (q : Nat) : Option Nat :=
  let l := (segments x.oper x.ocycle).filter (fun g => decide (g.2 > 0))
  if l.all (fun g => g.1.testBit q) then none else some (longestRun q (l ++ l))

/-- A head frame's gate admits it: open from now to the end of its transmission (R388). -/
def gateAdmits (s : State) (p : Port) (q len : Nat) : Bool :=
  (List.range (wireNs len)).all (fun k => gateOpen s p q (s.devTime.toNat + k))

/-- GCL control as written. -/
def gclWord (c : GclW) : Word := at_ c.init.toNat 48 ||| at_ c.alen.toNat 13 ||| at_ (b2n c.en) 0

/-- CONFIG_CHANGE is checked (R390): ERR code, 0 where every value is in range. -/
def gclCheck (s : State) (p : Port) : Nat :=
  if aCycle s p < 1000 then 1
  else if aLen s p = 0 ∨ aLen s p > 256 then 2
  else if (aList s p).any (fun e => decide (bits e 31 0 < 32)) then 3
  else if aExt s p > aCycle s p then 4 else 0

/-- CHTIME of a change made now (R390). -/
def chTime (s : State) (p : Port) : Nat :=
  let now := s.devTime.toNat + 2000
  if aBase s p ≥ now then aBase s p
  else aBase s p + aCycle s p * ((now - aBase s p + aCycle s p - 1) / aCycle s p)

/-- A write of `IRS_GCL_CTRL`: its values, then CANCEL and CONFIG_CHANGE (R390, R391). -/
def gclWr (fn : Fn) (p : Port) (v : Word) (s : State) : State :=
  let k := gclReg p
  let x := getIris s p
  let old := rget s k
  let alenCh := x.pend && bits v 21 13 != bits old 21 13
  let s := if alenCh then accessErr s fn (portOff p 0x4800) else s
  let s := rset s k (at_ (bits v 63 48) 48 ||| at_ (if x.pend then bits old 21 13 else bits v 21 13) 13 ||| at_ (bits v 0 0) 0)
  let cancel := bit v 4 || !bit v 0
  let s := if cancel then setIris s p { x with pend := false } else s
  let x := getIris s p
  if bit v 3 then
    if x.pend then accessErr s fn (portOff p 0x4800)
    else
      let e := gclCheck s p
      if e ≠ 0 then setIris s p { x with gclErr := BitVec.ofNat 8 e }
      else setIris s p { x with gclErr := 0, chtime := BitVec.ofNat 64 (chTime s p), pend := true }
  else s

def execConfigChange (fn : Fn) (port : Port) (c : GclW) (s : State) : Host.Outcome State Fault Refusal :=
  let v := gclWord c ||| at_ 1 3
  hostPf fn (portOff port 0x4800) v (gclWr fn port v) s
def execCancel (fn : Fn) (port : Port) (c : GclW) (s : State) : Host.Outcome State Fault Refusal :=
  let v := gclWord c ||| at_ 1 4
  hostPf fn (portOff port 0x4800) v (gclWr fn port v) s
def execGateEnWrite (fn : Fn) (port : Port) (c : GclW) (s : State) : Host.Outcome State Fault Refusal :=
  hostPf fn (portOff port 0x4800) (gclWord c) (gclWr fn port (gclWord c)) s

/-- A write of the administrative list or of its times: ignored and recorded while a change is pending (R391). -/
def gclListWr (fn : Fn) (p : Port) (off : Nat) (v : Word) (s : State) : State :=
  if (getIris s p).pend then accessErr s fn (portOff p (0x4000 + off))
  else rset s (irsReg p off) (if off ≥ 0x1000 then v &&& 0xFFFF0000FFFFFFFF else v)

/-- GATE_ENTRY_ADVANCE (R387): the gates take the states of the entry now in effect. -/
def execGateEntryAdvance (port : Port) (s : State) : Host.Outcome State Fault Refusal :=
  .next (setIris s port { getIris s port with gates := BitVec.ofNat 16 (gatesAt s port s.devTime.toNat) })

/-- CONFIG_CHANGE_TIME (R390): the administrative list becomes operational. -/
def execConfigChangeTime (port : Port) (s : State) : Host.Outcome State Fault Refusal :=
  let x := getIris s port
  if x.pend ∧ s.devTime.toNat ≥ x.chtime.toNat then
    .next (setIris s port { x with
      oper := aList s port, obase := x.chtime, ocycle := aCycle s port, pend := false,
      gates := BitVec.ofNat 16 (listGates (aList s port) (s.devTime.toNat - x.chtime.toNat)) })
  else .next s

/-! ## Choosing the next frame (R376, R388, R389) -/

/-- The first frames of a queue that are too long for the longest open time of its gate (R389). -/
def tooLong (s : State) (p : Port) (x : Iris) (q : Nat) : List IFrame :=
  if !bit (rget s (gclReg p)) 0 || x.oper == [] then []
  else match longestOpen x q with
    | none => []
    | some n => (queueOf x q).takeWhile (fun f => decide (wireNs (accLen (txLen s p f) (portOvh s p)) > n))

/-- Head frames longer than the longest open time of their gate are dropped and counted (R389). -/
def dropLong (s : State) (p : Port) (x : Iris) (q : Nat) : Iris :=
  let n := (tooLong s p x q).length
  if n = 0 then x
  else { x with
    queues := tset x.queues q ((queueOf x q).drop n), drops := bumpCnt x.drops q n, smpDrop := tset x.smpDrop q (tget x.smpDrop q 0 + n) }

/-- Accounted length of a queue's head. -/
def headLen (s : State) (p : Port) (x : Iris) (q : Nat) : Nat :=
  match queueOf x q with | f :: _ => accLen (txLen s p f) (portOvh s p) | [] => 0

/-- The queue is a candidate (R376). -/
def candidate (s : State) (p : Port) (x : Iris) (q : Nat) : Bool := queueOf x q != [] && gateAdmits s p q (headLen s p x q)

def isStrict (s : State) (p : Port) (q : Nat) : Bool := bit (qCfg s p q) 63

/-- The next weighted queue after q, wrapping. -/
def nextWeighted (s : State) (p : Port) (q : Nat) : Nat :=
  ((List.range 16).map (fun k => (q + 1 + k) % 16)).find? (fun k => !isStrict s p k) |>.getD q

/-- The walk of the weighted group (R376): the queue chosen and the Iris after. Quanta of at least 1,024 bytes let some candidate
reach its head within ten rounds. -/
def walk (s : State) (p : Port) : Nat → Iris → Option Nat × Iris
  | 0, x => (none, x)
  | fuel + 1, x =>
    let q := x.ptr
    let d := tget x.deficit q 0
    if !isStrict s p q ∧ candidate s p x q ∧ d ≥ headLen s p x q then
      (some q, { x with deficit := tset x.deficit q (d - headLen s p x q) })
    else
      let x := if queueOf x q = [] then { x with deficit := tset x.deficit q 0 } else x
      let n := nextWeighted s p q
      let x := { x with ptr := n }
      walk s p fuel (if candidate s p x n then
        { x with deficit := tset x.deficit n (tget x.deficit n 0 + 1024 * bits (qCfg s p n) 57 48) } else x)

/-- The queue Iris chooses. -/
def choose (s : State) (p : Port) (x : Iris) : Option Nat × Iris :=
  match (List.range 16).find? (fun q => isStrict s p q && candidate s p x q) with
  | some q => (some q, x)
  | none =>
    if (List.range 16).any (fun q => !isStrict s p q && candidate s p x q) then walk s p 320 x else (none, x)

/-- The link of a port carries traffic. -/
def linkUp (s : State) (p : Port) : Bool := (getPhy s p).st == 2 || (getPhy s p).st == 3

/-! ## Event counters of rings -/

/-- The object is an ACTIVE event counter of the instance (R365, R392). -/
def ecOk (s : State) (vi : Vi) (n : Nat) : Bool :=
  objHolder s n == some vi && (getSyn s n).ty == 2 && (getSyn s n).st == 1

/-- An engine adds to an event counter, as `ecadd` does. -/
def ecBump (s : State) (n k : Nat) : State :=
  let o := getSyn s n
  if o.st = 1 ∧ o.ty = 2 then serveEc (setSyn s n { o with value := o.value + BitVec.ofNat 48 k }) n else s

/-- A fault of an instance's own ring (R571 cause INSTANCE_FAULT): ARG0 names it. -/
def ringFault (s : State) (vi : Vi) (addr : Word) (arg0 : Nat) : State :=
  raiseErr s { cause := 0x12, sev := 0, vi := some vi, status := 0x05, addr := addr, arg0 := BitVec.ofNat 64 arg0 }

/-- The slots of transmit rings whose frames are dropped at a queue are finished with: each adds 1 to its CCNT (DEDUCED,
Assumption 38). -/
def releaseSlots (s : State) (l : List IFrame) : State :=
  l.foldl (fun s f => match f.slot with | some (ccnt, _, _) => ecBump s ccnt 1 | none => s) s

/-- An idle MAC takes the frame Iris chooses (R376). -/
def transmitStart (s : State) (port : Port) : State :=
  let x := getIris s port
  if !runsEth s port || !linkUp s port || x.tx.isSome || s.err.fatal || s.pwr.st == 2 then s
  else
    let s := releaseSlots s ((List.range 16).flatMap (fun q => tooLong s port x q))
    let x := (List.range 16).foldl (fun x q => dropLong s port x q) (getIris s port)
    match choose s port x with
    | (none, x) => runShapers (setIris s port x) port
    | (some q, x) =>
      match queueOf x q with
      | [] => setIris s port x
      | f :: r =>
        let delay := (s.devTime - f.since).toNat
        let x := { x with
          queues := tset x.queues q r, tx := some (f, s.devTime, q), smpMax := tset x.smpMax q (Nat.max (tget x.smpMax q 0) delay) }
        runShapers (setIris s port x) port

/-! ## Transmit rings (R392-R394) -/

def ringKey (vi : Vi) (r : Nat) : Nat := vi.toNat * 16 + r
def txCfg (s : State) (vi : Vi) (r : Nat) : Word := rget s (viReg vi (0xC08 + 0x20 * r))
def txBase (s : State) (vi : Vi) (r : Nat) : Word := rget s (viReg vi (0xC00 + 0x20 * r)) &&& 0xFFFFFFFFFFFFF000

/-- SLOT and SIZE of a ring register are in range. -/
def ringShape (w : Word) : Bool :=
  decide (11 ≤ bits w 51 48) && decide (bits w 51 48 ≤ 14) && decide (6 ≤ bits w 4 0) && decide (bits w 4 0 ≤ 16)

/-- The checks of a transmit ring (R392). -/
def txRingOk (s : State) (vi : Vi) (r : Nat) : Bool :=
  let w := txCfg s vi r
  match portOfNat (bits w 59 56) with
  | none => false
  | some p => runsEth s p && ringShape w && rangeOk s vi (txBase s vi r) (2 ^ bits w 51 48 * 2 ^ bits w 4 0) .rd
      && ecOk s vi (bits w 47 32) && ecOk s vi (bits w 31 16)

/-- A write of `VI_TX_CFG` (R365, R392). -/
def txCfgWr (fn : Fn) (vi : Vi) (r : Nat) (v : Word) (s : State) : State :=
  let off := 0xC08 + 0x20 * r
  let k := viReg vi off
  let x := tget s.tx (ringKey vi r) {}
  let v := v &&& 0x8F0FFFFFFFFF001F
  if !isPf fn then viRefused s fn vi off
  else if !x.run then
    let s := rset s k v
    if bit v 63 ∧ txRingOk s vi r then
      { s with tx := tset s.tx (ringKey vi r) { run := true, reqAt := s.devTime, base := (getSyn s (bits v 31 16)).value } }
    else s
  else
    let old := rget s k
    let s := if setBits v 63 63 0 ≠ setBits old 63 63 0 then accessErr s fn (viOff fn vi off) else s
    if bit v 63 then s
    else rset { s with tx := tset s.tx (ringKey vi r) { x with run := false } } k (setBits old 63 63 0)

def execTxRingEnable (fn : Fn) (vi : Vi) (r : BitVec 4) (c : RingCfg) (s : State) : Host.Outcome State Fault Refusal :=
  let v := c.word true
  hostVi fn vi (0xC08 + 0x20 * r.toNat) v (txCfgWr fn vi r.toNat v) s
def execTxRingDisable (fn : Fn) (vi : Vi) (r : BitVec 4) (c : RingCfg) (s : State) : Host.Outcome State Fault Refusal :=
  let v := c.word false
  hostVi fn vi (0xC08 + 0x20 * r.toNat) v (txCfgWr fn vi r.toNat v) s

/-- A taken slot is counted (R392). -/
def txTaken (s : State) (vi : Vi) (r : Nat) : State :=
  let x := tget s.tx (ringKey vi r) {}
  { s with tx := tset s.tx (ringKey vi r) { x with reqAt := s.devTime, count := x.count + 1, wrap := x.wrap || decide (x.count + 1 = 0) } }

/-- The port of a transmit ring whose next slot Iris may take (R274, R326, R381, R393). -/
def txReady (s : State) (vi : Vi) (r : Nat) : Option Port :=
  let w := txCfg s vi r
  let x := tget s.tx (ringKey vi r) {}
  match portOfNat (bits w 59 56) with
  | none => none
  | some p =>
    let posted := (getSyn s (bits w 31 16)).value - x.base
    if !x.run || !working s || (getInst s vi).st != 2 || frozen s vi || decide (posted.toNat ≤ x.count.toNat) || stageFull s p vi
        || (bit (txBase s vi r) 50 && !busMaster s vi) then none
    else some p

/-- Instances with a slot that the Iris of a port may take. -/
def txWork (s : State) (p : Port) : List Nat :=
  (s.tx.filter (fun e => txReady s (BitVec.ofNat 8 (e.1 / 16)) (e.1 % 16) == some p)).map (fun e => e.1 / 16)

/-- Iris takes the next slot of a ring in the instance's turn of its rounds (R272, R393): the state after, the port, the slot's address. -/
def txTake (s : State) (vi : Vi) (r : Nat) : Option (State × Port × Word) :=
  match txReady s vi r with
  | none => none
  | some p =>
    match roundTake s (6 + p.val) (txWork s p) vi with
    | none => none
    | some s =>
      let w := txCfg s vi r
      let n := (tget s.tx (ringKey vi r) {}).count.toNat
      some (txTaken s vi r, p, txBase s vi r + BitVec.ofNat 64 (n % 2 ^ bits w 4 0 * 2 ^ bits w 51 48))

/-- A slot that cannot be sent is recorded as an error of the instance and released (R393). -/
def txDiscard (s : State) (vi : Vi) (r : Nat) (a : Word) : State := ecBump (ringFault s vi a (0x200 + r)) (bits (txCfg s vi r) 47 32) 1

/-- TX_SLOT_TAKE (R393): the next posted slot is read into the instance's stage. -/
def execTxSlotTake (vi : Vi) (r : BitVec 4) (ext : List Byte) (s : State) : Host.Outcome State Fault Refusal :=
  let r := r.toNat
  match txTake s vi r with
  | none => .next s
  | some (s, p, a) =>
    let w := txCfg s vi r
    let slot := 2 ^ bits w 51 48
    match rangeRead s vi a 8 ext with
    | none => .next (settle (txDiscard s vi r a))
    | some (s, h, _) =>
      let len := ofBytes (h.take 2)
      let ts := ofBytes h % 2 ^ 17 ≥ 65536
      if len < 14 ∨ len > Nat.min (slot - 32) (maxFrame s p - 4) then .next (settle (txDiscard s vi r a))
      else match rangeRead s vi (a + 32) len (ext.drop 32) with
        | none => .next (settle (txDiscard s vi r a))
        | some (s, d, p2) =>
          if p2 then .next (settle (txDiscard s vi r a))
          else .next (settle (toIris s p { kind := 0, data := d, vi := some vi, slot := some (bits w 47 32, a, ts) }))

/-- FRAME_TRANSMIT_END (R393): a transmit-ring frame writes its timestamp and adds 1 to CCNT; the MAC is idle. -/
def execFrameTransmitEnd (port : Port) (s : State) : Host.Outcome State Fault Refusal :=
  let x := getIris s port
  match x.tx with
  | none => .next s
  | some (f, start, _) =>
    let s := setIris s port { x with tx := none }
    match f.slot, f.vi with
    | some (ccnt, a, ts), some vi =>
      let s := if ts then (instWrite s vi (a + 8) (toBytes 8 start.toNat)).getD (ringFault s vi a 0x200) else s
      .next (settle (ecBump s ccnt 1))
    | _, _ => .next s

/-! ## Queue sampling (R395, R396) -/

def smpCfg (s : State) (p : Port) : Word := rget s (irsReg p 0x908)
def smpVi (w : Word) : Vi := BitVec.ofNat 8 (bits w 55 48)
def smpBaseA (s : State) (p : Port) : Word := rget s (irsReg p 0x900) &&& 0xFFFFFFFFFFFFF000
def smpCnt (s : State) (p : Port) : Word := rget s (irsReg p 0x910)

/-- The checks of the sample ring. -/
def smpOk (s : State) (p : Port) : Bool :=
  let w := smpCfg s p
  let vi := smpVi w
  decide (6 ≤ bits w 4 0) && decide (bits w 4 0 ≤ 20) && rangeOk s vi (smpBaseA s p) (32 * 2 ^ bits w 4 0) .wr
    && ecOk s vi (bits (smpCnt s p) 47 32) && (!bit w 62 || ecOk s vi (bits (smpCnt s p) 31 16))

/-- A write of `IRS_SMP_CFG`. -/
def smpCfgWr (fn : Fn) (p : Port) (v : Word) (s : State) : State :=
  let k := irsReg p 0x908
  let x := getIris s p
  let v := v &&& 0xC0FFFFFFFFFF001F
  if !x.smpRun then
    let s := rset s k v
    if bit v 63 ∧ smpOk s p then
      setIris s p { x with
        smpRun := true, smpBase := (getSyn s (bits (smpCnt s p) 47 32)).value, smpRecs := 0, smpNum := 0, smpAt := none }
    else s
  else
    let old := rget s k
    let s := if setBits v 63 63 0 ≠ setBits old 63 63 0 then accessErr s fn (portOff p 0x4908) else s
    if bit v 63 then s else rset (setIris s p { getIris s p with smpRun := false }) k (setBits old 63 63 0)

/-- A write of `IRS_SMP_BASE` or `IRS_SMP_CNT`: ignored and recorded while the ring runs (R365, R396). -/
def smpRingWr (fn : Fn) (p : Port) (off : Nat) (v : Word) (s : State) : State :=
  if (getIris s p).smpRun then accessErr s fn (portOff p (0x4000 + off))
  else rset s (irsReg p off) (if off = 0x900 then v &&& 0xFFFFFFFFFFFFF000 else v &&& 0x0000FFFFFFFF0000)

def execSampleRingEnable (fn : Fn) (port : Port) (c : SmpCfg) (s : State) : Host.Outcome State Fault Refusal :=
  hostPf fn (portOff port 0x4908) c.word (smpCfgWr fn port c.word) s

/-- One sample record. -/
def smpRecord (s : State) (p : Port) (x : Iris) (q n : Nat) (size : Nat) : List Byte :=
  let l := queueOf x q
  let head := match l with | f :: _ => sat 0xFFFFFFFF (s.devTime - f.since).toNat | [] => 0
  toBytes 8 (x.smpNum.toNat + q * 2 ^ 48 + (if n / size % 2 = 0 then 2 ^ 52 else 0)) ++ toBytes 8 s.devTime.toNat
    ++ toBytes 8 (depth s p l % 2 ^ 24 + sat 65535 l.length * 2 ^ 32 + sat 65535 (tget x.smpDrop q 0) * 2 ^ 48)
    ++ toBytes 8 (head + sat 0xFFFFFFFF (tget x.smpMax q 0) * 2 ^ 32)

/-- The records of a sample are written; a write that faults is recorded and the record lost. -/
def smpWriteAll (s : State) (p : Port) (vi : Vi) (size n : Nat) : List Nat → State
  | [] => s
  | q :: r =>
    let x := getIris s p
    let a := smpBaseA s p + BitVec.ofNat 64 (32 * (n % size))
    let d := smpRecord s p x q n size
    let s := (instWrite s vi a d).getD (ringFault s vi a (0x300 + p.val))
    smpWriteAll s p vi size (n + 1) r

/-- QUEUE_SAMPLE (R395, R396). -/
def execQueueSample (port : Port) (s : State) : Host.Outcome State Fault Refusal :=
  let w := smpCfg s port
  let x := getIris s port
  let us := if bits w 31 16 = 0 then 1000 else bits w 31 16
  if !x.smpRun ∨ s.devTime.toNat % (us * 1000) ≠ 0 ∨ x.smpAt = some s.devTime then .next s
  else
    let qs := (List.range 16).filter (fun q => (bits w 47 32).testBit q)
    let size := 2 ^ bits w 4 0
    let held := (x.smpRecs - ((getSyn s (bits (smpCnt s port) 47 32)).value - x.smpBase)).toInt
    let vi := smpVi w
    if held + qs.length > size then
      .next (setIris s port { x with smpAt := some s.devTime, smpLost := x.smpLost + 1, smpWrap := x.smpWrap || decide (x.smpLost + 1 = 0) })
    else
      let s := smpWriteAll s port vi (2 ^ bits w 4 0) x.smpRecs.toNat qs
      let x := getIris s port
      let s := setIris s port { x with
        smpAt := some s.devTime, smpNum := x.smpNum + 1, smpRecs := x.smpRecs + BitVec.ofNat 48 qs.length,
        smpDrop := qs.foldl (fun t q => tdel t q) x.smpDrop, smpMax := qs.foldl (fun t q => tdel t q) x.smpMax }
      .next (settle (if bit w 62 then ecBump s (bits (smpCnt s port) 31 16) qs.length else s))

/-! ## Ethernet links (R398, R611) -/

/-- An Ethernet port's link goes down: queued frames stay (R398). -/
def execEthernetLinkDown (port : Port) (s : State) : Host.Outcome State Fault Refusal :=
  let h := getPhy s port
  if runsEth s port ∧ h.st = 2 then
    .next (setPhy s port { h with st := 0, lanes := 0, since := s.devTime, cnt := bumpCnt h.cnt 6 1 })
  else .next s

/-- An Ethernet port completes training (R611). -/
def execEthernetLinkUp (port : Port) (s : State) : Host.Outcome State Fault Refusal :=
  let h := getPhy s port
  if runsEth s port ∧ bit (phyCfg s port) 63 ∧ s.boot.phase = 8 ∧ !s.err.fatal ∧ (h.st = 0 ∨ h.st = 1) then
    .next (runShapers (setPhy s port { h with st := 2, lanes := 8, since := s.devTime }) port)
  else .next s

end Sys2Proof.Machine
end

