-- ==== Sys2Proof/Machine/Prism.lean ====
section
/-! DEFINITION. Prism (R345-R371): classification, the rule table, exact-match flows, decision trees, receive rings, mirrors, the slow
path and what the Stewards do with it (R512). -/

namespace Sys2Proof.Machine

/-! ## Registers -/

def prmReg (p : Port) (off : Nat) : Nat := portReg p off
def getPrism (s : State) (p : Port) : Prism := tget s.prism p.val {}
def setPrism (s : State) (p : Port) (x : Prism) : State := { s with prism := tset s.prism p.val x }
def prmMode (s : State) (p : Port) : Word := rget s (prmReg p 0)

/-- A register bank written from bytes, eight at a time. -/
def putWords (s : State) (k : Nat) : List Byte → Nat → State
  | _, 0 => s
  | b, n + 1 => putWords (rset s k (BitVec.ofNat 64 (ofBytes (b.take 8)))) (k + 8) (b.drop 8) n

/-- The bytes of `n` consecutive registers. -/
def getWords (s : State) (k : Nat) : Nat → List Byte
  | 0 => []
  | n + 1 => toBytes 8 (rget s k).toNat ++ getWords s (k + 8) n

/-! ## Counters of rules and flows -/

/-- FRAMES and BYTES advance by one frame of `n` bytes. -/
def bumpFrame (c : FCount) (n : Nat) : FCount :=
  { frames := c.frames + 1, fwrap := c.fwrap || decide (c.frames + 1 = 0),
    bytes := c.bytes + BitVec.ofNat 48 n, bwrap := c.bwrap || decide (c.bytes.toNat + n ≥ 2 ^ 48) }

/-- The two counter words of a rule or flow (R354). -/
def fcountBytes (c : FCount) : List Byte :=
  toBytes 8 (c.frames.toNat + b2n c.fwrap * 2 ^ 48) ++ toBytes 8 (c.bytes.toNat + b2n c.bwrap * 2 ^ 48)

/-! ## Rules and actions -/

/-- VALUE, MASK and action of a rule entry. -/
def ruleValue (r : List Byte) : List Byte := r.take 72
def ruleMask (r : List Byte) : List Byte := (r.drop 72).take 72
def ruleAction (r : List Byte) : List Byte := r.drop 144

/-- (key xor VALUE) and MASK is zero over the key (R353). -/
def ruleHits (key r : List Byte) : Bool :=
  ((key.zip (ruleValue r)).zip (ruleMask r)).all (fun x => (x.1.1 ^^^ x.1.2) &&& x.2 == 0)

/-- The rule a key takes: the lowest-numbered valid one that matches, else 2,047 (R353). -/
def lookupRule (b : Bank) (key : List Byte) : Nat :=
  ((b.rules.find? (fun e => decide (e.1 < 2047) && actBits (ruleAction e.2) 0 63 63 == 1 && ruleHits key e.2)).map (·.1)).getD 2047

/-- Action of a rule; one never written drops (R351). -/
def actionOf (b : Bank) (i : Nat) : List Byte := ((tget? b.rules i).map ruleAction).getD []

/-- LEN of a template. -/
def tplLen (b : Bank) (i : Nat) : Nat := ofBytes ((tget b.tpls i []).take 1) % 128

/-- The action must not be written (R356); bits that the layout reserves are reserved encodings when not zero. -/
def badAction (s : State) (b : Bank) (a : List Byte) : Bool :=
  decide (actKind a > 4) || decide (actBits a 0 47 40 > 63) || decide (actBits a 0 33 32 = 3) || decide (actBits a 0 7 4 > 4)
    || decide (actBits a 0 62 57 ≠ 0) || decide (actBits a 0 39 38 ≠ 0) || decide (actBits a 0 35 35 ≠ 0)
    || decide (actBits a 0 31 30 ≠ 0) || decide (actBits a 0 25 24 ≠ 0)
    || decide (actBits a 0 19 16 + 2 ^ actBits a 0 7 4 > 16)
    || (decide (actBits a 0 36 36 = 1) && decide (actBits a 1 31 16 ≠ 0x8100) && decide (actBits a 1 31 16 ≠ 0x88A8))
    || (decide (actKind a = 3) && !((portOfNat (actBits a 0 23 20)).map (runsEth s)).getD false)
    || (decide (actBits a 0 37 37 = 1) && decide (tplLen b (actBits a 0 47 40) = 0))

/-! ## Receive rings (R365-R367) -/

def rxOff (r : Nat) : Nat := 0xA00 + 0x20 * r
def rxCfg (s : State) (vi : Vi) (r : Nat) : Word := rget s (viReg vi (rxOff r + 8))
def rxBase (s : State) (vi : Vi) (r : Nat) : Word := rget s (viReg vi (rxOff r)) &&& 0xFFFFFFFFFFFFF000
def getRx (s : State) (vi : Vi) (r : Nat) : Ring := tget s.rx (ringKey vi r) {}

/-- The checks of a receive ring (R365). -/
def rxRingOk (s : State) (vi : Vi) (r : Nat) : Bool :=
  let w := rxCfg s vi r
  ringShape w && rangeOk s vi (rxBase s vi r) (2 ^ bits w 51 48 * 2 ^ bits w 4 0) .wr && ecOk s vi (bits w 47 32)
    && (!bit w 62 || ecOk s vi (bits w 31 16))

/-- A write of `VI_RX_CFG` (R365). -/
def rxCfgWr (fn : Fn) (vi : Vi) (r : Nat) (v : Word) (s : State) : State :=
  let off := rxOff r + 8
  let k := viReg vi off
  let x := getRx s vi r
  let v := v &&& 0xC00FFFFFFFFF001F
  if !isPf fn then viRefused s fn vi off
  else if !x.run then
    let s := rset s k v
    if bit v 63 ∧ rxRingOk s vi r then
      { s with rx := tset s.rx (ringKey vi r) { run := true, base := (getSyn s (bits v 47 32)).value } }
    else s
  else
    let old := rget s k
    let s := if setBits v 63 63 0 ≠ setBits old 63 63 0 then accessErr s fn (viOff fn vi off) else s
    if bit v 63 then s
    else rset { s with rx := tset s.rx (ringKey vi r) { x with run := false } } k (setBits old 63 63 0)

/-- A write of `VI_RX_BASE`, or of `VI_TX_BASE`, of a ring that runs or not: ignored and recorded while it runs (R365, R392). -/
def ringBaseWr (fn : Fn) (vi : Vi) (tx : Bool) (r : Nat) (v : Word) (s : State) : State :=
  let off := (if tx then 0xC00 else 0xA00) + 0x20 * r
  let x := if tx then tget s.tx (ringKey vi r) {} else getRx s vi r
  if !isPf fn then viRefused s fn vi off
  else if x.run then accessErr s fn (viOff fn vi off)
  else rset s (viReg vi off) (v &&& 0xFFFFFFFFFFFFF000)

def execRxRingEnable (fn : Fn) (vi : Vi) (r : BitVec 4) (c : RingCfg) (s : State) : Host.Outcome State Fault Refusal :=
  let v := c.word true
  hostVi fn vi (rxOff r.toNat + 8) v (rxCfgWr fn vi r.toNat v) s
def execRxRingDisable (fn : Fn) (vi : Vi) (r : BitVec 4) (c : RingCfg) (s : State) : Host.Outcome State Fault Refusal :=
  let v := c.word false
  hostVi fn vi (rxOff r.toNat + 8) v (rxCfgWr fn vi r.toNat v) s

/-- What a receive slot's header tells beside the frame (R366). -/
structure RxInfo where
  port  : Nat
  time  : Word
  fhash : Nat
  rule  : Nat
  flow  : Option Nat := none
  mcopy : Bool := false
  deriving DecidableEq, Repr

/-- Words 0 to 3 of a slot header (R366). -/
def slotHeader (len slot : Nat) (phase : Bool) (i : RxInfo) : List Nat :=
  [Nat.min len (slot - 32) + b2n phase * 2 ^ 16 + b2n (decide (len > slot - 32)) * 2 ^ 17 + b2n i.mcopy * 2 ^ 18
      + b2n i.flow.isSome * 2 ^ 19 + i.port * 2 ^ 20 + i.fhash * 2 ^ 32,
   i.time.toNat, i.rule + i.flow.getD 0 * 2 ^ 16, 0]

/-- A frame is delivered to a ring: state after, and the drop reason where it is dropped (R366, R367). A ring whose write faults is
recorded and the frame lost. -/
def deliver (s : State) (vi : Vi) (r : Nat) (d : List Byte) (i : RxInfo) : State × Option Nat :=
  let x := getRx s vi r
  let w := rxCfg s vi r
  let size : Nat := 2 ^ bits w 4 0
  let slot : Nat := 2 ^ bits w 51 48
  let n := x.count
  if (getInst s vi).st ≠ 2 ∨ !x.run then (s, some 4)
  else if frozen s vi then (s, some 6)
  else if (n - ((getSyn s (bits w 47 32)).value - x.base)).toInt ≥ size then (s, some 5)
  else
    let a := rxBase s vi r + BitVec.ofNat 64 (n.toNat % size * slot)
    let h := slotHeader d.length slot (n.toNat / size % 2 == 0) i
    let hb := h.flatMap (fun v => toBytes 8 v)
    match rangeWrite s vi (a + 32) (d.take (slot - 32)) with
    | none => (ringFault s vi a (0x400 + r), none)
    | some s =>
      match (instWrite s vi (a + 8) (hb.drop 8)).bind (fun s => instWrite s vi a (hb.take 8)) with
      | none => (ringFault s vi a (0x400 + r), none)
      | some s =>
        let s := { s with rx := tset s.rx (ringKey vi r) { x with count := n + 1, wrap := x.wrap || decide (n + 1 = 0) } }
        (if bit w 62 then ecBump s (bits w 31 16) 1 else s, none)

/-- The drop that a delivery met, if any. -/
def countDrop (p : Port) (r : State × Option Nat) : State :=
  match r.2 with | some k => prismDrop r.1 p.val k | none => r.1

/-! ## Mirrors (R368) -/

def mirCfg (s : State) (p : Port) (n : Nat) : Word := rget s (prmReg p (0x200 + 8 * n))

/-- A selected frame meets a mirror session: one in 2^SAMPLE is copied as received. -/
def mirrorFrame (s : State) (p : Port) (n : Nat) (data : List Byte) (i : RxInfo) : State :=
  let w := mirCfg s p n
  let m := getPrism s p
  let c := tget m.samples n 0 + 1
  if !bit w 63 then s
  else
    let s := setPrism s p { m with samples := tset m.samples n c }
    if c % 2 ^ bits w 43 40 ≠ 0 then s
    else
      let d := if bits w 12 0 = 0 then data else data.take (bits w 12 0)
      if bit w 62 then
        let (s, r) := deliver s (BitVec.ofNat 8 (bits w 55 48)) (bits w 47 44) d { i with mcopy := true }
        if r.isSome then prismDrop s p.val 12 else s
      else
        match portOfNat (bits w 59 56) with
        | none => prismDrop s p.val 12
        | some q => if runsEth s q then toIris s q { kind := 4, data := d, mirror := some p.val } else prismDrop s p.val 12

/-! ## Classification -/

/-- What classification knows of a frame. -/
structure FrameCls where
  port     : Port
  data     : List Byte
  parsed   : Parsed
  hdr      : PHdr          -- the headers the key takes
  flags    : Nat
  fhash    : Nat
  reinject : Bool
  time     : Word
  deriving DecidableEq, Repr

/-- A frame goes to the slow path of the port's quadrant (R369, R370). -/
def toSlow (s : State) (c : FrameCls) (cause : Nat) (data : List Byte) : State :=
  let q := portQuad c.port
  if c.reinject then prismDrop s c.port.val 11
  else if (s.slowQ.filter (fun x => x.1 == q)).length ≥ 4096 then prismDrop s c.port.val 7
  else { s with slowQ := s.slowQ ++ [(q, {
    port := c.port.val, cause := cause, data := data, reinject := c.reinject, time := c.time, fhash := BitVec.ofNat 32 c.fhash })] }

/-- Kind of an action applied to the edited frame (R357, R360). -/
def actDo (s : State) (c : FrameCls) (a out : List Byte) (i : RxInfo) : State :=
  match actKind a with
  | 0 => prismDrop s c.port.val 1
  | 1 =>
    let r := actBits a 0 19 16 + c.fhash % 2 ^ actBits a 0 7 4
    countDrop c.port (deliver s (BitVec.ofNat 8 (actBits a 0 15 8)) r out i)
  | 2 => toSlow s c 1 out
  | 3 =>
    match portOfNat (actBits a 0 23 20) with
    | none => s
    | some q => if out.length + 4 > maxFrame s q then prismDrop s c.port.val 10 else toIris s q { kind := 6, data := out }
  | 4 => { s with brmIn := s.brmIn ++ [out] }
  | _ => s

/-- An action is applied (R357-R360, R368): the copy is made after the original has its place. -/
def applyAction (s : State) (c : FrameCls) (a : List Byte) (i : RxInfo) : State :=
  let tpl := tget (getPrism s c.port).active.tpls (actBits a 0 47 40) []
  let s := if ttlExpires a c.data then toSlow s c 4 c.data
    else actDo s c a (editFrame a c.data tpl c.fhash) i
  if actBits a 0 26 26 = 1 then mirrorFrame s c.port (actBits a 0 29 27) c.data i else s

/-! ### Flows (R361, R363) -/

/-- The flow string, VID and L3 type of a flow match the headers. -/
def flowHits (k : List Byte) (h : PHdr) (vni : Nat) : Bool :=
  let w := ofBytes (k.drop 40)
  k.take 40 == flowString h vni && w / 8192 % 4 == h.l3 && (w / 4096 % 2 == 0 || w % 4096 == h.v0 % 4096)

/-- The flow a frame hits: where several match, the lowest-numbered (DESIGN CHOICE). -/
def findFlow (s : State) (h : PHdr) (vni : Nat) : Option (Nat × Vi × List Byte × List Byte × FCount) :=
  s.ctxs.findSome? (fun e => match e.2 with
    | .flow o k a c => if flowHits k h vni then some (e.1, o, k, a, c) else none
    | _ => none)

/-! ### Trees (R364) -/

/-- Node field of a 64-byte node. -/
def nodeBits (n : List Byte) (off hi lo : Nat) : Nat := ofBytes ((n.drop off).take 8) / 2 ^ lo % 2 ^ (hi + 1 - lo)

/-- A node holds a reserved value: it is treated as a faulting read. -/
def badNode (s : State) (b : Bank) (n : List Byte) : Bool :=
  if nodeBits n 0 7 0 = 1 then badAction s b ((n.drop 8).take 48)
  else decide (nodeBits n 0 7 0 > 1) || decide (nodeBits n 0 15 8 + nodeBits n 0 18 16 > 71) || decide (nodeBits n 0 21 20 = 3)

/-- Child of a compare node. -/
def nodeNext (key n : List Byte) : Nat :=
  let x := be key (nodeBits n 0 15 8) (nodeBits n 0 18 16 + 1)
  let v := nodeBits n 8 63 0
  let m := nodeBits n 16 63 0
  let t := match nodeBits n 0 21 20 with
    | 0 => Nat.land x m == Nat.land v m
    | 1 => decide (x < v)
    | _ => decide (x ≤ v)
  if t then nodeBits n 24 31 0 else nodeBits n 24 63 32

/-- The walk of a tree from node i: state after, and the leaf's action; `none` is TREE_FAULT. At most 32 nodes are visited. -/
def treeWalk (s : State) (p : Port) (key : List Byte) (i : Nat) : Nat → State × Option (List Byte)
  | 0 => (s, none)
  | fuel + 1 =>
    let vi : Vi := BitVec.ofNat 8 (bits (rget s (prmReg p 0x28)) 7 0)
    let a := (rget s (prmReg p 0x18) &&& 0xFFFFFFFFFFFFFFC0) + BitVec.ofNat 64 (64 * i)
    match instRead s vi a 64 [] with
    | none => (s, none)
    | some (s, n, poisoned) =>
      if poisoned || badNode s (getPrism s p).active n then (s, none)
      else if nodeBits n 0 7 0 = 1 then (s, some ((n.drop 8).take 48))
      else treeWalk s p key (nodeNext key n) fuel

/-- A frame is classified (R348, R353, R361, R364, R369). -/
def classify (s : State) (p : Port) (data : List Byte) (secured reinject : Bool) (time : Word) : State :=
  let m := getPrism s p
  let mode := prmMode s p
  let keysel := bit mode 2
  let ps := parseFrame data
  let h := keyHdr ps keysel
  let flags := keyFlags ps keysel secured reinject
  let fhash := flowHash h ps.vni
  let c : FrameCls := {
    port := p, data := data, parsed := ps, hdr := h, flags := flags, fhash := fhash, reinject := reinject, time := time }
  let info : RxInfo := { port := p.val, time := time, fhash := fhash, rule := 0x7FF }
  if m.cur = 0 then prismDrop s p.val 0
  else if flags.testBit 1 && bit mode 6 then prismDrop s p.val 3
  else if flags.testBit 0 && bit mode 3 then toSlow s c 2 data
  else if flags.testBit 4 && bit mode 5 then toSlow s c 3 data
  else match findFlow s h ps.vni with
    | some (n, o, k, a, cnt) =>
      applyAction (putCtx s n (.flow o k a (bumpFrame cnt data.length))) c a { info with flow := some n }
    | none =>
      if m.cur = 2 then
        let r := lookupRule m.active (buildKey ps keysel flags p.val (rangeBits h ps.vni m.active.ranges) fhash)
        let s := setPrism s p { m with cnts := tset m.cnts r (bumpFrame (tget m.cnts r {}) data.length) }
        applyAction s c (actionOf m.active r) { info with rule := r }
      else
        match treeWalk s p (buildKey ps keysel flags p.val 0 fhash) 0 32 with
        | (s, none) => prismDrop s p.val 9
        | (s, some a) => applyAction s c a info

/-- A MAC discards a received frame (R435): `PHY_CNT`2. -/
def macDiscard (s : State) (p : Port) : State := setPhy s p { getPhy s p with cnt := bumpCnt (getPhy s p).cnt 2 1 }

/-! ## Mode and bank commands (R348-R352) -/

/-- A write of `PRM_MODE`: MODE takes effect at once, between frames; a reserved MODE keeps the old one (DESIGN CHOICE). -/
def prmModeWr (fn : Fn) (p : Port) (v : Word) (s : State) : State :=
  let k := prmReg p 0
  let old := rget s k
  let m := bits v 1 0
  let noTree := decide (m = 1) && !bit (rget s (prmReg p 0x18)) 0
  if noTree then rset (accessErr s fn (portOff p 0)) k ((v &&& 0x7C) ||| (old &&& 3))
  else if m = 3 then rset s k ((v &&& 0x7C) ||| (old &&& 3))
  else setPrism (rset s k (v &&& 0x7F)) p { getPrism s p with cur := BitVec.ofNat 2 m }

/-- The register value of `PRM_MODE`'s fields. -/
def prmModeWord (m : PrmModeW) : Word :=
  at_ (b2n m.l3bad) 6 ||| at_ (b2n m.deepSlow) 5 ||| at_ (b2n m.fallback) 4 ||| at_ (b2n m.fragSlow) 3 ||| at_ (b2n m.keysel) 2
    ||| at_ m.mode.toNat 0

def execPrmModeWrite (fn : Fn) (port : Port) (m : PrmModeW) (s : State) : Host.Outcome State Fault Refusal :=
  hostPf fn (portOff port 0) (prmModeWord m) (prmModeWr fn port (prmModeWord m)) s

/-- `PRM_MODE` as read. -/
def prmModeRd (s : State) (p : Port) : Word :=
  let m := getPrism s p
  prmMode s p ||| at_ (b2n m.bank) 16 ||| at_ m.cur.toNat 8

def prmStat (p : Port) : Nat := prmReg p 0x8
def prmDone (s : State) (p : Port) (r : BitVec 8 × BitVec 8) : State := statDone s (prmStat p) r

/-- RULE_WRITE (R354, R356): the shadow bank takes the buffer. -/
def ruleWrite (p : Port) (i : Nat) (s : State) : State :=
  let m := getPrism s p
  let b := getWords s (prmReg p 0x1000) 24
  if m.copying then prmDone s p (0x01, 0x81)
  else if badAction s m.shadow (ruleAction b) then prmDone s p (0x0B, 0x80)
  else prmDone (setPrism s p { m with shadow := { m.shadow with rules := tset m.shadow.rules i b } }) p (0, 0)

/-- RULE_READ (R354). -/
def ruleRead (p : Port) (i : Nat) (s : State) : State :=
  let m := getPrism s p
  let b := tget m.shadow.rules i (List.replicate 192 0)
  prmDone (putWords s (prmReg p 0x1000) (b ++ fcountBytes (tget m.cnts i {})) 26) p (0, 0)

/-- RULE_CLEAR. -/
def ruleClear (p : Port) (i : Nat) (s : State) : State :=
  let m := getPrism s p
  prmDone (setPrism s p { m with cnts := tdel m.cnts i }) p (0, 0)

/-- COMMIT (R352): the banks change places between frames, and the copy into the new shadow bank begins. -/
def prmCommit (p : Port) (s : State) : State :=
  let m := getPrism s p
  if m.copying then prmDone s p (0x01, 0x81)
  else prmDone (setPrism s p { m with bank := !m.bank, active := m.shadow, shadow := m.active, copying := true }) p (0, 0)

/-- TEST (R351): both banks and the comparators take their reset content, whether a fault was found or not. -/
def prmTest (p : Port) (pass : Bool) (s : State) : State :=
  let m := getPrism s p
  if m.copying then prmDone s p (0x01, 0x81)
  else if m.cur = 2 then prmDone s p (0x01, 0x82)
  else prmDone (setPrism s p { m with active := {}, shadow := {} }) p (if pass then (0, 0) else (0x05, 0x83))

/-- LEN and kind of a template are in range (R360). -/
def tplOk (b : List Byte) : Bool :=
  let l := ofBytes (b.take 1) % 128
  let k := ofBytes ((b.drop 1).take 1) % 4
  decide (l = 0) || (decide (14 ≤ l) && decide (l ≤ 96) && (decide (k = 1) || decide (k = 2)))

/-- TPL_WRITE: an INDEX above 63, or a LEN or kind out of range, is refused as BAD_ACTION (DESIGN CHOICE). -/
def tplWrite (p : Port) (i : Nat) (s : State) : State :=
  let m := getPrism s p
  let b := getWords s (prmReg p 0x1000) 16
  if m.copying then prmDone s p (0x01, 0x81)
  else if i > 63 ∨ !tplOk b then prmDone s p (0x0B, 0x80)
  else prmDone (setPrism s p { m with shadow := { m.shadow with tpls := tset m.shadow.tpls i b } }) p (0, 0)

/-- TPL_READ. -/
def tplRead (p : Port) (i : Nat) (s : State) : State :=
  if i > 63 then prmDone s p (0x0B, 0x80)
  else prmDone (putWords s (prmReg p 0x1000) (tget (getPrism s p).shadow.tpls i (List.replicate 128 0)) 16) p (0, 0)

/-- A write of `PRM_CMD`; `pass` says whether a TEST finds the banks sound. A reserved OP is refused as BAD_ACTION (DESIGN CHOICE). -/
def prmCmdWr (p : Port) (pass : Bool) (v : Word) (s : State) : State :=
  let i := bits v 26 16
  let s := if statBusy s (prmStat p) then s else rset s (prmReg p 0x10) (opKept (rget s (prmReg p 0x10)) (v &&& 0x7FF000F) 7)
  if bits v 3 0 = 0 then s
  else if statBusy s (prmStat p) then statOvr s (prmStat p)
  else match bits v 3 0 with
    | 1 => ruleWrite p i s
    | 2 => ruleRead p i s
    | 3 => ruleClear p i s
    | 4 => prmCommit p s
    | 5 => prmTest p pass s
    | 6 => tplWrite p i s
    | 7 => tplRead p i s
    | _ => prmDone s p (0x0B, 0x80)

/-- A Prism command of a function. -/
def prmCmd (fn : Fn) (p : Port) (op i : Nat) (pass : Bool) (s : State) : Host.Outcome State Fault Refusal :=
  let v := at_ i 16 ||| at_ op 0
  hostPf fn (portOff p 0x10) v (prmCmdWr p pass v) s

def execRuleWrite (fn : Fn) (port : Port) (index : BitVec 11) (s : State) : Host.Outcome State Fault Refusal :=
  prmCmd fn port 1 index.toNat true s
def execRuleRead (fn : Fn) (port : Port) (index : BitVec 11) (s : State) : Host.Outcome State Fault Refusal :=
  prmCmd fn port 2 index.toNat true s
def execRuleClear (fn : Fn) (port : Port) (index : BitVec 11) (s : State) : Host.Outcome State Fault Refusal :=
  prmCmd fn port 3 index.toNat true s
def execCommit (fn : Fn) (port : Port) (s : State) : Host.Outcome State Fault Refusal := prmCmd fn port 4 0 true s
def execTest (fn : Fn) (port : Port) (pass : Bool) (s : State) : Host.Outcome State Fault Refusal := prmCmd fn port 5 0 pass s
def execTplWrite (fn : Fn) (port : Port) (index : BitVec 11) (s : State) : Host.Outcome State Fault Refusal :=
  prmCmd fn port 6 index.toNat true s
def execTplRead (fn : Fn) (port : Port) (index : BitVec 11) (s : State) : Host.Outcome State Fault Refusal :=
  prmCmd fn port 7 index.toNat true s

/-- BANK_COPY_COMPLETE (R352): the shadow bank equals the active bank. -/
def execBankCopyComplete (port : Port) (s : State) : Host.Outcome State Fault Refusal :=
  let m := getPrism s port
  if m.copying then .next (setPrism s port { m with shadow := m.active, copying := false }) else .next s

/-- BANK_ERROR (R350): an uncorrectable error in the active bank in use; the frame being classified is dropped, and no instance is told. -/
def execBankError (port : Port) (s : State) : Host.Outcome State Fault Refusal :=
  let m := getPrism s port
  if m.cur ≠ 2 then .next s
  else
    let cur : BitVec 2 := if bit (prmMode s port) 4 && bit (rget s (prmReg port 0x18)) 0 then 1 else 0
    let s := prismDrop (setPrism s port { m with cur := cur }) port.val 14
    .next (raiseErr s {
      cause := 0x0B, sev := 2, unit := quadUd s (portQuad port).toNat, arg0 := BitVec.ofNat 64 port.val })

/-- A write of `PRM_RANGE`: it reaches the shadow bank, and is refused as a write during the copy (R352); a
reserved FIELD keeps the old one (R11). -/
def prmRangeWr (p : Port) (n : Nat) (v : Word) (s : State) : State :=
  let m := getPrism s p
  let v := v &&& 0x87000000FFFFFFFF
  let v := if bits v 58 56 ≤ 5 then v else setBits v 58 56 (bits (tget m.shadow.ranges n 0) 58 56)
  if m.copying then prmDone s p (0x01, 0x81)
  else setPrism s p { m with shadow := { m.shadow with ranges := tset m.shadow.ranges n v } }

/-- A write of `PRM_MIR`: a TRUNC other than 0 or 64 to 4,096 keeps the old one (DESIGN CHOICE). -/
def prmMirWr (p : Port) (n : Nat) (v : Word) (s : State) : State :=
  let k := prmReg p (0x200 + 8 * n)
  let v := v &&& 0xCFFFFF0000001FFF
  let t := bits v 12 0
  rset s k (if t = 0 ∨ (64 ≤ t ∧ t ≤ 4096) then v else setBits v 12 0 (bits (rget s k) 12 0))

/-! ## Flow commands (R362, R363) -/

/-- A context number holds a flow. -/
def getFlow (s : State) (n : Nat) : Option (Vi × List Byte × List Byte × FCount) :=
  match tget? s.ctxs n with | some (.flow o k a c) => some (o, k, a, c) | _ => none

/-- The key of a flow as R361 uses it: VID only with VID_USE. -/
def flowKey (b : List Byte) : List Byte :=
  let w := ofBytes ((b.drop 40).take 2) % 32768
  b.take 40 ++ toBytes 8 (if w / 4096 % 2 = 1 then w else w / 4096 * 4096)

/-- A key already present. -/
def flowExists (s : State) (k : List Byte) : Bool :=
  s.ctxs.any (fun e => match e.2 with | .flow _ k' _ _ => k' == k | _ => false)

/-- INSERT (R363): the number of the new context goes to CTX. -/
def flowInsert (p : Port) (vi : Vi) (s : State) : State :=
  let b := getWords s (prmReg p 0x1100) 16
  let k := flowKey b
  let a := (b.drop 0x30).take 48
  if badAction s (getPrism s p).active a then prmDone s p (0x0B, 0x80)
  else if flowExists s k then prmDone s p (0x0B, 0x84)
  else if flowCount s ≥ 1048576 then prmDone s p (0x0C, 0x86)
  else match pickCtx s vi with
    | .error e => prmDone s p (e, if e = 0x0C then 0x86 else 0)
    | .ok n =>
      let s := newCtx s vi n (.flow vi k a {})
      prmDone (rset s (prmReg p 0x400) (setBits (rget s (prmReg p 0x400)) 63 40 n)) p (0, 0)

/-- REMOVE: no frame is in classification between commands, so it completes at once. -/
def flowRemove (p : Port) (n : Nat) (s : State) : State :=
  match getFlow s n with
  | none => prmDone s p (0x05, 0x85)
  | some (o, _, _, _) => if ctxReachable s n then prmDone (freeCtx s o n) p (0, 0) else prmDone s p (0x04, 0)

/-- READ: the buffer takes the flow and its counters. -/
def flowRead (p : Port) (n : Nat) (s : State) : State :=
  match getFlow s n with
  | none => prmDone s p (0x05, 0x85)
  | some (_, k, a, c) =>
    if !ctxReachable s n then prmDone s p (0x04, 0)
    else prmDone (putWords s (prmReg p 0x1100) (k ++ a ++ fcountBytes c) 14) p (0, 0)

/-- A write of `PRM_FLOW_CMD`. -/
def prmFlowWr (p : Port) (v : Word) (s : State) : State :=
  let n := bits v 63 40
  let s := if statBusy s (prmStat p) then s else rset s (prmReg p 0x400) (opKept (rget s (prmReg p 0x400)) (v &&& 0xFFFFFF000000FF0F) 3)
  if bits v 3 0 = 0 then s
  else if statBusy s (prmStat p) then statOvr s (prmStat p)
  else match bits v 3 0 with
    | 1 => flowInsert p (BitVec.ofNat 8 (bits v 15 8)) s
    | 2 => flowRemove p n s
    | 3 => flowRead p n s
    | _ => prmDone s p (0x0B, 0x80)

def execFlowInsert (fn : Fn) (port : Port) (vi : Vi) (s : State) : Host.Outcome State Fault Refusal :=
  let v := at_ vi.toNat 8 ||| at_ 1 0
  hostPf fn (portOff port 0x400) v (prmFlowWr port v) s
def execFlowRemove (fn : Fn) (port : Port) (ctx : BitVec 24) (s : State) : Host.Outcome State Fault Refusal :=
  let v := at_ ctx.toNat 40 ||| at_ 2 0
  hostPf fn (portOff port 0x400) v (prmFlowWr port v) s
def execFlowRead (fn : Fn) (port : Port) (ctx : BitVec 24) (s : State) : Host.Outcome State Fault Refusal :=
  let v := at_ ctx.toNat 40 ||| at_ 3 0
  hostPf fn (portOff port 0x400) v (prmFlowWr port v) s

end Sys2Proof.Machine
end

