-- ==== Sys2Proof/Machine/Brm.lean ====
section
/-! DEFINITION. Barvar Remote Memory (R399-R433): descriptors, queue pairs, regions, arriving packets, acknowledgement, timers. -/

namespace Sys2Proof.Machine

/-! ## Counts and key slots -/

/-- `RMA_DROP`k advances. -/
def brmDrop (s : State) (k : Nat) : State := { s with rmaDrop := tset s.rmaDrop k (tget s.rmaDrop k 0 + 1) }

/-- The slot may not be used by the instance (R495): status and detail; `none` where it may. -/
def keyRefused (s : State) (vi : Vi) (slot : BitVec 8) (encrypt : Bool) : Option (BitVec 8 × BitVec 8) :=
  match tget? s.keys slot.toNat with
  | none => some (0x05, 0xC0)
  | some k => if k.owner ≠ vi then some (0x05, 0xC0) else if encrypt && k.decOnly then some (0x0B, 0xC1) else none

/-! ## Region fields (R406) -/

def regBase (r : Region) : Nat := bits r.blk 41 0
def regLen (r : Region) : Nat := bits r.blk 105 64
def regRd (r : Region) : Bool := bit r.blk 128
def regWr (r : Region) : Bool := bit r.blk 129
def regAtomic (r : Region) : Bool := bit r.blk 130
def regEnc (r : Region) : Bool := bit r.blk 131
def regAny (r : Region) : Bool := bit r.blk 132
def regMap (r : Region) : Bool := bit r.blk 133
def regKey (r : Region) : BitVec 8 := BitVec.ofNat 8 (bits r.blk 143 136)
def regDev (r : Region) : BitVec 16 := BitVec.ofNat 16 (bits r.blk 159 144)
def regVi (r : Region) : Vi := BitVec.ofNat 8 (bits r.blk 167 160)
def regIbase (r : Region) : Nat := bits r.blk 233 192

def getRegion (s : State) (n : Nat) : Option Region :=
  match tget? s.ctxs n with | some (.region r) => some r | _ => none
def setRegion (s : State) (n : Nat) (r : Region) : State := putCtx s n (.region r)

/-- RKEY of a region. -/
def rkeyOf (n : Nat) (r : Region) : BitVec 48 := BitVec.ofNat 48 (r.gen.toNat * 2 ^ 24 + n)

/-- The region of an RKEY. -/
def regionOf (s : State) (rkey : BitVec 48) : Option (Nat × Region) :=
  match getRegion s (bits rkey 23 0) with
  | some r => if r.gen.toNat = bits rkey 47 24 then some (bits rkey 23 0, r) else none
  | none => none

/-- Every region, with its context number. -/
def regions (s : State) : List (Nat × Region) :=
  s.ctxs.filterMap (fun e => match e.2 with | .region r => some (e.1, r) | _ => none)
/-- Every QP end, with its context number. -/
def qps (s : State) : List (Nat × Qp) :=
  s.ctxs.filterMap (fun e => match e.2 with | .qp q => some (e.1, q) | _ => none)

/-- The importer named by a region is the QP's peer. -/
def importerIs (r : Region) (q : Qp) : Bool := regDev r == qpPeerDev q && regVi r == qpPeerVi q

/-- A packet admitted by a region is performed, refused or discarded (R429). -/
def unadmit (s : State) (n : Nat) (psn : BitVec 32) : State :=
  (regions s).foldl (fun s e =>
    if e.2.admitted.contains (n, psn) then setRegion s e.1 { e.2 with admitted := e.2.admitted.filter (· != (n, psn)) } else s) s

/-! ## Completing messages (R421, R431) -/

/-- USER of a BRM descriptor. -/
def bUser (d : DOp) : BitVec 32 := BitVec.ofNat 32 (bits (dWord d 7) 63 32)

/-- A BRM descriptor completes. -/
def brmFinish (s : State) (vi : Vi) (q : Nat) (seq : BitVec 48) (r : BitVec 8 × BitVec 8) (bytes : Nat) : State :=
  match findDesc s vi q seq with
  | some d => if d.kind = 4 then finish s d r.1 r.2 bytes (bUser d) else s
  | none => s

/-- Bytes from `upto` on that acknowledged packets cover without a gap; `fuel` bounds the packets. -/
def ackedPrefix (l : List (Nat × Nat)) (upto : Nat) : Nat → Nat
  | 0 => upto
  | fuel + 1 =>
    match l.find? (fun p => p.1 == upto && decide (p.2 > 0)) with
    | some p => ackedPrefix l (upto + p.2) fuel
    | none => upto

/-- A packet of the message is sent and neither acknowledged nor refused. -/
def msgOpen (q : Qp) (m : TxMsg) : Bool := q.pkts.any (fun p => p.msn == m.msn && p.opc == m.opc)

/-- A message's outcome, once it has one: status, detail, BYTES (R421, R422). -/
def msgResult (q : Qp) (m : TxMsg) : Option (BitVec 8 × BitVec 8 × Nat) :=
  match m.refusal with
  | some r => if msgOpen q m then none else some (r.1, r.2, ackedPrefix m.acked 0 (m.acked.length + 1))
  | none =>
    let ok : BitVec 8 × BitVec 8 × Nat := (if m.poisoned then 0x0A else 0, 0, m.len)
    if m.opc = 0x01 then (if m.cut ≥ m.len ∧ !msgOpen q m then some ok else none)
    else if m.opc = 0x02 then (if m.got ≥ m.len then some ok else none)
    else if m.got > 0 ∧ !msgOpen q m then some (ok.1, 0, 8)
    else none

/-- Instance address of an offset of another device. -/
def devAddr (d : BitVec 16) (off : Nat) : Word :=
  at_ (bits d 15 12) 60 ||| at_ (bits d 11 8) 56 ||| at_ (bits d 7 4) 52 ||| at_ (bits d 3 0) 51 ||| BitVec.ofNat 64 (off % 2 ^ 42)

/-- A message leaves its QP and answers its source. -/
def completeMsg (s : State) (n : Nat) (q : Qp) (m : TxMsg) (r : BitVec 8 × BitVec 8 × Nat) : State :=
  let s := setQp s n { q with
    msgs := q.msgs.filter (fun x => x.msn != m.msn),
    status := if r.1 = 0 then q.status else r.1, detail := if r.1 = 0 then q.detail else r.2.1 }
  match m.src with
  | .desc k seq _ => brmFinish s q.owner k seq (r.1, r.2.1) r.2.2
  | .thread t op =>
    let fault : Option (Bool × Word) := if r.1 = 0 ∨ (r.1 = 0x0A ∧ m.opc = 0x01) then none
      else some (r.1 == 0x0A, devAddr (qpPeerDev q) m.roff)
    remoteDone s t op m.loc.toNat (if m.opc = 0x01 then [] else m.data) fault
  | .gone => s

/-- Every message of a QP that has its outcome completes, and the window is used again. -/
def settleMsgs (s : State) (n : Nat) : Nat → State
  | 0 => s
  | fuel + 1 =>
    match getQp s n with
    | none => s
    | some q =>
      match q.msgs.findSome? (fun m => (msgResult q m).map (fun r => (m, r))) with
      | some (m, r) => settleMsgs (pumpAll (completeMsg s n q m r) n) n fuel
      | none => s

/-- As many rounds as there are messages. -/
def settleAll (s : State) (n : Nat) : State :=
  match getQp s n with | some q => settleMsgs (pumpAll s n) n (q.msgs.length + 1) | none => s

/-- Every incomplete message of a QP completes with the codes given: TIMEOUT and NO_ACK (R420, R433), or POISONED. -/
def failMsgsWith (s : State) (n : Nat) (st dt : BitVec 8) : Nat → State
  | 0 => s
  | fuel + 1 =>
    match getQp s n with
    | none => s
    | some q =>
      match q.msgs with
      | [] => s
      | m :: _ => failMsgsWith (completeMsg s n q m (st, dt, ackedPrefix m.acked 0 (m.acked.length + 1))) n st dt fuel

/-- The peer does not answer. -/
def failMsgs (s : State) (n fuel : Nat) : State := failMsgsWith s n 0x04 0x99 fuel

/-- A QP end whose context is lost: its messages fail with POISONED, and so does every operation until it is created anew (R571). -/
def poisonQp (s : State) (n : Nat) (q : Qp) : State :=
  failMsgsWith (setQp s n { q with bad := true, pkts := [], resps := [] }) n 0x0A 0 (q.msgs.length + 1)

/-- The peer of a QP end is lost: CONNECTED becomes ERROR; a CLOSING end stays CLOSING until it is freed (R401). -/
def loseQp (s : State) (n : Nat) : State :=
  match getQp s n with
  | none => s
  | some q =>
    failMsgs (setQp s n { q with st := if q.st = 2 then 3 else q.st, pkts := [], resps := [] }) n (q.msgs.length + 1)

/-- A QP end is freed with the flows the engine inserted for it; its context stays known by its generation (R400, R404). -/
def freeQp (s : State) (n : Nat) (q : Qp) : State :=
  let s := (regions s).foldl (fun s e => setRegion s e.1 { e.2 with admitted := e.2.admitted.filter (fun a => a.1 != n) }) s
  let s := q.flows.foldl (fun s f => freeCtx s q.owner f) s
  freeCtx s q.owner n

/-! ## Queue pair commands (R402-R405) -/

/-- Parameter block rules (R402). -/
def qpParOk (s : State) (vi : Vi) (q : Qp) : Bool :=
  let udp := qpLink q == 1 || qpLink q == 2
  decide (qpLink q ≠ 3) && (udp || decide (bits q.par 6 4 = 0)) && decide (bits q.par 15 15 = 0) && decide (bits q.par 63 48 = 0)
    && decide (bits q.par 95 88 = 0) && decide (bits q.par 127 112 = 0) && decide (bits q.par 191 176 = 0)
    && decide (bits q.par 255 240 = 0) && decide (bits q.par 543 512 ≤ 1000000) && decide (bits q.par 575 548 = 0)
    && (decide (bits q.par 607 576 = 0) || (decide (10 ≤ bits q.par 607 576) && decide (bits q.par 607 576 ≤ 10000000)))
    && decide (bits q.par 1023 625 = 0)
    && (!udp || ((portOfNat (qpPort q)).map (runsEth s)).getD false)
    && (!qpRecvEcEn q || ecOk s vi (qpRecvEc q))
    && !(qpEnc q && udp && decide (bits (rget s 0x300000) 63 48 = 0))

/-- Home quadrant (R403). -/
def qpHomeOf (s : State) (q : Qp) : BitVec 2 :=
  if qpLink q = 0 then
    let cnt (k : Nat) : Nat := ((qps s).filter (fun e => decide (e.2.home.toNat = k))).length
    let best := (List.range 4).foldl (fun b k => if cnt k < cnt b then k else b) 0
    BitVec.ofNat 2 best
  else BitVec.ofNat 2 (qpPort q / 3)

/-- Generation after the last one of a context. -/
def nextGen16 (g : BitVec 16) : BitVec 16 := if g = 0xFFFF then 1 else g + 1
def nextGen24 (g : BitVec 24) : BitVec 24 := if g = 0xFFFFFF then 1 else g + 1

/-- The flow key of path i of a UDP QP (R404): from DIP to SIP, from SPORT + i to `RMA_CFG.UDP_PORT`. -/
def qpFlowKey (s : State) (q : Qp) (i : Nat) : List Byte :=
  let adr (lo : Nat) : List Byte := toBytes 16 (bits q.par (lo + 127) lo)
  let four (b : List Byte) : List Byte := if qpLink q = 1 then b.take 4 ++ List.replicate 12 0 else b
  four (adr 384) ++ four (adr 256) ++ beBytes 2 ((qpSport q + i) % 65536) ++ beBytes 2 (bits (rget s 0x300000) 47 32)
    ++ [17, 0, 0, 0] ++ toBytes 8 (qpLink q * 8192)

/-- The flows of a UDP QP are inserted, each a context of its owner with the action BRM, within the device's 1,048,576 flows (R362). -/
def addFlows (s : State) (vi : Vi) (q : Qp) : List Nat → Except (BitVec 8) (State × List Nat)
  | [] => .ok (s, [])
  | i :: r =>
    if flowCount s ≥ 1048576 then .error 0x0C
    else match pickCtx s vi with
    | .error e => .error e
    | .ok n =>
      let s := newCtx s vi n (.flow vi (qpFlowKey s q i) (toBytes 48 4) {})
      (addFlows s vi q r).map (fun x => (x.1, n :: x.2))

/-- A descriptor fails with status and detail. -/
def bFail (s : State) (d : DOp) (r : BitVec 8 × BitVec 8) : State := finish s d r.1 r.2 0 (bUser d)

/-- A block of parameters read at LOCAL: bytes, or how it fails. -/
def bRead (s : State) (d : DOp) (n : Nat) : Except (BitVec 8 × BitVec 8) (State × List Byte) :=
  match rangeRead s d.vi (dWord d 1) n [] with
  | none => .error (0x05, 0)
  | some (s, b, p) => if p then .error (0x0A, 0) else .ok (s, b)

/-- QP_CREATE (R402). -/
def qpCreate (s : State) (d : DOp) : State :=
  if bits (dWord d 1) 5 0 ≠ 0 then bFail s d (0x0B, 0x92)
  else match bRead s d 128 with
    | .error r => bFail s d r
    | .ok (s, b) =>
      let q : Qp := { owner := d.vi, gen := 0, par := BitVec.ofNat 1024 (ofBytes b), home := 0 }
      if !qpParOk s d.vi q then bFail s d (0x0B, 0x92)
      else if qpThreads q && (qps s).any (fun e => e.2.owner == d.vi && qpThreads e.2 && qpPeerDev e.2 == qpPeerDev q) then
        bFail s d (0x0B, 0x93)
      else match (if qpEnc q then keyRefused s d.vi (qpKey q) true else none) with
        | some r => bFail s d r
        | none =>
          match pickCtx s d.vi with
          | .error e => bFail s d (e, 0)
          | .ok n =>
            let g := nextGen16 (tget s.qpGens n 0)
            let q := { q with gen := g, home := qpHomeOf s q }
            let s' := newCtx { s with qpGens := tset s.qpGens n g } d.vi n (.qp q)
            match addFlows s' d.vi q (if qpLink q = 0 then [] else List.range (qpPaths q)) with
            | .error e => bFail s d (e, 0)
            | .ok (s', fl) => finish (setQp s' n { q with flows := fl }) d 0 0 (qpHandle n q).toNat (bUser d)

/-- The QP end a descriptor's handle names (R400). -/
def bQp (s : State) (d : DOp) : Except (BitVec 8 × BitVec 8) (Nat × Qp) :=
  let h := dWord d 2
  match getQp s (bits h 23 0) with
  | none => .error (0x05, 0x90)
  | some q =>
    if q.owner ≠ d.vi ∨ bits h 63 40 ≠ 0 then .error (0x05, 0x90)
    else if q.gen.toNat ≠ bits h 39 24 then .error (0x08, 0)
    else if !ctxReachable s (bits h 23 0) then .error (0x04, 0)
    else .ok (bits h 23 0, q)

/-- The descriptor waits for what its packets bring. -/
def inMessage (s : State) (d : DOp) : State := modDesc s d.id (fun x => { x with st := .message })

/-- CONNECT_REQ or CONNECT_RESP of a QP end goes out with its handle (R405). -/
def sendShake (s : State) (n : Nat) (q : Qp) (opc : BitVec 8) : State := emitCtl s q opc 0 0 0 (toBytes 8 (qpHandle n q).toNat)

/-- CONNECT (R405): the first CONNECT_REQ is sent. -/
def qpConnect (s : State) (d : DOp) : State :=
  match bQp s d with
  | .error r => bFail s d r
  | .ok (n, q) =>
    if q.bad then bFail s d (0x0A, 0)
    else if q.st ≠ 0 then bFail s d (0x01, 0x91)
    else
      let q := { q with
        st := 1, peer := dWord d 3, sentReq := true, accepted := false, connect := some (d.q, d.seq, bUser d),
        connAt := s.devTime, reqAt := s.devTime }
      sendShake (setQp (inMessage s d) n q) n q 0x10

/-- QP_DESTROY (R401): CREATED and ERROR ends are freed at once, a CONNECTED end closes; a CONNECTING or CLOSING end is left as it is
(RETRY, QP_NOT_CONNECTED). -/
def qpDestroy (s : State) (d : DOp) : State :=
  match bQp s d with
  | .error r => bFail s d r
  | .ok (n, q) =>
    if q.st = 0 ∨ q.st = 3 then finish (freeQp s n q) d 0 0 0 (bUser d)
    else if q.st = 2 then setQp (inMessage s d) n { q with st := 4, destroy := some (d.q, d.seq, bUser d) }
    else bFail s d (0x01, 0x91)

/-- A count of 48 bits with WRAP, from a count that never wraps. -/
def wrap48 (n : Nat) : Nat := n % 2 ^ 48 + b2n (decide (n ≥ 2 ^ 48)) * 2 ^ 48

/-- The 64-byte status block (R409). -/
def qpStatus (q : Qp) : List Byte :=
  toBytes 8 (q.st.toNat + q.home.toNat * 2 ^ 8 + q.status.toNat * 2 ^ 16 + q.detail.toNat * 2 ^ 24)
    ++ toBytes 8 (q.txPsn.toNat + q.cum.toNat * 2 ^ 32) ++ toBytes 8 (wrap48 q.retrans) ++ toBytes 8 (wrap48 q.expired)
    ++ toBytes 8 (wrap48 q.received) ++ List.replicate 24 0

/-- QP_QUERY (R409). -/
def qpQuery (s : State) (d : DOp) : State :=
  match bQp s d with
  | .error r => bFail s d r
  | .ok (_, q) =>
    if q.bad then bFail s d (0x0A, 0)
    else match rangeWriteBy s d.vi (dWord d 1) (qpStatus q) (.desc d.id) with
    | none => bFail s d (0x05, 0)
    | some s => finish s d 0 0 64 (bUser d)

/-! ## Regions (R406, R429) -/

/-- Every byte of the region lies in granules that permit what it grants (R406). -/
def regionMapped (s : State) (vi : Vi) (r : Region) : Bool :=
  decide (regBase r + regLen r ≤ 2 ^ 42)
    && (List.range ((regBase r + regLen r + 2 ^ 30 - 1) / 2 ^ 30 - regBase r / 2 ^ 30)).all (fun k =>
      let e := gtEntry s vi (regBase r / 2 ^ 30 + k)
      gtValid e && (!regRd r || gtRd e) && (!(regWr r || regAtomic r) || gtWr e))

/-- The region block's own rules. -/
def regionOk (r : Region) : Bool :=
  decide (regBase r % 4096 = 0) && decide (regLen r % 4096 = 0) && decide (4096 ≤ regLen r) && decide (regLen r ≤ 2 ^ 42 - 4096)
    && decide (bits r.blk 63 42 = 0) && decide (bits r.blk 127 106 = 0) && decide (bits r.blk 135 134 = 0)
    && decide (bits r.blk 191 168 = 0) && decide (bits r.blk 255 234 = 0) && decide (regIbase r % 4096 = 0)
    && !(regAny r && regMap r)

/-- Import ranges of two THREAD_MAP regions of one importer overlap. -/
def importClash (s : State) (vi : Vi) (r : Region) : Bool :=
  regMap r && (regions s).any (fun e => e.2.owner == vi && regMap e.2 && regDev e.2 == regDev r && regVi e.2 == regVi r
    && decide (regIbase e.2 < regIbase r + regLen r) && decide (regIbase r < regIbase e.2 + regLen e.2))

/-- REGISTER (R406). -/
def regRegister (s : State) (d : DOp) : State :=
  match bRead s d 32 with
  | .error r => bFail s d r
  | .ok (s, b) =>
    let r : Region := { owner := d.vi, gen := 0, blk := BitVec.ofNat 256 (ofBytes b) }
    if !regionOk r then bFail s d (0x0B, 0x92)
    else if !regionMapped s d.vi r then bFail s d (0x05, 0x97)
    else if importClash s d.vi r then bFail s d (0x0B, 0x98)
    else match (if regEnc r then keyRefused s d.vi (regKey r) false else none) with
      | some e => bFail s d e
      | none =>
        match pickCtx s d.vi with
        | .error e => bFail s d (e, 0)
        | .ok n =>
          let g := nextGen24 (tget s.regGens n 0)
          let r := { r with gen := g }
          finish (newCtx { s with regGens := tset s.regGens n g } d.vi n (.region r)) d 0 0 (rkeyOf n r).toNat (bUser d)

/-- REVOKE (R429): check 8 fails from now on; the record follows the last admitted packet. A region being revoked answers REVOKED. -/
def regRevoke (s : State) (d : DOp) : State :=
  match regionOf s ((dWord d 3).setWidth 48) with
  | none => bFail s d (0x05, 0x95)
  | some (n, r) =>
    if r.owner ≠ d.vi then bFail s d (0x05, 0x95)
    else if !ctxReachable s n then bFail s d (0x04, 0)
    else if r.revoke.isSome then bFail s d (0x03, 0)
    else setRegion (inMessage s d) n { r with revoke := some (d.q, d.seq, bUser d) }

/-- REVOKE_COMPLETE (R429). -/
def execRevokeComplete (ctx : BitVec 24) (s : State) : Host.Outcome State Fault Refusal :=
  match getRegion s ctx.toNat with
  | none => .next s
  | some r =>
    match r.revoke with
    | none => .next s
    | some (q, seq, _) =>
      if r.admitted ≠ [] then .next s
      else .next (settle (brmFinish (freeCtx s r.owner ctx.toNat) r.owner q seq (0, 0) 0))

/-- QP_CLOSE_COMPLETE (R401): the last message of a CLOSING end has completed; DISCONNECT is sent. -/
def execQpCloseComplete (qp : BitVec 24) (s : State) : Host.Outcome State Fault Refusal :=
  match getQp s qp.toNat with
  | none => .next s
  | some q =>
    if q.st ≠ 4 ∨ q.msgs ≠ [] then .next s
    else
      let s := freeQp (emitCtl s q 0x12 0 0 0 []) qp.toNat q
      match q.destroy with
      | some (k, seq, _) => .next (settle (brmFinish s q.owner k seq (0, 0) 0))
      | none => .next s

/-! ## Messages (R409, R421, R432) -/

/-- OP of a BRM descriptor. -/
def bOp (d : DOp) : Nat := bits (dWord d 0) 7 0

/-- A BRM descriptor has no reserved value (R309, R409, R410). -/
def brmDescOk (d : DOp) : Bool :=
  let w := dWord d 0
  [1, 2, 3, 0x10, 0x11, 0x12, 0x13, 0x20, 0x21].contains (bOp d) && !bit w 23 && decide (bits w 63 29 = 0)
    && (decide (bOp d ≠ 3) || decide (bits w 27 24 ≤ 9)) && decide (bits (dWord d 7) 31 1 = 0)
    && !(dStartEn d && decide (bits (dWord d 6) 63 48 > 15)) && decide (bits (dWord d 4) 63 42 = 0)
    && (decide (bOp d > 2) || (decide (bits (dWord d 5) 63 40 = 0) && decide (bits (dWord d 5) 39 0 ≠ 0)))

/-- The message of a WRITE, READ or ATOMIC descriptor; `data` are the operands of an ATOMIC. -/
def bMsg (d : DOp) (data : List Byte) : TxMsg :=
  let w := dWord d 0
  let asz := bit w 28
  { msn := 0, opc := if bOp d = 1 then 0x01 else if bOp d = 2 then 0x02 else 0x04,
    src := .desc d.q d.seq (bUser d), loc := dWord d 1, rkey := (dWord d 3).setWidth 48, roff := bits (dWord d 4) 41 0,
    len := if bOp d = 3 then (if asz then 8 else 4) else bits (dWord d 5) 39 0,
    aux := if bOp d = 3 then BitVec.ofNat 8 (bits w 27 24 * 16 + b2n asz) else 0,
    keyslot := if bit w 22 then BitVec.ofNat 8 (bits w 15 8) else 0, enc := bit w 22, fence := bit w 19 && decide (bOp d ≠ 2),
    notify := bit w 21 && decide (bOp d ≠ 2), acc := bit w 20 && decide (bOp d = 1), data := data }

/-- The ACC conditions of a WRITE (R432). -/
def accOk (d : DOp) : Bool :=
  !(bit (dWord d 0) 20 && decide (bOp d = 1))
    || (decide (bits (dWord d 1) 5 0 = 0) && decide (bits (dWord d 4) 5 0 = 0) && decide (bits (dWord d 5) 39 0 % 544 = 0))

/-- Every byte at LOCAL permits the message. -/
def localOk (s : State) (d : DOp) : Bool :=
  if bOp d = 1 then rangeOk s d.vi (dWord d 1) (bits (dWord d 5) 39 0) .rd
  else if bOp d = 2 then rangeOk s d.vi (dWord d 1) (bits (dWord d 5) 39 0) .wr
  else rangeOk s d.vi (dWord d 1) 8 .wr && (decide (bits (dWord d 0) 27 24 ≠ 9) || rangeOk s d.vi (dWord d 1) 8 .rd)

/-- A WRITE, READ or ATOMIC becomes a message of its QP (R409). -/
def startMsg (s : State) (d : DOp) : State :=
  let enc := bit (dWord d 0) 22
  match bQp s d with
  | .error r => bFail s d r
  | .ok (n, q) =>
    if q.bad then bFail s d (0x0A, 0)
    else if q.st ≠ 2 then bFail s d (0x01, 0x91)
    else match (if enc then keyRefused s d.vi (BitVec.ofNat 8 (bits (dWord d 0) 15 8)) true else none) with
      | some r => bFail s d r
      | none =>
        if !accOk d then bFail s d (0x0B, 0x92)
        else if !localOk s d then bFail s d (0x05, 0)
        else if bOp d = 3 then
          let y := if bits (dWord d 0) 27 24 = 9 then rangeRead s d.vi (dWord d 1) 8 [] else some (s, List.replicate 8 0, false)
          match y with
          | none => bFail s d (0x05, 0)
          | some (s, yb, p) =>
            if p then bFail s d (0x0A, 0)
            else settleAll (sendMsg (inMessage s d) n q (bMsg d (toBytes 8 (dWord d 5).toNat ++ yb))) n
        else settleAll (sendMsg (inMessage s d) n q (bMsg d [])) n

/-- A BRM descriptor starts; while feature BRM is not in effect it is refused with UNSUPPORTED (chapter Host endpoint). -/
def startBrm (s : State) (d : DOp) : State :=
  if featureVer s.fw 4 = 0 then bFail s d (0x0B, 0)
  else if !brmDescOk d then bFail s d (0x0B, 0x85)
  else match bOp d with
    | 0x10 => qpCreate s d
    | 0x11 => qpConnect s d
    | 0x12 => qpDestroy s d
    | 0x13 => qpQuery s d
    | 0x20 => regRegister s d
    | 0x21 => regRevoke s d
    | _ => startMsg s d

/-- A descriptor of any engine starts when it may. -/
def tryStartAny (s : State) (d : DOp) : State :=
  if d.kind = 4 then (if d.st = .waiting ∧ gateOk s d then startBrm s d else s) else tryStart s d

/-- The next descriptor of a BRM queue is taken if its OP is one of the row's, and starts when it may. -/
def takeBrm (s : State) (vi : Vi) (q : Nat) (mine : Nat → Bool) : State :=
  match (getSq s vi q).got with
  | [] => s
  | b :: _ =>
    if !mine (ofBytes (b.take 1)) then s
    else match takeHead s vi q 4 with
      | none => s
      | some (s, b, seq) =>
        let (s, d) := newDesc s vi q 4 seq b
        tryStartAny s d

/-- BRM_WRITE takes WRITE descriptors, and those with a reserved OP, which complete with BAD_DESC (R309). -/
def execBrmWrite (vi : Vi) (q : BitVec 4) (s : State) : Host.Outcome State Fault Refusal :=
  .next (settle (takeBrm s vi q.toNat (fun o => !([2, 3, 0x10, 0x11, 0x12, 0x13, 0x20, 0x21].contains o))))
def execBrmRead (vi : Vi) (q : BitVec 4) (s : State) : Host.Outcome State Fault Refusal :=
  .next (settle (takeBrm s vi q.toNat (fun o => o == 2)))
def execBrmAtomic (vi : Vi) (q : BitVec 4) (s : State) : Host.Outcome State Fault Refusal :=
  .next (settle (takeBrm s vi q.toNat (fun o => o == 3)))
def execQpCreate (vi : Vi) (q : BitVec 4) (s : State) : Host.Outcome State Fault Refusal :=
  .next (settle (takeBrm s vi q.toNat (fun o => o == 0x10)))
def execConnect (vi : Vi) (q : BitVec 4) (s : State) : Host.Outcome State Fault Refusal :=
  .next (settle (takeBrm s vi q.toNat (fun o => o == 0x11)))
def execQpDestroy (vi : Vi) (q : BitVec 4) (s : State) : Host.Outcome State Fault Refusal :=
  .next (settle (takeBrm s vi q.toNat (fun o => o == 0x12)))
def execQpQuery (vi : Vi) (q : BitVec 4) (s : State) : Host.Outcome State Fault Refusal :=
  .next (settle (takeBrm s vi q.toNat (fun o => o == 0x13)))
def execRegister (vi : Vi) (q : BitVec 4) (s : State) : Host.Outcome State Fault Refusal :=
  .next (settle (takeBrm s vi q.toNat (fun o => o == 0x20)))
def execRevoke (vi : Vi) (q : BitVec 4) (s : State) : Host.Outcome State Fault Refusal :=
  .next (settle (takeBrm s vi q.toNat (fun o => o == 0x21)))

/-! ## Arriving packets (R407) -/

/-- `a` comes before `b` in serial order (R6). -/
def before (a b : BitVec 32) : Bool := atOrAfter b a && a != b

/-- A NAK of a packet is sent (R407, R413); those with STALE and NAK_BUSY are counted. -/
def sendNak (s : State) (q : Qp) (p : Pkt) (status detail : BitVec 8) : State :=
  let s := emitCtl s q 0x09 p.psn p.msn status (toBytes 8 detail.toNat)
  if status = 0x08 then brmDrop s 2 else if status = 0x0F then brmDrop s 3 else s

/-- An ACK is sent (R417): the cumulative PSN and the SACK. -/
def sendAck (s : State) (q : Qp) : State :=
  let sack := (List.range 64).foldl (fun a i => if q.perf.contains (q.cum + 1 + BitVec.ofNat 32 i) then a + 2 ^ i else a) 0
  emitCtl s q 0x08 q.cum 0 0 (toBytes 8 sack)

/-- Detail of a STALE that names a message which expired or failed: the sender reports MSG_EXPIRED (R427; the NAK carries that code: DESIGN
CHOICE, Assumption 37). -/
def staleDetail (q : Qp) (msn : BitVec 32) : BitVec 8 := if q.outcomes.contains (msn, false) then 0x9A else 0

/-- The message of an arriving request has an outcome, or is older than every outcome kept (R427). -/
def msnStale (q : Qp) (msn : BitVec 32) : Bool :=
  q.outcomes.any (fun o => o.1 == msn) || (decide (q.outcomes.length ≥ 128) && q.outcomes.all (fun o => before msn o.1))

/-- A PSN arrives again (R418): an ACK answers one performed or old, HELD one in a fence buffer. -/
def duplicate (s : State) (n : Nat) (q : Qp) (psn : BitVec 32) : State :=
  let s := if before psn q.cum || q.perf.contains psn then setQp (sendAck s q) n { q with toAck := 0 }
    else if q.fenced.any (fun x => x.psn == psn) then emitCtl s q 0x0A psn 0 0 []
    else s
  brmDrop s 4

/-- A packet refused with STALE because its instance is in reset is counted (R285 step 6). -/
def countStale (s : State) (vi : Vi) : State :=
  let i := getInst s vi
  if i.st = 3 ∨ i.st = 4 then modInst s vi (fun i => { i with cntStale := sat 65535 (i.cntStale + 1) }) else s

/-- Checks 1 to 6 (R407); `resp` marks a response, whose MSN is one of this end's own. A packet for an end that is not CONNECTED or
CLOSING has no effect. -/
def arrivePkt (s : State) (p : Pkt) (resp : Bool) (accept : State → Nat → Qp → State) : State :=
  let n := p.dqp.toNat
  if !working s then s
  else match getQp s n with
    | none => brmDrop s 1
    | some q =>
      if q.gen ≠ p.dqgen ∨ (getInst s q.owner).st ≠ 2 then countStale (sendNak s q p 0x08 0) q.owner
      else if q.bad then sendNak s q p 0x0A 0
      else if p.src ≠ qpPeerDev q ∨ p.svi ≠ qpPeerVi q then brmDrop s 7
      else if q.st ≠ 2 ∧ q.st ≠ 4 then s
      else if before p.psn q.cum || q.perf.contains p.psn || q.placed.any (fun x => x.psn == p.psn)
          || q.fenced.any (fun x => x.psn == p.psn) then duplicate s n q p.psn
      else if (p.psn - q.cum).toNat ≥ 4096 then brmDrop s 7
      else if p.enc && (!p.authOk || (keyRefused s q.owner p.keyslot false).isSome) then brmDrop s 0
      else if !resp && msnStale q p.msn then sendNak s q p 0x08 (staleDetail q p.msn)
      else accept s n q

/-- Region and offset a request may act on: checks 7 to 10, for `len` target bytes. -/
def target (s : State) (q : Qp) (p : Pkt) (opc : BitVec 8) (len : Nat) : Except (BitVec 8 × BitVec 8) (Nat × Region × Nat) :=
  let found := if p.thread then
      ((regions s).find? (fun e => e.2.owner == q.owner && regMap e.2 && importerIs e.2 q && decide (regIbase e.2 ≤ p.addr.toNat)
        && decide (p.addr.toNat < regIbase e.2 + regLen e.2))).map (fun e => (e.1, e.2, p.addr.toNat - regIbase e.2))
    else match regionOf s p.rkey with
      | some (k, r) => if r.owner = q.owner then some (k, r, p.addr.toNat) else none
      | none => none
  match found with
  | none => .error (0x05, 0x95)
  | some (k, r, off) =>
    let grants := if opc = 0x01 then regWr r else if opc = 0x02 then regRd r else regAtomic r
    if r.revoke.isSome then .error (0x03, 0)
    else if r.bad then .error (0x0A, 0)
    else if !grants || !(regAny r || importerIs r q) || p.enc != regEnc r || (p.enc && p.keyslot != regKey r) then .error (0x05, 0x96)
    else if off + len > regLen r then .error (0x05, 0x97)
    else .ok (k, r, off)

/-! ### Performed packets (R416-R418) -/

/-- The cumulative PSN passes over performed ones; `fuel` bounds them. -/
def advanceCum (q : Qp) : Nat → Qp
  | 0 => q
  | fuel + 1 =>
    if q.perf.contains q.cum then advanceCum { q with cum := q.cum + 1, perf := q.perf.filter (· != q.cum) } fuel else q

/-- A PSN is performed: it joins the count towards an ACK, sent after 16 and at once when a gap closes (R417). -/
def psnDone (s : State) (q : Qp) (psn : BitVec 32) : State × Qp :=
  let old := q.cum
  let q := advanceCum { q with perf := psn :: q.perf } (q.perf.length + 2)
  let q := { q with toAck := q.toAck + 1, ackFrom := if q.toAck = 0 then s.devTime else q.ackFrom }
  if q.toAck ≥ 16 ∨ (q.cum - old).toNat > 1 then (sendAck s q, { q with toAck := 0 }) else (s, q)

/-- MSNs from `doneTo` on that have an outcome are passed; `fuel` bounds them. -/
def advanceMsn (q : Qp) : Nat → Qp
  | 0 => q
  | fuel + 1 =>
    if q.doneSet.contains q.doneTo then
      advanceMsn { q with doneTo := q.doneTo + 1, doneSet := q.doneSet.filter (· != q.doneTo) } fuel
    else q

/-- An inbound message has its outcome: complete or failed (R416, R427). -/
def msnDone (q : Qp) (msn : BitVec 32) (ok : Bool) : Qp :=
  let q := advanceMsn { q with
    rmsgs := q.rmsgs.filter (fun m => m.msn != msn), doneSet := msn :: q.doneSet,
    outcomes := ((msn, ok) :: q.outcomes).take 128,
    received := if ok then q.received + 1 else q.received, expired := if ok then q.expired else q.expired + 1 } (q.doneSet.length + 2)
  if ok then q
  else { q with failed := match q.failed with | some f => some (if before msn f then msn else f) | none => some msn }

/-- Every message of the direction with a lower MSN has completed (R423). -/
def fenceOk (q : Qp) (msn : BitVec 32) : Bool :=
  atOrAfter q.doneTo msn && (match q.failed with | some f => !before f msn | none => true)
/-- A lower message failed: the fenced message can never be placed (R425). -/
def fenceDead (q : Qp) (msn : BitVec 32) : Bool := match q.failed with | some f => before f msn | none => false

/-- Fence buffer entries in use at a home quadrant (R424). -/
def fenceUsed (s : State) (quad : BitVec 2) : Nat :=
  (qps s).foldl (fun a e => if e.2.home = quad then a + e.2.fenced.length else a) 0

/-! ### Placement (R408, R416, R422, R432) -/

/-- Bytes placed piece by piece at an instance address; a piece that does not permit it is not written. Whether every piece did. -/
def placeAt (s : State) (vi : Vi) (a : Word) (d : List Byte) (poison : Bool) (w : Writer) : State × Bool :=
  let r := (rangePieces a d.length).foldl (fun (r : State × Nat × Bool) p =>
    let b := (d.drop r.2.1).take p.2
    match translate r.1 vi p.1 p.2 .wr with
    | .dev pa m => (engAct r.1 vi m (if poison then .mark pa p.2 else .bytes pa b) w, r.2.1 + p.2, r.2.2)
    | .host bus => (if poison then r.1 else hostPut r.1 vi bus b, r.2.1 + p.2, r.2.2)
    | .fault => (r.1, r.2.1 + p.2, false)
    | .remote _ _ => (r.1, r.2.1 + p.2, false)) (s, 0, true)
  (r.1, r.2.2)

/-- The states of a sparse payload; `none` where a form breaks R176. `fuel` bounds the forms. -/
def sparseStates : Nat → List Byte → Option (List (BitVec 4352))
  | 0, b => if b.isEmpty then some [] else none
  | fuel + 1, b =>
    if b.isEmpty then some []
    else match accFromSparse b with
      | none => none
      | some (a, r) => (sparseStates fuel r).map (fun l => a :: l)

/-- The bytes a WRITE packet places: its payload, or 544 bytes for each sparse form (R432). -/
def pktBytesOf (p : Pkt) : Option (List Byte) :=
  if p.acc then (sparseStates (p.data.length / 32 + 1) p.data).map (fun l => l.flatMap (fun a => toBytes 544 a.toNat)) else some p.data

/-- Instance address of an offset of the own memory. -/
def ownAddr (off : Nat) : Word := BitVec.ofNat 64 (2 ^ 49 + off)

/-- A fenced message fails with those that wait on it (R425): buffered packets are discarded, each counted in EXPIRED. -/
def failRx (s : State) (n : Nat) (msn : BitVec 32) : State :=
  match getQp s n with
  | none => s
  | some q =>
    let q := msnDone q msn false
    let dead := ((q.fenced.map (·.msn)).filter (fun m => m == msn || before msn m)).eraseDups
    let gone := q.fenced.filter (fun x => dead.contains x.msn)
    let q := { q with fenced := q.fenced.filter (fun x => !dead.contains x.msn) }
    let q := (dead.filter (· != msn)).foldl (fun q m => msnDone q m false) q
    gone.foldl (fun s x => unadmit s n x.psn) (setQp s n q)

/-- Operation of an AOP code (R125). -/
def amoOfCode (n : Nat) : Option AmoOp :=
  [AmoOp.add, .and, .or, .xor, .min, .max, .minu, .maxu, .swap, .cas].find? (fun o => o.code == n)

/-- An admitted WRITE or ATOMIC packet is handed to memory at its region. -/
def placeReq (s : State) (n : Nat) (opc : BitVec 8) (p : Pkt) (base : Nat) : State :=
  match getQp s n with
  | none => s
  | some q =>
    let w : Writer := .brm n p.msn p.psn
    let note (s : State) (k : Nat) (res : Option (Nat × Bool)) : State :=
      match getQp s n with
      | none => s
      | some q => setQp s n { q with placed := q.placed ++ [{
          psn := p.psn, msn := p.msn, opc := opc, bytes := k, res := res, enc := if p.enc then some p.keyslot else none }] }
    if opc = 0x04 then
      let wd := if bit p.aux 0 then 8 else 4
      match translate s q.owner (ownAddr base) wd .rdwr, amoOfCode (bits p.aux 7 4) with
      | .dev pa m, some op =>
        let x := BitVec.ofNat 64 (ofBytes (p.data.take 8))
        let y := BitVec.ofNat 64 (ofBytes ((p.data.drop 8).take 8))
        let a : WAct := .amo pa op (8 * wd) x y
        let (s, res) := partAct s q.owner m w a
        note s 8 res
      | _, _ => sendNak (unadmit s n p.psn) q p 0x05 0x97
    else
      match pktBytesOf p with
      | none => sendNak (failRx (unadmit s n p.psn) n p.msn) q p 0x0B 0x9B
      | some d =>
        let (s, ok) := placeAt s q.owner (ownAddr base) d p.poison w
        if ok then note s d.length none else sendNak (unadmit s n p.psn) q p 0x05 0x97

/-- The first packet of a message starts its count (R416, R427). -/
def noteRx (s : State) (n : Nat) (opc : BitVec 8) (p : Pkt) : State :=
  match getQp s n with
  | none => s
  | some q =>
    if q.rmsgs.any (fun m => m.msn == p.msn) then s
    else setQp s n { q with rmsgs := q.rmsgs ++ [{
      msn := p.msn, opc := opc, count := 0, mlen := p.mlen.toNat, firstAt := s.devTime, notify := p.notify, fence := p.fence }] }

/-- A WRITE or ATOMIC request past check 6 (R407 checks 7 to 11). -/
def takeReq (opc : BitVec 8) (p : Pkt) (s : State) (n : Nat) (q : Qp) : State :=
  let len := if opc = 0x04 then (if bit p.aux 0 then 8 else 4) else ((pktBytesOf p).map (·.length)).getD 0
  match target s q p opc len with
  | .error r => sendNak s q p r.1 r.2
  | .ok (k, r, off) =>
    if p.fence && fenceDead q p.msn then sendNak (failRx s n p.msn) q p 0x08 0x9A
    else if p.fence && !fenceOk q p.msn && decide (fenceUsed s q.home ≥ 64) then sendNak s q p 0x0F 0
    else
      let s := noteRx (setRegion s k { r with admitted := r.admitted ++ [(n, p.psn)] }) n opc p
      if p.fence && !fenceOk q p.msn then
        match getQp s n with
        | some q => setQp s n { q with fenced := q.fenced ++ [{ p with addr := BitVec.ofNat 64 (regBase r + off), aux := if opc = 0x04 then p.aux else 0xFF }] }
        | none => s
      else placeReq s n opc p (regBase r + off)

/-- WRITE_PACKET. -/
def execWritePacket (p : Pkt) (s : State) : Host.Outcome State Fault Refusal := .next (settle (arrivePkt s p false (takeReq 0x01 p)))
/-- ATOMIC_REQ. -/
def execAtomicReq (p : Pkt) (s : State) : Host.Outcome State Fault Refusal := .next (settle (arrivePkt s p false (takeReq 0x04 p)))

/-- Buffered packets whose fence is now satisfied are placed, in the order they arrived (R424). A buffered packet holds its target's
offset in `addr`, and 0xFF in `aux` when it is a WRITE. -/
def runFence (s : State) (n : Nat) : State :=
  match getQp s n with
  | none => s
  | some q =>
    let go := q.fenced.filter (fun x => fenceOk q x.msn)
    go.foldl (fun s x => placeReq s n (if x.aux = 0xFF then 0x01 else 0x04) x x.addr.toNat)
      (setQp s n { q with fenced := q.fenced.filter (fun x => !fenceOk q x.msn) })

/-- An inbound WRITE or ATOMIC message completes (R416): RECV_EC with NOTIFY, then the fences that waited for it. -/
def rxComplete (s : State) (n : Nat) (msn : BitVec 32) (notify : Bool) : State :=
  match getQp s n with
  | none => s
  | some q =>
    let s := setQp s n (msnDone q msn true)
    let s := if notify && qpRecvEcEn q then ecBump s (qpRecvEc q) 1 else s
    runFence s n

/-- READ_REQ past check 6: accepted, its response queued (R416, R418, R423). -/
def takeRead (p : Pkt) (s : State) (n : Nat) (q : Qp) : State :=
  match target s q p 0x02 p.mlen.toNat with
  | .error r => sendNak s q p r.1 r.2
  | .ok (_, r, off) =>
    if p.enc && (keyRefused s q.owner p.keyslot true).isSome then sendNak s q p 0x0B 0xC1
    else if !rangeOk s q.owner (ownAddr (regBase r + off)) p.mlen.toNat .rd then sendNak s q p 0x05 0x97
    else
      let m : TxMsg := {
        msn := p.msn, opc := 0x03, src := .gone, loc := ownAddr (regBase r + off), rkey := 0, roff := 0, len := p.mlen.toNat,
        keyslot := p.keyslot, enc := p.enc }
      let (s, q) := psnDone s q p.psn
      let s := rxComplete (setQp s n { q with resps := q.resps ++ [m] }) n p.msn false
      pumpAll s n

/-- READ_REQ. -/
def execReadReq (p : Pkt) (s : State) : Host.Outcome State Fault Refusal := .next (settle (arrivePkt s p false (takeRead p)))

/-- A response of a thread access: performed at once, the message takes its bytes. -/
def threadResp (s : State) (n : Nat) (q : Qp) (p : Pkt) : State :=
  let (s, q) := psnDone s q p.psn
  settleAll (setQp s n { q with msgs := q.msgs.map (fun m =>
    if m.msn = p.msn then { m with data := p.data, got := Nat.max 1 p.data.length, poisoned := p.poison } else m) }) n

/-- A response past check 6: placed at LOCAL (R416, R421). -/
def takeResp (opc : BitVec 8) (p : Pkt) (s : State) (n : Nat) (q : Qp) : State :=
  match q.msgs.find? (fun m => m.msn == p.msn && m.opc == (if opc = 0x03 then (0x02 : BitVec 8) else 0x04)) with
  | none => sendNak s q p 0x08 0
  | some m =>
    if m.thread then threadResp s n q p
    else
      let d := if opc = 0x03 then p.data else p.data.take 8
      let at0 := if opc = 0x03 then p.addr.toNat else 0
      let over_ := opc == 0x03 && decide (at0 + d.length > m.len)
      let (s', ok) := placeAt s q.owner (m.loc + BitVec.ofNat 64 at0) d p.poison (.brm n p.msn p.psn)
      if over_ || !ok then
        sendNak (settleAll (setQp s n { q with msgs := q.msgs.map (fun x =>
          if x.msn = m.msn then { x with refusal := some (0x05, 0x97) } else x) }) n) q p 0x05 0x97
      else match getQp s' n with
        | none => s'
        | some q => setQp s' n { q with
            placed := q.placed ++ [{ psn := p.psn, msn := p.msn, opc := opc, bytes := d.length }]
            msgs := q.msgs.map (fun x => if x.msn = m.msn then { x with poisoned := x.poisoned || p.poison } else x) }

/-- READ_RESP. -/
def execReadResp (p : Pkt) (s : State) : Host.Outcome State Fault Refusal := .next (settle (arrivePkt s p true (takeResp 0x03 p)))
/-- ATOMIC_RESP. -/
def execAtomicResp (p : Pkt) (s : State) : Host.Outcome State Fault Refusal := .next (settle (arrivePkt s p true (takeResp 0x05 p)))

/-- Memory has not performed every write of a placed packet: one is held by a guard, or its mirrored copy unacknowledged. -/
def brmOpen (s : State) (n : Nat) (msn psn : BitVec 32) : Bool :=
  s.heldW.any (fun h => h.writer == .brm n msn psn) || s.pair.out.any (fun m => m.writer == .brm n msn psn)

/-- A placed packet is performed: its PSN counts towards an ACK, its bytes towards its message (R416, R417, R421). -/
def performPlaced (s : State) (n : Nat) (q : Qp) (x : RxPlaced) : State :=
  let (s, q) := psnDone s { q with placed := q.placed.filter (fun y => y.psn != x.psn) } x.psn
  let s := unadmit (setQp s n q) n x.psn
  match getQp s n with
  | none => s
  | some q =>
    if x.opc = 0x01 then
      let rms := q.rmsgs.map (fun m => if m.msn = x.msn then { m with count := m.count + x.bytes } else m)
      let s := setQp s n { q with rmsgs := rms }
      match rms.find? (fun m => m.msn == x.msn) with
      | some m => if m.count ≥ m.mlen then rxComplete s n x.msn m.notify else s
      | none => s
    else if x.opc = 0x04 then
      let (v, p) := x.res.getD (0, false)
      let r : TxMsg := {
        msn := x.msn, opc := 0x05, src := .gone, loc := 0, rkey := 0, roff := 0, len := 8, enc := x.enc.isSome,
        keyslot := x.enc.getD 0, data := toBytes 8 v, poisoned := p }
      let notify := (q.rmsgs.find? (fun m => m.msn == x.msn)).any (·.notify)
      pumpAll (rxComplete (setQp s n { q with resps := q.resps ++ [r] }) n x.msn notify) n
    else
      settleAll (setQp s n { q with msgs := q.msgs.map (fun m =>
        if m.msn = x.msn then { m with got := m.got + x.bytes } else m) }) n

/-- PLACEMENT_PERFORMED (R416, R417). -/
def execPlacementPerformed (qp : BitVec 24) (psn : BitVec 32) (s : State) : Host.Outcome State Fault Refusal :=
  match getQp s qp.toNat with
  | none => .next s
  | some q =>
    match q.placed.find? (fun x => x.psn == psn) with
    | none => .next s
    | some x => if brmOpen s qp.toNat x.msn psn then .next s else .next (settle (performPlaced s qp.toNat q x))

/-! ### Acknowledgement and refusal at the sender (R417, R420, R421) -/

/-- A packet without a PSN of its own comes from the peer of a QP end of the right generation: checks 1 to 3. -/
def fromPeer (s : State) (p : Pkt) (body : State → Nat → Qp → State) : State :=
  if !working s then s
  else match getQp s p.dqp.toNat with
    | none => brmDrop s 1
    | some q =>
      if q.gen ≠ p.dqgen then s
      else if p.src ≠ qpPeerDev q ∨ p.svi ≠ qpPeerVi q then brmDrop s 7
      else body s p.dqp.toNat q

/-- Packets leave the window; their messages count their bytes. -/
def ackPkts (q : Qp) (done : TxPkt → Bool) : Qp :=
  let gone := q.pkts.filter done
  { q with
    pkts := q.pkts.filter (fun x => !done x),
    msgs := q.msgs.map (fun m => { m with
      acked := m.acked ++ (gone.filter (fun x => x.msn == m.msn && x.opc == m.opc)).map (fun x => (x.off, x.bytes)) }) }

/-- An ACK acknowledges every PSN before its own, and those its SACK names (R417). -/
def takeAck (p : Pkt) (s : State) (n : Nat) (q : Qp) : State :=
  let sack := ofBytes (p.data.take 8)
  let done (x : TxPkt) : Bool := before x.psn p.psn
    || (let i := (x.psn - p.psn - 1).toNat; x.psn != p.psn && decide (i < 64) && sack.testBit i)
  settleAll (setQp s n (ackPkts q done)) n

/-- ACK (R417). -/
def execAck (p : Pkt) (s : State) : Host.Outcome State Fault Refusal := .next (settle (fromPeer s p (takeAck p)))

/-- Status and detail a sender reports for a refusal (R427): a STALE that names an expired message is its timeout. -/
def refusalOf (status detail : BitVec 8) : BitVec 8 × BitVec 8 :=
  if status = 0x08 ∧ detail = 0x9A then (0x04, 0x9A) else (status, detail)

/-- A refusal of a packet (R421, R424): NAK_BUSY has it sent again later; any other ends its message or its response. -/
def takeNak (p : Pkt) (s : State) (n : Nat) (q : Qp) : State :=
  match q.pkts.find? (fun x => x.psn == p.psn && x.msn == p.msn) with
  | none => s
  | some x =>
    if p.aux = 0x0F then
      setQp s n { q with pkts := q.pkts.map (fun y => if y.psn = x.psn then { y with busy := true, since := s.devTime } else y) }
    else
      let r := refusalOf p.aux (BitVec.ofNat 8 (ofBytes (p.data.take 1)))
      let q := { q with pkts := q.pkts.filter (fun y => y.psn != x.psn) }
      if x.opc = 0x03 ∨ x.opc = 0x05 then
        pumpAll (setQp s n { q with resps := q.resps.filter (fun m => m.msn != x.msn) }) n
      else settleAll (setQp s n { q with msgs := q.msgs.map (fun m =>
        if m.msn = x.msn ∧ m.opc = x.opc then { m with refusal := m.refusal.orElse (fun _ => some r) } else m) }) n

/-- NAK (R421, R424). -/
def execNak (p : Pkt) (s : State) : Host.Outcome State Fault Refusal := .next (settle (fromPeer s p (takeNak p)))

/-- HELD restarts the packet's timer (R420). -/
def takeHeld (p : Pkt) (s : State) (n : Nat) (q : Qp) : State :=
  setQp s n { q with pkts := q.pkts.map (fun y => if y.psn = p.psn then { y with since := s.devTime } else y) }

/-- HELD (R420). -/
def execHeld (p : Pkt) (s : State) : Host.Outcome State Fault Refusal := .next (fromPeer s p (takeHeld p))

/-! ### Connections (R401, R405) -/

/-- A handshake is complete: numbers start at 0 and CONNECT completes with OK. -/
def qpConnected (s : State) (n : Nat) (q : Qp) : State :=
  let s := setQp s n { q with
    st := 2, accepted := true, connect := none, txPsn := 0, txMsn := 0, pkts := [], msgs := [], resps := [], cum := 0, perf := [],
    rmsgs := [], placed := [], fenced := [], outcomes := [], doneTo := 0, doneSet := [], failed := none, toAck := 0 }
  match q.connect with
  | some (k, seq, _) => brmFinish s q.owner k seq (0, 0) 0
  | none => s

/-- A handshake packet is accepted by a CONNECTING end from the handle it named; a CONNECT_REQ is answered (R405). -/
def shake (req : Bool) (p : Pkt) (s : State) (n : Nat) (q : Qp) : State :=
  if q.st = 1 ∧ ofBytes (p.data.take 8) = q.peer.toNat then qpConnected (if req then sendShake s n q 0x11 else s) n q else s

/-- CONNECT_REQ (R405): accepted, it is answered with CONNECT_RESP. -/
def execConnectReq (p : Pkt) (s : State) : Host.Outcome State Fault Refusal := .next (settle (fromPeer s p (shake true p)))
/-- CONNECT_RESP (R405). -/
def execConnectResp (p : Pkt) (s : State) : Host.Outcome State Fault Refusal := .next (settle (fromPeer s p (shake false p)))

/-- A CONNECTED end whose peer disconnects is lost. -/
def takeDisconnect (s : State) (n : Nat) (q : Qp) : State := if q.st = 2 then loseQp s n else s

/-- DISCONNECT (R401, R433). -/
def execDisconnect (p : Pkt) (s : State) : Host.Outcome State Fault Refusal := .next (settle (fromPeer s p takeDisconnect))

/-! ### Frames Prism passes to the engine (R357, R404, R412, R413) -/

/-- The device a UDP frame comes from: the peer of the end it names where its source address is that end's peer address, which is all
such a frame tells of its sender (DEDUCED, Assumption 38). -/
def frameSrc (s : State) (n : Nat) (h : PHdr) : BitVec 16 :=
  match getQp s n with
  | none => 0
  | some q => if qpLink q = h.l3 ∧ (qpFlowKey s q 0).take 16 = h.sip then qpPeerDev q else ~~~(qpPeerDev q)

/-- The BRM bytes of a UDP datagram. -/
def brmBytes (f : List Byte) (h : PHdr) : List Byte := (f.drop (h.l4Off + 8)).take (be f (h.l4Off + 4) 2 - 8)

/-- A header breaks R413, or the bytes after it are not those it tells of. -/
def brmBad (b : List Byte) : Bool :=
  let vf := be b 0 1
  decide (vf / 16 ≠ 1) || decide (be b 2 2 > 8192) || decide (be b 4 1 ≠ 0) || (!vf.testBit 1 && decide (be b 0x14 1 ≠ 0))
    || decide (be b 0x15 1 / 4 ≠ 0) || decide (be b 0x16 2 ≠ 0) || decide (be b 0x18 2 ≠ 0) || decide (be b 0x28 3 ≠ 0)
    || decide (b.length ≠ 48 + be b 2 2 + (if vf.testBit 1 then 24 else 0))

/-- The packet of a BRM header; what an encrypted payload holds, and whether its tag is right, are free (Assumption 5). -/
def brmPkt (s : State) (b : List Byte) (src : BitVec 16) : Pkt :=
  let vf := be b 0 1
  let xf := be b 0x15 1
  let enc := vf.testBit 1
  { src := src, poison := vf.testBit 0, enc := enc, authOk := !enc || (freeBits s 1 0x2080000 == 1), thread := vf.testBit 2,
    fence := vf.testBit 3, acc := xf.testBit 0, notify := xf.testBit 1, dqp := BitVec.ofNat 24 (be b 4 4),
    dqgen := BitVec.ofNat 16 (be b 8 2), svi := BitVec.ofNat 8 (be b 0xA 1), aux := BitVec.ofNat 8 (be b 0xB 1),
    psn := BitVec.ofNat 32 (be b 0xC 4), msn := BitVec.ofNat 32 (be b 0x10 4), keyslot := BitVec.ofNat 8 (be b 0x14 1),
    rkey := BitVec.ofNat 48 (be b 0x18 8), addr := BitVec.ofNat 64 (be b 0x20 8), mlen := BitVec.ofNat 40 (be b 0x28 8),
    data := if enc then (List.range (be b 2 2)).map (fun i => freeBits s 8 (0x2080001 + i)) else b.drop 48 }

/-- The engine takes a packet of an opcode (R413); a reserved opcode is a bad header. -/
def engineTake (opc : Nat) (p : Pkt) (s : State) : State :=
  match opc with
  | 0x01 => arrivePkt s p false (takeReq 0x01 p)
  | 0x02 => arrivePkt s p false (takeRead p)
  | 0x03 => arrivePkt s p true (takeResp 0x03 p)
  | 0x04 => arrivePkt s p false (takeReq 0x04 p)
  | 0x05 => arrivePkt s p true (takeResp 0x05 p)
  | 0x08 => fromPeer s p (takeAck p)
  | 0x09 => fromPeer s p (takeNak p)
  | 0x0A => fromPeer s p (takeHeld p)
  | 0x10 => fromPeer s p (shake true p)
  | 0x11 => fromPeer s p (shake false p)
  | 0x12 => fromPeer s p takeDisconnect
  | _ => brmDrop s 7

/-- A frame passed to the engine: one that is no UDP datagram or breaks R413 is dropped and counted as BAD_HEADER (DEDUCED,
Assumption 38). -/
def brmFrame (s : State) (f : List Byte) : State :=
  let h := (parseFrame f).outer
  let b := brmBytes f h
  if h.l4 ≠ 1 ∨ h.l4Off = 0 ∨ h.frag ∨ brmBad b then brmDrop s 7
  else
    let p := brmPkt s b (frameSrc s (be b 4 4) h)
    engineTake (be b 1 1) p (if p.enc then nextFree s else s)

/-- The engine takes the frames that Prism passed to it. -/
def brmFrames (s : State) : State := s.brmIn.foldl brmFrame { s with brmIn := [] }

/-! ### Timers -/

/-- ACK_TIMER (R417). -/
def execAckTimer (qp : BitVec 24) (s : State) : Host.Outcome State Fault Refusal :=
  match getQp s qp.toNat with
  | none => .next s
  | some q =>
    let w := bits (rget s 0x300000) 15 0
    let ns := if w = 0 then 1000 else w
    if q.toAck > 0 ∧ (s.devTime - q.ackFrom).toNat ≥ ns then .next (sendAck (setQp s qp.toNat { q with toAck := 0 }) q) else .next s

/-- Time to the next transmission in ns: the first is RTO_US after the packet was sent (*Fenced write with one loss*). -/
def rtoNs (q : Qp) (sends : Nat) : Nat := qpRtoUs q * 2 ^ Nat.min (sends - 1) 6 * 1000

/-- A packet is sent again, over UDP by the path after its last (R420). -/
def resend (s : State) (n : Nat) (q : Qp) (x : TxPkt) : State :=
  let y := { x with
    sends := x.sends + 1, since := s.devTime, busy := false, path := if qpLink q = 0 then x.path else (x.path + 1) % qpPaths q }
  setQp (emit s q x.opc x.hdr x.data y.path x.key) n { q with pkts := q.pkts.map (fun z => if z.psn = x.psn then y else z) }

/-- RETRANSMIT_TIMEOUT (R420). -/
def execRetransmitTimeout (qp : BitVec 24) (psn : BitVec 32) (s : State) : Host.Outcome State Fault Refusal :=
  match getQp s qp.toNat with
  | none => .next s
  | some q =>
    match q.pkts.find? (fun x => x.psn == psn && !x.busy) with
    | none => .next s
    | some x =>
      if !working s ∨ (s.devTime - x.since).toNat < rtoNs q x.sends then .next s
      else if x.sends > qpRetries q then .next (settle (loseQp s qp.toNat))
      else .next (brmDrop (resend s qp.toNat { q with retrans := q.retrans + 1 } x) 5)

/-- BUSY_RETRANSMIT (R424): the packet is sent again without counting a retransmission. -/
def execBusyRetransmit (qp : BitVec 24) (psn : BitVec 32) (s : State) : Host.Outcome State Fault Refusal :=
  match getQp s qp.toNat with
  | none => .next s
  | some q =>
    match q.pkts.find? (fun x => x.psn == psn && x.busy) with
    | none => .next s
    | some x =>
      let us := Nat.max 1 (bits (rget s 0x300000) 31 16)
      if !working s ∨ (s.devTime - x.since).toNat < us * 1000 then .next s
      else .next (resend s qp.toNat q { x with sends := x.sends - 1 })

/-- CONNECT_REQ_TIMER (R405). -/
def execConnectReqTimer (qp : BitVec 24) (s : State) : Host.Outcome State Fault Refusal :=
  match getQp s qp.toNat with
  | none => .next s
  | some q =>
    if q.st = 1 ∧ (s.devTime - q.reqAt).toNat ≥ qpRtoUs q * 1000 then
      .next (sendShake (setQp s qp.toNat { q with reqAt := s.devTime }) qp.toNat q 0x10)
    else .next s

/-- CONNECT_TIMEOUT (R401, R405). -/
def execConnectTimeout (qp : BitVec 24) (s : State) : Host.Outcome State Fault Refusal :=
  match getQp s qp.toNat with
  | none => .next s
  | some q =>
    if q.st ≠ 1 ∨ (s.devTime - q.connAt).toNat < 1000000000 then .next s
    else
      let s := setQp s qp.toNat { q with st := 0, connect := none, sentReq := false, accepted := false }
      match q.connect with
      | some (k, seq, _) => .next (settle (brmFinish s q.owner k seq (0x04, 0x94) 0))
      | none => .next s

/-- MESSAGE_EXPIRY (R427): the bytes placed stay; the message and those fenced behind it fail. -/
def execMessageExpiry (qp : BitVec 24) (msn : BitVec 32) (s : State) : Host.Outcome State Fault Refusal :=
  match getQp s qp.toNat with
  | none => .next s
  | some q =>
    match q.rmsgs.find? (fun m => m.msn == msn) with
    | none => .next s
    | some m =>
      if (s.devTime - m.firstAt).toNat < qpMsgUs q * 1000 then .next s
      else
        let s := raiseErr (brmDrop s 6) {
          cause := 0x0F, sev := 2, vi := some q.owner, status := 0x04, arg0 := qpHandle qp.toNat q, arg1 := msn.setWidth 64 }
        .next (settle (failRx s qp.toNat msn))

/-! ## Registers of the BRM block -/

/-- A write of `RMA_CFG`: DEV_TAG and UDP_PORT stay while a UDP QP exists, and the write of them is recorded. -/
def rmaCfgWr (fn : Fn) (v : Word) (s : State) : State :=
  let old := rget s 0x300000
  if (qps s).any (fun e => decide (qpLink e.2 ≠ 0)) ∧ bits v 63 32 ≠ bits old 63 32 then
    rset (accessErr s fn 0x300000) 0x300000 (setBits v 63 32 (bits old 63 32))
  else rset s 0x300000 v

/-- `RMA_QSTAT`q. -/
def rmaQstat (s : State) (q : Nat) : Word :=
  at_ (fenceUsed s (BitVec.ofNat 2 q)) 48 ||| BitVec.ofNat 64 (((qps s).filter (fun e => decide (e.2.home.toNat = q))).length)

end Sys2Proof.Machine
end

