-- ==== Sys2Proof/Machine/Poll.lean ====
section
/-! DEFINITION. The Poll Page (R314-R316) and the firmware state it shows (R522). -/

namespace Sys2Proof.Machine

/-- `FW_STATE.STATE` (R522). -/
def fwState (s : State) : Nat :=
  if !s.fw.up then 0
  else if s.fw.act = 2 then 4
  else if s.fw.cores.any (fun c => c.2.st == 1) then 2
  else if s.fw.cores.any (fun c => c.2.st == 2) then 5
  else if s.fw.act = 1 then 3 else 1

/-- HANDLER of `VI_STATE`. -/
def handlerBit (s : State) (vi : Vi) : Bool := hasHandler s vi

/-- SQs of an instance that are STOPPED, one bit each. -/
def stoppedSqs (s : State) (vi : Vi) : Nat :=
  (List.range 16).foldl (fun a q => a + b2n ((getSq s vi q).st == 2) * 2 ^ q) 0

/-- Words of the Poll Page from offset 0x008 on, to 0x1FF (R314). -/
def pollWords (s : State) (vi : Vi) : List Word :=
  let i := getInst s vi
  let stalled := (List.range 16).any (fun q => (getCq s vi q).st.toNat ≥ 2)
  [ at_ i.gen.toNat 0 ||| at_ i.st.toNat 32 ||| at_ (b2n (frozen s vi)) 35 ||| at_ (b2n (handlerBit s vi)) 36 ||| at_ i.rstPhase.toNat 40
      ||| at_ i.rstDur.toNat 48,
    s.devTime,
    at_ i.produced.toNat 0 ||| at_ (sat 65535 i.heldTraps.length) 48,
    i.lostTotal.setWidth 64,
    at_ (b2n (i.hdlSt == 2)) 0 ||| at_ (b2n (stoppedSqs s vi != 0)) 1 ||| at_ (b2n stalled) 2 ||| at_ (b2n i.memPoison) 3
      ||| at_ (stoppedSqs s vi) 16 ||| at_ i.errors.toNat 32,
    at_ (fwState s) 0 ||| at_ (sat 65535 s.fw.restarts) 16 ]
  ++ List.replicate 25 0
  ++ (List.range 16).map (fun q => at_ (getCq s vi q).tail.toNat 0 ||| at_ (b2n (getCq s vi q).phase) 16)
  ++ (List.range 16).map (fun q => at_ (getSq s vi q).head.toNat 0)

/-- Bus address of the Poll Page. -/
def pollBase (s : State) (vi : Vi) : Nat := bits (rget s (viReg vi 0x10)) 63 12 * 4096

/-- The instance's Poll Page is being written: VALID, its function's Bus Master Enable set, ACTIVE, RESETTING or RELEASING (R316). -/
def pollOn (s : State) (vi : Vi) : Bool :=
  bit (rget s (viReg vi 0x10)) 0 && busMaster s vi && (getInst s vi).st.toNat ≥ 2

/-- One update of the Poll Page (R315): SEQ is odd meanwhile, and even again, 2 more than before, once every field is written. -/
def pollUpdate (s : State) (vi : Vi) : State :=
  let seq := (getInst s vi).pollSeq + 2
  let body := (pollWords s vi).flatMap (fun w => toBytes 8 w.toNat) ++ List.replicate 3584 0
  let s := hostPut s vi (pollBase s vi + 8) body
  let s := hostPut s vi (pollBase s vi) (toBytes 8 seq.toNat)
  modInst s vi (fun i => { i with pollSeq := seq })

/-- In Dark every field stays as at entry, and SEQ goes on (R549). -/
def pollBeat (s : State) (vi : Vi) : State :=
  let seq := (getInst s vi).pollSeq + 2
  modInst (hostPut s vi (pollBase s vi) (toBytes 8 seq.toNat)) vi (fun i => { i with pollSeq := seq })

/-- POLL_PAGE_UPDATE (R315, R316): COALESCE_NS after a change, or HEARTBEAT_US without one. Updates stop in the fatal state (R576). -/
def execPollPageUpdate (vi : Vi) (s : State) : Host.Outcome State Fault Refusal :=
  if s.boot.phase ≠ 8 ∨ s.drst.phase ≠ 0 ∨ s.err.fatal ∨ !pollOn s vi then .next s
  else .next (if s.pwr.st = 2 ∨ s.pwr.st = 4 then pollBeat s vi else pollUpdate s vi)

end Sys2Proof.Machine
end

