-- ==== Sys2Proof/Machine/Off.lean ====
section
/-! DEFINITION. What a module reset, and the loss of on-module conversion, leave (R25, R28, R29, R578, R605, R607, R616). -/

namespace Sys2Proof.Machine

/-- The module as a reset leaves it: everything as after reset but for the metering island, fuses, module flash, `PWR_TRIP`, the levels of
its pins, the devices in its slots, host memory, and the commands still to come. -/
def moduleCleared (s : State) : State :=
  { State.reset with
    pending := s.pending
    free := s.free
    hostMem := s.hostMem
    sec := { fused := s.sec.fused, revoked := s.sec.revoked }
    fw := { images := s.fw.images, pref := s.fw.pref }
    sw := s.sw.filterMap (fun p => if p.2.present then some (p.1, { present := true }) else none)
    pwr := { trip := s.pwr.trip }
    boot := { pwrEn := s.boot.pwrEn, risen := s.boot.risen, locked := s.boot.locked, perst := s.boot.perst }
    mtr := { s.mtr with link := [], fseq := 0, sent := [], tag := 0, fetch := [], quote := [] } }

/-- Conversion turns off: every domain except the metering island loses power (R605). -/
def convOff (s : State) : State :=
  let s := moduleCleared s
  { s with boot := { s.boot with phase := 0 } }

/-- Conversion turns on where PWR_EN is high, the input has risen and no trip holds it off; start-up begins with CONVERT. -/
def convTry (s : State) : State :=
  if s.boot.phase = 0 ∧ s.boot.pwrEn ∧ s.boot.risen ∧ !s.boot.locked then { s with boot := { s.boot with phase := 1 } } else s

/-- A trip records its channel and value in `PWR_TRIP` and turns conversion off until power is cycled (R558, R559, R607). -/
def tripOff (s : State) (ch raw : Nat) : State :=
  let s := convOff { s with pwr := { s.pwr with trip := at_ 1 63 ||| at_ ch 48 ||| at_ raw 0 } }
  { s with boot := { s.boot with locked := true } }

end Sys2Proof.Machine
end

