-- ==== Sys2Proof/Machine/Gates.lean ====
section
/-! DEFINITION. Held descriptors (R411), Bus Master Enable (R326) and the power state of a function (R297). -/

namespace Sys2Proof.Machine

/-- DESCRIPTOR_GATE_RELEASE (R411): a held descriptor starts once its counter, its order and Bus Master Enable let it. -/
def execDescriptorGateRelease (vi : Vi) (q : BitVec 4) (seq : BitVec 48) (s : State) : Host.Outcome State Fault Refusal :=
  match findDesc s vi q.toNat seq with
  | none => .next s
  | some d => if d.st = .waiting ∧ working s then .next (settle (tryStartAny s d)) else .next s

/-- Waiting descriptors of an instance are tried again, in the order they were taken. -/
def retryDescs (s : State) (vi : Vi) : State :=
  (s.descs.filter (fun d => d.vi == vi && d.st == .waiting)).foldl (fun s d =>
    match s.descs.find? (fun x => x.id == d.id && x.st == .waiting) with
    | some d => tryStartAny s d
    | none => s) s

/-- Operations of a thread whose requests were held are issued (R326). -/
def sendHeld (now : Word) (l : List Op) : List Op := l.map (fun o => if o.sent then o else { o with sent := true, sentAt := now })

/-- A read of descriptors can be outstanding: the queue lies in the host window and has some that were not read (R307). -/
def fetchPossible (s : State) (vi : Vi) (q : Nat) : Bool :=
  let x := getSq s vi q
  canTake s vi q && x.got == [] && sqInHost s vi q && x.head != x.tail

/-- The function ceases to issue requests: reads of descriptors on their way will be delivered (R326). -/
def pauseFn (s : State) (fn : Fn) : State :=
  if !busMaster s fn then s
  else (List.range 16).foldl (fun s q =>
    if fetchPossible s fn q then setSq s fn q { getSq s fn q with flight := true } else s) s

/-- Held requests of a function resume in order (R326): host writes, requests of threads, descriptor reads, completion records, descriptors
and messages. -/
def resumeFn (s : State) (fn : Fn) : State :=
  if !busMaster s fn then s
  else
    let s := { s with threads := s.threads.map (fun p => if p.2.vi = fn then
      (p.1, { p.2 with loads := sendHeld s.devTime p.2.loads, stores := sendHeld s.devTime p.2.stores }) else p) }
    let s := (List.range 16).foldl (fun s q =>
      if fetchPossible s fn q && !(getSq s fn q).flight then setSq s fn q { getSq s fn q with reqAt := s.devTime } else s) s
    let mine := s.hostHeld.filter (fun h => h.1 == fn)
    let s := mine.foldl (fun s h => hostWrite s h.2.1 h.2.2) { s with hostHeld := s.hostHeld.filter (fun h => h.1 != fn) }
    let s := (List.range 16).foldl (fun s q =>
      let c := getCq s fn q
      if c.st = 2 ∧ bit (cqBase s fn q) 50 then cqRetry s fn q (c.held.length + 1) else s) s
    let s := retryDescs s fn
    ((qps s).filter (fun e => e.2.owner == fn)).foldl (fun s e => settleAll s e.1) s

/-- A write of a function's configuration space reaches the device. -/
def hostCfg (fn : Fn) (body : State → State) (s : State) : Host.Outcome State Fault Refusal :=
  if fnExists s fn && endpointUp s fn then .next (settle (body s)) else .next s

/-- Bus Master Enable as written (R326). -/
def bmeWr (fn : Fn) (v : Bool) (s : State) : State :=
  if v = (getCfg s fn).bme then s
  else resumeFn (modCfg (if v then s else pauseFn s fn) fn (fun c => { c with bme := v })) fn

/-- BUS_MASTER_CLEAR (R326): no new request; what is held stays held. -/
def execBusMasterClear (fn : Fn) (s : State) : Host.Outcome State Fault Refusal := hostCfg fn (bmeWr fn false) s
/-- BUS_MASTER_SET (R326). -/
def execBusMasterSet (fn : Fn) (s : State) : Host.Outcome State Fault Refusal := hostCfg fn (bmeWr fn true) s

/-- Power state as written: D3hot or D0, the instance state kept (R297). -/
def d3Wr (fn : Fn) (v : Bool) (s : State) : State :=
  if v = (getCfg s fn).d3 then s
  else resumeFn (modCfg (if v then pauseFn s fn else s) fn (fun c => { c with d3 := v })) fn

/-- POWER_STATE_WRITE (R297). -/
def execPowerStateWrite (fn : Fn) (d3 : Bool) (s : State) : Host.Outcome State Fault Refusal := hostCfg fn (d3Wr fn d3) s

end Sys2Proof.Machine
end

