-- ==== Sys2Proof/Machine/Security.lean ====
section
/-! DEFINITION. Security (R480-R501): measurements, key slots, MACsec associations, SPDM sessions, IDE streams. -/

namespace Sys2Proof.Machine

/-! ## Measurements (R484, R485) -/

/-- The bytes of a digest. -/
def digestBytes (d : BitVec 384) : List Byte := beBytes 48 d.toNat
/-- Measurement register i. -/
def measOf (s : State) (i : Nat) : BitVec 384 := (tget s.sec.meas i ((0 : BitVec 384), 0)).1

/-- A register is extended with the digest of an event: M := SHA-384(M, d). -/
def measExtend (s : State) (i : Nat) (d : BitVec 384) : State :=
  let (m, n) := tget s.sec.meas i ((0 : BitVec 384), 0)
  { s with sec := { s.sec with meas := tset s.sec.meas i (Config.sha384 (digestBytes m ++ digestBytes d), sat 65535 (n + 1)) } }

/-- M4 is extended each time the fabric or a pair is enabled: `PHY_CFG` of every port, `DEV_FAB_CFG`, `DEV_PAIR_CFG` (R484). -/
def measFabric (s : State) : State :=
  let ports := (List.range 12).map (fun p => rget s (0x200000 + 0x10000 * p + 0x8000))
  let ws := ports ++ [rget s (devReg 0x4800), rget s (devReg 0x4808)]
  measExtend s 4 (Config.sha384 (ws.flatMap (fun w => toBytes 8 w.toNat)))

/-- Debug access is opened: M3 is extended and DEBUG_SEEN set (R485). -/
def debugSeen (s : State) (event : List Byte) : State :=
  let s := measExtend s 3 (Config.sha384 event)
  { s with sec := { s.sec with debugSeen := true } }

/-! ## Key slots (R494-R497) -/

def keyStat : Nat := 0xF80110
/-- A PF acts only for instances of its own upstream port. -/
def keyDone (s : State) (r : BitVec 8 × BitVec 8) : State := statDone s keyStat r

/-- REF of a slot (R497): regions and QPs that name it, and messages, snapshots and restores in progress with it. -/
def keyRef (s : State) (slot : Nat) : Nat :=
  s.ctxs.foldl (fun a e => match e.2 with
    | .qp q => a + b2n (qpEnc q && decide ((qpKey q).toNat = slot))
        + (q.msgs.filter (fun m => m.enc && !m.thread && decide (m.keyslot.toNat = slot))).length
    | .region r => a + b2n (regEnc r && decide ((regKey r).toNat = slot))
    | .queue _ _ _ => a
    | .flow _ _ _ _ => a) 0
  + (s.snaps.filter (fun e => decide (e.2.st ≠ 0) && e.2.p.enc && decide (e.2.p.keyslot.toNat = slot))).length

/-- Bytes `lo` to `hi - 1` of a block are zero. -/
def zeroBytes (b : List Byte) (lo hi : Nat) : Bool := ((b.drop lo).take (hi - lo)).all (fun x => x == 0)

/-- The key of a block: 32 bytes, or 40 unwrapped under the PF's key-encryption key (R489, R494). -/
def blockKey (s : State) (fn : Fn) (b : List Byte) (wrapped : Bool) : Option (List Byte) :=
  if wrapped then
    match tget? s.sec.kek (portOf fn) with
    | some (k, _) => (Config.keyUnwrap k (BitVec.ofNat 320 (be b 64 40))).map (fun x => beBytes 32 x.toNat)
    | none => none
  else some ((b.drop 64).take 32)

/-- INSTALL (R494, R496): the slot takes the key, its IV counters start at zero. -/
def keyInstall (fn : Fn) (slot : Nat) (vi : Vi) (ext : List Byte) (s : State) : State :=
  if !samePort fn vi then keyDone s (0x05, 0xC0)
  else if (tget? s.keys slot).isSome then keyDone s (0x05, 0xC5)
  else match rangeRead s vi (rget s 0xF80108 &&& 0xFFFFFFFFFFFFFFC0) 128 ext with
    | none => keyDone s (0x0B, 0xC4)
    | some (s, b, p) =>
      let w := ofBytes (b.take 8)
      let wrapped := w.testBit 9
      if p || decide (w % 4 ≠ 1) || decide (w / 1024 ≠ 0) || decide (w / 4 % 64 ≠ 0) || !zeroBytes b 8 64
          || !zeroBytes b (if wrapped then 104 else 96) 128 then keyDone s (0x0B, 0xC4)
      else match blockKey s fn b wrapped with
        | none => keyDone s (0x0B, 0xC4)
        | some k =>
          let iv := (List.range 4).foldl (fun t q => tset t (slot * 4 + q) 0) s.brmIv
          keyDone { s with keys := tset s.keys slot { owner := vi, decOnly := w.testBit 8, key := k }, brmIv := iv } (0, 0)

/-- CLEAR (R497). -/
def keyClear (fn : Fn) (slot : Nat) (s : State) : State :=
  match tget? s.keys slot with
  | none => keyDone s (0x05, 0xC0)
  | some k =>
    if !samePort fn k.owner then keyDone s (0x05, 0xC0)
    else if keyRef s slot ≠ 0 then keyDone s (0x01, 0xC3)
    else keyDone { s with keys := tdel s.keys slot } (0, 0)

/-- `SEC_KEY_INFO` of a slot. -/
def keyInfo (s : State) (slot : Nat) : Word :=
  match tget? s.keys slot with
  | none => 0
  | some k => at_ (k.iv % 2 ^ 32) 32 ||| at_ (sat 65535 (keyRef s slot)) 16 ||| at_ k.owner.toNat 8 ||| at_ (b2n k.decOnly) 2 ||| 1

/-- READ: `SEC_KEY_INFO` takes the slot's state. -/
def keyReport (fn : Fn) (slot : Nat) (s : State) : State :=
  match tget? s.keys slot with
  | none => keyDone (rset s 0xF80118 0) (0, 0)
  | some k => if samePort fn k.owner then keyDone (rset s 0xF80118 (keyInfo s slot)) (0, 0) else keyDone s (0x05, 0xC0)

/-! ## MACsec (R492, R493) -/

def msecReg (p : Nat) : Nat := 0xF81000 + 0x40 * p
def msecCfg (s : State) (p : Nat) : Word := rget s (msecReg p)
def saKey (p : Nat) (tx : Bool) (sc an : Nat) : Nat := p * 64 + b2n tx * 32 + sc * 4 + an
def msecXpn (s : State) (p : Nat) : Bool := bit (msecCfg s p) 62
/-- The active transmit association. -/
def txSa (s : State) (p : Nat) : Option Sa := tget? s.sec.sas (saKey p true 0 (bits (msecCfg s p) 58 57))
/-- Last PN of an association. -/
def pnMax (s : State) (p : Nat) : Nat := if msecXpn s p then 2 ^ 64 - 1 else 0xFFFFFFFF
/-- The port protects frames and its active association can. -/
def msecReady (s : State) (p : Port) : Bool :=
  !macsecTx s p || ((txSa s p.val).map (fun a => decide (a.pn.toNat < pnMax s p.val))).getD false

/-- A frame is protected: the association's next PN advances. -/
def msecSend (s : State) (p : Port) : State :=
  if !macsecTx s p then s
  else match txSa s p.val with
    | none => s
    | some a =>
      let n := a.pn.toNat + 1
      let high := decide (n > (if msecXpn s p.val then 2 ^ 62 else 0xC0000000))
      { s with sec := { s.sec with
          sas := tset s.sec.sas (saKey p.val true 0 (bits (msecCfg s p.val) 58 57)) { a with pn := BitVec.ofNat 64 n },
          msCnt := bumpCnt s.sec.msCnt (p.val * 8) 1,
          pnHigh := if high && !s.sec.pnHigh.contains p.val then p.val :: s.sec.pnHigh else s.sec.pnHigh } }

/-- A counter of a port's MACsec. -/
def msecCount (s : State) (p k : Nat) : State := { s with sec := { s.sec with msCnt := bumpCnt s.sec.msCnt (p * 8 + k) 1 } }

/-- A received frame meets MACsec: state after, and whether it goes on and is SECURED; `none` is dropped. -/
def msecRecv (s : State) (p : Port) (t : Option MsecTag) : State × Option Bool :=
  let w := msecCfg s p.val
  let strict := bit w 61
  if !bit w 63 then (s, some false)
  else match t with
    | none => if strict then (msecCount s p.val 5, none) else (s, some false)
    | some t =>
      if !strict then (s, some false)
      else
        let k := saKey p.val false t.sc.toNat t.an.toNat
        match tget? s.sec.sas k with
        | none => (msecCount s p.val 4, none)
        | some a =>
          if !t.icvOk then (msecCount s p.val 2, none)
          else if bit w 59 ∧ t.pn.toNat + bits w 29 0 < a.pn.toNat then (msecCount s p.val 3, none)
          else
            let pn : Word := if t.pn.toNat ≥ a.pn.toNat then t.pn + 1 else a.pn
            let s := { s with sec := { s.sec with sas := tset s.sec.sas k { a with pn := pn } } }
            (msecCount s p.val 1, some true)

/-- Feature MACSEC is in effect on a port in Ethernet use. -/
def msecAllowed (s : State) (p : Nat) : Bool :=
  decide (featureVer s.fw 9 ≠ 0) && ((portOfNat p).map (runsEth s)).getD false

/-- INSTALL_SA (R492). -/
def saInstall (fn : Fn) (vi : Vi) (ext : List Byte) (s : State) : State :=
  if !samePort fn vi then keyDone s (0x05, 0xC0)
  else match rangeRead s vi (rget s 0xF80108 &&& 0xFFFFFFFFFFFFFFC0) 128 ext with
    | none => keyDone s (0x0B, 0xC4)
    | some (s, b, p) =>
      let w := ofBytes (b.take 8)
      let port := w % 16
      let tx := w.testBit 4
      let wrapped := w.testBit 16
      let sc := w / 2 ^ 8 % 8
      if p || decide (w / 32 % 8 ≠ 0) || w.testBit 11 || decide (w / 2 ^ 14 % 4 ≠ 0) || decide (w / 2 ^ 17 ≠ 0) || (tx && decide (sc ≠ 0))
          || decide (port > 11) || !zeroBytes b 28 32 || !zeroBytes b 44 64 || !zeroBytes b (if wrapped then 104 else 96) 128 then
        keyDone s (0x0B, 0xC4)
      else if !msecAllowed s port then keyDone s (0x0B, 0xC6)
      else match blockKey s fn b wrapped with
        | none => keyDone s (0x0B, 0xC4)
        | some k =>
          let a : Sa := {
            sci := BitVec.ofNat 64 (ofBytes ((b.drop 8).take 8)), pn := BitVec.ofNat 64 (ofBytes ((b.drop 16).take 8)),
            ssci := BitVec.ofNat 32 (ofBytes ((b.drop 24).take 4)), salt := (b.drop 32).take 12, key := k }
          keyDone { s with sec := { s.sec with sas := tset s.sec.sas (saKey port tx sc (w / 2 ^ 12 % 4)) a } } (0, 0)

/-- RETIRE_SA: reads bytes 0x00 to 0x07 of the block. -/
def saRetire (fn : Fn) (vi : Vi) (ext : List Byte) (s : State) : State :=
  if !samePort fn vi then keyDone s (0x05, 0xC0)
  else match rangeRead s vi (rget s 0xF80108 &&& 0xFFFFFFFFFFFFFFC0) 8 ext with
    | none => keyDone s (0x0B, 0xC4)
    | some (s, b, p) =>
      let w := ofBytes b
      if p || decide (w % 16 > 11) then keyDone s (0x0B, 0xC4)
      else keyDone { s with sec := { s.sec with
        sas := tdel s.sec.sas (saKey (w % 16) (w.testBit 4) (w / 2 ^ 8 % 8) (w / 2 ^ 12 % 4)) } } (0, 0)

/-- A write of `SEC_KEY_CMD`; a reserved OP is refused as BAD_KEY_BLOCK (DESIGN CHOICE). -/
def secKeyWr (fn : Fn) (v : Word) (ext : List Byte) (s : State) : State :=
  let slot := bits v 39 32
  let vi : Vi := BitVec.ofNat 8 (bits v 15 8)
  let s := if statBusy s keyStat then s else rset s 0xF80100 (opKept (rget s 0xF80100) (v &&& 0xFF0000FF0F) 5)
  if bits v 3 0 = 0 then s
  else if statBusy s keyStat then statOvr s keyStat
  else match bits v 3 0 with
    | 1 => keyInstall fn slot vi ext s
    | 2 => keyClear fn slot s
    | 3 => keyReport fn slot s
    | 4 => saInstall fn vi ext s
    | 5 => saRetire fn vi ext s
    | _ => keyDone s (0x0B, 0xC4)

/-- A key command of a function. -/
def keyCmd (fn : Fn) (op slot : Nat) (vi : Vi) (ext : List Byte) (s : State) : Host.Outcome State Fault Refusal :=
  let v := at_ slot 32 ||| at_ vi.toNat 8 ||| at_ op 0
  hostPf fn 0xF80100 v (secKeyWr fn v ext) s

def execInstall (fn : Fn) (slot : BitVec 8) (vi : Vi) (ext : List Byte) (s : State) : Host.Outcome State Fault Refusal :=
  keyCmd fn 1 slot.toNat vi ext s
def execClear (fn : Fn) (slot : BitVec 8) (s : State) : Host.Outcome State Fault Refusal := keyCmd fn 2 slot.toNat 0 [] s
def execKeyRead (fn : Fn) (slot : BitVec 8) (s : State) : Host.Outcome State Fault Refusal := keyCmd fn 3 slot.toNat 0 [] s
def execInstallSa (fn : Fn) (vi : Vi) (ext : List Byte) (s : State) : Host.Outcome State Fault Refusal := keyCmd fn 4 0 vi ext s
def execRetireSa (fn : Fn) (vi : Vi) (ext : List Byte) (s : State) : Host.Outcome State Fault Refusal := keyCmd fn 5 0 vi ext s

/-- A write of `SEC_MSEC_CFG` (R492, R493): XPN changes only while EN is 0; EN is set only while feature MACSEC is in effect, otherwise
ignored and recorded (DESIGN CHOICE). TX_AN names the association of the next frame. -/
def msecCfgWr (fn : Fn) (p : Nat) (v : Word) (s : State) : State :=
  let old := msecCfg s p
  let v := v &&& 0xFE0000003FFFFFFF
  let v := if bit old 63 then setBits v 62 62 (bits old 62 62) else v
  if bit v 63 ∧ !bit old 63 ∧ !msecAllowed s p then rset (accessErr s fn (msecReg p)) (msecReg p) (setBits v 63 63 0)
  else rset s (msecReg p) v

/-- The register value of `SEC_MSEC_CFG`'s fields. -/
def msecWord (c : MsecCfg) : Word :=
  at_ (b2n c.en) 63 ||| at_ (b2n c.xpn) 62 ||| at_ (b2n c.strict) 61 ||| at_ (b2n c.protect) 60 ||| at_ (b2n c.replay) 59
    ||| at_ c.txAn.toNat 57 ||| at_ c.window.toNat 0

def execMsecCfgWrite (fn : Fn) (port : Port) (c : MsecCfg) (s : State) : Host.Outcome State Fault Refusal :=
  hostPf fn (msecReg port.val) (msecWord c) (msecCfgWr fn port.val (msecWord c)) s

/-- `SEC_MSEC_STAT`. -/
def msecStat (s : State) (p : Nat) : Word :=
  let rx := (List.range 32).foldl (fun a i => a + b2n (tget? s.sec.sas (p * 64 + i)).isSome * 2 ^ i) 0
  let tx := (List.range 4).foldl (fun a i => a + b2n (tget? s.sec.sas (p * 64 + 32 + i)).isSome * 2 ^ i) 0
  let stopped := ((txSa s p).map (fun a => decide (a.pn.toNat ≥ pnMax s p))).getD false
  at_ (b2n (s.sec.pnHigh.contains p)) 63 ||| at_ (b2n stopped) 62 ||| at_ rx 24 ||| at_ tx 20

/-! ## Frames of a port under MACsec -/

/-- FRAME_RECEIVE (R345-R371, R435, R492): a frame of an Ethernet port whose link is up. -/
def execFrameReceive (port : Port) (f : RxFrame) (s : State) : Host.Outcome State Fault Refusal :=
  if !runsEth s port || !linkUp s port || !working s then .next s
  else if f.data.length + 4 > maxFrame s port then .next (macDiscard s port)
  else if f.stopped then .next (prismDrop s port.val 2)
  else match msecRecv s port f.tag with
    | (s, none) => .next s
    | (s, some secured) =>
      if f.overrun then .next (prismDrop s port.val 8)
      else .next (settle (brmFrames (classify s port f.data secured false s.devTime)))

/-! ## SPDM (R486-R489) -/

/-- Key of a transport. -/
def viaKey : SpdmVia → Nat
  | .doe p => p.val
  | .vdm p => 2 + p.val
  | .smbus => 4

/-- Transports that share their two sessions: each DOE mailbox its own, MCTP together (R486). -/
def viaGroup : SpdmVia → Nat
  | .doe p => p.val
  | .vdm _ => 2
  | .smbus => 2

/-- PF whose DOE mailbox or upstream port carries the transport. -/
def viaPf : SpdmVia → Option Nat
  | .doe p => some p.val
  | .vdm p => some p.val
  | .smbus => none

/-- The transport reaches the responder: a DOE mailbox needs its endpoint, MCTP the Steward that runs it (R488). -/
def viaUp (s : State) (v : SpdmVia) : Bool :=
  match v with
  | .doe p => endpointUp s (if p = 0 then 0 else 128)
  | .vdm p => endpointUp s (if p = 0 then 0 else 128) && dutyUp s 1
  | .smbus => dutyUp s 1

/-- Negotiation reached on a transport: 1 version, 2 capabilities, 3 algorithms. -/
def connOf (s : State) (v : SpdmVia) : Nat := tget s.sec.conn (viaKey v) 0
def setConn (s : State) (v : SpdmVia) (n : Nat) : State := { s with sec := { s.sec with conn := tset s.sec.conn (viaKey v) n } }

/-- A session is gone, and the key-encryption key it installed with it (R489). -/
def dropSession (s : State) (v : SpdmVia) (sid : Nat) : State :=
  { s with sec := { s.sec with
      sessions := s.sec.sessions.filter (fun x => !(x.via == v && x.id == sid)),
      kek := match viaPf v with
        | some p => (match tget? s.sec.kek p with
          | some (_, k) => if k = viaKey v * 256 + sid then tdel s.sec.kek p else s.sec.kek
          | none => s.sec.kek)
        | none => s.sec.kek } }

/-- A secured session of a transport. -/
def inSession (s : State) (v : SpdmVia) (sid : Nat) : Bool :=
  s.sec.sessions.any (fun x => x.via == v && x.id == sid && x.secured)

/-- A request of a negotiated transport. -/
def spdmReq (v : SpdmVia) (need : Nat) (body : State → State) (s : State) : Host.Outcome State Fault Refusal :=
  if viaUp s v && decide (connOf s v ≥ need) then .next (body s) else .next s

/-- GET_VERSION: the negotiation of the transport begins. -/
def execGetVersion (via : SpdmVia) (s : State) : Host.Outcome State Fault Refusal :=
  spdmReq via 0 (fun s => setConn { s with reply := [0x13], replyPoison := false } via 1) s
/-- GET_CAPABILITIES: CERT, CHAL, MEAS with signature, KEY_EX, ENCRYPT, MAC, HBEAT, KEY_UPD. -/
def execGetCapabilities (via : SpdmVia) (s : State) : Host.Outcome State Fault Refusal :=
  spdmReq via 1 (fun s => setConn s via (Nat.max 2 (connOf s via))) s
/-- NEGOTIATE_ALGORITHMS: the one supported set is chosen where the request offers it. -/
def execNegotiateAlgorithms (via : SpdmVia) (match_ : Bool) (s : State) : Host.Outcome State Fault Refusal :=
  spdmReq via 2 (fun s => if match_ then setConn s via 3 else s) s

/-- The alias key's name: it is derived from the identity key and M1 (R487). -/
def aliasKey (s : State) : Nat := (measOf s 1).toNat

/-- GET_DIGESTS: the digest of the certificate chain of slot 0. -/
def execGetDigests (via : SpdmVia) (s : State) : Host.Outcome State Fault Refusal :=
  spdmReq via 3 (fun s => { s with
    reply := digestBytes (Config.sha384 (digestBytes (measOf s 1))), replyPoison := false }) s
/-- GET_CERTIFICATE: slot 0 only; the chain's bytes are the device's own (free). -/
def execGetCertificate (via : SpdmVia) (slot : BitVec 4) (s : State) : Host.Outcome State Fault Refusal :=
  spdmReq via 3 (fun s => if slot ≠ 0 then s else nextFree { s with reply := extBytes s [] (aliasKey s) 48, replyPoison := false }) s
/-- CHALLENGE: answered with the alias key's signature over the nonce and the measurements. -/
def execChallenge (via : SpdmVia) (slot : BitVec 4) (nonce : BitVec 256) (s : State) : Host.Outcome State Fault Refusal :=
  spdmReq via 3 (fun s =>
    if slot ≠ 0 then s
    else
      let m := (List.range 8).flatMap (fun i => digestBytes (measOf s i))
      { s with
        reply := beBytes 96 (Config.ecdsaSign (aliasKey s) (Config.sha384 (beBytes 32 nonce.toNat ++ m))).toNat, replyPoison := false }) s
/-- GET_MEASUREMENTS: blocks 1 to 8 hold M0 to M7; 0xFF asks for all. -/
def execGetMeasurements (via : SpdmVia) (block : BitVec 8) (s : State) : Host.Outcome State Fault Refusal :=
  spdmReq via 3 (fun s =>
    let all := (List.range 8).flatMap (fun i => digestBytes (measOf s i))
    let r := if block = 0xFF then all else if 1 ≤ block.toNat ∧ block.toNat ≤ 8 then digestBytes (measOf s (block.toNat - 1)) else []
    { s with reply := r, replyPoison := false }) s

/-- KEY_EXCHANGE: a session begins its handshake where the transport has one of its two left. -/
def execKeyExchange (via : SpdmVia) (beat : Nat) (s : State) : Host.Outcome State Fault Refusal :=
  spdmReq via 3 (fun s =>
    let mine := s.sec.sessions.filter (fun x => viaGroup x.via == viaGroup via)
    if mine.length ≥ 2 then s
    else
      let id := leastFree (mine.map (·.id))
      { s with sec := { s.sec with sessions := s.sec.sessions ++ [{ via := via, id := id, beat := beat, last := s.devTime }] } }) s
/-- FINISH: the session is secured, or ends where its verification fails. -/
def execFinish (via : SpdmVia) (sid : Nat) (ok : Bool) (s : State) : Host.Outcome State Fault Refusal :=
  spdmReq via 3 (fun s =>
    if ok then { s with sec := { s.sec with sessions := s.sec.sessions.map (fun x =>
      if x.via = via ∧ x.id = sid then { x with secured := true, last := s.devTime } else x) } }
    else dropSession s via sid) s

/-- A request inside a secured session. -/
def secured (via : SpdmVia) (sid : Nat) (body : State → State) (s : State) : Host.Outcome State Fault Refusal :=
  if viaUp s via && inSession s via sid then .next (body s) else .next s

def execHeartbeat (via : SpdmVia) (sid : Nat) (s : State) : Host.Outcome State Fault Refusal :=
  secured via sid (fun s => { s with sec := { s.sec with sessions := s.sec.sessions.map (fun x =>
    if x.via = via ∧ x.id = sid then { x with last := s.devTime } else x) } }) s
def execKeyUpdate (via : SpdmVia) (sid : Nat) (s : State) : Host.Outcome State Fault Refusal :=
  secured via sid (fun s => { s with sec := { s.sec with sessions := s.sec.sessions.map (fun x =>
    if x.via = via ∧ x.id = sid then { x with keyGen := x.keyGen + 1 } else x) } }) s
/-- END_SESSION (R489). -/
def execEndSession (via : SpdmVia) (sid : Nat) (s : State) : Host.Outcome State Fault Refusal :=
  secured via sid (fun s => dropSession s via sid) s
/-- SET_KEK (R489): for the PF whose DOE mailbox or upstream port carries the session. -/
def execSetKek (via : SpdmVia) (sid : Nat) (kek : BitVec 256) (s : State) : Host.Outcome State Fault Refusal :=
  secured via sid (fun s => match viaPf via with
    | some p => { s with sec := { s.sec with kek := tset s.sec.kek p (kek, viaKey via * 256 + sid) } }
    | none => s) s

/-- HEARTBEAT_PERIOD_EXPIRY: no HEARTBEAT arrived within the session's period. -/
def execHeartbeatPeriodExpiry (via : SpdmVia) (sid : Nat) (s : State) : Host.Outcome State Fault Refusal :=
  match s.sec.sessions.find? (fun x => x.via == via && x.id == sid && x.secured) with
  | none => .next s
  | some x =>
    if x.beat ≠ 0 ∧ (s.devTime - x.last).toNat ≥ x.beat * 1000000000 then .next (dropSession s via sid) else .next s

/-! ## IDE (R490, R491) -/

def ideIdx (port stream : Nat) : Nat := port * 2 + stream
def getIde (s : State) (port stream : Nat) : IdeStream := tget s.sec.ide (ideIdx port stream) {}
def setIde (s : State) (port stream : Nat) (x : IdeStream) : State :=
  { s with sec := { s.sec with ide := tset s.sec.ide (ideIdx port stream) x } }
/-- Place of a direction and sub-stream. -/
def ideDir (k : IdeKey) : Nat := b2n k.tx * 3 + k.sub.val
/-- The stream is Secure: a key set is in use in each direction and sub-stream. -/
def ideSecure (x : IdeStream) : Bool := (List.range 6).all (fun i => (tget? x.go i).isSome)

/-- IDE_KM over a secured session on the PF's DOE mailbox. -/
def ideReq (port : Fin 2) (sid : Nat) (body : State → State) (s : State) : Host.Outcome State Fault Refusal :=
  secured (.doe port) sid body s

/-- IDE_QUERY: the port's two streams with their states. -/
def execIdeQuery (port : Fin 2) (sid : Nat) (s : State) : Host.Outcome State Fault Refusal :=
  ideReq port sid (fun s => { s with
    reply := (List.range 2).map (fun i => BitVec.ofNat 8 (b2n (ideSecure (getIde s port.val i)))), replyPoison := false }) s
/-- KEY_PROG. -/
def execKeyProg (port : Fin 2) (sid : Nat) (k : IdeKey) (key : BitVec 256) (s : State) : Host.Outcome State Fault Refusal :=
  ideReq port sid (fun s =>
    let x := getIde s port.val k.stream.val
    setIde s port.val k.stream.val { x with keys := tset x.keys (ideDir k * 2 + k.set.val) key }) s

/-- Requests an insecure stream held resume once it is Secure or disabled (R491). -/
def ideResume (s : State) (port : Nat) : State :=
  ((List.range 128).map (fun k => BitVec.ofNat 8 (128 * port + k))).foldl resumeFn s

/-- K_SET_GO: a programmed key set comes into use. -/
def execKSetGo (port : Fin 2) (sid : Nat) (k : IdeKey) (s : State) : Host.Outcome State Fault Refusal :=
  ideReq port sid (fun s =>
    let x := getIde s port.val k.stream.val
    if (tget? x.keys (ideDir k * 2 + k.set.val)).isNone then s
    else ideResume (setIde s port.val k.stream.val { x with go := tset x.go (ideDir k) k.set.val }) port.val) s
/-- K_SET_STOP: the key set leaves use, and the stream is Insecure. -/
def execKSetStop (port : Fin 2) (sid : Nat) (k : IdeKey) (s : State) : Host.Outcome State Fault Refusal :=
  ideReq port sid (fun s =>
    let x := getIde s port.val k.stream.val
    setIde s port.val k.stream.val { x with go := if tget? x.go (ideDir k) = some k.set.val then tdel x.go (ideDir k) else x.go }) s

/-- A Function Level Reset of a PF erases its stream keys and its key-encryption key (R489, R491). -/
def flrSecurity (s : State) (port : Nat) : State :=
  { s with sec := { s.sec with
      kek := tdel s.sec.kek port,
      ide := (List.range 2).foldl (fun t i => match tget? t (ideIdx port i) with
        | some x => tset t (ideIdx port i) { x with keys := [], go := [] }
        | none => t) s.sec.ide } }

end Sys2Proof.Machine
end

