-- ==== Sys2Proof/Machine/Fabric.lean ====
section
/-! DEFINITION. Barvar links, routing, and redundant pairs (R434-R457). -/

namespace Sys2Proof.Machine

/-! ## Sites and routes (R443-R447) -/

/-- A device code of the link header. -/
def devCode (x y z m : Nat) : BitVec 16 := BitVec.ofNat 16 (x * 4096 + y * 256 + z * 16 + m)
/-- Coordinate k of a device code: 0 x, 1 y, 2 z. -/
def coord (d : BitVec 16) (k : Nat) : Nat := if k = 0 then bits d 15 12 else if k = 1 then bits d 11 8 else bits d 7 4
/-- Size of dimension k (R442). -/
def dimSize (s : State) (k : Nat) : Nat :=
  (if k = 0 then bits (fabCfg s) 47 44 else if k = 1 then bits (fabCfg s) 43 40 else bits (fabCfg s) 38 36) + 1
/-- NXM, NYM and NZM as LINK_INIT and PAIR carry them. -/
def fabSize (s : State) : BitVec 12 := BitVec.ofNat 12 ((dimSize s 0 - 1) * 256 + (dimSize s 1 - 1) * 16 + (dimSize s 2 - 1))
/-- Two device codes name one site. -/
def sameSite (a b : BitVec 16) : Bool := a.toNat / 16 == b.toNat / 16
/-- DIR of a torus port. -/
def portDir (s : State) (p : Port) : Nat := bits (phyCfg s p) 57 55

/-- The neighbour through DIR (R443); `none` where the dimension has no links. -/
def neighbour (s : State) (dir : Nat) : Option (BitVec 16) :=
  let k := dir / 2
  let n := dimSize s k
  let d := ownSite s
  let c := if dir % 2 = 0 then (coord d k + 1) % n else (coord d k + n - 1) % n
  if n = 1 ∨ dir > 5 then none
  else some (devCode (if k = 0 then c else coord d 0) (if k = 1 then c else coord d 1) (if k = 2 then c else coord d 2) (bits d 3 0))

/-- The port's link carries packets. -/
def linkOn (s : State) (p : Port) : Bool := linkUp s p && decide (portUse s p ≥ 2)
/-- A usable Mirror link. -/
def mirrorOn (s : State) : Bool := linkOn s 7 && portUse s 7 == 3
/-- Some torus link is UP or DEGRADED (`DEV_PAIR_STAT.NBR`). -/
def anyTorus (s : State) : Bool := (List.finRange 12).any (fun p => linkOn s p && portUse s p == 2)

/-- 64-byte units of receive buffer a packet takes (R438). -/
def pktUnits (p : LinkPkt) : Nat := (16 + p.body.length + 4 + 63) / 64
/-- Credit of a link for a virtual channel. -/
def creditOf (s : State) (port : Port) (vc : BitVec 4) : Nat := (getPhy s port).credit.toList.getD vc.toNat 0

/-- Productive DIRs of a dimension (R445), the + direction first. -/
def productive (s : State) (here dst : BitVec 16) (k : Nat) : List Nat :=
  let n := dimSize s k
  let a := coord here k
  let b := coord dst k
  if a = b then []
  else
    let up := (b + n - a) % n
    let down := (a + n - b) % n
    (if up ≤ down then [2 * k] else []) ++ (if down ≤ up then [2 * k + 1] else [])

/-- Torus ports of the DIRs that carry packets. -/
def torusPorts (s : State) (dirs : List Nat) : List Port :=
  (List.finRange 12).filter (fun p => linkOn s p && portUse s p == 2 && dirs.contains (portDir s p))

/-- The port with the most credit for a channel, the lowest-numbered of equals. -/
def mostCredit (s : State) (vc : BitVec 4) : List Port → Option Port
  | [] => none
  | p :: r => match mostCredit s vc r with
    | none => some p
    | some q => if creditOf s q vc > creditOf s p vc then some q else some p

/-- What becomes of a packet at a device. -/
inductive Route where
  | here
  | via (port : Port) (p : LinkPkt)
  | drop
  deriving DecidableEq, Repr

/-- First channel of the dimension-order pair of a channel's class (R444). -/
def orderVc (vc : BitVec 4) : BitVec 4 := if vc ≤ 2 then 1 else if vc ≤ 5 then 4 else 6
/-- The channel is adaptive. -/
def adaptiveVc (vc : BitVec 4) : Bool := vc == 0 || vc == 3

/-- The packet crosses the Mirror link (R446, R447). -/
def crossMirror (s : State) (p : LinkPkt) : Route := if mirrorOn s then .via 7 p else .drop

/-- Dimension of the torus link the packet arrived through; the Mirror link keeps the packet's dimension-order state, and a packet of the
device's own has none. -/
def arrivedDim (s : State) (inp : Option Port) : Option Nat :=
  match inp with
  | some p => if portUse s p = 2 then some (portDir s p / 2) else none
  | none => none

/-- The packet in dimension order leaving by a DIR, with its dateline state `dl` before the hop (R446 step 5). -/
def inOrder (s : State) (dir : Nat) (dl : Bool) (p : LinkPkt) : LinkPkt :=
  let at0 := coord (ownSite s) (dir / 2)
  let wraps := if dir % 2 = 0 then decide (at0 = dimSize s (dir / 2) - 1) else decide (at0 = 0)
  { p with dord := true, dl := dl || wraps, vc := orderVc p.vc + (if dl || wraps then 1 else 0) }

/-- The dimension-order hop of a packet (R446 step 5, R447). -/
def orderHop (s : State) (inp : Option Port) (p : LinkPkt) : Route :=
  let me := ownSite s
  match (List.range 3).find? (fun k => coord me k != coord p.dst k) with
  | none => .drop
  | some k =>
    let dir := (productive s me p.dst k).headD (2 * k)
    let dl := p.dl && (match arrivedDim s inp with | some j => j == k | none => true)
    let q := inOrder s dir dl p
    match mostCredit s q.vc (torusPorts s [dir]) with
    | some port => .via port q
    | none =>
      if p.detour then .drop
      else crossMirror s { q with dl := dl, vc := orderVc p.vc + (if dl then 1 else 0), detour := true }

/-- A packet for the partner while the Mirror link is not usable: by the + neighbour in the first dimension of size above 1 (R446 step 1). -/
def roundPartner (s : State) (p : LinkPkt) : Route :=
  match (List.range 3).find? (fun k => decide (dimSize s k > 1)) with
  | none => .drop
  | some k =>
    let q := inOrder s (2 * k) false p
    match mostCredit s q.vc (torusPorts s [2 * k]) with
    | some port => .via port q
    | none => .drop

/-- The adaptive hop (R446 step 4): the productive link with the most credit, a DEGRADED one only where no 8-lane link is UP. -/
def adaptiveHop (s : State) (inp : Option Port) (p : LinkPkt) : Route :=
  let me := ownSite s
  let ports := torusPorts s ((List.range 3).flatMap (productive s me p.dst))
  let full := ports.filter (fun q => (getPhy s q).st == 2 && (getPhy s q).lanes == 8)
  let cand := (if full.isEmpty then ports else full).filter (fun q => decide (creditOf s q p.vc ≥ pktUnits p))
  match mostCredit s p.vc cand with
  | some port => .via port p
  | none => orderHop s inp { p with dl := false }

/-- The route of a packet that stands at this device, having come through `inp`, or the device's own (R446, R447). -/
def route (s : State) (inp : Option Port) (p : LinkPkt) : Route :=
  let me := ownSite s
  let plane := bits me 3 0
  let want := bits p.dst 3 0
  if p.dst = me then .here
  else if !inFabric s p.dst then .drop
  else if sameSite p.dst me then
    (if s.pair.st = 3 ∨ s.pair.st = 4 then .drop else if mirrorOn s || inp.isSome then crossMirror s p else roundPartner s p)
  else if plane ≠ want ∧ sameSite p.src p.dst ∧ !p.detour then crossMirror s p
  else if plane ≠ want ∧ inp.isNone ∧ mirrorOn s then .via 7 p
  else if adaptiveVc p.vc ∧ !p.dord then adaptiveHop s inp p
  else orderHop s inp p

/-! ## Link protocol (R436-R438) -/

/-- A counter of `PHY_CNT` counts one. -/
def phyCount (s : State) (port : Port) (k : Nat) : State :=
  setPhy s port { getPhy s port with cnt := bumpCnt (getPhy s port).cnt k 1 }

/-- The unacknowledged packets of a link leave room for one more (R437). -/
def retryRoom (h : Phy) (p : LinkPkt) : Bool :=
  decide (h.retry.length < 2047) && decide (h.retry.foldl (fun a x => a + 20 + x.body.length) 0 + 20 + p.body.length ≤ 1048576)

/-- A packet takes its place at the link it leaves by, or is dropped as UNREACHABLE: one of the device's own counts at port 7 (R447; DESIGN
CHOICE, Assumption 32). -/
def forward (s : State) (inp : Option Port) (vi : Option Vi) (p : LinkPkt) : State :=
  match route s inp p with
  | .here => s
  | .drop => phyCount s (inp.getD 7) 5
  | .via port q =>
    let h := getPhy s port
    setPhy s port { h with queue := h.queue ++ [{ inp := inp, vi := vi, was := p, pkt := { q with hops := q.hops + 1 } }] }

/-- TYPEs of R436 that a link in use carries with an LSEQ. -/
def knownType (t : BitVec 8) : Bool := t == 1 || t == 2 || t == 3 || t == 4 || t == 5 || t == 0x0E

/-- The receiver took a packet in sequence; it acknowledges after 64 packets (R437). -/
def tookPacket (s : State) (port : Port) : State :=
  let h := getPhy s port
  let due := h.ackDue + 1
  setPhy s port { h with rxSeq := h.rxSeq + 1, ackDue := if due ≥ 64 then 0 else due, ackAt := if due ≥ 64 then s.devTime else h.ackAt }

/-- A transit packet with a good header and a bad PCRC leaves as a stomped copy where its outgoing link is as wide (R439). -/
def cutThrough (s : State) (port : Port) (p : LinkPkt) : State :=
  match route s (some port) p with
  | .via q _ => if (getPhy s q).lanes.toNat ≥ (getPhy s port).lanes.toNat then forward s (some port) none { p with stomp := true } else s
  | .here => s
  | .drop => s

/-- A MIRROR_WR body as R436 lays it out. -/
def mirrorBodyIn (b : List Byte) (s : State) : State :=
  let to0 := ofBytes (b.take 8)
  let w := ofBytes ((b.drop 8).take 8)
  let n := w / 65536 % 8192
  if b.length < 16 ∨ n = 0 ∨ n > 4096 ∨ to0 ≥ 2 ^ 42 ∨ (w / 4096 % 2 = 0 ∧ b.length ≠ 16 + n) then s
  else mirrorArrive (w % 4096) (to0 / 2 ^ 30) (to0 % 2 ^ 30) (if w / 4096 % 2 = 1 then [] else b.drop 16) (if w / 4096 % 2 = 1 then n else 0) s

/-- What a packet for this device carries (R436): a BRM packet reaches the engine, a mirrored write or its acknowledgement the mirror; the
layouts of SYNC and PAIR bodies are not given, and what they bring acts by its own row. -/
def takeLocal (s : State) (port : Port) (p : LinkPkt) : State :=
  if p.ty = 1 then (if brmBad p.body then brmDrop s 7 else
    let k := brmPkt s p.body p.src
    engineTake (be p.body 1 1) k (if k.enc then nextFree s else s))
  else if portUse s port ≠ 3 then s
  else if p.ty = 3 then mirrorBodyIn p.body s
  else if p.ty = 4 then ackWrites s (fun m => atOrAfter (BitVec.ofNat 32 (ofBytes (p.body.take 4))) m.seq)
  else s

/-- LINK_PACKET_RECEIVE (R436, R437, R439, R446, R447). -/
def execLinkPacketReceive (port : Port) (p : LinkPkt) (s : State) : Host.Outcome State Fault Refusal :=
  let h := getPhy s port
  if !linkOn s port ∨ p.ty = 0x0F then .next s
  else if !p.hcrcOk then .next (phyCount s port 2)
  else if p.lseq ≠ h.rxSeq then .next s
  else if p.stomp then .next (tookPacket (phyCount s port 4) port)
  else if !p.pcrcOk then .next (cutThrough (phyCount s port 2) port p)
  else if !knownType p.ty ∨ p.vc > 7 ∨ p.body.length > 4168 then .next (tookPacket (phyCount s port 2) port)
  else if p.dst = ownSite s then .next (settle (takeLocal (tookPacket s port) port p))
  else if p.ty = 1 ∨ p.ty = 2 ∨ p.ty = 5 then .next (forward (tookPacket s port) (some port) none p)
  else .next (tookPacket s port)

/-- LINK_CTL_ACK (R437, R438): packets up to an LSEQ leave the retry buffer and credits return. -/
def execLinkCtlAck (port : Port) (lseq : BitVec 12) (credits : Vector Nat 8) (s : State) : Host.Outcome State Fault Refusal :=
  let h := getPhy s port
  if !linkOn s port then .next s
  else
    let rest := h.retry.filter (fun p => !atOrAfter lseq p.lseq)
    .next (setPhy s port { h with
      retry := rest, replays := if rest.length < h.retry.length then 0 else h.replays,
      credit := Vector.ofFn (fun i => Nat.min 512 (h.credit[i] + credits[i])) })

/-- LINK_ACK_INTERVAL (R437): an acknowledgement at least every 0.5 µs. -/
def execLinkAckInterval (port : Port) (s : State) : Host.Outcome State Fault Refusal :=
  let h := getPhy s port
  if linkOn s port ∧ h.ackDue > 0 ∧ (s.devTime - h.ackAt).toNat ≥ 500 then
    .next (setPhy s port { h with ackDue := 0, ackAt := s.devTime })
  else .next s

/-! ## The mirror when its link is lost (R451) -/

/-- MODE in effect is MIRRORED. -/
def mirrored (s : State) : Bool := s.pair.mode == 1
def pairCfg (s : State) : Word := rget s (devReg 0x4808)
/-- ROLE is STANDBY. -/
def isStandby (s : State) : Bool := bit (pairCfg s) 61
/-- A port-numbered error of a link (R571). -/
def linkErr (s : State) (port : Port) (cause : BitVec 8) (sev : BitVec 2) : State :=
  raiseErr s { cause := cause, sev := sev, unit := quadUd s (port.val / 3), arg0 := BitVec.ofNat 64 port.val }

/-- The Mirror link stopped being UP or DEGRADED: the ACTIVE member of a JOINED mirrored pair holds its mirrored writes (R451). -/
def mirrorLinkLost (s : State) : State :=
  if mirrored s && !isStandby s && (s.pair.st == 2 || s.pair.st == 5) && (s.pair.mir == 1 || s.pair.resyncAt.isSome) then
    { s with pair := { s.pair with holding := true, noticeAt := s.devTime } }
  else s

/-- The mirror is LOST: unacknowledged writes complete locally, counted, and held writes go on (R220, R451, R457). -/
def mirrorIsLost (s : State) : State :=
  let blocks := (s.pair.out.filter (fun m => m.writer != .partner)).foldl (fun a m =>
    a + (blocksOf m.pa (if m.mark = 0 then m.data.length else m.mark)).length) 0
  let s := { s with
    linkOut := s.linkOut.filter (fun x => x.2.ty != 3)
    pair := { s.pair with
      mir := 2, holding := false, resyncAt := none, unmirrored := s.pair.unmirrored + BitVec.ofNat 48 blocks } }
  releaseHeld (ackWrites s (fun _ => true))

/-! ## Link states (R440, R441) -/

/-- What a link loses when it stops carrying packets for good: its retry buffer and mirrored writes; the other packets queued are routed
again (R441). A link that comes up later starts its sequence and its credits anew. -/
def linkLost (s : State) (port : Port) : State :=
  let h := getPhy s port
  let s := setPhy s port { h with
    queue := [], retry := [], ackDue := 0, replays := 0, txSeq := 0, rxSeq := 0, served := (0, 0), credit := Vector.replicate 8 512 }
  let s := if portUse s port = 3 then mirrorLinkLost { s with pair := { s.pair with mirSeq := 0, mirGot := 0 } } else s
  (h.queue.filter (fun x => x.pkt.ty != 3 && x.pkt.ty != 4)).foldl (fun s x => forward s x.inp x.vi x.was) s

/-- The link goes DOWN (R441). -/
def goDown (s : State) (port : Port) : State :=
  let h := getPhy s port
  let s := setPhy s port { h with st := 0, lanes := 0, since := s.devTime, cnt := bumpCnt h.cnt 6 1 }
  linkErr (linkLost s port) port 0x09 2

/-- LINK_RETRY_REQUEST (R437, R440): a replay; the eighth in succession from one LSEQ takes the link DOWN. -/
def execLinkRetryRequest (port : Port) (lseq : BitVec 12) (s : State) : Host.Outcome State Fault Refusal :=
  let h := getPhy s port
  if !linkOn s port then .next s
  else
    let n := if h.replays > 0 ∧ h.replayAt = lseq then h.replays + 1 else 1
    let s := setPhy s port { h with replays := n, replayAt := lseq, cnt := bumpCnt h.cnt 3 1 }
    let s := linkErr s port 0x07 1
    .next (settle (if n ≥ 8 then goDown s port else s))

/-- A port in TORUS or MIRROR use (R440). -/
def barvar (s : State) (port : Port) : Bool := decide (portUse s port ≥ 2)

/-- The LINK_INIT of the far end matches (R440). -/
def initMatches (s : State) (port : Port) (m : LinkInit) : Bool :=
  if portUse s port = 3 then m.use_ == 3 && sameSite m.dev (ownSite s) && m.dev != ownSite s
  else m.use_ == 2 && decide (m.dir.toNat / 2 = portDir s port / 2) && decide (m.dir.toNat ≠ portDir s port)
    && m.size == fabSize s && neighbour s (portDir s port) == some m.dev

/-- LINK_INIT (R440): a link that lost a lane goes on with its retry buffer. -/
def execLinkInit (port : Port) (far : LinkInit) (s : State) : Host.Outcome State Fault Refusal :=
  let h := getPhy s port
  if !barvar s port ∨ h.st ≠ 1 then .next s
  else if initMatches s port far then
    let s := setPhy s port { h with st := if h.half then 3 else 2, lanes := if h.half then 4 else 8, nbr := far.dev, since := s.devTime }
    .next (if portUse s port = 3 ∧ s.pair.st = 0 then { s with pair := { s.pair with st := 1 } } else s)
  else .next (linkLost (setPhy s port { h with st := 4, lanes := 0, nbr := far.dev, since := s.devTime }) port)

/-- LANE_FAILURE (R440): to 4 lanes, or DOWN where one of the 4 lanes in use fails. -/
def execLaneFailure (port : Port) (lane : Fin 8) (s : State) : Host.Outcome State Fault Refusal :=
  let h := getPhy s port
  let high := decide (lane.val ≥ 4)
  if !barvar s port then .next s
  else if h.st = 2 then
    let s := setPhy s port { h with st := 1, lanes := 0, half := true, badHigh := high, since := s.devTime, cnt := bumpCnt h.cnt 7 1 }
    let s := linkErr s port 0x08 1
    .next (if portUse s port = 3 then mirrorLinkLost s else s)
  else if h.st = 3 ∧ high ≠ h.badHigh then .next (settle (goDown s port))
  else .next s

/-- LOSS_OF_LOCK (R440). -/
def execLossOfLock (port : Port) (s : State) : Host.Outcome State Fault Refusal :=
  if linkOn s port then .next (settle (goDown s port)) else .next s

/-- TRAINING_TIMEOUT (R440): no signal for 1 s. -/
def execTrainingTimeout (port : Port) (s : State) : Host.Outcome State Fault Refusal :=
  let h := getPhy s port
  if barvar s port ∧ h.st = 1 ∧ (s.devTime - h.since).toNat ≥ 1000000000 then .next (settle (goDown s port)) else .next s

/-- RETRAIN_TIMER (R440): a DOWN link trains again every 1 s. -/
def execRetrainTimer (port : Port) (s : State) : Host.Outcome State Fault Refusal :=
  let h := getPhy s port
  if barvar s port ∧ bit (phyCfg s port) 63 ∧ h.st = 0 ∧ (s.devTime - h.since).toNat ≥ 1000000000 then
    .next (setPhy s port { h with st := 1, since := s.devTime })
  else .next s

/-! ## Port use (R434) -/

def phyCfgWord (en : Bool) (c : PhyCfgW) : Word :=
  at_ (b2n en) 63 ||| at_ c.use_.toNat 58 ||| at_ c.dir.toNat 55 ||| at_ c.maxFrame.toNat 0

/-- USE and DIR would break a rule of R434. -/
def useBad (s : State) (p : Port) (use_ dir : Nat) : Bool :=
  (use_ == 3 && p.val != 7)
    || (use_ == 2 && decide (((List.finRange 12).filter (fun q => q != p && portUse s q == 2 && portDir s q == dir)).length ≥ 2))

/-- A write of `PHY_CFG` (R434, R440). -/
def phyCfgWr (fn : Fn) (p : Port) (v : Word) (s : State) : State :=
  let old := phyCfg s p
  let use_ := bits v 59 58
  let dir := if bits v 57 55 ≤ 5 then bits v 57 55 else bits old 57 55
  let changed := decide (use_ ≠ bits old 59 58) || decide (dir ≠ bits old 57 55)
  let refused := changed && (bit old 63 || useBad s p use_ dir)
  let s := if refused then accessErr s fn (portReg p 0x8000) else s
  let mf := bits v 13 0
  let mf := if 64 ≤ mf ∧ mf ≤ 9216 then mf else bits old 13 0
  let use_ := if refused then bits old 59 58 else use_
  let dir := if refused then bits old 57 55 else dir
  let en := bit v 63
  let h := getPhy s p
  let s := if bit old 63 && !en then
      let s := setPhy s p { h with st := 5, lanes := 0, half := false, since := s.devTime }
      if portUse s p ≥ 2 then linkLost s p else s
    else s
  let s := rset s (portReg p 0x8000) (at_ (b2n en) 63 ||| at_ use_ 58 ||| at_ dir 55 ||| at_ mf 0)
  if en && !bit old 63 && decide (use_ ≠ 0) then
    setPhy s p { getPhy s p with st := 1, lanes := 0, half := false, since := s.devTime }
  else s

/-- PORT_ENABLE (R440). -/
def execPortEnable (fn : Fn) (port : Port) (c : PhyCfgW) (s : State) : Host.Outcome State Fault Refusal :=
  hostPf fn (portReg port 0x8000) (phyCfgWord true c) (phyCfgWr fn port (phyCfgWord true c)) s
/-- PORT_DISABLE (R434). -/
def execPortDisable (fn : Fn) (port : Port) (c : PhyCfgW) (s : State) : Host.Outcome State Fault Refusal :=
  hostPf fn (portReg port 0x8000) (phyCfgWord false c) (phyCfgWr fn port (phyCfgWord false c)) s

/-! ## Configuration of site and pair (R442, R448) -/

/-- Every coordinate of a `DEV_FAB_CFG` value lies below its size. -/
def siteOk (v : Word) : Bool :=
  decide (bits v 15 12 ≤ bits v 47 44) && decide (bits v 11 8 ≤ bits v 43 40) && decide (bits v 7 4 ≤ bits v 38 36)
    && decide (bits v 3 0 ≤ 1)

/-- A write of `DEV_FAB_CFG` (R442). -/
def fabCfgWr (fn : Fn) (v : Word) (s : State) : State :=
  if fabEn s then accessErr s fn (devReg 0x4800)
  else if !siteOk v then s
  else
    let s := rset s (devReg 0x4800) (v &&& 0xC000FF700000FFFF)
    if bit v 63 then measFabric s else s

def execDevFabCfgWrite (fn : Fn) (v : BitVec 64) (s : State) : Host.Outcome State Fault Refusal :=
  hostPf fn (devReg 0x4800) v (fabCfgWr fn v) s

/-- Some granule table entry has MIRROR 1. -/
def anyMirror (s : State) : Bool := s.gt.any (fun p => gtValid p.2 && gtMirror p.2)

/-- A write of `DEV_PAIR_CFG` (R448, R454). A mode whose feature is not in effect is refused. -/
def pairCfgWr (fn : Fn) (v : Word) (s : State) : State :=
  let old := pairCfg s
  let mode := if bits v 63 62 = 3 then bits old 63 62 else bits v 63 62
  let us := if 10 ≤ bits v 19 0 ∧ bits v 19 0 ≤ 1000000 then bits v 19 0 else bits old 19 0
  let leaves := (bits old 63 62 = 1 ∨ s.pair.mode = 1) ∧ mode ≠ 1 ∧ anyMirror s
  let absent := (mode = 1 ∧ featureVer s.fw 5 = 0) ∨ (mode = 2 ∧ featureVer s.fw 6 = 0)
  if leaves ∨ absent then accessErr s fn (devReg 0x4808)
  else
    let s := rset s (devReg 0x4808) (at_ mode 62 ||| (v &&& 0x3000000000000000) ||| at_ us 0)
    let s := { s with pair := { s.pair with isolated := false } }
    let agreed := match s.pair.partner with | some w => decide (bits w 1 0 = mode) | none => false
    let s := if s.pair.st = 2 ∧ !agreed then s else { s with pair := { s.pair with mode := BitVec.ofNat 2 mode } }
    if mode ≠ 0 ∧ bits old 63 62 = 0 then measFabric s else s

def execDevPairCfgWrite (fn : Fn) (v : BitVec 64) (s : State) : Host.Outcome State Fault Refusal :=
  hostPf fn (devReg 0x4808) v (pairCfgWr fn v) s

/-! ## The pair (R448-R457) -/

/-- Sites of the configured fabric. -/
def siteCount (s : State) : Nat := dimSize s 0 * dimSize s 1 * dimSize s 2

/-- A PAIR packet of the partner as kept: MODE [1:0], ROLE [2], sizes [15:4]. -/
def partnerWord (m : PairMsg) : Word := at_ m.mode.toNat 0 ||| at_ (b2n m.role) 2 ||| at_ m.size.toNat 4

/-- MODE and sizes agree and, in MIRRORED, the ROLEs differ (R448). -/
def pairMatches (s : State) (m : PairMsg) : Bool :=
  decide (bits (pairCfg s) 63 62 = m.mode.toNat) && m.size == fabSize s
    && (m.mode != 1 || m.role != isStandby s)

/-- PAIR_PACKET_RECEIVE (R448, R457). A pair that joins for the first time, with no granule mirrored yet, mirrors from then on. -/
def pairHeard (s : State) (m : PairMsg) : State :=
  let s := { s with pair := { s.pair with lastHeard := s.devTime, partner := some (partnerWord m), isolated := false } }
  let st := s.pair.st
  if st = 2 ∨ st = 5 then
    if bits (pairCfg s) 63 62 = m.mode.toNat then { s with pair := { s.pair with mode := m.mode } } else s
  else if pairMatches s m then
    let first := decide (st ≤ 1) && m.mode == 1 && !anyMirror s && s.pair.mir == 0
    { s with pair := { s.pair with
      st := 2, detail := 0, mode := m.mode, viaTorus := !mirrorOn s,
      mir := if first then 1 else s.pair.mir, unmirrored := if first then 0 else s.pair.unmirrored } }
  else { s with pair := { s.pair with st := 1, detail := 0xA4, status := 0x0B } }

def execPairPacketReceive (m : PairMsg) (s : State) : Host.Outcome State Fault Refusal :=
  if working s ∧ (mirrorOn s ∨ anyTorus s) then .next (pairHeard s m) else .next s

/-- PAIR_HEARTBEAT (R448, R449): every 1 µs over the Mirror link, else every 10 µs over the torus. -/
def execPairHeartbeat (s : State) : Host.Outcome State Fault Refusal :=
  let gap := (s.devTime - s.pair.beatAt).toNat
  if !working s ∨ !(s.pair.st == 1 || s.pair.st == 2 || s.pair.st == 5) then .next s
  else if mirrorOn s then
    (if gap ≥ 1000 then .next { s with pair := { s.pair with beatAt := s.devTime, viaTorus := false } } else .next s)
  else if gap ≥ 10000 then .next { s with pair := { s.pair with beatAt := s.devTime, viaTorus := true } }
  else .next s

/-- MIRROR_LOST_NOTICE (R451): the STANDBY member marks its mirror LOST and answers. -/
def execMirrorLostNotice (s : State) : Host.Outcome State Fault Refusal :=
  if working s ∧ (s.pair.st = 2 ∨ s.pair.st = 5) then
    let s := { s with pair := { s.pair with lastHeard := s.devTime } }
    .next (if mirrored s && isStandby s then { s with pair := { s.pair with mir := 2 } } else s)
  else .next s

/-- MIRROR_LOST_REPEAT (R451): the notice goes out again every 10 µs. -/
def execMirrorLostRepeat (s : State) : Host.Outcome State Fault Refusal :=
  if s.pair.holding ∧ (s.devTime - s.pair.noticeAt).toNat ≥ 10000 then
    .next { s with pair := { s.pair with noticeAt := s.devTime } }
  else .next s

/-- A command of the pair manager is complete. -/
def pairDone (s : State) (st dt : BitVec 8) : State :=
  { s with pair := { s.pair with busy := false, status := st, detail := dt } }

/-- MIRROR_LOST_ACK (R451): the mirror is LOST, and held writes complete locally. A RESYNC under way ends with it. -/
def execMirrorLostAck (s : State) : Host.Outcome State Fault Refusal :=
  if !s.pair.holding then .next s
  else
    let s := { s with pair := { s.pair with lastHeard := s.devTime } }
    let s := if s.pair.st = 5 then pairDone { s with pair := { s.pair with st := 2 } } 0x01 0 else s
    .next (settle (mirrorIsLost s))

/-- Launches whose closure held Facets of a device (R452). -/
def launchesOver (s : State) (dev : BitVec 16) : List Launch :=
  s.launches.filter (fun l => l.counts.any (fun c => udDev c.1 == dev) || (closure s l.d.target).any (fun u => udDev u == dev))

/-- The launches of a list are aborted with PARTNER_LOST. -/
def abortAll (s : State) (ls : List Launch) : State :=
  ls.foldl (fun s l => match getLaunch s l.num with | some l => abortLaunch s l 0xA0 | none => s) s

/-- The lost device leaves every closure, launch, QP and grant (R452). -/
def dropPartner (s : State) (dev : BitVec 16) : State :=
  let s := abortAll s (launchesOver s dev)
  let s := { s with comps := s.comps.map (fun p => (p.1, { p.2 with
      members := p.2.members.filter (fun m => !(m.remote && m.home == dev)),
      exported := if p.2.exported.any (fun g => g.2 == dev) then none else p.2.exported,
      imports := p.2.imports.filter (· != dev) })) }
  ((qps s).filter (fun e => qpPeerDev e.2 == dev)).foldl (fun s e => loseQp s e.1) s

/-- Instances that hold a mirrored granule, with how many. -/
def mirrorHolders (s : State) : List (Vi × Nat) :=
  ((List.range 256).map (fun v => (BitVec.ofNat 8 v,
      (s.gt.filter (fun p => decide (p.1 / 4096 = v) && gtValid p.2 && gtMirror p.2)).length))).filter (fun e => decide (e.2 > 0))

/-- The takeover (R455). -/
def takeOver (s : State) : State :=
  let held := mirrorHolders s
  let s := { s with gt := s.gt.map (fun p => (p.1, setBits (setBits p.2 59 59 0) 43 32 0)) }
  let s := rset s (devReg 0x4808) (setBits (pairCfg s) 61 61 0)
  let s := { s with pair := { s.pair with mir := 0, st := 4, holding := false, resyncAt := none } }
  let s := releaseHeld (ackWrites s (fun _ => true))
  held.foldl (fun s e => raiseErr s { cause := 0x11, sev := 2, vi := some e.1, arg0 := BitVec.ofNat 64 e.2 }) s

/-- The partner is declared lost (R449, R452-R454, R456). A RESYNC in progress ends with ABORTED_RESET and no detail: PARTNER_LOST of *Pair detail
codes* is for launch records (DESIGN CHOICE, Assumption 33). -/
def losePartner (s : State) : State :=
  let wasActive := s.pair.mir == 1 && s.pair.resyncAt.isNone
  let s := if s.pair.st = 5 then pairDone s 0x02 0 else s
  let s := { s with pair := { s.pair with st := 3, mirAtLoss := wasActive, partner := none, resyncAt := none } }
  let s := if mirrored s && !isStandby s then mirrorIsLost s else s
  let s := dropPartner s (partnerDev s)
  let auto := bit (pairCfg s) 60 && decide (siteCount s > 1)
  if !mirrored s || !auto then s
  else if !isStandby s then
    if anyTorus s then s
    else
      let s := abortAll s (s.launches.filter (fun l => holdsMirror s l.vi))
      { s with pair := { s.pair with isolated := true } }
  else if anyTorus s && wasActive then takeOver s
  else s

/-- PARTNER_LOST (R449): the declaration follows the nanosecond it falls due in, so that a PAIR packet of that nanosecond wins. -/
def execPartnerLost (s : State) : Host.Outcome State Fault Refusal :=
  if working s ∧ (s.pair.st = 2 ∨ s.pair.st = 5) ∧ (s.devTime - s.pair.lastHeard).toNat > bits (pairCfg s) 19 0 * 1000 then
    .next (settle (losePartner s))
  else .next s

/-! ## Commands of the pair manager -/

/-- A write of `DEV_PAIR_CMD`: OP 1 TAKEOVER, 2 RESYNC. -/
def pairCmdWr (v : Word) (s : State) : State :=
  let op := bits v 3 0
  let s := if op = 0 ∨ op > 2 then s else rset s (devReg 0x4810) (at_ op 0)
  if op = 0 ∨ op > 2 then s
  else if s.pair.busy then { s with pair := { s.pair with ovr := true } }
  else if op = 1 then
    if bits (pairCfg s) 63 62 ≠ 1 ∨ !isStandby s then pairDone s 0x0B 0xA1
    else if s.pair.st ≠ 3 then pairDone s 0x01 0xA3
    else if !s.pair.mirAtLoss then pairDone s 0x08 0xA2
    else pairDone (takeOver s) 0 0
  else if isStandby s then pairDone s 0x08 0xA2
  else if !mirrored s then pairDone s 0x0B 0
  else if s.pair.st ≠ 2 ∨ !mirrorOn s ∨ s.pair.holding then pairDone s 0x01 0
  else { s with pair := { s.pair with busy := true, st := 5, resyncAt := some 0, resyncLeft := (mirrorHolders s).foldl (fun a e => a + e.2) 0 } }

/-- TAKEOVER (R455). -/
def execTakeover (fn : Fn) (s : State) : Host.Outcome State Fault Refusal := hostPf fn (devReg 0x4810) 1 (pairCmdWr 1) s
/-- RESYNC (R456). -/
def execResync (fn : Fn) (s : State) : Host.Outcome State Fault Refusal := hostPf fn (devReg 0x4810) 2 (pairCmdWr 2) s

/-! ## What a Barvar link sends next (R397, R437, R438, R456) -/

/-- Physical granules whose entry has MIRROR 1, in ascending order. -/
def mirrorGrans (s : State) : List Nat :=
  ((s.gran.filter (fun p => match mapOf s p.1 with | some (_, e) => gtMirror e | none => false)).map (·.1)).mergeSort (fun a b => decide (a ≤ b))

/-- The next page a RESYNC copies, from page `at0` on. -/
def resyncNext (s : State) (at0 : Nat) : Option Nat :=
  ((mirrorGrans s).find? (fun g => decide (g * 16384 + 16383 ≥ at0))).map (fun g => Nat.max at0 (g * 16384))

/-- A page is copied (R456): its bytes go out as MIRROR_WR packets, then its poisoned blocks as markers; from here on, writes to it are
mirrored behind them. -/
def resyncPage (s : State) (page : Nat) : State :=
  let pa := page * 65536
  let dst := match mapOf s (page / 16384) with | some (_, e) => gtMpgran e * 2 ^ 30 + pa % 2 ^ 30 | none => pa
  let bad := (List.range 1024).filter (fun i => s.poison.contains (pa / 64 + i))
  let s := mirrorCut s pa dst 65536 false (s.mem.bytes pa 65536) .partner 17
  let s := bad.foldl (fun s i => mirrorSend s (pa + 64 * i) (dst + 64 * i) 64 true [] .partner) s
  { s with pair := { s.pair with
    resyncAt := some (page + 1), resyncLeft := ((mirrorGrans s).filter (fun g => decide (g * 16384 + 16384 > page + 1))).length } }

/-- The Mirror link with nothing of its own to send takes the next page of a RESYNC. -/
def resyncTurn (s : State) (port : Port) : State :=
  match s.pair.resyncAt with
  | none => s
  | some n =>
    if port.val ≠ 7 ∨ s.pair.holding ∨ (getPhy s port).queue.any (fun x => x.inp.isNone) ∨ s.linkOut.any (fun x => x.2.ty == 3) then s
    else match resyncNext s n with | some p => resyncPage s p | none => s

/-- The packets of the device's own take their places at the links. Mirrored writes and their acknowledgements wait for the Mirror link. -/
def inject (s : State) : State :=
  let waits (x : Option Vi × LinkPkt) : Bool := (x.2.ty == 3 || x.2.ty == 4) && !mirrorOn s
  (s.linkOut.filter (fun x => !waits x)).foldl (fun s x => forward s none x.1 x.2) { s with linkOut := s.linkOut.filter waits }

/-- The first packet of a side that its channel's credit and the retry buffer admit; packets of one channel keep their order. `seen` are the
channels passed. -/
def firstReady (s : State) (port : Port) : List (BitVec 4) → List LinkOut → Option LinkOut
  | _, [] => none
  | seen, x :: r =>
    if !seen.contains x.pkt.vc && decide (creditOf s port x.pkt.vc ≥ pktUnits x.pkt) && retryRoom (getPhy s port) x.pkt then some x
    else firstReady s port (x.pkt.vc :: seen) r

/-- Units of 256 bytes of a packet (R397). -/
def linkUnits (p : LinkPkt) : Nat := (20 + p.body.length + 255) / 256

/-- What the link sends next, and the units counted for the two sides (R397): while both wait, the side that has had less for its weight,
transit first; a side with nothing ready gives up its turn. -/
def linkPick (s : State) (port : Port) : Option (LinkOut × (Nat × Nat)) :=
  let h := getPhy s port
  let w := rget s (irsReg port 0xA00)
  let wt := Nat.max 1 (bits w 9 0)
  let wl := Nat.max 1 (bits w 25 16)
  match firstReady s port [] (h.queue.filter (·.inp.isSome)), firstReady s port [] (h.queue.filter (·.inp.isNone)) with
  | none, none => none
  | some t, none => some (t, (0, 0))
  | none, some l => some (l, (0, 0))
  | some t, some l =>
    if h.served.1 * wl ≤ h.served.2 * wt then some (t, (h.served.1 + linkUnits t.pkt, h.served.2))
    else some (l, (h.served.1, h.served.2 + linkUnits l.pkt))

/-- A Barvar link starts its next packet: it takes an LSEQ and credit and stays in the retry buffer (R437, R438). -/
def linkTransmit (s : State) (port : Port) : State :=
  if !linkOn s port || !working s then s
  else
    let s := inject (resyncTurn s port)
    match linkPick s port with
    | none => s
    | some (x, n) =>
      let h := getPhy s port
      let v := x.pkt.vc.toNat
      setPhy s port { h with
        queue := h.queue.erase x, retry := h.retry ++ [{ x.pkt with lseq := h.txSeq }], txSeq := h.txSeq + 1, served := n
        credit := Vector.ofFn (fun i => if i.val = v then h.credit[i] - pktUnits x.pkt else h.credit[i]) }

/-- FRAME_TRANSMIT_START (R376, R397, R492): an idle MAC takes the frame Iris chooses, a Barvar link its next packet; a port whose active
association is exhausted holds its frames (R493). -/
def execFrameTransmitStart (port : Port) (s : State) : Host.Outcome State Fault Refusal :=
  if portUse s port ≥ 2 then .next (linkTransmit s port)
  else if !msecReady s port then .next s
  else
    let idle := (getIris s port).tx.isNone
    let s := transmitStart s port
    .next (if idle && (getIris s port).tx.isSome then msecSend s port else s)

/-- Every page of a RESYNC is copied and acknowledged. -/
def resyncDone (s : State) : Bool :=
  (match s.pair.resyncAt with | some n => (resyncNext s n).isNone | none => false) && !s.pair.out.any (fun m => m.writer == .partner)

/-- RESYNC_COMPLETE (R456): the last page is copied; the mirror is ACTIVE on both members. -/
def execResyncComplete (s : State) : Host.Outcome State Fault Refusal :=
  if s.pair.st = 5 ∧ mirrorOn s ∧ !s.pair.holding ∧ resyncDone s then
    .next (pairDone { s with pair := { s.pair with st := 2, mir := 1, unmirrored := 0, resyncAt := none, resyncLeft := 0 } } 0 0)
  else if s.pair.st = 2 ∧ mirrored s ∧ isStandby s ∧ mirrorOn s then
    .next { s with pair := { s.pair with mir := 1, unmirrored := 0 } }
  else .next s

end Sys2Proof.Machine
end

