-- ==== Sys2Proof/Machine/Snapshot.lean ====
section
/-! DEFINITION. Checkpoint and restore (R458-R479): the snapshot engine's commands, copies, verification, sealing and restores. -/

namespace Sys2Proof.Machine

/-! ## Registers of the snapshot block -/

def snpStat : Nat := 0xD00010
def getSnap (s : State) (vi : Vi) : Option Snap := tget? s.snaps vi.toNat
def setSnap (s : State) (x : Snap) : State := { s with snaps := tset s.snaps x.vi.toNat x }
/-- Operations in progress (R459). -/
def snapsLive (s : State) : Nat := (s.snaps.filter (fun e => e.2.st != 0)).length
/-- An operation of the instance is in progress. -/
def snapLive (s : State) (vi : Vi) : Bool := ((getSnap s vi).map (fun x => x.st != 0)).getD false
/-- `SNP_PROG` of the selected instance. -/
def snpProg (s : State) : Word :=
  match getSnap s (BitVec.ofNat 8 (bits (rget s 0xD00018) 7 0)) with
  | none => 0
  | some x => at_ x.st.toNat 60 ||| at_ (x.todo.length % 2 ^ 26) 34 ||| at_ (sat 1048575 x.staged.length) 14
      ||| at_ (sat 16383 (s.heldW.filter (fun h => guarded s h.page)).length) 0
/-- `SNP_GUARD` of the selected instance. -/
def snpGuard (s : State) : Word :=
  match getSnap s (BitVec.ofNat 8 (bits (rget s 0xD00018) 7 0)) with
  | none => 0
  | some x => at_ (b2n x.oooWrap) 48 ||| at_ x.ooo.toNat 0

/-! ## Ending an operation -/

/-- The record of an operation: QUEUE 0xFFFE, DETAIL the USER value (R468, R469). -/
def snapRecord (s : State) (x : Snap) (status dcode : BitVec 8) (bytes : Nat) : State :=
  complete s x.vi x.p.cq.toNat ⟨status, 0xFFFE, dcode, 0, BitVec.ofNat 64 bytes, x.p.user⟩

/-- Local pages an operation's guard bits still hold (R469). -/
def pagesOf (x : Snap) : List Nat :=
  x.todo.map (fun k => ((x.grans.map (·.pgran)).getD (k / 16384) 0) * 16384 + k % 16384)

/-- The operation is over: its guard bits clear, so that held writes are performed (R469). -/
def snapEnd (s : State) (x : Snap) : State :=
  let s := setSnap s { x with st := 0, todo := [], staged := [] }
  if x.st = 3 then (pagesOf x).foldl clearGuard s else s

/-- An operation fails with its record (R469, R475). -/
def snapFail (s : State) (x : Snap) (status dcode : BitVec 8) : State :=
  snapRecord (snapEnd s x) x status dcode (65536 * x.verified)

/-! ## Shard layout (R470) -/

/-- Bytes of a shard of G granules, from its header to the end of its trailer. -/
def shardLen (g : Nat) : Nat := 0x1000 + (8 * g + 4095) / 4096 * 4096 + 32 * 16384 * g + 65536 * 16384 * g + 4096

/-- Bytes filled up with zeros to a multiple of 4 KiB. -/
def padPage (b : List Byte) : List Byte := b ++ List.replicate ((4096 - b.length % 4096) % 4096) 0

/-- A header or trailer page: its fields, zeros, and the CRC of bytes 0x000 to 0xFF7 (R470). -/
def crcPage (b : List Byte) : List Byte :=
  let b := b ++ List.replicate (0xFF8 - b.length) 0
  b ++ toBytes 8 (crc32c b)

/-- The shard header (R470). -/
def shardHeader (s : State) (x : Snap) : List Byte :=
  let g := x.grans.length
  crcPage (toBytes 8 (0x48534C48 + 2 ^ 32) ++ toBytes 8 x.p.step.toNat ++ toBytes 8 x.p.setId.toNat
    ++ toBytes 8 (x.p.shard.toNat + x.p.shards.toNat * 2 ^ 16 + x.vi.toNat * 2 ^ 32 + b2n x.p.enc * 2 ^ 40
        + (if x.p.enc then x.p.keyslot.toNat else 0) * 2 ^ 48)
    ++ toBytes 8 x.p.shape.toNat ++ toBytes 8 (ownDev s).toNat ++ toBytes 8 (x.ivbase.toNat + g * 2 ^ 32) ++ toBytes 8 x.armed.toNat
    ++ toBytes 8 Config.serial.toNat ++ toBytes 8 (shardLen g))

/-- The directory. -/
def shardDir (x : Snap) : List Byte :=
  padPage (x.grans.flatMap (fun g => toBytes 8 (g.index + b2n g.place * 2 ^ 12 + b2n g.mirror * 2 ^ 13)))

/-- The page table: CRC, POISON, PIDX and TAG of each page. -/
def shardTable (x : Snap) : List Byte :=
  (List.range (16384 * x.grans.length)).flatMap (fun k =>
    let (c, i, t) := tget x.table k ((0 : BitVec 32), (none : Option Nat), (0 : BitVec 128))
    toBytes 8 (c.toNat + (match i with | some n => 2 ^ 32 + n * 2 ^ 48 | none => 0)) ++ toBytes 8 0 ++ toBytes 16 t.toNat)

/-- The shard trailer. -/
def shardTrailer (s : State) (x : Snap) : List Byte :=
  crcPage (toBytes 8 0x54534C48 ++ toBytes 8 x.p.step.toNat ++ toBytes 8 x.p.setId.toNat ++ toBytes 8 x.p.shard.toNat
    ++ toBytes 8 (crc32c (shardTable x)) ++ toBytes 8 x.poisons.length ++ toBytes 8 s.devTime.toNat)

/-- The poison table: bit b of an entry marks poisoned block b of its page (R471). -/
def shardPoison (x : Snap) : List Byte := padPage (x.poisons.flatMap (fun l => toBytes 128 (l.foldl (fun a b => a + 2 ^ b) 0)))

/-- The shard stands complete on its target (R468). -/
def sealSnap (s : State) (x : Snap) : Snap :=
  { x with head := shardHeader s x ++ shardDir x ++ shardTable x, tail := shardTrailer s x ++ shardPoison x }

/-! ## Starting a snapshot (R460, R461) -/

def blkWord (b : List Byte) (i : Nat) : Word := BitVec.ofNat 64 (ofBytes ((b.drop (8 * i)).take 8))

/-- The fields of a snapshot parameter block. -/
def snapPar (b : List Byte) : SnapPar :=
  let w := blkWord b
  { tkind := BitVec.ofNat 2 (bits (w 0) 1 0), enc := bit (w 0) 2, map := BitVec.ofNat 3 (bits (w 0) 10 8),
    keyslot := BitVec.ofNat 8 (bits (w 0) 23 16), qp := w 1, toff := w 2, rkey := BitVec.ofNat 48 (bits (w 3) 47 0), step := w 4,
    setId := w 5, shard := BitVec.ofNat 16 (bits (w 6) 15 0), shards := BitVec.ofNat 16 (bits (w 6) 31 16), shape := w 7,
    startQ := BitVec.ofNat 16 (bits (w 8) 63 48), startAt := BitVec.ofNat 48 (bits (w 8) 47 0), startEn := bit (w 9) 0,
    stageFirst := BitVec.ofNat 12 (bits (w 10) 11 0), stageCount := BitVec.ofNat 6 (bits (w 10) 21 16),
    cq := BitVec.ofNat 4 (bits (w 11) 3 0), user := BitVec.ofNat 32 (bits (w 11) 63 32) }

/-- The block holds no reserved value and no non-zero unused field. -/
def snapBlockOk (b : List Byte) : Bool :=
  let w := blkWord b
  let p := snapPar b
  (p.tkind == 1 || p.tkind == 2) && decide (bits (w 0) 7 3 = 0) && decide (bits (w 0) 15 11 = 0) && decide (bits (w 0) 63 24 = 0)
    && decide (bits (w 3) 63 48 = 0) && decide (bits (w 6) 63 32 = 0) && decide (bits (w 9) 63 1 = 0)
    && decide (bits (w 10) 15 12 = 0) && decide (bits (w 10) 63 22 = 0) && decide (bits (w 11) 31 4 = 0)
    && (List.range 4).all (fun i => w (12 + i) == 0)
    && decide (1 ≤ p.shards.toNat) && decide (p.shards.toNat ≤ 4096) && decide (p.shard.toNat < p.shards.toNat)
    && decide (p.stageCount ≠ 0) && (!p.startEn || decide (p.startQ.toNat ≤ 15))
    && (p.tkind == 1 || decide (p.toff.toNat % 4096 = 0))

/-- The instance's granules with SNAP 1, in ascending index (R462). -/
def snapGrans (s : State) (vi : Vi) : List SnapGran :=
  (s.gt.filter (fun e => decide (e.1 / 4096 = vi.toNat) && gtValid e.2 && gtSnap e.2)).map (fun e =>
    ⟨e.1 % 4096, gtPgran e.2, rowIsSpread s (gtPgran e.2 / 32), gtMirror e.2⟩)

/-- The staging granules are valid with RD and WR and have SNAP 0 (R461). -/
def stageOk (s : State) (vi : Vi) (p : SnapPar) : Bool :=
  (List.range p.stageCount.toNat).all (fun j =>
    let i := p.stageFirst.toNat + j
    decide (i < 4096) && permits (gtEntry s vi i) .rdwr && !gtSnap (gtEntry s vi i))

/-- The QP of a REMOTE operation is a CONNECTED end of the instance. -/
def snapQp (s : State) (vi : Vi) (h : Word) : Bool :=
  match getQp s (bits h 23 0) with
  | some q => q.owner == vi && q.st == 2 && decide (q.gen.toNat = bits h 39 24)
  | none => false

/-- The target's part of R461. `fits` is the far device's answer for a region of another device. -/
def targetCheck (s : State) (vi : Vi) (p : SnapPar) (len : Nat) (fits : Bool) : BitVec 8 × BitVec 8 :=
  if p.tkind = 1 then
    let m := stgMap s vi p.map.toNat
    let cfg := m.getD 0 0
    let bs := bits (rget s (stgTgtReg (bits cfg 13 8))) 47 32
    if !bit cfg 0 ∨ !bit cfg 1 ∨ p.toff.toNat * 2 ^ bs + len > (m.getD 2 0).toNat * 2 ^ bs then (0x05, 0xB3)
    else if bs > 12 then (0x0B, 0xB1)
    else (0, 0)
  else if !snapQp s vi p.qp then (0x0B, 0xB1)
  else if !fits then (0x05, 0xB3) else (0, 0)

/-- The key of an encrypted snapshot (R494, R496). -/
def snapKey (s : State) (vi : Vi) (p : SnapPar) : BitVec 8 × BitVec 8 :=
  if !p.enc then (0, 0)
  else match keyRefused s vi p.keyslot true with
    | some r => r
    | none => if ((tget? s.keys p.keyslot.toNat).map (·.iv)).getD 0 ≥ 2 ^ 32 then (0x0C, 0xC2) else (0, 0)

/-- A PF reads the parameter block at `SNP_ARG` in the instance's memory. -/
def snapBlock (s : State) (vi : Vi) (n : Nat) : State × Except (BitVec 8 × BitVec 8) (List Byte) :=
  match rangeRead s vi (rget s 0xD00008) n [] with
  | none => (s, .error (0x05, 0))
  | some (s, b, p) => if p then (s, .error (0x0A, 0)) else (s, .ok b)

/-- SNAPSHOT (R461): refused, or accepted into GATED or ARMING. -/
def snapStart (s : State) (fn : Fn) (vi : Vi) (fits : Bool) : State × (BitVec 8 × BitVec 8) :=
  if featureVer s.fw 8 = 0 then (s, 0x0B, 0)
  else if !samePort fn vi then (s, 0x0B, 0xB1)
  else match snapBlock s vi 128 with
    | (s, .error r) => (s, r)
    | (s, .ok b) =>
      let p := snapPar b
      let g := (snapGrans s vi).length
      let r := firstFail [
        if snapBlockOk b then (0, 0) else (0x0B, 0xB1),
        if stageOk s vi p then (0, 0) else (0x05, 0xB2),
        if g = 0 then (0x0B, 0xB1) else (0, 0),
        targetCheck s vi p (shardLen g) fits,
        if snapLive s vi || decide (snapsLive s ≥ 16) then (0x01, 0xB0) else (0, 0),
        snapKey s vi p]
      if r.1 = 0 then (setSnap s { vi := vi, st := if p.startEn then 1 else 2, p := p }, 0, 0) else (s, r)

/-! ## Restore (R473) -/

/-- The fields of a restore parameter block. -/
def restorePar (vi : Vi) (b : List Byte) : Snap :=
  let w := blkWord b
  { vi := vi, st := 5, catCount := bits (w 0) 8 0, catalogue := w 1, listAt := w 2, stepMax := w 4,
    p := { shard := BitVec.ofNat 16 (bits (w 0) 31 16), shape := w 3, cq := BitVec.ofNat 4 (bits (w 5) 3 0),
           user := BitVec.ofNat 32 (bits (w 5) 63 32) } }

def restoreBlockOk (b : List Byte) : Bool :=
  let w := blkWord b
  let x := restorePar 0 b
  decide (1 ≤ x.catCount) && decide (x.catCount ≤ 256) && decide (bits (w 0) 15 9 = 0) && decide (bits (w 0) 63 32 = 0)
    && decide (x.catalogue.toNat % 64 = 0) && decide (x.listAt.toNat % 64 = 0) && decide (bits (w 5) 31 4 = 0)

/-- The instance has a launch, or descriptors taken and not complete (R473). -/
def viBusy (s : State) (vi : Vi) : Bool :=
  s.launches.any (fun l => l.vi == vi) || (List.range 16).any (fun q => decide ((getSq s vi q).taken ≠ 0))

/-- RESTORE (R473): refused, or accepted into RESTORING. -/
def restoreStart (s : State) (fn : Fn) (vi : Vi) : State × (BitVec 8 × BitVec 8) :=
  if featureVer s.fw 8 = 0 then (s, 0x0B, 0)
  else if !samePort fn vi then (s, 0x0B, 0xB1)
  else match snapBlock s vi 48 with
    | (s, .error r) => (s, r)
    | (s, .ok b) =>
      if !restoreBlockOk b then (s, 0x0B, 0xB1)
      else if viBusy s vi then (s, 0x01, 0xBC)
      else if snapLive s vi || decide (snapsLive s ≥ 16) then (s, 0x01, 0xB0)
      else (setSnap s (restorePar vi b), 0, 0)

/-- ABORT (R469, R479): any operation of the instance ends. -/
def snapAbort (s : State) (fn : Fn) (vi : Vi) : State × (BitVec 8 × BitVec 8) :=
  if !samePort fn vi then (s, 0x0B, 0xB1)
  else match getSnap s vi with
    | some x => if x.st = 0 then (s, 0, 0) else (snapFail s x 0x02 0xBD, 0, 0)
    | none => (s, 0, 0)

/-- A write of `SNP_CMD`; each command is checked at once. -/
def snpCmdWr (fn : Fn) (fits : Bool) (v : Word) (s : State) : State :=
  let s := rset s 0xD00000 (opKept (rget s 0xD00000) (v &&& 0xFF0F) 3)
  let vi : Vi := BitVec.ofNat 8 (bits v 15 8)
  let op := bits v 3 0
  if op = 0 then s
  else if statBusy s snpStat then statOvr s snpStat
  else
    let (s, r) := if op = 1 then snapStart s fn vi fits else if op = 2 then restoreStart s fn vi
      else if op = 3 then snapAbort s fn vi else (s, 0x0B, 0xB1)
    statDone s snpStat r

def snpWord (vi : Vi) (op : Nat) : Word := at_ vi.toNat 8 ||| at_ op 0

def execSnapshot (fn : Fn) (vi : Vi) (fits : Bool) (s : State) : Host.Outcome State Fault Refusal :=
  hostPf fn 0xD00000 (snpWord vi 1) (snpCmdWr fn fits (snpWord vi 1)) s
def execRestore (fn : Fn) (vi : Vi) (s : State) : Host.Outcome State Fault Refusal :=
  hostPf fn 0xD00000 (snpWord vi 2) (snpCmdWr fn true (snpWord vi 2)) s
def execAbort (fn : Fn) (vi : Vi) (s : State) : Host.Outcome State Fault Refusal :=
  hostPf fn 0xD00000 (snpWord vi 3) (snpCmdWr fn true (snpWord vi 3)) s

/-! ## Arming (R462) -/

/-- The covered granules are fixed, every guard bit of their pages is set, and the key slot's counter gives IVBASE (R462, R472). -/
def snapArm (s : State) (x : Snap) : State :=
  let gs := snapGrans s x.vi
  let pages := gs.flatMap (fun g => (List.range 16384).map (· + g.pgran * 16384))
  let k := tget? s.keys x.p.keyslot.toNat
  let s := match x.p.enc, k with
    | true, some key => { s with keys := tset s.keys x.p.keyslot.toNat { key with iv := key.iv + 1 } }
    | _, _ => s
  setSnap { s with guard := s.guard ++ pages } { x with
    st := 3, grans := gs, armed := s.devTime, todo := List.range (16384 * gs.length),
    ivbase := if x.p.enc then BitVec.ofNat 32 ((k.map (·.iv)).getD 0) else 0 }

/-- SNAPSHOT_ARM (R462). -/
def execSnapshotArm (vi : Vi) (s : State) : Host.Outcome State Fault Refusal :=
  match getSnap s vi with
  | some x => if working s ∧ snapGate s x then .next (snapArm s x) else .next s
  | none => .next s

/-! ## Copy (R464, R466, R471) -/

/-- Local address of a covered page. -/
def pageAddr (x : Snap) (k : Nat) : Nat := ((x.grans.map (·.pgran)).getD (k / 16384) 0) * 2 ^ 30 + k % 16384 * 65536
/-- Instance address of an entry of the staging area. -/
def stageAddr (x : Snap) (e : Nat) : Word := BitVec.ofNat 64 (2 ^ 49 + (x.p.stageFirst.toNat + e / 16384) * 2 ^ 30 + e % 16384 * 65536)

/-- A page's poisoned blocks are written as zero (R471). -/
def zeroBlocks (d : List Byte) (bad : List Nat) : List Byte :=
  d.zipIdx.map (fun p => if bad.contains (p.2 / 64) then 0 else p.1)

/-- A slice copies a page to a free staging entry and then clears its guard bits (R464). A staging granule that no longer takes it fails the
snapshot as STAGE_SHORT (DESIGN CHOICE, Assumption 34). -/
def copyPage (s : State) (x : Snap) (k : Nat) : State :=
  let pa := pageAddr x k
  let e := leastFree (x.staged.map (·.entry))
  let (s, raw, _) := devRead s pa 65536 none
  let bad := (List.range 1024).filter (fun b => s.poison.contains (pa / 64 + b))
  let d := zeroBlocks raw bad
  let n := x.poisons.length
  if bad ≠ [] ∧ n ≥ 65535 then snapFail s x 0x0B 0xB6
  else match instWrite s x.vi (stageAddr x e) d with
  | none => snapFail s x 0x05 0xB2
  | some s =>
    let crc := BitVec.ofNat 32 (crc32c d)
    let ooo := x.todo.head? != some k
    let s := setSnap s { x with
      todo := x.todo.erase k, staged := x.staged ++ [{ page := k, entry := e, crc := crc, poison := bad }],
      table := tset x.table k (crc, if bad = [] then none else some n, 0),
      poisons := if bad = [] then x.poisons else x.poisons ++ [bad],
      ooo := if ooo then x.ooo + 1 else x.ooo, oooWrap := x.oooWrap || (ooo && decide (x.ooo + 1 = 0)) }
    clearGuard s (pageOf pa)

/-- The page may be copied now: next in walk order, or asked for by a controller that holds a write to it (R223, R464). -/
def mayCopy (s : State) (x : Snap) (k : Nat) : Bool :=
  x.st == 3 && x.todo.contains k && decide (x.staged.length < 16384 * x.p.stageCount.toNat)
    && (x.todo.head? == some k || s.heldW.any (fun h => decide (h.page = pageOf (pageAddr x k))))

/-- PAGE_COPY (R464). -/
def execPageCopy (vi : Vi) (page : Nat) (s : State) : Host.Outcome State Fault Refusal :=
  match getSnap s vi with
  | some x => if working s ∧ mayCopy s x page then .next (settle (copyPage s x page)) else .next s
  | none => .next s

/-! ## Verification and sealing (R465, R468) -/

/-- The target of the operation still stands: a REMOTE one needs its QP CONNECTED (R479). -/
def targetUp (s : State) (x : Snap) : Bool := x.p.tkind != 2 || snapQp s x.vi x.p.qp

/-- IV of a page (R472): IVBASE in 4 bytes followed by the page ordinal in 8 bytes. -/
def pageIv (base : BitVec 32) (k : Nat) : BitVec 96 := BitVec.ofNat 96 (base.toNat + k * 2 ^ 32)
/-- Additional authenticated data of a page (R472). -/
def pageAad (x : Snap) (k : Nat) : List Byte :=
  toBytes 8 x.p.setId.toNat ++ toBytes 8 x.p.step.toNat ++ toBytes 8 x.p.shard.toNat ++ toBytes 8 k

/-- TAG of a staged page, zero when the shard is not encrypted. -/
def pageTag (s : State) (x : Snap) (g : Staged) : BitVec 128 :=
  match x.p.enc, tget? s.keys x.p.keyslot.toNat, translate s x.vi (stageAddr x g.entry) 65536 .rd with
  | true, some k, .dev pa _ =>
    Config.gcmTag (BitVec.ofNat 256 (ofBytes k.key)) (pageIv x.ivbase g.page) (pageAad x g.page) (Memory.bytes s.mem pa 65536)
  | _, _, _ => 0

/-- A chunk of staged pages is verified: its entries are free (R465). -/
def chunkDone (s : State) (x : Snap) (mine : List Staged) : State :=
  let left := x.staged.filter (fun g => !mine.contains g)
  setSnap s { x with
    staged := left, verified := x.verified + mine.length,
    table := mine.foldl (fun t g => match tget? t g.page with | some (c, i, _) => tset t g.page (c, i, pageTag s x g) | none => t) x.table,
    st := if x.todo.isEmpty && left.isEmpty then 4 else x.st }

/-- CHUNK_VERIFY (R465): a third mismatch fails the snapshot. -/
def execChunkVerify (vi : Vi) (pages : List Nat) (out : TargetOut) (s : State) : Host.Outcome State Fault Refusal :=
  match getSnap s vi with
  | none => .next s
  | some x =>
    let mine := x.staged.filter (fun g => pages.contains g.page)
    if x.st ≠ 3 ∨ mine.isEmpty ∨ mine.length > 16 then .next s
    else if !targetUp s x then .next (settle (snapFail s x 0x05 0xB4))
    else match out with
      | .failed st => .next (settle (snapFail s x st 0xB4))
      | .ok => .next (chunkDone s x mine)
      | .mismatch =>
        let x' := { x with staged := x.staged.map (fun g => if mine.contains g then { g with fails := g.fails + 1 } else g) }
        if mine.any (fun g => decide (g.fails ≥ 2)) then .next (settle (snapFail s x' 0x05 0xB5)) else .next (setSnap s x')

/-- SNAPSHOT_SEAL (R468): the trailer is written, read back and checked, and the record is written. -/
def execSnapshotSeal (vi : Vi) (out : TargetOut) (s : State) : Host.Outcome State Fault Refusal :=
  match getSnap s vi with
  | none => .next s
  | some x =>
    if x.st ≠ 4 then .next s
    else if !targetUp s x then .next (settle (snapFail s x 0x05 0xB4))
    else match out with
      | .failed st => .next (settle (snapFail s x st 0xB4))
      | .mismatch =>
        if x.sealFails ≥ 2 then .next (settle (snapFail s x 0x05 0xB5)) else .next (setSnap s { x with sealFails := x.sealFails + 1 })
      | .ok => .next (settle (snapRecord (snapEnd s (sealSnap s x)) x 0 0 (shardLen x.grans.length)))

/-! ## Choosing a shard set (R474) -/

/-- Every SHARD of a set is held by a valid entry. -/
def setComplete (l : List CatIn) (step setId : Word) : Bool :=
  let mine := l.filter (fun e => e.trailerOk && e.step == step && e.setId == setId)
  match mine with
  | [] => false
  | e :: _ => (List.range e.shards.toNat).all (fun k => mine.any (fun x => decide (x.shard.toNat = k)))

/-- The latest SEALED of a set's valid entries. -/
def setSealed (l : List CatIn) (step setId : Word) : Nat :=
  ((l.filter (fun e => e.trailerOk && e.step == step && e.setId == setId)).map (fun e => e.sealTime.toNat)).foldl Nat.max 0

/-- The complete set of a step that was sealed last. -/
def bestSet (l : List CatIn) (step : Word) : Option Word :=
  let ids := ((l.filter (fun e => e.step == step)).map (·.setId)).dedup.filter (fun i => setComplete l step i)
  ids.foldl (fun b i => match b with
    | none => some i
    | some j => if setSealed l step i > setSealed l step j then some i else some j) none

/-- The steps found, not above STEP_MAX, latest first. -/
def stepsDown (l : List CatIn) (most : Word) : List Word :=
  ((l.map (·.step)).dedup.filter (fun st => decide (st.toNat ≤ most.toNat))).mergeSort (fun a b => decide (b.toNat ≤ a.toNat))

/-- The step and SET_ID chosen. -/
def chooseSet (l : List CatIn) (most : Word) : Option (Word × Word) :=
  (stepsDown l most).findSome? (fun st => (bestSet l st).map (fun i => (st, i)))

/-- One LIST entry. -/
def listEntry (i : Nat) (e : CatIn) (chosen : Bool) : List Byte :=
  toBytes 8 (i + b2n e.trailerOk * 256 + b2n chosen * 512 + e.shard.toNat * 65536 + e.shards.toNat * 2 ^ 32)
    ++ toBytes 8 e.step.toNat ++ toBytes 8 e.setId.toNat ++ toBytes 8 (if e.trailerOk then e.sealTime.toNat else 0)

/-- The directory fits the instance's table (R475). -/
def dirOk (s : State) (vi : Vi) (dir : List (BitVec 12 × Bool)) : Bool :=
  dir.all (fun d => let e := gtEntry s vi d.1.toNat
    gtValid e && gtWr e && rowIsSpread s (gtPgran e / 32) == d.2)

/-- KEYSLOT of a catalogue entry, read from the instance's memory. -/
def catKey (s : State) (x : Snap) (i : Nat) : BitVec 8 :=
  match rangeRead s x.vi (x.catalogue + BitVec.ofNat 64 (32 * i)) 8 [] with
  | some (_, b, _) => BitVec.ofNat 8 (bits (blkWord b 0) 23 16)
  | none => 0

/-- The chosen shard is checked and its pages are to be read (R475). -/
def restoreFrom (s : State) (x : Snap) (i : Nat) (e : CatIn) : State :=
  let slot := catKey s x i
  let key := if e.enc then keyRefused s x.vi slot false else none
  if !dirOk s x.vi e.dir then snapFail s x 0x0B 0xB9
  else match key with
    | some r => snapFail s x r.1 r.2
    | none =>
      if !e.tableOk then snapFail s x 0x0A 0xBA
      else
        let n := 16384 * e.dir.length
        setSnap s { x with
          dir := e.dir.map (fun d => (d.1.toNat, d.2)), pages := n, todo := List.range n, ivbase := e.ivbase,
          p := { x.p with step := e.step, setId := e.setId, enc := e.enc, keyslot := slot } }

/-- Headers and trailers are read: the set is chosen and the list written (R474). -/
def catalogueRead (s : State) (x : Snap) (found : List CatIn) : State :=
  let all := found.zipIdx.filter (fun p => p.1.hdrOk && p.1.shape == x.p.shape)
  let l := all.map (·.1)
  if l.any (fun e => decide (e.shards.toNat > 16)) then snapFail s x 0x0B 0xB7
  else
    let c := chooseSet l x.stepMax
    let isIn (e : CatIn) : Bool := c == some (e.step, e.setId)
    let bytes := all.flatMap (fun p => listEntry p.2 p.1 (isIn p.1))
    match rangeWrite s x.vi x.listAt bytes with
    | none => snapFail s x 0x05 0xB4
    | some s =>
      match c with
      | none => if (l.map (·.step)).dedup.length ≥ 2 then snapFail s x 0x09 0 else snapFail s x 0x05 0xB8
      | some _ =>
        match all.find? (fun p => isIn p.1 && p.1.trailerOk && p.1.shard == x.p.shard) with
        | none => snapFail s x 0x05 0xB8
        | some (e, i) => restoreFrom s x i e

/-- CATALOGUE_READ_COMPLETE (R474). -/
def execCatalogueReadComplete (vi : Vi) (found : List CatIn) (s : State) : Host.Outcome State Fault Refusal :=
  match getSnap s vi with
  | some x =>
    if x.st = 5 ∧ x.pages = 0 ∧ found.length = x.catCount ∧ working s then .next (settle (catalogueRead s x found)) else .next s
  | none => .next s

/-! ## Restoring pages (R475, R476) -/

/-- Instance address of page k of a restore (R470). -/
def pageInst (x : Snap) (k : Nat) : Word :=
  at_ ((2 ^ 19 + (x.dir.map (·.1)).getD (k / 16384) 0) * 16384 + k % 16384) 16

/-- A page that passed its checks is written to the instance granule, with its poisoned blocks marked. -/
def writePage (s : State) (x : Snap) (k : Nat) (p : PageIn) : Option State :=
  match translate s x.vi (pageInst x k) 65536 .wr with
  | .dev pa m =>
    let s := engAct s x.vi m (.bytes pa (extBytes s p.data pa 65536)) (.engine x.vi)
    some (p.poison.foldl (fun s b => engAct s x.vi m (.mark (pa + 64 * b.toNat) 64) (.engine x.vi)) s)
  | .host _ => none
  | .remote _ _ => none
  | .fault => none

/-- The next page of a restore arrives. -/
def restoreNext (s : State) (x : Snap) (p : PageIn) : State :=
  match x.todo, p.failed with
  | [], _ => s
  | _ :: _, some st => snapFail s x st 0xB4
  | k :: rest, none =>
    if x.p.enc && !p.authOk then snapFail s x 0x05 0xBB
    else if !p.crcOk then snapFail s x 0x0A 0xBA
    else match writePage s x k p with
      | none => snapFail s x 0x0B 0xB9
      | some s =>
        let x := { x with todo := rest, verified := x.verified + 1 }
        if rest.isEmpty then snapRecord (snapEnd s x) x 0 0 (65536 * x.pages) else setSnap s x

/-- RESTORE_PAGE (R475). -/
def execRestorePage (vi : Vi) (p : PageIn) (s : State) : Host.Outcome State Fault Refusal :=
  match getSnap s vi with
  | some x => if x.st = 5 ∧ working s then .next (settle (restoreNext s x p)) else .next s
  | none => .next s

end Sys2Proof.Machine
end

