-- ==== Sys2Proof/Machine/Reset.lean ====
section
/-! DEFINITION. Resets of instances, functions and upstream ports, and the release of an instance (R259, R285-R291, R296, R327, R328,
R578, R612, R614). -/

namespace Sys2Proof.Machine

/-! ## Steps 1 to 6 of an instance reset (R285) -/

/-- The next generation (R261). -/
def nextGen32 (g : BitVec 32) : BitVec 32 := if g = BitVec.allOnes 32 then 1 else g + 1

/-- Every thread of the instance is discarded, handler threads included (step 2). -/
def discardAll (s : State) (vi : Vi) : State :=
  let s := (s.threads.filter (fun p => p.2.vi == vi)).foldl (fun s p => discardThread s (tidOf p.1)) s
  (s.saved.filter (fun x => x.vi == vi)).foldl discardSaved s

/-- The engines stop the instance's descriptors: those not started are gone, data requested from outside will be discarded, writes go on,
and commands at a drive stay mapped (steps 3 to 5, R344). -/
def stopDescs (s : State) (vi : Vi) : State :=
  let gone := s.descs.filter (fun d => d.vi == vi && (d.st == .waiting || d.st == .message))
  let s := { s with descs := (s.descs.filter (fun d => !gone.contains d)).map (fun d => if d.vi = vi then { d with dead := true } else d) }
  modInst s vi (fun i => { i with cntDesc := sat 65535 (i.cntDesc + gone.length) })

/-- A snapshot or restore of the instance ends without a record (R288, R479). -/
def stopSnap (s : State) (vi : Vi) : State :=
  match getSnap s vi with
  | some x => if x.st = 0 then s else snapEnd s x
  | none => s

/-- A reset of an ACTIVE or IDLE instance begins: STATE, generation, threads and engines (steps 1 to 3). `st` is RESETTING, or RELEASING. -/
def resetBegin (s : State) (vi : Vi) (st : BitVec 3) (source : BitVec 4) : State :=
  let s := modInst s vi (fun i => { i with
    st := st, gen := nextGen32 i.gen, fromAct := i.st == 2, rstPhase := 2, rstSrc := source, rstForced := false, rstStart := s.devTime,
    cntDesc := 0, cntReads := 0, cntStale := 0, cntForced := 0 })
  stopSnap (stopDescs (discardAll s vi) vi) vi

/-! ## Steps 7 to 9 -/

/-- Old-generation work of the instance that has not drained: reads and writes of descriptors, held writes, unacknowledged mirrored
writes, and commands at drives (R344). -/
def undrained (s : State) (vi : Vi) : Nat :=
  (s.descs.filter (fun d => d.vi == vi && d.dead && (d.st == .reading || d.st == .writing || d.st == .drive))).length
    + (s.heldW.filter (fun h => h.vi == vi && h.writer != .partner)).length

/-- At 1 ms what remains is force-discarded and counted; commands still open at a drive count too, and stay mapped until they end there
(step 7, R344). -/
def forceDiscard (s : State) (vi : Vi) : State :=
  let n := undrained s vi
  let s := { s with
    descs := s.descs.filter (fun d => !(d.vi == vi && d.dead && (d.st == .reading || d.st == .writing)))
    heldW := s.heldW.filter (fun h => !(h.vi == vi && h.writer != .partner)) }
  let s := finishUnmaps s
  modInst s vi (fun i => { i with rstForced := true, cntForced := sat 65535 n })

/-- Queued frames of the instance's transmit rings leave an Iris. -/
def irisDrop (vi : Vi) (x : Iris) : Iris :=
  let keep : IFrame → Bool := fun f => f.vi != some vi
  { x with
    queues := x.queues.map (fun p => (p.1, p.2.filter keep))
    viSh := x.viSh.map (fun p => (p.1, { p.2 with stage := p.2.stage.filter keep }))
    clSh := x.clSh.map (fun p => (p.1, { p.2 with stage := p.2.stage.filter keep }))
    tx := x.tx.map (fun t => if keep t.1 then t else ({ t.1 with slot := none }, t.2)) }

/-- Frames of the instance queued at every Iris. -/
def irisFrames (s : State) (vi : Vi) : Nat :=
  s.iris.foldl (fun a p =>
    let n (l : List IFrame) : Nat := (l.filter (fun f => f.vi == some vi)).length
    a + p.2.queues.foldl (fun a q => a + n q.2) 0 + p.2.viSh.foldl (fun a q => a + n q.2.stage) 0
      + p.2.clSh.foldl (fun a q => a + n q.2.stage) 0) 0

/-- EN of a register is cleared. -/
def clearEn (s : State) (k : Nat) : State := if bit (rget s k) 63 then rset s k (setBits (rget s k) 63 63 0) else s

/-- Receive, transmit and sample rings and counter samplers of the instance are disabled (step 8, R365, R392). -/
def stopRings (s : State) (vi : Vi) : State :=
  let mine (t : Tab Ring) : Tab Ring := t.map (fun p => if p.1 / 16 = vi.toNat then (p.1, { p.2 with run := false }) else p)
  let s := { s with rx := mine s.rx, tx := mine s.tx, iris := s.iris.map (fun p => (p.1, irisDrop vi p.2)) }
  let s := (List.finRange 12).foldl (fun s p => viCredit s vi p) s
  let s := (List.range 16).foldl (fun s r =>
    clearEn (clearEn s (viReg vi (rxOff r + 8))) (viReg vi (0xC08 + 0x20 * r))) s
  let s := (List.finRange 12).foldl (fun s p =>
    if bit (smpCfg s p) 63 && smpVi (smpCfg s p) == vi then
      clearEn (setIris s p { getIris s p with smpRun := false }) (irsReg p 0x908)
    else s) s
  (List.range 4).foldl (fun s k =>
    let c := 0xC20408 + 0x40 * k
    if bits (rget s c) 55 48 = vi.toNat then clearEn s c else s) s

/-- Packets not yet sent (R433), QP ends and registrations of the old generation are gone; later arrivals find a newer generation (R289). -/
def dropBrm (s : State) (vi : Vi) : State :=
  let s := { s with
    brmOut := s.brmOut.filter (fun o => o.vi != vi), linkOut := s.linkOut.filter (fun o => o.1 != some vi)
    phy := s.phy.map (fun p => (p.1, { p.2 with queue := p.2.queue.filter (fun o => o.vi != some vi) })) }
  let s := ((qps s).filter (fun e => e.2.owner == vi)).foldl (fun s e => freeQp s e.1 e.2) s
  ((regions s).filter (fun e => e.2.owner == vi)).foldl (fun s e => freeCtx s vi e.1) s

/-- The instance's queues after step 8: an SQ starts again at its TAIL, a CQ discards the records it held. -/
def resetQueues (s : State) (vi : Vi) : State :=
  (List.range 16).foldl (fun s q =>
    let x := getSq s vi q
    let c := getCq s vi q
    let s := if x.st = 0 then s
      else setSq s vi q { x with head := x.tail, seq := 0, done := 0, taken := 0, got := [], flight := false, st := if x.st = 3 then 0 else 1 }
    let s := if x.st = 3 then freeQueueCtx s vi false q else s
    if c.st = 0 then s else setCq s vi q { c with st := 1, held := [] }) s

/-- `VI_RST_CNT`. -/
def rstCnt (i : Inst) : Word := at_ i.cntDesc 48 ||| at_ i.cntReads 32 ||| at_ i.cntStale 16 ||| at_ i.cntForced 0

/-- Step 8: queues, launches, accumulator sets, rings, registrations, counters and event pointers are cleared. -/
def resetClear (s : State) (vi : Vi) : State :=
  let waiting := (List.range 16).foldl (fun a q =>
    let x := getSq s vi q
    a + (if x.st = 0 then 0 else (x.tail.toNat + sqSize s vi q - x.head.toNat % sqSize s vi q) % sqSize s vi q)) 0
  let mine := s.launches.filter (fun l => l.vi == vi)
  let n := waiting + mine.length + irisFrames s vi
  let s := mine.foldl dropLaunch s
  let h := 2 ^ 40 + vi.toNat
  let s := { s with
    accs := s.accs.filter (fun p => p.1 / 1024 != h)
    fstore := s.fstore.filter (fun p => p.1 / 1024 != h)
    spill := s.spill.filter (fun p => p.1 != vi)
    cnts := s.cnts.filter (fun p => decide (p.1 / 32 % 256 ≠ vi.toNat))
    smp := s.smp.map (fun (p : Nat × Sampler) =>
      if bits (rget s (0xC20408 + 0x40 * p.1)) 55 48 = vi.toNat then (p.1, { p.2 with run := false }) else p)
    comps := s.comps.map (fun p => if (compEntry s p.1).owner = vi ∧ p.2.st.toNat ≥ 2 then
      (p.1, { p.2 with st := if launchOn s p.1 then 2 else 1 }) else p) }
  let s := resetQueues (stopRings (dropBrm s vi) vi) vi
  modInst s vi (fun i => { i with
    cntDesc := sat 65535 (i.cntDesc + n), tlSeq := 0, produced := 0, retired := 0, nextTake := 0, retMarks := [], causes := [], evq := [],
    heldTraps := [], memPoison := false, hdlSt := 0, hdlStatus := 0, hdlDetail := 0, hdlCause := 0, hdlThread := 0 })

/-- A function's configuration registers return to their reset values; the bus number the host assigned is the switch's (R327). What it
still held for the host belongs to the work that step 1 aborts. -/
def resetCfg (s : State) (fn : Fn) : State :=
  let s := modCfg s fn (fun c => { bus := c.bus })
  { s with
    regs := s.regs.filter (fun p => !(decide (cfgReg fn.toNat 0 ≤ p.1) && decide (p.1 < cfgReg fn.toNat 0x1000)))
    hostHeld := s.hostHeld.filter (fun h => h.1 != fn) }

/-- Every SQ and CQ of the instance is disabled without records, its registers keeping their other fields (R327 step 4). -/
def disableQueues (s : State) (vi : Vi) : State :=
  (List.range 16).foldl (fun s q =>
    let s := if (getSq s vi q).st = 0 then s else freeQueueCtx (setSq s vi q { getSq s vi q with st := 0 }) vi false q
    let s := if (getCq s vi q).st = 0 then s else freeQueueCtx (setCq s vi q { getCq s vi q with st := 0 }) vi true q
    clearEn (clearEn s (sqCfgReg vi q)) (cqCfgReg vi q)) s

/-- The deferred events of a reset are posted in order (R287). -/
def postDeferred (s : State) (vi : Vi) : State :=
  let l := (getInst s vi).deferred
  l.foldl (fun s e => postEvent s vi e) (modInst s vi (fun i => { i with deferred := [] }))

/-- µs since the reset began, saturating. -/
def rstMicros (s : State) (i : Inst) : Nat := sat 65535 ((s.devTime - i.rstStart).toNat / 1000)

/-- Step 9: ACTIVE or IDLE again, RESET_DONE, then LOST, then the events held, and the handler threads. An instance that is being released
stays RELEASING and starts no handler threads, since it ends OFF (DESIGN CHOICE, Assumption 35). -/
def resetFinish (s : State) (vi : Vi) : State :=
  let s := modInst s vi (fun i => { i with
    st := if i.st = 4 then 4 else if i.fromAct then 2 else 1, rstPhase := 0, rstDur := BitVec.ofNat 16 (rstMicros s i) })
  let i := getInst s vi
  let s := writeEvent s vi ⟨9, #v[i.gen.setWidth 64, rstCnt i, at_ i.rstDur.toNat 0 ||| at_ (b2n i.rstForced) 16, 0, 0]⟩
  let s := postDeferred (postLost s vi) vi
  if bit (rget s (viReg vi 0x80)) 0 && (getInst s vi).st != 4 then startHandlers s vi else s

/-- The reset sequence of the instance reaches its end. A RELEASING instance waits for its release; one whose VF was disabled meanwhile
completes its reset and enters RELEASING (R259, R291). -/
def resetEnd (s : State) (vi : Vi) : State :=
  let s := resetClear s vi
  let s := if (getCfg s vi).flr then modCfg (resetCfg (disableQueues s vi) vi) vi (fun c => { c with flr := false }) else s
  let release := (getInst s vi).release
  let s := resetFinish s vi
  if release then resetBegin (modInst s vi (fun i => { i with release := false })) vi 4 4 else s

/-- RESET_DRAIN_COMPLETE (R285 steps 7 to 9). -/
def execResetDrainComplete (vi : Vi) (s : State) : Host.Outcome State Fault Refusal :=
  let i := getInst s vi
  if (i.st = 3 ∨ i.st = 4) ∧ i.rstPhase ≠ 0 ∧ undrained s vi = 0 then .next (settle (resetEnd s vi)) else .next s

/-- RESET_FORCE_TIMEOUT (R285 step 7). -/
def execResetForceTimeout (vi : Vi) (s : State) : Host.Outcome State Fault Refusal :=
  let i := getInst s vi
  if (i.st = 3 ∨ i.st = 4) ∧ i.rstPhase ≠ 0 ∧ (s.devTime - i.rstStart).toNat ≥ 1000000 then
    .next (settle (resetEnd (forceDiscard s vi) vi))
  else .next s

/-- A reset is requested (R286, R291): nothing for an OFF instance, OVR while one is in progress. -/
def resetRequest (s : State) (vi : Vi) (source : BitVec 4) : State :=
  let i := getInst s vi
  if i.st = 0 then s
  else if i.st = 3 ∨ i.st = 4 then modInst s vi (fun i => { i with rstOvr := true })
  else resetBegin s vi 3 source

/-- A write of `VI_RST_CMD` with GO. -/
def rstCmdWr (fn : Fn) (vi : Vi) (v : Word) (s : State) : State :=
  if bit v 0 then resetRequest s vi (if fn = vi then 1 else 2) else s

/-- INSTANCE_RESET (R285). -/
def execInstanceReset (fn : Fn) (vi : Vi) (s : State) : Host.Outcome State Fault Refusal :=
  hostVi fn vi 0x100 1 (rstCmdWr fn vi 1) s

/-! ## Release (R259) -/

/-- Everything the instance holds goes back, and its VI block returns to reset but for the generations. -/
def releaseAll (s : State) (vi : Vi) : State :=
  let groups := (s.grp.filter (fun p => p.2 == vi)).map (·.1)
  let gens := (getInst s vi).gen
  let mineGt := s.gt.filter (fun p => decide (p.1 / 4096 = vi.toNat))
  let grans := mineGt.foldl (fun t p => if gtValid p.2 then tset t (gtPgran p.2) GranSt.scrubbing else t) s.gran
  let ctxs := s.ctxs.filter (fun p => match p.2 with
    | .queue v _ _ => v == vi
    | .flow v _ _ _ => v == vi
    | .qp q => q.owner == vi
    | .region r => r.owner == vi)
  let s := ctxs.foldl (fun s p => freeCtx s vi p.1) s
  { s with
    clu := (s.clu.map (fun p => (p.1, dropHold p.2 vi))).filter (fun p => p.2 != .none)
    syn := s.syn.map (fun p => if groups.contains (p.1 / 64) then
      (p.1, { gen := p.2.gen, lastSkew := p.2.lastSkew, lastMem := p.2.lastMem, late := p.2.late }) else p)
    grp := s.grp.filter (fun p => p.2 != vi)
    gt := s.gt.filter (fun p => decide (p.1 / 4096 ≠ vi.toNat))
    gran := grans
    unmaps := s.unmaps.filter (fun p => p.1 != vi)
    comps := s.comps.map (fun p => if p.1 > 256 ∧ p.2.owner = vi then (p.1, { gen := p.2.gen }) else p)
    keys := s.keys.filter (fun p => p.2.owner != vi)
    sqs := s.sqs.filter (fun p => decide (p.1 / 16 ≠ vi.toNat))
    cqs := s.cqs.filter (fun p => decide (p.1 / 16 ≠ vi.toNat))
    rx := s.rx.filter (fun p => decide (p.1 / 16 ≠ vi.toNat))
    tx := s.tx.filter (fun p => decide (p.1 / 16 ≠ vi.toNat))
    snaps := tdel s.snaps vi.toNat
    regs := s.regs.filter (fun p => !(decide (viReg vi 0 ≤ p.1) && decide (p.1 < viReg vi 0x1000)))
    inst := tset s.inst vi.toNat { gen := gens } }

/-- RELEASE_COMPLETE (R259): the reset sequence of a RELEASING instance has ended; it is OFF. -/
def execReleaseComplete (vi : Vi) (s : State) : Host.Outcome State Fault Refusal :=
  let i := getInst s vi
  if i.st = 4 ∧ i.rstPhase = 0 then
    let s := releaseAll s vi
    .next (settle { s with cfg := if isPf vi then s.cfg else tdel s.cfg vi.toNat })
  else .next s

/-- An enabled VF's instance goes to RELEASING (R286, R291, R296). -/
def startRelease (s : State) (vi : Vi) : State :=
  let i := getInst s vi
  if i.st = 0 ∨ i.st = 4 then s
  else if i.st = 3 then modInst s vi (fun i => { i with release := true })
  else resetBegin s vi 4 4

/-! ## SR-IOV (R296) -/

/-- The VFs of a PF. -/
def vfsOf (fn : Fn) : List Vi := (List.range 127).map (fun k => BitVec.ofNat 8 (128 * portOf fn + k + 1))

/-- VF Enable as written by the host. -/
def vfEnWr (fn : Fn) (v : Bool) (s : State) : State :=
  let c := getCfg s fn
  if v && !c.vfEn then
    let s := modCfg s fn (fun c => { c with vfEn := true })
    ((vfsOf fn).take c.numVfs.toNat).foldl (fun s vi =>
      if (getInst s vi).st = 0 then modInst s vi (fun i => { i with st := 1 }) else s) s
  else if !v && c.vfEn then
    let s := modCfg s fn (fun c => { c with vfEn := false })
    ((vfsOf fn).take c.numVfs.toNat).foldl startRelease s
  else s

/-- NumVFs as written: ignored while VF Enable is 1, kept within the 127 VFs of a port. -/
def numVfsWr (fn : Fn) (n : BitVec 16) (s : State) : State :=
  if (getCfg s fn).vfEn || decide (n.toNat > 127) then s else modCfg s fn (fun c => { c with numVfs := n })

/-- VF_ENABLE (R296): NumVFs, then VF Enable. -/
def execVfEnable (fn : Fn) (n : BitVec 16) (s : State) : Host.Outcome State Fault Refusal :=
  if isPf fn then hostCfg fn (fun s => vfEnWr fn true (numVfsWr fn n s)) s else .next s
/-- VF_DISABLE (R296). -/
def execVfDisable (fn : Fn) (s : State) : Host.Outcome State Fault Refusal :=
  if isPf fn then hostCfg fn (vfEnWr fn false) s else .next s

/-! ## Function Level Reset (R327, R328) -/

/-- The Function Level Reset of a function: its tags are retired silently, its instance is reset with SOURCE 3, and its BARs answer with
Unsupported Request until the sequence ends. A PF's also clears VF Enable and ends its sessions' keys. -/
def flrStart (s : State) (fn : Fn) : State :=
  let s := { s with lateTags := s.lateTags.filter (fun x => x.1 != fn) }
  let s := modCfg s fn (fun c => { c with flr := true, bme := false })
  let s := if isPf fn then flrSecurity (vfEnWr fn false s) (portOf fn) else s
  resetRequest s fn 3

/-- FUNCTION_LEVEL_RESET. -/
def execFunctionLevelReset (fn : Fn) (s : State) : Host.Outcome State Fault Refusal :=
  hostCfg fn (fun s => flrStart s fn) s

/-! ## Upstream and downstream ports (R578, R612, R614) -/

/-- The embedded switch of a port is reset: its downstream PERST# outputs are asserted, their links lost, its configuration at reset. -/
def switchReset (s : State) (port : Nat) : State :=
  let s := (List.finRange 6).foldl (fun s p =>
    if p.val / 3 = port then
      let w : SwPort := tget s.sw p.val {}
      let s := { s with
        boot := { s.boot with downRst := s.boot.downRst.set p true }
        sw := tset s.sw p.val { present := w.present } }
      linkLoss s p.val
    else s) s
  let fns := [3 * port, 3 * port + 1, 3 * port + 2, 6 + port, 8 + port]
  { s with
    sw := tdel (tdel s.sw (6 + port)) (8 + port)
    regs := s.regs.filter (fun p => !fns.any (fun k => decide (cfgReg (256 + k) 0 ≤ p.1) && decide (p.1 < cfgReg (256 + k) 0x1000))) }

/-- UPSTREAM_PORT_RESET (R578): PERST#, Hot Reset or loss of the link. A link that Hot Reset reset is up again at once (DESIGN CHOICE,
Assumption 26). -/
def execUpstreamPortReset (port : Fin 2) (kind : PortRst) (s : State) : Host.Outcome State Fault Refusal :=
  let fn : Fn := BitVec.ofNat 8 (128 * port.val)
  let s1 : State := { s with boot := { s.boot with
    upLink := s.boot.upLink.set port (decide (kind = .hotReset) && s.boot.upLink[port])
    perst := if kind = .perst then s.boot.perst.set port true else s.boot.perst } }
  let s2 : State := { switchReset s1 port.val with links := s.links.set port {} }
  .next (settle (if s2.boot.phase == 8 && s2.drst.phase == 0 then flrStart s2 fn else s2))

/-- PERST_DEASSERT (R612): once CONVERT has ended, the link trains. -/
def execPerstDeassert (port : Fin 2) (s : State) : Host.Outcome State Fault Refusal :=
  let b := { s.boot with perst := s.boot.perst.set port false }
  .next { s with boot := if s.boot.phase ≥ 2 then { b with upLink := b.upLink.set port true } else b }

/-- PRESENCE_DETECT_CHANGE (R330): a device is inserted into a slot. -/
def execPresenceDetectChange (port : Fin 6) (s : State) : Host.Outcome State Fault Refusal :=
  let w : SwPort := tget s.sw port.val {}
  if w.present then .next s
  else .next (trainPort { s with sw := tset s.sw port.val { w with present := true, pdc := true } } port.val)

end Sys2Proof.Machine
end

