-- ==== Sys2Proof/Machine/Power.lean ====
section
/-! DEFINITION. Power states, cluster frequencies, and the Loupe (R544-R560). -/

namespace Sys2Proof.Machine

/-! ## Channels (R552, R553) -/

/-- Samples of a channel's filter, and of the longer filter of channel 71. -/
def chanLen (ch : Nat) : Nat := if ch ≤ 67 then 10 else 100
def chanLong (ch : Nat) : Nat := if ch = 71 then 10000 else chanLen ch
/-- Default warning, critical and trip thresholds: 0.1 °C, 0.01 L/min, W, mV, mA; 0 where a channel has none. -/
def chanDefault (ch : Nat) : Nat × Nat × Nat :=
  if ch ≤ 35 then (950, 1050, 1150) else if ch ≤ 67 then (900, 950, 1050) else if ch = 68 then (400, 450, 0)
  else if ch = 69 then (550, 600, 0) else if ch = 70 then (150, 100, 0) else if ch = 71 then (0, 1200, 0)
  else if ch = 72 then (0, 0, 0) else (27000, 30000, 32000)
/-- Name under which a channel's written thresholds are kept: CRIT above WARN, as in `LPE_CHCFG`. -/
def chanKey (ch : Nat) : Nat := 0x8000000000 + ch
def chanWarn (s : State) (ch : Nat) : Nat :=
  match tget? s.regs (chanKey ch) with | some w => bits w 15 0 | none => (chanDefault ch).1
def chanCrit (s : State) (ch : Nat) : Nat :=
  match tget? s.regs (chanKey ch) with | some w => bits w 31 16 | none => (chanDefault ch).2.1
def chanTrip (ch : Nat) : Nat := (chanDefault ch).2.2
def getChan (s : State) (ch : Nat) : Chan := tget s.pwr.chans ch {}
/-- Mean of the newest samples, rounded down. -/
def meanOf (l : List Nat) (n : Nat) : Nat := let w := l.take n; w.foldl (· + ·) 0 / (if w.length = 0 then 1 else w.length)
/-- FILTERED of a channel. -/
def chanValue (x : Chan) (ch : Nat) : Nat := meanOf x.window (chanLen ch)
/-- CAP_W. -/
def capW (s : State) : Nat := bits (rget s 0xF08018) 10 0
/-- The 100 ms mean of module input power. -/
def power100 (s : State) : Nat := meanOf (getChan s 71).window 10000

/-- The level after a sample, from the level before: a level is entered when the value passes its threshold, and left when the value has
passed back by the hysteresis. -/
def chanLevel (s : State) (ch : Nat) (x : Chan) : BitVec 2 :=
  let v := chanValue x ch
  let w := chanWarn s ch
  let c := chanCrit s ch
  let step (cin cstay win wstay : Bool) : BitVec 2 :=
    if cin || (x.level == 2 && cstay) then 2 else if win || (decide (x.level ≠ 0) && wstay) then 1 else 0
  if ch ≤ 69 then step (decide (v > c)) (decide (v + 30 ≥ c)) (decide (v > w)) (decide (v + 30 ≥ w))
  else if ch = 70 then step (decide (v < c)) (decide (v ≤ c + 10)) (decide (v < w)) (decide (v ≤ w + 10))
  else if ch = 71 then
    let m := meanOf x.window 10000
    step (decide (v > c)) (decide (v * 100 ≥ c * 98)) (decide (m * 100 ≥ capW s * 98)) (decide (m * 10000 ≥ capW s * 9604))
  else if ch = 72 then step false false (decide (v < 44000) || decide (v > 54000)) false
  else step (decide (v > c)) (decide (v * 100 ≥ c * 98)) (decide (v > w)) (decide (v * 100 ≥ w * 98))

/-- Any channel is at CRITICAL (R554). -/
def emergency (s : State) : Bool := s.pwr.chans.any (fun p => p.2.level == 2)

/-- Since when no emergency stands, for a deferred activation (R509). -/
def trackClear (s : State) : State :=
  { s with fw := { s.fw with clear := if emergency s then none else some (s.fw.clear.getD s.devTime) } }

/-- The unit a channel measures, as an error record names it. -/
def chanUnit (s : State) (ch : Nat) : Word :=
  if ch ≤ 3 then quadUd s ch else if ch ≤ 35 then columnUd s (ch - 4) else if ch ≤ 67 then columnUd s (ch - 36) else 0

/-- Since when the 100 ms mean lies below 95 % of CAP_W. -/
def trackBelow (s : State) : State :=
  { s with pwr := { s.pwr with
      below := if power100 s * 100 < capW s * 95 then some (s.pwr.below.getD s.devTime) else none } }

/-- A stack's refresh follows its temperature (R214). -/
def hotRefresh (s : State) (st v : Nat) : State :=
  if v ≥ 850 then { s with pwr := { s.pwr with hot := if s.pwr.hot.contains st then s.pwr.hot else st :: s.pwr.hot } }
  else if v ≤ 820 then { s with pwr := { s.pwr with hot := s.pwr.hot.filter (· != st) } }
  else s

/-- LOUPE_SAMPLE (R552, R554, R556, R558): one sample of a channel, while the Loupe runs. -/
def execLoupeSample (ch : Fin 74) (raw : BitVec 16) (s : State) : Host.Outcome State Fault Refusal :=
  if s.boot.phase = 0 then .next s
  else
    let c := ch.val
    let x := getChan s c
    let beyond := if chanTrip c ≠ 0 ∧ raw.toNat > chanTrip c then x.beyond + 1 else 0
    if beyond ≥ 3 then .next (tripOff s c raw.toNat)
    else
      let x := { x with window := (raw.toNat :: x.window).take (chanLong c), beyond := beyond }
      let l := chanLevel s c x
      let entered := decide (l = 2) && decide (x.level ≠ 2)
      let s := { s with pwr := { s.pwr with
        chans := tset s.pwr.chans c (if l = x.level then x else { x with level := l, since := s.devTime }) } }
      let s := trackClear (if c = 71 then trackBelow s else s)
      let s := if 36 ≤ c ∧ c ≤ 67 then hotRefresh s (c - 36) (chanValue x c) else s
      if entered then
        let s := { s with pwr := { s.pwr with crits := sat 65535 (s.pwr.crits + 1) } }
        let s := if (c = 71 ∨ c = 73) ∧ s.pwr.g ≠ 4 then { s with pwr := { s.pwr with g := 4, gAt := s.devTime } } else s
        .next (raiseErr s {
          cause := 0x0E, sev := 0, unit := chanUnit s c, arg0 := BitVec.ofNat 64 c, arg1 := BitVec.ofNat 64 (chanValue x c) })
      else .next s

/-- A value of `LPE_CHCFG` written for the channel that `LPE_CHSEL` names (R553): less protective than the default is ignored and recorded. A
threshold the channel does not have stays 0. -/
def chcfgWr (fn : Fn) (v : Word) (s : State) : State :=
  let ch := bits (rget s 0xF00008) 6 0
  let d := chanDefault ch
  let w := bits v 15 0
  let c := bits v 31 16
  let bad (x lim : Nat) : Bool := if lim = 0 then false else if ch = 70 then decide (x < lim) else decide (x > lim)
  if bad w d.1 || bad c d.2.1 then accessErr s fn 0xF00018
  else rset s (chanKey ch) (at_ (if d.2.1 = 0 then 0 else c) 16 ||| at_ (if d.1 = 0 then 0 else w) 0)

/-- LPE_CHCFG_WRITE. -/
def execLpeChcfgWrite (fn : Fn) (crit warn : BitVec 16) (s : State) : Host.Outcome State Fault Refusal :=
  let v := at_ crit.toNat 16 ||| at_ warn.toNat 0
  hostPf fn 0xF00018 v (chcfgWr fn v) s

/-! ## The millisecond decisions (R555-R557) -/

/-- The channel's level acts on the cluster. -/
def inScope (ch c : Nat) : Bool :=
  if ch ≤ 3 then c / 32 == ch else if ch ≤ 35 then c / 4 + 4 == ch else if ch ≤ 67 then c / 4 + 36 == ch else ch != 72

/-- The highest level that acts on a cluster. -/
def clusterLevel (s : State) (c : Nat) : Nat :=
  s.pwr.chans.foldl (fun m p => if inScope p.1 c then Nat.max m p.2.level.toNat else m) 0

/-- Every channel that acts on the cluster has been NORMAL throughout the last 10 ms. -/
def normal10 (s : State) (c : Nat) : Bool :=
  s.pwr.chans.all (fun p => !inScope p.1 c || (p.2.level == 0 && decide ((s.devTime - p.2.since).toNat ≥ 10000000)))

/-- T[c] and the stop of the island (R555, R557). -/
def islandTick (s : State) (c : Nat) : State :=
  let x := getIsl s c
  let l := clusterLevel s c
  let t := if l = 2 then Nat.max (x.t - 1) 4
    else if normal10 s c ∧ x.t < 16 ∧ (s.devTime - x.tAt).toNat ≥ 10000000 then x.t + 1 else x.t
  let low := decide (Nat.min t s.pwr.g = 4)
  let lowAt := if low then some (x.lowAt.getD s.devTime) else none
  let long := (lowAt.map (fun a => decide ((s.devTime - a).toNat ≥ 100000000))).getD false
  let rises := decide (t > x.t)
  setIsl s c { x with
    t := t
    tAt := if t = x.t then x.tAt else s.devTime
    lowAt := lowAt
    stopped := (x.stopped || (long && decide (l = 2))) && !rises
    cur := if x.stopped ∧ rises then 4 else x.cur }

/-- G (R556). -/
def powerCapTick (s : State) : State :=
  let s := trackBelow s
  let g := if power100 s > capW s then Nat.max (s.pwr.g - 1) 4
    else if s.pwr.g < 16 ∧ (s.devTime - s.pwr.gAt).toNat ≥ 10000000
        ∧ (s.pwr.below.map (fun a => decide ((s.devTime - a).toNat ≥ 10000000))).getD false then s.pwr.g + 1
    else s.pwr.g
  if g = s.pwr.g then s else { s with pwr := { s.pwr with g := g, gAt := s.devTime } }

/-- LOUPE_MS_TICK: once at each whole millisecond of `DEV_TIME`. -/
def execLoupeMsTick (s : State) : Host.Outcome State Fault Refusal :=
  if s.boot.phase.toNat < 2 ∨ s.devTime.toNat % 1000000 ≠ 0 ∨ s.pwr.msAt = some s.devTime then .next s
  else
    let s := powerCapTick { s with pwr := { s.pwr with msAt := some s.devTime } }
    .next ((List.range 128).foldl islandTick s)

/-- INPUT_OVERCURRENT (R559): the comparator acts while conversion is on. -/
def execInputOvercurrent (ma : BitVec 16) (s : State) : Host.Outcome State Fault Refusal :=
  if s.boot.phase = 0 ∨ ma.toNat ≤ 32000 then .next s else .next (tripOff s 73 ma.toNat)

/-! ## Cluster frequency (R551) -/

/-- A write of `PWR_CLU_FREQ`c. -/
def cluFreqWr (c : Nat) (v : Word) (s : State) : State :=
  let n := bits v 4 0
  if 4 ≤ n ∧ n ≤ 16 then setIsl s c { getIsl s c with set_ := n } else s

/-- PWR_CLU_FREQ_WRITE. -/
def execPwrCluFreqWrite (fn : Fn) (c : Fin 128) (v : BitVec 5) (s : State) : Host.Outcome State Fault Refusal :=
  hostPf fn (0xF08100 + 8 * c.val) (v.setWidth 64) (cluFreqWr c.val (v.setWidth 64)) s

/-- FREQ_CHANGE_DONE (R33): the island runs at its new frequency and issue resumes. -/
def execFreqChangeDone (c : Fin 128) (s : State) : Host.Outcome State Fault Refusal :=
  let x := getIsl s c.val
  if x.stopped ∨ x.cur = islTarget s c.val ∨ s.pwr.st = 2 ∨ s.pwr.st = 4 then .next s
  else .next (settle (setIsl s c.val { x with cur := islTarget s c.val }))

/-! ## Power states (R545-R550) -/

def pwrStat : Nat := 0xF08010

/-- No launch thread is resident or saved and no descriptor is taken and not completed (R546, R547). -/
def workless (s : State) : Bool :=
  s.threads.all (fun p => p.2.handler) && s.saved.all (fun x => x.handler) && s.descs.isEmpty && s.launches.all (fun l => l.sq.isNone)

/-- The first condition of R547. -/
def allQuiet (s : State) : Bool :=
  workless s && s.snaps.all (fun p => p.2.st == 0) && s.syn.all (fun p => p.2.waiters.isEmpty)
    && s.near.all (fun p => p.2.inFlight.isEmpty && p.2.gathered.isEmpty && p.2.sent.isEmpty)

/-- What refuses a move to Dark (R547). -/
def darkCheck (s : State) : BitVec 8 × BitVec 8 :=
  if !allQuiet s then (0x01, 0xF0)
  else if fabEn s || decide (s.pair.mode ≠ 0) then (0x0B, 0xF1)
  else if (qps s).any (fun e => e.2.st == 1 || e.2.st == 2 || e.2.st == 3) then (0x01, 0xF2)
  else if (List.range 64).any (fun t =>
      let w := rget s (stgTgtReg t)
      decide (bits w 61 60 = 2) && (decide (bits w 63 62 = 1) || decide (bits w 63 62 = 3))) then (0x01, 0xF3)
  else (0, 0)

/-- A write of `PWR_CMD` (R545-R548). GO_DIM and GO_BRIGHT complete at once; GO_DARK stays BUSY until the entry ends. -/
def pwrCmdWr (v : Word) (s : State) : State :=
  let op := bits v 3 0
  if op = 0 then rset s 0xF08008 0
  else if statBusy s pwrStat then statOvr s pwrStat
  else
    let s := rset s 0xF08008 (opKept (rget s 0xF08008) (at_ op 0) 3)
    if op = 1 then statDone (toBright s) pwrStat (0, 0)
    else if op = 2 then statDone { s with pwr := { s.pwr with st := 1, auto := false } } pwrStat (0, 0)
    else if op = 3 then
      let r := darkCheck s
      if r.1 ≠ 0 then statDone s pwrStat r
      else statStart { s with pwr := { s.pwr with st := 3, former := s.pwr.st } } pwrStat
    else statDone s pwrStat (0x0B, 0)

/-- A power command of a PF. A GO_BRIGHT that arrives in Dark wakes the device by command, whatever HOST_EN holds; it is held like every
write, and completes once the device is Bright (R545, R549, R550). -/
def pwrCommand (fn : Fn) (op : Nat) (s : State) : Host.Outcome State Fault Refusal :=
  let v := at_ op 0
  if op = 1 ∧ isPf fn ∧ s.pwr.st = 2 ∧ gate s fn (some 0xF08008) = .held then
    .next { s with pwr := { s.pwr with st := 4, wake := 4 }, heldHost := s.heldHost ++ [.reg fn 0xF08008 v] }
  else hostPf fn 0xF08008 v (pwrCmdWr v) s

def execGoBright (fn : Fn) (s : State) : Host.Outcome State Fault Refusal := pwrCommand fn 1 s
def execGoDim (fn : Fn) (s : State) : Host.Outcome State Fault Refusal := pwrCommand fn 2 s
def execGoDark (fn : Fn) (s : State) : Host.Outcome State Fault Refusal := pwrCommand fn 3 s

/-- Every high-speed port goes OFF (R548 step 3). -/
def portsOff (s : State) : State :=
  (List.finRange 12).foldl (fun s p => setPhy s p { getPhy s p with st := 5, lanes := 0, half := false, since := s.devTime }) s

/-- DARK_ENTRY_COMPLETE (R548). -/
def execDarkEntryComplete (s : State) : Host.Outcome State Fault Refusal :=
  if s.pwr.st ≠ 3 then .next s
  else
    let s := portsOff s
    .next (statDone { s with pwr := { s.pwr with st := 2 } } pwrStat (0, 0))

/-- IDLE_MS of `PWR_CFG` in ns; 0 is taken as 100 ms. -/
def idleNs (s : State) : Nat :=
  let n := bits (rget s 0xF08018) 47 32
  (if n = 0 then 100 else n) * 1000000

/-- AUTO_DIM_TIMEOUT (R546): IDLE_MS of idleness in Bright has passed. -/
def execAutoDimTimeout (s : State) : Host.Outcome State Fault Refusal :=
  if bit (rget s 0xF08018) 63 ∧ s.boot.phase = 8 ∧ s.drst.phase = 0 ∧ !s.err.fatal ∧ s.pwr.st = 0 ∧ workless s
      ∧ (s.devTime - s.pwr.busyAt).toNat ≥ idleNs s then
    .next { s with pwr := { s.pwr with st := 1, auto := true } }
  else .next s

/-- A wake source: from Dark a wake starts, and an entry to Dark stops (R550, R560). -/
def wakeBy (s : State) (cause : BitVec 8) (enBit : Nat) : State := startWake (stopEntry s cause enBit) cause enBit

/-- WAKE (R550): a host read of a block that does not answer, or SMBus traffic to the module. -/
def execWake (src : WakeSrc) (s : State) : Host.Outcome State Fault Refusal :=
  match src with
  | .hostRead => .next (wakeBy s 1 63)
  | .smbus => .next (wakeBy s 3 61)

/-- WAKE_TIMER (R550). -/
def execWakeTimer (s : State) : Host.Outcome State Fault Refusal :=
  if s.devTime = rget s 0xF08028 then .next (wakeBy s 2 62) else .next s

/-- A write of `PWR_CFG`: CAP_W outside 400 to 1,100 leaves CAP_W as it was. -/
def pwrCfgWr (v : Word) (s : State) : State :=
  let c := bits v 10 0
  let v := v &&& 0x8000FFFF000007FF
  rset s 0xF08018 (if 400 ≤ c ∧ c ≤ 1100 then v else setBits v 10 0 (capW s))

end Sys2Proof.Machine
end

