-- ==== Sys2Proof/Machine/Errors.lean ====
section
/-! DEFINITION. The error manager (R561-R577), and the device reset (R579, R580). -/

namespace Sys2Proof.Machine

/-! ## Containment of errors that hardware checkers find (R571) -/

/-- A thread that holds a lost word ends with POISONED; what it waits for is withdrawn. -/
def endPoisoned (s : State) (t : Tid) : State :=
  match getThr s t with
  | none => s
  | some th =>
    if th.st = .ending ∨ th.st = .trapped then s
    else
      let s := withdrawSyncs s t
      match getThr s t with
      | some th => endThread s t { th with loads := th.loads.filter (fun o => o.done || isMemAct o.act) } 0x0A
      | none => s

/-- A state of the fold unit takes NAN and NV (R172). -/
def poisonAcc (s : State) (f : BitVec 10) (ea : EaReg) : State :=
  match heldKey s f with
  | none => s
  | some k =>
    match tget? s.accs k with
    | some (.held v) => { s with accs := tset s.accs k (.held (v.set ea.toNat (accPoison v[ea.toNat]))) }
    | _ => s

/-- A sync object's storage is lost: those that wait are answered POISONED, and so is every operation until the object is configured or
restored. -/
def poisonSyn (s : State) (n : Nat) : State :=
  let o := getSyn s n
  if o.st = 0 then s
  else answerAll (setSyn s n { o with bad := true, waiters := [] }) n o.waiters o.value o.phase 0x0A

/-- A context is lost. A queue's context stops the queue with POISONED (DEDUCED). -/
def poisonCtx (s : State) (n : Nat) : State :=
  match tget? s.ctxs n with
  | some (.qp q) => poisonQp s n q
  | some (.region r) => setRegion s n { r with bad := true }
  | some (.queue vi false q) => stopSq s vi q 0x0A 0
  | _ => s

/-- Instance that a context belongs to. -/
def ctxOwner (s : State) (n : Nat) : Option Vi :=
  (tget? s.ctxs n).map (fun c => match c with
    | .qp q => q.owner | .region r => r.owner | .queue vi _ _ => vi | .flow vi _ _ _ => vi)

/-- Quadrants joined by a die-to-die link, by the lower one: links 0 to 2 leave Q0, 3 and 4 leave Q1, 5 leaves Q2 (the order of pairs is
DESIGN CHOICE; R570 asks only for a quadrant). -/
def linkQuad (n : Nat) : Nat := if n ≤ 2 then 0 else if n ≤ 4 then 1 else 2

/-- An error of the physical or data link layer sets its status bit in the switch function it belongs to (R320, R330). -/
def swLinkErr (s : State) (n : Fin 10) (cor : Bool) (b : Fin 32) : State :=
  let w : SwPort := tget s.sw n.val {}
  let m : BitVec 32 := BitVec.ofNat 32 (2 ^ b.val)
  { s with sw := tset s.sw n.val (if cor then { w with corSt := w.corSt ||| m } else { w with uncSt := w.uncSt ||| m }) }

/-- A request that the endpoint refuses is reported on its function with its header (R320, R322). An ECRC that fails is an error while the
check is enabled. -/
def tlpRefused (s : State) (fn : Fn) (k : BadTlp) (hdr : List Byte) : State :=
  if !fnExists s fn || !endpointUp s fn then s
  else match k with
    | .malformed => aerUnc s fn 18 hdr
    | .ecrc => if (getCfg s fn).ecrcChk then aerUnc s fn 19 hdr else s
    | .unsupported => aerUnc s fn 20 hdr

/-- A found error is contained and detected (R562, R571). ARG0 of a die-to-die link's replay is 0x100 more than the link's number, which
keeps it apart from a port (DESIGN CHOICE, Assumption 18). -/
def foundHw (s : State) (h : HwFind) : State :=
  match h with
  | .memCe b => if b.toNat * 64 < memEnd then (if s.ue.contains b.toNat then foundUe s b.toNat none else foundCe s b.toNat) else s
  | .memBad b => if b.toNat * 64 < memEnd ∧ !s.ue.contains b.toNat then { s with ue := s.ue ++ [b.toNat] } else s
  | .recRefused vi q => if (getCq s vi q.toNat).st = 0 then s else setCq s vi q.toNat { getCq s vi q.toNat with refuse := true }
  | .swErr n cor b => swLinkErr s n cor b
  | .tlp fn k hdr => tlpRefused s fn k hdr
  | .facetCe f k => raiseErr s { cause := 0x05, sev := 1, unit := facetUd s f, arg0 := BitVec.ofNat 64 (k.val + 1) }
  | .quadCe q k => raiseErr s { cause := 0x05, sev := 1, unit := quadUd s q.toNat, arg0 := BitVec.ofNat 64 (k.val + 4) }
  | .facetUe f store slots =>
    let vi := slots.findSome? (fun k => (getThr s ⟨f, k⟩).map (·.vi))
    let s := slots.foldl (fun s k => endPoisoned s ⟨f, k⟩) s
    raiseErr s { cause := 0x06, sev := 2, vi := vi, status := 0x0A, unit := facetUd s f, arg0 := if store then 1 else 2 }
  | .foldUe f ea =>
    let vi := (heldKey s f).map (accOwner s)
    raiseErr (poisonAcc s f ea) { cause := 0x06, sev := 2, vi := vi, unit := facetUd s f, arg0 := 3 }
  | .contextUe n =>
    let q := match tget? s.ctxs n with | some (.qp x) => x.home.toNat | _ => 0
    raiseErr (poisonCtx s n) { cause := 0x06, sev := 2, vi := ctxOwner s n, status := 0x0A, unit := quadUd s q, arg0 := 4 }
  | .syncUe n =>
    raiseErr (poisonSyn s n.toNat) {
      cause := 0x06, sev := 2, vi := objHolder s n.toNat, status := 0x0A, unit := quadUd s (homeOf n.toNat).toNat, arg0 := 5 }
  | .linkDead n => raiseErr s { cause := 0x0A, sev := 3, unit := quadUd s (linkQuad n.val), arg0 := BitVec.ofNat 64 n.val }
  | .bridgeDead n => raiseErr s { cause := 0x0A, sev := 3, unit := columnUd s n.val, arg0 := BitVec.ofNat 64 n.val }
  | .dieLink n => raiseErr s { cause := 0x07, sev := 1, unit := quadUd s (linkQuad n.val), arg0 := BitVec.ofNat 64 (0x100 + n.val) }
  | .internal k => raiseErr s { cause := 0x15, sev := 3, arg0 := k.setWidth 64 }

/-- Where a found error stands among those of its cycle (R565): severity, then UNIT, then ARG0; one that raises none comes first. -/
def hwKey (s : State) (h : HwFind) : Nat × Nat × Nat :=
  match (foundHw { s with err := {} } h).err.pending.getLast? with
  | some e => (4 - e.sev.toNat, e.unit.toNat, e.arg0.toNat)
  | none => (0, 0, 0)

/-- One key before or equal to another. -/
def keyLe (a b : Nat × Nat × Nat) : Bool :=
  decide (a.1 < b.1) || (a.1 == b.1 && (decide (a.2.1 < b.2.1) || (a.2.1 == b.2.1 && decide (a.2.2 ≤ b.2.2))))

/-- Errors found in one cycle, in the order in which they are detected. -/
def hwOrder (s : State) (l : List HwFind) : List HwFind := l.mergeSort (fun a b => keyLe (hwKey s a) (hwKey s b))

/-! ## Records (R570-R574) -/

/-- Words of an error record. -/
def errWords (seq : BitVec 48) (e : Err) : List Word :=
  [ at_ seq.toNat 0 ||| at_ e.sev.toNat 48 ||| at_ (b2n e.storm) 50 ||| at_ (b2n e.preempted) 51 ||| at_ (b2n e.vi.isSome) 52
      ||| at_ (e.vi.getD 0).toNat 56,
    e.time,
    at_ e.cause.toNat 0 ||| at_ e.status.toNat 8 ||| at_ e.count.toNat 16 ||| at_ e.gen.toNat 32,
    e.unit, e.addr, e.arg0, e.arg1, e.arg2 ]

def autoRetire (s : State) : Bool := bit (rget s 0xC00018) 0

/-- The history: 16,777,216 places, the last 256 for FATAL records only (R573, R577). -/
def toHistory (s : State) (e : Err) (ws : List Word) : State :=
  let room := if e.sev = 3 then 16777216 else 16777216 - 256
  if s.err.hist.length < room then { s with err := { s.err with hist := s.err.hist ++ [ws] } }
  else { s with err := { s.err with histLost := sat 65535 (s.err.histLost + 1) } }

/-- SEQ is assigned and the record written, into its slot where it took one, and into the history. -/
def writeRecord (s : State) (e : Err) : State :=
  let q := s.err.seq
  let ws := errWords q e
  let s := { s with err := { s.err with
    seq := q + 1
    ring := if e.slot then tset s.err.ring (q.toNat % 256) ws else s.err.ring
    unfreed := if e.slot ∧ !autoRetire s then s.err.unfreed + 1 else s.err.unfreed } }
  toHistory s e ws

/-- AER of the function concerned, or of both PFs (R575). -/
def aerInternal (s : State) (e : Err) : State :=
  let one (s : State) (fn : Fn) : State :=
    if e.sev = 3 then
      modCfg s fn (fun c => { c with
        uncSt := c.uncSt ||| at_ 1 22
        fep := if !bit c.uncMsk 22 && c.fep.isNone then some 22 else c.fep
        hdr := if !bit c.uncMsk 22 && c.fep.isNone then [] else c.hdr })
    else aerCor s fn 14
  if e.sev = 0 then s
  else match e.vi with
    | some v => one s v
    | none => one (one s 0) 128

/-- Steps 2 to 6 of handling: record, history, ERROR event, AER, trace trigger. -/
def reportErr (s : State) (e : Err) : State :=
  let q := s.err.seq
  let s := writeRecord s e
  let s := match e.vi with
    | some v => if e.sev = 2 then postEvent s v (errorEvent (q.setWidth 64) (e.status.setWidth 64) e.addr) else s
    | none => s
  let s := aerInternal s e
  if e.sev.toNat ≥ bits (rget s 0xC10040) 21 20 then trcTrigger s 1 else s

/-! ## Escalation (R567-R569, R576) -/

/-- Facet a record's UNIT names. -/
def errFacet (s : State) (e : Err) : Option (BitVec 10) :=
  if udDepth e.unit = 6 ∧ isLocal s e.unit then some (facetOfUd e.unit) else none

/-- Instances that hold slots on a Facet. -/
def facetHolders (s : State) (f : BitVec 10) : List Vi :=
  (List.range 256).filterMap (fun k =>
    let v : Vi := BitVec.ofNat 8 k
    if (holdOf (getClu s (cluOf f)) v).isSome then some v else none)

/-- A Facet is withdrawn from service: every launch and handler thread of its holders leaves it (R569). -/
def withdrawFacet (s : State) (f : BitVec 10) : State :=
  let s := { s with err := { s.err with
    fctOff := if s.err.fctOff.contains f.toNat then s.err.fctOff else f.toNat :: s.err.fctOff } }
  (facetHolders s f).foldl (fun s v => (reshape s v).1) s

/-- The moves off a withdrawn Facet are complete; in the fatal state nothing moves any more. -/
def withdrawalDone (s : State) (f : BitVec 10) : Bool :=
  s.err.fatal || (!s.threads.any (fun p => decide (p.1 / 64 = f.toNat) && p.2.st == .saving)
    && (s.launches.filter (fun l => (facetHolders s f).contains l.vi)).all (movesDone s))

/-- A Barvar link that storms retrains at 4 lanes and becomes DEGRADED (R568). -/
def stormLink (s : State) (p : Port) : State :=
  let h := getPhy s p
  if barvar s p ∧ h.st = 2 then
    let s := setPhy s p { h with st := 1, lanes := 0, half := true, since := s.devTime, cnt := bumpCnt h.cnt 7 1 }
    if portUse s p = 3 then mirrorLinkLost s else s
  else s

/-- The escalation of an error as its handling begins. -/
def escalate (s : State) (e : Err) : State :=
  if !e.storm then s
  else match errFacet s e with
    | some f => withdrawFacet s f
    | none =>
      if e.cause = 0x07 ∨ e.cause = 0x08 then
        match portOfNat e.arg0.toNat with | some p => stormLink s p | none => s
      else s

/-- Every high-speed port goes down (R576, R579). -/
def portsDown (s : State) : State :=
  (List.finRange 12).foldl (fun s p =>
    let on := linkOn s p
    let s := setPhy s p { getPhy s p with st := 0, lanes := 0, since := s.devTime }
    if on then linkLost s p else s) s

/-- One last Poll Page update, with ERRORS incremented, for an ACTIVE instance (R576). -/
def lastPolls (s : State) : State :=
  (List.range 256).foldl (fun s k =>
    let v : Vi := BitVec.ofNat 8 k
    if (getInst s v).st = 2 ∧ pollOn s v then pollUpdate (modInst s v (fun i => { i with errors := i.errors + 1 })) v else s) s

/-- A FATAL error (R576, R577): its record stands in `ERR_FATAL_REC` if it is the first of the fatal state. -/
def handleFatal (s : State) (e : Err) : State :=
  let first := decide (s.err.fatals = 0)
  let ws := errWords s.err.seq e
  let s := { s with err := { s.err with
    fatal := true, fatals := sat 255 (s.err.fatals + 1), fatalRec := if first then ws else s.err.fatalRec } }
  let s := if first then lastPolls (portsDown s) else s
  reportErr s e

/-! ## Handling (R563-R566) -/

/-- The highest severity PENDING. -/
def topSev (l : List Err) : Nat := l.foldl (fun m e => Nat.max m e.sev.toNat) 0
/-- The error to handle next: the oldest of the highest severity. -/
def nextErr (l : List Err) : Option Err := l.find? (fun e => e.sev.toNat == topSev l)
/-- The list without the first error equal to `e`. -/
def dropErr (l : List Err) (e : Err) : List Err :=
  match l with
  | [] => []
  | x :: r => if x = e then r else x :: dropErr r e

/-- ERROR events of errors that found no slot (R566). -/
def postOwed (s : State) : State :=
  s.err.owed.foldl (fun s o => postEvent s o.1 (errorEvent (BitVec.allOnes 64) (o.2.1.setWidth 64) o.2.2))
    { s with err := { s.err with owed := [] } }

/-- A storm record whose moves are complete is recorded, and each instance that held slots on the Facet has an ERROR event. -/
def finishStorm (s : State) (e : Err) (f : BitVec 10) : State :=
  let q := s.err.seq
  let s := reportErr s e
  (facetHolders s f).foldl (fun s v => postEvent s v (errorEvent (q.setWidth 64) (e.status.setWidth 64) e.addr)) s

/-- One PENDING error is handled: a FATAL one first, whatever is in progress; else a withdrawal in progress once its moves are complete;
else the oldest of the highest severity. -/
def handleNext (s : State) : State :=
  match nextErr s.err.pending with
  | none => (match s.err.cur with
    | (e, _) :: r => (match errFacet s e with
      | some f => if withdrawalDone s f then finishStorm { s with err := { s.err with cur := r } } e f else s
      | none => { s with err := { s.err with cur := r } })
    | [] => s)
  | some e =>
    match s.err.cur with
    | (c, k) :: r =>
      if e.sev.toNat > c.sev.toNat then
        handleFatal { s with err := { s.err with pending := dropErr s.err.pending e, cur := ({ c with preempted := true }, k) :: r } } e
      else (match errFacet s c with
        | some f => if withdrawalDone s f then finishStorm { s with err := { s.err with cur := r } } c f else s
        | none => { s with err := { s.err with cur := r } })
    | [] =>
      let s := { s with err := { s.err with pending := dropErr s.err.pending e } }
      if e.sev = 3 then handleFatal s e
      else
        let s := escalate s e
        match (if e.storm then errFacet s e else none) with
        | some f =>
          if withdrawalDone s f then finishStorm s e f
          else { s with err := { s.err with cur := [(e, 1)] } }
        | none => reportErr s e

/-- ERROR_HANDLE (R562-R577): errors the checkers find are contained and detected, and the next PENDING error is handled. While a device
reset is in its steps 1 to 4, records wait (R580). -/
def execErrorHandle (found : List HwFind) (s : State) : Host.Outcome State Fault Refusal :=
  if s.boot.phase = 0 then .next s
  else
    let s := (hwOrder s found).foldl foundHw s
    if s.drst.phase ≠ 0 ∧ s.drst.phase ≠ 5 then .next (settle s)
    else .next (settle (handleNext (postOwed s)))

/-- ERROR_SECOND_TICK (R567): a whole second of `DEV_TIME` ends the storm counts. -/
def execErrorSecondTick (s : State) : Host.Outcome State Fault Refusal := .next (rollSecond s)

/-! ## Registers of the error block (R569, R572) -/

/-- A write of `ERR_ACK`: retires every record before it, where it lies between the value last retired and `ERR_PRODUCED`. -/
def errAckWr (fn : Fn) (v : Word) (s : State) : State :=
  let r : BitVec 48 := v.setWidth 48
  if autoRetire s then s
  else if (r - s.err.retired).toNat ≤ (s.err.seq - s.err.retired).toNat then
    { s with err := { s.err with retired := r, unfreed := Nat.min s.err.unfreed (s.err.seq - r).toNat } }
  else accessErr s fn 0xC00010

/-- A write of `ERR_CFG`. -/
def errCfgWr (v : Word) (s : State) : State :=
  let s' := rset s 0xC00018 (v &&& 1)
  if bit v 0 ∧ !autoRetire s then { s' with err := { s'.err with unfreed := 0 } } else s'

/-- A write of `ERR_FCT_OFF`k: the Facets named return to service. -/
def fctOffWr (k : Nat) (v : Word) (s : State) : State :=
  { s with err := { s.err with fctOff := s.err.fctOff.filter (fun f => !(decide (f / 64 = k) && bit v (f % 64))) } }

def execErrAckWrite (fn : Fn) (r : BitVec 48) (s : State) : Host.Outcome State Fault Refusal :=
  hostPf fn 0xC00010 (r.setWidth 64) (errAckWr fn (r.setWidth 64)) s
def execErrCfgWrite (fn : Fn) (auto_ : Bool) (s : State) : Host.Outcome State Fault Refusal :=
  hostPf fn 0xC00018 (at_ (b2n auto_) 0) (errCfgWr (at_ (b2n auto_) 0)) s
def execErrFctOffWrite (fn : Fn) (k : Fin 16) (off : Word) (s : State) : Host.Outcome State Fault Refusal :=
  hostPf fn (0xC00100 + 8 * k.val) off (fctOffWr k.val off) s

/-- DEV_TIME_MAX (R571). -/
def execDevTimeMax (s : State) : Host.Outcome State Fault Refusal :=
  if s.devTime = BitVec.allOnes 64 then .next (raiseErr s { cause := 0x14, sev := 2 }) else .next s

/-! ## Device reset (R579, R580) -/

/-- Register offsets of the always-on domain, whose contents a device reset leaves: the error block, `LPE_`, `PWR_`, channel thresholds. -/
def alwaysOn (k : Nat) : Bool :=
  (decide (0xC00000 ≤ k) && decide (k < 0xC05000)) || (decide (0xF00000 ≤ k) && decide (k < 0xF10000))
    || (decide (0x8000000000 ≤ k) && decide (k < 0x8000000100))

/-- What steps 1 to 4 of a device reset leave: instances released with their generations raised, the package at reset, and the always-on
domain, the embedded switches and the island as they were. -/
def deviceCleared (s : State) (source : BitVec 4) : State :=
  let gens := (List.range 256).foldl (fun (t : Tab Inst) k =>
    let i := getInst s (BitVec.ofNat 8 k)
    let g := if i.st = 0 ∨ i.st = 3 ∨ i.st = 4 then i.gen else nextGen32 i.gen
    if k % 128 = 0 then tset t k { st := 1, gen := g } else if g = 1 then t else tset t k { gen := g }) []
  { State.reset with
    pending := s.pending
    free := s.free
    devTime := s.devTime
    hostMem := s.hostMem
    tally := s.tally
    stkUe := s.stkUe
    regs := s.regs.filter (fun p => alwaysOn p.1)
    cfg := s.cfg.filterMap (fun p => if p.1 % 128 = 0 then some (p.1, { bus := p.2.bus }) else none)
    inst := gens
    err := s.err
    links := s.links
    sw := s.sw
    boot := { s.boot with phase := 4 }
    pwr := s.pwr
    drst := { s.drst with phase := 4, source := source }
    sec := { fused := s.sec.fused, revoked := s.sec.revoked, debugSeen := s.sec.debugSeen }
    fw := {
      images := s.fw.images, pref := s.fw.pref, restarts := s.fw.restarts, rseq := s.fw.rseq,
      cores := s.fw.cores.map (fun c => (c.1, { c.2 with st := if c.2.st = 2 then 2 else 0, by_ := none, halted := false })) }
    jtag := s.jtag
    mtr := s.mtr }

/-- A device reset begins (steps 1 to 4): DEVICE_RESET is recorded, everything stops, ports go down, instances are released. -/
def deviceResetStart (fn : Fn) (s : State) : State :=
  if s.drst.phase ≠ 0 then { s with drst := { s.drst with ovr := true } }
  else
    let source : BitVec 4 := if fn = 0 then 1 else 2
    let s := raiseErr s { cause := 0x16, sev := 0, arg0 := source.setWidth 64 }
    deviceCleared (portsDown s) source

/-- A write of `DEV_RST_CMD` with GO. -/
def devRstWr (fn : Fn) (v : Word) (s : State) : State := if bit v 0 then deviceResetStart fn s else s

/-- DEVICE_RESET: a write while one runs is ignored and sets OVR. -/
def execDeviceReset (fn : Fn) (s : State) : Host.Outcome State Fault Refusal :=
  if isPf fn ∧ s.drst.phase ≠ 0 ∧ !(s.boot.perst.toList.getD (portOf fn) true) then .next (deviceResetStart fn s)
  else hostPf fn (devReg 0x100) 1 (devRstWr fn 1) s

/-- DEVICE_RESET_COMPLETE (steps 5 and 6): firmware runs; the fatal state ends and the device is Bright. -/
def execDeviceResetComplete (s : State) : Host.Outcome State Fault Refusal :=
  if s.drst.phase = 0 ∨ s.boot.phase ≠ 8 then .next s
  else .next { s with
    drst := { s.drst with phase := 0 }
    err := { s.err with fatal := false, fatals := 0 }
    pwr := (toBright s).pwr }

end Sys2Proof.Machine
end

