-- ==== Sys2Proof/Machine/Metering.lean ====
section
/-! DEFINITION. The metering island (R523-R543). -/

namespace Sys2Proof.Machine

/-! ## Tallies (R529-R531) -/

/-- The declared coefficients c[k] of kinds 0xF0 to 0xFE, fJ per unit (R529, R532). -/
def coeffs : List Nat :=
  [20000, 60000, 40000, 20000, 10000, 400000, 120000, 200000, 10000, 10000, 200000, 2000, 300, 800, 40000000]

/-- Tally of a kind counted by the model for an instance, over every Facet. -/
def tallyOf (s : State) (vi kind : Nat) : Nat :=
  s.tally.foldl (fun a p => if p.1 / 16 % 256 = vi ∧ p.1 % 16 = kind then a + p.2 else a) 0 / tallyUnit kind

/-- The model counts the kind itself: SCALAR_ISSUE, STORE_ACCESS, SLOT_US, CLUSTER_64US and GRANULE_MS of an instance, and GRANULE_MS of U's 16
reserved granules (R529, R530). -/
def tallyKnown (account kind : Nat) : Bool := kind == 14 || (account != 256 && (kind == 0 || kind == 4 || kind == 12 || kind == 13))

/-- The count of a known kind. -/
def tallyCount (s : State) (account kind : Nat) : Nat :=
  if account = 256 then 16 * s.devTime.toNat / 1000000 else tallyOf s account kind

/-- Key of an account's tally in `Mtr.sent`; account 256 is U. -/
def sentKey (account kind : Nat) : Nat := account * 16 + kind

/-- Increments of an account since the last frame: the kinds the model counts from its own count, every other kind as the hardware counted
it. -/
def increments (s : State) (blocks : List TallyIn) (account : Nat) : List Word :=
  let key : Option Vi := if account = 256 then none else some (BitVec.ofNat 8 account)
  let incs := ((blocks.find? (fun b => b.account == key)).map (·.incs)).getD []
  (List.range 15).map (fun k =>
    if tallyKnown account k then BitVec.ofNat 64 (tallyCount s account k - tget s.mtr.sent (sentKey account k) 0) else incs.getD k 0)

/-- TALLY_FRAME_SEND (R531): every 10 ms of `DEV_TIME`, in every power state; a block for U, then one for each instance with an increment. -/
def execTallyFrameSend (blocks : List TallyIn) (s : State) : Host.Outcome State Fault Refusal :=
  if s.boot.phase.toNat < 2 ∨ s.devTime.toNat % 10000000 ≠ 0 then .next s
  else
    let rows := (256 :: List.range 256).map (fun a => (a, increments s blocks a))
    let rows := rows.filter (fun r => r.1 == 256 || r.2.any (· != 0))
    let frame : TallyFrame := {
      fseq := s.mtr.fseq, time := s.devTime,
      blocks := rows.map (fun r => (r.1, if r.1 = 256 then 0 else genOf s (BitVec.ofNat 8 r.1), r.2)) }
    let sent := rows.foldl (fun (t : Tab Nat) r =>
      (List.range 15).foldl (fun t k =>
        let n := (r.2.getD k 0).toNat
        if n = 0 then t else tset t (sentKey r.1 k) (tget t (sentKey r.1 k) 0 + n)) t) s.mtr.sent
    .next { s with mtr := { s.mtr with link := s.mtr.link ++ [frame], fseq := s.mtr.fseq + 1, sent := sent } }

/-- Weighted sum of a block's increments, fJ. -/
def blockWeight (incs : List Word) : Nat := (List.zipWith (fun c w => c * w.toNat) coeffs incs).foldl (· + ·) 0

/-- An account takes a block (R533, R543). -/
def addBlock (t : Tab Account) (b : Nat × BitVec 32 × List Word) : Tab Account :=
  match tget? t b.1 with
  | none => tset t b.1 { gen := b.2.1, w := blockWeight b.2.2 }
  | some a => tset t b.1 { gen := b.2.1, mixed := a.mixed || a.gen != b.2.1, w := a.w + blockWeight b.2.2 }

/-- Frames counted as lost. -/
def loseFrames (m : Mtr) (n : Nat) : Mtr := { m with lost := m.lost + n, lostAll := sat 4294967295 (m.lostAll + n) }

/-- The island accepts a frame; a gap in FSEQ before it is lost frames. A frame sequence that starts again at 0 is no gap (DESIGN CHOICE). -/
def acceptFrame (m : Mtr) (f : TallyFrame) : Mtr :=
  let gap := match m.expect with | some e => if f.fseq = 0 then 0 else (f.fseq - e).toNat | none => 0
  let m := loseFrames m gap
  { m with
    expect := some (f.fseq + 1), accounts := f.blocks.foldl addBlock m.accounts, frames := m.frames + 1, lastDev := f.time, noTally := false }

/-- TALLY_FRAME_RECEIVE (R524, R531, R534): the oldest frame on the link reaches the island. -/
def execTallyFrameReceive (fate : FrameFate) (s : State) : Host.Outcome State Fault Refusal :=
  let up := s.mtr.running && s.mtr.cart.isSome
  if fate = .strange then .next (if up then { s with mtr := loseFrames s.mtr 1 } else s)
  else match s.mtr.link with
    | [] => .next s
    | f :: r =>
      let m := { s.mtr with link := r }
      .next { s with mtr :=
        if !up then m
        else match fate with
          | .good => acceptFrame m f
          | .bad => { loseFrames m 1 with expect := m.expect.map (· + 1) }
          | _ => m }

/-! ## Apportionment (R533) -/

/-- Entries of an interval: account, generation, GEN_CHANGED, weight; ascending, with U last. -/
def entriesOf (m : Mtr) (ns : Nat) : List (Nat × BitVec 32 × Bool × Nat) :=
  let own := (m.accounts.filter (fun p => decide (p.1 < 256) && decide (p.2.w > 0))).map (fun p => (p.1, p.2.gen, p.2.mixed, p.2.w))
  own ++ [(256, 0, false, 45000000 * ns + ((tget? m.accounts 256).map (·.w)).getD 0)]

/-- The place of an account among those that get a spare millijoule: how many come before it, with a larger remainder, or with an equal
one and a lower index. -/
def rankOf (l : List (Nat × Nat)) (j r : Nat) : Nat :=
  (l.filter (fun p => decide (p.2 > r) || (p.2 == r && decide (p.1 < j)))).length

/-- Millijoules of each account: floors, and 1 mJ more for the largest remainders. With no weight at all everything is U's. -/
def apportion (e : Nat) (ws : List (Nat × Nat)) : List (Nat × Nat) :=
  let wt := ws.foldl (fun a p => a + p.2) 0
  if wt = 0 then ws.map (fun p => (p.1, if p.1 = 256 then e else 0))
  else
    let rs := ws.map (fun p => (p.1, e * p.2 % wt))
    let spare := e - ws.foldl (fun a p => a + e * p.2 / wt) 0
    ws.map (fun p => (p.1, e * p.2 / wt + b2n (decide (rankOf rs p.1 (e * p.2 % wt) < spare))))

/-! ## Records (R535-R537) -/

/-- PREV: the first 32 bytes of the SHA-512 of the record before. -/
def prevBytes (c : Cartridge) : List Byte :=
  match c.records with
  | [] => List.replicate 32 0
  | r :: _ => (beBytes 64 (Config.sha512 r.2).toNat).take 32

/-- One entry of a record. -/
def entryBytes (a : Nat) (gen : BitVec 32) (mixed : Bool) (w mj cum : Nat) : List Byte :=
  toBytes 8 (at_ a 0 ||| at_ (b2n mixed) 16 ||| at_ gen.toNat 32).toNat ++ toBytes 8 w ++ toBytes 8 mj ++ toBytes 8 cum

/-- Flags of a record. -/
def recFlags (m : Mtr) (c : Cartridge) (start loss : Bool) : Nat :=
  b2n start + 2 * b2n loss + 4 * b2n (start && c.unclean) + 8 * b2n (decide (m.lost > 0)) + 16 * b2n (decide (m.frames = 0)) + 32 * b2n c.sat

/-- The interval ends at T_END: it is apportioned, its record signed, kept and mirrored, and the next begins. -/
def endInterval (m : Mtr) (c : Cartridge) (start loss : Bool) (tEnd : Word) (x : Measured) : Mtr :=
  let e := x.e.toNat
  let total := sat (2 ^ 64 - 1) (c.eTotal.toNat + e)
  let c := { c with eTotal := BitVec.ofNat 64 total, sat := c.sat || decide (total = 2 ^ 64 - 1), time := tEnd }
  if c.tampered then { m with cart := some c, iStart := tEnd, accounts := [], frames := 0, lost := 0 }
  else
    let ents := entriesOf m (tEnd - m.iStart).toNat
    let mj := apportion e (ents.map (fun p => (p.1, p.2.2.2)))
    let cum := mj.foldl (fun (t : Tab Nat) p => tset t p.1 (tget t p.1 0 + p.2)) c.cum
    let wt := ents.foldl (fun a p => a + p.2.2.2) 0
    let n := ents.length
    let body := [
      at_ 0x524D4C48 0 ||| at_ 1 32 ||| at_ (224 + 32 * n) 48, c.seq, c.serial, at_ c.fwVer.toNat 0 ||| at_ c.boots.toNat 32,
      m.iStart, tEnd, m.lastDev,
      at_ (sat 65535 m.frames) 0 ||| at_ (sat 65535 m.lost) 16 ||| at_ (recFlags m c start loss) 32 ||| at_ n 48,
      x.e, c.eTotal, at_ x.vMin.toNat 0 ||| at_ x.vMax.toNat 32, at_ x.pMax.toNat 0 ||| at_ 1 32].flatMap (fun w => toBytes 8 w.toNat)
    let data := body ++ toBytes 16 wt ++ prevBytes c ++ List.replicate 16 0
      ++ ents.flatMap (fun p => entryBytes p.1 p.2.1 p.2.2.1 p.2.2.2 (tget mj p.1 0) (tget cum p.1 0))
    let rec_ := data ++ beBytes 64 (Config.ed25519Sign data).toNat
    { m with
      cart := some { c with
        seq := c.seq + 1, cum := cum, unclean := c.unclean && !start, records := ((c.seq, rec_) :: c.records).take 7000000 }
      iStart := tEnd, accounts := [], frames := 0, lost := 0, noTally := decide (m.frames = 0) }

/-- INTERVAL_END (R528, R533): the interval ends at the next whole second of ISLAND_TIME. -/
def execIntervalEnd (m : Measured) (s : State) : Host.Outcome State Fault Refusal :=
  match s.mtr.cart with
  | some c =>
    if !s.mtr.running then .next s
    else
      let tEnd : Word := BitVec.ofNat 64 ((s.mtr.iStart.toNat / 1000000000 + 1) * 1000000000)
      .next { s with mtr := endInterval s.mtr c false false tEnd m }
  | none => .next s

/-- The island loses its supply (R543): within its hold-up time it ends the interval and persists its counters, or, where that fails, the
energy since the last persisted count is not counted and the next START record says UNCLEAN. -/
def islandDown (s : State) (x : Measured) (persisted : Bool) : State :=
  match s.mtr.cart with
  | some c =>
    if !s.mtr.running then s
    else
      let m := if persisted then endInterval s.mtr c false true (s.mtr.iStart + x.ns.setWidth 64) x
        else { s.mtr with cart := some { c with unclean := true } }
      { s with mtr := { m with running := false, expect := none, accounts := [], frames := 0, lost := 0, lostAll := 0, lastDev := 0, noTally := false } }
  | none => s

/-- ISLAND_POWER_UP (R538, R540, R543): a cartridge may have been changed while the input was removed. -/
def execIslandPowerUp (c : CartIn) (m : Measured) (s : State) : Host.Outcome State Fault Refusal :=
  if s.mtr.running then .next s
  else
    let cart := match c with | .same => s.mtr.cart | .absent => none | .other x => some x
    match cart with
    | none => .next { s with mtr := { s.mtr with cart := none } }
    | some x =>
      let x := { x with boots := x.boots + 1 }
      let mt := { s.mtr with cart := some x, running := true, iStart := x.time, noTally := false }
      .next { s with mtr := endInterval mt x true false x.time { m with e := 0 } }

/-- SEAL_BROKEN (R539): the key is erased, whether or not the module is powered. -/
def execSealBroken (s : State) : Host.Outcome State Fault Refusal :=
  .next { s with mtr := { s.mtr with cart := s.mtr.cart.map (fun c => { c with tampered := true }) } }

/-! ## Requests (R541) -/

/-- STATE of `MTR_STAT`. -/
def mtrState (m : Mtr) : Nat :=
  match m.cart with
  | none => 4
  | some c => if c.tampered then 3 else if !m.running then 0 else if m.noTally then 2 else 1

def mtrStat : Nat := 0xE00128
def mtrArg (s : State) (n : Nat) : Word := rget s (0xE00108 + 8 * n)

/-- A quote over the nonce in the arguments, at `ns` and `e` into the interval. -/
def quoteBytes (s : State) (c : Cartridge) (ns e : Nat) : List Byte :=
  let nonce := (List.range 4).flatMap (fun k => toBytes 8 (mtrArg s k).toNat)
  let data := toBytes 8 (at_ 0x514D4C48 0 ||| at_ (mtrState s.mtr) 32).toNat ++ nonce ++ toBytes 8 (c.seq - 1).toNat
    ++ toBytes 8 (sat (2 ^ 64 - 1) (c.eTotal.toNat + e)) ++ toBytes 8 (s.mtr.iStart.toNat + ns) ++ toBytes 8 c.serial.toNat
  data ++ beBytes 64 (Config.ed25519Sign data).toNat

/-- A request runs: window contents after, and its codes. -/
def mtrRun (s : State) (op ns e : Nat) : State × (BitVec 8 × BitVec 8) :=
  match s.mtr.cart with
  | none => (s, (0x04, 0xE2))
  | some c =>
    if !s.mtr.running then (s, (0x04, 0xE2))
    else if c.tampered then (s, (0x05, 0xE3))
    else if op = 1 then
      if mtrArg s 1 ≠ 0 ∨ mtrArg s 2 ≠ 0 ∨ mtrArg s 3 ≠ 0 then (s, (0x0B, 0xE1))
      else match c.records.find? (fun r => r.1 == mtrArg s 0) with
        | none => (s, (0x05, 0xE0))
        | some r => ({ s with mtr := { s.mtr with fetch := r.2 } }, (0, 0))
    else if op = 2 then ({ s with mtr := { s.mtr with quote := quoteBytes s c ns e } }, (0, 0))
    else (s, (0x0B, 0xE1))

/-- A write of `MTR_REQ`. -/
def mtrReqWr (v : Word) (ns e : Nat) (s : State) : State :=
  let op := bits v 3 0
  let s := rset s 0xE00100 (opKept (rget s 0xE00100) (v &&& 0xFF0F) 2)
  if op = 0 then s
  else
    let (s, r) := mtrRun s op ns e
    let s := statDone s mtrStat r
    { rset s mtrStat (setBits (rget s mtrStat) 39 32 (bits v 15 8)) with mtr := { s.mtr with tag := BitVec.ofNat 8 (bits v 15 8) } }

def execFetch (fn : Fn) (tag : BitVec 8) (s : State) : Host.Outcome State Fault Refusal :=
  let v := at_ tag.toNat 8 ||| 1
  hostPf fn 0xE00100 v (mtrReqWr v 0 0) s
def execQuote (fn : Fn) (tag : BitVec 8) (ns : BitVec 30) (e : Word) (s : State) : Host.Outcome State Fault Refusal :=
  let v := at_ tag.toNat 8 ||| 2
  hostPf fn 0xE00100 v (mtrReqWr v ns.toNat e.toNat) s

end Sys2Proof.Machine
end

