-- ==== Sys2Proof/Machine/Startup.lean ====
section
/-! DEFINITION. Input power and the start-up sequence (R480, R481, R484, R601-R616). -/

namespace Sys2Proof.Machine

/-! ## Conversion (R605, R607, R616) -/

/-- PWR_EN_HIGH: raised, after at least 100 ms low if `held`. -/
def execPwrEnHigh (held : Bool) (s : State) : Host.Outcome State Fault Refusal :=
  let freed := held && !s.boot.pwrEn
  .next (convTry { s with boot := { s.boot with pwrEn := true, locked := s.boot.locked && !freed } })

/-- PWR_EN_LOW. -/
def execPwrEnLow (s : State) : Host.Outcome State Fault Refusal :=
  .next (convOff { s with boot := { s.boot with pwrEn := false } })

/-- INPUT_RISE: the input rises through 43.0 V, after at least 1 s below 1 V if `held`. -/
def execInputRise (held : Bool) (s : State) : Host.Outcome State Fault Refusal :=
  let freed := held && !s.boot.risen
  .next (convTry { s with boot := { s.boot with risen := true, locked := s.boot.locked && !freed } })

/-- INPUT_UNDERVOLTAGE: the input falls through 41.0 V. -/
def execInputUndervoltage (s : State) : Host.Outcome State Fault Refusal :=
  .next (convOff { s with boot := { s.boot with risen := false } })

/-- INPUT_REMOVED: as PWR_EN low, and the island records the loss (R543). -/
def execInputRemoved (m : Measured) (persisted : Bool) (s : State) : Host.Outcome State Fault Refusal :=
  .next (islandDown (convOff { s with boot := { s.boot with risen := false } }) m persisted)

/-- MOD_RST (R578, R601): with conversion on, the sequence runs again from CONVERT. -/
def execModRst (s : State) : Host.Outcome State Fault Refusal :=
  if s.boot.phase = 0 then .next s else .next (moduleCleared s)

/-! ## Phases (R610) -/

/-- A phase fails (R615). -/
def startFail (s : State) (code unit : Nat) : State :=
  let ms := if s.drst.phase = 0 then BitVec.ofNat 16 (sat 65535 (s.boot.convMs + s.devTime.toNat / 1000000)) else s.boot.ms
  { s with
    boot := { s.boot with phase := 9, fail := BitVec.ofNat 8 code, failUnit := BitVec.ofNat 8 unit, ms := ms }
    drst := { s.drst with phase := 0 } }

/-- CONVERT ends: the always-on domain leaves reset, samples the address straps, and starts `DEV_TIME` (R602, R610). -/
def execConvert (ms : BitVec 16) (addr1 addr0 : Bool) (s : State) : Host.Outcome State Fault Refusal :=
  if s.boot.phase ≠ 1 then .next s
  else .next { s with
    devTime := 0
    boot := { s.boot with
      phase := 2, convMs := ms.toNat, smbAddr := some (BitVec.ofNat 7 (0x58 + 2 * b2n addr1 + b2n addr0))
      upLink := s.boot.perst.map (fun p => !p) } }

/-- COOLANT ends: channel 70 reads at least 1.0 L/min and channel 68 below 45 °C. -/
def execCoolant (s : State) : Host.Outcome State Fault Refusal :=
  if s.boot.phase = 2 ∧ chanValue (getChan s 70) 70 ≥ 100 ∧ (getChan s 68).window ≠ [] ∧ chanValue (getChan s 68) 68 < 450 then
    .next { s with boot := { s.boot with phase := 3 } }
  else .next s

/-- COOLANT_TIMEOUT (R615): 60 s. -/
def execCoolantTimeout (s : State) : Host.Outcome State Fault Refusal :=
  if s.boot.phase = 2 ∧ s.devTime.toNat ≥ 60000000000 then .next (startFail s 1 0) else .next s

/-- RAILS. -/
def execRails (s : State) : Host.Outcome State Fault Refusal :=
  if s.boot.phase = 3 then .next { s with boot := { s.boot with phase := 4 } } else .next s

/-! ## SECURE (R480, R481, R484) -/

/-- An image passes (R481). -/
def imagePass (s : State) (i : Image) : Bool :=
  i.sigOk && (i.key.map (fun k => !bit s.sec.revoked k.toNat)).getD false && decide (i.svn.toNat ≥ s.sec.fused.toNat)

/-- Slots in the order of boot: the preferred, the other, the recovery image (R507). -/
def bootOrder (s : State) : List Nat := [s.fw.pref, 1 - s.fw.pref, 2]

/-- Digest of the ROM: a constant of the device, not given by the spec. -/
def romBytes : List Byte := (List.range 48).map (fun i => Config.extByte 0 (2 ^ 80 + i))

/-- Digest of what the island reports at its start (R538, R540); zero without a cartridge. -/
def islandDigest (s : State) : BitVec 384 :=
  match s.mtr.cart with
  | none => 0
  | some c => Config.sha384 ([c.serial, at_ c.fwVer.toNat 0 ||| at_ c.boots.toNat 32, at_ 1 0, at_ (mtrState s.mtr) 0].flatMap
      (fun w => toBytes 8 w.toNat))

/-- M0 takes the ROM digest and the fuse values, and M5 the island's report. -/
def measureBoot (s : State) : State :=
  let s := { s with sec := { s.sec with meas := [] } }
  let s := measExtend s 0 (Config.sha384 (romBytes ++ [s.sec.fused, s.sec.revoked.setWidth 8] ++ toBytes 8 Config.serial.toNat))
  measExtend s 5 (islandDigest s)

/-- SECURE: the security controller's ROM verifies images and releases the Stewards into the first that passes. -/
def execSecure (s : State) : Host.Outcome State Fault Refusal :=
  if s.boot.phase ≠ 4 then .next s
  else
    let s := measureBoot s
    match (bootOrder s).findSome? (fun k => (tget? s.fw.images k).bind (fun i => if imagePass s i then some (k, i) else none)) with
    | none => .next (startFail { s with sec := { s.sec with boot := 2 } } 2 0)
    | some (k, i) =>
      let s := measExtend s 1 i.digest
      .next { s with
        sec := { s.sec with boot := 1, slot := BitVec.ofNat 2 k, svn := i.svn, keyUsed := i.key.getD 0 }
        fw := { s.fw with active := k }
        boot := { s.boot with phase := 5 } }

/-- TRAIN: stacks, bridges and links train, and every Facet tests itself (R610, R615). A device reset is in its step 5 from here on. -/
def execTrain (r : TrainOut) (s : State) : Host.Outcome State Fault Refusal :=
  if s.boot.phase ≠ 5 then .next s
  else match r with
    | .ok => .next { s with
        boot := { s.boot with phase := 6 }
        drst := if s.drst.phase = 0 then s.drst else { s.drst with phase := 5 } }
    | .stack n => .next (startFail s 3 n.val)
    | .bridge n => .next (startFail s 4 n.val)
    | .link n => .next (startFail s 5 n.val)
    | .facet f => .next (startFail s 6 (f.toNat / 8))

/-- FILL: usable memory is zero, and every block good (R181). -/
def execFill (s : State) : Host.Outcome State Fault Refusal :=
  if s.boot.phase ≠ 6 then .next s
  else .next { s with mem := [], poison := [], ue := [], guard := [], boot := { s.boot with phase := 7 } }

/-- Each port with EN 1 starts training (R611). -/
def portsTrain (s : State) : State :=
  (List.finRange 12).foldl (fun s p =>
    if bit (phyCfg s p) 63 ∧ portUse s p ≠ 0 then
      setPhy s p { getPhy s p with st := 1, lanes := 0, half := false, since := s.devTime }
    else s) s

/-- FIRMWARE: the Stewards run the image, every instance is in its reset state, and the device is READY and Bright. -/
def execFirmware (s : State) : Host.Outcome State Fault Refusal :=
  if s.boot.phase ≠ 7 then .next s
  else
    let ms := if s.drst.phase = 0 then BitVec.ofNat 16 (sat 65535 (s.boot.convMs + s.devTime.toNat / 1000000)) else s.boot.ms
    let s := { s with
      boot := { s.boot with phase := 8, ms := ms }
      fw := { s.fw with up := true }
      pwr := (toBright s).pwr }
    .next (portsTrain s)

end Sys2Proof.Machine
end

