-- ==== Sys2Proof/Machine/Firmware.lean ====
section
/-! DEFINITION. The Steward firmware as its users meet it: mailbox, images and activation, log and trace, restarts, out-of-band management
and the slow path (R369, R370, R502-R522). -/

namespace Sys2Proof.Machine

/-! ## Log ring and trace points (R514-R518) -/

def fwReg (fn : Fn) (off : Nat) : Nat := fnReg fn (0xFC0000 + off)
def getLog (s : State) (p : Nat) : FwLog := tget s.fw.logs p {}
def setLog (s : State) (p : Nat) (x : FwLog) : State := { s with fw := { s.fw with logs := tset s.fw.logs p x } }
/-- PF of an upstream port. -/
def portPf (p : Nat) : Fn := BitVec.ofNat 8 (128 * p)
def logRing (s : State) (p : Nat) : Word := rget s (fwReg (portPf p) 0x300)
def logAck (s : State) (p : Nat) : BitVec 48 := (rget s (fwReg (portPf p) 0x310)).setWidth 48
/-- The ring of the PF has a free slot. -/
def logRoom (s : State) (p : Nat) : Bool := decide (((getLog s p).prod - logAck s p).toNat < 2 ^ bits (logRing s p) 4 0)

/-- A record goes into its slot; word 0 is written last (R514). `w` is word 0 without SEQ, then words 1 to 7. -/
def logWrite (s : State) (p : Nat) (w : List Nat) : State :=
  let x := getLog s p
  let r := logRing s p
  let a := bits r 63 12 * 4096 + 64 * (x.prod.toNat % 2 ^ bits r 4 0)
  let s := hostPut s (portPf p) (a + 8) ((w.drop 1).flatMap (toBytes 8))
  let s := hostPut s (portPf p) a (toBytes 8 (w.getD 0 0 + x.prod.toNat))
  setLog s p { x with prod := x.prod + 1 }

/-- A record for one PF: written, counted as lost, or kept until the ring is enabled (R514-R516). -/
def logOne (s : State) (w : List Nat) (p : Nat) : State :=
  let x := getLog s p
  if bit (logRing s p) 11 then
    if logRoom s p then logWrite s p w else setLog s p { x with lost := sat 65535 (x.lost + 1), owed := x.owed + 1 }
  else if x.kept.length < 16384 then setLog s p { x with kept := x.kept ++ [w] } else s

/-- A log record of a core (R514, R516): one below the level set is not made. -/
def logRecord (s : State) (level core code : Nat) (args : List Nat) : State :=
  if level > s.fw.level then s
  else
    let w := [level * 2 ^ 48 + core * 2 ^ 52 + code * 2 ^ 56, s.devTime.toNat] ++ (args ++ List.replicate 6 0).take 6
    logOne (logOne s w 0) w 1

/-- Room has returned: the count of lost records first, then those kept (R515, R516); `fuel` bounds the records. -/
def logDrain (s : State) (p : Nat) : Nat → State
  | 0 => s
  | fuel + 1 =>
    let x := getLog s p
    if !bit (logRing s p) 11 || !logRoom s p then s
    else if x.owed > 0 then
      logDrain (logWrite (setLog s p { x with owed := 0 }) p
        ([2 ^ 48 + 2 ^ 52 + 0xFF * 2 ^ 56, s.devTime.toNat, x.owed] ++ List.replicate 5 0)) p fuel
    else match x.kept with
      | [] => s
      | w :: r => logDrain (logWrite (setLog s p { x with kept := r }) p w) p fuel

/-- A trace point of a class (R518): the code and arguments of its packet are the firmware's own (free). -/
def fwPoint (s : State) (cls core : Nat) : State :=
  if !bit s.fw.trace cls then s
  else
    let code : BitVec 8 := freeBits s 8 5000
    let s' := stwOffer s core [pktHeader 0x04 2 false (core / 4) core s.devTime, at_ cls 0 ||| at_ code.toNat 8,
      freeBits s 64 5001, freeBits s 64 5002]
    nextFree (if bits (rget s 0xC10040) 18 16 = cls then trcTrigger s' 3 else s')

/-- A write of `FW_LOG_RING` (R514, R516): BASE and SIZE change only while EN is 0; SIZE outside 6 to 20 is kept as it was. -/
def logRingWr (fn : Fn) (v : Word) (s : State) : State :=
  let p := portOf fn
  let old := logRing s p
  let v := v &&& 0xFFFFFFFFFFFFF81F
  let v := if bit old 11 then setBits old 11 11 (b2n (bit v 11)) else v
  let v := if 6 ≤ bits v 4 0 ∧ bits v 4 0 ≤ 20 then v else setBits v 4 0 (bits old 4 0)
  let s := rset s (fwReg fn 0x300) v
  if bit v 11 ∧ !bit old 11 then logDrain s p ((getLog s p).kept.length + 1) else s

def execFwLogRingWrite (fn : Fn) (c : LogRingW) (s : State) : Host.Outcome State Fault Refusal :=
  let v := (c.base &&& 0xFFFFFFFFFFFFF000) ||| at_ (b2n c.en) 11 ||| at_ c.size.toNat 0
  hostPf fn 0xFC0300 v (logRingWr fn v) s

/-- A write of `FW_LOG_ACK` (R515). -/
def logAckWr (fn : Fn) (v : Word) (s : State) : State :=
  let p := portOf fn
  let s := rset s (fwReg fn 0x310) (v &&& 0xFFFFFFFFFFFF)
  logDrain s p ((getLog s p).kept.length + 1)

def execFwLogAckWrite (fn : Fn) (r : BitVec 48) (s : State) : Host.Outcome State Fault Refusal :=
  hostPf fn 0xFC0310 (r.setWidth 64) (logAckWr fn (r.setWidth 64)) s

/-! ## Images and activation (R481, R507-R511) -/

/-- The slot that STAGE writes: of slots 0 and 1 the one not active; with the recovery image active, the one not preferred. -/
def stageSlot (s : State) : Nat := if s.fw.active = 2 then 1 - s.fw.pref else 1 - s.fw.active

/-- STAGE: the image replaces whatever was in the slot, and is verified (R507). -/
def doStage (s : State) (img : Image) : State × (BitVec 8 × BitVec 8) :=
  let k := stageSlot s
  if imagePass s img then ({ s with fw := { s.fw with images := tset s.fw.images k img, staged := true } }, (0, 0))
  else ({ s with fw := { s.fw with images := tdel s.fw.images k, staged := false } }, (0x05, 0xD3))

/-- A job boundary holds (R508). -/
def boundary (s : State) : Bool :=
  (List.range 256).all (fun k =>
    let v : Vi := BitVec.ofNat 8 k
    let i := getInst s v
    i.st == 0 || i.st == 1 || (i.st == 2 && frozen s v))
  && workless s && s.snaps.all (fun p => p.2.st == 0)

/-- Version of the staged image. -/
def stagedVersion (s : State) : BitVec 32 :=
  if s.fw.staged then ((tget? s.fw.images (stageSlot s)).map (·.version)).getD 0 else 0

/-- The Stewards stop at their next command boundary and the activation begins (R509). -/
def activateBegin (s : State) (who : Option (Fn × BitVec 8)) (deferred : Bool) : State :=
  fwPoint { s with fw := { s.fw with
    act := 2, actBy := who, actWas := deferred, actVer := stagedVersion s } } 6 0

/-- ACTIVATE (R509): codes of a reply at once, or none while the activation runs. -/
def doActivate (s : State) (auto : Bool) (who : Option (Fn × BitVec 8)) : State × Option (BitVec 8 × BitVec 8) :=
  if !s.fw.staged then (s, some (0x0B, 0xD4))
  else if emergency s then
    ({ s with fw := { s.fw with
        act := if auto then 1 else s.fw.act, auto := auto || s.fw.auto, actVer := stagedVersion s, actSt := 0x0E, actDt := 0
        clear := none } }, some (0x0E, 0))
  else if boundary s then (activateBegin s who false, none)
  else (s, some (0x01, 0xD5))

/-- Codes of ACT_ABANDONED and of an activation's own log record are the firmware's (free). -/
def freeCode (s : State) : Nat := (freeBits s 8 5010).toNat

/-- DEFERRED_ACTIVATION_TIMER (R509): 10 s clear of emergency. -/
def execDeferredActivationTimer (s : State) : Host.Outcome State Fault Refusal :=
  match s.fw.clear with
  | none => .next s
  | some t =>
    if s.fw.act ≠ 1 ∨ emergency s ∨ (s.devTime - t).toNat < 10000000000 then .next s
    else if boundary s then .next (activateBegin { s with fw := { s.fw with auto := false } } none true)
    else
      let s := { s with fw := { s.fw with act := 0, auto := false, actSt := 0x01, actDt := 0xD5 } }
      .next (nextFree (logRecord s 2 0 (freeCode s) []))

/-! ## The mailbox (R504-R506) -/

def mbStat (fn : Fn) : Nat := fwReg fn 0x10
def mbReq (s : State) (fn : Fn) (i : Nat) : Word := rget s (fwReg fn (0x100 + 8 * i))
def mbOp : MbCmd → Nat
  | .getInfo => 0x01 | .featureSet => 0x02 | .featureGet => 0x03 | .stage _ => 0x10 | .activate => 0x11 | .activateCancel => 0x12
  | .svnCommit => 0x13 | .keyRevoke => 0x14 | .logCfg => 0x20 | .traceCfg => 0x21 | .stgBind _ => 0x30 | .stgUnbind => 0x31
  | .slowCfg => 0x40 | .ptpCfg => 0x41 | .restart => 0x50 | .bad op => op.toNat

/-- Bits of words 1 and 2 that a command uses; every other bit of the request is zero (R505). -/
def mbMask : MbCmd → Word × Word
  | .getInfo => (0, 0) | .featureSet => (0xFFFFFFFF, 0) | .featureGet => (0xFFFF, 0) | .stage _ => (BitVec.allOnes 64, BitVec.allOnes 64)
  | .activate => (1, 0) | .activateCancel => (0, 0) | .svnCommit => (0, 0) | .keyRevoke => (3, 0) | .logCfg => (7, 0)
  | .traceCfg => (0x7F, 0) | .stgBind _ => (0xFFFFFFFFFFFF0F03, BitVec.allOnes 64) | .stgUnbind => (0x3F, 0) | .slowCfg => (0x1FFF0F, 0)
  | .ptpCfg => (0x1FF0F, 0xFFFF) | .restart => (0xF, 0) | .bad _ => (0, 0)

/-- Unused bytes of the request are zero. -/
def mbClean (s : State) (fn : Fn) (c : MbCmd) : Bool :=
  let m := mbMask c
  (List.range 32).all (fun i =>
    let used : Word := if i = 1 then m.1 else if i = 2 then m.2 else 0
    mbReq s fn i &&& (~~~used) == 0)

/-- A reply is written, to the registers and, with EN, to the host with word 0 last; BUSY clears (R504). -/
def mbReply (s : State) (fn : Fn) (tag : BitVec 8) (op : Nat) (r : BitVec 8 × BitVec 8) (data : List Word) : State :=
  let p := portOf fn
  let seq := tget s.fw.rseq p 0 + 1
  let w0 := at_ seq.toNat 32 ||| at_ tag.toNat 24 ||| at_ op 16 ||| at_ r.2.toNat 8 ||| at_ r.1.toNat 0
  let body := (data ++ List.replicate 31 0).take 31
  let s := { s with fw := { s.fw with rseq := tset s.fw.rseq p seq } }
  let s := (List.range 31).foldl (fun s i => rset s (fwReg fn (0x208 + 8 * i)) (body.getD i 0)) (rset s (fwReg fn 0x200) w0)
  let a := rget s (fwReg fn 8)
  let s := if bit a 0 then
      let base := bits a 63 8 * 256
      hostPut (hostPut s fn (base + 8) (body.flatMap (fun w => toBytes 8 w.toNat))) fn base (toBytes 8 w0.toNat)
    else s
  let s := rset s (mbStat fn) (at_ seq.toNat 32 ||| at_ (b2n (bit (rget s (mbStat fn)) 1)) 1)
  fwPoint s 0 (4 * p)

/-- Objects that depend on a feature (R511). -/
def featureUsed (s : State) (n : Nat) : Bool :=
  match n with
  | 1 => s.inst.any (fun p => p.2.st == 2)
  | 2 => s.comps.any (fun p => decide (p.1 > 256) && p.2.st != 0)
  | 3 => !s.accs.isEmpty
  | 4 => !(qps s).isEmpty || !(regions s).isEmpty
  | 5 => mirrored s && s.pair.st != 0
  | 6 => s.pair.mode == 2 && s.pair.st != 0
  | 7 => (List.range 64).any (fun t => bits (rget s (stgTgtReg t)) 61 60 == 2 && bits (rget s (stgTgtReg t)) 63 62 != 0)
  | 8 => s.snaps.any (fun p => p.2.st != 0)
  | 9 => (List.range 12).any (fun p => bit (msecCfg s p) 63)
  | _ => false

/-- M2 is extended with the versions in effect (R484). -/
def measFeatures (s : State) : State :=
  measExtend s 2 (Config.sha384 ((List.range 9).flatMap (fun k => toBytes 8 (featureVer s.fw (k + 1)))))

/-- FEATURE_SET (R511). -/
def doFeatureSet (s : State) (n v : Nat) : State × (BitVec 8 × BitVec 8) :=
  if n = 0 ∨ n > 9 ∨ v > 1 then (s, (0x0B, 0xD1))
  else if featureVer s.fw n ≠ v ∧ featureUsed s n then (s, (0x01, 0xD6))
  else (measFeatures { s with fw := { s.fw with features := tset s.fw.features n v } }, (0, 0))

/-- A core hot-restarts (R519, R520): the fourth time in 60 s holds it in reset, and with all four of its quadrant held the device is
lost. -/
def restartCore (s : State) (n : Nat) (cause : BitVec 8) (pc : Word) (who : Option (Fn × BitVec 8)) : State :=
  let c := tget s.fw.cores n {}
  let times := s.devTime :: c.times.filter (fun t => decide ((s.devTime - t).toNat ≤ 60000000000))
  let hold := decide (times.length ≥ 4)
  let c := { c with
    st := if hold then 2 else 1, restarts := sat 65535 (c.restarts + 1), cause := cause, pc := pc, times := times, by_ := who }
  let s := fwPoint { s with fw := { s.fw with restarts := sat 65535 (s.fw.restarts + 1), cores := tset s.fw.cores n c } } 6 n
  if !hold then s
  else
    let q := n / 4
    let s := raiseErr s { cause := 0x0C, sev := 2, unit := quadUd s q, arg0 := BitVec.ofNat 64 n }
    if (List.range 4).all (fun k => (tget s.fw.cores (4 * q + k) {}).st == 2) then
      raiseErr s { cause := 0x0D, sev := 3, unit := quadUd s q, arg0 := BitVec.ofNat 64 q }
    else s

/-- The exact-match flow contexts through which the storage engine receives an NVMe/TCP target's data (R340), one for each connection. They
count in the PF's instance. Their keys come from the 512-byte block, whose layout the spec does not give (free), and their action names the
storage engine by a KIND no PF can write (DESIGN CHOICE, Assumption 52). -/
def bindFlows (s : State) (fn : Fn) : Nat → Except (BitVec 8) (State × List Nat)
  | 0 => .ok (s, [])
  | k + 1 =>
    if flowCount s ≥ 1048576 then .error 0x0C
    else match pickCtx s fn with
      | .error e => .error e
      | .ok n =>
        let key := (List.range 48).map (fun i => freeBits s 8 (0x3400000 + i))
        (bindFlows (nextFree (newCtx s fn n (.flow fn key (toBytes 48 15) {}))) fn k).map (fun x => (x.1, n :: x.2))

/-- STG_BIND (R339, R340, R505): the lowest target not bound. -/
def doBind (s : State) (fn : Fn) (r : BindIn) : State × (BitVec 8 × BitVec 8) × List Word :=
  let w := mbReq s fn 1
  let kind := bits w 1 0
  let port := bits w 11 8
  let isTcp (t : Nat) : Bool := bits (rget s (stgTgtReg t)) 63 62 != 0 && bits (rget s (stgTgtReg t)) 61 60 == 2
  let tcp := ((List.range 64).filter isTcp).length
  if (kind ≠ 1 ∧ kind ≠ 2) ∨ (kind = 1 ∧ (port > 5 ∨ mbReq s fn 2 ≠ 0)) ∨ (kind = 2 ∧ (port > 11 ∨ bits w 31 16 ≠ 0)) then
    (s, (0x0B, 0xD1), [])
  else if kind = 2 ∧ featureVer s.fw 7 = 0 then (s, (0x0B, 0), [])
  else if kind = 2 ∧ !rangeOk s fn (mbReq s fn 2) 512 .rd then (s, (0x0B, 0xD1), [])
  else match (List.range 64).find? (fun t => bits (rget s (stgTgtReg t)) 63 62 == 0) with
    | none => (s, (0x0C, 0), [])
    | some t =>
      if kind = 2 ∧ tcp ≥ 16 then (s, (0x0C, 0), [])
      else if kind = 2 ∧ !((portOfNat port).map (runsEth s)).getD false then (s, (0x0B, 0xD1), [])
      else if !r.ready then (s, (0x05, 0xD8), [])
      else
        let v := at_ 1 62 ||| at_ kind 60 ||| at_ port 56 ||| at_ (Nat.min 4 r.qpairs.toNat) 48 ||| at_ r.bsz.toNat 32
          ||| (if kind = 1 then at_ (bits w 31 16) 0 else 0)
        match bindFlows s fn (if kind = 2 then Nat.min 4 r.qpairs.toNat else 0) with
        | .error e => (s, (e, 0), [])
        | .ok (s, flows) =>
          let s := rset s (stgTgtReg t) v
          let s := { s with stgs := tset s.stgs t { tmo := if r.tmo = 0 then 10000 else r.tmo, wz := r.wz, ns := r.ns, flows := flows } }
          (fwPoint s 2 2, (0, 0), [BitVec.ofNat 64 t])

/-- STG_UNBIND (R506). -/
def doUnbind (s : State) (t : Nat) : State × (BitVec 8 × BitVec 8) :=
  if bits (rget s (stgTgtReg t)) 63 62 = 0 then (s, (0x0B, 0xD1))
  else if s.descs.any (fun d => d.kind == 3 && d.st == .drive && dTarget d == t) then (s, (0x01, 0xD9))
  else
    let s := (tget s.stgs t {}).flows.foldl (fun s n => match getFlow s n with | some (o, _, _, _) => freeCtx s o n | none => s) s
    (fwPoint { rset s (stgTgtReg t) 0 with stgs := tdel s.stgs t } 2 2, (0, 0))

/-- Slow-path counts of a port, words 1 to 4 of the reply of SLOW_CFG (R512). -/
def slowCounts (s : State) (p : Nat) : List Word :=
  (List.range 4).map (fun k =>
    let (n, w) := tget s.fw.slowCnt (p * 8 + k + 1) ((0 : BitVec 48), false)
    n.setWidth 64 ||| at_ (b2n w) 48)

/-- A mailbox command runs: state after, and its reply; no reply yet for one that waits. -/
def mbRun (s : State) (fn : Fn) (tag : BitVec 8) (c : MbCmd) : State × Option ((BitVec 8 × BitVec 8) × List Word) :=
  let w := mbReq s fn 1
  let bad : State × Option ((BitVec 8 × BitVec 8) × List Word) := (s, some ((0x0B, 0xD1), []))
  let ok (s : State) : State × Option ((BitVec 8 × BitVec 8) × List Word) := (s, some ((0, 0), []))
  let out (x : State × (BitVec 8 × BitVec 8)) : State × Option ((BitVec 8 × BitVec 8) × List Word) := (x.1, some (x.2, []))
  if !mbClean s fn c then bad
  else match c with
    | .getInfo =>
      let act : Option Image := tget? s.fw.images s.fw.active
      let stg : Option Image := if s.fw.staged then tget? s.fw.images (stageSlot s) else none
      let feats := (List.range 9).foldl (fun a k => a + b2n (featureVer s.fw (k + 1) != 0) * 2 ^ (k + 1)) 0
      (s, some ((0, 0), [((act.map (fun (i : Image) => i.version)).getD 0).setWidth 64, (stagedVersion s).setWidth 64,
        ((act.map (fun (i : Image) => i.svn)).getD 0).setWidth 64 ||| at_ ((stg.map (fun (i : Image) => i.svn)).getD 0).toNat 8, BitVec.ofNat 64 feats]))
    | .featureSet => out (doFeatureSet s (bits w 15 0) (bits w 31 16))
    | .featureGet => (s, some ((0, 0), [BitVec.ofNat 64 (featureVer s.fw (bits w 15 0))]))
    | .stage img =>
      let n := (mbReq s fn 2).toNat
      if n = 0 ∨ n > 33554432 then bad
      else if !rangeOk s fn w n .rd then (s, some ((0x05, 0xD3), [])) else out (doStage s img)
    | .activate =>
      let (s, r) := doActivate s (bit w 0) (some (fn, tag))
      (s, r.map (fun r => (r, [])))
    | .activateCancel => ok { s with fw := { s.fw with act := if s.fw.act = 1 then 0 else s.fw.act, auto := false } }
    | .svnCommit =>
      let n := ((tget? s.fw.images s.fw.active).map (·.svn)).getD 0
      ok (if n.toNat > s.sec.fused.toNat then { s with sec := { s.sec with fused := n } } else s)
    | .keyRevoke =>
      let k := bits w 1 0
      if s.sec.keyUsed.toNat = k then (s, some ((0x0B, 0xD7), []))
      else ok { s with sec := { s.sec with revoked := s.sec.revoked ||| BitVec.ofNat 4 (2 ^ k) } }
    | .logCfg => if bits w 2 0 > 4 then bad else ok { s with fw := { s.fw with level := bits w 2 0 } }
    | .traceCfg => ok { s with fw := { s.fw with trace := w } }
    | .stgBind r => let (s, a, d) := doBind s fn r; (s, some (a, d))
    | .stgUnbind => out (doUnbind s (bits w 5 0))
    | .slowCfg =>
      let p := bits w 3 0
      if p > 11 then bad
      else
        let s := { s with fw := { s.fw with slow := tset s.fw.slow p w } }
        (s, some ((0, 0), slowCounts s p))
    | .ptpCfg =>
      let p := bits w 3 0
      if p > 11 then bad else ok { s with fw := { s.fw with ptp := tset s.fw.ptp p (w, mbReq s fn 2) } }
    | .restart =>
      let n := bits w 3 0
      if (tget s.fw.cores n {}).st = 2 then bad
      else if (tget s.fw.cores n {}).st = 1 then (s, some ((0x01, 0), []))
      else
        let s := restartCore s n 3 (freeBits s 64 5020) (some (fn, tag))
        (nextFree s, if (tget s.fw.cores n {}).st = 2 then some ((0, 0), []) else none)
    | .bad _ => bad

/-- A mailbox command starts where its core serves it, or waits for the core or for the activation under way (R510, R519). -/
def mbStart (s : State) (fn : Fn) (tag : BitVec 8) (c : MbCmd) : State :=
  let own := 4 * portOf fn
  -- a new NVMe/TCP connection waits for the Stewards that set it up (R340)
  let waits := match c with
    | .stgBind _ => decide (bits (mbReq s fn 1) 1 0 = 2) && !slowUp s (bits (mbReq s fn 1) 11 8 / 3)
    | _ => false
  if !dutyUp s own || waits then { s with fw := { s.fw with mbWait := s.fw.mbWait ++ [(fn, tag, c)] } }
  else
    let s := fwPoint s 0 (dutyCore s own)
    match mbRun s fn tag c with
    | (s, some (r, d)) => mbReply s fn tag (mbOp c) r d
    | (s, none) => s

/-- A write of `FW_MB_CMD` (R504). -/
def mbWr (fn : Fn) (tag : BitVec 8) (c : MbCmd) (s : State) : State :=
  if statBusy s (mbStat fn) then statOvr s (mbStat fn)
  else mbStart (statStart (rset s (fwReg fn 0) (at_ tag.toNat 40 ||| at_ (mbOp c) 0)) (mbStat fn)) fn tag c

/-- A mailbox command of a PF. -/
def mailbox (fn : Fn) (tag : BitVec 8) (c : MbCmd) (s : State) : Host.Outcome State Fault Refusal :=
  hostPf fn 0xFC0000 (at_ tag.toNat 40 ||| at_ (mbOp c) 0) (mbWr fn tag c) s

def execGetInfo (fn : Fn) (tag : BitVec 8) (s : State) : Host.Outcome State Fault Refusal := mailbox fn tag .getInfo s
def execFeatureSet (fn : Fn) (tag : BitVec 8) (s : State) : Host.Outcome State Fault Refusal := mailbox fn tag .featureSet s
def execFeatureGet (fn : Fn) (tag : BitVec 8) (s : State) : Host.Outcome State Fault Refusal := mailbox fn tag .featureGet s
def execStage (fn : Fn) (tag : BitVec 8) (img : Image) (s : State) : Host.Outcome State Fault Refusal := mailbox fn tag (.stage img) s
def execActivate (fn : Fn) (tag : BitVec 8) (s : State) : Host.Outcome State Fault Refusal := mailbox fn tag .activate s
def execActivateCancel (fn : Fn) (tag : BitVec 8) (s : State) : Host.Outcome State Fault Refusal := mailbox fn tag .activateCancel s
def execSvnCommit (fn : Fn) (tag : BitVec 8) (s : State) : Host.Outcome State Fault Refusal := mailbox fn tag .svnCommit s
def execKeyRevoke (fn : Fn) (tag : BitVec 8) (s : State) : Host.Outcome State Fault Refusal := mailbox fn tag .keyRevoke s
def execLogCfg (fn : Fn) (tag : BitVec 8) (s : State) : Host.Outcome State Fault Refusal := mailbox fn tag .logCfg s
def execTraceCfg (fn : Fn) (tag : BitVec 8) (s : State) : Host.Outcome State Fault Refusal := mailbox fn tag .traceCfg s
def execStgBind (fn : Fn) (tag : BitVec 8) (r : BindIn) (s : State) : Host.Outcome State Fault Refusal := mailbox fn tag (.stgBind r) s
def execStgUnbind (fn : Fn) (tag : BitVec 8) (s : State) : Host.Outcome State Fault Refusal := mailbox fn tag .stgUnbind s
def execSlowCfg (fn : Fn) (tag : BitVec 8) (s : State) : Host.Outcome State Fault Refusal := mailbox fn tag .slowCfg s
def execPtpCfg (fn : Fn) (tag : BitVec 8) (s : State) : Host.Outcome State Fault Refusal := mailbox fn tag .ptpCfg s
def execRestart (fn : Fn) (tag : BitVec 8) (s : State) : Host.Outcome State Fault Refusal := mailbox fn tag .restart s

/-- Commands that waited run, in order, where their core serves them. -/
def mbResume (s : State) : State :=
  s.fw.mbWait.foldl (fun s x => mbStart s x.1 x.2.1 x.2.2) { s with fw := { s.fw with mbWait := [] } }

/-- Waiting commands of a mailbox whose Steward restarted complete with RETRY and RESTARTED. -/
def mbRestarted (s : State) (core : Nat) : State :=
  let mine (x : Fn × BitVec 8 × MbCmd) : Bool := dutyCore s (4 * portOf x.1) == core
  let l := s.fw.mbWait.filter mine
  l.foldl (fun s x => mbReply s x.1 x.2.1 (mbOp x.2.2) (0x01, 0xD0) [])
    { s with fw := { s.fw with mbWait := s.fw.mbWait.filter (fun x => !mine x) } }

/-! ## Restarts (R517, R519, R520, R596) -/

/-- A core that runs now restarts by itself. -/
def coreFails (s : State) (core : Nat) (cause : BitVec 8) (pc : Word) : Host.Outcome State Fault Refusal :=
  if !stwRuns s core then .next s
  else
    let s := restartCore s core cause pc none
    -- the duties of a core now held move to another of its quadrant, and so do the commands that waited for it
    .next (if (tget s.fw.cores core {}).st = 2 then mbResume s else s)

/-- STEWARD_WATCHDOG (R519). -/
def execStewardWatchdog (core : BitVec 4) (pc : Word) (s : State) : Host.Outcome State Fault Refusal := coreFails s core.toNat 1 pc
/-- STEWARD_FAULT (R519). -/
def execStewardFault (core : BitVec 4) (pc : Word) (s : State) : Host.Outcome State Fault Refusal := coreFails s core.toNat 2 pc

/-- The core's instruction trace after a hot restart: TARGET with FLAG 1, then SYNC (R596, R600); the address is the image's (free). -/
def traceRestart (s : State) (n : Nat) : State :=
  if !bit (rget s 0xC10048) n then s
  else
    let pc : Word := freeBits s 64 5030
    let s := stwOffer s n [pktHeader 0x03 1 true (n / 4) n s.devTime, pc]
    nextFree (stwPut s n [pktHeader 0x01 2 false (n / 4) n s.devTime, pc, s.devTime, 0])

/-- STEWARD_RESTART_DONE (R517, R519): the core runs again. -/
def execStewardRestartDone (core : BitVec 4) (s : State) : Host.Outcome State Fault Refusal :=
  let n := core.toNat
  let c := tget s.fw.cores n {}
  if c.st ≠ 1 then .next s
  else
    let own (fn : Fn) : Bool := dutyCore s (4 * portOf fn) == n
    let s := { s with fw := { s.fw with cores := tset s.fw.cores n { c with st := 0, by_ := none } } }
    let s := logRecord (traceRestart s n) 0 n 1 [n, c.cause.toNat, c.pc.toNat]
    let s := match c.by_ with
      | some (fn, tag) => mbReply s fn tag 0x50 (if own fn then (0x01, 0xD0) else (0, 0)) []
      | none => s
    .next (mbRestarted s n)

/-! ## Activation ends (R509-R511, R520) -/

/-- Selections that the new image does not support return to their state before negotiation, and a log record names each. -/
def dropFeatures (s : State) (gone : List Nat) : State :=
  gone.foldl (fun s n =>
    nextFree (logRecord { s with fw := { s.fw with features := tdel s.fw.features n } } 2 0 (freeCode s) [n])) s

/-- ACTIVATION_COMPLETE: the image is verified again; the Stewards start it, or resume the old one. -/
def execActivationComplete (gone : List Nat) (s : State) : Host.Outcome State Fault Refusal :=
  if s.fw.act ≠ 2 then .next s
  else
    let k := stageSlot s
    let who := s.fw.actBy
    let was := s.fw.actWas
    let (s, r) := match tget? s.fw.images k with
      | some i =>
        if imagePass s i then
          let s := { s with
            fw := { s.fw with
              act := 0, active := k, pref := k, staged := (tget? s.fw.images (1 - k)).isSome && s.fw.active != 2
              cores := s.fw.cores.map (fun (c : Nat × StwCore) => (c.1, { c.2 with st := 0, times := [], by_ := none })) }
            sec := { s.sec with svn := i.svn, keyUsed := i.key.getD 0, slot := BitVec.ofNat 2 k, sessions := [], kek := [] } }
          (dropFeatures (measExtend s 1 i.digest) gone, ((0 : BitVec 8), (0 : BitVec 8)))
        else ({ s with fw := { s.fw with act := 0 } }, ((0x05 : BitVec 8), (0xD3 : BitVec 8)))
      | none => ({ s with fw := { s.fw with act := 0 } }, ((0x05 : BitVec 8), (0xD3 : BitVec 8)))
    let s := { s with fw := { s.fw with actBy := none, actWas := false, auto := false, actSt := r.1, actDt := r.2 } }
    let s := if was then nextFree (logRecord s 2 0 (freeCode s) [r.1.toNat, r.2.toNat]) else s
    let s := match who with | some (fn, tag) => mbReply s fn tag 0x11 r [] | none => s
    .next (mbResume (fwPoint s 6 0))

/-! ## IEEE 1588 (R513) -/

/-- PTP_MESSAGE: the servo of the PTP port sets the rate of `DEV_TIME`, parts per 10^9, within 200 ppm. -/
def execPtpMessage (port : Port) (rate : Int) (s : State) : Host.Outcome State Fault Refusal :=
  if !dutyUp s 5 ∨ !bit (tget s.fw.ptp port.val (0, 0)).1 16 then .next s
  else .next (fwPoint { s with fw := { s.fw with rate := max (-200000) (min 200000 rate) } } 4 5)

/-! ## Out-of-band management (R521) -/

/-- A message of MCTP reaches the firmware. -/
def oob (via : SpdmVia) (body : State → State) (s : State) : Host.Outcome State Fault Refusal :=
  match via with
  | .doe _ => .next s
  | _ => if viaUp s via then .next (fwPoint (body s) 5 1) else .next s

/-- MCTP_CONTROL: Set Endpoint ID assigns an EID; any other control message is answered with the EID held. -/
def execMctpControl (via : SpdmVia) (eid : Option (BitVec 8)) (s : State) : Host.Outcome State Fault Refusal :=
  oob via (fun s =>
    let e := eid.getD (tget s.fw.eid (viaKey via) 0)
    { s with fw := { s.fw with eid := tset s.fw.eid (viaKey via) e }, reply := [e], replyPoison := false }) s

/-- PLDM_PLATFORM: a numeric sensor: a temperature channel 0 to 67, module input power 71, firmware state 0x100 (the numbers are DESIGN
CHOICE, Assumption 19); another is answered with an error code. -/
def execPldmPlatform (via : SpdmVia) (sensor : BitVec 16) (s : State) : Host.Outcome State Fault Refusal :=
  oob via (fun s =>
    let n := sensor.toNat
    let d := if n ≤ 67 ∨ n = 71 then toBytes 4 (chanValue (getChan s n) n) else if n = 0x100 then toBytes 4 (fwState s) else [0x80]
    { s with reply := d, replyPoison := false }) s

/-- PLDM_FIRMWARE_UPDATE: an image is staged as STAGE does. -/
def execPldmFirmwareUpdate (via : SpdmVia) (img : Image) (s : State) : Host.Outcome State Fault Refusal :=
  oob via (fun s => let (s, r) := doStage s img; { s with reply := [r.1], replyPoison := false }) s

/-- ACTIVATE_FIRMWARE: as ACTIVATE with AUTO 1. -/
def execActivateFirmware (via : SpdmVia) (s : State) : Host.Outcome State Fault Refusal :=
  oob via (fun s => let (s, r) := doActivate s true none; { s with reply := [(r.getD (0, 0)).1], replyPoison := false }) s

/-! ## The slow path (R369, R370, R512) -/

def slowCount (s : State) (port k : Nat) : State := { s with fw := { s.fw with slowCnt := bumpCnt s.fw.slowCnt (port * 8 + k) 1 } }

/-- Where an IPv6 fragment header lies, and where the field that names it does; `fuel` bounds the headers. -/
def fragHdr (b : List Byte) (nhAt off : Nat) : Nat → Option (Nat × Nat)
  | 0 => none
  | fuel + 1 =>
    let nh := be b nhAt 1
    if nh = 44 then (if off + 8 ≤ b.length then some (nhAt, off) else none)
    else if nh = 0 ∨ nh = 43 ∨ nh = 60 then
      (if off + 8 ≤ b.length then fragHdr b off (off + (be b (off + 1) 1 + 1) * 8) fuel else none)
    else none

/-- A fragment: its datagram's key, the frame bytes before its payload with the fragment header gone, offset, payload, and whether it is
the last. -/
structure Piece where
  key  : List Byte
  head : List Byte
  off  : Nat
  data : List Byte
  last : Bool

/-- The fragment a frame holds. -/
def pieceOf (b : List Byte) (h : PHdr) : Option Piece :=
  let o := h.l3Off
  if h.l3 = 1 then
    let ihl := be b o 1 % 16 * 4
    let f := be b (o + 6) 2
    some {
      key := [4] ++ h.sip ++ h.dip ++ beBytes 1 h.proto ++ (b.drop (o + 4)).take 2, head := b.take (o + ihl), off := f % 8192 * 8
      data := (b.drop (o + ihl)).take (be b (o + 2) 2 - ihl), last := f / 8192 % 2 = 0 }
  else if h.l3 = 2 then
    match fragHdr b (o + 6) (o + 40) 8 with
    | none => none
    | some (nhAt, fo) =>
      let f := be b (fo + 2) 2
      some {
        key := [6] ++ h.sip ++ h.dip ++ (b.drop (fo + 4)).take 4
        head := patch (b.take fo) nhAt ((b.drop fo).take 1), off := f / 8 * 8
        data := (b.drop (fo + 8)).take (o + 40 + be b (o + 4) 2 - (fo + 8)), last := f % 2 = 0 }
  else none

/-- Parts in order cover the datagram from 0 to its end. -/
def coversAll : List (Nat × List Byte) → Nat → Nat → Bool
  | [], at0, total => at0 == total
  | p :: r, at0, total => p.1 == at0 && coversAll r (at0 + p.2.length) total

/-- Two parts overlap. -/
def clash (a b : Nat × List Byte) : Bool := decide (a.1 < b.1 + b.2.length) && decide (b.1 < a.1 + a.2.length)

/-- The whole datagram's frame: the first fragment's headers with the length and checksum of the whole (R370). -/
def rebuilt (d : Datagram) (l3 o : Nat) : List Byte :=
  let body := d.parts.flatMap (·.2)
  let b := d.head ++ body
  if l3 = 1 then
    let n := d.head.length - o
    let b := patch (patch b (o + 2) (beBytes 2 (n + body.length))) (o + 6) [0, 0]
    let z := patch b (o + 10) [0, 0]
    patch z (o + 10) (beBytes 2 (checksum (onesSum ((z.drop o).take n))))
  else patch b (o + 4) (beBytes 2 (d.head.length - o - 40 + body.length))

/-- One datagram the same as another. -/
def sameGram (q : BitVec 2) (port : Nat) (key : List Byte) (d : Datagram) : Bool := d.quad == q && d.port == port && d.key == key

/-- The fragment the Stewards take from a frame: of the outer datagram, or, where that is whole, of the datagram in its tunnel. -/
def slowPiece (b : List Byte) : PHdr × Option Piece :=
  let p := parseFrame b
  if p.outer.frag then (p.outer, pieceOf b p.outer)
  else (p.inner, (pieceOf b p.inner).map (fun x => { x with key := x.key ++ beBytes 3 p.vni }))

/-- The frame reinjected: one whose inner datagram was fragmented has the lengths of its outer headers raised to it (DEDUCED,
Assumption 38). -/
def reinjected (d : Datagram) (h : PHdr) : List Byte :=
  let b := rebuilt d h.l3 h.l3Off
  if (parseLayer b 0 2).l3Off = h.l3Off then b else fillOuter b none

/-- A fragment joins its datagram; a complete one is reinjected. -/
def reassemble (s : State) (q : BitVec 2) (f : SlowFrame) (p : Port) : State :=
  let (h, x) := slowPiece f.data
  match x with
  | none => prismDrop s f.port 13
  | some x =>
    let d : Datagram := (s.reasm.find? (sameGram q f.port x.key)).getD {
      quad := q, port := f.port, key := x.key, head := [], parts := [], total := none, first := s.devTime }
    let rest := s.reasm.filter (fun y => !sameGram q f.port x.key y)
    let mine := (x.off, x.data)
    let total := if x.last then some (x.off + x.data.length) else d.total
    let head := if x.off = 0 then x.head else d.head
    let size := (head.length - (if head.isEmpty then 0 else h.l3Off)) + Nat.max (x.off + x.data.length) (total.getD 0)
    if d.parts.any (clash mine) ∨ size > 9216 then prismDrop { s with reasm := rest } f.port 13
    else if d.parts.isEmpty ∧ (rest.filter (fun y => y.quad == q)).length ≥ 256 then prismDrop s f.port 13
    else
      let parts := (mine :: d.parts).mergeSort (fun a b => decide (a.1 ≤ b.1))
      let d := { d with head := head, parts := parts, total := total }
      if !head.isEmpty ∧ (total.map (coversAll parts 0)).getD false then
        brmFrames (classify { s with reasm := rest } p (reinjected d h) false true f.time)
      else { s with reasm := rest ++ [d] }

/-- A RULE or DEEP frame goes to the ring SLOW_CFG names, with RULE 0x7FE (R512). -/
def slowDeliver (s : State) (f : SlowFrame) : State :=
  let w := tget s.fw.slow f.port 0
  if !bit w 20 then slowCount s f.port 3
  else
    let i : RxInfo := { port := f.port, time := f.time, fhash := f.fhash.toNat, rule := 0x7FE }
    match deliver s (BitVec.ofNat 8 (bits w 15 8)) (bits w 19 16) f.data i with
    | (s, none) => slowCount s f.port 2
    | (s, some k) => if k = 4 then slowCount s f.port 3 else prismDrop s f.port k

/-- SLOW_PATH_FRAME: the Stewards of a quadrant take its oldest frame; `owned` says that it belongs to a protocol the firmware consumes. -/
def execSlowPathFrame (quad : BitVec 2) (owned : Bool) (s : State) : Host.Outcome State Fault Refusal :=
  match s.slowQ.find? (fun x => x.1 == quad) with
  | none => .next s
  | some (q, f) =>
    if !slowUp s quad.toNat then .next s
    else
      let s := fwPoint { s with slowQ := s.slowQ.erase (q, f) } 1 (4 * quad.toNat + 2)
      .next (settle (
        if f.cause = 4 then slowCount s f.port 4
        else if f.cause = 2 then (match portOfNat f.port with | some p => reassemble s q f p | none => s)
        else if owned then slowCount s f.port 1
        else slowDeliver s f))

/-- REASSEMBLY_TIMEOUT (R370): the n-th datagram of a quadrant is incomplete 10 ms after its first fragment. -/
def execReassemblyTimeout (quad : BitVec 2) (n : Nat) (s : State) : Host.Outcome State Fault Refusal :=
  match (s.reasm.filter (fun d => d.quad == quad))[n]? with
  | none => .next s
  | some d =>
    if (s.devTime - d.first).toNat < 10000000 then .next s
    else .next (prismDrop { s with reasm := s.reasm.erase d } d.port 13)

end Sys2Proof.Machine
end

