-- ==== Sys2Proof/Machine/Ddt.lean ====
section
/-! DEFINITION. The Device Description Table (R301, R302). -/

namespace Sys2Proof.Machine

/-- An entry: TYPE, ID and its data words at 0x08, 0x10 and 0x18. -/
def ddtEntry (ty id : Nat) (a b c : Word) : List Word := [at_ ty 0 ||| at_ id 16, a, b, c]

/-- COUNT entries by quantity. -/
def ddtCounts : List (List Word) :=
  [1024, 128, 32, 2288, 256, 1048576, 65536, 65279, 16, 12].mapIdx (fun i (n : Nat) => ddtEntry 1 (i + 1) (BitVec.ofNat 64 n) 0 0)

/-- A value of the table the spec does not state, the same at every read (free, Assumption 53). -/
def ddtFree (w tag : Nat) : BitVec w := BitVec.ofNat w (Config.freeNat 0 (0x3020000 + tag))

/-- The blocks of registers with their BAR0 offsets and prefixes (R298). -/
def ddtBlockList : List (Nat × String) :=
  [(0x10000, "DEV_"), (0x100000, "VI_"), (0x200000, "PRM_"), (0x204000, "IRS_"), (0x208000, "PHY_"), (0x300000, "RMA_"),
   (0x400000, "SYN_"), (0x800000, "UNT_"), (0x810000, "CMP_"), (0xC00000, "ERR_"), (0xC10000, "TRC_"), (0xC20000, "CNT_"),
   (0xD00000, "SNP_"), (0xE00000, "MTR_"), (0xF00000, "LPE_"), (0xF08000, "PWR_"), (0xF80000, "SEC_"), (0xFC0000, "FW_")]

/-- BLOCK entries; block codes and sizes are the device's. A prefix of three characters leaves its fourth byte zero. -/
def ddtBlocks : List (List Word) :=
  ddtBlockList.mapIdx (fun i b => ddtEntry 2 (ddtFree 16 i).toNat (BitVec.ofNat 64 b.1) (ddtFree 64 (0x100 + i))
    (BitVec.ofNat 64 (ofBytes (b.2.toList.map (fun c => BitVec.ofNat 8 c.toNat)))))

/-- FEATURE entries of stepping B0: version 1 of each; the first three are in effect before negotiation. -/
def ddtFeatures : List (List Word) :=
  (List.range 9).map (fun i => ddtEntry 3 (i + 1) (at_ 1 0 ||| at_ 1 16 ||| at_ (b2n (decide (i < 3))) 32) 0 0)

/-- FIRMWARE entries: the active and the staged image; an image's build date is in the image. -/
def ddtFirmware (s : State) : List (List Word) :=
  let act := ((tget? s.fw.images s.fw.active).map (fun (i : Image) => i.version)).getD 0
  let one (k : Nat) (v : BitVec 32) : List Word :=
    ddtEntry 4 k (v.setWidth 64) (BitVec.ofNat 64 (Config.freeNat v.toNat 0x3020200)) 0
  [one 0 act, one 1 (stagedVersion s)]

/-- LIMIT entries. -/
def ddtLimits : List (List Word) := [16, 4096, 4096].mapIdx (fun i (n : Nat) => ddtEntry 5 (i + 1) (BitVec.ofNat 64 n) 0 0)

/-- Every entry but the last. The order is the model's (DESIGN CHOICE, Assumption 53). -/
def ddtAll (s : State) : List (List Word) := ddtCounts ++ ddtBlocks ++ ddtFeatures ++ ddtFirmware s ++ ddtLimits

/-- The entries a function's table holds: a VF's those that concern its instance, which the spec does not list (free), then END. -/
def ddtEntries (s : State) (fn : Fn) : List (List Word) :=
  let l := ddtAll s
  (if isPf fn then l else (l.zipIdx.filter (fun p => bit (ddtFree 1 (0x300 + p.2)) 0)).map (·.1)) ++ [ddtEntry 0 0 0 0 0]

/-- The table with CHECKSUM 0. -/
def ddtPlain (s : State) (fn : Fn) : List Word :=
  let es := ddtEntries s fn
  [0x00B0000154444C48, at_ (0x40 + 32 * es.length) 0 ||| at_ es.length 32,
    (if isPf fn then 0 else at_ fn.toNat 32 ||| at_ 1 40), Config.serial, 0, 0, 0, 0] ++ es.flatten

/-- Sum of the 32-bit words of a list. -/
def sum32 (l : List Word) : BitVec 32 := l.foldl (fun (a : BitVec 32) (w : Word) => a + w.setWidth 32 + (w >>> 32).setWidth 32) 0

/-- The whole table: CHECKSUM makes the words sum to zero. -/
def ddtTable (s : State) (fn : Fn) : List Word :=
  let l := ddtPlain s fn
  l.set 2 (l.getD 2 0 ||| (0 - sum32 l).setWidth 64)

/-- A word of the Device Description Table; the rest of its 64 KiB reads zero. -/
def ddtRd (s : State) (fn : Fn) (off : Nat) : Word := (ddtTable s fn).getD (off / 8) 0

end Sys2Proof.Machine
end

