-- ==== Sys2Proof/Machine/Counters.lean ====
section
/-! DEFINITION. Operation counters, their samplers, and the reading of `UNT_CNTVAL` (R59, R529, R586-R593). -/

namespace Sys2Proof.Machine

/-! ## Host reads -/

/-! ## Sums over a closure (R59) -/

/-- The unit is visible to a function reading for an instance: a valid physical UD, or a composite that it owns, or that any instance of
the port owns when read through a PF (`UNT_STAT.VALID`). -/
def unitVisible (s : State) (pf : Bool) (vi : Vi) (ud : Word) : Bool :=
  (resolveUd s ud).1 == 0 && (!isComp ud ||
    (let o := (compEntry s (compNum ud)).owner
     if pf then portOf o == portOf vi else o == vi))

/-- Facets of this device in a closure. -/
def ownFacets (s : State) (ud : Word) : List (BitVec 10) := ((closure s ud).filter (isLocal s)).map facetOfUd
/-- The closure reaches Facets of other devices: a unit under it lies, or extends, beyond this one (R39, R44). -/
def reachesOut (s : State) (ud : Word) : Bool := (physLeaves s ud 18).any (beyond s)

/-- INDEX of counter j of an instance. -/
def cntIndexOf (s : State) (vi : Vi) (j : Nat) : Nat := bits (rget s (cntReg vi (0x100 + 8 * j))) 7 0
/-- The counter of an instance that counts an index. -/
def cntWith (s : State) (vi : Vi) (idx : Nat) : Option Nat := (List.range 32).find? (fun j => cntIndexOf s vi j == idx)

/-- Counter j summed over Facets, and whether a member wrapped. -/
def cntSum (s : State) (vi : Vi) (j : Nat) (fs : List (BitVec 10)) : Nat × Bool :=
  fs.foldl (fun (a : Nat × Bool) f =>
    let x := tget s.cnts (cntKey f vi j) ((0 : BitVec 48), false)
    (a.1 + x.1.toNat, a.2 || x.2)) (0, false)

/-- What the Facets of other devices add to a sum, and whether one of them wrapped: theirs to say, so free (Assumption 2). -/
def awaySum (s : State) (ud : Word) (tag : Nat) : Nat × Bool :=
  if reachesOut s ud then
    let x := (freeBits s 65 tag).toNat
    (x / 2, x % 2 == 1)
  else (0, false)

/-- A sum as `UNT_CNTVAL` gives it: VALUE modulo 2^48, and WRAP if a member wrapped or the sum carried out (R59). -/
def sumWord (a b : Nat × Bool) : Word := at_ ((a.1 + b.1) % 2 ^ 48) 0 ||| at_ (b2n (a.2 || b.2 || decide (a.1 + b.1 ≥ 2 ^ 48))) 48

/-- Counter j over a unit's closure. -/
def cntWord (s : State) (vi : Vi) (j : Nat) (ud : Word) : Word :=
  sumWord (cntSum s vi j (ownFacets s ud)) (awaySum s ud (5000 + j))

/-- The Facets are those of whole clusters. -/
def wholeClusters (fs : List (BitVec 10)) : Bool := fs.all (fun f => (List.range 8).all (fun i => fs.contains (BitVec.ofNat 10 (f.toNat / 8 * 8 + i))))

/-- A tally over a unit's closure: the kinds the model counts by Facet, and clusters held where the closure is of whole clusters; every other
is the hardware's own activity or belongs to no Facet, free (Assumption 28). -/
def tallySum (s : State) (vi : Vi) (kind : Nat) (ud : Word) : Word :=
  let fs := ownFacets s ud
  if kind = 15 then 0
  else if kind = 0 ∨ kind = 4 ∨ kind = 12 ∨ (kind = 13 ∧ wholeClusters fs) then
    sumWord (fs.foldl (fun a f => a + facetTally s f vi kind) 0, false) (awaySum s ud (5100 + kind))
  else BitVec.ofNat 64 ((freeBits s 49 (5100 + kind)).toNat)

/-- The value of `UNT_CNTVAL` that an instance reads of a unit (R59, R529, R588). -/
def cntVal (s : State) (pf : Bool) (vi : Vi) (ud : Word) (idx : Nat) : Word :=
  if !unitVisible s pf vi ud then 0
  else if idx ≥ 0xF0 then tallySum s vi (idx - 0xF0) ud
  else match cntWith s vi idx with
    | some j => cntWord s vi j ud
    | none => 0

/-- `UNT_SEL` and `UNT_CNTSEL`, which each function has for itself. -/
def untSel (s : State) (fn : Fn) : Word := rget s (fnReg fn 0x800000)
def untCntSel (s : State) (fn : Fn) : Nat := bits (rget s (fnReg fn 0x800018)) 7 0

/-! ## Enabling (R586-R591) -/

/-- Every counter and WRAP bit of an instance is zero. -/
def zeroCounters (s : State) (vi : Vi) : State := { s with cnts := s.cnts.filter (fun p => !(decide (p.1 / 32 % 256 = vi.toNat))) }

/-- The instance that `CNT_VISEL` names. -/
def cntVi (s : State) : Vi := BitVec.ofNat 8 (bits (rget s 0xC20000) 7 0)

/-- A write of `CNT_VICFG`: for an instance of the PF's own port only. -/
def cntCfgWr (fn : Fn) (v : Word) (s : State) : State :=
  let vi := cntVi s
  if !samePort fn vi then accessErr s fn 0xC20008
  else
    let s := rset s (cntReg vi 0x8) (v &&& 0xC000000000000000)
    if bit v 63 then zeroCounters s vi else s

/-- CNT_VICFG_WRITE. -/
def execCntVicfgWrite (fn : Fn) (en autoReset : Bool) (s : State) : Host.Outcome State Fault Refusal :=
  let v := at_ (b2n en) 63 ||| at_ (b2n autoReset) 62
  hostPf fn 0xC20008 v (cntCfgWr fn v) s

/-- Indices that *Counter indices* lists, and 0xFF, which counts nothing (R587). -/
def cntIndexOk (i : Nat) : Bool :=
  decide (i ≤ 0x09) || (decide (0x10 ≤ i) && decide (i ≤ 0x1E)) || (decide (0x24 ≤ i) && decide (i ≤ 0x2E))
    || (decide (0x30 ≤ i) && decide (i ≤ 0x35)) || (decide (0x40 ≤ i) && decide (i ≤ 0x44)) || (decide (0x48 ≤ i) && decide (i ≤ 0x4C))
    || (decide (0x50 ≤ i) && decide (i ≤ 0x64)) || (decide (0x68 ≤ i) && decide (i ≤ 0x6E)) || (decide (0x70 ≤ i) && decide (i ≤ 0x73))
    || (decide (0x78 ≤ i) && decide (i ≤ 0x7A)) || i == 0xFF

/-- A write of `CNT_IDX`j: not while EN is 1, and no reserved index or one another counter of the instance holds. -/
def cntIdxWr (fn : Fn) (j : Nat) (v : Word) (s : State) : State :=
  let vi := cntVi s
  let i := bits v 7 0
  if !samePort fn vi || bit (rget s (cntReg vi 0x8)) 63 || !cntIndexOk i
      || (i != 0xFF && (List.range 32).any (fun k => k != j && cntIndexOf s vi k == i)) then accessErr s fn (0xC20100 + 8 * j)
  else rset s (cntReg vi (0x100 + 8 * j)) (at_ i 0)

/-! ## Samplers (R592, R593) -/

def cSmpReg (k off : Nat) : Nat := 0xC20400 + 0x40 * k + off
def getSmp (s : State) (k : Nat) : Sampler := tget s.smp k {}
def setSmp (s : State) (k : Nat) (x : Sampler) : State := { s with smp := tset s.smp k x }
/-- The instance a sampler samples. -/
def cSmpVi (s : State) (k : Nat) : Vi := BitVec.ofNat 8 (bits (rget s (cSmpReg k 8)) 55 48)
def cSmpSize (s : State) (k : Nat) : Nat := 2 ^ bits (rget s (cSmpReg k 8)) 4 0
/-- PERIOD_US in ns; 0 is taken as 1,000 µs. -/
def cSmpPeriod (s : State) (k : Nat) : Nat :=
  let p := bits (rget s (cSmpReg k 8)) 31 16
  (if p = 0 then 1000 else p) * 1000
def cSmpUd (s : State) (k : Nat) : Word := rget s (cSmpReg k 0)
def cSmpBase (s : State) (k : Nat) : Word := rget s (cSmpReg k 0x10)

/-- The checks of EN 1 (R592). -/
def cSmpOk (s : State) (k : Nat) : Bool :=
  let size := bits (rget s (cSmpReg k 8)) 4 0
  unitVisible s false (cSmpVi s k) (cSmpUd s k) && decide (4 ≤ size) && decide (size ≤ 16)
    && rangeOk s (cSmpVi s k) (cSmpBase s k) (512 * 2 ^ size) .wr

/-- A write of `CNT_SMP_CFG`: VI and SIZE stand while the sampler runs. -/
def cntSmpWr (fn : Fn) (k : Nat) (v : Word) (s : State) : State :=
  let v := v &&& 0x80FF0000FFFF001F
  let old := rget s (cSmpReg k 8)
  let x := getSmp s k
  if !samePort fn (BitVec.ofNat 8 (bits v 55 48))
      || (x.run && (bits v 55 48 != bits old 55 48 || bits v 4 0 != bits old 4 0)) then accessErr s fn (cSmpReg k 8)
  else
    let s := rset s (cSmpReg k 8) v
    if bit v 63 && cSmpOk s k then setSmp s k { x with run := true, n := 0, last := none } else setSmp s k { x with run := false }

/-- A write of `CNT_SMP_UD` or `CNT_SMP_BASE`, which stand while the sampler runs. -/
def cntSmpRingWr (fn : Fn) (k off : Nat) (v : Word) (s : State) : State :=
  if (getSmp s k).run then accessErr s fn (cSmpReg k off) else rset s (cSmpReg k off) v

/-- `CNT_SMP_CFG` as written. -/
def cSmpWord (c : SmpW) : Word := at_ 1 63 ||| at_ c.vi.toNat 48 ||| at_ c.period.toNat 16 ||| at_ c.size.toNat 0

/-- SAMPLER_ENABLE. -/
def execSamplerEnable (fn : Fn) (k : Fin 4) (c : SmpW) (s : State) : Host.Outcome State Fault Refusal :=
  hostPf fn (cSmpReg k.val 8) (cSmpWord c) (cntSmpWr fn k.val (cSmpWord c)) s

/-- A counter sample record (R593). -/
def cSmpRecord (s : State) (k : Nat) : List Byte :=
  let vi := cSmpVi s k
  let ud := cSmpUd s k
  let facets := ((ownFacets s ud).filter (holdsFacet s vi)).length
  toBytes 8 (at_ (getSmp s k).n.toNat 0 ||| at_ vi.toNat 48).toNat ++ toBytes 8 s.devTime.toNat ++ toBytes 8 ud.toNat
    ++ toBytes 8 facets ++ List.replicate 32 0
    ++ (List.range 32).flatMap (fun j => toBytes 8 (cntWord s vi j ud ||| at_ (cntIndexOf s vi j) 56).toNat) ++ List.replicate 192 0

/-- The sample is dropped. -/
def cSmpDrop (s : State) (k : Nat) : State :=
  let x := getSmp s k
  setSmp s k { x with lost := x.lost + 1, wrap := x.wrap || decide (x.lost + 1 = 0) }

/-- The ring has a free slot for the next sample: n − RETIRED is less than 2^SIZE (R6, R593). -/
def cSmpRoom (s : State) (k : Nat) : Bool :=
  let n := (getSmp s k).n
  let r := BitVec.ofNat 48 (bits (rget s (cSmpReg k 0x18)) 47 0)
  !atOrAfter n r || decide ((n - r).toNat < cSmpSize s k)

/-- The record is written, its word 0 last. A ring that no longer translates drops it and is recorded. -/
def cSmpWrite (s : State) (k : Nat) : State :=
  let vi := cSmpVi s k
  let a := cSmpBase s k + BitVec.ofNat 64 (512 * ((getSmp s k).n.toNat % cSmpSize s k))
  let d := cSmpRecord s k
  match instWrite s vi (a + 8) (d.drop 8) with
  | none => cSmpDrop (raiseErr s { cause := 0x12, sev := 0, vi := some vi, status := 0x05, addr := a, arg0 := BitVec.ofNat 64 (0x500 + k) }) k
  | some s => (instWrite s vi a (d.take 8)).getD s

/-- COUNTER_SAMPLE (R592, R593): at multiples of the period in `DEV_TIME`. -/
def execCounterSample (k : Fin 4) (s : State) : Host.Outcome State Fault Refusal :=
  let x := getSmp s k.val
  if !working s || !x.run || decide (s.devTime.toNat % cSmpPeriod s k.val ≠ 0) || x.last == some s.devTime then .next s
  else
    let s := if cSmpRoom s k.val then cSmpWrite s k.val else cSmpDrop s k.val
    let x := getSmp s k.val
    .next (settle (nextFree (setSmp s k.val { x with n := x.n + 1, last := some s.devTime })))

end Sys2Proof.Machine
end

