-- ==== Sys2Proof/Machine/Trace.lean ====
section
/-! DEFINITION. The trace unit's registers (R594-R599). -/

namespace Sys2Proof.Machine

/-- STATE is ARMED: FILL counts against the reserve from here on (R599). -/
def trcArm (s : State) : State := { s with trc := { s.trc with st := 1, post := 0 } }

/-- SYNC of each of the cores, at enable (R596). -/
def syncCores (s : State) (mask : Nat) : State :=
  (List.range 16).foldl (fun s n =>
    if mask.testBit n then
      let y := syncPkt s n
      nextFree (stwPut s n y)
    else s) s

/-- The fields of `TRC_CFG` other than EN that a write gives while EN is 0; RESERVE and OVF_MIB out of their ranges keep the old value (R11). -/
def trcFields (old v : Word) : Word :=
  let r := bits v 58 56
  let o := bits v 44 32
  at_ (if r ≤ 4 then r else bits old 58 56) 56 ||| at_ (if o ≤ 6144 then o else bits old 44 32) 32 ||| at_ (bits v 23 0) 0

/-- A write of `TRC_CFG`. EN written 1 arms; from 0 it starts with an empty buffer and host area (DESIGN CHOICE, Assumption 20). -/
def trcCfgWr (v : Word) (s : State) : State :=
  let old := trcCfg s
  if bit old 63 then
    if bit v 63 then (if s.trc.st ≥ 2 then trcArm s else s)
    else { rset s 0xC10000 (setBits old 63 63 0) with trc := { s.trc with st := 0 } }
  else
    let w := trcFields old v
    if bit v 63 then
      let s := rset (rset s 0xC10000 (w ||| at_ 1 63)) 0xC10020 0
      let s := trcArm { s with trc := { s.trc with held := [], hostProd := 0, pendLoss := 0, needSync := [] } }
      syncCores s (bits (rget s 0xC10048) 15 0)
    else rset s 0xC10000 w

/-- `TRC_CFG` as written. -/
def trcWord (c : TrcW) : Word :=
  at_ (b2n c.en) 63 ||| at_ c.reserve.toNat 56 ||| at_ c.ovfMib.toNat 32 ||| at_ c.postKib.toNat 0

/-- TRC_CFG_WRITE. -/
def execTrcCfgWrite (fn : Fn) (c : TrcW) (s : State) : Host.Outcome State Fault Refusal :=
  hostPf fn 0xC10000 (trcWord c) (trcCfgWr (trcWord c)) s

/-- A write of `TRC_HOST_BASE` or `TRC_HOST_SIZE`: only while EN is 0; the PF that writes the base carries the host area. -/
def trcHostWr (fn : Fn) (off : Nat) (v : Word) (s : State) : State :=
  if trcEn s then s
  else if off = 8 then
    let s := rset s 0xC10008 (v &&& 0xFFFFFFFFFFFFF000)
    { s with trc := { s.trc with hostFn := fn } }
  else rset s 0xC10010 (v &&& 0xFFFF)

/-- A write of `TRC_TRIG`: the fields, then ARM, then FIRE (R599). -/
def trcTrigWr (v : Word) (s : State) : State :=
  let s := rset s 0xC10040 (v &&& 0xFF37001F)
  let s := if bit v 62 && trcEn s && decide (s.trc.st ≥ 2) then trcArm s else s
  if bit v 63 then trcTrigger s 0 else s

/-- FIRE: the other fields as they stand. -/
def execFire (fn : Fn) (s : State) : Host.Outcome State Fault Refusal :=
  let v := rget s 0xC10040 ||| at_ 1 63
  hostPf fn 0xC10040 v (trcTrigWr v) s

/-- ARM: the other fields as they stand. -/
def execArm (fn : Fn) (s : State) : Host.Outcome State Fault Refusal :=
  let v := rget s 0xC10040 ||| at_ 1 62
  hostPf fn 0xC10040 v (trcTrigWr v) s

/-- A write of `TRC_STW_EN`: a core newly traced starts with SYNC. -/
def trcStwWr (v : Word) (s : State) : State :=
  let was := bits (rget s 0xC10048) 15 0
  let s := rset s 0xC10048 (v &&& 0xFFFF)
  if trcEn s then syncCores s ((List.range 16).foldl (fun a n => a + b2n (bit v n && !was.testBit n) * 2 ^ n) 0) else s

/-- A write of `TRC_MARK` inserts MARKER. -/
def trcMarkWr (v : Word) (s : State) : State :=
  let s := rset s 0xC10058 v
  trcOffer s [pktHeader 0x06 1 false 0 0x30 s.devTime, v]

/-- TRC_MARK_WRITE. -/
def execTrcMarkWrite (fn : Fn) (v : Word) (s : State) : Host.Outcome State Fault Refusal := hostPf fn 0xC10058 v (trcMarkWr v) s

/-- A write of `TRC_HOST_ACK`: the host area has room again, and packets move on. -/
def trcAckWr (v : Word) (s : State) : State :=
  let s := rset s 0xC10020 v
  trcFlush s (s.trc.held.length + 1)

/-- TRC_HOST_ACK_WRITE. -/
def execTrcHostAckWrite (fn : Fn) (v : Word) (s : State) : Host.Outcome State Fault Refusal := hostPf fn 0xC10020 v (trcAckWr v) s

end Sys2Proof.Machine
end

