-- ==== Sys2Proof/Machine/Registers.lean ====
section
/-! DEFINITION. The register map: what each BAR0 offset reads as, and what a write of it does (R7-R15, R260, R298, R303, and the register
tables of every chapter). A write of a register that a command of its own writes goes through that command's handler. -/

namespace Sys2Proof.Machine

/-! ## Reads -/

/-- A counter with its WRAP in bit 48. -/
def wrapWord (c : BitVec 48 × Bool) : Word := at_ c.1.toNat 0 ||| at_ (b2n c.2) 48
/-- A count kept whole, as its value modulo 2^48 and WRAP. -/
def countWord (n : Nat) : Word := at_ (n % 2 ^ 48) 0 ||| at_ (b2n (decide (n ≥ 2 ^ 48))) 48

/-- `DEV_STK_STAT` of a stack. -/
def stkStat (s : State) (k : Nat) : Word :=
  at_ (sat 255 (chanValue (getChan s (36 + k)) (36 + k) / 10)) 56 ||| at_ (b2n (s.pwr.hot.contains k)) 55
    ||| at_ (sat 65535 (tget (rollSecond s).err.ceRate k 0)) 32 ||| at_ (sat 65535 (tget s.stkUe k 0)) 16
    ||| at_ (sat 65535 (s.poison.filter (fun b => stackOf s (64 * b) == k)).length) 0

/-- `DEV_PAIR_STAT`. -/
def pairStat (s : State) : Word :=
  let p := s.pair
  at_ p.st.toNat 61 ||| at_ (b2n p.viaTorus) 60 ||| at_ (b2n (anyTorus s)) 59 ||| at_ (b2n p.mirAtLoss) 58 ||| at_ p.resyncLeft 32
    ||| at_ p.detail.toNat 16 ||| at_ p.status.toNat 8 ||| at_ (b2n p.ovr) 1 ||| at_ (b2n p.busy) 0

/-- A register of the DEV block. -/
def devRd (s : State) (fn : Fn) (o : Nat) : Word :=
  if o = 0x100 then at_ (b2n (s.drst.phase != 0)) 0
  else if o = 0x108 then at_ s.drst.source.toNat 12 ||| at_ (b2n s.drst.ovr) 8 ||| at_ s.drst.phase.toNat 0
  else if o = 0x200 then
    at_ s.boot.failUnit.toNat 48 ||| at_ s.boot.fail.toNat 40 ||| at_ s.boot.ms.toNat 16 ||| at_ s.boot.phase.toNat 0
  else if o = 0x4008 then (rget s granStatReg &&& 0xFFFF03) ||| at_ (freeGrans s true) 52 ||| at_ (freeGrans s false) 40
  else if o = 0x4010 then s.rowSpread.setWidth 64
  else if o = 0x4018 then at_ (bits s.rowSpread 70 64) 0
  else if o = 0x4028 then at_ s.pair.mir.toNat 62 ||| at_ s.pair.unmirrored.toNat 0
  else if 0x4100 ≤ o ∧ o < 0x4200 then stkStat s ((o - 0x4100) / 8)
  else if o = 0x4818 then pairStat s
  else if 0x5000 ≤ o ∧ o < 0x5200 then rget s (aperReg fn ((o - 0x5000) / 8))
  else rget s (devReg o)

/-- `VI_SQ_STAT`. -/
def sqStat (x : Sq) : Word :=
  at_ x.tail.toNat 48 ||| at_ x.head.toNat 32 ||| at_ x.refused.toNat 24 ||| at_ x.detail.toNat 16 ||| at_ x.status.toNat 8 ||| at_ x.st.toNat 0
/-- `VI_CQ_STAT`. -/
def cqStat (c : Cq) : Word :=
  at_ c.tail.toNat 48 ||| at_ c.head.toNat 32 ||| at_ (b2n c.phase) 31 ||| at_ c.held.length 24 ||| at_ c.detail.toNat 16
    ||| at_ c.status.toNat 8 ||| at_ c.st.toNat 0

/-- A queue register, at 0x0400 to 0x08FF of the VI block and of the queue page (R303). -/
def queueRd (s : State) (vi : Vi) (o : Nat) : Word :=
  if o < 0x600 then
    let q := (o - 0x400) / 0x20
    if o % 0x20 = 0x10 then sqStat (getSq s vi q)
    else if o % 0x20 = 0x18 then at_ (getSq s vi q).done.toNat 0 else rget s (viReg vi o)
  else if o < 0x800 then
    if o % 0x20 = 0x10 then cqStat (getCq s vi ((o - 0x600) / 0x20)) else rget s (viReg vi o)
  else if o < 0x880 then at_ (getSq s vi ((o - 0x800) / 8)).tail.toNat 0
  else at_ (getCq s vi ((o - 0x880) / 8)).head.toNat 0

/-- State of a receive or transmit ring. -/
def ringStat (r : Ring) : Word := at_ (b2n r.run) 62 ||| at_ (b2n r.wrap) 48 ||| at_ r.count.toNat 0

/-- `VI_HDL_STAT`. -/
def hdlStat (s : State) (vi : Vi) : Word :=
  let i := getInst s vi
  at_ (s.threads.filter (fun p => p.2.handler && p.2.vi == vi)).length 48 ||| at_ i.hdlThread.toNat 32 ||| at_ i.hdlDetail.toNat 24
    ||| at_ i.hdlStatus.toNat 16 ||| at_ i.hdlCause.toNat 8 ||| at_ i.hdlSt.toNat 0

/-- `VI_RST_STAT`. -/
def rstStat (i : Inst) : Word :=
  at_ i.gen.toNat 32 ||| at_ i.rstDur.toNat 16 ||| at_ i.rstSrc.toNat 12 ||| at_ (b2n i.rstForced) 9 ||| at_ (b2n i.rstOvr) 8
    ||| at_ i.rstPhase.toNat 0

/-- `VI_SPILL_USE`. -/
def spillUse (s : State) (vi : Vi) : Word :=
  let mine := s.spill.filter (fun p => p.1 == vi)
  let host := mine.filter (fun p => match p.2 with | .host _ => true | .dev _ => false)
  at_ host.length 32 ||| at_ (mine.length - host.length) 0

/-- A register of the VI block of an instance. -/
def viRd (s : State) (vi : Vi) (o : Nat) : Word :=
  let i := getInst s vi
  if o = 0 then at_ (b2n (isPf vi)) 16 ||| at_ (vi.toNat % 128) 9 ||| at_ (portOf vi) 8 ||| at_ vi.toNat 0
  else if o = 8 then
    at_ i.gen.toNat 32 ||| at_ (b2n (hasHandler s vi)) 4 ||| at_ (b2n (frozen s vi)) 3 ||| at_ i.st.toNat 0
  else if o = 0x40 then
    at_ (cluCount s vi) 52 ||| at_ (s.grp.filter (fun p => p.2 == vi)).length 41 ||| at_ i.ctx 16 ||| at_ (compsOwned s vi) 0
  else if o = 0xA0 then hdlStat s vi
  else if o = 0xC8 then at_ (sat 65535 i.heldTraps.length) 48 ||| at_ i.produced.toNat 0
  else if o = 0xD0 then at_ i.retired.toNat 0
  else if o = 0xD8 then wrapWord (i.lostTotal, i.lostWrap)
  else if o = 0x100 then at_ (b2n (i.st == 3)) 0
  else if o = 0x108 then rstStat i
  else if o = 0x110 then rstCnt i
  else if o = 0x230 then spillUse s vi
  else if 0x400 ≤ o ∧ o < 0x900 then queueRd s vi o
  else if 0xA00 ≤ o ∧ o < 0xC00 ∧ o % 0x20 = 0x10 then ringStat (getRx s vi ((o - 0xA00) / 0x20))
  else if 0xC00 ≤ o ∧ o < 0xE00 ∧ o % 0x20 = 0x10 then ringStat (tget s.tx (ringKey vi ((o - 0xC00) / 0x20)) {})
  else rget s (viReg vi o)

/-- WAITING and CREDIT of a shaper. -/
def shaperStat (x : Shaper) : Word := at_ x.stage.length 48 ||| at_ (x.credit % 2 ^ 40).toNat 0

/-- A register of the IRS block of a port, by its offset there. -/
def irsRd (s : State) (p : Port) (o : Nat) : Word :=
  let x := getIris s p
  if o = 0 then rget s (irsReg p 0) ||| at_ (bufBytes s p x / 1024) 48
  else if 0x180 ≤ o ∧ o < 0x200 then
    let l := queueOf x ((o - 0x180) / 8)
    at_ (sat 65535 l.length) 48 ||| at_ (depth s p l) 0
  else if 0x200 ≤ o ∧ o < 0x280 then wrapWord (tget x.drops ((o - 0x200) / 8) ((0 : BitVec 48), false))
  else if 0x420 ≤ o ∧ o < 0x440 then shaperStat (tget x.clSh ((o - 0x420) / 8) {})
  else if o = 0x448 then shaperStat (tget x.viSh (bits (rget s (irsReg p 0x440)) 7 0) {})
  else if o = 0x800 then rget s (gclReg p) ||| at_ x.gclErr.toNat 40 ||| at_ x.oper.length 22 ||| at_ (b2n x.pend) 2
  else if o = 0x818 then x.obase
  else if o = 0x820 then at_ x.ocycle 0
  else if o = 0x828 then x.chtime
  else if 0x1800 ≤ o ∧ o < 0x2000 then x.oper.getD ((o - 0x1800) / 8) 0
  else if o = 0x918 then at_ (b2n x.smpRun) 62 ||| wrapWord (x.smpLost, x.smpWrap)
  else rget s (irsReg p o)

/-- A register of a port block. -/
def portRd (s : State) (p : Port) (o : Nat) : Word :=
  let m := getPrism s p
  let h := getPhy s p
  if o = 0 then prmModeRd s p
  else if 0x100 ≤ o ∧ o < 0x200 then tget m.shadow.ranges ((o - 0x100) / 8) 0
  else if 0x300 ≤ o ∧ o < 0x380 then wrapWord (tget m.drops ((o - 0x300) / 8) ((0 : BitVec 48), false))
  else if 0x4000 ≤ o ∧ o < 0x8000 then irsRd s p (o - 0x4000)
  else if o = 0x8008 then at_ h.st.toNat 61 ||| at_ h.lanes.toNat 57 ||| at_ h.nbr.toNat 16
  else if 0x8100 ≤ o ∧ o < 0x8140 then wrapWord (tget h.cnt ((o - 0x8100) / 8) ((0 : BitVec 48), false))
  else rget s (portReg p o)

/-- UNSET objects of an instance (`SYN_STAT.FREE`). -/
def synFree (s : State) (vi : Vi) : Nat :=
  (s.grp.filter (fun p => p.2 == vi)).foldl (fun a (g : Nat × Vi) =>
    a + 64 - (s.syn.filter (fun o => o.1 / 64 == g.1 && o.2.st != 0)).length) 0

/-- LATE of the member and barrier that `SYN_PACE_SEL` names (R618). -/
def paceVal (s : State) (fn : Fn) : Word :=
  let w := rget s (fnReg fn 0x400040)
  let n := bits w 63 48
  if tget? s.grp (n / 64) = some fn then wrapWord (tget (getSyn s n).late (bits w 10 0) ((0 : BitVec 48), false)) else 0

/-- A register of the SYN block, in the view of a function. -/
def synRd (s : State) (fn : Fn) (o : Nat) : Word :=
  if o = 0x18 then rget s (synStatReg fn) ||| at_ (synFree s fn) 47
  else if o = 0x48 then paceVal s fn
  else rget s (fnReg fn (0x400000 + o))

/-- `UNT_STAT` of the unit that `UNT_SEL` names. -/
def untStat (s : State) (fn : Fn) : Word :=
  let ud := untSel s fn
  if !unitVisible s (isPf fn) fn ud then 0
  else
    let facets := ((ownFacets s ud).filter (holdsFacet s fn)).length
    if isComp ud then
      let n := compNum ud
      let c := compEntry s n
      at_ facets 32 ||| at_ c.members.length 21 ||| at_ (levelOf s n 20) 16 ||| at_ c.owner.toNat 8 ||| at_ c.st.toNat 2
        ||| at_ (b2n c.exported.isSome) 1 ||| 1
    else at_ facets 32 ||| 1

/-- `UNT_THREADS`: threads resident on Facets of the closure, and saved threads of launches whose target meets it. -/
def untThreads (s : State) (fn : Fn) : Word :=
  let ud := untSel s fn
  if !unitVisible s (isPf fn) fn ud then 0
  else
    let all := closure s ud
    let fs := ownFacets s ud
    let inside (n : Nat) : Bool := match getLaunch s n with
      | some l => (closure s l.d.target).any (fun u => all.contains u)
      | none => false
    let saved := (s.saved.filter (fun x => x.vi == fn && !x.handler && inside x.launch)).length
    let here := (s.threads.filter (fun p => p.2.vi == fn && fs.contains (tidOf p.1).facet)).length
    at_ saved 32 ||| at_ here 0

/-- A register of the UNT block. -/
def untRd (s : State) (fn : Fn) (o : Nat) : Word :=
  if o = 8 then untStat s fn
  else if o = 0x10 then untThreads s fn
  else if o = 0x20 then cntVal s (isPf fn) fn (untSel s fn) (untCntSel s fn)
  else rget s (fnReg fn (0x800000 + o))

/-- A register of the CMP block. -/
def cmpRd (s : State) (fn : Fn) (o : Nat) : Word := if o = 0x20 then at_ (compsFree s) 0 else rget s (fnReg fn (0x810000 + o))

/-- `ERR_STAT`. -/
def errStat (s : State) : Word :=
  let e := s.err
  at_ (b2n e.fatal) 63 ||| at_ (b2n (!e.cur.isEmpty)) 62 ||| at_ ((e.cur.head?.map (fun (x : Err × Nat) => x.1.sev.toNat)).getD 0) 60
    ||| at_ (sat 255 e.fatals) 52 ||| at_ (e.pending.filter (·.slot)).length 40 ||| at_ (errUsed s) 31 ||| at_ (b2n e.overflow) 0

/-- A register of the ERR block. -/
def errRd (s : State) (o : Nat) : Word :=
  let e := s.err
  if o = 0 then errStat s
  else if o = 8 then at_ e.seq.toNat 0
  else if o = 0x10 then at_ e.retired.toNat 0
  else if o = 0x20 then at_ e.lostCont 32 ||| at_ e.lostCorr 16 ||| at_ e.lostNotice 0
  else if o = 0x28 then wrapWord (e.suppressed, e.suppWrap)
  else if o = 0x30 then at_ e.histLost 48 ||| at_ e.hist.length 0
  else if 0x40 ≤ o ∧ o < 0x80 then (e.hist.getD (bits (rget s 0xC00038) 23 0) []).getD ((o - 0x40) / 8) 0
  else if 0x80 ≤ o ∧ o < 0xC0 then e.fatalRec.getD ((o - 0x80) / 8) 0
  else if 0x100 ≤ o ∧ o < 0x180 then
    (List.range 64).foldl (fun w b => w ||| at_ (b2n (e.fctOff.contains (64 * ((o - 0x100) / 8) + b))) b) 0
  else if 0x1000 ≤ o ∧ o < 0x5000 then (tget e.ring ((o - 0x1000) / 64) []).getD (o % 64 / 8) 0
  else rget s (0xC00000 + o)

/-- A register of the TRC block. -/
def trcRd (s : State) (o : Nat) : Word :=
  if o = 0x18 then s.trc.hostProd
  else if o = 0x28 then at_ s.trc.st.toNat 62 ||| at_ (trcFill s) 0
  else if o = 0x30 then wrapWord (s.trc.lost, s.trc.lostWrap)
  else rget s (0xC10000 + o)

/-- A register of the CNT block. -/
def cntRd (s : State) (o : Nat) : Word :=
  if o = 0 then rget s 0xC20000
  else if o = 8 ∨ (0x100 ≤ o ∧ o < 0x200) then rget s (cntReg (cntVi s) o)
  else if 0x400 ≤ o ∧ o < 0x500 ∧ o % 0x40 = 0x20 then
    let x := getSmp s ((o - 0x400) / 0x40)
    at_ (b2n x.run) 62 ||| wrapWord (x.lost, x.wrap)
  else rget s (0xC20000 + o)

/-- A register of the SNP block. -/
def snpRd (s : State) (o : Nat) : Word :=
  if o = 0x20 then snpProg s
  else if o = 0x28 then snpGuard s
  else if o = 0x30 then at_ (16 - snapsLive s) 0
  else rget s (0xD00000 + o)

/-- Word of a byte window. -/
def winWord (b : List Byte) (o : Nat) : Word := BitVec.ofNat 64 (ofBytes ((b.drop o).take 8))

/-- A register or a window of the metering mirror. Readings the island refreshes by itself, and windows whose layout is its own, are free
(Assumption 2). -/
def mtrRd (s : State) (o : Nat) : Word :=
  let m := s.mtr
  let sat_ := (m.cart.map (fun (c : Cartridge) => c.sat)).getD false
  if o = 0 then at_ (mtrState m) 61 ||| at_ (b2n sat_) 60 ||| at_ m.lostAll 0
  else if o = 8 then (m.cart.map (fun (c : Cartridge) => c.seq)).getD 0
  else if o = 0x10 ∨ o = 0x18 ∨ (0x1000 ≤ o ∧ o < 0x3000) ∨ 0x80000 ≤ o then freeBits s 64 (0x200000 + o)
  else if 0x4000 ≤ o ∧ o < 0x5000 then winWord m.quote (o - 0x4000)
  else if 0x8000 ≤ o ∧ o < 0xC000 then winWord m.fetch (o - 0x8000)
  else rget s (0xE00000 + o)

/-- The highest level of any channel, and the lowest-numbered channel at it. -/
def worstChan (s : State) : Nat × Nat :=
  s.pwr.chans.foldl (fun (w : Nat × Nat) (p : Nat × Chan) => if p.2.level.toNat > w.1 then (p.2.level.toNat, p.1) else w) (0, 0)

/-- A register of the LPE block. -/
def lpeRd (s : State) (o : Nat) : Word :=
  let ch := bits (rget s 0xF00008) 6 0
  let x := getChan s ch
  if o = 0 then
    let w := worstChan s
    at_ w.2 32 ||| at_ s.pwr.crits 16 ||| at_ (b2n (emergency s)) 3 ||| at_ w.1 0
  else if o = 0x10 then at_ x.level.toNat 62 ||| at_ (x.window.headD 0 % 65536) 16 ||| at_ (chanValue x ch % 65536) 0
  else if o = 0x18 then at_ (chanTrip ch) 32 ||| at_ (chanCrit s ch) 16 ||| at_ (if ch = 71 then 0 else chanWarn s ch) 0
  else rget s (0xF00000 + o)

/-- A register of the PWR block. -/
def pwrRd (s : State) (o : Nat) : Word :=
  if o = 0 then at_ s.pwr.wake.toNat 40 ||| at_ s.pwr.st.toNat 0
  else if o = 0x30 then s.pwr.trip
  else if 0x100 ≤ o ∧ o < 0x500 then
    let c := (o - 0x100) / 8
    let x := getIsl s c
    let cur := if x.stopped then 0 else x.cur
    at_ (b2n x.stopped) 63 ||| at_ (b2n (decide (islCap s c < x.set_))) 62 ||| at_ cur 48 ||| at_ (islCap s c) 32 ||| at_ x.set_ 0
  else rget s (0xF08000 + o)

/-- `SEC_STAT`. -/
def secStat (s : State) : Word :=
  let c := s.sec
  at_ c.svn.toNat 56 ||| at_ c.fused.toNat 48 ||| at_ c.revoked.toNat 44 ||| at_ c.keyUsed.toNat 42 ||| at_ c.slot.toNat 40
    ||| at_ c.boot.toNat 36 ||| at_ (c.sessions.filter (·.secured)).length 32 ||| at_ (b2n c.debugSeen) 31
    ||| at_ (256 - s.keys.length) 20

/-- A register of the SEC block. -/
def secRd (s : State) (o : Nat) : Word :=
  let sel := bits (rget s 0xF80008) 2 0
  if o = 0 then secStat s
  else if o = 8 then at_ (sat 65535 (tget s.sec.meas sel ((0 : BitVec 384), 0)).2) 32 ||| at_ sel 0
  else if 0x10 ≤ o ∧ o < 0x40 then winWord (digestBytes (measOf s sel)) (o - 0x10)
  else if 0x1000 ≤ o ∧ o < 0x1300 then
    let p := (o - 0x1000) / 0x40
    let r := o % 0x40
    if r = 0 then msecCfg s p
    else if r = 8 then msecStat s p
    else if r < 0x40 then wrapWord (tget s.sec.msCnt (p * 8 + (r - 0x10) / 8) ((0 : BitVec 48), false)) else 0
  else rget s (0xF80000 + o)

/-- A register of the FW block, in the view of a PF. -/
def fwRd (s : State) (fn : Fn) (o : Nat) : Word :=
  let l := getLog s (portOf fn)
  if o = 0x308 then at_ (sat 65535 l.lost) 48 ||| at_ l.prod.toNat 0
  else if o = 0x400 then
    at_ (sat 65535 s.fw.restarts) 32
      ||| at_ ((List.range 16).foldl (fun a n => a + b2n ((tget s.fw.cores n {}).st == 2) * 2 ^ n) 0) 16 ||| at_ (fwState s) 0
  else if o = 0x408 then
    at_ s.fw.actVer.toNat 32 ||| at_ s.fw.actDt.toNat 16 ||| at_ s.fw.actSt.toNat 8 ||| at_ (b2n (s.fw.auto && s.fw.act == 1)) 0
  else if 0x480 ≤ o ∧ o < 0x500 then
    let c := tget s.fw.cores ((o - 0x480) / 8) {}
    at_ (sat 65535 c.restarts) 48 ||| at_ c.cause.toNat 8 ||| at_ c.st.toNat 0
  else rget s (fwReg fn o)

/-- A register of the blocks that only a PF has, beyond the port blocks. -/
def pfRd (s : State) (fn : Fn) (off : Nat) : Word :=
  if off < 0x400000 then
    if 0x300100 ≤ off ∧ off < 0x300120 then rmaQstat s ((off - 0x300100) / 8)
    else if 0x300200 ≤ off ∧ off < 0x300240 then countWord (tget s.rmaDrop ((off - 0x300200) / 8) 0)
    else rget s off
  else if off < 0xC10000 then errRd s (off - 0xC00000)
  else if off < 0xC20000 then trcRd s (off - 0xC10000)
  else if off < 0xD00000 then cntRd s (off - 0xC20000)
  else if off < 0xE00000 then snpRd s (off - 0xD00000)
  else if off < 0xF00000 then mtrRd s (off - 0xE00000)
  else if off < 0xF08000 then lpeRd s (off - 0xF00000)
  else if off < 0xF80000 then pwrRd s (off - 0xF08000)
  else if off < 0xFC0000 then secRd s (off - 0xF80000)
  else if off < 0x1000000 then fwRd s fn (off - 0xFC0000)
  else 0

/-- The value of the register at a BAR0 offset of a function; offsets that no register occupies read zero (R12, R298). -/
def regRead (s : State) (fn : Fn) (off : Nat) : Word :=
  if off < 0x10000 then ddtRd s fn off
  else if off < 0x100000 then if isPf fn then devRd s fn (off - 0x10000) else 0
  else if off < 0x200000 then
    if isPf fn then viRd s (BitVec.ofNat 8 ((off - 0x100000) / 0x1000)) (off % 0x1000)
    else if off < 0x101000 then viRd s fn (off - 0x100000) else 0
  else if off < 0x300000 then
    if isPf fn then
      match portOfNat ((off - 0x200000) / 0x10000) with
      | some p => portRd s p (off % 0x10000)
      | none => 0
    else if 0x200400 ≤ off ∧ off < 0x200900 then queueRd s fn (off - 0x200000) else 0
  else if 0x400000 ≤ off ∧ off < 0x800000 then synRd s fn (off - 0x400000)
  else if 0x800000 ≤ off ∧ off < 0x810000 then untRd s fn (off - 0x800000)
  else if 0x810000 ≤ off ∧ off < 0x820000 then cmpRd s fn (off - 0x810000)
  else if 0x820000 ≤ off ∧ off < 0xC00000 then 0
  else if isPf fn then pfRd s fn off else 0

/-! ## Writes -/

/-- A command register written with OP 0, which starts nothing, or with a reserved OP, which keeps the old one (R11). -/
def cmdPlain (s : State) (k : Nat) (v mask : Word) : State :=
  let w := v &&& mask
  rset s k (if bits v 3 0 = 0 then w else setBits w 3 0 (bits (rget s k) 3 0))

/-- A 1 written to OVR of a command status register clears it (R13). -/
def clearOvr (s : State) (k : Nat) (v : Word) : State := if bit v 1 then rset s k (setBits (rget s k) 1 1 0) else s

/-- A write of a register of the DEV block. -/
def devWr (fn : Fn) (o : Nat) (v : Word) (s : State) : State :=
  if o = 0x100 then devRstWr fn v s
  else if o = 0x108 then (if bit v 8 then { s with drst := { s.drst with ovr := false } } else s)
  else if o = 0x4000 then
    if bits v 3 0 = 1 ∨ bits v 3 0 = 2 then rowCommand (bits v 3 0) (BitVec.ofNat 7 (bits v 14 8)) s
    else cmdPlain s (devReg 0x4000) v 0x7F0F
  else if o = 0x4008 then clearOvr s granStatReg v
  else if o = 0x4020 then (if 1 ≤ bits v 7 0 ∧ bits v 7 0 ≤ 168 then rset s (devReg 0x4020) (v &&& 0xFF) else s)
  else if o = 0x4030 then ctxSpillWrite fn v s
  else if o = 0x4800 then fabCfgWr fn v s
  else if o = 0x4808 then pairCfgWr fn v s
  else if o = 0x4810 then pairCmdWr v s
  else if o = 0x4818 then (if bit v 1 then { s with pair := { s.pair with ovr := false } } else s)
  else if 0x5000 ≤ o ∧ o < 0x5200 then aperWr fn ((o - 0x5000) / 8) v s
  else s

/-- A write of a queue register (R303). -/
def queueWr (fn : Fn) (vi : Vi) (o : Nat) (v : Word) (s : State) : State :=
  if o < 0x800 then
    let cq := decide (o ≥ 0x600)
    let q := o % 0x200 / 0x20
    if o % 0x20 = 0 then qBaseWr fn vi cq q v s
    else if o % 0x20 = 8 then (if cq then cqCfgWr fn vi q v s else sqCfgWr fn vi q v s)
    else s
  else if o < 0x880 then sqDbWr fn vi ((o - 0x800) / 8) (bits v 15 0) s
  else cqDbWr fn vi ((o - 0x880) / 8) (bits v 15 0) s

/-- A granule table command as written to `VI_GT_CMD`; `free` stands for what the partner confirms. -/
def gtCmdWr (fn : Fn) (vi : Vi) (v : Word) (free : Bool) (s : State) : State :=
  let i : BitVec 12 := BitVec.ofNat 12 (bits v 27 16)
  match bits v 3 0 with
  | 1 => gtCmd vi 1 i.toNat (doMap fn vi i free) s
  | 2 => gtCmd vi 2 i.toNat (doUnmap fn vi i) s
  | 3 => gtCmd vi 3 i.toNat (doSetattr fn vi i free) s
  | 4 => gtCmd vi 4 i.toNat (doGtRead vi i) s
  | _ => cmdPlain s (viReg vi 0x200) v 0xFFF000F

/-- A write of `VI_PEER_WIN`n (R334): a downstream port of the instance's own switch, or 7 none; 6 is reserved and keeps PORT. -/
def peerWinWr (fn : Fn) (vi : Vi) (o : Nat) (v : Word) (s : State) : State :=
  let w := v &&& 0xFFFFFFFFFFFFFFF7
  let p := bits v 2 0
  if p = 6 then rset s (viReg vi o) (setBits w 2 0 (bits (rget s (viReg vi o)) 2 0))
  else if p ≠ 7 ∧ p / 3 ≠ portOf vi then accessErr s fn (viOff fn vi o)
  else rset s (viReg vi o) w

/-- A write of `VI_HOST_WIN`: SIZE 4,097 to 8,191 keeps SIZE, and is recorded. -/
def hostWinWr (fn : Fn) (vi : Vi) (v : Word) (s : State) : State :=
  let k := viReg vi 0x218
  let w := v &&& 0xFFFFFFFFC0001FFF
  if bits v 12 0 > 4096 then accessErr (rset s k (setBits w 12 0 (bits (rget s k) 12 0))) fn (viOff fn vi 0x218) else rset s k w

/-- A write of `VI_SYNC_WDOG`: above 60,000,000 the field stands, and the write is recorded. -/
def wdogWr (fn : Fn) (vi : Vi) (v : Word) (s : State) : State :=
  if bits v 25 0 > 60000000 then accessErr s fn (viOff fn vi 0x48) else rset s (viReg vi 0x48) (v &&& 0x3FFFFFF)

/-- A write of a register of a VI block by a function that may write it. -/
def viWrBody (fn : Fn) (vi : Vi) (o : Nat) (v : Word) (free : Bool) (s : State) : State :=
  if o = 0x10 then viPollWr fn vi v s
  else if o = 0x18 then viShareWr fn vi v s
  else if o = 0x20 then
    match resOpOf (bits v 3 0) with
    | some op => resCommand fn vi op (resSel v) s
    | none => cmdPlain s (viReg vi 0x20) v 0x3FF007F000F
  else if o = 0x28 then rset s (viReg vi 0x28) (v &&& 0xE00001FF007F03FF)
  else if o = 0x30 then clearOvr s (resStatReg vi) v
  else if o = 0x38 then viLimitsWr fn vi v s
  else if o = 0x48 then wdogWr fn vi v s
  else if o = 0x50 then rset s (viReg vi 0x50) (v &&& 0xFFFFFFFF)
  else if o = 0x80 then hdlWrite vi v s
  else if o = 0x88 ∨ o = 0x90 ∨ o = 0x98 then rset s (viReg vi o) v
  else if o = 0xC0 then evRingWr fn vi v s
  else if o = 0xD0 then evAckWr fn vi v s
  else if o = 0xE0 then evPostWr vi v s
  else if o = 0x100 then rstCmdWr fn vi v s
  else if o = 0x108 then (if bit v 8 then modInst s vi (fun i => { i with rstOvr := false }) else s)
  else if o = 0x200 then gtCmdWr fn vi v free s
  else if o = 0x208 then rset s (gtArgReg vi) v
  else if o = 0x210 then clearOvr s (gtStatReg vi) v
  else if o = 0x218 then hostWinWr fn vi v s
  else if o = 0x220 then spillWriteReg fn vi false v s
  else if o = 0x228 then spillWriteReg fn vi true v s
  else if 0x300 ≤ o ∧ o < 0x320 then peerWinWr fn vi o v s
  else if 0x400 ≤ o ∧ o < 0x900 then queueWr fn vi o v s
  else if 0x900 ≤ o ∧ o < 0xA00 then
    if o % 0x20 = 0 then rset s (viReg vi o) (v &&& 0xFFFFFFFF00003F03)
    else if o % 0x20 = 8 ∨ o % 0x20 = 0x10 then rset s (viReg vi o) v else s
  else if 0xA00 ≤ o ∧ o < 0xE00 then
    let tx := decide (o ≥ 0xC00)
    let r := o % 0x200 / 0x20
    if o % 0x20 = 0 then ringBaseWr fn vi tx r v s
    else if o % 0x20 = 8 then (if tx then txCfgWr fn vi r v s else rxCfgWr fn vi r v s) else s
  else if 0xE00 ≤ o ∧ o < 0xE60 then
    match portOfNat ((o - 0xE00) / 8) with
    | some p => viShapeWr fn vi p v s
    | none => s
  else s

/-- Registers of the VI block that a VF may write (R260). -/
def vfMay (o : Nat) : Bool :=
  [0x10, 0x20, 0x48, 0x80, 0x88, 0x90, 0x98, 0xC0, 0xD0, 0xE0, 0x100, 0x200, 0x208].contains o

/-- A register stands at an offset of the VI block. -/
def viRegAt (o : Nat) : Bool :=
  decide (o < 0x58) || (decide (0x80 ≤ o) && decide (o < 0xA8)) || (decide (0xC0 ≤ o) && decide (o < 0xE8))
    || (decide (0x100 ≤ o) && decide (o < 0x118)) || (decide (0x200 ≤ o) && decide (o < 0x238)) || (decide (0x300 ≤ o) && decide (o < 0x320))
    || (decide (0x400 ≤ o) && decide (o < 0x600)) || (decide (0x600 ≤ o) && decide (o < 0x800) && decide (o % 0x20 < 0x18))
    || (decide (0x800 ≤ o) && decide (o < 0x900)) || (decide (0x900 ≤ o) && decide (o < 0xE00) && decide (o % 0x20 < 0x18))
    || (decide (0xE00 ≤ o) && decide (o < 0xE60))

/-- A write of a VI block as it reaches the device (R260): a PF those of its own port, a VF its own, of the registers it may write. -/
def viWr (fn : Fn) (vi : Vi) (o : Nat) (v : Word) (free : Bool) (s : State) : State :=
  if isPf fn then (if samePort fn vi then viWrBody fn vi o v free s else accessErr s fn (viOff fn vi o))
  else if vfMay o then viWrBody fn vi o v free s
  else if viRegAt o then viRefused s fn vi o
  else s

/-- A write of a register of the IRS block of a port. -/
def irsWr (fn : Fn) (p : Port) (o : Nat) (v : Word) (s : State) : State :=
  if o = 0 then (if bits v 31 24 ≥ 128 ∧ bits v 31 24 < 192 then s else rset s (irsReg p 0) (v &&& 0xFF000000))
  else if 0x100 ≤ o ∧ o < 0x180 then qCfgWr p ((o - 0x100) / 8) v s
  else if 0x300 ≤ o ∧ o < 0x320 then rset s (irsReg p o) (if o = 0x318 then v &&& 0xFFFFFFFF else v)
  else if 0x400 ≤ o ∧ o < 0x420 then cShapeWr p ((o - 0x400) / 8) v s
  else if o = 0x440 then rset s (irsReg p o) (v &&& 0xFF)
  else if o = 0x800 then gclWr fn p v s
  else if o = 0x808 ∨ o = 0x810 ∨ (0x1000 ≤ o ∧ o < 0x1800) then gclListWr fn p o v s
  else if o = 0x900 ∨ o = 0x910 then smpRingWr fn p o v s
  else if o = 0x908 then smpCfgWr fn p v s
  else if o = 0xA00 then rset s (irsReg p o) (v &&& 0x3FF03FF)
  else s

/-- A write of a register of a port block. -/
def portWr (fn : Fn) (p : Port) (o : Nat) (v : Word) (free : Bool) (s : State) : State :=
  if o = 0 then prmModeWr fn p v s
  else if o = 8 then clearOvr s (prmStat p) v
  else if o = 0x10 then prmCmdWr p free v s
  else if o = 0x18 then rset s (prmReg p o) (v &&& 0xFFFFFFFFFFFFFFC1)
  else if o = 0x28 then rset s (prmReg p o) (v &&& 0xFF)
  else if 0x100 ≤ o ∧ o < 0x200 then prmRangeWr p ((o - 0x100) / 8) v s
  else if 0x200 ≤ o ∧ o < 0x240 then prmMirWr p ((o - 0x200) / 8) v s
  else if o = 0x400 then prmFlowWr p v s
  else if 0x1000 ≤ o ∧ o < 0x1180 then rset s (prmReg p o) v
  else if 0x4000 ≤ o ∧ o < 0x8000 then irsWr fn p (o - 0x4000) v s
  else if o = 0x8000 then phyCfgWr fn p v s
  else s

/-- A write of a register of the SYN block. -/
def synWr (fn : Fn) (o : Nat) (v : Word) (s : State) : State :=
  if o = 0 then
    match synOpOf (bits v 3 0) with
    | some op => synCommand fn op { obj := BitVec.ofNat 16 (bits v 63 48), ty := BitVec.ofNat 2 (bits v 25 24), vi := BitVec.ofNat 8 (bits v 15 8) } s
    | none => cmdPlain s (fnReg fn 0x400000) v 0xFFFF00000300FF0F
  else if o = 8 then rset s (fnReg fn 0x400008) (v &&& 0xFFFFFFFFFFFF)
  else if o = 0x10 then rset s (fnReg fn 0x400010) (v &&& 0x3FFFFFF)
  else if o = 0x18 then clearOvr s (synStatReg fn) v
  else if o = 0x40 then rset s (fnReg fn 0x400040) (v &&& 0xFFFF0000000007FF)
  else s

/-- A write of a register of the UNT or CMP block, by its offset from 0x80_0000. -/
def untWr (fn : Fn) (o : Nat) (v : Word) (s : State) : State :=
  if o = 0 then rset s (fnReg fn 0x800000) v
  else if o = 0x18 then rset s (fnReg fn 0x800018) (v &&& 0xFF)
  else if o = 0x10000 then
    match cmpOpOf (bits v 3 0) with
    | some op => cmpCommand fn op (cmpArgs v) s
    | none => cmdPlain s (cmpCmdReg fn) v 0xFFFF000301FFFF0F
  else if o = 0x10008 then rset s (cmpArgReg fn) v
  else if o = 0x10010 then clearOvr s (cmpStatReg fn) v
  else if 0x11000 ≤ o ∧ o < 0x12000 then rset s (fnReg fn (0x800000 + o)) v
  else s

/-- A write of a register of the ERR block. -/
def errWr (fn : Fn) (o : Nat) (v : Word) (s : State) : State :=
  if o = 0 then (if bit v 0 then { s with err := { s.err with overflow := false } } else s)
  else if o = 0x10 then errAckWr fn v s
  else if o = 0x18 then errCfgWr v s
  else if o = 0x38 then rset s 0xC00038 (v &&& 0xFFFFFF)
  else if 0x100 ≤ o ∧ o < 0x180 then fctOffWr ((o - 0x100) / 8) v s
  else s

/-- A write of a register of the TRC block, other than `TRC_DBG_CMD`, which starts a debug command. -/
def trcWr (fn : Fn) (o : Nat) (v : Word) (s : State) : State :=
  if o = 0 then trcCfgWr v s
  else if o = 8 ∨ o = 0x10 then trcHostWr fn o v s
  else if o = 0x20 then trcAckWr v s
  else if o = 0x40 then trcTrigWr v s
  else if o = 0x48 then trcStwWr v s
  else if o = 0x50 then rset s 0xC10050 (v &&& 0x7E)
  else if o = 0x58 then trcMarkWr v s
  else if 0x80 ≤ o ∧ o < 0xA0 then rset s (0xC10000 + o) v
  else if o = 0x108 ∨ o = 0x110 then rset s (0xC10000 + o) v
  else if o = 0x118 then clearOvr s 0xC10118 v
  else s

/-- A write of a register of the CNT block. -/
def cntWr (fn : Fn) (o : Nat) (v : Word) (s : State) : State :=
  if o = 0 then rset s 0xC20000 (v &&& 0xFF)
  else if o = 8 then cntCfgWr fn v s
  else if 0x100 ≤ o ∧ o < 0x200 then cntIdxWr fn ((o - 0x100) / 8) v s
  else if 0x400 ≤ o ∧ o < 0x500 then
    let k := (o - 0x400) / 0x40
    let r := o % 0x40
    if r = 0 then cntSmpRingWr fn k 0 v s
    else if r = 8 then cntSmpWr fn k v s
    else if r = 0x10 then cntSmpRingWr fn k 0x10 (v &&& 0xFFFFFFFFFFFFF000) s
    else if r = 0x18 then rset s (cSmpReg k 0x18) (v &&& 0xFFFFFFFFFFFF) else s
  else s

/-- A write of a register of the PWR block. -/
def pwrWr (o : Nat) (v : Word) (s : State) : State :=
  if o = 8 then pwrCmdWr v s
  else if o = 0x10 then clearOvr s pwrStat v
  else if o = 0x18 then pwrCfgWr v s
  else if o = 0x20 then rset s 0xF08020 (v &&& 0xE000000000000000)
  else if o = 0x28 then rset s 0xF08028 v
  else if o = 0x30 then (if bit v 63 then { s with pwr := { s.pwr with trip := setBits s.pwr.trip 63 63 0 } } else s)
  else if 0x100 ≤ o ∧ o < 0x500 then cluFreqWr ((o - 0x100) / 8) v s
  else s

/-- A write of a register of the SEC block. -/
def secWr (fn : Fn) (o : Nat) (v : Word) (s : State) : State :=
  if o = 8 then rset s 0xF80008 (v &&& 7)
  else if o = 0x100 then secKeyWr fn v [] s
  else if o = 0x108 then rset s 0xF80108 (v &&& 0xFFFFFFFFFFFFFFC0)
  else if o = 0x110 then clearOvr s keyStat v
  else if 0x1000 ≤ o ∧ o < 0x1300 ∧ o % 0x40 = 0 then msecCfgWr fn ((o - 0x1000) / 0x40) v s
  else s

/-- The mailbox command of an OP; what an image or a controller would bring is free (Assumption 2). -/
def mbOf (s : State) (op : Nat) : MbCmd :=
  match op with
  | 0x01 => .getInfo | 0x02 => .featureSet | 0x03 => .featureGet
  | 0x10 => .stage {
      version := freeBits s 32 6000, svn := freeBits s 8 6001,
      key := if bit (freeBits s 1 6002) 0 then some (freeBits s 2 6003) else none,
      sigOk := bit (freeBits s 1 6004) 0, digest := freeBits s 384 6005 }
  | 0x11 => .activate | 0x12 => .activateCancel | 0x13 => .svnCommit | 0x14 => .keyRevoke | 0x20 => .logCfg | 0x21 => .traceCfg
  | 0x30 => .stgBind {
      ready := bit (freeBits s 1 6006) 0, bsz := freeBits s 16 6007, qpairs := freeBits s 8 6008, tmo := (freeBits s 16 6009).toNat,
      wz := bit (freeBits s 1 6013) 0, ns := [(freeBits s 32 6014, freeBits s 16 6015)] }
  | 0x31 => .stgUnbind | 0x40 => .slowCfg | 0x41 => .ptpCfg | 0x50 => .restart
  | _ => .bad (BitVec.ofNat 8 op)

/-- A write of a register of the FW block. -/
def fwWr (fn : Fn) (o : Nat) (v : Word) (s : State) : State :=
  if o = 0 then
    if bits v 7 0 = 0 then rset s (fwReg fn 0) (v &&& 0xFF00000000FF) else mbWr fn (BitVec.ofNat 8 (bits v 47 40)) (mbOf s (bits v 7 0)) s
  else if o = 8 then rset s (fwReg fn 8) (v &&& 0xFFFFFFFFFFFFFF01)
  else if o = 0x10 then clearOvr s (mbStat fn) v
  else if 0x100 ≤ o ∧ o < 0x200 then rset s (fwReg fn o) v
  else if o = 0x300 then logRingWr fn v s
  else if o = 0x310 then logAckWr fn v s
  else s

/-- A write of a register of the blocks that only a PF has, beyond the port blocks; `free` stands for what lies outside the device. -/
def pfWr (fn : Fn) (off : Nat) (v : Word) (free : Bool) (s : State) : State :=
  if off < 0x400000 then (if off = 0x300000 then rmaCfgWr fn v s else s)
  else if off < 0xC10000 then errWr fn (off - 0xC00000) v s
  else if off < 0xC20000 then trcWr fn (off - 0xC10000) v s
  else if off < 0xD00000 then cntWr fn (off - 0xC20000) v s
  else if off < 0xE00000 then
    if off = 0xD00000 then snpCmdWr fn free v s
    else if off = 0xD00008 then rset s off (v &&& 0xFFFFFFFFFFFFFFC0)
    else if off = 0xD00010 then clearOvr s snpStat v
    else if off = 0xD00018 then rset s off (v &&& 0xFF) else s
  else if off < 0xF00000 then
    if off = 0xE00100 then mtrReqWr v (freeBits s 30 6010).toNat (freeBits s 64 6011).toNat s
    else if 0xE00108 ≤ off ∧ off < 0xE00128 then rset s off v
    else if off = 0xE00128 then clearOvr s mtrStat v else s
  else if off < 0xF08000 then
    if off = 0xF00008 then (if bits v 6 0 ≤ 73 then rset s off (v &&& 0x7F) else s)
    else if off = 0xF00018 then chcfgWr fn v s else s
  else if off < 0xF80000 then pwrWr (off - 0xF08000) v s
  else if off < 0xFC0000 then secWr fn (off - 0xF80000) v s
  else if off < 0x1000000 then fwWr fn (off - 0xFC0000) v s
  else s

/-- A 64-bit write of the register at a BAR0 offset of a function, other than of `TRC_DBG_CMD`. -/
def regWriteBase (fn : Fn) (off : Nat) (v : Word) (s : State) : State :=
  let free := bit (freeBits s 1 6012) 0
  let s' :=
    if off < 0x10000 then s
    else if off < 0x100000 then (if isPf fn then devWr fn (off - 0x10000) v s else s)
    else if off < 0x200000 then
      if isPf fn then viWr fn (BitVec.ofNat 8 ((off - 0x100000) / 0x1000)) (off % 0x1000) v free s
      else if off < 0x101000 then viWr fn fn (off - 0x100000) v free s else s
    else if off < 0x300000 then
      if isPf fn then
        match portOfNat ((off - 0x200000) / 0x10000) with
        | some p => portWr fn p (off % 0x10000) v free s
        | none => s
      else if 0x200400 ≤ off ∧ off < 0x200900 then queueWr fn fn (off - 0x200000) v s else s
    else if 0x400000 ≤ off ∧ off < 0x800000 then synWr fn (off - 0x400000) v s
    else if 0x800000 ≤ off ∧ off < 0xC00000 then untWr fn (off - 0x800000) v s
    else if isPf fn then pfWr fn off v free s else s
  nextFree s'

/-! ## 32-bit writes (R9) -/

/-- Registers whose effects all lie in bits [31:0], as a function reaches them: the stored register and the writable bits of its upper half. -/
def lowOnly (fn : Fn) (off : Nat) : Option (Nat × Word) :=
  let vi : Vi := if isPf fn then BitVec.ofNat 8 ((off - 0x100000) / 0x1000) else fn
  if 0x100000 ≤ off ∧ off < 0x200000 then
    match off % 0x1000 with
    | 0x18 => some (viReg vi 0x18, 0)
    | 0x20 => some (viReg vi 0x20, 0x3FF00000000)
    | 0x30 => some (viReg vi 0x30, 0) | 0x100 => some (viReg vi 0x100, 0) | 0x108 => some (viReg vi 0x108, 0)
    | 0x80 => some (viReg vi 0x80, 0xFFFF00000000)
    | 0x200 => some (viReg vi 0x200, 0) | 0x210 => some (viReg vi 0x210, 0)
    | o => if 0x800 ≤ o ∧ o < 0x900 then some (viReg vi o, 0) else none
  else if 0x200000 ≤ off ∧ off < 0x300000 then
    if isPf fn then
      match off % 0x10000 with
      | 0 => some (off, 0) | 8 => some (off, 0) | 0x10 => some (off, 0) | 0x400 => some (off, 0xFFFFFF0000000000)
      | _ => none
    else if off % 0x1000 ≥ 0x800 then some (viReg fn (off % 0x1000), 0) else none
  else match off with
    | 0x10100 => some (off, 0) | 0x10108 => some (off, 0) | 0x14000 => some (off, 0) | 0x14008 => some (off, 0)
    | 0x14810 => some (off, 0) | 0x14818 => some (off, 0)
    | 0x400000 => some (fnReg fn off, 0xFFFF000000000000) | 0x400018 => some (fnReg fn off, 0)
    | 0x810000 => some (fnReg fn off, 0xFFFF000300000000) | 0x810010 => some (fnReg fn off, 0)
    | 0xC00000 => some (off, 0) | 0xC10100 => some (off, 0) | 0xC10118 => some (off, 0)
    | 0xD00000 => some (off, 0) | 0xD00010 => some (off, 0) | 0xE00100 => some (off, 0) | 0xE00128 => some (off, 0)
    | 0xF08008 => some (off, 0) | 0xF08010 => some (off, 0)
    | 0xF80100 => some (off, 0xFF00000000) | 0xF80110 => some (off, 0)
    | 0xFC0000 => some (fnReg fn off, 0xFF0000000000) | 0xFC0010 => some (fnReg fn off, 0)
    | _ => none

/-- What a write does that changes a register's own fields only, where the function reaches the register as a whole-register write does
(R12, R260, R298). -/
def asReached (fn : Fn) (off : Nat) (body : State → State) (s : State) : State :=
  if 0x100000 ≤ off ∧ off < 0x200000 then
    let vi : Vi := if isPf fn then BitVec.ofNat 8 ((off - 0x100000) / 0x1000) else fn
    let o := off % 0x1000
    if isPf fn then (if samePort fn vi then body s else accessErr s fn off)
    else if off ≥ 0x101000 then s
    else if vfMay o then body s
    else if viRegAt o then viRefused s fn vi o else s
  else if isPf fn then body s
  else if (0x200400 ≤ off ∧ off < 0x200900) ∨ (0x400000 ≤ off ∧ off < 0xC00000) then body s else s

/-- The value that half of a register is merged with: a class shaper's is the value last written, which may not apply yet (R9, R384). -/
def halfBase (s : State) (fn : Fn) (off : Nat) : Word :=
  match portOfNat ((off - 0x200000) / 0x10000) with
  | some p =>
    if isPf fn ∧ 0x200000 ≤ off ∧ 0x4400 ≤ off % 0x10000 ∧ off % 0x10000 < 0x4420 then cShapeLast s p ((off % 0x10000 - 0x4400) / 8)
    else regRead s fn off
  | none => regRead s fn off

/-- Registers whose lower half a 32-bit write cannot change: `PWR_TRIP` and `CNT_VICFG`, and `TRC_CFG` while EN is 1. -/
def highOnly (s : State) (off : Nat) : Bool := off == 0xF08030 || off == 0xC20008 || (off == 0xC10000 && trcEn s)

/-- A register whose bits are all cleared by a written 1. -/
def clearsAll (off : Nat) : Bool := decide (0xC00100 ≤ off) && decide (off < 0xC00180)

/-- Registers with EN in bit 63 whose unit does not run although EN stands at 1: a write of the lower half starts nothing. -/
def idleEn (s : State) (fn : Fn) (off : Nat) : Option Nat :=
  let idle (k : Nat) (run : Bool) : Option Nat := if bit (rget s k) 63 && !run then some k else none
  let ofVi (vi : Vi) (o : Nat) : Option Nat :=
    let r := o % 0x200 / 0x20
    if o % 0x20 ≠ 8 then none
    else if 0x400 ≤ o ∧ o < 0x600 then idle (viReg vi o) ((getSq s vi r).st != 0)
    else if 0x600 ≤ o ∧ o < 0x800 then idle (viReg vi o) ((getCq s vi r).st != 0)
    else if 0xA00 ≤ o ∧ o < 0xC00 then idle (viReg vi o) (getRx s vi r).run
    else if 0xC00 ≤ o ∧ o < 0xE00 then idle (viReg vi o) (tget s.tx (ringKey vi r) {}).run
    else none
  if 0x100000 ≤ off ∧ off < 0x200000 then
    if isPf fn then ofVi (BitVec.ofNat 8 ((off - 0x100000) / 0x1000)) (off % 0x1000) else none
  else if 0x200000 ≤ off ∧ off < 0x300000 then
    if isPf fn then
      match portOfNat ((off - 0x200000) / 0x10000) with
      | some p => if off % 0x10000 = 0x4908 then idle (irsReg p 0x908) (getIris s p).smpRun else none
      | none => none
    else ofVi fn (off - 0x200000)
  else none

/-- The lower half of `CNT_SMP_CFG` written while EN is 1: PERIOD_US changes, and SIZE stands while the sampler runs (R592). -/
def smpLowWr (fn : Fn) (k : Nat) (v : Word) (s : State) : State :=
  let old := rget s (cSmpReg k 8)
  if (getSmp s k).run && bits v 4 0 != bits old 4 0 then accessErr s fn (cSmpReg k 8) else rset s (cSmpReg k 8) (v &&& 0x80FF0000FFFF001F)

/-- A 32-bit write at a BAR0 offset (R9): it acts on the half it addresses only; `wr` writes a whole register. -/
def halfWr (wr : Fn → Nat → Word → State → State) (fn : Fn) (off : Nat) (v : BitVec 32) (s : State) : State :=
  let base := off / 8 * 8
  let hi := decide (off % 8 = 4)
  let part := at_ v.toNat (if hi then 32 else 0)
  let cur : Word := if clearsAll base then 0 else halfBase s fn base
  let whole := part ||| (cur &&& (if hi then 0xFFFFFFFF else 0xFFFFFFFF00000000))
  if hi then
    match lowOnly fn base with
    | some (k, m) => asReached fn base (fun s => rset s k ((rget s k &&& ~~~m) ||| (part &&& m))) s
    | none => wr fn base whole s
  else if highOnly s base then s
  else if 0xC20400 ≤ base ∧ base < 0xC20500 ∧ base % 0x40 = 8 ∧ bit cur 63 ∧ isPf fn then smpLowWr fn ((base - 0xC20400) / 0x40) whole s
  else match idleEn s fn base with
    | some k => let s' := wr fn base (setBits whole 63 63 0) s; rset s' k (setBits (rget s' k) 63 63 1)
    | none => wr fn base whole s

end Sys2Proof.Machine
end

