-- ==== Sys2Proof/Machine/Debug.lean ====
section
/-! DEFINITION. Debug: Steward register addresses, the JTAG port and the debug commands (R485, R503, R581-R585). -/

namespace Sys2Proof.Machine

/-! ## Steward register addresses (R503) -/

/-- The PF through which a Steward address reaches BAR0: both have the same rights over all instances, so the one whose port the named
instance has is taken; elsewhere the one given (DESIGN CHOICE, Assumption 23). -/
def stwFn (s : State) (fn : Fn) (off : Nat) (v : Word) : Fn :=
  if 0x100000 ≤ off ∧ off < 0x200000 then pfOf (BitVec.ofNat 8 ((off - 0x100000) / 0x1000))
  else if off = 0x400000 ∨ off = 0x810000 ∨ off = 0xD00000 ∨ off = 0xF80100 then pfOf (BitVec.ofNat 8 (bits v 15 8))
  else if (0xC20400 ≤ off ∧ off < 0xC20500 ∧ off % 0x40 = 8) ∨ (0x15000 ≤ off ∧ off < 0x15200) then pfOf (BitVec.ofNat 8 (bits v 55 48))
  else if off = 0xC20008 ∨ (0xC20100 ≤ off ∧ off < 0xC20200) then pfOf (cntVi s)
  else fn

/-- The address is one of R503. -/
def stwAddr (a : Word) : Bool := decide (a.toNat < 0x1001000) || (decide (0x2000000 ≤ a.toNat) && decide (a.toNat < 0x2040000))

/-- A read of a Steward register address, by core `n`. The `STW_` registers and the heads of the slow-path queues are the firmware's own
(the former read zero, the latter free: Assumptions 2 and 23). -/
def stwRead (s : State) (fn : Fn) (n : Nat) (a : Word) : State × Word :=
  if a.toNat < 0x1000000 then
    if a.toNat % 8 = 0 then (nextFree s, regRead s (stwFn s fn a.toNat 0) a.toNat) else (accessErrUnit s (quadUd s (n / 4)) a, 0)
  else if a.toNat < 0x1001000 then (s, 0)
  else if 0x2000000 ≤ a.toNat ∧ a.toNat < 0x2040000 then (nextFree s, freeBits s 64 7000)
  else (accessErrUnit s (quadUd s (n / 4)) a, 0)

/-- A write of a Steward register address; `dbg` is what a write of `TRC_DBG_CMD` does. The metering mirror is read-only to a Steward. -/
def stwWrite (dbg : Word → State → State) (fn : Fn) (n : Nat) (a v : Word) (s : State) : State :=
  if a.toNat < 0x1000000 then
    if a.toNat % 8 ≠ 0 then accessErrUnit s (quadUd s (n / 4)) a
    else if a.toNat = 0xC10100 then dbg v s
    else if 0xE00000 ≤ a.toNat ∧ a.toNat < 0xF00000 then s
    else regWriteBase (stwFn s fn a.toNat v) a.toNat v s
  else if stwAddr a then s
  else accessErrUnit s (quadUd s (n / 4)) a

/-! ## Halted threads and cores (R584, R585) -/

/-- Each debug halt extends M3 (R485) and is trigger source 4 (R599). -/
def haltSeen (s : State) (op : BitVec 8) (arg data : Word) : State :=
  trcTrigger (debugSeen s ([op] ++ toBytes 8 arg.toNat ++ toBytes 8 data.toNat)) 4

/-- How a debug command ends at once: DATA it leaves, STATUS and DETAIL; none while it is in progress. -/
abbrev DbgEnd := Option (Option Word × BitVec 8 × BitVec 8)

/-- The command is complete with nothing to report. -/
def dbgOk : DbgEnd := some (none, 0, 0)

/-- HALT_THREAD (R584): a resident thread is saved with REASON 3, and a saved one held where it waits. A thread that a handler owns in
TRAPPED is left to it. -/
def haltThread (s : State) (index : BitVec 32) (launch : Word) : State × DbgEnd :=
  match s.threads.find? (fun p => !p.2.handler && p.2.launch == launch.toNat && p.2.index == index && p.2.st != .ending) with
  | some p =>
    if p.2.st = .trapped then (s, some (none, 0x01, 0x81))
    else
      let s := haltSeen s 5 (index.setWidth 64) launch
      if p.2.st = .saving then (putThr s (tidOf p.1) { p.2 with reason := 3 }, none) else (beginSave s (tidOf p.1) 3, none)
  | none =>
    match s.saved.find? (fun x => !x.handler && x.launch == launch.toNat && x.index == index) with
    | none => (s, some (none, 0x05, 0x80))
    | some x =>
      if x.trapped && !x.resumed then (s, some (none, 0x01, 0x81))
      else
        let s := { s with saved := s.saved.map (fun y => if y = x then { y with halted := true } else y) }
        (haltSeen s 5 (index.setWidth 64) launch, some (some (recAddr s x.vi x.loc), 0, 0))

/-- The halted record of an instance at an address; END_THREAD names bits [63:8] of it. -/
def haltedAt (s : State) (vi : Vi) (a : Word) : Option Saved :=
  s.saved.find? (fun x => x.vi == vi && x.halted && namesRec s vi x.loc a)

/-- RESUME_THREAD (R584): the thread waits for a place as every saved one, and takes it at once where there is one. -/
def unhaltThread (s : State) (vi : Vi) (a : Word) : State × DbgEnd :=
  match haltedAt s vi a with
  | none => (s, some (none, 0x05, 0x80))
  | some x =>
    let y := { x with halted := false }
    let s := { s with saved := s.saved.map (fun z => if z = x then y else z) }
    (resumeSaved s y, dbgOk)

/-- END_THREAD. -/
def endHalted (s : State) (vi : Vi) (a : Word) (status : BitVec 8) : State × DbgEnd :=
  match haltedAt s vi a with
  | none => (s, some (none, 0x05, 0x80))
  | some x => (endSaved s x status, dbgOk)

def setHalt (s : State) (n : Nat) (h : Bool) : State :=
  { s with fw := { s.fw with cores := tset s.fw.cores n { tget s.fw.cores n {} with halted := h } } }

/-- HALT_CORE (R585): a core that a debug command halted before stays halted. -/
def haltCore (s : State) (n : Nat) : State × DbgEnd :=
  if (tget s.fw.cores n {}).halted then (s, dbgOk) else (haltSeen (setHalt s n true) 8 (BitVec.ofNat 64 n) 0, dbgOk)

/-- STEP_CORE: the one instruction is the firmware's own. -/
def stepCore (s : State) (n : Nat) : State × DbgEnd :=
  if (tget s.fw.cores n {}).halted then (s, dbgOk) else (s, some (none, 0x0B, 0x82))

/-- RESUME_CORE: the duties that waited for the core are served. -/
def unhaltCore (s : State) (n : Nat) : State × DbgEnd :=
  if (tget s.fw.cores n {}).halted then (mbResume (setHalt s n false), dbgOk) else (s, some (none, 0x0B, 0x82))

/-! ## The debug commands (R583) -/

/-- READ_PHYS and WRITE_PHYS reach granules 0 to 2,303, 8-byte aligned. -/
def physOk (a : Word) : Bool := decide (a.toNat % 8 = 0) && decide (a.toNat < memEnd)

/-- An address with no memory behind it is recorded as an access error made inside the device (R182). -/
def physRefused (s : State) (a : Word) : State := if memEnd ≤ a.toNat ∧ a.toNat < 2 ^ 42 then accessErrUnit s 0 a else s

def readPhys (s : State) (a : Word) : State × DbgEnd :=
  if !physOk a then (physRefused s a, some (none, 0x05, 0x83))
  else
    let (s, d, p) := devRead s a.toNat 8 none
    (s, some (some (if p then 0 else BitVec.ofNat 64 (ofBytes d)), if p then 0x0A else 0, 0))

/-- Neither held by the snapshot guard nor mirrored. -/
def writePhys (s : State) (a v : Word) : State × DbgEnd :=
  if physOk a then (devWrite s none a.toNat (toBytes 8 v.toNat), dbgOk) else (physRefused s a, some (none, 0x05, 0x83))

/-- As `sysrd`. -/
def readSreg (s : State) (a : Word) : State × DbgEnd :=
  if !stwAddr a then (s, some (none, 0x05, 0x83))
  else
    let (s, v) := stwRead s 0 0 a
    (s, some (some v, 0, 0))

/-- As `syswr`. A command it would start in `TRC_DBG_CMD` meets BUSY. -/
def writeSreg (s : State) (a v : Word) : State × DbgEnd :=
  if stwAddr a then (stwWrite (fun v s => if bits v 7 0 = 0 then rset s 0xC10100 0 else statOvr s dbgStat) 0 0 a v s, dbgOk)
  else (s, some (none, 0x05, 0x83))

/-- A debug command runs with ADDR and DATA as they stand. -/
def dbgDo (s : State) (op : Nat) : State × DbgEnd :=
  let a := rget s 0xC10108
  let d := rget s dbgData
  match op with
  | 1 => readPhys s a
  | 2 => writePhys s a d
  | 3 => readSreg s a
  | 4 => writeSreg s a d
  | 5 => haltThread s (a.setWidth 32) d
  | 6 => unhaltThread s (a.setWidth 8) d
  | 7 => endHalted s (a.setWidth 8) (a &&& 0xFFFFFFFFFFFFFF00) (d.setWidth 8)
  | 8 => haltCore s (bits a 3 0)
  | 9 => stepCore s (bits a 3 0)
  | _ => unhaltCore s (bits a 3 0)

/-- The command ends: the result in DATA, then STATUS and DETAIL. -/
def dbgEnd (r : State × DbgEnd) : State :=
  match r.2 with
  | none => r.1
  | some (d, st, dt) => statDone (match d with | some v => rset r.1 dbgData v | none => r.1) dbgStat (st, dt)

/-- A write of `TRC_DBG_CMD`: a reserved OP starts nothing and keeps the old one (R11). -/
def dbgCmdWr (op : Nat) (s : State) : State :=
  if op = 0 then rset s 0xC10100 0
  else if op > 10 then s
  else if statBusy s dbgStat then statOvr s dbgStat
  else dbgEnd (dbgDo (statStart (rset s 0xC10100 (at_ op 0)) dbgStat) op)

/-! ## Routes (R581, R582) -/

/-- A 64-bit write of the register at a BAR0 offset of a function. -/
def regWrite (fn : Fn) (off : Nat) (v : Word) (s : State) : State :=
  if off = 0xC10100 ∧ isPf fn then dbgCmdWr (bits v 7 0) s else regWriteBase fn off v s

/-- A debug command that arrives in Dark starts a wake, whatever `PWR_WAKE` holds. -/
def dbgWake (s : State) (cause : BitVec 8) : State := if s.pwr.st = 2 then { s with pwr := { s.pwr with st := 4, wake := cause } } else s

/-- Writes of the debug registers by a PF, the last of them the command. -/
def dbgPf (fn : Fn) (ws : List (Nat × Word)) (s : State) : Host.Outcome State Fault Refusal :=
  match gate s fn (some 0xC10100) with
  | .absent => .next s
  | .ur => .next (ws.foldl (fun s _ => aerReq s fn 20) s)
  | .ignored => .next s
  | .held => .next (dbgWake { s with heldHost := s.heldHost ++ ws.map (fun w => HostWr.reg fn w.1 w.2) } 1)
  | .behind => .next (stopEntry { s with heldHost := s.heldHost ++ ws.map (fun w => HostWr.reg fn w.1 w.2) } 1 63)
  | .pass => .next (settle (ws.foldl (fun s w => regWrite fn w.1 w.2 s) (stopEntry s 1 63)))

/-- The test access port has power. -/
def tapOn (s : State) : Bool := decide (s.boot.phase ≠ 0)

/-- `TRC_DBG_STAT` as JTAG captures it: BUSY also while a command of the port waits for a wake. -/
def dbgStatSeen (s : State) : Word :=
  rget s dbgStat ||| at_ (b2n (s.heldHost.any (fun h => match h with
    | .dbg _ _ _ => true | .reg _ _ _ => false | .half _ _ _ => false | .bar2 _ _ _ _ => false | .rd _ _ _ => false))) 0

/-- Capture-DR under DBGACC. -/
def dbgCapture (s : State) : BitVec 200 :=
  BitVec.ofNat 200 (bits (rget s 0xC10100) 7 0 + (rget s 0xC10108).toNat * 2 ^ 8 + (rget s dbgData).toNat * 2 ^ 72
    + (dbgStatSeen s).toNat * 2 ^ 136)

/-- DBGACC is selected; the first time since a module or TAP reset it opens debug access (R485). -/
def dbgSelect (s : State) : State :=
  let s := if s.jtag.opened then s else debugSeen s [0x10]
  { s with jtag := { s.jtag with ir := 0x10, opened := true, dr := dbgCapture s } }

/-- Debug registers are reached: the device has started and no device reset runs (DESIGN CHOICE, Assumption 23). -/
def dbgReach (s : State) : Bool := decide (s.boot.phase.toNat ≥ 8) && s.drst.phase == 0

/-- Update-DR: a command written while one is in progress is ignored with OVR; one that arrives in Dark waits for the wake it starts, whose
cause is none of `PWR_STATE.WAKE` (free, Assumption 2). -/
def dbgUpdate (op : BitVec 8) (a d : Word) (s : State) : State :=
  if !dbgReach s then s
  else if s.pwr.st = 2 ∨ s.pwr.st = 4 then
    if op = 0 then s
    else if bit (dbgStatSeen s) 0 then statOvr s dbgStat
    else nextFree (dbgWake { s with heldHost := s.heldHost ++ [.dbg op a d] } (freeBits s 8 7001))
  else if op ≠ 0 ∧ statBusy s dbgStat then statOvr s dbgStat
  else dbgCmdWr op.toNat (rset (rset s 0xC10108 a) dbgData d)

/-- DBGACC: the data register is captured, then shifted in and updated. -/
def execDbgacc (op : BitVec 8) (addr data : Word) (s : State) : Host.Outcome State Fault Refusal :=
  if tapOn s then .next (settle (dbgUpdate op addr data (dbgSelect s))) else .next s

/-- A debug command by one of the two routes. -/
def dbgCommand (via : DbgVia) (op : BitVec 8) (addr : Word) (data : Option Word) (s : State) : Host.Outcome State Fault Refusal :=
  match via with
  | .jtag => execDbgacc op addr (data.getD (rget s dbgData)) s
  | .pf p =>
    dbgPf (portPf p.val) ([(0xC10108, addr)] ++ (match data with | some d => [(dbgData, d)] | none => []) ++ [(0xC10100, op.setWidth 64)]) s

def execReadPhys (via : DbgVia) (addr : Word) (s : State) : Host.Outcome State Fault Refusal := dbgCommand via 1 addr none s
def execWritePhys (via : DbgVia) (addr data : Word) (s : State) : Host.Outcome State Fault Refusal := dbgCommand via 2 addr (some data) s
def execReadSreg (via : DbgVia) (addr : Word) (s : State) : Host.Outcome State Fault Refusal := dbgCommand via 3 addr none s
def execWriteSreg (via : DbgVia) (addr data : Word) (s : State) : Host.Outcome State Fault Refusal := dbgCommand via 4 addr (some data) s
def execHaltThread (via : DbgVia) (index : BitVec 32) (launch : Word) (s : State) : Host.Outcome State Fault Refusal :=
  dbgCommand via 5 (index.setWidth 64) (some launch) s
def execResumeThread (via : DbgVia) (vi : Vi) (rec_ : Word) (s : State) : Host.Outcome State Fault Refusal :=
  dbgCommand via 6 (vi.setWidth 64) (some rec_) s
def execEndThread (via : DbgVia) (vi : Vi) (rec_ : Word) (status : BitVec 8) (s : State) : Host.Outcome State Fault Refusal :=
  dbgCommand via 7 ((rec_ &&& 0xFFFFFFFFFFFFFF00) ||| vi.setWidth 64) (some (status.setWidth 64)) s
def execHaltCore (via : DbgVia) (core : BitVec 4) (s : State) : Host.Outcome State Fault Refusal := dbgCommand via 8 (core.setWidth 64) none s
def execStepCore (via : DbgVia) (core : BitVec 4) (s : State) : Host.Outcome State Fault Refusal := dbgCommand via 9 (core.setWidth 64) none s
def execResumeCore (via : DbgVia) (core : BitVec 4) (s : State) : Host.Outcome State Fault Refusal := dbgCommand via 10 (core.setWidth 64) none s

/-! ## The other instructions of the port (R582) -/

/-- An instruction of the boundary register: what it captures of the pins, in an order of its own, is free (Assumption 2). -/
def boundary_ (ir : BitVec 8) (shift : List Bool) (s : State) : Host.Outcome State Fault Refusal :=
  if tapOn s then .next (nextFree { s with jtag := { s.jtag with ir := ir, dr := freeBits s 200 7002, bsr := shift } }) else .next s

def execExtest (shift : List Bool) (s : State) : Host.Outcome State Fault Refusal := boundary_ 0x00 shift s
def execSamplePreload (shift : List Bool) (s : State) : Host.Outcome State Fault Refusal := boundary_ 0x01 shift s

def execIdcode (s : State) : Host.Outcome State Fault Refusal :=
  if tapOn s then .next { s with jtag := { s.jtag with ir := 0x02, dr := 0xB3272F79 } } else .next s

/-- The bypass register captures zero, as IEEE 1149.1 has it. -/
def execBypass (s : State) : Host.Outcome State Fault Refusal :=
  if tapOn s then .next { s with jtag := { s.jtag with ir := 0x3F, dr := 0 } } else .next s

/-- TAP_RESET selects IDCODE, as IEEE 1149.1 has it, and the next DBGACC opens debug access again. -/
def execTapReset (s : State) : Host.Outcome State Fault Refusal :=
  if tapOn s then .next { s with jtag := { s.jtag with ir := 0x02, opened := false } } else .next s

end Sys2Proof.Machine
end

