-- ==== Sys2Proof/Machine/HostRead.lean ====
section
/-! DEFINITION. Reads of BAR0 in every width (R7-R9, R12, R297, R300, R549, R576, R615). -/

namespace Sys2Proof.Machine

/-- Bytes of an access. -/
def accWidth : AccW → Nat
  | .w8 => 1 | .w16 => 2 | .w32 => 4 | .w64 => 8

/-- A read that reaches the register at a BAR0 offset: the whole register or the half it addresses (R7, R9); one of any other width, or
unaligned, returns zero and is an access error (R8). -/
def regAnswer (fn : Fn) (off : Nat) (w : AccW) (s : State) : State :=
  let n := accWidth w
  if n < 4 ∨ off % n ≠ 0 then answerHost (accessErr s fn off) (List.replicate n 0) false
  else nextFree (answerHost s ((toBytes 8 (regRead s fn (off / 8 * 8)).toNat).drop (off % 8) |>.take n) false)

/-- A read of a BAR0 offset: what answers it in each state. -/
def hostRd (fn : Fn) (off : Nat) (w : AccW) (s : State) : Host.Outcome State Fault Refusal :=
  let zeros := answerHost s (List.replicate (accWidth w) 0) false
  match gate s fn (some off) with
  | .absent => .next s
  | .ur => .next (aerReq (answerHost s [] false) fn 20)
  | .ignored => .next zeros
  | .held => .next (startWake zeros 1 63)
  | .behind => .next (stopEntry { s with heldHost := s.heldHost ++ [.rd fn off w] } 1 63)
  | .pass => .next (regAnswer fn off w (stopEntry s 1 63))

/-- UNT_CNTVAL_READ (R59): a read of `UNT_CNTVAL`, whole or of the part of it at the given offset. -/
def execUntCntvalRead (rd : CntRead) (s : State) : Host.Outcome State Fault Refusal :=
  hostRd rd.fn (0x800020 + rd.part.toNat) rd.w s

end Sys2Proof.Machine
end

