-- ==== Sys2Proof/Machine/Late.lean ====
section
/-! DEFINITION. Completion of a thread's operations (R88, R89, R124, R282), and the end of a wake (R550). -/

namespace Sys2Proof.Machine

/-- Memory serves threads: outside start-up, resets, the fatal state and Dark. -/
def memServes (s : State) : Bool :=
  s.boot.phase == 8 && s.drst.phase == 0 && !s.err.fatal && (s.pwr.st == 0 || s.pwr.st == 1 || s.pwr.st == 3)

/-! ## Handler and firmware operations -/

/-- A thread in TRAPPED by the address of its record: resident, or saved and waiting (R291). -/
def trappedAt (s : State) (vi : Vi) (a : Word) : Option (Tid × Thread) :=
  (s.threads.find? (fun p => p.2.vi == vi && !p.2.handler && p.2.st == .trapped && (match p.2.recd with
    | some loc => namesRec s vi loc a
    | none => false))).map (fun p => (tidOf p.1, p.2))

def savedTrappedAt (s : State) (vi : Vi) (a : Word) : Option Saved :=
  s.saved.find? (fun x => x.vi == vi && !x.handler && x.trapped && !x.resumed && namesRec s vi x.loc a)

/-- `tresume` is performed (R107, R110, R112, R291, R617); an address that names no trapped thread's record has no effect. -/
def doTresume (s : State) (vi : Vi) (a : Word) : State :=
  match trappedAt s vi a with
  | some (t, th) =>
    match th.recd with
    | none => s
    | some loc =>
      let (s, b, _) := spillRead s vi loc recSize
      if recBad b then endTrapped s t th 0x0B else resumeIn (spillFree s vi loc) t th b
  | none =>
    match savedTrappedAt s vi a with
    | none => s
    | some x =>
      let (s, b, _) := spillRead s vi x.loc recSize
      if recBad b then endSaved s x 0x0B
      else { s with saved := s.saved.map (fun y => if y = x then { y with resumed := true, image := some b } else y) }

/-- `tend` for another thread is performed (R107). -/
def doTendOther (s : State) (vi : Vi) (a : Word) (status : BitVec 8) : State :=
  match trappedAt s vi a with
  | some (t, th) => endTrapped s t th status
  | none => match savedTrappedAt s vi a with
    | some x => endSaved s x status
    | none => s

/-- `evwait` takes the oldest event that no thread has taken, if it was issued first of those that wait (R282). -/
def takeEvent (s : State) (t : Tid) (th : Thread) (o : Op) : State :=
  let i := getInst s th.vi
  if i.evq.head? ≠ some (Tid.key t, o.id) ∨ i.nextTake = i.produced ∨ th.st = .saving then s
  else
    let c := tget i.causes i.nextTake.toNat 0
    let s := modInst s th.vi (fun i => { i with
      evq := i.evq.drop 1, causes := tdel i.causes i.nextTake.toNat, nextTake := i.nextTake + 1 })
    let th := { th with evTaken := some i.nextTake }
    opDone (putThr s t th) t o.id (BitVec.ofNat 1024 (i.nextTake.toNat + c.toNat * 2 ^ 48))

/-! ## Completion (R88, R89) -/

/-- A memory operation is performed; `status` and `ext` are what host memory answers. -/
def memComplete (s : State) (t : Tid) (th : Thread) (o : Op) (status : BitVec 8) (ext : List Byte) : State :=
  if o.perf ∨ o.parts > 0 ∨ behind s t th o ∨ !o.sent then s
  else
    let s := if status = 0x0A ∧ asksHost o.act ∧ isLoadAct o.act then aerReq s th.vi 12 else s
    let (s, r) := performAct s t th o status (if o.got.isEmpty then ext else gotBytes o)
    match getThr s t with
    | none => s
    | some th => putThr s t (setOp th { o with done := !r.wait, perf := true, res := r.res, fault := r.fault })

/-- A Facet's Steward core, for its Steward addresses. -/
def stwCoreOf (t : Tid) : Nat := 4 * (t.facet.toNat / 256)

/-- A load-class operation completes. A sync operation completes by its answer, not here. -/
def loadDone (s : State) (t : Tid) (th : Thread) (o : Op) (status : BitVec 8) (data : List Byte) : State :=
  if isMemAct o.act then memComplete s t th o status data
  else match o.act with
    | .evwait _ => takeEvent s t th o
    | .sysrd a =>
      let (s, v) := stwRead s (portPf (stwCoreOf t / 4 % 2)) (stwCoreOf t) a
      opDone s t o.id (v.setWidth 1024)
    | _ => s

/-- A store-class operation is visible. -/
def storeDone (s : State) (t : Tid) (th : Thread) (o : Op) (status : BitVec 8) : State :=
  if isMemAct o.act then memComplete s t th o status []
  else match o.act with
    | .tresume a => doTresume (stDone s t o.id) th.vi a
    | .tendOther a st => doTendOther (stDone s t o.id) th.vi a st
    | .syswr a v =>
      stwWrite (fun v s => dbgCmdWr (bits v 7 0) s) (portPf (stwCoreOf t / 4 % 2)) (stwCoreOf t) a v (stDone s t o.id)
    | .evpost vi v => postEvent (stDone s t o.id) vi ⟨6, #v[v, 0, 0, 0, 0]⟩
    | _ => s

/-- LOAD_COMPLETE. -/
def execLoadComplete (t : Tid) (op : Nat) (status : BitVec 8) (data : List Byte) (s : State) : Host.Outcome State Fault Refusal :=
  match getThr s t with
  | none => .next s
  | some th =>
    match th.loads.find? (fun o => o.id == op && !o.done) with
    | none => .next s
    | some o => if memServes s then .next (settle (loadDone s t th o status data)) else .next s

/-- STORE_COMPLETE. -/
def execStoreComplete (t : Tid) (op : Nat) (status : BitVec 8) (s : State) : Host.Outcome State Fault Refusal :=
  match getThr s t with
  | none => .next s
  | some th =>
    match th.stores.find? (fun o => o.id == op && !o.done) with
    | none => .next s
    | some o => if memServes s then .next (settle (storeDone s t th o status)) else .next s

/-! ## Held host accesses, and the end of a wake (R300, R549, R550, R581) -/

/-- A host access that was held is performed. -/
def heldPerform (s : State) (h : HostWr) : State :=
  match h with
  | .reg fn off v => regWrite fn off v s
  | .half fn off v => halfWr regWrite fn off v s
  | .bar2 fn off d p => aperWrite fn off d p s
  | .dbg op a d => dbgUpdate op a d s
  | .rd fn off w => regAnswer fn off w s

/-- A host access still has to wait: the device is Dark, or earlier accesses of its function wait (R300, R549). -/
def hostStays (s : State) (h : HostWr) : Bool :=
  s.pwr.st == 2 || s.pwr.st == 4 || (match h.fn? with | some fn => bar2Held s fn || hostWaits s fn | none => false)

/-- Held host accesses that need not wait any longer are performed, in the order they arrived. -/
def releaseHost (s : State) : State :=
  s.heldHost.foldl (fun s h => if hostStays s h then { s with heldHost := s.heldHost ++ [h] } else heldPerform s h)
    { s with heldHost := [] }

/-- WAKE_COMPLETE: clusters, stacks and Stewards run, the ports train again, the device is Bright, and what was held is performed in the
order it arrived. -/
def execWakeComplete (s : State) : Host.Outcome State Fault Refusal :=
  if s.pwr.st ≠ 4 then .next s
  else
    .next (settle (mbResume (releaseHost (portsTrain (toBright s)))))

end Sys2Proof.Machine
end

