-- ==== Sys2Proof/Machine/ConfigSpace.lean ====
section
/-! DEFINITION. Writes of any register: BAR0 in every width, configuration space and the switch functions (R9, R12, R13, R294-R297, R318,
R320-R330). -/

namespace Sys2Proof.Machine

/-! ## Configuration space of the endpoint's functions (R294, R295)

A write gives a dword, the bits it writes as a mask, and their values. Capabilities stand where R294 and R295 place them, and the registers
of each as PCIe 6.0 does (PRESUMED, Assumption 21). -/

/-- A bit as written. -/
def wBit (m v : BitVec 32) (i : Nat) (old : Bool) : Bool := if bit m i then bit v i else old
/-- Bits written where the mask has them. -/
def wBits (m v old : BitVec 32) : BitVec 32 := (v &&& m) ||| (old &&& ~~~m)
/-- A 1 is written to the bit. -/
def wOne (m v : BitVec 32) (i : Nat) : Bool := bit m i && bit v i

/-- Writable bits of the plainly stored dwords of a PF: BARs, Cache Line Size, Interrupt Line, System Page Size, VF BAR0, LTR, and the address
associations of the IDE streams. -/
def pfPlain (d : Nat) : BitVec 32 :=
  match d with
  | 0x0C => 0xFF | 0x10 => 0xF0000000 | 0x14 => 0xFFFFFFFF | 0x1C => 0xFFFFFFF0 | 0x3C => 0xFF
  | 0x170 => 0x1FFF | 0x174 => 0xFF000000 | 0x178 => 0xFFFFFFFF | 0x1A4 => 0x1FFF1FFF
  | _ =>
    if 0x1CC ≤ d ∧ d < 0x224 ∧ (d - 0x1CC) % 44 ≥ 20 then (if ((d - 0x1CC) % 44 - 20) % 12 = 0 then 0xFFFFFF01 else 0xFFFFFFFF) else 0

/-- A plainly stored dword is written. -/
def cfgPlain (s : State) (k d : Nat) (m v mask : BitVec 32) : State :=
  if mask = 0 then s else rset s (cfgReg k d) ((wBits (m &&& mask) v ((rget s (cfgReg k d)).setWidth 32)).setWidth 64)

/-- The Command register. -/
def cfgCommand (fn : Fn) (m v : BitVec 32) (s : State) : State :=
  let s := if isPf fn then modCfg s fn (fun c => { c with mse := wBit m v 1 c.mse, intDis := wBit m v 10 c.intDis }) else s
  if bit m 2 then bmeWr fn (bit v 2) s else s

/-- Power Management control: D0 and D3hot; D1 and D2 are not supported. -/
def cfgPower (fn : Fn) (m v : BitVec 32) (s : State) : State :=
  if !bit m 0 then s else if bits v 1 0 = 0 then d3Wr fn false s else if bits v 1 0 = 3 then d3Wr fn true s else s

/-- Device Control, with Initiate Function Level Reset. -/
def cfgDevCtl (fn : Fn) (m v : BitVec 32) (s : State) : State :=
  let s := modCfg s fn (fun c => { c with
    ro := wBit m v 4 c.ro, devCtl := ((wBits (m &&& 0x71EF) v (c.devCtl.setWidth 32)).setWidth 16) })
  if wOne m v 15 then flrStart s fn else s

/-- Completion Timeout Values of R323. -/
def ctoKnown (n : Nat) : Bool := [0, 1, 2, 5, 6, 9, 10, 13, 14].contains n

/-- Device Control 2. -/
def cfgDevCtl2 (fn : Fn) (m v : BitVec 32) (s : State) : State :=
  modCfg s fn (fun c => { c with
    ctoVal := if bit m 0 && ctoKnown (bits v 3 0) then BitVec.ofNat 4 (bits v 3 0) else c.ctoVal,
    ctoDis := wBit m v 4 c.ctoDis, ido := wBit m v 8 c.ido })

/-- The AER registers. Clearing the status bit that First Error Pointer names makes the pointer invalid (R322). -/
def cfgAer (fn : Fn) (d : Nat) (m v : BitVec 32) (s : State) : State :=
  let w := v &&& m
  let wide (old : Word) : Word := (wBits m v (old.setWidth 32)).setWidth 64
  modCfg s fn (fun c =>
    if d = 0x104 then { c with
      uncSt := c.uncSt &&& ~~~(w.setWidth 64),
      fep := match c.fep with | some b => if bit w b.toNat then none else some b | none => none }
    else if d = 0x108 then { c with uncMsk := wide c.uncMsk }
    else if d = 0x10C then { c with uncSev := wide c.uncSev }
    else if d = 0x110 then { c with corSt := c.corSt &&& ~~~(w.setWidth 64) }
    else if d = 0x118 then { c with ecrcGen := wBit m v 6 c.ecrcGen, ecrcChk := wBit m v 8 c.ecrcChk }
    else { c with corMsk := wide c.corMsk })

/-- SR-IOV control. -/
def cfgSriov (fn : Fn) (m v : BitVec 32) (s : State) : State :=
  let s := modCfg s fn (fun c => { c with vfMse := wBit m v 3 c.vfMse })
  if bit m 0 then vfEnWr fn (bit v 0) s else s

/-- A register of a selective IDE stream: Enable, the last and the first Requester ID of its association. -/
def cfgIde (fn : Fn) (i o : Nat) (m v : BitVec 32) (s : State) : State :=
  let p := portOf fn
  let x := getIde s p i
  let x := if o = 4 then { x with en := wBit m v 0 x.en }
    else if o = 0xC then { x with ridHi := BitVec.ofNat 16 (bits (wBits m v (BitVec.ofNat 32 (x.ridHi.toNat * 256))) 23 8) }
    else { x with
      assoc := wBit m v 0 x.assoc
      ridLo := BitVec.ofNat 16 (bits (wBits m v (BitVec.ofNat 32 (x.ridLo.toNat * 256))) 23 8) }
  ideResume (setIde s p i x) p

/-- A dword of a function's configuration space is written. -/
def cfgWr (fn : Fn) (d : Nat) (m v : BitVec 32) (s : State) : State :=
  let pf := isPf fn
  if d = 4 then cfgCommand fn m v s
  else if d = 0x44 ∧ pf then cfgPower fn m v s
  else if d = (if pf then 0x58 else 0x48) then cfgDevCtl fn m v s
  else if d = (if pf then 0x78 else 0x68) then cfgDevCtl2 fn m v s
  else if d = 0x104 ∨ d = 0x108 ∨ d = 0x10C ∨ d = 0x110 ∨ d = 0x114 ∨ d = 0x118 then cfgAer fn d m v s
  else if !pf then (if d = 0x154 then modCfg s fn (fun c => { c with ats := wBit m v 31 c.ats }) else s)
  else if d = 0x158 then cfgSriov fn m v s
  else if d = 0x160 then (if bit m 0 ∧ bit m 8 then numVfsWr fn (v.setWidth 16) s else s)
  else if 0x1CC ≤ d ∧ d < 0x224 ∧ ((d - 0x1CC) % 44 = 4 ∨ (d - 0x1CC) % 44 = 0xC ∨ (d - 0x1CC) % 44 = 0x10) then
    cfgIde fn ((d - 0x1CC) / 44) ((d - 0x1CC) % 44) m v s
  else cfgPlain s fn.toNat d m v (pfPlain d)

/-- The PF captures the bus number of a configuration write to one of its functions, as PCIe 6.0 has it. -/
def captureBus (fn : Fn) (bus : BitVec 8) (s : State) : State := modCfg s (pfOf fn) (fun c => { c with bus := bus.toNat })

/-! ## The switch functions (R318, R329, R330): where their capabilities stand is not given (PRESUMED, Assumption 21) -/

/-- The embedded switch a switch function belongs to. -/
def swOf (n : Fin 10) : Nat := if n.val < 6 then n.val / 3 else n.val % 2

/-- The configuration of the switch answers: its upstream link is up. -/
def swUp (s : State) (n : Fin 10) : Bool := decide (s.boot.phase ≠ 0) && s.boot.upLink.toList.getD (swOf n) false

/-- Secondary Bus Reset of a downstream port. -/
def swReset (s : State) (p : Nat) (on : Bool) : State :=
  let w : SwPort := tget s.sw p {}
  if on = w.sbr then s
  else if on then linkLoss { s with sw := tset s.sw p { w with sbr := true, link := false, speed := 0, width := 0, dllsc := w.dllsc || w.link } } p
  else trainPort { s with sw := tset s.sw p { w with sbr := false } } p

/-- A Hot Reset of the internal bus resets the endpoint of the switch (R578). -/
def endpointReset (s : State) (port : Nat) : State :=
  if s.boot.phase == 8 && s.drst.phase == 0 then flrStart s (portPf port) else s

/-- Bridge Control: Secondary Bus Reset; of an upstream port function it reaches every port of the switch. -/
def swBridge (n : Fin 10) (m v : BitVec 32) (s : State) : State :=
  if !bit m 22 then s
  else
    let on := bit v 22
    if n.val < 6 then swReset s n.val on
    else
      let s := if n.val < 8 then s else (List.range 3).foldl (fun s i => swReset s (3 * swOf n + i) on) s
      if on then endpointReset s (swOf n) else s

/-- Enables of the upstream link's power states in an upstream port function: L0p, L1, L1.1 and L1.2. -/
def swLinkEn (port : Nat) (f : BitVec 4 → BitVec 4) (s : State) : State :=
  { s with links := s.links.mapIdx (fun i l => if i = port then { l with en := f l.en } else l) }

/-- A bit of the enables. -/
def setEn (e : BitVec 4) (i : Nat) (b : Bool) : BitVec 4 := (e &&& ~~~(BitVec.ofNat 4 (2 ^ i))) ||| BitVec.ofNat 4 (b2n b * 2 ^ i)

/-- Writable bits of the plainly stored dwords of a switch function's Type 1 header (R329): Command, Cache Line Size, bus numbers, memory
and prefetchable windows, and the BAR of an upstream port. -/
def swPlain (up : Bool) (d : Nat) : BitVec 32 :=
  match d with
  | 0x04 => 0x546 | 0x0C => 0xFF | 0x14 => (if up then 0xFFFFFFFC else 0) | 0x18 => 0x00FFFFFF | 0x20 => 0xFFF0FFF0 | 0x24 => 0xFFF0FFF0
  | 0x28 => 0xFFFFFFFF | 0x2C => 0xFFFFFFFF | _ => 0

/-- The AER registers of a switch function. -/
def swAer (w : SwPort) (d : Nat) (m v : BitVec 32) : SwPort :=
  match d with
  | 0x104 => { w with uncSt := w.uncSt &&& ~~~(v &&& m) }
  | 0x108 => { w with uncMsk := wBits m v w.uncMsk }
  | 0x10C => { w with uncSev := wBits m v w.uncSev }
  | 0x110 => { w with corSt := w.corSt &&& ~~~(v &&& m) }
  | _ => { w with corMsk := wBits m v w.corMsk }

/-- A dword of a switch function's configuration space is written. -/
def swWr (n : Fin 10) (d : Nat) (m v : BitVec 32) (s : State) : State :=
  let k := n.val
  let w : SwPort := tget s.sw k {}
  let put (x : SwPort) : State := { s with sw := tset s.sw k x }
  if d = 0x3C then swBridge n m v s
  else if d = 0x60 ∧ k ≥ 8 then (if bit m 1 then swLinkEn (swOf n) (fun e => setEn e 1 (bit v 1)) s else s)
  else if d = 0x68 ∧ k < 6 then put { w with pdc := w.pdc && !wOne m v 19, dllsc := w.dllsc && !wOne m v 24 }
  else if d = 0x154 ∧ k < 8 then put { w with acs := BitVec.ofNat 7 (bits (wBits m v (BitVec.ofNat 32 (w.acs.toNat * 65536))) 22 16) &&& 0x5F }
  else if d = 0x164 ∧ k < 6 then
    let e := bits v 17 16
    if bit m 16 ∧ e ≠ 3 then put { w with dpcEn := BitVec.ofNat 2 e } else s
  else if d = 0x168 ∧ k < 6 then
    if wOne m v 0 && w.dpcTrig then trainPort (put { w with dpcTrig := false }) k else s
  else if d = 0x188 ∧ k ≥ 8 then
    if bit m 0 then swLinkEn (swOf n) (fun e => setEn (setEn e 2 (bit v 3)) 3 (bit v 2)) s else s
  else if d = 0x198 ∧ k ≥ 8 then (if bit m 0 then swLinkEn (swOf n) (fun e => setEn e 0 (bit v 3)) s else s)
  else if 0x104 ≤ d ∧ d ≤ 0x114 then put (swAer w d m v)
  else cfgPlain s (256 + k) d m v (swPlain (decide (k ≥ 8)) d)

/-! ## REGISTER_WRITE (R7-R13, R298) -/

/-- The dword, mask and bits of a configuration write; none for one that no configuration request makes. -/
def cfgSpan (off : Nat) (w : AccW) (v : Word) : Option (Nat × BitVec 32 × BitVec 32) :=
  if w = .w64 ∨ off % accWidth w ≠ 0 ∨ off ≥ 4096 then none
  else
    let sh := 8 * (off % 4)
    some (off / 4 * 4, BitVec.ofNat 32 ((2 ^ (8 * accWidth w) - 1) <<< sh), BitVec.ofNat 32 ((v.toNat % 2 ^ (8 * accWidth w)) <<< sh))

/-- A write of half a register that arrives at BAR0, as `hostWr` has it for a whole one. -/
def hostHalf (fn : Fn) (off : Nat) (v : BitVec 32) (s : State) : Host.Outcome State Fault Refusal :=
  match gate s fn (some (off / 8 * 8)) with
  | .absent => .next s
  | .ur => .next (aerReq s fn 20)
  | .ignored => .next s
  | .held =>
    let s := { s with heldHost := s.heldHost ++ [.half fn off v] }
    let s := if off = 0xC10100 ∧ isPf fn ∧ bits v 7 0 ≠ 0 then dbgWake s 1 else s
    let s := if off = 0xF08008 ∧ isPf fn ∧ bits v 3 0 = 1 then dbgWake s 4 else s
    .next (startWake s 1 63)
  | .behind => .next (stopEntry { s with heldHost := s.heldHost ++ [.half fn off v] } 1 63)
  | .pass => .next (settle (halfWr regWrite fn off v (stopEntry s 1 63)))

/-- A 64-bit write that arrives at BAR0: a debug command, and a GO_BRIGHT in Dark, start a wake of their own (R545, R581). -/
def hostWhole (fn : Fn) (off : Nat) (v : Word) (s : State) : Host.Outcome State Fault Refusal :=
  if off = 0xC10100 ∧ isPf fn ∧ bits v 7 0 ≠ 0 then dbgPf fn [(off, v)] s
  else if off = 0xF08008 ∧ isPf fn ∧ bits v 3 0 = 1 then pwrCommand fn 1 s
  else hostWr fn off v (regWrite fn off v) s

/-- An access that is no aligned one of 32 or 64 bits is ignored and recorded (R8); it is a host write all the same. -/
def hostBad (fn : Fn) (off : Nat) (s : State) : Host.Outcome State Fault Refusal :=
  match gate s fn (some (off / 8 * 8)) with
  | .absent => .next s
  | .ur => .next (aerReq s fn 20)
  | .ignored => .next s
  | .held => .next (startWake (accessErr s fn off) 1 63)
  | .behind => .next (settle (accessErr (stopEntry s 1 63) fn off))
  | .pass => .next (settle (accessErr (stopEntry s 1 63) fn off))

/-- The size of BAR0 (R294, R295). -/
def barSize (fn : Fn) : Nat := if isPf fn then 0x10000000 else 0x1000000

/-- A configuration write of a function. -/
def hostCfgWr (fn : Fn) (bus : BitVec 8) (off : Nat) (w : AccW) (v : Word) (s : State) : Host.Outcome State Fault Refusal :=
  match cfgSpan off w v with
  | none => .next s
  | some (d, m, x) => hostCfg fn (fun s => cfgWr fn d m x (captureBus fn bus s)) s

/-- A configuration write of a switch function. -/
def hostSwWr (n : Fin 10) (off : Nat) (w : AccW) (v : Word) (s : State) : Host.Outcome State Fault Refusal :=
  match cfgSpan off w v with
  | none => .next s
  | some (d, m, x) => if swUp s n then .next (settle (swWr n d m x s)) else .next s

/-- A write of BAR0. -/
def hostBar0 (fn : Fn) (off : Nat) (w : AccW) (v : Word) (s : State) : Host.Outcome State Fault Refusal :=
  if off ≥ barSize fn then .next s
  else match w with
    | .w64 => if off % 8 = 0 then hostWhole fn off v s else hostBad fn off s
    | .w32 => if off % 4 = 0 then hostHalf fn off (v.setWidth 32) s else hostBad fn off s
    | .w16 => hostBad fn off s
    | .w8 => hostBad fn off s

/-- REGISTER_WRITE. -/
def execRegisterWrite (fn : Fn) (space : RegSpace) (off : BitVec 28) (w : AccW) (v : Word) (s : State) :
    Host.Outcome State Fault Refusal :=
  match space with
  | .bar0 => hostBar0 fn off.toNat w v s
  | .config bus => hostCfgWr fn bus off.toNat w v s
  | .switch n => hostSwWr n off.toNat w v s

end Sys2Proof.Machine
end

