-- ==== Sys2Proof/Machine/Control.lean ====
section
/-! DEFINITION. Control instructions (R90, R95, R97-R101, R118, R119). -/

namespace Sys2Proof.Machine

/-- Issue of a control instruction. -/
def control (t : Tid) (wf : Bool) (word : Word) (body : State → Thread → Eff) (s : State) :
    Host.Outcome State Fault Refusal :=
  issue t { major := 1 } wf 0 word body s

/-- Target of a branch: its address plus 8 imm (R118). -/
def branchTo (th : Thread) (imm : Imm) : Word := th.pc + 8 * immS imm

/-- A transfer: MISALIGN when bits [2:0] of the target are not zero (R119). -/
def jump (s : State) (th : Thread) (a : Word) (call : Bool) (ws : List Wr) : Eff :=
  if bits a 2 0 ≠ 0 then .trap 3 a else .ok s th ws (.to a call) none

/-- A push of R100: the trap it raises, or the thread after. -/
def push (th : Thread) (addr : Word) : Except Nat (Thread × List Wr) :=
  if th.rsBusy then .error 0x0B
  else if th.rspDepth = 8 ∧ th.rso then .error 0x09
  else
    let top := (th.rspTop + 1) % 8
    let depth := if th.rspDepth = 8 then 8 else th.rspDepth + 1
    .ok ({ th with rs := th.rs.set (BitVec.ofNat 3 top).toFin addr, rsp := at_ top 8 ||| BitVec.ofNat 64 depth },
      if th.rspDepth = 8 then [wrFlags 1 fRSW] else [])

/-- The address a pop of R100 gives, the thread after, or the trap it raises. -/
def pop (th : Thread) : Except Nat (Word × Thread × List Wr) :=
  if th.rsBusy then .error 0x0B
  else if th.rspDepth = 0 ∧ th.rso then .error 0x0A
  else
    let addr := th.rs[(BitVec.ofNat 3 th.rspTop).toFin]
    let top := (th.rspTop + 7) % 8
    let depth := th.rspDepth - 1
    .ok (addr, { th with rsp := at_ top 8 ||| BitVec.ofNat 64 depth }, if th.rspDepth = 0 then [wrFlags 1 fRSU] else [])

/-- A call: MISALIGN first, then the push (R105). -/
def callTo (s : State) (th : Thread) (a : Word) : Eff :=
  if bits a 2 0 ≠ 0 then .trap 3 a
  else match push th (th.pc + 8) with
    | .error c => .trap c 0
    | .ok (th', ws) => .ok s th' ws (.to a true) none

def execB (t : Tid) (imm : Imm) (s : State) : Host.Outcome State Fault Refusal :=
  control t true (encI 0x08 0x00 0 0 imm) (fun s th => jump s th (branchTo th imm) false []) s

def execCall (t : Tid) (imm : Imm) (s : State) : Host.Outcome State Fault Refusal :=
  control t true (encI 0x08 0x01 0 0 imm) (fun s th => callTo s th (branchTo th imm)) s

/-- The comparison of a conditional branch (R118). -/
def condHolds (c : Cond) (a b : Word) : Bool :=
  match c with
  | .eq => a == b
  | .ne => a != b
  | .lt => decide (a.toInt < b.toInt)
  | .ge => decide (a.toInt ≥ b.toInt)
  | .ltu => decide (a.toNat < b.toNat)
  | .geu => decide (a.toNat ≥ b.toNat)

def execBcc (t : Tid) (c : Cond) (a d : Reg) (imm : Imm) (s : State) : Host.Outcome State Fault Refusal :=
  control t true (encI 0x09 c.fn d a imm) (fun s th =>
    if condHolds c (rdG s th a) (rdG s th d) then jump s th (branchTo th imm) false [] else justWr s th []) s

def execBr (t : Tid) (a : Reg) (s : State) : Host.Outcome State Fault Refusal :=
  control t true (encT 0x0A 0x00 0 a 0) (fun s th => jump s th (rdG s th a) false []) s

def execCallr (t : Tid) (a : Reg) (s : State) : Host.Outcome State Fault Refusal :=
  control t true (encT 0x0A 0x01 0 a 0) (fun s th => callTo s th (rdG s th a)) s

/-- `ret`: the check of R119 is made on the address in the entry the pop takes, before RS_UNDERFLOW (R105), with DEPTH 0 on the stale
entry at TOP (DEDUCED, Assumption 49). While the stack is busy its entries are unspecified and R101 names RS_BUSY. -/
def execRet (t : Tid) (s : State) : Host.Outcome State Fault Refusal :=
  control t true (encT 0x0A 0x02 0 0 0) (fun s th =>
    if th.rsBusy then .trap 0x0B 0
    else
      let addr := th.rs[(BitVec.ofNat 3 th.rspTop).toFin]
      if bits addr 2 0 ≠ 0 then .trap 3 addr
      else match pop th with
        | .error c => .trap c 0
        | .ok (_, th', ws) => .ok s th' ws (.to addr false) none) s

def execWait (t : Tid) (a b : BitVec 6) (s : State) : Host.Outcome State Fault Refusal :=
  control t true (encI 0x0B 0x00 0 0 (a.setWidth 32 ||| (b.setWidth 32 <<< 8))) (fun _ _ => .waits a b) s

def execBrep (t : Tid) (a : Reg) (len : Imm) (s : State) : Host.Outcome State Fault Refusal :=
  control t (okBrep len) (encI 0x0B 0x01 0 a len) (fun s th =>
    let n := rdG s th a
    if th.brcCount ≠ 0 then .trap 0x0C th.brs
    else if n = 0 then .ok s th [] (.to (th.pc + 8 + 8 * immS len) true) none
    else .ok s th [wrS 1 3 (th.pc + 8), wrS 1 2 (at_ (bits len 15 0) 32 ||| (n &&& 0xFFFFFFFF))] .on none) s

def execTend (t : Tid) (s : State) : Host.Outcome State Fault Refusal :=
  control t true (encI 0x0B 0x02 0 0 0) (fun _ _ => .ends) s

end Sys2Proof.Machine
end

