-- ==== Sys2Proof/Machine/Scalar.lean ====
section
/-! DEFINITION. Scalar integer instructions (R117, R136, R151). -/

namespace Sys2Proof.Machine

/-- Issue of a scalar instruction of the thread profile. -/
def scalar (t : Tid) (word : Word) (body : State → Thread → Eff) (s : State) : Host.Outcome State Fault Refusal :=
  issue t { major := 0 } true 0 word body s

/-- A result that may set V: with `TCTL.VT` 1 it traps with OVERFLOW instead (R151). -/
def withV (s : State) (th : Thread) (lat : Nat) (d : Reg) (v : Word) (ovf : Bool) : Eff :=
  if ovf && th.vt then .trap 7 0 else justWr s th [wrG lat d v (flagIf ovf fV)]

/-- The shift amount: bits [7:0] of the operand (R117). -/
def amt (w : Word) : Nat := w.toNat % 256

/-- Logical left shift; 64 or more gives 0 (R151). -/
def shl64 (a : Word) (n : Nat) : Word := a <<< n
/-- Logical right shift; 64 or more gives 0. -/
def shr64 (a : Word) (n : Nat) : Word := a >>> n
/-- Arithmetic right shift; 64 or more gives copies of the sign (R151). -/
def sra64 (a : Word) (n : Nat) : Word := a.sshiftRight n

/-- Signed integer value of a word. -/
def sv (a : Word) : Int := a.toInt
/-- The low 64 bits of an integer. -/
def lowWord (x : Int) : Word := BitVec.ofInt 64 x
/-- The integer fits a signed word. -/
def fits64 (x : Int) : Bool := decide (-(2 ^ 63 : Int) ≤ x) && decide (x < (2 ^ 63 : Int))

def execAdd (t : Tid) (d a : Reg) (b : Src) (s : State) : Host.Outcome State Fault Refusal :=
  scalar t (encAlu 0x00 d a b) (fun s th => justWr s th [wrG 1 d (rdG s th a + rdSrc s th b)]) s

def execSub (t : Tid) (d a : Reg) (b : Src) (s : State) : Host.Outcome State Fault Refusal :=
  scalar t (encAlu 0x01 d a b) (fun s th => justWr s th [wrG 1 d (rdG s th a - rdSrc s th b)]) s

def execAddv (t : Tid) (d a : Reg) (b : Src) (s : State) : Host.Outcome State Fault Refusal :=
  scalar t (encAlu 0x02 d a b) (fun s th =>
    let x := sv (rdG s th a) + sv (rdSrc s th b)
    withV s th 1 d (lowWord x) (!fits64 x)) s

def execSubv (t : Tid) (d a : Reg) (b : Src) (s : State) : Host.Outcome State Fault Refusal :=
  scalar t (encAlu 0x03 d a b) (fun s th =>
    let x := sv (rdG s th a) - sv (rdSrc s th b)
    withV s th 1 d (lowWord x) (!fits64 x)) s

def execAnd (t : Tid) (d a : Reg) (b : Src) (s : State) : Host.Outcome State Fault Refusal :=
  scalar t (encAlu 0x04 d a b) (fun s th => justWr s th [wrG 1 d (rdG s th a &&& rdSrc s th b)]) s

def execOr (t : Tid) (d a : Reg) (b : Src) (s : State) : Host.Outcome State Fault Refusal :=
  scalar t (encAlu 0x05 d a b) (fun s th => justWr s th [wrG 1 d (rdG s th a ||| rdSrc s th b)]) s

def execXor (t : Tid) (d a : Reg) (b : Src) (s : State) : Host.Outcome State Fault Refusal :=
  scalar t (encAlu 0x06 d a b) (fun s th => justWr s th [wrG 1 d (rdG s th a ^^^ rdSrc s th b)]) s

def execAndn (t : Tid) (d a : Reg) (b : Src) (s : State) : Host.Outcome State Fault Refusal :=
  scalar t (encAlu 0x07 d a b) (fun s th => justWr s th [wrG 1 d (rdG s th a &&& ~~~(rdSrc s th b))]) s

/-- A truth value as a register value. -/
def boolWord (c : Bool) : Word := if c then 1 else 0

def execSlt (t : Tid) (d a : Reg) (b : Src) (s : State) : Host.Outcome State Fault Refusal :=
  scalar t (encAlu 0x08 d a b) (fun s th => justWr s th [wrG 1 d (boolWord (decide (sv (rdG s th a) < sv (rdSrc s th b))))]) s

def execSltu (t : Tid) (d a : Reg) (b : Src) (s : State) : Host.Outcome State Fault Refusal :=
  scalar t (encAlu 0x09 d a b) (fun s th =>
    justWr s th [wrG 1 d (boolWord (decide ((rdG s th a).toNat < (rdSrc s th b).toNat)))]) s

def execSeq (t : Tid) (d a : Reg) (b : Src) (s : State) : Host.Outcome State Fault Refusal :=
  scalar t (encAlu 0x0A d a b) (fun s th => justWr s th [wrG 1 d (boolWord (rdG s th a == rdSrc s th b))]) s

def execMin (t : Tid) (d a : Reg) (b : Src) (s : State) : Host.Outcome State Fault Refusal :=
  scalar t (encAlu 0x0B d a b) (fun s th =>
    let x := rdG s th a; let y := rdSrc s th b
    justWr s th [wrG 1 d (if sv x ≤ sv y then x else y)]) s

def execMinu (t : Tid) (d a : Reg) (b : Src) (s : State) : Host.Outcome State Fault Refusal :=
  scalar t (encAlu 0x0C d a b) (fun s th =>
    let x := rdG s th a; let y := rdSrc s th b
    justWr s th [wrG 1 d (if x.toNat ≤ y.toNat then x else y)]) s

def execMax (t : Tid) (d a : Reg) (b : Src) (s : State) : Host.Outcome State Fault Refusal :=
  scalar t (encAlu 0x0D d a b) (fun s th =>
    let x := rdG s th a; let y := rdSrc s th b
    justWr s th [wrG 1 d (if sv x ≥ sv y then x else y)]) s

def execMaxu (t : Tid) (d a : Reg) (b : Src) (s : State) : Host.Outcome State Fault Refusal :=
  scalar t (encAlu 0x0E d a b) (fun s th =>
    let x := rdG s th a; let y := rdSrc s th b
    justWr s th [wrG 1 d (if x.toNat ≥ y.toNat then x else y)]) s

def execShl (t : Tid) (d a : Reg) (b : Src) (s : State) : Host.Outcome State Fault Refusal :=
  scalar t (encAlu 0x10 d a b) (fun s th => justWr s th [wrG 1 d (shl64 (rdG s th a) (amt (rdSrc s th b)))]) s

def execShr (t : Tid) (d a : Reg) (b : Src) (s : State) : Host.Outcome State Fault Refusal :=
  scalar t (encAlu 0x11 d a b) (fun s th => justWr s th [wrG 1 d (shr64 (rdG s th a) (amt (rdSrc s th b)))]) s

def execSra (t : Tid) (d a : Reg) (b : Src) (s : State) : Host.Outcome State Fault Refusal :=
  scalar t (encAlu 0x12 d a b) (fun s th => justWr s th [wrG 1 d (sra64 (rdG s th a) (amt (rdSrc s th b)))]) s

def execRol (t : Tid) (d a : Reg) (b : Src) (s : State) : Host.Outcome State Fault Refusal :=
  scalar t (encAlu 0x13 d a b) (fun s th => justWr s th [wrG 1 d ((rdG s th a).rotateLeft (amt (rdSrc s th b) % 64))]) s

def execRor (t : Tid) (d a : Reg) (b : Src) (s : State) : Host.Outcome State Fault Refusal :=
  scalar t (encAlu 0x14 d a b) (fun s th => justWr s th [wrG 1 d ((rdG s th a).rotateRight (amt (rdSrc s th b) % 64))]) s

def execMov (t : Tid) (d : Reg) (src : Src) (s : State) : Host.Outcome State Fault Refusal :=
  scalar t (match src with | .reg a => encT 0x00 0x18 d a 0 | .imm v => encI 0x01 0x18 d 0 v)
    (fun s th => justWr s th [wrG 1 d (rdSrc s th src)]) s

/-- −2^63. -/
def minWord : Word := 0x8000000000000000

def execNeg (t : Tid) (d a : Reg) (s : State) : Host.Outcome State Fault Refusal :=
  scalar t (encT 0x00 0x19 d a 0) (fun s th => withV s th 1 d (0 - rdG s th a) (rdG s th a == minWord)) s

def execNegs (t : Tid) (d a : Reg) (s : State) : Host.Outcome State Fault Refusal :=
  scalar t (encT 0x00 0x1A d a 0) (fun s th =>
    withV s th 1 d (if rdG s th a = minWord then 0x7FFFFFFFFFFFFFFF else 0 - rdG s th a) (rdG s th a == minWord)) s

def execSext (t : Tid) (fw : SextW) (d a : Reg) (s : State) : Host.Outcome State Fault Refusal :=
  scalar t (encT 0x00 fw.fn d a 0) (fun s th =>
    justWr s th [wrG 1 d (sextN (match fw with | .b => 8 | .h => 16 | .w => 32) (rdG s th a).toNat)]) s

def execZextW (t : Tid) (d a : Reg) (s : State) : Host.Outcome State Fault Refusal :=
  scalar t (encT 0x00 0x1E d a 0) (fun s th => justWr s th [wrG 1 d (rdG s th a &&& 0xFFFFFFFF)]) s

def execMovhi (t : Tid) (d a : Reg) (imm : Imm) (s : State) : Host.Outcome State Fault Refusal :=
  scalar t (encI 0x01 0x1F d a imm) (fun s th =>
    justWr s th [wrG 1 d ((rdG s th a &&& 0xFFFFFFFF) ||| (imm.setWidth 64 <<< 32))]) s

def execMul (t : Tid) (d a b : Reg) (s : State) : Host.Outcome State Fault Refusal :=
  scalar t (encT 0x02 0x00 d a b) (fun s th => justWr s th [wrG 3 d (rdG s th a * rdG s th b)]) s

def execMulv (t : Tid) (d a b : Reg) (s : State) : Host.Outcome State Fault Refusal :=
  scalar t (encT 0x02 0x01 d a b) (fun s th =>
    let x := sv (rdG s th a) * sv (rdG s th b)
    withV s th 3 d (lowWord x) (!fits64 x)) s

def execMulh (t : Tid) (d a b : Reg) (s : State) : Host.Outcome State Fault Refusal :=
  scalar t (encT 0x02 0x02 d a b) (fun s th =>
    justWr s th [wrG 3 d (lowWord (sv (rdG s th a) * sv (rdG s th b) / 2 ^ 64))]) s

def execMulhu (t : Tid) (d a b : Reg) (s : State) : Host.Outcome State Fault Refusal :=
  scalar t (encT 0x02 0x03 d a b) (fun s th =>
    justWr s th [wrG 3 d (BitVec.ofNat 64 ((rdG s th a).toNat * (rdG s th b).toNat / 2 ^ 64))]) s

/-- A division or remainder by zero: DIVZERO with `TCTL.DZT` 1, else the result of R151 and DZ. -/
def byZero (s : State) (th : Thread) (d : Reg) (dividend v : Word) : Eff :=
  if th.dzt then .trap 6 dividend else justWr s th [wrG 12 d v fDZ]

def execDiv (t : Tid) (d a b : Reg) (s : State) : Host.Outcome State Fault Refusal :=
  scalar t (encT 0x02 0x08 d a b) (fun s th =>
    let x := rdG s th a; let y := rdG s th b
    if y = 0 then byZero s th d x (BitVec.allOnes 64)
    else withV s th 12 d (lowWord ((sv x).tdiv (sv y))) (x == minWord && y == BitVec.allOnes 64)) s

def execDivu (t : Tid) (d a b : Reg) (s : State) : Host.Outcome State Fault Refusal :=
  scalar t (encT 0x02 0x09 d a b) (fun s th =>
    let x := rdG s th a; let y := rdG s th b
    if y = 0 then byZero s th d x (BitVec.allOnes 64) else justWr s th [wrG 12 d (x / y)]) s

def execRem (t : Tid) (d a b : Reg) (s : State) : Host.Outcome State Fault Refusal :=
  scalar t (encT 0x02 0x0A d a b) (fun s th =>
    let x := rdG s th a; let y := rdG s th b
    if y = 0 then byZero s th d x x else justWr s th [wrG 12 d (lowWord ((sv x).tmod (sv y)))]) s

def execRemu (t : Tid) (d a b : Reg) (s : State) : Host.Outcome State Fault Refusal :=
  scalar t (encT 0x02 0x0B d a b) (fun s th =>
    let x := rdG s th a; let y := rdG s th b
    if y = 0 then byZero s th d x x else justWr s th [wrG 12 d (x % y)]) s

/-- Number of 1 bits among the low `n` bits. -/
def popCount (n v : Nat) : Nat := ((List.range n).filter (fun i => v.testBit i)).length

/-- Leading zero bits of a word, 0 to 64. -/
def clz64 (a : Word) : Nat := 64 - bitLen a.toNat

/-- Trailing zero bits of a word, 0 to 64. -/
def ctz64 (a : Word) : Nat := ((List.range 64).find? (fun i => a.toNat.testBit i)).getD 64

def execPopc (t : Tid) (d a : Reg) (s : State) : Host.Outcome State Fault Refusal :=
  scalar t (encT 0x03 0x00 d a 0) (fun s th => justWr s th [wrG 2 d (BitVec.ofNat 64 (popCount 64 (rdG s th a).toNat))]) s

def execClz (t : Tid) (d a : Reg) (s : State) : Host.Outcome State Fault Refusal :=
  scalar t (encT 0x03 0x01 d a 0) (fun s th => justWr s th [wrG 2 d (BitVec.ofNat 64 (clz64 (rdG s th a)))]) s

def execCtz (t : Tid) (d a : Reg) (s : State) : Host.Outcome State Fault Refusal :=
  scalar t (encT 0x03 0x02 d a 0) (fun s th => justWr s th [wrG 2 d (BitVec.ofNat 64 (ctz64 (rdG s th a)))]) s

/-- One round of the keyed generator (R136). -/
def rngRound (key x : Word) (r : Nat) (kr km : Word) : Word :=
  let x := x ^^^ key.rotateLeft (16 * r) ^^^ kr
  let x := x * km
  x ^^^ (x >>> 32)

/-- The keyed random value of a key and a counter (R136). -/
def rngk (key ctr : Word) : Word :=
  let x := rngRound key ctr 0 0x5E17A2C90B84D36F 0xC2A61F8D4B73E5A9
  let x := rngRound key x 1 0x71D94E06C3B82A95 0x8E31D6B592F40C57
  let x := rngRound key x 2 0x2B6CF84D17E3905A 0xB57DE9026A1C3F8B
  rngRound key x 3 0x46A30D9EB571C28E 0xA3F05C29E86B741D

def execRngk (t : Tid) (d a b : Reg) (s : State) : Host.Outcome State Fault Refusal :=
  scalar t (encT 0x03 0x08 d a b) (fun s th => justWr s th [wrG 4 d (rngk (rdG s th a) (rdG s th b))]) s

end Sys2Proof.Machine
end

