-- ==== Sys2Proof/Machine/StringInstr.lean ====
section
/-! DEFINITION. String instructions (R99, R129-R135): one step an issue, in the Facet store. -/

namespace Sys2Proof.Machine

/-- Issue of a string step: counted by FN, and as a Facet store access (R587). -/
def stringStep (t : Tid) (fn : Nat) (wf : Bool) (word : Word) (body : State → Thread → Eff) (s : State) :
    Host.Outcome State Fault Refusal :=
  issue t { major := 3 } wf 0 word (fun s th =>
    body (countStore (countEv s t.facet th.vi (0x68 + fn) 1) t.facet th.vi) th) s

/-- First byte of a range that lies outside the allocation (R130); an empty range accesses nothing. -/
def outByte (s : State) (th : Thread) (a : Word) (n : Nat) : Option Word :=
  if n = 0 ∨ fsIn s th a n then none
  else if a.toNat < fsSize s th then some (BitVec.ofNat 64 (fsSize s th)) else some a

/-- First range of a list with a byte outside. -/
def outRange (s : State) (th : Thread) (l : List (Word × Nat)) : Option Word :=
  l.foldl (fun r p => r.orElse (fun _ => outByte s th p.1 p.2)) none

/-- A step's effect: EXIT at its end condition sets `BRC.COUNT` to 1 while a block is active (R133). -/
def stepDone (s : State) (th : Thread) (exit ended : Bool) (ws : List Wr) : Eff :=
  let th := if exit && ended && decide (th.brcCount ≠ 0) then { th with brc := (th.brc &&& 0xFFFFFFFF00000000) ||| 1 } else th
  .ok s th ws .on none

/-- Items of a step: the chunk, or what is left (R129). -/
def items (chunk : Nat) (n : Word) : Nat := Nat.min chunk n.toNat

def execMovs (t : Tid) (desc exit : Bool) (d sr n : Reg) (s : State) : Host.Outcome State Fault Refusal :=
  stringStep t 0 (okDistinct [d, sr, n]) (encS 0x00 d sr n 0 0 exit (b2n desc)) (fun s th =>
    let gd := rdG s th d
    let gs := rdG s th sr
    let gn := rdG s th n
    let k := items 16 gn
    let kw := BitVec.ofNat 64 k
    let from_ := if desc then gs - kw else gs
    let to_ := if desc then gd - kw else gd
    match outRange s th [(from_, k), (to_, k)] with
    | some a => .trap 4 a
    | none =>
      let s := if k = 0 then s else fsPut s t th to_.toNat (fsBytes s t th from_.toNat k)
      stepDone s th exit (gn.toNat == k)
        [wrG 1 d (if desc then gd - kw else gd + kw), wrG 1 sr (if desc then gs - kw else gs + kw), wrG 1 n (gn - kw)]) s

def execFills (t : Tid) (exit : Bool) (d n v : Reg) (s : State) : Host.Outcome State Fault Refusal :=
  stringStep t 1 (okDistinct [d, n]) (encS 0x01 d 0 n v 0 exit 0) (fun s th =>
    let gd := rdG s th d
    let gn := rdG s th n
    let gv := rdG s th v
    let k := items 16 gn
    match outRange s th [(gd, k)] with
    | some a => .trap 4 a
    | none =>
      let d' := (List.range k).map (fun j => BitVec.ofNat 8 (gv.toNat >>> (8 * ((gd.toNat + j) % 8))))
      let s := if k = 0 then s else fsPut s t th gd.toNat d'
      stepDone s th exit (gn.toNat == k) [wrG 1 d (gd + BitVec.ofNat 64 k), wrG 1 n (gn - BitVec.ofNat 64 k)]) s

/-- Least j below k for which a test holds, else k. -/
def leastJ (k : Nat) (p : Nat → Bool) : Nat := ((List.range k).find? p).getD k

def execCmps (t : Tid) (exit : Bool) (r a b n : Reg) (s : State) : Host.Outcome State Fault Refusal :=
  stringStep t 2 (okDistinct [r, a, b, n]) (encS 0x02 r a b n 0 exit 0) (fun s th =>
    let ga := rdG s th a
    let gb := rdG s th b
    let gn := rdG s th n
    let k := items 16 gn
    match outRange s th [(ga, k), (gb, k)] with
    | some x => .trap 4 x
    | none =>
      let x (j : Nat) := (fsByte s t th (ga.toNat + j)).toNat
      let y (j : Nat) := (fsByte s t th (gb.toNat + j)).toNat
      let j := leastJ k (fun j => x j != y j)
      let jw := BitVec.ofNat 64 j
      let res : Word := if j < k then BitVec.ofInt 64 ((x j : Int) - (y j : Int)) else 0
      stepDone s th exit (gn.toNat == j || decide (j < k))
        [wrG 3 r res, wrG 1 a (ga + jw), wrG 1 b (gb + jw), wrG 1 n (gn - jw)]) s

/-- The byte hits (R134). -/
def scanHit (s : State) (t : Tid) (th : Thread) (v : ScanVar) (gc : Word) (x : Nat) : Bool :=
  let cls := (fsByte s t th (gc.toNat + x / 8)).toNat.testBit (x % 8)
  match v with
  | .eq => x == gc.toNat % 256
  | .ne => x != gc.toNat % 256
  | .isIn => cls
  | .out => !cls

def execScans (t : Tid) (var : ScanVar) (exit : Bool) (r p n c : Reg) (s : State) : Host.Outcome State Fault Refusal :=
  stringStep t 3 (okDistinct [r, p, n]) (encS 0x03 r p n c 0 exit var.code) (fun s th =>
    let gp := rdG s th p
    let gn := rdG s th n
    let gc := rdG s th c
    let k := items 16 gn
    let table := if var.code ≥ 2 ∧ k > 0 then 32 else 0
    match outRange s th [(gp, k), (gc, table)] with
    | some x => .trap 4 x
    | none =>
      let j := leastJ k (fun j => scanHit s t th var gc (fsByte s t th (gp.toNat + j)).toNat)
      let jw := BitVec.ofNat 64 j
      stepDone s th exit (gn.toNat == j || decide (j < k))
        [wrG 3 r (if j < k then gp + jw else BitVec.allOnes 64), wrG 1 p (gp + jw), wrG 1 n (gn - jw)]) s

def execXlats (t : Tid) (del exit : Bool) (d sr n tb e : Reg) (s : State) : Host.Outcome State Fault Refusal :=
  stringStep t 4 (okDistinct [d, sr, n, e]) (encS 0x04 d sr n tb e exit (b2n del)) (fun s th =>
    let gd := rdG s th d
    let gs := rdG s th sr
    let gn := rdG s th n
    let gt := rdG s th tb
    let k := items 16 gn
    match outRange s th [(gs, k), (gt, if k > 0 then 256 else 0)] with
    | some x => .trap 4 x
    | none =>
      let ys := (fsBytes s t th gs.toNat k).map (fun x => fsByte s t th (gt.toNat + x.toNat))
      let out := if del then ys.filter (fun y => y != 0) else ys
      let w := out.length
      match outByte s th gd w with
      | some x => .trap 4 x
      | none =>
        let s' := if w = 0 then s else fsPut s t th gd.toNat out
        stepDone s' th exit (gn.toNat == k)
          [wrG 3 e (rdG s th e + BitVec.ofNat 64 (k - w)), wrG 1 sr (gs + BitVec.ofNat 64 k), wrG 1 d (gd + BitVec.ofNat 64 w),
            wrG 1 n (gn - BitVec.ofNat 64 k)]) s

/-- Hash of bytes in order: h := h M + byte (R134). -/
def hashBytes (m : Word) (h : Word) (l : List Byte) : Word := l.foldl (fun h x => h * m + x.setWidth 64) h

def execRhash (t : Tid) (exit : Bool) (h p n k : Reg) (w : BitVec 6) (s : State) : Host.Outcome State Fault Refusal :=
  stringStep t 5 (okDistinct [h, p, n] && okWin w) (encS 0x05 h p n k 0 exit 0 w) (fun s th =>
    let gh := rdG s th h
    let gp := rdG s th p
    let gn := rdG s th n
    let m := rdG s th k
    let c := items 8 gn
    let back := if w = 0 then 0 else w.toNat - 1
    match outRange s th [(gp - BitVec.ofNat 64 back, if c = 0 then 0 else c + back)] with
    | some x => .trap 4 x
    | none =>
      let res :=
        if w = 0 then hashBytes m gh (fsBytes s t th gp.toNat c)
        else (List.range c).foldl (fun g j =>
          let x := hashBytes m 0 (fsBytes s t th (gp.toNat + j - back) w.toNat)
          if g.toNat ≤ x.toNat then g else x) gh
      stepDone s th exit (gn.toNat == c) [wrG 3 h res, wrG 1 p (gp + BitVec.ofNat 64 c), wrG 1 n (gn - BitVec.ofNat 64 c)]) s

/-- No distance within the band. -/
def infDist : Nat := 100000

/-- One row of the banded distance (R135): `prev` is row i - 1, `y` the bytes of b, `x` byte i - 1 of a. -/
def distRow (k i : Nat) (x : Byte) (prev : List Nat) (y : List Byte) : List Nat :=
  let first := if i ≤ k then i else infDist
  (y.zipIdx).foldl (fun row p =>
    let j := p.2 + 1
    let c := if x = p.1 then 0 else 1
    let v := Nat.min (prev.getD (j - 1) infDist + c) (Nat.min (row.getD (j - 1) infDist + 1) (prev.getD j infDist + 1))
    row ++ [if (if i ≤ j then j - i else i - j) ≤ k then v else infDist]) [first]

/-- The banded edit distance of two byte strings (R135). -/
def bandDist (k : Nat) (x y : List Byte) : Nat :=
  let row0 := (List.range (y.length + 1)).map (fun j => if j ≤ k then j else infDist)
  let last := (x.zipIdx).foldl (fun prev p => distRow k (p.2 + 1) p.1 prev y) row0
  last.getD y.length infDist

def execDistsB (t : Tid) (exit : Bool) (d a b c : Reg) (s : State) : Host.Outcome State Fault Refusal :=
  stringStep t 6 (okDistinct [d]) (encS 0x06 d a b c 0 exit 0) (fun s th =>
    let gc := rdG s th c
    let la0 := bits gc 6 0
    let lb0 := bits gc 14 8
    let k := bits gc 19 16
    let la := Nat.min la0 64
    let lb := Nat.min lb0 64
    let long := decide (la0 > 64) || decide (lb0 > 64)
    let diff := if la ≤ lb then lb - la else la - lb
    if diff > k then
      if long && th.vt then .trap 7 0 else stepDone s th exit true [wrG 6 d (BitVec.allOnes 64) (flagIf long fV)]
    else
      let ga := rdG s th a
      let gb := rdG s th b
      match outRange s th [(ga, la), (gb, lb)] with
      | some x => .trap 4 x
      | none =>
        if long && th.vt then .trap 7 0
        else
          let r := bandDist k (fsBytes s t th ga.toNat la) (fsBytes s t th gb.toNat lb)
          stepDone s th exit true [wrG 6 d (BitVec.ofNat 64 r) (flagIf long fV)]) s

end Sys2Proof.Machine
end

