-- ==== Sys2Proof/Machine/SyncInstr.lean ====
section
/-! DEFINITION. Sync instructions at issue (R148, R149, R237): the operation joins the thread's loads and goes to its home, where
SYNC_OP_AT_HOME performs it. -/

namespace Sys2Proof.Machine

/-- A sync operation issues with its instruction word, handle and operand; `idx` is its counter (R587). -/
def syncIssue (t : Tid) (wf : Bool) (word : Word) (idx : Nat) (d : Reg) (handle operand : State → Thread → Word) (s : State) :
    Host.Outcome State Fault Refusal :=
  issue t { major := 6, ld := true, sync := true } wf 0 word (fun s th =>
    .ok (countEv s t.facet th.vi idx 1) (addLoad th (.sync word (handle s th) (operand s th)) (destG d)) [] .on none) s

/-- `ubar` by a handler thread, which belongs to no launch, completes at once with FAULT_ACCESS (R64). -/
def execUbar (t : Tid) (d : Reg) (scope : Imm) (s : State) : Host.Outcome State Fault Refusal :=
  let word := encI 0x38 0x00 d 0 scope
  issue t { major := 6, ld := true, sync := true } (okScope scope) 0 word (fun s th =>
    let s := countEv s t.facet th.vi 0x60 1
    let th' := addLoad th (.sync word (scope.setWidth 64) 0) (destG d)
    if th.handler then
      .ok (countEv s t.facet th.vi 0x64 1)
        (setOp th' {
          id := th.nextOp, act := .sync word (scope.setWidth 64) 0, dest := destG d, done := true,
          res := (syncWord 0 false 0x05).setWidth 1024 }) [] .on none
    else .ok s th' [] .on none) s

def execSbar (t : Tid) (d a : Reg) (s : State) : Host.Outcome State Fault Refusal :=
  syncIssue t true (encT 0x38 0x01 d a 0) 0x60 d (fun s th => rdG s th a) (fun _ _ => 0) s

def execSemp (t : Tid) (d a b : Reg) (s : State) : Host.Outcome State Fault Refusal :=
  syncIssue t true (encT 0x39 0x00 d a b) 0x61 d (fun s th => rdG s th a) (fun s th => rdG s th b) s

def execSemv (t : Tid) (d a b : Reg) (s : State) : Host.Outcome State Fault Refusal :=
  syncIssue t true (encT 0x39 0x01 d a b) 0x61 d (fun s th => rdG s th a) (fun s th => rdG s th b) s

def execSemt (t : Tid) (d a b : Reg) (s : State) : Host.Outcome State Fault Refusal :=
  syncIssue t true (encT 0x39 0x02 d a b) 0x61 d (fun s th => rdG s th a) (fun s th => rdG s th b) s

def execEcadd (t : Tid) (d a b : Reg) (s : State) : Host.Outcome State Fault Refusal :=
  syncIssue t true (encT 0x3A 0x00 d a b) 0x62 d (fun s th => rdG s th a) (fun s th => rdG s th b) s

def execEcwait (t : Tid) (d a b : Reg) (s : State) : Host.Outcome State Fault Refusal :=
  syncIssue t true (encT 0x3A 0x01 d a b) 0x62 d (fun s th => rdG s th a) (fun s th => rdG s th b) s

def execEcread (t : Tid) (d a : Reg) (s : State) : Host.Outcome State Fault Refusal :=
  syncIssue t true (encT 0x3A 0x02 d a 0) 0x62 d (fun s th => rdG s th a) (fun _ _ => 0) s

def execLkacq (t : Tid) (d a : Reg) (s : State) : Host.Outcome State Fault Refusal :=
  syncIssue t true (encT 0x3B 0x00 d a 0) 0x63 d (fun s th => rdG s th a) (fun _ _ => 0) s

def execLkrel (t : Tid) (d a : Reg) (s : State) : Host.Outcome State Fault Refusal :=
  syncIssue t true (encT 0x3B 0x01 d a 0) 0x63 d (fun s th => rdG s th a) (fun _ _ => 0) s

def execLktry (t : Tid) (d a : Reg) (s : State) : Host.Outcome State Fault Refusal :=
  syncIssue t true (encT 0x3B 0x02 d a 0) 0x63 d (fun s th => rdG s th a) (fun _ _ => 0) s

end Sys2Proof.Machine
end

