-- ==== Sys2Proof/Machine/Timeouts.lean ====
section
/-! DEFINITION. Completion timeouts and late completions (R323-R325). -/

namespace Sys2Proof.Machine

/-! ## Completion timeouts (R323-R325) -/

/-- The timeout of a Completion Timeout Value in ns (R323). -/
def ctoNs (v : BitVec 4) : Nat :=
  match v.toNat with
  | 0 => 50000000 | 1 => 100000 | 2 => 10000000 | 5 => 55000000 | 6 => 210000000 | 9 => 900000000 | 10 => 3500000000
  | 13 => 13000000000 | 14 => 64000000000 | _ => 50000000

/-- A request times out: reported, and its tag retired for twice the timeout and at least 1 s (R324, R325). -/
def retireTag (s : State) (fn : Fn) (tag : BitVec 14) (hdr : List Byte) : State :=
  let until_ := s.devTime + BitVec.ofNat 64 (Nat.max (2 * ctoNs (getCfg s fn).ctoVal) 1000000000)
  let s := { s with lateTags := s.lateTags.filter (fun x => !(x.1 == fn && x.2.1 == tag.toNat)) ++ [(fn, tag.toNat, until_)] }
  aerUnc s fn 14 hdr

/-- The outstanding read of a thread's operation. -/
def threadRead (s : State) (t : Tid) (op : Nat) : Option Op :=
  (getThr s t).bind (fun th => th.loads.find? (fun o => o.id == op && !o.done && !o.perf && o.parts == 0 && o.sent && asksHost o.act
    && isLoadAct o.act))

/-- A thread's load from the host window ends with TIMEOUT: it takes ACCESS at its matching wait (R106, R324). -/
def timeoutLoad (s : State) (t : Tid) (op : Nat) : State :=
  match getThr s t with
  | none => s
  | some th =>
    match threadRead s t op with
    | none => s
    | some o =>
      let (s, r) := performAct s t th o 0x04 []
      opDone s t op r.res r.fault

/-- The function whose request it is. -/
def readFn (s : State) : ReadOf → Fn
  | .thread t _ => ((getThr s t).map (·.vi)).getD 0
  | .fetch vi _ => vi
  | .desc vi _ _ => vi
  | .brm vi _ => vi
  | .tx vi _ => vi

/-- A BRM descriptor that reads LOCAL before anything is sent: WRITE, ATOMIC, QP_CREATE and REGISTER. -/
def readsLocal (b : List Byte) : Bool := [1, 3, 0x10, 0x20].contains (ofBytes (b.take 1))

/-- Since when the read has been outstanding; none for one that is not. -/
def readSince (s : State) : ReadOf → Option Word
  | .thread t op => (threadRead s t op).map (·.sentAt)
  | .fetch vi q =>
    let x := getSq s vi q.toNat
    if fetchPossible s vi q.toNat && (busMaster s vi || x.flight) then some x.reqAt else none
  | .desc vi q seq => ((findDesc s vi q.toNat seq).filter (fun d => d.st == .reading)).map (·.since)
  | .brm vi q =>
    let x := getSq s vi q.toNat
    match x.got with
    | b :: _ =>
      if canTake s vi q.toNat && readsLocal b && bit (BitVec.ofNat 64 (ofBytes ((b.drop 8).take 8))) 50 && busMaster s vi
      then some x.reqAt else none
    | [] => none
  | .tx vi r => if bit (txBase s vi r.toNat) 50 && (txReady s vi r.toNat).isSome then some (tget s.tx (ringKey vi r.toNat) {}).reqAt else none

/-- The operation behind a timed-out read completes (R308, R324). A transmit slot that cannot be read is discarded as one that R393 refuses
(DESIGN CHOICE, Assumption 51). -/
def timeoutRead (s : State) (r : ReadOf) : State :=
  match r with
  | .thread t op => timeoutLoad s t op
  | .fetch vi q => stopSq (setSq s vi q.toNat { getSq s vi q.toNat with flight := false }) vi q.toNat 0x04 0x83
  | .desc vi q seq => match findDesc s vi q.toNat seq with
    | some d => finish s d 0x04 0 0 (dUser d)
    | none => s
  | .brm vi q => match takeHead s vi q.toNat 4 with
    | some (s, b, seq) => let (s, d) := newDesc s vi q.toNat 4 seq b; bFail s d (0x04, 0)
    | none => s
  | .tx vi r => match txTake s vi r.toNat with
    | some (s, _, a) => txDiscard s vi r.toNat a
    | none => s

/-- The tag was retired by a timeout and is not yet free again (R325). -/
def tagRetired (s : State) (fn : Fn) (tag : BitVec 14) : Bool :=
  s.lateTags.any (fun x => x.1 == fn && x.2.1 == tag.toNat && decide (s.devTime.toNat < x.2.2.toNat))

/-- COMPLETION_TIMEOUT (R323-R325): a read that has been outstanding for the timeout of its function ends. With Completion Timeout Disable
set, no request times out; no request carries a tag that is retired. -/
def execCompletionTimeout (r : ReadOf) (tag : BitVec 14) (hdr : List Byte) (s : State) : Host.Outcome State Fault Refusal :=
  let fn := readFn s r
  match readSince s r with
  | none => .next s
  | some t =>
    if (getCfg s fn).ctoDis || tagRetired s fn tag || decide ((s.devTime - t).toNat < ctoNs (getCfg s fn).ctoVal) then .next s
    else .next (settle (timeoutRead (retireTag s fn tag hdr) r))

/-- UNEXPECTED_COMPLETION (R325): logged for a timed-out tag; a tag that a Function Level Reset retired is silent (R327). -/
def execUnexpectedCompletion (fn : Fn) (tag : BitVec 14) (hdr : List Byte) (s : State) : Host.Outcome State Fault Refusal :=
  if tagRetired s fn tag then .next (aerUnc s fn 16 hdr) else .next s

end Sys2Proof.Machine
end

