-- ==== Sys2Proof/Machine/Dispatch.lean ====
section
/-! DEFINITION. One arm per command: its meaning. -/

namespace Sys2Proof.Machine

/-- The effect of a command on everything but the queue (chapter What each step holds). -/
def exec (i : Instr) (s : State) : Host.Outcome State Fault Refusal :=
  match i with
  | .add t d a b => Sys2Proof.Machine.execAdd t d a b s
  | .sub t d a b => Sys2Proof.Machine.execSub t d a b s
  | .addv t d a b => Sys2Proof.Machine.execAddv t d a b s
  | .subv t d a b => Sys2Proof.Machine.execSubv t d a b s
  | .and t d a b => Sys2Proof.Machine.execAnd t d a b s
  | .or t d a b => Sys2Proof.Machine.execOr t d a b s
  | .xor t d a b => Sys2Proof.Machine.execXor t d a b s
  | .andn t d a b => Sys2Proof.Machine.execAndn t d a b s
  | .slt t d a b => Sys2Proof.Machine.execSlt t d a b s
  | .sltu t d a b => Sys2Proof.Machine.execSltu t d a b s
  | .seq t d a b => Sys2Proof.Machine.execSeq t d a b s
  | .min t d a b => Sys2Proof.Machine.execMin t d a b s
  | .minu t d a b => Sys2Proof.Machine.execMinu t d a b s
  | .max t d a b => Sys2Proof.Machine.execMax t d a b s
  | .maxu t d a b => Sys2Proof.Machine.execMaxu t d a b s
  | .shl t d a b => Sys2Proof.Machine.execShl t d a b s
  | .shr t d a b => Sys2Proof.Machine.execShr t d a b s
  | .sra t d a b => Sys2Proof.Machine.execSra t d a b s
  | .rol t d a b => Sys2Proof.Machine.execRol t d a b s
  | .ror t d a b => Sys2Proof.Machine.execRor t d a b s
  | .mov t d src => Sys2Proof.Machine.execMov t d src s
  | .neg t d a => Sys2Proof.Machine.execNeg t d a s
  | .negs t d a => Sys2Proof.Machine.execNegs t d a s
  | .sext t fw d a => Sys2Proof.Machine.execSext t fw d a s
  | .zextW t d a => Sys2Proof.Machine.execZextW t d a s
  | .movhi t d a imm => Sys2Proof.Machine.execMovhi t d a imm s
  | .mul t d a b => Sys2Proof.Machine.execMul t d a b s
  | .mulv t d a b => Sys2Proof.Machine.execMulv t d a b s
  | .mulh t d a b => Sys2Proof.Machine.execMulh t d a b s
  | .mulhu t d a b => Sys2Proof.Machine.execMulhu t d a b s
  | .div t d a b => Sys2Proof.Machine.execDiv t d a b s
  | .divu t d a b => Sys2Proof.Machine.execDivu t d a b s
  | .rem t d a b => Sys2Proof.Machine.execRem t d a b s
  | .remu t d a b => Sys2Proof.Machine.execRemu t d a b s
  | .popc t d a => Sys2Proof.Machine.execPopc t d a s
  | .clz t d a => Sys2Proof.Machine.execClz t d a s
  | .ctz t d a => Sys2Proof.Machine.execCtz t d a s
  | .rngk t d a b => Sys2Proof.Machine.execRngk t d a b s
  | .b t imm => Sys2Proof.Machine.execB t imm s
  | .call t imm => Sys2Proof.Machine.execCall t imm s
  | .bcc t c a d imm => Sys2Proof.Machine.execBcc t c a d imm s
  | .br t a => Sys2Proof.Machine.execBr t a s
  | .callr t a => Sys2Proof.Machine.execCallr t a s
  | .ret t => Sys2Proof.Machine.execRet t s
  | .wait t a b => Sys2Proof.Machine.execWait t a b s
  | .brep t a len => Sys2Proof.Machine.execBrep t a len s
  | .tend t => Sys2Proof.Machine.execTend t s
  | .ld t fw d a imm => Sys2Proof.Machine.execLd t fw d a imm s
  | .st t fw d a imm => Sys2Proof.Machine.execSt t fw d a imm s
  | .vld t f => Sys2Proof.Machine.execVld t f s
  | .vst t f => Sys2Proof.Machine.execVst t f s
  | .vldx t f => Sys2Proof.Machine.execVldx t f s
  | .vstx t f => Sys2Proof.Machine.execVstx t f s
  | .lds t fw d a imm => Sys2Proof.Machine.execLds t fw d a imm s
  | .sts t fw d a imm => Sys2Proof.Machine.execSts t fw d a imm s
  | .vlds t f => Sys2Proof.Machine.execVlds t f s
  | .vsts t f => Sys2Proof.Machine.execVsts t f s
  | .amo t op dbl n d a b c => Sys2Proof.Machine.execAmo t op dbl n d a b c s
  | .rspush t a imm => Sys2Proof.Machine.execRspush t a imm s
  | .rspop t a imm => Sys2Proof.Machine.execRspop t a imm s
  | .movs t desc exit d sr n => Sys2Proof.Machine.execMovs t desc exit d sr n s
  | .fills t exit d n v => Sys2Proof.Machine.execFills t exit d n v s
  | .cmps t exit r a b n => Sys2Proof.Machine.execCmps t exit r a b n s
  | .scans t var exit r p n c => Sys2Proof.Machine.execScans t var exit r p n c s
  | .xlats t del exit d sr n tb e => Sys2Proof.Machine.execXlats t del exit d sr n tb e s
  | .rhash t exit h p n k w => Sys2Proof.Machine.execRhash t exit h p n k w s
  | .distsB t exit d a b c => Sys2Proof.Machine.execDistsB t exit d a b c s
  | .vaddI t sub f => Sys2Proof.Machine.execVaddI t sub f s
  | .vadds t sub f => Sys2Proof.Machine.execVadds t sub f s
  | .vminI t k f => Sys2Proof.Machine.execVminI t k f s
  | .vlogic t k f => Sys2Proof.Machine.execVlogic t k f s
  | .vshift t k f => Sys2Proof.Machine.execVshift t k f s
  | .vnegI t f => Sys2Proof.Machine.execVnegI t f s
  | .vcmp t k et md va vb km => Sys2Proof.Machine.execVcmp t k et md va vb km s
  | .vsel t et vd va vb km => Sys2Proof.Machine.execVsel t et vd va vb km s
  | .vmov t f => Sys2Proof.Machine.execVmov t f s
  | .vbcast t et vd g km => Sys2Proof.Machine.execVbcast t et vd g km s
  | .vperm t et vd va vb km => Sys2Proof.Machine.execVperm t et vd va vb km s
  | .vins t et vd g x km => Sys2Proof.Machine.execVins t et vd g x km s
  | .vext t et g va x => Sys2Proof.Machine.execVext t et g va x s
  | .vaddF t k f => Sys2Proof.Machine.execVaddF t k f s
  | .vfma t f vc => Sys2Proof.Machine.execVfma t f vc s
  | .vminF t max f => Sys2Proof.Machine.execVminF t max f s
  | .vnegF t abs f => Sys2Proof.Machine.execVnegF t abs f s
  | .vmac t f => Sys2Proof.Machine.execVmac t f s
  | .vmulI t f => Sys2Proof.Machine.execVmulI t f s
  | .vcvt t f => Sys2Proof.Machine.execVcvt t f s
  | .vcvtu t f => Sys2Proof.Machine.execVcvtu t f s
  | .vredAdd t et g va km => Sys2Proof.Machine.execVredAdd t et g va km s
  | .vredMinmax t k et g va km => Sys2Proof.Machine.execVredMinmax t k et g va km s
  | .maskLogic t k md a b => Sys2Proof.Machine.execMaskLogic t k md a b s
  | .mset t md x g => Sys2Proof.Machine.execMset t md x g s
  | .mpop t et g a => Sys2Proof.Machine.execMpop t et g a s
  | .eaadd t et ea va km => Sys2Proof.Machine.execEaadd t et ea va km s
  | .eamac t et ea va vb km => Sys2Proof.Machine.execEamac t et ea va vb km s
  | .eaclr t ea => Sys2Proof.Machine.execEaclr t ea s
  | .earound t et g ea => Sys2Proof.Machine.execEaround t et g ea s
  | .eainfo t g ea => Sys2Proof.Machine.execEainfo t g ea s
  | .eamerge t ea g => Sys2Proof.Machine.execEamerge t ea g s
  | .easave t g ea => Sys2Proof.Machine.execEasave t g ea s
  | .ubar t d scope => Sys2Proof.Machine.execUbar t d scope s
  | .sbar t d a => Sys2Proof.Machine.execSbar t d a s
  | .semp t d a b => Sys2Proof.Machine.execSemp t d a b s
  | .semv t d a b => Sys2Proof.Machine.execSemv t d a b s
  | .semt t d a b => Sys2Proof.Machine.execSemt t d a b s
  | .ecadd t d a b => Sys2Proof.Machine.execEcadd t d a b s
  | .ecwait t d a b => Sys2Proof.Machine.execEcwait t d a b s
  | .ecread t d a => Sys2Proof.Machine.execEcread t d a s
  | .lkacq t d a => Sys2Proof.Machine.execLkacq t d a s
  | .lkrel t d a => Sys2Proof.Machine.execLkrel t d a s
  | .lktry t d a => Sys2Proof.Machine.execLktry t d a s
  | .mfs t d sreg => Sys2Proof.Machine.execMfs t d sreg s
  | .mts t sreg a => Sys2Proof.Machine.execMts t sreg a s
  | .brk t imm => Sys2Proof.Machine.execBrk t imm s
  | .hcall t imm => Sys2Proof.Machine.execHcall t imm s
  | .nop t => Sys2Proof.Machine.execNop t s
  | .launch t d a => Sys2Proof.Machine.execLaunch t d a s
  | .tresume t a => Sys2Proof.Machine.execTresume t a s
  | .tendOther t a d => Sys2Proof.Machine.execTendOther t a d s
  | .evwait t d => Sys2Proof.Machine.execEvwait t d s
  | .sysrd t d a => Sys2Proof.Machine.execSysrd t d a s
  | .syswr t a d => Sys2Proof.Machine.execSyswr t a d s
  | .evpost t a d => Sys2Proof.Machine.execEvpost t a d s
  | .handlerModeTrap vi => Sys2Proof.Machine.execHandlerModeTrap vi s
  | .loadComplete t op status data => Sys2Proof.Machine.execLoadComplete t op status data s
  | .storeComplete t op status => Sys2Proof.Machine.execStoreComplete t op status s
  | .threadDrained e => Sys2Proof.Machine.execThreadDrained e s
  | .saveComplete t => Sys2Proof.Machine.execSaveComplete t s
  | .threadResume w => Sys2Proof.Machine.execThreadResume w s
  | .launchTake vi q => Sys2Proof.Machine.execLaunchTake vi q s
  | .launchAdmit num => Sys2Proof.Machine.execLaunchAdmit num s
  | .cmpCreate fn c => Sys2Proof.Machine.execCmpCreate fn c s
  | .cmpAdd fn c => Sys2Proof.Machine.execCmpAdd fn c s
  | .cmpRemove fn c => Sys2Proof.Machine.execCmpRemove fn c s
  | .cmpDestroy fn c => Sys2Proof.Machine.execCmpDestroy fn c s
  | .cmpRead fn c => Sys2Proof.Machine.execCmpRead fn c s
  | .cmpReset fn c => Sys2Proof.Machine.execCmpReset fn c s
  | .cmpExport fn c => Sys2Proof.Machine.execCmpExport fn c s
  | .compositeConfirm m => Sys2Proof.Machine.execCompositeConfirm m s
  | .unitResetComplete => Sys2Proof.Machine.execUnitResetComplete s
  | .reshapingComplete what => Sys2Proof.Machine.execReshapingComplete what s
  | .untCntvalRead rd => Sys2Proof.Machine.execUntCntvalRead rd s
  | .gtMap fn vi index confirmed => Sys2Proof.Machine.execGtMap fn vi index confirmed s
  | .gtUnmap fn vi index => Sys2Proof.Machine.execGtUnmap fn vi index s
  | .gtSetattr fn vi index confirmed => Sys2Proof.Machine.execGtSetattr fn vi index confirmed s
  | .gtRead fn vi index => Sys2Proof.Machine.execGtRead fn vi index s
  | .scrubComplete g => Sys2Proof.Machine.execScrubComplete g s
  | .makeColumnLocal fn row => Sys2Proof.Machine.execMakeColumnLocal fn row s
  | .makeSpread fn row => Sys2Proof.Machine.execMakeSpread fn row s
  | .viSpillWrite fn vi host v => Sys2Proof.Machine.execViSpillWrite fn vi host v s
  | .devCtxSpillWrite fn v => Sys2Proof.Machine.execDevCtxSpillWrite fn v s
  | .patrolScrub block found => Sys2Proof.Machine.execPatrolScrub block found s
  | .mirrorWr src g off data marker => Sys2Proof.Machine.execMirrorWr src g off data marker s
  | .mirrorAck seq => Sys2Proof.Machine.execMirrorAck seq s
  | .synConfig fn c => Sys2Proof.Machine.execSynConfig fn c s
  | .synRead fn c => Sys2Proof.Machine.execSynRead fn c s
  | .synRestore fn c => Sys2Proof.Machine.execSynRestore fn c s
  | .synUnset fn c => Sys2Proof.Machine.execSynUnset fn c s
  | .hostSemv fn c => Sys2Proof.Machine.execHostSemv fn c s
  | .hostSemt fn c => Sys2Proof.Machine.execHostSemt fn c s
  | .hostEcadd fn c => Sys2Proof.Machine.execHostEcadd fn c s
  | .hostEcread fn c => Sys2Proof.Machine.execHostEcread fn c s
  | .syncOpAtHome a => Sys2Proof.Machine.execSyncOpAtHome a s
  | .nearUnitRelease q obj => Sys2Proof.Machine.execNearUnitRelease q obj s
  | .syncWithdraw t op => Sys2Proof.Machine.execSyncWithdraw t op s
  | .syncWatchdog obj => Sys2Proof.Machine.execSyncWatchdog obj s
  | .nearUnitTimeout q late => Sys2Proof.Machine.execNearUnitTimeout q late s
  | .vfEnable fn n => Sys2Proof.Machine.execVfEnable fn n s
  | .vfDisable fn => Sys2Proof.Machine.execVfDisable fn s
  | .viPollWrite fn vi v => Sys2Proof.Machine.execViPollWrite fn vi v s
  | .give fn vi r => Sys2Proof.Machine.execGive fn vi r s
  | .share fn vi r => Sys2Proof.Machine.execShare fn vi r s
  | .take fn vi r => Sys2Proof.Machine.execTake fn vi r s
  | .reshare fn vi r => Sys2Proof.Machine.execReshare fn vi r s
  | .giveGroup fn vi r => Sys2Proof.Machine.execGiveGroup fn vi r s
  | .takeGroup fn vi r => Sys2Proof.Machine.execTakeGroup fn vi r s
  | .resRead fn vi r => Sys2Proof.Machine.execResRead fn vi r s
  | .viShareWrite fn vi v => Sys2Proof.Machine.execViShareWrite fn vi v s
  | .viLimitsWrite fn vi v => Sys2Proof.Machine.execViLimitsWrite fn vi v s
  | .handlerStart fn vi c => Sys2Proof.Machine.execHandlerStart fn vi c s
  | .handlerStop fn vi c => Sys2Proof.Machine.execHandlerStop fn vi c s
  | .viEvRingWrite fn vi v => Sys2Proof.Machine.execViEvRingWrite fn vi v s
  | .viEvAckWrite fn vi v => Sys2Proof.Machine.execViEvAckWrite fn vi v s
  | .viEvPostWrite fn vi v => Sys2Proof.Machine.execViEvPostWrite fn vi v s
  | .instanceReset fn vi => Sys2Proof.Machine.execInstanceReset fn vi s
  | .resetDrainComplete vi => Sys2Proof.Machine.execResetDrainComplete vi s
  | .resetForceTimeout vi => Sys2Proof.Machine.execResetForceTimeout vi s
  | .releaseComplete vi => Sys2Proof.Machine.execReleaseComplete vi s
  | .busMasterClear fn => Sys2Proof.Machine.execBusMasterClear fn s
  | .busMasterSet fn => Sys2Proof.Machine.execBusMasterSet fn s
  | .powerStateWrite fn d3 => Sys2Proof.Machine.execPowerStateWrite fn d3 s
  | .functionLevelReset fn => Sys2Proof.Machine.execFunctionLevelReset fn s
  | .bar2Read fn off n => Sys2Proof.Machine.execBar2Read fn off n s
  | .bar2Write fn off data poison => Sys2Proof.Machine.execBar2Write fn off data poison s
  | .sqEnable fn vi q c => Sys2Proof.Machine.execSqEnable fn vi q c s
  | .sqDisable fn vi q c => Sys2Proof.Machine.execSqDisable fn vi q c s
  | .sqDrainComplete vi q => Sys2Proof.Machine.execSqDrainComplete vi q s
  | .cqEnable fn vi q size => Sys2Proof.Machine.execCqEnable fn vi q size s
  | .cqDisable fn vi q size => Sys2Proof.Machine.execCqDisable fn vi q size s
  | .sqDoorbell fn vi q index => Sys2Proof.Machine.execSqDoorbell fn vi q index s
  | .cqDoorbell fn vi q index => Sys2Proof.Machine.execCqDoorbell fn vi q index s
  | .descriptorFetch vi q n out data => Sys2Proof.Machine.execDescriptorFetch vi q n out data s
  | .pollPageUpdate vi => Sys2Proof.Machine.execPollPageUpdate vi s
  | .hostReadCompletion vi q seq out data => Sys2Proof.Machine.execHostReadCompletion vi q seq out data s
  | .completionTimeout r tag hdr => Sys2Proof.Machine.execCompletionTimeout r tag hdr s
  | .unexpectedCompletion fn tag hdr => Sys2Proof.Machine.execUnexpectedCompletion fn tag hdr s
  | .l0pEnter port lanes => Sys2Proof.Machine.execL0pEnter port lanes s
  | .aspmL1Enter port sub => Sys2Proof.Machine.execAspmL1Enter port sub s
  | .linkPowerExit port => Sys2Proof.Machine.execLinkPowerExit port s
  | .upstreamPortReset port kind => Sys2Proof.Machine.execUpstreamPortReset port kind s
  | .perstDeassert port => Sys2Proof.Machine.execPerstDeassert port s
  | .copy vi q => Sys2Proof.Machine.execCopy vi q s
  | .descriptorGateRelease vi q seq => Sys2Proof.Machine.execDescriptorGateRelease vi q seq s
  | .stgRead vi q => Sys2Proof.Machine.execStgRead vi q s
  | .stgWrite vi q => Sys2Proof.Machine.execStgWrite vi q s
  | .stgFlush vi q => Sys2Proof.Machine.execStgFlush vi q s
  | .stgDeallocate vi q => Sys2Proof.Machine.execStgDeallocate vi q s
  | .stgWriteZeroes vi q => Sys2Proof.Machine.execStgWriteZeroes vi q s
  | .nvmeCompletion vi q seq status data => Sys2Proof.Machine.execNvmeCompletion vi q seq status data s
  | .nvmeCmdTimeout vi q seq => Sys2Proof.Machine.execNvmeCmdTimeout vi q seq s
  | .storageWindowAccess port rid off r ext => Sys2Proof.Machine.execStorageWindowAccess port rid off r ext s
  | .downstreamLinkLoss loss => Sys2Proof.Machine.execDownstreamLinkLoss loss s
  | .downstreamPerstRelease port => Sys2Proof.Machine.execDownstreamPerstRelease port s
  | .tcpRetransmit target data => Sys2Proof.Machine.execTcpRetransmit target data s
  | .frameReceive port f => Sys2Proof.Machine.execFrameReceive port f s
  | .prmModeWrite fn port m => Sys2Proof.Machine.execPrmModeWrite fn port m s
  | .ruleWrite fn port index => Sys2Proof.Machine.execRuleWrite fn port index s
  | .ruleRead fn port index => Sys2Proof.Machine.execRuleRead fn port index s
  | .ruleClear fn port index => Sys2Proof.Machine.execRuleClear fn port index s
  | .commit fn port => Sys2Proof.Machine.execCommit fn port s
  | .bankCopyComplete port => Sys2Proof.Machine.execBankCopyComplete port s
  | .test fn port pass => Sys2Proof.Machine.execTest fn port pass s
  | .tplWrite fn port index => Sys2Proof.Machine.execTplWrite fn port index s
  | .tplRead fn port index => Sys2Proof.Machine.execTplRead fn port index s
  | .bankError port => Sys2Proof.Machine.execBankError port s
  | .flowInsert fn port vi => Sys2Proof.Machine.execFlowInsert fn port vi s
  | .flowRemove fn port ctx => Sys2Proof.Machine.execFlowRemove fn port ctx s
  | .flowRead fn port ctx => Sys2Proof.Machine.execFlowRead fn port ctx s
  | .rxRingEnable fn vi r c => Sys2Proof.Machine.execRxRingEnable fn vi r c s
  | .rxRingDisable fn vi r c => Sys2Proof.Machine.execRxRingDisable fn vi r c s
  | .slowPathFrame quad owned => Sys2Proof.Machine.execSlowPathFrame quad owned s
  | .reassemblyTimeout quad n => Sys2Proof.Machine.execReassemblyTimeout quad n s
  | .frameToIris port src data => Sys2Proof.Machine.execFrameToIris port src data s
  | .shaperRefill port sh => Sys2Proof.Machine.execShaperRefill port sh s
  | .frameTransmitStart port => Sys2Proof.Machine.execFrameTransmitStart port s
  | .frameTransmitEnd port => Sys2Proof.Machine.execFrameTransmitEnd port s
  | .viShapeWrite fn vi port v => Sys2Proof.Machine.execViShapeWrite fn vi port v s
  | .irsCshapeWrite fn port c v => Sys2Proof.Machine.execIrsCshapeWrite fn port c v s
  | .irsQcfgWrite fn port q v => Sys2Proof.Machine.execIrsQcfgWrite fn port q v s
  | .configChange fn port c => Sys2Proof.Machine.execConfigChange fn port c s
  | .cancel fn port c => Sys2Proof.Machine.execCancel fn port c s
  | .gateEnWrite fn port c => Sys2Proof.Machine.execGateEnWrite fn port c s
  | .gateEntryAdvance port => Sys2Proof.Machine.execGateEntryAdvance port s
  | .configChangeTime port => Sys2Proof.Machine.execConfigChangeTime port s
  | .txRingEnable fn vi r c => Sys2Proof.Machine.execTxRingEnable fn vi r c s
  | .txRingDisable fn vi r c => Sys2Proof.Machine.execTxRingDisable fn vi r c s
  | .txSlotTake vi r ext => Sys2Proof.Machine.execTxSlotTake vi r ext s
  | .queueSample port => Sys2Proof.Machine.execQueueSample port s
  | .sampleRingEnable fn port c => Sys2Proof.Machine.execSampleRingEnable fn port c s
  | .brmWrite vi q => Sys2Proof.Machine.execBrmWrite vi q s
  | .brmRead vi q => Sys2Proof.Machine.execBrmRead vi q s
  | .brmAtomic vi q => Sys2Proof.Machine.execBrmAtomic vi q s
  | .qpCreate vi q => Sys2Proof.Machine.execQpCreate vi q s
  | .connect vi q => Sys2Proof.Machine.execConnect vi q s
  | .qpDestroy vi q => Sys2Proof.Machine.execQpDestroy vi q s
  | .qpQuery vi q => Sys2Proof.Machine.execQpQuery vi q s
  | .register vi q => Sys2Proof.Machine.execRegister vi q s
  | .revoke vi q => Sys2Proof.Machine.execRevoke vi q s
  | .revokeComplete ctx => Sys2Proof.Machine.execRevokeComplete ctx s
  | .qpCloseComplete qp => Sys2Proof.Machine.execQpCloseComplete qp s
  | .writePacket p => Sys2Proof.Machine.execWritePacket p s
  | .readReq p => Sys2Proof.Machine.execReadReq p s
  | .readResp p => Sys2Proof.Machine.execReadResp p s
  | .atomicReq p => Sys2Proof.Machine.execAtomicReq p s
  | .atomicResp p => Sys2Proof.Machine.execAtomicResp p s
  | .ack p => Sys2Proof.Machine.execAck p s
  | .nak p => Sys2Proof.Machine.execNak p s
  | .held p => Sys2Proof.Machine.execHeld p s
  | .connectReq p => Sys2Proof.Machine.execConnectReq p s
  | .connectResp p => Sys2Proof.Machine.execConnectResp p s
  | .disconnect p => Sys2Proof.Machine.execDisconnect p s
  | .placementPerformed qp psn => Sys2Proof.Machine.execPlacementPerformed qp psn s
  | .ackTimer qp => Sys2Proof.Machine.execAckTimer qp s
  | .retransmitTimeout qp psn => Sys2Proof.Machine.execRetransmitTimeout qp psn s
  | .busyRetransmit qp psn => Sys2Proof.Machine.execBusyRetransmit qp psn s
  | .connectReqTimer qp => Sys2Proof.Machine.execConnectReqTimer qp s
  | .connectTimeout qp => Sys2Proof.Machine.execConnectTimeout qp s
  | .messageExpiry qp msn => Sys2Proof.Machine.execMessageExpiry qp msn s
  | .portEnable fn port c => Sys2Proof.Machine.execPortEnable fn port c s
  | .portDisable fn port c => Sys2Proof.Machine.execPortDisable fn port c s
  | .linkPacketReceive port p => Sys2Proof.Machine.execLinkPacketReceive port p s
  | .linkRetryRequest port lseq => Sys2Proof.Machine.execLinkRetryRequest port lseq s
  | .linkCtlAck port lseq credits => Sys2Proof.Machine.execLinkCtlAck port lseq credits s
  | .linkInit port far => Sys2Proof.Machine.execLinkInit port far s
  | .laneFailure port lane => Sys2Proof.Machine.execLaneFailure port lane s
  | .lossOfLock port => Sys2Proof.Machine.execLossOfLock port s
  | .trainingTimeout port => Sys2Proof.Machine.execTrainingTimeout port s
  | .retrainTimer port => Sys2Proof.Machine.execRetrainTimer port s
  | .devFabCfgWrite fn v => Sys2Proof.Machine.execDevFabCfgWrite fn v s
  | .devPairCfgWrite fn v => Sys2Proof.Machine.execDevPairCfgWrite fn v s
  | .takeover fn => Sys2Proof.Machine.execTakeover fn s
  | .resync fn => Sys2Proof.Machine.execResync fn s
  | .resyncComplete => Sys2Proof.Machine.execResyncComplete s
  | .pairHeartbeat => Sys2Proof.Machine.execPairHeartbeat s
  | .pairPacketReceive m => Sys2Proof.Machine.execPairPacketReceive m s
  | .partnerLost => Sys2Proof.Machine.execPartnerLost s
  | .mirrorLostNotice => Sys2Proof.Machine.execMirrorLostNotice s
  | .mirrorLostRepeat => Sys2Proof.Machine.execMirrorLostRepeat s
  | .mirrorLostAck => Sys2Proof.Machine.execMirrorLostAck s
  | .snapshot fn vi fits => Sys2Proof.Machine.execSnapshot fn vi fits s
  | .snapshotArm vi => Sys2Proof.Machine.execSnapshotArm vi s
  | .pageCopy vi page => Sys2Proof.Machine.execPageCopy vi page s
  | .chunkVerify vi pages out => Sys2Proof.Machine.execChunkVerify vi pages out s
  | .snapshotSeal vi out => Sys2Proof.Machine.execSnapshotSeal vi out s
  | .restore fn vi => Sys2Proof.Machine.execRestore fn vi s
  | .catalogueReadComplete vi found => Sys2Proof.Machine.execCatalogueReadComplete vi found s
  | .restorePage vi p => Sys2Proof.Machine.execRestorePage vi p s
  | .abort fn vi => Sys2Proof.Machine.execAbort fn vi s
  | .install fn slot vi ext => Sys2Proof.Machine.execInstall fn slot vi ext s
  | .clear fn slot => Sys2Proof.Machine.execClear fn slot s
  | .keyRead fn slot => Sys2Proof.Machine.execKeyRead fn slot s
  | .installSa fn vi ext => Sys2Proof.Machine.execInstallSa fn vi ext s
  | .retireSa fn vi ext => Sys2Proof.Machine.execRetireSa fn vi ext s
  | .msecCfgWrite fn port c => Sys2Proof.Machine.execMsecCfgWrite fn port c s
  | .getVersion via => Sys2Proof.Machine.execGetVersion via s
  | .getCapabilities via => Sys2Proof.Machine.execGetCapabilities via s
  | .negotiateAlgorithms via match_ => Sys2Proof.Machine.execNegotiateAlgorithms via match_ s
  | .getDigests via => Sys2Proof.Machine.execGetDigests via s
  | .getCertificate via slot => Sys2Proof.Machine.execGetCertificate via slot s
  | .challenge via slot nonce => Sys2Proof.Machine.execChallenge via slot nonce s
  | .getMeasurements via block => Sys2Proof.Machine.execGetMeasurements via block s
  | .keyExchange via beat => Sys2Proof.Machine.execKeyExchange via beat s
  | .finish via sid ok => Sys2Proof.Machine.execFinish via sid ok s
  | .heartbeat via sid => Sys2Proof.Machine.execHeartbeat via sid s
  | .keyUpdate via sid => Sys2Proof.Machine.execKeyUpdate via sid s
  | .endSession via sid => Sys2Proof.Machine.execEndSession via sid s
  | .setKek via sid kek => Sys2Proof.Machine.execSetKek via sid kek s
  | .ideQuery port sid => Sys2Proof.Machine.execIdeQuery port sid s
  | .keyProg port sid k key => Sys2Proof.Machine.execKeyProg port sid k key s
  | .kSetGo port sid k => Sys2Proof.Machine.execKSetGo port sid k s
  | .kSetStop port sid k => Sys2Proof.Machine.execKSetStop port sid k s
  | .getInfo fn tag => Sys2Proof.Machine.execGetInfo fn tag s
  | .featureSet fn tag => Sys2Proof.Machine.execFeatureSet fn tag s
  | .featureGet fn tag => Sys2Proof.Machine.execFeatureGet fn tag s
  | .stage fn tag img => Sys2Proof.Machine.execStage fn tag img s
  | .activate fn tag => Sys2Proof.Machine.execActivate fn tag s
  | .activateCancel fn tag => Sys2Proof.Machine.execActivateCancel fn tag s
  | .deferredActivationTimer => Sys2Proof.Machine.execDeferredActivationTimer s
  | .svnCommit fn tag => Sys2Proof.Machine.execSvnCommit fn tag s
  | .keyRevoke fn tag => Sys2Proof.Machine.execKeyRevoke fn tag s
  | .logCfg fn tag => Sys2Proof.Machine.execLogCfg fn tag s
  | .traceCfg fn tag => Sys2Proof.Machine.execTraceCfg fn tag s
  | .stgBind fn tag r => Sys2Proof.Machine.execStgBind fn tag r s
  | .stgUnbind fn tag => Sys2Proof.Machine.execStgUnbind fn tag s
  | .slowCfg fn tag => Sys2Proof.Machine.execSlowCfg fn tag s
  | .ptpCfg fn tag => Sys2Proof.Machine.execPtpCfg fn tag s
  | .restart fn tag => Sys2Proof.Machine.execRestart fn tag s
  | .ptpMessage port rate => Sys2Proof.Machine.execPtpMessage port rate s
  | .stewardWatchdog core pc => Sys2Proof.Machine.execStewardWatchdog core pc s
  | .stewardFault core pc => Sys2Proof.Machine.execStewardFault core pc s
  | .stewardRestartDone core => Sys2Proof.Machine.execStewardRestartDone core s
  | .fwLogRingWrite fn c => Sys2Proof.Machine.execFwLogRingWrite fn c s
  | .fwLogAckWrite fn r => Sys2Proof.Machine.execFwLogAckWrite fn r s
  | .mctpControl via eid => Sys2Proof.Machine.execMctpControl via eid s
  | .pldmPlatform via sensor => Sys2Proof.Machine.execPldmPlatform via sensor s
  | .pldmFirmwareUpdate via img => Sys2Proof.Machine.execPldmFirmwareUpdate via img s
  | .activateFirmware via => Sys2Proof.Machine.execActivateFirmware via s
  | .tallyFrameSend blocks => Sys2Proof.Machine.execTallyFrameSend blocks s
  | .tallyFrameReceive fate => Sys2Proof.Machine.execTallyFrameReceive fate s
  | .intervalEnd m => Sys2Proof.Machine.execIntervalEnd m s
  | .fetch fn tag => Sys2Proof.Machine.execFetch fn tag s
  | .quote fn tag ns e => Sys2Proof.Machine.execQuote fn tag ns e s
  | .sealBroken => Sys2Proof.Machine.execSealBroken s
  | .islandPowerUp c m => Sys2Proof.Machine.execIslandPowerUp c m s
  | .goBright fn => Sys2Proof.Machine.execGoBright fn s
  | .goDim fn => Sys2Proof.Machine.execGoDim fn s
  | .goDark fn => Sys2Proof.Machine.execGoDark fn s
  | .darkEntryComplete => Sys2Proof.Machine.execDarkEntryComplete s
  | .autoDimTimeout => Sys2Proof.Machine.execAutoDimTimeout s
  | .wake src => Sys2Proof.Machine.execWake src s
  | .wakeTimer => Sys2Proof.Machine.execWakeTimer s
  | .pwrCluFreqWrite fn c v => Sys2Proof.Machine.execPwrCluFreqWrite fn c v s
  | .freqChangeDone c => Sys2Proof.Machine.execFreqChangeDone c s
  | .lpeChcfgWrite fn crit warn => Sys2Proof.Machine.execLpeChcfgWrite fn crit warn s
  | .loupeSample ch raw => Sys2Proof.Machine.execLoupeSample ch raw s
  | .loupeMsTick => Sys2Proof.Machine.execLoupeMsTick s
  | .inputOvercurrent ma => Sys2Proof.Machine.execInputOvercurrent ma s
  | .errorHandle found => Sys2Proof.Machine.execErrorHandle found s
  | .errorSecondTick => Sys2Proof.Machine.execErrorSecondTick s
  | .errAckWrite fn r => Sys2Proof.Machine.execErrAckWrite fn r s
  | .errCfgWrite fn auto_ => Sys2Proof.Machine.execErrCfgWrite fn auto_ s
  | .errFctOffWrite fn k off => Sys2Proof.Machine.execErrFctOffWrite fn k off s
  | .devTimeMax => Sys2Proof.Machine.execDevTimeMax s
  | .deviceReset fn => Sys2Proof.Machine.execDeviceReset fn s
  | .deviceResetComplete => Sys2Proof.Machine.execDeviceResetComplete s
  | .readPhys via addr => Sys2Proof.Machine.execReadPhys via addr s
  | .writePhys via addr data => Sys2Proof.Machine.execWritePhys via addr data s
  | .readSreg via addr => Sys2Proof.Machine.execReadSreg via addr s
  | .writeSreg via addr data => Sys2Proof.Machine.execWriteSreg via addr data s
  | .haltThread via index launch => Sys2Proof.Machine.execHaltThread via index launch s
  | .resumeThread via vi rec_ => Sys2Proof.Machine.execResumeThread via vi rec_ s
  | .endThread via vi rec_ status => Sys2Proof.Machine.execEndThread via vi rec_ status s
  | .haltCore via core => Sys2Proof.Machine.execHaltCore via core s
  | .stepCore via core => Sys2Proof.Machine.execStepCore via core s
  | .resumeCore via core => Sys2Proof.Machine.execResumeCore via core s
  | .extest shift => Sys2Proof.Machine.execExtest shift s
  | .samplePreload shift => Sys2Proof.Machine.execSamplePreload shift s
  | .idcode => Sys2Proof.Machine.execIdcode s
  | .dbgacc op addr data => Sys2Proof.Machine.execDbgacc op addr data s
  | .bypass => Sys2Proof.Machine.execBypass s
  | .tapReset => Sys2Proof.Machine.execTapReset s
  | .cntVicfgWrite fn en autoReset => Sys2Proof.Machine.execCntVicfgWrite fn en autoReset s
  | .samplerEnable fn k c => Sys2Proof.Machine.execSamplerEnable fn k c s
  | .counterSample k => Sys2Proof.Machine.execCounterSample k s
  | .trcCfgWrite fn c => Sys2Proof.Machine.execTrcCfgWrite fn c s
  | .fire fn => Sys2Proof.Machine.execFire fn s
  | .arm fn => Sys2Proof.Machine.execArm fn s
  | .trcMarkWrite fn v => Sys2Proof.Machine.execTrcMarkWrite fn v s
  | .trcHostAckWrite fn v => Sys2Proof.Machine.execTrcHostAckWrite fn v s
  | .pwrEnHigh held => Sys2Proof.Machine.execPwrEnHigh held s
  | .pwrEnLow => Sys2Proof.Machine.execPwrEnLow s
  | .inputRise held => Sys2Proof.Machine.execInputRise held s
  | .inputUndervoltage => Sys2Proof.Machine.execInputUndervoltage s
  | .inputRemoved m persisted => Sys2Proof.Machine.execInputRemoved m persisted s
  | .modRst => Sys2Proof.Machine.execModRst s
  | .convert ms addr1 addr0 => Sys2Proof.Machine.execConvert ms addr1 addr0 s
  | .coolant => Sys2Proof.Machine.execCoolant s
  | .coolantTimeout => Sys2Proof.Machine.execCoolantTimeout s
  | .rails => Sys2Proof.Machine.execRails s
  | .secure => Sys2Proof.Machine.execSecure s
  | .train r => Sys2Proof.Machine.execTrain r s
  | .fill => Sys2Proof.Machine.execFill s
  | .firmware => Sys2Proof.Machine.execFirmware s
  | .registerWrite fn space off w v => Sys2Proof.Machine.execRegisterWrite fn space off w v s
  | .illegalEncoding t word => Sys2Proof.Machine.execIllegalEncoding t word s
  | .presenceDetectChange port => Sys2Proof.Machine.execPresenceDetectChange port s
  | .ethernetLinkDown port => Sys2Proof.Machine.execEthernetLinkDown port s
  | .ethernetLinkUp port => Sys2Proof.Machine.execEthernetLinkUp port s
  | .linkAckInterval port => Sys2Proof.Machine.execLinkAckInterval port s
  | .wakeComplete => Sys2Proof.Machine.execWakeComplete s
  | .activationComplete gone => Sys2Proof.Machine.execActivationComplete gone s
  | .heartbeatPeriodExpiry via sid => Sys2Proof.Machine.execHeartbeatPeriodExpiry via sid s

end Sys2Proof.Machine
end

