-- ==== Sys2Proof/Machine/Tick.lean ====
section
/-! DEFINITION. What the block does while no command waits: one nanosecond of the module's own clocks (R31, R571). -/

namespace Sys2Proof.Machine

/-- One nanosecond passes: `DEV_TIME` counts from the end of CONVERT on, unless it holds at its maximum, and the tallies that count time go
with it (R529, R610), as does the time since the device last had work (R546). -/
def clock (s : State) : State :=
  if s.boot.phase.toNat < 2 ∨ s.devTime = BitVec.allOnes 64 then s else { s with
    devTime := s.devTime + 1
    tally := tallyTime s
    pwr := if workless s then s.pwr else { s.pwr with busyAt := s.devTime + 1 } }

/-- Idle: a nanosecond passes, and host accesses that waited behind BAR2 writes go on (R300, Assumption 1). -/
def tick (s : State) : State := if s.heldHost.isEmpty then clock s else settle (releaseHost (clock s))

end Sys2Proof.Machine
end

