-- ==== Sys2Proof/Machine/ConfigRead.lean ====
section
/-! DEFINITION. What the configuration space of each function reads as (R2, R292-R295, R318, R322, R329, R330). Places that the spec does
not give are those of `cfgWr` and `swWr` (Assumption 21). -/

namespace Sys2Proof.Machine

/-- A dword as it is stored plainly. -/
def cfgStored (s : State) (k d : Nat) : BitVec 32 := (rget s (cfgReg k d)).setWidth 32
/-- A bit at its place in a dword. -/
def bit32 (b : Bool) (i : Nat) : BitVec 32 := BitVec.ofNat 32 (b2n b * 2 ^ i)
/-- A field the spec leaves to the device, the same at every read (free, Assumption 53). -/
def cfgFree (w tag : Nat) : BitVec w := BitVec.ofNat w (Config.freeNat 0 (0x2940000 + tag))

/-- PCI Express capability and those registers of it that PFs and VFs share: Endpoint, Flit Mode, 512 bytes of payload, Extended Tag,
Role-Based Error Reporting, Function Level Reset, 64 GT/s x16 (R292, R294). `d` counts from the capability. -/
def pcieRd (s : State) (fn : Fn) (d : Nat) : BitVec 32 :=
  let c := getCfg s fn
  match d with
  | 0x00 => 0x80020010
  | 0x04 => 0x10008022
  | 0x08 => (c.devCtl.setWidth 32 &&& 0x71EF) ||| bit32 c.ro 4
  | 0x0C => 0x00000106
  | 0x10 => (cfgFree 16 0).setWidth 32 <<< 16
  -- Completion Timeout Ranges and Disable, LTR, 10-bit Tag Completer and Requester
  | 0x24 => 0x0003081F
  | 0x28 => c.ctoVal.setWidth 32 ||| bit32 c.ctoDis 4 ||| bit32 c.ido 8
  | 0x2C => 0x0000007E
  | _ => 0

/-- Advanced Error Reporting (R294, R320-R322). -/
def aerRd (s : State) (fn : Fn) (d : Nat) : BitVec 32 :=
  let c := getCfg s fn
  match d with
  | 0x100 => 0x14820001
  | 0x104 => c.uncSt.setWidth 32
  | 0x108 => c.uncMsk.setWidth 32
  | 0x10C => c.uncSev.setWidth 32
  | 0x110 => c.corSt.setWidth 32
  | 0x114 => c.corMsk.setWidth 32
  -- First Error Pointer; ECRC Generation and Check Capable
  | 0x118 => (c.fep.getD 0).setWidth 32 ||| bit32 true 5 ||| bit32 c.ecrcGen 6 ||| bit32 true 7 ||| bit32 c.ecrcChk 8
  | _ => if 0x11C ≤ d ∧ d < 0x12C then BitVec.ofNat 32 (ofBytes ((c.hdr.drop (d - 0x11C)).take 4)) else 0

/-- SR-IOV of a PF (R294, R296). -/
def sriovRd (s : State) (fn : Fn) (d : Nat) : BitVec 32 :=
  let c := getCfg s fn
  match d with
  | 0x150 => 0x19010010
  | 0x154 => 0
  | 0x158 => bit32 c.vfEn 0 ||| bit32 c.vfMse 3
  | 0x15C => 0x007F007F
  | 0x160 => c.numVfs.setWidth 32
  | 0x164 => 0x00010001
  | 0x168 => 0x32730000
  | 0x16C => 0x00001FFF
  | 0x170 => cfgStored s fn.toNat 0x170
  | 0x174 => cfgStored s fn.toNat 0x174 ||| 4
  | 0x178 => cfgStored s fn.toNat 0x178
  | _ => 0

/-- A selective IDE stream of a PF, from its first dword: two address association blocks (R490, R491). -/
def ideRd (s : State) (fn : Fn) (i o : Nat) : BitVec 32 :=
  let x := getIde s (portOf fn) i
  match o with
  | 0x00 => 2
  | 0x04 => bit32 x.en 0
  -- Secure (2) with keys in use for both directions of every sub-stream, else Insecure (0)
  | 0x08 => if x.en && (List.range 6).all (fun k => (tget? x.go k).isSome) then 2 else 0
  | 0x0C => BitVec.ofNat 32 (x.ridHi.toNat * 256)
  | 0x10 => BitVec.ofNat 32 (x.ridLo.toNat * 256) ||| bit32 x.assoc 0
  | _ => cfgStored s fn.toNat (0x1CC + 44 * i + o)

/-- The header of a PF (R2, R294). -/
def pfHeader (s : State) (fn : Fn) (d : Nat) : BitVec 32 :=
  let c := getCfg s fn
  match d with
  | 0x00 => 0x32721F3C
  | 0x04 => 0x00100000 ||| bit32 c.mse 1 ||| bit32 c.bme 2 ||| bit32 c.intDis 10
  | 0x08 => 0x120000B0
  | 0x0C => cfgStored s fn.toNat 0x0C
  | 0x10 => cfgStored s fn.toNat 0x10 ||| 4
  | 0x14 => cfgStored s fn.toNat 0x14
  | 0x18 => 0xC
  | 0x1C => cfgStored s fn.toNat 0x1C
  | 0x2C => 0x00311F3C
  | 0x34 => 0x40
  | 0x3C => cfgStored s fn.toNat 0x3C
  | _ => 0

/-- A dword of a PF's configuration space (R294). -/
def pfRead (s : State) (fn : Fn) (d : Nat) : BitVec 32 :=
  if d < 0x40 then pfHeader s fn d
  else if d = 0x40 then 0x00035001
  else if d = 0x44 then (if (getCfg s fn).d3 then 0xB else 0x8)
  else if 0x50 ≤ d ∧ d < 0x90 then pcieRd s fn (d - 0x50)
  else if 0x100 ≤ d ∧ d < 0x12C then aerRd s fn d
  else if d = 0x148 then 0x1501000E
  else if 0x150 ≤ d ∧ d < 0x190 then sriovRd s fn d
  else if d = 0x190 then 0x1A010003
  else if d = 0x194 then Config.serial.setWidth 32
  else if d = 0x198 then (Config.serial >>> 32).setWidth 32
  else if d = 0x1A0 then 0x1B010018
  else if d = 0x1A4 then cfgStored s fn.toNat 0x1A4
  else if d = 0x1B0 then 0x1C01002E
  -- the registers of the Data Object Exchange mailbox: what stands in it is the exchange's (free)
  else if 0x1B4 ≤ d ∧ d < 0x1C0 then cfgFree 32 d
  else if d = 0x1C0 then 0x20010030
  -- Selective IDE Streams Supported, two of them; Selective IDE for Configuration Requests and the rest 0
  else if d = 0x1C4 then 0x00010002
  else if 0x1CC ≤ d ∧ d < 0x224 ∧ d < 0x200 then ideRd s fn ((d - 0x1CC) / 44) ((d - 0x1CC) % 44)
  else if d = 0x200 then 0x0001000B
  else if d = 0x204 then 0x01010001
  else 0

/-- A dword of a VF's configuration space (R2, R295). -/
def vfRead (s : State) (fn : Fn) (d : Nat) : BitVec 32 :=
  if d = 0x00 then 0xFFFFFFFF
  else if d = 0x04 then 0x00100000 ||| bit32 (getCfg s fn).bme 2
  else if d = 0x08 then 0x120000B0
  else if d = 0x2C then 0x00311F3C
  else if d = 0x34 then 0x40
  else if 0x40 ≤ d ∧ d < 0x80 then pcieRd s fn (d - 0x40)
  else if 0x100 ≤ d ∧ d < 0x12C then aerRd s fn d
  else if d = 0x148 then 0x1501000E
  else if d = 0x150 then 0x0001000F
  -- Page Aligned Request 1, Invalidate Queue Depth 0; Smallest Translation Unit 4 KiB
  else if d = 0x154 then 0x20 ||| bit32 (getCfg s fn).ats 31
  else 0

/-- A dword of a function's configuration space. -/
def cfgRead (s : State) (fn : Fn) (d : Nat) : BitVec 32 := if isPf fn then pfRead s fn d else vfRead s fn d

/-! ## The switch functions (R329, R330) -/

/-- Link Status of a switch function: of a downstream port what it trained at; of an upstream port its lanes; the internal port has no
link. -/
def swLink (s : State) (n : Fin 10) : BitVec 32 :=
  let w : SwPort := tget s.sw n.val {}
  if n.val < 6 then (w.speed.setWidth 32 <<< 16) ||| (w.width.setWidth 32 <<< 20) ||| bit32 w.link 29
  else if n.val < 8 then 0
  else match s.links.toList[n.val - 8]? with
    | some l => bit32 (bit l.en 1) 1 ||| (6 <<< 16) ||| (l.lanes.setWidth 32 <<< 20) ||| bit32 (swUp s n) 29
    | none => 0

/-- A dword of a switch function's configuration space. -/
def swRead (s : State) (n : Fin 10) (d : Nat) : BitVec 32 :=
  let k := n.val
  let w : SwPort := tget s.sw k {}
  match d with
  | 0x00 => if k ≥ 8 then 0x32781F3C else 0x32791F3C
  | 0x04 => 0x00100000 ||| cfgStored s (256 + k) 4
  -- a PCI-to-PCI bridge; the spec gives the switch no revision
  | 0x08 => 0x06040000 ||| (cfgFree 8 1).setWidth 32
  | 0x0C => 0x00010000 ||| cfgStored s (256 + k) 0x0C
  | 0x10 => if k ≥ 8 then 0xC else 0
  | 0x3C => bit32 w.sbr 22
  | 0x60 => swLink s n
  | 0x68 => if k < 6 then bit32 w.pdc 19 ||| bit32 w.present 22 ||| bit32 w.dllsc 24 else 0
  | 0x104 => w.uncSt
  | 0x108 => w.uncMsk
  | 0x10C => w.uncSev
  | 0x110 => w.corSt
  | 0x114 => w.corMsk
  -- ACS Capability: all but P2P Egress Control
  | 0x154 => if k < 8 then (w.acs.setWidth 32 <<< 16) ||| 0x5F else 0
  | 0x164 => if k < 6 then w.dpcEn.setWidth 32 <<< 16 else 0
  | 0x168 => if k < 6 then bit32 w.dpcTrig 0 else 0
  | _ => if swPlain (decide (k ≥ 8)) d = 0 then 0 else cfgStored s (256 + k) d

end Sys2Proof.Machine
end

