-- ==== Sys2Proof/Safety.lean ====
section
/-! DEFINITION. What a safe run of the block is, and the words the statements about its commands are made of. -/

namespace Sys2Proof.Machine

/-- The step at `s` answers a next state. -/
def stepsOn (s : State) : Prop := ∃ s', step s = .next s'

/-- `n` steps from `s` each answer a next state. -/
def runsFor : Nat → State → Prop
  | 0, _ => True
  | n + 1, s => ∃ s', step s = .next s' ∧ runsFor n s'

/-! ## Thread instructions -/

/-- No WAITING thread's `wait` is due: every thread whose condition holds has completed it (R90). -/
def Settled (s : State) : Prop :=
  ∀ p ∈ s.threads, ∀ a b, p.2.st = .waiting a b → waitHolds p.2 a.toNat b.toNat = false

/-- The thread `th` of slot `t` issues an instruction of class `c` now: it is READY, its Facet runs, R76 and R237 do not hold it, its
instance has the turn on the Facet (R270), the fetch at its PC is clean, its profile allows the instruction, and `TCTL.STEP` is 0. `s1` is
`s` with the turn's credit spent; on a Facet of a dedicated cluster it is `s`. -/
structure Issues (s s1 : State) (t : Tid) (th : Thread) (c : Cls) (priv : Nat) : Prop where
  here    : getThr s t = some th
  ready   : th.st = .ready
  runs    : facetRuns s t.facet = true
  free    : held s t th c = false
  turn    : takeTurn s t th.vi = some s1
  fetch   : fetchFault s1 th = (s1, none)
  priv    : priv ≤ th.priv
  step    : th.sstep = false
  settled : Settled s

/-- The state after the issue of an instruction of class `major`: `s` and `th` are what its own effect left, the thread goes to `g`,
and `ws` are its register writes. -/
def issued (s : State) (t : Tid) (th : Thread) (vi : Vi) (major : Nat) (g : Goes) (ws : List Wr) : State :=
  putThr (nextFree (countIssue s t.facet vi major)) t (advanceSlot (goNext th g) ws)

/-- The instruction only writes general register `d`, `lat` slots later, with TSTAT flags `fl`. -/
def wroteG (s : State) (t : Tid) (th : Thread) (major lat : Nat) (d : Reg) (v fl : Word) : State :=
  issued s t th th.vi major .on [wrG lat d v fl]

/-- `u` is `s` but for operation counters and tallies (R529, R586). -/
def countsOnly (s u : State) : Prop := u = { s with cnts := u.cnts, tally := u.tally }

/-- The instruction issues with no effect on the state beside counters, the thread, and its register writes: `th'` is what its own
effect made of the thread. -/
def issues (o : Host.Outcome State Fault Refusal) (s : State) (t : Tid) (th' : Thread) (vi : Vi) (major : Nat) (g : Goes)
    (ws : List Wr) : Prop :=
  ∃ u, countsOnly s u ∧ o = .next (issued u t th' vi major g ws)

/-- No part of an access lies in another device's memory (R430). -/
def staysHome (s : State) (vi : Vi) (act : Act) : Prop :=
  match act with
  | .stLanes _ l => ∀ p ∈ joinRuns l, remoteOf s vi p.1 p.2.length = none
  | .amo _ w a _ _ _ => remoteOf s vi a w = none
  | a => ∀ r ∈ actReads a, remoteOf s vi r.2.1 r.2.2 = none

/-- Operation `o` of the thread in slot `t` may be performed now: memory answers, it is a memory operation that was sent and not performed,
no part of it is with another device, and no earlier operation of the thread that it overlaps is before it (R88, R124, R326). -/
structure MayPerform (s : State) (t : Tid) (th : Thread) (o : Op) : Prop where
  here   : getThr s t = some th
  serves : memServes s = true
  act    : isMemAct o.act = true
  sent   : o.sent = true
  once   : o.perf = false
  whole  : o.parts = 0
  turn   : behind s t th o = false

/-- Bytes `pa` to `pa + n` of device memory are clean: no block of them is poisoned or holds an error not yet detected (R209). -/
def cleanAt (s : State) (pa n : Nat) : Prop := ∀ b ∈ blocksOf pa n, b ∉ s.poison ∧ b ∉ s.ue

/-- The thread of slot `t` with operation `o` in place of the one of its id, where the slot still holds a thread. -/
def recordOp (s : State) (t : Tid) (o : Op) : State :=
  match getThr s t with
  | some th => putThr s t (setOp th o)
  | none => s

/-- The instruction takes a trap that leaves no other effect (R103). -/
def trapped (s : State) (t : Tid) (th : Thread) (cause : Nat) (tval : Word) : State :=
  settle (takeTrap s t th cause tval false)

/-! ## Host commands -/

/-- A write or read by the host through function `fn` reaches the register at BAR0 offset `off`: the endpoint answers, its BARs are
enabled, the device is neither FAILED, fatal nor in Dark, and no entry to Dark is under way (R297, R549, R560, R576, R615). -/
structure HostReaches (s : State) (fn : Fn) (off : Nat) : Prop where
  gate    : gate s fn (some off) = .pass
  awake   : s.pwr.st ≠ 3
  settled : Settled s

/-- The same for a register of the VI block of instance `vi`, which a PF or the instance's own function may address (R298, R303). -/
structure ViReaches (s : State) (fn : Fn) (vi : Vi) (off : Nat) : Prop where
  own   : viReach fn vi = true
  reach : HostReaches s fn (viOff fn vi off)

/-- A status register reports that its command is complete, with STATUS and DETAIL as given (chapter Units, `CMP_STAT`, and the
status registers like it). -/
def reports (s : State) (k : Nat) (status detail : BitVec 8) : Prop :=
  bits (rget s k) 0 0 = 0 ∧ bits (rget s k) 15 8 = status.toNat ∧ bits (rget s k) 23 16 = detail.toNat

/-- A host command is complete at once: the next state is `w` but for registers, no register but those of `ks` and the status register
`k` differs from `w`'s, and `k` reports `status` and `detail`. -/
def answers (o : Host.Outcome State Fault Refusal) (w : State) (ks : List Nat) (k : Nat) (status detail : BitVec 8) : Prop :=
  ∃ u, o = .next u ∧ u = { w with regs := u.regs } ∧ (∀ n, n ∉ k :: ks → rget u n = rget w n) ∧ reports u k status detail

/-- A command of the composite manager arrives and no other is before it. `CmpIdle.vi` is the acting instance (R50). -/
structure CmpIdle (s : State) (fn : Fn) (c : CmpArgs) : Prop where
  reach   : HostReaches s fn 0x810000
  free    : statBusy s (cmpStatReg fn) = false
  jobs    : s.cmpJobs = []
  feature : featureVer s.fw 2 ≠ 0
  port    : (isPf fn && !samePort fn c.vi) = false

/-- The acting instance of a command of a PF or a VF (R50, R260). -/
def actor (fn : Fn) (vi : Vi) : Vi := if isPf fn then vi else fn

/-- The members a command names in the member buffer. -/
def namedMembers (s : State) (fn : Fn) (c : CmpArgs) : List Member :=
  ((List.range (Nat.min c.count.toNat 256)).map (membufEntry s fn)).map (·.1)

/-- The members a command names may join a composite that has `have_` already: well-formed entries, at most 256 in all, this device's,
outside the composite itself, and placeable by the instance (R38-R46, R48, R52). -/
structure GoodMembers (s : State) (fn : Fn) (c : CmpArgs) (have_ : Nat) (target : Word) : Prop where
  count  : c.count.toNat ≤ 256 ∧ have_ + (namedMembers s fn c).length ≤ 256
  formed : ∀ i < c.count.toNat, (membufEntry s fn i).2 = false
  placed : ∀ m ∈ namedMembers s fn c, m.remote = false ∧ (reached s m.ud 18).contains target = false
    ∧ (placeCheck s (actor fn c.vi) m).1 = 0

/-- The entry a command names is a composite of the acting instance, above the resource composites (R41, R50). -/
def ownsEntry (s : State) (fn : Fn) (c : CmpArgs) : Prop :=
  c.number.toNat > 256 ∧ (compEntry s c.number.toNat).st ≠ 0 ∧ (compEntry s c.number.toNat).owner = actor fn c.vi

/-- A member the command names is this member. -/
def names (ms : List Member) (m : Member) : Bool :=
  ms.any (fun x => x.ud == m.ud && x.remote == m.remote && (!m.remote || x.home == m.home))

/-- A command of the sync block arrives for an object the acting instance holds, with no command of the function before it. -/
structure SynIdle (s : State) (fn : Fn) (c : SynArgs) : Prop where
  reach : HostReaches s fn 0x400000
  free  : statBusy s (synStatReg fn) = false
  port  : (isPf fn && !samePort fn c.vi) = false
  holds : objHolder s c.obj.toNat = some (actor fn c.vi)

/-- A granule table command arrives at an instance's VI block, with none before it. -/
structure GtIdle (s : State) (fn : Fn) (vi : Vi) : Prop where
  reach : ViReaches s fn vi 0x200
  free  : statBusy s (gtStatReg vi) = false

/-- A resource command of a PF arrives for an instance that is neither OFF nor in a reset, with none before it (R266-R268). -/
structure ResIdle (s : State) (fn : Fn) (vi : Vi) : Prop where
  reach : ViReaches s fn vi 0x20
  free  : statBusy s (resStatReg vi) = false
  jobs  : s.resJobs = []
  pf    : isPf fn = true
  works : (getInst s vi).st = 1 ∨ (getInst s vi).st = 2

/-- A resource command is complete with OK: the next state is `w` but for the command's registers, and the instance's RESOURCE event
(R280). -/
def changesRes (o : Host.Outcome State Fault Refusal) (w : State) (vi : Vi) (cmd : Word) : Prop :=
  ∃ q, q = { w with regs := q.regs } ∧ (∀ n, n ∉ [viReg vi 0x20, resStatReg vi] → rget q n = rget w n) ∧ rget q (viReg vi 0x20) = cmd
    ∧ reports q (resStatReg vi) 0 0 ∧ o = .next (settle (postEvent q vi (resourceEvent cmd (resArg w vi) 0)))

/-- A write or read of a function's configuration space arrives: the function exists and its endpoint answers. -/
structure CfgReaches (s : State) (fn : Fn) : Prop where
  exists_ : fnExists s fn = true
  up      : endpointUp s fn = true
  settled : Settled s

/-- A write of a queue register arrives, in the VI block for a PF and in the queue page for a VF (R303). -/
structure QReaches (s : State) (fn : Fn) (vi : Vi) (off : Nat) : Prop where
  own   : viReach fn vi = true
  reach : HostReaches s fn (qOff fn vi off)

/-- A Prism command of a PF arrives at a register of a port's block, with none before it. -/
structure PrmIdle (s : State) (fn : Fn) (p : Port) (off : Nat) : Prop where
  pf    : isPf fn = true
  reach : HostReaches s fn (portOff p off)
  free  : statBusy s (prmStat p) = false

/-- Descriptor `b` at the head of queue `q` of instance `vi` may be taken: the queue runs and is of `kind`, the instance takes commands,
and it has the turn of the engine's round (R272, R306, R307). `s1` is `s` with the turn spent, and `r` what is left of the fetched
descriptors. -/
structure HeadReady (s s1 : State) (vi : Vi) (q kind : Nat) (b : List Byte) (r : List (List Byte)) : Prop where
  may  : canTake s vi q = true
  form : bits (sqCfg s vi q) 59 56 = kind
  head : (getSq s vi q).got = b :: r
  turn : roundTake s kind (descWork s kind) vi = some s1

/-- The head of queue `q` is taken: `HEAD` moves one on, the queue's sequence number counts, and a Dim device comes to Bright
(R307, R310). -/
def headTaken (s : State) (vi : Vi) (q : Nat) (r : List (List Byte)) : State :=
  let x := getSq s vi q
  wakeDim (setSq s vi q { x with
    got := r, reqAt := if r = [] then s.devTime else x.reqAt, head := BitVec.ofNat 16 ((x.head.toNat + 1) % sqSize s vi q),
    seq := x.seq + 1, taken := x.taken + 1 })

/-- A received frame reaches Prism: the port runs Ethernet, its link is up and the device works, and the frame has a length and a form
that the MAC takes (R435, R398). -/
structure FrameTaken (s : State) (p : Port) (f : RxFrame) : Prop where
  eth    : runsEth s p = true
  up     : linkUp s p = true
  works  : working s = true
  length : f.data.length + 4 ≤ maxFrame s p
  whole  : f.stopped = false

/-- A request packet is for a queue pair end that is CONNECTED or CLOSING, of the generation it names, whose peer sent it, and its PSN is
new and in the window (R407, R416, R418). -/
structure PacketInOrder (s : State) (p : Pkt) (q : Qp) : Prop where
  works  : working s = true
  end_   : getQp s p.dqp.toNat = some q
  gen    : q.gen = p.dqgen
  active : (getInst s q.owner).st = 2
  clean  : q.bad = false
  peer   : p.src = qpPeerDev q ∧ p.svi = qpPeerVi q
  state  : q.st = 2 ∨ q.st = 4
  fresh  : (before p.psn q.cum || q.perf.contains p.psn || q.placed.any (fun x => x.psn == p.psn)
    || q.fenced.any (fun x => x.psn == p.psn)) = false
  window : (p.psn - q.cum).toNat < 4096
  keyed  : (p.enc && (!p.authOk || (keyRefused s q.owner p.keyslot false).isSome)) = false

/-- A packet of the peer of a queue pair end (R405, R417, R420). -/
structure FromPeer (s : State) (p : Pkt) (q : Qp) : Prop where
  works : working s = true
  end_  : getQp s p.dqp.toNat = some q
  gen   : q.gen = p.dqgen
  peer  : p.src = qpPeerDev q ∧ p.svi = qpPeerVi q

/-- The state in which a mailbox command that a PF writes is run: the command register holds it, BUSY is 1, and the trace of the core that
serves it has its point (R504, R518). -/
def mbOpened (s : State) (fn : Fn) (tag : BitVec 8) (c : MbCmd) : State :=
  fwPoint (statStart (rset s (fwReg fn 0) (at_ tag.toNat 40 ||| at_ (mbOp c) 0)) (mbStat fn)) 0 (dutyCore s (4 * portOf fn))

/-- A mailbox command of a PF arrives with none before it, its core serves it, and the request's unused bits are zero (R504, R505). -/
structure MbIdle (s : State) (fn : Fn) (tag : BitVec 8) (c : MbCmd) : Prop where
  pf    : isPf fn = true
  reach : HostReaches s fn 0xFC0000
  free  : statBusy s (mbStat fn) = false
  core  : dutyUp s (4 * portOf fn) = true
  clean : mbClean (mbOpened s fn tag c) fn c = true

/-- A mailbox command replies with the codes and words given, and its effect was `w` (R504). -/
def mbAnswers (o : Host.Outcome State Fault Refusal) (w : State) (fn : Fn) (tag : BitVec 8) (c : MbCmd) (status detail : BitVec 8)
    (data : List Word) : Prop :=
  o = .next (settle (mbReply w fn tag (mbOp c) (status, detail) data))

/-! ## Debug -/

/-- A debug command may start now: by JTAG the TAP is powered and the device is up, neither in Dark nor waking; by a PF its register is
reached; and none runs (R582, R583). -/
def DbgIdle (s : State) (via : DbgVia) : Prop :=
  Settled s ∧ statBusy s dbgStat = false ∧ match via with
  | .jtag => tapOn s = true ∧ dbgReach s = true ∧ s.pwr.st ≠ 2 ∧ s.pwr.st ≠ 4
  | .pf p => gate s (portPf p.val) (some 0xC10100) = .pass ∧ s.pwr.st ≠ 3

/-- The state in which a started debug command runs: debug by JTAG is selected, or the PF has written the arguments it gives, the command
register holds `op`, and BUSY is 1. -/
def dbgOpened (s : State) (via : DbgVia) (op : Nat) (a : Word) (d : Option Word) : State :=
  let w := match via with
    | .jtag => rset (rset (dbgSelect s) 0xC10108 a) dbgData (d.getD (rget s dbgData))
    | .pf p =>
      let v := regWriteBase (portPf p.val) 0xC10108 a s
      match d with
      | some x => regWriteBase (portPf p.val) dbgData x v
      | none => v
  statStart (rset w 0xC10100 (BitVec.ofNat 64 op)) dbgStat

/-- The debug command is complete: `w` is its effect, and the status reports its codes (R583). -/
def dbgAnswers (o : Host.Outcome State Fault Refusal) (w : State) (status detail : BitVec 8) : Prop :=
  o = .next (settle (statDone w dbgStat (status, detail)))

end Sys2Proof.Machine
end

