-- ==== Sys2Proof/Certificates/Slice0/Obligations.lean ====
section
/-! DEFINITION. The statements for the provers. A statement about a command says, in its conclusion, that the command answers a next
state and what that state holds, under hypotheses on the state and the operands alone. -/

open Sys2Proof Sys2Proof.Machine

/-- The block's step: the command at the front of the queue is performed on the state with the rest of the queue; with none waiting, 1 ns of
`DEV_TIME` passes (Assumption 1, the model's choice). No word of the opcode table's bits spells a command, so none is put in front. -/
def Obligations.StepRunsTheFrontCommand : Prop :=
  (∀ (c : Instr) (r : List Instr) (s : State), step { s with pending := c :: r } = exec c { s with pending := r })
  ∧ (∀ s : State, s.pending = [] → step s = .next (tick s))
  ∧ ∀ (s : State) (nbits w : Nat), decodeTableWord nbits w = none ∧ s.withFetchWord nbits w = s

/-- What module reset leaves: start-up begins at CONVERT with nothing waiting, no thread, no launch, no memory written; `DEV_TIME` is 0;
the PFs' instances are IDLE and every other is OFF (R257); the registers read as their reset values say; memory and Facet stores have their
canonical form; and the first step answers. -/
def Obligations.ResetState : Prop :=
  let s := State.reset
  s.pending = [] ∧ s.boot.phase = 1 ∧ s.devTime = 0 ∧ s.threads = [] ∧ s.launches = [] ∧ s.mem = [] ∧ s.descs = [] ∧ s.err.pending = []
  ∧ (∀ vi : Vi, (getInst s vi).st = (if vi = 0 ∨ vi = 128 then 1 else 0) ∧ (getInst s vi).gen = 1)
  ∧ (∀ vi : Vi, rget s (viReg vi 0x18) = 16 ∧ rget s (viReg vi 0x50) = 0x03E801F4 ∧ rget s (viReg vi 0x300) = 7)
  ∧ (∀ p : Port, rget s (portReg p 0) = 0x18 ∧ rget s (portReg p 0x4000) = 0x14000000 ∧ rget s (portReg p 0x4100) = 0x8000000000000200)
  ∧ rget s 0x300000 = 0x00004B48000503E8 ∧ rget s (devReg 0x4020) = 0x18 ∧ rget s 0xF08018 = 0x000000640000044C ∧ autoRetire s = true
  ∧ s.mem.wf = true ∧ (∀ p ∈ s.fstore, Memory.wf p.2 = true) ∧ Settled s ∧ stepsOn s

/-- The canonical form of every byte memory (physical memory, and the store of each Facet): addresses rise strictly and no entry holds the
value an unlisted address reads as. -/
def Obligations.EveryStepKeepsCanonicalMemory : Prop :=
  ∀ s s' : State, step s = .next s' → (s.mem.wf = true ∧ ∀ p ∈ s.fstore, Memory.wf p.2 = true) →
    s'.mem.wf = true ∧ ∀ p ∈ s'.fstore, Memory.wf p.2 = true

/-- Every step answers a next state, whatever the state and the command; the command at the front leaves the queue and those behind it
stay in order; and R482, in part: the fused security version never falls and no fused key revocation is undone. -/
def Obligations.EveryStepAnswersAndFusesHold : Prop :=
  ∀ s : State, ∃ s', step s = .next s' ∧ s'.pending = s.pending.tail
    ∧ s.sec.fused.toNat ≤ s'.sec.fused.toNat ∧ ∀ k, s.sec.revoked.getLsbD k = true → s'.sec.revoked.getLsbD k = true

/-- R117, R136, R151, R157: scalar instructions that wrap, move and shift, each writing its destination one slot later (R81), the products
three slots later; and comparisons, minima and maxima, bit counts and the keyed generator. None sets a flag. -/
def Obligations.ScalarResults : Prop :=
  ∀ (s s1 : State) (t : Tid) (th : Thread) (d a b : Reg) (y : Src) (imm : Imm) (k : SextW), Issues s s1 t th { major := 0 } 0 →
    exec (.add t d a y) s = .next (wroteG s1 t th 0 1 d (rdG s1 th a + rdSrc s1 th y) 0)
    ∧ exec (.sub t d a y) s = .next (wroteG s1 t th 0 1 d (rdG s1 th a - rdSrc s1 th y) 0)
    ∧ exec (.and t d a y) s = .next (wroteG s1 t th 0 1 d (rdG s1 th a &&& rdSrc s1 th y) 0)
    ∧ exec (.or t d a y) s = .next (wroteG s1 t th 0 1 d (rdG s1 th a ||| rdSrc s1 th y) 0)
    ∧ exec (.xor t d a y) s = .next (wroteG s1 t th 0 1 d (rdG s1 th a ^^^ rdSrc s1 th y) 0)
    ∧ exec (.andn t d a y) s = .next (wroteG s1 t th 0 1 d (rdG s1 th a &&& ~~~(rdSrc s1 th y)) 0)
    ∧ exec (.shl t d a y) s = .next (wroteG s1 t th 0 1 d (rdG s1 th a <<< ((rdSrc s1 th y).toNat % 256)) 0)
    ∧ exec (.shr t d a y) s = .next (wroteG s1 t th 0 1 d (rdG s1 th a >>> ((rdSrc s1 th y).toNat % 256)) 0)
    ∧ exec (.sra t d a y) s = .next (wroteG s1 t th 0 1 d ((rdG s1 th a).sshiftRight ((rdSrc s1 th y).toNat % 256)) 0)
    ∧ exec (.rol t d a y) s = .next (wroteG s1 t th 0 1 d ((rdG s1 th a).rotateLeft ((rdSrc s1 th y).toNat % 64)) 0)
    ∧ exec (.ror t d a y) s = .next (wroteG s1 t th 0 1 d ((rdG s1 th a).rotateRight ((rdSrc s1 th y).toNat % 64)) 0)
    ∧ exec (.mov t d y) s = .next (wroteG s1 t th 0 1 d (rdSrc s1 th y) 0)
    ∧ exec (.sext t k d a) s = .next (wroteG s1 t th 0 1 d
        (match k with
          | .b => ((rdG s1 th a).setWidth 8).signExtend 64
          | .h => ((rdG s1 th a).setWidth 16).signExtend 64
          | .w => ((rdG s1 th a).setWidth 32).signExtend 64) 0)
    ∧ exec (.zextW t d a) s = .next (wroteG s1 t th 0 1 d (((rdG s1 th a).setWidth 32).setWidth 64) 0)
    ∧ exec (.movhi t d a imm) s = .next (wroteG s1 t th 0 1 d (imm ++ (rdG s1 th a).setWidth 32) 0)
    ∧ exec (.mul t d a b) s = .next (wroteG s1 t th 0 3 d (BitVec.ofNat 64 ((rdG s1 th a).toNat * (rdG s1 th b).toNat)) 0)
    ∧ exec (.mulh t d a b) s = .next (wroteG s1 t th 0 3 d
        (BitVec.ofInt 64 ((rdG s1 th a).toInt * (rdG s1 th b).toInt / 2 ^ 64)) 0)
    ∧ exec (.mulhu t d a b) s = .next (wroteG s1 t th 0 3 d
        (BitVec.ofNat 64 ((rdG s1 th a).toNat * (rdG s1 th b).toNat / 2 ^ 64)) 0)
    ∧ exec (.slt t d a y) s = .next (wroteG s1 t th 0 1 d (if (rdG s1 th a).toInt < (rdSrc s1 th y).toInt then 1 else 0) 0)
    ∧ exec (.sltu t d a y) s = .next (wroteG s1 t th 0 1 d (if (rdG s1 th a).toNat < (rdSrc s1 th y).toNat then 1 else 0) 0)
    ∧ exec (.seq t d a y) s = .next (wroteG s1 t th 0 1 d (if rdG s1 th a = rdSrc s1 th y then 1 else 0) 0)
    ∧ exec (.min t d a y) s = .next (wroteG s1 t th 0 1 d
        (if (rdG s1 th a).toInt ≤ (rdSrc s1 th y).toInt then rdG s1 th a else rdSrc s1 th y) 0)
    ∧ exec (.minu t d a y) s = .next (wroteG s1 t th 0 1 d
        (if (rdG s1 th a).toNat ≤ (rdSrc s1 th y).toNat then rdG s1 th a else rdSrc s1 th y) 0)
    ∧ exec (.max t d a y) s = .next (wroteG s1 t th 0 1 d
        (if (rdG s1 th a).toInt ≤ (rdSrc s1 th y).toInt then rdSrc s1 th y else rdG s1 th a) 0)
    ∧ exec (.maxu t d a y) s = .next (wroteG s1 t th 0 1 d
        (if (rdG s1 th a).toNat ≤ (rdSrc s1 th y).toNat then rdSrc s1 th y else rdG s1 th a) 0)
    ∧ exec (.popc t d a) s = .next (wroteG s1 t th 0 2 d
        (BitVec.ofNat 64 ((List.range 64).filter (fun i => (rdG s1 th a).getLsbD i)).length) 0)
    ∧ (∃ z, exec (.clz t d a) s = .next (wroteG s1 t th 0 2 d (BitVec.ofNat 64 z) 0)
        ∧ z ≤ 64 ∧ (rdG s1 th a).toNat < 2 ^ (64 - z) ∧ (z < 64 → 2 ^ (63 - z) ≤ (rdG s1 th a).toNat))
    ∧ (∃ z, exec (.ctz t d a) s = .next (wroteG s1 t th 0 2 d (BitVec.ofNat 64 z) 0)
        ∧ z ≤ 64 ∧ (∀ i < z, (rdG s1 th a).getLsbD i = false) ∧ (z < 64 → (rdG s1 th a).getLsbD z = true))
    ∧ exec (.rngk t d a b) s = .next (wroteG s1 t th 0 4 d (rngk (rdG s1 th a) (rdG s1 th b)) 0)

/-- R151: instructions that may overflow, and division. With `TCTL.VT` 0 the result is written and V set if the exact result does not
fit; with `TCTL.VT` 1 an overflow traps with OVERFLOW. Division by zero gives all ones, a remainder by zero the dividend, both with DZ,
or traps with DIVZERO under `TCTL.DZT`. -/
def Obligations.ScalarOverflowAndDivision : Prop :=
  ∀ (s s1 : State) (t : Tid) (th : Thread) (d a b : Reg) (y : Src), Issues s s1 t th { major := 0 } 0 →
    let A := (rdG s1 th a).toInt
    let B := (rdG s1 th b).toInt
    let ovf (lat : Nat) (x : Int) (v : Word) : Host.Outcome State Fault Refusal :=
      if -(2 ^ 63) ≤ x ∧ x < 2 ^ 63 then .next (wroteG s1 t th 0 lat d v 0)
      else if th.vt then .next (trapped s1 t th 7 0) else .next (wroteG s1 t th 0 lat d v fV)
    exec (.addv t d a y) s = ovf 1 (A + (rdSrc s1 th y).toInt) (rdG s1 th a + rdSrc s1 th y)
    ∧ exec (.subv t d a y) s = ovf 1 (A - (rdSrc s1 th y).toInt) (rdG s1 th a - rdSrc s1 th y)
    ∧ exec (.mulv t d a b) s = ovf 3 (A * B) (rdG s1 th a * rdG s1 th b)
    ∧ exec (.neg t d a) s = ovf 1 (-A) (-(rdG s1 th a))
    ∧ exec (.negs t d a) s = ovf 1 (-A) (if A = -(2 ^ 63) then 0x7FFFFFFFFFFFFFFF else -(rdG s1 th a))
    ∧ (B ≠ 0 →
        exec (.div t d a b) s = ovf 12 (A.tdiv B) (BitVec.ofInt 64 (A.tdiv B))
        ∧ exec (.rem t d a b) s = .next (wroteG s1 t th 0 12 d (BitVec.ofInt 64 (A.tmod B)) 0)
        ∧ exec (.divu t d a b) s = .next (wroteG s1 t th 0 12 d (BitVec.ofNat 64 ((rdG s1 th a).toNat / (rdG s1 th b).toNat)) 0)
        ∧ exec (.remu t d a b) s = .next (wroteG s1 t th 0 12 d (BitVec.ofNat 64 ((rdG s1 th a).toNat % (rdG s1 th b).toNat)) 0))
    ∧ (rdG s1 th b = 0 → th.dzt = false →
        exec (.div t d a b) s = .next (wroteG s1 t th 0 12 d (BitVec.allOnes 64) fDZ)
        ∧ exec (.divu t d a b) s = .next (wroteG s1 t th 0 12 d (BitVec.allOnes 64) fDZ)
        ∧ exec (.rem t d a b) s = .next (wroteG s1 t th 0 12 d (rdG s1 th a) fDZ)
        ∧ exec (.remu t d a b) s = .next (wroteG s1 t th 0 12 d (rdG s1 th a) fDZ))
    ∧ (rdG s1 th b = 0 → th.dzt = true →
        exec (.div t d a b) s = .next (trapped s1 t th 6 (rdG s1 th a))
        ∧ exec (.divu t d a b) s = .next (trapped s1 t th 6 (rdG s1 th a))
        ∧ exec (.rem t d a b) s = .next (trapped s1 t th 6 (rdG s1 th a))
        ∧ exec (.remu t d a b) s = .next (trapped s1 t th 6 (rdG s1 th a)))

/-- R85: an instruction's sticky flags are set at its retire slot, with its register result, and a clear of them that retires in the same
slot does not undo them. With it, of R81 and R82: a result of latency 1 is in its register for the next instruction, whatever else retires
with it, and the instruction changes no other register; with no other write in flight, the result of an instruction of latency L is read
from the L-th instruction after it on, and every instruction before that reads the value from before. -/
def Obligations.ResultsRetireAtTheirLatency : Prop :=
  (∀ (th : Thread) (d : Reg) (v fl : Word),
    let u := advanceSlot th [wrG 1 d v fl]
    let w := advanceSlot th []
    (∀ r : Reg, u.g[r.toFin] = if r = d ∧ d ≠ 0 then v else w.g[r.toFin])
    ∧ u.tstat = w.tstat ||| fl
    ∧ u.v = w.v ∧ u.m = w.m ∧ u.tctl = w.tctl ∧ u.brc = w.brc ∧ u.brs = w.brs ∧ u.rsp = w.rsp ∧ u.rs = w.rs ∧ u.pc = th.pc
    ∧ u.pend = w.pend ∧ u.stores = w.stores)
  ∧ (∀ (th : Thread) (d : Reg) (v fl : Word) (lat k : Nat), th.pend = [] → 1 ≤ lat → d ≠ 0 →
    let u := (fun x => advanceSlot x [])^[k] (advanceSlot th [wrG lat d v fl])
    u.g[d.toFin] = (if k + 1 < lat then th.g[d.toFin] else v) ∧ u.tstat = if k + 1 < lat then th.tstat else th.tstat ||| fl)
  ∧ ∀ (th : Thread) (ws : List Wr) (p : PendRes), p ∈ th.pend → p.due = 1 → p.flags &&& (advanceSlot th ws).tstat = p.flags

/-- R79, R83, with R77: the register files. g0 reads as zero and m0 as all ones, and a retired result for either is discarded. A vector
result under a mask is written in the lanes whose mask bit is 1; every other lane, and every other vector register, keeps its value. Of two
writes to one register that retire in the same slot, the later-issued wins in every lane it writes. -/
def Obligations.RegisterFileRules : Prop :=
  (∀ (s : State) (th : Thread) (p : PendRes),
    rdG s th 0 = 0 ∧ rdM th 0 = BitVec.allOnes 128
    ∧ (p.num = 0 → p.file = .gen → applyRes th p = th)
    ∧ (p.num = 0 → p.file = .mask → applyRes th p = th))
  ∧ (∀ (th : Thread) (w k : Nat) (vd r : VReg) (m : BitVec 128) (new : BitVec 1024) (fl : Word),
    (w = 8 ∨ w = 16 ∨ w = 32 ∨ w = 64) → k < 1024 / w →
    lane w (applyRes th (wrV 1 vd (laneBytes w (1024 / w) m) new fl).p).v[r.toFin] k
      = if r = vd ∧ active m k then lane w new k else lane w th.v[r.toFin] k)
  ∧ (∀ (th : Thread) (w k : Nat) (vd : VReg) (m n : BitVec 128) (a b : BitVec 1024),
    (w = 8 ∨ w = 16 ∨ w = 32 ∨ w = 64) → k < 1024 / w → th.pend = [{ (wrV 1 vd (laneBytes w (1024 / w) m) a).p with due := 1 }] →
    lane w (advanceSlot th [wrV 1 vd (laneBytes w (1024 / w) n) b]).v[vd.toFin] k
      = if active n k then lane w b k else if active m k then lane w a k else lane w th.v[vd.toFin] k)
  ∧ ∀ (th : Thread) (d : Reg) (a b : Word), d ≠ 0 → th.pend = [{ (wrG 1 d a).p with due := 1 }] →
    (advanceSlot th [wrG 1 d b]).g[d.toFin] = b

/-- R97, R98: where a thread goes. The test at the block end is made on the instruction at the block's last address; a taken branch or
`ret` from inside the block to outside it ends the block, and a call does not. -/
def Obligations.BlockRepeatControl : Prop :=
  ∀ (th : Thread) (a : Word),
    let last := th.brs + BitVec.ofNat 64 (8 * th.brcLen) - 8
    (th.pc ≠ last → goNext th .on = { th with pc := th.pc + 8 })
    ∧ (th.pc = last → th.brcCount > 1 → (goNext th .on).pc = th.brs ∧ (goNext th .on).brcCount = th.brcCount - 1
        ∧ (goNext th .on).brcLen = th.brcLen)
    ∧ (th.pc = last → th.brcCount ≤ 1 → (goNext th .on).pc = th.pc + 8 ∧ (goNext th .on).brc = 0)
    ∧ ((goNext th (.to a false)).pc = a ∧ (goNext th (.to a true)).pc = a)
    ∧ ((goNext th (.to a false)).brc = if inBlock th th.pc ∧ !inBlock th a then 0 else th.brc)
    ∧ (goNext th (.to a true)).brc = th.brc

/-- R103, R104, R107, R108: an unhandled trap ends the thread with the cause's status, nothing of its results still to come; in handler
mode the slot becomes TRAPPED for the firmware. Memory and every other slot are as before. -/
def Obligations.UnhandledTrapEndsThread : Prop :=
  ∀ (s : State) (t : Tid) (th : Thread) (cause : Nat) (tval : Word) (w : Bool),
    let u := takeTrap s t th cause tval w
    (th.handler = false → hasHandler s th.vi = false →
      getThr u t = some { th with cause := BitVec.ofNat 8 cause, st := .ending, endSt := trapStatus cause, pend := [] })
    ∧ (th.handler = true → getThr u t = some { th with cause := BitVec.ofNat 8 cause, st := .trapped })
    ∧ (th.handler = true ∨ hasHandler s th.vi = false →
        u = { s with threads := u.threads, cnts := u.cnts, trc := u.trc, hostMem := u.hostMem, hostHeld := u.hostHeld }
        ∧ ∀ t', t' ≠ t → getThr u t' = getThr s t')

/-- R118, R119: branches. A taken transfer goes to its target; one to a misaligned address traps with MISALIGN, `TVAL` the address.
R100, R101, R105: calls push the address of the following instruction, `ret` pops one and goes there. At DEPTH 8 a push wraps with
RSW, or traps with RS_OVERFLOW under `TCTL.RSO`; at DEPTH 0 a pop wraps with RSU, or traps with RS_UNDERFLOW. -/
def Obligations.BranchesCallsAndReturns : Prop :=
  ∀ (s s1 : State) (t : Tid) (th : Thread) (imm : Imm) (c : Cond) (a d : Reg), Issues s s1 t th { major := 1 } 0 →
    let x := rdG s1 th a
    let y := rdG s1 th d
    let target := th.pc + 8 * imm.signExtend 64
    let holds : Bool := match c with
      | .eq => decide (x = y) | .ne => decide (x ≠ y) | .lt => decide (x.toInt < y.toInt) | .ge => decide (y.toInt ≤ x.toInt)
      | .ltu => decide (x.toNat < y.toNat) | .geu => decide (y.toNat ≤ x.toNat)
    let go (p : Word) : Host.Outcome State Fault Refusal :=
      if p.toNat % 8 = 0 then .next (issued s1 t th th.vi 1 (.to p false) []) else .next (trapped s1 t th 3 p)
    exec (.b t imm) s = go target
    ∧ exec (.br t a) s = go x
    ∧ exec (.bcc t c a d imm) s = (if holds then go target else .next (issued s1 t th th.vi 1 .on []))
    ∧ (th.rsBusy = false → th.rspDepth ≤ 8 →
      let call (p : Word) (o : Host.Outcome State Fault Refusal) : Prop := p.toNat % 8 = 0 →
        if th.rspDepth = 8 ∧ th.rso then o = .next (trapped s1 t th 9 0)
        else ∃ th', o = .next (issued s1 t th' th.vi 1 (.to p true) (if th.rspDepth = 8 then [wrFlags 1 fRSW] else []))
          ∧ th' = { th with rs := th'.rs, rsp := th'.rsp }
          ∧ th'.rspTop = (th.rspTop + 1) % 8 ∧ th'.rspDepth = min 8 (th.rspDepth + 1)
          ∧ ∀ i : Fin 8, th'.rs[i] = if i.val = (th.rspTop + 1) % 8 then th.pc + 8 else th.rs[i]
      call (th.pc + 8 * imm.signExtend 64) (exec (.call t imm) s)
      ∧ call (rdG s1 th a) (exec (.callr t a) s)
      ∧ (∀ i : Fin 8, i.val = th.rspTop → th.rs[i].toNat % 8 = 0 →
          if th.rspDepth = 0 ∧ th.rso then exec (.ret t) s = .next (trapped s1 t th 0x0A 0)
          else ∃ th', exec (.ret t) s = .next (issued s1 t th' th.vi 1 (.to th.rs[i] false) (if th.rspDepth = 0 then [wrFlags 1 fRSU] else []))
            ∧ th' = { th with rsp := th'.rsp }
            ∧ th'.rspTop = (th.rspTop + 7) % 8 ∧ th'.rspDepth = th.rspDepth - 1))

/-- R90, R91, R95, R97: a `wait` whose counts are within its limits lets the thread go on, the results of the loads it meets in their
registers; another leaves the thread WAITING. `brep` starts a block or skips it, and `tend` leaves the slot ENDING. -/
def Obligations.WaitRepeatAndEnd : Prop :=
  ∀ (s s1 : State) (t : Tid) (th : Thread) (a b : BitVec 6) (g : Reg) (len : Imm), Issues s s1 t th { major := 1 } 0 →
    (waitHolds th a.toNat b.toNat = true → faultsAt th a.toNat b.toNat = false →
      ∃ u th', countsOnly s1 u
        ∧ exec (.wait t a b) s = .next (issued u t { th' with
            loads := th'.loads.drop (metLoads th a.toNat).length, stores := th'.stores.drop (metStores th b.toNat).length }
            th.vi 1 .on [])
        ∧ th' = applyOps u { th with st := .ready } (metLoads th a.toNat))
    ∧ (waitHolds th a.toNat b.toNat = false →
      ∃ u, countsOnly s1 u ∧ exec (.wait t a b) s = .next (putThr u t { th with st := .waiting a b }))
    ∧ (1 ≤ len.toNat → len.toNat ≤ 1024 → th.brcCount = 0 →
        exec (.brep t g len) s = if rdG s1 th g = 0 then .next (issued s1 t th th.vi 1 (.to (th.pc + 8 + 8 * len.signExtend 64) true) [])
          else .next (issued s1 t th th.vi 1 .on
            [wrS 1 3 (th.pc + 8), wrS 1 2 (at_ len.toNat 32 ||| (rdG s1 th g &&& 0xFFFFFFFF))]))
    ∧ (1 ≤ len.toNat → len.toNat ≤ 1024 → th.brcCount ≠ 0 → exec (.brep t g len) s = .next (trapped s1 t th 0x0C th.brs))
    ∧ ∃ u, countsOnly s1 u ∧ exec (.tend t) s = .next (putThr u t { th with st := .ending, endSt := 0, pend := [] })

/-- R76, R88, R91, R121, R122, R123: a load-class memory instruction joins the thread's outstanding loads with what it will access and
its destination; registers and memory are as before. A misaligned address traps with MISALIGN. Accesses that stay in the own device or
go to the host; those to another device send messages as well (R430). -/
def Obligations.LoadInstructionsJoinLoads : Prop :=
  ∀ (s s1 : State) (t : Tid) (th : Thread) (w : LdW) (d a b c : Reg) (imm : Imm) (f : VMem) (x : VIdx) (op : AmoOp) (dbl : Bool) (ea : EaReg),
    let A := rdG s1 th a + imm.signExtend 64
    let join (o : Host.Outcome State Fault Refusal) (major : Nat) (addr : Word) (n : Nat) (act : Act) (dest : Option Dest) : Prop :=
      if addr.toNat % n = 0 then staysHome s1 th.vi act → issues o s1 t (withLoad s1 th act dest) th.vi major .on []
      else o = .next (trapped s1 t th 3 addr)
    (Issues s s1 t th { major := 2, ld := true } 0 →
      join (exec (.ld t w d a imm) s) 2 A w.size (.ldScalar A w.size w.signed) (some ⟨.gen, d, 0xFF⟩)
      ∧ join (exec (.rspop t a imm) s) 2 A 8 (.rspop A) none
      ∧ (okAmo op false d c = true →
          join (exec (.amo t op dbl false d a b c) s) 2 (rdG s1 th a) (if dbl then 8 else 4)
            (.amo op (if dbl then 8 else 4) (rdG s1 th a) (rdG s1 th b) (rdG s1 th c) true) (some ⟨.gen, d, 0xFF⟩))
      ∧ (activeLanes th f.et f.km ≠ [] →
          join (exec (.vld t f) s) 2 (rdG s1 th f.a + f.imm.signExtend 64) (memLane f.et)
            (.ldLanes (memLane f.et) ((activeLanes th f.et f.km).map (fun k =>
              (memLane f.et * k, rdG s1 th f.a + f.imm.signExtend 64 + BitVec.ofNat 64 (memLane f.et * k)))))
            (some (destV th f.et f.vd f.km)))
      ∧ (let l := (activeLanes th x.et x.km).map (fun k =>
            (k, rdG s1 th x.a + BitVec.ofNat 64 (lane (8 * memLane x.et) (rdV s1 th x.vx) k)));
          (∀ p ∈ l, p.2.toNat % memLane x.et = 0) →
          staysHome s1 th.vi (.ldLanes (memLane x.et) (l.map (fun p => (memLane x.et * p.1, p.2)))) →
          issues (exec (.vldx t x) s) s1 t
            (withLoad s1 th (.ldLanes (memLane x.et) (l.map (fun p => (memLane x.et * p.1, p.2)))) (some (destV th x.et x.vd x.km))) th.vi 2 .on []))
    ∧ (Issues s s1 t th { major := 5, ld := true } 0 →
        join (exec (.eamerge t ea a) s) 5 (rdG s1 th a) 64 (.eamerge (rdG s1 th a) ea) none)
    ∧ (Issues s s1 t th { major := 7, ld := true } 0 →
        join (exec (.launch t d a) s) 7 (rdG s1 th a) 64 (.launch (rdG s1 th a)) (some ⟨.gen, d, 0xFF⟩))

/-- R76, R88, R101, R121, R122, R125: a store-class memory instruction joins the thread's outstanding stores with the bytes it will
write; memory is as before until it is performed. -/
def Obligations.StoreInstructionsJoinStores : Prop :=
  ∀ (s s1 : State) (t : Tid) (th : Thread) (w : StW) (d a b : Reg) (imm : Imm) (f : VMem) (x : VIdx) (op : AmoOp) (dbl : Bool) (ea : EaReg),
    let A := rdG s1 th a + imm.signExtend 64
    let join (o : Host.Outcome State Fault Refusal) (addr : Word) (n : Nat) (act : Act) (th0 : Thread) : Prop :=
      if addr.toNat % n = 0 then staysHome s1 th.vi act → issues o s1 t (withStore s1 th0 act) th.vi 2 .on []
      else o = .next (trapped s1 t th 3 addr)
    (Issues s s1 t th { major := 2, st := true } 0 →
      join (exec (.st t w d a imm) s) A w.size (.stLanes w.size [(A, toBytes w.size (rdG s1 th d).toNat)]) th
      ∧ (th.rsBusy = false → join (exec (.rspush t a imm) s) A 8
          (.stLanes 8 (wordLanes A (th.rs.toList.flatMap (fun e => toBytes 8 e.toNat) ++ toBytes 8 th.rsp.toNat))) { th with rsp := th.rsp &&& 0x700 })
      ∧ (op.code < 8 → join (exec (.amo t op dbl true 0 a b 0) s) (rdG s1 th a) (if dbl then 8 else 4)
          (.amo op (if dbl then 8 else 4) (rdG s1 th a) (rdG s1 th b) 0 false) th)
      ∧ (activeLanes th f.et f.km ≠ [] →
          join (exec (.vst t f) s) (rdG s1 th f.a + f.imm.signExtend 64) (memLane f.et)
            (.stLanes (memLane f.et) ((activeLanes th f.et f.km).map (fun k =>
              (rdG s1 th f.a + f.imm.signExtend 64 + BitVec.ofNat 64 (memLane f.et * k), laneOf (memLane f.et) (rdV s1 th f.vd) k)))) th)
      ∧ (let l := (activeLanes th x.et x.km).map (fun k =>
            (k, rdG s1 th x.a + BitVec.ofNat 64 (lane (8 * memLane x.et) (rdV s1 th x.vx) k)));
          let act := Act.stLanes (memLane x.et) (l.map (fun p => (p.2, laneOf (memLane x.et) (rdV s1 th x.vd) p.1)))
          (∀ p ∈ l, p.2.toNat % memLane x.et = 0) → staysHome s1 th.vi act →
          issues (exec (.vstx t x) s) s1 t (withStore s1 th act) th.vi 2 .on []))
    ∧ (Issues s s1 t th { major := 5, st := true } 0 → mergeOpen th ea = false → (rdG s1 th a).toNat % 64 = 0 →
        ∀ v, tget? s1.accs (accKey (accLaunch th) t.facet) = some (.held v) →
        staysHome s1 th.vi (.stLanes 8 (wordLanes (rdG s1 th a) (accBytes v[ea.toFin]))) →
        issues (exec (.easave t a ea) s) s1 t (withStore s1 th (.stLanes 8 (wordLanes (rdG s1 th a) (accBytes v[ea.toFin])))) th.vi 5 .on [])

/-- R120, R121, R122: Facet store accesses within the allocation have fixed latency: a load writes its register three slots later, a
store changes its bytes at once. An access with a byte outside traps with ACCESS, a misaligned one with MISALIGN. -/
def Obligations.FacetStoreAccesses : Prop :=
  ∀ (s s1 : State) (t : Tid) (th : Thread) (w : LdW) (k : StW) (d a : Reg) (imm : Imm) (f : VMem), Issues s s1 t th { major := 2 } 0 →
    let A := rdG s1 th a + imm.signExtend 64
    let B := rdG s1 th f.a + f.imm.signExtend 64
    let n := memLane f.et
    let act := activeLanes th f.et f.km
    (A.toNat % w.size = 0 → A.toNat + w.size ≤ fsSize s1 th → ∃ u, countsOnly s1 u ∧
        exec (.lds t w d a imm) s = .next (wroteG u t th 2 3 d
          (let v := ofBytes (fsBytes s1 t th A.toNat w.size)
           if w.signed then sextN (8 * w.size) v else BitVec.ofNat 64 v) 0))
    ∧ (A.toNat % k.size = 0 → A.toNat + k.size ≤ fsSize s1 th → ∃ u, countsOnly s1 u ∧
        exec (.sts t k d a imm) s
          = .next (issued (fsPut u t th A.toNat (toBytes k.size (rdG s1 th d).toNat)) t th th.vi 2 .on []))
    ∧ (B.toNat % n = 0 → (∀ i ∈ act, (B + BitVec.ofNat 64 (n * i)).toNat + n ≤ fsSize s1 th) → ∃ u v, countsOnly s1 u
        ∧ (∀ i ∈ act, lane (8 * n) v i = ofBytes (fsBytes s1 t th (B + BitVec.ofNat 64 (n * i)).toNat n))
        ∧ exec (.vlds t f) s = .next (issued u t th th.vi 2 .on [wrV 3 f.vd (laneBytes (8 * n) (128 / n) (rdM th f.km)) v]))
    ∧ (B.toNat % n = 0 → (∀ i ∈ act, (B + BitVec.ofNat 64 (n * i)).toNat + n ≤ fsSize s1 th) → ∃ u, countsOnly s1 u ∧
        exec (.vsts t f) s = .next (issued (act.foldl (fun z i => fsPut z t th (B + BitVec.ofNat 64 (n * i)).toNat (laneOf n (rdV s1 th f.vd) i)) u)
          t th th.vi 2 .on []))
    ∧ (A.toNat % w.size = 0 → fsSize s1 th < A.toNat + w.size → exec (.lds t w d a imm) s = .next (trapped s1 t th 4 A))
    ∧ (A.toNat % w.size ≠ 0 → exec (.lds t w d a imm) s = .next (trapped s1 t th 3 A))

/-- R129, R130, R134: one step of each string instruction within the allocation: pointers and count advance by the items done (latency
1), and a result register follows three slots later. `movs` and `fills` leave the bytes they copy or fill; with EXIT 0. -/
def Obligations.StringSteps : Prop :=
  ∀ (s s1 : State) (t : Tid) (th : Thread) (d a n v c : Reg), Issues s s1 t th { major := 3 } 0 →
    let D := rdG s1 th d
    let A := rdG s1 th a
    let N := rdG s1 th n
    let k := min 16 N.toNat
    let kw := BitVec.ofNat 64 k
    let inside (p : Word) (m : Nat) : Prop := m = 0 ∨ p.toNat + m ≤ fsSize s1 th
    (okDistinct [d, a, n] = true → inside A k → inside D k → 0 < k → ∃ u, countsOnly s1 u ∧
      exec (.movs t false false d a n) s = .next (issued (fsPut u t th D.toNat (fsBytes s1 t th A.toNat k)) t th th.vi 3 .on
        [wrG 1 d (D + kw), wrG 1 a (A + kw), wrG 1 n (N - kw)]))
    ∧ (okDistinct [d, n] = true → inside D k → 0 < k → ∃ u data, countsOnly s1 u ∧ data.length = k
        ∧ (∀ j, ∀ h : j < data.length, data[j] = ((rdG s1 th v) >>> (8 * ((D.toNat + j) % 8))).setWidth 8)
        ∧ exec (.fills t false d n v) s = .next (issued (fsPut u t th D.toNat data) t th th.vi 3 .on
          [wrG 1 d (D + kw), wrG 1 n (N - kw)]))
    ∧ (okDistinct [c, d, a, n] = true → inside D k → inside A k → ∃ j ≤ k,
        (∀ i < j, fsByte s1 t th (D.toNat + i) = fsByte s1 t th (A.toNat + i))
        ∧ (j < k → fsByte s1 t th (D.toNat + j) ≠ fsByte s1 t th (A.toNat + j))
        ∧ issues (exec (.cmps t false c d a n) s) s1 t th th.vi 3 .on
          [wrG 3 c (if j < k then BitVec.ofInt 64 ((fsByte s1 t th (D.toNat + j)).toNat - (fsByte s1 t th (A.toNat + j)).toNat : Int) else 0),
            wrG 1 d (D + BitVec.ofNat 64 j), wrG 1 a (A + BitVec.ofNat 64 j), wrG 1 n (N - BitVec.ofNat 64 j)])
    ∧ (okDistinct [c, d, n] = true → inside D k → ∃ j ≤ k,
        (∀ i < j, (fsByte s1 t th (D.toNat + i)).toNat ≠ (rdG s1 th v).toNat % 256)
        ∧ (j < k → (fsByte s1 t th (D.toNat + j)).toNat = (rdG s1 th v).toNat % 256)
        ∧ issues (exec (.scans t .eq false c d n v) s) s1 t th th.vi 3 .on
          [wrG 3 c (if j < k then D + BitVec.ofNat 64 j else BitVec.allOnes 64), wrG 1 d (D + BitVec.ofNat 64 j),
            wrG 1 n (N - BitVec.ofNat 64 j)])
    ∧ (okDistinct [d, a, n, c] = true → inside A k → inside (rdG s1 th v) 256 → inside D k → 0 < k → ∃ u, countsOnly s1 u ∧
        exec (.xlats t false false d a n v c) s = .next (issued
          (fsPut u t th D.toNat ((fsBytes s1 t th A.toNat k).map (fun b => fsByte s1 t th ((rdG s1 th v).toNat + b.toNat)))) t th th.vi 3 .on
          [wrG 3 c (rdG s1 th c), wrG 1 a (A + kw), wrG 1 d (D + kw), wrG 1 n (N - kw)]))
    ∧ (okDistinct [d, a, n] = true → inside A (min 8 N.toNat) →
        issues (exec (.rhash t false d a n v 0) s) s1 t th th.vi 3 .on
          [wrG 3 d ((fsBytes s1 t th A.toNat (min 8 N.toNat)).foldl (fun h b => h * rdG s1 th v + b.setWidth 64) D),
            wrG 1 a (A + BitVec.ofNat 64 (min 8 N.toNat)), wrG 1 n (N - BitVec.ofNat 64 (min 8 N.toNat))])
    ∧ (d ≠ 0 → bits (rdG s1 th c) 6 0 ≤ 64 → bits (rdG s1 th c) 14 8 ≤ 64 →
        inside (rdG s1 th a) (bits (rdG s1 th c) 6 0) → inside (rdG s1 th n) (bits (rdG s1 th c) 14 8) →
        issues (exec (.distsB t false d a n c) s) s1 t th th.vi 3 .on
          [wrG 6 d (let la := bits (rdG s1 th c) 6 0
                    let lb := bits (rdG s1 th c) 14 8
                    let K := bits (rdG s1 th c) 19 16
                    if la + K < lb ∨ lb + K < la then BitVec.allOnes 64
                    else BitVec.ofNat 64 (bandDist K (fsBytes s1 t th A.toNat la) (fsBytes s1 t th N.toNat lb)))])

/-- R78, R79, R140, R142, R151: integer vector instructions act lane by lane at the width of ET, and their result has latency 2 (4 for
products) under the write mask. V is set if an active lane overflows; with `TCTL.VT` 1 the instruction then traps with OVERFLOW. -/
def Obligations.VectorIntegerLanes : Prop :=
  ∀ (s s1 : State) (t : Tid) (th : Thread) (f : VOp) (g : VUn) (sub : Bool) (k : MinMax) (l : VLog) (sh : VShift),
    Issues s s1 t th { major := 4 } 0 → f.et.isInt = true → g.et.isInt = true →
    let w := f.et.width
    let A (i : Nat) : Nat := lane w (rdV s1 th f.va) i
    let B (i : Nat) : Nat := rdVB s1 th w f.vb i
    let G (i : Nat) : Nat := lane g.et.width (rdV s1 th g.va) i
    let each (o : Host.Outcome State Fault Refusal) (lat : Nat) (et : EType) (vd : VReg) (km : MReg) (r : Nat → Nat) (ov : Nat → Bool) : Prop :=
      let ovr := (List.range et.lanes).any (fun i => active (rdM th km) i && ov i)
      if ovr = true ∧ th.vt = true then o = .next (trapped s1 t th 7 0)
      else th.fpt = 0 → issues o s1 t th th.vi 4 .on
        [wrV lat vd (laneBytes et.width et.lanes (rdM th km)) (pack et.width ((List.range et.lanes).map r)) (if ovr then fV else 0)]
    let sum (i : Nat) : Int := if sub then sval w (A i) - sval w (B i) else sval w (A i) + sval w (B i)
    let never : Nat → Bool := fun _ => false
    each (exec (.vaddI t sub f) s) 2 f.et f.vd f.km (fun i => if sub then (A i + 2 ^ w - B i) % 2 ^ w else (A i + B i) % 2 ^ w) never
    ∧ each (exec (.vadds t sub f) s) 2 f.et f.vd f.km
        (fun i => uval w (if sum i < -(2 ^ (w - 1)) then -(2 ^ (w - 1)) else if 2 ^ (w - 1) ≤ sum i then 2 ^ (w - 1) - 1 else sum i))
        (fun i => decide (sum i < -(2 ^ (w - 1)) ∨ 2 ^ (w - 1) ≤ sum i))
    ∧ each (exec (.vminI t k f) s) 2 f.et f.vd f.km (fun i => minMax k w (A i) (B i)) never
    ∧ each (exec (.vlogic t l f) s) 2 f.et f.vd f.km (fun i => match l with
        | .and => A i &&& B i | .or => A i ||| B i | .xor => A i ^^^ B i | .andn => A i &&& (2 ^ w - 1 - B i)) never
    ∧ each (exec (.vshift t sh f) s) 2 f.et f.vd f.km (fun i => laneShift sh w (A i) (B i)) never
    ∧ each (exec (.vmulI t f) s) 4 f.et f.vd f.km (fun i => A i * B i % 2 ^ w) never
    ∧ each (exec (.vnegI t g) s) 2 g.et g.vd g.km (fun i => (2 ^ g.et.width - G i) % 2 ^ g.et.width)
        (fun i => decide (G i = 2 ^ (g.et.width - 1)))

/-- R138, R140, R142: compares, selects, moves and permutes. A compare writes one mask bit a lane, ANDed with the write mask, and clears
the bits above the lanes. R77, R142: `mset` writes one half of a mask register, and `mpop` counts the mask bits below the lane count. -/
def Obligations.VectorMovesComparesAndMasks : Prop :=
  (∀ (s s1 : State) (t : Tid) (th : Thread) (k : VCmp) (et : EType) (vd va vb : VReg) (b : VB) (md km : MReg) (g : Reg) (x : BitVec 7) (f : VUn),
      Issues s s1 t th { major := 4 } 0 → th.fpt = 0 → et.isMx = false → f.et.isMx = false →
      let w := et.width
      let n := et.lanes
      let mask := laneBytes w n (rdM th km)
      let C (i : Nat) : Bool × Word := laneCmp k et (lane w (rdV s1 th va) i) (rdVB s1 th w b i)
      (okVcmp k et = true → issues (exec (.vcmp t k et md va b km) s) s1 t th th.vi 4 .on
          [wrM 2 md 0xFFFF (maskOf ((List.range n).map (fun i => (C i).1 && active (rdM th km) i)))
            (laneFlags (rdM th km) ((List.range n).map (fun i => (0, (C i).2))))])
      ∧ issues (exec (.vsel t et vd va vb km) s) s1 t th th.vi 4 .on
          [wrV 2 vd (BitVec.allOnes 128) (pack w ((List.range n).map (fun i =>
            if active (rdM th km) i then lane w (rdV s1 th va) i else lane w (rdV s1 th vb) i)))]
      ∧ issues (exec (.vmov t f) s) s1 t th th.vi 4 .on
          [wrV 2 f.vd (laneBytes f.et.width f.et.lanes (rdM th f.km))
            (pack f.et.width ((List.range f.et.lanes).map (fun i => lane f.et.width (rdV s1 th f.va) i)))]
      ∧ issues (exec (.vbcast t et vd g km) s) s1 t th th.vi 4 .on
          [wrV 3 vd mask (pack w ((List.range n).map (fun _ => (rdG s1 th g).toNat % 2 ^ w)))]
      ∧ issues (exec (.vperm t et vd va vb km) s) s1 t th th.vi 4 .on
          [wrV 3 vd mask (pack w ((List.range n).map (fun i => lane w (rdV s1 th va) (lane w (rdV s1 th vb) i % n))))]
      ∧ (okLane et x = true →
          issues (exec (.vins t et vd g x km) s) s1 t th th.vi 4 .on
            [wrV 3 vd (laneBytes w n (rdM th km &&& BitVec.ofNat 128 (2 ^ x.toNat)))
              (BitVec.ofNat 1024 (((rdG s1 th g).toNat % 2 ^ w) <<< (w * x.toNat)))]
          ∧ issues (exec (.vext t et g va x) s) s1 t th th.vi 4 .on [wrG 3 g (BitVec.ofNat 64 (lane w (rdV s1 th va) x.toNat))]))
  ∧ ∀ (s s1 : State) (t : Tid) (th : Thread) (k : MaskOp) (md a b : MReg) (x : BitVec 7) (g : Reg) (et : EType),
    Issues s s1 t th { major := 4 } 0 →
    (okMask k b = true → issues (exec (.maskLogic t k md a b) s) s1 t th th.vi 4 .on
      [wrM 1 md 0xFFFF (match k with
        | .and => rdM th a &&& rdM th b | .or => rdM th a ||| rdM th b | .xor => rdM th a ^^^ rdM th b
        | .andn => rdM th a &&& ~~~(rdM th b) | .not => ~~~(rdM th a))])
    ∧ (okHalf x = true → issues (exec (.mset t md x g) s) s1 t th th.vi 4 .on
      [wrM 1 md (BitVec.ofNat 128 (0xFF <<< (8 * x.toNat))) ((rdG s1 th g).setWidth 128 <<< (64 * x.toNat))])
    ∧ issues (exec (.mpop t et g a) s) s1 t th th.vi 4 .on
      [wrG 2 g (BitVec.ofNat 64 ((List.range (min 128 et.lanes)).filter (fun i => (rdM th a).getLsbD i)).length)]

/-- R141, R142, R157, R159, R160: floating-point vector arithmetic. Each lane is one rounded operation, and the flags are the union over
active lanes; an exception enabled in `TCTL.FPT` traps with FP_EXCEPTION and writes nothing, and otherwise `TSTAT` gets the flags with
the result. -/
def Obligations.VectorFloatingPointLanes : Prop :=
  ∀ (s s1 : State) (t : Tid) (th : Thread) (f : VOp) (u : VUn) (vc : VReg) (k : VArith) (mx : Bool),
    Issues s s1 t th { major := 4 } 0 →
    let w := f.et.width
    let F := f.et.fmt
    let A (i : Nat) : Nat := lane w (rdV s1 th f.va) i
    let B (i : Nat) : Nat := rdVB s1 th w f.vb i
    let C (i : Nat) : Nat := lane w (rdV s1 th vc) i
    let each (o : Host.Outcome State Fault Refusal) (r : Nat → Nat × Word) : Prop :=
      let l := (List.range f.et.lanes).map r
      let fl := laneFlags (rdM th f.km) l
      (fl &&& fV = 0 ∨ th.vt = false) →
      if fl &&& th.fpt = 0 then issues o s1 t th th.vi 4 .on
          [wrV 4 f.vd (laneBytes w f.et.lanes (rdM th f.km)) (pack w (l.map (·.1))) fl]
      else o = .next (trapped s1 t th 8 (fl &&& 0x1F00))
    (f.et.isArith = true →
      each (exec (.vaddF t k f) s) (fun i => match k with
        | .add => fadd F th.rm (A i) (B i) | .sub => fsub F th.rm (A i) (B i) | .mul => fmul F th.rm (A i) (B i))
      ∧ each (exec (.vfma t f vc) s) (fun i => ffma F th.rm (A i) (B i) (C i))
      ∧ each (exec (.vminF t mx f) s) (fun i => fminmax F mx (A i) (B i)))
    ∧ (u.et.isArith = true → th.fpt = 0 → issues (exec (.vnegF t mx u) s) s1 t th th.vi 4 .on
          [wrV 4 u.vd (laneBytes u.et.width u.et.lanes (rdM th u.km)) (pack u.et.width ((List.range u.et.lanes).map (fun i =>
            if mx then lane u.et.width (rdV s1 th u.va) i % 2 ^ (u.et.width - 1)
            else fnegate u.et.fmt (lane u.et.width (rdV s1 th u.va) i))))])

/-- R138, R143, R144, R145, R161: multiply-accumulate, conversions and reductions. `vmac` writes lanes of its wider type, i8 products
summed modulo 2^32; a conversion writes the destination elements its part names, and a scale byte a block beside an MX destination; the
integer sum of the active lanes is exact modulo 2^64, and the floating-point sum is the fixed tree. -/
def Obligations.VectorAccumulateConvertReduce : Prop :=
  ∀ (s s1 : State) (t : Tid) (th : Thread) (f : VOp) (c : VCvt) (uns : Bool) (et : EType) (g : Reg) (va : VReg) (km : MReg) (mm : MinMax),
    Issues s s1 t th { major := 4 } 0 → th.fpt = 0 → th.vt = false →
    (okVmac f.et = true → ∃ v fl,
      issues (exec (.vmac t f) s) s1 t th th.vi 4 .on
        [wrV 4 f.vd (laneBytes (macShape f.et).1.width (macShape f.et).2.1 (if f.et.isMx then BitVec.allOnes 128 else rdM th f.km)) v fl]
      ∧ (f.et = .i8 → ∀ j < 32, lane 32 v j = (lane 32 (rdV s1 th f.vd) j + (uval 32 ((List.range 4).map (fun i =>
          sval 8 (lane 8 (rdV s1 th f.va) (4 * j + i)) * sval 8 (rdVB s1 th 8 f.vb (4 * j + i)))).sum)) % 2 ^ 32))
    ∧ (okCvt c = true → ∃ v en fl rest,
        issues (if uns then exec (.vcvtu t c) s else exec (.vcvt t c) s) s1 t th th.vi 4 .on (wrV 4 c.vd en v fl :: rest)
        ∧ (c.et.isMx = true → ∃ me ms, rest = [wrM 4 c.md me ms])
        ∧ (c.et.isMx = false → rest = [] ∧ ∀ i < (cvtRange c).2.2,
            lane c.et.width v ((cvtRange c).2.1 + i)
              = (cvtOne th c uns (lane c.src.width (rdV s1 th c.va) ((cvtRange c).1 + i)) ((cvtRange c).1 + i)).1))
    ∧ (et.isInt = true →
        issues (exec (.vredAdd t et g va km) s) s1 t th th.vi 4 .on
          [wrG 5 g (BitVec.ofInt 64 ((List.range et.lanes).map (fun i =>
            if active (rdM th km) i then sval et.width (lane et.width (rdV s1 th va) i) else (0 : Int))).sum)]
        ∧ ∃ v, issues (exec (.vredMinmax t mm et g va km) s) s1 t th th.vi 4 .on [wrG 5 g v]
          ∧ ((∃ i < et.lanes, active (rdM th km) i = true) → ∃ i < et.lanes, active (rdM th km) i = true
              ∧ v = if mm = .min ∨ mm = .max then BitVec.ofInt 64 (sval et.width (lane et.width (rdV s1 th va) i))
                  else BitVec.ofNat 64 (lane et.width (rdV s1 th va) i))
          ∧ (mm = .maxu → ∀ i < et.lanes, active (rdM th km) i → lane et.width (rdV s1 th va) i ≤ v.toNat)
          ∧ (mm = .minu → ∀ i < et.lanes, active (rdM th km) i → v.toNat ≤ lane et.width (rdV s1 th va) i)
          ∧ (mm = .max → ∀ i < et.lanes, active (rdM th km) i → sval et.width (lane et.width (rdV s1 th va) i) ≤ v.toInt)
          ∧ (mm = .min → ∀ i < et.lanes, active (rdM th km) i → v.toInt ≤ sval et.width (lane et.width (rdV s1 th va) i)))
    ∧ (okRed et = true → et.isInt = false →
        let r := treeSum et.fmt th.rm 7 ((List.range et.lanes).map (fun i =>
          if active (rdM th km) i then lane et.width (rdV s1 th va) i else 0)) 0
        issues (exec (.vredAdd t et g va km) s) s1 t th th.vi 4 .on [wrG 6 g (BitVec.ofNat 64 r.1) r.2])

/-- R146, R147, R165, R166, R168, R173, R174: exact accumulator instructions on a set that is in the fold unit. A fold adds exact terms
to one accumulator and leaves the others; `eaclr` zeroes it; `earound` rounds it once and `eainfo` reads its status, both with latency 8. -/
def Obligations.AccumulatorInstructions : Prop :=
  ∀ (s s1 : State) (t : Tid) (th : Thread) (et : EType) (ea : EaReg) (va vb : VReg) (km : MReg) (g : Reg) (v : Vector (BitVec 4352) 8),
    Issues s s1 t th { major := 5 } 0 → tget? s1.accs (accKey (accLaunch th) t.facet) = some (.held v) →
    let set (a : BitVec 4352) (o : Host.Outcome State Fault Refusal) : Prop := ∃ u, countsOnly s1 u ∧
      o = .next (issued { u with accs := tset u.accs (accKey (accLaunch th) t.facet) (.held (v.set ea.toFin a)) } t th th.vi 5 .on [])
    let w := et.width
    let ks := (List.range et.lanes).filter (fun k => et.isMx || active (rdM th km) k)
    (okFold et = true →
      set (ks.foldl (fun a k => accFold a (.val (srcVal th et km 0 (lane w (rdV s1 th va) k) k))) v[ea.toFin]) (exec (.eaadd t et ea va km) s)
      ∧ set (ks.foldl (fun a k => accFold a (prodTerm (srcVal th et km 0 (lane w (rdV s1 th va) k) k)
          (srcVal th et km 8 (lane w (rdV s1 th vb) k) k))) v[ea.toFin]) (exec (.eamac t et ea va vb km) s))
    ∧ (mergeOpen th ea = false →
      set 0 (exec (.eaclr t ea) s)
      ∧ issues (exec (.eainfo t g ea) s) s1 t th th.vi 5 .on [wrG 8 g (accInfo v[ea.toFin])]
      ∧ (okRound et = true → th.fpt = 0 → th.vt = false →
          let r := if et = .i64 then accRoundI th.rm v[ea.toFin] else accRoundF et.fmt th.rm v[ea.toFin]
          issues (exec (.earound t et g ea) s) s1 t th th.vi 5 .on [wrG 8 g (BitVec.ofNat 64 r.1) r.2]))

/-- R148, R149, R237: a sync instruction issues as a load-class operation that carries its instruction word, handle and operand to the
object's home; its answer, and every effect on the object, comes there. -/
def Obligations.SyncInstructionsIssue : Prop :=
  ∀ (s s1 : State) (t : Tid) (th : Thread) (d a b : Reg) (scope : Imm), Issues s s1 t th { major := 6, ld := true, sync := true } 0 →
    let go (o : Host.Outcome State Fault Refusal) (word h x : Word) : Prop :=
      issues o s1 t (addLoad th (.sync word h x) (some ⟨.gen, d, 0xFF⟩)) th.vi 6 .on []
    let H := rdG s1 th a
    let X := rdG s1 th b
    go (exec (.sbar t d a) s) (encT 0x38 1 d a 0) H 0
    ∧ go (exec (.semp t d a b) s) (encT 0x39 0 d a b) H X
    ∧ go (exec (.semv t d a b) s) (encT 0x39 1 d a b) H X
    ∧ go (exec (.semt t d a b) s) (encT 0x39 2 d a b) H X
    ∧ go (exec (.ecadd t d a b) s) (encT 0x3A 0 d a b) H X
    ∧ go (exec (.ecwait t d a b) s) (encT 0x3A 1 d a b) H X
    ∧ go (exec (.ecread t d a) s) (encT 0x3A 2 d a 0) H 0
    ∧ go (exec (.lkacq t d a) s) (encT 0x3B 0 d a 0) H 0
    ∧ go (exec (.lkrel t d a) s) (encT 0x3B 1 d a 0) H 0
    ∧ go (exec (.lktry t d a) s) (encT 0x3B 2 d a 0) H 0
    ∧ (scope.toNat ≤ 1 → th.handler = false → go (exec (.ubar t d scope) s) (encI 0x38 0 d 0 scope) (scope.setWidth 64) 0)
    ∧ (1 < scope.toNat → exec (.ubar t d scope) s = .next (trapped s1 t th 1 (encI 0x38 0 d 0 scope)))

/-- R80, R102, R104, R115, R150, R282: system instructions. `mfs` reads a special register, `mts` writes one two slots later, `brk` and
`hcall` trap once issued, and those of a higher profile join the thread's operations. A reserved encoding traps with ILLEGAL, its
`TVAL` the word; an instruction above the thread's profile traps with PRIVILEGE. -/
def Obligations.SystemInstructions : Prop :=
  ∀ (s s1 : State) (t : Tid) (th : Thread) (d a : Reg) (n imm : Imm) (word : Word),
    (Issues s s1 t th { major := 7 } 0 → n.toNat ≤ 8 →
      exec (.mfs t d n) s = .next (wroteG s1 t th 7 1 d (match n.toNat with
        | 0 => th.tctl | 1 => th.tstat | 2 => th.brc | 3 => th.brs | 4 => BitVec.ofNat 64 th.lcnt | 5 => BitVec.ofNat 64 th.scnt
        | 6 => if th.rsBusy then freeBits s1 64 4001 else th.rsp | 7 => th.pc | _ => s1.devTime) 0)
      ∧ exec (.mts t n a) s = .next (issued s1 t th th.vi 7 .on [wrS 2 (n.setWidth 6) (rdG s1 th a)]))
    ∧ (Issues s s1 t th { major := 7 } 0 →
      exec (.nop t) s = .next (issued s1 t th th.vi 7 .on [])
      ∧ exec (.brk t imm) s = .next (trapped (issued s1 t th th.vi 7 .on []) t (advanceSlot (goNext th .on) []) 0x0D (imm.signExtend 64))
      ∧ exec (.hcall t imm) s = .next (trapped (issued s1 t th th.vi 7 .on []) t (advanceSlot (goNext th .on) []) 0x0E (imm.signExtend 64))
      ∧ exec (.illegalEncoding t word) s = .next (trapped s1 t th 1 word))
    ∧ (Issues s s1 t th { major := 7, st := true } 1 → (rdG s1 th a).toNat % 64 = 0 →
      exec (.tresume t a) s = .next (issued s1 t (addStore th (.tresume (rdG s1 th a))) th.vi 7 .on []))
    ∧ (Issues s s1 t th { major := 7, st := true } 1 →
      exec (.tendOther t a d) s = .next (issued s1 t (addStore th (.tendOther (rdG s1 th a) ((rdG s1 th d).setWidth 8))) th.vi 7 .on []))
    ∧ (Issues s s1 t th { major := 7, st := true } 2 →
      exec (.syswr t a d) s = .next (issued s1 t (addStore th (.syswr (rdG s1 th a) (rdG s1 th d))) th.vi 7 .on [])
      ∧ exec (.evpost t a d) s = .next (issued s1 t (addStore th (.evpost ((rdG s1 th a).setWidth 8) (rdG s1 th d))) th.vi 7 .on []))
    ∧ (Issues s s1 t th { major := 7, ld := true } 2 →
      exec (.sysrd t d a) s = .next (issued s1 t (addLoad th (.sysrd (rdG s1 th a)) (some ⟨.gen, d, 0xFF⟩)) th.vi 7 .on []))
    ∧ (Issues s s1 t th { major := 7, ld := true } 1 → th.evTaken = none →
      th.loads.all (fun o => match o.act with | .evwait _ => o.done | _ => true) = true →
      exec (.evwait t d) s = .next (issued
        (modInst s1 th.vi (fun i => { i with evq := i.evq ++ [(Tid.key t, th.nextOp)] })) t
        (addLoad th (.evwait (encI 0x3D 2 d 0 0)) (some ⟨.gen, d, 0xFF⟩)) th.vi 7 .on []))
    ∧ (∀ p, Issues s s1 t th { major := 7, st := true } p → th.priv < 2 →
      exec (.syswr t a d) s = .next (trapped s1 t th 2 (encI 0x3E 1 d a 0)))

/-- R88, R89, R92, R121, R124: outstanding operations complete. A memory operation that may be performed is, once: it keeps its result or
fault, and it is done unless a held or mirrored part keeps it open. A scalar load of clean bytes of the own device has them, sign- or
zero-extended, and leaves all else; a scalar store to a page that nothing guards leaves its bytes there and every other byte as before.
`sysrd`, `evpost`, `tendOther` and `tresume` of a higher profile act at their completion. -/
def Obligations.OperationsComplete : Prop :=
  ∀ (s : State) (t : Tid) (th : Thread) (op : Nat) (o : Op) (status : BitVec 8) (data : List Byte),
    let load := th.loads.find? (fun x => x.id == op && !x.done) = some o
    let store := th.stores.find? (fun x => x.id == op && !x.done) = some o
    let ran (ext : List Byte) : State :=
      let p := performAct s t th o status (if o.got = [] then ext else gotBytes o)
      recordOp p.1 t { o with done := !p.2.wait, perf := true, res := p.2.res, fault := p.2.fault }
    (MayPerform s t th o → status ≠ 0x0A →
      (load → exec (.loadComplete t op status data) s = .next (settle (ran data))
        ∧ ∀ a n sg pa m, o.act = .ldScalar a n sg → translate s th.vi a n .rd = .dev pa m → cleanAt s pa n →
          let v := ofBytes (s.mem.bytes pa n)
          exec (.loadComplete t op status data) s = .next (settle (putThr s t (setOp th { o with
            done := true, perf := true, fault := none, res := if sg then (sextN (8 * n) v).setWidth 1024 else BitVec.ofNat 1024 v }))))
      ∧ (store → exec (.storeComplete t op status) s = .next (settle (ran []))
        ∧ ∀ w a d pa, o.act = .stLanes w [(a, d)] → d.length ≤ 8 → pa % 64 + d.length ≤ 64 → translate s th.vi a d.length .wr = .dev pa none →
          cleanAt s pa d.length → guarded s (pageOf pa) = false → writeOpen s t o.id = false → s.mem.wf = true →
          ∃ v, exec (.storeComplete t op status) s = .next (settle v)
            ∧ v = { s with
                mem := v.mem, threads := (putThr s t (setOp th { o with done := true, perf := true, res := 0, fault := none })).threads }
            ∧ v.mem.bytes pa d.length = d ∧ ∀ x, x < pa ∨ pa + d.length ≤ x → v.mem.byte x = s.mem.byte x))
    ∧ (getThr s t = some th → memServes s = true →
      (∀ a, load → o.act = .sysrd a →
        let r := stwRead s (portPf (stwCoreOf t / 4 % 2)) (stwCoreOf t) a
        exec (.loadComplete t op status data) s = .next (settle (opDone r.1 t o.id (r.2.setWidth 1024))))
      ∧ (∀ vi v, store → o.act = .evpost vi v →
        exec (.storeComplete t op status) s = .next (settle (postEvent (stDone s t o.id) vi ⟨6, #v[v, 0, 0, 0, 0]⟩)))
      ∧ (∀ a, store → o.act = .tresume a →
        exec (.storeComplete t op status) s = .next (settle (doTresume (stDone s t o.id) th.vi a)))
      ∧ (∀ a b, store → o.act = .tendOther a b →
        exec (.storeComplete t op status) s = .next (settle (doTendOther (stDone s t o.id) th.vi a b))))

/-- R95, R109, R67, R276, R277: a thread's slot. A drained ENDING handler thread leaves its slot with its locks abandoned and its events
taken; a saved handler thread's record goes to its instance's spill area and the slot empties; a saved thread of an ACTIVE instance, or a
saved handler thread of an IDLE one, is placed at the Facet its launch or its handlers allow; and HANDLER_MODE_TRAP ends every handler
thread and leaves the handlers FAILED with the cause and index of the trapped one. -/
def Obligations.ThreadSlotEvents : Prop :=
  (∀ (s : State) (t : Tid) (th : Thread), getThr s t = some th → th.st = .ending → th.lcnt = 0 → th.scnt = 0 →
    exec (.threadDrained (.here t)) s = .next (settle (emptySlot s t th)))
  ∧ (∀ (s : State) (t : Tid) (th : Thread) (loc : RecLoc), getThr s t = some th → th.st = .saving → savable th = true →
      spillPick s th.vi t.facet = some loc → th.reason ≠ 3 →
      ∃ w x, exec (.saveComplete t) s = .next (settle (if th.handler then w else leaveFacet w th.launch t.facet))
        ∧ w.threads = tdel s.threads (Tid.key t) ∧ x ∈ w.saved
        ∧ x.vi = th.vi ∧ x.handler = th.handler ∧ x.launch = th.launch ∧ x.index = th.index ∧ x.loc = loc ∧ x.facet = t.facet)
  ∧ (∀ (s : State) (x : Saved) (w : SavedId) (l : Launch) (f : BitVec 10),
      s.saved.find? (fun x => x.vi == w.vi && x.handler == w.handler && x.launch == w.launch && x.index == w.index) = some x →
      x.halted = false →
      ((getInst s x.vi).st = 2 ∨ (getInst s x.vi).st = 1 → x.handler = true → handlerPosition s x.vi = some f →
        exec (.threadResume w) s = .next (settle (handlerMoved (placeSaved s x f) x.vi f)))
      ∧ ((getInst s x.vi).st = 2 → x.handler = false → getLaunch s x.launch = some l → stillLeaving s x = false → positionFor s l = some f →
        s.saved.any (fun y => !y.handler && y.launch == x.launch && !y.halted && decide (y.index.toNat < x.index.toNat)) = false →
        exec (.threadResume w) s = .next (settle (mergeWaiting (placeSaved (modLaunch s x.launch (fun l => { l with
          stores := if l.d.storeKib = 0 ∨ l.stores.contains f.toNat then l.stores else l.stores ++ [f.toNat] })) x f) x.launch))))
  ∧ (∀ (s : State) (vi : Vi) (p : Nat × Thread),
      s.threads.find? (fun p => p.2.vi == vi && p.2.handler && p.2.st == .trapped) = some p → slowUp s (p.1 / 64 / 256) = true →
      exec (.handlerModeTrap vi) s = .next (settle (endAllTrapped
        (modInst (endHandlers s vi) vi (fun i => { i with hdlSt := 2, hdlCause := p.2.cause, hdlThread := p.2.index.setWidth 8 })) vi)))

/-- R62, R272, R619: a launch descriptor at the head of a LAUNCH queue leaves the queue in its instance's turn; one that passes the checks
becomes a launch of the instance, and one that does not is answered with the first failing check's STATUS and DETAIL in its COMPQ. A
launch whose target is open, whose gate is met and whose threads, stores and barriers fit is admitted in its instance's turn and its
threads start. -/
def Obligations.LaunchesTakenAndAdmitted : Prop :=
  (∀ (s s1 : State) (vi : Vi) (q : BitVec 4) (b : List Byte) (r : List (List Byte)), HeadReady s s1 vi q.toNat 1 b r →
    let u := headTaken s1 vi q.toNat r
    let seq := (getSq s vi q.toNat).seq
    let c := launchCheck u vi (parseDesc b)
    (c.1 = 0 → exec (.launchTake vi q) s = .next (acceptLaunch u vi (parseDesc b) (some q) seq))
    ∧ (c.1 ≠ 0 → compqOk u vi (parseDesc b) = true →
      exec (.launchTake vi q) s = .next (complete (sqUntake u vi q.toNat) vi (parseDesc b).compq.toNat ⟨c.1, q.setWidth 16, c.2, seq, 0, 0⟩)))
  ∧ (∀ (s s1 : State) (num : Nat) (l : Launch), getLaunch s num = some l → admissible s l = true →
      roundTake s 5 ((s.launches.filter (admissible s)).map (fun x => x.vi.toNat)) l.vi = some s1 →
      l.d.subbar = false →
      let cs := launchCounts s1 l.vi l.d
      let here := cs.filter (fun c => isLocal s1 c.1 && decide (c.2.1 > 0))
      let w := modLaunch s1 l.num (fun l' => { l' with
        admitted := true, counts := cs, subs := l.subs, stores := if l'.d.storeKib = 0 then [] else here.map (fun c => (facetOfUd c.1).toNat) })
      exec (.launchAdmit num) s = .next (startAll
        (if isComp l.d.target = true ∧ (compEntry w (compNum l.d.target)).st = 1 then setCompSt w (compNum l.d.target) 2 else w)
        l cs 0 0))

/-- R42, R44, R47-R52: commands of the composite manager. With no command before it, CREATE of `COUNT` local members that pass the checks
fills a free entry with its next generation and names the new composite in `CMP_RESULT`; ADD appends the members; REMOVE deletes the
listed ones and reshapes; DESTROY frees an idle entry that keeps only its generation; READ copies the members to the member buffer and
sets `RCOUNT`; EXPORT sets or clears the grant. Each is complete with OK in `CMP_STAT`. -/
def Obligations.CompositeCommands : Prop :=
  ∀ (s : State) (fn : Fn) (c : CmpArgs), CmpIdle s fn c →
    let vi := actor fn c.vi
    let n := c.number.toNat
    let ms := namedMembers s fn c
    let e := tget s.comps n {}
    let k := cmpStatReg fn
    let setEntry (m : Nat) (x : Composite) : State := { s with comps := tset s.comps m x }
    let lockOk := (compEntry s n).lock = true → isPf fn = true
    let f := freeComp s
    let g := nextGen (tget s.comps f {}).gen
    let new : Composite := { st := 1, gen := g, owner := vi, lock := isPf fn && c.lock, members := ms }
    let most := bits (rget s (viReg vi 0x38)) 15 0
    let grant := if c.grantEn then some (BitVec.ofNat 8 (bits (rget s (cmpArgReg fn)) 23 16), BitVec.ofNat 16 (bits (rget s (cmpArgReg fn)) 15 0))
      else none
    (GoodMembers s fn c 0 (at_ 1 63 ||| at_ g.toNat 48 ||| BitVec.ofNat 64 f) → compsFree s ≠ 0 → (most ≠ 0 → compsOwned s vi < most) →
      (structCheck (setEntry f new) f).1 = 0 →
      answers (exec (.cmpCreate fn c) s) (setEntry f new) [cmpCmdReg fn, cmpResultReg fn] k 0 0
      ∧ ∃ u, exec (.cmpCreate fn c) s = .next u ∧ rget u (cmpResultReg fn) = compUd (setEntry f new) f)
    ∧ (ownsEntry s fn c → lockOk → GoodMembers s fn c (placedCount (compEntry s n).members) (compUd s n) →
      (structCheck (setMembers s n (e.members ++ ms)) n).1 = 0 →
      answers (exec (.cmpAdd fn c) s) (setMembers s n (e.members ++ ms)) [cmpCmdReg fn] k 0 0)
    ∧ (ownsEntry s fn c → lockOk → (compEntry s n).st = 1 → hasParent s n = false → (compEntry s n).imports = [] →
      answers (exec (.cmpDestroy fn c) s) (setEntry n { gen := (compEntry s n).gen }) [cmpCmdReg fn] k 0 0)
    ∧ (ownsEntry s fn c → (compEntry s n).imports = [] →
      answers (exec (.cmpExport fn c) s) (setEntry n { e with exported := grant }) [cmpCmdReg fn] k 0 0)
    ∧ (n ≠ 0 → (compEntry s n).st ≠ 0 → (compEntry s n).owner = vi →
      ∃ u, exec (.cmpRead fn c) s = .next u ∧ u = { s with regs := u.regs } ∧ reports u k 0 0
        ∧ bits (rget u k) 40 32 = ((compEntry s n).members.take 256).length
        ∧ ∀ (i : Nat) (m : Member), ((compEntry s n).members.take 256)[i]? = some m →
          rget u (memLoReg fn i) = m.ud ∧ rget u (memHiReg fn i) = (at_ (b2n m.remote) 16 ||| m.home.setWidth 64))
    ∧ (ownsEntry s fn c → lockOk → ms.all (names e.members) = true →
      ∃ q j, q = { s with regs := q.regs, cmpJobs := [j] }
        ∧ exec (.cmpRemove fn c) s = .next (settle (statDone
          { (reshape (setMembers q n (e.members.filter (fun m => !names ms m))) vi).1 with cmpJobs := [] } k (0, 0))))

/-- R49, R53-R58, R59, R70: a unit RESET of a physical unit is started with the acting instance's launches and handler threads that meet the
unit aborted, BUSY meanwhile, and UNIT_RESET_COMPLETE ends it with OK, a composite's entry IDLE or RUNNING again; a remote member's
confirmation is taken from the waiting command's list, a refused one ends the command with CONFIRM_FAILED, and a home adds an importing
device to its entry; reshaping that is complete returns the composite from RESHAPING; and a read of `UNT_CNTVAL`, whole or a half, answers
the closure sum of the selected counter. -/
def Obligations.UnitsAndConfirmations : Prop :=
  ∀ (s : State) (fn : Fn),
    (∀ (c : CmpArgs), CmpIdle s fn c →
      let vi := actor fn c.vi
      let ud := rget s (cmpArgReg fn)
      isComp ud = false → vi ≠ 0 → vi ≠ 128 → (resolveDeep s ud 17).1 = 0 →
      ∃ q j, q = { s with regs := q.regs, cmpJobs := [j] } ∧ j.op = .reset ∧ j.arg = ud ∧ j.vi = vi ∧ j.started = false
        ∧ bits (rget q (cmpStatReg fn)) 0 0 = 1
        ∧ exec (.cmpReset fn c) s
          = .next (settle { (resetOn q vi (physLeaves q ud 18)).1 with cmpJobs := [{ j with started := true }] }))
    ∧ (∀ (j : CmpJob), s.cmpJobs = [j] → j.started = true → Settled s →
      (j.op = .reset →
        let n := compNum j.arg
        answers (exec .unitResetComplete s)
          { (if isComp j.arg = true ∧ (resolveUd s j.arg).1 = 0 ∧ (compEntry s n).st = 4
              then setCompSt s n (if launchOn s n then 2 else 1) else s) with cmpJobs := [] } [] (cmpStatReg j.fn) 0 0)
      ∧ (∀ home ud leaves level, (home, ud) ∈ j.unconf →
        answers (exec (.compositeConfirm (.answer home ud false leaves level)) s) { s with cmpJobs := [] } [] (cmpStatReg j.fn) 5 0x87
        ∧ (j.unconf.filter (fun x => x != (home, ud)) ≠ [] →
          exec (.compositeConfirm (.answer home ud true leaves level)) s = .next { s with cmpJobs := [{ j with
            mems := j.mems.map (fun m => if m.remote ∧ m.home = home ∧ m.ud = ud then { m with leaves := leaves, level := level } else m),
            unconf := j.unconf.filter (fun x => x != (home, ud)) }] })))
    ∧ (∀ dev vi ud others, homeConfirms s dev vi ud others = true →
      exec (.compositeConfirm (.ask dev vi ud others)) s = .next { s with comps := tset s.comps (compNum ud) { tget s.comps (compNum ud) {} with
        imports := (compEntry s (compNum ud)).imports ++ [dev] } })
    ∧ (∀ (n : BitVec 16), (compEntry s n.toNat).st = 3 → s.resJobs = [] → Settled s →
      s.launches.all (fun l => !(isComp l.d.target && compNum l.d.target == n.toNat) || movesDone s l) = true →
      exec (.reshapingComplete (.comp n)) s = .next (setCompSt s n.toNat (if launchOn s n.toNat then 2 else 1)))
    ∧ (∀ (part : BitVec 3) (w : AccW), HostReaches s fn (0x800020 + part.toNat) → 4 ≤ accWidth w → part.toNat % accWidth w = 0 →
      exec (.untCntvalRead ⟨fn, part, w⟩) s = .next (nextFree (answerHost s
        ((toBytes 8 (cntVal s (isPf fn) fn (untSel s fn) (untCntSel s fn)).toNat).drop part.toNat |>.take (accWidth w)) false)))

/-- R185, R194-R199: granule table and row mode commands. MAP by a PF puts a FREE granule of the device in an entry that is not VALID,
with the attributes `VI_GT_ARG` gives, and reports the granule; UNMAP clears the entry and its granule is SCRUBBING, once no write is held
for the granule; SETATTR changes the
attributes and keeps the granule; READ gives the entry. A scrubbed granule holds zeros and is FREE. A row all of whose granules are FREE
takes the commanded mode. Each reports OK. -/
def Obligations.GranuleCommands : Prop :=
  ∀ (s : State) (fn : Fn) (vi : Vi),
    (∀ (i : BitVec 12) (conf : Bool), GtIdle s fn vi →
      let a := rget s (gtArgReg vi)
      let e := gtEntry s vi i.toNat
      let slot := vi.toNat * 4096 + i.toNat
      let k := gtStatReg vi
      (isPf fn = true → gtValid e = false → mirrorOk s a conf = true →
        (∀ g, (if gtPgran a = 0xFFF then pickGran s (bit a 57) else some (gtPgran a)) = some g → g ≤ 2287 → tget? s.gran g = none →
          answers (exec (.gtMap fn vi i conf) s) { s with gt := tset s.gt slot (mkEntry a g), gran := tset s.gran g (.mapped vi i) }
            [viReg vi 0x200] k 0 0
          ∧ ∃ u, exec (.gtMap fn vi i conf) s = .next u ∧ bits (rget u k) 43 32 = g))
      ∧ (isPf fn = true → gtValid e = true → snapCovers s vi i.toNat = false → usedIn s vi i.toNat = [] →
        s.heldW.any (fun h => decide (h.page / 16384 = gtPgran e)) = false →
        answers (exec (.gtUnmap fn vi i) s) { s with gt := tdel s.gt slot, gran := tset s.gran (gtPgran e) .scrubbing } [viReg vi 0x200] k 0 0)
      ∧ (gtValid e = true → (gtSnap a ≠ gtSnap e → isPf fn = true ∧ snapGuards s vi = false) →
        (gtMirror a ≠ gtMirror e ∨ (gtMirror a = true ∧ gtMpgran a ≠ gtMpgran e) → isPf fn = true ∧ mirrorOk s a conf = true) →
        answers (exec (.gtSetattr fn vi i conf) s) { s with gt := tset s.gt slot (mkEntry a (gtPgran e)) } [viReg vi 0x200] k 0 0)
      ∧ (answers (exec (.gtRead fn vi i) s) s [viReg vi 0x200, gtArgReg vi] k 0 0
        ∧ ∃ u, exec (.gtRead fn vi i) s = .next u ∧ rget u (gtArgReg vi) = gtShow s vi i.toNat))
    ∧ (∀ g : BitVec 12, tget? s.gran g.toNat = some .scrubbing →
      ∃ u, exec (.scrubComplete g) s = .next u ∧ u = { s with gran := tdel s.gran g.toNat, mem := s.mem.zero (g.toNat * 2 ^ 30) (2 ^ 30), poison := u.poison, ue := u.ue })
    ∧ (∀ row : BitVec 7, isPf fn = true → HostReaches s fn (devReg 0x4000) → statBusy s granStatReg = false → row.toNat ≤ 70 →
      ((List.range 32).all (fun k => granFree s (32 * row.toNat + k))) = true →
      answers (exec (.makeSpread fn row) s) { s with rowSpread := s.rowSpread ||| BitVec.ofNat 72 (2 ^ row.toNat) } [devReg 0x4000] granStatReg 0 0
      ∧ answers (exec (.makeColumnLocal fn row) s) { s with rowSpread := s.rowSpread &&& ~~~BitVec.ofNat 72 (2 ^ row.toNat) }
          [devReg 0x4000] granStatReg 0 0)

/-- R203-R208, R212, R217, R219: spill area registers keep a write that passes the capacity rule, and a VF's write or one that fails
leaves the register; `DEV_CTX_SPILL` takes a write while no host-held context is allocated; patrol scrub poisons a block it cannot
correct and touches nothing where a clean block reads clean; a mirrored write counts as arrived and is performed on the granule that names
the partner's, an acknowledgement queued once nothing is held, else refused with an error record; and an acknowledgement takes every mirrored write up to its sequence off the list. -/
def Obligations.SpillScrubAndMirror : Prop :=
  ∀ (s : State) (fn : Fn) (vi : Vi) (v : Word),
    (∀ host : Bool,
      let off := if host then 0x228 else 0x220
      let w := if host then v &&& 0xFFFFFFFFFFE00FFF else spillDevVal (rget s (viReg vi off)) v
      ViReaches s fn vi off →
      (isPf fn = true → (spillCheck s vi host w).1 = 0 → exec (.viSpillWrite fn vi host v) s = .next (rset s (viReg vi off) w))
      ∧ (isPf fn = false → exec (.viSpillWrite fn vi host v) s = .next (settle (viRefused s fn vi off)))
      ∧ (isPf fn = true → (spillCheck s vi host w).1 ≠ 0 →
        exec (.viSpillWrite fn vi host v) s = .next (settle (viRefused (statDone s (gtStatReg vi) (spillCheck s vi host w)) fn vi off))))
    ∧ (isPf fn = true → HostReaches s fn (devReg 0x4030) → s.ctxs.all (fun p => decide (p.1 < 1048576)) = true → bits v 13 0 ≤ 15360 →
      exec (.devCtxSpillWrite fn v) s
        = .next (rset { s with ctxFn := fn } (devReg 0x4030) ((v &&& 0xFFFFFFFFFFE00000) ||| at_ (bits v 13 0) 0)))
    ∧ (∀ block : BitVec 36, block.toNat * 64 < memEnd → s.pwr.st ≠ 2 → s.boot.phase = 8 →
      (s.ue.contains block.toNat = false → exec (.patrolScrub block .clean) s = .next s
        ∧ exec (.patrolScrub block .corrected) s = .next (foundCe s block.toNat))
      ∧ (s.poison.contains block.toNat = false → exec (.patrolScrub block .uncorrectable) s = .next (foundUe s block.toNat none)))
    ∧ (∀ (src g : BitVec 12) (off : BitVec 30) (data : List Byte) (o : Vi) (e : Word), mapOf s g.toNat = some (o, e) → off.toNat + data.length ≤ 2 ^ 30 →
      let w := { s with pair := { s.pair with mirGot := s.pair.mirGot + 1 } }
      (gtMirror e = true → gtMpgran e = src.toNat →
        exec (.mirrorWr src g off data 0) s
          = .next (settle (mirrorAckOut (engAct w o none (.bytes (g.toNat * 2 ^ 30 + off.toNat) data) .partner))))
      ∧ (gtMirror e = false ∨ gtMpgran e ≠ src.toNat →
        exec (.mirrorWr src g off data 0) s = .next (settle (raiseErr w
          { cause := 0x10, sev := 2, vi := some o, addr := BitVec.ofNat 64 (g.toNat * 2 ^ 30 + off.toNat), arg0 := src.setWidth 64 }))))
    ∧ (∀ seq : BitVec 32, exec (.mirrorAck seq) s = .next (settle
        ((s.pair.out.filter (fun m => atOrAfter seq m.seq)).foldl (fun s m => writerDone s m.writer none)
          { s with pair := { s.pair with out := s.pair.out.filter (fun m => !atOrAfter seq m.seq) } })))

/-- R229, R230, R239, R250, R620: host commands of the sync block on an object the acting instance holds, with no command before. CONFIG
of an object with no waiters gives it a new generation, its type and its figures; RESTORE makes it ACTIVE with no owner; UNSET returns it
to UNSET; READ fills the data registers; SEMV and ECADD add and serve waiters; SEMT takes where the value allows; ECREAD reads. Each
reports OK, and a SEMT that cannot take reports RETRY and changes nothing. -/
def Obligations.HostSyncCommands : Prop :=
  ∀ (s : State) (fn : Fn) (c : SynArgs), SynIdle s fn c →
    let n := c.obj.toNat
    let o := getSyn s n
    let v := synArg0 s fn
    let w := synArg1 s fn
    let x : BitVec 48 := BitVec.ofNat 48 v
    let k := synStatReg fn
    let data := [synDataReg fn 0, synDataReg fn 1, synDataReg fn 2, synDataReg fn 3]
    let cmd := fnReg fn 0x400000
    let active (ty : BitVec 2) := o.st ≠ 0 ∧ o.st ≠ 2 ∧ o.bad = false ∧ o.ty = ty
    (synBusy o = false → lockOwned o = false → (c.ty = 0 → v ≠ 0 ∧ v ≤ 2 ^ 28) → w ≤ 60000000 →
      answers (exec (.synConfig fn c) s) (setSyn s n { st := 1, ty := c.ty, gen := (if o.gen = 0xFFFF then 1 else o.gen + 1), value := (if c.ty = 1 ∨ c.ty = 2 then x else 0), expect := (if c.ty = 0 then BitVec.ofNat 32 v else 0), wdog := BitVec.ofNat 26 (if w = 0 then 1000000 else w) }) (cmd :: data) k 0 0)
    ∧ (o.st ≠ 0 → synBusy o = false → lockOwned o = false →
      answers (exec (.synRestore fn c) s) (setSyn s n { o with st := 1, owner := none, bad := false, value := (if o.ty = 1 ∨ o.ty = 2 then x else 0) }) [cmd] k 0 0)
    ∧ (synBusy o = false →
      answers (exec (.synUnset fn c) s) (setSyn s n { o with st := 0, owner := none, value := 0, bad := false }) [cmd] k 0 0)
    ∧ (answers (exec (.synRead fn c) s) s (cmd :: data) k 0 0
      ∧ ∃ u, exec (.synRead fn c) s = .next u ∧ ∀ i : Fin 4, rget u (synDataReg fn i) = (synData s (actor fn c.vi) n)[i])
    ∧ (active 2 → answers (exec (.hostEcread fn c) s) s [cmd, synDataReg fn 0] k 0 0
      ∧ ∃ u, exec (.hostEcread fn c) s = .next u ∧ bits (rget u (synDataReg fn 0)) 47 0 = o.value.toNat)
    ∧ (active 1 → o.waiters = [] → v ≤ o.value.toNat →
      answers (exec (.hostSemt fn c) s) (setSyn s n { o with value := o.value - x }) [cmd, synDataReg fn 0] k 0 0)
    ∧ (active 1 → (o.waiters ≠ [] ∨ o.value.toNat < v) → answers (exec (.hostSemt fn c) s) s [cmd, synDataReg fn 0] k 1 0)
    ∧ (active 1 → o.value.toNat + v < 2 ^ 48 →
      ∃ q, q = { s with regs := q.regs } ∧ bits (rget q (synDataReg fn 0)) 47 0 = (o.value + x).toNat ∧ exec (.hostSemv fn c) s
        = .next (settle (statDone (serveQueue (setSyn q n { o with value := o.value + x }) n o.waiters.length) k (0, 0))))
    ∧ (active 2 →
      ∃ q, q = { s with regs := q.regs } ∧ bits (rget q (synDataReg fn 0)) 47 0 = (o.value + x).toNat ∧ exec (.hostEcadd fn c) s
        = .next (settle (statDone (serveEc (setSyn q n { o with value := o.value + x }) n) k (0, 0))))

/-- R232-R234, R241-R246: operations at their homes. A thread's checked operation is performed on its object and one that a check refuses
is answered with the first failing check; a semaphore, counter or lock that no waiter is before takes its operand and answers, and one that
cannot take queues the waiter; the arrival that fills a barrier releases the phase, and another one waits. A near unit fans a release out to
its waiters, and, cut off from the home, answers all of them TIMEOUT once one has waited twice the object's period; a due watchdog faults its object; and the withdrawal of a
saving thread's operation leaves every object and near unit. -/
def Obligations.SyncAtTheHome : Prop :=
  (∀ (s : State) (t : Tid) (op : Nat) (th : Thread) (o : Op) (word handle operand : Word) (kd : SyncKind), getThr s t = some th →
    th.loads.find? (fun o => o.id == op && !o.done && !o.wd && isSyncAct o.act) = some o → o.act = .sync word handle operand →
    syncKind word = some kd → isUbar word = false → alreadySent s t op = false → behindSync s t th o = false → (needsStores kd = true → th.scnt = 0) →
    let id := syncIdent th
    let w : Waiter := { kind := kd, t := t, op := op, operand := BitVec.ofNat 48 operand.toNat, launch := id.1, index := id.2, since := s.devTime, near := none }
    let c := synCheck s th.vi handle kd th.handler
    (c ≠ 0 → exec (.syncOpAtHome (.op t op)) s = .next (settle (answer s w (if c = 5 then 0 else objVal s (bits handle 15 0)) false c)))
    ∧ (c = 0 → exec (.syncOpAtHome (.op t op)) s = .next (settle (synPerform s (bits handle 15 0) w th.member.toNat))))
  ∧ (∀ (s : State) (n mem : Nat) (w : Waiter),
      let o := getSyn s n
      let u := getSyn (synPerform s n w mem) n
      (w.kind = .semp ∨ w.kind = .semt → o.waiters = [] → w.operand.toNat ≤ o.value.toNat → u = { o with value := o.value - w.operand })
      ∧ (w.kind = .semp → (o.waiters ≠ [] ∨ o.value.toNat < w.operand.toNat) → u = { o with waiters := o.waiters ++ [w] })
      ∧ (w.kind = .semv → o.waiters = [] → o.value.toNat + w.operand.toNat < 2 ^ 48 → u = { o with value := o.value + w.operand })
      ∧ (w.kind = .ecadd → u = { o with value := o.value + w.operand, waiters := o.waiters.filter (fun x => !atOrAfter (o.value + w.operand) x.operand) })
      ∧ (w.kind = .ecwait → atOrAfter o.value w.operand = false → u = { o with waiters := o.waiters ++ [w] })
      ∧ (w.kind = .lkacq ∨ w.kind = .lktry → o.owner = none → o.waiters = [] → u = { o with owner := some (w.launch, w.index) })
      ∧ (w.kind = .lkrel → o.st = 1 → o.owner = some (w.launch, w.index) → o.waiters = [] → u = { o with owner := none })
      ∧ (w.kind = .bar → (o.value + 1).toNat < o.expect.toNat →
        u = { o with value := o.value + 1, waiters := o.waiters ++ [{ w with since := s.devTime }] })
      ∧ (w.kind = .bar → o.expect.toNat ≤ (o.value + 1).toNat → u.value = 0 ∧ u.phase = !o.phase ∧ u.waiters = [] ∧ u.st = o.st ∧ u.gen = o.gen))
  ∧ (∀ (s : State) (q : BitVec 2) (obj : BitVec 16),
      let x := getNear s q obj.toNat
      let ws := x.sent ++ x.inFlight ++ x.gathered
      let fan (s : State) (l : List Waiter) (ph : Bool) (st : BitVec 8) := l.foldl (fun s w => answer s w 0 ph st) s
      (∀ l ph st r, x.rel = (l, ph, st) :: r →
        exec (.nearUnitRelease q obj) s = .next (settle (fan (setNear s q obj.toNat { x with rel := r }) l ph st)))
      ∧ (ws.any (fun w => decide (2 * (wdogUs (getSyn s obj.toNat) * 1000) ≤ (s.devTime - w.since).toNat)) = true →
        exec (.nearUnitTimeout q ⟨obj, true⟩) s
          = .next (settle (fan (setNear s q obj.toNat { x with sent := [], inFlight := [], gathered := [] }) ws false 4)))
      ∧ ((getSyn s obj.toNat).st = 1 → wdogDue s (getSyn s obj.toNat) = true →
        ∃ u, exec (.syncWatchdog obj) s = .next (settle u)
          ∧ getSyn u obj.toNat = { getSyn s obj.toNat with st := 2, waiters := [], remote := [] }))
  ∧ (∀ (s : State) (t : Tid) (op : Nat) (th : Thread) (o : Op), getThr s t = some th → th.st = .saving →
      th.loads.find? (fun o => o.id == op && !o.done && !o.wd && isSyncAct o.act) = some o → nearAnswer s t op = none →
      exec (.syncWithdraw t op) s = .next (settle (recordOp (withdrawOp s t op) t { o with wd := true })))

/-- R65-R70, R263-R268: resource commands of a PF on an instance. GIVE dedicates a free cluster; SHARE appends a sharer; RESHARE replaces
the sharer's figures; GIVE_GROUP and TAKE_GROUP move a sync group, the latter only with every object UNSET; each posts a RESOURCE event.
TAKE removes the cluster and reshapes the instance's composites, and is complete when reshaping is. READ reports the holding and changes
nothing else. -/
def Obligations.ResourceCommands : Prop :=
  ∀ (s : State) (fn : Fn) (vi : Vi) (r : ResSel), ResIdle s fn vi →
    let c := r.cluster.toNat
    let g := r.group.toNat
    let x := argSharer s vi
    let join (l : List Sharer) : Prop := changesRes (exec (.share fn vi r) s) (setClu s c (.shared (l ++ [x]))) vi (resWord .share r)
    let fits (l : List Sharer) : Prop := badSharer x = false ∧ overLimit l = false
    let quiet : Prop := (facetsOfClu c).any (fun f => decide (slotsUsedBy s vi f > x.slots) || decide (storeUsed s vi f > x.store)) = false
    (getClu s c = .none → spillShort s vi = false → changesRes (exec (.give fn vi r) s) (setClu s c (.dedicated vi)) vi (resWord .give r))
    ∧ (getClu s c = .none → spillShort s vi = false → fits [x] → join [])
    ∧ (∀ l, getClu s c = .shared l → holdOf (getClu s c) vi = none → l.length < 4 → spillShort s vi = false → fits (l ++ [x]) → join l)
    ∧ (∀ l, getClu s c = .shared l → l.any (fun y => y.vi == vi) = true → quiet → fits (l.map (fun y => if y.vi = vi then x else y)) →
      changesRes (exec (.reshare fn vi r) s) (setClu s c (.shared (l.map (fun y => if y.vi = vi then x else y)))) vi (resWord .reshare r))
    ∧ (getClu s c = .dedicated vi → quiet → fits [x] →
      changesRes (exec (.reshare fn vi r) s) (setClu s c (.shared [x])) vi (resWord .reshare r))
    ∧ (tget? s.grp g = none → changesRes (exec (.giveGroup fn vi r) s) { s with grp := tset s.grp g vi } vi (resWord .giveGroup r))
    ∧ (tget? s.grp g = some vi → (objsOfGroup g).all (fun n => (getSyn s n).st == 0) = true →
      changesRes (exec (.takeGroup fn vi r) s) { s with grp := tdel s.grp g } vi (resWord .takeGroup r))
    ∧ (answers (exec (.resRead fn vi r) s) s [viReg vi 0x20, viReg vi 0x28] (resStatReg vi) 0 0
      ∧ ∃ u, exec (.resRead fn vi r) s = .next u ∧ rget u (viReg vi 0x28) = resReport s vi c g)
    ∧ ((holdOf (getClu s c) vi).isSome = true →
      ∃ q j, q = { s with regs := q.regs, resJobs := [j] } ∧ j.vi = vi ∧ j.op = .take
        ∧ let a := reshape (loseUnit (setClu q c (dropHold (getClu s c) vi)) vi (clusterUd s c)) vi
          let w := { a.1 with resJobs := [{ j with started := true, saved := a.2 }] }
          exec (.take fn vi r) s
            = .next (settle (if takeDone w vi then resFinish { w with resJobs := [] } { j with saved := a.2 } (0, 0) true else w)))

/-- R262, R269, R272, R275, R277-R284: registers of a VI block. A PF's write of shares and limits is stored with a RESOURCE event, shares of 0
freezing the instance, a VF's is refused and recorded; `VI_POLL` with EN makes an IDLE instance ACTIVE; EN 1 starts the handlers where the check passes and records the
first failing check otherwise, EN 0 ends them; the event ring moves only while quiet; an acknowledgement within the events produced retires
them; and `VI_EV_POST` posts a HOST event. -/
def Obligations.InstanceRegisters : Prop :=
  ∀ (s : State) (fn : Fn) (vi : Vi) (v : Word),
    let i := getInst s vi
    (ViReaches s fn vi 0x18 → exec (.viShareWrite fn vi v) s = .next (settle (if isPf fn then
        let w := rset s (viReg vi 0x18) (v &&& 0x3FF)
        postEvent (if v &&& 0x3FF = 0 then freezeRounds w vi else w) vi (resourceEvent 0 (v &&& 0x3FF) 0) else viRefused s fn vi 0x18)))
    ∧ (ViReaches s fn vi 0x38 → bits v 56 32 ≤ 16777216 → bits v 15 0 ≤ 65279 →
      let w := at_ (bits v 56 32) 32 ||| at_ (bits v 15 0) 0
      exec (.viLimitsWrite fn vi v) s = .next (settle (if isPf fn then
        postEvent (rset s (viReg vi 0x38) w) vi (resourceEvent 0 w 0) else viRefused s fn vi 0x38)))
    ∧ (ViReaches s fn vi 0x10 → exec (.viPollWrite fn vi v) s = .next (settle (
        let w := rset s (viReg vi 0x10) (v &&& 0xFFFFFFFFFFFFF001)
        if i.st ≠ 1 then accessErr s fn (viOff fn vi 0x10)
        else if bit v 0 then modInst w vi (fun i => { i with st := 2 }) else w)))
    ∧ (∀ c : HdlCfg, ViReaches s fn vi 0x80 → i.st ≠ 3 → i.st ≠ 4 →
      let w (en : Bool) := rset s (viReg vi 0x80) (hdlWord en c &&& 0x0000FFFF01FF0701)
      (i.hdlSt = 0 ∨ i.hdlSt = 2 → (hdlCheck (w true) vi).1 ≠ 0 → exec (.handlerStart fn vi c) s = .next (modInst (w true) vi (fun i =>
          { i with hdlStatus := (hdlCheck (w true) vi).1, hdlDetail := (hdlCheck (w true) vi).2 })))
      ∧ (i.hdlSt = 0 ∨ i.hdlSt = 2 → (hdlCheck (w true) vi).1 = 0 → exec (.handlerStart fn vi c) s = .next (settle (placeHandlers
          (modInst (w true) vi (fun i => { i with hdlSt := 1, hdlStatus := 0, hdlDetail := 0, hdlCause := 0, hdlThread := 0 })) vi
          (facetOfUd (rget s (viReg vi 0x98))) (rget (w true) (viReg vi 0x80)) 0 (hdlCount (rget (w true) (viReg vi 0x80))))))
      ∧ (i.hdlSt = 1 ∨ i.hdlSt = 3 → exec (.handlerStart fn vi c) s = .next (w true)
        ∧ exec (.handlerStop fn vi c) s = .next (settle (endAllTrapped (modInst (endHandlers (w false) vi) vi (fun i => { i with hdlSt := 0 })) vi)))
      ∧ (i.hdlSt = 0 ∨ i.hdlSt = 2 →
        exec (.handlerStop fn vi c) s = .next (modInst (w false) vi (fun i => { i with hdlSt := 0, hdlCause := 0, hdlThread := 0 }))))
    ∧ (ViReaches s fn vi 0xC0 → ((i.hdlSt = 0 ∨ i.hdlSt = 2) ∧ i.produced = i.retired → bits v 3 0 ≤ 8 →
        exec (.viEvRingWrite fn vi v) s = .next (rset s (viReg vi 0xC0) ((v &&& 0xFFFFFFFFFFFFF000) ||| at_ (bits v 3 0) 0)))
      ∧ (¬ ((i.hdlSt = 0 ∨ i.hdlSt = 2) ∧ i.produced = i.retired) →
        exec (.viEvRingWrite fn vi v) s = .next (settle (accessErr s fn (viOff fn vi 0xC0)))))
    ∧ (ViReaches s fn vi 0xD0 → hasHandler s vi = false →
      let a : BitVec 48 := BitVec.ofNat 48 v.toNat
      ((a - i.retired).toNat ≤ (i.produced - i.retired).toNat → exec (.viEvAckWrite fn vi v) s = .next (settle (drainEvents
        (modInst s vi (fun i => { i with retired := a, nextTake := (if atOrAfter i.nextTake a then i.nextTake else a), retMarks := i.retMarks.filter (fun m => atOrAfter m a) })) vi)))
      ∧ ((i.produced - i.retired).toNat < (a - i.retired).toNat → exec (.viEvAckWrite fn vi v) s = .next (settle (accessErr s fn (viOff fn vi 0xD0)))))
    ∧ (ViReaches s fn vi 0xE0 →
      exec (.viEvPostWrite fn vi v) s = .next (settle (postEvent (rset s (viReg vi 0xE0) v) vi ⟨5, #v[v, 0, 0, 0, 0]⟩)))

/-- R257, R259, R285-R287, R296, R297, R326, R327: resets and functions. A reset of an instance that is not in one makes it RESETTING with
the next generation and discards its work, and a second one only sets OVR; a drained one is cleared and completes, as does one 1 ms old
once the rest is discarded; a released instance that has drained is OFF with nothing held. VF Enable makes the first `NumVFs` OFF instances
of the port IDLE; VF Disable releases them. Bus Master Enable and the power state take the written value, a function that stops keeping its
outstanding reads, and resume what is allowed; a
function-level reset clears Bus Master Enable and resets the instance. -/
def Obligations.ResetsAndFunctions : Prop :=
  ∀ (s : State) (fn : Fn) (vi : Vi),
    let i := getInst s vi
    let begun (s : State) (vi : Vi) (src : BitVec 4) : State :=
      let w := modInst s vi (fun i => { i with st := 3, gen := nextGen32 i.gen, fromAct := i.st == 2, rstPhase := 2, rstSrc := src, rstForced := false, rstStart := s.devTime, cntDesc := 0, cntReads := 0, cntStale := 0, cntForced := 0 })
      stopSnap (stopDescs (discardAll w vi) vi) vi
    (ViReaches s fn vi 0x100 →
      (i.st = 1 ∨ i.st = 2 → exec (.instanceReset fn vi) s = .next (settle (begun s vi (if fn = vi then 1 else 2))))
      ∧ (i.st = 3 ∨ i.st = 4 → exec (.instanceReset fn vi) s = .next (modInst s vi (fun i => { i with rstOvr := true }))))
    ∧ ((i.st = 3 ∨ i.st = 4) → i.rstPhase ≠ 0 →
      (undrained s vi = 0 → exec (.resetDrainComplete vi) s = .next (settle (resetEnd s vi)))
      ∧ ((s.devTime - i.rstStart).toNat ≥ 1000000 → exec (.resetForceTimeout vi) s = .next (settle (resetEnd (forceDiscard s vi) vi)))
      ∧ ((s.devTime - i.rstStart).toNat < 1000000 → exec (.resetForceTimeout vi) s = .next s))
    ∧ (i.st = 4 → i.rstPhase = 0 → Settled s → ∃ u, exec (.releaseComplete vi) s = .next (settle u)
      ∧ (getInst u vi).st = 0 ∧ (getInst u vi).gen = i.gen ∧ (∀ p ∈ u.grp, p.2 ≠ vi) ∧ (∀ p ∈ u.gt, p.1 / 4096 ≠ vi.toNat)
      ∧ (∀ p ∈ u.clu, (holdOf p.2 vi).isNone = true) ∧ (∀ p ∈ u.comps, p.1 > 256 → p.2.owner = vi → p.2.st = 0))
    ∧ (CfgReaches s fn →
      let c := getCfg s fn
      (isPf fn = true → c.vfEn = false → ∀ n : BitVec 16, n.toNat ≤ 127 →
        exec (.vfEnable fn n) s = .next (((vfsOf fn).take n.toNat).foldl
          (fun s vi => if (getInst s vi).st = 0 then modInst s vi (fun i => { i with st := 1 }) else s)
          (modCfg (modCfg s fn (fun c => { c with numVfs := n })) fn (fun c => { c with vfEn := true }))))
      ∧ (isPf fn = true → c.vfEn = true → exec (.vfDisable fn) s = .next (settle
          (((vfsOf fn).take c.numVfs.toNat).foldl startRelease (modCfg s fn (fun c => { c with vfEn := false })))))
      ∧ exec (.busMasterClear fn) s = .next (settle (if c.bme = false then s
          else resumeFn (modCfg (pauseFn s fn) fn (fun c => { c with bme := false })) fn))
      ∧ exec (.busMasterSet fn) s = .next (settle (if c.bme = true then s else resumeFn (modCfg s fn (fun c => { c with bme := true })) fn))
      ∧ (∀ d3, exec (.powerStateWrite fn d3) s = .next (settle (if c.d3 = d3 then s
          else resumeFn (modCfg (if d3 then pauseFn s fn else s) fn (fun c => { c with d3 := d3 })) fn)))
      ∧ (isPf fn = false → exec (.functionLevelReset fn) s = .next (settle (resetRequest (modCfg
          { s with lateTags := s.lateTags.filter (fun x => x.1 != fn) } fn (fun c => { c with flr := true, bme := false })) fn 3)))
      ∧ (isPf fn = true → exec (.functionLevelReset fn) s = .next (settle (resetRequest (flrSecurity (vfEnWr fn false (modCfg
          { s with lateTags := s.lateTags.filter (fun x => x.1 != fn) } fn (fun c => { c with flr := true, bme := false }))) (portOf fn)) fn 3))))

/-- R299, R300: BAR2 of a PF reaches the granule its aperture slot names, with the instance's permissions: a read answers the memory's
bytes, a write stores its bytes or marks its blocks poisoned, and an access of a slot that is not VALID, or one the instance may not make,
is refused with an ACCESS error, the read with zeros. A write follows the function's earlier requests. -/
def Obligations.ApertureAccesses : Prop :=
  ∀ (s : State) (fn : Fn) (off : BitVec 36) (n : BitVec 13) (data : List Byte) (p : Bool), isPf fn = true → gate s fn none = .pass →
    s.pwr.st ≠ 3 → Settled s →
    (tlpOk off.toNat n.toNat = true →
      let no := exec (.bar2Read fn off n) s = .next (answerHost (accessErr s fn off.toNat) (List.replicate n.toNat 0) false)
      (aperAddr s fn off.toNat = none → no)
      ∧ (∀ vi a, aperAddr s fn off.toNat = some (vi, a) →
        (translate s vi a n.toNat .rd = .fault → no)
        ∧ (∀ pa m, translate s vi a n.toNat .rd = .dev pa m →
          let r := devRead s pa n.toNat none
          exec (.bar2Read fn off n) s = .next (answerHost r.1 r.2.1 r.2.2))))
    ∧ (tlpOk off.toNat data.length = true → hostWaits s fn = false →
      let no := exec (.bar2Write fn off data p) s = .next (settle (accessErr s fn off.toNat))
      (aperAddr s fn off.toNat = none → no)
      ∧ (∀ vi a, aperAddr s fn off.toNat = some (vi, a) →
        (translate s vi a data.length .wr = .fault → no)
        ∧ (∀ pa m, translate s vi a data.length .wr = .dev pa m →
          (p = false → exec (.bar2Write fn off data p) s = .next (settle (engAct s vi m (.bytes pa data) (.bar2 fn))))
          ∧ (p = true → exec (.bar2Write fn off data p) s = .next (settle (aerReq (engAct s vi m (.mark pa data.length) (.bar2 fn)) fn 12))))))

/-- R304-R307, R310, R313: queues. EN 1 on a disabled queue whose configuration holds starts it with a device context and empty pointers,
one whose configuration does not hold records CONFIG; EN 0 makes a submission queue DRAINING, which is DISABLED once what it took is
complete, and frees a completion queue that nothing uses. A submission doorbell adds descriptors up to the free entries and counts a
refusal otherwise; a completion doorbell within what was written moves the head; a fetch that succeeds holds the descriptors read, and one
that fails stops the queue. -/
def Obligations.QueueOperations : Prop :=
  ∀ (s : State) (fn : Fn) (vi : Vi) (q : BitVec 4),
    let n := q.toNat
    let sq := getSq s vi n
    let cq := getCq s vi n
    let i := getInst s vi
    let sqOff := 0x408 + 0x20 * n
    let cqOff := 0x608 + 0x20 * n
    (∀ c : SqCfgW, QReaches s fn vi sqOff →
      let k := sqCfgReg vi n
      let w := rset (setSq s vi n { sq with refused := 0 }) k (sqCfgVal (rget s k) (sqCfgWord true c))
      (sq.st = 0 → sqCfgOk w vi n = false →
        exec (.sqEnable fn vi q c) s = .next (setSq w vi n { sq with refused := 0, status := 0x0B, detail := 0x80 }))
      ∧ (sq.st = 0 → sqCfgOk w vi n = true → ∀ m, pickCtx w vi = .ok m →
        exec (.sqEnable fn vi q c) s = .next (newCtx (setSq w vi n { st := 1 }) vi m (.queue vi false n)))
      ∧ (sq.st = 1 ∨ sq.st = 2 → sqCfgVal (rget s k) (sqCfgWord false c) ||| at_ 1 63 = rget s k ||| at_ 1 63 →
        exec (.sqDisable fn vi q c) s
          = .next (setSq (rset (setSq s vi n { sq with refused := 0 }) k (setBits (rget s k) 63 63 0)) vi n { sq with refused := 0, st := 3, got := [] })))
    ∧ (sq.st = 3 → sq.taken = 0 → exec (.sqDrainComplete vi q) s = .next (freeQueueCtx (setSq s vi n { sq with st := 0 }) vi false n))
    ∧ (∀ size : BitVec 5, QReaches s fn vi cqOff →
      let k := cqCfgReg vi n
      let w := rset s k (at_ 1 63 ||| at_ size.toNat 0)
      (cq.st = 0 → 4 ≤ size.toNat → size.toNat ≤ 16 → rangeOk w vi (cqBase w vi n) (32 * 2 ^ size.toNat) .wr = true → ∀ m, pickCtx w vi = .ok m →
        exec (.cqEnable fn vi q size) s = .next (newCtx (setCq w vi n { st := 1, phase := true }) vi m (.queue vi true n)))
      ∧ (cq.st = 0 → (size.toNat < 4 ∨ 16 < size.toNat) →
        exec (.cqEnable fn vi q size) s = .next (setCq w vi n { cq with status := 0x0B, detail := 0x80 }))
      ∧ (cq.st ≠ 0 → bits (rget s k) 4 0 = size.toNat → cqUsed s vi n = false →
        exec (.cqDisable fn vi q size) s
          = .next (freeQueueCtx (setCq (rset s k (setBits (rget s k) 63 63 0)) vi n { cq with st := 0, held := [] }) vi true n))
      ∧ (cq.st ≠ 0 → bits (rget s k) 4 0 = size.toNat → cqUsed s vi n = true →
        exec (.cqDisable fn vi q size) s = .next (settle (accessErr s fn (qOff fn vi cqOff)))))
    ∧ (∀ x : BitVec 16, QReaches s fn vi (0x800 + 8 * n) → i.st = 2 → sq.st = 1 →
      let size := sqSize s vi n
      let add := (x.toNat + size - sq.tail.toNat % size) % size
      let free := size - 1 - (sq.tail.toNat + size - sq.head.toNat % size) % size
      (x.toNat < size → add ≤ free → exec (.sqDoorbell fn vi q x) s = .next (setSq s vi n { sq with tail := x, reqAt := if sq.tail = sq.head ∧ sq.got = [] then s.devTime else sq.reqAt }))
      ∧ ((size ≤ x.toNat ∨ free < add) → exec (.sqDoorbell fn vi q x) s
          = .next (setSq s vi n { sq with refused := if sq.refused = 255 then 255 else sq.refused + 1 })))
    ∧ (∀ x : BitVec 16, QReaches s fn vi (0x880 + 8 * n) → i.st = 2 → cq.st ≠ 0 →
      let size := cqSize s vi n
      let rel := (x.toNat + size - cq.head.toNat % size) % size
      let written := (cq.tail.toNat + size - cq.head.toNat % size) % size
      (x.toNat < size → rel ≤ written →
        exec (.cqDoorbell fn vi q x) s = .next (settle (cqRetry (setCq s vi n { cq with head := x }) vi n (cq.held.length + 1))))
      ∧ ((size ≤ x.toNat ∨ written < rel) → exec (.cqDoorbell fn vi q x) s = .next (settle (accessErr s fn (qOff fn vi (0x880 + 8 * n))))))
    ∧ (∀ (m : BitVec 4) (out : RdOut) (data : List Byte), canTake s vi n = true → sq.got = [] →
      (sqInHost s vi n = true → busMaster s vi = true ∨ sq.flight = true) →
      let size := sqSize s vi n
      let count := Nat.min (Nat.min m.toNat 8) ((sq.tail.toNat + size - sq.head.toNat % size) % size)
      let r := readDescs (setSq s vi n { sq with flight := false }) vi n out data 0 count
      count ≠ 0 →
        (r.2.1 ≠ [] → exec (.descriptorFetch vi q m out data) s = .next (setSq r.1 vi n { getSq r.1 vi n with got := r.2.1 }))
        ∧ (r.2.1 = [] → exec (.descriptorFetch vi q m out data) s = .next (stopSq r.1 vi n r.2.2.1 r.2.2.2)))

/-- R313-R316, R318, R330, R344, R578, R612, R614: the Poll Page and the links. A running instance's Poll Page is written with a sequence
two higher, the heartbeat alone in Dark; L0p narrows, ASPM lowers and traffic restores an upstream link; an upstream reset resets the port's
switch and function, and drops the link but for a Hot Reset, after which the link is taken to be up at once (model choice, Assumption 26);
PERST# deasserted brings the link up; a downstream slot that is filled, lost or released sets its slot status and link; an Ethernet port's
link goes down and comes up. -/
def Obligations.PollPageAndLinks : Prop :=
  (∀ (s : State) (vi : Vi), s.boot.phase = 8 → s.drst.phase = 0 → s.err.fatal = false → pollOn s vi = true →
    let seq := (getInst s vi).pollSeq + 2
    (s.pwr.st = 2 ∨ s.pwr.st = 4 → exec (.pollPageUpdate vi) s
      = .next (modInst (hostPut s vi (pollBase s vi) (toBytes 8 seq.toNat)) vi (fun i => { i with pollSeq := seq })))
    ∧ (s.pwr.st ≠ 2 → s.pwr.st ≠ 4 → exec (.pollPageUpdate vi) s = .next (modInst (hostPut (hostPut s vi (pollBase s vi + 8)
        ((pollWords s vi).flatMap (fun w => toBytes 8 w.toNat) ++ List.replicate 3584 0)) vi (pollBase s vi) (toBytes 8 seq.toNat)) vi
        (fun i => { i with pollSeq := seq }))))
  ∧ (∀ (s : State) (port : Fin 2), upLinkUp s port = true →
      let l := s.links[port]
      (∀ lanes : BitVec 4, bit l.en 0 = true → l.pm = 0 → (lanes = 8 ∨ lanes = 4 ∨ lanes = 2) → lanes.toNat < l.lanes.toNat →
        exec (.l0pEnter port lanes) s = .next (setLink s port { l with lanes := lanes.setWidth 5 }))
      ∧ (bit l.en 1 = true → l.pm = 0 → exec (.aspmL1Enter port .l1) s = .next (setLink s port { l with pm := 1 }))
      ∧ (bit l.en 1 = true → bit l.en 2 = true → l.pm ≤ 1 → exec (.aspmL1Enter port .l11) s = .next (setLink s port { l with pm := 2 }))
      ∧ (bit l.en 1 = true → bit l.en 3 = true → l.pm ≤ 2 → ltrUs s port.val = 1000 →
        exec (.aspmL1Enter port .l12) s = .next (setLink s port { l with pm := 3 }))
      ∧ exec (.linkPowerExit port) s = .next (setLink s port { l with pm := 0, lanes := 16 }))
  ∧ (∀ (s : State) (port : Fin 2) (kind : PortRst),
      let b := s.boot
      let s1 : State := { s with boot := { b with
        upLink := b.upLink.set port (decide (kind = .hotReset) && b.upLink[port]), perst := if kind = .perst then b.perst.set port true else b.perst } }
      let s2 : State := { switchReset s1 port.val with links := s.links.set port {} }
      (s2.boot.phase = 8 → s2.drst.phase = 0 → exec (.upstreamPortReset port kind) s = .next (settle (flrStart s2 (BitVec.ofNat 8 (128 * port.val)))))
      ∧ (s2.boot.phase ≠ 8 → exec (.upstreamPortReset port kind) s = .next (settle s2))
      ∧ exec (.perstDeassert port) s = .next { s with boot := { b with perst := b.perst.set port false, upLink := if b.phase ≥ 2 then b.upLink.set port true else b.upLink } })
  ∧ (∀ (s : State) (port : Fin 6),
      let w : SwPort := tget s.sw port.val {}
      (w.present = false → exec (.presenceDetectChange port) s
        = .next (trainPort { s with sw := tset s.sw port.val { w with present := true, pdc := true } } port.val))
      ∧ (∀ removed : Bool, exec (.downstreamLinkLoss ⟨port, removed⟩) s = .next (linkLoss { s with sw := tset s.sw port.val { w with
          link := false, speed := 0, width := 0, dllsc := w.dllsc || w.link, dpcTrig := w.dpcTrig || w.dpcEn != 0,
          present := w.present && !removed, pdc := w.pdc || (removed && w.present) } } port.val))
      ∧ (s.boot.upLink.toList.getD (port.val / 3) false = true → exec (.downstreamPerstRelease port) s
        = .next (trainPort { s with boot := { s.boot with downRst := s.boot.downRst.set port false } } port.val)))
  ∧ (∀ (s : State) (port : Port), runsEth s port = true →
      let h := getPhy s port
      (h.st = 2 → exec (.ethernetLinkDown port) s = .next (setPhy s port { h with st := 0, lanes := 0, since := s.devTime, cnt := bumpCnt h.cnt 6 1 }))
      ∧ (bit (phyCfg s port) 63 = true → s.boot.phase = 8 → s.err.fatal = false → (h.st = 0 ∨ h.st = 1) → exec (.ethernetLinkUp port) s
        = .next (runShapers (setPhy s port { h with st := 2, lanes := 8, since := s.devTime }) port)))

/-- R272, R307-R311, R337, R342, R410, R411: descriptors. In its instance's turn COPY or a storage command takes the descriptor at the head of
a queue of its kind. One whose gate is met starts: a device-to-device copy of readable bytes to a place apart that may be written writes
the bytes there and completes OK with their count; one that names spaces it may not use writes nothing and completes FAULT_ACCESS; and a
storage command on a READY target of the instance's switch whose map and buffer it may use is issued to the drive. One whose gate is not
met waits, and the gate that opens starts it. -/
def Obligations.DescriptorsTaken : Prop :=
  ∀ (s s1 : State) (vi : Vi) (q : BitVec 4) (b : List Byte) (r : List (List Byte)),
    let op := ofBytes (b.take 1)
    let w (kind : Nat) := newDesc (headTaken s1 vi q.toNat r) vi q.toNat kind (getSq s vi q.toNat).seq b
    let stg (o : Host.Outcome State Fault Refusal) (code : Nat) : Prop := op = code →
      let u := (w 3).1
      let d := (w 3).2
      o = .next (tryStart u d)
      ∧ (gateOk u d = false → o = .next u)
      ∧ (gateOk u d = true → stgOk d = true → bit (dMapCfg d) 0 = true → otherBlocks u d = false → otherSwitch u d = false →
        (code ≠ 3 → (dWord d 2).toNat + dNlb d ≤ (d.wins.getD 6 0).toNat) → bit (dMapCfg d) 1 = true →
        (hasBuf d = true → spaceOk u d (bufSpace d) (dWord d 1) (stgBytes u d) (if code = 1 then .wr else .rd) = true) →
        tgtReady u d = true → (code = 5 → (tget u.stgs (dTarget d) {}).wz = true) → busMaster u d.vi = true → usesWindow u d = false →
        o = .next (modDesc u d.id (fun x => { x with st := .drive, since := u.devTime })))
    (HeadReady s s1 vi q.toNat 2 b r →
      let u := (w 2).1
      let d := (w 2).2
      let n := bits (dWord d 3) 39 0
      let sp := bits (dWord d 0) 11 8
      let dp := bits (dWord d 0) 15 12
      exec (.copy vi q) s = .next (settle (tryStart u d))
      ∧ (gateOk u d = false → exec (.copy vi q) s = .next (settle u))
      ∧ (gateOk u d = true → copyOk d = true → sp = 0 → dp = 0 → spaceOk u d sp (dWord d 1) n .rd = true → spaceOk u d dp (dWord d 2) n .wr = true →
        spaceOut sp (dWord d 1) = false → spaceOut dp (dWord d 2) = false →
        ((dWord d 2).toNat + n ≤ (dWord d 1).toNat ∨ (dWord d 1).toNat + n ≤ (dWord d 2).toNat) →
        ∀ t data, rangeRead u d.vi (dWord d 1) n [] = some (t, data, false) →
        exec (.copy vi q) s = .next (settle (finish (nextFree (copyOut t d data [(0, n, false)])) d 0 0 n (dUser d))))
      ∧ (gateOk u d = true → copyOk d = true → (spaceOk u d sp (dWord d 1) n .rd = false ∨ spaceOk u d dp (dWord d 2) n .wr = false) →
        exec (.copy vi q) s = .next (settle (finish u d 5 0x80 0 (dUser d)))))
    ∧ (HeadReady s s1 vi q.toNat 3 b r →
      stg (exec (.stgRead vi q) s) 1 ∧ stg (exec (.stgWrite vi q) s) 2 ∧ stg (exec (.stgFlush vi q) s) 3
      ∧ stg (exec (.stgDeallocate vi q) s) 4 ∧ stg (exec (.stgWriteZeroes vi q) s) 5)
    ∧ (∀ seq d, findDesc s vi q.toNat seq = some d → d.st = .waiting → working s = true →
      exec (.descriptorGateRelease vi q seq) s = .next (settle (tryStartAny s d)))

/-- R323-R326, R333, R340, R342-R344: what comes back. A host read's data is moved on and a refused one completes with its code; an NVMe
completion ends its descriptor and its window pages, OK with its bytes or with the drive's status in DETAIL, and none within the target's
timeout ends it with TIMEOUT; a read unanswered for the selected time retires its tag and times out, and a completion with a retired tag is
an Unexpected Completion; a drive's window access of a page it was given reads or writes the buffer, and any other is refused and recorded;
and an NVMe/TCP connection retransmits through its port. -/
def Obligations.CompletionsArrive : Prop :=
  ∀ (s : State) (vi : Vi) (q : BitVec 4) (seq : BitVec 48) (data : List Byte),
    (∀ d, findDescIn s vi q.toNat seq .reading = some d → d.dead = false →
      exec (.hostReadCompletion vi q seq .ok data) s = .next (settle (copyMove s d data))
      ∧ exec (.hostReadCompletion vi q seq .refused data) s = .next (finish s d 5 0x82 0 (dUser d)))
    ∧ (∀ d, findDescIn s vi q.toNat seq .drive = some d → d.st = .drive → d.dead = false →
      let w := { s with stgWin := s.stgWin.filter (fun p => p.2.1 != d.id) }
      (∀ st : BitVec 15, st ≠ 0 → exec (.nvmeCompletion vi q seq st data) s
        = .next (finish w d (if unrecovered st then 0x0A else 5) 0x85 0 (st.setWidth 32)))
      ∧ (d.poisoned = false → (dOp d = 1 → bufSpace d = 0 → usesWindow w d = true) → exec (.nvmeCompletion vi q seq 0 data) s
        = .next (finish w d 0 0 (if dOp d = 3 then 0 else stgBytes s d) (dUser d)))
      ∧ (tgtTimeout s (dTarget d) * 1000000 ≤ (s.devTime - d.since).toNat → exec (.nvmeCmdTimeout vi q seq) s = .next (finish w d 4 0x86 0 0)))
    ∧ (∀ (r : ReadOf) (tag : BitVec 14) (hdr : List Byte) (t : Word), readSince s r = some t → (getCfg s (readFn s r)).ctoDis = false →
      tagRetired s (readFn s r) tag = false → ctoNs (getCfg s (readFn s r)).ctoVal ≤ (s.devTime - t).toNat →
      exec (.completionTimeout r tag hdr) s = .next (settle (timeoutRead (retireTag s (readFn s r) tag hdr) r)))
    ∧ (∀ (fn : Fn) (tag : BitVec 14) (hdr : List Byte), tagRetired s fn tag = true →
      exec (.unexpectedCompletion fn tag hdr) s = .next (aerUnc s fn 16 hdr))
    ∧ (∀ (port : Fin 2) (rid : BitVec 16) (off : BitVec 34) (r : WinReq) (ext : List Byte),
      let page := port.val * 4194304 + off.toNat / 4096
      (tget? s.stgWin page = none → exec (.storageWindowAccess port rid off r ext) s
        = .next (raiseErr { s with reply := [], replyPoison := false } { cause := 1, sev := 0, addr := BitVec.ofNat 64 off.toNat, arg0 := rid.setWidth 64 }))
      ∧ (∀ id k d, tget? s.stgWin page = some (id, k) → s.descs.find? (fun d => d.id == id) = some d → d.dead = false →
        bits (rget s (stgTgtReg (dTarget d))) 15 0 = rid.toNat →
        let at0 := 4096 * k + off.toNat % 4096
        let a := dWord d 1 + BitVec.ofNat 64 at0
        (∀ n : BitVec 13, r = .read n → at0 + n.toNat ≤ stgBytes s d → off.toNat % 4096 + n.toNat ≤ 4096 → ∀ t b p, rangeRead s d.vi a n.toNat ext = some (t, b, p) →
          exec (.storageWindowAccess port rid off r ext) s
            = .next { modDesc t id (fun x => { x with poisoned := x.poisoned || p }) with reply := b, replyPoison := p })
        ∧ (∀ b t, r = .write b false → at0 + b.length ≤ stgBytes s d → off.toNat % 4096 + b.length ≤ 4096 → rangeWriteBy s d.vi a b (.desc id) = some t →
          exec (.storageWindowAccess port rid off r ext) s = .next t)))
    ∧ (∀ (target : BitVec 6) (p : Port),
      let w := rget s (stgTgtReg target.toNat)
      portOfNat (bits w 59 56) = some p → bits w 61 60 = 2 → (bits w 63 62 = 1 ∨ bits w 63 62 = 3) → slowUp s (p.val / 3) = true → runsEth s p = true →
      14 ≤ data.length → data.length + 4 ≤ maxFrame s p → exec (.tcpRetransmit target data) s = .next (toIris s p { kind := 2, data := data }))

/-- R348-R356, R360, R363: commands of a port's Prism. With no command before and no bank copy under way, RULE_WRITE and TPL_WRITE put
the buffer in the shadow bank; COMMIT exchanges the banks and starts the copy, which ends with the shadow equal to the active bank; TEST
clears both banks; RULE_CLEAR zeroes a rule's counters; a read fills the buffer from the shadow bank; and flow commands insert, remove and read contexts. Each
reports its status. -/
def Obligations.PrismCommands : Prop :=
  ∀ (s : State) (fn : Fn) (p : Port) (i : BitVec 11),
    let m := getPrism s p
    let k := prmStat p
    let cmd := [prmReg p 0x10]
    (PrmIdle s fn p 0x10 →
      (m.copying = false → badAction s m.shadow (ruleAction (getWords s (prmReg p 0x1000) 24)) = false → answers (exec (.ruleWrite fn p i) s)
        (setPrism s p { m with shadow := { m.shadow with rules := tset m.shadow.rules i.toNat (getWords s (prmReg p 0x1000) 24) } }) cmd k 0 0)
      ∧ (m.copying = false → badAction s m.shadow (ruleAction (getWords s (prmReg p 0x1000) 24)) = true →
        answers (exec (.ruleWrite fn p i) s) s cmd k 0x0B 0x80)
      ∧ (m.copying = false → i.toNat ≤ 63 → tplOk (getWords s (prmReg p 0x1000) 16) = true → answers (exec (.tplWrite fn p i) s)
        (setPrism s p { m with shadow := { m.shadow with tpls := tset m.shadow.tpls i.toNat (getWords s (prmReg p 0x1000) 16) } }) cmd k 0 0)
      ∧ (m.copying = false → answers (exec (.commit fn p) s)
        (setPrism s p { m with bank := !m.bank, active := m.shadow, shadow := m.active, copying := true }) cmd k 0 0)
      ∧ (m.copying = true → answers (exec (.commit fn p) s) s cmd k 1 0x81)
      ∧ (m.copying = false → m.cur ≠ 2 → answers (exec (.test fn p true) s) (setPrism s p { m with active := {}, shadow := {} }) cmd k 0 0
        ∧ answers (exec (.test fn p false) s) (setPrism s p { m with active := {}, shadow := {} }) cmd k 5 0x83)
      ∧ answers (exec (.ruleClear fn p i) s) (setPrism s p { m with cnts := tdel m.cnts i.toNat }) cmd k 0 0
      ∧ (let x := tget m.shadow.rules i.toNat (List.replicate 192 0)
        x.length = 192 → ∃ u, exec (.ruleRead fn p i) s = .next u ∧ u = { s with regs := u.regs } ∧ reports u k 0 0
          ∧ getWords u (prmReg p 0x1000) 24 = x)
      ∧ (let x := tget m.shadow.tpls i.toNat (List.replicate 128 0)
        i.toNat ≤ 63 → x.length = 128 → ∃ u, exec (.tplRead fn p i) s = .next u ∧ u = { s with regs := u.regs } ∧ reports u k 0 0
          ∧ getWords u (prmReg p 0x1000) 16 = x))
    ∧ (m.copying = true → exec (.bankCopyComplete p) s = .next (setPrism s p { m with shadow := m.active, copying := false }))
    ∧ (m.cur = 2 → exec (.bankError p) s = .next (raiseErr
        (prismDrop (setPrism s p { m with cur := if bit (prmMode s p) 4 && bit (rget s (prmReg p 0x18)) 0 then 1 else 0 }) p.val 14)
        { cause := 0x0B, sev := 2, unit := quadUd s (portQuad p).toNat, arg0 := BitVec.ofNat 64 p.val }))
    ∧ (PrmIdle s fn p 0x400 →
      let key := flowKey (getWords s (prmReg p 0x1100) 16)
      let act := ((getWords s (prmReg p 0x1100) 16).drop 0x30).take 48
      (∀ vi n, badAction s m.active act = false → flowExists s key = false → flowCount s < 1048576 → pickCtx s vi = .ok n →
        answers (exec (.flowInsert fn p vi) s) (newCtx s vi n (.flow vi key act {})) [prmReg p 0x400] k 0 0
        ∧ (n < 2 ^ 24 → ∃ u, exec (.flowInsert fn p vi) s = .next u ∧ bits (rget u (prmReg p 0x400)) 63 40 = n))
      ∧ (∀ (c : BitVec 24) o ky a n, getFlow s c.toNat = some (o, ky, a, n) → ctxReachable s c.toNat = true →
        answers (exec (.flowRemove fn p c) s) (freeCtx s o c.toNat) [prmReg p 0x400] k 0 0
        ∧ ∃ u, exec (.flowRead fn p c) s = .next u ∧ u = { s with regs := u.regs } ∧ reports u k 0 0)
      ∧ (∀ c : BitVec 24, getFlow s c.toNat = none → answers (exec (.flowRemove fn p c) s) s [prmReg p 0x400] k 5 0x85))

/-- R348, R353, R364-R370, R492, R512: frames and receive rings. A frame the MAC and MACsec pass is classified, one that overruns or
stops is dropped under its reason; the mode of a port changes between frames; a receive ring starts from its configuration with the
event counter's value and stops on EN 0, a VF's write being refused; a Steward takes a slow-path frame; and a datagram incomplete 10 ms
after its first fragment is dropped. -/
def Obligations.FramesReceived : Prop :=
  ∀ (s : State) (fn : Fn) (vi : Vi) (p : Port),
    (∀ f : RxFrame, FrameTaken s p f →
      let t := (msecRecv s p f.tag).1
      ∀ b, (msecRecv s p f.tag).2 = some b →
        (f.overrun = false → exec (.frameReceive p f) s = .next (settle (brmFrames (classify t p f.data b false t.devTime))))
        ∧ (f.overrun = true → exec (.frameReceive p f) s = .next (prismDrop t p.val 8)))
    ∧ (∀ f : RxFrame, runsEth s p = true → linkUp s p = true → working s = true →
      (maxFrame s p < f.data.length + 4 → exec (.frameReceive p f) s = .next (macDiscard s p))
      ∧ (f.data.length + 4 ≤ maxFrame s p → f.stopped = true → exec (.frameReceive p f) s = .next (prismDrop s p.val 2)))
    ∧ (∀ m : PrmModeW, isPf fn = true → HostReaches s fn (portOff p 0) → m.mode ≠ 3 → (m.mode = 1 → bit (rget s (prmReg p 0x18)) 0 = true) →
      exec (.prmModeWrite fn p m) s = .next (setPrism (rset s (prmReg p 0) (prmModeWord m)) p { getPrism s p with cur := m.mode }))
    ∧ (∀ (r : BitVec 4) (c : RingCfg),
      let off := rxOff r.toNat + 8
      let key := ringKey vi r.toNat
      let x := getRx s vi r.toNat
      let w (en : Bool) : Word := c.word en &&& 0xC00FFFFFFFFF001F
      let stored (en : Bool) := rset s (viReg vi off) (w en)
      ViReaches s fn vi off →
      (isPf fn = false → exec (.rxRingEnable fn vi r c) s = .next (settle (viRefused s fn vi off)))
      ∧ (isPf fn = true → x.run = false → bit (w true) 63 = true →
        (rxRingOk (stored true) vi r.toNat = true → exec (.rxRingEnable fn vi r c) s = .next { stored true with rx := tset s.rx key { run := true, base := (getSyn s (bits (w true) 47 32)).value } })
        ∧ (rxRingOk (stored true) vi r.toNat = false → exec (.rxRingEnable fn vi r c) s = .next (stored true)))
      ∧ (isPf fn = true → x.run = true → bit (w false) 63 = false → setBits (w false) 63 63 0 = setBits (rget s (viReg vi off)) 63 63 0 →
        exec (.rxRingDisable fn vi r c) s
          = .next (rset { s with rx := tset s.rx key { x with run := false } } (viReg vi off) (setBits (rget s (viReg vi off)) 63 63 0))))
    ∧ (∀ (quad : BitVec 2) (owned : Bool) (f : SlowFrame), s.slowQ.find? (fun x => x.1 == quad) = some (quad, f) → slowUp s quad.toNat = true →
      let w := fwPoint { s with slowQ := s.slowQ.erase (quad, f) } 1 (4 * quad.toNat + 2)
      (f.cause = 4 → exec (.slowPathFrame quad owned) s = .next (settle (slowCount w f.port 4)))
      ∧ (f.cause ≠ 4 → f.cause ≠ 2 → exec (.slowPathFrame quad owned) s
        = .next (settle (if owned then slowCount w f.port 1 else slowDeliver w f)))
      ∧ (∀ pt, f.cause = 2 → portOfNat f.port = some pt → exec (.slowPathFrame quad owned) s = .next (settle (reassemble w quad f pt))))
    ∧ (∀ (quad : BitVec 2) (n : Nat) (d : Datagram), (s.reasm.filter (fun d => d.quad == quad))[n]? = some d →
      10000000 ≤ (s.devTime - d.first).toNat → exec (.reassemblyTimeout quad n) s = .next (prismDrop { s with reasm := s.reasm.erase d } d.port 13))

/-- R377, R380-R396: Iris. A frame a source offers goes to its stage or queue; a shaper gains its bits once each microsecond; the MAC takes
the chosen frame and its end writes the timestamp and counts; instance shapes act at once, class shapes at the next refill and queue
settings at the next choice; a configuration change that the checks pass waits for its time, then the administrative list is operational,
and a cancelled one does not; transmit and sample rings start from their configuration and stop on EN 0. -/
def Obligations.IrisOperations : Prop :=
  ∀ (s : State) (fn : Fn) (vi : Vi) (p : Port),
    let x := getIris s p
    (∀ (data : List Byte), runsEth s p = true → 14 ≤ data.length → data.length + 4 ≤ maxFrame s p →
      exec (.frameToIris p .storage data) s = .next (toIris s p { kind := 2, data := data })
      ∧ exec (.frameToIris p .snapshot data) s = .next (toIris s p { kind := 3, data := data })
      ∧ exec (.frameToIris p .telemetry data) s = .next (toIris s p { kind := 4, data := data })
      ∧ exec (.frameToIris p .steward data) s = .next (toIris s p { kind := 5, data := data }))
    ∧ (∀ (data : List Byte) (o : BrmOut), runsEth s p = true → s.brmOut.find? (fun o => o.vi == vi && decide (bits o.par 11 8 = p.val)) = some o →
      stageFull s p vi = false → exec (.frameToIris p (.brm vi) data) s
        = .next (toIris (nextFree { s with brmOut := s.brmOut.erase o }) p { kind := 1, data := brmFrameOut s o, vi := some vi }))
    ∧ (s.devTime.toNat % 1000 = 0 →
      let h := tget x.viSh vi.toNat {}
      let w := rget s (viShapeReg vi p)
      (h.last = some s.devTime → exec (.shaperRefill p (.inst vi)) s = .next s)
      ∧ (h.last ≠ some s.devTime → exec (.shaperRefill p (.inst vi)) s = .next (runShaper
          (setIris s p { x with viSh := tset x.viSh vi.toNat { h with credit := refillTo w h.credit, last := some s.devTime } }) p true vi.toNat))
      ∧ (∀ c : BitVec 2, (tget x.clSh c.toNat {}).last ≠ some s.devTime →
        let g := tget x.clSh c.toNat {}
        let k := clShapeReg p c.toNat
        let due := g.pend.filter (fun y => y.2 != s.devTime)
        let u := match due.getLast? with | some (v, _) => rset s k v | none => s
        let w := rget u k
        exec (.shaperRefill p (.cls c)) s = .next (runShaper (setIris u p { x with clSh := tset x.clSh c.toNat { g with
          credit := refillTo w (min g.credit (fullCredit w)), last := some s.devTime, pend := g.pend.filter (fun y => y.2 == s.devTime) } }) p false c.toNat)))
    ∧ (portUse s p < 2 → msecReady s p = true → exec (.frameTransmitStart p) s = .next (
        if x.tx.isNone && (getIris (transmitStart s p) p).tx.isSome then msecSend (transmitStart s p) p else transmitStart s p))
    ∧ (2 ≤ portUse s p → exec (.frameTransmitStart p) s = .next (linkTransmit s p))
    ∧ (∀ f start q, x.tx = some (f, start, q) →
      let w := setIris s p { x with tx := none }
      (f.slot = none → exec (.frameTransmitEnd p) s = .next w)
      ∧ (∀ ccnt a v, f.slot = some (ccnt, a, false) → f.vi = some v → exec (.frameTransmitEnd p) s = .next (settle (ecBump w ccnt 1)))
      ∧ (∀ ccnt a v, f.slot = some (ccnt, a, true) → f.vi = some v → exec (.frameTransmitEnd p) s = .next (settle (ecBump
          ((instWrite w v (a + 8) (toBytes 8 start.toNat)).getD (ringFault w v a 0x200)) ccnt 1))))
    ∧ (∀ v : Word,
      let k := viShapeReg vi p
      let w := shapeVal (rget s k) v 0xC0FFFFFFFF1FFFFF
      let c := if bit w 62 ∨ !bit w 63 then fullCredit w else 0
      ViReaches s fn vi (0xE00 + 8 * p.val) → isPf fn = true → exec (.viShapeWrite fn vi p v) s = .next (settle (runShaper
        (rset (setIris s p { x with viSh := tset x.viSh vi.toNat { tget x.viSh vi.toNat {} with credit := c } }) k w) p true vi.toNat)))
    ∧ (∀ (c : BitVec 2) (v : Word), isPf fn = true → HostReaches s fn (portOff p (0x4400 + 8 * c.toNat)) →
      let sh := tget x.clSh c.toNat {}
      let old := match sh.pend.getLast? with | some (w, _) => w | none => rget s (clShapeReg p c.toNat)
      exec (.irsCshapeWrite fn p c v) s = .next (setIris s p { x with
        clSh := tset x.clSh c.toNat { sh with pend := sh.pend ++ [(shapeVal old v 0x80FFFFFFFF1FFFFF, s.devTime)] } }))
    ∧ (∀ (q : BitVec 4) (v : Word), isPf fn = true → HostReaches s fn (portOff p (0x4100 + 8 * q.toNat)) → bits v 57 48 ≠ 0 →
      1 ≤ bits v 13 0 → bits v 13 0 ≤ 8192 →
      let k := irsReg p (0x100 + 8 * q.toNat)
      let w := at_ (bits v 63 63) 63 ||| at_ (bits v 57 48) 48 ||| at_ (bits v 13 0) 0
      exec (.irsQcfgWrite fn p q v) s = .next (settle (runShapers
        (rset (if bit w 63 != bit (rget s k) 63 then setIris s p { x with deficit := tset x.deficit q.toNat 0 } else s) k w) p)))
    ∧ (∀ c : GclW, isPf fn = true → HostReaches s fn (portOff p 0x4800) → x.pend = false →
      let w := rset s (gclReg p) (gclWord c)
      (c.en = true → gclCheck w p = 0 → exec (.configChange fn p c) s
        = .next (setIris w p { x with gclErr := 0, chtime := BitVec.ofNat 64 (chTime w p), pend := true }))
      ∧ (c.en = true → gclCheck w p ≠ 0 → exec (.configChange fn p c) s = .next (setIris w p { x with gclErr := BitVec.ofNat 8 (gclCheck w p) }))
      ∧ (c.en = true → exec (.gateEnWrite fn p c) s = .next w)
      ∧ (c.en = false → exec (.gateEnWrite fn p c) s = .next (setIris w p { x with pend := false })))
    ∧ (∀ c : GclW, isPf fn = true → HostReaches s fn (portOff p 0x4800) → x.pend = true → bits (rget s (gclReg p)) 21 13 = c.alen.toNat →
      exec (.cancel fn p c) s = .next (setIris (rset s (gclReg p) (gclWord c)) p { x with pend := false }))
    ∧ (x.pend = true → x.chtime.toNat ≤ s.devTime.toNat → exec (.configChangeTime p) s = .next (setIris s p { x with oper := aList s p, obase := x.chtime, ocycle := aCycle s p, pend := false, gates := BitVec.ofNat 16 (listGates (aList s p) (s.devTime.toNat - x.chtime.toNat)) }))
    ∧ exec (.gateEntryAdvance p) s = .next (setIris s p { x with gates := BitVec.ofNat 16 (gatesAt s p s.devTime.toNat) })

/-- R392-R396: transmit rings and queue samples. A transmit ring starts from its configuration with its event counter's value and stops on
EN 0; a posted slot of a running ring is taken in its instance's turn, and its frame goes to Iris or, with a length out of range, is dropped with its counter
raised; a sample ring starts and stops alike, and a sample that finds no room counts as lost. -/
def Obligations.TransmitAndSampleRings : Prop :=
  ∀ (s : State) (fn : Fn) (vi : Vi) (r : BitVec 4) (p : Port),
    let key := ringKey vi r.toNat
    let off := 0xC08 + 0x20 * r.toNat
    let x := tget s.tx key {}
    let y := getIris s p
    (∀ c : RingCfg,
      let w (en : Bool) : Word := c.word en &&& 0x8F0FFFFFFFFF001F
      let stored (en : Bool) := rset s (viReg vi off) (w en)
      ViReaches s fn vi off →
      (isPf fn = false → exec (.txRingEnable fn vi r c) s = .next (settle (viRefused s fn vi off)))
      ∧ (isPf fn = true → x.run = false → bit (w true) 63 = true →
        (txRingOk (stored true) vi r.toNat = true → exec (.txRingEnable fn vi r c) s = .next { stored true with tx := tset s.tx key { run := true, reqAt := s.devTime, base := (getSyn s (bits (w true) 31 16)).value } })
        ∧ (txRingOk (stored true) vi r.toNat = false → exec (.txRingEnable fn vi r c) s = .next (stored true)))
      ∧ (isPf fn = true → x.run = true → bit (w false) 63 = false → setBits (w false) 63 63 0 = setBits (rget s (viReg vi off)) 63 63 0 →
        exec (.txRingDisable fn vi r c) s
          = .next (rset { s with tx := tset s.tx key { x with run := false } } (viReg vi off) (setBits (rget s (viReg vi off)) 63 63 0))))
    ∧ (∀ (s1 : State) (ext : List Byte),
      let w := txCfg s vi r.toNat
      let slot := 2 ^ bits w 51 48
      let a := txBase s vi r.toNat + BitVec.ofNat 64 (x.count.toNat % 2 ^ bits w 4 0 * slot)
      txReady s vi r.toNat = some p → roundTake s (6 + p.val) (txWork s p) vi = some s1 →
      ∀ t h b, rangeRead (txTaken s1 vi r.toNat) vi a 8 ext = some (t, h, b) →
        let len := ofBytes (h.take 2)
        ((len < 14 ∨ Nat.min (slot - 32) (maxFrame t p - 4) < len) →
          exec (.txSlotTake vi r ext) s = .next (settle (ecBump (ringFault t vi a (0x200 + r.toNat)) (bits (txCfg t vi r.toNat) 47 32) 1)))
        ∧ (14 ≤ len → len ≤ Nat.min (slot - 32) (maxFrame t p - 4) → ∀ t' d, rangeRead t vi (a + 32) len (ext.drop 32) = some (t', d, false) →
          exec (.txSlotTake vi r ext) s = .next (settle (toIris t' p { kind := 0, data := d, vi := some vi, slot := some (bits w 47 32, a, decide (ofBytes h % 2 ^ 17 ≥ 65536)) }))))
    ∧ (∀ c : SmpCfg,
      let w : Word := c.word &&& 0xC0FFFFFFFFFF001F
      let stored := rset s (irsReg p 0x908) w
      isPf fn = true → HostReaches s fn (portOff p 0x4908) → y.smpRun = false → bit w 63 = true → smpOk stored p = true →
      exec (.sampleRingEnable fn p c) s = .next (setIris stored p { y with smpRun := true, smpBase := (getSyn stored (bits (smpCnt stored p) 47 32)).value, smpRecs := 0, smpNum := 0, smpAt := none }))
    ∧ (let w := smpCfg s p
      let us := if bits w 31 16 = 0 then 1000 else bits w 31 16
      let qs := (List.range 16).filter (fun q => (bits w 47 32).testBit q)
      let held := (y.smpRecs - ((getSyn s (bits (smpCnt s p) 47 32)).value - y.smpBase)).toInt
      y.smpRun = true → s.devTime.toNat % (us * 1000) = 0 → y.smpAt ≠ some s.devTime →
      ((2 : Int) ^ bits w 4 0 < held + qs.length → exec (.queueSample p) s
        = .next (setIris s p { y with smpAt := some s.devTime, smpLost := y.smpLost + 1, smpWrap := y.smpWrap || decide (y.smpLost + 1 = 0) }))
      ∧ (held + qs.length ≤ (2 : Int) ^ bits w 4 0 → bit w 62 = false →
        let t := smpWriteAll s p (smpVi w) (2 ^ bits w 4 0) y.smpRecs.toNat qs
        let z := getIris t p
        exec (.queueSample p) s = .next (settle (setIris t p { z with smpAt := some t.devTime, smpNum := z.smpNum + 1, smpRecs := z.smpRecs + BitVec.ofNat 48 qs.length, smpDrop := qs.foldl (fun t q => tdel t q) z.smpDrop, smpMax := qs.foldl (fun t q => tdel t q) z.smpMax }))))

/-- R272, R401-R409, R415, R429: BRM descriptors. In its instance's turn each takes the descriptor at the head of a BRM queue. One whose gate is
met starts, the others wait: QP_CREATE gives a new end on a link the context's next generation; CONNECT waits CONNECTING with the peer's
handle and sends its request; QP_DESTROY frees an unconnected end at once and closes a connected one; QP_QUERY writes the status; REGISTER
gives a region and its key; REVOKE begins; and a WRITE, READ or ATOMIC on a CONNECTED end becomes its next message. A revoked region with
nothing admitted is freed and its REVOKE completes OK, and so is a closing end with no message left, which tells its peer. -/
def Obligations.BrmDescriptors : Prop :=
  (∀ (s s1 : State) (vi : Vi) (q : BitVec 4) (b : List Byte) (r : List (List Byte)), HeadReady s s1 vi q.toNat 4 b r →
    let w := newDesc (headTaken s1 vi q.toNat r) vi q.toNat 4 (getSq s vi q.toNat).seq b
    let s' := w.1
    let d := w.2
    let op := ofBytes (b.take 1)
    let starts (o : Host.Outcome State Fault Refusal) (t : State) : Prop :=
      gateOk s' d = true → featureVer s.fw 4 ≠ 0 → brmDescOk d = true → o = .next (settle t)
    let on (o : Host.Outcome State Fault Refusal) (code : Nat) : Prop := op = code →
      o = .next (settle (tryStartAny s' d)) ∧ (gateOk s' d = false → o = .next (settle s'))
    let message (o : Host.Outcome State Fault Refusal) (code : Nat) : Prop := op = code → ∀ n e, bQp s' d = .ok (n, e) → e.bad = false →
      (e.st = 2 → bit (dWord d 0) 22 = false → accOk d = true → localOk s' d = true → code ≠ 3 →
        starts o (settleAll (sendMsg (inMessage s' d) n e (bMsg d [])) n))
      ∧ (e.st = 2 → bit (dWord d 0) 22 = false → localOk s' d = true → code = 3 →
        (bits (dWord d 0) 27 24 ≠ 9 →
          starts o (settleAll (sendMsg (inMessage s' d) n e (bMsg d (toBytes 8 (dWord d 5).toNat ++ List.replicate 8 0))) n))
        ∧ (bits (dWord d 0) 27 24 = 9 → ∀ t y, rangeRead s' d.vi (dWord d 1) 8 [] = some (t, y, false) →
          starts o (settleAll (sendMsg (inMessage t d) n e (bMsg d (toBytes 8 (dWord d 5).toNat ++ y))) n)))
      ∧ (e.st ≠ 2 → starts o (bFail s' d (1, 0x91)))
    (on (exec (.brmWrite vi q) s) 1 ∧ on (exec (.brmRead vi q) s) 2 ∧ on (exec (.brmAtomic vi q) s) 3 ∧ on (exec (.qpCreate vi q) s) 0x10
      ∧ on (exec (.connect vi q) s) 0x11 ∧ on (exec (.qpDestroy vi q) s) 0x12 ∧ on (exec (.qpQuery vi q) s) 0x13
      ∧ on (exec (.register vi q) s) 0x20 ∧ on (exec (.revoke vi q) s) 0x21)
    ∧ message (exec (.brmWrite vi q) s) 1 ∧ message (exec (.brmRead vi q) s) 2 ∧ message (exec (.brmAtomic vi q) s) 3
    ∧ (∀ n e, bQp s' d = .ok (n, e) →
      (op = 0x11 → e.bad = false → e.st = 0 →
        let e' := { e with st := 1, peer := dWord d 3, sentReq := true, accepted := false, connect := some (d.q, d.seq, bUser d), connAt := s'.devTime, reqAt := s'.devTime }
        starts (exec (.connect vi q) s) (sendShake (setQp (inMessage s' d) n e') n e' 0x10))
      ∧ (op = 0x12 → (e.st = 0 ∨ e.st = 3) → starts (exec (.qpDestroy vi q) s) (finish (freeQp s' n e) d 0 0 0 (bUser d)))
      ∧ (op = 0x12 → e.st = 2 →
        starts (exec (.qpDestroy vi q) s) (setQp (inMessage s' d) n { e with st := 4, destroy := some (d.q, d.seq, bUser d) }))
      ∧ (op = 0x13 → e.bad = false → ∀ t, rangeWriteBy s' d.vi (dWord d 1) (qpStatus e) (.desc d.id) = some t →
        starts (exec (.qpQuery vi q) s) (finish t d 0 0 64 (bUser d))))
    ∧ (∀ n x, op = 0x21 → regionOf s' ((dWord d 3).setWidth 48) = some (n, x) → x.owner = d.vi → ctxReachable s' n = true →
      (x.revoke = none → starts (exec (.revoke vi q) s) (setRegion (inMessage s' d) n { x with revoke := some (d.q, d.seq, bUser d) }))
      ∧ (x.revoke ≠ none → starts (exec (.revoke vi q) s) (bFail s' d (3, 0))))
    ∧ (∀ t x n, op = 0x20 → bRead s' d 32 = .ok (t, x) → pickCtx t d.vi = .ok n →
      let e : Region := { owner := d.vi, gen := 0, blk := BitVec.ofNat 256 (ofBytes x) }
      let g := nextGen24 (tget t.regGens n 0)
      regionOk e = true → regionMapped t d.vi e = true → importClash t d.vi e = false → regEnc e = false →
      starts (exec (.register vi q) s) (finish (newCtx { t with regGens := tset t.regGens n g } d.vi n (.region { e with gen := g })) d 0 0
        (rkeyOf n { e with gen := g }).toNat (bUser d)))
    ∧ (∀ t x n, op = 0x10 → bits (dWord d 1) 5 0 = 0 → bRead s' d 128 = .ok (t, x) → pickCtx t d.vi = .ok n →
      let e0 : Qp := { owner := d.vi, gen := 0, par := BitVec.ofNat 1024 (ofBytes x), home := 0 }
      let g := nextGen16 (tget t.qpGens n 0)
      let e : Qp := { e0 with gen := g, home := qpHomeOf t e0 }
      qpParOk t d.vi e0 = true → qpThreads e0 = false → qpEnc e0 = false → qpLink e0 = 0 →
      starts (exec (.qpCreate vi q) s)
        (finish (setQp (newCtx { t with qpGens := tset t.qpGens n g } d.vi n (.qp e)) n { e with flows := [] }) d 0 0 (qpHandle n e).toNat (bUser d))))
  ∧ (∀ (s : State) (c : BitVec 24),
      (∀ r q seq u, getRegion s c.toNat = some r → r.revoke = some (q, seq, u) → r.admitted = [] →
        exec (.revokeComplete c) s = .next (settle (brmFinish (freeCtx s r.owner c.toNat) r.owner q seq (0, 0) 0)))
      ∧ (∀ q, getQp s c.toNat = some q → q.st = 4 → q.msgs = [] →
        let t := freeQp (emitCtl s q 0x12 0 0 0 []) c.toNat q
        (∀ k seq u, q.destroy = some (k, seq, u) → exec (.qpCloseComplete c) s = .next (settle (brmFinish t q.owner k seq (0, 0) 0)))
        ∧ (q.destroy = none → exec (.qpCloseComplete c) s = .next t)))

/-- R401, R405, R407, R416-R429: BRM packets and timers. A request in order whose region grants it is admitted and placed, a read request
is answered, a response is placed at its message's buffer, and a packet of an ended message is answered with a NAK; ACK, NAK and HELD act
on the sender's packets; the connection handshake connects a CONNECTING end, answering a request, and DISCONNECT ends a connected one; a
placed payload is performed; and each timer acts once its period has passed: the acknowledgement, retransmission or the loss of the end,
the busy retry, CONNECT's repeat and its failure, and a partial message's expiry. -/
def Obligations.BrmPacketsAndTimers : Prop :=
  (∀ (s : State) (p : Pkt) (q : Qp), PacketInOrder s p q →
    let n := p.dqp.toNat
    (msnStale q p.msn = false →
      (∀ k r off len, len = ((pktBytesOf p).map (·.length)).getD 0 → target s q p 1 len = .ok (k, r, off) → p.fence = false →
        exec (.writePacket p) s
          = .next (settle (placeReq (noteRx (setRegion s k { r with admitted := r.admitted ++ [(n, p.psn)] }) n 1 p) n 1 p (regBase r + off))))
      ∧ (∀ k r off, target s q p 4 (if bit p.aux 0 then 8 else 4) = .ok (k, r, off) → p.fence = false →
        exec (.atomicReq p) s
          = .next (settle (placeReq (noteRx (setRegion s k { r with admitted := r.admitted ++ [(n, p.psn)] }) n 4 p) n 4 p (regBase r + off))))
      ∧ exec (.readReq p) s = .next (settle (takeRead p s n q))
      ∧ (∀ k r off, target s q p 2 p.mlen.toNat = .ok (k, r, off) → p.enc = false → rangeOk s q.owner (ownAddr (regBase r + off)) p.mlen.toNat .rd = true →
        let m : TxMsg := { msn := p.msn, opc := 3, src := .gone, loc := ownAddr (regBase r + off), rkey := 0, roff := 0, len := p.mlen.toNat, keyslot := p.keyslot, enc := p.enc }
        let e := psnDone s q p.psn
        exec (.readReq p) s
          = .next (settle (pumpAll (rxComplete (setQp e.1 n { e.2 with resps := e.2.resps ++ [m] }) n p.msn false) n))))
    ∧ exec (.readResp p) s = .next (settle (takeResp 3 p s n q))
    ∧ exec (.atomicResp p) s = .next (settle (takeResp 5 p s n q))
    ∧ (msnStale q p.msn = true →
      let o : Host.Outcome State Fault Refusal := .next (settle (sendNak s q p 8 (staleDetail q p.msn)))
      exec (.writePacket p) s = o ∧ exec (.readReq p) s = o ∧ exec (.atomicReq p) s = o))
  ∧ (∀ (s : State) (p : Pkt) (q : Qp), FromPeer s p q →
      let n := p.dqp.toNat
      let sack := ofBytes (p.data.take 8)
      let done (x : TxPkt) : Bool := before x.psn p.psn || (let i := (x.psn - p.psn - 1).toNat; x.psn != p.psn && decide (i < 64) && sack.testBit i)
      exec (.ack p) s = .next (settle (settleAll (setQp s n (ackPkts q done)) n))
      ∧ (∀ x, q.pkts.find? (fun x => x.psn == p.psn && x.msn == p.msn) = some x → p.aux = 0x0F →
        exec (.nak p) s = .next (settle (setQp s n { q with pkts := q.pkts.map (fun y => if y.psn = x.psn then { y with busy := true, since := s.devTime } else y) })))
      ∧ exec (.held p) s = .next (setQp s n { q with pkts := q.pkts.map (fun y => if y.psn = p.psn then { y with since := s.devTime } else y) })
      ∧ (q.st = 1 → ofBytes (p.data.take 8) = q.peer.toNat →
        exec (.connectReq p) s = .next (settle (qpConnected (sendShake s n q 0x11) n q)) ∧ exec (.connectResp p) s = .next (settle (qpConnected s n q)))
      ∧ (q.st = 2 → exec (.disconnect p) s = .next (settle (loseQp s n))))
  ∧ (∀ (s : State) (c : BitVec 24) (q : Qp), getQp s c.toNat = some q →
      let n := c.toNat
      (∀ psn x, q.placed.find? (fun x => x.psn == psn) = some x → brmOpen s n x.msn psn = false →
        exec (.placementPerformed c psn) s = .next (settle (performPlaced s n q x)))
      ∧ (q.toAck > 0 → (if bits (rget s 0x300000) 15 0 = 0 then 1000 else bits (rget s 0x300000) 15 0) ≤ (s.devTime - q.ackFrom).toNat →
        exec (.ackTimer c) s = .next (sendAck (setQp s n { q with toAck := 0 }) q))
      ∧ (∀ psn x, q.pkts.find? (fun x => x.psn == psn && !x.busy) = some x → working s = true → rtoNs q x.sends ≤ (s.devTime - x.since).toNat →
        (qpRetries q < x.sends → exec (.retransmitTimeout c psn) s = .next (settle (loseQp s n)))
        ∧ (x.sends ≤ qpRetries q → exec (.retransmitTimeout c psn) s = .next (brmDrop (resend s n { q with retrans := q.retrans + 1 } x) 5)))
      ∧ (∀ psn x, q.pkts.find? (fun x => x.psn == psn && x.busy) = some x → working s = true →
        Nat.max 1 (bits (rget s 0x300000) 31 16) * 1000 ≤ (s.devTime - x.since).toNat →
        exec (.busyRetransmit c psn) s = .next (resend s n q { x with sends := x.sends - 1 }))
      ∧ (q.st = 1 → qpRtoUs q * 1000 ≤ (s.devTime - q.reqAt).toNat → exec (.connectReqTimer c) s = .next (sendShake (setQp s n { q with reqAt := s.devTime }) n q 0x10))
      ∧ (q.st = 1 → 1000000000 ≤ (s.devTime - q.connAt).toNat → ∀ k seq u, q.connect = some (k, seq, u) →
        exec (.connectTimeout c) s
          = .next (settle (brmFinish (setQp s n { q with st := 0, connect := none, sentReq := false, accepted := false }) q.owner k seq (4, 0x94) 0)))
      ∧ (∀ msn m, q.rmsgs.find? (fun m => m.msn == msn) = some m → qpMsgUs q * 1000 ≤ (s.devTime - m.firstAt).toNat →
        exec (.messageExpiry c msn) s = .next (settle (failRx (raiseErr (brmDrop s 6)
          { cause := 0x0F, sev := 2, vi := some q.owner, status := 4, arg0 := qpHandle n q, arg1 := msn.setWidth 64 }) n msn))))

/-- R434, R437-R442: Barvar links. EN 1 trains a port of a used kind and EN 0 takes it down; a packet in order is taken and acted on here or
forwarded, a stomped one taken and counted, one out of order discarded; a retry request is counted and the eighth of one position takes
the link down; an acknowledgement clears the retry buffer and returns credits; a matching LINK_INIT brings the link up, at half width
after a lane failure, and another leaves it MISWIRED; a failed lane retrains at half width and one on the other half, loss of lock and 1 s
of silent training take it down; a DOWN link retrains after 1 s. `DEV_FAB_CFG` takes a valid site only while disabled. -/
def Obligations.BarvarLinks : Prop :=
  ∀ (s : State) (fn : Fn) (p : Port),
    let h := getPhy s p
    let laneLost (t : State) : State := let e := linkErr t p 8 1; if portUse e p = 3 then mirrorLinkLost e else e
    (∀ c : PhyCfgW, isPf fn = true → HostReaches s fn (portReg p 0x8000) →
      let old := phyCfg s p
      let w := phyCfgWord true c
      bits w 59 58 = bits old 59 58 → bits w 57 55 = bits old 57 55 → bits old 57 55 ≤ 5 → 64 ≤ bits w 13 0 → bits w 13 0 ≤ 9216 → bits w 59 58 ≠ 0 →
      let kept (en : Nat) := rset s (portReg p 0x8000) (at_ en 63 ||| at_ (bits w 59 58) 58 ||| at_ (bits w 57 55) 55 ||| at_ (bits w 13 0) 0)
      (bit old 63 = false → exec (.portEnable fn p c) s = .next (setPhy (kept 1) p { h with st := 1, lanes := 0, half := false, since := s.devTime }))
      ∧ (bit old 63 = true →
        let off := setPhy s p { h with st := 5, lanes := 0, half := false, since := s.devTime }
        exec (.portDisable fn p c) s = .next (settle (rset (if 2 ≤ portUse s p then linkLost off p else off) (portReg p 0x8000)
          (at_ 0 63 ||| at_ (bits w 59 58) 58 ||| at_ (bits w 57 55) 55 ||| at_ (bits w 13 0) 0)))))
    ∧ (∀ k : LinkPkt, linkOn s p = true → k.ty ≠ 0x0F → k.hcrcOk = true →
      (k.lseq ≠ h.rxSeq → exec (.linkPacketReceive p k) s = .next s)
      ∧ (k.lseq = h.rxSeq → k.stomp = true → exec (.linkPacketReceive p k) s = .next (tookPacket (phyCount s p 4) p))
      ∧ (k.lseq = h.rxSeq → k.stomp = false → k.pcrcOk = true → knownType k.ty = true → k.vc.toNat ≤ 7 → k.body.length ≤ 4168 →
        (k.dst = ownSite s → exec (.linkPacketReceive p k) s = .next (settle (takeLocal (tookPacket s p) p k)))
        ∧ (k.dst ≠ ownSite s → exec (.linkPacketReceive p k) s
          = .next (if k.ty = 1 ∨ k.ty = 2 ∨ k.ty = 5 then forward (tookPacket s p) (some p) none k else tookPacket s p))))
    ∧ (∀ lseq : BitVec 12, linkOn s p = true →
      let n := if h.replays > 0 ∧ h.replayAt = lseq then h.replays + 1 else 1
      let w := linkErr (setPhy s p { h with replays := n, replayAt := lseq, cnt := bumpCnt h.cnt 3 1 }) p 7 1
      (n < 8 → exec (.linkRetryRequest p lseq) s = .next (settle w)) ∧ (8 ≤ n → exec (.linkRetryRequest p lseq) s = .next (settle (goDown w p))))
    ∧ (∀ (lseq : BitVec 12) (cr : Vector Nat 8), linkOn s p = true →
      let rest := h.retry.filter (fun x => !atOrAfter lseq x.lseq)
      let h' : Phy := { h with retry := rest, replays := (if rest.length < h.retry.length then 0 else h.replays), credit := Vector.ofFn (fun i => Nat.min 512 (h.credit[i] + cr[i])) }
      exec (.linkCtlAck p lseq cr) s = .next (setPhy s p h'))
    ∧ (∀ far : LinkInit, barvar s p = true → h.st = 1 →
      (initMatches s p far = false → exec (.linkInit p far) s = .next (linkLost (setPhy s p { h with st := 4, lanes := 0, nbr := far.dev, since := s.devTime }) p))
      ∧ (initMatches s p far = true →
        let up := setPhy s p { h with st := if h.half then 3 else 2, lanes := if h.half then 4 else 8, nbr := far.dev, since := s.devTime }
        exec (.linkInit p far) s = .next (if portUse s p = 3 ∧ s.pair.st = 0 then { up with pair := { s.pair with st := 1 } } else up)))
    ∧ (∀ lane : Fin 8, barvar s p = true →
      (h.st = 2 → exec (.laneFailure p lane) s = .next (laneLost (setPhy s p { h with st := 1, lanes := 0, half := true, badHigh := decide (lane.val ≥ 4), since := s.devTime, cnt := bumpCnt h.cnt 7 1 })))
      ∧ (h.st = 3 → decide (lane.val ≥ 4) ≠ h.badHigh → exec (.laneFailure p lane) s = .next (settle (goDown s p))))
    ∧ (linkOn s p = true → exec (.lossOfLock p) s = .next (settle (goDown s p)))
    ∧ (barvar s p = true → 1000000000 ≤ (s.devTime - h.since).toNat →
      (h.st = 1 → exec (.trainingTimeout p) s = .next (settle (goDown s p)))
      ∧ (h.st = 0 → bit (phyCfg s p) 63 = true → exec (.retrainTimer p) s = .next (setPhy s p { h with st := 1, since := s.devTime })))
    ∧ (linkOn s p = true → h.ackDue > 0 → 500 ≤ (s.devTime - h.ackAt).toNat →
      exec (.linkAckInterval p) s = .next (setPhy s p { h with ackDue := 0, ackAt := s.devTime }))
    ∧ (∀ v : Word, isPf fn = true → HostReaches s fn (devReg 0x4800) →
      let w := rset s (devReg 0x4800) (v &&& 0xC000FF700000FFFF)
      (fabEn s = true → exec (.devFabCfgWrite fn v) s = .next (settle (accessErr s fn (devReg 0x4800))))
      ∧ (fabEn s = false → siteOk v = true → exec (.devFabCfgWrite fn v) s = .next (settle (if bit v 63 then measFabric w else w))))

/-- R448-R457: the pair. `DEV_PAIR_CFG` is stored unless mirrored granules or an absent feature forbid the mode; TAKEOVER by the standby of a
lost, mirrored partner takes its work over, and every other state answers its code; RESYNC marks the pair RESYNCING, and once every block
is sent and acknowledged its end makes it JOINED and mirrored; heartbeats go every 1 µs over the Mirror link or 10 µs over the torus; a
message of the partner is heard; a partner silent for more than LOSS_US is lost; and the mirror's loss holds until the standby
acknowledges the notice, repeated every 10 µs. -/
def Obligations.PairOperations : Prop :=
  ∀ (s : State) (fn : Fn),
    let pr := s.pair
    (∀ v : Word, isPf fn = true → HostReaches s fn (devReg 0x4808) →
      let old := pairCfg s
      let mode := bits v 63 62
      mode ≠ 3 → 10 ≤ bits v 19 0 → bits v 19 0 ≤ 1000000 →
      let absent := (mode = 1 ∧ featureVer s.fw 5 = 0) ∨ (mode = 2 ∧ featureVer s.fw 6 = 0)
      (absent → exec (.devPairCfgWrite fn v) s = .next (settle (accessErr s fn (devReg 0x4808))))
      ∧ (¬ absent → anyMirror s = false → pr.st ≠ 2 → (mode = 0 ∨ bits old 63 62 ≠ 0) →
        let w := rset s (devReg 0x4808) (at_ mode 62 ||| (v &&& 0x3000000000000000) ||| at_ (bits v 19 0) 0)
        exec (.devPairCfgWrite fn v) s = .next { w with pair := { pr with isolated := false, mode := BitVec.ofNat 2 mode } }))
    ∧ (isPf fn = true → HostReaches s fn (devReg 0x4810) → pr.busy = false →
      let w (op : Nat) := rset s (devReg 0x4810) (at_ op 0)
      ((bits (pairCfg s) 63 62 ≠ 1 ∨ isStandby s = false) → exec (.takeover fn) s = .next (settle (pairDone (w 1) 0x0B 0xA1)))
      ∧ (bits (pairCfg s) 63 62 = 1 → isStandby s = true →
        (pr.st ≠ 3 → exec (.takeover fn) s = .next (settle (pairDone (w 1) 1 0xA3)))
        ∧ (pr.st = 3 → pr.mirAtLoss = false → exec (.takeover fn) s = .next (settle (pairDone (w 1) 8 0xA2)))
        ∧ (pr.st = 3 → pr.mirAtLoss = true → exec (.takeover fn) s = .next (settle (pairDone (takeOver (w 1)) 0 0))))
      ∧ (isStandby s = false → mirrored s = true → pr.st = 2 → mirrorOn s = true → pr.holding = false →
        exec (.resync fn) s = .next { w 2 with pair := { pr with busy := true, st := 5, resyncAt := some 0, resyncLeft := (mirrorHolders (w 2)).foldl (fun a e => a + e.2) 0 } }))
    ∧ (pr.st = 5 → mirrorOn s = true → pr.holding = false → resyncDone s = true →
      exec .resyncComplete s = .next (pairDone { s with pair := { pr with st := 2, mir := 1, unmirrored := 0, resyncAt := none, resyncLeft := 0 } } 0 0))
    ∧ (working s = true →
      (pr.st = 1 ∨ pr.st = 2 ∨ pr.st = 5 →
        (mirrorOn s = true → 1000 ≤ (s.devTime - pr.beatAt).toNat → exec .pairHeartbeat s = .next { s with pair := { pr with beatAt := s.devTime, viaTorus := false } })
        ∧ (mirrorOn s = false → 10000 ≤ (s.devTime - pr.beatAt).toNat → exec .pairHeartbeat s = .next { s with pair := { pr with beatAt := s.devTime, viaTorus := true } }))
      ∧ (∀ m : PairMsg, mirrorOn s = true ∨ anyTorus s = true → exec (.pairPacketReceive m) s = .next (pairHeard s m))
      ∧ (pr.st = 2 ∨ pr.st = 5 →
        (bits (pairCfg s) 19 0 * 1000 < (s.devTime - pr.lastHeard).toNat → exec .partnerLost s = .next (settle (losePartner s)))
        ∧ (mirrored s = true → isStandby s = true → exec .mirrorLostNotice s = .next { s with pair := { pr with lastHeard := s.devTime, mir := 2 } })))
    ∧ (pr.holding = true →
      (10000 ≤ (s.devTime - pr.noticeAt).toNat → exec .mirrorLostRepeat s = .next { s with pair := { pr with noticeAt := s.devTime } })
      ∧ (pr.st ≠ 5 → exec .mirrorLostAck s = .next (settle (mirrorIsLost { s with pair := { pr with lastHeard := s.devTime } }))))

/-- R460-R479: snapshots and restores. SNAPSHOT and RESTORE whose parameter block passes the checks begin an operation of the instance, ABORT
ends it with ABANDONED; the gate arms the guard over every SNAP page and starts copying; a page is copied to staging with its guard
cleared; a verified chunk leaves staging and the last one leads to the seal; a chunk or seal that does not match is tried again, the seal's
third mismatch and a lost target fail the operation; the seal's record reports the shard's length; the catalogue and restored pages
advance a restore. -/
def Obligations.SnapshotOperations : Prop :=
  ∀ (s : State) (fn : Fn) (vi : Vi),
    (isPf fn = true → HostReaches s fn 0xD00000 → statBusy s snpStat = false → samePort fn vi = true →
      let w (op : Nat) := rset s 0xD00000 (snpWord vi op)
      (∀ fits t b, featureVer s.fw 8 ≠ 0 → snapBlock (w 1) vi 128 = (t, .ok b) →
        let par := snapPar b
        let g := (snapGrans t vi).length
        snapBlockOk b = true → stageOk t vi par = true → g ≠ 0 → (targetCheck t vi par (shardLen g) fits).1 = 0 → snapLive t vi = false →
        snapsLive t < 16 → (snapKey t vi par).1 = 0 →
        exec (.snapshot fn vi fits) s = .next (settle (statDone (setSnap t { vi := vi, st := (if par.startEn then 1 else 2), p := par }) snpStat (0, 0))))
      ∧ (∀ t b, featureVer s.fw 8 ≠ 0 → snapBlock (w 2) vi 48 = (t, .ok b) → restoreBlockOk b = true → viBusy t vi = false → snapLive t vi = false →
        snapsLive t < 16 → exec (.restore fn vi) s = .next (settle (statDone (setSnap t (restorePar vi b)) snpStat (0, 0))))
      ∧ (∀ x, getSnap s vi = some x → x.st ≠ 0 →
        exec (.abort fn vi) s = .next (settle (statDone (snapFail (w 3) x 2 0xBD) snpStat (0, 0))))
      ∧ (getSnap s vi = none → exec (.abort fn vi) s = .next (statDone (w 3) snpStat (0, 0))))
    ∧ (∀ x : Snap, getSnap s vi = some x →
      (working s = true →
        (snapGate s x = true → x.p.enc = false →
          let gs := snapGrans s x.vi
          exec (.snapshotArm vi) s = .next (setSnap
            { s with guard := s.guard ++ gs.flatMap (fun g => (List.range 16384).map (· + g.pgran * 16384)) }
            { x with st := 3, grans := gs, armed := s.devTime, todo := List.range (16384 * gs.length), ivbase := 0 }))
        ∧ (∀ page, mayCopy s x page = true → exec (.pageCopy vi page) s = .next (settle (copyPage s x page)))
        ∧ (x.st = 5 → (∀ pg, exec (.restorePage vi pg) s = .next (settle (restoreNext s x pg)))
          ∧ (∀ found, x.pages = 0 → found.length = x.catCount → exec (.catalogueReadComplete vi found) s = .next (settle (catalogueRead s x found)))))
      ∧ (∀ pages, x.st = 3 →
        let mine := x.staged.filter (fun g => pages.contains g.page)
        mine ≠ [] → mine.length ≤ 16 →
        (targetUp s x = true → exec (.chunkVerify vi pages .ok) s = .next (chunkDone s x mine))
        ∧ (targetUp s x = true → mine.all (fun g => decide (g.fails < 2)) = true → exec (.chunkVerify vi pages .mismatch) s
          = .next (setSnap s { x with staged := x.staged.map (fun g => if mine.contains g then { g with fails := g.fails + 1 } else g) }))
        ∧ (targetUp s x = false → ∀ out, exec (.chunkVerify vi pages out) s = .next (settle (snapFail s x 5 0xB4))))
      ∧ (x.st = 4 → targetUp s x = true →
        exec (.snapshotSeal vi .ok) s = .next (settle (snapRecord (snapEnd s (sealSnap s x)) x 0 0 (shardLen x.grans.length)))
        ∧ (x.sealFails < 2 → exec (.snapshotSeal vi .mismatch) s = .next (setSnap s { x with sealFails := x.sealFails + 1 }))
        ∧ (2 ≤ x.sealFails → exec (.snapshotSeal vi .mismatch) s = .next (settle (snapFail s x 5 0xB5)))))

/-- R492-R497: keys and MACsec. INSTALL of a well-formed block in an empty slot fills it with counters from zero, CLEAR empties a slot
nothing references and refuses a referenced one, READ reports the slot, zeros for an empty one; INSTALL_SA and RETIRE_SA set and clear a security association;
and the MACsec configuration of an Ethernet port is stored, CIPHER only while disabled. -/
def Obligations.KeySlotsAndMacsec : Prop :=
  ∀ (s : State) (fn : Fn) (slot : BitVec 8) (vi : Vi) (ext : List Byte),
    (isPf fn = true → HostReaches s fn 0xF80100 → statBusy s keyStat = false →
      let w (op sl v : Nat) := rset s 0xF80100 (at_ sl 32 ||| at_ v 8 ||| at_ op 0)
      let src := rget s 0xF80108 &&& 0xFFFFFFFFFFFFFFC0
      (samePort fn vi = true → tget? s.keys slot.toNat = none → ∀ t b, rangeRead (w 1 slot.toNat vi.toNat) vi src 128 ext = some (t, b, false) →
        let d := ofBytes (b.take 8)
        let wrapped := d.testBit 9
        d % 4 = 1 → d / 1024 = 0 → d / 4 % 64 = 0 → zeroBytes b 8 64 = true → zeroBytes b (if wrapped then 104 else 96) 128 = true →
        ∀ k, blockKey t fn b wrapped = some k →
        exec (.install fn slot vi ext) s = .next (settle (keyDone { t with keys := tset t.keys slot.toNat { owner := vi, decOnly := d.testBit 8, key := k }, brmIv := (List.range 4).foldl (fun m q => tset m (slot.toNat * 4 + q) 0) t.brmIv } (0, 0))))
      ∧ (∀ k, tget? s.keys slot.toNat = some k → samePort fn k.owner = true →
        (keyRef s slot.toNat = 0 → answers (exec (.clear fn slot) s) { s with keys := tdel s.keys slot.toNat } [0xF80100] keyStat 0 0)
        ∧ (keyRef s slot.toNat ≠ 0 → answers (exec (.clear fn slot) s) s [0xF80100] keyStat 1 0xC3))
      ∧ (tget? s.keys slot.toNat = none → answers (exec (.clear fn slot) s) s [0xF80100] keyStat 5 0xC0)
      ∧ (∀ k, tget? s.keys slot.toNat = some k → samePort fn k.owner = true → ∃ u, exec (.keyRead fn slot) s = .next u
        ∧ u = { s with regs := u.regs } ∧ rget u 0xF80118 = keyInfo s slot.toNat ∧ reports u keyStat 0 0)
      ∧ (tget? s.keys slot.toNat = none → ∃ u, exec (.keyRead fn slot) s = .next u
        ∧ u = { s with regs := u.regs } ∧ rget u 0xF80118 = 0 ∧ reports u keyStat 0 0)
      ∧ (samePort fn vi = false → answers (exec (.installSa fn vi ext) s) s [0xF80100] keyStat 5 0xC0)
      ∧ (samePort fn vi = true → ∀ t b, rangeRead (w 4 0 vi.toNat) vi src 128 ext = some (t, b, false) →
        let d := ofBytes (b.take 8)
        let tx := d.testBit 4
        let sc := d / 2 ^ 8 % 8
        d / 32 % 8 = 0 → d.testBit 11 = false → d / 2 ^ 14 % 4 = 0 → d / 2 ^ 17 = 0 → (tx = true → sc = 0) → d % 16 ≤ 11 → zeroBytes b 28 32 = true →
        zeroBytes b 44 64 = true → zeroBytes b (if d.testBit 16 then 104 else 96) 128 = true → msecAllowed t (d % 16) = true →
        ∀ k, blockKey t fn b (d.testBit 16) = some k →
        let a : Sa := { sci := BitVec.ofNat 64 (ofBytes ((b.drop 8).take 8)), pn := BitVec.ofNat 64 (ofBytes ((b.drop 16).take 8)), ssci := BitVec.ofNat 32 (ofBytes ((b.drop 24).take 4)), salt := (b.drop 32).take 12, key := k }
        exec (.installSa fn vi ext) s
          = .next (settle (keyDone { t with sec := { t.sec with sas := tset t.sec.sas (saKey (d % 16) tx sc (d / 2 ^ 12 % 4)) a } } (0, 0))))
      ∧ (samePort fn vi = true → ∀ t b, rangeRead (w 5 0 vi.toNat) vi src 8 ext = some (t, b, false) → ofBytes b % 16 ≤ 11 →
        exec (.retireSa fn vi ext) s = .next (settle (keyDone { t with sec := { t.sec with
          sas := tdel t.sec.sas (saKey (ofBytes b % 16) ((ofBytes b).testBit 4) (ofBytes b / 2 ^ 8 % 8) (ofBytes b / 2 ^ 12 % 4)) } } (0, 0)))))
    ∧ (∀ (p : Port) (c : MsecCfg), isPf fn = true → HostReaches s fn (msecReg p.val) →
      let v := msecWord c &&& 0xFE0000003FFFFFFF
      (bit (msecCfg s p.val) 63 = false → (bit v 63 = true → msecAllowed s p.val = true) →
        exec (.msecCfgWrite fn p c) s = .next (rset s (msecReg p.val) v))
      ∧ (bit (msecCfg s p.val) 63 = true →
        exec (.msecCfgWrite fn p c) s = .next (rset s (msecReg p.val) (setBits v 62 62 (bits (msecCfg s p.val) 62 62))))
      ∧ (bit (msecCfg s p.val) 63 = false → bit v 63 = true → msecAllowed s p.val = false → exec (.msecCfgWrite fn p c) s
        = .next (settle (rset (accessErr s fn (msecReg p.val)) (msecReg p.val) (setBits v 63 63 0)))))

/-- R486-R491: SPDM and IDE_KM. A request that its connection state allows has its effect: the version resets the connection, capabilities
and algorithms advance it, digests, certificates, challenges and measurements answer, a key exchange opens a session of at most two of a
group, FINISH secures it or drops it, and a heartbeat, key update, end, KEK and IDE key command act within a secured session alone; an
overdue heartbeat ends one. -/
def Obligations.SpdmSessions : Prop :=
  ∀ (s : State) (via : SpdmVia), viaUp s via = true →
    let c := connOf s via
    let upd (f : Session → Session) (sid : Nat) : State := { s with sec := { s.sec with sessions := s.sec.sessions.map (fun x => if x.via = via ∧ x.id = sid then f x else x) } }
    exec (.getVersion via) s = .next (setConn { s with reply := [0x13], replyPoison := false } via 1)
    ∧ (1 ≤ c → exec (.getCapabilities via) s = .next (setConn s via (Nat.max 2 c)))
    ∧ (2 ≤ c → exec (.negotiateAlgorithms via true) s = .next (setConn s via 3) ∧ exec (.negotiateAlgorithms via false) s = .next s)
    ∧ (c < 3 → exec (.getDigests via) s = .next s ∧ (∀ b, exec (.getMeasurements via b) s = .next s) ∧ (∀ n, exec (.keyExchange via n) s = .next s))
    ∧ (3 ≤ c →
      exec (.getDigests via) s = .next { s with reply := digestBytes (Config.sha384 (digestBytes (measOf s 1))), replyPoison := false }
      ∧ exec (.getCertificate via 0) s = .next (nextFree { s with reply := extBytes s [] (aliasKey s) 48, replyPoison := false })
      ∧ (∀ nonce, exec (.challenge via 0 nonce) s = .next { s with reply := beBytes 96 (Config.ecdsaSign (aliasKey s) (Config.sha384 (beBytes 32 nonce.toNat ++ (List.range 8).flatMap (fun i => digestBytes (measOf s i))))).toNat, replyPoison := false })
      ∧ (∀ b : BitVec 8, 1 ≤ b.toNat → b.toNat ≤ 8 → exec (.getMeasurements via b) s = .next { s with reply := digestBytes (measOf s (b.toNat - 1)), replyPoison := false })
      ∧ (∀ n, (s.sec.sessions.filter (fun x => viaGroup x.via == viaGroup via)).length < 2 → exec (.keyExchange via n) s = .next { s with sec := { s.sec with sessions := s.sec.sessions ++ [{ via := via, id := leastFree ((s.sec.sessions.filter (fun x => viaGroup x.via == viaGroup via)).map (·.id)), beat := n, last := s.devTime }] } })
      ∧ (∀ sid, exec (.finish via sid true) s = .next (upd (fun x => { x with secured := true, last := s.devTime }) sid)
        ∧ exec (.finish via sid false) s = .next (dropSession s via sid)))
    ∧ (∀ sid, inSession s via sid = true →
      exec (.heartbeat via sid) s = .next (upd (fun x => { x with last := s.devTime }) sid)
      ∧ exec (.keyUpdate via sid) s = .next (upd (fun x => { x with keyGen := x.keyGen + 1 }) sid)
      ∧ exec (.endSession via sid) s = .next (dropSession s via sid)
      ∧ (∀ p kek, viaPf via = some p → exec (.setKek via sid kek) s = .next { s with sec := { s.sec with kek := tset s.sec.kek p (kek, viaKey via * 256 + sid) } }))
    ∧ (∀ sid, inSession s via sid = false → exec (.keyUpdate via sid) s = .next s ∧ exec (.endSession via sid) s = .next s
      ∧ ∀ kek, exec (.setKek via sid kek) s = .next s)
    ∧ (∀ sid x, s.sec.sessions.find? (fun x => x.via == via && x.id == sid && x.secured) = some x → x.beat ≠ 0 →
      x.beat * 1000000000 ≤ (s.devTime - x.last).toNat → exec (.heartbeatPeriodExpiry via sid) s = .next (dropSession s via sid))
    ∧ (∀ (port : Fin 2) sid (k : IdeKey), via = .doe port → inSession s via sid = true →
      let x := getIde s port.val k.stream.val
      let i := ideDir k * 2 + k.set.val
      exec (.ideQuery port sid) s = .next { s with reply := (List.range 2).map (fun n => BitVec.ofNat 8 (b2n (ideSecure (getIde s port.val n)))), replyPoison := false }
      ∧ (∀ key, exec (.keyProg port sid k key) s = .next (setIde s port.val k.stream.val { x with keys := tset x.keys i key }))
      ∧ ((tget? x.keys i).isSome = true → exec (.kSetGo port sid k) s = .next (ideResume (setIde s port.val k.stream.val { x with go := tset x.go (ideDir k) k.set.val }) port.val))
      ∧ exec (.kSetStop port sid k) s = .next (setIde s port.val k.stream.val { x with go := if tget? x.go (ideDir k) = some k.set.val then tdel x.go (ideDir k) else x.go }))

/-- R482, R504-R513, R519: mailbox commands of a PF, each with its reply. FEATURE_SET changes a feature nothing uses and refuses one in use;
STAGE takes an image that verifies; ACTIVATE answers NO_STAGED, DEFERRED or NOT_BOUNDARY, or begins; SVN_COMMIT fuses the running image's
version and never lowers it; KEY_REVOKE fuses a bit of a key not in use; the configuration commands store their words; STG_BIND gives the
lowest free target; STG_UNBIND frees an idle one and its connections' flows; RESTART restarts the core. GET_INFO answers the versions of
the running and the staged image, their security versions and the features present. -/
def Obligations.MailboxCommands : Prop :=
  ∀ (s : State) (fn : Fn) (tag : BitVec 8),
    let r1 (c : MbCmd) := mbReq (mbOpened s fn tag c) fn 1
    let replies (c : MbCmd) (w : State) (st dt : BitVec 8) (d : List Word) := mbAnswers (exec (match c with
      | .getInfo => .getInfo fn tag | .featureSet => .featureSet fn tag | .featureGet => .featureGet fn tag | .stage i => .stage fn tag i
      | .activate => .activate fn tag | .activateCancel => .activateCancel fn tag | .svnCommit => .svnCommit fn tag
      | .keyRevoke => .keyRevoke fn tag | .logCfg => .logCfg fn tag | .traceCfg => .traceCfg fn tag | .stgBind r => .stgBind fn tag r
      | .stgUnbind => .stgUnbind fn tag | .slowCfg => .slowCfg fn tag | .ptpCfg => .ptpCfg fn tag | .restart => .restart fn tag
      | .bad _ => .getInfo fn tag) s) w fn tag c st dt d
    let w (c : MbCmd) := mbOpened s fn tag c
    (MbIdle s fn tag .getInfo →
      let act : Option Image := tget? s.fw.images s.fw.active
      let stg : Option Image := if s.fw.staged then tget? s.fw.images (stageSlot s) else none
      replies .getInfo (w .getInfo) 0 0 [((act.map (fun (i : Image) => i.version)).getD 0).setWidth 64, (stagedVersion s).setWidth 64,
        ((act.map (fun (i : Image) => i.svn)).getD 0).setWidth 64 ||| at_ ((stg.map (fun (i : Image) => i.svn)).getD 0).toNat 8,
        BitVec.ofNat 64 ((List.range 9).foldl (fun a k => a + b2n (featureVer s.fw (k + 1) != 0) * 2 ^ (k + 1)) 0)])
    ∧ (MbIdle s fn tag .featureSet →
      let n := bits (r1 .featureSet) 15 0
      let v := bits (r1 .featureSet) 31 16
      1 ≤ n → n ≤ 9 → v ≤ 1 →
      (featureVer s.fw n ≠ v → featureUsed (w .featureSet) n = true → replies .featureSet (w .featureSet) 1 0xD6 [])
      ∧ (featureUsed (w .featureSet) n = false → replies .featureSet
        (measFeatures { w .featureSet with fw := { (w .featureSet).fw with features := tset s.fw.features n v } }) 0 0 []))
    ∧ (MbIdle s fn tag .featureGet → replies .featureGet (w .featureGet) 0 0 [BitVec.ofNat 64 (featureVer s.fw (bits (r1 .featureGet) 15 0))])
    ∧ (∀ img, MbIdle s fn tag (.stage img) →
      let c := MbCmd.stage img
      let n := (mbReq (w c) fn 2).toNat
      n ≠ 0 → n ≤ 33554432 → rangeOk (w c) fn (r1 c) n .rd = true →
      (imagePass s img = true → replies c { w c with fw := { (w c).fw with images := tset s.fw.images (stageSlot s) img, staged := true } } 0 0 [])
      ∧ (imagePass s img = false → replies c { w c with fw := { (w c).fw with images := tdel s.fw.images (stageSlot s), staged := false } } 5 0xD3 []))
    ∧ (MbIdle s fn tag .activate →
      (s.fw.staged = false → replies .activate (w .activate) 0x0B 0xD4 [])
      ∧ (s.fw.staged = true → emergency s = false → boundary (w .activate) = false → replies .activate (w .activate) 1 0xD5 [])
      ∧ (s.fw.staged = true → emergency s = false → boundary (w .activate) = true →
        exec (.activate fn tag) s = .next (settle (activateBegin (w .activate) (some (fn, tag)) false))))
    ∧ (MbIdle s fn tag .activateCancel → replies .activateCancel
        { w .activateCancel with fw := { (w .activateCancel).fw with act := (if s.fw.act = 1 then 0 else s.fw.act), auto := false } } 0 0 [])
    ∧ (MbIdle s fn tag .svnCommit →
      let n := ((tget? s.fw.images s.fw.active).map (·.svn)).getD 0
      replies .svnCommit (if n.toNat > s.sec.fused.toNat then { w .svnCommit with sec := { s.sec with fused := n } } else w .svnCommit) 0 0 [])
    ∧ (MbIdle s fn tag .keyRevoke →
      let k := bits (r1 .keyRevoke) 1 0
      (s.sec.keyUsed.toNat = k → replies .keyRevoke (w .keyRevoke) 0x0B 0xD7 [])
      ∧ (s.sec.keyUsed.toNat ≠ k → replies .keyRevoke { w .keyRevoke with sec := { s.sec with revoked := s.sec.revoked ||| BitVec.ofNat 4 (2 ^ k) } } 0 0 []))
    ∧ (MbIdle s fn tag .logCfg → bits (r1 .logCfg) 2 0 ≤ 4 →
      replies .logCfg { w .logCfg with fw := { (w .logCfg).fw with level := bits (r1 .logCfg) 2 0 } } 0 0 [])
    ∧ (MbIdle s fn tag .traceCfg → replies .traceCfg { w .traceCfg with fw := { (w .traceCfg).fw with trace := r1 .traceCfg } } 0 0 [])
    ∧ (MbIdle s fn tag .slowCfg → bits (r1 .slowCfg) 3 0 ≤ 11 → replies .slowCfg
        { w .slowCfg with fw := { (w .slowCfg).fw with slow := tset s.fw.slow (bits (r1 .slowCfg) 3 0) (r1 .slowCfg) } } 0 0
        (slowCounts s (bits (r1 .slowCfg) 3 0)))
    ∧ (MbIdle s fn tag .ptpCfg → bits (r1 .ptpCfg) 3 0 ≤ 11 → replies .ptpCfg
        { w .ptpCfg with fw := { (w .ptpCfg).fw with ptp := tset s.fw.ptp (bits (r1 .ptpCfg) 3 0) (r1 .ptpCfg, mbReq (w .ptpCfg) fn 2) } } 0 0 [])
    ∧ (∀ r, MbIdle s fn tag (.stgBind r) →
      (bits (r1 (.stgBind r)) 1 0 = 2 → slowUp s (bits (r1 (.stgBind r)) 11 8 / 3) = true) → ∃ u a d, doBind (w (.stgBind r)) fn r = (u, a, d) ∧ replies (.stgBind r) u a.1 a.2 d
        ∧ ∀ p t, bits (r1 (.stgBind r)) 1 0 = 1 → bits (r1 (.stgBind r)) 11 8 = p → p ≤ 5 → mbReq (w (.stgBind r)) fn 2 = 0 → r.ready = true →
          (List.range 64).find? (fun t => bits (rget (w (.stgBind r)) (stgTgtReg t)) 63 62 == 0) = some t →
          a = (0, 0) ∧ d = [BitVec.ofNat 64 t] ∧ bits (rget u (stgTgtReg t)) 63 62 = 1 ∧ bits (rget u (stgTgtReg t)) 59 56 = p)
    ∧ (MbIdle s fn tag .stgUnbind →
      let t := bits (r1 .stgUnbind) 5 0
      let v := w .stgUnbind
      bits (rget v (stgTgtReg t)) 63 62 ≠ 0 →
      (s.descs.any (fun d => d.kind == 3 && d.st == .drive && dTarget d == t) = true → replies .stgUnbind v 1 0xD9 [])
      ∧ (s.descs.any (fun d => d.kind == 3 && d.st == .drive && dTarget d == t) = false →
        let freed := (tget v.stgs t {}).flows.foldl (fun u n => match getFlow u n with | some (o, _) => freeCtx u o n | none => u) v
        replies .stgUnbind (fwPoint { rset freed (stgTgtReg t) 0 with stgs := tdel freed.stgs t } 2 2) 0 0 []))
    ∧ (MbIdle s fn tag .restart →
      let n := bits (r1 .restart) 3 0
      let v := w .restart
      let u := restartCore v n 3 (freeBits v 64 5020) (some (fn, tag))
      (tget s.fw.cores n {}).st = 0 → (tget u.fw.cores n {}).st ≠ 2 → exec (.restart fn tag) s = .next (settle (nextFree u)))

/-- R507-R521: the Stewards. A watchdog or fault restarts the core that ran; a restarted core runs again; a deferred activation 10 s clear of
emergency begins at a boundary and is abandoned elsewhere; an activation whose image verifies starts it, extends M1 and exchanges the
slots; log rings drain to their ring; IEEE 1588 disciplines DEV_TIME within its range; and the out-of-band commands answer. -/
def Obligations.StewardEvents : Prop :=
  ∀ (s : State) (fn : Fn),
    (∀ (core : BitVec 4) (pc : Word), stwRuns s core.toNat = true →
      let fails (cause : BitVec 8) : State :=
        let w := restartCore s core.toNat cause pc none
        if (tget w.fw.cores core.toNat {}).st = 2 then mbResume w else w
      exec (.stewardWatchdog core pc) s = .next (fails 1) ∧ exec (.stewardFault core pc) s = .next (fails 2))
    ∧ (∀ core : BitVec 4,
      let c := tget s.fw.cores core.toNat {}
      let n := core.toNat
      c.st = 1 → c.by_ = none → exec (.stewardRestartDone core) s = .next (mbRestarted
        (logRecord (traceRestart { s with fw := { s.fw with cores := tset s.fw.cores n { c with st := 0, by_ := none } } } n) 0 n 1 [n, c.cause.toNat, c.pc.toNat]) n))
    ∧ (∀ t, s.fw.clear = some t → s.fw.act = 1 → emergency s = false → 10000000000 ≤ (s.devTime - t).toNat →
      (boundary s = true → exec .deferredActivationTimer s = .next (activateBegin { s with fw := { s.fw with auto := false } } none true))
      ∧ (boundary s = false →
        let w : State := { s with fw := { s.fw with act := 0, auto := false, actSt := 1, actDt := 0xD5 } }
        exec .deferredActivationTimer s = .next (nextFree (logRecord w 2 0 (freeCode w) []))))
    ∧ (∀ i, s.fw.act = 2 → s.fw.actBy = none → s.fw.actWas = false → tget? s.fw.images (stageSlot s) = some i →
      (imagePass s i = true → ∃ w, exec (.activationComplete []) s = .next (mbResume (fwPoint w 6 0))
        ∧ w.fw.active = stageSlot s ∧ w.fw.pref = stageSlot s ∧ w.fw.act = 0 ∧ w.fw.actSt = 0 ∧ w.fw.actDt = 0 ∧ w.sec.svn = i.svn ∧ w.sec.sessions = []
        ∧ measOf w 1 = Config.sha384 (digestBytes (measOf s 1) ++ digestBytes i.digest))
      ∧ (imagePass s i = false → exec (.activationComplete []) s
        = .next (mbResume (fwPoint { s with fw := { s.fw with act := 0, actBy := none, actWas := false, auto := false, actSt := 5, actDt := 0xD3 } } 6 0))))
    ∧ (∀ (p : Port) (r : Int), dutyUp s 5 = true → bit (tget s.fw.ptp p.val (0, 0)).1 16 = true →
      exec (.ptpMessage p r) s = .next (fwPoint { s with fw := { s.fw with rate := max (-200000) (min 200000 r) } } 4 5))
    ∧ (∀ c : LogRingW, isPf fn = true → HostReaches s fn 0xFC0300 → 6 ≤ c.size.toNat → c.size.toNat ≤ 20 → bit (logRing s (portOf fn)) 11 = false →
      let v := ((c.base &&& 0xFFFFFFFFFFFFF000) ||| at_ (b2n c.en) 11 ||| at_ c.size.toNat 0) &&& 0xFFFFFFFFFFFFF81F
      let w := rset s (fwReg fn 0x300) v
      exec (.fwLogRingWrite fn c) s = .next (settle (if c.en then logDrain w (portOf fn) ((getLog w (portOf fn)).kept.length + 1) else w)))
    ∧ (∀ r : BitVec 48, isPf fn = true → HostReaches s fn 0xFC0310 →
      let w := rset s (fwReg fn 0x310) (r.setWidth 64 &&& 0xFFFFFFFFFFFF)
      exec (.fwLogAckWrite fn r) s = .next (settle (logDrain w (portOf fn) ((getLog w (portOf fn)).kept.length + 1))))
    ∧ (∀ via : SpdmVia, viaUp s via = true → (∀ p, via ≠ .doe p) →
      (∀ e, exec (.mctpControl via (some e)) s
        = .next (fwPoint { s with fw := { s.fw with eid := tset s.fw.eid (viaKey via) e }, reply := [e], replyPoison := false } 5 1))
      ∧ (∀ n : BitVec 16, n.toNat ≤ 67 →
        exec (.pldmPlatform via n) s = .next (fwPoint { s with reply := toBytes 4 (chanValue (getChan s n.toNat) n.toNat), replyPoison := false } 5 1))
      ∧ (∀ img, exec (.pldmFirmwareUpdate via img) s
        = .next (fwPoint { (doStage s img).1 with reply := [(doStage s img).2.1], replyPoison := false } 5 1))
      ∧ (s.fw.staged = false → exec (.activateFirmware via) s = .next (fwPoint { s with reply := [0x0B], replyPoison := false } 5 1))
      ∧ (s.fw.staged = true → emergency s = false → boundary s = true →
        exec (.activateFirmware via) s = .next (fwPoint { activateBegin s none false with reply := [0], replyPoison := false } 5 1)))

/-- R531, R533-R537, R539-R541, R543: the metering island. A tally frame is due every 10 ms and carries the next sequence number; a frame in
sequence counts, a gap, a bad frame and a foreign one are lost; the end of an interval signs and keeps one record, which a tampered
cartridge does not; FETCH gives a kept record and QUOTE signs a nonce; a broken seal tampers; and a start is recorded. -/
def Obligations.MeteringOperations : Prop :=
  ∀ (s : State),
    (∀ bs, 2 ≤ s.boot.phase.toNat → s.devTime.toNat % 10000000 = 0 → ∃ f sent,
      exec (.tallyFrameSend bs) s = .next { s with mtr := { s.mtr with link := s.mtr.link ++ [f], fseq := s.mtr.fseq + 1, sent := sent } }
      ∧ f.fseq = s.mtr.fseq ∧ f.time = s.devTime
      ∧ (∀ b ∈ f.blocks, b.2.2 = increments s bs b.1 ∧ (b.1 ≠ 256 → b.2.1 = genOf s (BitVec.ofNat 8 b.1)))
      ∧ ∀ a ≤ 256, (a ∈ f.blocks.map (·.1)) ↔ (a = 256 ∨ (increments s bs a).any (· != 0) = true))
    ∧ (∀ f r, s.mtr.running = true → s.mtr.cart.isSome = true → s.mtr.link = f :: r →
      let counted (lost : Nat) : Mtr := { s.mtr with
        link := r, expect := some (f.fseq + 1), accounts := f.blocks.foldl addBlock s.mtr.accounts, frames := s.mtr.frames + 1,
        lastDev := f.time, noTally := false, lost := s.mtr.lost + lost, lostAll := sat 4294967295 (s.mtr.lostAll + lost) }
      (∀ e, s.mtr.expect = some e → f.fseq ≠ 0 → exec (.tallyFrameReceive .good) s = .next { s with mtr := counted (f.fseq - e).toNat })
      ∧ (s.mtr.expect = none → exec (.tallyFrameReceive .good) s = .next { s with mtr := counted 0 })
      ∧ exec (.tallyFrameReceive .bad) s = .next { s with mtr := { s.mtr with
          link := r, expect := s.mtr.expect.map (· + 1), lost := s.mtr.lost + 1, lostAll := sat 4294967295 (s.mtr.lostAll + 1) } }
      ∧ exec (.tallyFrameReceive .lost) s = .next { s with mtr := { s.mtr with link := r } }
      ∧ exec (.tallyFrameReceive .strange) s = .next { s with mtr := { s.mtr with
          lost := s.mtr.lost + 1, lostAll := sat 4294967295 (s.mtr.lostAll + 1) } })
    ∧ (∀ m c, s.mtr.running = true → s.mtr.cart = some c →
      let tEnd : Word := BitVec.ofNat 64 ((s.mtr.iStart.toNat / 1000000000 + 1) * 1000000000)
      let total := sat (2 ^ 64 - 1) (c.eTotal.toNat + m.e.toNat)
      let n := (entriesOf s.mtr (tEnd - s.mtr.iStart).toNat).length
      ∃ w d, exec (.intervalEnd m) s = .next { s with mtr := w } ∧ w.cart = some d ∧ w.iStart = tEnd ∧ w.frames = 0 ∧ w.lost = 0
        ∧ w.accounts = [] ∧ d.eTotal = BitVec.ofNat 64 total
        ∧ (c.tampered = true → d.seq = c.seq ∧ d.records = c.records)
        ∧ (c.tampered = false → d.seq = c.seq + 1 ∧ ∃ data, data.length = 160 + 32 * n
          ∧ d.records = ((c.seq, data ++ beBytes 64 (Config.ed25519Sign data).toNat) :: c.records).take 7000000))
    ∧ (∀ fn tag c, isPf fn = true → HostReaches s fn 0xE00100 → s.mtr.running = true → s.mtr.cart = some c → c.tampered = false →
      (∀ r, mtrArg s 1 = 0 → mtrArg s 2 = 0 → mtrArg s 3 = 0 → c.records.find? (fun r => r.1 == mtrArg s 0) = some r →
        answers (exec (.fetch fn tag) s) { s with mtr := { s.mtr with fetch := r.2, tag := tag } } [0xE00100] mtrStat 0 0)
      ∧ (∀ ns e, answers (exec (.quote fn tag ns e) s) { s with mtr := { s.mtr with quote := quoteBytes s c ns.toNat e.toNat, tag := tag } }
          [0xE00100] mtrStat 0 0))
    ∧ exec .sealBroken s = .next { s with mtr := { s.mtr with cart := s.mtr.cart.map (fun c => { c with tampered := true }) } }
    ∧ (∀ ci m, s.mtr.running = false →
      let cart := match ci with | .same => s.mtr.cart | .absent => none | .other x => some x
      (cart = none → exec (.islandPowerUp ci m) s = .next { s with mtr := { s.mtr with cart := none } })
      ∧ (∀ x, cart = some x → x.tampered = false → ∃ w d, exec (.islandPowerUp ci m) s = .next { s with mtr := w } ∧ w.running = true
        ∧ w.cart = some d ∧ d.boots = x.boots + 1 ∧ d.seq = x.seq + 1 ∧ d.unclean = false ∧ (d.records.map (·.1)).head? = some x.seq))

/-- R33, R543-R559, R605: power. GO_BRIGHT and GO_DIM change the state; GO_DARK is refused with its reason or begins, and completes with every
link off; a device without work for the idle time dims by itself; an enabled source wakes, a wake while entering abandons the entry, and the wake trains the links; a cluster's frequency is set in
range and reaches its target; protective thresholds are stored; a sample is filtered, three beyond the trip point or an overcurrent turn
conversion off; the millisecond tick steps the caps by one; and conversion follows PWR_EN and the input. -/
def Obligations.PowerOperations : Prop :=
  ∀ (s : State) (fn : Fn),
    (isPf fn = true → HostReaches s fn 0xF08008 → statBusy s pwrStat = false →
      answers (exec (.goBright fn) s) (toBright s) [0xF08008] pwrStat 0 0
      ∧ answers (exec (.goDim fn) s) { s with pwr := { s.pwr with st := 1, auto := false } } [0xF08008] pwrStat 0 0
      ∧ (let r := darkCheck (rset s 0xF08008 3)
        (r.1 ≠ 0 → answers (exec (.goDark fn) s) s [0xF08008] pwrStat r.1 r.2)
        ∧ (r.1 = 0 → ∃ u, exec (.goDark fn) s = .next u ∧ u.pwr = { s.pwr with st := 3, former := s.pwr.st }
            ∧ u = { s with regs := u.regs, pwr := u.pwr } ∧ statBusy u pwrStat = true)))
    ∧ (isPf fn = true → s.pwr.st = 2 → gate s fn (some 0xF08008) = .held → exec (.goBright fn) s
      = .next { s with pwr := { s.pwr with st := 4, wake := 4 }, heldHost := s.heldHost ++ [.reg fn 0xF08008 1] })
    ∧ (s.pwr.st = 3 → ∃ u, exec .darkEntryComplete s = .next u ∧ u.pwr = { s.pwr with st := 2 } ∧ reports u pwrStat 0 0
        ∧ (∀ p, getPhy u p = { getPhy s p with st := 5, lanes := 0, half := false, since := s.devTime }) ∧ u.mem = s.mem)
    ∧ (bit (rget s 0xF08018) 63 = true → s.boot.phase = 8 → s.drst.phase = 0 → s.err.fatal = false → s.pwr.st = 0 → workless s = true → idleNs s ≤ (s.devTime - s.pwr.busyAt).toNat →
      exec .autoDimTimeout s = .next { s with pwr := { s.pwr with st := 1, auto := true } })
    ∧ (s.pwr.st = 2 →
      (∀ (src : WakeSrc) (c : BitVec 8) (b : Nat), (c, b) = (match src with | .hostRead => (1, 63) | .smbus => (3, 61)) → exec (.wake src) s = .next
        (if bit (rget s 0xF08020) b then { s with pwr := { s.pwr with st := 4, wake := c } } else s))
      ∧ (s.devTime = rget s 0xF08028 → bit (rget s 0xF08020) 62 = true → exec .wakeTimer s = .next { s with pwr := { s.pwr with st := 4, wake := 2 } }))
    ∧ (s.pwr.st = 3 → s.pwr.former ≠ 2 → bit (rget s 0xF08020) 63 = true →
      answers (exec (.wake .hostRead) s) { s with pwr := { s.pwr with st := s.pwr.former, wake := 1, busyAt := s.devTime } } [] pwrStat 1 0xF4)
    ∧ (s.pwr.st = 4 → s.heldHost = [] → s.fw.mbWait = [] → Settled s → ∃ u, exec .wakeComplete s = .next u
      ∧ u.pwr = { s.pwr with st := 0, auto := false, busyAt := s.devTime } ∧ u.mem = s.mem
      ∧ ∀ p, getPhy u p = (if bit (phyCfg s p) 63 = true ∧ portUse s p ≠ 0 then
          { getPhy s p with st := 1, lanes := 0, half := false, since := s.devTime } else getPhy s p))
    ∧ (∀ (c : Fin 128) (v : BitVec 5), isPf fn = true → HostReaches s fn (0xF08100 + 8 * c.val) → exec (.pwrCluFreqWrite fn c v) s = .next
        (if 4 ≤ v.toNat ∧ v.toNat ≤ 16 then setIsl s c.val { getIsl s c.val with set_ := v.toNat } else s))
    ∧ (∀ c : Fin 128, (getIsl s c.val).stopped = false → s.pwr.st ≠ 2 → s.pwr.st ≠ 4 → ∃ u, exec (.freqChangeDone c) s = .next u
        ∧ (getIsl u c.val).cur = islTarget s c.val ∧ ∀ d, d ≠ c.val → getIsl u d = getIsl s d)
    ∧ (∀ crit warn : BitVec 16, isPf fn = true → HostReaches s fn 0xF00018 → bits (rget s 0xF00008) 6 0 ≤ 69 →
      let ch := bits (rget s 0xF00008) 6 0
      let d := chanDefault ch
      warn.toNat ≤ d.1 → crit.toNat ≤ d.2.1 → exec (.lpeChcfgWrite fn crit warn) s
        = .next (rset s (chanKey ch) (BitVec.ofNat 64 (crit.toNat * 65536 + warn.toNat))))
    ∧ (∀ (ch : Fin 74) (raw : BitVec 16), s.boot.phase ≠ 0 →
      let x := getChan s ch.val
      (chanTrip ch.val ≠ 0 → raw.toNat > chanTrip ch.val → 2 ≤ x.beyond → exec (.loupeSample ch raw) s = .next (tripOff s ch.val raw.toNat))
      ∧ (chanTrip ch.val = 0 ∨ raw.toNat ≤ chanTrip ch.val → ∃ u, exec (.loupeSample ch raw) s = .next u
          ∧ (getChan u ch.val).window = (raw.toNat :: x.window).take (chanLong ch.val) ∧ (getChan u ch.val).beyond = 0
          ∧ (getChan u ch.val).level = chanLevel s ch.val { x with window := (raw.toNat :: x.window).take (chanLong ch.val), beyond := 0 }
          ∧ ∀ d, d ≠ ch.val → getChan u d = getChan s d))
    ∧ (2 ≤ s.boot.phase.toNat → s.devTime.toNat % 1000000 = 0 → s.pwr.msAt ≠ some s.devTime → 4 ≤ s.pwr.g → ∃ u, exec .loupeMsTick s = .next u
        ∧ s.pwr.g - 1 ≤ u.pwr.g ∧ u.pwr.g ≤ s.pwr.g + 1 ∧ 4 ≤ u.pwr.g ∧ u.pwr.msAt = some s.devTime
        ∧ (power100 s > capW s → u.pwr.g = max (s.pwr.g - 1) 4)
        ∧ ∀ c < 128, (clusterLevel s c = 2 → (getIsl u c).t = max ((getIsl s c).t - 1) 4)
          ∧ (clusterLevel s c ≠ 2 → (getIsl u c).t = (getIsl s c).t ∨ (getIsl u c).t = (getIsl s c).t + 1))
    ∧ (∀ ma : BitVec 16, s.boot.phase ≠ 0 → 32000 < ma.toNat → ∃ u, exec (.inputOvercurrent ma) s = .next u
        ∧ u.boot.phase = 0 ∧ u.boot.locked = true ∧ u.mem = [] ∧ u.pwr.trip = BitVec.ofNat 64 (2 ^ 63 + 73 * 2 ^ 48 + ma.toNat))
    ∧ (s.boot.phase = 0 → ∀ held, ∃ u v, exec (.pwrEnHigh held) s = .next u ∧ exec (.inputRise held) s = .next v
        ∧ (s.boot.risen = true → s.boot.locked = false → u = { s with boot := { s.boot with pwrEn := true, phase := 1 } })
        ∧ (s.boot.pwrEn = true → s.boot.locked = false → v = { s with boot := { s.boot with risen := true, phase := 1 } })
        ∧ (s.boot.risen = true → s.boot.pwrEn = false → held = true → u.boot.phase = 1 ∧ u.boot.locked = false))
    ∧ (∃ u v, exec .pwrEnLow s = .next u ∧ exec .inputUndervoltage s = .next v ∧ u.boot.phase = 0 ∧ v.boot.phase = 0 ∧ u.boot.pwrEn = false
        ∧ v.boot.risen = false ∧ u.mem = [] ∧ v.mem = [] ∧ u.sec.fused = s.sec.fused ∧ v.sec.revoked = s.sec.revoked
        ∧ ∀ m p, exec (.inputRemoved m p) s = .next (islandDown v m p))

/-- R560, R564, R567, R569, R571, R572, R578, R579: errors and resets of the device. The handled error gets its record and its place in the
history; a fatal one stops the device; a second restarts storm counts; ERR_ACK, ERR_CFG and ERR_FCT_OFF act on records and Facets; the last
DEV_TIME is reported; a device reset clears the device and keeps its clock, errors and fuses, and completes Bright; a module reset clears
more. -/
def Obligations.ErrorsAndDeviceReset : Prop :=
  ∀ (s : State) (fn : Fn),
    (∀ e, s.boot.phase ≠ 0 → s.drst.phase = 0 → s.err.owed = [] → s.err.cur = [] → nextErr s.err.pending = some e → Settled s →
      (e.sev ≠ 3 → e.storm = false → e.vi = none → bits (rget s 0xC10040) 21 20 > e.sev.toNat → ∃ u, exec (.errorHandle []) s = .next u
        ∧ u.err.pending = dropErr s.err.pending e ∧ u.err.seq = s.err.seq + 1
        ∧ (e.slot = true → tget? u.err.ring (s.err.seq.toNat % 256) = some (errWords s.err.seq e))
        ∧ (s.err.hist.length < 16776960 → u.err.hist = s.err.hist ++ [errWords s.err.seq e]) ∧ u.mem = s.mem ∧ u.regs = s.regs)
      ∧ (e.sev = 3 → s.err.fatals = 0 → exec (.errorHandle []) s = .next (settle (reportErr (lastPolls (portsDown { s with err := { s.err with
          pending := dropErr s.err.pending e, fatal := true, fatals := 1, fatalRec := errWords s.err.seq e } })) e))))
    ∧ (let now := s.devTime.toNat / 1000000000
      now ≠ s.err.second → ∃ r, exec .errorSecondTick s = .next { s with err := { s.err with second := now, storms := [], ceRate := r } }
        ∧ (now ≠ s.err.second + 1 → r = []))
    ∧ (isPf fn = true → HostReaches s fn 0xC00010 → ∀ r : BitVec 48,
      (autoRetire s = true → exec (.errAckWrite fn r) s = .next s)
      ∧ (autoRetire s = false → (r - s.err.retired).toNat ≤ (s.err.seq - s.err.retired).toNat → exec (.errAckWrite fn r) s
          = .next { s with err := { s.err with retired := r, unfreed := Nat.min s.err.unfreed (s.err.seq - r).toNat } })
      ∧ (autoRetire s = false → (r - s.err.retired).toNat > (s.err.seq - s.err.retired).toNat → exec (.errAckWrite fn r) s
          = .next (accessErr s fn 0xC00010)))
    ∧ (isPf fn = true → HostReaches s fn 0xC00018 → ∀ b, ∃ u, exec (.errCfgWrite fn b) s = .next u ∧ autoRetire u = b
        ∧ u.err = { s.err with unfreed := if b = true ∧ autoRetire s = false then 0 else s.err.unfreed })
    ∧ (∀ (k : Fin 16) (off : Word), isPf fn = true → HostReaches s fn (0xC00100 + 8 * k.val) → ∃ l, exec (.errFctOffWrite fn k off) s
        = .next { s with err := { s.err with fctOff := l } }
        ∧ ∀ f, f ∈ l ↔ f ∈ s.err.fctOff ∧ ¬(f / 64 = k.val ∧ bit off (f % 64) = true))
    ∧ (s.devTime = BitVec.allOnes 64 → errUsed s < 256 → ∃ u e, exec .devTimeMax s = .next u ∧ u.devTime = s.devTime
        ∧ u.err.pending = s.err.pending ++ [e] ∧ e.cause = 0x14 ∧ e.sev = 2 ∧ e.time = s.devTime)
    ∧ (isPf fn = true → HostReaches s fn (devReg 0x100) → s.drst.phase = 0 →
      let source : BitVec 4 := if fn = 0 then 1 else 2
      let w := portsDown (raiseErr s { cause := 0x16, sev := 0, arg0 := source.setWidth 64 })
      ∃ u, exec (.deviceReset fn) s = .next u
        ∧ u.drst.phase = 4 ∧ u.drst.source = source ∧ u.boot.phase = 4 ∧ u.threads = [] ∧ u.launches = [] ∧ u.mem = []
        ∧ u.descs = [] ∧ u.devTime = w.devTime ∧ u.sec.fused = w.sec.fused ∧ u.sec.revoked = w.sec.revoked ∧ u.jtag = w.jtag
        ∧ u.err = w.err ∧ u.hostMem = w.hostMem ∧ u.pwr = w.pwr ∧ u.mtr = w.mtr)
    ∧ (isPf fn = true → s.drst.phase ≠ 0 → s.boot.perst.toList.getD (portOf fn) true = false → exec (.deviceReset fn) s
        = .next { s with drst := { s.drst with ovr := true } })
    ∧ (s.drst.phase ≠ 0 → s.boot.phase = 8 → exec .deviceResetComplete s = .next { s with
        drst := { s.drst with phase := 0 }, err := { s.err with fatal := false, fatals := 0 }, pwr := (toBright s).pwr })
    ∧ (s.boot.phase ≠ 0 → ∃ u, exec .modRst s = .next u ∧ u.boot.phase = 1 ∧ u.threads = [] ∧ u.mem = [] ∧ u.regs = [] ∧ u.descs = []
        ∧ u.err = {} ∧ u.devTime = 0 ∧ u.jtag = {} ∧ u.sec.fused = s.sec.fused ∧ u.sec.revoked = s.sec.revoked
        ∧ u.fw.images = s.fw.images ∧ u.pwr.trip = s.pwr.trip ∧ u.mtr.cart = s.mtr.cart ∧ u.hostMem = s.hostMem)

/-- R582-R585: debug commands, by a PF or by JTAG. Memory and register reads give the word, writes store it, and an address outside reports
0x83; a running thread is saved, a saved one is held, resumed and ended; a core is halted, steps and runs again; and the JTAG instructions
select their registers. -/
def Obligations.DebugAndJtag : Prop :=
  ∀ (s : State) (via : DbgVia),
    (DbgIdle s via → ∀ a d : Word,
      let w (op : Nat) (x : Option Word) := dbgOpened s via op a x
      (physOk a = true →
        (let r := devRead (w 1 none) a.toNat 8 none; dbgAnswers (exec (.readPhys via a) s)
          (rset r.1 dbgData (if r.2.2 then 0 else BitVec.ofNat 64 (ofBytes r.2.1))) (if r.2.2 then 0x0A else 0) 0)
        ∧ dbgAnswers (exec (.writePhys via a d) s) (devWrite (w 2 (some d)) none a.toNat (toBytes 8 d.toNat)) 0 0)
      ∧ (physOk a = false → dbgAnswers (exec (.readPhys via a) s) (physRefused (w 1 none) a) 5 0x83
        ∧ dbgAnswers (exec (.writePhys via a d) s) (physRefused (w 2 (some d)) a) 5 0x83)
      ∧ (stwAddr a = true →
        let r := stwRead (w 3 none) 0 0 a
        dbgAnswers (exec (.readSreg via a) s) (rset r.1 dbgData r.2) 0 0
        ∧ (a.toNat < 0xE00000 → a.toNat % 8 = 0 → a.toNat ≠ 0xC10100 → dbgAnswers (exec (.writeSreg via a d) s)
            (regWriteBase (stwFn (w 4 (some d)) 0 a.toNat d) a.toNat d (w 4 (some d))) 0 0))
      ∧ (stwAddr a = false → dbgAnswers (exec (.readSreg via a) s) (w 3 none) 5 0x83 ∧ dbgAnswers (exec (.writeSreg via a d) s) (w 4 (some d)) 5 0x83))
    ∧ (DbgIdle s via → ∀ (index : BitVec 32) (launch : Word),
      let w := dbgOpened s via 5 (index.setWidth 64) (some launch)
      let mine (p : Nat × Thread) := !p.2.handler && p.2.launch == launch.toNat && p.2.index == index && p.2.st != .ending
      (∀ p, s.threads.find? mine = some p → p.2.st = .ready → exec (.haltThread via index launch) s
        = .next (settle (beginSave (haltSeen w 5 (index.setWidth 64) launch) (tidOf p.1) 3)))
      ∧ (s.threads.find? mine = none → s.saved.find? (fun x => !x.handler && x.launch == launch.toNat && x.index == index) = none →
        dbgAnswers (exec (.haltThread via index launch) s) w 5 0x80))
    ∧ (DbgIdle s via → ∀ (vi : Vi) (a : Word) (st : BitVec 8),
      let w := dbgOpened s via 6 (vi.setWidth 64) (some a)
      let b := a &&& 0xFFFFFFFFFFFFFF00
      let v := dbgOpened s via 7 (b ||| vi.setWidth 64) (some (st.setWidth 64))
      (∀ x, haltedAt w vi a = some x → dbgAnswers (exec (.resumeThread via vi a) s)
        (resumeSaved { w with saved := w.saved.map (fun z => if z = x then { x with halted := false } else z) } { x with halted := false }) 0 0)
      ∧ (haltedAt w vi a = none → dbgAnswers (exec (.resumeThread via vi a) s) w 5 0x80)
      ∧ (∀ x, haltedAt v vi b = some x → dbgAnswers (exec (.endThread via vi a st) s) (endSaved v x st) 0 0)
      ∧ (haltedAt v vi b = none → dbgAnswers (exec (.endThread via vi a st) s) v 5 0x80))
    ∧ (DbgIdle s via → ∀ core : BitVec 4,
      let n := core.toNat
      let w (op : Nat) := dbgOpened s via op (core.setWidth 64) none
      let on := (tget s.fw.cores n {}).halted
      (on = false → dbgAnswers (exec (.haltCore via core) s) (haltSeen (setHalt (w 8) n true) 8 (core.setWidth 64) 0) 0 0
        ∧ dbgAnswers (exec (.stepCore via core) s) (w 9) 0x0B 0x82 ∧ dbgAnswers (exec (.resumeCore via core) s) (w 10) 0x0B 0x82)
      ∧ (on = true → dbgAnswers (exec (.haltCore via core) s) (w 8) 0 0 ∧ dbgAnswers (exec (.stepCore via core) s) (w 9) 0 0
        ∧ dbgAnswers (exec (.resumeCore via core) s) (mbResume (setHalt (w 10) n false)) 0 0))
    ∧ (tapOn s = true → ∀ (bs : List Bool) (a d : Word),
      (∃ u, exec (.extest bs) s = .next u ∧ u = { s with jtag := u.jtag, free := u.free } ∧ u.jtag.ir = 0 ∧ u.jtag.bsr = bs)
      ∧ (∃ u, exec (.samplePreload bs) s = .next u ∧ u = { s with jtag := u.jtag, free := u.free } ∧ u.jtag.ir = 1 ∧ u.jtag.bsr = bs)
      ∧ exec .idcode s = .next { s with jtag := { s.jtag with ir := 0x02, dr := 0xB3272F79 } }
      ∧ exec .bypass s = .next { s with jtag := { s.jtag with ir := 0x3F, dr := 0 } }
      ∧ exec .tapReset s = .next { s with jtag := { s.jtag with ir := 0x02, opened := false } }
      ∧ (dbgReach s = true → s.pwr.st ≠ 2 → s.pwr.st ≠ 4 → Settled s → ∃ u, exec (.dbgacc 0 a d) s = .next u
          ∧ rget u 0xC10108 = a ∧ rget u dbgData = d ∧ u.jtag.ir = 0x10 ∧ u.jtag.opened = true
          ∧ (s.jtag.opened = false → measOf u 3 = Config.sha384 (digestBytes (measOf s 3) ++ digestBytes (Config.sha384 [0x10])))
          ∧ (s.jtag.opened = true → u.sec = s.sec)))

/-- R586, R592-R599: counters, samplers and the trace. Enabling an instance's counting zeroes its counters; a sampler that checks starts at
sample 0 and one that does not is DISABLED; a sample is written or counted lost; TRC_CFG starts and stops the trace; FIRE triggers an
armed trace, ARM arms a triggered one; a marker enters it; and an acknowledgement frees the host area. -/
def Obligations.CountersAndTrace : Prop :=
  ∀ (s : State) (fn : Fn), isPf fn = true →
    (HostReaches s fn 0xC20008 → samePort fn (cntVi s) = true → ∀ en ar, ∃ u, exec (.cntVicfgWrite fn en ar) s = .next u
      ∧ rget u (cntReg (cntVi s) 8) = (at_ (b2n en) 63 ||| at_ (b2n ar) 62) ∧ u = { s with regs := u.regs, cnts := u.cnts }
      ∧ (en = false → u.cnts = s.cnts) ∧ (en = true → ∀ p, p ∈ u.cnts ↔ (p ∈ s.cnts ∧ p.1 / 32 % 256 ≠ (cntVi s).toNat)))
    ∧ (∀ (k : Fin 4) (c : SmpW), HostReaches s fn (cSmpReg k.val 8) → samePort fn c.vi = true → (getSmp s k.val).run = false →
      let x := getSmp s k.val
      let w := rset s (cSmpReg k.val 8) (cSmpWord c)
      (cSmpOk w k.val = true → exec (.samplerEnable fn k c) s = .next (setSmp w k.val { x with run := true, n := 0, last := none }))
      ∧ (cSmpOk w k.val = false → exec (.samplerEnable fn k c) s = .next (setSmp w k.val { x with run := false })))
    ∧ (∀ k : Fin 4, Settled s → working s = true → (getSmp s k.val).run = true → s.devTime.toNat % cSmpPeriod s k.val = 0 →
        (getSmp s k.val).last ≠ some s.devTime →
      let x := getSmp s k.val
      let a := cSmpBase s k.val + BitVec.ofNat 64 (512 * (x.n.toNat % cSmpSize s k.val))
      let d := cSmpRecord s k.val
      (cSmpRoom s k.val = false → exec (.counterSample k) s = .next (nextFree (setSmp s k.val
        { x with n := x.n + 1, last := some s.devTime, lost := x.lost + 1, wrap := x.wrap || decide (x.lost + 1 = 0) })))
      ∧ (∀ v u, cSmpRoom s k.val = true → instWrite s (cSmpVi s k.val) (a + 8) (d.drop 8) = some v →
        instWrite v (cSmpVi s k.val) a (d.take 8) = some u → u.smp = s.smp → u.threads = s.threads → u.devTime = s.devTime →
        exec (.counterSample k) s = .next (nextFree (setSmp u k.val { x with n := x.n + 1, last := some s.devTime }))))
    ∧ (∀ c : TrcW, HostReaches s fn 0xC10000 →
      (trcEn s = false → c.en = false → c.reserve.toNat ≤ 4 → c.ovfMib.toNat ≤ 6144 → exec (.trcCfgWrite fn c) s = .next (rset s 0xC10000 (trcWord c)))
      ∧ (trcEn s = false → c.en = true → c.reserve.toNat ≤ 4 → c.ovfMib.toNat ≤ 6144 → bits (rget s 0xC10048) 15 0 = 0 →
        ∃ u, exec (.trcCfgWrite fn c) s = .next u ∧ rget u 0xC10000 = trcWord c ∧ rget u 0xC10020 = 0 ∧ u = { s with regs := u.regs, trc := u.trc }
          ∧ u.trc = { s.trc with st := 1, post := 0, held := [], hostProd := 0, pendLoss := 0, needSync := [] })
      ∧ (trcEn s = true → c.en = false → exec (.trcCfgWrite fn c) s
          = .next { rset s 0xC10000 (setBits (trcCfg s) 63 63 0) with trc := { s.trc with st := 0 } }))
    ∧ (HostReaches s fn 0xC10040 → rget s 0xC10040 &&& 0xFF37001F = rget s 0xC10040 → trcEn s = true →
      let w := rset s 0xC10040 (rget s 0xC10040)
      (s.trc.st = 1 → bit (rget s 0xC10040) 0 = true → ∃ v, exec (.fire fn) s = .next { v with trc := { v.trc with st := 2, post := 0 } }
        ∧ v = trcEnter (trcLoss w) [pktHeader 0x07 1 false 0 0x3F s.devTime, 0])
      ∧ (s.trc.st ≠ 1 ∨ bit (rget s 0xC10040) 0 = false → exec (.fire fn) s = .next w)
      ∧ (2 ≤ s.trc.st → exec (.arm fn) s = .next { w with trc := { s.trc with st := 1, post := 0 } })
      ∧ (s.trc.st < 2 → exec (.arm fn) s = .next w))
    ∧ (HostReaches s fn 0xC10058 → ∀ v, trcEn s = true → s.trc.st = 1 →
      let w := rset s 0xC10058 v
      let p := [pktHeader 0x06 1 false 0 0x30 s.devTime, v]
      (trcFits w p = true → exec (.trcMarkWrite fn v) s = .next (trcEnter (trcLoss w) p))
      ∧ (trcFits w p = false → exec (.trcMarkWrite fn v) s = .next (trcDrop w)))
    ∧ (HostReaches s fn 0xC10020 → ∀ v, s.trc.held = [] → exec (.trcHostAckWrite fn v) s = .next (rset s 0xC10020 v))
    ∧ (HostReaches s fn 0xC10020 → ∀ v, exec (.trcHostAckWrite fn v) s = .next (settle (trcFlush (rset s 0xC10020 v) (s.trc.held.length + 1))))

/-- R181, R480, R482, R484, R610, R611, R615: start-up. Each phase ends with its work done; COOLANT waits and fails after 60 s; SECURE takes
the first image in slot order that passes, or fails; a failed training names its unit; FILL leaves memory zero; and FIRMWARE brings the
device up, Bright, with every enabled port training. -/
def Obligations.StartUpPhases : Prop :=
  ∀ (s : State),
    (∀ (ms : BitVec 16) (a1 a0 : Bool), s.boot.phase = 1 → ∃ u, exec (.convert ms a1 a0) s = .next u ∧ u.devTime = 0 ∧ u.boot.phase = 2
        ∧ u.boot.smbAddr = some (BitVec.ofNat 7 (0x58 + 2 * a1.toNat + a0.toNat)) ∧ (∀ p : Fin 2, u.boot.upLink[p] = !s.boot.perst[p])
        ∧ u = { s with devTime := 0, boot := u.boot })
    ∧ (s.boot.phase = 2 →
      (100 ≤ chanValue (getChan s 70) 70 → (getChan s 68).window ≠ [] → chanValue (getChan s 68) 68 < 450 →
        exec .coolant s = .next { s with boot := { s.boot with phase := 3 } })
      ∧ (chanValue (getChan s 70) 70 < 100 ∨ 450 ≤ chanValue (getChan s 68) 68 → exec .coolant s = .next s)
      ∧ (60000000000 ≤ s.devTime.toNat → ∃ u, exec .coolantTimeout s = .next u ∧ u.boot.phase = 9 ∧ u.boot.fail = 1 ∧ u.mem = s.mem)
      ∧ (s.devTime.toNat < 60000000000 → exec .coolantTimeout s = .next s))
    ∧ (s.boot.phase = 3 → exec .rails s = .next { s with boot := { s.boot with phase := 4 } })
    ∧ (s.boot.phase = 4 →
      let ok (k : Nat) : Prop := ∃ i, tget? s.fw.images k = some i ∧ i.sigOk = true ∧ s.sec.fused.toNat ≤ i.svn.toNat
        ∧ ∃ key, i.key = some key ∧ bit s.sec.revoked key.toNat = false
      (∀ k i, tget? s.fw.images k = some i → ok k → (k = s.fw.pref ∨ (k = 1 - s.fw.pref ∧ ¬ok s.fw.pref)
          ∨ (k = 2 ∧ ¬ok s.fw.pref ∧ ¬ok (1 - s.fw.pref))) →
        ∃ u, exec .secure s = .next u ∧ u.boot.phase = 5 ∧ u.fw.active = k ∧ u.sec.boot = 1 ∧ u.sec.svn = i.svn ∧ u.sec.fused = s.sec.fused
          ∧ u.sec.revoked = s.sec.revoked ∧ measOf u 1 = Config.sha384 (digestBytes 0 ++ digestBytes i.digest))
      ∧ (¬ok s.fw.pref → ¬ok (1 - s.fw.pref) → ¬ok 2 → ∃ u, exec .secure s = .next u ∧ u.boot.phase = 9 ∧ u.boot.fail = 2 ∧ u.sec.boot = 2))
    ∧ (s.boot.phase = 5 → ∃ u, exec (.train .ok) s = .next u ∧ u.boot.phase = 6 ∧ u.mem = s.mem
        ∧ ∀ (st : Fin 32) (l : Fin 6) (f : BitVec 10), ∃ a b c d,
          (exec (.train (.stack st)) s = .next a ∧ a.boot.phase = 9 ∧ a.boot.fail = 3 ∧ a.boot.failUnit.toNat = st.val)
          ∧ (exec (.train (.bridge st)) s = .next b ∧ b.boot.phase = 9 ∧ b.boot.fail = 4 ∧ b.boot.failUnit.toNat = st.val)
          ∧ (exec (.train (.link l)) s = .next c ∧ c.boot.phase = 9 ∧ c.boot.fail = 5 ∧ c.boot.failUnit.toNat = l.val)
          ∧ (exec (.train (.facet f)) s = .next d ∧ d.boot.phase = 9 ∧ d.boot.fail = 6 ∧ d.boot.failUnit.toNat = f.toNat / 8))
    ∧ (s.boot.phase = 6 → exec .fill s = .next { s with mem := [], poison := [], ue := [], guard := [], boot := { s.boot with phase := 7 } })
    ∧ (s.boot.phase = 7 → ∃ u, exec .firmware s = .next u ∧ u.boot.phase = 8 ∧ u.fw.up = true ∧ u.pwr = (toBright s).pwr
        ∧ ∀ p, getPhy u p = (if bit (phyCfg s p) 63 = true ∧ portUse s p ≠ 0 then
          { getPhy s p with st := 1, lanes := 0, half := false, since := s.devTime } else getPhy s p))
    ∧ (∀ c ∈ [Instr.convert 0 false false, .coolant, .coolantTimeout, .rails, .secure, .train .ok, .fill, .firmware],
        s.boot.phase = 0 ∨ s.boot.phase = 8 ∨ s.boot.phase = 9 → exec c s = .next s)

/-- R2, R8, R10-R13, R297, R298, R301, R303, R549, R560, R576, R615: a write to a register with no row of its own, and how the device
describes itself. An aligned 64-bit write that is let through acts as the register's access codes say; a bad width or alignment is recorded
as an access error; a write with the BARs off is an Unsupported Request; a FAILED or fatal device ignores it outside the blocks that
answer; and one to a device in Dark is held and may wake it. The Revision ID of every function and the Device Description Table give the
stepping, and the table's 32-bit words sum to zero. -/
def Obligations.RegisterWrites : Prop :=
  ∀ (s : State) (fn : Fn) (off : BitVec 28) (v : Word), off.toNat < barSize fn →
    let w := exec (.registerWrite fn .bar0 off .w64 v) s
    let plain : Prop := off.toNat ≠ 0xC10100 ∧ off.toNat ≠ 0xF08008
    (HostReaches s fn off.toNat → off.toNat % 8 = 0 → plain → ∃ u, w = .next (settle u) ∧ u = regWrite fn off.toNat v s
      ∧ (isPf fn = true → off.toNat = 0xD00008 → rget u 0xD00008 = v &&& 0xFFFFFFFFFFFFFFC0)
      ∧ (isPf fn = true → 0xE00108 ≤ off.toNat → off.toNat < 0xE00128 → rget u off.toNat = v)
      ∧ (isPf fn = true → off.toNat = 0xE00128 → bit (rget u 0xE00128) 1 = (bit (rget s 0xE00128) 1 && !bit v 1)
          ∧ bits (rget u 0xE00128) 63 2 = bits (rget s 0xE00128) 63 2)
      ∧ (isPf fn = true → off.toNat = 0xF00008 → rget u 0xF00008 = if bits v 6 0 ≤ 73 then v &&& 0x7F else rget s 0xF00008)
      ∧ (off.toNat < 0x10000 ∨ (0x300008 ≤ off.toNat ∧ off.toNat < 0x400000) → u = nextFree s))
    ∧ (HostReaches s fn (off.toNat / 8 * 8) → ∀ k, (off.toNat % 8 ≠ 0 ∧ k = .w64) ∨ (off.toNat % 4 ≠ 0 ∧ k = .w32) ∨ k = .w16 ∨ k = .w8 →
      exec (.registerWrite fn .bar0 off k v) s = .next (accessErr s fn off.toNat))
    ∧ (fnExists s fn = true → endpointUp s fn = true → barsOn s fn = false → off.toNat % 8 = 0 → w = .next (aerReq s fn 20))
    ∧ (fnExists s fn = false ∨ endpointUp s fn = false → w = .next s)
    ∧ (fnExists s fn = true → endpointUp s fn = true → barsOn s fn = true → off.toNat % 8 = 0 →
      (s.boot.phase = 9 → failedBlock off.toNat = false → plain → w = .next s)
      ∧ (s.boot.phase ≠ 9 → s.err.fatal = true → fatalBlock off.toNat = false → plain → w = .next s)
      ∧ (s.boot.phase ≠ 9 → s.err.fatal = false → s.pwr.st = 2 → plain → w = .next { s with
          heldHost := s.heldHost ++ [.reg fn off.toNat v],
          pwr := if bit (rget s 0xF08020) 63 then { s.pwr with st := 4, wake := 1 } else s.pwr }))
    ∧ (∀ (bus : BitVec 8) (x : BitVec 32), fnExists s fn = true → endpointUp s fn = true → off.toNat % 4 = 0 → off.toNat < 4096 →
      exec (.registerWrite fn (.config bus) off .w32 (x.setWidth 64)) s
        = .next (settle (cfgWr fn off.toNat (BitVec.allOnes 32) x (captureBus fn bus s))))
    ∧ (∀ (n : Fin 10) (x : BitVec 32), swUp s n = true → off.toNat % 4 = 0 → off.toNat < 4096 →
      exec (.registerWrite fn (.switch n) off .w32 (x.setWidth 64)) s = .next (settle (swWr n off.toNat (BitVec.allOnes 32) x s)))
    ∧ ((cfgRead s fn 8).toNat % 256 = 0xB0 ∧ bits (ddtRd s fn 0) 55 48 = 0xB0 ∧ bits (ddtRd s fn 0) 31 0 = 0x54444C48
      ∧ let n := bits (ddtRd s fn 8) 31 0
        0x60 ≤ n ∧ n ≤ 65536 ∧ n % 32 = 0 ∧ (∀ i < 4, ddtRd s fn (n - 32 + 8 * i) = 0)
        ∧ sum32 ((List.range (n / 8)).map (fun i => ddtRd s fn (8 * i))) = 0)
end

