-- ==== Sys2Proof/Laws/Exec.lean ====
section
/-! SUPPORT. The arms of `exec`, one lemma a command: a proof about one command starts by rewriting with its lemma. -/

namespace Sys2Proof.Machine

@[simp] theorem exec_add (s : State) (t : Tid) (d a : Reg) (b : Src) : exec (.add t d a b) s = execAdd t d a b s := rfl
@[simp] theorem exec_sub (s : State) (t : Tid) (d a : Reg) (b : Src) : exec (.sub t d a b) s = execSub t d a b s := rfl
@[simp] theorem exec_addv (s : State) (t : Tid) (d a : Reg) (b : Src) : exec (.addv t d a b) s = execAddv t d a b s := rfl
@[simp] theorem exec_subv (s : State) (t : Tid) (d a : Reg) (b : Src) : exec (.subv t d a b) s = execSubv t d a b s := rfl
@[simp] theorem exec_and (s : State) (t : Tid) (d a : Reg) (b : Src) : exec (.and t d a b) s = execAnd t d a b s := rfl
@[simp] theorem exec_or (s : State) (t : Tid) (d a : Reg) (b : Src) : exec (.or t d a b) s = execOr t d a b s := rfl
@[simp] theorem exec_xor (s : State) (t : Tid) (d a : Reg) (b : Src) : exec (.xor t d a b) s = execXor t d a b s := rfl
@[simp] theorem exec_andn (s : State) (t : Tid) (d a : Reg) (b : Src) : exec (.andn t d a b) s = execAndn t d a b s := rfl
@[simp] theorem exec_slt (s : State) (t : Tid) (d a : Reg) (b : Src) : exec (.slt t d a b) s = execSlt t d a b s := rfl
@[simp] theorem exec_sltu (s : State) (t : Tid) (d a : Reg) (b : Src) : exec (.sltu t d a b) s = execSltu t d a b s := rfl
@[simp] theorem exec_seq (s : State) (t : Tid) (d a : Reg) (b : Src) : exec (.seq t d a b) s = execSeq t d a b s := rfl
@[simp] theorem exec_min (s : State) (t : Tid) (d a : Reg) (b : Src) : exec (.min t d a b) s = execMin t d a b s := rfl
@[simp] theorem exec_minu (s : State) (t : Tid) (d a : Reg) (b : Src) : exec (.minu t d a b) s = execMinu t d a b s := rfl
@[simp] theorem exec_max (s : State) (t : Tid) (d a : Reg) (b : Src) : exec (.max t d a b) s = execMax t d a b s := rfl
@[simp] theorem exec_maxu (s : State) (t : Tid) (d a : Reg) (b : Src) : exec (.maxu t d a b) s = execMaxu t d a b s := rfl
@[simp] theorem exec_shl (s : State) (t : Tid) (d a : Reg) (b : Src) : exec (.shl t d a b) s = execShl t d a b s := rfl
@[simp] theorem exec_shr (s : State) (t : Tid) (d a : Reg) (b : Src) : exec (.shr t d a b) s = execShr t d a b s := rfl
@[simp] theorem exec_sra (s : State) (t : Tid) (d a : Reg) (b : Src) : exec (.sra t d a b) s = execSra t d a b s := rfl
@[simp] theorem exec_rol (s : State) (t : Tid) (d a : Reg) (b : Src) : exec (.rol t d a b) s = execRol t d a b s := rfl
@[simp] theorem exec_ror (s : State) (t : Tid) (d a : Reg) (b : Src) : exec (.ror t d a b) s = execRor t d a b s := rfl
@[simp] theorem exec_mov (s : State) (t : Tid) (d : Reg) (src : Src) : exec (.mov t d src) s = execMov t d src s := rfl
@[simp] theorem exec_neg (s : State) (t : Tid) (d a : Reg) : exec (.neg t d a) s = execNeg t d a s := rfl
@[simp] theorem exec_negs (s : State) (t : Tid) (d a : Reg) : exec (.negs t d a) s = execNegs t d a s := rfl
@[simp] theorem exec_sext (s : State) (t : Tid) (fw : SextW) (d a : Reg) : exec (.sext t fw d a) s = execSext t fw d a s := rfl
@[simp] theorem exec_zextW (s : State) (t : Tid) (d a : Reg) : exec (.zextW t d a) s = execZextW t d a s := rfl
@[simp] theorem exec_movhi (s : State) (t : Tid) (d a : Reg) (imm : Imm) : exec (.movhi t d a imm) s = execMovhi t d a imm s := rfl
@[simp] theorem exec_mul (s : State) (t : Tid) (d a b : Reg) : exec (.mul t d a b) s = execMul t d a b s := rfl
@[simp] theorem exec_mulv (s : State) (t : Tid) (d a b : Reg) : exec (.mulv t d a b) s = execMulv t d a b s := rfl
@[simp] theorem exec_mulh (s : State) (t : Tid) (d a b : Reg) : exec (.mulh t d a b) s = execMulh t d a b s := rfl
@[simp] theorem exec_mulhu (s : State) (t : Tid) (d a b : Reg) : exec (.mulhu t d a b) s = execMulhu t d a b s := rfl
@[simp] theorem exec_div (s : State) (t : Tid) (d a b : Reg) : exec (.div t d a b) s = execDiv t d a b s := rfl
@[simp] theorem exec_divu (s : State) (t : Tid) (d a b : Reg) : exec (.divu t d a b) s = execDivu t d a b s := rfl
@[simp] theorem exec_rem (s : State) (t : Tid) (d a b : Reg) : exec (.rem t d a b) s = execRem t d a b s := rfl
@[simp] theorem exec_remu (s : State) (t : Tid) (d a b : Reg) : exec (.remu t d a b) s = execRemu t d a b s := rfl
@[simp] theorem exec_popc (s : State) (t : Tid) (d a : Reg) : exec (.popc t d a) s = execPopc t d a s := rfl
@[simp] theorem exec_clz (s : State) (t : Tid) (d a : Reg) : exec (.clz t d a) s = execClz t d a s := rfl
@[simp] theorem exec_ctz (s : State) (t : Tid) (d a : Reg) : exec (.ctz t d a) s = execCtz t d a s := rfl
@[simp] theorem exec_rngk (s : State) (t : Tid) (d a b : Reg) : exec (.rngk t d a b) s = execRngk t d a b s := rfl
@[simp] theorem exec_b (s : State) (t : Tid) (imm : Imm) : exec (.b t imm) s = execB t imm s := rfl
@[simp] theorem exec_call (s : State) (t : Tid) (imm : Imm) : exec (.call t imm) s = execCall t imm s := rfl
@[simp] theorem exec_bcc (s : State) (t : Tid) (c : Cond) (a d : Reg) (imm : Imm) : exec (.bcc t c a d imm) s = execBcc t c a d imm s := rfl
@[simp] theorem exec_br (s : State) (t : Tid) (a : Reg) : exec (.br t a) s = execBr t a s := rfl
@[simp] theorem exec_callr (s : State) (t : Tid) (a : Reg) : exec (.callr t a) s = execCallr t a s := rfl
@[simp] theorem exec_ret (s : State) (t : Tid) : exec (.ret t) s = execRet t s := rfl
@[simp] theorem exec_wait (s : State) (t : Tid) (a b : BitVec 6) : exec (.wait t a b) s = execWait t a b s := rfl
@[simp] theorem exec_brep (s : State) (t : Tid) (a : Reg) (len : Imm) : exec (.brep t a len) s = execBrep t a len s := rfl
@[simp] theorem exec_tend (s : State) (t : Tid) : exec (.tend t) s = execTend t s := rfl
@[simp] theorem exec_ld (s : State) (t : Tid) (fw : LdW) (d a : Reg) (imm : Imm) : exec (.ld t fw d a imm) s = execLd t fw d a imm s := rfl
@[simp] theorem exec_st (s : State) (t : Tid) (fw : StW) (d a : Reg) (imm : Imm) : exec (.st t fw d a imm) s = execSt t fw d a imm s := rfl
@[simp] theorem exec_vld (s : State) (t : Tid) (f : VMem) : exec (.vld t f) s = execVld t f s := rfl
@[simp] theorem exec_vst (s : State) (t : Tid) (f : VMem) : exec (.vst t f) s = execVst t f s := rfl
@[simp] theorem exec_vldx (s : State) (t : Tid) (f : VIdx) : exec (.vldx t f) s = execVldx t f s := rfl
@[simp] theorem exec_vstx (s : State) (t : Tid) (f : VIdx) : exec (.vstx t f) s = execVstx t f s := rfl
@[simp] theorem exec_lds (s : State) (t : Tid) (fw : LdW) (d a : Reg) (imm : Imm) : exec (.lds t fw d a imm) s = execLds t fw d a imm s := rfl
@[simp] theorem exec_sts (s : State) (t : Tid) (fw : StW) (d a : Reg) (imm : Imm) : exec (.sts t fw d a imm) s = execSts t fw d a imm s := rfl
@[simp] theorem exec_vlds (s : State) (t : Tid) (f : VMem) : exec (.vlds t f) s = execVlds t f s := rfl
@[simp] theorem exec_vsts (s : State) (t : Tid) (f : VMem) : exec (.vsts t f) s = execVsts t f s := rfl
@[simp] theorem exec_amo (s : State) (t : Tid) (op : AmoOp) (dbl n : Bool) (d a b c : Reg) : exec (.amo t op dbl n d a b c) s = execAmo t op dbl n d a b c s := rfl
@[simp] theorem exec_rspush (s : State) (t : Tid) (a : Reg) (imm : Imm) : exec (.rspush t a imm) s = execRspush t a imm s := rfl
@[simp] theorem exec_rspop (s : State) (t : Tid) (a : Reg) (imm : Imm) : exec (.rspop t a imm) s = execRspop t a imm s := rfl
@[simp] theorem exec_movs (s : State) (t : Tid) (desc exit : Bool) (d sr n : Reg) : exec (.movs t desc exit d sr n) s = execMovs t desc exit d sr n s := rfl
@[simp] theorem exec_fills (s : State) (t : Tid) (exit : Bool) (d n v : Reg) : exec (.fills t exit d n v) s = execFills t exit d n v s := rfl
@[simp] theorem exec_cmps (s : State) (t : Tid) (exit : Bool) (r a b n : Reg) : exec (.cmps t exit r a b n) s = execCmps t exit r a b n s := rfl
@[simp] theorem exec_scans (s : State) (t : Tid) (var : ScanVar) (exit : Bool) (r p n c : Reg) : exec (.scans t var exit r p n c) s = execScans t var exit r p n c s := rfl
@[simp] theorem exec_xlats (s : State) (t : Tid) (del exit : Bool) (d sr n tb e : Reg) : exec (.xlats t del exit d sr n tb e) s = execXlats t del exit d sr n tb e s := rfl
@[simp] theorem exec_rhash (s : State) (t : Tid) (exit : Bool) (h p n k : Reg) (w : BitVec 6) : exec (.rhash t exit h p n k w) s = execRhash t exit h p n k w s := rfl
@[simp] theorem exec_distsB (s : State) (t : Tid) (exit : Bool) (d a b c : Reg) : exec (.distsB t exit d a b c) s = execDistsB t exit d a b c s := rfl
@[simp] theorem exec_vaddI (s : State) (t : Tid) (sub : Bool) (f : VOp) : exec (.vaddI t sub f) s = execVaddI t sub f s := rfl
@[simp] theorem exec_vadds (s : State) (t : Tid) (sub : Bool) (f : VOp) : exec (.vadds t sub f) s = execVadds t sub f s := rfl
@[simp] theorem exec_vminI (s : State) (t : Tid) (k : MinMax) (f : VOp) : exec (.vminI t k f) s = execVminI t k f s := rfl
@[simp] theorem exec_vlogic (s : State) (t : Tid) (k : VLog) (f : VOp) : exec (.vlogic t k f) s = execVlogic t k f s := rfl
@[simp] theorem exec_vshift (s : State) (t : Tid) (k : VShift) (f : VOp) : exec (.vshift t k f) s = execVshift t k f s := rfl
@[simp] theorem exec_vnegI (s : State) (t : Tid) (f : VUn) : exec (.vnegI t f) s = execVnegI t f s := rfl
@[simp] theorem exec_vcmp (s : State) (t : Tid) (k : VCmp) (et : EType) (md : MReg) (va : VReg) (vb : VB) (km : MReg) : exec (.vcmp t k et md va vb km) s = execVcmp t k et md va vb km s := rfl
@[simp] theorem exec_vsel (s : State) (t : Tid) (et : EType) (vd va vb : VReg) (km : MReg) : exec (.vsel t et vd va vb km) s = execVsel t et vd va vb km s := rfl
@[simp] theorem exec_vmov (s : State) (t : Tid) (f : VUn) : exec (.vmov t f) s = execVmov t f s := rfl
@[simp] theorem exec_vbcast (s : State) (t : Tid) (et : EType) (vd : VReg) (g : Reg) (km : MReg) : exec (.vbcast t et vd g km) s = execVbcast t et vd g km s := rfl
@[simp] theorem exec_vperm (s : State) (t : Tid) (et : EType) (vd va vb : VReg) (km : MReg) : exec (.vperm t et vd va vb km) s = execVperm t et vd va vb km s := rfl
@[simp] theorem exec_vins (s : State) (t : Tid) (et : EType) (vd : VReg) (g : Reg) (x : BitVec 7) (km : MReg) : exec (.vins t et vd g x km) s = execVins t et vd g x km s := rfl
@[simp] theorem exec_vext (s : State) (t : Tid) (et : EType) (g : Reg) (va : VReg) (x : BitVec 7) : exec (.vext t et g va x) s = execVext t et g va x s := rfl
@[simp] theorem exec_vaddF (s : State) (t : Tid) (k : VArith) (f : VOp) : exec (.vaddF t k f) s = execVaddF t k f s := rfl
@[simp] theorem exec_vfma (s : State) (t : Tid) (f : VOp) (vc : VReg) : exec (.vfma t f vc) s = execVfma t f vc s := rfl
@[simp] theorem exec_vminF (s : State) (t : Tid) (max : Bool) (f : VOp) : exec (.vminF t max f) s = execVminF t max f s := rfl
@[simp] theorem exec_vnegF (s : State) (t : Tid) (abs : Bool) (f : VUn) : exec (.vnegF t abs f) s = execVnegF t abs f s := rfl
@[simp] theorem exec_vmac (s : State) (t : Tid) (f : VOp) : exec (.vmac t f) s = execVmac t f s := rfl
@[simp] theorem exec_vmulI (s : State) (t : Tid) (f : VOp) : exec (.vmulI t f) s = execVmulI t f s := rfl
@[simp] theorem exec_vcvt (s : State) (t : Tid) (f : VCvt) : exec (.vcvt t f) s = execVcvt t f s := rfl
@[simp] theorem exec_vcvtu (s : State) (t : Tid) (f : VCvt) : exec (.vcvtu t f) s = execVcvtu t f s := rfl
@[simp] theorem exec_vredAdd (s : State) (t : Tid) (et : EType) (g : Reg) (va : VReg) (km : MReg) : exec (.vredAdd t et g va km) s = execVredAdd t et g va km s := rfl
@[simp] theorem exec_vredMinmax (s : State) (t : Tid) (k : MinMax) (et : EType) (g : Reg) (va : VReg) (km : MReg) : exec (.vredMinmax t k et g va km) s = execVredMinmax t k et g va km s := rfl
@[simp] theorem exec_maskLogic (s : State) (t : Tid) (k : MaskOp) (md a b : MReg) : exec (.maskLogic t k md a b) s = execMaskLogic t k md a b s := rfl
@[simp] theorem exec_mset (s : State) (t : Tid) (md : MReg) (x : BitVec 7) (g : Reg) : exec (.mset t md x g) s = execMset t md x g s := rfl
@[simp] theorem exec_mpop (s : State) (t : Tid) (et : EType) (g : Reg) (a : MReg) : exec (.mpop t et g a) s = execMpop t et g a s := rfl
@[simp] theorem exec_eaadd (s : State) (t : Tid) (et : EType) (ea : EaReg) (va : VReg) (km : MReg) : exec (.eaadd t et ea va km) s = execEaadd t et ea va km s := rfl
@[simp] theorem exec_eamac (s : State) (t : Tid) (et : EType) (ea : EaReg) (va vb : VReg) (km : MReg) : exec (.eamac t et ea va vb km) s = execEamac t et ea va vb km s := rfl
@[simp] theorem exec_eaclr (s : State) (t : Tid) (ea : EaReg) : exec (.eaclr t ea) s = execEaclr t ea s := rfl
@[simp] theorem exec_earound (s : State) (t : Tid) (et : EType) (g : Reg) (ea : EaReg) : exec (.earound t et g ea) s = execEaround t et g ea s := rfl
@[simp] theorem exec_eainfo (s : State) (t : Tid) (g : Reg) (ea : EaReg) : exec (.eainfo t g ea) s = execEainfo t g ea s := rfl
@[simp] theorem exec_eamerge (s : State) (t : Tid) (ea : EaReg) (g : Reg) : exec (.eamerge t ea g) s = execEamerge t ea g s := rfl
@[simp] theorem exec_easave (s : State) (t : Tid) (g : Reg) (ea : EaReg) : exec (.easave t g ea) s = execEasave t g ea s := rfl
@[simp] theorem exec_ubar (s : State) (t : Tid) (d : Reg) (scope : Imm) : exec (.ubar t d scope) s = execUbar t d scope s := rfl
@[simp] theorem exec_sbar (s : State) (t : Tid) (d a : Reg) : exec (.sbar t d a) s = execSbar t d a s := rfl
@[simp] theorem exec_semp (s : State) (t : Tid) (d a b : Reg) : exec (.semp t d a b) s = execSemp t d a b s := rfl
@[simp] theorem exec_semv (s : State) (t : Tid) (d a b : Reg) : exec (.semv t d a b) s = execSemv t d a b s := rfl
@[simp] theorem exec_semt (s : State) (t : Tid) (d a b : Reg) : exec (.semt t d a b) s = execSemt t d a b s := rfl
@[simp] theorem exec_ecadd (s : State) (t : Tid) (d a b : Reg) : exec (.ecadd t d a b) s = execEcadd t d a b s := rfl
@[simp] theorem exec_ecwait (s : State) (t : Tid) (d a b : Reg) : exec (.ecwait t d a b) s = execEcwait t d a b s := rfl
@[simp] theorem exec_ecread (s : State) (t : Tid) (d a : Reg) : exec (.ecread t d a) s = execEcread t d a s := rfl
@[simp] theorem exec_lkacq (s : State) (t : Tid) (d a : Reg) : exec (.lkacq t d a) s = execLkacq t d a s := rfl
@[simp] theorem exec_lkrel (s : State) (t : Tid) (d a : Reg) : exec (.lkrel t d a) s = execLkrel t d a s := rfl
@[simp] theorem exec_lktry (s : State) (t : Tid) (d a : Reg) : exec (.lktry t d a) s = execLktry t d a s := rfl
@[simp] theorem exec_mfs (s : State) (t : Tid) (d : Reg) (sreg : Imm) : exec (.mfs t d sreg) s = execMfs t d sreg s := rfl
@[simp] theorem exec_mts (s : State) (t : Tid) (sreg : Imm) (a : Reg) : exec (.mts t sreg a) s = execMts t sreg a s := rfl
@[simp] theorem exec_brk (s : State) (t : Tid) (imm : Imm) : exec (.brk t imm) s = execBrk t imm s := rfl
@[simp] theorem exec_hcall (s : State) (t : Tid) (imm : Imm) : exec (.hcall t imm) s = execHcall t imm s := rfl
@[simp] theorem exec_nop (s : State) (t : Tid) : exec (.nop t) s = execNop t s := rfl
@[simp] theorem exec_launch (s : State) (t : Tid) (d a : Reg) : exec (.launch t d a) s = execLaunch t d a s := rfl
@[simp] theorem exec_tresume (s : State) (t : Tid) (a : Reg) : exec (.tresume t a) s = execTresume t a s := rfl
@[simp] theorem exec_tendOther (s : State) (t : Tid) (a d : Reg) : exec (.tendOther t a d) s = execTendOther t a d s := rfl
@[simp] theorem exec_evwait (s : State) (t : Tid) (d : Reg) : exec (.evwait t d) s = execEvwait t d s := rfl
@[simp] theorem exec_sysrd (s : State) (t : Tid) (d a : Reg) : exec (.sysrd t d a) s = execSysrd t d a s := rfl
@[simp] theorem exec_syswr (s : State) (t : Tid) (a d : Reg) : exec (.syswr t a d) s = execSyswr t a d s := rfl
@[simp] theorem exec_evpost (s : State) (t : Tid) (a d : Reg) : exec (.evpost t a d) s = execEvpost t a d s := rfl
@[simp] theorem exec_handlerModeTrap (s : State) (vi : Vi) : exec (.handlerModeTrap vi) s = execHandlerModeTrap vi s := rfl
@[simp] theorem exec_loadComplete (s : State) (t : Tid) (op : Nat) (status : BitVec 8) (data : List Byte) : exec (.loadComplete t op status data) s = execLoadComplete t op status data s := rfl
@[simp] theorem exec_storeComplete (s : State) (t : Tid) (op : Nat) (status : BitVec 8) : exec (.storeComplete t op status) s = execStoreComplete t op status s := rfl
@[simp] theorem exec_threadDrained (s : State) (e : EndedAt) : exec (.threadDrained e) s = execThreadDrained e s := rfl
@[simp] theorem exec_saveComplete (s : State) (t : Tid) : exec (.saveComplete t) s = execSaveComplete t s := rfl
@[simp] theorem exec_threadResume (s : State) (w : SavedId) : exec (.threadResume w) s = execThreadResume w s := rfl
@[simp] theorem exec_launchTake (s : State) (vi : Vi) (q : BitVec 4) : exec (.launchTake vi q) s = execLaunchTake vi q s := rfl
@[simp] theorem exec_launchAdmit (s : State) (num : Nat) : exec (.launchAdmit num) s = execLaunchAdmit num s := rfl
@[simp] theorem exec_cmpCreate (s : State) (fn : Fn) (c : CmpArgs) : exec (.cmpCreate fn c) s = execCmpCreate fn c s := rfl
@[simp] theorem exec_cmpAdd (s : State) (fn : Fn) (c : CmpArgs) : exec (.cmpAdd fn c) s = execCmpAdd fn c s := rfl
@[simp] theorem exec_cmpRemove (s : State) (fn : Fn) (c : CmpArgs) : exec (.cmpRemove fn c) s = execCmpRemove fn c s := rfl
@[simp] theorem exec_cmpDestroy (s : State) (fn : Fn) (c : CmpArgs) : exec (.cmpDestroy fn c) s = execCmpDestroy fn c s := rfl
@[simp] theorem exec_cmpRead (s : State) (fn : Fn) (c : CmpArgs) : exec (.cmpRead fn c) s = execCmpRead fn c s := rfl
@[simp] theorem exec_cmpReset (s : State) (fn : Fn) (c : CmpArgs) : exec (.cmpReset fn c) s = execCmpReset fn c s := rfl
@[simp] theorem exec_cmpExport (s : State) (fn : Fn) (c : CmpArgs) : exec (.cmpExport fn c) s = execCmpExport fn c s := rfl
@[simp] theorem exec_compositeConfirm (s : State) (m : ConfirmMsg) : exec (.compositeConfirm m) s = execCompositeConfirm m s := rfl
@[simp] theorem exec_unitResetComplete (s : State) : exec (.unitResetComplete) s = execUnitResetComplete s := rfl
@[simp] theorem exec_reshapingComplete (s : State) (what : Reshaped) : exec (.reshapingComplete what) s = execReshapingComplete what s := rfl
@[simp] theorem exec_untCntvalRead (s : State) (rd : CntRead) : exec (.untCntvalRead rd) s = execUntCntvalRead rd s := rfl
@[simp] theorem exec_gtMap (s : State) (fn : Fn) (vi : Vi) (index : BitVec 12) (confirmed : Bool) : exec (.gtMap fn vi index confirmed) s = execGtMap fn vi index confirmed s := rfl
@[simp] theorem exec_gtUnmap (s : State) (fn : Fn) (vi : Vi) (index : BitVec 12) : exec (.gtUnmap fn vi index) s = execGtUnmap fn vi index s := rfl
@[simp] theorem exec_gtSetattr (s : State) (fn : Fn) (vi : Vi) (index : BitVec 12) (confirmed : Bool) : exec (.gtSetattr fn vi index confirmed) s = execGtSetattr fn vi index confirmed s := rfl
@[simp] theorem exec_gtRead (s : State) (fn : Fn) (vi : Vi) (index : BitVec 12) : exec (.gtRead fn vi index) s = execGtRead fn vi index s := rfl
@[simp] theorem exec_scrubComplete (s : State) (g : BitVec 12) : exec (.scrubComplete g) s = execScrubComplete g s := rfl
@[simp] theorem exec_makeColumnLocal (s : State) (fn : Fn) (row : BitVec 7) : exec (.makeColumnLocal fn row) s = execMakeColumnLocal fn row s := rfl
@[simp] theorem exec_makeSpread (s : State) (fn : Fn) (row : BitVec 7) : exec (.makeSpread fn row) s = execMakeSpread fn row s := rfl
@[simp] theorem exec_viSpillWrite (s : State) (fn : Fn) (vi : Vi) (host : Bool) (v : BitVec 64) : exec (.viSpillWrite fn vi host v) s = execViSpillWrite fn vi host v s := rfl
@[simp] theorem exec_devCtxSpillWrite (s : State) (fn : Fn) (v : BitVec 64) : exec (.devCtxSpillWrite fn v) s = execDevCtxSpillWrite fn v s := rfl
@[simp] theorem exec_patrolScrub (s : State) (block : BitVec 36) (found : ScrubFinds) : exec (.patrolScrub block found) s = execPatrolScrub block found s := rfl
@[simp] theorem exec_mirrorWr (s : State) (src : BitVec 12) (g : BitVec 12) (off : BitVec 30) (data : List Byte) (marker : BitVec 30) : exec (.mirrorWr src g off data marker) s = execMirrorWr src g off data marker s := rfl
@[simp] theorem exec_mirrorAck (s : State) (seq : BitVec 32) : exec (.mirrorAck seq) s = execMirrorAck seq s := rfl
@[simp] theorem exec_synConfig (s : State) (fn : Fn) (c : SynArgs) : exec (.synConfig fn c) s = execSynConfig fn c s := rfl
@[simp] theorem exec_synRead (s : State) (fn : Fn) (c : SynArgs) : exec (.synRead fn c) s = execSynRead fn c s := rfl
@[simp] theorem exec_synRestore (s : State) (fn : Fn) (c : SynArgs) : exec (.synRestore fn c) s = execSynRestore fn c s := rfl
@[simp] theorem exec_synUnset (s : State) (fn : Fn) (c : SynArgs) : exec (.synUnset fn c) s = execSynUnset fn c s := rfl
@[simp] theorem exec_hostSemv (s : State) (fn : Fn) (c : SynArgs) : exec (.hostSemv fn c) s = execHostSemv fn c s := rfl
@[simp] theorem exec_hostSemt (s : State) (fn : Fn) (c : SynArgs) : exec (.hostSemt fn c) s = execHostSemt fn c s := rfl
@[simp] theorem exec_hostEcadd (s : State) (fn : Fn) (c : SynArgs) : exec (.hostEcadd fn c) s = execHostEcadd fn c s := rfl
@[simp] theorem exec_hostEcread (s : State) (fn : Fn) (c : SynArgs) : exec (.hostEcread fn c) s = execHostEcread fn c s := rfl
@[simp] theorem exec_syncOpAtHome (s : State) (a : SyncArrival) : exec (.syncOpAtHome a) s = execSyncOpAtHome a s := rfl
@[simp] theorem exec_nearUnitRelease (s : State) (q : BitVec 2) (obj : BitVec 16) : exec (.nearUnitRelease q obj) s = execNearUnitRelease q obj s := rfl
@[simp] theorem exec_syncWithdraw (s : State) (t : Tid) (op : Nat) : exec (.syncWithdraw t op) s = execSyncWithdraw t op s := rfl
@[simp] theorem exec_syncWatchdog (s : State) (obj : BitVec 16) : exec (.syncWatchdog obj) s = execSyncWatchdog obj s := rfl
@[simp] theorem exec_nearUnitTimeout (s : State) (q : BitVec 2) (late : NearWait) : exec (.nearUnitTimeout q late) s = execNearUnitTimeout q late s := rfl
@[simp] theorem exec_vfEnable (s : State) (fn : Fn) (n : BitVec 16) : exec (.vfEnable fn n) s = execVfEnable fn n s := rfl
@[simp] theorem exec_vfDisable (s : State) (fn : Fn) : exec (.vfDisable fn) s = execVfDisable fn s := rfl
@[simp] theorem exec_viPollWrite (s : State) (fn : Fn) (vi : Vi) (v : BitVec 64) : exec (.viPollWrite fn vi v) s = execViPollWrite fn vi v s := rfl
@[simp] theorem exec_give (s : State) (fn : Fn) (vi : Vi) (r : ResSel) : exec (.give fn vi r) s = execGive fn vi r s := rfl
@[simp] theorem exec_share (s : State) (fn : Fn) (vi : Vi) (r : ResSel) : exec (.share fn vi r) s = execShare fn vi r s := rfl
@[simp] theorem exec_take (s : State) (fn : Fn) (vi : Vi) (r : ResSel) : exec (.take fn vi r) s = execTake fn vi r s := rfl
@[simp] theorem exec_reshare (s : State) (fn : Fn) (vi : Vi) (r : ResSel) : exec (.reshare fn vi r) s = execReshare fn vi r s := rfl
@[simp] theorem exec_giveGroup (s : State) (fn : Fn) (vi : Vi) (r : ResSel) : exec (.giveGroup fn vi r) s = execGiveGroup fn vi r s := rfl
@[simp] theorem exec_takeGroup (s : State) (fn : Fn) (vi : Vi) (r : ResSel) : exec (.takeGroup fn vi r) s = execTakeGroup fn vi r s := rfl
@[simp] theorem exec_resRead (s : State) (fn : Fn) (vi : Vi) (r : ResSel) : exec (.resRead fn vi r) s = execResRead fn vi r s := rfl
@[simp] theorem exec_viShareWrite (s : State) (fn : Fn) (vi : Vi) (v : BitVec 64) : exec (.viShareWrite fn vi v) s = execViShareWrite fn vi v s := rfl
@[simp] theorem exec_viLimitsWrite (s : State) (fn : Fn) (vi : Vi) (v : BitVec 64) : exec (.viLimitsWrite fn vi v) s = execViLimitsWrite fn vi v s := rfl
@[simp] theorem exec_handlerStart (s : State) (fn : Fn) (vi : Vi) (c : HdlCfg) : exec (.handlerStart fn vi c) s = execHandlerStart fn vi c s := rfl
@[simp] theorem exec_handlerStop (s : State) (fn : Fn) (vi : Vi) (c : HdlCfg) : exec (.handlerStop fn vi c) s = execHandlerStop fn vi c s := rfl
@[simp] theorem exec_viEvRingWrite (s : State) (fn : Fn) (vi : Vi) (v : BitVec 64) : exec (.viEvRingWrite fn vi v) s = execViEvRingWrite fn vi v s := rfl
@[simp] theorem exec_viEvAckWrite (s : State) (fn : Fn) (vi : Vi) (v : BitVec 64) : exec (.viEvAckWrite fn vi v) s = execViEvAckWrite fn vi v s := rfl
@[simp] theorem exec_viEvPostWrite (s : State) (fn : Fn) (vi : Vi) (v : BitVec 64) : exec (.viEvPostWrite fn vi v) s = execViEvPostWrite fn vi v s := rfl
@[simp] theorem exec_instanceReset (s : State) (fn : Fn) (vi : Vi) : exec (.instanceReset fn vi) s = execInstanceReset fn vi s := rfl
@[simp] theorem exec_resetDrainComplete (s : State) (vi : Vi) : exec (.resetDrainComplete vi) s = execResetDrainComplete vi s := rfl
@[simp] theorem exec_resetForceTimeout (s : State) (vi : Vi) : exec (.resetForceTimeout vi) s = execResetForceTimeout vi s := rfl
@[simp] theorem exec_releaseComplete (s : State) (vi : Vi) : exec (.releaseComplete vi) s = execReleaseComplete vi s := rfl
@[simp] theorem exec_busMasterClear (s : State) (fn : Fn) : exec (.busMasterClear fn) s = execBusMasterClear fn s := rfl
@[simp] theorem exec_busMasterSet (s : State) (fn : Fn) : exec (.busMasterSet fn) s = execBusMasterSet fn s := rfl
@[simp] theorem exec_powerStateWrite (s : State) (fn : Fn) (d3 : Bool) : exec (.powerStateWrite fn d3) s = execPowerStateWrite fn d3 s := rfl
@[simp] theorem exec_functionLevelReset (s : State) (fn : Fn) : exec (.functionLevelReset fn) s = execFunctionLevelReset fn s := rfl
@[simp] theorem exec_bar2Read (s : State) (fn : Fn) (off : BitVec 36) (n : BitVec 13) : exec (.bar2Read fn off n) s = execBar2Read fn off n s := rfl
@[simp] theorem exec_bar2Write (s : State) (fn : Fn) (off : BitVec 36) (data : List Byte) (poison : Bool) : exec (.bar2Write fn off data poison) s = execBar2Write fn off data poison s := rfl
@[simp] theorem exec_sqEnable (s : State) (fn : Fn) (vi : Vi) (q : BitVec 4) (c : SqCfgW) : exec (.sqEnable fn vi q c) s = execSqEnable fn vi q c s := rfl
@[simp] theorem exec_sqDisable (s : State) (fn : Fn) (vi : Vi) (q : BitVec 4) (c : SqCfgW) : exec (.sqDisable fn vi q c) s = execSqDisable fn vi q c s := rfl
@[simp] theorem exec_sqDrainComplete (s : State) (vi : Vi) (q : BitVec 4) : exec (.sqDrainComplete vi q) s = execSqDrainComplete vi q s := rfl
@[simp] theorem exec_cqEnable (s : State) (fn : Fn) (vi : Vi) (q : BitVec 4) (size : BitVec 5) : exec (.cqEnable fn vi q size) s = execCqEnable fn vi q size s := rfl
@[simp] theorem exec_cqDisable (s : State) (fn : Fn) (vi : Vi) (q : BitVec 4) (size : BitVec 5) : exec (.cqDisable fn vi q size) s = execCqDisable fn vi q size s := rfl
@[simp] theorem exec_sqDoorbell (s : State) (fn : Fn) (vi : Vi) (q : BitVec 4) (index : BitVec 16) : exec (.sqDoorbell fn vi q index) s = execSqDoorbell fn vi q index s := rfl
@[simp] theorem exec_cqDoorbell (s : State) (fn : Fn) (vi : Vi) (q : BitVec 4) (index : BitVec 16) : exec (.cqDoorbell fn vi q index) s = execCqDoorbell fn vi q index s := rfl
@[simp] theorem exec_descriptorFetch (s : State) (vi : Vi) (q : BitVec 4) (n : BitVec 4) (out : RdOut) (data : List Byte) : exec (.descriptorFetch vi q n out data) s = execDescriptorFetch vi q n out data s := rfl
@[simp] theorem exec_pollPageUpdate (s : State) (vi : Vi) : exec (.pollPageUpdate vi) s = execPollPageUpdate vi s := rfl
@[simp] theorem exec_hostReadCompletion (s : State) (vi : Vi) (q : BitVec 4) (seq : BitVec 48) (out : RdOut) (data : List Byte) : exec (.hostReadCompletion vi q seq out data) s = execHostReadCompletion vi q seq out data s := rfl
@[simp] theorem exec_completionTimeout (s : State) (r : ReadOf) (tag : BitVec 14) (hdr : List Byte) : exec (.completionTimeout r tag hdr) s = execCompletionTimeout r tag hdr s := rfl
@[simp] theorem exec_unexpectedCompletion (s : State) (fn : Fn) (tag : BitVec 14) (hdr : List Byte) : exec (.unexpectedCompletion fn tag hdr) s = execUnexpectedCompletion fn tag hdr s := rfl
@[simp] theorem exec_l0pEnter (s : State) (port : Fin 2) (lanes : BitVec 4) : exec (.l0pEnter port lanes) s = execL0pEnter port lanes s := rfl
@[simp] theorem exec_aspmL1Enter (s : State) (port : Fin 2) (sub : L1Sub) : exec (.aspmL1Enter port sub) s = execAspmL1Enter port sub s := rfl
@[simp] theorem exec_linkPowerExit (s : State) (port : Fin 2) : exec (.linkPowerExit port) s = execLinkPowerExit port s := rfl
@[simp] theorem exec_upstreamPortReset (s : State) (port : Fin 2) (kind : PortRst) : exec (.upstreamPortReset port kind) s = execUpstreamPortReset port kind s := rfl
@[simp] theorem exec_perstDeassert (s : State) (port : Fin 2) : exec (.perstDeassert port) s = execPerstDeassert port s := rfl
@[simp] theorem exec_copy (s : State) (vi : Vi) (q : BitVec 4) : exec (.copy vi q) s = execCopy vi q s := rfl
@[simp] theorem exec_descriptorGateRelease (s : State) (vi : Vi) (q : BitVec 4) (seq : BitVec 48) : exec (.descriptorGateRelease vi q seq) s = execDescriptorGateRelease vi q seq s := rfl
@[simp] theorem exec_stgRead (s : State) (vi : Vi) (q : BitVec 4) : exec (.stgRead vi q) s = execStgRead vi q s := rfl
@[simp] theorem exec_stgWrite (s : State) (vi : Vi) (q : BitVec 4) : exec (.stgWrite vi q) s = execStgWrite vi q s := rfl
@[simp] theorem exec_stgFlush (s : State) (vi : Vi) (q : BitVec 4) : exec (.stgFlush vi q) s = execStgFlush vi q s := rfl
@[simp] theorem exec_stgDeallocate (s : State) (vi : Vi) (q : BitVec 4) : exec (.stgDeallocate vi q) s = execStgDeallocate vi q s := rfl
@[simp] theorem exec_stgWriteZeroes (s : State) (vi : Vi) (q : BitVec 4) : exec (.stgWriteZeroes vi q) s = execStgWriteZeroes vi q s := rfl
@[simp] theorem exec_nvmeCompletion (s : State) (vi : Vi) (q : BitVec 4) (seq : BitVec 48) (status : BitVec 15) (data : List Byte) : exec (.nvmeCompletion vi q seq status data) s = execNvmeCompletion vi q seq status data s := rfl
@[simp] theorem exec_nvmeCmdTimeout (s : State) (vi : Vi) (q : BitVec 4) (seq : BitVec 48) : exec (.nvmeCmdTimeout vi q seq) s = execNvmeCmdTimeout vi q seq s := rfl
@[simp] theorem exec_storageWindowAccess (s : State) (port : Fin 2) (rid : BitVec 16) (off : BitVec 34) (r : WinReq) (ext : List Byte) : exec (.storageWindowAccess port rid off r ext) s = execStorageWindowAccess port rid off r ext s := rfl
@[simp] theorem exec_downstreamLinkLoss (s : State) (loss : PortLoss) : exec (.downstreamLinkLoss loss) s = execDownstreamLinkLoss loss s := rfl
@[simp] theorem exec_downstreamPerstRelease (s : State) (port : Fin 6) : exec (.downstreamPerstRelease port) s = execDownstreamPerstRelease port s := rfl
@[simp] theorem exec_tcpRetransmit (s : State) (target : BitVec 6) (data : List Byte) : exec (.tcpRetransmit target data) s = execTcpRetransmit target data s := rfl
@[simp] theorem exec_frameReceive (s : State) (port : Port) (f : RxFrame) : exec (.frameReceive port f) s = execFrameReceive port f s := rfl
@[simp] theorem exec_prmModeWrite (s : State) (fn : Fn) (port : Port) (m : PrmModeW) : exec (.prmModeWrite fn port m) s = execPrmModeWrite fn port m s := rfl
@[simp] theorem exec_ruleWrite (s : State) (fn : Fn) (port : Port) (index : BitVec 11) : exec (.ruleWrite fn port index) s = execRuleWrite fn port index s := rfl
@[simp] theorem exec_ruleRead (s : State) (fn : Fn) (port : Port) (index : BitVec 11) : exec (.ruleRead fn port index) s = execRuleRead fn port index s := rfl
@[simp] theorem exec_ruleClear (s : State) (fn : Fn) (port : Port) (index : BitVec 11) : exec (.ruleClear fn port index) s = execRuleClear fn port index s := rfl
@[simp] theorem exec_commit (s : State) (fn : Fn) (port : Port) : exec (.commit fn port) s = execCommit fn port s := rfl
@[simp] theorem exec_bankCopyComplete (s : State) (port : Port) : exec (.bankCopyComplete port) s = execBankCopyComplete port s := rfl
@[simp] theorem exec_test (s : State) (fn : Fn) (port : Port) (pass : Bool) : exec (.test fn port pass) s = execTest fn port pass s := rfl
@[simp] theorem exec_tplWrite (s : State) (fn : Fn) (port : Port) (index : BitVec 11) : exec (.tplWrite fn port index) s = execTplWrite fn port index s := rfl
@[simp] theorem exec_tplRead (s : State) (fn : Fn) (port : Port) (index : BitVec 11) : exec (.tplRead fn port index) s = execTplRead fn port index s := rfl
@[simp] theorem exec_bankError (s : State) (port : Port) : exec (.bankError port) s = execBankError port s := rfl
@[simp] theorem exec_flowInsert (s : State) (fn : Fn) (port : Port) (vi : Vi) : exec (.flowInsert fn port vi) s = execFlowInsert fn port vi s := rfl
@[simp] theorem exec_flowRemove (s : State) (fn : Fn) (port : Port) (ctx : BitVec 24) : exec (.flowRemove fn port ctx) s = execFlowRemove fn port ctx s := rfl
@[simp] theorem exec_flowRead (s : State) (fn : Fn) (port : Port) (ctx : BitVec 24) : exec (.flowRead fn port ctx) s = execFlowRead fn port ctx s := rfl
@[simp] theorem exec_rxRingEnable (s : State) (fn : Fn) (vi : Vi) (r : BitVec 4) (c : RingCfg) : exec (.rxRingEnable fn vi r c) s = execRxRingEnable fn vi r c s := rfl
@[simp] theorem exec_rxRingDisable (s : State) (fn : Fn) (vi : Vi) (r : BitVec 4) (c : RingCfg) : exec (.rxRingDisable fn vi r c) s = execRxRingDisable fn vi r c s := rfl
@[simp] theorem exec_slowPathFrame (s : State) (quad : BitVec 2) (owned : Bool) : exec (.slowPathFrame quad owned) s = execSlowPathFrame quad owned s := rfl
@[simp] theorem exec_reassemblyTimeout (s : State) (quad : BitVec 2) (n : Nat) : exec (.reassemblyTimeout quad n) s = execReassemblyTimeout quad n s := rfl
@[simp] theorem exec_frameToIris (s : State) (port : Port) (src : IrisSrc) (data : List Byte) : exec (.frameToIris port src data) s = execFrameToIris port src data s := rfl
@[simp] theorem exec_shaperRefill (s : State) (port : Port) (sh : ShaperId) : exec (.shaperRefill port sh) s = execShaperRefill port sh s := rfl
@[simp] theorem exec_frameTransmitStart (s : State) (port : Port) : exec (.frameTransmitStart port) s = execFrameTransmitStart port s := rfl
@[simp] theorem exec_frameTransmitEnd (s : State) (port : Port) : exec (.frameTransmitEnd port) s = execFrameTransmitEnd port s := rfl
@[simp] theorem exec_viShapeWrite (s : State) (fn : Fn) (vi : Vi) (port : Port) (v : BitVec 64) : exec (.viShapeWrite fn vi port v) s = execViShapeWrite fn vi port v s := rfl
@[simp] theorem exec_irsCshapeWrite (s : State) (fn : Fn) (port : Port) (c : BitVec 2) (v : BitVec 64) : exec (.irsCshapeWrite fn port c v) s = execIrsCshapeWrite fn port c v s := rfl
@[simp] theorem exec_irsQcfgWrite (s : State) (fn : Fn) (port : Port) (q : BitVec 4) (v : BitVec 64) : exec (.irsQcfgWrite fn port q v) s = execIrsQcfgWrite fn port q v s := rfl
@[simp] theorem exec_configChange (s : State) (fn : Fn) (port : Port) (c : GclW) : exec (.configChange fn port c) s = execConfigChange fn port c s := rfl
@[simp] theorem exec_cancel (s : State) (fn : Fn) (port : Port) (c : GclW) : exec (.cancel fn port c) s = execCancel fn port c s := rfl
@[simp] theorem exec_gateEnWrite (s : State) (fn : Fn) (port : Port) (c : GclW) : exec (.gateEnWrite fn port c) s = execGateEnWrite fn port c s := rfl
@[simp] theorem exec_gateEntryAdvance (s : State) (port : Port) : exec (.gateEntryAdvance port) s = execGateEntryAdvance port s := rfl
@[simp] theorem exec_configChangeTime (s : State) (port : Port) : exec (.configChangeTime port) s = execConfigChangeTime port s := rfl
@[simp] theorem exec_txRingEnable (s : State) (fn : Fn) (vi : Vi) (r : BitVec 4) (c : RingCfg) : exec (.txRingEnable fn vi r c) s = execTxRingEnable fn vi r c s := rfl
@[simp] theorem exec_txRingDisable (s : State) (fn : Fn) (vi : Vi) (r : BitVec 4) (c : RingCfg) : exec (.txRingDisable fn vi r c) s = execTxRingDisable fn vi r c s := rfl
@[simp] theorem exec_txSlotTake (s : State) (vi : Vi) (r : BitVec 4) (ext : List Byte) : exec (.txSlotTake vi r ext) s = execTxSlotTake vi r ext s := rfl
@[simp] theorem exec_queueSample (s : State) (port : Port) : exec (.queueSample port) s = execQueueSample port s := rfl
@[simp] theorem exec_sampleRingEnable (s : State) (fn : Fn) (port : Port) (c : SmpCfg) : exec (.sampleRingEnable fn port c) s = execSampleRingEnable fn port c s := rfl
@[simp] theorem exec_brmWrite (s : State) (vi : Vi) (q : BitVec 4) : exec (.brmWrite vi q) s = execBrmWrite vi q s := rfl
@[simp] theorem exec_brmRead (s : State) (vi : Vi) (q : BitVec 4) : exec (.brmRead vi q) s = execBrmRead vi q s := rfl
@[simp] theorem exec_brmAtomic (s : State) (vi : Vi) (q : BitVec 4) : exec (.brmAtomic vi q) s = execBrmAtomic vi q s := rfl
@[simp] theorem exec_qpCreate (s : State) (vi : Vi) (q : BitVec 4) : exec (.qpCreate vi q) s = execQpCreate vi q s := rfl
@[simp] theorem exec_connect (s : State) (vi : Vi) (q : BitVec 4) : exec (.connect vi q) s = execConnect vi q s := rfl
@[simp] theorem exec_qpDestroy (s : State) (vi : Vi) (q : BitVec 4) : exec (.qpDestroy vi q) s = execQpDestroy vi q s := rfl
@[simp] theorem exec_qpQuery (s : State) (vi : Vi) (q : BitVec 4) : exec (.qpQuery vi q) s = execQpQuery vi q s := rfl
@[simp] theorem exec_register (s : State) (vi : Vi) (q : BitVec 4) : exec (.register vi q) s = execRegister vi q s := rfl
@[simp] theorem exec_revoke (s : State) (vi : Vi) (q : BitVec 4) : exec (.revoke vi q) s = execRevoke vi q s := rfl
@[simp] theorem exec_revokeComplete (s : State) (ctx : BitVec 24) : exec (.revokeComplete ctx) s = execRevokeComplete ctx s := rfl
@[simp] theorem exec_qpCloseComplete (s : State) (qp : BitVec 24) : exec (.qpCloseComplete qp) s = execQpCloseComplete qp s := rfl
@[simp] theorem exec_writePacket (s : State) (p : Pkt) : exec (.writePacket p) s = execWritePacket p s := rfl
@[simp] theorem exec_readReq (s : State) (p : Pkt) : exec (.readReq p) s = execReadReq p s := rfl
@[simp] theorem exec_readResp (s : State) (p : Pkt) : exec (.readResp p) s = execReadResp p s := rfl
@[simp] theorem exec_atomicReq (s : State) (p : Pkt) : exec (.atomicReq p) s = execAtomicReq p s := rfl
@[simp] theorem exec_atomicResp (s : State) (p : Pkt) : exec (.atomicResp p) s = execAtomicResp p s := rfl
@[simp] theorem exec_ack (s : State) (p : Pkt) : exec (.ack p) s = execAck p s := rfl
@[simp] theorem exec_nak (s : State) (p : Pkt) : exec (.nak p) s = execNak p s := rfl
@[simp] theorem exec_held (s : State) (p : Pkt) : exec (.held p) s = execHeld p s := rfl
@[simp] theorem exec_connectReq (s : State) (p : Pkt) : exec (.connectReq p) s = execConnectReq p s := rfl
@[simp] theorem exec_connectResp (s : State) (p : Pkt) : exec (.connectResp p) s = execConnectResp p s := rfl
@[simp] theorem exec_disconnect (s : State) (p : Pkt) : exec (.disconnect p) s = execDisconnect p s := rfl
@[simp] theorem exec_placementPerformed (s : State) (qp : BitVec 24) (psn : BitVec 32) : exec (.placementPerformed qp psn) s = execPlacementPerformed qp psn s := rfl
@[simp] theorem exec_ackTimer (s : State) (qp : BitVec 24) : exec (.ackTimer qp) s = execAckTimer qp s := rfl
@[simp] theorem exec_retransmitTimeout (s : State) (qp : BitVec 24) (psn : BitVec 32) : exec (.retransmitTimeout qp psn) s = execRetransmitTimeout qp psn s := rfl
@[simp] theorem exec_busyRetransmit (s : State) (qp : BitVec 24) (psn : BitVec 32) : exec (.busyRetransmit qp psn) s = execBusyRetransmit qp psn s := rfl
@[simp] theorem exec_connectReqTimer (s : State) (qp : BitVec 24) : exec (.connectReqTimer qp) s = execConnectReqTimer qp s := rfl
@[simp] theorem exec_connectTimeout (s : State) (qp : BitVec 24) : exec (.connectTimeout qp) s = execConnectTimeout qp s := rfl
@[simp] theorem exec_messageExpiry (s : State) (qp : BitVec 24) (msn : BitVec 32) : exec (.messageExpiry qp msn) s = execMessageExpiry qp msn s := rfl
@[simp] theorem exec_portEnable (s : State) (fn : Fn) (port : Port) (c : PhyCfgW) : exec (.portEnable fn port c) s = execPortEnable fn port c s := rfl
@[simp] theorem exec_portDisable (s : State) (fn : Fn) (port : Port) (c : PhyCfgW) : exec (.portDisable fn port c) s = execPortDisable fn port c s := rfl
@[simp] theorem exec_linkPacketReceive (s : State) (port : Port) (p : LinkPkt) : exec (.linkPacketReceive port p) s = execLinkPacketReceive port p s := rfl
@[simp] theorem exec_linkRetryRequest (s : State) (port : Port) (lseq : BitVec 12) : exec (.linkRetryRequest port lseq) s = execLinkRetryRequest port lseq s := rfl
@[simp] theorem exec_linkCtlAck (s : State) (port : Port) (lseq : BitVec 12) (credits : Vector Nat 8) : exec (.linkCtlAck port lseq credits) s = execLinkCtlAck port lseq credits s := rfl
@[simp] theorem exec_linkInit (s : State) (port : Port) (far : LinkInit) : exec (.linkInit port far) s = execLinkInit port far s := rfl
@[simp] theorem exec_laneFailure (s : State) (port : Port) (lane : Fin 8) : exec (.laneFailure port lane) s = execLaneFailure port lane s := rfl
@[simp] theorem exec_lossOfLock (s : State) (port : Port) : exec (.lossOfLock port) s = execLossOfLock port s := rfl
@[simp] theorem exec_trainingTimeout (s : State) (port : Port) : exec (.trainingTimeout port) s = execTrainingTimeout port s := rfl
@[simp] theorem exec_retrainTimer (s : State) (port : Port) : exec (.retrainTimer port) s = execRetrainTimer port s := rfl
@[simp] theorem exec_devFabCfgWrite (s : State) (fn : Fn) (v : BitVec 64) : exec (.devFabCfgWrite fn v) s = execDevFabCfgWrite fn v s := rfl
@[simp] theorem exec_devPairCfgWrite (s : State) (fn : Fn) (v : BitVec 64) : exec (.devPairCfgWrite fn v) s = execDevPairCfgWrite fn v s := rfl
@[simp] theorem exec_takeover (s : State) (fn : Fn) : exec (.takeover fn) s = execTakeover fn s := rfl
@[simp] theorem exec_resync (s : State) (fn : Fn) : exec (.resync fn) s = execResync fn s := rfl
@[simp] theorem exec_resyncComplete (s : State) : exec (.resyncComplete) s = execResyncComplete s := rfl
@[simp] theorem exec_pairHeartbeat (s : State) : exec (.pairHeartbeat) s = execPairHeartbeat s := rfl
@[simp] theorem exec_pairPacketReceive (s : State) (m : PairMsg) : exec (.pairPacketReceive m) s = execPairPacketReceive m s := rfl
@[simp] theorem exec_partnerLost (s : State) : exec (.partnerLost) s = execPartnerLost s := rfl
@[simp] theorem exec_mirrorLostNotice (s : State) : exec (.mirrorLostNotice) s = execMirrorLostNotice s := rfl
@[simp] theorem exec_mirrorLostRepeat (s : State) : exec (.mirrorLostRepeat) s = execMirrorLostRepeat s := rfl
@[simp] theorem exec_mirrorLostAck (s : State) : exec (.mirrorLostAck) s = execMirrorLostAck s := rfl
@[simp] theorem exec_snapshot (s : State) (fn : Fn) (vi : Vi) (fits : Bool) : exec (.snapshot fn vi fits) s = execSnapshot fn vi fits s := rfl
@[simp] theorem exec_snapshotArm (s : State) (vi : Vi) : exec (.snapshotArm vi) s = execSnapshotArm vi s := rfl
@[simp] theorem exec_pageCopy (s : State) (vi : Vi) (page : Nat) : exec (.pageCopy vi page) s = execPageCopy vi page s := rfl
@[simp] theorem exec_chunkVerify (s : State) (vi : Vi) (pages : List Nat) (out : TargetOut) : exec (.chunkVerify vi pages out) s = execChunkVerify vi pages out s := rfl
@[simp] theorem exec_snapshotSeal (s : State) (vi : Vi) (out : TargetOut) : exec (.snapshotSeal vi out) s = execSnapshotSeal vi out s := rfl
@[simp] theorem exec_restore (s : State) (fn : Fn) (vi : Vi) : exec (.restore fn vi) s = execRestore fn vi s := rfl
@[simp] theorem exec_catalogueReadComplete (s : State) (vi : Vi) (found : List CatIn) : exec (.catalogueReadComplete vi found) s = execCatalogueReadComplete vi found s := rfl
@[simp] theorem exec_restorePage (s : State) (vi : Vi) (p : PageIn) : exec (.restorePage vi p) s = execRestorePage vi p s := rfl
@[simp] theorem exec_abort (s : State) (fn : Fn) (vi : Vi) : exec (.abort fn vi) s = execAbort fn vi s := rfl
@[simp] theorem exec_install (s : State) (fn : Fn) (slot : BitVec 8) (vi : Vi) (ext : List Byte) : exec (.install fn slot vi ext) s = execInstall fn slot vi ext s := rfl
@[simp] theorem exec_clear (s : State) (fn : Fn) (slot : BitVec 8) : exec (.clear fn slot) s = execClear fn slot s := rfl
@[simp] theorem exec_keyRead (s : State) (fn : Fn) (slot : BitVec 8) : exec (.keyRead fn slot) s = execKeyRead fn slot s := rfl
@[simp] theorem exec_installSa (s : State) (fn : Fn) (vi : Vi) (ext : List Byte) : exec (.installSa fn vi ext) s = execInstallSa fn vi ext s := rfl
@[simp] theorem exec_retireSa (s : State) (fn : Fn) (vi : Vi) (ext : List Byte) : exec (.retireSa fn vi ext) s = execRetireSa fn vi ext s := rfl
@[simp] theorem exec_msecCfgWrite (s : State) (fn : Fn) (port : Port) (c : MsecCfg) : exec (.msecCfgWrite fn port c) s = execMsecCfgWrite fn port c s := rfl
@[simp] theorem exec_getVersion (s : State) (via : SpdmVia) : exec (.getVersion via) s = execGetVersion via s := rfl
@[simp] theorem exec_getCapabilities (s : State) (via : SpdmVia) : exec (.getCapabilities via) s = execGetCapabilities via s := rfl
@[simp] theorem exec_negotiateAlgorithms (s : State) (via : SpdmVia) (match_ : Bool) : exec (.negotiateAlgorithms via match_) s = execNegotiateAlgorithms via match_ s := rfl
@[simp] theorem exec_getDigests (s : State) (via : SpdmVia) : exec (.getDigests via) s = execGetDigests via s := rfl
@[simp] theorem exec_getCertificate (s : State) (via : SpdmVia) (slot : BitVec 4) : exec (.getCertificate via slot) s = execGetCertificate via slot s := rfl
@[simp] theorem exec_challenge (s : State) (via : SpdmVia) (slot : BitVec 4) (nonce : BitVec 256) : exec (.challenge via slot nonce) s = execChallenge via slot nonce s := rfl
@[simp] theorem exec_getMeasurements (s : State) (via : SpdmVia) (block : BitVec 8) : exec (.getMeasurements via block) s = execGetMeasurements via block s := rfl
@[simp] theorem exec_keyExchange (s : State) (via : SpdmVia) (beat : Nat) : exec (.keyExchange via beat) s = execKeyExchange via beat s := rfl
@[simp] theorem exec_finish (s : State) (via : SpdmVia) (sid : Nat) (ok : Bool) : exec (.finish via sid ok) s = execFinish via sid ok s := rfl
@[simp] theorem exec_heartbeat (s : State) (via : SpdmVia) (sid : Nat) : exec (.heartbeat via sid) s = execHeartbeat via sid s := rfl
@[simp] theorem exec_keyUpdate (s : State) (via : SpdmVia) (sid : Nat) : exec (.keyUpdate via sid) s = execKeyUpdate via sid s := rfl
@[simp] theorem exec_endSession (s : State) (via : SpdmVia) (sid : Nat) : exec (.endSession via sid) s = execEndSession via sid s := rfl
@[simp] theorem exec_setKek (s : State) (via : SpdmVia) (sid : Nat) (kek : BitVec 256) : exec (.setKek via sid kek) s = execSetKek via sid kek s := rfl
@[simp] theorem exec_ideQuery (s : State) (port : Fin 2) (sid : Nat) : exec (.ideQuery port sid) s = execIdeQuery port sid s := rfl
@[simp] theorem exec_keyProg (s : State) (port : Fin 2) (sid : Nat) (k : IdeKey) (key : BitVec 256) : exec (.keyProg port sid k key) s = execKeyProg port sid k key s := rfl
@[simp] theorem exec_kSetGo (s : State) (port : Fin 2) (sid : Nat) (k : IdeKey) : exec (.kSetGo port sid k) s = execKSetGo port sid k s := rfl
@[simp] theorem exec_kSetStop (s : State) (port : Fin 2) (sid : Nat) (k : IdeKey) : exec (.kSetStop port sid k) s = execKSetStop port sid k s := rfl
@[simp] theorem exec_getInfo (s : State) (fn : Fn) (tag : BitVec 8) : exec (.getInfo fn tag) s = execGetInfo fn tag s := rfl
@[simp] theorem exec_featureSet (s : State) (fn : Fn) (tag : BitVec 8) : exec (.featureSet fn tag) s = execFeatureSet fn tag s := rfl
@[simp] theorem exec_featureGet (s : State) (fn : Fn) (tag : BitVec 8) : exec (.featureGet fn tag) s = execFeatureGet fn tag s := rfl
@[simp] theorem exec_stage (s : State) (fn : Fn) (tag : BitVec 8) (img : Image) : exec (.stage fn tag img) s = execStage fn tag img s := rfl
@[simp] theorem exec_activate (s : State) (fn : Fn) (tag : BitVec 8) : exec (.activate fn tag) s = execActivate fn tag s := rfl
@[simp] theorem exec_activateCancel (s : State) (fn : Fn) (tag : BitVec 8) : exec (.activateCancel fn tag) s = execActivateCancel fn tag s := rfl
@[simp] theorem exec_deferredActivationTimer (s : State) : exec (.deferredActivationTimer) s = execDeferredActivationTimer s := rfl
@[simp] theorem exec_svnCommit (s : State) (fn : Fn) (tag : BitVec 8) : exec (.svnCommit fn tag) s = execSvnCommit fn tag s := rfl
@[simp] theorem exec_keyRevoke (s : State) (fn : Fn) (tag : BitVec 8) : exec (.keyRevoke fn tag) s = execKeyRevoke fn tag s := rfl
@[simp] theorem exec_logCfg (s : State) (fn : Fn) (tag : BitVec 8) : exec (.logCfg fn tag) s = execLogCfg fn tag s := rfl
@[simp] theorem exec_traceCfg (s : State) (fn : Fn) (tag : BitVec 8) : exec (.traceCfg fn tag) s = execTraceCfg fn tag s := rfl
@[simp] theorem exec_stgBind (s : State) (fn : Fn) (tag : BitVec 8) (r : BindIn) : exec (.stgBind fn tag r) s = execStgBind fn tag r s := rfl
@[simp] theorem exec_stgUnbind (s : State) (fn : Fn) (tag : BitVec 8) : exec (.stgUnbind fn tag) s = execStgUnbind fn tag s := rfl
@[simp] theorem exec_slowCfg (s : State) (fn : Fn) (tag : BitVec 8) : exec (.slowCfg fn tag) s = execSlowCfg fn tag s := rfl
@[simp] theorem exec_ptpCfg (s : State) (fn : Fn) (tag : BitVec 8) : exec (.ptpCfg fn tag) s = execPtpCfg fn tag s := rfl
@[simp] theorem exec_restart (s : State) (fn : Fn) (tag : BitVec 8) : exec (.restart fn tag) s = execRestart fn tag s := rfl
@[simp] theorem exec_ptpMessage (s : State) (port : Port) (rate : Int) : exec (.ptpMessage port rate) s = execPtpMessage port rate s := rfl
@[simp] theorem exec_stewardWatchdog (s : State) (core : BitVec 4) (pc : Word) : exec (.stewardWatchdog core pc) s = execStewardWatchdog core pc s := rfl
@[simp] theorem exec_stewardFault (s : State) (core : BitVec 4) (pc : Word) : exec (.stewardFault core pc) s = execStewardFault core pc s := rfl
@[simp] theorem exec_stewardRestartDone (s : State) (core : BitVec 4) : exec (.stewardRestartDone core) s = execStewardRestartDone core s := rfl
@[simp] theorem exec_fwLogRingWrite (s : State) (fn : Fn) (c : LogRingW) : exec (.fwLogRingWrite fn c) s = execFwLogRingWrite fn c s := rfl
@[simp] theorem exec_fwLogAckWrite (s : State) (fn : Fn) (r : BitVec 48) : exec (.fwLogAckWrite fn r) s = execFwLogAckWrite fn r s := rfl
@[simp] theorem exec_mctpControl (s : State) (via : SpdmVia) (eid : Option (BitVec 8)) : exec (.mctpControl via eid) s = execMctpControl via eid s := rfl
@[simp] theorem exec_pldmPlatform (s : State) (via : SpdmVia) (sensor : BitVec 16) : exec (.pldmPlatform via sensor) s = execPldmPlatform via sensor s := rfl
@[simp] theorem exec_pldmFirmwareUpdate (s : State) (via : SpdmVia) (img : Image) : exec (.pldmFirmwareUpdate via img) s = execPldmFirmwareUpdate via img s := rfl
@[simp] theorem exec_activateFirmware (s : State) (via : SpdmVia) : exec (.activateFirmware via) s = execActivateFirmware via s := rfl
@[simp] theorem exec_tallyFrameSend (s : State) (blocks : List TallyIn) : exec (.tallyFrameSend blocks) s = execTallyFrameSend blocks s := rfl
@[simp] theorem exec_tallyFrameReceive (s : State) (fate : FrameFate) : exec (.tallyFrameReceive fate) s = execTallyFrameReceive fate s := rfl
@[simp] theorem exec_intervalEnd (s : State) (m : Measured) : exec (.intervalEnd m) s = execIntervalEnd m s := rfl
@[simp] theorem exec_fetch (s : State) (fn : Fn) (tag : BitVec 8) : exec (.fetch fn tag) s = execFetch fn tag s := rfl
@[simp] theorem exec_quote (s : State) (fn : Fn) (tag : BitVec 8) (ns : BitVec 30) (e : Word) : exec (.quote fn tag ns e) s = execQuote fn tag ns e s := rfl
@[simp] theorem exec_sealBroken (s : State) : exec (.sealBroken) s = execSealBroken s := rfl
@[simp] theorem exec_islandPowerUp (s : State) (c : CartIn) (m : Measured) : exec (.islandPowerUp c m) s = execIslandPowerUp c m s := rfl
@[simp] theorem exec_goBright (s : State) (fn : Fn) : exec (.goBright fn) s = execGoBright fn s := rfl
@[simp] theorem exec_goDim (s : State) (fn : Fn) : exec (.goDim fn) s = execGoDim fn s := rfl
@[simp] theorem exec_goDark (s : State) (fn : Fn) : exec (.goDark fn) s = execGoDark fn s := rfl
@[simp] theorem exec_darkEntryComplete (s : State) : exec (.darkEntryComplete) s = execDarkEntryComplete s := rfl
@[simp] theorem exec_autoDimTimeout (s : State) : exec (.autoDimTimeout) s = execAutoDimTimeout s := rfl
@[simp] theorem exec_wake (s : State) (src : WakeSrc) : exec (.wake src) s = execWake src s := rfl
@[simp] theorem exec_wakeTimer (s : State) : exec (.wakeTimer) s = execWakeTimer s := rfl
@[simp] theorem exec_pwrCluFreqWrite (s : State) (fn : Fn) (c : Fin 128) (v : BitVec 5) : exec (.pwrCluFreqWrite fn c v) s = execPwrCluFreqWrite fn c v s := rfl
@[simp] theorem exec_freqChangeDone (s : State) (c : Fin 128) : exec (.freqChangeDone c) s = execFreqChangeDone c s := rfl
@[simp] theorem exec_lpeChcfgWrite (s : State) (fn : Fn) (crit : BitVec 16) (warn : BitVec 16) : exec (.lpeChcfgWrite fn crit warn) s = execLpeChcfgWrite fn crit warn s := rfl
@[simp] theorem exec_loupeSample (s : State) (ch : Fin 74) (raw : BitVec 16) : exec (.loupeSample ch raw) s = execLoupeSample ch raw s := rfl
@[simp] theorem exec_loupeMsTick (s : State) : exec (.loupeMsTick) s = execLoupeMsTick s := rfl
@[simp] theorem exec_inputOvercurrent (s : State) (ma : BitVec 16) : exec (.inputOvercurrent ma) s = execInputOvercurrent ma s := rfl
@[simp] theorem exec_errorHandle (s : State) (found : List HwFind) : exec (.errorHandle found) s = execErrorHandle found s := rfl
@[simp] theorem exec_errorSecondTick (s : State) : exec (.errorSecondTick) s = execErrorSecondTick s := rfl
@[simp] theorem exec_errAckWrite (s : State) (fn : Fn) (r : BitVec 48) : exec (.errAckWrite fn r) s = execErrAckWrite fn r s := rfl
@[simp] theorem exec_errCfgWrite (s : State) (fn : Fn) (auto_ : Bool) : exec (.errCfgWrite fn auto_) s = execErrCfgWrite fn auto_ s := rfl
@[simp] theorem exec_errFctOffWrite (s : State) (fn : Fn) (k : Fin 16) (off : Word) : exec (.errFctOffWrite fn k off) s = execErrFctOffWrite fn k off s := rfl
@[simp] theorem exec_devTimeMax (s : State) : exec (.devTimeMax) s = execDevTimeMax s := rfl
@[simp] theorem exec_deviceReset (s : State) (fn : Fn) : exec (.deviceReset fn) s = execDeviceReset fn s := rfl
@[simp] theorem exec_deviceResetComplete (s : State) : exec (.deviceResetComplete) s = execDeviceResetComplete s := rfl
@[simp] theorem exec_readPhys (s : State) (via : DbgVia) (addr : Word) : exec (.readPhys via addr) s = execReadPhys via addr s := rfl
@[simp] theorem exec_writePhys (s : State) (via : DbgVia) (addr : Word) (data : Word) : exec (.writePhys via addr data) s = execWritePhys via addr data s := rfl
@[simp] theorem exec_readSreg (s : State) (via : DbgVia) (addr : Word) : exec (.readSreg via addr) s = execReadSreg via addr s := rfl
@[simp] theorem exec_writeSreg (s : State) (via : DbgVia) (addr : Word) (data : Word) : exec (.writeSreg via addr data) s = execWriteSreg via addr data s := rfl
@[simp] theorem exec_haltThread (s : State) (via : DbgVia) (index : BitVec 32) (launch : Word) : exec (.haltThread via index launch) s = execHaltThread via index launch s := rfl
@[simp] theorem exec_resumeThread (s : State) (via : DbgVia) (vi : Vi) (rec_ : Word) : exec (.resumeThread via vi rec_) s = execResumeThread via vi rec_ s := rfl
@[simp] theorem exec_endThread (s : State) (via : DbgVia) (vi : Vi) (rec_ : Word) (status : BitVec 8) : exec (.endThread via vi rec_ status) s = execEndThread via vi rec_ status s := rfl
@[simp] theorem exec_haltCore (s : State) (via : DbgVia) (core : BitVec 4) : exec (.haltCore via core) s = execHaltCore via core s := rfl
@[simp] theorem exec_stepCore (s : State) (via : DbgVia) (core : BitVec 4) : exec (.stepCore via core) s = execStepCore via core s := rfl
@[simp] theorem exec_resumeCore (s : State) (via : DbgVia) (core : BitVec 4) : exec (.resumeCore via core) s = execResumeCore via core s := rfl
@[simp] theorem exec_extest (s : State) (shift : List Bool) : exec (.extest shift) s = execExtest shift s := rfl
@[simp] theorem exec_samplePreload (s : State) (shift : List Bool) : exec (.samplePreload shift) s = execSamplePreload shift s := rfl
@[simp] theorem exec_idcode (s : State) : exec (.idcode) s = execIdcode s := rfl
@[simp] theorem exec_dbgacc (s : State) (op : BitVec 8) (addr : Word) (data : Word) : exec (.dbgacc op addr data) s = execDbgacc op addr data s := rfl
@[simp] theorem exec_bypass (s : State) : exec (.bypass) s = execBypass s := rfl
@[simp] theorem exec_tapReset (s : State) : exec (.tapReset) s = execTapReset s := rfl
@[simp] theorem exec_cntVicfgWrite (s : State) (fn : Fn) (en : Bool) (autoReset : Bool) : exec (.cntVicfgWrite fn en autoReset) s = execCntVicfgWrite fn en autoReset s := rfl
@[simp] theorem exec_samplerEnable (s : State) (fn : Fn) (k : Fin 4) (c : SmpW) : exec (.samplerEnable fn k c) s = execSamplerEnable fn k c s := rfl
@[simp] theorem exec_counterSample (s : State) (k : Fin 4) : exec (.counterSample k) s = execCounterSample k s := rfl
@[simp] theorem exec_trcCfgWrite (s : State) (fn : Fn) (c : TrcW) : exec (.trcCfgWrite fn c) s = execTrcCfgWrite fn c s := rfl
@[simp] theorem exec_fire (s : State) (fn : Fn) : exec (.fire fn) s = execFire fn s := rfl
@[simp] theorem exec_arm (s : State) (fn : Fn) : exec (.arm fn) s = execArm fn s := rfl
@[simp] theorem exec_trcMarkWrite (s : State) (fn : Fn) (v : Word) : exec (.trcMarkWrite fn v) s = execTrcMarkWrite fn v s := rfl
@[simp] theorem exec_trcHostAckWrite (s : State) (fn : Fn) (v : Word) : exec (.trcHostAckWrite fn v) s = execTrcHostAckWrite fn v s := rfl
@[simp] theorem exec_pwrEnHigh (s : State) (held : Bool) : exec (.pwrEnHigh held) s = execPwrEnHigh held s := rfl
@[simp] theorem exec_pwrEnLow (s : State) : exec (.pwrEnLow) s = execPwrEnLow s := rfl
@[simp] theorem exec_inputRise (s : State) (held : Bool) : exec (.inputRise held) s = execInputRise held s := rfl
@[simp] theorem exec_inputUndervoltage (s : State) : exec (.inputUndervoltage) s = execInputUndervoltage s := rfl
@[simp] theorem exec_inputRemoved (s : State) (m : Measured) (persisted : Bool) : exec (.inputRemoved m persisted) s = execInputRemoved m persisted s := rfl
@[simp] theorem exec_modRst (s : State) : exec (.modRst) s = execModRst s := rfl
@[simp] theorem exec_convert (s : State) (ms : BitVec 16) (addr1 : Bool) (addr0 : Bool) : exec (.convert ms addr1 addr0) s = execConvert ms addr1 addr0 s := rfl
@[simp] theorem exec_coolant (s : State) : exec (.coolant) s = execCoolant s := rfl
@[simp] theorem exec_coolantTimeout (s : State) : exec (.coolantTimeout) s = execCoolantTimeout s := rfl
@[simp] theorem exec_rails (s : State) : exec (.rails) s = execRails s := rfl
@[simp] theorem exec_secure (s : State) : exec (.secure) s = execSecure s := rfl
@[simp] theorem exec_train (s : State) (r : TrainOut) : exec (.train r) s = execTrain r s := rfl
@[simp] theorem exec_fill (s : State) : exec (.fill) s = execFill s := rfl
@[simp] theorem exec_firmware (s : State) : exec (.firmware) s = execFirmware s := rfl
@[simp] theorem exec_registerWrite (s : State) (fn : Fn) (space : RegSpace) (off : BitVec 28) (w : AccW) (v : Word) : exec (.registerWrite fn space off w v) s = execRegisterWrite fn space off w v s := rfl
@[simp] theorem exec_illegalEncoding (s : State) (t : Tid) (word : Word) : exec (.illegalEncoding t word) s = execIllegalEncoding t word s := rfl
@[simp] theorem exec_presenceDetectChange (s : State) (port : Fin 6) : exec (.presenceDetectChange port) s = execPresenceDetectChange port s := rfl
@[simp] theorem exec_ethernetLinkDown (s : State) (port : Port) : exec (.ethernetLinkDown port) s = execEthernetLinkDown port s := rfl
@[simp] theorem exec_ethernetLinkUp (s : State) (port : Port) : exec (.ethernetLinkUp port) s = execEthernetLinkUp port s := rfl
@[simp] theorem exec_linkAckInterval (s : State) (port : Port) : exec (.linkAckInterval port) s = execLinkAckInterval port s := rfl
@[simp] theorem exec_wakeComplete (s : State) : exec (.wakeComplete) s = execWakeComplete s := rfl
@[simp] theorem exec_activationComplete (s : State) (gone : List Nat) : exec (.activationComplete gone) s = execActivationComplete gone s := rfl
@[simp] theorem exec_heartbeatPeriodExpiry (s : State) (via : SpdmVia) (sid : Nat) : exec (.heartbeatPeriodExpiry via sid) s = execHeartbeatPeriodExpiry via sid s := rfl

end Sys2Proof.Machine
end

