-- ==== Sys2Proof/Laws/Keeps.lean ====
section
/-! SUPPORT. What every command keeps, as a relation between the state before and after, with the lemmas that compose it. -/

namespace Sys2Proof.Machine

/-! ## Byte memories keep their canonical form -/

theorem risingFrom_mono {α : Type} {m : Tab α} {a b : Nat} (hab : a ≤ b) (h : risingFrom b m = true) : risingFrom a m = true := by
  cases m with
  | nil => rfl
  | cons c r =>
    obtain ⟨k, v⟩ := c
    simp only [risingFrom, Bool.and_eq_true, decide_eq_true_eq] at h ⊢
    exact ⟨by omega, h.2⟩

theorem tset_rising {α : Type} (m : Tab α) (lo k : Nat) (v : α) (hk : lo ≤ k) (h : risingFrom lo m = true) :
    risingFrom lo (tset m k v) = true := by
  induction m generalizing lo with
  | nil => simp [tset, risingFrom, hk]
  | cons c r ih =>
    obtain ⟨j, w⟩ := c
    simp only [risingFrom, Bool.and_eq_true, decide_eq_true_eq] at h
    simp only [tset]
    split
    · simp only [risingFrom, Bool.and_eq_true, decide_eq_true_eq]
      exact ⟨hk, by omega, h.2⟩
    · split
      · rename_i hkj
        subst hkj
        simp only [risingFrom, Bool.and_eq_true, decide_eq_true_eq]
        exact ⟨hk, h.2⟩
      · simp only [risingFrom, Bool.and_eq_true, decide_eq_true_eq]
        exact ⟨h.1, ih (j + 1) (by omega) h.2⟩

theorem tdel_rising {α : Type} (m : Tab α) (lo k : Nat) (h : risingFrom lo m = true) : risingFrom lo (tdel m k) = true := by
  induction m generalizing lo with
  | nil => rfl
  | cons c r ih =>
    obtain ⟨j, w⟩ := c
    simp only [risingFrom, Bool.and_eq_true, decide_eq_true_eq] at h
    simp only [tdel]
    split
    · exact risingFrom_mono (by omega) h.2
    · simp only [risingFrom, Bool.and_eq_true, decide_eq_true_eq]
      exact ⟨h.1, ih _ h.2⟩

theorem filter_rising {α : Type} (m : Tab α) (p : Nat × α → Bool) (lo : Nat) (h : risingFrom lo m = true) :
    risingFrom lo (m.filter p) = true := by
  induction m generalizing lo with
  | nil => rfl
  | cons c r ih =>
    obtain ⟨j, w⟩ := c
    simp only [risingFrom, Bool.and_eq_true, decide_eq_true_eq] at h
    rw [List.filter_cons]
    split
    · simp only [risingFrom, Bool.and_eq_true, decide_eq_true_eq]
      exact ⟨h.1, ih _ h.2⟩
    · exact risingFrom_mono (by omega) (ih _ h.2)

theorem mem_tset {α : Type} {m : Tab α} {k : Nat} {v : α} {p : Nat × α} (h : p ∈ tset m k v) : p = (k, v) ∨ p ∈ m := by
  induction m with
  | nil => simpa [tset] using h
  | cons c r ih =>
    obtain ⟨j, w⟩ := c
    simp only [tset] at h
    split at h
    · simpa using h
    · split at h
      · rcases List.mem_cons.mp h with h | h
        · exact .inl h
        · exact .inr (List.mem_cons_of_mem _ h)
      · rcases List.mem_cons.mp h with h | h
        · exact .inr (by simp [h])
        · rcases ih h with h | h
          · exact .inl h
          · exact .inr (List.mem_cons_of_mem _ h)

theorem mem_tdel {α : Type} {m : Tab α} {k : Nat} {p : Nat × α} (h : p ∈ tdel m k) : p ∈ m := by
  induction m with
  | nil => simpa [tdel] using h
  | cons c r ih =>
    obtain ⟨j, w⟩ := c
    simp only [tdel] at h
    split at h
    · exact List.mem_cons_of_mem _ h
    · rcases List.mem_cons.mp h with h | h
      · simp [h]
      · exact List.mem_cons_of_mem _ (ih h)

theorem tget?_mem {α : Type} {m : Tab α} {k : Nat} {v : α} (h : tget? m k = some v) : (k, v) ∈ m := by
  induction m with
  | nil => simp [tget?] at h
  | cons c r ih =>
    obtain ⟨j, w⟩ := c
    simp only [tget?] at h
    split at h
    · rename_i hj
      subst hj
      simp_all
    · exact List.mem_cons_of_mem _ (ih h)

/-- Writing one byte keeps the canonical form. -/
theorem Memory.put_wf (m : Memory) (a : Nat) (b : Byte) (h : m.wf = true) : (m.put a b).wf = true := by
  simp only [Memory.wf, Bool.and_eq_true, List.all_eq_true] at h ⊢
  unfold Memory.put
  split
  · exact ⟨tdel_rising m 0 a h.1, fun c hc => h.2 c (mem_tdel hc)⟩
  · rename_i hb
    refine ⟨tset_rising m 0 a b (Nat.zero_le _) h.1, fun c hc => ?_⟩
    rcases mem_tset hc with rfl | hc
    · simpa using hb
    · exact h.2 c hc

/-- Writing bytes keeps the canonical form. -/
theorem Memory.puts_wf (d : List Byte) (m : Memory) (a : Nat) (h : m.wf = true) : (m.puts a d).wf = true := by
  induction d generalizing m a with
  | nil => exact h
  | cons b r ih => exact ih _ _ (m.put_wf a b h)

/-- Zeroing a range keeps the canonical form. -/
theorem Memory.zero_wf (m : Memory) (a n : Nat) (h : m.wf = true) : (m.zero a n).wf = true := by
  simp only [Memory.wf, Bool.and_eq_true, List.all_eq_true] at h ⊢
  exact ⟨filter_rising m _ 0 h.1, fun c hc => h.2 c (List.mem_filter.mp hc).1⟩

/-! ## The relation -/

/-- What every command keeps between the state before and the state after: the waiting commands behind it, the canonical form of
physical memory and of the Facet stores, the fused security version (it only rises) and the fused key revocations (none is undone)
(R482). -/
structure Keeps (s t : State) : Prop where
  pending : t.pending = s.pending
  mem     : s.mem.wf = true → t.mem.wf = true
  fstore  : (∀ p ∈ s.fstore, Memory.wf p.2 = true) → ∀ p ∈ t.fstore, Memory.wf p.2 = true
  fused   : s.sec.fused.toNat ≤ t.sec.fused.toNat
  revoked : s.sec.revoked &&& t.sec.revoked = s.sec.revoked

theorem Keeps.refl (s : State) : Keeps s s := ⟨rfl, id, id, le_refl _, BitVec.and_self⟩

theorem Keeps.trans {a b c : State} (h : Keeps a b) (k : Keeps b c) : Keeps a c :=
  ⟨k.pending.trans h.pending, fun x => k.mem (h.mem x), fun x => k.fstore (h.fstore x), h.fused.trans k.fused, by
    rw [← h.revoked, BitVec.and_assoc, k.revoked]⟩

theorem Keeps.of {r s t : State} (h : Keeps s t) (k : Keeps r s) : Keeps r t := k.trans h

/-- A change of other fields. -/
theorem Keeps.same {s t : State} (h : t.pending = s.pending ∧ t.mem = s.mem ∧ t.fstore = s.fstore ∧ t.sec.fused = s.sec.fused
    ∧ t.sec.revoked = s.sec.revoked) : Keeps s t :=
  ⟨h.1, fun x => h.2.1 ▸ x, fun x => h.2.2.1 ▸ x, le_of_eq (by rw [h.2.2.2.1]), by rw [h.2.2.2.2, BitVec.and_self]⟩

theorem Keeps.foldl {α : Type} {f : State → α → State} {l : List α} {s : State} (h : ∀ s x, Keeps s (f s x)) :
    Keeps s (l.foldl f s) := by
  induction l generalizing s with
  | nil => exact .refl _
  | cons a l ih => exact (h s a).trans ih

/-- The same for a fold that carries a second value. -/
theorem Keeps.foldlP {α β : Type} {f : State × β → α → State × β} {l : List α} {p : State × β}
    (h : ∀ p x, Keeps p.1 (f p x).1) : Keeps p.1 (l.foldl f p).1 := by
  induction l generalizing p with
  | nil => exact .refl _
  | cons a l ih => exact (h p a).trans ih

theorem Keeps.fst {α : Type} {r t : State} {a : α} {p : State × α} (h : p = (t, a)) (k : Keeps r p.1) : Keeps r t := by
  subst h; exact k

/-- An outcome that is a next state keeps it. -/
structure KeepsO (s : State) (o : Host.Outcome State Fault Refusal) : Prop where
  get : ∀ t, o = .next t → Keeps s t
theorem KeepsO.next {s t : State} (h : Keeps s t) : KeepsO s (.next t) := ⟨by rintro _ ⟨⟩; exact h⟩
theorem KeepsO.of {r s : State} {o} (h : KeepsO s o) (k : Keeps r s) : KeepsO r o := ⟨fun t e => k.trans (h.get t e)⟩

/-- Answers that hold a state, when there is one, keep it. -/
structure KeepsM (s : State) (o : Option State) : Prop where
  get : ∀ t, o = some t → Keeps s t
theorem KeepsM.some {s t : State} (h : Keeps s t) : KeepsM s (some t) := ⟨by rintro _ ⟨⟩; exact h⟩
theorem KeepsM.none {s : State} : KeepsM s none := ⟨by rintro _ ⟨⟩⟩
theorem KeepsM.of {r s : State} {o} (h : KeepsM s o) (k : Keeps r s) : KeepsM r o := ⟨fun t e => k.trans (h.get t e)⟩
theorem KeepsM.getD {r s : State} {o : Option State} (h : KeepsM r o) (k : Keeps r s) : Keeps r (o.getD s) := by
  cases o with
  | none => exact k
  | some t => exact h.get t rfl
theorem KeepsM.elim {r t : State} {o : Option State} (e : o = Option.some t) (h : KeepsM r o) : Keeps r t := h.get t e

structure KeepsP {α : Type} (s : State) (o : Option (State × α)) : Prop where
  get : ∀ t, o = some t → Keeps s t.1
theorem KeepsP.some {α : Type} {s t : State} {a : α} (h : Keeps s t) : KeepsP s (Option.some (t, a)) := ⟨by rintro _ ⟨⟩; exact h⟩
theorem KeepsP.some' {α : Type} {s : State} {p : State × α} (h : Keeps s p.1) : KeepsP s (Option.some p) := ⟨by rintro _ ⟨⟩; exact h⟩
theorem KeepsP.none {α : Type} {s : State} : KeepsP s (Option.none : Option (State × α)) := ⟨by rintro _ ⟨⟩⟩
theorem KeepsP.of {α : Type} {r s : State} {o : Option (State × α)} (h : KeepsP s o) (k : Keeps r s) : KeepsP r o :=
  ⟨fun t e => k.trans (h.get t e)⟩
theorem KeepsP.elim {α : Type} {r t : State} {a : α} {o : Option (State × α)} (e : o = Option.some (t, a)) (h : KeepsP r o) :
    Keeps r t := h.get _ e
theorem KeepsP.elim' {α : Type} {r : State} {p : State × α} {o : Option (State × α)} (e : o = Option.some p) (h : KeepsP r o) :
    Keeps r p.1 := h.get _ e
theorem KeepsP.getD {α : Type} {r : State} {o : Option (State × α)} {p : State × α} (h : KeepsP r o) (k : Keeps r p.1) :
    Keeps r (o.getD p).1 := by
  cases o with
  | none => exact k
  | some t => exact h.get t rfl

structure KeepsN {α : Type} (s : State) (o : Option (α × State)) : Prop where
  get : ∀ t, o = some t → Keeps s t.2
theorem KeepsN.some {α : Type} {s t : State} {a : α} (h : Keeps s t) : KeepsN s (Option.some (a, t)) := ⟨by rintro _ ⟨⟩; exact h⟩
theorem KeepsN.none {α : Type} {s : State} : KeepsN s (Option.none : Option (α × State)) := ⟨by rintro _ ⟨⟩⟩
theorem KeepsN.of {α : Type} {r s : State} {o : Option (α × State)} (h : KeepsN s o) (k : Keeps r s) : KeepsN r o :=
  ⟨fun t e => k.trans (h.get t e)⟩
theorem KeepsN.elim {α : Type} {r t : State} {a : α} {o : Option (α × State)} (e : o = Option.some (a, t)) (h : KeepsN r o) :
    Keeps r t := h.get _ e

structure KeepsX {ε α : Type} (s : State) (o : Except ε (State × α)) : Prop where
  get : ∀ t, o = .ok t → Keeps s t.1
theorem KeepsX.ok {ε α : Type} {s t : State} {a : α} (h : Keeps s t) : KeepsX s (.ok (t, a) : Except ε (State × α)) := ⟨by rintro _ ⟨⟩; exact h⟩
theorem KeepsX.ok' {ε α : Type} {s : State} {p : State × α} (h : Keeps s p.1) : KeepsX s (.ok p : Except ε (State × α)) := ⟨by rintro _ ⟨⟩; exact h⟩
theorem KeepsX.error {ε α : Type} {s : State} {x : ε} : KeepsX s (.error x : Except ε (State × α)) := ⟨by rintro _ ⟨⟩⟩
theorem KeepsX.of {ε α : Type} {r s : State} {o : Except ε (State × α)} (h : KeepsX s o) (k : Keeps r s) : KeepsX r o :=
  ⟨fun t e => k.trans (h.get t e)⟩
theorem KeepsX.elim {ε α : Type} {r t : State} {a : α} {o : Except ε (State × α)} (e : o = .ok (t, a)) (h : KeepsX r o) :
    Keeps r t := h.get _ e

theorem KeepsX.map {ε α β : Type} {r : State} {o : Except ε (State × α)} {f : State × α → β} (h : KeepsX r o) :
    KeepsX r (o.map fun x => (x.1, f x)) := by
  cases o with
  | error x => exact .error
  | ok p => exact .ok (h.get p rfl)

/-- What an instruction does when it issues keeps it. -/
structure KeepsE (s : State) (e : Eff) : Prop where
  get : ∀ t th ws g a, e = .ok t th ws g a → Keeps s t
theorem KeepsE.ok {s t : State} {th ws g a} (h : Keeps s t) : KeepsE s (.ok t th ws g a) := ⟨by rintro _ _ _ _ _ ⟨⟩; exact h⟩
theorem KeepsE.hold {s : State} : KeepsE s .hold := ⟨by rintro _ _ _ _ _ ⟨⟩⟩
theorem KeepsE.trap {s : State} {c v} : KeepsE s (.trap c v) := ⟨by rintro _ _ _ _ _ ⟨⟩⟩
theorem KeepsE.waits {s : State} {a b} : KeepsE s (.waits a b) := ⟨by rintro _ _ _ _ _ ⟨⟩⟩
theorem KeepsE.ends {s : State} : KeepsE s .ends := ⟨by rintro _ _ _ _ _ ⟨⟩⟩
theorem KeepsE.of {r s : State} {o} (h : KeepsE s o) (k : Keeps r s) : KeepsE r o := ⟨fun t _ _ _ _ e => k.trans (h.get t _ _ _ _ e)⟩
theorem KeepsE.elim {r t : State} {th ws g a o} (e : o = Eff.ok t th ws g a) (h : KeepsE r o) : Keeps r t := h.get _ _ _ _ _ e

theorem Keeps.pair {α : Type} {r t : State} {a : α} (h : Keeps r t) : Keeps r (t, a).1 := h

/-- What a composite or resource command answers keeps it. -/
structure KeepsC (s : State) (o : CmpRes) : Prop where
  done : ∀ t r, o = .done t r → Keeps s t
  wait : ∀ t, o = .wait t → Keeps s t
theorem KeepsC.ofDone {s t : State} {r} (h : Keeps s t) : KeepsC s (.done t r) := ⟨by rintro _ _ ⟨⟩; exact h, by rintro _ ⟨⟩⟩
theorem KeepsC.ofWait {s t : State} (h : Keeps s t) : KeepsC s (.wait t) := ⟨by rintro _ _ ⟨⟩, by rintro _ ⟨⟩; exact h⟩
theorem KeepsC.of {r s : State} {o} (h : KeepsC s o) (k : Keeps r s) : KeepsC r o :=
  ⟨fun t x e => k.trans (h.done t x e), fun t e => k.trans (h.wait t e)⟩
theorem KeepsC.elimDone {r t : State} {o x} (e : o = CmpRes.done t x) (h : KeepsC r o) : Keeps r t := h.done _ _ e
theorem KeepsC.elimWait {r t : State} {o} (e : o = CmpRes.wait t) (h : KeepsC r o) : Keeps r t := h.wait _ e

structure KeepsR (s : State) (o : ResRes) : Prop where
  done : ∀ t r c, o = .done t r c → Keeps s t
  wait : ∀ t, o = .wait t → Keeps s t
theorem KeepsR.ofDone {s t : State} {r c} (h : Keeps s t) : KeepsR s (.done t r c) := ⟨by rintro _ _ _ ⟨⟩; exact h, by rintro _ ⟨⟩⟩
theorem KeepsR.ofWait {s t : State} (h : Keeps s t) : KeepsR s (.wait t) := ⟨by rintro _ _ _ ⟨⟩, by rintro _ ⟨⟩; exact h⟩
theorem KeepsR.of {r s : State} {o} (h : KeepsR s o) (k : Keeps r s) : KeepsR r o :=
  ⟨fun t x c e => k.trans (h.done t x c e), fun t e => k.trans (h.wait t e)⟩
theorem KeepsR.elimDone {r t : State} {o x c} (e : o = ResRes.done t x c) (h : KeepsR r o) : Keeps r t := h.done _ _ _ e
theorem KeepsR.elimWait {r t : State} {o} (e : o = ResRes.wait t) (h : KeepsR r o) : Keeps r t := h.wait _ e

theorem Keeps.ite {c : Prop} [Decidable c] {r : State} {a b : State} (h : Keeps r a) (k : Keeps r b) :
    Keeps r (if c then a else b) := by
  split
  · exact h
  · exact k

theorem KeepsO.ite {c : Prop} [Decidable c] {r : State} {a b : Host.Outcome State Fault Refusal} (h : KeepsO r a) (k : KeepsO r b) :
    KeepsO r (if c then a else b) := by
  split
  · exact h
  · exact k

theorem KeepsM.ite {c : Prop} [Decidable c] {r : State} {a b : Option State} (h : KeepsM r a) (k : KeepsM r b) :
    KeepsM r (if c then a else b) := by
  split
  · exact h
  · exact k

theorem KeepsC.ite {c : Prop} [Decidable c] {r : State} {a b : CmpRes} (h : KeepsC r a) (k : KeepsC r b) :
    KeepsC r (if c then a else b) := by
  split
  · exact h
  · exact k

theorem KeepsR.ite {c : Prop} [Decidable c] {r : State} {a b : ResRes} (h : KeepsR r a) (k : KeepsR r b) :
    KeepsR r (if c then a else b) := by
  split
  · exact h
  · exact k

theorem KeepsE.ite {c : Prop} [Decidable c] {r : State} {a b : Eff} (h : KeepsE r a) (k : KeepsE r b) :
    KeepsE r (if c then a else b) := by
  split
  · exact h
  · exact k

/-- Dropping Facet stores keeps it. -/
theorem Keeps.dropFstore {r s t : State} (h : Keeps r s) (p : Nat × Memory → Bool)
    (e : t.pending = s.pending ∧ t.mem = s.mem ∧ t.fstore = s.fstore.filter p ∧ t.sec = s.sec) : Keeps r t :=
  h.trans ⟨e.1, fun x => e.2.1 ▸ x, fun x q hq => x q (by rw [e.2.2.1] at hq; exact (List.mem_filter.mp hq).1), by rw [e.2.2.2],
    by rw [e.2.2.2, BitVec.and_self]⟩

theorem KeepsM.bind {r : State} {o : Option State} {f : State → Option State} (h : KeepsM r o) (k : ∀ t, Keeps r t → KeepsM r (f t)) :
    KeepsM r (o.bind f) := by
  cases o with
  | none => exact .none
  | some t => exact k t (h.get t rfl)

end Sys2Proof.Machine
end

