-- ==== Sys2Proof/Laws/KeepsCore.lean ====
section
/-! SUPPORT. Lemmas of the relation `Keeps`: shared operations, memory, events, synchronisation, units and threads. One lemma a function; each says what the function keeps. -/

namespace Sys2Proof.Machine

/-! ## Ops -/

theorem nextFree_keeps (s) : Keeps s (nextFree s) := by
  unfold nextFree
  exact (.same ⟨rfl, rfl, rfl, rfl, rfl⟩)

theorem hostWrite_keeps (s bus d) : Keeps s (hostWrite s bus d) := by
  unfold hostWrite
  exact (.same ⟨rfl, rfl, rfl, rfl, rfl⟩)

theorem rset_keeps (s k v) : Keeps s (rset s k v) := by
  unfold rset
  exact (.same ⟨rfl, rfl, rfl, rfl, rfl⟩)

theorem statOvr_keeps (s k) : Keeps s (statOvr s k) := by
  unfold statOvr
  exact (rset_keeps ..)

theorem statStart_keeps (s k) : Keeps s (statStart s k) := by
  unfold statStart
  exact (rset_keeps ..)

theorem statDone_keeps (s k r) : Keeps s (statDone s k r) := by
  unfold statDone
  exact (rset_keeps ..)

theorem wakeDim_keeps (s) : Keeps s (wakeDim s) := by
  unfold wakeDim
  extract_lets +onlyGivenNames x1
  extract_lets +onlyGivenNames x2
  have h3 : Keeps s x2 := (.same ⟨rfl, rfl, rfl, rfl, rfl⟩)
  refine .ite (h3.trans (.same ⟨rfl, rfl, rfl, rfl, rfl⟩)) ?_
  exact h3

theorem toBright_keeps (s) : Keeps s (toBright s) := by
  unfold toBright
  exact (.same ⟨rfl, rfl, rfl, rfl, rfl⟩)

theorem setIsl_keeps (s c x) : Keeps s (setIsl s c x) := by
  unfold setIsl
  exact (.same ⟨rfl, rfl, rfl, rfl, rfl⟩)

theorem countLost_keeps (s e) : Keeps s (countLost s e) := by
  unfold countLost
  extract_lets +onlyGivenNames x1
  extract_lets +onlyGivenNames x2
  exact (.same ⟨rfl, rfl, rfl, rfl, rfl⟩)

theorem enqueueErr_keeps (s e) : Keeps s (enqueueErr s e) := by
  unfold enqueueErr
  refine .ite (.same ⟨rfl, rfl, rfl, rfl, rfl⟩) ?_
  refine .ite (.same ⟨rfl, rfl, rfl, rfl, rfl⟩) ?_
  exact (countLost_keeps ..)

theorem rollSecond_keeps (s) : Keeps s (rollSecond s) := by
  unfold rollSecond
  extract_lets +onlyGivenNames x1
  refine .ite (.refl _) ?_
  extract_lets +onlyGivenNames x2
  exact (.same ⟨rfl, rfl, rfl, rfl, rfl⟩)

theorem raiseErr_keeps (s e) : Keeps s (raiseErr s e) := by
  unfold raiseErr
  extract_lets +onlyGivenNames x1
  have h2 : Keeps s x1 := (rollSecond_keeps ..)
  clear_value x1
  extract_lets +onlyGivenNames x3
  extract_lets +onlyGivenNames x4
  extract_lets +onlyGivenNames x5
  extract_lets +onlyGivenNames x6
  have h7 : Keeps s x6 := (h2.trans (.same ⟨rfl, rfl, rfl, rfl, rfl⟩))
  clear_value x6
  extract_lets +onlyGivenNames x8
  refine .ite (.of (enqueueErr_keeps ..) h7) ?_
  refine .ite (.of (enqueueErr_keeps ..) h7) ?_
  exact (h7.trans (.same ⟨rfl, rfl, rfl, rfl, rfl⟩))

theorem accessErr_keeps (s fn addr) : Keeps s (accessErr s fn addr) := by
  unfold accessErr
  exact (raiseErr_keeps ..)

theorem accessErrUnit_keeps (s unit addr) : Keeps s (accessErrUnit s unit addr) := by
  unfold accessErrUnit
  exact (raiseErr_keeps ..)

theorem modInst_keeps (s vi f) : Keeps s (modInst s vi f) := by
  unfold modInst
  exact (.same ⟨rfl, rfl, rfl, rfl, rfl⟩)

theorem putThr_keeps (s t th) : Keeps s (putThr s t th) := by
  unfold putThr
  exact (.same ⟨rfl, rfl, rfl, rfl, rfl⟩)

theorem delThr_keeps (s t) : Keeps s (delThr s t) := by
  unfold delThr
  exact (.same ⟨rfl, rfl, rfl, rfl, rfl⟩)

theorem modLaunch_keeps (s n f) : Keeps s (modLaunch s n f) := by
  unfold modLaunch
  exact (.same ⟨rfl, rfl, rfl, rfl, rfl⟩)

/-! ## Memory -/

theorem poisonBlock_keeps (s b) : Keeps s (poisonBlock s b) := by
  unfold poisonBlock
  refine .ite (.refl _) ?_
  exact (.same ⟨rfl, rfl, rfl, rfl, rfl⟩)

theorem foundUe_keeps (s b consumer) : Keeps s (foundUe s b consumer) := by
  unfold foundUe
  extract_lets +onlyGivenNames x1
  extract_lets +onlyGivenNames x2
  have h3 : Keeps s x2 := (.of (poisonBlock_keeps ..) (.same ⟨rfl, rfl, rfl, rfl, rfl⟩))
  clear_value x2
  extract_lets +onlyGivenNames x4
  have h5 : Keeps s x4 := (h3.trans (.same ⟨rfl, rfl, rfl, rfl, rfl⟩))
  clear_value x4
  extract_lets +onlyGivenNames x6
  have h7 : Keeps s x6 := by
    unfold x6
    split
    · have h10 : Keeps s x6 := by
        unfold x6
        split
        · exact (.of (modInst_keeps ..) h5)
        · exact h5
      exact (.of (modInst_keeps ..) h5)
    · have h12 : Keeps s x6 := by
        unfold x6
        split
        · exact (.of (modInst_keeps ..) h5)
        · exact h5
      exact h5
  clear_value x6
  exact (.of (raiseErr_keeps ..) h7)

theorem touchBlocks_keeps (s pa n consumer) : Keeps s (touchBlocks s pa n consumer) := by
  unfold touchBlocks
  refine Keeps.foldl (fun s1 y2 => ?_)
  refine .ite (foundUe_keeps ..) ?_
  exact (.refl _)

theorem devRead_keeps (s pa n consumer) : Keeps s (devRead s pa n consumer).1 := by
  unfold devRead
  extract_lets +onlyGivenNames x1
  have h2 : Keeps s x1 := (touchBlocks_keeps ..)
  clear_value x1
  extract_lets +onlyGivenNames x3
  extract_lets +onlyGivenNames x4
  have h5 : Keeps s x4 := by
    unfold x4
    split
    · have h8 : Keeps s x4 := by
        unfold x4
        split
        · refine .ite (.of (modInst_keeps ..) h2) ?_
          exact h2
        · exact h2
      refine .ite (.of (modInst_keeps ..) h2) ?_
      exact h2
    · have h10 : Keeps s x4 := by
        unfold x4
        split
        · refine .ite (.of (modInst_keeps ..) h2) ?_
          exact h2
        · exact h2
      exact h2
  clear_value x4
  exact h5

theorem writeBlock_keeps (s vi pa d) : Keeps s (writeBlock s vi pa d) := by
  unfold writeBlock
  extract_lets +onlyGivenNames x1
  split
  · exact ⟨rfl, fun h => Memory.puts_wf _ _ _ h, id, le_refl _, BitVec.and_self⟩
  · extract_lets +onlyGivenNames x2
    have h2 : Keeps s x2 := by
      unfold x2
      split
      · exact foundUe_keeps ..
      · exact .refl _
    split
    · exact .of (raiseErr_keeps ..) h2
    · exact .trans h2 ⟨rfl, fun h => Memory.puts_wf _ _ _ h, id, le_refl _, BitVec.and_self⟩

theorem writeBlocks_keeps (s vi pa d a4) : Keeps s (writeBlocks s vi pa d a4) := by
  fun_induction writeBlocks s vi pa d a4
  · exact (.refl _)
  · exact (.refl _)
  · rename_i y15
    exact .of y15 (writeBlock_keeps ..)

theorem devWrite_keeps (s vi pa d) : Keeps s (devWrite s vi pa d) := by
  unfold devWrite
  exact (writeBlocks_keeps ..)

theorem mirrorSend_keeps (s src dst n mark d w) : Keeps s (mirrorSend s src dst n mark d w) := by
  unfold mirrorSend
  exact (.same ⟨rfl, rfl, rfl, rfl, rfl⟩)

theorem mirrorCut_keeps (s src dst n mark d w a7) : Keeps s (mirrorCut s src dst n mark d w a7) := by
  fun_induction mirrorCut s src dst n mark d w a7
  · exact (.refl _)
  · exact (mirrorSend_keeps ..)
  · rename_i y20
    exact .of y20 (mirrorSend_keeps ..)

theorem mirrorOut_keeps (s mirror pa d mark w) : Keeps s (mirrorOut s mirror pa d mark w) := by
  unfold mirrorOut
  split
  · exact (.refl _)
  · extract_lets +onlyGivenNames x1
    refine .ite (mirrorCut_keeps ..) ?_
    refine .ite (.same ⟨rfl, rfl, rfl, rfl, rfl⟩) ?_
    exact (.refl _)

theorem markPoison_keeps (s mirror pa n w) : Keeps s (markPoison s mirror pa n w) := by
  unfold markPoison
  refine .of (mirrorOut_keeps ..) ?_
  refine .of (Keeps.foldl (fun s1 y2 => ?_)) (.same ⟨rfl, rfl, rfl, rfl, rfl⟩)
  exact (poisonBlock_keeps ..)

theorem performW_keeps (s vi mirror w a) : Keeps s (performW s vi mirror w a).1 := by
  unfold performW
  split
  · exact (.pair (.of (mirrorOut_keeps ..) (devWrite_keeps ..)))
  · split
    · rename_i s2 _ _ e5
      have h6 : Keeps s s2 := .fst e5 (devRead_keeps ..)
      split
      · exact h6
      · extract_lets +onlyGivenNames x7
        extract_lets +onlyGivenNames x8
        exact (.pair (.of (mirrorOut_keeps ..) (.of (devWrite_keeps ..) h6)))
  · exact (.pair (markPoison_keeps ..))

theorem partAct_keeps (s vi mirror w a) : Keeps s (partAct s vi mirror w a).1 := by
  unfold partAct
  split
  · exact (.pair (.same ⟨rfl, rfl, rfl, rfl, rfl⟩))
  · split
    · rename_i s2 _ _ e5
      have h6 : Keeps s s2 := .fst e5 (performW_keeps ..)
      exact h6

theorem engAct_keeps (s vi mirror a w) : Keeps s (engAct s vi mirror a w) := by
  unfold engAct
  refine Keeps.foldl (fun s1 y2 => ?_)
  exact (partAct_keeps ..)

theorem engWrite_keeps (s vi pa mirror d w) : Keeps s (engWrite s vi pa mirror d w) := by
  unfold engWrite
  exact (engAct_keeps ..)

theorem hostPut_keeps (s fn bus d) : Keeps s (hostPut s fn bus d) := by
  unfold hostPut
  refine .ite (hostWrite_keeps ..) ?_
  exact (.same ⟨rfl, rfl, rfl, rfl, rfl⟩)

theorem instWrite_keeps (s vi a d) : KeepsM s (instWrite s vi a d) := by
  unfold instWrite
  split
  · exact .some (engWrite_keeps ..)
  · exact .some (hostPut_keeps ..)
  · exact .none
  · exact .none

theorem instRead_keeps (s vi a n ext) : KeepsP s (instRead s vi a n ext) := by
  unfold instRead
  split
  · exact .some' (devRead_keeps ..)
  · exact .some (.refl _)
  · exact .none
  · exact .none

theorem rangeRead_keeps (s vi a n ext) : KeepsP s (rangeRead s vi a n ext) := by
  unfold rangeRead
  split
  · refine .some' ?_
    refine .of (Keeps.foldlP (fun p1 y2 => ?_)) (.pair (.refl _))
    split
    · rename_i s4 _ _ e7
      have h8 : Keeps p1.1 s4 := KeepsP.elim e7 (instRead_keeps ..)
      exact h8
    · exact (.refl _)
  · exact .none

theorem rangeWriteBy_keeps (s vi a d w) : KeepsM s (rangeWriteBy s vi a d w) := by
  unfold rangeWriteBy
  refine .ite ?_ ?_
  · refine .some ?_
    refine .of (Keeps.foldlP (fun p1 y2 => ?_)) (.pair (.refl _))
    extract_lets +onlyGivenNames x3
    split
    · exact (.pair (engWrite_keeps ..))
    · exact (.pair (hostPut_keeps ..))
    · exact (.refl _)
    · exact (.refl _)
  · exact .none

theorem rangeWrite_keeps (s vi a d) : KeepsM s (rangeWrite s vi a d) := by
  unfold rangeWrite
  exact (rangeWriteBy_keeps ..)

theorem spillWrite_keeps (s vi loc d) : Keeps s (spillWrite s vi loc d) := by
  unfold spillWrite
  split
  · refine KeepsM.getD ?_ ?_
    · exact (instWrite_keeps ..)
    · exact (.refl _)
  · exact (hostPut_keeps ..)

theorem spillRead_keeps (s vi loc n) : Keeps s (spillRead s vi loc n).1 := by
  unfold spillRead
  split
  · split
    · rename_i s2 _ _ e5
      have h6 : Keeps s s2 := by
        refine Keeps.fst e5 ?_
        refine KeepsP.getD ?_ ?_
        · exact (instRead_keeps ..)
        · exact (.pair (.refl _))
      exact h6
  · exact (.pair (.refl _))

theorem spillTake_keeps (s vi loc) : Keeps s (spillTake s vi loc) := by
  unfold spillTake
  exact (.same ⟨rfl, rfl, rfl, rfl, rfl⟩)

theorem spillFree_keeps (s vi loc) : Keeps s (spillFree s vi loc) := by
  unfold spillFree
  exact (.same ⟨rfl, rfl, rfl, rfl, rfl⟩)

/-! ## Events -/

theorem trcFlush_keeps (s n) : Keeps s (trcFlush s n) := by
  induction n generalizing s with
  | zero => exact .refl _
  | succ n ih =>
    have key (u : State) (r : List (List Word)) (q : Word) (h : Keeps s u) :
        Keeps s (trcFlush { u with trc := { u.trc with held := r, hostProd := q } } n) :=
      .of (ih _) (h.trans (.same ⟨rfl, rfl, rfl, rfl, rfl⟩))
    rw [trcFlush]
    split
    · exact .refl _
    · refine .ite (.refl _) (key _ _ _ ?_)
      exact .of (hostPut_keeps ..) (.ite (.refl _) (hostPut_keeps ..))

theorem trcEnter_keeps (s p) : Keeps s (trcEnter s p) := by
  unfold trcEnter
  extract_lets +onlyGivenNames x1
  extract_lets +onlyGivenNames x2
  extract_lets +onlyGivenNames x3
  exact (.of (trcFlush_keeps ..) (.same ⟨rfl, rfl, rfl, rfl, rfl⟩))

theorem trcCount_keeps (s) : Keeps s (trcCount s) := by
  unfold trcCount
  exact (.same ⟨rfl, rfl, rfl, rfl, rfl⟩)

theorem trcDrop_keeps (s) : Keeps s (trcDrop s) := by
  unfold trcDrop
  extract_lets +onlyGivenNames x1
  have h2 : Keeps s x1 := (trcCount_keeps ..)
  clear_value x1
  refine .ite h2 ?_
  exact (h2.trans (.same ⟨rfl, rfl, rfl, rfl, rfl⟩))

theorem trcLoss_keeps (s) : Keeps s (trcLoss s) := by
  unfold trcLoss
  refine .ite (.refl _) ?_
  extract_lets +onlyGivenNames x1
  exact (.of (trcEnter_keeps ..) (.same ⟨rfl, rfl, rfl, rfl, rfl⟩))

theorem trcOffer_keeps (s p) : Keeps s (trcOffer s p) := by
  unfold trcOffer
  refine .ite (.refl _) ?_
  refine .ite (trcDrop_keeps ..) ?_
  exact (.of (trcEnter_keeps ..) (trcLoss_keeps ..))

theorem stwPut_keeps (s n p) : Keeps s (stwPut s n p) := by
  unfold stwPut
  refine .ite (trcOffer_keeps ..) ?_
  extract_lets +onlyGivenNames x1
  have h2 : Keeps s x1 := (trcOffer_keeps ..)
  clear_value x1
  exact (h2.trans (.same ⟨rfl, rfl, rfl, rfl, rfl⟩))

theorem stwOffer_keeps (s n p) : Keeps s (stwOffer s n p) := by
  unfold stwOffer
  refine .ite (.refl _) ?_
  refine .ite ?_ ?_
  · extract_lets +onlyGivenNames x1
    refine .ite (.of (stwPut_keeps ..) (.of (nextFree_keeps ..) (.of (trcOffer_keeps ..) (.same ⟨rfl, rfl, rfl, rfl, rfl⟩)))) ?_
    exact (trcDrop_keeps ..)
  · exact (stwPut_keeps ..)

theorem trcTrigger_keeps (s src) : Keeps s (trcTrigger s src) := by
  unfold trcTrigger
  refine .ite ?_ ?_
  · extract_lets +onlyGivenNames x1
    have h2 : Keeps s x1 := (.of (trcEnter_keeps ..) (trcLoss_keeps ..))
    clear_value x1
    exact (h2.trans (.same ⟨rfl, rfl, rfl, rfl, rfl⟩))
  · exact (.refl _)

theorem facetEvent_keeps (s kind vi status launch index f) : Keeps s (facetEvent s kind vi status launch index f) := by
  unfold facetEvent
  extract_lets +onlyGivenNames x1
  extract_lets +onlyGivenNames x2
  have h3 : Keeps s x2 := by
    unfold x2
    refine .ite (trcOffer_keeps ..) ?_
    exact (.refl _)
  clear_value x2
  refine .ite (.of (trcTrigger_keeps ..) h3) ?_
  exact h3

theorem countEv_keeps (s f vi idx n) : Keeps s (countEv s f vi idx n) := by
  unfold countEv
  refine .ite ?_ ?_
  · refine Keeps.foldl (fun s1 y2 => ?_)
    refine .ite ?_ ?_
    · split
      · extract_lets +onlyGivenNames x3
        exact (.same ⟨rfl, rfl, rfl, rfl, rfl⟩)
    · exact (.refl _)
  · exact (.refl _)

theorem addTally_keeps (s f vi kind n) : Keeps s (addTally s f vi kind n) := by
  unfold addTally
  exact (.same ⟨rfl, rfl, rfl, rfl, rfl⟩)

theorem countStore_keeps (s f vi) : Keeps s (countStore s f vi) := by
  unfold countStore
  exact (.of (addTally_keeps ..) (countEv_keeps ..))

theorem loseEvent_keeps (s vi e) : Keeps s (loseEvent s vi e) := by
  unfold loseEvent
  exact (modInst_keeps ..)

theorem writeEvent_keeps (s vi e) : Keeps s (writeEvent s vi e) := by
  unfold writeEvent
  extract_lets +onlyGivenNames x1
  extract_lets +onlyGivenNames x2
  extract_lets +onlyGivenNames x3
  split
  · rename_i s5 e6
    have h7 : Keeps s s5 := KeepsM.elim e6 (instWrite_keeps ..)
    exact (.of (modInst_keeps ..) h7)
  · extract_lets +onlyGivenNames x8
    have h9 : Keeps s x8 := (raiseErr_keeps ..)
    clear_value x8
    exact (.of (loseEvent_keeps ..) h9)

theorem postEvent_keeps (s vi e) : Keeps s (postEvent s vi e) := by
  unfold postEvent
  extract_lets +onlyGivenNames x1
  refine .ite (.refl _) ?_
  extract_lets +onlyGivenNames x2
  have h3 : Keeps s x2 := by
    unfold x2
    refine .ite (modInst_keeps ..) ?_
    exact (.refl _)
  clear_value x2
  refine .ite ?_ ?_
  · refine .ite h3 ?_
    exact (.of (modInst_keeps ..) h3)
  · refine .ite (.of (loseEvent_keeps ..) h3) ?_
    exact (.of (writeEvent_keeps ..) h3)

theorem drainTraps_keeps (s vi a2) : Keeps s (drainTraps s vi a2) := by
  fun_induction drainTraps s vi a2
  · exact (.refl _)
  · exact (.refl _)
  · exact (.refl _)
  · rename_i y17
    exact .of y17 (.of (writeEvent_keeps ..) (modInst_keeps ..))

theorem postLost_keeps (s vi) : Keeps s (postLost s vi) := by
  unfold postLost
  extract_lets +onlyGivenNames x1
  refine .ite (.of (writeEvent_keeps ..) (modInst_keeps ..)) ?_
  exact (.refl _)

theorem drainEvents_keeps (s vi) : Keeps s (drainEvents s vi) := by
  unfold drainEvents
  extract_lets +onlyGivenNames x1
  have h2 : Keeps s x1 := (postLost_keeps ..)
  clear_value x1
  exact (.of (drainTraps_keeps ..) h2)

theorem retireEvent_keeps (s vi seq) : Keeps s (retireEvent s vi seq) := by
  unfold retireEvent
  exact (.of (drainEvents_keeps ..) (modInst_keeps ..))

theorem setSq_keeps (s vi q x) : Keeps s (setSq s vi q x) := by
  unfold setSq
  exact (.same ⟨rfl, rfl, rfl, rfl, rfl⟩)

theorem setCq_keeps (s vi q x) : Keeps s (setCq s vi q x) := by
  unfold setCq
  exact (.same ⟨rfl, rfl, rfl, rfl, rfl⟩)

theorem cqWrite_keeps (s vi q r) : Keeps s (cqWrite s vi q r) := by
  unfold cqWrite
  extract_lets +onlyGivenNames x1
  extract_lets +onlyGivenNames x2
  extract_lets +onlyGivenNames x3
  extract_lets +onlyGivenNames x4
  split
  · rename_i s6 e7
    have h8 : Keeps s s6 := by
      refine KeepsM.elim e7 ?_
      refine .ite .none ?_
      exact (instWrite_keeps ..)
    extract_lets +onlyGivenNames x9
    extract_lets +onlyGivenNames x10
    extract_lets +onlyGivenNames x11
    have h12 : Keeps s x11 := by
      unfold x11
      refine .ite (.of (setSq_keeps ..) h8) ?_
      exact h8
    clear_value x11
    exact (.of (setCq_keeps ..) h12)
  · extract_lets +onlyGivenNames x13
    have h14 : Keeps s x13 := (raiseErr_keeps ..)
    clear_value x13
    exact (.of (setCq_keeps ..) h14)

theorem complete_keeps (s vi q r) : Keeps s (complete s vi q r) := by
  unfold complete
  extract_lets +onlyGivenNames x1
  refine .ite (.refl _) ?_
  refine .ite (setCq_keeps ..) ?_
  refine .ite (setCq_keeps ..) ?_
  exact (cqWrite_keeps ..)

theorem cqRetry_keeps (s vi q a3) : Keeps s (cqRetry s vi q a3) := by
  fun_induction cqRetry s vi q a3
  · exact (.refl _)
  · exact (setCq_keeps ..)
  · exact (setCq_keeps ..)
  · rename_i s13 _ _ _ _ _ _ s20 _ _
    have h23 : Keeps s13 s20 := (.of (cqWrite_keeps ..) (setCq_keeps ..))
    exact (.of (setCq_keeps ..) h23)
  · rename_i s24 _ _ _ _ _ _ s31 _ _ y34
    have h35 : Keeps s24 s31 := (.of (cqWrite_keeps ..) (setCq_keeps ..))
    exact .of y34 (.of (setCq_keeps ..) h35)

theorem sqUntake_keeps (s vi q) : Keeps s (sqUntake s vi q) := by
  unfold sqUntake
  extract_lets +onlyGivenNames x1
  exact (setSq_keeps ..)

theorem completeSq_keeps (s vi q seq status dcode bytes detail) : Keeps s (completeSq s vi q seq status dcode bytes detail) := by
  unfold completeSq
  extract_lets +onlyGivenNames x1
  have h2 : Keeps s x1 := (sqUntake_keeps ..)
  clear_value x1
  exact (.of (complete_keeps ..) h2)

/-! ## Sync -/

theorem opDone_keeps (s t op res fault) : Keeps s (opDone s t op res fault) := by
  unfold opDone
  split
  · exact (.refl _)
  · exact (putThr_keeps ..)

theorem stDone_keeps (s t op fault) : Keeps s (stDone s t op fault) := by
  unfold stDone
  split
  · exact (.refl _)
  · exact (putThr_keeps ..)

theorem answer_keeps (s w value phase status) : Keeps s (answer s w value phase status) := by
  unfold answer
  split
  · exact (.refl _)
  · refine .ite (.refl _) ?_
    extract_lets +onlyGivenNames x1
    have h2 : Keeps s x1 := by
      unfold x1
      refine .ite (.refl _) ?_
      exact (countEv_keeps ..)
    clear_value x1
    exact (.of (opDone_keeps ..) h2)

theorem setSyn_keeps (s n o) : Keeps s (setSyn s n o) := by
  unfold setSyn
  exact (.same ⟨rfl, rfl, rfl, rfl, rfl⟩)

theorem setNear_keeps (s q n x) : Keeps s (setNear s q n x) := by
  unfold setNear
  exact (.same ⟨rfl, rfl, rfl, rfl, rfl⟩)

theorem answerAll_keeps (s n ws value phase status) : Keeps s (answerAll s n ws value phase status) := by
  unfold answerAll
  extract_lets +onlyGivenNames x1
  extract_lets +onlyGivenNames x2
  have h3 : Keeps s x2 := by
    unfold x2
    refine Keeps.foldl (fun s4 y5 => ?_)
    exact (answer_keeps ..)
  clear_value x2
  refine .of (Keeps.foldl (fun s6 y7 => ?_)) h3
  extract_lets +onlyGivenNames x8
  refine .ite (.refl _) ?_
  extract_lets +onlyGivenNames x9
  exact (setNear_keeps ..)

theorem serveQueue_keeps (s n a2) : Keeps s (serveQueue s n a2) := by
  fun_induction serveQueue s n a2
  · exact (.refl _)
  · exact (.refl _)
  · rename_i y15
    exact .of y15 (.of (answer_keeps ..) (setSyn_keeps ..))
  · exact (.refl _)
  · rename_i y32
    exact .of y32 (.of (answer_keeps ..) (setSyn_keeps ..))
  iterate 9 exact (.refl _)

theorem serveEc_keeps (s n) : Keeps s (serveEc s n) := by
  unfold serveEc
  extract_lets +onlyGivenNames x1
  extract_lets +onlyGivenNames x2
  exact (.of (answerAll_keeps ..) (setSyn_keeps ..))

theorem releaseBar_keeps (s n mem) : Keeps s (releaseBar s n mem) := by
  unfold releaseBar
  extract_lets +onlyGivenNames x1
  extract_lets +onlyGivenNames x2
  extract_lets +onlyGivenNames x3
  extract_lets +onlyGivenNames x4
  extract_lets +onlyGivenNames x5
  exact (.of (answerAll_keeps ..) (setSyn_keeps ..))

theorem arrive_keeps (s n ws extra dev mem) : Keeps s (arrive s n ws extra dev mem) := by
  unfold arrive
  extract_lets +onlyGivenNames x1
  extract_lets +onlyGivenNames x2
  extract_lets +onlyGivenNames x3
  have h4 : Keeps s x3 := (setSyn_keeps ..)
  clear_value x3
  refine .ite (.of (releaseBar_keeps ..) h4) ?_
  exact h4

theorem synPerform_keeps (s n w mem) : Keeps s (synPerform s n w mem) := by
  unfold synPerform
  extract_lets +onlyGivenNames x1
  split
  · exact (arrive_keeps ..)
  · refine .ite (.of (answer_keeps ..) (setSyn_keeps ..)) ?_
    exact (setSyn_keeps ..)
  · refine .ite (answer_keeps ..) ?_
    extract_lets +onlyGivenNames x2
    extract_lets +onlyGivenNames x3
    have h4 : Keeps s x3 := (.of (answer_keeps ..) (setSyn_keeps ..))
    clear_value x3
    exact (.of (serveQueue_keeps ..) h4)
  · refine .ite (.of (answer_keeps ..) (setSyn_keeps ..)) ?_
    exact (answer_keeps ..)
  · extract_lets +onlyGivenNames x5
    exact (.of (serveEc_keeps ..) (.of (answer_keeps ..) (setSyn_keeps ..)))
  · refine .ite (answer_keeps ..) ?_
    exact (setSyn_keeps ..)
  · exact (answer_keeps ..)
  · refine .ite (answer_keeps ..) ?_
    refine .ite (.of (answer_keeps ..) (setSyn_keeps ..)) ?_
    exact (setSyn_keeps ..)
  · refine .ite (answer_keeps ..) ?_
    refine .ite (.of (answer_keeps ..) (setSyn_keeps ..)) ?_
    exact (answer_keeps ..)
  · refine .ite (.of (answer_keeps ..) (setSyn_keeps ..)) ?_
    refine .ite (.of (serveQueue_keeps ..) (.of (answer_keeps ..) (setSyn_keeps ..))) ?_
    exact (answer_keeps ..)

theorem abandonLock_keeps (s vi n) : Keeps s (abandonLock s vi n) := by
  unfold abandonLock
  extract_lets +onlyGivenNames x1
  extract_lets +onlyGivenNames x2
  extract_lets +onlyGivenNames x3
  have h4 : Keeps s x3 := (.of (answerAll_keeps ..) (setSyn_keeps ..))
  clear_value x3
  exact (.of (postEvent_keeps ..) h4)

theorem abandonLocks_keeps (s vi launch index) : Keeps s (abandonLocks s vi launch index) := by
  unfold abandonLocks
  extract_lets +onlyGivenNames x1
  refine Keeps.foldl (fun s2 y3 => ?_)
  exact (abandonLock_keeps ..)

theorem withdrawAt_keeps (s n t op) : Keeps s (withdrawAt s n t op) := by
  unfold withdrawAt
  extract_lets +onlyGivenNames x1
  refine .ite ?_ ?_
  · extract_lets +onlyGivenNames x2
    extract_lets +onlyGivenNames x3
    have h4 : Keeps s x3 := (setSyn_keeps ..)
    clear_value x3
    refine .ite h4 ?_
    exact (.of (serveQueue_keeps ..) h4)
  · exact (.refl _)

theorem withdrawOp_keeps (s t op) : Keeps s (withdrawOp s t op) := by
  unfold withdrawOp
  extract_lets +onlyGivenNames x1
  extract_lets +onlyGivenNames x2
  have h3 : Keeps s x2 := by
    unfold x2
    refine Keeps.foldl (fun s4 y5 => ?_)
    exact (withdrawAt_keeps ..)
  clear_value x2
  exact (h3.trans (.same ⟨rfl, rfl, rfl, rfl, rfl⟩))

theorem wdogFire_keeps (s n) : Keeps s (wdogFire s n) := by
  unfold wdogFire
  extract_lets +onlyGivenNames x1
  extract_lets +onlyGivenNames x2
  extract_lets +onlyGivenNames x3
  have h4 : Keeps s x3 := (.of (answerAll_keeps ..) (setSyn_keeps ..))
  clear_value x3
  split
  · exact (.of (postEvent_keeps ..) h4)
  · exact h4

theorem allocBar_keeps (s vi launch expect target) : KeepsN s (allocBar s vi launch expect target) := by
  unfold allocBar
  extract_lets +onlyGivenNames x1
  extract_lets +onlyGivenNames x2
  split
  · exact .none
  · extract_lets +onlyGivenNames x3
    extract_lets +onlyGivenNames x4
    exact .some (setSyn_keeps ..)

theorem freeBar_keeps (s n) : Keeps s (freeBar s n) := by
  unfold freeBar
  extract_lets +onlyGivenNames x1
  exact (setSyn_keeps ..)

/-! ## Acc -/

theorem setLoad_keeps (s vi loc) : Keeps s (setLoad s vi loc).1 := by
  unfold setLoad
  split
  · rename_i s2 _ _ e5
    have h6 : Keeps s s2 := by
      refine Keeps.fst e5 ?_
      refine .of (Keeps.foldlP (fun p7 y8 => ?_)) (.pair (.refl _))
      extract_lets +onlyGivenNames x9
      split
      · rename_i s11 _ _ e14
        have h15 : Keeps p7.1 s11 := .fst e14 (spillRead_keeps ..)
        exact h15
    exact (.pair (.of (spillFree_keeps ..) h6))

theorem writeOut_keeps (s key) : Keeps s (writeOut s key) := by
  unfold writeOut
  split
  · extract_lets +onlyGivenNames x1
    split
    · extract_lets +onlyGivenNames x2
      have h3 : Keeps s x2 := (.of (spillWrite_keeps ..) (spillTake_keeps ..))
      clear_value x2
      exact (h3.trans (.same ⟨rfl, rfl, rfl, rfl, rfl⟩))
    · exact (.refl _)
  · exact (.refl _)

theorem accUse_keeps (s vi l f) : Keeps s (accUse s vi l f).1 := by
  unfold accUse
  extract_lets +onlyGivenNames x1
  split
  · exact (.pair (.refl _))
  · extract_lets +onlyGivenNames x2
    have h3 : Keeps s x2 := by
      unfold x2
      split
      · exact (.of (countEv_keeps ..) (writeOut_keeps ..))
      · exact (.refl _)
    clear_value x2
    split
    · rename_i s5 _ e7
      have h8 : Keeps s s5 := by
        refine Keeps.fst e7 ?_
        split
        · exact (.of (setLoad_keeps ..) h3)
        · exact h3
      exact (.pair (h8.trans (.same ⟨rfl, rfl, rfl, rfl, rfl⟩)))

theorem accPut_keeps (s l f v) : Keeps s (accPut s l f v) := by
  unfold accPut
  exact (.same ⟨rfl, rfl, rfl, rfl, rfl⟩)

/-! ## BrmCore -/

theorem putCtx_keeps (s n c) : Keeps s (putCtx s n c) := by
  unfold putCtx
  extract_lets +onlyGivenNames x1
  have h2 : Keeps s x1 := (.same ⟨rfl, rfl, rfl, rfl, rfl⟩)
  clear_value x1
  refine .ite h2 ?_
  exact (.of (nextFree_keeps ..) (.of (hostPut_keeps ..) h2))

theorem newCtx_keeps (s vi n c) : Keeps s (newCtx s vi n c) := by
  unfold newCtx
  exact (.of (modInst_keeps ..) (putCtx_keeps ..))

theorem freeCtx_keeps (s vi n) : Keeps s (freeCtx s vi n) := by
  unfold freeCtx
  exact (.of (modInst_keeps ..) (.same ⟨rfl, rfl, rfl, rfl, rfl⟩))

theorem setQp_keeps (s n q) : Keeps s (setQp s n q) := by
  unfold setQp
  exact (putCtx_keeps ..)

theorem bumpIv_keeps (s quad slot) : Keeps s (bumpIv s quad slot) := by
  unfold bumpIv
  extract_lets +onlyGivenNames x1
  exact (.same ⟨rfl, rfl, rfl, rfl, rfl⟩)

theorem nextPayload_keeps (s q m) : KeepsP s (nextPayload s q m) := by
  unfold nextPayload
  extract_lets +onlyGivenNames x1
  extract_lets +onlyGivenNames x2
  split
  · exact .some (.refl _)
  · split
    · extract_lets +onlyGivenNames x3
      split
      · exact .none
      · rename_i s5 _ _ e8
        have h9 : Keeps s s5 := KeepsP.elim e8 (rangeRead_keeps ..)
        split
        · exact .some h9
    · extract_lets +onlyGivenNames x10
      split
      · exact .none
      · rename_i s12 _ _ e15
        have h16 : Keeps s s12 := KeepsP.elim e15 (rangeRead_keeps ..)
        exact .some h16

theorem emit_keeps (s q opc hdr data path key) : Keeps s (emit s q opc hdr data path key) := by
  unfold emit
  extract_lets +onlyGivenNames x1
  extract_lets +onlyGivenNames x2
  have h3 : Keeps s x2 := by
    unfold x2
    split
    · have h6 : Keeps s x2 := by
        unfold x2
        split
        · exact (.of (nextFree_keeps ..) (bumpIv_keeps ..))
        · exact (.refl _)
      exact (.of (nextFree_keeps ..) (bumpIv_keeps ..))
    · have h8 : Keeps s x2 := by
        unfold x2
        split
        · exact (.of (nextFree_keeps ..) (bumpIv_keeps ..))
        · exact (.refl _)
      exact (.refl _)
  clear_value x2
  refine .ite (h3.trans (.same ⟨rfl, rfl, rfl, rfl, rfl⟩)) ?_
  exact (h3.trans (.same ⟨rfl, rfl, rfl, rfl, rfl⟩))

theorem emitCtl_keeps (s q opc psn msn aux data) : Keeps s (emitCtl s q opc psn msn aux data) := by
  unfold emitCtl
  exact (emit_keeps ..)

theorem sendPkt_keeps (s n q m d k p) : Keeps s (sendPkt s n q m d k p).1 := by
  unfold sendPkt
  extract_lets +onlyGivenNames x1
  extract_lets +onlyGivenNames x2
  have h3 : Keeps s x2 := (emit_keeps ..)
  clear_value x2
  extract_lets +onlyGivenNames x4
  exact (.pair (.of (setQp_keeps ..) h3))

theorem pump_keeps (s n a2) : Keeps s (pump s n a2) := by
  fun_induction pump s n a2
  iterate 5 exact (.refl _)
  · rename_i y32
    exact .of y32 (setQp_keeps ..)
  · rename_i s33 _ _ _ _ _ _ _ s41 _ _ _ e45 s46 _ e48 _ y50
    have h51 : Keeps s33 s41 := KeepsP.elim e45 (nextPayload_keeps ..)
    have h52 : Keeps s33 s46 := .fst e48 (.of (sendPkt_keeps ..) h51)
    exact .of y50 (.of (setQp_keeps ..) h52)
  · rename_i y62
    exact .of y62 (setQp_keeps ..)
  · rename_i s63 _ _ _ _ _ _ _ s71 _ _ _ e75 s76 _ e78 y79
    have h80 : Keeps s63 s71 := KeepsP.elim e75 (nextPayload_keeps ..)
    have h81 : Keeps s63 s76 := .fst e78 (.of (sendPkt_keeps ..) h80)
    exact .of y79 (.of (setQp_keeps ..) h81)

theorem pumpAll_keeps (s n) : Keeps s (pumpAll s n) := by
  unfold pumpAll
  exact (pump_keeps ..)

theorem sendMsg_keeps (s n q m) : Keeps s (sendMsg s n q m) := by
  unfold sendMsg
  exact (.of (pumpAll_keeps ..) (setQp_keeps ..))

theorem sendThread_keeps (s n q t op opc place off len aux data) : Keeps s (sendThread s n q t op opc place off len aux data) := by
  unfold sendThread
  exact (sendMsg_keeps ..)

/-! ## Units -/

theorem setCompSt_keeps (s n st) : Keeps s (setCompSt s n st) := by
  unfold setCompSt
  exact (.same ⟨rfl, rfl, rfl, rfl, rfl⟩)

theorem allocSubs_keeps (s vi num counts a4) : Keeps s (allocSubs s vi num counts a4).1 := by
  fun_induction allocSubs s vi num counts a4
  · exact (.pair (.refl _))
  · exact (.pair (.refl _))
  · rename_i s7 _ _ _ _ s12 e13 s14 _ e16 y17
    have h18 : Keeps s7 s12 := KeepsN.elim e13 (allocBar_keeps ..)
    have h19 : Keeps s7 s14 := by
      refine Keeps.fst e16 ?_
      exact .of y17 h18
    exact h19

theorem acceptLaunch_keeps (s vi d sq seq) : Keeps s (acceptLaunch s vi d sq seq) := by
  unfold acceptLaunch
  extract_lets +onlyGivenNames x1
  extract_lets +onlyGivenNames x2
  split
  · exact (.refl _)
  · rename_i s5 e6
    have h7 : Keeps s s5 := KeepsN.elim e6 (allocBar_keeps ..)
    split
    · rename_i s9 _ e11
      have h12 : Keeps s s9 := by
        refine Keeps.fst e11 ?_
        split
        · exact (.of (allocSubs_keeps ..) h7)
        · exact h7
      extract_lets +onlyGivenNames x13
      extract_lets +onlyGivenNames x14
      have h15 : Keeps s x14 := (h12.trans (.same ⟨rfl, rfl, rfl, rfl, rfl⟩))
      clear_value x14
      refine .ite (.of (setCompSt_keeps ..) h15) ?_
      exact h15

theorem submitThread_keeps (s vi d) : Keeps s (submitThread s vi d).1 := by
  unfold submitThread
  split
  · exact (.pair (.refl _))
  · extract_lets +onlyGivenNames x1
    split
    · exact (.pair (.refl _))
    · extract_lets +onlyGivenNames x2
      extract_lets +onlyGivenNames x3
      have h4 : Keeps s x3 := (.of (acceptLaunch_keeps ..) (wakeDim_keeps ..))
      clear_value x3
      exact (.pair (.of (modInst_keeps ..) h4))

theorem dropLaunch_keeps (s l) : Keeps s (dropLaunch s l) := by
  unfold dropLaunch
  extract_lets x1 x2 x3 x4 x5 x6 x7 x8
  have h1 : Keeps s x1 := freeBar_keeps ..
  have h2 : Keeps s x2 := .of (Keeps.foldl (fun _ _ => freeBar_keeps ..)) h1
  have h4 : Keeps s x4 := .of (Keeps.foldl (fun _ _ => spillFree_keeps ..)) h2
  have h6 : Keeps s x6 := by
    refine .of (Keeps.foldl (fun _ _ => ?_)) h4
    split
    · exact spillFree_keeps ..
    · exact .refl _
  have h7 : Keeps s x7 := h6.dropFstore _ ⟨rfl, rfl, rfl, rfl⟩
  split
  · exact .of (setCompSt_keeps ..) h7
  · exact h7

theorem launchRecord_keeps (s l status bytes detail dcode) : Keeps s (launchRecord s l status bytes detail dcode) := by
  unfold launchRecord
  extract_lets +onlyGivenNames x1
  have h2 : Keeps s x1 := by
    unfold x1
    split
    · exact (sqUntake_keeps ..)
    · exact (.refl _)
  clear_value x1
  exact (.of (complete_keeps ..) h2)

theorem checkLaunchDone_keeps (s num) : Keeps s (checkLaunchDone s num) := by
  unfold checkLaunchDone
  split
  · exact (.refl _)
  · refine .ite ?_ ?_
    · split
      · exact (.of (dropLaunch_keeps ..) (launchRecord_keeps ..))
    · exact (.refl _)

theorem launchThreadEnded_keeps (s num index status) : Keeps s (launchThreadEnded s num index status) := by
  unfold launchThreadEnded
  extract_lets +onlyGivenNames x1
  have h2 : Keeps s x1 := (modLaunch_keeps ..)
  clear_value x1
  exact (.of (checkLaunchDone_keeps ..) h2)

theorem roundTake_keeps (s eng work vi) : KeepsM s (roundTake s eng work vi) := by
  unfold roundTake
  extract_lets +onlyGivenNames x1
  extract_lets +onlyGivenNames x2
  extract_lets +onlyGivenNames x3
  refine .ite .none ?_
  exact .some (.same ⟨rfl, rfl, rfl, rfl, rfl⟩)

theorem freezeRounds_keeps (s vi) : Keeps s (freezeRounds s vi) := by
  unfold freezeRounds
  exact (.same ⟨rfl, rfl, rfl, rfl, rfl⟩)

theorem autoReset_keeps (s vi f) : Keeps s (autoReset s vi f) := by
  unfold autoReset
  refine .ite (.same ⟨rfl, rfl, rfl, rfl, rfl⟩) ?_
  exact (.refl _)

theorem startAt_keeps (s l ud member pos idx a6) : Keeps s (startAt s l ud member pos idx a6) := by
  fun_induction startAt s l ud member pos idx a6
  · exact (.refl _)
  · rename_i s3 _ _ _ _ s8 s9 y10
    have h11 : Keeps s3 s8 := (putThr_keeps ..)
    have h12 : Keeps s3 s9 := (.of (facetEvent_keeps ..) h11)
    exact .of y10 h12

theorem startAll_keeps (s l a2 a3 a4) : Keeps s (startAll s l a2 a3 a4) := by
  fun_induction startAll s l a2 a3 a4
  · exact (.refl _)
  · rename_i s4 _ _ _ _ _ _ s11 y12
    have h13 : Keeps s4 s11 := by
      unfold s11
      refine .ite (.of (startAt_keeps ..) (autoReset_keeps ..)) ?_
      exact (.refl _)
    exact .of y12 h13

theorem fitSubs_keeps (s vi num counts a4 a5) : Keeps s (fitSubs s vi num counts a4 a5).1 := by
  fun_induction fitSubs s vi num counts a4 a5
  · refine .pair ?_
    refine Keeps.foldl (fun s3 y4 => ?_)
    exact (freeBar_keeps ..)
  · exact (allocSubs_keeps ..)
  · rename_i s8 _ _ _ _ _ s14 _ e16 y17
    have h18 : Keeps s8 s14 := by
      refine Keeps.fst e16 ?_
      exact .of y17 (setSyn_keeps ..)
    exact h18

theorem startLaunch_keeps (s l) : Keeps s (startLaunch s l) := by
  unfold startLaunch
  extract_lets +onlyGivenNames x1
  extract_lets +onlyGivenNames x2
  split
  · rename_i s4 _ e6
    have h7 : Keeps s s4 := by
      refine Keeps.fst e6 ?_
      split
      · exact (fitSubs_keeps ..)
      · exact (.pair (.refl _))
    extract_lets +onlyGivenNames x8
    have h9 : Keeps s x8 := (.of (modLaunch_keeps ..) h7)
    clear_value x8
    extract_lets +onlyGivenNames x10
    have h11 : Keeps s x10 := by
      unfold x10
      refine .ite (.of (setCompSt_keeps ..) h9) ?_
      exact h9
    clear_value x10
    exact (.of (startAll_keeps ..) h11)

theorem admitLaunch_keeps (s num) : Keeps s (admitLaunch s num) := by
  unfold admitLaunch
  split
  · exact (.refl _)
  · refine .ite ?_ ?_
    · split
      · rename_i s2 e3
        have h4 : Keeps s s2 := KeepsM.elim e3 (roundTake_keeps ..)
        exact (.of (startLaunch_keeps ..) h4)
      · exact (.refl _)
    · exact (.refl _)

/-! ## Threads -/

theorem readAt_keeps (s vi a n status ext) : Keeps s (readAt s vi a n status ext).1 := by
  unfold readAt
  split
  · exact (.pair (.refl _))
  · exact (.pair (.refl _))
  · refine .pair ?_
    refine .ite (modInst_keeps ..) ?_
    exact (.refl _)
  · split
    · rename_i s2 _ _ e5
      have h6 : Keeps s s2 := .fst e5 (devRead_keeps ..)
      exact h6

theorem readSpan_keeps (s vi a n status ext) : Keeps s (readSpan s vi a n status ext).1 := by
  unfold readSpan
  refine .of (Keeps.foldlP (fun p1 y2 => ?_)) (.pair (.refl _))
  split
  · rename_i s4 _ _ e7
    have h8 : Keeps p1.1 s4 := .fst e7 (readAt_keeps ..)
    exact h8

theorem readLanes_keeps (s vi w status a4 a5 a6) : Keeps s (readLanes s vi w status a4 a5 a6).1 := by
  fun_induction readLanes s vi w status a4 a5 a6
  · exact (.pair (.refl _))
  · rename_i s4 _ _ _ _ _ s10 _ _ e13 _ y15
    have h16 : Keeps s4 s10 := .fst e13 (readAt_keeps ..)
    exact .of y15 h16

theorem writeLanes_keeps (s vi t o a4) : Keeps s (writeLanes s vi t o a4) := by
  fun_induction writeLanes s vi t o a4
  · exact (.refl _)
  · rename_i s2 _ _ _ s6 y7
    have h8 : Keeps s2 s6 := by
      unfold s6
      split
      · exact (engWrite_keeps ..)
      · refine .ite (hostWrite_keeps ..) ?_
        exact (hostPut_keeps ..)
      · exact (.refl _)
    exact .of y7 h8

theorem performAct_keeps (s t th op status ext) : Keeps s (performAct s t th op status ext).1 := by
  unfold performAct
  split
  · split
    · rename_i s2 _ _ e5
      have h6 : Keeps s s2 := .fst e5 (readAt_keeps ..)
      extract_lets +onlyGivenNames x7
      exact h6
  · exact (readLanes_keeps ..)
  · split
    · exact (.pair (.refl _))
    · extract_lets +onlyGivenNames x8
      have h9 : Keeps s x8 := (writeLanes_keeps ..)
      clear_value x8
      extract_lets +onlyGivenNames x10
      exact h9
  · split
    · extract_lets +onlyGivenNames x11
      split
      · rename_i s13 e14
        have h15 : Keeps s s13 := .fst e14 (partAct_keeps ..)
        exact h15
      · rename_i s17 _ _ e20
        have h21 : Keeps s s17 := .fst e20 (partAct_keeps ..)
        exact h21
    · exact (.pair (.refl _))
    · exact (.pair (.refl _))
  · split
    · rename_i s23 _ _ e26
      have h27 : Keeps s s23 := .fst e26 (readSpan_keeps ..)
      exact h27
  · split
    · rename_i s29 _ _ e32
      have h33 : Keeps s s29 := .fst e32 (readSpan_keeps ..)
      split
      · have h36 : Keeps s s29 := .fst e32 (readSpan_keeps ..)
        exact h36
      · have h38 : Keeps s s29 := .fst e32 (readSpan_keeps ..)
        split
        · rename_i s40 _ e42
          have h43 : Keeps s s40 := .fst e42 (.of (accUse_keeps ..) h38)
          exact (.pair (.of (accPut_keeps ..) h43))
  · split
    · rename_i s45 _ _ e48
      have h49 : Keeps s s45 := .fst e48 (readAt_keeps ..)
      split
      · have h52 : Keeps s s45 := .fst e48 (readAt_keeps ..)
        exact h52
      · have h54 : Keeps s s45 := .fst e48 (readAt_keeps ..)
        split
        · rename_i s56 _ _ e59
          have h60 : Keeps s s56 := .fst e59 (.of (submitThread_keeps ..) h54)
          exact h60
  iterate 7 exact (.pair (.refl _))

theorem drainOne_keeps (s t o) : Keeps s (drainOne s t o) := by
  unfold drainOne
  split
  · exact (.refl _)
  · refine .ite (.refl _) ?_
    refine .ite ?_ ?_
    · extract_lets +onlyGivenNames x1
      exact (putThr_keeps ..)
    · split
      · rename_i s3 _ e5
        have h6 : Keeps s s3 := .fst e5 (performAct_keeps ..)
        exact (.of (putThr_keeps ..) h6)

theorem drainMem_keeps (s t) : Keeps s (drainMem s t) := by
  unfold drainMem
  split
  · exact (.refl _)
  · refine Keeps.foldl (fun s1 y2 => ?_)
    exact (drainOne_keeps ..)

theorem endThread_keeps (s t th status) : Keeps s (endThread s t th status) := by
  unfold endThread
  exact (putThr_keeps ..)

theorem withdrawSync_keeps (s t op) : Keeps s (withdrawSync s t op) := by
  unfold withdrawSync
  split
  · exact (.of (opDone_keeps ..) (withdrawOp_keeps ..))
  · exact (withdrawOp_keeps ..)

theorem withdrawSyncs_keeps (s t) : Keeps s (withdrawSyncs s t) := by
  unfold withdrawSyncs
  split
  · exact (.refl _)
  · extract_lets +onlyGivenNames x1
    have h2 : Keeps s x1 := by
      unfold x1
      refine Keeps.foldl (fun s3 y4 => ?_)
      exact (withdrawSync_keeps ..)
    clear_value x1
    exact (.of (modInst_keeps ..) h2)

theorem quiesce_keeps (s t) : Keeps s (quiesce s t).1 := by
  unfold quiesce
  extract_lets +onlyGivenNames x1
  have h2 : Keeps s x1 := (.of (withdrawSyncs_keeps ..) (drainMem_keeps ..))
  clear_value x1
  split
  · exact h2
  · extract_lets +onlyGivenNames x3
    extract_lets +onlyGivenNames x4
    extract_lets +onlyGivenNames x5
    extract_lets +onlyGivenNames x6
    exact h2

theorem takeTrap_keeps (s t th cause tval atWait) : Keeps s (takeTrap s t th cause tval atWait) := by
  unfold takeTrap
  extract_lets +onlyGivenNames x1
  extract_lets +onlyGivenNames x2
  have h3 : Keeps s x2 := (countEv_keeps ..)
  clear_value x2
  extract_lets +onlyGivenNames x4
  have h5 : Keeps s x4 := (.of (facetEvent_keeps ..) h3)
  clear_value x4
  extract_lets +onlyGivenNames x6
  have h7 : Keeps s x6 := (.of (putThr_keeps ..) h5)
  clear_value x6
  refine .ite (.of (putThr_keeps ..) h7) ?_
  refine .ite ?_ ?_
  · split
    · rename_i s9 _ e11
      have h12 : Keeps s s9 := .fst e11 (.of (quiesce_keeps ..) h7)
      split
      · have h14 : Keeps s s9 := .fst e11 (.of (quiesce_keeps ..) h7)
        exact h14
      · have h17 : Keeps s s9 := .fst e11 (.of (quiesce_keeps ..) h7)
        extract_lets +onlyGivenNames x18
        extract_lets +onlyGivenNames x19
        extract_lets +onlyGivenNames x20
        split
        · exact (.of (endThread_keeps ..) h17)
        · extract_lets +onlyGivenNames x21
          have h22 : Keeps s x21 := (.of (spillTake_keeps ..) h17)
          clear_value x21
          extract_lets +onlyGivenNames x23
          have h24 : Keeps s x23 := (.of (spillWrite_keeps ..) h22)
          clear_value x23
          extract_lets +onlyGivenNames x25
          have h26 : Keeps s x25 := (.of (putThr_keeps ..) h24)
          clear_value x25
          exact (.of (postEvent_keeps ..) h26)
  · exact (.of (endThread_keeps ..) h7)

theorem stepTrap_keeps (s t on) : Keeps s (stepTrap s t on) := by
  unfold stepTrap
  split
  · refine .ite (takeTrap_keeps ..) ?_
    exact (.refl _)
  · exact (.refl _)

theorem finishWait_keeps (s t th a b) : Keeps s (finishWait s t th a b) := by
  unfold finishWait
  extract_lets +onlyGivenNames x1
  refine .ite ?_ ?_
  · extract_lets +onlyGivenNames x2
    have h3 : Keeps s x2 := (.of (drainMem_keeps ..) (putThr_keeps ..))
    clear_value x2
    split
    · exact h3
    · extract_lets +onlyGivenNames x4
      exact (.of (takeTrap_keeps ..) h3)
  · extract_lets +onlyGivenNames x5
    extract_lets +onlyGivenNames x6
    extract_lets +onlyGivenNames x7
    exact (.of (stepTrap_keeps ..) (.of (putThr_keeps ..) (nextFree_keeps ..)))

theorem settle_keeps (s) : Keeps s (settle s) := by
  unfold settle
  refine Keeps.foldl (fun s1 y2 => ?_)
  split
  · split
    · refine .ite (finishWait_keeps ..) ?_
      exact (.refl _)
    · exact (.refl _)
  · exact (.refl _)

theorem countIssue_keeps (s f vi major) : Keeps s (countIssue s f vi major) := by
  unfold countIssue
  extract_lets +onlyGivenNames x1
  have h2 : Keeps s x1 := (.of (countEv_keeps ..) (countEv_keeps ..))
  clear_value x1
  refine .ite (.of (addTally_keeps ..) h2) ?_
  exact h2

theorem takeTurn_keeps (s t vi) : KeepsM s (takeTurn s t vi) := by
  unfold takeTurn
  split
  · exact .some (.refl _)
  · exact .some (.refl _)
  · split
    · exact .none
    · refine .ite ?_ ?_
      · exact .some (.same ⟨rfl, rfl, rfl, rfl, rfl⟩)
      · exact .none

theorem fetchFault_keeps (s th) : Keeps s (fetchFault s th).1 := by
  unfold fetchFault
  split
  · extract_lets +onlyGivenNames x1
    have h2 : Keeps s x1 := (touchBlocks_keeps ..)
    clear_value x1
    exact h2
  · exact (.pair (.refl _))

theorem issueNow_keeps (t c wf priv word body s th s1) (k : Keeps s s1) (h : ∀ s b1, KeepsE s (body s b1)) :
    Keeps s (issueNow t c wf priv word body s th s1) := by
  unfold issueNow
  have h2 : Keeps s (fetchFault s1 th).1 := .of (fetchFault_keeps ..) k
  generalize fetchFault s1 th = p at h2 ⊢
  obtain ⟨s2, ff⟩ := p
  dsimp only at h2 ⊢
  split
  · exact .of (settle_keeps ..) (.of (takeTrap_keeps ..) h2)
  · refine .ite (.of (settle_keeps ..) (.of (takeTrap_keeps ..) h2)) (.ite (.of (settle_keeps ..) (.of (takeTrap_keeps ..) h2)) ?_)
    split
    · exact .refl _
    · exact .of (settle_keeps ..) (.of (takeTrap_keeps ..) h2)
    · exact .of (endThread_keeps ..) (.of (countIssue_keeps ..) h2)
    · have h3 : Keeps s (countIssue s2 t.facet th.vi c.major) := .of (countIssue_keeps ..) h2
      exact .ite (.of (settle_keeps ..) (.of (finishWait_keeps ..) h3)) (.of (putThr_keeps ..) h3)
    · rename_i e
      have h3 := KeepsE.elim e (.of (h ..) h2)
      split
      · exact .of (settle_keeps ..) (.of (takeTrap_keeps ..) (.of (putThr_keeps ..) (.of (nextFree_keeps ..) (.of (countIssue_keeps ..) h3))))
      · exact .of (settle_keeps ..) (.of (stepTrap_keeps ..) (.of (putThr_keeps ..) (.of (nextFree_keeps ..) (.of (countIssue_keeps ..) h3))))

theorem issue_keeps (t c wf priv word body s) (h : ∀ s b1, KeepsE s (body s b1)) : KeepsO s (issue t c wf priv word body s) := by
  unfold issue
  split
  · exact .next (.refl _)
  · refine .ite (.next (.refl _)) ?_
    split
    · exact .next (nextFree_keeps ..)
    · rename_i e
      exact .next (issueNow_keeps _ _ _ _ _ _ _ _ _ ((takeTurn_keeps ..).get _ e) h)

theorem justWr_keeps (s th ws) : KeepsE s (justWr s th ws) := by
  unfold justWr
  exact .ok (.refl _)

end Sys2Proof.Machine
end

