-- ==== Sys2Proof/Laws/KeepsThreads.lean ====
section
/-! SUPPORT. Lemmas of the relation `Keeps`: thread instructions. One lemma a function; each says what the function keeps. -/

namespace Sys2Proof.Machine

/-! ## Vector -/

theorem vector_keeps (t wf word et n body s) (h : ∀ s b1, KeepsE s (body s b1)) : KeepsO s (vector t wf word et n body s) := by
  unfold vector
  refine (issue_keeps (h := fun s1 y2 => ?_) ..)
  exact (.of (h ..) (countEv_keeps ..))

theorem flagged_keeps (s t th flags ws) : KeepsE s (flagged s t th flags ws) := by
  unfold flagged
  split
  · exact .trap
  · split
    · exact .trap
    · have c (s : State) (f : Word) (i : Nat) : Keeps s (if flags &&& f != 0 then countEv s t.facet th.vi i 1 else s) := by
        split
        · exact countEv_keeps ..
        · exact .refl _
      exact .of (justWr_keeps ..) (.of (c ..) (.of (c ..) (.of (c ..) (c ..))))

theorem laneWrite_keeps (s t th lat et vd mk l) : KeepsE s (laneWrite s t th lat et vd mk l) := by
  unfold laneWrite
  extract_lets +onlyGivenNames x1
  extract_lets +onlyGivenNames x2
  exact (flagged_keeps ..)

theorem vec2_keeps (t major fn lat ok f g s) : KeepsO s (vec2 t major fn lat ok f g s) := by
  unfold vec2
  refine (vector_keeps (h := fun s1 y2 => ?_) ..)
  exact (laneWrite_keeps ..)

theorem vec1_keeps (t major fn lat ok f g s) : KeepsO s (vec1 t major fn lat ok f g s) := by
  unfold vec1
  refine (vector_keeps (h := fun s1 y2 => ?_) ..)
  exact (laneWrite_keeps ..)

theorem execVaddI_keeps (t sub f s) : KeepsO s (execVaddI t sub f s) := by
  unfold execVaddI
  exact (vec2_keeps ..)

theorem execVadds_keeps (t sub f s) : KeepsO s (execVadds t sub f s) := by
  unfold execVadds
  exact (vec2_keeps ..)

theorem execVminI_keeps (t k f s) : KeepsO s (execVminI t k f s) := by
  unfold execVminI
  exact (vec2_keeps ..)

theorem execVlogic_keeps (t k f s) : KeepsO s (execVlogic t k f s) := by
  unfold execVlogic
  exact (vec2_keeps ..)

theorem execVshift_keeps (t k f s) : KeepsO s (execVshift t k f s) := by
  unfold execVshift
  exact (vec2_keeps ..)

theorem execVnegI_keeps (t f s) : KeepsO s (execVnegI t f s) := by
  unfold execVnegI
  exact (vec1_keeps ..)

theorem execVcmp_keeps (t k et md va vb km s) : KeepsO s (execVcmp t k et md va vb km s) := by
  unfold execVcmp
  extract_lets +onlyGivenNames x1
  refine (vector_keeps (h := fun s2 y3 => ?_) ..)
  extract_lets +onlyGivenNames x4
  extract_lets +onlyGivenNames x5
  extract_lets +onlyGivenNames x6
  extract_lets +onlyGivenNames x7
  extract_lets +onlyGivenNames x8
  exact (flagged_keeps ..)

theorem execVsel_keeps (t et vd va vb km s) : KeepsO s (execVsel t et vd va vb km s) := by
  unfold execVsel
  refine (vector_keeps (h := fun s1 y2 => ?_) ..)
  extract_lets +onlyGivenNames x3
  extract_lets +onlyGivenNames x4
  extract_lets +onlyGivenNames x5
  extract_lets +onlyGivenNames x6
  exact (justWr_keeps ..)

theorem execVmov_keeps (t f s) : KeepsO s (execVmov t f s) := by
  unfold execVmov
  exact (vec1_keeps ..)

theorem execVbcast_keeps (t et vd g km s) : KeepsO s (execVbcast t et vd g km s) := by
  unfold execVbcast
  refine (vector_keeps (h := fun s1 y2 => ?_) ..)
  extract_lets +onlyGivenNames x3
  exact (laneWrite_keeps ..)

theorem execVperm_keeps (t et vd va vb km s) : KeepsO s (execVperm t et vd va vb km s) := by
  unfold execVperm
  refine (vector_keeps (h := fun s1 y2 => ?_) ..)
  extract_lets +onlyGivenNames x3
  extract_lets +onlyGivenNames x4
  extract_lets +onlyGivenNames x5
  exact (laneWrite_keeps ..)

theorem execVins_keeps (t et vd g x km s) : KeepsO s (execVins t et vd g x km s) := by
  unfold execVins
  refine (vector_keeps (h := fun s1 y2 => ?_) ..)
  extract_lets +onlyGivenNames x3
  extract_lets +onlyGivenNames x4
  extract_lets +onlyGivenNames x5
  exact (justWr_keeps ..)

theorem execVext_keeps (t et g va x s) : KeepsO s (execVext t et g va x s) := by
  unfold execVext
  refine (vector_keeps (h := fun s1 y2 => ?_) ..)
  exact (justWr_keeps ..)

theorem execVaddF_keeps (t k f s) : KeepsO s (execVaddF t k f s) := by
  unfold execVaddF
  exact (vec2_keeps ..)

theorem execVfma_keeps (t f vc s) : KeepsO s (execVfma t f vc s) := by
  unfold execVfma
  refine (vector_keeps (h := fun s1 y2 => ?_) ..)
  extract_lets +onlyGivenNames x3
  extract_lets +onlyGivenNames x4
  extract_lets +onlyGivenNames x5
  exact (laneWrite_keeps ..)

theorem execVminF_keeps (t max f s) : KeepsO s (execVminF t max f s) := by
  unfold execVminF
  exact (vec2_keeps ..)

theorem execVnegF_keeps (t abs f s) : KeepsO s (execVnegF t abs f s) := by
  unfold execVnegF
  exact (vec1_keeps ..)

theorem execVmac_keeps (t f s) : KeepsO s (execVmac t f s) := by
  unfold execVmac
  split
  · refine (vector_keeps (h := fun s1 y2 => ?_) ..)
    extract_lets +onlyGivenNames x3
    extract_lets +onlyGivenNames x4
    extract_lets +onlyGivenNames x5
    extract_lets +onlyGivenNames x6
    extract_lets +onlyGivenNames x7
    extract_lets +onlyGivenNames x8
    exact (flagged_keeps ..)

theorem execVmulI_keeps (t f s) : KeepsO s (execVmulI t f s) := by
  unfold execVmulI
  exact (vec2_keeps ..)

theorem convert_keeps (s t th f uns) : KeepsE s (convert s t th f uns) := by
  unfold convert
  split
  · extract_lets +onlyGivenNames x1
    extract_lets +onlyGivenNames x2
    extract_lets +onlyGivenNames x3
    extract_lets +onlyGivenNames x4
    extract_lets +onlyGivenNames x5
    refine .ite ?_ ?_
    · extract_lets +onlyGivenNames x6
      extract_lets +onlyGivenNames x7
      extract_lets +onlyGivenNames x8
      extract_lets +onlyGivenNames x9
      extract_lets +onlyGivenNames x10
      exact (flagged_keeps ..)
    · extract_lets +onlyGivenNames x11
      extract_lets +onlyGivenNames x12
      extract_lets +onlyGivenNames x13
      exact (flagged_keeps ..)

theorem execVcvt_keeps (t f s) : KeepsO s (execVcvt t f s) := by
  unfold execVcvt
  refine (vector_keeps (h := fun s1 y2 => ?_) ..)
  exact (convert_keeps ..)

theorem execVcvtu_keeps (t f s) : KeepsO s (execVcvtu t f s) := by
  unfold execVcvtu
  refine (vector_keeps (h := fun s1 y2 => ?_) ..)
  exact (convert_keeps ..)

theorem execVredAdd_keeps (t et g va km s) : KeepsO s (execVredAdd t et g va km s) := by
  unfold execVredAdd
  refine (vector_keeps (h := fun s1 y2 => ?_) ..)
  extract_lets +onlyGivenNames x3
  extract_lets +onlyGivenNames x4
  extract_lets +onlyGivenNames x5
  refine .ite ?_ ?_
  · extract_lets +onlyGivenNames x6
    exact (justWr_keeps ..)
  · split
    · exact (flagged_keeps ..)

theorem execVredMinmax_keeps (t k et g va km s) : KeepsO s (execVredMinmax t k et g va km s) := by
  unfold execVredMinmax
  refine (vector_keeps (h := fun s1 y2 => ?_) ..)
  extract_lets +onlyGivenNames x3
  extract_lets +onlyGivenNames x4
  extract_lets +onlyGivenNames x5
  extract_lets +onlyGivenNames x6
  extract_lets +onlyGivenNames x7
  extract_lets +onlyGivenNames x8
  exact (justWr_keeps ..)

theorem execMaskLogic_keeps (t k md a b s) : KeepsO s (execMaskLogic t k md a b s) := by
  unfold execMaskLogic
  refine (issue_keeps (h := fun s1 y2 => ?_) ..)
  extract_lets +onlyGivenNames x3
  extract_lets +onlyGivenNames x4
  exact (justWr_keeps ..)

theorem execMset_keeps (t md x g s) : KeepsO s (execMset t md x g s) := by
  unfold execMset
  refine (issue_keeps (h := fun s1 y2 => ?_) ..)
  exact (justWr_keeps ..)

theorem execMpop_keeps (t et g a s) : KeepsO s (execMpop t et g a s) := by
  unfold execMpop
  refine (issue_keeps (h := fun s1 y2 => ?_) ..)
  extract_lets +onlyGivenNames x3
  exact (justWr_keeps ..)

/-! ## MemInstr -/

theorem fsMem_wf (s : State) (t th) (h : ∀ p ∈ s.fstore, Memory.wf p.2 = true) : Memory.wf (fsMem s t th) = true := by
  unfold fsMem tget
  cases e : tget? s.fstore (accKey (accLaunch th) t.facet) with
  | none => rfl
  | some m => exact h _ (tget?_mem e)

theorem fsPut_keeps (s t th a d) : Keeps s (fsPut s t th a d) := by
  refine ⟨rfl, id, fun h p hp => ?_, le_refl _, BitVec.and_self⟩
  rcases mem_tset hp with rfl | hp
  · exact Memory.puts_wf _ _ _ (fsMem_wf s t th h)
  · exact h p hp

theorem sendRuns_keeps (s t vi op opc aux a6) : Keeps s (sendRuns s t vi op opc aux a6).1 := by
  fun_induction sendRuns s t vi op opc aux a6
  · exact (.pair (.refl _))
  · rename_i y9
    exact y9
  · rename_i y20
    exact y20
  · rename_i s21 _ _ _ _ _ _ _ _ _ _ _ s33 _ e35 y36
    have h37 : Keeps s21 s33 := by
      refine Keeps.fst e35 ?_
      exact .of y36 (sendThread_keeps ..)
    exact h37

theorem sendRemote_keeps (s t th o) : Keeps s (sendRemote s t th o).1 := by
  unfold sendRemote
  split
  · split
    · exact (.pair (.refl _))
    · split
      · exact (.pair (.refl _))
      · split
        · rename_i s2 _ e4
          have h5 : Keeps s s2 := .fst e4 (sendRuns_keeps ..)
          exact h5

theorem remoteDone_keeps (s t op place d fault) : Keeps s (remoteDone s t op place d fault) := by
  unfold remoteDone
  split
  · exact (.refl _)
  · split
    · exact (.refl _)
    · extract_lets +onlyGivenNames x1
      refine .ite (putThr_keeps ..) ?_
      split
      · exact (putThr_keeps ..)
      · refine .ite (putThr_keeps ..) ?_
        split
        · rename_i s3 _ e5
          have h6 : Keeps s s3 := .fst e5 (performAct_keeps ..)
          exact (.of (putThr_keeps ..) h6)

theorem countTarget_keeps (s t vi base a n k) : Keeps s (countTarget s t vi base a n k) := by
  unfold countTarget
  split
  · exact (countEv_keeps ..)
  · exact (.refl _)

theorem startLoad_keeps (s t th act dest a n k) : KeepsE s (startLoad s t th act dest a n k) := by
  unfold startLoad
  split
  · rename_i s2 _ e4
    have h5 : Keeps s s2 := .fst e4 (.of (sendRemote_keeps ..) (countTarget_keeps ..))
    exact .ok h5

theorem startStore_keeps (s t th act a n k) : KeepsE s (startStore s t th act a n k) := by
  unfold startStore
  split
  · rename_i s2 _ e4
    have h5 : Keeps s s2 := .fst e4 (.of (sendRemote_keeps ..) (countTarget_keeps ..))
    exact .ok h5

theorem memLoad_keeps (t wf word body s) (h : ∀ s b1, KeepsE s (body s b1)) : KeepsO s (memLoad t wf word body s) := by
  unfold memLoad
  refine (issue_keeps (h := fun s1 y2 => ?_) ..)
  exact (h ..)

theorem memStore_keeps (t wf word body s) (h : ∀ s b1, KeepsE s (body s b1)) : KeepsO s (memStore t wf word body s) := by
  unfold memStore
  refine (issue_keeps (h := fun s1 y2 => ?_) ..)
  exact (h ..)

theorem memFs_keeps (t word body s) (h : ∀ s b1, KeepsE s (body s b1)) : KeepsO s (memFs t word body s) := by
  unfold memFs
  refine (issue_keeps (h := fun s1 y2 => ?_) ..)
  exact (.of (h ..) (countStore_keeps ..))

theorem execLd_keeps (t fw d a imm s) : KeepsO s (execLd t fw d a imm s) := by
  unfold execLd
  refine (memLoad_keeps (h := fun s1 y2 => ?_) ..)
  extract_lets +onlyGivenNames x3
  refine .ite ?_ ?_
  · exact .trap
  · exact (startLoad_keeps ..)

theorem execSt_keeps (t fw d a imm s) : KeepsO s (execSt t fw d a imm s) := by
  unfold execSt
  refine (memStore_keeps (h := fun s1 y2 => ?_) ..)
  extract_lets +onlyGivenNames x3
  refine .ite ?_ ?_
  · exact .trap
  · exact (startStore_keeps ..)

theorem execVld_keeps (t f s) : KeepsO s (execVld t f s) := by
  unfold execVld
  refine (memLoad_keeps (h := fun s1 y2 => ?_) ..)
  extract_lets +onlyGivenNames x3
  extract_lets +onlyGivenNames x4
  refine .ite ?_ ?_
  · exact .trap
  · exact (startLoad_keeps ..)

theorem execVst_keeps (t f s) : KeepsO s (execVst t f s) := by
  unfold execVst
  refine (memStore_keeps (h := fun s1 y2 => ?_) ..)
  extract_lets +onlyGivenNames x3
  extract_lets +onlyGivenNames x4
  extract_lets +onlyGivenNames x5
  refine .ite ?_ ?_
  · exact .trap
  · exact (startStore_keeps ..)

theorem execVldx_keeps (t f s) : KeepsO s (execVldx t f s) := by
  unfold execVldx
  refine (memLoad_keeps (h := fun s1 y2 => ?_) ..)
  extract_lets +onlyGivenNames x3
  extract_lets +onlyGivenNames x4
  split
  · exact .trap
  · exact (startLoad_keeps ..)

theorem execVstx_keeps (t f s) : KeepsO s (execVstx t f s) := by
  unfold execVstx
  refine (memStore_keeps (h := fun s1 y2 => ?_) ..)
  extract_lets +onlyGivenNames x3
  extract_lets +onlyGivenNames x4
  extract_lets +onlyGivenNames x5
  split
  · exact .trap
  · exact (startStore_keeps ..)

theorem execLds_keeps (t fw d a imm s) : KeepsO s (execLds t fw d a imm s) := by
  unfold execLds
  refine (memFs_keeps (h := fun s1 y2 => ?_) ..)
  extract_lets +onlyGivenNames x3
  refine .ite ?_ ?_
  · exact .trap
  · refine .ite ?_ ?_
    · exact .trap
    · extract_lets +onlyGivenNames x4
      exact (justWr_keeps ..)

theorem execSts_keeps (t fw d a imm s) : KeepsO s (execSts t fw d a imm s) := by
  unfold execSts
  refine (memFs_keeps (h := fun s1 y2 => ?_) ..)
  extract_lets +onlyGivenNames x3
  refine .ite ?_ ?_
  · exact .trap
  · refine .ite ?_ ?_
    · exact .trap
    · exact (.of (justWr_keeps ..) (fsPut_keeps ..))

theorem execVlds_keeps (t f s) : KeepsO s (execVlds t f s) := by
  unfold execVlds
  refine (memFs_keeps (h := fun s1 y2 => ?_) ..)
  extract_lets +onlyGivenNames x3
  extract_lets +onlyGivenNames x4
  extract_lets +onlyGivenNames x5
  refine .ite ?_ ?_
  · exact .trap
  · split
    · exact .trap
    · extract_lets +onlyGivenNames x6
      exact (justWr_keeps ..)

theorem execVsts_keeps (t f s) : KeepsO s (execVsts t f s) := by
  unfold execVsts
  refine (memFs_keeps (h := fun s1 y2 => ?_) ..)
  extract_lets +onlyGivenNames x3
  extract_lets +onlyGivenNames x4
  extract_lets +onlyGivenNames x5
  extract_lets +onlyGivenNames x6
  refine .ite ?_ ?_
  · exact .trap
  · split
    · exact .trap
    · refine .of (justWr_keeps ..) ?_
      refine Keeps.foldl (fun s7 y8 => ?_)
      exact (fsPut_keeps ..)

theorem execAmo_keeps (t op dbl n d a b c s) : KeepsO s (execAmo t op dbl n d a b c s) := by
  unfold execAmo
  extract_lets +onlyGivenNames x1
  extract_lets +onlyGivenNames x2
  refine (issue_keeps (h := fun s3 y4 => ?_) ..)
  extract_lets +onlyGivenNames x5
  extract_lets +onlyGivenNames x6
  refine .ite ?_ ?_
  · exact .trap
  · refine .ite (startStore_keeps ..) ?_
    exact (startLoad_keeps ..)

theorem execRspush_keeps (t a imm s) : KeepsO s (execRspush t a imm s) := by
  unfold execRspush
  refine (memStore_keeps (h := fun s1 y2 => ?_) ..)
  extract_lets +onlyGivenNames x3
  refine .ite ?_ ?_
  · exact .trap
  · extract_lets +onlyGivenNames x4
    exact (startStore_keeps ..)

theorem execRspop_keeps (t a imm s) : KeepsO s (execRspop t a imm s) := by
  unfold execRspop
  refine (memLoad_keeps (h := fun s1 y2 => ?_) ..)
  extract_lets +onlyGivenNames x3
  refine .ite ?_ ?_
  · exact .trap
  · exact (startLoad_keeps ..)

/-! ## Accumulator -/

theorem accInstr_keeps (t wf word body s) (h : ∀ s b1, KeepsE s (body s b1)) : KeepsO s (accInstr t wf word body s) := by
  unfold accInstr
  refine (issue_keeps (h := fun s1 y2 => ?_) ..)
  exact (h ..)

theorem accUpdate_keeps (s t th ea f) : Keeps s (accUpdate s t th ea f) := by
  unfold accUpdate
  split
  · rename_i s2 _ e4
    have h5 : Keeps s s2 := .fst e4 (accUse_keeps ..)
    exact (.of (accPut_keeps ..) h5)

theorem accRead_keeps (s t th ea) : Keeps s (accRead s t th ea).1 := by
  unfold accRead
  split
  · rename_i s2 _ e4
    have h5 : Keeps s s2 := .fst e4 (accUse_keeps ..)
    exact h5

theorem execEaadd_keeps (t et ea va km s) : KeepsO s (execEaadd t et ea va km s) := by
  unfold execEaadd
  refine (accInstr_keeps (h := fun s1 y2 => ?_) ..)
  extract_lets +onlyGivenNames x3
  extract_lets +onlyGivenNames x4
  extract_lets +onlyGivenNames x5
  have h6 : Keeps s1 x5 := (countEv_keeps ..)
  clear_value x5
  exact (.of (justWr_keeps ..) (.of (accUpdate_keeps ..) h6))

theorem execEamac_keeps (t et ea va vb km s) : KeepsO s (execEamac t et ea va vb km s) := by
  unfold execEamac
  refine (accInstr_keeps (h := fun s1 y2 => ?_) ..)
  extract_lets +onlyGivenNames x3
  extract_lets +onlyGivenNames x4
  extract_lets +onlyGivenNames x5
  extract_lets +onlyGivenNames x6
  extract_lets +onlyGivenNames x7
  have h8 : Keeps s1 x7 := (countEv_keeps ..)
  clear_value x7
  exact (.of (justWr_keeps ..) (.of (accUpdate_keeps ..) h8))

theorem execEaclr_keeps (t ea s) : KeepsO s (execEaclr t ea s) := by
  unfold execEaclr
  refine (accInstr_keeps (h := fun s1 y2 => ?_) ..)
  refine .ite ?_ ?_
  · exact .hold
  · exact (.of (justWr_keeps ..) (accUpdate_keeps ..))

theorem execEaround_keeps (t et g ea s) : KeepsO s (execEaround t et g ea s) := by
  unfold execEaround
  refine (accInstr_keeps (h := fun s1 y2 => ?_) ..)
  refine .ite ?_ ?_
  · exact .hold
  · split
    · rename_i s4 _ e6
      have h7 : Keeps s1 s4 := .fst e6 (accRead_keeps ..)
      split
      · exact (.of (flagged_keeps ..) h7)

theorem execEainfo_keeps (t g ea s) : KeepsO s (execEainfo t g ea s) := by
  unfold execEainfo
  refine (accInstr_keeps (h := fun s1 y2 => ?_) ..)
  refine .ite ?_ ?_
  · exact .hold
  · split
    · rename_i s4 _ e6
      have h7 : Keeps s1 s4 := .fst e6 (accRead_keeps ..)
      exact (.of (justWr_keeps ..) h7)

theorem execEamerge_keeps (t ea g s) : KeepsO s (execEamerge t ea g s) := by
  unfold execEamerge
  refine (issue_keeps (h := fun s1 y2 => ?_) ..)
  extract_lets +onlyGivenNames x3
  refine .ite ?_ ?_
  · exact .trap
  · exact (startLoad_keeps ..)

theorem execEasave_keeps (t g ea s) : KeepsO s (execEasave t g ea s) := by
  unfold execEasave
  refine (issue_keeps (h := fun s1 y2 => ?_) ..)
  extract_lets +onlyGivenNames x3
  refine .ite ?_ ?_
  · exact .trap
  · refine .ite ?_ ?_
    · exact .hold
    · split
      · rename_i s5 _ e7
        have h8 : Keeps s1 s5 := .fst e7 (accRead_keeps ..)
        exact (.of (startStore_keeps ..) h8)

/-! ## SystemInstr -/

theorem sysInstr_keeps (t c wf priv word body s) (h : ∀ s b1, KeepsE s (body s b1)) : KeepsO s (sysInstr t c wf priv word body s) := by
  unfold sysInstr
  refine (issue_keeps (h := fun s1 y2 => ?_) ..)
  exact (h ..)

theorem execMfs_keeps (t d sreg s) : KeepsO s (execMfs t d sreg s) := by
  unfold execMfs
  refine (sysInstr_keeps (h := fun s1 y2 => ?_) ..)
  exact (justWr_keeps ..)

theorem execMts_keeps (t sreg a s) : KeepsO s (execMts t sreg a s) := by
  unfold execMts
  refine (sysInstr_keeps (h := fun s1 y2 => ?_) ..)
  exact (justWr_keeps ..)

theorem execBrk_keeps (t imm s) : KeepsO s (execBrk t imm s) := by
  unfold execBrk
  refine (sysInstr_keeps (h := fun s1 y2 => ?_) ..)
  exact .ok (.refl _)

theorem execHcall_keeps (t imm s) : KeepsO s (execHcall t imm s) := by
  unfold execHcall
  refine (sysInstr_keeps (h := fun s1 y2 => ?_) ..)
  exact .ok (.refl _)

theorem execNop_keeps (t s) : KeepsO s (execNop t s) := by
  unfold execNop
  refine (sysInstr_keeps (h := fun s1 y2 => ?_) ..)
  exact (justWr_keeps ..)

theorem execLaunch_keeps (t d a s) : KeepsO s (execLaunch t d a s) := by
  unfold execLaunch
  refine (sysInstr_keeps (h := fun s1 y2 => ?_) ..)
  extract_lets +onlyGivenNames x3
  refine .ite ?_ ?_
  · exact .trap
  · exact (startLoad_keeps ..)

theorem execTresume_keeps (t a s) : KeepsO s (execTresume t a s) := by
  unfold execTresume
  refine (sysInstr_keeps (h := fun s1 y2 => ?_) ..)
  extract_lets +onlyGivenNames x3
  refine .ite ?_ ?_
  · exact .trap
  · exact .ok (.refl _)

theorem execTendOther_keeps (t a d s) : KeepsO s (execTendOther t a d s) := by
  unfold execTendOther
  refine (sysInstr_keeps (h := fun s1 y2 => ?_) ..)
  exact .ok (.refl _)

theorem execEvwait_keeps (t d s) : KeepsO s (execEvwait t d s) := by
  unfold execEvwait
  extract_lets +onlyGivenNames x1
  refine (sysInstr_keeps (h := fun s2 y3 => ?_) ..)
  refine .ite ?_ ?_
  · exact .hold
  · extract_lets +onlyGivenNames x4
    have h5 : Keeps s2 x4 := by
      unfold x4
      split
      · exact (retireEvent_keeps ..)
      · exact (.refl _)
    clear_value x4
    extract_lets +onlyGivenNames x6
    have h7 : Keeps s2 x6 := (.of (modInst_keeps ..) h5)
    clear_value x6
    exact .ok h7

theorem execSysrd_keeps (t d a s) : KeepsO s (execSysrd t d a s) := by
  unfold execSysrd
  refine (sysInstr_keeps (h := fun s1 y2 => ?_) ..)
  exact .ok (.refl _)

theorem execSyswr_keeps (t a d s) : KeepsO s (execSyswr t a d s) := by
  unfold execSyswr
  refine (sysInstr_keeps (h := fun s1 y2 => ?_) ..)
  exact .ok (.refl _)

theorem execEvpost_keeps (t a d s) : KeepsO s (execEvpost t a d s) := by
  unfold execEvpost
  refine (sysInstr_keeps (h := fun s1 y2 => ?_) ..)
  exact .ok (.refl _)

theorem execIllegalEncoding_keeps (t word s) : KeepsO s (execIllegalEncoding t word s) := by
  unfold execIllegalEncoding
  refine (sysInstr_keeps (h := fun s1 y2 => ?_) ..)
  exact (justWr_keeps ..)

/-! ## ThreadEvents -/

theorem mergeSet_keeps (s w f) : Keeps s (mergeSet s w f) := by
  unfold mergeSet
  split
  · rename_i s2 _ e4
    have h5 : Keeps s s2 := .fst e4 (setLoad_keeps ..)
    split
    · rename_i s7 _ e9
      have h10 : Keeps s s7 := .fst e9 (.of (accUse_keeps ..) h5)
      extract_lets +onlyGivenNames x11
      have h12 : Keeps s x11 := (.of (accPut_keeps ..) h10)
      clear_value x11
      exact (h12.trans (.same ⟨rfl, rfl, rfl, rfl, rfl⟩))

theorem mergeWaiting_keeps (s launch) : Keeps s (mergeWaiting s launch) := by
  unfold mergeWaiting
  refine Keeps.foldl (fun s1 y2 => ?_)
  split
  · exact (mergeSet_keeps ..)
  · exact (.refl _)

theorem delFstore_keeps {r s t : State} (k : Nat) (h : Keeps r s)
    (e : t.pending = s.pending ∧ t.mem = s.mem ∧ t.fstore = tdel s.fstore k ∧ t.sec = s.sec) : Keeps r t :=
  h.trans ⟨e.1, fun x => e.2.1 ▸ x, fun x q hq => x q (by rw [e.2.2.1] at hq; exact mem_tdel hq), by rw [e.2.2.2],
    by rw [e.2.2.2, BitVec.and_self]⟩

theorem leaveFacet_keeps (s num f) : Keeps s (leaveFacet s num f) := by
  unfold leaveFacet
  split
  · exact .refl _
  · split
    · exact .refl _
    · extract_lets x1 x2 x3 x4 x5 x6 x7
      have h2 : Keeps s x2 := writeOut_keeps ..
      have h5 : Keeps s x5 := by
        unfold x5
        split
        · exact h2.trans (.same ⟨rfl, rfl, rfl, rfl, rfl⟩)
        · exact h2
      have h6 : Keeps s x6 := delFstore_keeps x1 h5 ⟨rfl, rfl, rfl, rfl⟩
      exact .of (mergeWaiting_keeps ..) (.of (modLaunch_keeps ..) h6)

theorem beginSave_keeps (s t reason) : Keeps s (beginSave s t reason) := by
  unfold beginSave
  split
  · exact (.refl _)
  · split
    · exact (putThr_keeps ..)
    · exact (putThr_keeps ..)
    · split
      · extract_lets +onlyGivenNames x1
        have h2 : Keeps s x1 := (delThr_keeps ..)
        clear_value x1
        exact (h2.trans (.same ⟨rfl, rfl, rfl, rfl, rfl⟩))
      · exact (.refl _)
    · exact (.refl _)
    · exact (.refl _)

theorem execSaveComplete_keeps (t s) : KeepsO s (execSaveComplete t s) := by
  unfold execSaveComplete
  split
  · exact .next (.refl _)
  · refine .ite (.next (.refl _)) ?_
    split
    · exact .next (.refl _)
    · extract_lets +onlyGivenNames x1
      have h2 : Keeps s x1 := (modInst_keeps ..)
      clear_value x1
      extract_lets +onlyGivenNames x3
      extract_lets +onlyGivenNames x4
      extract_lets +onlyGivenNames x5
      extract_lets +onlyGivenNames x6
      extract_lets +onlyGivenNames x7
      have h8 : Keeps s x7 := (.of (spillTake_keeps ..) h2)
      clear_value x7
      extract_lets +onlyGivenNames x9
      have h10 : Keeps s x9 := (.of (spillWrite_keeps ..) h8)
      clear_value x9
      extract_lets +onlyGivenNames x11
      have h12 : Keeps s x11 := (.of (countEv_keeps ..) h10)
      clear_value x11
      extract_lets +onlyGivenNames x13
      have h14 : Keeps s x13 := (.of (facetEvent_keeps ..) h12)
      clear_value x13
      extract_lets +onlyGivenNames x15
      have h16 : Keeps s x15 := (.of (delThr_keeps ..) h14)
      clear_value x15
      extract_lets +onlyGivenNames x17
      have h18 : Keeps s x17 := (h16.trans (.same ⟨rfl, rfl, rfl, rfl, rfl⟩))
      clear_value x17
      extract_lets +onlyGivenNames x19
      have h20 : Keeps s x19 := by
        unfold x19
        refine .ite (.of (statDone_keeps ..) (.of (rset_keeps ..) h18)) ?_
        exact h18
      clear_value x19
      refine .next ?_
      refine .of (settle_keeps ..) ?_
      refine .ite h20 ?_
      exact (.of (leaveFacet_keeps ..) h20)

theorem replayEv_keeps (s t th) : Keeps s (replayEv s t th).1 := by
  unfold replayEv
  split
  · exact (.pair (.refl _))
  · extract_lets +onlyGivenNames x1
    exact (.pair (modInst_keeps ..))

theorem resumeIn_keeps (s t th rec_) : Keeps s (resumeIn s t th rec_) := by
  unfold resumeIn
  extract_lets +onlyGivenNames x1
  extract_lets +onlyGivenNames x2
  extract_lets +onlyGivenNames x3
  extract_lets +onlyGivenNames x4
  extract_lets +onlyGivenNames x5
  split
  · rename_i s7 _ e9
    have h10 : Keeps s s7 := .fst e9 (replayEv_keeps ..)
    extract_lets +onlyGivenNames x11
    have h12 : Keeps s x11 := by
      unfold x11
      refine .ite (.of (countEv_keeps ..) h10) ?_
      exact h10
    clear_value x11
    extract_lets +onlyGivenNames x13
    have h14 : Keeps s x13 := (.of (facetEvent_keeps ..) h12)
    clear_value x13
    exact (.of (putThr_keeps ..) h14)

theorem placeSaved_keeps (s x f) : Keeps s (placeSaved s x f) := by
  unfold placeSaved
  extract_lets +onlyGivenNames x1
  extract_lets +onlyGivenNames x2
  have h3 : Keeps s x2 := (.same ⟨rfl, rfl, rfl, rfl, rfl⟩)
  clear_value x2
  split
  · rename_i s5 _ e7
    have h8 : Keeps s s5 := by
      refine Keeps.fst e7 ?_
      split
      · exact h3
      · split
        · rename_i s10 _ _ e13
          have h14 : Keeps s s10 := .fst e13 (.of (spillRead_keeps ..) h3)
          exact h14
    extract_lets +onlyGivenNames x15
    extract_lets +onlyGivenNames x16
    refine .ite (.of (putThr_keeps ..) h8) ?_
    refine .ite (.of (endThread_keeps ..) (.of (spillFree_keeps ..) h8)) ?_
    exact (.of (resumeIn_keeps ..) (.of (spillFree_keeps ..) h8))

theorem handlerMoved_keeps (s vi f) : Keeps s (handlerMoved s vi f) := by
  unfold handlerMoved
  extract_lets +onlyGivenNames x1
  have h2 : Keeps s x1 := (rset_keeps ..)
  clear_value x1
  exact (.of (modInst_keeps ..) h2)

theorem resumeSaved_keeps (s x) : Keeps s (resumeSaved s x) := by
  unfold resumeSaved
  extract_lets +onlyGivenNames x1
  refine .ite (.refl _) ?_
  refine .ite ?_ ?_
  · split
    · exact (modInst_keeps ..)
    · exact (.of (settle_keeps ..) (.of (handlerMoved_keeps ..) (placeSaved_keeps ..)))
  · extract_lets +onlyGivenNames x2
    split
    · exact (.refl _)
    · refine .ite (.refl _) ?_
      split
      · exact (.refl _)
      · extract_lets +onlyGivenNames x3
        have h4 : Keeps s x3 := (modLaunch_keeps ..)
        clear_value x3
        exact (.of (settle_keeps ..) (.of (mergeWaiting_keeps ..) (.of (placeSaved_keeps ..) h4)))

theorem execThreadResume_keeps (w s) : KeepsO s (execThreadResume w s) := by
  unfold execThreadResume
  split
  · exact .next (.refl _)
  · exact .next (resumeSaved_keeps ..)

theorem emptySlot_keeps (s t th) : Keeps s (emptySlot s t th) := by
  unfold emptySlot
  extract_lets +onlyGivenNames x1
  have h2 : Keeps s x1 := by
    unfold x1
    split
    · exact (retireEvent_keeps ..)
    · exact (.refl _)
  clear_value x1
  extract_lets +onlyGivenNames x3
  have h4 : Keeps s x3 := (.of (modInst_keeps ..) h2)
  clear_value x3
  extract_lets +onlyGivenNames x5
  have h6 : Keeps s x5 := by
    unfold x5
    refine .ite (.of (abandonLocks_keeps ..) h4) ?_
    exact (.of (abandonLocks_keeps ..) h4)
  clear_value x5
  extract_lets +onlyGivenNames x7
  have h8 : Keeps s x7 := (.of (facetEvent_keeps ..) h6)
  clear_value x7
  extract_lets +onlyGivenNames x9
  have h10 : Keeps s x9 := (.of (delThr_keeps ..) h8)
  clear_value x9
  refine .ite h10 ?_
  exact (.of (launchThreadEnded_keeps ..) h10)

theorem execThreadDrained_keeps (e s) : KeepsO s (execThreadDrained e s) := by
  unfold execThreadDrained
  split
  · split
    · exact .next (.refl _)
    · refine .ite (.next (.of (settle_keeps ..) (emptySlot_keeps ..))) ?_
      exact .next (.refl _)
  · split
    · refine .ite ?_ ?_
      · extract_lets +onlyGivenNames x1
        have h2 : Keeps s x1 := (modLaunch_keeps ..)
        clear_value x1
        exact .next (.of (settle_keeps ..) (.of (launchThreadEnded_keeps ..) h2))
      · exact .next (.refl _)
    · exact .next (.refl _)

theorem dropRecord_keeps (s th) : Keeps s (dropRecord s th) := by
  unfold dropRecord
  split
  · exact (spillFree_keeps ..)
  · exact (.refl _)

theorem endTrapped_keeps (s t th status) : Keeps s (endTrapped s t th status) := by
  unfold endTrapped
  exact (.of (endThread_keeps ..) (dropRecord_keeps ..))

theorem endSaved_keeps (s x status) : Keeps s (endSaved s x status) := by
  unfold endSaved
  extract_lets +onlyGivenNames x1
  have h2 : Keeps s x1 := (.of (spillFree_keeps ..) (.same ⟨rfl, rfl, rfl, rfl, rfl⟩))
  clear_value x1
  extract_lets +onlyGivenNames x3
  have h4 : Keeps s x3 := by
    unfold x3
    split
    · exact (.of (retireEvent_keeps ..) h2)
    · exact h2
  clear_value x3
  extract_lets +onlyGivenNames x5
  have h6 : Keeps s x5 := by
    unfold x5
    refine .ite (.of (abandonLocks_keeps ..) h4) ?_
    exact (.of (abandonLocks_keeps ..) h4)
  clear_value x5
  refine .ite h6 ?_
  exact (.of (launchThreadEnded_keeps ..) h6)

theorem endAllTrapped_keeps (s vi) : Keeps s (endAllTrapped s vi) := by
  unfold endAllTrapped
  extract_lets +onlyGivenNames x1
  have h2 : Keeps s x1 := by
    unfold x1
    refine Keeps.foldl (fun s3 y4 => ?_)
    split
    · exact (endTrapped_keeps ..)
    · exact (.refl _)
  clear_value x1
  refine .of (Keeps.foldl (fun s5 y6 => ?_)) h2
  exact (endSaved_keeps ..)

theorem endHandlers_keeps (s vi) : Keeps s (endHandlers s vi) := by
  unfold endHandlers
  extract_lets +onlyGivenNames x1
  have h2 : Keeps s x1 := by
    unfold x1
    refine Keeps.foldl (fun s3 y4 => ?_)
    extract_lets +onlyGivenNames x5
    extract_lets +onlyGivenNames x6
    have h7 : Keeps s3 x6 := (withdrawSyncs_keeps ..)
    clear_value x6
    split
    · extract_lets +onlyGivenNames x8
      exact (.of (endThread_keeps ..) h7)
    · exact h7
  clear_value x1
  extract_lets +onlyGivenNames x9
  refine .of (Keeps.foldl (fun s10 y11 => ?_)) h2
  exact (endSaved_keeps ..)

theorem execHandlerModeTrap_keeps (vi s) : KeepsO s (execHandlerModeTrap vi s) := by
  unfold execHandlerModeTrap
  split
  · exact .next (.refl _)
  · refine .ite (.next (.refl _)) ?_
    extract_lets +onlyGivenNames x1
    have h2 : Keeps s x1 := (endHandlers_keeps ..)
    clear_value x1
    extract_lets +onlyGivenNames x3
    have h4 : Keeps s x3 := (.of (modInst_keeps ..) h2)
    clear_value x3
    exact .next (.of (settle_keeps ..) (.of (endAllTrapped_keeps ..) h4))

theorem execLaunchAdmit_keeps (num s) : KeepsO s (execLaunchAdmit num s) := by
  unfold execLaunchAdmit
  exact .next (admitLaunch_keeps ..)

/-! ## Control -/

theorem control_keeps (t wf word body s) (h : ∀ s b1, KeepsE s (body s b1)) : KeepsO s (control t wf word body s) := by
  unfold control
  refine (issue_keeps (h := fun s1 y2 => ?_) ..)
  exact (h ..)

theorem jump_keeps (s th a call ws) : KeepsE s (jump s th a call ws) := by
  unfold jump
  refine .ite ?_ ?_
  · exact .trap
  · exact .ok (.refl _)

theorem callTo_keeps (s th a) : KeepsE s (callTo s th a) := by
  unfold callTo
  refine .ite ?_ ?_
  · exact .trap
  · split
    · exact .trap
    · exact .ok (.refl _)

theorem execB_keeps (t imm s) : KeepsO s (execB t imm s) := by
  unfold execB
  refine (control_keeps (h := fun s1 y2 => ?_) ..)
  exact (jump_keeps ..)

theorem execCall_keeps (t imm s) : KeepsO s (execCall t imm s) := by
  unfold execCall
  refine (control_keeps (h := fun s1 y2 => ?_) ..)
  exact (callTo_keeps ..)

theorem execBcc_keeps (t c a d imm s) : KeepsO s (execBcc t c a d imm s) := by
  unfold execBcc
  refine (control_keeps (h := fun s1 y2 => ?_) ..)
  refine .ite (jump_keeps ..) ?_
  exact (justWr_keeps ..)

theorem execBr_keeps (t a s) : KeepsO s (execBr t a s) := by
  unfold execBr
  refine (control_keeps (h := fun s1 y2 => ?_) ..)
  exact (jump_keeps ..)

theorem execCallr_keeps (t a s) : KeepsO s (execCallr t a s) := by
  unfold execCallr
  refine (control_keeps (h := fun s1 y2 => ?_) ..)
  exact (callTo_keeps ..)

theorem execRet_keeps (t s) : KeepsO s (execRet t s) := by
  unfold execRet
  refine (control_keeps (h := fun s1 y2 => ?_) ..)
  refine .ite ?_ ?_
  · exact .trap
  · extract_lets +onlyGivenNames x3
    refine .ite ?_ ?_
    · exact .trap
    · split
      · exact .trap
      · exact .ok (.refl _)

theorem execWait_keeps (t a b s) : KeepsO s (execWait t a b s) := by
  unfold execWait
  refine (control_keeps (h := fun s1 y2 => ?_) ..)
  exact .waits

theorem execBrep_keeps (t a len s) : KeepsO s (execBrep t a len s) := by
  unfold execBrep
  refine (control_keeps (h := fun s1 y2 => ?_) ..)
  extract_lets +onlyGivenNames x3
  refine .ite ?_ ?_
  · exact .trap
  · refine .ite ?_ ?_
    · exact .ok (.refl _)
    · exact .ok (.refl _)

theorem execTend_keeps (t s) : KeepsO s (execTend t s) := by
  unfold execTend
  refine (control_keeps (h := fun s1 y2 => ?_) ..)
  exact .ends

/-! ## Scalar -/

theorem scalar_keeps (t word body s) (h : ∀ s b1, KeepsE s (body s b1)) : KeepsO s (scalar t word body s) := by
  unfold scalar
  refine (issue_keeps (h := fun s1 y2 => ?_) ..)
  exact (h ..)

theorem withV_keeps (s th lat d v ovf) : KeepsE s (withV s th lat d v ovf) := by
  unfold withV
  refine .ite ?_ ?_
  · exact .trap
  · exact (justWr_keeps ..)

theorem execAdd_keeps (t d a b s) : KeepsO s (execAdd t d a b s) := by
  unfold execAdd
  refine (scalar_keeps (h := fun s1 y2 => ?_) ..)
  exact (justWr_keeps ..)

theorem execSub_keeps (t d a b s) : KeepsO s (execSub t d a b s) := by
  unfold execSub
  refine (scalar_keeps (h := fun s1 y2 => ?_) ..)
  exact (justWr_keeps ..)

theorem execAddv_keeps (t d a b s) : KeepsO s (execAddv t d a b s) := by
  unfold execAddv
  refine (scalar_keeps (h := fun s1 y2 => ?_) ..)
  extract_lets +onlyGivenNames x3
  exact (withV_keeps ..)

theorem execSubv_keeps (t d a b s) : KeepsO s (execSubv t d a b s) := by
  unfold execSubv
  refine (scalar_keeps (h := fun s1 y2 => ?_) ..)
  extract_lets +onlyGivenNames x3
  exact (withV_keeps ..)

theorem execAnd_keeps (t d a b s) : KeepsO s (execAnd t d a b s) := by
  unfold execAnd
  refine (scalar_keeps (h := fun s1 y2 => ?_) ..)
  exact (justWr_keeps ..)

theorem execOr_keeps (t d a b s) : KeepsO s (execOr t d a b s) := by
  unfold execOr
  refine (scalar_keeps (h := fun s1 y2 => ?_) ..)
  exact (justWr_keeps ..)

theorem execXor_keeps (t d a b s) : KeepsO s (execXor t d a b s) := by
  unfold execXor
  refine (scalar_keeps (h := fun s1 y2 => ?_) ..)
  exact (justWr_keeps ..)

theorem execAndn_keeps (t d a b s) : KeepsO s (execAndn t d a b s) := by
  unfold execAndn
  refine (scalar_keeps (h := fun s1 y2 => ?_) ..)
  exact (justWr_keeps ..)

theorem execSlt_keeps (t d a b s) : KeepsO s (execSlt t d a b s) := by
  unfold execSlt
  refine (scalar_keeps (h := fun s1 y2 => ?_) ..)
  exact (justWr_keeps ..)

theorem execSltu_keeps (t d a b s) : KeepsO s (execSltu t d a b s) := by
  unfold execSltu
  refine (scalar_keeps (h := fun s1 y2 => ?_) ..)
  exact (justWr_keeps ..)

theorem execSeq_keeps (t d a b s) : KeepsO s (execSeq t d a b s) := by
  unfold execSeq
  refine (scalar_keeps (h := fun s1 y2 => ?_) ..)
  exact (justWr_keeps ..)

theorem execMin_keeps (t d a b s) : KeepsO s (execMin t d a b s) := by
  unfold execMin
  refine (scalar_keeps (h := fun s1 y2 => ?_) ..)
  extract_lets +onlyGivenNames x3
  extract_lets +onlyGivenNames x4
  exact (justWr_keeps ..)

theorem execMinu_keeps (t d a b s) : KeepsO s (execMinu t d a b s) := by
  unfold execMinu
  refine (scalar_keeps (h := fun s1 y2 => ?_) ..)
  extract_lets +onlyGivenNames x3
  extract_lets +onlyGivenNames x4
  exact (justWr_keeps ..)

theorem execMax_keeps (t d a b s) : KeepsO s (execMax t d a b s) := by
  unfold execMax
  refine (scalar_keeps (h := fun s1 y2 => ?_) ..)
  extract_lets +onlyGivenNames x3
  extract_lets +onlyGivenNames x4
  exact (justWr_keeps ..)

theorem execMaxu_keeps (t d a b s) : KeepsO s (execMaxu t d a b s) := by
  unfold execMaxu
  refine (scalar_keeps (h := fun s1 y2 => ?_) ..)
  extract_lets +onlyGivenNames x3
  extract_lets +onlyGivenNames x4
  exact (justWr_keeps ..)

theorem execShl_keeps (t d a b s) : KeepsO s (execShl t d a b s) := by
  unfold execShl
  refine (scalar_keeps (h := fun s1 y2 => ?_) ..)
  exact (justWr_keeps ..)

theorem execShr_keeps (t d a b s) : KeepsO s (execShr t d a b s) := by
  unfold execShr
  refine (scalar_keeps (h := fun s1 y2 => ?_) ..)
  exact (justWr_keeps ..)

theorem execSra_keeps (t d a b s) : KeepsO s (execSra t d a b s) := by
  unfold execSra
  refine (scalar_keeps (h := fun s1 y2 => ?_) ..)
  exact (justWr_keeps ..)

theorem execRol_keeps (t d a b s) : KeepsO s (execRol t d a b s) := by
  unfold execRol
  refine (scalar_keeps (h := fun s1 y2 => ?_) ..)
  exact (justWr_keeps ..)

theorem execRor_keeps (t d a b s) : KeepsO s (execRor t d a b s) := by
  unfold execRor
  refine (scalar_keeps (h := fun s1 y2 => ?_) ..)
  exact (justWr_keeps ..)

theorem execMov_keeps (t d src s) : KeepsO s (execMov t d src s) := by
  unfold execMov
  refine (scalar_keeps (h := fun s1 y2 => ?_) ..)
  exact (justWr_keeps ..)

theorem execNeg_keeps (t d a s) : KeepsO s (execNeg t d a s) := by
  unfold execNeg
  refine (scalar_keeps (h := fun s1 y2 => ?_) ..)
  exact (withV_keeps ..)

theorem execNegs_keeps (t d a s) : KeepsO s (execNegs t d a s) := by
  unfold execNegs
  refine (scalar_keeps (h := fun s1 y2 => ?_) ..)
  exact (withV_keeps ..)

theorem execSext_keeps (t fw d a s) : KeepsO s (execSext t fw d a s) := by
  unfold execSext
  refine (scalar_keeps (h := fun s1 y2 => ?_) ..)
  exact (justWr_keeps ..)

theorem execZextW_keeps (t d a s) : KeepsO s (execZextW t d a s) := by
  unfold execZextW
  refine (scalar_keeps (h := fun s1 y2 => ?_) ..)
  exact (justWr_keeps ..)

theorem execMovhi_keeps (t d a imm s) : KeepsO s (execMovhi t d a imm s) := by
  unfold execMovhi
  refine (scalar_keeps (h := fun s1 y2 => ?_) ..)
  exact (justWr_keeps ..)

theorem execMul_keeps (t d a b s) : KeepsO s (execMul t d a b s) := by
  unfold execMul
  refine (scalar_keeps (h := fun s1 y2 => ?_) ..)
  exact (justWr_keeps ..)

theorem execMulv_keeps (t d a b s) : KeepsO s (execMulv t d a b s) := by
  unfold execMulv
  refine (scalar_keeps (h := fun s1 y2 => ?_) ..)
  extract_lets +onlyGivenNames x3
  exact (withV_keeps ..)

theorem execMulh_keeps (t d a b s) : KeepsO s (execMulh t d a b s) := by
  unfold execMulh
  refine (scalar_keeps (h := fun s1 y2 => ?_) ..)
  exact (justWr_keeps ..)

theorem execMulhu_keeps (t d a b s) : KeepsO s (execMulhu t d a b s) := by
  unfold execMulhu
  refine (scalar_keeps (h := fun s1 y2 => ?_) ..)
  exact (justWr_keeps ..)

theorem byZero_keeps (s th d dividend v) : KeepsE s (byZero s th d dividend v) := by
  unfold byZero
  refine .ite ?_ ?_
  · exact .trap
  · exact (justWr_keeps ..)

theorem execDiv_keeps (t d a b s) : KeepsO s (execDiv t d a b s) := by
  unfold execDiv
  refine (scalar_keeps (h := fun s1 y2 => ?_) ..)
  extract_lets +onlyGivenNames x3
  extract_lets +onlyGivenNames x4
  refine .ite (byZero_keeps ..) ?_
  exact (withV_keeps ..)

theorem execDivu_keeps (t d a b s) : KeepsO s (execDivu t d a b s) := by
  unfold execDivu
  refine (scalar_keeps (h := fun s1 y2 => ?_) ..)
  extract_lets +onlyGivenNames x3
  extract_lets +onlyGivenNames x4
  refine .ite (byZero_keeps ..) ?_
  exact (justWr_keeps ..)

theorem execRem_keeps (t d a b s) : KeepsO s (execRem t d a b s) := by
  unfold execRem
  refine (scalar_keeps (h := fun s1 y2 => ?_) ..)
  extract_lets +onlyGivenNames x3
  extract_lets +onlyGivenNames x4
  refine .ite (byZero_keeps ..) ?_
  exact (justWr_keeps ..)

theorem execRemu_keeps (t d a b s) : KeepsO s (execRemu t d a b s) := by
  unfold execRemu
  refine (scalar_keeps (h := fun s1 y2 => ?_) ..)
  extract_lets +onlyGivenNames x3
  extract_lets +onlyGivenNames x4
  refine .ite (byZero_keeps ..) ?_
  exact (justWr_keeps ..)

theorem execPopc_keeps (t d a s) : KeepsO s (execPopc t d a s) := by
  unfold execPopc
  refine (scalar_keeps (h := fun s1 y2 => ?_) ..)
  exact (justWr_keeps ..)

theorem execClz_keeps (t d a s) : KeepsO s (execClz t d a s) := by
  unfold execClz
  refine (scalar_keeps (h := fun s1 y2 => ?_) ..)
  exact (justWr_keeps ..)

theorem execCtz_keeps (t d a s) : KeepsO s (execCtz t d a s) := by
  unfold execCtz
  refine (scalar_keeps (h := fun s1 y2 => ?_) ..)
  exact (justWr_keeps ..)

theorem execRngk_keeps (t d a b s) : KeepsO s (execRngk t d a b s) := by
  unfold execRngk
  refine (scalar_keeps (h := fun s1 y2 => ?_) ..)
  exact (justWr_keeps ..)

/-! ## StringInstr -/

theorem stringStep_keeps (t fn wf word body s) (h : ∀ s b1, KeepsE s (body s b1)) : KeepsO s (stringStep t fn wf word body s) := by
  unfold stringStep
  refine (issue_keeps (h := fun s1 y2 => ?_) ..)
  exact (.of (h ..) (.of (countStore_keeps ..) (countEv_keeps ..)))

theorem stepDone_keeps (s th exit ended ws) : KeepsE s (stepDone s th exit ended ws) := by
  unfold stepDone
  extract_lets +onlyGivenNames x1
  exact .ok (.refl _)

theorem execMovs_keeps (t desc exit d sr n s) : KeepsO s (execMovs t desc exit d sr n s) := by
  unfold execMovs
  refine (stringStep_keeps (h := fun s1 y2 => ?_) ..)
  extract_lets +onlyGivenNames x3
  extract_lets +onlyGivenNames x4
  extract_lets +onlyGivenNames x5
  extract_lets +onlyGivenNames x6
  extract_lets +onlyGivenNames x7
  extract_lets +onlyGivenNames x8
  extract_lets +onlyGivenNames x9
  split
  · exact .trap
  · extract_lets +onlyGivenNames x10
    have h11 : Keeps s1 x10 := by
      unfold x10
      refine .ite (.refl _) ?_
      exact (fsPut_keeps ..)
    clear_value x10
    exact (.of (stepDone_keeps ..) h11)

theorem execFills_keeps (t exit d n v s) : KeepsO s (execFills t exit d n v s) := by
  unfold execFills
  refine (stringStep_keeps (h := fun s1 y2 => ?_) ..)
  extract_lets +onlyGivenNames x3
  extract_lets +onlyGivenNames x4
  extract_lets +onlyGivenNames x5
  extract_lets +onlyGivenNames x6
  split
  · exact .trap
  · extract_lets +onlyGivenNames x7
    extract_lets +onlyGivenNames x8
    have h9 : Keeps s1 x8 := by
      unfold x8
      refine .ite (.refl _) ?_
      exact (fsPut_keeps ..)
    clear_value x8
    exact (.of (stepDone_keeps ..) h9)

theorem execCmps_keeps (t exit r a b n s) : KeepsO s (execCmps t exit r a b n s) := by
  unfold execCmps
  refine (stringStep_keeps (h := fun s1 y2 => ?_) ..)
  extract_lets +onlyGivenNames x3
  extract_lets +onlyGivenNames x4
  extract_lets +onlyGivenNames x5
  extract_lets +onlyGivenNames x6
  split
  · exact .trap
  · extract_lets +onlyGivenNames x7
    extract_lets +onlyGivenNames x8
    extract_lets +onlyGivenNames x9
    extract_lets +onlyGivenNames x10
    extract_lets +onlyGivenNames x11
    exact (stepDone_keeps ..)

theorem execScans_keeps (t var exit r p n c s) : KeepsO s (execScans t var exit r p n c s) := by
  unfold execScans
  refine (stringStep_keeps (h := fun s1 y2 => ?_) ..)
  extract_lets +onlyGivenNames x3
  extract_lets +onlyGivenNames x4
  extract_lets +onlyGivenNames x5
  extract_lets +onlyGivenNames x6
  extract_lets +onlyGivenNames x7
  split
  · exact .trap
  · extract_lets +onlyGivenNames x8
    extract_lets +onlyGivenNames x9
    exact (stepDone_keeps ..)

theorem execXlats_keeps (t del exit d sr n tb e s) : KeepsO s (execXlats t del exit d sr n tb e s) := by
  unfold execXlats
  refine (stringStep_keeps (h := fun s1 y2 => ?_) ..)
  extract_lets +onlyGivenNames x3
  extract_lets +onlyGivenNames x4
  extract_lets +onlyGivenNames x5
  extract_lets +onlyGivenNames x6
  extract_lets +onlyGivenNames x7
  split
  · exact .trap
  · extract_lets +onlyGivenNames x8
    extract_lets +onlyGivenNames x9
    extract_lets +onlyGivenNames x10
    split
    · exact .trap
    · extract_lets +onlyGivenNames x11
      have h12 : Keeps s1 x11 := by
        unfold x11
        refine .ite (.refl _) ?_
        exact (fsPut_keeps ..)
      clear_value x11
      exact (.of (stepDone_keeps ..) h12)

theorem execRhash_keeps (t exit h p n k w s) : KeepsO s (execRhash t exit h p n k w s) := by
  unfold execRhash
  refine (stringStep_keeps (h := fun s1 y2 => ?_) ..)
  extract_lets +onlyGivenNames x3
  extract_lets +onlyGivenNames x4
  extract_lets +onlyGivenNames x5
  extract_lets +onlyGivenNames x6
  extract_lets +onlyGivenNames x7
  extract_lets +onlyGivenNames x8
  split
  · exact .trap
  · extract_lets +onlyGivenNames x9
    exact (stepDone_keeps ..)

theorem execDistsB_keeps (t exit d a b c s) : KeepsO s (execDistsB t exit d a b c s) := by
  unfold execDistsB
  refine (stringStep_keeps (h := fun s1 y2 => ?_) ..)
  extract_lets +onlyGivenNames x3
  extract_lets +onlyGivenNames x4
  extract_lets +onlyGivenNames x5
  extract_lets +onlyGivenNames x6
  extract_lets +onlyGivenNames x7
  extract_lets +onlyGivenNames x8
  extract_lets +onlyGivenNames x9
  extract_lets +onlyGivenNames x10
  refine .ite ?_ ?_
  · refine .ite ?_ ?_
    · exact .trap
    · exact (stepDone_keeps ..)
  · extract_lets +onlyGivenNames x11
    extract_lets +onlyGivenNames x12
    split
    · exact .trap
    · refine .ite ?_ ?_
      · exact .trap
      · extract_lets +onlyGivenNames x13
        exact (stepDone_keeps ..)

/-! ## SyncInstr -/

theorem syncIssue_keeps (t wf word idx d handle operand s) : KeepsO s (syncIssue t wf word idx d handle operand s) := by
  unfold syncIssue
  refine (issue_keeps (h := fun s1 y2 => ?_) ..)
  exact .ok (countEv_keeps ..)

theorem execUbar_keeps (t d scope s) : KeepsO s (execUbar t d scope s) := by
  unfold execUbar
  extract_lets +onlyGivenNames x1
  refine (issue_keeps (h := fun s2 y3 => ?_) ..)
  extract_lets +onlyGivenNames x4
  have h5 : Keeps s2 x4 := (countEv_keeps ..)
  clear_value x4
  extract_lets +onlyGivenNames x6
  refine .ite ?_ ?_
  · exact .ok (.of (countEv_keeps ..) h5)
  · exact .ok h5

theorem execSbar_keeps (t d a s) : KeepsO s (execSbar t d a s) := by
  unfold execSbar
  refine (syncIssue_keeps ..)

theorem execSemp_keeps (t d a b s) : KeepsO s (execSemp t d a b s) := by
  unfold execSemp
  refine (syncIssue_keeps ..)

theorem execSemv_keeps (t d a b s) : KeepsO s (execSemv t d a b s) := by
  unfold execSemv
  refine (syncIssue_keeps ..)

theorem execSemt_keeps (t d a b s) : KeepsO s (execSemt t d a b s) := by
  unfold execSemt
  refine (syncIssue_keeps ..)

theorem execEcadd_keeps (t d a b s) : KeepsO s (execEcadd t d a b s) := by
  unfold execEcadd
  refine (syncIssue_keeps ..)

theorem execEcwait_keeps (t d a b s) : KeepsO s (execEcwait t d a b s) := by
  unfold execEcwait
  refine (syncIssue_keeps ..)

theorem execEcread_keeps (t d a s) : KeepsO s (execEcread t d a s) := by
  unfold execEcread
  refine (syncIssue_keeps ..)

theorem execLkacq_keeps (t d a s) : KeepsO s (execLkacq t d a s) := by
  unfold execLkacq
  refine (syncIssue_keeps ..)

theorem execLkrel_keeps (t d a s) : KeepsO s (execLkrel t d a s) := by
  unfold execLkrel
  refine (syncIssue_keeps ..)

theorem execLktry_keeps (t d a s) : KeepsO s (execLktry t d a s) := by
  unfold execLktry
  refine (syncIssue_keeps ..)

end Sys2Proof.Machine
end

