-- ==== Sys2Proof/Laws/State.lean ====
section
/-! SUPPORT. The small lemmas of the state: what a sparse table answers after a change, and what each named update of `State`
leaves alone, one lemma a field. -/

namespace Sys2Proof.Machine

/-! ## Sparse tables -/

@[simp] theorem tget?_tset_self {α : Type} (m : Tab α) (k : Nat) (v : α) : tget? (tset m k v) k = some v := by
  induction m with
  | nil => simp [tset, tget?]
  | cons c r ih =>
    obtain ⟨j, w⟩ := c
    simp only [tset]
    split
    · simp [tget?]
    · split
      · simp [tget?]
      · rename_i _ h
        have : ¬ j = k := fun e => h e.symm
        simp [tget?, this, ih]

theorem tget?_tset_ne {α : Type} (m : Tab α) {k n : Nat} (v : α) (h : n ≠ k) : tget? (tset m k v) n = tget? m n := by
  have hk : ¬ k = n := fun e => h e.symm
  induction m with
  | nil => simp [tset, tget?, hk]
  | cons c r ih =>
    obtain ⟨j, w⟩ := c
    simp only [tset]
    split
    · simp [tget?, hk]
    · split
      · rename_i _ e
        subst e
        simp [tget?, hk]
      · simp only [tget?]
        rw [ih]

theorem tget?_tdel_ne {α : Type} (m : Tab α) {k n : Nat} (h : n ≠ k) : tget? (tdel m k) n = tget? m n := by
  induction m with
  | nil => rfl
  | cons c r ih =>
    obtain ⟨j, w⟩ := c
    simp only [tdel]
    split
    · rename_i e
      have : ¬ j = n := fun e' => h (e'.symm.trans e)
      simp [tget?, this]
    · simp only [tget?]
      rw [ih]

@[simp] theorem tget_tset_self {α : Type} (m : Tab α) (k : Nat) (v d : α) : tget (tset m k v) k d = v := by
  simp [tget]

theorem tget_tset_ne {α : Type} (m : Tab α) {k n : Nat} (v d : α) (h : n ≠ k) : tget (tset m k v) n d = tget m n d := by
  simp [tget, tget?_tset_ne m v h]

theorem tget_tdel_ne {α : Type} (m : Tab α) {k n : Nat} (d : α) (h : n ≠ k) : tget (tdel m k) n d = tget m n d := by
  simp [tget, tget?_tdel_ne m h]

/-! ## Registers, instances, functions, threads -/

@[simp] theorem rget_rset_self (s : State) (k : Nat) (v : Word) : rget (rset s k v) k = v := by
  simp [rget, rset]

theorem rget_rset_ne (s : State) {k n : Nat} (v : Word) (h : n ≠ k) : rget (rset s k v) n = rget s n := by
  simp [rget, rset, tget_tset_ne _ _ _ h]

@[simp] theorem getInst_modInst_self (s : State) (vi : Vi) (f : Inst → Inst) : getInst (modInst s vi f) vi = f (getInst s vi) := by
  simp [getInst, modInst]

theorem getInst_modInst_ne (s : State) {vi w : Vi} (f : Inst → Inst) (h : w ≠ vi) : getInst (modInst s vi f) w = getInst s w := by
  have : w.toNat ≠ vi.toNat := fun e => h (BitVec.eq_of_toNat_eq e)
  simp [getInst, modInst, tget_tset_ne _ _ _ this]

@[simp] theorem getThr_putThr_self (s : State) (t : Tid) (th : Thread) : getThr (putThr s t th) t = some th := by
  simp [getThr, putThr]

theorem Tid.key_inj {t u : Tid} (h : Tid.key t = Tid.key u) : t = u := by
  obtain ⟨f, a⟩ := t
  obtain ⟨g, b⟩ := u
  simp only [Tid.key] at h
  have ha := a.isLt
  have hb := b.isLt
  have e1 : f.toNat = g.toNat := by omega
  have e2 : a.toNat = b.toNat := by omega
  rw [BitVec.eq_of_toNat_eq e1, BitVec.eq_of_toNat_eq e2]

theorem getThr_putThr_ne (s : State) {t u : Tid} (th : Thread) (h : u ≠ t) : getThr (putThr s t th) u = getThr s u := by
  have : Tid.key u ≠ Tid.key t := fun e => h (Tid.key_inj e)
  simp [getThr, putThr, tget?_tset_ne _ _ this]

/-! ## What `rset` leaves alone -/

@[simp] theorem rset_pending (s : State) (k : Nat) (v : Word) : (rset s k v).pending = s.pending := rfl
@[simp] theorem rset_free (s : State) (k : Nat) (v : Word) : (rset s k v).free = s.free := rfl
@[simp] theorem rset_devTime (s : State) (k : Nat) (v : Word) : (rset s k v).devTime = s.devTime := rfl
@[simp] theorem rset_mem (s : State) (k : Nat) (v : Word) : (rset s k v).mem = s.mem := rfl
@[simp] theorem rset_hostMem (s : State) (k : Nat) (v : Word) : (rset s k v).hostMem = s.hostMem := rfl
@[simp] theorem rset_hostHeld (s : State) (k : Nat) (v : Word) : (rset s k v).hostHeld = s.hostHeld := rfl
@[simp] theorem rset_poison (s : State) (k : Nat) (v : Word) : (rset s k v).poison = s.poison := rfl
@[simp] theorem rset_ue (s : State) (k : Nat) (v : Word) : (rset s k v).ue = s.ue := rfl
@[simp] theorem rset_guard (s : State) (k : Nat) (v : Word) : (rset s k v).guard = s.guard := rfl
@[simp] theorem rset_stkUe (s : State) (k : Nat) (v : Word) : (rset s k v).stkUe = s.stkUe := rfl
@[simp] theorem rset_heldW (s : State) (k : Nat) (v : Word) : (rset s k v).heldW = s.heldW := rfl
@[simp] theorem rset_unmaps (s : State) (k : Nat) (v : Word) : (rset s k v).unmaps = s.unmaps := rfl
@[simp] theorem rset_rowSpread (s : State) (k : Nat) (v : Word) : (rset s k v).rowSpread = s.rowSpread := rfl
@[simp] theorem rset_gt (s : State) (k : Nat) (v : Word) : (rset s k v).gt = s.gt := rfl
@[simp] theorem rset_gran (s : State) (k : Nat) (v : Word) : (rset s k v).gran = s.gran := rfl
@[simp] theorem rset_spill (s : State) (k : Nat) (v : Word) : (rset s k v).spill = s.spill := rfl
@[simp] theorem rset_ctxFn (s : State) (k : Nat) (v : Word) : (rset s k v).ctxFn = s.ctxFn := rfl
@[simp] theorem rset_snaps (s : State) (k : Nat) (v : Word) : (rset s k v).snaps = s.snaps := rfl
@[simp] theorem rset_cfg (s : State) (k : Nat) (v : Word) : (rset s k v).cfg = s.cfg := rfl
@[simp] theorem rset_threads (s : State) (k : Nat) (v : Word) : (rset s k v).threads = s.threads := rfl
@[simp] theorem rset_saved (s : State) (k : Nat) (v : Word) : (rset s k v).saved = s.saved := rfl
@[simp] theorem rset_accs (s : State) (k : Nat) (v : Word) : (rset s k v).accs = s.accs := rfl
@[simp] theorem rset_waitSets (s : State) (k : Nat) (v : Word) : (rset s k v).waitSets = s.waitSets := rfl
@[simp] theorem rset_fstore (s : State) (k : Nat) (v : Word) : (rset s k v).fstore = s.fstore := rfl
@[simp] theorem rset_nextLaunch (s : State) (k : Nat) (v : Word) : (rset s k v).nextLaunch = s.nextLaunch := rfl
@[simp] theorem rset_launches (s : State) (k : Nat) (v : Word) : (rset s k v).launches = s.launches := rfl
@[simp] theorem rset_comps (s : State) (k : Nat) (v : Word) : (rset s k v).comps = s.comps := rfl
@[simp] theorem rset_cmpJobs (s : State) (k : Nat) (v : Word) : (rset s k v).cmpJobs = s.cmpJobs := rfl
@[simp] theorem rset_resJobs (s : State) (k : Nat) (v : Word) : (rset s k v).resJobs = s.resJobs := rfl
@[simp] theorem rset_syn (s : State) (k : Nat) (v : Word) : (rset s k v).syn = s.syn := rfl
@[simp] theorem rset_near (s : State) (k : Nat) (v : Word) : (rset s k v).near = s.near := rfl
@[simp] theorem rset_grp (s : State) (k : Nat) (v : Word) : (rset s k v).grp = s.grp := rfl
@[simp] theorem rset_clu (s : State) (k : Nat) (v : Word) : (rset s k v).clu = s.clu := rfl
@[simp] theorem rset_arb (s : State) (k : Nat) (v : Word) : (rset s k v).arb = s.arb := rfl
@[simp] theorem rset_rounds (s : State) (k : Nat) (v : Word) : (rset s k v).rounds = s.rounds := rfl
@[simp] theorem rset_inst (s : State) (k : Nat) (v : Word) : (rset s k v).inst = s.inst := rfl
@[simp] theorem rset_sqs (s : State) (k : Nat) (v : Word) : (rset s k v).sqs = s.sqs := rfl
@[simp] theorem rset_cqs (s : State) (k : Nat) (v : Word) : (rset s k v).cqs = s.cqs := rfl
@[simp] theorem rset_cnts (s : State) (k : Nat) (v : Word) : (rset s k v).cnts = s.cnts := rfl
@[simp] theorem rset_ctxs (s : State) (k : Nat) (v : Word) : (rset s k v).ctxs = s.ctxs := rfl
@[simp] theorem rset_qpGens (s : State) (k : Nat) (v : Word) : (rset s k v).qpGens = s.qpGens := rfl
@[simp] theorem rset_regGens (s : State) (k : Nat) (v : Word) : (rset s k v).regGens = s.regGens := rfl
@[simp] theorem rset_brmIv (s : State) (k : Nat) (v : Word) : (rset s k v).brmIv = s.brmIv := rfl
@[simp] theorem rset_rmaDrop (s : State) (k : Nat) (v : Word) : (rset s k v).rmaDrop = s.rmaDrop := rfl
@[simp] theorem rset_keys (s : State) (k : Nat) (v : Word) : (rset s k v).keys = s.keys := rfl
@[simp] theorem rset_sec (s : State) (k : Nat) (v : Word) : (rset s k v).sec = s.sec := rfl
@[simp] theorem rset_fw (s : State) (k : Nat) (v : Word) : (rset s k v).fw = s.fw := rfl
@[simp] theorem rset_phy (s : State) (k : Nat) (v : Word) : (rset s k v).phy = s.phy := rfl
@[simp] theorem rset_prism (s : State) (k : Nat) (v : Word) : (rset s k v).prism = s.prism := rfl
@[simp] theorem rset_iris (s : State) (k : Nat) (v : Word) : (rset s k v).iris = s.iris := rfl
@[simp] theorem rset_rx (s : State) (k : Nat) (v : Word) : (rset s k v).rx = s.rx := rfl
@[simp] theorem rset_tx (s : State) (k : Nat) (v : Word) : (rset s k v).tx = s.tx := rfl
@[simp] theorem rset_slowQ (s : State) (k : Nat) (v : Word) : (rset s k v).slowQ = s.slowQ := rfl
@[simp] theorem rset_brmIn (s : State) (k : Nat) (v : Word) : (rset s k v).brmIn = s.brmIn := rfl
@[simp] theorem rset_brmOut (s : State) (k : Nat) (v : Word) : (rset s k v).brmOut = s.brmOut := rfl
@[simp] theorem rset_linkOut (s : State) (k : Nat) (v : Word) : (rset s k v).linkOut = s.linkOut := rfl
@[simp] theorem rset_reasm (s : State) (k : Nat) (v : Word) : (rset s k v).reasm = s.reasm := rfl
@[simp] theorem rset_descs (s : State) (k : Nat) (v : Word) : (rset s k v).descs = s.descs := rfl
@[simp] theorem rset_nextDesc (s : State) (k : Nat) (v : Word) : (rset s k v).nextDesc = s.nextDesc := rfl
@[simp] theorem rset_stgWin (s : State) (k : Nat) (v : Word) : (rset s k v).stgWin = s.stgWin := rfl
@[simp] theorem rset_stgs (s : State) (k : Nat) (v : Word) : (rset s k v).stgs = s.stgs := rfl
@[simp] theorem rset_lateTags (s : State) (k : Nat) (v : Word) : (rset s k v).lateTags = s.lateTags := rfl
@[simp] theorem rset_links (s : State) (k : Nat) (v : Word) : (rset s k v).links = s.links := rfl
@[simp] theorem rset_sw (s : State) (k : Nat) (v : Word) : (rset s k v).sw = s.sw := rfl
@[simp] theorem rset_reply (s : State) (k : Nat) (v : Word) : (rset s k v).reply = s.reply := rfl
@[simp] theorem rset_replyPoison (s : State) (k : Nat) (v : Word) : (rset s k v).replyPoison = s.replyPoison := rfl
@[simp] theorem rset_heldHost (s : State) (k : Nat) (v : Word) : (rset s k v).heldHost = s.heldHost := rfl
@[simp] theorem rset_boot (s : State) (k : Nat) (v : Word) : (rset s k v).boot = s.boot := rfl
@[simp] theorem rset_pwr (s : State) (k : Nat) (v : Word) : (rset s k v).pwr = s.pwr := rfl
@[simp] theorem rset_drst (s : State) (k : Nat) (v : Word) : (rset s k v).drst = s.drst := rfl
@[simp] theorem rset_trc (s : State) (k : Nat) (v : Word) : (rset s k v).trc = s.trc := rfl
@[simp] theorem rset_err (s : State) (k : Nat) (v : Word) : (rset s k v).err = s.err := rfl
@[simp] theorem rset_pair (s : State) (k : Nat) (v : Word) : (rset s k v).pair = s.pair := rfl
@[simp] theorem rset_jtag (s : State) (k : Nat) (v : Word) : (rset s k v).jtag = s.jtag := rfl
@[simp] theorem rset_smp (s : State) (k : Nat) (v : Word) : (rset s k v).smp = s.smp := rfl
@[simp] theorem rset_tally (s : State) (k : Nat) (v : Word) : (rset s k v).tally = s.tally := rfl
@[simp] theorem rset_mtr (s : State) (k : Nat) (v : Word) : (rset s k v).mtr = s.mtr := rfl

/-! ## What `nextFree` leaves alone -/

@[simp] theorem nextFree_pending (s : State) : (nextFree s).pending = s.pending := rfl
@[simp] theorem nextFree_devTime (s : State) : (nextFree s).devTime = s.devTime := rfl
@[simp] theorem nextFree_regs (s : State) : (nextFree s).regs = s.regs := rfl
@[simp] theorem nextFree_mem (s : State) : (nextFree s).mem = s.mem := rfl
@[simp] theorem nextFree_hostMem (s : State) : (nextFree s).hostMem = s.hostMem := rfl
@[simp] theorem nextFree_hostHeld (s : State) : (nextFree s).hostHeld = s.hostHeld := rfl
@[simp] theorem nextFree_poison (s : State) : (nextFree s).poison = s.poison := rfl
@[simp] theorem nextFree_ue (s : State) : (nextFree s).ue = s.ue := rfl
@[simp] theorem nextFree_guard (s : State) : (nextFree s).guard = s.guard := rfl
@[simp] theorem nextFree_stkUe (s : State) : (nextFree s).stkUe = s.stkUe := rfl
@[simp] theorem nextFree_heldW (s : State) : (nextFree s).heldW = s.heldW := rfl
@[simp] theorem nextFree_unmaps (s : State) : (nextFree s).unmaps = s.unmaps := rfl
@[simp] theorem nextFree_rowSpread (s : State) : (nextFree s).rowSpread = s.rowSpread := rfl
@[simp] theorem nextFree_gt (s : State) : (nextFree s).gt = s.gt := rfl
@[simp] theorem nextFree_gran (s : State) : (nextFree s).gran = s.gran := rfl
@[simp] theorem nextFree_spill (s : State) : (nextFree s).spill = s.spill := rfl
@[simp] theorem nextFree_ctxFn (s : State) : (nextFree s).ctxFn = s.ctxFn := rfl
@[simp] theorem nextFree_snaps (s : State) : (nextFree s).snaps = s.snaps := rfl
@[simp] theorem nextFree_cfg (s : State) : (nextFree s).cfg = s.cfg := rfl
@[simp] theorem nextFree_threads (s : State) : (nextFree s).threads = s.threads := rfl
@[simp] theorem nextFree_saved (s : State) : (nextFree s).saved = s.saved := rfl
@[simp] theorem nextFree_accs (s : State) : (nextFree s).accs = s.accs := rfl
@[simp] theorem nextFree_waitSets (s : State) : (nextFree s).waitSets = s.waitSets := rfl
@[simp] theorem nextFree_fstore (s : State) : (nextFree s).fstore = s.fstore := rfl
@[simp] theorem nextFree_nextLaunch (s : State) : (nextFree s).nextLaunch = s.nextLaunch := rfl
@[simp] theorem nextFree_launches (s : State) : (nextFree s).launches = s.launches := rfl
@[simp] theorem nextFree_comps (s : State) : (nextFree s).comps = s.comps := rfl
@[simp] theorem nextFree_cmpJobs (s : State) : (nextFree s).cmpJobs = s.cmpJobs := rfl
@[simp] theorem nextFree_resJobs (s : State) : (nextFree s).resJobs = s.resJobs := rfl
@[simp] theorem nextFree_syn (s : State) : (nextFree s).syn = s.syn := rfl
@[simp] theorem nextFree_near (s : State) : (nextFree s).near = s.near := rfl
@[simp] theorem nextFree_grp (s : State) : (nextFree s).grp = s.grp := rfl
@[simp] theorem nextFree_clu (s : State) : (nextFree s).clu = s.clu := rfl
@[simp] theorem nextFree_arb (s : State) : (nextFree s).arb = s.arb := rfl
@[simp] theorem nextFree_rounds (s : State) : (nextFree s).rounds = s.rounds := rfl
@[simp] theorem nextFree_inst (s : State) : (nextFree s).inst = s.inst := rfl
@[simp] theorem nextFree_sqs (s : State) : (nextFree s).sqs = s.sqs := rfl
@[simp] theorem nextFree_cqs (s : State) : (nextFree s).cqs = s.cqs := rfl
@[simp] theorem nextFree_cnts (s : State) : (nextFree s).cnts = s.cnts := rfl
@[simp] theorem nextFree_ctxs (s : State) : (nextFree s).ctxs = s.ctxs := rfl
@[simp] theorem nextFree_qpGens (s : State) : (nextFree s).qpGens = s.qpGens := rfl
@[simp] theorem nextFree_regGens (s : State) : (nextFree s).regGens = s.regGens := rfl
@[simp] theorem nextFree_brmIv (s : State) : (nextFree s).brmIv = s.brmIv := rfl
@[simp] theorem nextFree_rmaDrop (s : State) : (nextFree s).rmaDrop = s.rmaDrop := rfl
@[simp] theorem nextFree_keys (s : State) : (nextFree s).keys = s.keys := rfl
@[simp] theorem nextFree_sec (s : State) : (nextFree s).sec = s.sec := rfl
@[simp] theorem nextFree_fw (s : State) : (nextFree s).fw = s.fw := rfl
@[simp] theorem nextFree_phy (s : State) : (nextFree s).phy = s.phy := rfl
@[simp] theorem nextFree_prism (s : State) : (nextFree s).prism = s.prism := rfl
@[simp] theorem nextFree_iris (s : State) : (nextFree s).iris = s.iris := rfl
@[simp] theorem nextFree_rx (s : State) : (nextFree s).rx = s.rx := rfl
@[simp] theorem nextFree_tx (s : State) : (nextFree s).tx = s.tx := rfl
@[simp] theorem nextFree_slowQ (s : State) : (nextFree s).slowQ = s.slowQ := rfl
@[simp] theorem nextFree_brmIn (s : State) : (nextFree s).brmIn = s.brmIn := rfl
@[simp] theorem nextFree_brmOut (s : State) : (nextFree s).brmOut = s.brmOut := rfl
@[simp] theorem nextFree_linkOut (s : State) : (nextFree s).linkOut = s.linkOut := rfl
@[simp] theorem nextFree_reasm (s : State) : (nextFree s).reasm = s.reasm := rfl
@[simp] theorem nextFree_descs (s : State) : (nextFree s).descs = s.descs := rfl
@[simp] theorem nextFree_nextDesc (s : State) : (nextFree s).nextDesc = s.nextDesc := rfl
@[simp] theorem nextFree_stgWin (s : State) : (nextFree s).stgWin = s.stgWin := rfl
@[simp] theorem nextFree_stgs (s : State) : (nextFree s).stgs = s.stgs := rfl
@[simp] theorem nextFree_lateTags (s : State) : (nextFree s).lateTags = s.lateTags := rfl
@[simp] theorem nextFree_links (s : State) : (nextFree s).links = s.links := rfl
@[simp] theorem nextFree_sw (s : State) : (nextFree s).sw = s.sw := rfl
@[simp] theorem nextFree_reply (s : State) : (nextFree s).reply = s.reply := rfl
@[simp] theorem nextFree_replyPoison (s : State) : (nextFree s).replyPoison = s.replyPoison := rfl
@[simp] theorem nextFree_heldHost (s : State) : (nextFree s).heldHost = s.heldHost := rfl
@[simp] theorem nextFree_boot (s : State) : (nextFree s).boot = s.boot := rfl
@[simp] theorem nextFree_pwr (s : State) : (nextFree s).pwr = s.pwr := rfl
@[simp] theorem nextFree_drst (s : State) : (nextFree s).drst = s.drst := rfl
@[simp] theorem nextFree_trc (s : State) : (nextFree s).trc = s.trc := rfl
@[simp] theorem nextFree_err (s : State) : (nextFree s).err = s.err := rfl
@[simp] theorem nextFree_pair (s : State) : (nextFree s).pair = s.pair := rfl
@[simp] theorem nextFree_jtag (s : State) : (nextFree s).jtag = s.jtag := rfl
@[simp] theorem nextFree_smp (s : State) : (nextFree s).smp = s.smp := rfl
@[simp] theorem nextFree_tally (s : State) : (nextFree s).tally = s.tally := rfl
@[simp] theorem nextFree_mtr (s : State) : (nextFree s).mtr = s.mtr := rfl

/-! ## What `modInst` leaves alone -/

@[simp] theorem modInst_pending (s : State) (vi : Vi) (f : Inst → Inst) : (modInst s vi f).pending = s.pending := rfl
@[simp] theorem modInst_free (s : State) (vi : Vi) (f : Inst → Inst) : (modInst s vi f).free = s.free := rfl
@[simp] theorem modInst_devTime (s : State) (vi : Vi) (f : Inst → Inst) : (modInst s vi f).devTime = s.devTime := rfl
@[simp] theorem modInst_regs (s : State) (vi : Vi) (f : Inst → Inst) : (modInst s vi f).regs = s.regs := rfl
@[simp] theorem modInst_mem (s : State) (vi : Vi) (f : Inst → Inst) : (modInst s vi f).mem = s.mem := rfl
@[simp] theorem modInst_hostMem (s : State) (vi : Vi) (f : Inst → Inst) : (modInst s vi f).hostMem = s.hostMem := rfl
@[simp] theorem modInst_hostHeld (s : State) (vi : Vi) (f : Inst → Inst) : (modInst s vi f).hostHeld = s.hostHeld := rfl
@[simp] theorem modInst_poison (s : State) (vi : Vi) (f : Inst → Inst) : (modInst s vi f).poison = s.poison := rfl
@[simp] theorem modInst_ue (s : State) (vi : Vi) (f : Inst → Inst) : (modInst s vi f).ue = s.ue := rfl
@[simp] theorem modInst_guard (s : State) (vi : Vi) (f : Inst → Inst) : (modInst s vi f).guard = s.guard := rfl
@[simp] theorem modInst_stkUe (s : State) (vi : Vi) (f : Inst → Inst) : (modInst s vi f).stkUe = s.stkUe := rfl
@[simp] theorem modInst_heldW (s : State) (vi : Vi) (f : Inst → Inst) : (modInst s vi f).heldW = s.heldW := rfl
@[simp] theorem modInst_unmaps (s : State) (vi : Vi) (f : Inst → Inst) : (modInst s vi f).unmaps = s.unmaps := rfl
@[simp] theorem modInst_rowSpread (s : State) (vi : Vi) (f : Inst → Inst) : (modInst s vi f).rowSpread = s.rowSpread := rfl
@[simp] theorem modInst_gt (s : State) (vi : Vi) (f : Inst → Inst) : (modInst s vi f).gt = s.gt := rfl
@[simp] theorem modInst_gran (s : State) (vi : Vi) (f : Inst → Inst) : (modInst s vi f).gran = s.gran := rfl
@[simp] theorem modInst_spill (s : State) (vi : Vi) (f : Inst → Inst) : (modInst s vi f).spill = s.spill := rfl
@[simp] theorem modInst_ctxFn (s : State) (vi : Vi) (f : Inst → Inst) : (modInst s vi f).ctxFn = s.ctxFn := rfl
@[simp] theorem modInst_snaps (s : State) (vi : Vi) (f : Inst → Inst) : (modInst s vi f).snaps = s.snaps := rfl
@[simp] theorem modInst_cfg (s : State) (vi : Vi) (f : Inst → Inst) : (modInst s vi f).cfg = s.cfg := rfl
@[simp] theorem modInst_threads (s : State) (vi : Vi) (f : Inst → Inst) : (modInst s vi f).threads = s.threads := rfl
@[simp] theorem modInst_saved (s : State) (vi : Vi) (f : Inst → Inst) : (modInst s vi f).saved = s.saved := rfl
@[simp] theorem modInst_accs (s : State) (vi : Vi) (f : Inst → Inst) : (modInst s vi f).accs = s.accs := rfl
@[simp] theorem modInst_waitSets (s : State) (vi : Vi) (f : Inst → Inst) : (modInst s vi f).waitSets = s.waitSets := rfl
@[simp] theorem modInst_fstore (s : State) (vi : Vi) (f : Inst → Inst) : (modInst s vi f).fstore = s.fstore := rfl
@[simp] theorem modInst_nextLaunch (s : State) (vi : Vi) (f : Inst → Inst) : (modInst s vi f).nextLaunch = s.nextLaunch := rfl
@[simp] theorem modInst_launches (s : State) (vi : Vi) (f : Inst → Inst) : (modInst s vi f).launches = s.launches := rfl
@[simp] theorem modInst_comps (s : State) (vi : Vi) (f : Inst → Inst) : (modInst s vi f).comps = s.comps := rfl
@[simp] theorem modInst_cmpJobs (s : State) (vi : Vi) (f : Inst → Inst) : (modInst s vi f).cmpJobs = s.cmpJobs := rfl
@[simp] theorem modInst_resJobs (s : State) (vi : Vi) (f : Inst → Inst) : (modInst s vi f).resJobs = s.resJobs := rfl
@[simp] theorem modInst_syn (s : State) (vi : Vi) (f : Inst → Inst) : (modInst s vi f).syn = s.syn := rfl
@[simp] theorem modInst_near (s : State) (vi : Vi) (f : Inst → Inst) : (modInst s vi f).near = s.near := rfl
@[simp] theorem modInst_grp (s : State) (vi : Vi) (f : Inst → Inst) : (modInst s vi f).grp = s.grp := rfl
@[simp] theorem modInst_clu (s : State) (vi : Vi) (f : Inst → Inst) : (modInst s vi f).clu = s.clu := rfl
@[simp] theorem modInst_arb (s : State) (vi : Vi) (f : Inst → Inst) : (modInst s vi f).arb = s.arb := rfl
@[simp] theorem modInst_rounds (s : State) (vi : Vi) (f : Inst → Inst) : (modInst s vi f).rounds = s.rounds := rfl
@[simp] theorem modInst_sqs (s : State) (vi : Vi) (f : Inst → Inst) : (modInst s vi f).sqs = s.sqs := rfl
@[simp] theorem modInst_cqs (s : State) (vi : Vi) (f : Inst → Inst) : (modInst s vi f).cqs = s.cqs := rfl
@[simp] theorem modInst_cnts (s : State) (vi : Vi) (f : Inst → Inst) : (modInst s vi f).cnts = s.cnts := rfl
@[simp] theorem modInst_ctxs (s : State) (vi : Vi) (f : Inst → Inst) : (modInst s vi f).ctxs = s.ctxs := rfl
@[simp] theorem modInst_qpGens (s : State) (vi : Vi) (f : Inst → Inst) : (modInst s vi f).qpGens = s.qpGens := rfl
@[simp] theorem modInst_regGens (s : State) (vi : Vi) (f : Inst → Inst) : (modInst s vi f).regGens = s.regGens := rfl
@[simp] theorem modInst_brmIv (s : State) (vi : Vi) (f : Inst → Inst) : (modInst s vi f).brmIv = s.brmIv := rfl
@[simp] theorem modInst_rmaDrop (s : State) (vi : Vi) (f : Inst → Inst) : (modInst s vi f).rmaDrop = s.rmaDrop := rfl
@[simp] theorem modInst_keys (s : State) (vi : Vi) (f : Inst → Inst) : (modInst s vi f).keys = s.keys := rfl
@[simp] theorem modInst_sec (s : State) (vi : Vi) (f : Inst → Inst) : (modInst s vi f).sec = s.sec := rfl
@[simp] theorem modInst_fw (s : State) (vi : Vi) (f : Inst → Inst) : (modInst s vi f).fw = s.fw := rfl
@[simp] theorem modInst_phy (s : State) (vi : Vi) (f : Inst → Inst) : (modInst s vi f).phy = s.phy := rfl
@[simp] theorem modInst_prism (s : State) (vi : Vi) (f : Inst → Inst) : (modInst s vi f).prism = s.prism := rfl
@[simp] theorem modInst_iris (s : State) (vi : Vi) (f : Inst → Inst) : (modInst s vi f).iris = s.iris := rfl
@[simp] theorem modInst_rx (s : State) (vi : Vi) (f : Inst → Inst) : (modInst s vi f).rx = s.rx := rfl
@[simp] theorem modInst_tx (s : State) (vi : Vi) (f : Inst → Inst) : (modInst s vi f).tx = s.tx := rfl
@[simp] theorem modInst_slowQ (s : State) (vi : Vi) (f : Inst → Inst) : (modInst s vi f).slowQ = s.slowQ := rfl
@[simp] theorem modInst_brmIn (s : State) (vi : Vi) (f : Inst → Inst) : (modInst s vi f).brmIn = s.brmIn := rfl
@[simp] theorem modInst_brmOut (s : State) (vi : Vi) (f : Inst → Inst) : (modInst s vi f).brmOut = s.brmOut := rfl
@[simp] theorem modInst_linkOut (s : State) (vi : Vi) (f : Inst → Inst) : (modInst s vi f).linkOut = s.linkOut := rfl
@[simp] theorem modInst_reasm (s : State) (vi : Vi) (f : Inst → Inst) : (modInst s vi f).reasm = s.reasm := rfl
@[simp] theorem modInst_descs (s : State) (vi : Vi) (f : Inst → Inst) : (modInst s vi f).descs = s.descs := rfl
@[simp] theorem modInst_nextDesc (s : State) (vi : Vi) (f : Inst → Inst) : (modInst s vi f).nextDesc = s.nextDesc := rfl
@[simp] theorem modInst_stgWin (s : State) (vi : Vi) (f : Inst → Inst) : (modInst s vi f).stgWin = s.stgWin := rfl
@[simp] theorem modInst_stgs (s : State) (vi : Vi) (f : Inst → Inst) : (modInst s vi f).stgs = s.stgs := rfl
@[simp] theorem modInst_lateTags (s : State) (vi : Vi) (f : Inst → Inst) : (modInst s vi f).lateTags = s.lateTags := rfl
@[simp] theorem modInst_links (s : State) (vi : Vi) (f : Inst → Inst) : (modInst s vi f).links = s.links := rfl
@[simp] theorem modInst_sw (s : State) (vi : Vi) (f : Inst → Inst) : (modInst s vi f).sw = s.sw := rfl
@[simp] theorem modInst_reply (s : State) (vi : Vi) (f : Inst → Inst) : (modInst s vi f).reply = s.reply := rfl
@[simp] theorem modInst_replyPoison (s : State) (vi : Vi) (f : Inst → Inst) : (modInst s vi f).replyPoison = s.replyPoison := rfl
@[simp] theorem modInst_heldHost (s : State) (vi : Vi) (f : Inst → Inst) : (modInst s vi f).heldHost = s.heldHost := rfl
@[simp] theorem modInst_boot (s : State) (vi : Vi) (f : Inst → Inst) : (modInst s vi f).boot = s.boot := rfl
@[simp] theorem modInst_pwr (s : State) (vi : Vi) (f : Inst → Inst) : (modInst s vi f).pwr = s.pwr := rfl
@[simp] theorem modInst_drst (s : State) (vi : Vi) (f : Inst → Inst) : (modInst s vi f).drst = s.drst := rfl
@[simp] theorem modInst_trc (s : State) (vi : Vi) (f : Inst → Inst) : (modInst s vi f).trc = s.trc := rfl
@[simp] theorem modInst_err (s : State) (vi : Vi) (f : Inst → Inst) : (modInst s vi f).err = s.err := rfl
@[simp] theorem modInst_pair (s : State) (vi : Vi) (f : Inst → Inst) : (modInst s vi f).pair = s.pair := rfl
@[simp] theorem modInst_jtag (s : State) (vi : Vi) (f : Inst → Inst) : (modInst s vi f).jtag = s.jtag := rfl
@[simp] theorem modInst_smp (s : State) (vi : Vi) (f : Inst → Inst) : (modInst s vi f).smp = s.smp := rfl
@[simp] theorem modInst_tally (s : State) (vi : Vi) (f : Inst → Inst) : (modInst s vi f).tally = s.tally := rfl
@[simp] theorem modInst_mtr (s : State) (vi : Vi) (f : Inst → Inst) : (modInst s vi f).mtr = s.mtr := rfl

/-! ## What `putThr` leaves alone -/

@[simp] theorem putThr_pending (s : State) (t : Tid) (th : Thread) : (putThr s t th).pending = s.pending := rfl
@[simp] theorem putThr_free (s : State) (t : Tid) (th : Thread) : (putThr s t th).free = s.free := rfl
@[simp] theorem putThr_devTime (s : State) (t : Tid) (th : Thread) : (putThr s t th).devTime = s.devTime := rfl
@[simp] theorem putThr_regs (s : State) (t : Tid) (th : Thread) : (putThr s t th).regs = s.regs := rfl
@[simp] theorem putThr_mem (s : State) (t : Tid) (th : Thread) : (putThr s t th).mem = s.mem := rfl
@[simp] theorem putThr_hostMem (s : State) (t : Tid) (th : Thread) : (putThr s t th).hostMem = s.hostMem := rfl
@[simp] theorem putThr_hostHeld (s : State) (t : Tid) (th : Thread) : (putThr s t th).hostHeld = s.hostHeld := rfl
@[simp] theorem putThr_poison (s : State) (t : Tid) (th : Thread) : (putThr s t th).poison = s.poison := rfl
@[simp] theorem putThr_ue (s : State) (t : Tid) (th : Thread) : (putThr s t th).ue = s.ue := rfl
@[simp] theorem putThr_guard (s : State) (t : Tid) (th : Thread) : (putThr s t th).guard = s.guard := rfl
@[simp] theorem putThr_stkUe (s : State) (t : Tid) (th : Thread) : (putThr s t th).stkUe = s.stkUe := rfl
@[simp] theorem putThr_heldW (s : State) (t : Tid) (th : Thread) : (putThr s t th).heldW = s.heldW := rfl
@[simp] theorem putThr_unmaps (s : State) (t : Tid) (th : Thread) : (putThr s t th).unmaps = s.unmaps := rfl
@[simp] theorem putThr_rowSpread (s : State) (t : Tid) (th : Thread) : (putThr s t th).rowSpread = s.rowSpread := rfl
@[simp] theorem putThr_gt (s : State) (t : Tid) (th : Thread) : (putThr s t th).gt = s.gt := rfl
@[simp] theorem putThr_gran (s : State) (t : Tid) (th : Thread) : (putThr s t th).gran = s.gran := rfl
@[simp] theorem putThr_spill (s : State) (t : Tid) (th : Thread) : (putThr s t th).spill = s.spill := rfl
@[simp] theorem putThr_ctxFn (s : State) (t : Tid) (th : Thread) : (putThr s t th).ctxFn = s.ctxFn := rfl
@[simp] theorem putThr_snaps (s : State) (t : Tid) (th : Thread) : (putThr s t th).snaps = s.snaps := rfl
@[simp] theorem putThr_cfg (s : State) (t : Tid) (th : Thread) : (putThr s t th).cfg = s.cfg := rfl
@[simp] theorem putThr_saved (s : State) (t : Tid) (th : Thread) : (putThr s t th).saved = s.saved := rfl
@[simp] theorem putThr_accs (s : State) (t : Tid) (th : Thread) : (putThr s t th).accs = s.accs := rfl
@[simp] theorem putThr_waitSets (s : State) (t : Tid) (th : Thread) : (putThr s t th).waitSets = s.waitSets := rfl
@[simp] theorem putThr_fstore (s : State) (t : Tid) (th : Thread) : (putThr s t th).fstore = s.fstore := rfl
@[simp] theorem putThr_nextLaunch (s : State) (t : Tid) (th : Thread) : (putThr s t th).nextLaunch = s.nextLaunch := rfl
@[simp] theorem putThr_launches (s : State) (t : Tid) (th : Thread) : (putThr s t th).launches = s.launches := rfl
@[simp] theorem putThr_comps (s : State) (t : Tid) (th : Thread) : (putThr s t th).comps = s.comps := rfl
@[simp] theorem putThr_cmpJobs (s : State) (t : Tid) (th : Thread) : (putThr s t th).cmpJobs = s.cmpJobs := rfl
@[simp] theorem putThr_resJobs (s : State) (t : Tid) (th : Thread) : (putThr s t th).resJobs = s.resJobs := rfl
@[simp] theorem putThr_syn (s : State) (t : Tid) (th : Thread) : (putThr s t th).syn = s.syn := rfl
@[simp] theorem putThr_near (s : State) (t : Tid) (th : Thread) : (putThr s t th).near = s.near := rfl
@[simp] theorem putThr_grp (s : State) (t : Tid) (th : Thread) : (putThr s t th).grp = s.grp := rfl
@[simp] theorem putThr_clu (s : State) (t : Tid) (th : Thread) : (putThr s t th).clu = s.clu := rfl
@[simp] theorem putThr_arb (s : State) (t : Tid) (th : Thread) : (putThr s t th).arb = s.arb := rfl
@[simp] theorem putThr_rounds (s : State) (t : Tid) (th : Thread) : (putThr s t th).rounds = s.rounds := rfl
@[simp] theorem putThr_inst (s : State) (t : Tid) (th : Thread) : (putThr s t th).inst = s.inst := rfl
@[simp] theorem putThr_sqs (s : State) (t : Tid) (th : Thread) : (putThr s t th).sqs = s.sqs := rfl
@[simp] theorem putThr_cqs (s : State) (t : Tid) (th : Thread) : (putThr s t th).cqs = s.cqs := rfl
@[simp] theorem putThr_cnts (s : State) (t : Tid) (th : Thread) : (putThr s t th).cnts = s.cnts := rfl
@[simp] theorem putThr_ctxs (s : State) (t : Tid) (th : Thread) : (putThr s t th).ctxs = s.ctxs := rfl
@[simp] theorem putThr_qpGens (s : State) (t : Tid) (th : Thread) : (putThr s t th).qpGens = s.qpGens := rfl
@[simp] theorem putThr_regGens (s : State) (t : Tid) (th : Thread) : (putThr s t th).regGens = s.regGens := rfl
@[simp] theorem putThr_brmIv (s : State) (t : Tid) (th : Thread) : (putThr s t th).brmIv = s.brmIv := rfl
@[simp] theorem putThr_rmaDrop (s : State) (t : Tid) (th : Thread) : (putThr s t th).rmaDrop = s.rmaDrop := rfl
@[simp] theorem putThr_keys (s : State) (t : Tid) (th : Thread) : (putThr s t th).keys = s.keys := rfl
@[simp] theorem putThr_sec (s : State) (t : Tid) (th : Thread) : (putThr s t th).sec = s.sec := rfl
@[simp] theorem putThr_fw (s : State) (t : Tid) (th : Thread) : (putThr s t th).fw = s.fw := rfl
@[simp] theorem putThr_phy (s : State) (t : Tid) (th : Thread) : (putThr s t th).phy = s.phy := rfl
@[simp] theorem putThr_prism (s : State) (t : Tid) (th : Thread) : (putThr s t th).prism = s.prism := rfl
@[simp] theorem putThr_iris (s : State) (t : Tid) (th : Thread) : (putThr s t th).iris = s.iris := rfl
@[simp] theorem putThr_rx (s : State) (t : Tid) (th : Thread) : (putThr s t th).rx = s.rx := rfl
@[simp] theorem putThr_tx (s : State) (t : Tid) (th : Thread) : (putThr s t th).tx = s.tx := rfl
@[simp] theorem putThr_slowQ (s : State) (t : Tid) (th : Thread) : (putThr s t th).slowQ = s.slowQ := rfl
@[simp] theorem putThr_brmIn (s : State) (t : Tid) (th : Thread) : (putThr s t th).brmIn = s.brmIn := rfl
@[simp] theorem putThr_brmOut (s : State) (t : Tid) (th : Thread) : (putThr s t th).brmOut = s.brmOut := rfl
@[simp] theorem putThr_linkOut (s : State) (t : Tid) (th : Thread) : (putThr s t th).linkOut = s.linkOut := rfl
@[simp] theorem putThr_reasm (s : State) (t : Tid) (th : Thread) : (putThr s t th).reasm = s.reasm := rfl
@[simp] theorem putThr_descs (s : State) (t : Tid) (th : Thread) : (putThr s t th).descs = s.descs := rfl
@[simp] theorem putThr_nextDesc (s : State) (t : Tid) (th : Thread) : (putThr s t th).nextDesc = s.nextDesc := rfl
@[simp] theorem putThr_stgWin (s : State) (t : Tid) (th : Thread) : (putThr s t th).stgWin = s.stgWin := rfl
@[simp] theorem putThr_stgs (s : State) (t : Tid) (th : Thread) : (putThr s t th).stgs = s.stgs := rfl
@[simp] theorem putThr_lateTags (s : State) (t : Tid) (th : Thread) : (putThr s t th).lateTags = s.lateTags := rfl
@[simp] theorem putThr_links (s : State) (t : Tid) (th : Thread) : (putThr s t th).links = s.links := rfl
@[simp] theorem putThr_sw (s : State) (t : Tid) (th : Thread) : (putThr s t th).sw = s.sw := rfl
@[simp] theorem putThr_reply (s : State) (t : Tid) (th : Thread) : (putThr s t th).reply = s.reply := rfl
@[simp] theorem putThr_replyPoison (s : State) (t : Tid) (th : Thread) : (putThr s t th).replyPoison = s.replyPoison := rfl
@[simp] theorem putThr_heldHost (s : State) (t : Tid) (th : Thread) : (putThr s t th).heldHost = s.heldHost := rfl
@[simp] theorem putThr_boot (s : State) (t : Tid) (th : Thread) : (putThr s t th).boot = s.boot := rfl
@[simp] theorem putThr_pwr (s : State) (t : Tid) (th : Thread) : (putThr s t th).pwr = s.pwr := rfl
@[simp] theorem putThr_drst (s : State) (t : Tid) (th : Thread) : (putThr s t th).drst = s.drst := rfl
@[simp] theorem putThr_trc (s : State) (t : Tid) (th : Thread) : (putThr s t th).trc = s.trc := rfl
@[simp] theorem putThr_err (s : State) (t : Tid) (th : Thread) : (putThr s t th).err = s.err := rfl
@[simp] theorem putThr_pair (s : State) (t : Tid) (th : Thread) : (putThr s t th).pair = s.pair := rfl
@[simp] theorem putThr_jtag (s : State) (t : Tid) (th : Thread) : (putThr s t th).jtag = s.jtag := rfl
@[simp] theorem putThr_smp (s : State) (t : Tid) (th : Thread) : (putThr s t th).smp = s.smp := rfl
@[simp] theorem putThr_tally (s : State) (t : Tid) (th : Thread) : (putThr s t th).tally = s.tally := rfl
@[simp] theorem putThr_mtr (s : State) (t : Tid) (th : Thread) : (putThr s t th).mtr = s.mtr := rfl

/-! ## What `delThr` leaves alone -/

@[simp] theorem delThr_pending (s : State) (t : Tid) : (delThr s t).pending = s.pending := rfl
@[simp] theorem delThr_free (s : State) (t : Tid) : (delThr s t).free = s.free := rfl
@[simp] theorem delThr_devTime (s : State) (t : Tid) : (delThr s t).devTime = s.devTime := rfl
@[simp] theorem delThr_regs (s : State) (t : Tid) : (delThr s t).regs = s.regs := rfl
@[simp] theorem delThr_mem (s : State) (t : Tid) : (delThr s t).mem = s.mem := rfl
@[simp] theorem delThr_hostMem (s : State) (t : Tid) : (delThr s t).hostMem = s.hostMem := rfl
@[simp] theorem delThr_hostHeld (s : State) (t : Tid) : (delThr s t).hostHeld = s.hostHeld := rfl
@[simp] theorem delThr_poison (s : State) (t : Tid) : (delThr s t).poison = s.poison := rfl
@[simp] theorem delThr_ue (s : State) (t : Tid) : (delThr s t).ue = s.ue := rfl
@[simp] theorem delThr_guard (s : State) (t : Tid) : (delThr s t).guard = s.guard := rfl
@[simp] theorem delThr_stkUe (s : State) (t : Tid) : (delThr s t).stkUe = s.stkUe := rfl
@[simp] theorem delThr_heldW (s : State) (t : Tid) : (delThr s t).heldW = s.heldW := rfl
@[simp] theorem delThr_unmaps (s : State) (t : Tid) : (delThr s t).unmaps = s.unmaps := rfl
@[simp] theorem delThr_rowSpread (s : State) (t : Tid) : (delThr s t).rowSpread = s.rowSpread := rfl
@[simp] theorem delThr_gt (s : State) (t : Tid) : (delThr s t).gt = s.gt := rfl
@[simp] theorem delThr_gran (s : State) (t : Tid) : (delThr s t).gran = s.gran := rfl
@[simp] theorem delThr_spill (s : State) (t : Tid) : (delThr s t).spill = s.spill := rfl
@[simp] theorem delThr_ctxFn (s : State) (t : Tid) : (delThr s t).ctxFn = s.ctxFn := rfl
@[simp] theorem delThr_snaps (s : State) (t : Tid) : (delThr s t).snaps = s.snaps := rfl
@[simp] theorem delThr_cfg (s : State) (t : Tid) : (delThr s t).cfg = s.cfg := rfl
@[simp] theorem delThr_saved (s : State) (t : Tid) : (delThr s t).saved = s.saved := rfl
@[simp] theorem delThr_accs (s : State) (t : Tid) : (delThr s t).accs = s.accs := rfl
@[simp] theorem delThr_waitSets (s : State) (t : Tid) : (delThr s t).waitSets = s.waitSets := rfl
@[simp] theorem delThr_fstore (s : State) (t : Tid) : (delThr s t).fstore = s.fstore := rfl
@[simp] theorem delThr_nextLaunch (s : State) (t : Tid) : (delThr s t).nextLaunch = s.nextLaunch := rfl
@[simp] theorem delThr_launches (s : State) (t : Tid) : (delThr s t).launches = s.launches := rfl
@[simp] theorem delThr_comps (s : State) (t : Tid) : (delThr s t).comps = s.comps := rfl
@[simp] theorem delThr_cmpJobs (s : State) (t : Tid) : (delThr s t).cmpJobs = s.cmpJobs := rfl
@[simp] theorem delThr_resJobs (s : State) (t : Tid) : (delThr s t).resJobs = s.resJobs := rfl
@[simp] theorem delThr_syn (s : State) (t : Tid) : (delThr s t).syn = s.syn := rfl
@[simp] theorem delThr_near (s : State) (t : Tid) : (delThr s t).near = s.near := rfl
@[simp] theorem delThr_grp (s : State) (t : Tid) : (delThr s t).grp = s.grp := rfl
@[simp] theorem delThr_clu (s : State) (t : Tid) : (delThr s t).clu = s.clu := rfl
@[simp] theorem delThr_arb (s : State) (t : Tid) : (delThr s t).arb = s.arb := rfl
@[simp] theorem delThr_rounds (s : State) (t : Tid) : (delThr s t).rounds = s.rounds := rfl
@[simp] theorem delThr_inst (s : State) (t : Tid) : (delThr s t).inst = s.inst := rfl
@[simp] theorem delThr_sqs (s : State) (t : Tid) : (delThr s t).sqs = s.sqs := rfl
@[simp] theorem delThr_cqs (s : State) (t : Tid) : (delThr s t).cqs = s.cqs := rfl
@[simp] theorem delThr_cnts (s : State) (t : Tid) : (delThr s t).cnts = s.cnts := rfl
@[simp] theorem delThr_ctxs (s : State) (t : Tid) : (delThr s t).ctxs = s.ctxs := rfl
@[simp] theorem delThr_qpGens (s : State) (t : Tid) : (delThr s t).qpGens = s.qpGens := rfl
@[simp] theorem delThr_regGens (s : State) (t : Tid) : (delThr s t).regGens = s.regGens := rfl
@[simp] theorem delThr_brmIv (s : State) (t : Tid) : (delThr s t).brmIv = s.brmIv := rfl
@[simp] theorem delThr_rmaDrop (s : State) (t : Tid) : (delThr s t).rmaDrop = s.rmaDrop := rfl
@[simp] theorem delThr_keys (s : State) (t : Tid) : (delThr s t).keys = s.keys := rfl
@[simp] theorem delThr_sec (s : State) (t : Tid) : (delThr s t).sec = s.sec := rfl
@[simp] theorem delThr_fw (s : State) (t : Tid) : (delThr s t).fw = s.fw := rfl
@[simp] theorem delThr_phy (s : State) (t : Tid) : (delThr s t).phy = s.phy := rfl
@[simp] theorem delThr_prism (s : State) (t : Tid) : (delThr s t).prism = s.prism := rfl
@[simp] theorem delThr_iris (s : State) (t : Tid) : (delThr s t).iris = s.iris := rfl
@[simp] theorem delThr_rx (s : State) (t : Tid) : (delThr s t).rx = s.rx := rfl
@[simp] theorem delThr_tx (s : State) (t : Tid) : (delThr s t).tx = s.tx := rfl
@[simp] theorem delThr_slowQ (s : State) (t : Tid) : (delThr s t).slowQ = s.slowQ := rfl
@[simp] theorem delThr_brmIn (s : State) (t : Tid) : (delThr s t).brmIn = s.brmIn := rfl
@[simp] theorem delThr_brmOut (s : State) (t : Tid) : (delThr s t).brmOut = s.brmOut := rfl
@[simp] theorem delThr_linkOut (s : State) (t : Tid) : (delThr s t).linkOut = s.linkOut := rfl
@[simp] theorem delThr_reasm (s : State) (t : Tid) : (delThr s t).reasm = s.reasm := rfl
@[simp] theorem delThr_descs (s : State) (t : Tid) : (delThr s t).descs = s.descs := rfl
@[simp] theorem delThr_nextDesc (s : State) (t : Tid) : (delThr s t).nextDesc = s.nextDesc := rfl
@[simp] theorem delThr_stgWin (s : State) (t : Tid) : (delThr s t).stgWin = s.stgWin := rfl
@[simp] theorem delThr_stgs (s : State) (t : Tid) : (delThr s t).stgs = s.stgs := rfl
@[simp] theorem delThr_lateTags (s : State) (t : Tid) : (delThr s t).lateTags = s.lateTags := rfl
@[simp] theorem delThr_links (s : State) (t : Tid) : (delThr s t).links = s.links := rfl
@[simp] theorem delThr_sw (s : State) (t : Tid) : (delThr s t).sw = s.sw := rfl
@[simp] theorem delThr_reply (s : State) (t : Tid) : (delThr s t).reply = s.reply := rfl
@[simp] theorem delThr_replyPoison (s : State) (t : Tid) : (delThr s t).replyPoison = s.replyPoison := rfl
@[simp] theorem delThr_heldHost (s : State) (t : Tid) : (delThr s t).heldHost = s.heldHost := rfl
@[simp] theorem delThr_boot (s : State) (t : Tid) : (delThr s t).boot = s.boot := rfl
@[simp] theorem delThr_pwr (s : State) (t : Tid) : (delThr s t).pwr = s.pwr := rfl
@[simp] theorem delThr_drst (s : State) (t : Tid) : (delThr s t).drst = s.drst := rfl
@[simp] theorem delThr_trc (s : State) (t : Tid) : (delThr s t).trc = s.trc := rfl
@[simp] theorem delThr_err (s : State) (t : Tid) : (delThr s t).err = s.err := rfl
@[simp] theorem delThr_pair (s : State) (t : Tid) : (delThr s t).pair = s.pair := rfl
@[simp] theorem delThr_jtag (s : State) (t : Tid) : (delThr s t).jtag = s.jtag := rfl
@[simp] theorem delThr_smp (s : State) (t : Tid) : (delThr s t).smp = s.smp := rfl
@[simp] theorem delThr_tally (s : State) (t : Tid) : (delThr s t).tally = s.tally := rfl
@[simp] theorem delThr_mtr (s : State) (t : Tid) : (delThr s t).mtr = s.mtr := rfl

/-! ## What `modLaunch` leaves alone -/

@[simp] theorem modLaunch_pending (s : State) (n : Nat) (f : Launch → Launch) : (modLaunch s n f).pending = s.pending := rfl
@[simp] theorem modLaunch_free (s : State) (n : Nat) (f : Launch → Launch) : (modLaunch s n f).free = s.free := rfl
@[simp] theorem modLaunch_devTime (s : State) (n : Nat) (f : Launch → Launch) : (modLaunch s n f).devTime = s.devTime := rfl
@[simp] theorem modLaunch_regs (s : State) (n : Nat) (f : Launch → Launch) : (modLaunch s n f).regs = s.regs := rfl
@[simp] theorem modLaunch_mem (s : State) (n : Nat) (f : Launch → Launch) : (modLaunch s n f).mem = s.mem := rfl
@[simp] theorem modLaunch_hostMem (s : State) (n : Nat) (f : Launch → Launch) : (modLaunch s n f).hostMem = s.hostMem := rfl
@[simp] theorem modLaunch_hostHeld (s : State) (n : Nat) (f : Launch → Launch) : (modLaunch s n f).hostHeld = s.hostHeld := rfl
@[simp] theorem modLaunch_poison (s : State) (n : Nat) (f : Launch → Launch) : (modLaunch s n f).poison = s.poison := rfl
@[simp] theorem modLaunch_ue (s : State) (n : Nat) (f : Launch → Launch) : (modLaunch s n f).ue = s.ue := rfl
@[simp] theorem modLaunch_guard (s : State) (n : Nat) (f : Launch → Launch) : (modLaunch s n f).guard = s.guard := rfl
@[simp] theorem modLaunch_stkUe (s : State) (n : Nat) (f : Launch → Launch) : (modLaunch s n f).stkUe = s.stkUe := rfl
@[simp] theorem modLaunch_heldW (s : State) (n : Nat) (f : Launch → Launch) : (modLaunch s n f).heldW = s.heldW := rfl
@[simp] theorem modLaunch_unmaps (s : State) (n : Nat) (f : Launch → Launch) : (modLaunch s n f).unmaps = s.unmaps := rfl
@[simp] theorem modLaunch_rowSpread (s : State) (n : Nat) (f : Launch → Launch) : (modLaunch s n f).rowSpread = s.rowSpread := rfl
@[simp] theorem modLaunch_gt (s : State) (n : Nat) (f : Launch → Launch) : (modLaunch s n f).gt = s.gt := rfl
@[simp] theorem modLaunch_gran (s : State) (n : Nat) (f : Launch → Launch) : (modLaunch s n f).gran = s.gran := rfl
@[simp] theorem modLaunch_spill (s : State) (n : Nat) (f : Launch → Launch) : (modLaunch s n f).spill = s.spill := rfl
@[simp] theorem modLaunch_ctxFn (s : State) (n : Nat) (f : Launch → Launch) : (modLaunch s n f).ctxFn = s.ctxFn := rfl
@[simp] theorem modLaunch_snaps (s : State) (n : Nat) (f : Launch → Launch) : (modLaunch s n f).snaps = s.snaps := rfl
@[simp] theorem modLaunch_cfg (s : State) (n : Nat) (f : Launch → Launch) : (modLaunch s n f).cfg = s.cfg := rfl
@[simp] theorem modLaunch_threads (s : State) (n : Nat) (f : Launch → Launch) : (modLaunch s n f).threads = s.threads := rfl
@[simp] theorem modLaunch_saved (s : State) (n : Nat) (f : Launch → Launch) : (modLaunch s n f).saved = s.saved := rfl
@[simp] theorem modLaunch_accs (s : State) (n : Nat) (f : Launch → Launch) : (modLaunch s n f).accs = s.accs := rfl
@[simp] theorem modLaunch_waitSets (s : State) (n : Nat) (f : Launch → Launch) : (modLaunch s n f).waitSets = s.waitSets := rfl
@[simp] theorem modLaunch_fstore (s : State) (n : Nat) (f : Launch → Launch) : (modLaunch s n f).fstore = s.fstore := rfl
@[simp] theorem modLaunch_nextLaunch (s : State) (n : Nat) (f : Launch → Launch) : (modLaunch s n f).nextLaunch = s.nextLaunch := rfl
@[simp] theorem modLaunch_comps (s : State) (n : Nat) (f : Launch → Launch) : (modLaunch s n f).comps = s.comps := rfl
@[simp] theorem modLaunch_cmpJobs (s : State) (n : Nat) (f : Launch → Launch) : (modLaunch s n f).cmpJobs = s.cmpJobs := rfl
@[simp] theorem modLaunch_resJobs (s : State) (n : Nat) (f : Launch → Launch) : (modLaunch s n f).resJobs = s.resJobs := rfl
@[simp] theorem modLaunch_syn (s : State) (n : Nat) (f : Launch → Launch) : (modLaunch s n f).syn = s.syn := rfl
@[simp] theorem modLaunch_near (s : State) (n : Nat) (f : Launch → Launch) : (modLaunch s n f).near = s.near := rfl
@[simp] theorem modLaunch_grp (s : State) (n : Nat) (f : Launch → Launch) : (modLaunch s n f).grp = s.grp := rfl
@[simp] theorem modLaunch_clu (s : State) (n : Nat) (f : Launch → Launch) : (modLaunch s n f).clu = s.clu := rfl
@[simp] theorem modLaunch_arb (s : State) (n : Nat) (f : Launch → Launch) : (modLaunch s n f).arb = s.arb := rfl
@[simp] theorem modLaunch_rounds (s : State) (n : Nat) (f : Launch → Launch) : (modLaunch s n f).rounds = s.rounds := rfl
@[simp] theorem modLaunch_inst (s : State) (n : Nat) (f : Launch → Launch) : (modLaunch s n f).inst = s.inst := rfl
@[simp] theorem modLaunch_sqs (s : State) (n : Nat) (f : Launch → Launch) : (modLaunch s n f).sqs = s.sqs := rfl
@[simp] theorem modLaunch_cqs (s : State) (n : Nat) (f : Launch → Launch) : (modLaunch s n f).cqs = s.cqs := rfl
@[simp] theorem modLaunch_cnts (s : State) (n : Nat) (f : Launch → Launch) : (modLaunch s n f).cnts = s.cnts := rfl
@[simp] theorem modLaunch_ctxs (s : State) (n : Nat) (f : Launch → Launch) : (modLaunch s n f).ctxs = s.ctxs := rfl
@[simp] theorem modLaunch_qpGens (s : State) (n : Nat) (f : Launch → Launch) : (modLaunch s n f).qpGens = s.qpGens := rfl
@[simp] theorem modLaunch_regGens (s : State) (n : Nat) (f : Launch → Launch) : (modLaunch s n f).regGens = s.regGens := rfl
@[simp] theorem modLaunch_brmIv (s : State) (n : Nat) (f : Launch → Launch) : (modLaunch s n f).brmIv = s.brmIv := rfl
@[simp] theorem modLaunch_rmaDrop (s : State) (n : Nat) (f : Launch → Launch) : (modLaunch s n f).rmaDrop = s.rmaDrop := rfl
@[simp] theorem modLaunch_keys (s : State) (n : Nat) (f : Launch → Launch) : (modLaunch s n f).keys = s.keys := rfl
@[simp] theorem modLaunch_sec (s : State) (n : Nat) (f : Launch → Launch) : (modLaunch s n f).sec = s.sec := rfl
@[simp] theorem modLaunch_fw (s : State) (n : Nat) (f : Launch → Launch) : (modLaunch s n f).fw = s.fw := rfl
@[simp] theorem modLaunch_phy (s : State) (n : Nat) (f : Launch → Launch) : (modLaunch s n f).phy = s.phy := rfl
@[simp] theorem modLaunch_prism (s : State) (n : Nat) (f : Launch → Launch) : (modLaunch s n f).prism = s.prism := rfl
@[simp] theorem modLaunch_iris (s : State) (n : Nat) (f : Launch → Launch) : (modLaunch s n f).iris = s.iris := rfl
@[simp] theorem modLaunch_rx (s : State) (n : Nat) (f : Launch → Launch) : (modLaunch s n f).rx = s.rx := rfl
@[simp] theorem modLaunch_tx (s : State) (n : Nat) (f : Launch → Launch) : (modLaunch s n f).tx = s.tx := rfl
@[simp] theorem modLaunch_slowQ (s : State) (n : Nat) (f : Launch → Launch) : (modLaunch s n f).slowQ = s.slowQ := rfl
@[simp] theorem modLaunch_brmIn (s : State) (n : Nat) (f : Launch → Launch) : (modLaunch s n f).brmIn = s.brmIn := rfl
@[simp] theorem modLaunch_brmOut (s : State) (n : Nat) (f : Launch → Launch) : (modLaunch s n f).brmOut = s.brmOut := rfl
@[simp] theorem modLaunch_linkOut (s : State) (n : Nat) (f : Launch → Launch) : (modLaunch s n f).linkOut = s.linkOut := rfl
@[simp] theorem modLaunch_reasm (s : State) (n : Nat) (f : Launch → Launch) : (modLaunch s n f).reasm = s.reasm := rfl
@[simp] theorem modLaunch_descs (s : State) (n : Nat) (f : Launch → Launch) : (modLaunch s n f).descs = s.descs := rfl
@[simp] theorem modLaunch_nextDesc (s : State) (n : Nat) (f : Launch → Launch) : (modLaunch s n f).nextDesc = s.nextDesc := rfl
@[simp] theorem modLaunch_stgWin (s : State) (n : Nat) (f : Launch → Launch) : (modLaunch s n f).stgWin = s.stgWin := rfl
@[simp] theorem modLaunch_stgs (s : State) (n : Nat) (f : Launch → Launch) : (modLaunch s n f).stgs = s.stgs := rfl
@[simp] theorem modLaunch_lateTags (s : State) (n : Nat) (f : Launch → Launch) : (modLaunch s n f).lateTags = s.lateTags := rfl
@[simp] theorem modLaunch_links (s : State) (n : Nat) (f : Launch → Launch) : (modLaunch s n f).links = s.links := rfl
@[simp] theorem modLaunch_sw (s : State) (n : Nat) (f : Launch → Launch) : (modLaunch s n f).sw = s.sw := rfl
@[simp] theorem modLaunch_reply (s : State) (n : Nat) (f : Launch → Launch) : (modLaunch s n f).reply = s.reply := rfl
@[simp] theorem modLaunch_replyPoison (s : State) (n : Nat) (f : Launch → Launch) : (modLaunch s n f).replyPoison = s.replyPoison := rfl
@[simp] theorem modLaunch_heldHost (s : State) (n : Nat) (f : Launch → Launch) : (modLaunch s n f).heldHost = s.heldHost := rfl
@[simp] theorem modLaunch_boot (s : State) (n : Nat) (f : Launch → Launch) : (modLaunch s n f).boot = s.boot := rfl
@[simp] theorem modLaunch_pwr (s : State) (n : Nat) (f : Launch → Launch) : (modLaunch s n f).pwr = s.pwr := rfl
@[simp] theorem modLaunch_drst (s : State) (n : Nat) (f : Launch → Launch) : (modLaunch s n f).drst = s.drst := rfl
@[simp] theorem modLaunch_trc (s : State) (n : Nat) (f : Launch → Launch) : (modLaunch s n f).trc = s.trc := rfl
@[simp] theorem modLaunch_err (s : State) (n : Nat) (f : Launch → Launch) : (modLaunch s n f).err = s.err := rfl
@[simp] theorem modLaunch_pair (s : State) (n : Nat) (f : Launch → Launch) : (modLaunch s n f).pair = s.pair := rfl
@[simp] theorem modLaunch_jtag (s : State) (n : Nat) (f : Launch → Launch) : (modLaunch s n f).jtag = s.jtag := rfl
@[simp] theorem modLaunch_smp (s : State) (n : Nat) (f : Launch → Launch) : (modLaunch s n f).smp = s.smp := rfl
@[simp] theorem modLaunch_tally (s : State) (n : Nat) (f : Launch → Launch) : (modLaunch s n f).tally = s.tally := rfl
@[simp] theorem modLaunch_mtr (s : State) (n : Nat) (f : Launch → Launch) : (modLaunch s n f).mtr = s.mtr := rfl

/-! ## What `modCfg` leaves alone -/

@[simp] theorem modCfg_pending (s : State) (fn : Fn) (f : Cfg → Cfg) : (modCfg s fn f).pending = s.pending := rfl
@[simp] theorem modCfg_free (s : State) (fn : Fn) (f : Cfg → Cfg) : (modCfg s fn f).free = s.free := rfl
@[simp] theorem modCfg_devTime (s : State) (fn : Fn) (f : Cfg → Cfg) : (modCfg s fn f).devTime = s.devTime := rfl
@[simp] theorem modCfg_regs (s : State) (fn : Fn) (f : Cfg → Cfg) : (modCfg s fn f).regs = s.regs := rfl
@[simp] theorem modCfg_mem (s : State) (fn : Fn) (f : Cfg → Cfg) : (modCfg s fn f).mem = s.mem := rfl
@[simp] theorem modCfg_hostMem (s : State) (fn : Fn) (f : Cfg → Cfg) : (modCfg s fn f).hostMem = s.hostMem := rfl
@[simp] theorem modCfg_hostHeld (s : State) (fn : Fn) (f : Cfg → Cfg) : (modCfg s fn f).hostHeld = s.hostHeld := rfl
@[simp] theorem modCfg_poison (s : State) (fn : Fn) (f : Cfg → Cfg) : (modCfg s fn f).poison = s.poison := rfl
@[simp] theorem modCfg_ue (s : State) (fn : Fn) (f : Cfg → Cfg) : (modCfg s fn f).ue = s.ue := rfl
@[simp] theorem modCfg_guard (s : State) (fn : Fn) (f : Cfg → Cfg) : (modCfg s fn f).guard = s.guard := rfl
@[simp] theorem modCfg_stkUe (s : State) (fn : Fn) (f : Cfg → Cfg) : (modCfg s fn f).stkUe = s.stkUe := rfl
@[simp] theorem modCfg_heldW (s : State) (fn : Fn) (f : Cfg → Cfg) : (modCfg s fn f).heldW = s.heldW := rfl
@[simp] theorem modCfg_unmaps (s : State) (fn : Fn) (f : Cfg → Cfg) : (modCfg s fn f).unmaps = s.unmaps := rfl
@[simp] theorem modCfg_rowSpread (s : State) (fn : Fn) (f : Cfg → Cfg) : (modCfg s fn f).rowSpread = s.rowSpread := rfl
@[simp] theorem modCfg_gt (s : State) (fn : Fn) (f : Cfg → Cfg) : (modCfg s fn f).gt = s.gt := rfl
@[simp] theorem modCfg_gran (s : State) (fn : Fn) (f : Cfg → Cfg) : (modCfg s fn f).gran = s.gran := rfl
@[simp] theorem modCfg_spill (s : State) (fn : Fn) (f : Cfg → Cfg) : (modCfg s fn f).spill = s.spill := rfl
@[simp] theorem modCfg_ctxFn (s : State) (fn : Fn) (f : Cfg → Cfg) : (modCfg s fn f).ctxFn = s.ctxFn := rfl
@[simp] theorem modCfg_snaps (s : State) (fn : Fn) (f : Cfg → Cfg) : (modCfg s fn f).snaps = s.snaps := rfl
@[simp] theorem modCfg_threads (s : State) (fn : Fn) (f : Cfg → Cfg) : (modCfg s fn f).threads = s.threads := rfl
@[simp] theorem modCfg_saved (s : State) (fn : Fn) (f : Cfg → Cfg) : (modCfg s fn f).saved = s.saved := rfl
@[simp] theorem modCfg_accs (s : State) (fn : Fn) (f : Cfg → Cfg) : (modCfg s fn f).accs = s.accs := rfl
@[simp] theorem modCfg_waitSets (s : State) (fn : Fn) (f : Cfg → Cfg) : (modCfg s fn f).waitSets = s.waitSets := rfl
@[simp] theorem modCfg_fstore (s : State) (fn : Fn) (f : Cfg → Cfg) : (modCfg s fn f).fstore = s.fstore := rfl
@[simp] theorem modCfg_nextLaunch (s : State) (fn : Fn) (f : Cfg → Cfg) : (modCfg s fn f).nextLaunch = s.nextLaunch := rfl
@[simp] theorem modCfg_launches (s : State) (fn : Fn) (f : Cfg → Cfg) : (modCfg s fn f).launches = s.launches := rfl
@[simp] theorem modCfg_comps (s : State) (fn : Fn) (f : Cfg → Cfg) : (modCfg s fn f).comps = s.comps := rfl
@[simp] theorem modCfg_cmpJobs (s : State) (fn : Fn) (f : Cfg → Cfg) : (modCfg s fn f).cmpJobs = s.cmpJobs := rfl
@[simp] theorem modCfg_resJobs (s : State) (fn : Fn) (f : Cfg → Cfg) : (modCfg s fn f).resJobs = s.resJobs := rfl
@[simp] theorem modCfg_syn (s : State) (fn : Fn) (f : Cfg → Cfg) : (modCfg s fn f).syn = s.syn := rfl
@[simp] theorem modCfg_near (s : State) (fn : Fn) (f : Cfg → Cfg) : (modCfg s fn f).near = s.near := rfl
@[simp] theorem modCfg_grp (s : State) (fn : Fn) (f : Cfg → Cfg) : (modCfg s fn f).grp = s.grp := rfl
@[simp] theorem modCfg_clu (s : State) (fn : Fn) (f : Cfg → Cfg) : (modCfg s fn f).clu = s.clu := rfl
@[simp] theorem modCfg_arb (s : State) (fn : Fn) (f : Cfg → Cfg) : (modCfg s fn f).arb = s.arb := rfl
@[simp] theorem modCfg_rounds (s : State) (fn : Fn) (f : Cfg → Cfg) : (modCfg s fn f).rounds = s.rounds := rfl
@[simp] theorem modCfg_inst (s : State) (fn : Fn) (f : Cfg → Cfg) : (modCfg s fn f).inst = s.inst := rfl
@[simp] theorem modCfg_sqs (s : State) (fn : Fn) (f : Cfg → Cfg) : (modCfg s fn f).sqs = s.sqs := rfl
@[simp] theorem modCfg_cqs (s : State) (fn : Fn) (f : Cfg → Cfg) : (modCfg s fn f).cqs = s.cqs := rfl
@[simp] theorem modCfg_cnts (s : State) (fn : Fn) (f : Cfg → Cfg) : (modCfg s fn f).cnts = s.cnts := rfl
@[simp] theorem modCfg_ctxs (s : State) (fn : Fn) (f : Cfg → Cfg) : (modCfg s fn f).ctxs = s.ctxs := rfl
@[simp] theorem modCfg_qpGens (s : State) (fn : Fn) (f : Cfg → Cfg) : (modCfg s fn f).qpGens = s.qpGens := rfl
@[simp] theorem modCfg_regGens (s : State) (fn : Fn) (f : Cfg → Cfg) : (modCfg s fn f).regGens = s.regGens := rfl
@[simp] theorem modCfg_brmIv (s : State) (fn : Fn) (f : Cfg → Cfg) : (modCfg s fn f).brmIv = s.brmIv := rfl
@[simp] theorem modCfg_rmaDrop (s : State) (fn : Fn) (f : Cfg → Cfg) : (modCfg s fn f).rmaDrop = s.rmaDrop := rfl
@[simp] theorem modCfg_keys (s : State) (fn : Fn) (f : Cfg → Cfg) : (modCfg s fn f).keys = s.keys := rfl
@[simp] theorem modCfg_sec (s : State) (fn : Fn) (f : Cfg → Cfg) : (modCfg s fn f).sec = s.sec := rfl
@[simp] theorem modCfg_fw (s : State) (fn : Fn) (f : Cfg → Cfg) : (modCfg s fn f).fw = s.fw := rfl
@[simp] theorem modCfg_phy (s : State) (fn : Fn) (f : Cfg → Cfg) : (modCfg s fn f).phy = s.phy := rfl
@[simp] theorem modCfg_prism (s : State) (fn : Fn) (f : Cfg → Cfg) : (modCfg s fn f).prism = s.prism := rfl
@[simp] theorem modCfg_iris (s : State) (fn : Fn) (f : Cfg → Cfg) : (modCfg s fn f).iris = s.iris := rfl
@[simp] theorem modCfg_rx (s : State) (fn : Fn) (f : Cfg → Cfg) : (modCfg s fn f).rx = s.rx := rfl
@[simp] theorem modCfg_tx (s : State) (fn : Fn) (f : Cfg → Cfg) : (modCfg s fn f).tx = s.tx := rfl
@[simp] theorem modCfg_slowQ (s : State) (fn : Fn) (f : Cfg → Cfg) : (modCfg s fn f).slowQ = s.slowQ := rfl
@[simp] theorem modCfg_brmIn (s : State) (fn : Fn) (f : Cfg → Cfg) : (modCfg s fn f).brmIn = s.brmIn := rfl
@[simp] theorem modCfg_brmOut (s : State) (fn : Fn) (f : Cfg → Cfg) : (modCfg s fn f).brmOut = s.brmOut := rfl
@[simp] theorem modCfg_linkOut (s : State) (fn : Fn) (f : Cfg → Cfg) : (modCfg s fn f).linkOut = s.linkOut := rfl
@[simp] theorem modCfg_reasm (s : State) (fn : Fn) (f : Cfg → Cfg) : (modCfg s fn f).reasm = s.reasm := rfl
@[simp] theorem modCfg_descs (s : State) (fn : Fn) (f : Cfg → Cfg) : (modCfg s fn f).descs = s.descs := rfl
@[simp] theorem modCfg_nextDesc (s : State) (fn : Fn) (f : Cfg → Cfg) : (modCfg s fn f).nextDesc = s.nextDesc := rfl
@[simp] theorem modCfg_stgWin (s : State) (fn : Fn) (f : Cfg → Cfg) : (modCfg s fn f).stgWin = s.stgWin := rfl
@[simp] theorem modCfg_stgs (s : State) (fn : Fn) (f : Cfg → Cfg) : (modCfg s fn f).stgs = s.stgs := rfl
@[simp] theorem modCfg_lateTags (s : State) (fn : Fn) (f : Cfg → Cfg) : (modCfg s fn f).lateTags = s.lateTags := rfl
@[simp] theorem modCfg_links (s : State) (fn : Fn) (f : Cfg → Cfg) : (modCfg s fn f).links = s.links := rfl
@[simp] theorem modCfg_sw (s : State) (fn : Fn) (f : Cfg → Cfg) : (modCfg s fn f).sw = s.sw := rfl
@[simp] theorem modCfg_reply (s : State) (fn : Fn) (f : Cfg → Cfg) : (modCfg s fn f).reply = s.reply := rfl
@[simp] theorem modCfg_replyPoison (s : State) (fn : Fn) (f : Cfg → Cfg) : (modCfg s fn f).replyPoison = s.replyPoison := rfl
@[simp] theorem modCfg_heldHost (s : State) (fn : Fn) (f : Cfg → Cfg) : (modCfg s fn f).heldHost = s.heldHost := rfl
@[simp] theorem modCfg_boot (s : State) (fn : Fn) (f : Cfg → Cfg) : (modCfg s fn f).boot = s.boot := rfl
@[simp] theorem modCfg_pwr (s : State) (fn : Fn) (f : Cfg → Cfg) : (modCfg s fn f).pwr = s.pwr := rfl
@[simp] theorem modCfg_drst (s : State) (fn : Fn) (f : Cfg → Cfg) : (modCfg s fn f).drst = s.drst := rfl
@[simp] theorem modCfg_trc (s : State) (fn : Fn) (f : Cfg → Cfg) : (modCfg s fn f).trc = s.trc := rfl
@[simp] theorem modCfg_err (s : State) (fn : Fn) (f : Cfg → Cfg) : (modCfg s fn f).err = s.err := rfl
@[simp] theorem modCfg_pair (s : State) (fn : Fn) (f : Cfg → Cfg) : (modCfg s fn f).pair = s.pair := rfl
@[simp] theorem modCfg_jtag (s : State) (fn : Fn) (f : Cfg → Cfg) : (modCfg s fn f).jtag = s.jtag := rfl
@[simp] theorem modCfg_smp (s : State) (fn : Fn) (f : Cfg → Cfg) : (modCfg s fn f).smp = s.smp := rfl
@[simp] theorem modCfg_tally (s : State) (fn : Fn) (f : Cfg → Cfg) : (modCfg s fn f).tally = s.tally := rfl
@[simp] theorem modCfg_mtr (s : State) (fn : Fn) (f : Cfg → Cfg) : (modCfg s fn f).mtr = s.mtr := rfl

/-! ## What `hostWrite` leaves alone -/

@[simp] theorem hostWrite_pending (s : State) (bus : Nat) (d : List Byte) : (hostWrite s bus d).pending = s.pending := rfl
@[simp] theorem hostWrite_free (s : State) (bus : Nat) (d : List Byte) : (hostWrite s bus d).free = s.free := rfl
@[simp] theorem hostWrite_devTime (s : State) (bus : Nat) (d : List Byte) : (hostWrite s bus d).devTime = s.devTime := rfl
@[simp] theorem hostWrite_regs (s : State) (bus : Nat) (d : List Byte) : (hostWrite s bus d).regs = s.regs := rfl
@[simp] theorem hostWrite_mem (s : State) (bus : Nat) (d : List Byte) : (hostWrite s bus d).mem = s.mem := rfl
@[simp] theorem hostWrite_hostHeld (s : State) (bus : Nat) (d : List Byte) : (hostWrite s bus d).hostHeld = s.hostHeld := rfl
@[simp] theorem hostWrite_poison (s : State) (bus : Nat) (d : List Byte) : (hostWrite s bus d).poison = s.poison := rfl
@[simp] theorem hostWrite_ue (s : State) (bus : Nat) (d : List Byte) : (hostWrite s bus d).ue = s.ue := rfl
@[simp] theorem hostWrite_guard (s : State) (bus : Nat) (d : List Byte) : (hostWrite s bus d).guard = s.guard := rfl
@[simp] theorem hostWrite_stkUe (s : State) (bus : Nat) (d : List Byte) : (hostWrite s bus d).stkUe = s.stkUe := rfl
@[simp] theorem hostWrite_heldW (s : State) (bus : Nat) (d : List Byte) : (hostWrite s bus d).heldW = s.heldW := rfl
@[simp] theorem hostWrite_unmaps (s : State) (bus : Nat) (d : List Byte) : (hostWrite s bus d).unmaps = s.unmaps := rfl
@[simp] theorem hostWrite_rowSpread (s : State) (bus : Nat) (d : List Byte) : (hostWrite s bus d).rowSpread = s.rowSpread := rfl
@[simp] theorem hostWrite_gt (s : State) (bus : Nat) (d : List Byte) : (hostWrite s bus d).gt = s.gt := rfl
@[simp] theorem hostWrite_gran (s : State) (bus : Nat) (d : List Byte) : (hostWrite s bus d).gran = s.gran := rfl
@[simp] theorem hostWrite_spill (s : State) (bus : Nat) (d : List Byte) : (hostWrite s bus d).spill = s.spill := rfl
@[simp] theorem hostWrite_ctxFn (s : State) (bus : Nat) (d : List Byte) : (hostWrite s bus d).ctxFn = s.ctxFn := rfl
@[simp] theorem hostWrite_snaps (s : State) (bus : Nat) (d : List Byte) : (hostWrite s bus d).snaps = s.snaps := rfl
@[simp] theorem hostWrite_cfg (s : State) (bus : Nat) (d : List Byte) : (hostWrite s bus d).cfg = s.cfg := rfl
@[simp] theorem hostWrite_threads (s : State) (bus : Nat) (d : List Byte) : (hostWrite s bus d).threads = s.threads := rfl
@[simp] theorem hostWrite_saved (s : State) (bus : Nat) (d : List Byte) : (hostWrite s bus d).saved = s.saved := rfl
@[simp] theorem hostWrite_accs (s : State) (bus : Nat) (d : List Byte) : (hostWrite s bus d).accs = s.accs := rfl
@[simp] theorem hostWrite_waitSets (s : State) (bus : Nat) (d : List Byte) : (hostWrite s bus d).waitSets = s.waitSets := rfl
@[simp] theorem hostWrite_fstore (s : State) (bus : Nat) (d : List Byte) : (hostWrite s bus d).fstore = s.fstore := rfl
@[simp] theorem hostWrite_nextLaunch (s : State) (bus : Nat) (d : List Byte) : (hostWrite s bus d).nextLaunch = s.nextLaunch := rfl
@[simp] theorem hostWrite_launches (s : State) (bus : Nat) (d : List Byte) : (hostWrite s bus d).launches = s.launches := rfl
@[simp] theorem hostWrite_comps (s : State) (bus : Nat) (d : List Byte) : (hostWrite s bus d).comps = s.comps := rfl
@[simp] theorem hostWrite_cmpJobs (s : State) (bus : Nat) (d : List Byte) : (hostWrite s bus d).cmpJobs = s.cmpJobs := rfl
@[simp] theorem hostWrite_resJobs (s : State) (bus : Nat) (d : List Byte) : (hostWrite s bus d).resJobs = s.resJobs := rfl
@[simp] theorem hostWrite_syn (s : State) (bus : Nat) (d : List Byte) : (hostWrite s bus d).syn = s.syn := rfl
@[simp] theorem hostWrite_near (s : State) (bus : Nat) (d : List Byte) : (hostWrite s bus d).near = s.near := rfl
@[simp] theorem hostWrite_grp (s : State) (bus : Nat) (d : List Byte) : (hostWrite s bus d).grp = s.grp := rfl
@[simp] theorem hostWrite_clu (s : State) (bus : Nat) (d : List Byte) : (hostWrite s bus d).clu = s.clu := rfl
@[simp] theorem hostWrite_arb (s : State) (bus : Nat) (d : List Byte) : (hostWrite s bus d).arb = s.arb := rfl
@[simp] theorem hostWrite_rounds (s : State) (bus : Nat) (d : List Byte) : (hostWrite s bus d).rounds = s.rounds := rfl
@[simp] theorem hostWrite_inst (s : State) (bus : Nat) (d : List Byte) : (hostWrite s bus d).inst = s.inst := rfl
@[simp] theorem hostWrite_sqs (s : State) (bus : Nat) (d : List Byte) : (hostWrite s bus d).sqs = s.sqs := rfl
@[simp] theorem hostWrite_cqs (s : State) (bus : Nat) (d : List Byte) : (hostWrite s bus d).cqs = s.cqs := rfl
@[simp] theorem hostWrite_cnts (s : State) (bus : Nat) (d : List Byte) : (hostWrite s bus d).cnts = s.cnts := rfl
@[simp] theorem hostWrite_ctxs (s : State) (bus : Nat) (d : List Byte) : (hostWrite s bus d).ctxs = s.ctxs := rfl
@[simp] theorem hostWrite_qpGens (s : State) (bus : Nat) (d : List Byte) : (hostWrite s bus d).qpGens = s.qpGens := rfl
@[simp] theorem hostWrite_regGens (s : State) (bus : Nat) (d : List Byte) : (hostWrite s bus d).regGens = s.regGens := rfl
@[simp] theorem hostWrite_brmIv (s : State) (bus : Nat) (d : List Byte) : (hostWrite s bus d).brmIv = s.brmIv := rfl
@[simp] theorem hostWrite_rmaDrop (s : State) (bus : Nat) (d : List Byte) : (hostWrite s bus d).rmaDrop = s.rmaDrop := rfl
@[simp] theorem hostWrite_keys (s : State) (bus : Nat) (d : List Byte) : (hostWrite s bus d).keys = s.keys := rfl
@[simp] theorem hostWrite_sec (s : State) (bus : Nat) (d : List Byte) : (hostWrite s bus d).sec = s.sec := rfl
@[simp] theorem hostWrite_fw (s : State) (bus : Nat) (d : List Byte) : (hostWrite s bus d).fw = s.fw := rfl
@[simp] theorem hostWrite_phy (s : State) (bus : Nat) (d : List Byte) : (hostWrite s bus d).phy = s.phy := rfl
@[simp] theorem hostWrite_prism (s : State) (bus : Nat) (d : List Byte) : (hostWrite s bus d).prism = s.prism := rfl
@[simp] theorem hostWrite_iris (s : State) (bus : Nat) (d : List Byte) : (hostWrite s bus d).iris = s.iris := rfl
@[simp] theorem hostWrite_rx (s : State) (bus : Nat) (d : List Byte) : (hostWrite s bus d).rx = s.rx := rfl
@[simp] theorem hostWrite_tx (s : State) (bus : Nat) (d : List Byte) : (hostWrite s bus d).tx = s.tx := rfl
@[simp] theorem hostWrite_slowQ (s : State) (bus : Nat) (d : List Byte) : (hostWrite s bus d).slowQ = s.slowQ := rfl
@[simp] theorem hostWrite_brmIn (s : State) (bus : Nat) (d : List Byte) : (hostWrite s bus d).brmIn = s.brmIn := rfl
@[simp] theorem hostWrite_brmOut (s : State) (bus : Nat) (d : List Byte) : (hostWrite s bus d).brmOut = s.brmOut := rfl
@[simp] theorem hostWrite_linkOut (s : State) (bus : Nat) (d : List Byte) : (hostWrite s bus d).linkOut = s.linkOut := rfl
@[simp] theorem hostWrite_reasm (s : State) (bus : Nat) (d : List Byte) : (hostWrite s bus d).reasm = s.reasm := rfl
@[simp] theorem hostWrite_descs (s : State) (bus : Nat) (d : List Byte) : (hostWrite s bus d).descs = s.descs := rfl
@[simp] theorem hostWrite_nextDesc (s : State) (bus : Nat) (d : List Byte) : (hostWrite s bus d).nextDesc = s.nextDesc := rfl
@[simp] theorem hostWrite_stgWin (s : State) (bus : Nat) (d : List Byte) : (hostWrite s bus d).stgWin = s.stgWin := rfl
@[simp] theorem hostWrite_stgs (s : State) (bus : Nat) (d : List Byte) : (hostWrite s bus d).stgs = s.stgs := rfl
@[simp] theorem hostWrite_lateTags (s : State) (bus : Nat) (d : List Byte) : (hostWrite s bus d).lateTags = s.lateTags := rfl
@[simp] theorem hostWrite_links (s : State) (bus : Nat) (d : List Byte) : (hostWrite s bus d).links = s.links := rfl
@[simp] theorem hostWrite_sw (s : State) (bus : Nat) (d : List Byte) : (hostWrite s bus d).sw = s.sw := rfl
@[simp] theorem hostWrite_reply (s : State) (bus : Nat) (d : List Byte) : (hostWrite s bus d).reply = s.reply := rfl
@[simp] theorem hostWrite_replyPoison (s : State) (bus : Nat) (d : List Byte) : (hostWrite s bus d).replyPoison = s.replyPoison := rfl
@[simp] theorem hostWrite_heldHost (s : State) (bus : Nat) (d : List Byte) : (hostWrite s bus d).heldHost = s.heldHost := rfl
@[simp] theorem hostWrite_boot (s : State) (bus : Nat) (d : List Byte) : (hostWrite s bus d).boot = s.boot := rfl
@[simp] theorem hostWrite_pwr (s : State) (bus : Nat) (d : List Byte) : (hostWrite s bus d).pwr = s.pwr := rfl
@[simp] theorem hostWrite_drst (s : State) (bus : Nat) (d : List Byte) : (hostWrite s bus d).drst = s.drst := rfl
@[simp] theorem hostWrite_trc (s : State) (bus : Nat) (d : List Byte) : (hostWrite s bus d).trc = s.trc := rfl
@[simp] theorem hostWrite_err (s : State) (bus : Nat) (d : List Byte) : (hostWrite s bus d).err = s.err := rfl
@[simp] theorem hostWrite_pair (s : State) (bus : Nat) (d : List Byte) : (hostWrite s bus d).pair = s.pair := rfl
@[simp] theorem hostWrite_jtag (s : State) (bus : Nat) (d : List Byte) : (hostWrite s bus d).jtag = s.jtag := rfl
@[simp] theorem hostWrite_smp (s : State) (bus : Nat) (d : List Byte) : (hostWrite s bus d).smp = s.smp := rfl
@[simp] theorem hostWrite_tally (s : State) (bus : Nat) (d : List Byte) : (hostWrite s bus d).tally = s.tally := rfl
@[simp] theorem hostWrite_mtr (s : State) (bus : Nat) (d : List Byte) : (hostWrite s bus d).mtr = s.mtr := rfl

end Sys2Proof.Machine
end

