-- ==== Sys2Proof/Laws/Issue.lean ====
section
/-! SUPPORT. What the issue of a thread instruction answers: the one case a READY thread meets, for each kind of effect. -/

namespace Sys2Proof.Machine

theorem tget?_mem_key {α : Type} (m : Tab α) {k : Nat} {v : α} (h : tget? m k = some v) : (k, v) ∈ m := by
  induction m with
  | nil => simp [tget?] at h
  | cons c r ih =>
    obtain ⟨j, w⟩ := c
    simp only [tget?] at h
    split at h
    · simp_all
    · exact List.mem_cons_of_mem _ (ih h)

theorem mem_tset_cases {α : Type} (m : Tab α) {k : Nat} {v : α} {p : Nat × α} (h : p ∈ tset m k v) : p = (k, v) ∨ p ∈ m := by
  induction m with
  | nil => simpa [tset] using h
  | cons c r ih =>
    obtain ⟨j, w⟩ := c
    simp only [tset] at h
    split at h
    · rcases List.mem_cons.1 h with h | h <;> simp_all
    · split at h
      · rcases List.mem_cons.1 h with h | h <;> simp_all
      · rcases List.mem_cons.1 h with h | h
        · simp_all
        · rcases ih h with h | h <;> simp_all

/-- With no wait due, nothing settles. -/
theorem settle_id {s : State} (h : Settled s) : settle s = s := by
  have key : ∀ l : List (Nat × Thread), l.foldl (fun s p => match p.2.st with
      | .waiting a b => match getThr s (tidOf p.1) with
        | some th => if th.st = .waiting a b ∧ clusterRuns s (p.1 / 64 / 8) ∧ waitHolds th a.toNat b.toNat then finishWait s (tidOf p.1) th a.toNat b.toNat else s
        | none => s
      | _ => s) s = s := by
    intro l
    induction l with
    | nil => rfl
    | cons p r ih =>
      rw [List.foldl_cons]
      have hp : (match p.2.st with
        | .waiting a b => match getThr s (tidOf p.1) with
          | some th => if th.st = .waiting a b ∧ clusterRuns s (p.1 / 64 / 8) ∧ waitHolds th a.toNat b.toNat then finishWait s (tidOf p.1) th a.toNat b.toNat else s
          | none => s
        | _ => s) = s := by
        split
        · split
          · rename_i a b _ th ht
            rw [if_neg]
            rintro ⟨h1, -, h2⟩
            have := h _ (tget?_mem_key _ ht) _ _ h1
            rw [this] at h2
            cases h2
          · rfl
        · rfl
      rw [hp]
      exact ih
  exact key s.threads

theorem settled_putThr {s u : State} {t : Tid} {th : Thread} (h : Settled s) (hu : u.threads = s.threads)
    (hs : th.st = .ready) : Settled (putThr u t th) := by
  intro p hp a b hw
  rcases mem_tset_cases _ hp with rfl | hp
  · rw [hs] at hw; cases hw
  · exact h p (hu ▸ hp) a b hw

/-! ## What counting changes -/

theorem countEv_ex (s : State) (f : BitVec 10) (vi : Vi) (i n : Nat) : ∃ c, countEv s f vi i n = { s with cnts := c } := by
  unfold countEv
  split
  · generalize List.range 32 = l
    induction l generalizing s with
    | nil => exact ⟨s.cnts, rfl⟩
    | cons j r ih =>
      rw [List.foldl_cons]
      split
      · rename_i h _
        obtain ⟨c, hc⟩ := ih { s with cnts := tset s.cnts (cntKey f vi j) (BitVec.ofNat 48 ((tget s.cnts (cntKey f vi j) ((0 : BitVec 48), false)).1.toNat + n), (tget s.cnts (cntKey f vi j) ((0 : BitVec 48), false)).2 || decide ((tget s.cnts (cntKey f vi j) ((0 : BitVec 48), false)).1.toNat + n ≥ 2 ^ 48)) } h
        exact ⟨c, hc⟩
      · rename_i h _
        exact ih s h
  · exact ⟨s.cnts, rfl⟩

/-- Counting an event changes operation counters only. -/
theorem countEv_eq (s : State) (f : BitVec 10) (vi : Vi) (i n : Nat) :
    countEv s f vi i n = { s with cnts := (countEv s f vi i n).cnts } := by
  obtain ⟨c, hc⟩ := countEv_ex s f vi i n
  rw [hc]

/-- An issued instruction changes operation counters and tallies. -/
theorem countIssue_eq (s : State) (f : BitVec 10) (vi : Vi) (m : Nat) :
    countIssue s f vi m = { s with cnts := (countIssue s f vi m).cnts, tally := (countIssue s f vi m).tally } := by
  unfold countIssue addTally
  rw [countEv_eq (countEv s f vi 0x01 1), countEv_eq s]
  split <;> rfl

@[simp] theorem countEv_threads (s : State) (f : BitVec 10) (vi : Vi) (i n : Nat) : (countEv s f vi i n).threads = s.threads := by
  rw [countEv_eq]

@[simp] theorem countIssue_threads (s : State) (f : BitVec 10) (vi : Vi) (m : Nat) : (countIssue s f vi m).threads = s.threads := by
  rw [countIssue_eq]

/-! ## What a slot's end leaves of a thread -/

theorem applyRes_st (th : Thread) (p : PendRes) : (applyRes th p).st = th.st := by
  unfold applyRes writeSpecial
  dsimp only
  repeat' split
  all_goals rfl

theorem retire_st (th : Thread) : (retire th).st = th.st := by
  unfold retire
  dsimp only
  generalize th.pend.filter (fun p => p.due == 0) = l
  have : ∀ (l : List PendRes) (x : Thread),
      (l.foldl (fun t p => { applyRes t p with loads := clobber t.loads p }) x).st = x.st := by
    intro l
    induction l with
    | nil => intro x; rfl
    | cons p r ih => intro x; rw [List.foldl_cons, ih]; exact applyRes_st x p
  exact this l _

@[simp] theorem advanceSlot_st (th : Thread) (ws : List Wr) : (advanceSlot th ws).st = th.st := retire_st _

@[simp] theorem goNext_st (th : Thread) (g : Goes) : (goNext th g).st = th.st := by
  unfold goNext
  repeat' split
  all_goals (try dsimp only)

/-! ## Issue -/

/-- Spending the turn's credit changes the credits of a Facet and nothing else. -/
theorem takeTurn_eq {s s1 : State} {t : Tid} {vi : Vi} (h : takeTurn s t vi = some s1) : s1 = { s with arb := s1.arb } := by
  unfold takeTurn at h
  split at h
  · cases h; rfl
  · cases h; rfl
  · split at h
    · cases h
    · split at h <;> cases h
      rfl

/-- A Facet of a dedicated cluster has no arbiter: the thread has the turn and nothing is spent. -/
theorem takeTurn_dedicated {s : State} {t : Tid} {v : Vi} (vi : Vi) (h : getClu s (cluOf t.facet) = .dedicated v) :
    takeTurn s t vi = some s := by
  rw [takeTurn, h]

theorem Issues.settled1 {s s1 : State} {t : Tid} {th : Thread} {c : Cls} {priv : Nat} (h : Issues s s1 t th c priv) : Settled s1 := by
  rw [takeTurn_eq h.turn]
  exact h.settled

theorem Issues.here1 {s s1 : State} {t : Tid} {th : Thread} {c : Cls} {priv : Nat} (h : Issues s s1 t th c priv) :
    getThr s1 t = some th := by
  rw [takeTurn_eq h.turn]
  exact h.here

/-- A thread that has the turn issues its instruction. -/
theorem issue_now {s s1 : State} {t : Tid} {th : Thread} {c : Cls} {wf : Bool} {priv : Nat} {word : Word}
    {body : State → Thread → Eff} (h : Issues s s1 t th c priv) :
    issue t c wf priv word body s = .next (issueNow t c wf priv word body s th s1) := by
  unfold issue
  rw [h.here]
  simp only [h.ready, h.runs, h.free, h.turn, ne_eq, not_true_eq_false, Bool.not_true, Bool.false_eq_true, or_self, if_false]

/-- An instruction with an effect of its own and no trap issues. -/
theorem issue_ok {s s1 s' : State} {t : Tid} {th th' : Thread} {c : Cls} {wf : Bool} {priv : Nat} {word : Word}
    {body : State → Thread → Eff} {g : Goes} {ws : List Wr} (h : Issues s s1 t th c priv) (hw : wf = true)
    (hb : body s1 th = .ok s' th' ws g none) (hs : s'.threads = s1.threads) (ht : th'.st = .ready) :
    issue t c wf priv word body s = .next (issued s' t th' th.vi c.major g ws) := by
  rw [issue_now h]
  have hp : ¬ th.priv < priv := Nat.not_lt.2 h.priv
  simp only [issueNow, h.fetch, hw, hb, hp, h.step, stepTrap, Bool.not_true, Bool.false_eq_true, if_false]
  simp only [getThr, issued, putThr, tget?_tset_self, Bool.false_and, Bool.false_eq_true, if_false]
  congr 1
  exact settle_id (settled_putThr (u := nextFree (countIssue s' t.facet th.vi c.major)) h.settled1
    (by simp [nextFree, hs]) (by simp [ht]))

/-- An instruction whose effect is a trap. -/
theorem issue_trap {s s1 : State} {t : Tid} {th : Thread} {c : Cls} {wf : Bool} {priv : Nat} {word : Word}
    {body : State → Thread → Eff} {cause : Nat} {tval : Word} (h : Issues s s1 t th c priv) (hw : wf = true)
    (hb : body s1 th = .trap cause tval) :
    issue t c wf priv word body s = .next (trapped s1 t th cause tval) := by
  rw [issue_now h]
  have hp : ¬ th.priv < priv := Nat.not_lt.2 h.priv
  simp only [issueNow, h.fetch, hw, hb, hp, Bool.not_true, Bool.false_eq_true, if_false, trapped]

/-- A reserved encoding traps with ILLEGAL. -/
theorem issue_illegal {s s1 : State} {t : Tid} {th : Thread} {c : Cls} {priv : Nat} {word : Word}
    {body : State → Thread → Eff} (h : Issues s s1 t th c priv) :
    issue t c false priv word body s = .next (trapped s1 t th 1 word) := by
  rw [issue_now h]
  simp only [issueNow, h.fetch, Bool.not_false, if_true, trapped]

/-- An instruction that traps once it has issued (BREAK, HCALL). -/
theorem issue_after {s s1 s' : State} {t : Tid} {th th' : Thread} {c : Cls} {wf : Bool} {priv : Nat} {word : Word}
    {body : State → Thread → Eff} {g : Goes} {ws : List Wr} {cause : Nat} {tval : Word} (h : Issues s s1 t th c priv)
    (hw : wf = true) (hb : body s1 th = .ok s' th' ws g (some (cause, tval))) :
    issue t c wf priv word body s = .next (trapped (issued s' t th' th.vi c.major g ws) t (advanceSlot (goNext th' g) ws) cause tval) := by
  rw [issue_now h]
  have hp : ¬ th.priv < priv := Nat.not_lt.2 h.priv
  simp only [issueNow, h.fetch, hw, hb, hp, Bool.not_true, Bool.false_eq_true, if_false, trapped, issued]

/-- An instruction that only writes registers. -/
theorem issue_wr {s s1 : State} {t : Tid} {th : Thread} {c : Cls} {wf : Bool} {priv : Nat} {word : Word}
    {body : State → Thread → Eff} {ws : List Wr} (h : Issues s s1 t th c priv) (hw : wf = true)
    (hb : body s1 th = justWr s1 th ws) :
    issue t c wf priv word body s = .next (issued s1 t th th.vi c.major .on ws) :=
  issue_ok h hw hb rfl h.ready

end Sys2Proof.Machine
end

