-- ==== Sys2Proof/Laws/Trace.lean ====
section
/-! SUPPORT. What reporting changes: a trace packet changes the trace unit and host memory, nothing else of the state. -/

namespace Sys2Proof.Machine

/-- `u` is `s` but for the trace unit and what the device wrote to host memory. -/
def TrcOnly (s u : State) : Prop := u = { s with trc := u.trc, hostMem := u.hostMem, hostHeld := u.hostHeld }

theorem TrcOnly.rfl' (s : State) : TrcOnly s s := rfl

theorem TrcOnly.trans {s u w : State} (h : TrcOnly s u) (k : TrcOnly u w) : TrcOnly s w := by
  unfold TrcOnly at *
  rw [k, h]

theorem TrcOnly.trc {s u : State} (h : TrcOnly s u) (x : Trc) : TrcOnly s { u with trc := x } := by
  unfold TrcOnly at *
  rw [h]

theorem TrcOnly.ite {s u w : State} {c : Prop} [Decidable c] (h : TrcOnly s u) (k : TrcOnly s w) : TrcOnly s (if c then u else w) := by
  split
  · exact h
  · exact k

theorem hostPut_trcOnly (s : State) (fn : Fn) (bus : Nat) (d : List Byte) : TrcOnly s (hostPut s fn bus d) := by
  unfold hostPut
  split <;> rfl

theorem trcFlush_trcOnly (n : Nat) : ∀ s : State, TrcOnly s (trcFlush s n) := by
  induction n with
  | zero => intro s; rfl
  | succ n ih =>
    intro s
    unfold trcFlush
    dsimp only
    split
    · rfl
    · refine TrcOnly.ite (TrcOnly.rfl' s) (TrcOnly.trans (TrcOnly.trc (TrcOnly.trans ?_ (hostPut_trcOnly _ _ _ _)) _) (ih _))
      exact TrcOnly.ite (TrcOnly.rfl' s) (hostPut_trcOnly _ _ _ _)

theorem trcEnter_trcOnly (s : State) (p : List Word) : TrcOnly s (trcEnter s p) :=
  TrcOnly.trans (TrcOnly.trc (TrcOnly.rfl' s) _) (trcFlush_trcOnly 8 _)

theorem trcLoss_trcOnly (s : State) : TrcOnly s (trcLoss s) := by
  unfold trcLoss
  split
  · rfl
  · exact TrcOnly.trans (TrcOnly.trc (TrcOnly.rfl' s) _) (trcEnter_trcOnly _ _)

theorem trcDrop_trcOnly (s : State) : TrcOnly s (trcDrop s) := by
  unfold trcDrop
  dsimp only
  split <;> rfl

theorem trcOffer_trcOnly (s : State) (p : List Word) : TrcOnly s (trcOffer s p) := by
  unfold trcOffer
  split
  · rfl
  · split
    · exact trcDrop_trcOnly s
    · exact TrcOnly.trans (trcLoss_trcOnly s) (trcEnter_trcOnly _ _)

theorem trcTrigger_trcOnly (s : State) (src : Nat) : TrcOnly s (trcTrigger s src) := by
  unfold trcTrigger
  split
  · exact TrcOnly.trc (TrcOnly.trans (trcLoss_trcOnly s) (trcEnter_trcOnly _ _)) _
  · rfl

/-- A Facet event packet changes the trace unit and host memory only. -/
theorem facetEvent_trcOnly (s : State) (kind : Nat) (vi : Vi) (status : BitVec 8) (launch : Nat) (index : BitVec 32) (f : BitVec 10) :
    TrcOnly s (facetEvent s kind vi status launch index f) := by
  unfold facetEvent
  dsimp only
  split
  · refine TrcOnly.trans ?_ (trcTrigger_trcOnly _ _)
    split
    · exact trcOffer_trcOnly _ _
    · rfl
  · split
    · exact trcOffer_trcOnly _ _
    · rfl

theorem Tid.key_ne {a b : Tid} (h : a ≠ b) : Tid.key a ≠ Tid.key b := fun e => h (Tid.key_inj e)

/-- A trap whose thread has no handler ends it; one in handler mode leaves it TRAPPED (R103, R107, R108). -/
theorem takeTrap_unhandled (s : State) (t : Tid) (th : Thread) (cause : Nat) (tval : Word) (w : Bool)
    (h : th.handler = true ∨ hasHandler s th.vi = false) :
    ∃ u, takeTrap s t th cause tval w = putThr u t (if th.handler then { th with cause := BitVec.ofNat 8 cause, st := .trapped }
        else { th with cause := BitVec.ofNat 8 cause, st := .ending, endSt := trapStatus cause, pend := [] })
      ∧ u = { s with trc := u.trc, hostMem := u.hostMem, hostHeld := u.hostHeld, cnts := u.cnts, threads := u.threads }
      ∧ ∀ t', t' ≠ t → getThr u t' = getThr s t' := by
  have hc := countEv_eq s t.facet th.vi (0x50 + cause) 1
  have hf := facetEvent_trcOnly (countEv s t.facet th.vi (0x50 + cause) 1) 3 th.vi (BitVec.ofNat 8 cause) th.launch th.index t.facet
  unfold TrcOnly at hf
  generalize hx : facetEvent (countEv s t.facet th.vi (0x50 + cause) 1) 3 th.vi (BitVec.ofNat 8 cause) th.launch th.index t.facet = x at hf
  refine ⟨putThr x t { th with cause := BitVec.ofNat 8 cause }, ?_, ?_, ?_⟩
  · unfold takeTrap
    simp only [hx]
    by_cases hh : th.handler = true
    · simp [hh]
    · have h2 : hasHandler s th.vi = false := by simpa [hh] using h
      have h3 : hasHandler (putThr x t { th with cause := BitVec.ofNat 8 cause }) th.vi = false := by
        rw [← h2, hf, hc]
        rfl
      rw [if_neg hh, if_neg hh]
      rw [if_neg (by rw [h3]; exact Bool.false_ne_true)]
      rfl
  · rw [hf, hc]
    rfl
  · intro t' ht
    rw [getThr_putThr_ne _ _ ht, hf, hc]
    rfl

end Sys2Proof.Machine
end

