-- ==== Sys2Proof/Laws/MemIssue.lean ====
section
/-! SUPPORT. Issue of memory instructions: counting leaves everything the instruction reads, and an access that stays home sends no
message. -/

namespace Sys2Proof.Machine

theorem countsOnly.refl (s : State) : countsOnly s s := rfl

theorem countsOnly.trans {s u w : State} (h : countsOnly s u) (k : countsOnly u w) : countsOnly s w := by
  unfold countsOnly at *
  rw [k, h]

theorem countsOnly.threads {s u : State} (h : countsOnly s u) : u.threads = s.threads := by rw [h]

theorem countEv_counts (s : State) (f : BitVec 10) (vi : Vi) (i n : Nat) : countsOnly s (countEv s f vi i n) := by
  obtain ⟨c, hc⟩ := countEv_ex s f vi i n
  rw [hc]
  rfl

theorem addTally_counts (s : State) (f : BitVec 10) (vi : Vi) (k n : Nat) : countsOnly s (addTally s f vi k n) := rfl

theorem countStore_counts (s : State) (f : BitVec 10) (vi : Vi) : countsOnly s (countStore s f vi) :=
  (countEv_counts s f vi 0x50 1).trans (addTally_counts _ _ _ _ _)

theorem countIssue_counts (s : State) (f : BitVec 10) (vi : Vi) (m : Nat) : countsOnly s (countIssue s f vi m) := by
  unfold countsOnly
  conv_lhs => rw [countIssue_eq]

theorem countTarget_counts (s : State) (t : Tid) (vi : Vi) (b : Nat) (a : Word) (n : Nat) (k : AccKind) :
    countsOnly s (countTarget s t vi b a n k) := by
  unfold countTarget
  split
  · exact countEv_counts _ _ _ _ _
  · rfl

/-- What an instruction reads of the state is not counters. -/
theorem countsOnly.reads {s u : State} (h : countsOnly s u) (th : Thread) (t : Tid) (vi : Vi) :
    (∀ r, rdG u th r = rdG s th r) ∧ (∀ r, rdV u th r = rdV s th r) ∧ fsSize u th = fsSize s th
    ∧ (∀ a n, fsBytes u t th a n = fsBytes s t th a n) ∧ (∀ a, fsByte u t th a = fsByte s t th a)
    ∧ (∀ a n k, translate u vi a n k = translate s vi a n k) ∧ u.accs = s.accs := by
  rw [h]
  exact ⟨fun _ => rfl, fun _ => rfl, rfl, fun _ _ => rfl, fun _ => rfl, fun _ _ _ => rfl, rfl⟩

theorem staysHome_counts {s u : State} (h : countsOnly s u) {vi : Vi} {act : Act} (k : staysHome s vi act) : staysHome u vi act := by
  rw [h]
  exact k

theorem sendRuns_home {s : State} {t : Tid} {vi : Vi} {op : Nat} {opc aux : BitVec 8} :
    ∀ l : List (Nat × Word × Nat × List Byte), (∀ p ∈ l, remoteOf s vi p.2.1 p.2.2.1 = none) →
      sendRuns s t vi op opc aux l = (s, 0) := by
  intro l
  induction l with
  | nil => intro _; rfl
  | cons p r ih =>
    intro h
    obtain ⟨o, a, n, d⟩ := p
    have h1 := h _ (List.mem_cons_self ..)
    simp only at h1
    simp only [sendRuns, h1]
    exact ih (fun q hq => h q (List.mem_cons_of_mem _ hq))

/-- Runs of which none names another device need no queue pair (R431). -/
theorem noQp_home {s : State} {vi : Vi} {l : List (Nat × Word × Nat × List Byte)}
    (h : ∀ p ∈ l, remoteOf s vi p.2.1 p.2.2.1 = none) : noQp s vi l = none := by
  unfold noQp
  rw [List.find?_eq_none.2 (fun p hp => by simp [h p hp])]
  rfl

/-- No run of an access that stays home names another device. -/
theorem accRuns_home {s : State} {vi : Vi} {act : Act} (h : staysHome s vi act) :
    ∀ p ∈ (accRuns s vi act).2.2, remoteOf s vi p.2.1 p.2.2.1 = none := by
  have rd : (∀ r ∈ actReads act, remoteOf s vi r.2.1 r.2.2 = none) →
      ((joinReads ((actReads act).filter (fun r => (remoteOf s vi r.2.1 r.2.2).isSome))).flatMap (cutRead 8)) = [] := by
    intro hr
    rw [List.filter_eq_nil_iff.2 (by intro r hm; simp [hr r hm])]
    rfl
  cases act <;> simp only [staysHome] at h <;> simp only [accRuns]
  case stLanes w l =>
    intro p hp
    obtain ⟨q, hq, rfl⟩ := List.mem_map.1 hp
    exact h q hq
  case amo op w a x y ret =>
    intro p hp
    rw [List.mem_singleton.1 hp]
    exact h
  all_goals
    rw [rd h]
    intro p hp
    cases hp

/-- An access that stays home sends no message and leaves its operation as it was issued (R430). -/
theorem sendRemote_home {s : State} {t : Tid} {th : Thread} {o : Op} (h : staysHome s th.vi o.act) :
    sendRemote s t th o = (s, th) := by
  unfold sendRemote
  simp only [noQp_home (accRuns_home h), sendRuns_home _ (accRuns_home h), if_true, ite_self]

/-- A load that stays home joins the thread's loads. -/
theorem startLoad_home {s : State} {t : Tid} {th : Thread} {act : Act} {dest : Option Dest} {a : Word} {n : Nat} {k : AccKind}
    (h : staysHome s th.vi act) :
    startLoad s t th act dest a n k = .ok (countTarget s t th.vi 0x40 a n k) (withLoad s th act dest) [] .on none := by
  unfold startLoad
  rw [sendRemote_home (th := withLoad s th act dest) (staysHome_counts (countTarget_counts _ _ _ _ _ _ _) h)]

/-- A store that stays home joins the thread's stores. -/
theorem startStore_home {s : State} {t : Tid} {th : Thread} {act : Act} {a : Word} {n : Nat} {k : AccKind}
    (h : staysHome s th.vi act) :
    startStore s t th act a n k = .ok (countTarget s t th.vi 0x48 a n k) (withStore s th act) [] .on none := by
  unfold startStore
  rw [sendRemote_home (th := withStore s th act) (staysHome_counts (countTarget_counts _ _ _ _ _ _ _) h)]

/-- An instruction that counts, changes its thread and writes registers. -/
theorem issues_ok {s s1 u : State} {t : Tid} {th th' : Thread} {c : Cls} {wf : Bool} {priv : Nat} {word : Word}
    {body : State → Thread → Eff} {g : Goes} {ws : List Wr} (h : Issues s s1 t th c priv) (hw : wf = true)
    (hu : countsOnly s1 u) (hb : body s1 th = .ok u th' ws g none) (ht : th'.st = .ready) :
    issues (issue t c wf priv word body s) s1 t th' th.vi c.major g ws :=
  ⟨u, hu, issue_ok h hw hb hu.threads ht⟩

end Sys2Proof.Machine
end

