-- ==== Sys2Proof/Laws/HostIssue.lean ====
section
/-! SUPPORT. What a host access that reaches its register answers, and what a status register reports once its command is complete. -/

namespace Sys2Proof.Machine

theorem stopEntry_awake {s : State} (h : s.pwr.st ≠ 3) (c : BitVec 8) (b : Nat) : stopEntry s c b = s := by
  unfold stopEntry
  rw [if_neg (fun k => h k.1)]

/-- A write that reaches its register performs the register's handler; where no thread is touched, nothing settles. -/
theorem hostWr_ok {s u : State} {fn : Fn} {off : Nat} {v : Word} {body : State → State} (h : HostReaches s fn off)
    (hb : body s = u) (ht : u.threads = s.threads) : hostWr fn off v body s = .next u := by
  unfold hostWr
  rw [h.gate]
  simp only [stopEntry_awake h.awake, hb]
  congr 1
  exact settle_id (by unfold Settled; rw [ht]; exact h.settled)

theorem hostWr_settles {s : State} {fn : Fn} {off : Nat} {v : Word} {body : State → State} (h : HostReaches s fn off) :
    hostWr fn off v body s = .next (settle (body s)) := by
  unfold hostWr
  rw [h.gate]
  simp only [stopEntry_awake h.awake]

theorem hostVi_ok {s u : State} {fn : Fn} {vi : Vi} {off : Nat} {v : Word} {body : State → State} (h : ViReaches s fn vi off)
    (hb : body s = u) (ht : u.threads = s.threads) : hostVi fn vi off v body s = .next u := by
  unfold hostVi
  rw [if_pos h.own]
  exact hostWr_ok h.reach hb ht

theorem hostVi_settles {s : State} {fn : Fn} {vi : Vi} {off : Nat} {v : Word} {body : State → State} (h : ViReaches s fn vi off) :
    hostVi fn vi off v body s = .next (settle (body s)) := by
  unfold hostVi
  rw [if_pos h.own]
  exact hostWr_settles h.reach

theorem hostPf_ok {s u : State} {fn : Fn} {off : Nat} {v : Word} {body : State → State} (hp : isPf fn = true)
    (h : HostReaches s fn off) (hb : body s = u) (ht : u.threads = s.threads) : hostPf fn off v body s = .next u := by
  unfold hostPf
  rw [if_pos hp]
  exact hostWr_ok h hb ht

theorem hostPf_settles {s : State} {fn : Fn} {off : Nat} {v : Word} {body : State → State} (hp : isPf fn = true)
    (h : HostReaches s fn off) : hostPf fn off v body s = .next (settle (body s)) := by
  unfold hostPf
  rw [if_pos hp]
  exact hostWr_settles h

/-- With nothing to settle, settling changes nothing. -/
theorem settle_same {s u : State} (h : Settled s) (ht : u.threads = s.threads) : settle u = u :=
  settle_id (by unfold Settled; rw [ht]; exact h)

/-! ## Bit fields of a register -/

theorem testBit_bits (w : Word) (hi lo i : Nat) :
    (bits w hi lo).testBit i = (decide (i < hi + 1 - lo) && w.getLsbD (lo + i)) := by
  unfold bits
  rw [Nat.testBit_mod_two_pow, Nat.testBit_shiftRight]
  rfl

theorem getLsbD_setBits (w : Word) (hi lo v i : Nat) (hi64 : i < 64) :
    (setBits w hi lo v).getLsbD i
      = if lo ≤ i ∧ i < hi + 1 then v.testBit (i - lo) else w.getLsbD i := by
  unfold setBits
  have h1 : (BitVec.ofNat 64 ((2 ^ (hi + 1 - lo) - 1) <<< lo)).getLsbD i = decide (lo ≤ i ∧ i < hi + 1) := by
    rw [BitVec.getLsbD_ofNat, Nat.testBit_shiftLeft, Nat.testBit_two_pow_sub_one]
    simp only [hi64, decide_true, Bool.true_and, ge_iff_le]
    rw [← Bool.decide_and]
    congr 1
    rw [eq_iff_iff]
    omega
  have h2 : (BitVec.ofNat 64 ((v % 2 ^ (hi + 1 - lo)) <<< lo)).getLsbD i = (decide (lo ≤ i ∧ i < hi + 1) && v.testBit (i - lo)) := by
    rw [BitVec.getLsbD_ofNat, Nat.testBit_shiftLeft, Nat.testBit_mod_two_pow]
    simp only [hi64, decide_true, Bool.true_and, ge_iff_le]
    by_cases c : lo ≤ i
    · simp only [c, decide_true, Bool.true_and, true_and]
      congr 2
      rw [eq_iff_iff]
      omega
    · simp [c]
  rw [BitVec.getLsbD_or, BitVec.getLsbD_and, BitVec.getLsbD_not, h1, h2]
  by_cases c : lo ≤ i ∧ i < hi + 1
  · simp [c]
  · rw [if_neg c, decide_eq_false c]
    simp [hi64]

/-- A field just written reads back. -/
theorem bits_setBits_self (w : Word) (hi lo v : Nat) (hh : hi < 64) : bits (setBits w hi lo v) hi lo = v % 2 ^ (hi + 1 - lo) := by
  apply Nat.eq_of_testBit_eq
  intro i
  rw [testBit_bits, Nat.testBit_mod_two_pow]
  by_cases c : i < hi + 1 - lo
  · rw [getLsbD_setBits _ _ _ _ _ (by omega), if_pos (by omega)]
    simp
  · simp [c]

/-- A field keeps its value while another one is written. -/
theorem bits_setBits_ne (w : Word) (hi lo v hi' lo' : Nat) (h : hi < lo' ∨ hi' < lo) (hh : hi' < 64) :
    bits (setBits w hi lo v) hi' lo' = bits w hi' lo' := by
  apply Nat.eq_of_testBit_eq
  intro i
  rw [testBit_bits, testBit_bits]
  by_cases c : i < hi' + 1 - lo'
  · rw [getLsbD_setBits _ _ _ _ _ (by omega), if_neg (by omega)]
  · simp [c]

/-- A complete command reports its status. -/
theorem reports_statDone (s : State) (k : Nat) (r : BitVec 8 × BitVec 8) : reports (statDone s k r) k r.1 r.2 := by
  unfold reports statDone
  rw [rget_rset_self]
  refine ⟨?_, ?_, ?_⟩
  · exact bits_setBits_self _ _ _ _ (by decide)
  · rw [bits_setBits_ne _ _ _ _ _ _ (by decide) (by decide), bits_setBits_self _ _ _ _ (by decide)]
    exact Nat.mod_eq_of_lt r.1.isLt
  · rw [bits_setBits_ne _ _ _ _ _ _ (by decide) (by decide), bits_setBits_ne _ _ _ _ _ _ (by decide) (by decide),
      bits_setBits_self _ _ _ _ (by decide)]
    exact Nat.mod_eq_of_lt r.2.isLt

/-- A status register keeps its other fields as its command completes. -/
theorem statDone_keeps_field (s : State) (k : Nat) (r : BitVec 8 × BitVec 8) (hi lo : Nat) (h : 24 ≤ lo ∨ (8 > hi ∧ lo ≥ 1)) (hh : hi < 64) :
    bits (rget (statDone s k r) k) hi lo = bits (rget s k) hi lo := by
  unfold statDone
  rw [rget_rset_self, bits_setBits_ne _ _ _ _ _ _ (by omega) hh, bits_setBits_ne _ _ _ _ _ _ (by omega) hh,
    bits_setBits_ne _ _ _ _ _ _ (by omega) hh]

theorem rget_statDone_ne (s : State) {k n : Nat} (r : BitVec 8 × BitVec 8) (h : n ≠ k) : rget (statDone s k r) n = rget s n := by
  unfold statDone
  exact rget_rset_ne _ _ h

/-- `u` is `w` but for registers, none of them outside `ks`. -/
def RegsOnly (ks : List Nat) (w u : State) : Prop := u = { w with regs := u.regs } ∧ ∀ n, n ∉ ks → rget u n = rget w n

theorem RegsOnly.refl (ks : List Nat) (s : State) : RegsOnly ks s s := ⟨rfl, fun _ _ => rfl⟩

theorem RegsOnly.trans {ks : List Nat} {a b c : State} (h : RegsOnly ks a b) (k : RegsOnly ks b c) : RegsOnly ks a c := by
  refine ⟨?_, fun n hn => (k.2 n hn).trans (h.2 n hn)⟩
  have h1 := h.1; have k1 := k.1
  rw [h1] at k1; exact k1

theorem regsOnly_rset {ks : List Nat} {w u : State} {k : Nat} {v : Word} (h : RegsOnly ks w u) (hk : k ∈ ks) :
    RegsOnly ks w (rset u k v) := by
  refine h.trans ⟨rfl, fun n hn => ?_⟩
  exact rget_rset_ne _ _ (fun e => hn (e ▸ hk))

theorem regsOnly_statDone {ks : List Nat} {w u : State} {k : Nat} {r : BitVec 8 × BitVec 8} (h : RegsOnly ks w u) (hk : k ∈ ks) :
    RegsOnly ks w (statDone u k r) := regsOnly_rset h hk

theorem regsOnly_statStart {ks : List Nat} {w u : State} {k : Nat} (h : RegsOnly ks w u) (hk : k ∈ ks) :
    RegsOnly ks w (statStart u k) := regsOnly_rset h hk

/-- A command whose last effect is its status register's report is complete. -/
theorem answers_intro {o : Host.Outcome State Fault Refusal} {w u : State} {ks : List Nat} {k : Nat} {r : BitVec 8 × BitVec 8}
    (ho : o = .next (statDone u k r)) (h : RegsOnly (k :: ks) w u) : answers o w ks k r.1 r.2 := by
  have h2 := regsOnly_statDone (r := r) h (List.mem_cons_self)
  exact ⟨_, ho, h2.1, h2.2, reports_statDone _ _ _⟩

end Sys2Proof.Machine
end

