-- ==== Sys2Proof/Laws/KeepsUnits.lean ====
section
/-! SUPPORT. Lemmas of the relation `Keeps`: units, memory management, synchronisation from the host, resources, queues, transfers and the endpoint. One lemma a function; each says what the function keeps. -/

namespace Sys2Proof.Machine

/-! ## Host -/

theorem modCfg_keeps (s fn f) : Keeps s (modCfg s fn f) := by
  unfold modCfg
  exact (.same ⟨rfl, rfl, rfl, rfl, rfl⟩)

theorem aerCor_keeps (s fn b) : Keeps s (aerCor s fn b) := by
  unfold aerCor
  exact (modCfg_keeps ..)

theorem aerRecord_keeps (s fn arg0) : Keeps s (aerRecord s fn arg0) := by
  unfold aerRecord
  exact (raiseErr_keeps ..)

theorem aerUnc_keeps (s fn b hdr) : Keeps s (aerUnc s fn b hdr) := by
  unfold aerUnc
  extract_lets +onlyGivenNames x1
  extract_lets +onlyGivenNames x2
  extract_lets +onlyGivenNames x3
  have h4 : Keeps s x3 := (modCfg_keeps ..)
  clear_value x3
  extract_lets +onlyGivenNames x5
  have h6 : Keeps s x5 := by
    unfold x5
    refine .ite h4 ?_
    split
    · exact (.of (modCfg_keeps ..) h4)
    · exact (.of (aerCor_keeps ..) h4)
  clear_value x5
  extract_lets +onlyGivenNames x7
  have h8 : Keeps s x7 := by
    unfold x7
    refine .ite (.of (aerCor_keeps ..) h6) ?_
    exact h6
  clear_value x7
  exact (.of (aerRecord_keeps ..) h8)

theorem aerReq_keeps (s fn b) : Keeps s (aerReq s fn b) := by
  unfold aerReq
  exact (.of (nextFree_keeps ..) (aerUnc_keeps ..))

theorem gotPoison_keeps (s vi) : Keeps s (gotPoison s vi) := by
  unfold gotPoison
  exact (.of (aerReq_keeps ..) (modInst_keeps ..))

theorem startWake_keeps (s cause enBit) : Keeps s (startWake s cause enBit) := by
  unfold startWake
  refine .ite (.same ⟨rfl, rfl, rfl, rfl, rfl⟩) ?_
  exact (.refl _)

theorem stopEntry_keeps (s cause enBit) : Keeps s (stopEntry s cause enBit) := by
  unfold stopEntry
  refine .ite (.of (statDone_keeps ..) (.same ⟨rfl, rfl, rfl, rfl, rfl⟩)) ?_
  exact (.refl _)

theorem hostWr_keeps (fn off v body s) (h : ∀ s, Keeps s (body s)) : KeepsO s (hostWr fn off v body s) := by
  unfold hostWr
  split
  · exact .next (.refl _)
  · exact .next (aerReq_keeps ..)
  · exact .next (.refl _)
  · exact .next (.of (startWake_keeps ..) (.same ⟨rfl, rfl, rfl, rfl, rfl⟩))
  · exact .next (.of (stopEntry_keeps ..) (.same ⟨rfl, rfl, rfl, rfl, rfl⟩))
  · exact .next (.of (settle_keeps ..) (.of (h ..) (stopEntry_keeps ..)))

/-! ## Discard -/

theorem orphan_keeps (s vi t) : Keeps s (orphan s vi t) := by
  unfold orphan
  extract_lets +onlyGivenNames x1
  extract_lets +onlyGivenNames x2
  extract_lets +onlyGivenNames x3
  exact (.same ⟨rfl, rfl, rfl, rfl, rfl⟩)

theorem discardThread_keeps (s t) : Keeps s (discardThread s t) := by
  unfold discardThread
  split
  · exact (.refl _)
  · extract_lets +onlyGivenNames x1
    have h2 : Keeps s x1 := (withdrawSyncs_keeps ..)
    clear_value x1
    extract_lets +onlyGivenNames x3
    have h4 : Keeps s x3 := (.of (orphan_keeps ..) h2)
    clear_value x3
    extract_lets +onlyGivenNames x5
    have h6 : Keeps s x5 := by
      unfold x5
      refine .ite (.of (abandonLocks_keeps ..) h4) ?_
      exact (.of (abandonLocks_keeps ..) h4)
    clear_value x5
    extract_lets +onlyGivenNames x7
    have h8 : Keeps s x7 := by
      unfold x7
      refine .ite (.of (statDone_keeps ..) h6) ?_
      exact h6
    clear_value x7
    exact (.of (delThr_keeps ..) (.of (dropRecord_keeps ..) h8))

theorem discardSaved_keeps (s x) : Keeps s (discardSaved s x) := by
  unfold discardSaved
  extract_lets +onlyGivenNames x1
  have h2 : Keeps s x1 := by
    unfold x1
    refine .ite (abandonLocks_keeps ..) ?_
    exact (abandonLocks_keeps ..)
  clear_value x1
  exact (.of (spillFree_keeps ..) (h2.trans (.same ⟨rfl, rfl, rfl, rfl, rfl⟩)))

theorem discardLaunchThreads_keeps (s num) : Keeps s (discardLaunchThreads s num) := by
  unfold discardLaunchThreads
  extract_lets +onlyGivenNames x1
  have h2 : Keeps s x1 := by
    unfold x1
    refine Keeps.foldl (fun s3 y4 => ?_)
    exact (discardThread_keeps ..)
  clear_value x1
  refine .of (Keeps.foldl (fun s5 y6 => ?_)) h2
  exact (discardSaved_keeps ..)

theorem abortLaunch_keeps (s l dcode) : Keeps s (abortLaunch s l dcode) := by
  unfold abortLaunch
  extract_lets +onlyGivenNames x1
  exact (.of (dropLaunch_keeps ..) (.of (launchRecord_keeps ..) (discardLaunchThreads_keeps ..)))

theorem leaveOne_keeps (s num f) : Keeps s (leaveOne s num f).1 := by
  unfold leaveOne
  extract_lets +onlyGivenNames x1
  extract_lets +onlyGivenNames x2
  have h3 : Keeps s x2 := by
    unfold x2
    refine Keeps.foldl (fun s4 y5 => ?_)
    exact (beginSave_keeps ..)
  clear_value x2
  exact (.pair (.of (leaveFacet_keeps ..) h3))

theorem reshapeLaunch_keeps (s l) : Keeps s (reshapeLaunch s l).1 := by
  unfold reshapeLaunch
  split
  · exact (.pair (.refl _))
  · split
    · rename_i s2 _ e4
      have h5 : Keeps s s2 := by
        refine Keeps.fst e4 ?_
        refine .of (Keeps.foldlP (fun p6 y7 => ?_)) (.pair (.refl _))
        split
        · rename_i s9 _ e11
          have h12 : Keeps p6.1 s9 := .fst e11 (leaveOne_keeps ..)
          exact h12
      extract_lets +onlyGivenNames x13
      split
      · exact (.pair (.of (setCompSt_keeps ..) h5))
      · exact h5

theorem reshapeHandlers_keeps (s vi) : Keeps s (reshapeHandlers s vi).1 := by
  unfold reshapeHandlers
  extract_lets +onlyGivenNames x1
  refine .pair ?_
  refine Keeps.foldl (fun s2 y3 => ?_)
  exact (beginSave_keeps ..)

theorem reshape_keeps (s vi) : Keeps s (reshape s vi).1 := by
  unfold reshape
  split
  · rename_i s2 _ e4
    have h5 : Keeps s s2 := by
      refine Keeps.fst e4 ?_
      refine .of (Keeps.foldlP (fun p6 y7 => ?_)) (.pair (.refl _))
      split
      · rename_i s9 _ e11
        have h12 : Keeps p6.1 s9 := .fst e11 (reshapeLaunch_keeps ..)
        exact h12
    split
    · rename_i s14 _ e16
      have h17 : Keeps s s14 := .fst e16 (.of (reshapeHandlers_keeps ..) h5)
      exact h17

/-! ## Composite -/

theorem setMembers_keeps (s n ms) : Keeps s (setMembers s n ms) := by
  unfold setMembers
  exact (.same ⟨rfl, rfl, rfl, rfl, rfl⟩)

theorem applyMembers_keeps (s j) : Keeps s (applyMembers s j).1 := by
  unfold applyMembers
  split
  · extract_lets +onlyGivenNames x1
    extract_lets +onlyGivenNames x2
    extract_lets +onlyGivenNames x3
    have h4 : Keeps s x3 := (.same ⟨rfl, rfl, rfl, rfl, rfl⟩)
    clear_value x3
    extract_lets +onlyGivenNames x5
    split
    · exact (.pair (.refl _))
    · exact (.pair (.of (rset_keeps ..) h4))
  · extract_lets +onlyGivenNames x6
    have h7 : Keeps s x6 := (setMembers_keeps ..)
    clear_value x6
    extract_lets +onlyGivenNames x8
    split
    · exact (.pair (.refl _))
    · exact h7
  iterate 5 exact (.pair (.refl _))

theorem startMembers_keeps (s j) : KeepsC s (startMembers s j) := by
  unfold startMembers
  extract_lets +onlyGivenNames x1
  extract_lets +onlyGivenNames x2
  extract_lets +onlyGivenNames x3
  extract_lets +onlyGivenNames x4
  extract_lets +onlyGivenNames x5
  refine .ite (.ofDone (.refl _)) ?_
  refine .ite (.ofDone (.refl _)) ?_
  refine .ite (.ofDone (.refl _)) ?_
  extract_lets +onlyGivenNames x6
  refine .ite (.ofDone (.refl _)) ?_
  refine .ite (.ofDone (.refl _)) ?_
  extract_lets +onlyGivenNames x7
  refine .ite ?_ ?_
  · split
    · rename_i s9 _ e11
      have h12 : Keeps s s9 := .fst e11 (applyMembers_keeps ..)
      exact .ofDone h12
  · split
    · exact .ofWait (.refl _)
    · exact .ofWait (.same ⟨rfl, rfl, rfl, rfl, rfl⟩)

theorem removeMembers_keeps (s j) : Keeps s (removeMembers s j).1 := by
  unfold removeMembers
  extract_lets +onlyGivenNames x1
  extract_lets +onlyGivenNames x2
  split
  · exact (.pair (.of (reshape_keeps ..) (setMembers_keeps ..)))
  · exact (.pair (.refl _))

theorem readMembers_keeps (s fn n) : Keeps s (readMembers s fn n) := by
  unfold readMembers
  extract_lets +onlyGivenNames x1
  extract_lets +onlyGivenNames x2
  have h3 : Keeps s x2 := by
    unfold x2
    refine Keeps.foldl (fun s4 y5 => ?_)
    exact (.of (rset_keeps ..) (rset_keeps ..))
  clear_value x2
  exact (.of (rset_keeps ..) h3)

theorem abortMeeting_keeps (s vi leaves) : Keeps s (abortMeeting s vi leaves).1 := by
  unfold abortMeeting
  extract_lets +onlyGivenNames x1
  refine .pair ?_
  refine Keeps.foldl (fun s2 y3 => ?_)
  split
  · exact (abortLaunch_keeps ..)
  · exact (.refl _)

theorem resetHandlers_keeps (s vi fs) : Keeps s (resetHandlers s vi fs).1 := by
  unfold resetHandlers
  extract_lets ts here s1 s2
  have h1 : Keeps s s1 := .foldl fun s p => by
    split
    · exact .of (discardThread_keeps ..) (retireEvent_keeps ..)
    · exact discardThread_keeps ..
  have h2 : Keeps s s2 := h1.trans (.foldl fun s p => by
    split
    · exact spillFree_keeps ..
    · exact .refl _)
  exact h2.dropFstore _ ⟨rfl, rfl, rfl, rfl⟩

theorem resetOn_keeps (s vi leaves) : Keeps s (resetOn s vi leaves).1 := by
  unfold resetOn
  split
  · rename_i s2 _ e4
    have h5 : Keeps s s2 := .fst e4 (abortMeeting_keeps ..)
    split
    · rename_i s7 _ e9
      have h10 : Keeps s s7 := .fst e9 (.of (resetHandlers_keeps ..) h5)
      exact h10

theorem resetUnit_keeps (s j) : KeepsC s (resetUnit s j) := by
  unfold resetUnit
  extract_lets +onlyGivenNames x1
  extract_lets +onlyGivenNames x2
  refine .ite (.ofDone (.refl _)) ?_
  refine .ite (.ofDone (.refl _)) ?_
  extract_lets +onlyGivenNames x3
  extract_lets +onlyGivenNames x4
  have h5 : Keeps s x4 := by
    unfold x4
    refine .ite (setCompSt_keeps ..) ?_
    exact (.refl _)
  clear_value x4
  extract_lets +onlyGivenNames x6
  have h7 : Keeps s x6 := by
    unfold x6
    refine .ite ?_ ?_
    · refine .of (Keeps.foldl (fun s8 y9 => ?_)) h5
      extract_lets +onlyGivenNames x10
      split
      · rename_i s12 _ _ e15
        have h16 : Keeps s8 s12 := .fst e15 (resetOn_keeps ..)
        refine .ite (.of (postEvent_keeps ..) h16) ?_
        exact h16
    · exact (.of (resetOn_keeps ..) h5)
  clear_value x6
  split
  · exact .ofWait h7
  · exact .ofWait (h7.trans (.same ⟨rfl, rfl, rfl, rfl, rfl⟩))

theorem cmpExec_keeps (s j) : KeepsC s (cmpExec s j) := by
  unfold cmpExec
  split
  · exact (startMembers_keeps ..)
  · extract_lets +onlyGivenNames x1
    refine .ite (.ofDone (.refl _)) ?_
    exact (startMembers_keeps ..)
  · extract_lets +onlyGivenNames x2
    refine .ite (.ofDone (.refl _)) ?_
    split
    · rename_i s4 _ e6
      have h7 : Keeps s s4 := .fst e6 (removeMembers_keeps ..)
      exact .ofDone h7
  · extract_lets +onlyGivenNames x8
    refine .ite (.ofDone (.refl _)) ?_
    extract_lets +onlyGivenNames x9
    refine .ite (.ofDone (.refl _)) ?_
    exact .ofDone (.same ⟨rfl, rfl, rfl, rfl, rfl⟩)
  · extract_lets +onlyGivenNames x10
    refine .ite (.ofDone (.refl _)) ?_
    exact .ofDone (readMembers_keeps ..)
  · exact (resetUnit_keeps ..)
  · extract_lets +onlyGivenNames x11
    refine .ite (.ofDone (.refl _)) ?_
    extract_lets +onlyGivenNames x12
    refine .ite (.ofDone (.refl _)) ?_
    extract_lets +onlyGivenNames x13
    exact .ofDone (.same ⟨rfl, rfl, rfl, rfl, rfl⟩)

theorem cmpRun_keeps (s a1) : Keeps s (cmpRun s a1) := by
  fun_induction cmpRun s a1
  · exact (.refl _)
  · exact (.refl _)
  · exact (.refl _)
  · rename_i s11 _ _ _ _ _ s17 _ e19 y20
    have h21 : Keeps s11 s17 := KeepsC.elimDone e19 (cmpExec_keeps ..)
    exact .of y20 (.of (statDone_keeps ..) (h21.trans (.same ⟨rfl, rfl, rfl, rfl, rfl⟩)))
  · rename_i s22 _ _ _ _ _ s28 e29
    have h30 : Keeps s22 s28 := KeepsC.elimWait e29 (cmpExec_keeps ..)
    exact h30

theorem cmpFinish_keeps (s j r) : Keeps s (cmpFinish s j r) := by
  unfold cmpFinish
  extract_lets +onlyGivenNames x1
  exact (.of (cmpRun_keeps ..) (.of (statDone_keeps ..) (.same ⟨rfl, rfl, rfl, rfl, rfl⟩)))

theorem cmpCommand_keeps (fn op c s) : Keeps s (cmpCommand fn op c s) := by
  unfold cmpCommand
  extract_lets +onlyGivenNames x1
  refine .ite (statOvr_keeps ..) ?_
  extract_lets +onlyGivenNames x2
  have h3 : Keeps s x2 := (rset_keeps ..)
  clear_value x2
  extract_lets +onlyGivenNames x4
  refine .ite (.of (statDone_keeps ..) h3) ?_
  refine .ite (.of (statDone_keeps ..) h3) ?_
  extract_lets +onlyGivenNames x5
  extract_lets +onlyGivenNames x6
  extract_lets +onlyGivenNames x7
  have h8 : Keeps s x7 := (.of (statStart_keeps ..) (h3.trans (.same ⟨rfl, rfl, rfl, rfl, rfl⟩)))
  clear_value x7
  exact (.of (cmpRun_keeps ..) h8)

theorem execCmpCreate_keeps (fn c s) : KeepsO s (execCmpCreate fn c s) := by
  unfold execCmpCreate
  refine (hostWr_keeps (h := fun s1 => ?_) ..)
  exact (cmpCommand_keeps ..)

theorem execCmpAdd_keeps (fn c s) : KeepsO s (execCmpAdd fn c s) := by
  unfold execCmpAdd
  refine (hostWr_keeps (h := fun s1 => ?_) ..)
  exact (cmpCommand_keeps ..)

theorem execCmpRemove_keeps (fn c s) : KeepsO s (execCmpRemove fn c s) := by
  unfold execCmpRemove
  refine (hostWr_keeps (h := fun s1 => ?_) ..)
  exact (cmpCommand_keeps ..)

theorem execCmpDestroy_keeps (fn c s) : KeepsO s (execCmpDestroy fn c s) := by
  unfold execCmpDestroy
  refine (hostWr_keeps (h := fun s1 => ?_) ..)
  exact (cmpCommand_keeps ..)

theorem execCmpRead_keeps (fn c s) : KeepsO s (execCmpRead fn c s) := by
  unfold execCmpRead
  refine (hostWr_keeps (h := fun s1 => ?_) ..)
  exact (cmpCommand_keeps ..)

theorem execCmpReset_keeps (fn c s) : KeepsO s (execCmpReset fn c s) := by
  unfold execCmpReset
  refine (hostWr_keeps (h := fun s1 => ?_) ..)
  exact (cmpCommand_keeps ..)

theorem execCmpExport_keeps (fn c s) : KeepsO s (execCmpExport fn c s) := by
  unfold execCmpExport
  refine (hostWr_keeps (h := fun s1 => ?_) ..)
  exact (cmpCommand_keeps ..)

theorem execCompositeConfirm_keeps (m s) : KeepsO s (execCompositeConfirm m s) := by
  unfold execCompositeConfirm
  split
  · split
    · exact .next (.refl _)
    · refine .ite (.next (.refl _)) ?_
      refine .ite (.next (.of (settle_keeps ..) (cmpFinish_keeps ..))) ?_
      extract_lets +onlyGivenNames x1
      extract_lets +onlyGivenNames x2
      refine .ite (.next (.same ⟨rfl, rfl, rfl, rfl, rfl⟩)) ?_
      split
      · rename_i s4 _ e6
        have h7 : Keeps s s4 := .fst e6 (.of (applyMembers_keeps ..) (.same ⟨rfl, rfl, rfl, rfl, rfl⟩))
        exact .next (.of (settle_keeps ..) (.of (cmpFinish_keeps ..) h7))
  · extract_lets +onlyGivenNames x8
    refine .ite (.next (.same ⟨rfl, rfl, rfl, rfl, rfl⟩)) ?_
    exact .next (.refl _)
  · extract_lets +onlyGivenNames x9
    refine .ite (.next (.same ⟨rfl, rfl, rfl, rfl, rfl⟩)) ?_
    exact .next (.refl _)

theorem execUnitResetComplete_keeps (s) : KeepsO s (execUnitResetComplete s) := by
  unfold execUnitResetComplete
  split
  · exact .next (.refl _)
  · refine .ite ?_ ?_
    · extract_lets +onlyGivenNames x1
      extract_lets +onlyGivenNames x2
      have h3 : Keeps s x2 := by
        unfold x2
        refine .ite (setCompSt_keeps ..) ?_
        exact (.refl _)
      clear_value x2
      exact .next (.of (settle_keeps ..) (.of (cmpFinish_keeps ..) h3))
    · exact .next (.refl _)

/-! ## MemMgmt -/

theorem hostVi_keeps (fn vi off v body s) (h : ∀ s, Keeps s (body s)) : KeepsO s (hostVi fn vi off v body s) := by
  unfold hostVi
  refine .ite ?_ ?_
  · refine (hostWr_keeps (h := fun s1 => ?_) ..)
    exact (h ..)
  · exact .next (.refl _)

theorem hostPf_keeps (fn off v body s) (h : ∀ s, Keeps s (body s)) : KeepsO s (hostPf fn off v body s) := by
  unfold hostPf
  refine .ite ?_ ?_
  · refine (hostWr_keeps (h := fun s1 => ?_) ..)
    exact (h ..)
  · exact .next (.refl _)

theorem viRefused_keeps (s fn vi off) : Keeps s (viRefused s fn vi off) := by
  unfold viRefused
  exact (accessErr_keeps ..)

theorem gtCmd_keeps (vi op index body s) (h : ∀ s, Keeps s (body s)) : Keeps s (gtCmd vi op index body s) := by
  unfold gtCmd
  refine .ite (statOvr_keeps ..) ?_
  exact (.of (h ..) (rset_keeps ..))

theorem gtDone_keeps (s vi r) : Keeps s (gtDone s vi r) := by
  unfold gtDone
  exact (statDone_keeps ..)

theorem doMap_keeps (fn vi index confirmed s) : Keeps s (doMap fn vi index confirmed s) := by
  unfold doMap
  extract_lets +onlyGivenNames x1
  extract_lets +onlyGivenNames x2
  extract_lets +onlyGivenNames x3
  refine .ite (gtDone_keeps ..) ?_
  refine .ite (gtDone_keeps ..) ?_
  clear_value x3
  split
  · exact (gtDone_keeps ..)
  · refine .ite (gtDone_keeps ..) ?_
    refine .ite (gtDone_keeps ..) ?_
    refine .ite (gtDone_keeps ..) ?_
    refine .ite (gtDone_keeps ..) ?_
    extract_lets +onlyGivenNames x4
    have h5 : Keeps s x4 := (.same ⟨rfl, rfl, rfl, rfl, rfl⟩)
    clear_value x4
    exact (.of (gtDone_keeps ..) (.of (rset_keeps ..) h5))

theorem doUnmap_keeps (fn vi index s) : Keeps s (doUnmap fn vi index s) := by
  unfold doUnmap
  extract_lets +onlyGivenNames x1
  iterate 4 refine .ite (gtDone_keeps ..) ?_
  refine .ite (.of (statStart_keeps ..) (.same ⟨rfl, rfl, rfl, rfl, rfl⟩)) ?_
  exact (.of (gtDone_keeps ..) (.same ⟨rfl, rfl, rfl, rfl, rfl⟩))

theorem doSetattr_keeps (fn vi index confirmed s) : Keeps s (doSetattr fn vi index confirmed s) := by
  unfold doSetattr
  extract_lets +onlyGivenNames x1
  extract_lets +onlyGivenNames x2
  extract_lets +onlyGivenNames x3
  extract_lets +onlyGivenNames x4
  extract_lets +onlyGivenNames x5
  iterate 4 refine .ite (gtDone_keeps ..) ?_
  exact (.of (gtDone_keeps ..) (.same ⟨rfl, rfl, rfl, rfl, rfl⟩))

theorem doGtRead_keeps (vi index s) : Keeps s (doGtRead vi index s) := by
  unfold doGtRead
  exact (.of (gtDone_keeps ..) (rset_keeps ..))

theorem execGtMap_keeps (fn vi index confirmed s) : KeepsO s (execGtMap fn vi index confirmed s) := by
  unfold execGtMap
  refine (hostVi_keeps (h := fun s1 => ?_) ..)
  refine (gtCmd_keeps (h := fun s2 => ?_) ..)
  exact (doMap_keeps ..)

theorem execGtUnmap_keeps (fn vi index s) : KeepsO s (execGtUnmap fn vi index s) := by
  unfold execGtUnmap
  refine (hostVi_keeps (h := fun s1 => ?_) ..)
  refine (gtCmd_keeps (h := fun s2 => ?_) ..)
  exact (doUnmap_keeps ..)

theorem execGtSetattr_keeps (fn vi index confirmed s) : KeepsO s (execGtSetattr fn vi index confirmed s) := by
  unfold execGtSetattr
  refine (hostVi_keeps (h := fun s1 => ?_) ..)
  refine (gtCmd_keeps (h := fun s2 => ?_) ..)
  exact (doSetattr_keeps ..)

theorem execGtRead_keeps (fn vi index s) : KeepsO s (execGtRead fn vi index s) := by
  unfold execGtRead
  refine (hostVi_keeps (h := fun s1 => ?_) ..)
  refine (gtCmd_keeps (h := fun s2 => ?_) ..)
  exact (doGtRead_keeps ..)

theorem zeroFill_keeps (s pa n) : Keeps s (zeroFill s pa n) :=
  ⟨rfl, fun h => Memory.zero_wf _ _ _ h, id, le_refl _, BitVec.and_self⟩

theorem execScrubComplete_keeps (g s) : KeepsO s (execScrubComplete g s) := by
  unfold execScrubComplete
  refine .ite (.next (.of (zeroFill_keeps ..) (.same ⟨rfl, rfl, rfl, rfl, rfl⟩))) ?_
  exact .next (.refl _)

theorem rowCommand_keeps (op row s) : Keeps s (rowCommand op row s) := by
  unfold rowCommand
  refine .ite (statOvr_keeps ..) ?_
  extract_lets +onlyGivenNames x1
  have h2 : Keeps s x1 := (rset_keeps ..)
  clear_value x1
  extract_lets +onlyGivenNames x3
  refine .ite (.of (statDone_keeps ..) h2) ?_
  refine .ite (.of (statDone_keeps ..) h2) ?_
  extract_lets +onlyGivenNames x4
  exact (.of (statDone_keeps ..) (h2.trans (.same ⟨rfl, rfl, rfl, rfl, rfl⟩)))

theorem execMakeColumnLocal_keeps (fn row s) : KeepsO s (execMakeColumnLocal fn row s) := by
  unfold execMakeColumnLocal
  refine (hostPf_keeps (h := fun s1 => ?_) ..)
  exact (rowCommand_keeps ..)

theorem execMakeSpread_keeps (fn row s) : KeepsO s (execMakeSpread fn row s) := by
  unfold execMakeSpread
  refine (hostPf_keeps (h := fun s1 => ?_) ..)
  exact (rowCommand_keeps ..)

theorem spillWriteReg_keeps (fn vi host v s) : Keeps s (spillWriteReg fn vi host v s) := by
  unfold spillWriteReg
  extract_lets +onlyGivenNames x1
  refine .ite (viRefused_keeps ..) ?_
  extract_lets +onlyGivenNames x2
  extract_lets +onlyGivenNames x3
  refine .ite (rset_keeps ..) ?_
  exact (.of (viRefused_keeps ..) (statDone_keeps ..))

theorem execViSpillWrite_keeps (fn vi host v s) : KeepsO s (execViSpillWrite fn vi host v s) := by
  unfold execViSpillWrite
  refine (hostVi_keeps (h := fun s1 => ?_) ..)
  exact (spillWriteReg_keeps ..)

theorem ctxSpillWrite_keeps (fn v s) : Keeps s (ctxSpillWrite fn v s) := by
  unfold ctxSpillWrite
  refine .ite (accessErr_keeps ..) ?_
  extract_lets +onlyGivenNames x1
  extract_lets +onlyGivenNames x2
  exact (.of (rset_keeps ..) (.same ⟨rfl, rfl, rfl, rfl, rfl⟩))

theorem execDevCtxSpillWrite_keeps (fn v s) : KeepsO s (execDevCtxSpillWrite fn v s) := by
  unfold execDevCtxSpillWrite
  refine (hostPf_keeps (h := fun s1 => ?_) ..)
  exact (ctxSpillWrite_keeps ..)

theorem foundCe_keeps (s b) : Keeps s (foundCe s b) := by
  unfold foundCe
  extract_lets +onlyGivenNames x1
  exact (raiseErr_keeps ..)

theorem execPatrolScrub_keeps (block found s) : KeepsO s (execPatrolScrub block found s) := by
  unfold execPatrolScrub
  extract_lets +onlyGivenNames x1
  refine .ite (.next (.refl _)) ?_
  split
  · refine .next ?_
    refine .ite (foundUe_keeps ..) ?_
    exact (.refl _)
  · refine .next ?_
    refine .ite (foundUe_keeps ..) ?_
    exact (foundCe_keeps ..)
  · refine .next ?_
    refine .ite (.refl _) ?_
    exact (foundUe_keeps ..)

theorem dropDesc_keeps (s d f) : Keeps s (dropDesc s d f) := by
  unfold dropDesc
  extract_lets +onlyGivenNames x1
  have h2 : Keeps s x1 := (.same ⟨rfl, rfl, rfl, rfl, rfl⟩)
  clear_value x1
  refine .ite h2 ?_
  exact (.of (completeSq_keeps ..) h2)

theorem mirrorAckOut_keeps (s) : Keeps s (mirrorAckOut s) := by
  unfold mirrorAckOut
  refine .ite (.refl _) ?_
  exact (.same ⟨rfl, rfl, rfl, rfl, rfl⟩)

theorem writerDone_keeps (s w res) : Keeps s (writerDone s w res) := by
  unfold writerDone
  split
  · split
    · exact (.refl _)
    · split
      · exact (.refl _)
      · extract_lets +onlyGivenNames x1
        exact (putThr_keeps ..)
  · exact (.refl _)
  · exact (.refl _)
  · exact (mirrorAckOut_keeps ..)
  · split
    · exact (.same ⟨rfl, rfl, rfl, rfl, rfl⟩)
    · exact (.refl _)
  · split
    · exact (.refl _)
    · split
      · refine .ite (.refl _) ?_
        exact (dropDesc_keeps ..)
      · exact (.refl _)

theorem releaseOne_keeps (s h) : Keeps s (releaseOne s h) := by
  unfold releaseOne
  refine .ite (.refl _) ?_
  extract_lets +onlyGivenNames x1
  split
  · rename_i s3 _ _ e6
    have h7 : Keeps s s3 := .fst e6 (.of (performW_keeps ..) (.same ⟨rfl, rfl, rfl, rfl, rfl⟩))
    exact (.of (writerDone_keeps ..) h7)

theorem unmapDone_keeps (s p) : Keeps s (unmapDone s p) := by
  unfold unmapDone
  extract_lets +onlyGivenNames x1
  exact (.of (gtDone_keeps ..) (.same ⟨rfl, rfl, rfl, rfl, rfl⟩))

theorem finishUnmaps_keeps (s) : Keeps s (finishUnmaps s) := by
  unfold finishUnmaps
  refine Keeps.foldl (fun s1 y2 => ?_)
  refine .ite (.refl _) ?_
  exact (unmapDone_keeps ..)

theorem releaseHeld_keeps (s) : Keeps s (releaseHeld s) := by
  unfold releaseHeld
  refine .of (finishUnmaps_keeps ..) ?_
  refine Keeps.foldl (fun s1 y2 => ?_)
  exact (releaseOne_keeps ..)

theorem clearGuard_keeps (s page) : Keeps s (clearGuard s page) := by
  unfold clearGuard
  exact (.of (releaseHeld_keeps ..) (.same ⟨rfl, rfl, rfl, rfl, rfl⟩))

theorem mirrorArrive_keeps (src g off data marker s) : Keeps s (mirrorArrive src g off data marker s) := by
  unfold mirrorArrive
  extract_lets +onlyGivenNames x1
  extract_lets +onlyGivenNames x2
  extract_lets +onlyGivenNames x3
  extract_lets +onlyGivenNames x4
  have h5 : Keeps s x4 := (.same ⟨rfl, rfl, rfl, rfl, rfl⟩)
  clear_value x4
  extract_lets +onlyGivenNames x6
  split
  · refine .ite ?_ ?_
    · refine .ite (.of (mirrorAckOut_keeps ..) (.of (engAct_keeps ..) h5)) ?_
      exact h5
    · unfold x6
      exact (.of (raiseErr_keeps ..) h5)
  · unfold x6
    exact (.of (raiseErr_keeps ..) h5)

theorem execMirrorWr_keeps (src g off data marker s) : KeepsO s (execMirrorWr src g off data marker s) := by
  unfold execMirrorWr
  exact .next (.of (settle_keeps ..) (mirrorArrive_keeps ..))

theorem ackWrites_keeps (s done) : Keeps s (ackWrites s done) := by
  unfold ackWrites
  extract_lets +onlyGivenNames x1
  extract_lets +onlyGivenNames x2
  extract_lets +onlyGivenNames x3
  have h4 : Keeps s x3 := (.same ⟨rfl, rfl, rfl, rfl, rfl⟩)
  clear_value x3
  refine .of (Keeps.foldl (fun s5 y6 => ?_)) h4
  exact (writerDone_keeps ..)

theorem execMirrorAck_keeps (seq s) : KeepsO s (execMirrorAck seq s) := by
  unfold execMirrorAck
  exact .next (.of (settle_keeps ..) (ackWrites_keeps ..))

/-! ## SyncHost -/

theorem fillSyn_keeps (s fn vi n) : Keeps s (fillSyn s fn vi n) := by
  unfold fillSyn
  extract_lets +onlyGivenNames x1
  exact (.of (rset_keeps ..) (.of (rset_keeps ..) (.of (rset_keeps ..) (rset_keeps ..))))

theorem fillValue_keeps (s fn v) : Keeps s (fillValue s fn v) := by
  unfold fillValue
  exact (rset_keeps ..)

theorem synConfigure_keeps (s fn vi n ty) : Keeps s (synConfigure s fn vi n ty).1 := by
  unfold synConfigure
  extract_lets +onlyGivenNames x1
  extract_lets +onlyGivenNames x2
  extract_lets +onlyGivenNames x3
  split
  · exact (.pair (.refl _))
  · split
    · exact (.pair (.refl _))
    · extract_lets +onlyGivenNames x4
      exact (.pair (.of (fillSyn_keeps ..) (setSyn_keeps ..)))

theorem synRestoreObj_keeps (s fn n) : Keeps s (synRestoreObj s fn n).1 := by
  unfold synRestoreObj
  extract_lets +onlyGivenNames x1
  split
  · exact (.pair (.refl _))
  · split
    · exact (.pair (.refl _))
    · exact (.pair (setSyn_keeps ..))

theorem synUnsetObj_keeps (s n) : Keeps s (synUnsetObj s n).1 := by
  unfold synUnsetObj
  extract_lets +onlyGivenNames x1
  split
  · exact (.pair (.refl _))
  · exact (.pair (setSyn_keeps ..))

theorem hostOp_keeps (s fn n op) : Keeps s (hostOp s fn n op).1 := by
  unfold hostOp
  extract_lets +onlyGivenNames x1
  extract_lets +onlyGivenNames x2
  extract_lets +onlyGivenNames x3
  split
  · split
    · exact (.pair (fillValue_keeps ..))
    · exact (.pair (.of (serveQueue_keeps ..) (.of (fillValue_keeps ..) (setSyn_keeps ..))))
  · split
    · exact (.pair (.of (fillValue_keeps ..) (setSyn_keeps ..)))
    · exact (.pair (fillValue_keeps ..))
  · exact (.pair (.of (serveEc_keeps ..) (.of (fillValue_keeps ..) (setSyn_keeps ..))))
  · exact (.pair (fillValue_keeps ..))
  iterate 4 exact (.pair (.refl _))

theorem hostOpOn_keeps (s fn n op ty) : Keeps s (hostOpOn s fn n op ty).1 := by
  unfold hostOpOn
  extract_lets +onlyGivenNames x1
  split
  · exact (.pair (.refl _))
  · exact (hostOp_keeps ..)

theorem synExec_keeps (s j) : Keeps s (synExec s j).1 := by
  unfold synExec
  split
  · exact (.pair (.refl _))
  · split
    · exact (synConfigure_keeps ..)
    · exact (.pair (fillSyn_keeps ..))
    · exact (synRestoreObj_keeps ..)
    · exact (synUnsetObj_keeps ..)
    iterate 4 exact (hostOpOn_keeps ..)

theorem synCommand_keeps (fn op c s) : Keeps s (synCommand fn op c s) := by
  unfold synCommand
  extract_lets +onlyGivenNames x1
  refine .ite (statOvr_keeps ..) ?_
  extract_lets +onlyGivenNames x2
  have h3 : Keeps s x2 := (rset_keeps ..)
  clear_value x2
  refine .ite (.of (statDone_keeps ..) h3) ?_
  extract_lets +onlyGivenNames x4
  split
  · rename_i s6 _ e8
    have h9 : Keeps s s6 := .fst e8 (.of (synExec_keeps ..) h3)
    exact (.of (statDone_keeps ..) h9)

theorem execSynConfig_keeps (fn c s) : KeepsO s (execSynConfig fn c s) := by
  unfold execSynConfig
  refine (hostWr_keeps (h := fun s1 => ?_) ..)
  exact (synCommand_keeps ..)

theorem execSynRead_keeps (fn c s) : KeepsO s (execSynRead fn c s) := by
  unfold execSynRead
  refine (hostWr_keeps (h := fun s1 => ?_) ..)
  exact (synCommand_keeps ..)

theorem execSynRestore_keeps (fn c s) : KeepsO s (execSynRestore fn c s) := by
  unfold execSynRestore
  refine (hostWr_keeps (h := fun s1 => ?_) ..)
  exact (synCommand_keeps ..)

theorem execSynUnset_keeps (fn c s) : KeepsO s (execSynUnset fn c s) := by
  unfold execSynUnset
  refine (hostWr_keeps (h := fun s1 => ?_) ..)
  exact (synCommand_keeps ..)

theorem execHostSemv_keeps (fn c s) : KeepsO s (execHostSemv fn c s) := by
  unfold execHostSemv
  refine (hostWr_keeps (h := fun s1 => ?_) ..)
  exact (synCommand_keeps ..)

theorem execHostSemt_keeps (fn c s) : KeepsO s (execHostSemt fn c s) := by
  unfold execHostSemt
  refine (hostWr_keeps (h := fun s1 => ?_) ..)
  exact (synCommand_keeps ..)

theorem execHostEcadd_keeps (fn c s) : KeepsO s (execHostEcadd fn c s) := by
  unfold execHostEcadd
  refine (hostWr_keeps (h := fun s1 => ?_) ..)
  exact (synCommand_keeps ..)

theorem execHostEcread_keeps (fn c s) : KeepsO s (execHostEcread fn c s) := by
  unfold execHostEcread
  refine (hostWr_keeps (h := fun s1 => ?_) ..)
  exact (synCommand_keeps ..)

theorem barrierArrive_keeps (s n ws extra dev mem launch) : Keeps s (barrierArrive s n ws extra dev mem launch) := by
  unfold barrierArrive
  extract_lets +onlyGivenNames x1
  refine .ite (answerAll_keeps ..) ?_
  refine .ite (answerAll_keeps ..) ?_
  exact (.of (arrive_keeps ..) (mergeWaiting_keeps ..))

theorem ubarArrive_keeps (s t th w l scope) : Keeps s (ubarArrive s t th w l scope) := by
  unfold ubarArrive
  extract_lets +onlyGivenNames x1
  extract_lets +onlyGivenNames x2
  refine .ite (barrierArrive_keeps ..) ?_
  extract_lets +onlyGivenNames x3
  extract_lets +onlyGivenNames x4
  exact (setNear_keeps ..)

theorem opArrive_keeps (s t op) : Keeps s (opArrive s t op) := by
  unfold opArrive
  split
  · exact (.refl _)
  · split
    · exact (.refl _)
    · split
      · split
        · exact (.refl _)
        · refine .ite (.refl _) ?_
          extract_lets +onlyGivenNames x1
          extract_lets +onlyGivenNames x2
          refine .ite ?_ ?_
          · split
            · exact (ubarArrive_keeps ..)
            · exact (.refl _)
          · extract_lets +onlyGivenNames x3
            refine .ite (answer_keeps ..) ?_
            exact (synPerform_keeps ..)
      iterate 13 exact (.refl _)

theorem nearArrive_keeps (s q n) : Keeps s (nearArrive s q n) := by
  unfold nearArrive
  extract_lets +onlyGivenNames x1
  split
  · exact (.refl _)
  · extract_lets +onlyGivenNames x2
    extract_lets +onlyGivenNames x3
    have h4 : Keeps s x3 := (setNear_keeps ..)
    clear_value x3
    exact (.of (barrierArrive_keeps ..) h4)

theorem execSyncOpAtHome_keeps (a s) : KeepsO s (execSyncOpAtHome a s) := by
  unfold execSyncOpAtHome
  split
  · exact .next (.of (settle_keeps ..) (opArrive_keeps ..))
  · exact .next (.of (settle_keeps ..) (nearArrive_keeps ..))
  · split
    · refine .ite (.next (.refl _)) ?_
      exact .next (.of (settle_keeps ..) (barrierArrive_keeps ..))
    · exact .next (.refl _)

theorem execNearUnitRelease_keeps (q obj s) : KeepsO s (execNearUnitRelease q obj s) := by
  unfold execNearUnitRelease
  extract_lets +onlyGivenNames x1
  split
  · exact .next (.refl _)
  · extract_lets +onlyGivenNames x2
    have h3 : Keeps s x2 := (setNear_keeps ..)
    clear_value x2
    refine .next ?_
    refine .of (settle_keeps ..) ?_
    refine .of (Keeps.foldl (fun s4 y5 => ?_)) h3
    exact (answer_keeps ..)

theorem execSyncWithdraw_keeps (t op s) : KeepsO s (execSyncWithdraw t op s) := by
  unfold execSyncWithdraw
  split
  · exact .next (.refl _)
  · split
    · exact .next (.refl _)
    · refine .ite (.next (.refl _)) ?_
      extract_lets +onlyGivenNames x1
      have h2 : Keeps s x1 := (withdrawOp_keeps ..)
      clear_value x1
      split
      · exact .next (.of (settle_keeps ..) (.of (putThr_keeps ..) h2))
      · exact .next h2

theorem execSyncWatchdog_keeps (obj s) : KeepsO s (execSyncWatchdog obj s) := by
  unfold execSyncWatchdog
  extract_lets +onlyGivenNames x1
  refine .ite (.next (.of (settle_keeps ..) (wdogFire_keeps ..))) ?_
  exact .next (.refl _)

theorem execNearUnitTimeout_keeps (q late s) : KeepsO s (execNearUnitTimeout q late s) := by
  unfold execNearUnitTimeout
  extract_lets +onlyGivenNames x0
  extract_lets +onlyGivenNames x1
  extract_lets +onlyGivenNames x2
  refine .ite ?_ ?_
  · extract_lets +onlyGivenNames x3
    have h4 : Keeps s x3 := (setNear_keeps ..)
    clear_value x3
    refine .next ?_
    refine .of (settle_keeps ..) ?_
    refine .of (Keeps.foldl (fun s5 y6 => ?_)) h4
    exact (answer_keeps ..)
  · exact .next (.refl _)

/-! ## Resource -/

theorem setClu_keeps (s c h) : Keeps s (setClu s c h) := by
  unfold setClu
  exact (.same ⟨rfl, rfl, rfl, rfl, rfl⟩)

theorem loseUnit_keeps (s vi lost) : Keeps s (loseUnit s vi lost) := by
  unfold loseUnit
  exact (.same ⟨rfl, rfl, rfl, rfl, rfl⟩)

theorem resGive_keeps (s vi c) : KeepsR s (resGive s vi c) := by
  unfold resGive
  split
  · refine .ite (.ofDone (.refl _)) ?_
    exact .ofDone (setClu_keeps ..)
  · refine .ite (.ofDone (.refl _)) ?_
    exact .ofDone (.refl _)
  · refine .ite (.ofDone (setClu_keeps ..)) ?_
    exact .ofDone (.refl _)

theorem resShare_keeps (s vi c) : KeepsR s (resShare s vi c) := by
  unfold resShare
  extract_lets +onlyGivenNames x1
  extract_lets +onlyGivenNames x2
  refine .ite (.ofDone (.refl _)) ?_
  refine .ite (.ofDone (.refl _)) ?_
  split
  · unfold x2
    refine .ite (.ofDone (.refl _)) ?_
    refine .ite (.ofDone (.refl _)) ?_
    refine .ite (.ofDone (.refl _)) ?_
    exact .ofDone (setClu_keeps ..)
  · exact .ofDone (.refl _)
  · unfold x2
    refine .ite (.ofDone (.refl _)) ?_
    refine .ite (.ofDone (.refl _)) ?_
    refine .ite (.ofDone (.refl _)) ?_
    exact .ofDone (setClu_keeps ..)

theorem resTake_keeps (s vi c) : KeepsR s (resTake s vi c) := by
  unfold resTake
  refine .ite (.ofDone (.refl _)) ?_
  extract_lets +onlyGivenNames x1
  have h2 : Keeps s x1 := (setClu_keeps ..)
  clear_value x1
  split
  · rename_i s4 _ e6
    have h7 : Keeps s s4 := .fst e6 (.of (reshape_keeps ..) (.of (loseUnit_keeps ..) h2))
    split
    · exact .ofWait h7
    · extract_lets +onlyGivenNames x8
      have h9 : Keeps s x8 := (h7.trans (.same ⟨rfl, rfl, rfl, rfl, rfl⟩))
      clear_value x8
      refine .ite (.ofDone h9) ?_
      exact .ofWait h9

theorem resReshare_keeps (s vi c) : KeepsR s (resReshare s vi c) := by
  unfold resReshare
  extract_lets +onlyGivenNames x1
  extract_lets +onlyGivenNames x2
  extract_lets +onlyGivenNames x3
  refine .ite (.ofDone (.refl _)) ?_
  split
  · exact .ofDone (.refl _)
  · refine .ite ?_ ?_
    · unfold x3
      refine .ite (.ofDone (.refl _)) ?_
      refine .ite (.ofDone (.refl _)) ?_
      exact .ofDone (setClu_keeps ..)
    · exact .ofDone (.refl _)
  · refine .ite ?_ ?_
    · unfold x3
      refine .ite (.ofDone (.refl _)) ?_
      refine .ite (.ofDone (.refl _)) ?_
      exact .ofDone (setClu_keeps ..)
    · exact .ofDone (.refl _)

theorem resGiveGroup_keeps (s vi g) : KeepsR s (resGiveGroup s vi g) := by
  unfold resGiveGroup
  refine .ite (.ofDone (.refl _)) ?_
  exact .ofDone (.same ⟨rfl, rfl, rfl, rfl, rfl⟩)

theorem resTakeGroup_keeps (s vi g) : KeepsR s (resTakeGroup s vi g) := by
  unfold resTakeGroup
  refine .ite (.ofDone (.refl _)) ?_
  refine .ite (.ofDone (.refl _)) ?_
  exact .ofDone (.same ⟨rfl, rfl, rfl, rfl, rfl⟩)

theorem resExec_keeps (s j) : KeepsR s (resExec s j) := by
  unfold resExec
  extract_lets +onlyGivenNames x1
  split
  · exact .ofDone (rset_keeps ..)
  · refine .ite (.ofDone (.refl _)) ?_
    refine .ite (.ofDone (.refl _)) ?_
    refine .ite (.ofDone (.refl _)) ?_
    split
    · exact (resGive_keeps ..)
    · exact (resShare_keeps ..)
    · exact (resTake_keeps ..)
    · exact (resReshare_keeps ..)
    · exact (resGiveGroup_keeps ..)
    · exact (resTakeGroup_keeps ..)
    · exact .ofDone (.refl _)

theorem resFinish_keeps (s j r changed) : Keeps s (resFinish s j r changed) := by
  unfold resFinish
  extract_lets +onlyGivenNames x1
  extract_lets +onlyGivenNames x2
  have h3 : Keeps s x2 := by
    unfold x2
    refine .ite (rset_keeps ..) ?_
    exact (.refl _)
  clear_value x2
  extract_lets +onlyGivenNames x4
  have h5 : Keeps s x4 := (.of (statDone_keeps ..) h3)
  clear_value x4
  refine .ite (.of (postEvent_keeps ..) h5) ?_
  exact h5

theorem resRun_keeps (s a1) : Keeps s (resRun s a1) := by
  fun_induction resRun s a1
  · exact (.refl _)
  · exact (.refl _)
  · exact (.refl _)
  · rename_i s11 _ _ _ _ _ s17 _ _ e20 _ y22
    have h23 : Keeps s11 s17 := KeepsR.elimDone e20 (resExec_keeps ..)
    exact .of y22 (.of (resFinish_keeps ..) (h23.trans (.same ⟨rfl, rfl, rfl, rfl, rfl⟩)))
  · rename_i s24 _ _ _ _ _ s30 e31
    have h32 : Keeps s24 s30 := KeepsR.elimWait e31 (resExec_keeps ..)
    exact h32

theorem resTakeDone_keeps (s) : Keeps s (resTakeDone s) := by
  unfold resTakeDone
  split
  · exact (.refl _)
  · refine .ite (.of (resRun_keeps ..) (.of (resFinish_keeps ..) (.same ⟨rfl, rfl, rfl, rfl, rfl⟩))) ?_
    exact (.refl _)

theorem resCommand_keeps (fn vi op r s) : Keeps s (resCommand fn vi op r s) := by
  unfold resCommand
  extract_lets +onlyGivenNames x1
  refine .ite (statOvr_keeps ..) ?_
  extract_lets +onlyGivenNames x2
  have h3 : Keeps s x2 := (rset_keeps ..)
  clear_value x2
  extract_lets +onlyGivenNames x4
  extract_lets +onlyGivenNames x5
  have h6 : Keeps s x5 := (.of (statStart_keeps ..) (h3.trans (.same ⟨rfl, rfl, rfl, rfl, rfl⟩)))
  clear_value x5
  exact (.of (resRun_keeps ..) h6)

theorem execGive_keeps (fn vi r s) : KeepsO s (execGive fn vi r s) := by
  unfold execGive
  refine (hostVi_keeps (h := fun s1 => ?_) ..)
  exact (resCommand_keeps ..)

theorem execShare_keeps (fn vi r s) : KeepsO s (execShare fn vi r s) := by
  unfold execShare
  refine (hostVi_keeps (h := fun s1 => ?_) ..)
  exact (resCommand_keeps ..)

theorem execTake_keeps (fn vi r s) : KeepsO s (execTake fn vi r s) := by
  unfold execTake
  refine (hostVi_keeps (h := fun s1 => ?_) ..)
  exact (resCommand_keeps ..)

theorem execReshare_keeps (fn vi r s) : KeepsO s (execReshare fn vi r s) := by
  unfold execReshare
  refine (hostVi_keeps (h := fun s1 => ?_) ..)
  exact (resCommand_keeps ..)

theorem execGiveGroup_keeps (fn vi r s) : KeepsO s (execGiveGroup fn vi r s) := by
  unfold execGiveGroup
  refine (hostVi_keeps (h := fun s1 => ?_) ..)
  exact (resCommand_keeps ..)

theorem execTakeGroup_keeps (fn vi r s) : KeepsO s (execTakeGroup fn vi r s) := by
  unfold execTakeGroup
  refine (hostVi_keeps (h := fun s1 => ?_) ..)
  exact (resCommand_keeps ..)

theorem execResRead_keeps (fn vi r s) : KeepsO s (execResRead fn vi r s) := by
  unfold execResRead
  refine (hostVi_keeps (h := fun s1 => ?_) ..)
  exact (resCommand_keeps ..)

theorem reshapedComp_keeps (s n) : Keeps s (reshapedComp s n) := by
  unfold reshapedComp
  refine .ite ?_ ?_
  · extract_lets +onlyGivenNames x1
    refine .ite (setCompSt_keeps ..) ?_
    exact (.refl _)
  · exact (.refl _)

theorem execReshapingComplete_keeps (what s) : KeepsO s (execReshapingComplete what s) := by
  unfold execReshapingComplete
  split
  · exact .next (.of (settle_keeps ..) (.of (resTakeDone_keeps ..) (reshapedComp_keeps ..)))
  · exact .next (.of (settle_keeps ..) (resTakeDone_keeps ..))

theorem viShareWr_keeps (fn vi v s) : Keeps s (viShareWr fn vi v s) := by
  unfold viShareWr
  refine .ite (viRefused_keeps ..) ?_
  extract_lets +onlyGivenNames x1
  extract_lets +onlyGivenNames x2
  have h3 : Keeps s x2 := (rset_keeps ..)
  clear_value x2
  refine .of (postEvent_keeps ..) ?_
  refine .ite (.of (freezeRounds_keeps ..) h3) ?_
  exact h3

theorem viLimitsWr_keeps (fn vi v s) : Keeps s (viLimitsWr fn vi v s) := by
  unfold viLimitsWr
  refine .ite (viRefused_keeps ..) ?_
  extract_lets +onlyGivenNames x1
  exact (.of (postEvent_keeps ..) (rset_keeps ..))

theorem execViShareWrite_keeps (fn vi v s) : KeepsO s (execViShareWrite fn vi v s) := by
  unfold execViShareWrite
  refine (hostVi_keeps (h := fun s1 => ?_) ..)
  exact (viShareWr_keeps ..)

theorem execViLimitsWrite_keeps (fn vi v s) : KeepsO s (execViLimitsWrite fn vi v s) := by
  unfold execViLimitsWrite
  refine (hostVi_keeps (h := fun s1 => ?_) ..)
  exact (viLimitsWr_keeps ..)

theorem viPollWr_keeps (fn vi v s) : Keeps s (viPollWr fn vi v s) := by
  unfold viPollWr
  refine .ite ?_ ?_
  · extract_lets +onlyGivenNames x1
    have h2 : Keeps s x1 := (rset_keeps ..)
    clear_value x1
    refine .ite (.of (modInst_keeps ..) h2) ?_
    exact h2
  · exact (accessErr_keeps ..)

theorem execViPollWrite_keeps (fn vi v s) : KeepsO s (execViPollWrite fn vi v s) := by
  unfold execViPollWrite
  refine (hostVi_keeps (h := fun s1 => ?_) ..)
  exact (viPollWr_keeps ..)

theorem placeHandlers_keeps (s vi f w k a5) : Keeps s (placeHandlers s vi f w k a5) := by
  fun_induction placeHandlers s vi f w k a5
  · exact (.refl _)
  · rename_i y8
    exact .of y8 (putThr_keeps ..)

theorem startHandlers_keeps (s vi) : Keeps s (startHandlers s vi) := by
  unfold startHandlers
  extract_lets +onlyGivenNames x1
  refine .ite (modInst_keeps ..) ?_
  extract_lets +onlyGivenNames x2
  extract_lets +onlyGivenNames x3
  have h4 : Keeps s x3 := (modInst_keeps ..)
  clear_value x3
  exact (.of (placeHandlers_keeps ..) h4)

theorem hdlWrite_keeps (vi v s) : Keeps s (hdlWrite vi v s) := by
  unfold hdlWrite
  extract_lets +onlyGivenNames x1
  have h2 : Keeps s x1 := (rset_keeps ..)
  clear_value x1
  extract_lets +onlyGivenNames x3
  refine .ite h2 ?_
  refine .ite ?_ ?_
  · refine .ite (.of (startHandlers_keeps ..) h2) ?_
    exact h2
  · refine .ite ?_ ?_
    · extract_lets +onlyGivenNames x4
      have h5 : Keeps s x4 := (.of (endHandlers_keeps ..) h2)
      clear_value x4
      exact (.of (endAllTrapped_keeps ..) (.of (modInst_keeps ..) h5))
    · exact (.of (modInst_keeps ..) h2)

theorem execHandlerStart_keeps (fn vi c s) : KeepsO s (execHandlerStart fn vi c s) := by
  unfold execHandlerStart
  refine (hostVi_keeps (h := fun s1 => ?_) ..)
  exact (hdlWrite_keeps ..)

theorem execHandlerStop_keeps (fn vi c s) : KeepsO s (execHandlerStop fn vi c s) := by
  unfold execHandlerStop
  refine (hostVi_keeps (h := fun s1 => ?_) ..)
  exact (hdlWrite_keeps ..)

theorem evRingWr_keeps (fn vi v s) : Keeps s (evRingWr fn vi v s) := by
  unfold evRingWr
  extract_lets +onlyGivenNames x1
  refine .ite ?_ ?_
  · extract_lets +onlyGivenNames x2
    exact (rset_keeps ..)
  · exact (accessErr_keeps ..)

theorem evAckWr_keeps (fn vi v s) : Keeps s (evAckWr fn vi v s) := by
  unfold evAckWr
  extract_lets +onlyGivenNames x1
  extract_lets +onlyGivenNames x2
  refine .ite (.refl _) ?_
  refine .ite ?_ ?_
  · extract_lets +onlyGivenNames x3
    have h4 : Keeps s x3 := (modInst_keeps ..)
    clear_value x3
    exact (.of (drainEvents_keeps ..) h4)
  · exact (accessErr_keeps ..)

theorem evPostWr_keeps (vi v s) : Keeps s (evPostWr vi v s) := by
  unfold evPostWr
  exact (.of (postEvent_keeps ..) (rset_keeps ..))

theorem execViEvRingWrite_keeps (fn vi v s) : KeepsO s (execViEvRingWrite fn vi v s) := by
  unfold execViEvRingWrite
  refine (hostVi_keeps (h := fun s1 => ?_) ..)
  exact (evRingWr_keeps ..)

theorem execViEvAckWrite_keeps (fn vi v s) : KeepsO s (execViEvAckWrite fn vi v s) := by
  unfold execViEvAckWrite
  refine (hostVi_keeps (h := fun s1 => ?_) ..)
  exact (evAckWr_keeps ..)

theorem execViEvPostWrite_keeps (fn vi v s) : KeepsO s (execViEvPostWrite fn vi v s) := by
  unfold execViEvPostWrite
  refine (hostVi_keeps (h := fun s1 => ?_) ..)
  exact (evPostWr_keeps ..)

/-! ## Queues -/

theorem hostQ_keeps (fn vi off v body s) (h : ∀ s, Keeps s (body s)) : KeepsO s (hostQ fn vi off v body s) := by
  unfold hostQ
  refine .ite ?_ ?_
  · refine (hostVi_keeps (h := fun s1 => ?_) ..)
    exact (h ..)
  · refine .ite ?_ ?_
    · refine (hostWr_keeps (h := fun s2 => ?_) ..)
      exact (h ..)
    · exact .next (.refl _)

theorem freeQueueCtx_keeps (s vi cq q) : Keeps s (freeQueueCtx s vi cq q) := by
  unfold freeQueueCtx
  split
  · exact (freeCtx_keeps ..)
  · exact (.refl _)

theorem sqStart_keeps (s vi q) : Keeps s (sqStart s vi q) := by
  unfold sqStart
  refine .ite (setSq_keeps ..) ?_
  split
  · exact (setSq_keeps ..)
  · exact (.of (newCtx_keeps ..) (setSq_keeps ..))

theorem sqCfgWr_keeps (fn vi q v s) : Keeps s (sqCfgWr fn vi q v s) := by
  unfold sqCfgWr
  extract_lets +onlyGivenNames x1
  extract_lets +onlyGivenNames x2
  extract_lets +onlyGivenNames x3
  extract_lets +onlyGivenNames x4
  have h5 : Keeps s x4 := (setSq_keeps ..)
  clear_value x4
  refine .ite ?_ ?_
  · extract_lets +onlyGivenNames x6
    have h7 : Keeps s x6 := (.of (rset_keeps ..) h5)
    clear_value x6
    refine .ite (.of (sqStart_keeps ..) h7) ?_
    exact h7
  · extract_lets +onlyGivenNames x8
    have h9 : Keeps s x8 := by
      unfold x8
      refine .ite (.of (accessErr_keeps ..) h5) ?_
      exact h5
    clear_value x8
    refine .ite h9 ?_
    extract_lets +onlyGivenNames x10
    have h11 : Keeps s x10 := (.of (rset_keeps ..) h9)
    clear_value x10
    extract_lets +onlyGivenNames x12
    refine .ite (.of (setSq_keeps ..) h11) ?_
    exact h11

theorem execSqEnable_keeps (fn vi q c s) : KeepsO s (execSqEnable fn vi q c s) := by
  unfold execSqEnable
  refine (hostQ_keeps (h := fun s1 => ?_) ..)
  exact (sqCfgWr_keeps ..)

theorem execSqDisable_keeps (fn vi q c s) : KeepsO s (execSqDisable fn vi q c s) := by
  unfold execSqDisable
  refine (hostQ_keeps (h := fun s1 => ?_) ..)
  exact (sqCfgWr_keeps ..)

theorem sqDrained_keeps (s vi q) : Keeps s (sqDrained s vi q) := by
  unfold sqDrained
  extract_lets +onlyGivenNames x1
  refine .ite (.of (freeQueueCtx_keeps ..) (setSq_keeps ..)) ?_
  exact (.refl _)

theorem execSqDrainComplete_keeps (vi q s) : KeepsO s (execSqDrainComplete vi q s) := by
  unfold execSqDrainComplete
  exact .next (sqDrained_keeps ..)

theorem cqStart_keeps (s vi q) : Keeps s (cqStart s vi q) := by
  unfold cqStart
  extract_lets +onlyGivenNames x1
  refine .ite (setCq_keeps ..) ?_
  split
  · exact (setCq_keeps ..)
  · exact (.of (newCtx_keeps ..) (setCq_keeps ..))

theorem cqCfgWr_keeps (fn vi q v s) : Keeps s (cqCfgWr fn vi q v s) := by
  unfold cqCfgWr
  extract_lets +onlyGivenNames x1
  extract_lets +onlyGivenNames x2
  extract_lets +onlyGivenNames x3
  refine .ite ?_ ?_
  · extract_lets +onlyGivenNames x4
    have h5 : Keeps s x4 := (rset_keeps ..)
    clear_value x4
    refine .ite (.of (cqStart_keeps ..) h5) ?_
    exact h5
  · extract_lets +onlyGivenNames x6
    have h7 : Keeps s x6 := by
      unfold x6
      refine .ite (accessErr_keeps ..) ?_
      exact (.refl _)
    clear_value x6
    refine .ite h7 ?_
    refine .ite (.of (accessErr_keeps ..) h7) ?_
    extract_lets +onlyGivenNames x8
    have h9 : Keeps s x8 := (.of (rset_keeps ..) h7)
    clear_value x8
    exact (.of (freeQueueCtx_keeps ..) (.of (setCq_keeps ..) h9))

theorem execCqEnable_keeps (fn vi q size s) : KeepsO s (execCqEnable fn vi q size s) := by
  unfold execCqEnable
  refine (hostQ_keeps (h := fun s1 => ?_) ..)
  exact (cqCfgWr_keeps ..)

theorem execCqDisable_keeps (fn vi q size s) : KeepsO s (execCqDisable fn vi q size s) := by
  unfold execCqDisable
  refine (hostQ_keeps (h := fun s1 => ?_) ..)
  exact (cqCfgWr_keeps ..)

theorem qBaseWr_keeps (fn vi cq q v s) : Keeps s (qBaseWr fn vi cq q v s) := by
  unfold qBaseWr
  extract_lets +onlyGivenNames x1
  extract_lets +onlyGivenNames x2
  refine .ite (rset_keeps ..) ?_
  exact (accessErr_keeps ..)

theorem sqDbWr_keeps (fn vi q t s) : Keeps s (sqDbWr fn vi q t s) := by
  unfold sqDbWr
  extract_lets +onlyGivenNames x1
  extract_lets +onlyGivenNames x2
  extract_lets +onlyGivenNames x3
  refine .ite (.refl _) ?_
  refine .ite (accessErr_keeps ..) ?_
  extract_lets +onlyGivenNames x4
  extract_lets +onlyGivenNames x5
  refine .ite (setSq_keeps ..) ?_
  exact (setSq_keeps ..)

theorem cqDbWr_keeps (fn vi q h s) : Keeps s (cqDbWr fn vi q h s) := by
  unfold cqDbWr
  extract_lets +onlyGivenNames x1
  extract_lets +onlyGivenNames x2
  extract_lets +onlyGivenNames x3
  extract_lets +onlyGivenNames x4
  refine .ite (accessErr_keeps ..) ?_
  refine .ite (.refl _) ?_
  extract_lets +onlyGivenNames x5
  extract_lets +onlyGivenNames x6
  refine .ite (.of (cqRetry_keeps ..) (setCq_keeps ..)) ?_
  exact (accessErr_keeps ..)

theorem execSqDoorbell_keeps (fn vi q index s) : KeepsO s (execSqDoorbell fn vi q index s) := by
  unfold execSqDoorbell
  refine (hostQ_keeps (h := fun s1 => ?_) ..)
  exact (sqDbWr_keeps ..)

theorem execCqDoorbell_keeps (fn vi q index s) : KeepsO s (execCqDoorbell fn vi q index s) := by
  unfold execCqDoorbell
  refine (hostQ_keeps (h := fun s1 => ?_) ..)
  exact (cqDbWr_keeps ..)

theorem stopSq_keeps (s vi q status detail) : Keeps s (stopSq s vi q status detail) := by
  unfold stopSq
  extract_lets +onlyGivenNames x1
  extract_lets +onlyGivenNames x2
  have h3 : Keeps s x2 := (setSq_keeps ..)
  clear_value x2
  exact (.of (raiseErr_keeps ..) h3)

theorem readDesc_keeps (s vi q i out ext) : Keeps s (readDesc s vi q i out ext).1 := by
  unfold readDesc
  extract_lets +onlyGivenNames x1
  extract_lets +onlyGivenNames x2
  split
  · exact (.pair (.refl _))
  · exact (.pair (.refl _))
  · split
    · rename_i s4 _ _ e7
      have h8 : Keeps s s4 := .fst e7 (devRead_keeps ..)
      split
      · exact h8
      · exact h8
  · split
    · exact (.pair (.refl _))
    · exact (.pair (gotPoison_keeps ..))
    · exact (.pair (.refl _))

theorem readDescs_keeps (s vi q out ext i a6) : Keeps s (readDescs s vi q out ext i a6).1 := by
  fun_induction readDescs s vi q out ext i a6
  · exact (.pair (.refl _))
  · rename_i s4 _ _ _ s8 _ e10
    have h11 : Keeps s4 s8 := .fst e10 (readDesc_keeps ..)
    exact h11
  · rename_i s12 _ _ _ s16 _ e18 s19 _ _ e22 y23
    have h24 : Keeps s12 s16 := .fst e18 (readDesc_keeps ..)
    have h25 : Keeps s12 s19 := by
      refine Keeps.fst e22 ?_
      exact .of y23 h24
    exact h25

theorem execDescriptorFetch_keeps (vi q n out data s) : KeepsO s (execDescriptorFetch vi q n out data s) := by
  unfold execDescriptorFetch
  extract_lets +onlyGivenNames x1
  extract_lets +onlyGivenNames x2
  extract_lets +onlyGivenNames x3
  extract_lets +onlyGivenNames x4
  extract_lets +onlyGivenNames x5
  refine .ite (.next (.refl _)) ?_
  extract_lets +onlyGivenNames x6
  have h7 : Keeps s x6 := (setSq_keeps ..)
  clear_value x6
  split
  · rename_i s9 _ _ e12
    have h13 : Keeps s s9 := .fst e12 (.of (readDescs_keeps ..) h7)
    refine .ite (.next (.of (stopSq_keeps ..) h13)) ?_
    exact .next (.of (setSq_keeps ..) h13)

theorem takeHead_keeps (s vi q kind) : KeepsP s (takeHead s vi q kind) := by
  unfold takeHead
  split
  · split
    · exact .none
    · split
      · exact .none
      · rename_i s2 e3
        have h4 : Keeps s s2 := KeepsM.elim e3 (roundTake_keeps ..)
        extract_lets +onlyGivenNames x5
        extract_lets +onlyGivenNames x6
        have h7 : Keeps s x6 := (.of (setSq_keeps ..) h4)
        clear_value x6
        exact .some (.of (wakeDim_keeps ..) h7)
  · exact .none

theorem execLaunchTake_keeps (vi q s) : KeepsO s (execLaunchTake vi q s) := by
  unfold execLaunchTake
  split
  · exact .next (.refl _)
  · rename_i s2 _ _ e5
    have h6 : Keeps s s2 := KeepsP.elim e5 (takeHead_keeps ..)
    extract_lets +onlyGivenNames x7
    extract_lets +onlyGivenNames x8
    refine .ite (.next (.of (acceptLaunch_keeps ..) h6)) ?_
    refine .ite (.next (.of (complete_keeps ..) (.of (sqUntake_keeps ..) h6))) ?_
    exact .next (.of (completeSq_keeps ..) h6)

/-! ## Transfer -/

theorem finish_keeps (s d status dcode bytes detail) : Keeps s (finish s d status dcode bytes detail) := by
  unfold finish
  extract_lets +onlyGivenNames x1
  refine .ite (.same ⟨rfl, rfl, rfl, rfl, rfl⟩) ?_
  exact (dropDesc_keeps ..)

theorem modDesc_keeps (s id f) : Keeps s (modDesc s id f) := by
  unfold modDesc
  exact (.same ⟨rfl, rfl, rfl, rfl, rfl⟩)

theorem rangeMark_keeps (s vi a n w) : Keeps s (rangeMark s vi a n w) := by
  unfold rangeMark
  refine Keeps.foldl (fun s1 y2 => ?_)
  split
  · exact (engAct_keeps ..)
  · exact (.refl _)

theorem copyOut_keeps (s d data parts) : Keeps s (copyOut s d data parts) := by
  unfold copyOut
  refine .ite (.refl _) ?_
  extract_lets +onlyGivenNames x1
  refine Keeps.foldl (fun s2 y3 => ?_)
  extract_lets +onlyGivenNames x4
  refine .ite (rangeMark_keeps ..) ?_
  refine KeepsM.getD ?_ ?_
  · exact (rangeWriteBy_keeps ..)
  · exact (.refl _)

theorem copyMove_keeps (s d ext) : Keeps s (copyMove s d ext) := by
  unfold copyMove
  extract_lets +onlyGivenNames x1
  extract_lets +onlyGivenNames x2
  extract_lets +onlyGivenNames x3
  refine .ite (finish_keeps ..) ?_
  refine .ite (.of (finish_keeps ..) (copyOut_keeps ..)) ?_
  split
  · exact (finish_keeps ..)
  · rename_i s5 _ _ e8
    have h9 : Keeps s s5 := KeepsP.elim e8 (rangeRead_keeps ..)
    extract_lets +onlyGivenNames x10
    extract_lets +onlyGivenNames x11
    have h12 : Keeps s x11 := (.of (nextFree_keeps ..) (.of (copyOut_keeps ..) h9))
    clear_value x11
    refine .ite (.of (finish_keeps ..) h12) ?_
    exact (.of (finish_keeps ..) h12)

theorem startCopy_keeps (s d) : Keeps s (startCopy s d) := by
  unfold startCopy
  extract_lets +onlyGivenNames x1
  extract_lets +onlyGivenNames x2
  extract_lets +onlyGivenNames x3
  refine .ite (finish_keeps ..) ?_
  refine .ite (finish_keeps ..) ?_
  refine .ite ?_ ?_
  · refine .ite (.refl _) ?_
    refine .ite (modDesc_keeps ..) ?_
    exact (copyMove_keeps ..)
  · exact (copyMove_keeps ..)

theorem startStorage_keeps (s d) : Keeps s (startStorage s d) := by
  unfold startStorage
  extract_lets +onlyGivenNames x1
  extract_lets +onlyGivenNames x2
  extract_lets +onlyGivenNames x3
  extract_lets +onlyGivenNames x4
  iterate 5 refine .ite (finish_keeps ..) ?_
  refine .ite (.refl _) ?_
  extract_lets +onlyGivenNames x5
  extract_lets +onlyGivenNames x6
  refine .ite (.refl _) ?_
  extract_lets +onlyGivenNames x7
  have h8 : Keeps s x7 := by
    unfold x7
    refine .ite (.same ⟨rfl, rfl, rfl, rfl, rfl⟩) ?_
    exact (.refl _)
  clear_value x7
  exact (.of (modDesc_keeps ..) h8)

theorem newDesc_keeps (s vi q kind seq b) : Keeps s (newDesc s vi q kind seq b).1 := by
  unfold newDesc
  extract_lets +onlyGivenNames x1
  extract_lets +onlyGivenNames x2
  extract_lets +onlyGivenNames x3
  exact (.pair (.same ⟨rfl, rfl, rfl, rfl, rfl⟩))

theorem tryStart_keeps (s d) : Keeps s (tryStart s d) := by
  unfold tryStart
  refine .ite ?_ ?_
  · refine .ite (startCopy_keeps ..) ?_
    refine .ite (startStorage_keeps ..) ?_
    exact (.refl _)
  · exact (.refl _)

theorem takeOp_keeps (s vi q kind mine) : Keeps s (takeOp s vi q kind mine) := by
  unfold takeOp
  split
  · exact (.refl _)
  · refine .ite (.refl _) ?_
    split
    · exact (.refl _)
    · rename_i s2 _ _ e5
      have h6 : Keeps s s2 := KeepsP.elim e5 (takeHead_keeps ..)
      split
      · rename_i s8 _ e10
        have h11 : Keeps s s8 := .fst e10 (.of (newDesc_keeps ..) h6)
        exact (.of (tryStart_keeps ..) h11)

theorem execCopy_keeps (vi q s) : KeepsO s (execCopy vi q s) := by
  unfold execCopy
  exact .next (.of (settle_keeps ..) (takeOp_keeps ..))

theorem execStgRead_keeps (vi q s) : KeepsO s (execStgRead vi q s) := by
  unfold execStgRead
  exact .next (takeOp_keeps ..)

theorem execStgWrite_keeps (vi q s) : KeepsO s (execStgWrite vi q s) := by
  unfold execStgWrite
  exact .next (takeOp_keeps ..)

theorem execStgFlush_keeps (vi q s) : KeepsO s (execStgFlush vi q s) := by
  unfold execStgFlush
  exact .next (takeOp_keeps ..)

theorem execStgDeallocate_keeps (vi q s) : KeepsO s (execStgDeallocate vi q s) := by
  unfold execStgDeallocate
  exact .next (takeOp_keeps ..)

theorem execStgWriteZeroes_keeps (vi q s) : KeepsO s (execStgWriteZeroes vi q s) := by
  unfold execStgWriteZeroes
  exact .next (takeOp_keeps ..)

theorem winAccess_keeps (s port rid off r ext) : Keeps s (winAccess s port rid off r ext) := by
  unfold winAccess
  extract_lets +onlyGivenNames x1
  split
  · unfold x1
    exact (.of (raiseErr_keeps ..) (.same ⟨rfl, rfl, rfl, rfl, rfl⟩))
  · split
    · unfold x1
      exact (.of (raiseErr_keeps ..) (.same ⟨rfl, rfl, rfl, rfl, rfl⟩))
    · extract_lets +onlyGivenNames x2
      extract_lets +onlyGivenNames x3
      extract_lets +onlyGivenNames x4
      refine .ite ?_ ?_
      · unfold x1
        exact (.of (raiseErr_keeps ..) (.same ⟨rfl, rfl, rfl, rfl, rfl⟩))
      · split
        · refine .ite (.same ⟨rfl, rfl, rfl, rfl, rfl⟩) ?_
          split
          · unfold x1
            exact (.of (raiseErr_keeps ..) (.same ⟨rfl, rfl, rfl, rfl, rfl⟩))
          · rename_i s6 _ _ e9
            have h10 : Keeps s s6 := KeepsP.elim e9 (rangeRead_keeps ..)
            extract_lets +onlyGivenNames x11
            have h12 : Keeps s x11 := (.of (modDesc_keeps ..) h10)
            clear_value x11
            exact (h12.trans (.same ⟨rfl, rfl, rfl, rfl, rfl⟩))
        · refine .ite (.refl _) ?_
          refine .ite (.of (gotPoison_keeps ..) (.of (modDesc_keeps ..) (rangeMark_keeps ..))) ?_
          refine KeepsM.getD ?_ ?_
          · exact (rangeWriteBy_keeps ..)
          · exact (.refl _)

theorem execStorageWindowAccess_keeps (port rid off r ext s) : KeepsO s (execStorageWindowAccess port rid off r ext s) := by
  unfold execStorageWindowAccess
  exact .next (winAccess_keeps ..)

theorem unmapWin_keeps (s id) : Keeps s (unmapWin s id) := by
  unfold unmapWin
  exact (.same ⟨rfl, rfl, rfl, rfl, rfl⟩)

theorem dropDead_keeps (s id) : Keeps s (dropDead s id) := by
  unfold dropDead
  extract_lets +onlyGivenNames x1
  have h2 : Keeps s x1 := (unmapWin_keeps ..)
  clear_value x1
  exact (h2.trans (.same ⟨rfl, rfl, rfl, rfl, rfl⟩))

theorem execNvmeCompletion_keeps (vi q seq status data s) : KeepsO s (execNvmeCompletion vi q seq status data s) := by
  unfold execNvmeCompletion
  split
  · exact .next (.refl _)
  · refine .ite (.next (.refl _)) ?_
    refine .ite (.next (dropDead_keeps ..)) ?_
    refine .ite (.next (.of (finish_keeps ..) (unmapWin_keeps ..))) ?_
    extract_lets +onlyGivenNames x1
    have h2 : Keeps s x1 := (unmapWin_keeps ..)
    clear_value x1
    extract_lets +onlyGivenNames x3
    extract_lets +onlyGivenNames x4
    have h5 : Keeps s x4 := by
      unfold x4
      refine .ite ?_ ?_
      · refine KeepsM.getD ?_ ?_
        · exact (.of (rangeWriteBy_keeps ..) h2)
        · exact h2
      · exact h2
    clear_value x4
    refine .ite (.next (.of (finish_keeps ..) h5)) ?_
    exact .next (.of (finish_keeps ..) h5)

theorem execNvmeCmdTimeout_keeps (vi q seq s) : KeepsO s (execNvmeCmdTimeout vi q seq s) := by
  unfold execNvmeCmdTimeout
  split
  · exact .next (.refl _)
  · refine .ite (.next (.refl _)) ?_
    refine .ite (.next (dropDead_keeps ..)) ?_
    exact .next (.of (finish_keeps ..) (unmapWin_keeps ..))

theorem execHostReadCompletion_keeps (vi q seq out data s) : KeepsO s (execHostReadCompletion vi q seq out data s) := by
  unfold execHostReadCompletion
  split
  · exact .next (.refl _)
  · refine .ite (.next (.of (modInst_keeps ..) (.same ⟨rfl, rfl, rfl, rfl, rfl⟩))) ?_
    split
    · exact .next (.of (settle_keeps ..) (copyMove_keeps ..))
    · extract_lets +onlyGivenNames x1
      have h2 : Keeps s x1 := (gotPoison_keeps ..)
      clear_value x1
      extract_lets +onlyGivenNames x3
      exact .next (.of (settle_keeps ..) (.of (finish_keeps ..) (.of (copyOut_keeps ..) h2)))
    · exact .next (finish_keeps ..)

theorem linkLoss_keeps (s port) : Keeps s (linkLoss s port) := by
  unfold linkLoss
  extract_lets +onlyGivenNames x1
  extract_lets +onlyGivenNames x2
  have h3 : Keeps s x2 := by
    unfold x2
    refine Keeps.foldl (fun s4 y5 => ?_)
    extract_lets +onlyGivenNames x6
    refine .ite (rset_keeps ..) ?_
    exact (.refl _)
  clear_value x2
  refine .of (Keeps.foldl (fun s7 y8 => ?_)) h3
  refine .ite (dropDead_keeps ..) ?_
  exact (.of (finish_keeps ..) (unmapWin_keeps ..))

theorem slotLost_keeps (s port removed) : Keeps s (slotLost s port removed) := by
  unfold slotLost
  extract_lets +onlyGivenNames x1
  exact (.same ⟨rfl, rfl, rfl, rfl, rfl⟩)

theorem execDownstreamLinkLoss_keeps (loss s) : KeepsO s (execDownstreamLinkLoss loss s) := by
  unfold execDownstreamLinkLoss
  exact .next (.of (linkLoss_keeps ..) (slotLost_keeps ..))

theorem trainPort_keeps (s p) : Keeps s (trainPort s p) := by
  unfold trainPort
  exact (.of (nextFree_keeps ..) (.same ⟨rfl, rfl, rfl, rfl, rfl⟩))

theorem execDownstreamPerstRelease_keeps (port s) : KeepsO s (execDownstreamPerstRelease port s) := by
  unfold execDownstreamPerstRelease
  refine .ite (.next (.of (trainPort_keeps ..) (.same ⟨rfl, rfl, rfl, rfl, rfl⟩))) ?_
  exact .next (.refl _)

/-! ## Endpoint -/

theorem answerHost_keeps (s d p) : Keeps s (answerHost s d p) := by
  unfold answerHost
  exact (.same ⟨rfl, rfl, rfl, rfl, rfl⟩)

theorem aperRead_keeps (s fn off n) : Keeps s (aperRead s fn off n) := by
  unfold aperRead
  extract_lets +onlyGivenNames x1
  have h2 : Keeps s x1 := (.of (answerHost_keeps ..) (accessErr_keeps ..))
  clear_value x1
  split
  · exact h2
  · split
    · split
      · rename_i s4 _ _ e7
        have h8 : Keeps s s4 := .fst e7 (devRead_keeps ..)
        exact (.of (answerHost_keeps ..) h8)
    · exact h2
    · exact h2
    · exact h2

theorem execBar2Read_keeps (fn off n s) : KeepsO s (execBar2Read fn off n s) := by
  unfold execBar2Read
  refine .ite (.next (.refl _)) ?_
  split
  · exact .next (.refl _)
  · exact .next (.of (aerReq_keeps ..) (answerHost_keeps ..))
  · exact .next (answerHost_keeps ..)
  · exact .next (.of (startWake_keeps ..) (answerHost_keeps ..))
  · exact .next (.refl _)
  · exact .next (.of (aperRead_keeps ..) (stopEntry_keeps ..))

theorem aperWrite_keeps (fn off data poison s) : Keeps s (aperWrite fn off data poison s) := by
  unfold aperWrite
  split
  · exact (accessErr_keeps ..)
  · split
    · extract_lets +onlyGivenNames x1
      have h2 : Keeps s x1 := (engAct_keeps ..)
      clear_value x1
      refine .ite (.of (aerReq_keeps ..) h2) ?_
      exact h2
    · exact (accessErr_keeps ..)
    · exact (accessErr_keeps ..)
    · exact (accessErr_keeps ..)

theorem execBar2Write_keeps (fn off data poison s) : KeepsO s (execBar2Write fn off data poison s) := by
  unfold execBar2Write
  refine .ite (.next (.refl _)) ?_
  split
  · exact .next (.refl _)
  · exact .next (aerReq_keeps ..)
  · exact .next (.refl _)
  · exact .next (.of (startWake_keeps ..) (.same ⟨rfl, rfl, rfl, rfl, rfl⟩))
  · exact .next (.refl _)
  · refine .ite (.next (.of (stopEntry_keeps ..) (.same ⟨rfl, rfl, rfl, rfl, rfl⟩))) ?_
    exact .next (.of (settle_keeps ..) (.of (aperWrite_keeps ..) (stopEntry_keeps ..)))

theorem aperWr_keeps (fn slot v s) : Keeps s (aperWr fn slot v s) := by
  unfold aperWr
  refine .ite (rset_keeps ..) ?_
  exact (accessErr_keeps ..)

theorem setLink_keeps (s port l) : Keeps s (setLink s port l) := by
  unfold setLink
  exact (.same ⟨rfl, rfl, rfl, rfl, rfl⟩)

theorem execL0pEnter_keeps (port lanes s) : KeepsO s (execL0pEnter port lanes s) := by
  unfold execL0pEnter
  extract_lets +onlyGivenNames x1
  refine .ite (.next (setLink_keeps ..)) ?_
  exact .next (.refl _)

theorem execAspmL1Enter_keeps (port sub s) : KeepsO s (execAspmL1Enter port sub s) := by
  unfold execAspmL1Enter
  extract_lets +onlyGivenNames x1
  refine .ite (.next (.refl _)) ?_
  split <;> exact .ite (.next (setLink_keeps ..)) (.next (.refl _))

theorem execLinkPowerExit_keeps (port s) : KeepsO s (execLinkPowerExit port s) := by
  unfold execLinkPowerExit
  refine .ite (.next (setLink_keeps ..)) ?_
  exact .next (.refl _)

end Sys2Proof.Machine
end

