-- ==== Sys2Proof/Laws/KeepsPorts.lean ====
section
/-! SUPPORT. Lemmas of the relation `Keeps`: Iris, Prism and Barvar Remote Memory. One lemma a function; each says what the function keeps. -/

namespace Sys2Proof.Machine

/-! ## Iris -/

theorem setIris_keeps (s p x) : Keeps s (setIris s p x) := by
  unfold setIris
  exact (.same ⟨rfl, rfl, rfl, rfl, rfl⟩)

theorem setPhy_keeps (s p x) : Keeps s (setPhy s p x) := by
  unfold setPhy
  exact (.same ⟨rfl, rfl, rfl, rfl, rfl⟩)

theorem prismDrop_keeps (s p k) : Keeps s (prismDrop s p k) := by
  unfold prismDrop
  extract_lets +onlyGivenNames x1
  exact (.same ⟨rfl, rfl, rfl, rfl, rfl⟩)

theorem runShaper_keeps (s p inst k) : Keeps s (runShaper s p inst k) := by
  unfold runShaper
  extract_lets +onlyGivenNames x1
  extract_lets +onlyGivenNames x2
  extract_lets +onlyGivenNames x3
  extract_lets +onlyGivenNames x4
  split
  · extract_lets +onlyGivenNames x5
    extract_lets +onlyGivenNames x6
    have h7 : Keeps s x6 := (setIris_keeps ..)
    clear_value x6
    refine .of (Keeps.foldl (fun s8 y9 => ?_)) h7
    exact (prismDrop_keeps ..)

theorem runShapers_keeps (s p) : Keeps s (runShapers s p) := by
  unfold runShapers
  extract_lets +onlyGivenNames x1
  have h2 : Keeps s x1 := by
    unfold x1
    refine Keeps.foldl (fun s3 y4 => ?_)
    exact (runShaper_keeps ..)
  clear_value x1
  refine .of (Keeps.foldl (fun s5 y6 => ?_)) h2
  exact (runShaper_keeps ..)

theorem toIris_keeps (s p f) : Keeps s (toIris s p f) := by
  unfold toIris
  extract_lets +onlyGivenNames x1
  refine .ite ?_ ?_
  · split
    · exact (.refl _)
    · refine .ite (.refl _) ?_
      extract_lets +onlyGivenNames x2
      exact (.of (runShaper_keeps ..) (setIris_keeps ..))
  · refine .ite ?_ ?_
    · extract_lets +onlyGivenNames x3
      extract_lets +onlyGivenNames x4
      exact (.of (runShaper_keeps ..) (setIris_keeps ..))
    · split
      · exact (setIris_keeps ..)

theorem brmToIris_keeps (s port vi) : Keeps s (brmToIris s port vi) := by
  unfold brmToIris
  split
  · exact (.refl _)
  · refine .ite (.refl _) ?_
    exact (.of (toIris_keeps ..) (.of (nextFree_keeps ..) (.same ⟨rfl, rfl, rfl, rfl, rfl⟩)))

theorem offer_keeps (s port src data) : Keeps s (offer s port src data) := by
  unfold offer
  split
  · exact (toIris_keeps ..)
  · exact (toIris_keeps ..)
  · exact (toIris_keeps ..)
  · exact (toIris_keeps ..)
  · exact (toIris_keeps ..)

theorem execFrameToIris_keeps (port src data s) : KeepsO s (execFrameToIris port src data s) := by
  unfold execFrameToIris
  refine .ite (.next (.refl _)) ?_
  split
  · exact .next (brmToIris_keeps ..)
  · refine .ite (.next (.refl _)) ?_
    exact .next (offer_keeps ..)

theorem execTcpRetransmit_keeps (target data s) : KeepsO s (execTcpRetransmit target data s) := by
  unfold execTcpRetransmit
  extract_lets +onlyGivenNames x1
  split
  · exact .next (.refl _)
  · refine .ite (.next (toIris_keeps ..)) ?_
    exact .next (.refl _)

theorem execShaperRefill_keeps (port sh s) : KeepsO s (execShaperRefill port sh s) := by
  unfold execShaperRefill
  extract_lets +onlyGivenNames x1
  refine .ite (.next (.refl _)) ?_
  split
  · extract_lets +onlyGivenNames x2
    refine .ite (.next (.refl _)) ?_
    extract_lets +onlyGivenNames x3
    extract_lets +onlyGivenNames x4
    exact .next (.of (runShaper_keeps ..) (setIris_keeps ..))
  · extract_lets +onlyGivenNames x5
    extract_lets +onlyGivenNames x6
    refine .ite (.next (.refl _)) ?_
    extract_lets +onlyGivenNames x7
    have h8 : Keeps s x7 := by
      unfold x7
      split
      · exact (rset_keeps ..)
      · exact (.refl _)
    clear_value x7
    extract_lets +onlyGivenNames x9
    extract_lets +onlyGivenNames x10
    exact .next (.of (runShaper_keeps ..) (.of (setIris_keeps ..) h8))

theorem viCredit_keeps (s vi p) : Keeps s (viCredit s vi p) := by
  unfold viCredit
  extract_lets +onlyGivenNames x1
  extract_lets +onlyGivenNames x2
  extract_lets +onlyGivenNames x3
  exact (setIris_keeps ..)

theorem viShapeWr_keeps (fn vi p v s) : Keeps s (viShapeWr fn vi p v s) := by
  unfold viShapeWr
  refine .ite (viRefused_keeps ..) ?_
  extract_lets +onlyGivenNames x1
  exact (.of (runShaper_keeps ..) (.of (viCredit_keeps ..) (rset_keeps ..)))

theorem execViShapeWrite_keeps (fn vi port v s) : KeepsO s (execViShapeWrite fn vi port v s) := by
  unfold execViShapeWrite
  refine (hostVi_keeps (h := fun s1 => ?_) ..)
  exact (viShapeWr_keeps ..)

theorem cShapeWr_keeps (p c v s) : Keeps s (cShapeWr p c v s) := by
  unfold cShapeWr
  extract_lets +onlyGivenNames x1
  extract_lets +onlyGivenNames x2
  extract_lets +onlyGivenNames x3
  exact (setIris_keeps ..)

theorem execIrsCshapeWrite_keeps (fn port c v s) : KeepsO s (execIrsCshapeWrite fn port c v s) := by
  unfold execIrsCshapeWrite
  refine (hostPf_keeps (h := fun s1 => ?_) ..)
  exact (cShapeWr_keeps ..)

theorem qCfgWr_keeps (p q v s) : Keeps s (qCfgWr p q v s) := by
  unfold qCfgWr
  extract_lets +onlyGivenNames x1
  extract_lets +onlyGivenNames x2
  extract_lets +onlyGivenNames x3
  extract_lets +onlyGivenNames x4
  extract_lets +onlyGivenNames x5
  extract_lets +onlyGivenNames x6
  extract_lets +onlyGivenNames x7
  have h8 : Keeps s x7 := by
    unfold x7
    refine .ite (setIris_keeps ..) ?_
    exact (.refl _)
  clear_value x7
  exact (.of (runShapers_keeps ..) (.of (rset_keeps ..) h8))

theorem execIrsQcfgWrite_keeps (fn port q v s) : KeepsO s (execIrsQcfgWrite fn port q v s) := by
  unfold execIrsQcfgWrite
  refine (hostPf_keeps (h := fun s1 => ?_) ..)
  exact (qCfgWr_keeps ..)

theorem gclWr_keeps (fn p v s) : Keeps s (gclWr fn p v s) := by
  unfold gclWr
  extract_lets +onlyGivenNames x1
  extract_lets +onlyGivenNames x2
  extract_lets +onlyGivenNames x3
  extract_lets +onlyGivenNames x4
  extract_lets +onlyGivenNames x5
  have h6 : Keeps s x5 := by
    unfold x5
    refine .ite (accessErr_keeps ..) ?_
    exact (.refl _)
  clear_value x5
  extract_lets +onlyGivenNames x7
  have h8 : Keeps s x7 := (.of (rset_keeps ..) h6)
  clear_value x7
  extract_lets +onlyGivenNames x9
  extract_lets +onlyGivenNames x10
  have h11 : Keeps s x10 := by
    unfold x10
    refine .ite (.of (setIris_keeps ..) h8) ?_
    exact h8
  clear_value x10
  extract_lets +onlyGivenNames x12
  refine .ite ?_ ?_
  · refine .ite (.of (accessErr_keeps ..) h11) ?_
    extract_lets +onlyGivenNames x13
    refine .ite (.of (setIris_keeps ..) h11) ?_
    exact (.of (setIris_keeps ..) h11)
  · exact h11

theorem execConfigChange_keeps (fn port c s) : KeepsO s (execConfigChange fn port c s) := by
  unfold execConfigChange
  extract_lets +onlyGivenNames x1
  refine (hostPf_keeps (h := fun s2 => ?_) ..)
  exact (gclWr_keeps ..)

theorem execCancel_keeps (fn port c s) : KeepsO s (execCancel fn port c s) := by
  unfold execCancel
  extract_lets +onlyGivenNames x1
  refine (hostPf_keeps (h := fun s2 => ?_) ..)
  exact (gclWr_keeps ..)

theorem execGateEnWrite_keeps (fn port c s) : KeepsO s (execGateEnWrite fn port c s) := by
  unfold execGateEnWrite
  refine (hostPf_keeps (h := fun s1 => ?_) ..)
  exact (gclWr_keeps ..)

theorem gclListWr_keeps (fn p off v s) : Keeps s (gclListWr fn p off v s) := by
  unfold gclListWr
  refine .ite (accessErr_keeps ..) ?_
  exact (rset_keeps ..)

theorem execGateEntryAdvance_keeps (port s) : KeepsO s (execGateEntryAdvance port s) := by
  unfold execGateEntryAdvance
  exact .next (setIris_keeps ..)

theorem execConfigChangeTime_keeps (port s) : KeepsO s (execConfigChangeTime port s) := by
  unfold execConfigChangeTime
  extract_lets +onlyGivenNames x1
  refine .ite (.next (setIris_keeps ..)) ?_
  exact .next (.refl _)

theorem ecBump_keeps (s n k) : Keeps s (ecBump s n k) := by
  unfold ecBump
  extract_lets +onlyGivenNames x1
  refine .ite (.of (serveEc_keeps ..) (setSyn_keeps ..)) ?_
  exact (.refl _)

theorem ringFault_keeps (s vi addr arg0) : Keeps s (ringFault s vi addr arg0) := by
  unfold ringFault
  exact (raiseErr_keeps ..)

theorem releaseSlots_keeps (s l) : Keeps s (releaseSlots s l) := by
  unfold releaseSlots
  refine Keeps.foldl (fun s1 y2 => ?_)
  split
  · exact (ecBump_keeps ..)
  · exact (.refl _)

theorem transmitStart_keeps (s port) : Keeps s (transmitStart s port) := by
  unfold transmitStart
  extract_lets +onlyGivenNames x1
  refine .ite (.refl _) ?_
  extract_lets +onlyGivenNames x2
  have h3 : Keeps s x2 := (releaseSlots_keeps ..)
  clear_value x2
  extract_lets +onlyGivenNames x4
  split
  · exact (.of (runShapers_keeps ..) (.of (setIris_keeps ..) h3))
  · split
    · exact (.of (setIris_keeps ..) h3)
    · extract_lets +onlyGivenNames x5
      extract_lets +onlyGivenNames x6
      exact (.of (runShapers_keeps ..) (.of (setIris_keeps ..) h3))

theorem txCfgWr_keeps (fn vi r v s) : Keeps s (txCfgWr fn vi r v s) := by
  unfold txCfgWr
  extract_lets +onlyGivenNames x1
  extract_lets +onlyGivenNames x2
  extract_lets +onlyGivenNames x3
  extract_lets +onlyGivenNames x4
  refine .ite (viRefused_keeps ..) ?_
  refine .ite ?_ ?_
  · extract_lets +onlyGivenNames x5
    have h6 : Keeps s x5 := (rset_keeps ..)
    clear_value x5
    refine .ite (h6.trans (.same ⟨rfl, rfl, rfl, rfl, rfl⟩)) ?_
    exact h6
  · extract_lets +onlyGivenNames x7
    extract_lets +onlyGivenNames x8
    have h9 : Keeps s x8 := by
      unfold x8
      refine .ite (accessErr_keeps ..) ?_
      exact (.refl _)
    clear_value x8
    refine .ite h9 ?_
    exact (.of (rset_keeps ..) (h9.trans (.same ⟨rfl, rfl, rfl, rfl, rfl⟩)))

theorem execTxRingEnable_keeps (fn vi r c s) : KeepsO s (execTxRingEnable fn vi r c s) := by
  unfold execTxRingEnable
  extract_lets +onlyGivenNames x1
  refine (hostVi_keeps (h := fun s2 => ?_) ..)
  exact (txCfgWr_keeps ..)

theorem execTxRingDisable_keeps (fn vi r c s) : KeepsO s (execTxRingDisable fn vi r c s) := by
  unfold execTxRingDisable
  extract_lets +onlyGivenNames x1
  refine (hostVi_keeps (h := fun s2 => ?_) ..)
  exact (txCfgWr_keeps ..)

theorem txTaken_keeps (s vi r) : Keeps s (txTaken s vi r) := by
  unfold txTaken
  extract_lets +onlyGivenNames x1
  exact (.same ⟨rfl, rfl, rfl, rfl, rfl⟩)

theorem txTake_keeps (s vi r) : KeepsP s (txTake s vi r) := by
  unfold txTake
  split
  · exact .none
  · split
    · exact .none
    · rename_i s2 e3
      have h4 : Keeps s s2 := KeepsM.elim e3 (roundTake_keeps ..)
      extract_lets +onlyGivenNames x5
      extract_lets +onlyGivenNames x6
      exact .some (.of (txTaken_keeps ..) h4)

theorem txDiscard_keeps (s vi r a) : Keeps s (txDiscard s vi r a) := by
  unfold txDiscard
  exact (.of (ecBump_keeps ..) (ringFault_keeps ..))

theorem execTxSlotTake_keeps (vi r ext s) : KeepsO s (execTxSlotTake vi r ext s) := by
  unfold execTxSlotTake
  extract_lets +onlyGivenNames x1
  split
  · exact .next (.refl _)
  · rename_i s3 _ _ e6
    have h7 : Keeps s s3 := KeepsP.elim e6 (txTake_keeps ..)
    extract_lets +onlyGivenNames x8
    extract_lets +onlyGivenNames x9
    split
    · exact .next (.of (settle_keeps ..) (.of (txDiscard_keeps ..) h7))
    · rename_i s11 _ _ e14
      have h15 : Keeps s s11 := KeepsP.elim e14 (.of (rangeRead_keeps ..) h7)
      extract_lets +onlyGivenNames x16
      extract_lets +onlyGivenNames x17
      refine .ite (.next (.of (settle_keeps ..) (.of (txDiscard_keeps ..) h15))) ?_
      split
      · exact .next (.of (settle_keeps ..) (.of (txDiscard_keeps ..) h15))
      · rename_i s19 _ _ e22
        have h23 : Keeps s s19 := KeepsP.elim e22 (.of (rangeRead_keeps ..) h15)
        refine .ite (.next (.of (settle_keeps ..) (.of (txDiscard_keeps ..) h23))) ?_
        exact .next (.of (settle_keeps ..) (.of (toIris_keeps ..) h23))

theorem execFrameTransmitEnd_keeps (port s) : KeepsO s (execFrameTransmitEnd port s) := by
  unfold execFrameTransmitEnd
  extract_lets +onlyGivenNames x1
  split
  · exact .next (.refl _)
  · extract_lets +onlyGivenNames x2
    have h3 : Keeps s x2 := (setIris_keeps ..)
    clear_value x2
    split
    · extract_lets +onlyGivenNames x4
      have h5 : Keeps s x4 := by
        unfold x4
        refine .ite ?_ ?_
        · refine KeepsM.getD ?_ ?_
          · exact (.of (instWrite_keeps ..) h3)
          · exact (.of (ringFault_keeps ..) h3)
        · exact h3
      clear_value x4
      exact .next (.of (settle_keeps ..) (.of (ecBump_keeps ..) h5))
    · exact .next h3

theorem smpCfgWr_keeps (fn p v s) : Keeps s (smpCfgWr fn p v s) := by
  unfold smpCfgWr
  extract_lets +onlyGivenNames x1
  extract_lets +onlyGivenNames x2
  extract_lets +onlyGivenNames x3
  refine .ite ?_ ?_
  · extract_lets +onlyGivenNames x4
    have h5 : Keeps s x4 := (rset_keeps ..)
    clear_value x4
    refine .ite (.of (setIris_keeps ..) h5) ?_
    exact h5
  · extract_lets +onlyGivenNames x6
    extract_lets +onlyGivenNames x7
    have h8 : Keeps s x7 := by
      unfold x7
      refine .ite (accessErr_keeps ..) ?_
      exact (.refl _)
    clear_value x7
    refine .ite h8 ?_
    exact (.of (rset_keeps ..) (.of (setIris_keeps ..) h8))

theorem smpRingWr_keeps (fn p off v s) : Keeps s (smpRingWr fn p off v s) := by
  unfold smpRingWr
  refine .ite (accessErr_keeps ..) ?_
  exact (rset_keeps ..)

theorem execSampleRingEnable_keeps (fn port c s) : KeepsO s (execSampleRingEnable fn port c s) := by
  unfold execSampleRingEnable
  refine (hostPf_keeps (h := fun s1 => ?_) ..)
  exact (smpCfgWr_keeps ..)

theorem smpWriteAll_keeps (s p vi size n a5) : Keeps s (smpWriteAll s p vi size n a5) := by
  fun_induction smpWriteAll s p vi size n a5
  · exact (.refl _)
  · rename_i s3 _ _ _ _ _ _ s10 y11
    have h12 : Keeps s3 s10 := by
      unfold s10
      refine KeepsM.getD ?_ ?_
      · exact (instWrite_keeps ..)
      · exact (ringFault_keeps ..)
    exact .of y11 h12

theorem execQueueSample_keeps (port s) : KeepsO s (execQueueSample port s) := by
  unfold execQueueSample
  extract_lets +onlyGivenNames x1
  extract_lets +onlyGivenNames x2
  extract_lets +onlyGivenNames x3
  refine .ite (.next (.refl _)) ?_
  extract_lets +onlyGivenNames x4
  extract_lets +onlyGivenNames x5
  extract_lets +onlyGivenNames x6
  extract_lets +onlyGivenNames x7
  refine .ite (.next (setIris_keeps ..)) ?_
  extract_lets +onlyGivenNames x8
  have h9 : Keeps s x8 := (smpWriteAll_keeps ..)
  clear_value x8
  extract_lets +onlyGivenNames x10
  extract_lets +onlyGivenNames x11
  have h12 : Keeps s x11 := (.of (setIris_keeps ..) h9)
  clear_value x11
  refine .next ?_
  refine .of (settle_keeps ..) ?_
  refine .ite (.of (ecBump_keeps ..) h12) ?_
  exact h12

theorem execEthernetLinkDown_keeps (port s) : KeepsO s (execEthernetLinkDown port s) := by
  unfold execEthernetLinkDown
  extract_lets +onlyGivenNames x1
  refine .ite (.next (setPhy_keeps ..)) ?_
  exact .next (.refl _)

theorem execEthernetLinkUp_keeps (port s) : KeepsO s (execEthernetLinkUp port s) := by
  unfold execEthernetLinkUp
  extract_lets +onlyGivenNames x1
  refine .ite (.next (.of (runShapers_keeps ..) (setPhy_keeps ..))) ?_
  exact .next (.refl _)

/-! ## Prism -/

theorem setPrism_keeps (s p x) : Keeps s (setPrism s p x) := by
  unfold setPrism
  exact (.same ⟨rfl, rfl, rfl, rfl, rfl⟩)

theorem putWords_keeps (s k a2 a3) : Keeps s (putWords s k a2 a3) := by
  fun_induction putWords s k a2 a3
  · exact (.refl _)
  · rename_i y8
    exact .of y8 (rset_keeps ..)

theorem rxCfgWr_keeps (fn vi r v s) : Keeps s (rxCfgWr fn vi r v s) := by
  unfold rxCfgWr
  extract_lets +onlyGivenNames x1
  extract_lets +onlyGivenNames x2
  extract_lets +onlyGivenNames x3
  extract_lets +onlyGivenNames x4
  refine .ite (viRefused_keeps ..) ?_
  refine .ite ?_ ?_
  · extract_lets +onlyGivenNames x5
    have h6 : Keeps s x5 := (rset_keeps ..)
    clear_value x5
    refine .ite (h6.trans (.same ⟨rfl, rfl, rfl, rfl, rfl⟩)) ?_
    exact h6
  · extract_lets +onlyGivenNames x7
    extract_lets +onlyGivenNames x8
    have h9 : Keeps s x8 := by
      unfold x8
      refine .ite (accessErr_keeps ..) ?_
      exact (.refl _)
    clear_value x8
    refine .ite h9 ?_
    exact (.of (rset_keeps ..) (h9.trans (.same ⟨rfl, rfl, rfl, rfl, rfl⟩)))

theorem ringBaseWr_keeps (fn vi tx r v s) : Keeps s (ringBaseWr fn vi tx r v s) := by
  unfold ringBaseWr
  extract_lets +onlyGivenNames x1
  extract_lets +onlyGivenNames x2
  refine .ite (viRefused_keeps ..) ?_
  refine .ite (accessErr_keeps ..) ?_
  exact (rset_keeps ..)

theorem execRxRingEnable_keeps (fn vi r c s) : KeepsO s (execRxRingEnable fn vi r c s) := by
  unfold execRxRingEnable
  extract_lets +onlyGivenNames x1
  refine (hostVi_keeps (h := fun s2 => ?_) ..)
  exact (rxCfgWr_keeps ..)

theorem execRxRingDisable_keeps (fn vi r c s) : KeepsO s (execRxRingDisable fn vi r c s) := by
  unfold execRxRingDisable
  extract_lets +onlyGivenNames x1
  refine (hostVi_keeps (h := fun s2 => ?_) ..)
  exact (rxCfgWr_keeps ..)

theorem deliver_keeps (s vi r d i) : Keeps s (deliver s vi r d i).1 := by
  unfold deliver
  extract_lets x1 x2 x3 x4 x5
  split
  · exact .refl _
  split
  · exact .refl _
  split
  · exact .refl _
  split
  · exact ringFault_keeps ..
  · rename_i s1 e1
    have h1 : Keeps s s1 := KeepsM.elim e1 (rangeWrite_keeps ..)
    split
    · exact .of (ringFault_keeps ..) h1
    · rename_i s2 e2
      have h2 : Keeps s s2 := KeepsM.elim e2
        (.bind (.of (instWrite_keeps ..) h1) (fun t ht => .of (instWrite_keeps ..) ht))
      have h3 : Keeps s { s2 with rx := tset s2.rx (ringKey vi r) { x1 with count := x5 + 1, wrap := x1.wrap || decide (x5 + 1 = 0) } } :=
        h2.trans (.same ⟨rfl, rfl, rfl, rfl, rfl⟩)
      exact .pair (.ite (.of (ecBump_keeps ..) h3) h3)

theorem countDrop_keeps (p r) : Keeps r.1 (countDrop p r) := by
  unfold countDrop
  split
  · exact (prismDrop_keeps ..)
  · exact (.refl _)

theorem mirrorFrame_keeps (s p n data i) : Keeps s (mirrorFrame s p n data i) := by
  unfold mirrorFrame
  extract_lets +onlyGivenNames x1
  extract_lets +onlyGivenNames x2
  extract_lets +onlyGivenNames x3
  refine .ite (.refl _) ?_
  extract_lets +onlyGivenNames x4
  have h5 : Keeps s x4 := (setPrism_keeps ..)
  clear_value x4
  refine .ite h5 ?_
  extract_lets +onlyGivenNames x6
  refine .ite ?_ ?_
  · split
    · rename_i s8 _ e10
      have h11 : Keeps s s8 := .fst e10 (.of (deliver_keeps ..) h5)
      refine .ite (.of (prismDrop_keeps ..) h11) ?_
      exact h11
  · split
    · exact (.of (prismDrop_keeps ..) h5)
    · refine .ite (.of (toIris_keeps ..) h5) ?_
      exact (.of (prismDrop_keeps ..) h5)

theorem toSlow_keeps (s c cause data) : Keeps s (toSlow s c cause data) := by
  unfold toSlow
  extract_lets +onlyGivenNames x1
  refine .ite (prismDrop_keeps ..) ?_
  refine .ite (prismDrop_keeps ..) ?_
  exact (.same ⟨rfl, rfl, rfl, rfl, rfl⟩)

theorem actDo_keeps (s c a out i) : Keeps s (actDo s c a out i) := by
  unfold actDo
  split
  · exact (prismDrop_keeps ..)
  · extract_lets +onlyGivenNames x1
    exact (.of (countDrop_keeps ..) (deliver_keeps ..))
  · exact (toSlow_keeps ..)
  · split
    · exact (.refl _)
    · refine .ite (prismDrop_keeps ..) ?_
      exact (toIris_keeps ..)
  · exact (.same ⟨rfl, rfl, rfl, rfl, rfl⟩)
  · exact (.refl _)

theorem applyAction_keeps (s c a i) : Keeps s (applyAction s c a i) := by
  unfold applyAction
  extract_lets +onlyGivenNames x1
  extract_lets +onlyGivenNames x2
  have h3 : Keeps s x2 := by
    unfold x2
    refine .ite (toSlow_keeps ..) ?_
    exact (actDo_keeps ..)
  clear_value x2
  refine .ite (.of (mirrorFrame_keeps ..) h3) ?_
  exact h3

theorem treeWalk_keeps (s p key i a4) : Keeps s (treeWalk s p key i a4).1 := by
  fun_induction treeWalk s p key i a4
  · exact (.pair (.refl _))
  · exact (.pair (.refl _))
  · rename_i s9 _ _ _ _ s14 _ _ e17 _
    have h19 : Keeps s9 s14 := KeepsP.elim e17 (instRead_keeps ..)
    exact h19
  · rename_i s20 _ _ _ _ s25 _ _ e28 _ _
    have h31 : Keeps s20 s25 := KeepsP.elim e28 (instRead_keeps ..)
    exact h31
  · rename_i s32 _ _ _ _ s37 _ _ e40 _ _ y43
    have h44 : Keeps s32 s37 := KeepsP.elim e40 (instRead_keeps ..)
    exact .of y43 h44

theorem classify_keeps (s p data secured reinject time) : Keeps s (classify s p data secured reinject time) := by
  unfold classify
  extract_lets +onlyGivenNames x1
  extract_lets +onlyGivenNames x2
  extract_lets +onlyGivenNames x3
  extract_lets +onlyGivenNames x4
  extract_lets +onlyGivenNames x5
  extract_lets +onlyGivenNames x6
  extract_lets +onlyGivenNames x7
  extract_lets +onlyGivenNames x8
  extract_lets +onlyGivenNames x9
  refine .ite (prismDrop_keeps ..) ?_
  refine .ite (prismDrop_keeps ..) ?_
  refine .ite (toSlow_keeps ..) ?_
  refine .ite (toSlow_keeps ..) ?_
  split
  · exact (.of (applyAction_keeps ..) (putCtx_keeps ..))
  · refine .ite ?_ ?_
    · extract_lets +onlyGivenNames x10
      extract_lets +onlyGivenNames x11
      have h12 : Keeps s x11 := (setPrism_keeps ..)
      clear_value x11
      exact (.of (applyAction_keeps ..) h12)
    · split
      · rename_i s14 e15
        have h16 : Keeps s s14 := .fst e15 (treeWalk_keeps ..)
        exact (.of (prismDrop_keeps ..) h16)
      · rename_i s18 _ e20
        have h21 : Keeps s s18 := .fst e20 (treeWalk_keeps ..)
        exact (.of (applyAction_keeps ..) h21)

theorem macDiscard_keeps (s p) : Keeps s (macDiscard s p) := by
  unfold macDiscard
  exact (setPhy_keeps ..)

theorem prmModeWr_keeps (fn p v s) : Keeps s (prmModeWr fn p v s) := by
  unfold prmModeWr
  extract_lets +onlyGivenNames x1
  extract_lets +onlyGivenNames x2
  extract_lets +onlyGivenNames x3
  extract_lets +onlyGivenNames x4
  refine .ite (.of (rset_keeps ..) (accessErr_keeps ..)) ?_
  refine .ite (rset_keeps ..) ?_
  exact (.of (setPrism_keeps ..) (rset_keeps ..))

theorem execPrmModeWrite_keeps (fn port m s) : KeepsO s (execPrmModeWrite fn port m s) := by
  unfold execPrmModeWrite
  refine (hostPf_keeps (h := fun s1 => ?_) ..)
  exact (prmModeWr_keeps ..)

theorem prmDone_keeps (s p r) : Keeps s (prmDone s p r) := by
  unfold prmDone
  exact (statDone_keeps ..)

theorem ruleWrite_keeps (p i s) : Keeps s (ruleWrite p i s) := by
  unfold ruleWrite
  extract_lets +onlyGivenNames x1
  extract_lets +onlyGivenNames x2
  refine .ite (prmDone_keeps ..) ?_
  refine .ite (prmDone_keeps ..) ?_
  exact (.of (prmDone_keeps ..) (setPrism_keeps ..))

theorem ruleRead_keeps (p i s) : Keeps s (ruleRead p i s) := by
  unfold ruleRead
  extract_lets +onlyGivenNames x1
  extract_lets +onlyGivenNames x2
  exact (.of (prmDone_keeps ..) (putWords_keeps ..))

theorem ruleClear_keeps (p i s) : Keeps s (ruleClear p i s) := by
  unfold ruleClear
  extract_lets +onlyGivenNames x1
  exact (.of (prmDone_keeps ..) (setPrism_keeps ..))

theorem prmCommit_keeps (p s) : Keeps s (prmCommit p s) := by
  unfold prmCommit
  extract_lets +onlyGivenNames x1
  refine .ite (prmDone_keeps ..) ?_
  exact (.of (prmDone_keeps ..) (setPrism_keeps ..))

theorem prmTest_keeps (p pass s) : Keeps s (prmTest p pass s) := by
  unfold prmTest
  extract_lets +onlyGivenNames x1
  refine .ite (prmDone_keeps ..) ?_
  refine .ite (prmDone_keeps ..) ?_
  exact (.of (prmDone_keeps ..) (setPrism_keeps ..))

theorem tplWrite_keeps (p i s) : Keeps s (tplWrite p i s) := by
  unfold tplWrite
  extract_lets +onlyGivenNames x1
  extract_lets +onlyGivenNames x2
  refine .ite (prmDone_keeps ..) ?_
  refine .ite (prmDone_keeps ..) ?_
  exact (.of (prmDone_keeps ..) (setPrism_keeps ..))

theorem tplRead_keeps (p i s) : Keeps s (tplRead p i s) := by
  unfold tplRead
  refine .ite (prmDone_keeps ..) ?_
  exact (.of (prmDone_keeps ..) (putWords_keeps ..))

theorem prmCmdWr_keeps (p pass v s) : Keeps s (prmCmdWr p pass v s) := by
  unfold prmCmdWr
  extract_lets +onlyGivenNames x1
  extract_lets +onlyGivenNames x2
  have h3 : Keeps s x2 := by
    unfold x2
    refine .ite (.refl _) ?_
    exact (rset_keeps ..)
  clear_value x2
  refine .ite h3 ?_
  refine .ite (.of (statOvr_keeps ..) h3) ?_
  split
  · exact (.of (ruleWrite_keeps ..) h3)
  · exact (.of (ruleRead_keeps ..) h3)
  · exact (.of (ruleClear_keeps ..) h3)
  · exact (.of (prmCommit_keeps ..) h3)
  · exact (.of (prmTest_keeps ..) h3)
  · exact (.of (tplWrite_keeps ..) h3)
  · exact (.of (tplRead_keeps ..) h3)
  · exact (.of (prmDone_keeps ..) h3)

theorem prmCmd_keeps (fn p op i pass s) : KeepsO s (prmCmd fn p op i pass s) := by
  unfold prmCmd
  extract_lets +onlyGivenNames x1
  refine (hostPf_keeps (h := fun s2 => ?_) ..)
  exact (prmCmdWr_keeps ..)

theorem execRuleWrite_keeps (fn port index s) : KeepsO s (execRuleWrite fn port index s) := by
  unfold execRuleWrite
  exact (prmCmd_keeps ..)

theorem execRuleRead_keeps (fn port index s) : KeepsO s (execRuleRead fn port index s) := by
  unfold execRuleRead
  exact (prmCmd_keeps ..)

theorem execRuleClear_keeps (fn port index s) : KeepsO s (execRuleClear fn port index s) := by
  unfold execRuleClear
  exact (prmCmd_keeps ..)

theorem execCommit_keeps (fn port s) : KeepsO s (execCommit fn port s) := by
  unfold execCommit
  exact (prmCmd_keeps ..)

theorem execTest_keeps (fn port pass s) : KeepsO s (execTest fn port pass s) := by
  unfold execTest
  exact (prmCmd_keeps ..)

theorem execTplWrite_keeps (fn port index s) : KeepsO s (execTplWrite fn port index s) := by
  unfold execTplWrite
  exact (prmCmd_keeps ..)

theorem execTplRead_keeps (fn port index s) : KeepsO s (execTplRead fn port index s) := by
  unfold execTplRead
  exact (prmCmd_keeps ..)

theorem execBankCopyComplete_keeps (port s) : KeepsO s (execBankCopyComplete port s) := by
  unfold execBankCopyComplete
  extract_lets +onlyGivenNames x1
  refine .ite (.next (setPrism_keeps ..)) ?_
  exact .next (.refl _)

theorem execBankError_keeps (port s) : KeepsO s (execBankError port s) := by
  unfold execBankError
  extract_lets +onlyGivenNames x1
  refine .ite (.next (.refl _)) ?_
  extract_lets +onlyGivenNames x2
  extract_lets +onlyGivenNames x3
  have h4 : Keeps s x3 := (.of (prismDrop_keeps ..) (setPrism_keeps ..))
  clear_value x3
  exact .next (.of (raiseErr_keeps ..) h4)

theorem prmRangeWr_keeps (p n v s) : Keeps s (prmRangeWr p n v s) := by
  unfold prmRangeWr
  extract_lets +onlyGivenNames x1
  extract_lets +onlyGivenNames x2
  extract_lets +onlyGivenNames x3
  refine .ite (prmDone_keeps ..) ?_
  exact (setPrism_keeps ..)

theorem prmMirWr_keeps (p n v s) : Keeps s (prmMirWr p n v s) := by
  unfold prmMirWr
  extract_lets +onlyGivenNames x1
  extract_lets +onlyGivenNames x2
  extract_lets +onlyGivenNames x3
  exact (rset_keeps ..)

theorem flowInsert_keeps (p vi s) : Keeps s (flowInsert p vi s) := by
  unfold flowInsert
  extract_lets +onlyGivenNames x1
  extract_lets +onlyGivenNames x2
  extract_lets +onlyGivenNames x3
  refine .ite (prmDone_keeps ..) ?_
  refine .ite (prmDone_keeps ..) ?_
  refine .ite (prmDone_keeps ..) ?_
  split
  · exact (prmDone_keeps ..)
  · extract_lets +onlyGivenNames x4
    have h5 : Keeps s x4 := (newCtx_keeps ..)
    clear_value x4
    exact (.of (prmDone_keeps ..) (.of (rset_keeps ..) h5))

theorem flowRemove_keeps (p n s) : Keeps s (flowRemove p n s) := by
  unfold flowRemove
  split
  · exact (prmDone_keeps ..)
  · refine .ite (.of (prmDone_keeps ..) (freeCtx_keeps ..)) ?_
    exact (prmDone_keeps ..)

theorem flowRead_keeps (p n s) : Keeps s (flowRead p n s) := by
  unfold flowRead
  split
  · exact (prmDone_keeps ..)
  · refine .ite (prmDone_keeps ..) ?_
    exact (.of (prmDone_keeps ..) (putWords_keeps ..))

theorem prmFlowWr_keeps (p v s) : Keeps s (prmFlowWr p v s) := by
  unfold prmFlowWr
  extract_lets +onlyGivenNames x1
  extract_lets +onlyGivenNames x2
  have h3 : Keeps s x2 := by
    unfold x2
    refine .ite (.refl _) ?_
    exact (rset_keeps ..)
  clear_value x2
  refine .ite h3 ?_
  refine .ite (.of (statOvr_keeps ..) h3) ?_
  split
  · exact (.of (flowInsert_keeps ..) h3)
  · exact (.of (flowRemove_keeps ..) h3)
  · exact (.of (flowRead_keeps ..) h3)
  · exact (.of (prmDone_keeps ..) h3)

theorem execFlowInsert_keeps (fn port vi s) : KeepsO s (execFlowInsert fn port vi s) := by
  unfold execFlowInsert
  extract_lets +onlyGivenNames x1
  refine (hostPf_keeps (h := fun s2 => ?_) ..)
  exact (prmFlowWr_keeps ..)

theorem execFlowRemove_keeps (fn port ctx s) : KeepsO s (execFlowRemove fn port ctx s) := by
  unfold execFlowRemove
  extract_lets +onlyGivenNames x1
  refine (hostPf_keeps (h := fun s2 => ?_) ..)
  exact (prmFlowWr_keeps ..)

theorem execFlowRead_keeps (fn port ctx s) : KeepsO s (execFlowRead fn port ctx s) := by
  unfold execFlowRead
  extract_lets +onlyGivenNames x1
  refine (hostPf_keeps (h := fun s2 => ?_) ..)
  exact (prmFlowWr_keeps ..)

/-! ## Brm -/

theorem brmDrop_keeps (s k) : Keeps s (brmDrop s k) := by
  unfold brmDrop
  exact (.same ⟨rfl, rfl, rfl, rfl, rfl⟩)

theorem setRegion_keeps (s n r) : Keeps s (setRegion s n r) := by
  unfold setRegion
  exact (putCtx_keeps ..)

theorem unadmit_keeps (s n psn) : Keeps s (unadmit s n psn) := by
  unfold unadmit
  refine Keeps.foldl (fun s1 y2 => ?_)
  refine .ite (setRegion_keeps ..) ?_
  exact (.refl _)

theorem brmFinish_keeps (s vi q seq r bytes) : Keeps s (brmFinish s vi q seq r bytes) := by
  unfold brmFinish
  split
  · refine .ite (finish_keeps ..) ?_
    exact (.refl _)
  · exact (.refl _)

theorem completeMsg_keeps (s n q m r) : Keeps s (completeMsg s n q m r) := by
  unfold completeMsg
  extract_lets +onlyGivenNames x1
  have h2 : Keeps s x1 := (setQp_keeps ..)
  clear_value x1
  split
  · exact (.of (brmFinish_keeps ..) h2)
  · extract_lets +onlyGivenNames x3
    exact (.of (remoteDone_keeps ..) h2)
  · exact h2

theorem settleMsgs_keeps (s n a2) : Keeps s (settleMsgs s n a2) := by
  fun_induction settleMsgs s n a2
  · exact (.refl _)
  · exact (.refl _)
  · rename_i y12
    exact .of y12 (.of (pumpAll_keeps ..) (completeMsg_keeps ..))
  · exact (.refl _)

theorem settleAll_keeps (s n) : Keeps s (settleAll s n) := by
  unfold settleAll
  split
  · exact (.of (settleMsgs_keeps ..) (pumpAll_keeps ..))
  · exact (.refl _)

theorem failMsgsWith_keeps (s n st dt a4) : Keeps s (failMsgsWith s n st dt a4) := by
  fun_induction failMsgsWith s n st dt a4
  · exact (.refl _)
  · exact (.refl _)
  · exact (.refl _)
  · rename_i y17
    exact .of y17 (completeMsg_keeps ..)

theorem failMsgs_keeps (s n fuel) : Keeps s (failMsgs s n fuel) := by
  unfold failMsgs
  exact (failMsgsWith_keeps ..)

theorem poisonQp_keeps (s n q) : Keeps s (poisonQp s n q) := by
  unfold poisonQp
  exact (.of (failMsgsWith_keeps ..) (setQp_keeps ..))

theorem loseQp_keeps (s n) : Keeps s (loseQp s n) := by
  unfold loseQp
  split
  · exact (.refl _)
  · exact (.of (failMsgs_keeps ..) (setQp_keeps ..))

theorem freeQp_keeps (s n q) : Keeps s (freeQp s n q) := by
  unfold freeQp
  extract_lets +onlyGivenNames x1
  have h2 : Keeps s x1 := by
    unfold x1
    refine Keeps.foldl (fun s3 y4 => ?_)
    exact (setRegion_keeps ..)
  clear_value x1
  extract_lets +onlyGivenNames x5
  have h6 : Keeps s x5 := by
    unfold x5
    refine .of (Keeps.foldl (fun s7 y8 => ?_)) h2
    exact (freeCtx_keeps ..)
  clear_value x5
  exact (.of (freeCtx_keeps ..) h6)

theorem addFlows_keeps (s vi q l) : KeepsX s (addFlows s vi q l) := by
  induction l generalizing s with
  | nil => exact .ok (.refl _)
  | cons i r ih =>
    unfold addFlows
    split
    · exact .error
    · split
      · exact .error
      · exact .map (.of (ih _) (newCtx_keeps ..))

theorem bFail_keeps (s d r) : Keeps s (bFail s d r) := by
  unfold bFail
  exact (finish_keeps ..)

theorem bRead_keeps (s d n) : KeepsX s (bRead s d n) := by
  unfold bRead
  split
  · exact .error
  · rename_i s2 _ _ e5
    have h6 : Keeps s s2 := KeepsP.elim e5 (rangeRead_keeps ..)
    split
    · exact .error
    · exact .ok h6

theorem qpCreate_keeps (s d) : Keeps s (qpCreate s d) := by
  unfold qpCreate
  refine .ite (bFail_keeps ..) ?_
  split
  · exact (bFail_keeps ..)
  · rename_i s2 _ e4
    have h5 : Keeps s s2 := KeepsX.elim e4 (bRead_keeps ..)
    extract_lets +onlyGivenNames x6
    refine .ite (.of (bFail_keeps ..) h5) ?_
    refine .ite (.of (bFail_keeps ..) h5) ?_
    split
    · exact (.of (bFail_keeps ..) h5)
    · split
      · exact (.of (bFail_keeps ..) h5)
      · extract_lets +onlyGivenNames x7
        extract_lets +onlyGivenNames x8
        extract_lets +onlyGivenNames x9
        have h10 : Keeps s x9 := (.of (newCtx_keeps ..) (h5.trans (.same ⟨rfl, rfl, rfl, rfl, rfl⟩)))
        clear_value x9
        split
        · exact (.of (bFail_keeps ..) h5)
        · rename_i s12 _ e14
          have h15 : Keeps s s12 := KeepsX.elim e14 (.of (addFlows_keeps ..) h10)
          exact (.of (finish_keeps ..) (.of (setQp_keeps ..) h15))

theorem inMessage_keeps (s d) : Keeps s (inMessage s d) := by
  unfold inMessage
  exact (modDesc_keeps ..)

theorem sendShake_keeps (s n q opc) : Keeps s (sendShake s n q opc) := by
  unfold sendShake
  exact (emitCtl_keeps ..)

theorem qpConnect_keeps (s d) : Keeps s (qpConnect s d) := by
  unfold qpConnect
  split
  · exact (bFail_keeps ..)
  · refine .ite (bFail_keeps ..) ?_
    refine .ite (bFail_keeps ..) ?_
    extract_lets +onlyGivenNames x1
    exact (.of (sendShake_keeps ..) (.of (setQp_keeps ..) (inMessage_keeps ..)))

theorem qpDestroy_keeps (s d) : Keeps s (qpDestroy s d) := by
  unfold qpDestroy
  split
  · exact (bFail_keeps ..)
  · refine .ite (.of (finish_keeps ..) (freeQp_keeps ..)) ?_
    refine .ite (.of (setQp_keeps ..) (inMessage_keeps ..)) ?_
    exact (bFail_keeps ..)

theorem qpQuery_keeps (s d) : Keeps s (qpQuery s d) := by
  unfold qpQuery
  split
  · exact (bFail_keeps ..)
  · refine .ite (bFail_keeps ..) ?_
    split
    · exact (bFail_keeps ..)
    · rename_i s2 e3
      have h4 : Keeps s s2 := KeepsM.elim e3 (rangeWriteBy_keeps ..)
      exact (.of (finish_keeps ..) h4)

theorem regRegister_keeps (s d) : Keeps s (regRegister s d) := by
  unfold regRegister
  split
  · exact (bFail_keeps ..)
  · rename_i s2 _ e4
    have h5 : Keeps s s2 := KeepsX.elim e4 (bRead_keeps ..)
    extract_lets +onlyGivenNames x6
    refine .ite (.of (bFail_keeps ..) h5) ?_
    refine .ite (.of (bFail_keeps ..) h5) ?_
    refine .ite (.of (bFail_keeps ..) h5) ?_
    split
    · exact (.of (bFail_keeps ..) h5)
    · split
      · exact (.of (bFail_keeps ..) h5)
      · extract_lets +onlyGivenNames x7
        extract_lets +onlyGivenNames x8
        exact (.of (finish_keeps ..) (.of (newCtx_keeps ..) (h5.trans (.same ⟨rfl, rfl, rfl, rfl, rfl⟩))))

theorem regRevoke_keeps (s d) : Keeps s (regRevoke s d) := by
  unfold regRevoke
  split
  · exact (bFail_keeps ..)
  · refine .ite (bFail_keeps ..) ?_
    refine .ite (bFail_keeps ..) ?_
    refine .ite (bFail_keeps ..) ?_
    exact (.of (setRegion_keeps ..) (inMessage_keeps ..))

theorem execRevokeComplete_keeps (ctx s) : KeepsO s (execRevokeComplete ctx s) := by
  unfold execRevokeComplete
  split
  · exact .next (.refl _)
  · split
    · exact .next (.refl _)
    · refine .ite (.next (.refl _)) ?_
      exact .next (.of (settle_keeps ..) (.of (brmFinish_keeps ..) (freeCtx_keeps ..)))

theorem execQpCloseComplete_keeps (qp s) : KeepsO s (execQpCloseComplete qp s) := by
  unfold execQpCloseComplete
  split
  · exact .next (.refl _)
  · refine .ite (.next (.refl _)) ?_
    extract_lets +onlyGivenNames x1
    have h2 : Keeps s x1 := (.of (freeQp_keeps ..) (emitCtl_keeps ..))
    clear_value x1
    split
    · exact .next (.of (settle_keeps ..) (.of (brmFinish_keeps ..) h2))
    · exact .next h2

theorem startMsg_keeps (s d) : Keeps s (startMsg s d) := by
  unfold startMsg
  extract_lets x1
  split
  · exact bFail_keeps ..
  refine .ite (bFail_keeps ..) (.ite (bFail_keeps ..) ?_)
  split
  · exact bFail_keeps ..
  refine .ite (bFail_keeps ..) (.ite (bFail_keeps ..) (.ite ?_ ?_))
  · rename_i y _ _ _ _ _ _
    have hy : KeepsP s y := by
      unfold y
      split
      · exact rangeRead_keeps ..
      · exact .some (.refl _)
    clear_value y
    split
    · exact bFail_keeps ..
    · rename_i s1 yb p
      have h1 : Keeps s s1 := hy.get _ rfl
      exact .ite (.of (bFail_keeps ..) h1) (.of (settleAll_keeps ..) (.of (sendMsg_keeps ..) (.of (inMessage_keeps ..) h1)))
  · exact .of (settleAll_keeps ..) (.of (sendMsg_keeps ..) (inMessage_keeps ..))

theorem startBrm_keeps (s d) : Keeps s (startBrm s d) := by
  unfold startBrm
  refine .ite (bFail_keeps ..) ?_
  refine .ite (bFail_keeps ..) ?_
  split
  · exact (qpCreate_keeps ..)
  · exact (qpConnect_keeps ..)
  · exact (qpDestroy_keeps ..)
  · exact (qpQuery_keeps ..)
  · exact (regRegister_keeps ..)
  · exact (regRevoke_keeps ..)
  · exact (startMsg_keeps ..)

theorem tryStartAny_keeps (s d) : Keeps s (tryStartAny s d) := by
  unfold tryStartAny
  refine .ite ?_ ?_
  · refine .ite (startBrm_keeps ..) ?_
    exact (.refl _)
  · exact (tryStart_keeps ..)

theorem takeBrm_keeps (s vi q mine) : Keeps s (takeBrm s vi q mine) := by
  unfold takeBrm
  split
  · exact (.refl _)
  · refine .ite (.refl _) ?_
    split
    · exact (.refl _)
    · rename_i s2 _ _ e5
      have h6 : Keeps s s2 := KeepsP.elim e5 (takeHead_keeps ..)
      split
      · rename_i s8 _ e10
        have h11 : Keeps s s8 := .fst e10 (.of (newDesc_keeps ..) h6)
        exact (.of (tryStartAny_keeps ..) h11)

theorem execBrmWrite_keeps (vi q s) : KeepsO s (execBrmWrite vi q s) := by
  unfold execBrmWrite
  exact .next (.of (settle_keeps ..) (takeBrm_keeps ..))

theorem execBrmRead_keeps (vi q s) : KeepsO s (execBrmRead vi q s) := by
  unfold execBrmRead
  exact .next (.of (settle_keeps ..) (takeBrm_keeps ..))

theorem execBrmAtomic_keeps (vi q s) : KeepsO s (execBrmAtomic vi q s) := by
  unfold execBrmAtomic
  exact .next (.of (settle_keeps ..) (takeBrm_keeps ..))

theorem execQpCreate_keeps (vi q s) : KeepsO s (execQpCreate vi q s) := by
  unfold execQpCreate
  exact .next (.of (settle_keeps ..) (takeBrm_keeps ..))

theorem execConnect_keeps (vi q s) : KeepsO s (execConnect vi q s) := by
  unfold execConnect
  exact .next (.of (settle_keeps ..) (takeBrm_keeps ..))

theorem execQpDestroy_keeps (vi q s) : KeepsO s (execQpDestroy vi q s) := by
  unfold execQpDestroy
  exact .next (.of (settle_keeps ..) (takeBrm_keeps ..))

theorem execQpQuery_keeps (vi q s) : KeepsO s (execQpQuery vi q s) := by
  unfold execQpQuery
  exact .next (.of (settle_keeps ..) (takeBrm_keeps ..))

theorem execRegister_keeps (vi q s) : KeepsO s (execRegister vi q s) := by
  unfold execRegister
  exact .next (.of (settle_keeps ..) (takeBrm_keeps ..))

theorem execRevoke_keeps (vi q s) : KeepsO s (execRevoke vi q s) := by
  unfold execRevoke
  exact .next (.of (settle_keeps ..) (takeBrm_keeps ..))

theorem sendNak_keeps (s q p status detail) : Keeps s (sendNak s q p status detail) := by
  unfold sendNak
  extract_lets +onlyGivenNames x1
  have h2 : Keeps s x1 := (emitCtl_keeps ..)
  clear_value x1
  refine .ite (.of (brmDrop_keeps ..) h2) ?_
  refine .ite (.of (brmDrop_keeps ..) h2) ?_
  exact h2

theorem sendAck_keeps (s q) : Keeps s (sendAck s q) := by
  unfold sendAck
  extract_lets +onlyGivenNames x1
  exact (emitCtl_keeps ..)

theorem duplicate_keeps (s n q psn) : Keeps s (duplicate s n q psn) := by
  unfold duplicate
  extract_lets +onlyGivenNames x1
  have h2 : Keeps s x1 := by
    unfold x1
    refine .ite (.of (setQp_keeps ..) (sendAck_keeps ..)) ?_
    refine .ite (emitCtl_keeps ..) ?_
    exact (.refl _)
  clear_value x1
  exact (.of (brmDrop_keeps ..) h2)

theorem countStale_keeps (s vi) : Keeps s (countStale s vi) := by
  unfold countStale
  extract_lets +onlyGivenNames x1
  refine .ite (modInst_keeps ..) ?_
  exact (.refl _)

theorem arrivePkt_keeps (s p resp accept) (h : ∀ s b1 b2, Keeps s (accept s b1 b2)) : Keeps s (arrivePkt s p resp accept) := by
  unfold arrivePkt
  extract_lets +onlyGivenNames x1
  refine .ite (.refl _) ?_
  split
  · exact (brmDrop_keeps ..)
  · refine .ite (.of (countStale_keeps ..) (sendNak_keeps ..)) ?_
    refine .ite (sendNak_keeps ..) ?_
    refine .ite (brmDrop_keeps ..) ?_
    refine .ite (.refl _) ?_
    refine .ite (duplicate_keeps ..) ?_
    refine .ite (brmDrop_keeps ..) ?_
    refine .ite (brmDrop_keeps ..) ?_
    refine .ite (sendNak_keeps ..) ?_
    exact (h ..)

theorem psnDone_keeps (s q psn) : Keeps s (psnDone s q psn).1 := by
  unfold psnDone
  extract_lets +onlyGivenNames x1
  extract_lets +onlyGivenNames x2
  extract_lets +onlyGivenNames x3
  split
  · exact (.pair (sendAck_keeps ..))
  · exact (.pair (.refl _))

theorem placeAt_keeps (s vi a d poison w) : Keeps s (placeAt s vi a d poison w).1 := by
  unfold placeAt
  extract_lets +onlyGivenNames x1
  have h2 : Keeps s x1.1 := by
    unfold x1
    refine .of (Keeps.foldlP (fun p3 y4 => ?_)) (.pair (.refl _))
    extract_lets +onlyGivenNames x5
    split
    · exact (.pair (engAct_keeps ..))
    · refine .pair ?_
      refine .ite (.refl _) ?_
      exact (hostPut_keeps ..)
    · exact (.pair (.refl _))
    · exact (.pair (.refl _))
  clear_value x1
  exact h2

theorem failRx_keeps (s n msn) : Keeps s (failRx s n msn) := by
  unfold failRx
  split
  · exact (.refl _)
  · extract_lets +onlyGivenNames x1
    extract_lets +onlyGivenNames x2
    extract_lets +onlyGivenNames x3
    extract_lets +onlyGivenNames x4
    extract_lets +onlyGivenNames x5
    refine .of (Keeps.foldl (fun s6 y7 => ?_)) (setQp_keeps ..)
    exact (unadmit_keeps ..)

theorem placeReq_keeps (s n opc p base) : Keeps s (placeReq s n opc p base) := by
  unfold placeReq
  split
  · exact (.refl _)
  · extract_lets +onlyGivenNames x1
    extract_lets +onlyGivenNames x2
    refine .ite ?_ ?_
    · extract_lets +onlyGivenNames x3
      split
      · extract_lets +onlyGivenNames x4
        extract_lets +onlyGivenNames x5
        extract_lets +onlyGivenNames x6
        split
        · rename_i s8 _ e10
          have h11 : Keeps s s8 := .fst e10 (partAct_keeps ..)
          unfold x2
          split
          · exact h11
          · exact (.of (setQp_keeps ..) h11)
      · exact (.of (sendNak_keeps ..) (unadmit_keeps ..))
    · split
      · exact (.of (sendNak_keeps ..) (.of (failRx_keeps ..) (unadmit_keeps ..)))
      · split
        · rename_i s13 _ e15
          have h16 : Keeps s s13 := .fst e15 (placeAt_keeps ..)
          refine .ite ?_ ?_
          · unfold x2
            split
            · exact h16
            · exact (.of (setQp_keeps ..) h16)
          · exact (.of (sendNak_keeps ..) (.of (unadmit_keeps ..) h16))

theorem noteRx_keeps (s n opc p) : Keeps s (noteRx s n opc p) := by
  unfold noteRx
  split
  · exact (.refl _)
  · refine .ite (.refl _) ?_
    exact (setQp_keeps ..)

theorem takeReq_keeps (opc p s n q) : Keeps s (takeReq opc p s n q) := by
  unfold takeReq
  extract_lets +onlyGivenNames x1
  split
  · exact (sendNak_keeps ..)
  · refine .ite (.of (sendNak_keeps ..) (failRx_keeps ..)) ?_
    refine .ite (sendNak_keeps ..) ?_
    extract_lets +onlyGivenNames x2
    have h3 : Keeps s x2 := (.of (noteRx_keeps ..) (setRegion_keeps ..))
    clear_value x2
    refine .ite ?_ ?_
    · split
      · exact (.of (setQp_keeps ..) h3)
      · exact h3
    · exact (.of (placeReq_keeps ..) h3)

theorem execWritePacket_keeps (p s) : KeepsO s (execWritePacket p s) := by
  unfold execWritePacket
  refine .next ?_
  refine .of (settle_keeps ..) ?_
  refine (arrivePkt_keeps (h := fun s1 y2 y3 => ?_) ..)
  exact (takeReq_keeps ..)

theorem execAtomicReq_keeps (p s) : KeepsO s (execAtomicReq p s) := by
  unfold execAtomicReq
  refine .next ?_
  refine .of (settle_keeps ..) ?_
  refine (arrivePkt_keeps (h := fun s1 y2 y3 => ?_) ..)
  exact (takeReq_keeps ..)

theorem runFence_keeps (s n) : Keeps s (runFence s n) := by
  unfold runFence
  split
  · exact (.refl _)
  · extract_lets +onlyGivenNames x1
    refine .of (Keeps.foldl (fun s2 y3 => ?_)) (setQp_keeps ..)
    exact (placeReq_keeps ..)

theorem rxComplete_keeps (s n msn notify) : Keeps s (rxComplete s n msn notify) := by
  unfold rxComplete
  split
  · exact (.refl _)
  · extract_lets +onlyGivenNames x1
    have h2 : Keeps s x1 := (setQp_keeps ..)
    clear_value x1
    extract_lets +onlyGivenNames x3
    have h4 : Keeps s x3 := by
      unfold x3
      refine .ite (.of (ecBump_keeps ..) h2) ?_
      exact h2
    clear_value x3
    exact (.of (runFence_keeps ..) h4)

theorem takeRead_keeps (p s n q) : Keeps s (takeRead p s n q) := by
  unfold takeRead
  split
  · exact (sendNak_keeps ..)
  · refine .ite (sendNak_keeps ..) ?_
    refine .ite (sendNak_keeps ..) ?_
    extract_lets +onlyGivenNames x1
    split
    · rename_i s3 _ e5
      have h6 : Keeps s s3 := .fst e5 (psnDone_keeps ..)
      extract_lets +onlyGivenNames x7
      have h8 : Keeps s x7 := (.of (rxComplete_keeps ..) (.of (setQp_keeps ..) h6))
      clear_value x7
      exact (.of (pumpAll_keeps ..) h8)

theorem execReadReq_keeps (p s) : KeepsO s (execReadReq p s) := by
  unfold execReadReq
  refine .next ?_
  refine .of (settle_keeps ..) ?_
  refine (arrivePkt_keeps (h := fun s1 y2 y3 => ?_) ..)
  exact (takeRead_keeps ..)

theorem threadResp_keeps (s n q p) : Keeps s (threadResp s n q p) := by
  unfold threadResp
  split
  · rename_i s2 _ e4
    have h5 : Keeps s s2 := .fst e4 (psnDone_keeps ..)
    exact (.of (settleAll_keeps ..) (.of (setQp_keeps ..) h5))

theorem takeResp_keeps (opc p s n q) : Keeps s (takeResp opc p s n q) := by
  unfold takeResp
  split
  · exact (sendNak_keeps ..)
  · refine .ite (threadResp_keeps ..) ?_
    extract_lets +onlyGivenNames x1
    extract_lets +onlyGivenNames x2
    extract_lets +onlyGivenNames x3
    split
    · rename_i s5 _ e7
      have h8 : Keeps s s5 := .fst e7 (placeAt_keeps ..)
      refine .ite (.of (sendNak_keeps ..) (.of (settleAll_keeps ..) (setQp_keeps ..))) ?_
      split
      · exact h8
      · exact (.of (setQp_keeps ..) h8)

theorem execReadResp_keeps (p s) : KeepsO s (execReadResp p s) := by
  unfold execReadResp
  refine .next ?_
  refine .of (settle_keeps ..) ?_
  refine (arrivePkt_keeps (h := fun s1 y2 y3 => ?_) ..)
  exact (takeResp_keeps ..)

theorem execAtomicResp_keeps (p s) : KeepsO s (execAtomicResp p s) := by
  unfold execAtomicResp
  refine .next ?_
  refine .of (settle_keeps ..) ?_
  refine (arrivePkt_keeps (h := fun s1 y2 y3 => ?_) ..)
  exact (takeResp_keeps ..)

theorem performPlaced_keeps (s n q x) : Keeps s (performPlaced s n q x) := by
  unfold performPlaced
  split
  · rename_i s2 _ e4
    have h5 : Keeps s s2 := .fst e4 (psnDone_keeps ..)
    extract_lets +onlyGivenNames x6
    have h7 : Keeps s x6 := (.of (unadmit_keeps ..) (.of (setQp_keeps ..) h5))
    clear_value x6
    split
    · exact h7
    · refine .ite ?_ ?_
      · extract_lets +onlyGivenNames x8
        extract_lets +onlyGivenNames x9
        have h10 : Keeps s x9 := (.of (setQp_keeps ..) h7)
        clear_value x9
        split
        · refine .ite (.of (rxComplete_keeps ..) h10) ?_
          exact h10
        · exact h10
      · refine .ite ?_ ?_
        · split
          · extract_lets +onlyGivenNames x11
            extract_lets +onlyGivenNames x12
            exact (.of (pumpAll_keeps ..) (.of (rxComplete_keeps ..) (.of (setQp_keeps ..) h7)))
        · exact (.of (settleAll_keeps ..) (.of (setQp_keeps ..) h7))

theorem execPlacementPerformed_keeps (qp psn s) : KeepsO s (execPlacementPerformed qp psn s) := by
  unfold execPlacementPerformed
  split
  · exact .next (.refl _)
  · split
    · exact .next (.refl _)
    · refine .ite (.next (.refl _)) ?_
      exact .next (.of (settle_keeps ..) (performPlaced_keeps ..))

theorem fromPeer_keeps (s p body) (h : ∀ s b1 b2, Keeps s (body s b1 b2)) : Keeps s (fromPeer s p body) := by
  unfold fromPeer
  refine .ite (.refl _) ?_
  split
  · exact (brmDrop_keeps ..)
  · refine .ite (.refl _) ?_
    refine .ite (brmDrop_keeps ..) ?_
    exact (h ..)

theorem takeAck_keeps (p s n q) : Keeps s (takeAck p s n q) := by
  unfold takeAck
  extract_lets +onlyGivenNames x1
  extract_lets +onlyGivenNames x2
  exact (.of (settleAll_keeps ..) (setQp_keeps ..))

theorem execAck_keeps (p s) : KeepsO s (execAck p s) := by
  unfold execAck
  refine .next ?_
  refine .of (settle_keeps ..) ?_
  refine (fromPeer_keeps (h := fun s1 y2 y3 => ?_) ..)
  exact (takeAck_keeps ..)

theorem takeNak_keeps (p s n q) : Keeps s (takeNak p s n q) := by
  unfold takeNak
  split
  · exact (.refl _)
  · refine .ite (setQp_keeps ..) ?_
    extract_lets +onlyGivenNames x1
    extract_lets +onlyGivenNames x2
    refine .ite (.of (pumpAll_keeps ..) (setQp_keeps ..)) ?_
    exact (.of (settleAll_keeps ..) (setQp_keeps ..))

theorem execNak_keeps (p s) : KeepsO s (execNak p s) := by
  unfold execNak
  refine .next ?_
  refine .of (settle_keeps ..) ?_
  refine (fromPeer_keeps (h := fun s1 y2 y3 => ?_) ..)
  exact (takeNak_keeps ..)

theorem takeHeld_keeps (p s n q) : Keeps s (takeHeld p s n q) := by
  unfold takeHeld
  exact (setQp_keeps ..)

theorem execHeld_keeps (p s) : KeepsO s (execHeld p s) := by
  unfold execHeld
  refine .next ?_
  refine (fromPeer_keeps (h := fun s1 y2 y3 => ?_) ..)
  exact (takeHeld_keeps ..)

theorem qpConnected_keeps (s n q) : Keeps s (qpConnected s n q) := by
  unfold qpConnected
  extract_lets +onlyGivenNames x1
  have h2 : Keeps s x1 := (setQp_keeps ..)
  clear_value x1
  split
  · exact (.of (brmFinish_keeps ..) h2)
  · exact h2

theorem shake_keeps (req p s n q) : Keeps s (shake req p s n q) := by
  unfold shake
  refine .ite ?_ ?_
  · refine .of (qpConnected_keeps ..) ?_
    refine .ite (sendShake_keeps ..) ?_
    exact (.refl _)
  · exact (.refl _)

theorem execConnectReq_keeps (p s) : KeepsO s (execConnectReq p s) := by
  unfold execConnectReq
  refine .next ?_
  refine .of (settle_keeps ..) ?_
  refine (fromPeer_keeps (h := fun s1 y2 y3 => ?_) ..)
  exact (shake_keeps ..)

theorem execConnectResp_keeps (p s) : KeepsO s (execConnectResp p s) := by
  unfold execConnectResp
  refine .next ?_
  refine .of (settle_keeps ..) ?_
  refine (fromPeer_keeps (h := fun s1 y2 y3 => ?_) ..)
  exact (shake_keeps ..)

theorem takeDisconnect_keeps (s n q) : Keeps s (takeDisconnect s n q) := by
  unfold takeDisconnect
  refine .ite (loseQp_keeps ..) ?_
  exact (.refl _)

theorem execDisconnect_keeps (p s) : KeepsO s (execDisconnect p s) := by
  unfold execDisconnect
  refine .next ?_
  refine .of (settle_keeps ..) ?_
  refine (fromPeer_keeps (h := fun s1 y2 y3 => ?_) ..)
  exact (takeDisconnect_keeps ..)

theorem engineTake_keeps (opc p s) : Keeps s (engineTake opc p s) := by
  unfold engineTake
  split
  · refine (arrivePkt_keeps (h := fun s1 y2 y3 => ?_) ..)
    exact (takeReq_keeps ..)
  · refine (arrivePkt_keeps (h := fun s4 y5 y6 => ?_) ..)
    exact (takeRead_keeps ..)
  · refine (arrivePkt_keeps (h := fun s7 y8 y9 => ?_) ..)
    exact (takeResp_keeps ..)
  · refine (arrivePkt_keeps (h := fun s10 y11 y12 => ?_) ..)
    exact (takeReq_keeps ..)
  · refine (arrivePkt_keeps (h := fun s13 y14 y15 => ?_) ..)
    exact (takeResp_keeps ..)
  · refine (fromPeer_keeps (h := fun s16 y17 y18 => ?_) ..)
    exact (takeAck_keeps ..)
  · refine (fromPeer_keeps (h := fun s19 y20 y21 => ?_) ..)
    exact (takeNak_keeps ..)
  · refine (fromPeer_keeps (h := fun s22 y23 y24 => ?_) ..)
    exact (takeHeld_keeps ..)
  · refine (fromPeer_keeps (h := fun s25 y26 y27 => ?_) ..)
    exact (shake_keeps ..)
  · refine (fromPeer_keeps (h := fun s28 y29 y30 => ?_) ..)
    exact (shake_keeps ..)
  · refine (fromPeer_keeps (h := fun s31 y32 y33 => ?_) ..)
    exact (takeDisconnect_keeps ..)
  · exact (brmDrop_keeps ..)

theorem brmFrame_keeps (s f) : Keeps s (brmFrame s f) := by
  unfold brmFrame
  extract_lets +onlyGivenNames x1
  extract_lets +onlyGivenNames x2
  refine .ite (brmDrop_keeps ..) ?_
  extract_lets +onlyGivenNames x3
  refine .of (engineTake_keeps ..) ?_
  refine .ite (nextFree_keeps ..) ?_
  exact (.refl _)

theorem brmFrames_keeps (s) : Keeps s (brmFrames s) := by
  unfold brmFrames
  refine .of (Keeps.foldl (fun s1 y2 => ?_)) (.same ⟨rfl, rfl, rfl, rfl, rfl⟩)
  exact (brmFrame_keeps ..)

theorem execAckTimer_keeps (qp s) : KeepsO s (execAckTimer qp s) := by
  unfold execAckTimer
  split
  · exact .next (.refl _)
  · extract_lets +onlyGivenNames x1
    extract_lets +onlyGivenNames x2
    refine .ite (.next (.of (sendAck_keeps ..) (setQp_keeps ..))) ?_
    exact .next (.refl _)

theorem resend_keeps (s n q x) : Keeps s (resend s n q x) := by
  unfold resend
  extract_lets +onlyGivenNames x1
  exact (.of (setQp_keeps ..) (emit_keeps ..))

theorem execRetransmitTimeout_keeps (qp psn s) : KeepsO s (execRetransmitTimeout qp psn s) := by
  unfold execRetransmitTimeout
  split
  · exact .next (.refl _)
  · split
    · exact .next (.refl _)
    · refine .ite (.next (.refl _)) ?_
      refine .ite (.next (.of (settle_keeps ..) (loseQp_keeps ..))) ?_
      exact .next (.of (brmDrop_keeps ..) (resend_keeps ..))

theorem execBusyRetransmit_keeps (qp psn s) : KeepsO s (execBusyRetransmit qp psn s) := by
  unfold execBusyRetransmit
  split
  · exact .next (.refl _)
  · split
    · exact .next (.refl _)
    · extract_lets +onlyGivenNames x1
      refine .ite (.next (.refl _)) ?_
      exact .next (resend_keeps ..)

theorem execConnectReqTimer_keeps (qp s) : KeepsO s (execConnectReqTimer qp s) := by
  unfold execConnectReqTimer
  split
  · exact .next (.refl _)
  · refine .ite (.next (.of (sendShake_keeps ..) (setQp_keeps ..))) ?_
    exact .next (.refl _)

theorem execConnectTimeout_keeps (qp s) : KeepsO s (execConnectTimeout qp s) := by
  unfold execConnectTimeout
  split
  · exact .next (.refl _)
  · refine .ite (.next (.refl _)) ?_
    extract_lets +onlyGivenNames x1
    have h2 : Keeps s x1 := (setQp_keeps ..)
    clear_value x1
    split
    · exact .next (.of (settle_keeps ..) (.of (brmFinish_keeps ..) h2))
    · exact .next h2

theorem execMessageExpiry_keeps (qp msn s) : KeepsO s (execMessageExpiry qp msn s) := by
  unfold execMessageExpiry
  split
  · exact .next (.refl _)
  · split
    · exact .next (.refl _)
    · refine .ite (.next (.refl _)) ?_
      extract_lets +onlyGivenNames x1
      have h2 : Keeps s x1 := (.of (raiseErr_keeps ..) (brmDrop_keeps ..))
      clear_value x1
      exact .next (.of (settle_keeps ..) (.of (failRx_keeps ..) h2))

theorem rmaCfgWr_keeps (fn v s) : Keeps s (rmaCfgWr fn v s) := by
  unfold rmaCfgWr
  extract_lets +onlyGivenNames x1
  refine .ite (.of (rset_keeps ..) (accessErr_keeps ..)) ?_
  exact (rset_keeps ..)

/-! ## Gates -/

theorem execDescriptorGateRelease_keeps (vi q seq s) : KeepsO s (execDescriptorGateRelease vi q seq s) := by
  unfold execDescriptorGateRelease
  split
  · exact .next (.refl _)
  · refine .ite (.next (.of (settle_keeps ..) (tryStartAny_keeps ..))) ?_
    exact .next (.refl _)

theorem retryDescs_keeps (s vi) : Keeps s (retryDescs s vi) := by
  unfold retryDescs
  refine Keeps.foldl (fun s1 y2 => ?_)
  split
  · exact (tryStartAny_keeps ..)
  · exact (.refl _)

theorem pauseFn_keeps (s fn) : Keeps s (pauseFn s fn) := by
  unfold pauseFn
  refine .ite (.refl _) ?_
  refine Keeps.foldl (fun s1 y2 => ?_)
  refine .ite (setSq_keeps ..) ?_
  exact (.refl _)

theorem resumeFn_keeps (s fn) : Keeps s (resumeFn s fn) := by
  unfold resumeFn
  refine .ite (.refl _) ?_
  extract_lets +onlyGivenNames x1
  have h2 : Keeps s x1 := (.same ⟨rfl, rfl, rfl, rfl, rfl⟩)
  clear_value x1
  extract_lets +onlyGivenNames x3
  have h4 : Keeps s x3 := by
    unfold x3
    refine .of (Keeps.foldl (fun s5 y6 => ?_)) h2
    refine .ite (setSq_keeps ..) ?_
    exact (.refl _)
  clear_value x3
  extract_lets +onlyGivenNames x7
  extract_lets +onlyGivenNames x8
  have h9 : Keeps s x8 := by
    unfold x8
    refine .of (Keeps.foldl (fun s10 y11 => ?_)) (h4.trans (.same ⟨rfl, rfl, rfl, rfl, rfl⟩))
    exact (hostWrite_keeps ..)
  clear_value x8
  extract_lets +onlyGivenNames x12
  have h13 : Keeps s x12 := by
    unfold x12
    refine .of (Keeps.foldl (fun s14 y15 => ?_)) h9
    extract_lets +onlyGivenNames x16
    refine .ite (cqRetry_keeps ..) ?_
    exact (.refl _)
  clear_value x12
  extract_lets +onlyGivenNames x17
  have h18 : Keeps s x17 := (.of (retryDescs_keeps ..) h13)
  clear_value x17
  refine .of (Keeps.foldl (fun s19 y20 => ?_)) h18
  exact (settleAll_keeps ..)

theorem hostCfg_keeps (fn body s) (h : ∀ s, Keeps s (body s)) : KeepsO s (hostCfg fn body s) := by
  unfold hostCfg
  refine .ite (.next (.of (settle_keeps ..) (h ..))) ?_
  exact .next (.refl _)

theorem bmeWr_keeps (fn v s) : Keeps s (bmeWr fn v s) := by
  unfold bmeWr
  refine .ite (.refl _) ?_
  refine .of (resumeFn_keeps ..) ?_
  refine .of (modCfg_keeps ..) ?_
  refine .ite (.refl _) ?_
  exact (pauseFn_keeps ..)

theorem execBusMasterClear_keeps (fn s) : KeepsO s (execBusMasterClear fn s) := by
  unfold execBusMasterClear
  refine (hostCfg_keeps (h := fun s1 => ?_) ..)
  exact (bmeWr_keeps ..)

theorem execBusMasterSet_keeps (fn s) : KeepsO s (execBusMasterSet fn s) := by
  unfold execBusMasterSet
  refine (hostCfg_keeps (h := fun s1 => ?_) ..)
  exact (bmeWr_keeps ..)

theorem d3Wr_keeps (fn v s) : Keeps s (d3Wr fn v s) := by
  unfold d3Wr
  refine .ite (.refl _) ?_
  refine .of (resumeFn_keeps ..) ?_
  refine .of (modCfg_keeps ..) ?_
  refine .ite (pauseFn_keeps ..) ?_
  exact (.refl _)

theorem execPowerStateWrite_keeps (fn d3 s) : KeepsO s (execPowerStateWrite fn d3 s) := by
  unfold execPowerStateWrite
  refine (hostCfg_keeps (h := fun s1 => ?_) ..)
  exact (d3Wr_keeps ..)

end Sys2Proof.Machine
end

