-- ==== Sys2Proof/Laws/KeepsFabric.lean ====
section
/-! SUPPORT. Lemmas of the relation `Keeps`: security, fabric, snapshots and instance resets. One lemma a function; each says what the function keeps. -/

namespace Sys2Proof.Machine

/-! ## Security -/

theorem measExtend_keeps (s i d) : Keeps s (measExtend s i d) := by
  unfold measExtend
  split
  · exact (.same ⟨rfl, rfl, rfl, rfl, rfl⟩)

theorem measFabric_keeps (s) : Keeps s (measFabric s) := by
  unfold measFabric
  extract_lets +onlyGivenNames x1
  extract_lets +onlyGivenNames x2
  exact (measExtend_keeps ..)

theorem debugSeen_keeps (s event) : Keeps s (debugSeen s event) := by
  unfold debugSeen
  extract_lets +onlyGivenNames x1
  have h2 : Keeps s x1 := (measExtend_keeps ..)
  clear_value x1
  exact (h2.trans (.same ⟨rfl, rfl, rfl, rfl, rfl⟩))

theorem keyDone_keeps (s r) : Keeps s (keyDone s r) := by
  unfold keyDone
  exact (statDone_keeps ..)

theorem keyInstall_keeps (fn slot vi ext s) : Keeps s (keyInstall fn slot vi ext s) := by
  unfold keyInstall
  refine .ite (keyDone_keeps ..) ?_
  refine .ite (keyDone_keeps ..) ?_
  split
  · exact (keyDone_keeps ..)
  · rename_i s2 _ _ e5
    have h6 : Keeps s s2 := KeepsP.elim e5 (rangeRead_keeps ..)
    extract_lets +onlyGivenNames x7
    extract_lets +onlyGivenNames x8
    refine .ite (.of (keyDone_keeps ..) h6) ?_
    split
    · exact (.of (keyDone_keeps ..) h6)
    · extract_lets +onlyGivenNames x9
      exact (.of (keyDone_keeps ..) (h6.trans (.same ⟨rfl, rfl, rfl, rfl, rfl⟩)))

theorem keyClear_keeps (fn slot s) : Keeps s (keyClear fn slot s) := by
  unfold keyClear
  split
  · exact (keyDone_keeps ..)
  · refine .ite (keyDone_keeps ..) ?_
    refine .ite (keyDone_keeps ..) ?_
    exact (.of (keyDone_keeps ..) (.same ⟨rfl, rfl, rfl, rfl, rfl⟩))

theorem keyReport_keeps (fn slot s) : Keeps s (keyReport fn slot s) := by
  unfold keyReport
  split
  · exact (.of (keyDone_keeps ..) (rset_keeps ..))
  · refine .ite (.of (keyDone_keeps ..) (rset_keeps ..)) ?_
    exact (keyDone_keeps ..)

theorem msecSend_keeps (s p) : Keeps s (msecSend s p) := by
  unfold msecSend
  refine .ite (.refl _) ?_
  split
  · exact (.refl _)
  · extract_lets +onlyGivenNames x1
    extract_lets +onlyGivenNames x2
    exact (.same ⟨rfl, rfl, rfl, rfl, rfl⟩)

theorem msecCount_keeps (s p k) : Keeps s (msecCount s p k) := by
  unfold msecCount
  exact (.same ⟨rfl, rfl, rfl, rfl, rfl⟩)

theorem msecRecv_keeps (s p t) : Keeps s (msecRecv s p t).1 := by
  unfold msecRecv
  extract_lets +onlyGivenNames x1
  extract_lets +onlyGivenNames x2
  split
  · exact (.pair (.refl _))
  · split
    · split
      · exact (.pair (msecCount_keeps ..))
      · exact (.pair (.refl _))
    · split
      · exact (.pair (.refl _))
      · extract_lets +onlyGivenNames x3
        split
        · exact (.pair (msecCount_keeps ..))
        · split
          · exact (.pair (msecCount_keeps ..))
          · split
            · exact (.pair (msecCount_keeps ..))
            · extract_lets +onlyGivenNames x4
              extract_lets +onlyGivenNames x5
              extract_lets +onlyGivenNames x6
              have h7 : Keeps s x6 := (.same ⟨rfl, rfl, rfl, rfl, rfl⟩)
              clear_value x6
              exact (.pair (.of (msecCount_keeps ..) h7))

theorem saInstall_keeps (fn vi ext s) : Keeps s (saInstall fn vi ext s) := by
  unfold saInstall
  refine .ite (keyDone_keeps ..) ?_
  split
  · exact (keyDone_keeps ..)
  · rename_i s2 _ _ e5
    have h6 : Keeps s s2 := KeepsP.elim e5 (rangeRead_keeps ..)
    extract_lets +onlyGivenNames x7
    extract_lets +onlyGivenNames x8
    extract_lets +onlyGivenNames x9
    extract_lets +onlyGivenNames x10
    extract_lets +onlyGivenNames x11
    refine .ite (.of (keyDone_keeps ..) h6) ?_
    refine .ite (.of (keyDone_keeps ..) h6) ?_
    split
    · exact (.of (keyDone_keeps ..) h6)
    · extract_lets +onlyGivenNames x12
      exact (.of (keyDone_keeps ..) (h6.trans (.same ⟨rfl, rfl, rfl, rfl, rfl⟩)))

theorem saRetire_keeps (fn vi ext s) : Keeps s (saRetire fn vi ext s) := by
  unfold saRetire
  refine .ite (keyDone_keeps ..) ?_
  split
  · exact (keyDone_keeps ..)
  · rename_i s2 _ _ e5
    have h6 : Keeps s s2 := KeepsP.elim e5 (rangeRead_keeps ..)
    extract_lets +onlyGivenNames x7
    refine .ite (.of (keyDone_keeps ..) h6) ?_
    exact (.of (keyDone_keeps ..) (h6.trans (.same ⟨rfl, rfl, rfl, rfl, rfl⟩)))

theorem secKeyWr_keeps (fn v ext s) : Keeps s (secKeyWr fn v ext s) := by
  unfold secKeyWr
  extract_lets +onlyGivenNames x1
  extract_lets +onlyGivenNames x2
  extract_lets +onlyGivenNames x3
  have h4 : Keeps s x3 := by
    unfold x3
    refine .ite (.refl _) ?_
    exact (rset_keeps ..)
  clear_value x3
  refine .ite h4 ?_
  refine .ite (.of (statOvr_keeps ..) h4) ?_
  split
  · exact (.of (keyInstall_keeps ..) h4)
  · exact (.of (keyClear_keeps ..) h4)
  · exact (.of (keyReport_keeps ..) h4)
  · exact (.of (saInstall_keeps ..) h4)
  · exact (.of (saRetire_keeps ..) h4)
  · exact (.of (keyDone_keeps ..) h4)

theorem keyCmd_keeps (fn op slot vi ext s) : KeepsO s (keyCmd fn op slot vi ext s) := by
  unfold keyCmd
  extract_lets +onlyGivenNames x1
  refine (hostPf_keeps (h := fun s2 => ?_) ..)
  exact (secKeyWr_keeps ..)

theorem execInstall_keeps (fn slot vi ext s) : KeepsO s (execInstall fn slot vi ext s) := by
  unfold execInstall
  exact (keyCmd_keeps ..)

theorem execClear_keeps (fn slot s) : KeepsO s (execClear fn slot s) := by
  unfold execClear
  exact (keyCmd_keeps ..)

theorem execKeyRead_keeps (fn slot s) : KeepsO s (execKeyRead fn slot s) := by
  unfold execKeyRead
  exact (keyCmd_keeps ..)

theorem execInstallSa_keeps (fn vi ext s) : KeepsO s (execInstallSa fn vi ext s) := by
  unfold execInstallSa
  exact (keyCmd_keeps ..)

theorem execRetireSa_keeps (fn vi ext s) : KeepsO s (execRetireSa fn vi ext s) := by
  unfold execRetireSa
  exact (keyCmd_keeps ..)

theorem msecCfgWr_keeps (fn p v s) : Keeps s (msecCfgWr fn p v s) := by
  unfold msecCfgWr
  extract_lets +onlyGivenNames x1
  extract_lets +onlyGivenNames x2
  extract_lets +onlyGivenNames x3
  refine .ite (.of (rset_keeps ..) (accessErr_keeps ..)) ?_
  exact (rset_keeps ..)

theorem execMsecCfgWrite_keeps (fn port c s) : KeepsO s (execMsecCfgWrite fn port c s) := by
  unfold execMsecCfgWrite
  refine (hostPf_keeps (h := fun s1 => ?_) ..)
  exact (msecCfgWr_keeps ..)

theorem execFrameReceive_keeps (port f s) : KeepsO s (execFrameReceive port f s) := by
  unfold execFrameReceive
  refine .ite (.next (.refl _)) ?_
  refine .ite (.next (macDiscard_keeps ..)) ?_
  refine .ite (.next (prismDrop_keeps ..)) ?_
  split
  · rename_i s2 e3
    have h4 : Keeps s s2 := .fst e3 (msecRecv_keeps ..)
    exact .next h4
  · rename_i s6 _ e8
    have h9 : Keeps s s6 := .fst e8 (msecRecv_keeps ..)
    refine .ite (.next (.of (prismDrop_keeps ..) h9)) ?_
    exact .next (.of (settle_keeps ..) (.of (brmFrames_keeps ..) (.of (classify_keeps ..) h9)))

theorem setConn_keeps (s v n) : Keeps s (setConn s v n) := by
  unfold setConn
  exact (.same ⟨rfl, rfl, rfl, rfl, rfl⟩)

theorem dropSession_keeps (s v sid) : Keeps s (dropSession s v sid) := by
  unfold dropSession
  exact (.same ⟨rfl, rfl, rfl, rfl, rfl⟩)

theorem spdmReq_keeps (v need body s) (h : ∀ s, Keeps s (body s)) : KeepsO s (spdmReq v need body s) := by
  unfold spdmReq
  refine .ite (.next (h ..)) ?_
  exact .next (.refl _)

theorem execGetVersion_keeps (via s) : KeepsO s (execGetVersion via s) := by
  unfold execGetVersion
  refine (spdmReq_keeps (h := fun s1 => ?_) ..)
  exact (.of (setConn_keeps ..) (.same ⟨rfl, rfl, rfl, rfl, rfl⟩))

theorem execGetCapabilities_keeps (via s) : KeepsO s (execGetCapabilities via s) := by
  unfold execGetCapabilities
  refine (spdmReq_keeps (h := fun s1 => ?_) ..)
  exact (setConn_keeps ..)

theorem execNegotiateAlgorithms_keeps (via match_ s) : KeepsO s (execNegotiateAlgorithms via match_ s) := by
  unfold execNegotiateAlgorithms
  refine (spdmReq_keeps (h := fun s1 => ?_) ..)
  refine .ite (setConn_keeps ..) ?_
  exact (.refl _)

theorem execGetDigests_keeps (via s) : KeepsO s (execGetDigests via s) := by
  unfold execGetDigests
  refine (spdmReq_keeps (h := fun s1 => ?_) ..)
  exact (.same ⟨rfl, rfl, rfl, rfl, rfl⟩)

theorem execGetCertificate_keeps (via slot s) : KeepsO s (execGetCertificate via slot s) := by
  unfold execGetCertificate
  refine (spdmReq_keeps (h := fun s1 => ?_) ..)
  refine .ite (.refl _) ?_
  exact (.of (nextFree_keeps ..) (.same ⟨rfl, rfl, rfl, rfl, rfl⟩))

theorem execChallenge_keeps (via slot nonce s) : KeepsO s (execChallenge via slot nonce s) := by
  unfold execChallenge
  refine (spdmReq_keeps (h := fun s1 => ?_) ..)
  refine .ite (.refl _) ?_
  extract_lets +onlyGivenNames x2
  exact (.same ⟨rfl, rfl, rfl, rfl, rfl⟩)

theorem execGetMeasurements_keeps (via block s) : KeepsO s (execGetMeasurements via block s) := by
  unfold execGetMeasurements
  refine (spdmReq_keeps (h := fun s1 => ?_) ..)
  extract_lets +onlyGivenNames x2
  extract_lets +onlyGivenNames x3
  exact (.same ⟨rfl, rfl, rfl, rfl, rfl⟩)

theorem execKeyExchange_keeps (via beat s) : KeepsO s (execKeyExchange via beat s) := by
  unfold execKeyExchange
  refine (spdmReq_keeps (h := fun s1 => ?_) ..)
  extract_lets +onlyGivenNames x2
  refine .ite (.refl _) ?_
  extract_lets +onlyGivenNames x3
  exact (.same ⟨rfl, rfl, rfl, rfl, rfl⟩)

theorem execFinish_keeps (via sid ok s) : KeepsO s (execFinish via sid ok s) := by
  unfold execFinish
  refine (spdmReq_keeps (h := fun s1 => ?_) ..)
  refine .ite (.same ⟨rfl, rfl, rfl, rfl, rfl⟩) ?_
  exact (dropSession_keeps ..)

theorem secured_keeps (via sid body s) (h : ∀ s, Keeps s (body s)) : KeepsO s (secured via sid body s) := by
  unfold secured
  refine .ite (.next (h ..)) ?_
  exact .next (.refl _)

theorem execHeartbeat_keeps (via sid s) : KeepsO s (execHeartbeat via sid s) := by
  unfold execHeartbeat
  refine (secured_keeps (h := fun s1 => ?_) ..)
  exact (.same ⟨rfl, rfl, rfl, rfl, rfl⟩)

theorem execKeyUpdate_keeps (via sid s) : KeepsO s (execKeyUpdate via sid s) := by
  unfold execKeyUpdate
  refine (secured_keeps (h := fun s1 => ?_) ..)
  exact (.same ⟨rfl, rfl, rfl, rfl, rfl⟩)

theorem execEndSession_keeps (via sid s) : KeepsO s (execEndSession via sid s) := by
  unfold execEndSession
  refine (secured_keeps (h := fun s1 => ?_) ..)
  exact (dropSession_keeps ..)

theorem execSetKek_keeps (via sid kek s) : KeepsO s (execSetKek via sid kek s) := by
  unfold execSetKek
  refine (secured_keeps (h := fun s1 => ?_) ..)
  split
  · exact (.same ⟨rfl, rfl, rfl, rfl, rfl⟩)
  · exact (.refl _)

theorem execHeartbeatPeriodExpiry_keeps (via sid s) : KeepsO s (execHeartbeatPeriodExpiry via sid s) := by
  unfold execHeartbeatPeriodExpiry
  split
  · exact .next (.refl _)
  · refine .ite (.next (dropSession_keeps ..)) ?_
    exact .next (.refl _)

theorem setIde_keeps (s port stream x) : Keeps s (setIde s port stream x) := by
  unfold setIde
  exact (.same ⟨rfl, rfl, rfl, rfl, rfl⟩)

theorem ideReq_keeps (port sid body s) (h : ∀ s, Keeps s (body s)) : KeepsO s (ideReq port sid body s) := by
  unfold ideReq
  refine (secured_keeps (h := fun s1 => ?_) ..)
  exact (h ..)

theorem execIdeQuery_keeps (port sid s) : KeepsO s (execIdeQuery port sid s) := by
  unfold execIdeQuery
  refine (ideReq_keeps (h := fun s1 => ?_) ..)
  exact (.same ⟨rfl, rfl, rfl, rfl, rfl⟩)

theorem execKeyProg_keeps (port sid k key s) : KeepsO s (execKeyProg port sid k key s) := by
  unfold execKeyProg
  refine (ideReq_keeps (h := fun s1 => ?_) ..)
  extract_lets +onlyGivenNames x2
  exact (setIde_keeps ..)

theorem ideResume_keeps (s port) : Keeps s (ideResume s port) := by
  unfold ideResume
  refine Keeps.foldl (fun s1 y2 => ?_)
  exact (resumeFn_keeps ..)

theorem execKSetGo_keeps (port sid k s) : KeepsO s (execKSetGo port sid k s) := by
  unfold execKSetGo
  refine (ideReq_keeps (h := fun s1 => ?_) ..)
  extract_lets +onlyGivenNames x2
  refine .ite (.refl _) ?_
  exact (.of (ideResume_keeps ..) (setIde_keeps ..))

theorem execKSetStop_keeps (port sid k s) : KeepsO s (execKSetStop port sid k s) := by
  unfold execKSetStop
  refine (ideReq_keeps (h := fun s1 => ?_) ..)
  extract_lets +onlyGivenNames x2
  exact (setIde_keeps ..)

theorem flrSecurity_keeps (s port) : Keeps s (flrSecurity s port) := by
  unfold flrSecurity
  exact (.same ⟨rfl, rfl, rfl, rfl, rfl⟩)

/-! ## Fabric -/

theorem phyCount_keeps (s port k) : Keeps s (phyCount s port k) := by
  unfold phyCount
  exact (setPhy_keeps ..)

theorem forward_keeps (s inp vi p) : Keeps s (forward s inp vi p) := by
  unfold forward
  split
  · exact (.refl _)
  · exact (phyCount_keeps ..)
  · extract_lets +onlyGivenNames x1
    exact (setPhy_keeps ..)

theorem tookPacket_keeps (s port) : Keeps s (tookPacket s port) := by
  unfold tookPacket
  extract_lets +onlyGivenNames x1
  extract_lets +onlyGivenNames x2
  exact (setPhy_keeps ..)

theorem cutThrough_keeps (s port p) : Keeps s (cutThrough s port p) := by
  unfold cutThrough
  split
  · refine .ite (forward_keeps ..) ?_
    exact (.refl _)
  · exact (.refl _)
  · exact (.refl _)

theorem mirrorBodyIn_keeps (b s) : Keeps s (mirrorBodyIn b s) := by
  unfold mirrorBodyIn
  extract_lets +onlyGivenNames x1
  extract_lets +onlyGivenNames x2
  extract_lets +onlyGivenNames x3
  refine .ite (.refl _) ?_
  exact (mirrorArrive_keeps ..)

theorem takeLocal_keeps (s port p) : Keeps s (takeLocal s port p) := by
  unfold takeLocal
  refine .ite ?_ ?_
  · refine .ite (brmDrop_keeps ..) ?_
    extract_lets +onlyGivenNames x1
    refine .of (engineTake_keeps ..) ?_
    refine .ite (nextFree_keeps ..) ?_
    exact (.refl _)
  · refine .ite (.refl _) ?_
    refine .ite (mirrorBodyIn_keeps ..) ?_
    refine .ite (ackWrites_keeps ..) ?_
    exact (.refl _)

theorem execLinkPacketReceive_keeps (port p s) : KeepsO s (execLinkPacketReceive port p s) := by
  unfold execLinkPacketReceive
  extract_lets +onlyGivenNames x1
  refine .ite (.next (.refl _)) ?_
  refine .ite (.next (phyCount_keeps ..)) ?_
  refine .ite (.next (.refl _)) ?_
  refine .ite (.next (.of (tookPacket_keeps ..) (phyCount_keeps ..))) ?_
  refine .ite (.next (.of (cutThrough_keeps ..) (phyCount_keeps ..))) ?_
  refine .ite (.next (.of (tookPacket_keeps ..) (phyCount_keeps ..))) ?_
  refine .ite (.next (.of (settle_keeps ..) (.of (takeLocal_keeps ..) (tookPacket_keeps ..)))) ?_
  refine .ite (.next (.of (forward_keeps ..) (tookPacket_keeps ..))) ?_
  exact .next (tookPacket_keeps ..)

theorem execLinkCtlAck_keeps (port lseq credits s) : KeepsO s (execLinkCtlAck port lseq credits s) := by
  unfold execLinkCtlAck
  extract_lets +onlyGivenNames x1
  refine .ite (.next (.refl _)) ?_
  extract_lets +onlyGivenNames x2
  exact .next (setPhy_keeps ..)

theorem execLinkAckInterval_keeps (port s) : KeepsO s (execLinkAckInterval port s) := by
  unfold execLinkAckInterval
  extract_lets +onlyGivenNames x1
  refine .ite (.next (setPhy_keeps ..)) ?_
  exact .next (.refl _)

theorem linkErr_keeps (s port cause sev) : Keeps s (linkErr s port cause sev) := by
  unfold linkErr
  exact (raiseErr_keeps ..)

theorem mirrorLinkLost_keeps (s) : Keeps s (mirrorLinkLost s) := by
  unfold mirrorLinkLost
  refine .ite (.same ⟨rfl, rfl, rfl, rfl, rfl⟩) ?_
  exact (.refl _)

theorem mirrorIsLost_keeps (s) : Keeps s (mirrorIsLost s) := by
  unfold mirrorIsLost
  extract_lets +onlyGivenNames x1
  extract_lets +onlyGivenNames x2
  extract_lets +onlyGivenNames x3
  have h4 : Keeps s x3 := (.same ⟨rfl, rfl, rfl, rfl, rfl⟩)
  clear_value x3
  exact (.of (releaseHeld_keeps ..) (.of (ackWrites_keeps ..) h4))

theorem linkLost_keeps (s port) : Keeps s (linkLost s port) := by
  unfold linkLost
  extract_lets +onlyGivenNames x1
  extract_lets +onlyGivenNames x2
  have h3 : Keeps s x2 := (setPhy_keeps ..)
  clear_value x2
  extract_lets +onlyGivenNames x4
  extract_lets +onlyGivenNames x5
  have h6 : Keeps s x5 := by
    unfold x5
    refine .ite (.of (mirrorLinkLost_keeps ..) (h3.trans (.same ⟨rfl, rfl, rfl, rfl, rfl⟩))) ?_
    exact h3
  clear_value x5
  refine .of (Keeps.foldl (fun s7 y8 => ?_)) h6
  exact (forward_keeps ..)

theorem goDown_keeps (s port) : Keeps s (goDown s port) := by
  unfold goDown
  extract_lets +onlyGivenNames x1
  extract_lets +onlyGivenNames x2
  have h3 : Keeps s x2 := (setPhy_keeps ..)
  clear_value x2
  exact (.of (linkErr_keeps ..) (.of (linkLost_keeps ..) h3))

theorem execLinkRetryRequest_keeps (port lseq s) : KeepsO s (execLinkRetryRequest port lseq s) := by
  unfold execLinkRetryRequest
  extract_lets +onlyGivenNames x1
  refine .ite (.next (.refl _)) ?_
  extract_lets +onlyGivenNames x2
  extract_lets +onlyGivenNames x3
  have h4 : Keeps s x3 := (setPhy_keeps ..)
  clear_value x3
  extract_lets +onlyGivenNames x5
  have h6 : Keeps s x5 := (.of (linkErr_keeps ..) h4)
  clear_value x5
  refine .next ?_
  refine .of (settle_keeps ..) ?_
  refine .ite (.of (goDown_keeps ..) h6) ?_
  exact h6

theorem execLinkInit_keeps (port far s) : KeepsO s (execLinkInit port far s) := by
  unfold execLinkInit
  extract_lets +onlyGivenNames x1
  refine .ite (.next (.refl _)) ?_
  refine .ite ?_ ?_
  · extract_lets +onlyGivenNames x2
    have h3 : Keeps s x2 := (setPhy_keeps ..)
    clear_value x2
    refine .next ?_
    refine .ite (h3.trans (.same ⟨rfl, rfl, rfl, rfl, rfl⟩)) ?_
    exact h3
  · exact .next (.of (linkLost_keeps ..) (setPhy_keeps ..))

theorem execLaneFailure_keeps (port lane s) : KeepsO s (execLaneFailure port lane s) := by
  unfold execLaneFailure
  extract_lets +onlyGivenNames x1
  extract_lets +onlyGivenNames x2
  refine .ite (.next (.refl _)) ?_
  refine .ite ?_ ?_
  · extract_lets +onlyGivenNames x3
    have h4 : Keeps s x3 := (setPhy_keeps ..)
    clear_value x3
    extract_lets +onlyGivenNames x5
    have h6 : Keeps s x5 := (.of (linkErr_keeps ..) h4)
    clear_value x5
    refine .next ?_
    refine .ite (.of (mirrorLinkLost_keeps ..) h6) ?_
    exact h6
  · refine .ite (.next (.of (settle_keeps ..) (goDown_keeps ..))) ?_
    exact .next (.refl _)

theorem execLossOfLock_keeps (port s) : KeepsO s (execLossOfLock port s) := by
  unfold execLossOfLock
  refine .ite (.next (.of (settle_keeps ..) (goDown_keeps ..))) ?_
  exact .next (.refl _)

theorem execTrainingTimeout_keeps (port s) : KeepsO s (execTrainingTimeout port s) := by
  unfold execTrainingTimeout
  extract_lets +onlyGivenNames x1
  refine .ite (.next (.of (settle_keeps ..) (goDown_keeps ..))) ?_
  exact .next (.refl _)

theorem execRetrainTimer_keeps (port s) : KeepsO s (execRetrainTimer port s) := by
  unfold execRetrainTimer
  extract_lets +onlyGivenNames x1
  refine .ite (.next (setPhy_keeps ..)) ?_
  exact .next (.refl _)

theorem phyCfgWr_keeps (fn p v s) : Keeps s (phyCfgWr fn p v s) := by
  unfold phyCfgWr
  extract_lets +onlyGivenNames x1
  extract_lets +onlyGivenNames x2
  extract_lets +onlyGivenNames x3
  extract_lets +onlyGivenNames x4
  extract_lets +onlyGivenNames x5
  extract_lets +onlyGivenNames x6
  have h7 : Keeps s x6 := by
    unfold x6
    refine .ite (accessErr_keeps ..) ?_
    exact (.refl _)
  clear_value x6
  extract_lets +onlyGivenNames x8
  extract_lets +onlyGivenNames x9
  extract_lets +onlyGivenNames x10
  extract_lets +onlyGivenNames x11
  extract_lets +onlyGivenNames x12
  extract_lets +onlyGivenNames x13
  extract_lets +onlyGivenNames x14
  have h15 : Keeps s x14 := (.of (setPhy_keeps ..) h7)
  clear_value x14
  extract_lets +onlyGivenNames x16
  have h17 : Keeps s x16 := by
    unfold x16
    refine .ite ?_ ?_
    · refine .ite (.of (linkLost_keeps ..) h15) ?_
      exact h15
    · exact h7
  clear_value x16
  extract_lets +onlyGivenNames x18
  have h19 : Keeps s x18 := (.of (rset_keeps ..) h17)
  clear_value x18
  refine .ite (.of (setPhy_keeps ..) h19) ?_
  exact h19

theorem execPortEnable_keeps (fn port c s) : KeepsO s (execPortEnable fn port c s) := by
  unfold execPortEnable
  refine (hostPf_keeps (h := fun s1 => ?_) ..)
  exact (phyCfgWr_keeps ..)

theorem execPortDisable_keeps (fn port c s) : KeepsO s (execPortDisable fn port c s) := by
  unfold execPortDisable
  refine (hostPf_keeps (h := fun s1 => ?_) ..)
  exact (phyCfgWr_keeps ..)

theorem fabCfgWr_keeps (fn v s) : Keeps s (fabCfgWr fn v s) := by
  unfold fabCfgWr
  refine .ite (accessErr_keeps ..) ?_
  refine .ite (.refl _) ?_
  extract_lets +onlyGivenNames x1
  have h2 : Keeps s x1 := (rset_keeps ..)
  clear_value x1
  refine .ite (.of (measFabric_keeps ..) h2) ?_
  exact h2

theorem execDevFabCfgWrite_keeps (fn v s) : KeepsO s (execDevFabCfgWrite fn v s) := by
  unfold execDevFabCfgWrite
  refine (hostPf_keeps (h := fun s1 => ?_) ..)
  exact (fabCfgWr_keeps ..)

theorem pairCfgWr_keeps (fn v s) : Keeps s (pairCfgWr fn v s) := by
  unfold pairCfgWr
  extract_lets +onlyGivenNames x1
  extract_lets +onlyGivenNames x2
  extract_lets +onlyGivenNames x3
  extract_lets +onlyGivenNames x4
  extract_lets +onlyGivenNames x5
  refine .ite (accessErr_keeps ..) ?_
  extract_lets +onlyGivenNames x6
  have h7 : Keeps s x6 := (rset_keeps ..)
  extract_lets +onlyGivenNames x8
  extract_lets +onlyGivenNames x9
  have h10 : Keeps s x9 := (h7.trans (.same ⟨rfl, rfl, rfl, rfl, rfl⟩))
  extract_lets +onlyGivenNames x11
  extract_lets +onlyGivenNames x12
  extract_lets +onlyGivenNames x13
  have h14 : Keeps s x13 := by
    unfold x13
    refine .ite h10 ?_
    exact (h10.trans (.same ⟨rfl, rfl, rfl, rfl, rfl⟩))
  clear_value x13
  refine .ite (.of (measFabric_keeps ..) h14) ?_
  exact h14

theorem execDevPairCfgWrite_keeps (fn v s) : KeepsO s (execDevPairCfgWrite fn v s) := by
  unfold execDevPairCfgWrite
  refine (hostPf_keeps (h := fun s1 => ?_) ..)
  exact (pairCfgWr_keeps ..)

theorem pairHeard_keeps (s m) : Keeps s (pairHeard s m) := by
  unfold pairHeard
  extract_lets +onlyGivenNames x1
  extract_lets +onlyGivenNames x2
  have h3 : Keeps s x2 := (.same ⟨rfl, rfl, rfl, rfl, rfl⟩)
  extract_lets +onlyGivenNames x4
  refine .ite ?_ ?_
  · refine .ite (h3.trans (.same ⟨rfl, rfl, rfl, rfl, rfl⟩)) ?_
    exact h3
  · refine .ite ?_ ?_
    · extract_lets +onlyGivenNames x5
      exact (h3.trans (.same ⟨rfl, rfl, rfl, rfl, rfl⟩))
    · exact (h3.trans (.same ⟨rfl, rfl, rfl, rfl, rfl⟩))

theorem execPairPacketReceive_keeps (m s) : KeepsO s (execPairPacketReceive m s) := by
  unfold execPairPacketReceive
  refine .ite (.next (pairHeard_keeps ..)) ?_
  exact .next (.refl _)

theorem execPairHeartbeat_keeps (s) : KeepsO s (execPairHeartbeat s) := by
  unfold execPairHeartbeat
  extract_lets +onlyGivenNames x1
  refine .ite (.next (.refl _)) ?_
  refine .ite ?_ ?_
  · refine .ite (.next (.same ⟨rfl, rfl, rfl, rfl, rfl⟩)) ?_
    exact .next (.refl _)
  · refine .ite (.next (.same ⟨rfl, rfl, rfl, rfl, rfl⟩)) ?_
    exact .next (.refl _)

theorem execMirrorLostNotice_keeps (s) : KeepsO s (execMirrorLostNotice s) := by
  unfold execMirrorLostNotice
  refine .ite ?_ ?_
  · extract_lets +onlyGivenNames x1
    extract_lets +onlyGivenNames x2
    have h3 : Keeps s x2 := (.same ⟨rfl, rfl, rfl, rfl, rfl⟩)
    clear_value x2
    refine .next ?_
    refine .ite (h3.trans (.same ⟨rfl, rfl, rfl, rfl, rfl⟩)) ?_
    exact h3
  · exact .next (.refl _)

theorem execMirrorLostRepeat_keeps (s) : KeepsO s (execMirrorLostRepeat s) := by
  unfold execMirrorLostRepeat
  refine .ite (.next (.same ⟨rfl, rfl, rfl, rfl, rfl⟩)) ?_
  exact .next (.refl _)

theorem pairDone_keeps (s st dt) : Keeps s (pairDone s st dt) := by
  unfold pairDone
  exact (.same ⟨rfl, rfl, rfl, rfl, rfl⟩)

theorem execMirrorLostAck_keeps (s) : KeepsO s (execMirrorLostAck s) := by
  unfold execMirrorLostAck
  refine .ite (.next (.refl _)) ?_
  extract_lets +onlyGivenNames x1
  extract_lets +onlyGivenNames x2
  have h3 : Keeps s x2 := (.same ⟨rfl, rfl, rfl, rfl, rfl⟩)
  extract_lets +onlyGivenNames x4
  extract_lets +onlyGivenNames x5
  have h6 : Keeps s x5 := by
    unfold x5
    refine .ite (.of (pairDone_keeps ..) (h3.trans (.same ⟨rfl, rfl, rfl, rfl, rfl⟩))) ?_
    exact h3
  clear_value x5
  exact .next (.of (settle_keeps ..) (.of (mirrorIsLost_keeps ..) h6))

theorem abortAll_keeps (s ls) : Keeps s (abortAll s ls) := by
  unfold abortAll
  refine Keeps.foldl (fun s1 y2 => ?_)
  split
  · exact (abortLaunch_keeps ..)
  · exact (.refl _)

theorem dropPartner_keeps (s dev) : Keeps s (dropPartner s dev) := by
  unfold dropPartner
  extract_lets +onlyGivenNames x1
  have h2 : Keeps s x1 := (abortAll_keeps ..)
  clear_value x1
  extract_lets +onlyGivenNames x3
  have h4 : Keeps s x3 := (h2.trans (.same ⟨rfl, rfl, rfl, rfl, rfl⟩))
  clear_value x3
  refine .of (Keeps.foldl (fun s5 y6 => ?_)) h4
  exact (loseQp_keeps ..)

theorem takeOver_keeps (s) : Keeps s (takeOver s) := by
  unfold takeOver
  extract_lets +onlyGivenNames x1
  extract_lets +onlyGivenNames x2
  have h3 : Keeps s x2 := (.same ⟨rfl, rfl, rfl, rfl, rfl⟩)
  clear_value x2
  extract_lets +onlyGivenNames x4
  have h5 : Keeps s x4 := (.of (rset_keeps ..) h3)
  clear_value x4
  extract_lets +onlyGivenNames x6
  extract_lets +onlyGivenNames x7
  have h8 : Keeps s x7 := (h5.trans (.same ⟨rfl, rfl, rfl, rfl, rfl⟩))
  clear_value x7
  extract_lets +onlyGivenNames x9
  have h10 : Keeps s x9 := (.of (releaseHeld_keeps ..) (.of (ackWrites_keeps ..) h8))
  clear_value x9
  refine .of (Keeps.foldl (fun s11 y12 => ?_)) h10
  exact (raiseErr_keeps ..)

theorem losePartner_keeps (s) : Keeps s (losePartner s) := by
  unfold losePartner
  extract_lets +onlyGivenNames x1
  extract_lets +onlyGivenNames x2
  have h3 : Keeps s x2 := by
    unfold x2
    refine .ite (pairDone_keeps ..) ?_
    exact (.refl _)
  clear_value x2
  extract_lets +onlyGivenNames x4
  extract_lets +onlyGivenNames x5
  have h6 : Keeps s x5 := (h3.trans (.same ⟨rfl, rfl, rfl, rfl, rfl⟩))
  clear_value x5
  extract_lets +onlyGivenNames x7
  have h8 : Keeps s x7 := by
    unfold x7
    refine .ite (.of (mirrorIsLost_keeps ..) h6) ?_
    exact h6
  clear_value x7
  extract_lets +onlyGivenNames x9
  have h10 : Keeps s x9 := (.of (dropPartner_keeps ..) h8)
  clear_value x9
  extract_lets +onlyGivenNames x11
  refine .ite h10 ?_
  refine .ite ?_ ?_
  · refine .ite h10 ?_
    extract_lets +onlyGivenNames x12
    have h13 : Keeps s x12 := (.of (abortAll_keeps ..) h10)
    clear_value x12
    exact (h13.trans (.same ⟨rfl, rfl, rfl, rfl, rfl⟩))
  · refine .ite (.of (takeOver_keeps ..) h10) ?_
    exact h10

theorem execPartnerLost_keeps (s) : KeepsO s (execPartnerLost s) := by
  unfold execPartnerLost
  refine .ite (.next (.of (settle_keeps ..) (losePartner_keeps ..))) ?_
  exact .next (.refl _)

theorem pairCmdWr_keeps (v s) : Keeps s (pairCmdWr v s) := by
  unfold pairCmdWr
  extract_lets +onlyGivenNames x1
  extract_lets +onlyGivenNames x2
  have h3 : Keeps s x2 := by
    unfold x2
    refine .ite (.refl _) ?_
    exact (rset_keeps ..)
  clear_value x2
  refine .ite h3 ?_
  refine .ite (h3.trans (.same ⟨rfl, rfl, rfl, rfl, rfl⟩)) ?_
  refine .ite ?_ ?_
  · refine .ite (.of (pairDone_keeps ..) h3) ?_
    refine .ite (.of (pairDone_keeps ..) h3) ?_
    refine .ite (.of (pairDone_keeps ..) h3) ?_
    exact (.of (pairDone_keeps ..) (.of (takeOver_keeps ..) h3))
  · refine .ite (.of (pairDone_keeps ..) h3) ?_
    refine .ite (.of (pairDone_keeps ..) h3) ?_
    refine .ite (.of (pairDone_keeps ..) h3) ?_
    exact (h3.trans (.same ⟨rfl, rfl, rfl, rfl, rfl⟩))

theorem execTakeover_keeps (fn s) : KeepsO s (execTakeover fn s) := by
  unfold execTakeover
  refine (hostPf_keeps (h := fun s1 => ?_) ..)
  exact (pairCmdWr_keeps ..)

theorem execResync_keeps (fn s) : KeepsO s (execResync fn s) := by
  unfold execResync
  refine (hostPf_keeps (h := fun s1 => ?_) ..)
  exact (pairCmdWr_keeps ..)

theorem resyncPage_keeps (s page) : Keeps s (resyncPage s page) := by
  unfold resyncPage
  extract_lets +onlyGivenNames x1
  extract_lets +onlyGivenNames x2
  extract_lets +onlyGivenNames x3
  extract_lets +onlyGivenNames x4
  have h5 : Keeps s x4 := (mirrorCut_keeps ..)
  clear_value x4
  extract_lets +onlyGivenNames x6
  have h7 : Keeps s x6 := by
    unfold x6
    refine .of (Keeps.foldl (fun s8 y9 => ?_)) h5
    exact (mirrorSend_keeps ..)
  clear_value x6
  exact (h7.trans (.same ⟨rfl, rfl, rfl, rfl, rfl⟩))

theorem resyncTurn_keeps (s port) : Keeps s (resyncTurn s port) := by
  unfold resyncTurn
  split
  · exact (.refl _)
  · refine .ite (.refl _) ?_
    split
    · exact (resyncPage_keeps ..)
    · exact (.refl _)

theorem inject_keeps (s) : Keeps s (inject s) := by
  unfold inject
  extract_lets +onlyGivenNames x1
  refine .of (Keeps.foldl (fun s2 y3 => ?_)) (.same ⟨rfl, rfl, rfl, rfl, rfl⟩)
  exact (forward_keeps ..)

theorem linkTransmit_keeps (s port) : Keeps s (linkTransmit s port) := by
  unfold linkTransmit
  refine .ite (.refl _) ?_
  extract_lets +onlyGivenNames x1
  have h2 : Keeps s x1 := (.of (inject_keeps ..) (resyncTurn_keeps ..))
  clear_value x1
  split
  · exact h2
  · extract_lets +onlyGivenNames x3
    extract_lets +onlyGivenNames x4
    exact (.of (setPhy_keeps ..) h2)

theorem execFrameTransmitStart_keeps (port s) : KeepsO s (execFrameTransmitStart port s) := by
  unfold execFrameTransmitStart
  refine .ite (.next (linkTransmit_keeps ..)) ?_
  refine .ite (.next (.refl _)) ?_
  extract_lets +onlyGivenNames x1
  extract_lets +onlyGivenNames x2
  have h3 : Keeps s x2 := (transmitStart_keeps ..)
  clear_value x2
  refine .next ?_
  refine .ite (.of (msecSend_keeps ..) h3) ?_
  exact h3

theorem execResyncComplete_keeps (s) : KeepsO s (execResyncComplete s) := by
  unfold execResyncComplete
  refine .ite (.next (.of (pairDone_keeps ..) (.same ⟨rfl, rfl, rfl, rfl, rfl⟩))) ?_
  refine .ite (.next (.same ⟨rfl, rfl, rfl, rfl, rfl⟩)) ?_
  exact .next (.refl _)

/-! ## Snapshot -/

theorem setSnap_keeps (s x) : Keeps s (setSnap s x) := by
  unfold setSnap
  exact (.same ⟨rfl, rfl, rfl, rfl, rfl⟩)

theorem snapRecord_keeps (s x status dcode bytes) : Keeps s (snapRecord s x status dcode bytes) := by
  unfold snapRecord
  exact (complete_keeps ..)

theorem snapEnd_keeps (s x) : Keeps s (snapEnd s x) := by
  unfold snapEnd
  extract_lets +onlyGivenNames x1
  have h2 : Keeps s x1 := (setSnap_keeps ..)
  clear_value x1
  refine .ite ?_ ?_
  · refine .of (Keeps.foldl (fun s3 y4 => ?_)) h2
    exact (clearGuard_keeps ..)
  · exact h2

theorem snapFail_keeps (s x status dcode) : Keeps s (snapFail s x status dcode) := by
  unfold snapFail
  exact (.of (snapRecord_keeps ..) (snapEnd_keeps ..))

theorem snapBlock_keeps (s vi n) : Keeps s (snapBlock s vi n).1 := by
  unfold snapBlock
  split
  · exact (.pair (.refl _))
  · rename_i s2 _ _ e5
    have h6 : Keeps s s2 := KeepsP.elim e5 (rangeRead_keeps ..)
    split
    · exact h6
    · exact h6

theorem snapStart_keeps (s fn vi fits) : Keeps s (snapStart s fn vi fits).1 := by
  unfold snapStart
  split
  · exact (.pair (.refl _))
  · split
    · exact (.pair (.refl _))
    · split
      · rename_i s2 _ e4
        have h5 : Keeps s s2 := .fst e4 (snapBlock_keeps ..)
        exact h5
      · rename_i s7 _ e9
        have h10 : Keeps s s7 := .fst e9 (snapBlock_keeps ..)
        extract_lets +onlyGivenNames x11
        extract_lets +onlyGivenNames x12
        extract_lets +onlyGivenNames x13
        split
        · exact (.pair (.of (setSnap_keeps ..) h10))
        · exact h10

theorem restoreStart_keeps (s fn vi) : Keeps s (restoreStart s fn vi).1 := by
  unfold restoreStart
  split
  · exact (.pair (.refl _))
  · split
    · exact (.pair (.refl _))
    · split
      · rename_i s2 _ e4
        have h5 : Keeps s s2 := .fst e4 (snapBlock_keeps ..)
        exact h5
      · rename_i s7 _ e9
        have h10 : Keeps s s7 := .fst e9 (snapBlock_keeps ..)
        split
        · exact h10
        · split
          · exact h10
          · split
            · exact h10
            · exact (.pair (.of (setSnap_keeps ..) h10))

theorem snapAbort_keeps (s fn vi) : Keeps s (snapAbort s fn vi).1 := by
  unfold snapAbort
  split
  · exact (.pair (.refl _))
  · split
    · split
      · exact (.pair (.refl _))
      · exact (.pair (snapFail_keeps ..))
    · exact (.pair (.refl _))

theorem snpCmdWr_keeps (fn fits v s) : Keeps s (snpCmdWr fn fits v s) := by
  unfold snpCmdWr
  extract_lets +onlyGivenNames x1
  have h2 : Keeps s x1 := (rset_keeps ..)
  clear_value x1
  extract_lets +onlyGivenNames x3
  extract_lets +onlyGivenNames x4
  refine .ite h2 ?_
  refine .ite (.of (statOvr_keeps ..) h2) ?_
  split
  · rename_i s6 _ e8
    have h9 : Keeps s s6 := by
      refine Keeps.fst e8 ?_
      split
      · exact (.of (snapStart_keeps ..) h2)
      · split
        · exact (.of (restoreStart_keeps ..) h2)
        · split
          · exact (.of (snapAbort_keeps ..) h2)
          · exact h2
    exact (.of (statDone_keeps ..) h9)

theorem execSnapshot_keeps (fn vi fits s) : KeepsO s (execSnapshot fn vi fits s) := by
  unfold execSnapshot
  refine (hostPf_keeps (h := fun s1 => ?_) ..)
  exact (snpCmdWr_keeps ..)

theorem execRestore_keeps (fn vi s) : KeepsO s (execRestore fn vi s) := by
  unfold execRestore
  refine (hostPf_keeps (h := fun s1 => ?_) ..)
  exact (snpCmdWr_keeps ..)

theorem execAbort_keeps (fn vi s) : KeepsO s (execAbort fn vi s) := by
  unfold execAbort
  refine (hostPf_keeps (h := fun s1 => ?_) ..)
  exact (snpCmdWr_keeps ..)

theorem setGuard_keeps (s u : State) (l : List Nat) (y : Snap) (h : Keeps s u) : Keeps s (setSnap { u with guard := l } y) :=
  .of (setSnap_keeps ..) (h.trans (.same ⟨rfl, rfl, rfl, rfl, rfl⟩))

theorem snapArm_keeps (s x) : Keeps s (snapArm s x) := by
  unfold snapArm
  refine setGuard_keeps _ _ _ _ ?_
  split
  · exact .same ⟨rfl, rfl, rfl, rfl, rfl⟩
  · exact .refl _

theorem execSnapshotArm_keeps (vi s) : KeepsO s (execSnapshotArm vi s) := by
  unfold execSnapshotArm
  split
  · refine .ite (.next (snapArm_keeps ..)) ?_
    exact .next (.refl _)
  · exact .next (.refl _)

theorem copyPage_keeps (s x k) : Keeps s (copyPage s x k) := by
  unfold copyPage
  extract_lets +onlyGivenNames x1
  extract_lets +onlyGivenNames x2
  split
  · rename_i s4 _ _ e7
    have h8 : Keeps s s4 := .fst e7 (devRead_keeps ..)
    extract_lets +onlyGivenNames x9
    extract_lets +onlyGivenNames x10
    extract_lets +onlyGivenNames x11
    refine .ite (.of (snapFail_keeps ..) h8) ?_
    split
    · exact (.of (snapFail_keeps ..) h8)
    · rename_i s13 e14
      have h15 : Keeps s s13 := KeepsM.elim e14 (.of (instWrite_keeps ..) h8)
      extract_lets +onlyGivenNames x16
      extract_lets +onlyGivenNames x17
      extract_lets +onlyGivenNames x18
      have h19 : Keeps s x18 := (.of (setSnap_keeps ..) h15)
      clear_value x18
      exact (.of (clearGuard_keeps ..) h19)

theorem execPageCopy_keeps (vi page s) : KeepsO s (execPageCopy vi page s) := by
  unfold execPageCopy
  split
  · refine .ite (.next (.of (settle_keeps ..) (copyPage_keeps ..))) ?_
    exact .next (.refl _)
  · exact .next (.refl _)

theorem chunkDone_keeps (s x mine) : Keeps s (chunkDone s x mine) := by
  unfold chunkDone
  extract_lets +onlyGivenNames x1
  exact (setSnap_keeps ..)

theorem execChunkVerify_keeps (vi pages out s) : KeepsO s (execChunkVerify vi pages out s) := by
  unfold execChunkVerify
  split
  · exact .next (.refl _)
  · extract_lets +onlyGivenNames x1
    refine .ite (.next (.refl _)) ?_
    refine .ite (.next (.of (settle_keeps ..) (snapFail_keeps ..))) ?_
    split
    · exact .next (.of (settle_keeps ..) (snapFail_keeps ..))
    · exact .next (chunkDone_keeps ..)
    · extract_lets +onlyGivenNames x2
      refine .ite (.next (.of (settle_keeps ..) (snapFail_keeps ..))) ?_
      exact .next (setSnap_keeps ..)

theorem execSnapshotSeal_keeps (vi out s) : KeepsO s (execSnapshotSeal vi out s) := by
  unfold execSnapshotSeal
  split
  · exact .next (.refl _)
  · refine .ite (.next (.refl _)) ?_
    refine .ite (.next (.of (settle_keeps ..) (snapFail_keeps ..))) ?_
    split
    · exact .next (.of (settle_keeps ..) (snapFail_keeps ..))
    · refine .ite (.next (.of (settle_keeps ..) (snapFail_keeps ..))) ?_
      exact .next (setSnap_keeps ..)
    · exact .next (.of (settle_keeps ..) (.of (snapRecord_keeps ..) (snapEnd_keeps ..)))

theorem restoreFrom_keeps (s x i e) : Keeps s (restoreFrom s x i e) := by
  unfold restoreFrom
  extract_lets +onlyGivenNames x1
  extract_lets +onlyGivenNames x2
  refine .ite (snapFail_keeps ..) ?_
  clear_value x2
  split
  · exact (snapFail_keeps ..)
  · refine .ite (snapFail_keeps ..) ?_
    extract_lets +onlyGivenNames x3
    exact (setSnap_keeps ..)

theorem catalogueRead_keeps (s x found) : Keeps s (catalogueRead s x found) := by
  unfold catalogueRead
  extract_lets +onlyGivenNames x1
  extract_lets +onlyGivenNames x2
  refine .ite (snapFail_keeps ..) ?_
  extract_lets +onlyGivenNames x3
  extract_lets +onlyGivenNames x4
  extract_lets +onlyGivenNames x5
  split
  · exact (snapFail_keeps ..)
  · rename_i s7 e8
    have h9 : Keeps s s7 := KeepsM.elim e8 (rangeWrite_keeps ..)
    clear_value x3
    split
    · have h11 : Keeps s s7 := KeepsM.elim e8 (rangeWrite_keeps ..)
      refine .ite (.of (snapFail_keeps ..) h11) ?_
      exact (.of (snapFail_keeps ..) h11)
    · have h14 : Keeps s s7 := KeepsM.elim e8 (rangeWrite_keeps ..)
      split
      · exact (.of (snapFail_keeps ..) h14)
      · exact (.of (restoreFrom_keeps ..) h14)

theorem execCatalogueReadComplete_keeps (vi found s) : KeepsO s (execCatalogueReadComplete vi found s) := by
  unfold execCatalogueReadComplete
  split
  · refine .ite (.next (.of (settle_keeps ..) (catalogueRead_keeps ..))) ?_
    exact .next (.refl _)
  · exact .next (.refl _)

theorem writeMarks_keeps (r s : State) (vi m pa) (d : List Byte) (l : List (BitVec 10)) (w : Writer) (h : Keeps r s) :
    Keeps r (l.foldl (fun s b => engAct s vi m (.mark (pa + 64 * b.toNat) 64) w) (engAct s vi m (.bytes pa d) w)) :=
  .of (Keeps.foldl (fun _ _ => engAct_keeps ..)) (.of (engAct_keeps ..) h)

theorem writePage_keeps (s x k p) : KeepsM s (writePage s x k p) := by
  unfold writePage
  split
  · exact .some (writeMarks_keeps _ _ _ _ _ _ _ _ (.refl _))
  · exact .none
  · exact .none
  · exact .none

theorem restoreNext_keeps (s x p) : Keeps s (restoreNext s x p) := by
  unfold restoreNext
  split
  · exact (.refl _)
  · exact (snapFail_keeps ..)
  · refine .ite (snapFail_keeps ..) ?_
    refine .ite (snapFail_keeps ..) ?_
    split
    · exact (snapFail_keeps ..)
    · rename_i s2 e3
      have h4 : Keeps s s2 := KeepsM.elim e3 (writePage_keeps ..)
      extract_lets +onlyGivenNames x5
      refine .ite (.of (snapRecord_keeps ..) (.of (snapEnd_keeps ..) h4)) ?_
      exact (.of (setSnap_keeps ..) h4)

theorem execRestorePage_keeps (vi p s) : KeepsO s (execRestorePage vi p s) := by
  unfold execRestorePage
  split
  · refine .ite (.next (.of (settle_keeps ..) (restoreNext_keeps ..))) ?_
    exact .next (.refl _)
  · exact .next (.refl _)

/-! ## Reset -/

theorem discardAll_keeps (s vi) : Keeps s (discardAll s vi) := by
  unfold discardAll
  extract_lets +onlyGivenNames x1
  have h2 : Keeps s x1 := by
    unfold x1
    refine Keeps.foldl (fun s3 y4 => ?_)
    exact (discardThread_keeps ..)
  clear_value x1
  refine .of (Keeps.foldl (fun s5 y6 => ?_)) h2
  exact (discardSaved_keeps ..)

theorem stopDescs_keeps (s vi) : Keeps s (stopDescs s vi) := by
  unfold stopDescs
  extract_lets +onlyGivenNames x1
  extract_lets +onlyGivenNames x2
  have h3 : Keeps s x2 := (.same ⟨rfl, rfl, rfl, rfl, rfl⟩)
  clear_value x2
  exact (.of (modInst_keeps ..) h3)

theorem stopSnap_keeps (s vi) : Keeps s (stopSnap s vi) := by
  unfold stopSnap
  split
  · refine .ite (.refl _) ?_
    exact (snapEnd_keeps ..)
  · exact (.refl _)

theorem resetBegin_keeps (s vi st source) : Keeps s (resetBegin s vi st source) := by
  unfold resetBegin
  extract_lets +onlyGivenNames x1
  have h2 : Keeps s x1 := (modInst_keeps ..)
  clear_value x1
  exact (.of (stopSnap_keeps ..) (.of (stopDescs_keeps ..) (.of (discardAll_keeps ..) h2)))

theorem forceDiscard_keeps (s vi) : Keeps s (forceDiscard s vi) := by
  unfold forceDiscard
  extract_lets +onlyGivenNames x1
  extract_lets +onlyGivenNames x2
  have h3 : Keeps s x2 := (.same ⟨rfl, rfl, rfl, rfl, rfl⟩)
  clear_value x2
  extract_lets +onlyGivenNames x4
  have h5 : Keeps s x4 := (.of (finishUnmaps_keeps ..) h3)
  clear_value x4
  exact (.of (modInst_keeps ..) h5)

theorem clearEn_keeps (s k) : Keeps s (clearEn s k) := by
  unfold clearEn
  refine .ite (rset_keeps ..) ?_
  exact (.refl _)

theorem stopRings_keeps (s vi) : Keeps s (stopRings s vi) := by
  unfold stopRings
  extract_lets +onlyGivenNames x1
  extract_lets +onlyGivenNames x2
  have h3 : Keeps s x2 := (.same ⟨rfl, rfl, rfl, rfl, rfl⟩)
  clear_value x2
  extract_lets +onlyGivenNames x4
  have h5 : Keeps s x4 := by
    unfold x4
    refine .of (Keeps.foldl (fun s6 y7 => ?_)) h3
    exact (viCredit_keeps ..)
  clear_value x4
  extract_lets +onlyGivenNames x8
  have h9 : Keeps s x8 := by
    unfold x8
    refine .of (Keeps.foldl (fun s10 y11 => ?_)) h5
    exact (.of (clearEn_keeps ..) (clearEn_keeps ..))
  clear_value x8
  extract_lets +onlyGivenNames x12
  have h13 : Keeps s x12 := by
    unfold x12
    refine .of (Keeps.foldl (fun s14 y15 => ?_)) h9
    refine .ite (.of (clearEn_keeps ..) (setIris_keeps ..)) ?_
    exact (.refl _)
  clear_value x12
  refine .of (Keeps.foldl (fun s16 y17 => ?_)) h13
  extract_lets +onlyGivenNames x18
  refine .ite (clearEn_keeps ..) ?_
  exact (.refl _)

theorem dropBrm_keeps (s vi) : Keeps s (dropBrm s vi) := by
  unfold dropBrm
  extract_lets +onlyGivenNames x1
  have h2 : Keeps s x1 := (.same ⟨rfl, rfl, rfl, rfl, rfl⟩)
  clear_value x1
  extract_lets +onlyGivenNames x3
  have h4 : Keeps s x3 := by
    unfold x3
    refine .of (Keeps.foldl (fun s5 y6 => ?_)) h2
    exact (freeQp_keeps ..)
  clear_value x3
  refine .of (Keeps.foldl (fun s7 y8 => ?_)) h4
  exact (freeCtx_keeps ..)

theorem resetQueues_keeps (s vi) : Keeps s (resetQueues s vi) := by
  unfold resetQueues
  refine Keeps.foldl (fun s1 y2 => ?_)
  extract_lets +onlyGivenNames x3
  extract_lets +onlyGivenNames x4
  extract_lets +onlyGivenNames x5
  have h6 : Keeps s1 x5 := by
    unfold x5
    refine .ite (.refl _) ?_
    exact (setSq_keeps ..)
  clear_value x5
  extract_lets +onlyGivenNames x7
  have h8 : Keeps s1 x7 := by
    unfold x7
    refine .ite (.of (freeQueueCtx_keeps ..) h6) ?_
    exact h6
  clear_value x7
  refine .ite h8 ?_
  exact (.of (setCq_keeps ..) h8)

theorem resetClear_keeps (s vi) : Keeps s (resetClear s vi) := by
  unfold resetClear
  extract_lets x1 x2 x3 x4 x5 x6 x7
  have h4 : Keeps s x4 := Keeps.foldl (fun _ _ => dropLaunch_keeps ..)
  have h6 : Keeps s x6 := h4.dropFstore _ ⟨rfl, rfl, rfl, rfl⟩
  exact .of (modInst_keeps ..) (.of (resetQueues_keeps ..) (.of (stopRings_keeps ..) (.of (dropBrm_keeps ..) h6)))

theorem resetCfg_keeps (s fn) : Keeps s (resetCfg s fn) := by
  unfold resetCfg
  extract_lets +onlyGivenNames x1
  have h2 : Keeps s x1 := (modCfg_keeps ..)
  clear_value x1
  exact (h2.trans (.same ⟨rfl, rfl, rfl, rfl, rfl⟩))

theorem disableQueues_keeps (s vi) : Keeps s (disableQueues s vi) := by
  unfold disableQueues
  refine Keeps.foldl (fun s1 y2 => ?_)
  extract_lets +onlyGivenNames x3
  extract_lets +onlyGivenNames x4
  have h5 : Keeps s1 x4 := by
    unfold x4
    refine .ite (.refl _) ?_
    exact (.of (freeQueueCtx_keeps ..) (setSq_keeps ..))
  clear_value x4
  extract_lets +onlyGivenNames x6
  extract_lets +onlyGivenNames x7
  have h8 : Keeps s1 x7 := by
    unfold x7
    refine .ite h5 ?_
    exact (.of (freeQueueCtx_keeps ..) (.of (setCq_keeps ..) h5))
  clear_value x7
  exact (.of (clearEn_keeps ..) (.of (clearEn_keeps ..) h8))

theorem postDeferred_keeps (s vi) : Keeps s (postDeferred s vi) := by
  unfold postDeferred
  extract_lets +onlyGivenNames x1
  refine .of (Keeps.foldl (fun s2 y3 => ?_)) (modInst_keeps ..)
  exact (postEvent_keeps ..)

theorem resetFinish_keeps (s vi) : Keeps s (resetFinish s vi) := by
  unfold resetFinish
  extract_lets x1 i x2 x3
  have h1 : Keeps s x1 := modInst_keeps s vi _
  have h2 : Keeps x1 x2 := writeEvent_keeps x1 vi
    ⟨9, #v[i.gen.setWidth 64, rstCnt i, at_ i.rstDur.toNat 0 ||| at_ (b2n i.rstForced) 16, 0, 0]⟩
  clear_value x1 x2
  have h3 : Keeps s x3 := (h1.trans h2).trans (Keeps.trans (postLost_keeps x2 vi) (postDeferred_keeps (postLost x2 vi) vi))
  clear_value x3
  exact .ite (.of (startHandlers_keeps ..) h3) h3

theorem resetEnd_keeps (s vi) : Keeps s (resetEnd s vi) := by
  unfold resetEnd
  extract_lets +onlyGivenNames x1
  have h2 : Keeps s x1 := (resetClear_keeps ..)
  clear_value x1
  extract_lets +onlyGivenNames x3
  have h4 : Keeps s x3 := by
    unfold x3
    refine .ite (.of (modCfg_keeps ..) (.of (resetCfg_keeps ..) (.of (disableQueues_keeps ..) h2))) ?_
    exact h2
  clear_value x3
  extract_lets +onlyGivenNames x5
  extract_lets +onlyGivenNames x6
  have h7 : Keeps s x6 := (.of (resetFinish_keeps ..) h4)
  clear_value x6
  refine .ite (.of (resetBegin_keeps ..) (.of (modInst_keeps ..) h7)) ?_
  exact h7

theorem execResetDrainComplete_keeps (vi s) : KeepsO s (execResetDrainComplete vi s) := by
  unfold execResetDrainComplete
  extract_lets +onlyGivenNames x1
  refine .ite (.next (.of (settle_keeps ..) (resetEnd_keeps ..))) ?_
  exact .next (.refl _)

theorem execResetForceTimeout_keeps (vi s) : KeepsO s (execResetForceTimeout vi s) := by
  unfold execResetForceTimeout
  extract_lets +onlyGivenNames x1
  refine .ite (.next (.of (settle_keeps ..) (.of (resetEnd_keeps ..) (forceDiscard_keeps ..)))) ?_
  exact .next (.refl _)

theorem resetRequest_keeps (s vi source) : Keeps s (resetRequest s vi source) := by
  unfold resetRequest
  extract_lets +onlyGivenNames x1
  refine .ite (.refl _) ?_
  refine .ite (modInst_keeps ..) ?_
  exact (resetBegin_keeps ..)

theorem rstCmdWr_keeps (fn vi v s) : Keeps s (rstCmdWr fn vi v s) := by
  unfold rstCmdWr
  refine .ite (resetRequest_keeps ..) ?_
  exact (.refl _)

theorem execInstanceReset_keeps (fn vi s) : KeepsO s (execInstanceReset fn vi s) := by
  unfold execInstanceReset
  refine (hostVi_keeps (h := fun s1 => ?_) ..)
  exact (rstCmdWr_keeps ..)

theorem releaseAll_keeps (s vi) : Keeps s (releaseAll s vi) := by
  unfold releaseAll
  extract_lets +onlyGivenNames x1
  extract_lets +onlyGivenNames x2
  extract_lets +onlyGivenNames x3
  extract_lets +onlyGivenNames x4
  extract_lets +onlyGivenNames x5
  extract_lets +onlyGivenNames x6
  have h7 : Keeps s x6 := by
    unfold x6
    refine Keeps.foldl (fun s8 y9 => ?_)
    exact (freeCtx_keeps ..)
  clear_value x6
  exact (h7.trans (.same ⟨rfl, rfl, rfl, rfl, rfl⟩))

theorem execReleaseComplete_keeps (vi s) : KeepsO s (execReleaseComplete vi s) := by
  unfold execReleaseComplete
  extract_lets +onlyGivenNames x1
  refine .ite ?_ ?_
  · extract_lets +onlyGivenNames x2
    have h3 : Keeps s x2 := (releaseAll_keeps ..)
    clear_value x2
    exact .next (.of (settle_keeps ..) (h3.trans (.same ⟨rfl, rfl, rfl, rfl, rfl⟩)))
  · exact .next (.refl _)

theorem startRelease_keeps (s vi) : Keeps s (startRelease s vi) := by
  unfold startRelease
  extract_lets +onlyGivenNames x1
  refine .ite (.refl _) ?_
  refine .ite (modInst_keeps ..) ?_
  exact (resetBegin_keeps ..)

theorem vfEnWr_keeps (fn v s) : Keeps s (vfEnWr fn v s) := by
  unfold vfEnWr
  extract_lets +onlyGivenNames x1
  refine .ite ?_ ?_
  · extract_lets +onlyGivenNames x2
    have h3 : Keeps s x2 := (modCfg_keeps ..)
    clear_value x2
    refine .of (Keeps.foldl (fun s4 y5 => ?_)) h3
    refine .ite (modInst_keeps ..) ?_
    exact (.refl _)
  · refine .ite ?_ ?_
    · extract_lets +onlyGivenNames x6
      have h7 : Keeps s x6 := (modCfg_keeps ..)
      clear_value x6
      refine .of (Keeps.foldl (fun s8 y9 => ?_)) h7
      exact (startRelease_keeps ..)
    · exact (.refl _)

theorem numVfsWr_keeps (fn n s) : Keeps s (numVfsWr fn n s) := by
  unfold numVfsWr
  refine .ite (.refl _) ?_
  exact (modCfg_keeps ..)

theorem execVfEnable_keeps (fn n s) : KeepsO s (execVfEnable fn n s) := by
  unfold execVfEnable
  refine .ite ?_ ?_
  · refine (hostCfg_keeps (h := fun s1 => ?_) ..)
    exact (.of (vfEnWr_keeps ..) (numVfsWr_keeps ..))
  · exact .next (.refl _)

theorem execVfDisable_keeps (fn s) : KeepsO s (execVfDisable fn s) := by
  unfold execVfDisable
  refine .ite ?_ ?_
  · refine (hostCfg_keeps (h := fun s1 => ?_) ..)
    exact (vfEnWr_keeps ..)
  · exact .next (.refl _)

theorem flrStart_keeps (s fn) : Keeps s (flrStart s fn) := by
  unfold flrStart
  extract_lets +onlyGivenNames x1
  have h2 : Keeps s x1 := (.same ⟨rfl, rfl, rfl, rfl, rfl⟩)
  clear_value x1
  extract_lets +onlyGivenNames x3
  have h4 : Keeps s x3 := (.of (modCfg_keeps ..) h2)
  clear_value x3
  extract_lets +onlyGivenNames x5
  have h6 : Keeps s x5 := by
    unfold x5
    refine .ite (.of (flrSecurity_keeps ..) (.of (vfEnWr_keeps ..) h4)) ?_
    exact h4
  clear_value x5
  exact (.of (resetRequest_keeps ..) h6)

theorem execFunctionLevelReset_keeps (fn s) : KeepsO s (execFunctionLevelReset fn s) := by
  unfold execFunctionLevelReset
  refine (hostCfg_keeps (h := fun s1 => ?_) ..)
  exact (flrStart_keeps ..)

theorem switchReset_keeps (s port) : Keeps s (switchReset s port) := by
  unfold switchReset
  extract_lets +onlyGivenNames x1
  have h2 : Keeps s x1 := by
    unfold x1
    refine Keeps.foldl (fun s3 y4 => ?_)
    refine .ite ?_ ?_
    · extract_lets +onlyGivenNames x5
      extract_lets +onlyGivenNames x6
      extract_lets +onlyGivenNames x7
      have h8 : Keeps s3 x7 := (.same ⟨rfl, rfl, rfl, rfl, rfl⟩)
      clear_value x7
      exact (.of (linkLoss_keeps ..) h8)
    · exact (.refl _)
  clear_value x1
  extract_lets +onlyGivenNames x9
  exact (h2.trans (.same ⟨rfl, rfl, rfl, rfl, rfl⟩))

theorem execUpstreamPortReset_keeps (port kind s) : KeepsO s (execUpstreamPortReset port kind s) := by
  unfold execUpstreamPortReset
  extract_lets +onlyGivenNames x1
  extract_lets +onlyGivenNames x2
  extract_lets +onlyGivenNames x3
  have h4 : Keeps s x3 := (.same ⟨rfl, rfl, rfl, rfl, rfl⟩)
  clear_value x3
  extract_lets +onlyGivenNames x5
  have h6 : Keeps s x5 := (.of (switchReset_keeps ..) h4)
  clear_value x5
  extract_lets +onlyGivenNames x7
  have h8 : Keeps s x7 := (h6.trans (.same ⟨rfl, rfl, rfl, rfl, rfl⟩))
  clear_value x7
  refine .next ?_
  refine .of (settle_keeps ..) ?_
  refine .ite (.of (flrStart_keeps ..) h8) ?_
  exact h8

theorem execPerstDeassert_keeps (port s) : KeepsO s (execPerstDeassert port s) := by
  unfold execPerstDeassert
  extract_lets +onlyGivenNames x1
  extract_lets +onlyGivenNames x2
  exact .next (.same ⟨rfl, rfl, rfl, rfl, rfl⟩)

theorem execPresenceDetectChange_keeps (port s) : KeepsO s (execPresenceDetectChange port s) := by
  unfold execPresenceDetectChange
  extract_lets +onlyGivenNames x1
  refine .ite (.next (.refl _)) ?_
  exact .next (.of (trainPort_keeps ..) (.same ⟨rfl, rfl, rfl, rfl, rfl⟩))

end Sys2Proof.Machine
end

