-- ==== Sys2Proof/Laws/KeepsPlatform.lean ====
section
/-! SUPPORT. Lemmas of the relation `Keeps`: power, errors, metering, start-up, counters, trace and firmware. One lemma a function; each says what the function keeps. -/

namespace Sys2Proof.Machine

/-! ## Off -/

theorem moduleCleared_keeps (s) : Keeps s (moduleCleared s) :=
  ⟨rfl, fun _ => rfl, fun _ p hp => by simp [moduleCleared, State.reset] at hp, le_refl _, BitVec.and_self⟩

theorem convOff_keeps (s) : Keeps s (convOff s) := by
  unfold convOff
  extract_lets +onlyGivenNames x1
  have h2 : Keeps s x1 := (moduleCleared_keeps ..)
  clear_value x1
  exact (h2.trans (.same ⟨rfl, rfl, rfl, rfl, rfl⟩))

theorem convTry_keeps (s) : Keeps s (convTry s) := by
  unfold convTry
  refine .ite (.same ⟨rfl, rfl, rfl, rfl, rfl⟩) ?_
  exact (.refl _)

theorem tripOff_keeps (s ch raw) : Keeps s (tripOff s ch raw) := by
  unfold tripOff
  extract_lets +onlyGivenNames x1
  extract_lets +onlyGivenNames x2
  have h3 : Keeps s x2 := (.of (convOff_keeps ..) (.same ⟨rfl, rfl, rfl, rfl, rfl⟩))
  clear_value x2
  exact (h3.trans (.same ⟨rfl, rfl, rfl, rfl, rfl⟩))

/-! ## Power -/

theorem trackClear_keeps (s) : Keeps s (trackClear s) := by
  unfold trackClear
  exact (.same ⟨rfl, rfl, rfl, rfl, rfl⟩)

theorem trackBelow_keeps (s) : Keeps s (trackBelow s) := by
  unfold trackBelow
  exact (.same ⟨rfl, rfl, rfl, rfl, rfl⟩)

theorem hotRefresh_keeps (s st v) : Keeps s (hotRefresh s st v) := by
  unfold hotRefresh
  refine .ite (.same ⟨rfl, rfl, rfl, rfl, rfl⟩) ?_
  refine .ite (.same ⟨rfl, rfl, rfl, rfl, rfl⟩) ?_
  exact (.refl _)

theorem execLoupeSample_keeps (ch raw s) : KeepsO s (execLoupeSample ch raw s) := by
  unfold execLoupeSample
  refine .ite (.next (.refl _)) ?_
  extract_lets +onlyGivenNames x1
  extract_lets +onlyGivenNames x2
  extract_lets +onlyGivenNames x3
  refine .ite (.next (tripOff_keeps ..)) ?_
  extract_lets +onlyGivenNames x4
  extract_lets +onlyGivenNames x5
  extract_lets +onlyGivenNames x6
  extract_lets +onlyGivenNames x7
  extract_lets +onlyGivenNames x8
  have h9 : Keeps s x8 := (.same ⟨rfl, rfl, rfl, rfl, rfl⟩)
  extract_lets +onlyGivenNames x10
  have h11 : Keeps s x10 := by
    unfold x10
    refine .of (trackClear_keeps ..) ?_
    refine .ite (.of (trackBelow_keeps ..) h9) ?_
    exact h9
  extract_lets +onlyGivenNames x12
  have h13 : Keeps s x12 := by
    unfold x12
    refine .ite (.of (hotRefresh_keeps ..) h11) ?_
    exact h11
  refine .ite ?_ ?_
  · extract_lets +onlyGivenNames x14
    extract_lets +onlyGivenNames x15
    have h16 : Keeps s x15 := (h13.trans (.same ⟨rfl, rfl, rfl, rfl, rfl⟩))
    extract_lets +onlyGivenNames x17
    extract_lets +onlyGivenNames x18
    have h19 : Keeps s x18 := by
      unfold x18
      refine .ite (h16.trans (.same ⟨rfl, rfl, rfl, rfl, rfl⟩)) ?_
      exact h16
    clear_value x18
    exact .next (.of (raiseErr_keeps ..) h19)
  · exact .next h13

theorem chcfgWr_keeps (fn v s) : Keeps s (chcfgWr fn v s) := by
  unfold chcfgWr
  extract_lets +onlyGivenNames x1
  extract_lets +onlyGivenNames x2
  extract_lets +onlyGivenNames x3
  extract_lets +onlyGivenNames x4
  extract_lets +onlyGivenNames x5
  refine .ite (accessErr_keeps ..) ?_
  exact (rset_keeps ..)

theorem execLpeChcfgWrite_keeps (fn crit warn s) : KeepsO s (execLpeChcfgWrite fn crit warn s) := by
  unfold execLpeChcfgWrite
  extract_lets +onlyGivenNames x1
  refine (hostPf_keeps (h := fun s2 => ?_) ..)
  exact (chcfgWr_keeps ..)

theorem islandTick_keeps (s c) : Keeps s (islandTick s c) := by
  unfold islandTick
  extract_lets +onlyGivenNames x1
  extract_lets +onlyGivenNames x2
  extract_lets +onlyGivenNames x3
  extract_lets +onlyGivenNames x4
  extract_lets +onlyGivenNames x5
  extract_lets +onlyGivenNames x6
  extract_lets +onlyGivenNames x7
  exact (setIsl_keeps ..)

theorem powerCapTick_keeps (s) : Keeps s (powerCapTick s) := by
  unfold powerCapTick
  extract_lets +onlyGivenNames x1
  have h2 : Keeps s x1 := (trackBelow_keeps ..)
  clear_value x1
  extract_lets +onlyGivenNames x3
  refine .ite h2 ?_
  exact (h2.trans (.same ⟨rfl, rfl, rfl, rfl, rfl⟩))

theorem execLoupeMsTick_keeps (s) : KeepsO s (execLoupeMsTick s) := by
  unfold execLoupeMsTick
  refine .ite (.next (.refl _)) ?_
  extract_lets +onlyGivenNames x1
  extract_lets +onlyGivenNames x2
  have h3 : Keeps s x2 := (.of (powerCapTick_keeps ..) (.same ⟨rfl, rfl, rfl, rfl, rfl⟩))
  clear_value x2
  refine .next ?_
  refine .of (Keeps.foldl (fun s4 y5 => ?_)) h3
  exact (islandTick_keeps ..)

theorem execInputOvercurrent_keeps (ma s) : KeepsO s (execInputOvercurrent ma s) := by
  unfold execInputOvercurrent
  refine .ite (.next (.refl _)) ?_
  exact .next (tripOff_keeps ..)

theorem cluFreqWr_keeps (c v s) : Keeps s (cluFreqWr c v s) := by
  unfold cluFreqWr
  extract_lets +onlyGivenNames x1
  refine .ite (setIsl_keeps ..) ?_
  exact (.refl _)

theorem execPwrCluFreqWrite_keeps (fn c v s) : KeepsO s (execPwrCluFreqWrite fn c v s) := by
  unfold execPwrCluFreqWrite
  refine (hostPf_keeps (h := fun s1 => ?_) ..)
  exact (cluFreqWr_keeps ..)

theorem execFreqChangeDone_keeps (c s) : KeepsO s (execFreqChangeDone c s) := by
  unfold execFreqChangeDone
  extract_lets +onlyGivenNames x1
  refine .ite (.next (.refl _)) ?_
  exact .next (.of (settle_keeps ..) (setIsl_keeps ..))

theorem pwrCmdWr_keeps (v s) : Keeps s (pwrCmdWr v s) := by
  unfold pwrCmdWr
  extract_lets +onlyGivenNames x1
  refine .ite (rset_keeps ..) ?_
  refine .ite (statOvr_keeps ..) ?_
  extract_lets +onlyGivenNames x2
  have h3 : Keeps s x2 := (rset_keeps ..)
  clear_value x2
  refine .ite (.of (statDone_keeps ..) (.of (toBright_keeps ..) h3)) ?_
  refine .ite (.of (statDone_keeps ..) (h3.trans (.same ⟨rfl, rfl, rfl, rfl, rfl⟩))) ?_
  refine .ite ?_ ?_
  · extract_lets +onlyGivenNames x4
    refine .ite (.of (statDone_keeps ..) h3) ?_
    exact (.of (statStart_keeps ..) (h3.trans (.same ⟨rfl, rfl, rfl, rfl, rfl⟩)))
  · exact (.of (statDone_keeps ..) h3)

theorem pwrCommand_keeps (fn op s) : KeepsO s (pwrCommand fn op s) := by
  unfold pwrCommand
  extract_lets +onlyGivenNames x1
  refine .ite (.next (.same ⟨rfl, rfl, rfl, rfl, rfl⟩)) ?_
  refine (hostPf_keeps (h := fun s2 => ?_) ..)
  exact (pwrCmdWr_keeps ..)

theorem execGoBright_keeps (fn s) : KeepsO s (execGoBright fn s) := by
  unfold execGoBright
  exact (pwrCommand_keeps ..)

theorem execGoDim_keeps (fn s) : KeepsO s (execGoDim fn s) := by
  unfold execGoDim
  exact (pwrCommand_keeps ..)

theorem execGoDark_keeps (fn s) : KeepsO s (execGoDark fn s) := by
  unfold execGoDark
  exact (pwrCommand_keeps ..)

theorem portsOff_keeps (s) : Keeps s (portsOff s) := by
  unfold portsOff
  refine Keeps.foldl (fun s1 y2 => ?_)
  exact (setPhy_keeps ..)

theorem execDarkEntryComplete_keeps (s) : KeepsO s (execDarkEntryComplete s) := by
  unfold execDarkEntryComplete
  refine .ite (.next (.refl _)) ?_
  extract_lets +onlyGivenNames x1
  have h2 : Keeps s x1 := (portsOff_keeps ..)
  clear_value x1
  exact .next (.of (statDone_keeps ..) (h2.trans (.same ⟨rfl, rfl, rfl, rfl, rfl⟩)))

theorem execAutoDimTimeout_keeps (s) : KeepsO s (execAutoDimTimeout s) := by
  unfold execAutoDimTimeout
  refine .ite (.next (.same ⟨rfl, rfl, rfl, rfl, rfl⟩)) ?_
  exact .next (.refl _)

theorem wakeBy_keeps (s cause enBit) : Keeps s (wakeBy s cause enBit) := by
  unfold wakeBy
  exact (.of (startWake_keeps ..) (stopEntry_keeps ..))

theorem execWake_keeps (src s) : KeepsO s (execWake src s) := by
  unfold execWake
  split
  · exact .next (wakeBy_keeps ..)
  · exact .next (wakeBy_keeps ..)

theorem execWakeTimer_keeps (s) : KeepsO s (execWakeTimer s) := by
  unfold execWakeTimer
  refine .ite (.next (wakeBy_keeps ..)) ?_
  exact .next (.refl _)

theorem pwrCfgWr_keeps (v s) : Keeps s (pwrCfgWr v s) := by
  unfold pwrCfgWr
  extract_lets +onlyGivenNames x1
  extract_lets +onlyGivenNames x2
  exact (rset_keeps ..)

/-! ## Poll -/

theorem pollUpdate_keeps (s vi) : Keeps s (pollUpdate s vi) := by
  unfold pollUpdate
  extract_lets +onlyGivenNames x1
  extract_lets +onlyGivenNames x2
  extract_lets +onlyGivenNames x3
  have h4 : Keeps s x3 := (hostPut_keeps ..)
  clear_value x3
  extract_lets +onlyGivenNames x5
  have h6 : Keeps s x5 := (.of (hostPut_keeps ..) h4)
  clear_value x5
  exact (.of (modInst_keeps ..) h6)

theorem pollBeat_keeps (s vi) : Keeps s (pollBeat s vi) := by
  unfold pollBeat
  extract_lets +onlyGivenNames x1
  exact (.of (modInst_keeps ..) (hostPut_keeps ..))

theorem execPollPageUpdate_keeps (vi s) : KeepsO s (execPollPageUpdate vi s) := by
  unfold execPollPageUpdate
  refine .ite (.next (.refl _)) ?_
  refine .next ?_
  refine .ite (pollBeat_keeps ..) ?_
  exact (pollUpdate_keeps ..)

/-! ## Errors -/

theorem endPoisoned_keeps (s t) : Keeps s (endPoisoned s t) := by
  unfold endPoisoned
  split
  · exact (.refl _)
  · refine .ite (.refl _) ?_
    extract_lets +onlyGivenNames x1
    have h2 : Keeps s x1 := (withdrawSyncs_keeps ..)
    clear_value x1
    split
    · exact (.of (endThread_keeps ..) h2)
    · exact h2

theorem poisonAcc_keeps (s f ea) : Keeps s (poisonAcc s f ea) := by
  unfold poisonAcc
  split
  · exact (.refl _)
  · split
    · exact (.same ⟨rfl, rfl, rfl, rfl, rfl⟩)
    · exact (.refl _)

theorem poisonSyn_keeps (s n) : Keeps s (poisonSyn s n) := by
  unfold poisonSyn
  extract_lets +onlyGivenNames x1
  refine .ite (.refl _) ?_
  exact (.of (answerAll_keeps ..) (setSyn_keeps ..))

theorem poisonCtx_keeps (s n) : Keeps s (poisonCtx s n) := by
  unfold poisonCtx
  split
  · exact (poisonQp_keeps ..)
  · exact (setRegion_keeps ..)
  · exact (stopSq_keeps ..)
  · exact (.refl _)

theorem swLinkErr_keeps (s n cor b) : Keeps s (swLinkErr s n cor b) := by
  unfold swLinkErr
  extract_lets +onlyGivenNames x1
  extract_lets +onlyGivenNames x2
  exact (.same ⟨rfl, rfl, rfl, rfl, rfl⟩)

theorem tlpRefused_keeps (s fn k hdr) : Keeps s (tlpRefused s fn k hdr) := by
  unfold tlpRefused
  refine .ite (.refl _) ?_
  split
  · exact (aerUnc_keeps ..)
  · refine .ite (aerUnc_keeps ..) ?_
    exact (.refl _)
  · exact (aerUnc_keeps ..)

theorem foundHw_keeps (s h) : Keeps s (foundHw s h) := by
  unfold foundHw
  split
  · refine .ite ?_ ?_
    · refine .ite (foundUe_keeps ..) ?_
      exact (foundCe_keeps ..)
    · exact (.refl _)
  · refine .ite (.same ⟨rfl, rfl, rfl, rfl, rfl⟩) ?_
    exact (.refl _)
  · refine .ite (.refl _) ?_
    exact (setCq_keeps ..)
  · exact (swLinkErr_keeps ..)
  · exact (tlpRefused_keeps ..)
  · exact (raiseErr_keeps ..)
  · exact (raiseErr_keeps ..)
  · extract_lets +onlyGivenNames x1
    extract_lets +onlyGivenNames x2
    have h3 : Keeps s x2 := by
      unfold x2
      refine Keeps.foldl (fun s4 y5 => ?_)
      exact (endPoisoned_keeps ..)
    clear_value x2
    exact (.of (raiseErr_keeps ..) h3)
  · extract_lets +onlyGivenNames x6
    exact (.of (raiseErr_keeps ..) (poisonAcc_keeps ..))
  · extract_lets +onlyGivenNames x7
    exact (.of (raiseErr_keeps ..) (poisonCtx_keeps ..))
  · exact (.of (raiseErr_keeps ..) (poisonSyn_keeps ..))
  · exact (raiseErr_keeps ..)
  · exact (raiseErr_keeps ..)
  · exact (raiseErr_keeps ..)
  · exact (raiseErr_keeps ..)

theorem toHistory_keeps (s e ws) : Keeps s (toHistory s e ws) := by
  unfold toHistory
  extract_lets +onlyGivenNames x1
  refine .ite (.same ⟨rfl, rfl, rfl, rfl, rfl⟩) ?_
  exact (.same ⟨rfl, rfl, rfl, rfl, rfl⟩)

theorem writeRecord_keeps (s e) : Keeps s (writeRecord s e) := by
  unfold writeRecord
  extract_lets +onlyGivenNames x1
  extract_lets +onlyGivenNames x2
  extract_lets +onlyGivenNames x3
  extract_lets +onlyGivenNames x4
  have h5 : Keeps s x4 := (.same ⟨rfl, rfl, rfl, rfl, rfl⟩)
  clear_value x4
  exact (.of (toHistory_keeps ..) h5)

theorem aerInternal_keeps (s e) : Keeps s (aerInternal s e) := by
  unfold aerInternal
  extract_lets +onlyGivenNames x1
  refine .ite (.refl _) ?_
  split
  · unfold x1
    refine .ite (modCfg_keeps ..) ?_
    exact (aerCor_keeps ..)
  · unfold x1
    refine .ite ?_ ?_
    · refine .of (modCfg_keeps ..) ?_
      refine .ite (modCfg_keeps ..) ?_
      exact (aerCor_keeps ..)
    · refine .of (aerCor_keeps ..) ?_
      refine .ite (modCfg_keeps ..) ?_
      exact (aerCor_keeps ..)

theorem reportErr_keeps (s e) : Keeps s (reportErr s e) := by
  unfold reportErr
  extract_lets +onlyGivenNames x1
  extract_lets +onlyGivenNames x2
  have h3 : Keeps s x2 := (writeRecord_keeps ..)
  clear_value x2
  extract_lets +onlyGivenNames x4
  have h5 : Keeps s x4 := by
    unfold x4
    split
    · refine .ite (.of (postEvent_keeps ..) h3) ?_
      exact h3
    · exact h3
  clear_value x4
  extract_lets +onlyGivenNames x6
  have h7 : Keeps s x6 := (.of (aerInternal_keeps ..) h5)
  clear_value x6
  refine .ite (.of (trcTrigger_keeps ..) h7) ?_
  exact h7

theorem withdrawFacet_keeps (s f) : Keeps s (withdrawFacet s f) := by
  unfold withdrawFacet
  extract_lets +onlyGivenNames x1
  extract_lets +onlyGivenNames x2
  have h3 : Keeps s x2 := (.same ⟨rfl, rfl, rfl, rfl, rfl⟩)
  clear_value x2
  refine .of (Keeps.foldl (fun s4 y5 => ?_)) h3
  exact (reshape_keeps ..)

theorem stormLink_keeps (s p) : Keeps s (stormLink s p) := by
  unfold stormLink
  extract_lets +onlyGivenNames x1
  refine .ite ?_ ?_
  · extract_lets +onlyGivenNames x2
    have h3 : Keeps s x2 := (setPhy_keeps ..)
    clear_value x2
    refine .ite (.of (mirrorLinkLost_keeps ..) h3) ?_
    exact h3
  · exact (.refl _)

theorem escalate_keeps (s e) : Keeps s (escalate s e) := by
  unfold escalate
  refine .ite (.refl _) ?_
  split
  · exact (withdrawFacet_keeps ..)
  · refine .ite ?_ ?_
    · split
      · exact (stormLink_keeps ..)
      · exact (.refl _)
    · exact (.refl _)

theorem portsDown_keeps (s) : Keeps s (portsDown s) := by
  unfold portsDown
  refine Keeps.foldl (fun s1 y2 => ?_)
  extract_lets +onlyGivenNames x3
  extract_lets +onlyGivenNames x4
  extract_lets +onlyGivenNames x5
  have h6 : Keeps s1 x5 := (setPhy_keeps ..)
  clear_value x5
  refine .ite (.of (linkLost_keeps ..) h6) ?_
  exact h6

theorem lastPolls_keeps (s) : Keeps s (lastPolls s) := by
  unfold lastPolls
  refine Keeps.foldl (fun s1 y2 => ?_)
  extract_lets +onlyGivenNames x3
  refine .ite (.of (pollUpdate_keeps ..) (modInst_keeps ..)) ?_
  exact (.refl _)

theorem handleFatal_keeps (s e) : Keeps s (handleFatal s e) := by
  unfold handleFatal
  extract_lets +onlyGivenNames x1
  extract_lets +onlyGivenNames x2
  extract_lets +onlyGivenNames x3
  extract_lets +onlyGivenNames x4
  have h5 : Keeps s x4 := (.same ⟨rfl, rfl, rfl, rfl, rfl⟩)
  clear_value x4
  extract_lets +onlyGivenNames x6
  have h7 : Keeps s x6 := by
    unfold x6
    refine .ite (.of (lastPolls_keeps ..) (.of (portsDown_keeps ..) h5)) ?_
    exact h5
  clear_value x6
  exact (.of (reportErr_keeps ..) h7)

theorem postOwed_keeps (s) : Keeps s (postOwed s) := by
  unfold postOwed
  refine .of (Keeps.foldl (fun s1 y2 => ?_)) (.same ⟨rfl, rfl, rfl, rfl, rfl⟩)
  exact (postEvent_keeps ..)

theorem finishStorm_keeps (s e f) : Keeps s (finishStorm s e f) := by
  unfold finishStorm
  extract_lets +onlyGivenNames x1
  extract_lets +onlyGivenNames x2
  have h3 : Keeps s x2 := (reportErr_keeps ..)
  clear_value x2
  refine .of (Keeps.foldl (fun s4 y5 => ?_)) h3
  exact (postEvent_keeps ..)

theorem handleNext_keeps (s) : Keeps s (handleNext s) := by
  unfold handleNext
  split
  · split
    · split
      · refine .ite (.of (finishStorm_keeps ..) (.same ⟨rfl, rfl, rfl, rfl, rfl⟩)) ?_
        exact (.refl _)
      · exact (.same ⟨rfl, rfl, rfl, rfl, rfl⟩)
    · exact (.refl _)
  · split
    · refine .ite (.of (handleFatal_keeps ..) (.same ⟨rfl, rfl, rfl, rfl, rfl⟩)) ?_
      split
      · refine .ite (.of (finishStorm_keeps ..) (.same ⟨rfl, rfl, rfl, rfl, rfl⟩)) ?_
        exact (.refl _)
      · exact (.same ⟨rfl, rfl, rfl, rfl, rfl⟩)
    · extract_lets +onlyGivenNames x1
      extract_lets +onlyGivenNames x2
      have h3 : Keeps s x2 := (.same ⟨rfl, rfl, rfl, rfl, rfl⟩)
      clear_value x2
      refine .ite (.of (handleFatal_keeps ..) h3) ?_
      extract_lets +onlyGivenNames x4
      have h5 : Keeps s x4 := (.of (escalate_keeps ..) h3)
      clear_value x4
      split
      · refine .ite (.of (finishStorm_keeps ..) h5) ?_
        exact (h5.trans (.same ⟨rfl, rfl, rfl, rfl, rfl⟩))
      · exact (.of (reportErr_keeps ..) h5)

theorem execErrorHandle_keeps (found s) : KeepsO s (execErrorHandle found s) := by
  unfold execErrorHandle
  refine .ite (.next (.refl _)) ?_
  extract_lets +onlyGivenNames x1
  have h2 : Keeps s x1 := by
    unfold x1
    refine Keeps.foldl (fun s3 y4 => ?_)
    exact (foundHw_keeps ..)
  clear_value x1
  refine .ite (.next (.of (settle_keeps ..) h2)) ?_
  exact .next (.of (settle_keeps ..) (.of (handleNext_keeps ..) (.of (postOwed_keeps ..) h2)))

theorem execErrorSecondTick_keeps (s) : KeepsO s (execErrorSecondTick s) := by
  unfold execErrorSecondTick
  exact .next (rollSecond_keeps ..)

theorem errAckWr_keeps (fn v s) : Keeps s (errAckWr fn v s) := by
  unfold errAckWr
  extract_lets +onlyGivenNames x1
  refine .ite (.refl _) ?_
  refine .ite (.same ⟨rfl, rfl, rfl, rfl, rfl⟩) ?_
  exact (accessErr_keeps ..)

theorem errCfgWr_keeps (v s) : Keeps s (errCfgWr v s) := by
  unfold errCfgWr
  extract_lets +onlyGivenNames x1
  have h2 : Keeps s x1 := (rset_keeps ..)
  clear_value x1
  refine .ite (h2.trans (.same ⟨rfl, rfl, rfl, rfl, rfl⟩)) ?_
  exact h2

theorem fctOffWr_keeps (k v s) : Keeps s (fctOffWr k v s) := by
  unfold fctOffWr
  exact (.same ⟨rfl, rfl, rfl, rfl, rfl⟩)

theorem execErrAckWrite_keeps (fn r s) : KeepsO s (execErrAckWrite fn r s) := by
  unfold execErrAckWrite
  refine (hostPf_keeps (h := fun s1 => ?_) ..)
  exact (errAckWr_keeps ..)

theorem execErrCfgWrite_keeps (fn auto_ s) : KeepsO s (execErrCfgWrite fn auto_ s) := by
  unfold execErrCfgWrite
  refine (hostPf_keeps (h := fun s1 => ?_) ..)
  exact (errCfgWr_keeps ..)

theorem execErrFctOffWrite_keeps (fn k off s) : KeepsO s (execErrFctOffWrite fn k off s) := by
  unfold execErrFctOffWrite
  refine (hostPf_keeps (h := fun s1 => ?_) ..)
  exact (fctOffWr_keeps ..)

theorem execDevTimeMax_keeps (s) : KeepsO s (execDevTimeMax s) := by
  unfold execDevTimeMax
  refine .ite (.next (raiseErr_keeps ..)) ?_
  exact .next (.refl _)

theorem deviceCleared_keeps (s source) : Keeps s (deviceCleared s source) :=
  ⟨rfl, fun _ => rfl, fun _ p hp => by simp [deviceCleared, State.reset] at hp, le_refl _, BitVec.and_self⟩

theorem deviceResetStart_keeps (fn s) : Keeps s (deviceResetStart fn s) := by
  unfold deviceResetStart
  refine .ite (.same ⟨rfl, rfl, rfl, rfl, rfl⟩) ?_
  extract_lets +onlyGivenNames x1
  extract_lets +onlyGivenNames x2
  have h3 : Keeps s x2 := (raiseErr_keeps ..)
  clear_value x2
  exact (.of (deviceCleared_keeps ..) (.of (portsDown_keeps ..) h3))

theorem devRstWr_keeps (fn v s) : Keeps s (devRstWr fn v s) := by
  unfold devRstWr
  refine .ite (deviceResetStart_keeps ..) ?_
  exact (.refl _)

theorem execDeviceReset_keeps (fn s) : KeepsO s (execDeviceReset fn s) := by
  unfold execDeviceReset
  refine .ite (.next (deviceResetStart_keeps ..)) ?_
  refine (hostPf_keeps (h := fun s1 => ?_) ..)
  exact (devRstWr_keeps ..)

theorem execDeviceResetComplete_keeps (s) : KeepsO s (execDeviceResetComplete s) := by
  unfold execDeviceResetComplete
  refine .ite (.next (.refl _)) ?_
  exact .next (.same ⟨rfl, rfl, rfl, rfl, rfl⟩)

/-! ## Metering -/

theorem execTallyFrameSend_keeps (blocks s) : KeepsO s (execTallyFrameSend blocks s) := by
  unfold execTallyFrameSend
  refine .ite (.next (.refl _)) ?_
  extract_lets +onlyGivenNames x1
  extract_lets +onlyGivenNames x2
  extract_lets +onlyGivenNames x3
  extract_lets +onlyGivenNames x4
  exact .next (.same ⟨rfl, rfl, rfl, rfl, rfl⟩)

theorem execTallyFrameReceive_keeps (fate s) : KeepsO s (execTallyFrameReceive fate s) := by
  unfold execTallyFrameReceive
  extract_lets +onlyGivenNames x1
  refine .ite ?_ ?_
  · refine .next ?_
    refine .ite (.same ⟨rfl, rfl, rfl, rfl, rfl⟩) ?_
    exact (.refl _)
  · split
    · exact .next (.refl _)
    · extract_lets +onlyGivenNames x2
      extract_lets +onlyGivenNames x3
      exact .next (.same ⟨rfl, rfl, rfl, rfl, rfl⟩)

theorem execIntervalEnd_keeps (m s) : KeepsO s (execIntervalEnd m s) := by
  unfold execIntervalEnd
  split
  · refine .ite (.next (.refl _)) ?_
    extract_lets +onlyGivenNames x1
    exact .next (.same ⟨rfl, rfl, rfl, rfl, rfl⟩)
  · exact .next (.refl _)

theorem islandDown_keeps (s x persisted) : Keeps s (islandDown s x persisted) := by
  unfold islandDown
  split
  · refine .ite (.refl _) ?_
    extract_lets +onlyGivenNames x1
    extract_lets +onlyGivenNames x2
    exact (.same ⟨rfl, rfl, rfl, rfl, rfl⟩)
  · exact (.refl _)

theorem execIslandPowerUp_keeps (c m s) : KeepsO s (execIslandPowerUp c m s) := by
  unfold execIslandPowerUp
  refine .ite (.next (.refl _)) ?_
  extract_lets +onlyGivenNames x1
  clear_value x1
  split
  · exact .next (.same ⟨rfl, rfl, rfl, rfl, rfl⟩)
  · extract_lets +onlyGivenNames x2
    extract_lets +onlyGivenNames x3
    extract_lets +onlyGivenNames x4
    exact .next (.same ⟨rfl, rfl, rfl, rfl, rfl⟩)

theorem execSealBroken_keeps (s) : KeepsO s (execSealBroken s) := by
  unfold execSealBroken
  exact .next (.same ⟨rfl, rfl, rfl, rfl, rfl⟩)

theorem mtrRun_keeps (s op ns e) : Keeps s (mtrRun s op ns e).1 := by
  unfold mtrRun
  split
  · exact (.pair (.refl _))
  · split
    · exact (.pair (.refl _))
    · split
      · exact (.pair (.refl _))
      · split
        · split
          · exact (.pair (.refl _))
          · split
            · exact (.pair (.refl _))
            · exact (.pair (.same ⟨rfl, rfl, rfl, rfl, rfl⟩))
        · split
          · exact (.pair (.same ⟨rfl, rfl, rfl, rfl, rfl⟩))
          · exact (.pair (.refl _))

theorem mtrReqWr_keeps (v ns e s) : Keeps s (mtrReqWr v ns e s) := by
  unfold mtrReqWr
  extract_lets +onlyGivenNames x1
  extract_lets +onlyGivenNames x2
  have h3 : Keeps s x2 := (rset_keeps ..)
  clear_value x2
  refine .ite h3 ?_
  split
  · rename_i s5 _ e7
    have h8 : Keeps s s5 := .fst e7 (.of (mtrRun_keeps ..) h3)
    extract_lets +onlyGivenNames x9
    have h10 : Keeps s x9 := (.of (statDone_keeps ..) h8)
    clear_value x9
    extract_lets +onlyGivenNames x11
    have h12 : Keeps s x11 := (.of (rset_keeps ..) h10)
    clear_value x11
    exact (h12.trans (.same ⟨rfl, rfl, rfl, rfl, rfl⟩))

theorem execFetch_keeps (fn tag s) : KeepsO s (execFetch fn tag s) := by
  unfold execFetch
  extract_lets +onlyGivenNames x1
  refine (hostPf_keeps (h := fun s2 => ?_) ..)
  exact (mtrReqWr_keeps ..)

theorem execQuote_keeps (fn tag ns e s) : KeepsO s (execQuote fn tag ns e s) := by
  unfold execQuote
  extract_lets +onlyGivenNames x1
  refine (hostPf_keeps (h := fun s2 => ?_) ..)
  exact (mtrReqWr_keeps ..)

/-! ## Startup -/

theorem execPwrEnHigh_keeps (held s) : KeepsO s (execPwrEnHigh held s) := by
  unfold execPwrEnHigh
  extract_lets +onlyGivenNames x1
  exact .next (.of (convTry_keeps ..) (.same ⟨rfl, rfl, rfl, rfl, rfl⟩))

theorem execPwrEnLow_keeps (s) : KeepsO s (execPwrEnLow s) := by
  unfold execPwrEnLow
  exact .next (.of (convOff_keeps ..) (.same ⟨rfl, rfl, rfl, rfl, rfl⟩))

theorem execInputRise_keeps (held s) : KeepsO s (execInputRise held s) := by
  unfold execInputRise
  extract_lets +onlyGivenNames x1
  exact .next (.of (convTry_keeps ..) (.same ⟨rfl, rfl, rfl, rfl, rfl⟩))

theorem execInputUndervoltage_keeps (s) : KeepsO s (execInputUndervoltage s) := by
  unfold execInputUndervoltage
  exact .next (.of (convOff_keeps ..) (.same ⟨rfl, rfl, rfl, rfl, rfl⟩))

theorem execInputRemoved_keeps (m persisted s) : KeepsO s (execInputRemoved m persisted s) := by
  unfold execInputRemoved
  exact .next (.of (islandDown_keeps ..) (.of (convOff_keeps ..) (.same ⟨rfl, rfl, rfl, rfl, rfl⟩)))

theorem execModRst_keeps (s) : KeepsO s (execModRst s) := by
  unfold execModRst
  refine .ite (.next (.refl _)) ?_
  exact .next (moduleCleared_keeps ..)

theorem startFail_keeps (s code unit) : Keeps s (startFail s code unit) := by
  unfold startFail
  extract_lets +onlyGivenNames x1
  exact (.same ⟨rfl, rfl, rfl, rfl, rfl⟩)

theorem execConvert_keeps (ms addr1 addr0 s) : KeepsO s (execConvert ms addr1 addr0 s) := by
  unfold execConvert
  refine .ite (.next (.refl _)) ?_
  exact .next (.same ⟨rfl, rfl, rfl, rfl, rfl⟩)

theorem execCoolant_keeps (s) : KeepsO s (execCoolant s) := by
  unfold execCoolant
  refine .ite (.next (.same ⟨rfl, rfl, rfl, rfl, rfl⟩)) ?_
  exact .next (.refl _)

theorem execCoolantTimeout_keeps (s) : KeepsO s (execCoolantTimeout s) := by
  unfold execCoolantTimeout
  refine .ite (.next (startFail_keeps ..)) ?_
  exact .next (.refl _)

theorem execRails_keeps (s) : KeepsO s (execRails s) := by
  unfold execRails
  refine .ite (.next (.same ⟨rfl, rfl, rfl, rfl, rfl⟩)) ?_
  exact .next (.refl _)

theorem measureBoot_keeps (s) : Keeps s (measureBoot s) := by
  unfold measureBoot
  extract_lets +onlyGivenNames x1
  extract_lets +onlyGivenNames x2
  have h3 : Keeps s x2 := (.same ⟨rfl, rfl, rfl, rfl, rfl⟩)
  clear_value x2
  extract_lets +onlyGivenNames x4
  have h5 : Keeps s x4 := (.of (measExtend_keeps ..) h3)
  clear_value x4
  exact (.of (measExtend_keeps ..) h5)

theorem execSecure_keeps (s) : KeepsO s (execSecure s) := by
  unfold execSecure
  refine .ite (.next (.refl _)) ?_
  extract_lets +onlyGivenNames x1
  have h2 : Keeps s x1 := (measureBoot_keeps ..)
  clear_value x1
  split
  · exact .next (.of (startFail_keeps ..) (h2.trans (.same ⟨rfl, rfl, rfl, rfl, rfl⟩)))
  · extract_lets +onlyGivenNames x3
    have h4 : Keeps s x3 := (.of (measExtend_keeps ..) h2)
    clear_value x3
    exact .next (h4.trans (.same ⟨rfl, rfl, rfl, rfl, rfl⟩))

theorem execTrain_keeps (r s) : KeepsO s (execTrain r s) := by
  unfold execTrain
  refine .ite (.next (.refl _)) ?_
  split
  · exact .next (.same ⟨rfl, rfl, rfl, rfl, rfl⟩)
  · exact .next (startFail_keeps ..)
  · exact .next (startFail_keeps ..)
  · exact .next (startFail_keeps ..)
  · exact .next (startFail_keeps ..)

theorem execFill_keeps (s) : KeepsO s (execFill s) := by
  unfold execFill
  refine .ite (.next (.refl _)) (.next ?_)
  exact ⟨rfl, fun _ => rfl, id, le_refl _, BitVec.and_self⟩

theorem portsTrain_keeps (s) : Keeps s (portsTrain s) := by
  unfold portsTrain
  refine Keeps.foldl (fun s1 y2 => ?_)
  refine .ite (setPhy_keeps ..) ?_
  exact (.refl _)

theorem execFirmware_keeps (s) : KeepsO s (execFirmware s) := by
  unfold execFirmware
  refine .ite (.next (.refl _)) ?_
  extract_lets +onlyGivenNames x1
  extract_lets +onlyGivenNames x2
  extract_lets +onlyGivenNames x3
  extract_lets +onlyGivenNames x4
  have h5 : Keeps s x4 := (.same ⟨rfl, rfl, rfl, rfl, rfl⟩)
  clear_value x4
  exact .next (.of (portsTrain_keeps ..) h5)

/-! ## Counters -/

theorem zeroCounters_keeps (s vi) : Keeps s (zeroCounters s vi) := by
  unfold zeroCounters
  exact (.same ⟨rfl, rfl, rfl, rfl, rfl⟩)

theorem cntCfgWr_keeps (fn v s) : Keeps s (cntCfgWr fn v s) := by
  unfold cntCfgWr
  extract_lets +onlyGivenNames x1
  refine .ite (accessErr_keeps ..) ?_
  extract_lets +onlyGivenNames x2
  have h3 : Keeps s x2 := (rset_keeps ..)
  clear_value x2
  refine .ite (.of (zeroCounters_keeps ..) h3) ?_
  exact h3

theorem execCntVicfgWrite_keeps (fn en autoReset s) : KeepsO s (execCntVicfgWrite fn en autoReset s) := by
  unfold execCntVicfgWrite
  extract_lets +onlyGivenNames x1
  refine (hostPf_keeps (h := fun s2 => ?_) ..)
  exact (cntCfgWr_keeps ..)

theorem cntIdxWr_keeps (fn j v s) : Keeps s (cntIdxWr fn j v s) := by
  unfold cntIdxWr
  extract_lets +onlyGivenNames x1
  extract_lets +onlyGivenNames x2
  refine .ite (accessErr_keeps ..) ?_
  exact (rset_keeps ..)

theorem setSmp_keeps (s k x) : Keeps s (setSmp s k x) := by
  unfold setSmp
  exact (.same ⟨rfl, rfl, rfl, rfl, rfl⟩)

theorem cntSmpWr_keeps (fn k v s) : Keeps s (cntSmpWr fn k v s) := by
  unfold cntSmpWr
  extract_lets +onlyGivenNames x1
  extract_lets +onlyGivenNames x2
  extract_lets +onlyGivenNames x3
  refine .ite (accessErr_keeps ..) ?_
  extract_lets +onlyGivenNames x4
  have h5 : Keeps s x4 := (rset_keeps ..)
  clear_value x4
  refine .ite (.of (setSmp_keeps ..) h5) ?_
  exact (.of (setSmp_keeps ..) h5)

theorem cntSmpRingWr_keeps (fn k off v s) : Keeps s (cntSmpRingWr fn k off v s) := by
  unfold cntSmpRingWr
  refine .ite (accessErr_keeps ..) ?_
  exact (rset_keeps ..)

theorem execSamplerEnable_keeps (fn k c s) : KeepsO s (execSamplerEnable fn k c s) := by
  unfold execSamplerEnable
  refine (hostPf_keeps (h := fun s1 => ?_) ..)
  exact (cntSmpWr_keeps ..)

theorem cSmpDrop_keeps (s k) : Keeps s (cSmpDrop s k) := by
  unfold cSmpDrop
  extract_lets +onlyGivenNames x1
  exact (setSmp_keeps ..)

theorem cSmpWrite_keeps (s k) : Keeps s (cSmpWrite s k) := by
  unfold cSmpWrite
  extract_lets +onlyGivenNames x1
  extract_lets +onlyGivenNames x2
  extract_lets +onlyGivenNames x3
  split
  · exact (.of (cSmpDrop_keeps ..) (raiseErr_keeps ..))
  · rename_i s5 e6
    have h7 : Keeps s s5 := KeepsM.elim e6 (instWrite_keeps ..)
    refine KeepsM.getD ?_ ?_
    · exact (.of (instWrite_keeps ..) h7)
    · exact h7

theorem execCounterSample_keeps (k s) : KeepsO s (execCounterSample k s) := by
  unfold execCounterSample
  extract_lets +onlyGivenNames x1
  refine .ite (.next (.refl _)) ?_
  extract_lets +onlyGivenNames x2
  have h3 : Keeps s x2 := by
    unfold x2
    refine .ite (cSmpWrite_keeps ..) ?_
    exact (cSmpDrop_keeps ..)
  clear_value x2
  extract_lets +onlyGivenNames x4
  exact .next (.of (settle_keeps ..) (.of (nextFree_keeps ..) (.of (setSmp_keeps ..) h3)))

/-! ## Trace -/

theorem trcArm_keeps (s) : Keeps s (trcArm s) := by
  unfold trcArm
  exact (.same ⟨rfl, rfl, rfl, rfl, rfl⟩)

theorem syncCores_keeps (s mask) : Keeps s (syncCores s mask) := by
  unfold syncCores
  refine Keeps.foldl (fun s1 y2 => ?_)
  refine .ite ?_ ?_
  · extract_lets +onlyGivenNames x3
    exact (.of (nextFree_keeps ..) (stwPut_keeps ..))
  · exact (.refl _)

theorem trcCfgWr_keeps (v s) : Keeps s (trcCfgWr v s) := by
  unfold trcCfgWr
  extract_lets +onlyGivenNames x1
  refine .ite ?_ ?_
  · refine .ite ?_ ?_
    · refine .ite (trcArm_keeps ..) ?_
      exact (.refl _)
    · extract_lets +onlyGivenNames x2
      have h3 : Keeps s x2 := (rset_keeps ..)
      clear_value x2
      exact (h3.trans (.same ⟨rfl, rfl, rfl, rfl, rfl⟩))
  · extract_lets +onlyGivenNames x4
    refine .ite ?_ ?_
    · extract_lets +onlyGivenNames x5
      have h6 : Keeps s x5 := (.of (rset_keeps ..) (rset_keeps ..))
      clear_value x5
      extract_lets +onlyGivenNames x7
      extract_lets +onlyGivenNames x8
      have h9 : Keeps s x8 := (.of (trcArm_keeps ..) (h6.trans (.same ⟨rfl, rfl, rfl, rfl, rfl⟩)))
      clear_value x8
      exact (.of (syncCores_keeps ..) h9)
    · exact (rset_keeps ..)

theorem execTrcCfgWrite_keeps (fn c s) : KeepsO s (execTrcCfgWrite fn c s) := by
  unfold execTrcCfgWrite
  refine (hostPf_keeps (h := fun s1 => ?_) ..)
  exact (trcCfgWr_keeps ..)

theorem trcHostWr_keeps (fn off v s) : Keeps s (trcHostWr fn off v s) := by
  unfold trcHostWr
  refine .ite (.refl _) ?_
  refine .ite ?_ ?_
  · extract_lets +onlyGivenNames x1
    have h2 : Keeps s x1 := (rset_keeps ..)
    clear_value x1
    exact (h2.trans (.same ⟨rfl, rfl, rfl, rfl, rfl⟩))
  · exact (rset_keeps ..)

theorem trcTrigWr_keeps (v s) : Keeps s (trcTrigWr v s) := by
  unfold trcTrigWr
  extract_lets +onlyGivenNames x1
  have h2 : Keeps s x1 := (rset_keeps ..)
  clear_value x1
  extract_lets +onlyGivenNames x3
  have h4 : Keeps s x3 := by
    unfold x3
    refine .ite (.of (trcArm_keeps ..) h2) ?_
    exact h2
  clear_value x3
  refine .ite (.of (trcTrigger_keeps ..) h4) ?_
  exact h4

theorem execFire_keeps (fn s) : KeepsO s (execFire fn s) := by
  unfold execFire
  extract_lets +onlyGivenNames x1
  refine (hostPf_keeps (h := fun s2 => ?_) ..)
  exact (trcTrigWr_keeps ..)

theorem execArm_keeps (fn s) : KeepsO s (execArm fn s) := by
  unfold execArm
  extract_lets +onlyGivenNames x1
  refine (hostPf_keeps (h := fun s2 => ?_) ..)
  exact (trcTrigWr_keeps ..)

theorem trcStwWr_keeps (v s) : Keeps s (trcStwWr v s) := by
  unfold trcStwWr
  extract_lets +onlyGivenNames x1
  extract_lets +onlyGivenNames x2
  have h3 : Keeps s x2 := (rset_keeps ..)
  clear_value x2
  refine .ite (.of (syncCores_keeps ..) h3) ?_
  exact h3

theorem trcMarkWr_keeps (v s) : Keeps s (trcMarkWr v s) := by
  unfold trcMarkWr
  extract_lets +onlyGivenNames x1
  have h2 : Keeps s x1 := (rset_keeps ..)
  clear_value x1
  exact (.of (trcOffer_keeps ..) h2)

theorem execTrcMarkWrite_keeps (fn v s) : KeepsO s (execTrcMarkWrite fn v s) := by
  unfold execTrcMarkWrite
  refine (hostPf_keeps (h := fun s1 => ?_) ..)
  exact (trcMarkWr_keeps ..)

theorem trcAckWr_keeps (v s) : Keeps s (trcAckWr v s) := by
  unfold trcAckWr
  extract_lets +onlyGivenNames x1
  have h2 : Keeps s x1 := (rset_keeps ..)
  clear_value x1
  exact (.of (trcFlush_keeps ..) h2)

theorem execTrcHostAckWrite_keeps (fn v s) : KeepsO s (execTrcHostAckWrite fn v s) := by
  unfold execTrcHostAckWrite
  refine (hostPf_keeps (h := fun s1 => ?_) ..)
  exact (trcAckWr_keeps ..)

/-! ## Firmware -/

theorem setLog_keeps (s p x) : Keeps s (setLog s p x) := by
  unfold setLog
  exact (.same ⟨rfl, rfl, rfl, rfl, rfl⟩)

theorem logWrite_keeps (s p w) : Keeps s (logWrite s p w) := by
  unfold logWrite
  extract_lets +onlyGivenNames x1
  extract_lets +onlyGivenNames x2
  extract_lets +onlyGivenNames x3
  extract_lets +onlyGivenNames x4
  have h5 : Keeps s x4 := (hostPut_keeps ..)
  clear_value x4
  extract_lets +onlyGivenNames x6
  have h7 : Keeps s x6 := (.of (hostPut_keeps ..) h5)
  clear_value x6
  exact (.of (setLog_keeps ..) h7)

theorem logOne_keeps (s w p) : Keeps s (logOne s w p) := by
  unfold logOne
  extract_lets +onlyGivenNames x1
  refine .ite ?_ ?_
  · refine .ite (logWrite_keeps ..) ?_
    exact (setLog_keeps ..)
  · refine .ite (setLog_keeps ..) ?_
    exact (.refl _)

theorem logRecord_keeps (s level core code args) : Keeps s (logRecord s level core code args) := by
  unfold logRecord
  refine .ite (.refl _) ?_
  extract_lets +onlyGivenNames x1
  exact (.of (logOne_keeps ..) (logOne_keeps ..))

theorem logDrain_keeps (s p a2) : Keeps s (logDrain s p a2) := by
  fun_induction logDrain s p a2
  · exact (.refl _)
  · exact (.refl _)
  · rename_i y10
    exact .of y10 (.of (logWrite_keeps ..) (setLog_keeps ..))
  · exact (.refl _)
  · rename_i y25
    exact .of y25 (.of (logWrite_keeps ..) (setLog_keeps ..))

theorem fwPoint_keeps (s cls core) : Keeps s (fwPoint s cls core) := by
  unfold fwPoint
  refine .ite (.refl _) ?_
  extract_lets +onlyGivenNames x1
  extract_lets +onlyGivenNames x2
  have h3 : Keeps s x2 := (stwOffer_keeps ..)
  clear_value x2
  refine .of (nextFree_keeps ..) ?_
  refine .ite (.of (trcTrigger_keeps ..) h3) ?_
  exact h3

theorem logRingWr_keeps (fn v s) : Keeps s (logRingWr fn v s) := by
  unfold logRingWr
  extract_lets +onlyGivenNames x1
  extract_lets +onlyGivenNames x2
  extract_lets +onlyGivenNames x3
  extract_lets +onlyGivenNames x4
  extract_lets +onlyGivenNames x5
  extract_lets +onlyGivenNames x6
  have h7 : Keeps s x6 := (rset_keeps ..)
  clear_value x6
  refine .ite (.of (logDrain_keeps ..) h7) ?_
  exact h7

theorem execFwLogRingWrite_keeps (fn c s) : KeepsO s (execFwLogRingWrite fn c s) := by
  unfold execFwLogRingWrite
  extract_lets +onlyGivenNames x1
  refine (hostPf_keeps (h := fun s2 => ?_) ..)
  exact (logRingWr_keeps ..)

theorem logAckWr_keeps (fn v s) : Keeps s (logAckWr fn v s) := by
  unfold logAckWr
  extract_lets +onlyGivenNames x1
  extract_lets +onlyGivenNames x2
  have h3 : Keeps s x2 := (rset_keeps ..)
  clear_value x2
  exact (.of (logDrain_keeps ..) h3)

theorem execFwLogAckWrite_keeps (fn r s) : KeepsO s (execFwLogAckWrite fn r s) := by
  unfold execFwLogAckWrite
  refine (hostPf_keeps (h := fun s1 => ?_) ..)
  exact (logAckWr_keeps ..)

theorem doStage_keeps (s img) : Keeps s (doStage s img).1 := by
  unfold doStage
  extract_lets +onlyGivenNames x1
  split
  · exact (.pair (.same ⟨rfl, rfl, rfl, rfl, rfl⟩))
  · exact (.pair (.same ⟨rfl, rfl, rfl, rfl, rfl⟩))

theorem activateBegin_keeps (s who deferred) : Keeps s (activateBegin s who deferred) := by
  unfold activateBegin
  exact (.of (fwPoint_keeps ..) (.same ⟨rfl, rfl, rfl, rfl, rfl⟩))

theorem doActivate_keeps (s auto who) : Keeps s (doActivate s auto who).1 := by
  unfold doActivate
  split
  · exact (.pair (.refl _))
  · split
    · exact (.pair (.same ⟨rfl, rfl, rfl, rfl, rfl⟩))
    · split
      · exact (.pair (activateBegin_keeps ..))
      · exact (.pair (.refl _))

theorem execDeferredActivationTimer_keeps (s) : KeepsO s (execDeferredActivationTimer s) := by
  unfold execDeferredActivationTimer
  split
  · exact .next (.refl _)
  · refine .ite (.next (.refl _)) ?_
    refine .ite (.next (.of (activateBegin_keeps ..) (.same ⟨rfl, rfl, rfl, rfl, rfl⟩))) ?_
    extract_lets +onlyGivenNames x1
    extract_lets +onlyGivenNames x2
    have h3 : Keeps s x2 := (.same ⟨rfl, rfl, rfl, rfl, rfl⟩)
    clear_value x2
    exact .next (.of (nextFree_keeps ..) (.of (logRecord_keeps ..) h3))

theorem mbReply_keeps (s fn tag op r data) : Keeps s (mbReply s fn tag op r data) := by
  unfold mbReply
  extract_lets +onlyGivenNames x1
  extract_lets +onlyGivenNames x2
  extract_lets +onlyGivenNames x3
  extract_lets +onlyGivenNames x4
  extract_lets +onlyGivenNames x5
  extract_lets +onlyGivenNames x6
  have h7 : Keeps s x6 := (.same ⟨rfl, rfl, rfl, rfl, rfl⟩)
  clear_value x6
  extract_lets +onlyGivenNames x8
  have h9 : Keeps s x8 := by
    unfold x8
    refine .of (Keeps.foldl (fun s10 y11 => ?_)) (.of (rset_keeps ..) h7)
    exact (rset_keeps ..)
  clear_value x8
  extract_lets +onlyGivenNames x12
  extract_lets +onlyGivenNames x13
  extract_lets +onlyGivenNames x14
  have h15 : Keeps s x14 := by
    unfold x14
    refine .ite (.of (hostPut_keeps ..) (.of (hostPut_keeps ..) h9)) ?_
    exact h9
  clear_value x14
  extract_lets +onlyGivenNames x16
  have h17 : Keeps s x16 := (.of (rset_keeps ..) h15)
  clear_value x16
  exact (.of (fwPoint_keeps ..) h17)

theorem measFeatures_keeps (s) : Keeps s (measFeatures s) := by
  unfold measFeatures
  exact (measExtend_keeps ..)

theorem doFeatureSet_keeps (s n v) : Keeps s (doFeatureSet s n v).1 := by
  unfold doFeatureSet
  split
  · exact (.pair (.refl _))
  · split
    · exact (.pair (.refl _))
    · exact (.pair (.of (measFeatures_keeps ..) (.same ⟨rfl, rfl, rfl, rfl, rfl⟩)))

theorem restartCore_keeps (s n cause pc who) : Keeps s (restartCore s n cause pc who) := by
  unfold restartCore
  extract_lets +onlyGivenNames x1
  extract_lets +onlyGivenNames x2
  extract_lets +onlyGivenNames x3
  extract_lets +onlyGivenNames x4
  extract_lets +onlyGivenNames x5
  extract_lets +onlyGivenNames x6
  have h7 : Keeps s x6 := (.of (fwPoint_keeps ..) (.same ⟨rfl, rfl, rfl, rfl, rfl⟩))
  clear_value x6
  refine .ite h7 ?_
  extract_lets +onlyGivenNames x8
  extract_lets +onlyGivenNames x9
  have h10 : Keeps s x9 := (.of (raiseErr_keeps ..) h7)
  clear_value x9
  refine .ite (.of (raiseErr_keeps ..) h10) ?_
  exact h10

theorem bindFlows_keeps (s fn n) : KeepsX s (bindFlows s fn n) := by
  induction n generalizing s with
  | zero => exact .ok (.refl _)
  | succ n ih =>
    unfold bindFlows
    split
    · exact .error
    · split
      · exact .error
      · exact .map (.of (ih _) (.of (nextFree_keeps ..) (newCtx_keeps ..)))

theorem doBind_keeps (s fn r) : Keeps s (doBind s fn r).1 := by
  unfold doBind
  extract_lets +onlyGivenNames x1
  extract_lets +onlyGivenNames x2
  extract_lets +onlyGivenNames x3
  extract_lets +onlyGivenNames x4
  extract_lets +onlyGivenNames x5
  iterate 7
    split
    · exact (.pair (.refl _))
  · extract_lets +onlyGivenNames x6
    split
    · exact (.pair (.refl _))
    · rename_i s8 _ e10
      have h11 : Keeps s s8 := KeepsX.elim e10 (bindFlows_keeps ..)
      extract_lets +onlyGivenNames x12
      have h13 : Keeps s x12 := (.of (rset_keeps ..) h11)
      clear_value x12
      extract_lets +onlyGivenNames x14
      have h15 : Keeps s x14 := (h13.trans (.same ⟨rfl, rfl, rfl, rfl, rfl⟩))
      clear_value x14
      exact (.pair (.of (fwPoint_keeps ..) h15))

theorem doUnbind_keeps (s t) : Keeps s (doUnbind s t).1 := by
  unfold doUnbind
  split
  · exact (.pair (.refl _))
  · split
    · exact (.pair (.refl _))
    · extract_lets +onlyGivenNames x1
      have h2 : Keeps s x1 := by
        unfold x1
        refine Keeps.foldl (fun s3 y4 => ?_)
        split
        · exact (freeCtx_keeps ..)
        · exact (.refl _)
      clear_value x1
      refine .pair ?_
      refine .of (fwPoint_keeps ..) ?_
      extract_lets +onlyGivenNames x5
      have h6 : Keeps s x5 := (.of (rset_keeps ..) h2)
      clear_value x5
      exact (h6.trans (.same ⟨rfl, rfl, rfl, rfl, rfl⟩))

theorem or_keeps_revoked (a b : BitVec 4) : a &&& (a ||| b) = a := by
  ext i hi
  simp only [BitVec.getElem_and, BitVec.getElem_or]
  cases a[i] <;> simp

theorem mbRun_keeps (s fn tag c) : Keeps s (mbRun s fn tag c).1 := by
  unfold mbRun
  extract_lets w bad ok out
  have hbad : Keeps s bad.1 := .refl _
  have hok (t : State) : (ok t).1 = t := rfl
  have hout (x) : (out x).1 = x.1 := rfl
  clear_value bad ok out
  split
  · exact hbad
  split
  · exact .refl _
  · rw [hout]; exact doFeatureSet_keeps ..
  · exact .refl _
  · split
    · exact hbad
    split
    · exact .refl _
    · rw [hout]; exact doStage_keeps ..
  · split
    rename_i s1 r e
    exact .fst e (doActivate_keeps ..)
  · rw [hok]; exact .same ⟨rfl, rfl, rfl, rfl, rfl⟩
  · rw [hok]
    split
    · rename_i h
      exact ⟨rfl, id, id, le_of_lt h, BitVec.and_self⟩
    · exact .refl _
  · split
    · exact .refl _
    · rw [hok]
      exact ⟨rfl, id, id, le_refl _, or_keeps_revoked _ _⟩
  · split
    · exact hbad
    · rw [hok]; exact .same ⟨rfl, rfl, rfl, rfl, rfl⟩
  · rw [hok]; exact .same ⟨rfl, rfl, rfl, rfl, rfl⟩
  · split
    rename_i s1 a dd e
    exact .fst e (doBind_keeps ..)
  · rw [hout]; exact doUnbind_keeps ..
  · split
    · exact hbad
    · exact .pair (.same ⟨rfl, rfl, rfl, rfl, rfl⟩)
  · split
    · exact hbad
    · rw [hok]; exact .same ⟨rfl, rfl, rfl, rfl, rfl⟩
  · split
    · exact hbad
    split
    · exact .refl _
    · exact .pair (.of (nextFree_keeps ..) (restartCore_keeps ..))
  · exact hbad

theorem mbStart_keeps (s fn tag c) : Keeps s (mbStart s fn tag c) := by
  unfold mbStart
  extract_lets +onlyGivenNames x1
  extract_lets +onlyGivenNames x2
  refine .ite (.same ⟨rfl, rfl, rfl, rfl, rfl⟩) ?_
  extract_lets +onlyGivenNames x3
  have h4 : Keeps s x3 := (fwPoint_keeps ..)
  clear_value x3
  split
  · rename_i s6 _ _ e9
    have h10 : Keeps s s6 := .fst e9 (.of (mbRun_keeps ..) h4)
    exact (.of (mbReply_keeps ..) h10)
  · rename_i s12 e13
    have h14 : Keeps s s12 := .fst e13 (.of (mbRun_keeps ..) h4)
    exact h14

theorem mbWr_keeps (fn tag c s) : Keeps s (mbWr fn tag c s) := by
  unfold mbWr
  refine .ite (statOvr_keeps ..) ?_
  exact (.of (mbStart_keeps ..) (.of (statStart_keeps ..) (rset_keeps ..)))

theorem mailbox_keeps (fn tag c s) : KeepsO s (mailbox fn tag c s) := by
  unfold mailbox
  refine (hostPf_keeps (h := fun s1 => ?_) ..)
  exact (mbWr_keeps ..)

theorem execGetInfo_keeps (fn tag s) : KeepsO s (execGetInfo fn tag s) := by
  unfold execGetInfo
  exact (mailbox_keeps ..)

theorem execFeatureSet_keeps (fn tag s) : KeepsO s (execFeatureSet fn tag s) := by
  unfold execFeatureSet
  exact (mailbox_keeps ..)

theorem execFeatureGet_keeps (fn tag s) : KeepsO s (execFeatureGet fn tag s) := by
  unfold execFeatureGet
  exact (mailbox_keeps ..)

theorem execStage_keeps (fn tag img s) : KeepsO s (execStage fn tag img s) := by
  unfold execStage
  exact (mailbox_keeps ..)

theorem execActivate_keeps (fn tag s) : KeepsO s (execActivate fn tag s) := by
  unfold execActivate
  exact (mailbox_keeps ..)

theorem execActivateCancel_keeps (fn tag s) : KeepsO s (execActivateCancel fn tag s) := by
  unfold execActivateCancel
  exact (mailbox_keeps ..)

theorem execSvnCommit_keeps (fn tag s) : KeepsO s (execSvnCommit fn tag s) := by
  unfold execSvnCommit
  exact (mailbox_keeps ..)

theorem execKeyRevoke_keeps (fn tag s) : KeepsO s (execKeyRevoke fn tag s) := by
  unfold execKeyRevoke
  exact (mailbox_keeps ..)

theorem execLogCfg_keeps (fn tag s) : KeepsO s (execLogCfg fn tag s) := by
  unfold execLogCfg
  exact (mailbox_keeps ..)

theorem execTraceCfg_keeps (fn tag s) : KeepsO s (execTraceCfg fn tag s) := by
  unfold execTraceCfg
  exact (mailbox_keeps ..)

theorem execStgBind_keeps (fn tag r s) : KeepsO s (execStgBind fn tag r s) := by
  unfold execStgBind
  exact (mailbox_keeps ..)

theorem execStgUnbind_keeps (fn tag s) : KeepsO s (execStgUnbind fn tag s) := by
  unfold execStgUnbind
  exact (mailbox_keeps ..)

theorem execSlowCfg_keeps (fn tag s) : KeepsO s (execSlowCfg fn tag s) := by
  unfold execSlowCfg
  exact (mailbox_keeps ..)

theorem execPtpCfg_keeps (fn tag s) : KeepsO s (execPtpCfg fn tag s) := by
  unfold execPtpCfg
  exact (mailbox_keeps ..)

theorem execRestart_keeps (fn tag s) : KeepsO s (execRestart fn tag s) := by
  unfold execRestart
  exact (mailbox_keeps ..)

theorem mbResume_keeps (s) : Keeps s (mbResume s) := by
  unfold mbResume
  refine .of (Keeps.foldl (fun s1 y2 => ?_)) (.same ⟨rfl, rfl, rfl, rfl, rfl⟩)
  exact (mbStart_keeps ..)

theorem mbRestarted_keeps (s core) : Keeps s (mbRestarted s core) := by
  unfold mbRestarted
  extract_lets +onlyGivenNames x1
  extract_lets +onlyGivenNames x2
  refine .of (Keeps.foldl (fun s3 y4 => ?_)) (.same ⟨rfl, rfl, rfl, rfl, rfl⟩)
  exact (mbReply_keeps ..)

theorem coreFails_keeps (s core cause pc) : KeepsO s (coreFails s core cause pc) := by
  unfold coreFails
  refine .ite (.next (.refl _)) ?_
  extract_lets +onlyGivenNames x1
  have h2 : Keeps s x1 := (restartCore_keeps ..)
  clear_value x1
  refine .next ?_
  refine .ite (.of (mbResume_keeps ..) h2) ?_
  exact h2

theorem execStewardWatchdog_keeps (core pc s) : KeepsO s (execStewardWatchdog core pc s) := by
  unfold execStewardWatchdog
  exact (coreFails_keeps ..)

theorem execStewardFault_keeps (core pc s) : KeepsO s (execStewardFault core pc s) := by
  unfold execStewardFault
  exact (coreFails_keeps ..)

theorem traceRestart_keeps (s n) : Keeps s (traceRestart s n) := by
  unfold traceRestart
  refine .ite (.refl _) ?_
  extract_lets +onlyGivenNames x1
  extract_lets +onlyGivenNames x2
  have h3 : Keeps s x2 := (stwOffer_keeps ..)
  clear_value x2
  exact (.of (nextFree_keeps ..) (.of (stwPut_keeps ..) h3))

theorem execStewardRestartDone_keeps (core s) : KeepsO s (execStewardRestartDone core s) := by
  unfold execStewardRestartDone
  extract_lets +onlyGivenNames x1
  extract_lets +onlyGivenNames x2
  refine .ite (.next (.refl _)) ?_
  extract_lets +onlyGivenNames x3
  extract_lets +onlyGivenNames x4
  extract_lets +onlyGivenNames x5
  have h6 : Keeps s x5 := (.same ⟨rfl, rfl, rfl, rfl, rfl⟩)
  clear_value x5
  extract_lets +onlyGivenNames x7
  have h8 : Keeps s x7 := (.of (logRecord_keeps ..) (.of (traceRestart_keeps ..) h6))
  clear_value x7
  extract_lets +onlyGivenNames x9
  have h10 : Keeps s x9 := by
    unfold x9
    split
    · exact (.of (mbReply_keeps ..) h8)
    · exact h8
  clear_value x9
  exact .next (.of (mbRestarted_keeps ..) h10)

theorem dropFeatures_keeps (s gone) : Keeps s (dropFeatures s gone) := by
  unfold dropFeatures
  refine Keeps.foldl (fun s1 y2 => ?_)
  exact (.of (nextFree_keeps ..) (.of (logRecord_keeps ..) (.same ⟨rfl, rfl, rfl, rfl, rfl⟩)))

theorem execActivationComplete_keeps (gone s) : KeepsO s (execActivationComplete gone s) := by
  unfold execActivationComplete
  refine .ite (.next (.refl _)) ?_
  extract_lets k who was
  split
  rename_i s1 r e
  have h1 : Keeps s s1 := by
    refine .fst e ?_
    split
    · split
      · exact .pair (.of (dropFeatures_keeps ..) (.of (measExtend_keeps ..) (.same ⟨rfl, rfl, rfl, rfl, rfl⟩)))
      · exact .pair (.same ⟨rfl, rfl, rfl, rfl, rfl⟩)
    · exact .pair (.same ⟨rfl, rfl, rfl, rfl, rfl⟩)
  extract_lets x0 x2 x3 x4
  have h2 : Keeps s x2 := h1.trans (.same ⟨rfl, rfl, rfl, rfl, rfl⟩)
  clear_value x2
  have h3 : Keeps s x3 := .ite (.of (nextFree_keeps ..) (.of (logRecord_keeps ..) h2)) h2
  clear_value x3
  have h4 : Keeps s x4 := by
    unfold x4
    clear_value who
    split
    · exact .of (mbReply_keeps ..) h3
    · exact h3
  exact .next (.of (mbResume_keeps ..) (.of (fwPoint_keeps ..) h4))

theorem execPtpMessage_keeps (port rate s) : KeepsO s (execPtpMessage port rate s) := by
  unfold execPtpMessage
  refine .ite (.next (.refl _)) ?_
  exact .next (.of (fwPoint_keeps ..) (.same ⟨rfl, rfl, rfl, rfl, rfl⟩))

theorem oob_keeps (via body s) (h : ∀ s, Keeps s (body s)) : KeepsO s (oob via body s) := by
  unfold oob
  split
  · exact .next (.refl _)
  · refine .ite (.next (.of (fwPoint_keeps ..) (h ..))) ?_
    exact .next (.refl _)

theorem execMctpControl_keeps (via eid s) : KeepsO s (execMctpControl via eid s) := by
  unfold execMctpControl
  refine (oob_keeps (h := fun s1 => ?_) ..)
  extract_lets +onlyGivenNames x2
  exact (.same ⟨rfl, rfl, rfl, rfl, rfl⟩)

theorem execPldmPlatform_keeps (via sensor s) : KeepsO s (execPldmPlatform via sensor s) := by
  unfold execPldmPlatform
  refine (oob_keeps (h := fun s1 => ?_) ..)
  extract_lets +onlyGivenNames x2
  extract_lets +onlyGivenNames x3
  exact (.same ⟨rfl, rfl, rfl, rfl, rfl⟩)

theorem execPldmFirmwareUpdate_keeps (via img s) : KeepsO s (execPldmFirmwareUpdate via img s) := by
  unfold execPldmFirmwareUpdate
  refine (oob_keeps (h := fun s1 => ?_) ..)
  split
  · rename_i s3 _ e5
    have h6 : Keeps s1 s3 := .fst e5 (doStage_keeps ..)
    exact (h6.trans (.same ⟨rfl, rfl, rfl, rfl, rfl⟩))

theorem execActivateFirmware_keeps (via s) : KeepsO s (execActivateFirmware via s) := by
  unfold execActivateFirmware
  refine (oob_keeps (h := fun s1 => ?_) ..)
  split
  · rename_i s3 _ e5
    have h6 : Keeps s1 s3 := .fst e5 (doActivate_keeps ..)
    exact (h6.trans (.same ⟨rfl, rfl, rfl, rfl, rfl⟩))

theorem slowCount_keeps (s port k) : Keeps s (slowCount s port k) := by
  unfold slowCount
  exact (.same ⟨rfl, rfl, rfl, rfl, rfl⟩)

theorem reassemble_keeps (s q f p) : Keeps s (reassemble s q f p) := by
  unfold reassemble
  split
  · split
    · exact (prismDrop_keeps ..)
    · extract_lets +onlyGivenNames x1
      extract_lets +onlyGivenNames x2
      extract_lets +onlyGivenNames x3
      extract_lets +onlyGivenNames x4
      extract_lets +onlyGivenNames x5
      extract_lets +onlyGivenNames x6
      refine .ite (.of (prismDrop_keeps ..) (.same ⟨rfl, rfl, rfl, rfl, rfl⟩)) ?_
      refine .ite (prismDrop_keeps ..) ?_
      extract_lets +onlyGivenNames x7
      extract_lets +onlyGivenNames x8
      refine .ite (.of (brmFrames_keeps ..) (.of (classify_keeps ..) (.same ⟨rfl, rfl, rfl, rfl, rfl⟩))) ?_
      exact (.same ⟨rfl, rfl, rfl, rfl, rfl⟩)

theorem slowDeliver_keeps (s f) : Keeps s (slowDeliver s f) := by
  unfold slowDeliver
  extract_lets +onlyGivenNames x1
  refine .ite (slowCount_keeps ..) ?_
  extract_lets +onlyGivenNames x2
  split
  · rename_i s4 e5
    have h6 : Keeps s s4 := .fst e5 (deliver_keeps ..)
    exact (.of (slowCount_keeps ..) h6)
  · rename_i s8 _ e10
    have h11 : Keeps s s8 := .fst e10 (deliver_keeps ..)
    refine .ite (.of (slowCount_keeps ..) h11) ?_
    exact (.of (prismDrop_keeps ..) h11)

theorem execSlowPathFrame_keeps (quad owned s) : KeepsO s (execSlowPathFrame quad owned s) := by
  unfold execSlowPathFrame
  split
  · exact .next (.refl _)
  · refine .ite (.next (.refl _)) ?_
    extract_lets +onlyGivenNames x1
    have h2 : Keeps s x1 := (.of (fwPoint_keeps ..) (.same ⟨rfl, rfl, rfl, rfl, rfl⟩))
    clear_value x1
    refine .next ?_
    refine .of (settle_keeps ..) ?_
    refine .ite (.of (slowCount_keeps ..) h2) ?_
    refine .ite ?_ ?_
    · split
      · exact (.of (reassemble_keeps ..) h2)
      · exact h2
    · refine .ite (.of (slowCount_keeps ..) h2) ?_
      exact (.of (slowDeliver_keeps ..) h2)

theorem execReassemblyTimeout_keeps (quad n s) : KeepsO s (execReassemblyTimeout quad n s) := by
  unfold execReassemblyTimeout
  split
  · exact .next (.refl _)
  · refine .ite (.next (.refl _)) ?_
    exact .next (.of (prismDrop_keeps ..) (.same ⟨rfl, rfl, rfl, rfl, rfl⟩))

end Sys2Proof.Machine
end

