-- ==== Sys2Proof/Laws/KeepsHost.lean ====
section
/-! SUPPORT. Lemmas of the relation `Keeps`: host registers, debug and configuration space. One lemma a function; each says what the function keeps. -/

namespace Sys2Proof.Machine

/-! ## Registers -/

theorem cmdPlain_keeps (s k v mask) : Keeps s (cmdPlain s k v mask) := by
  unfold cmdPlain
  extract_lets +onlyGivenNames x1
  exact (rset_keeps ..)

theorem clearOvr_keeps (s k v) : Keeps s (clearOvr s k v) := by
  unfold clearOvr
  refine .ite (rset_keeps ..) ?_
  exact (.refl _)

theorem devWr_keeps (fn o v s) : Keeps s (devWr fn o v s) := by
  unfold devWr
  refine .ite (devRstWr_keeps ..) ?_
  refine .ite ?_ ?_
  · refine .ite (.same ⟨rfl, rfl, rfl, rfl, rfl⟩) ?_
    exact (.refl _)
  · refine .ite ?_ ?_
    · refine .ite (rowCommand_keeps ..) ?_
      exact (cmdPlain_keeps ..)
    · refine .ite (clearOvr_keeps ..) ?_
      refine .ite ?_ ?_
      · refine .ite (rset_keeps ..) ?_
        exact (.refl _)
      · refine .ite (ctxSpillWrite_keeps ..) ?_
        refine .ite (fabCfgWr_keeps ..) ?_
        refine .ite (pairCfgWr_keeps ..) ?_
        refine .ite (pairCmdWr_keeps ..) ?_
        refine .ite ?_ ?_
        · refine .ite (.same ⟨rfl, rfl, rfl, rfl, rfl⟩) ?_
          exact (.refl _)
        · refine .ite (aperWr_keeps ..) ?_
          exact (.refl _)

theorem queueWr_keeps (fn vi o v s) : Keeps s (queueWr fn vi o v s) := by
  unfold queueWr
  refine .ite ?_ ?_
  · extract_lets +onlyGivenNames x1
    extract_lets +onlyGivenNames x2
    refine .ite (qBaseWr_keeps ..) ?_
    refine .ite ?_ ?_
    · refine .ite (cqCfgWr_keeps ..) ?_
      exact (sqCfgWr_keeps ..)
    · exact (.refl _)
  · refine .ite (sqDbWr_keeps ..) ?_
    exact (cqDbWr_keeps ..)

theorem gtCmdWr_keeps (fn vi v free s) : Keeps s (gtCmdWr fn vi v free s) := by
  unfold gtCmdWr
  extract_lets +onlyGivenNames x1
  split
  · refine (gtCmd_keeps (h := fun s2 => ?_) ..)
    exact (doMap_keeps ..)
  · refine (gtCmd_keeps (h := fun s3 => ?_) ..)
    exact (doUnmap_keeps ..)
  · refine (gtCmd_keeps (h := fun s4 => ?_) ..)
    exact (doSetattr_keeps ..)
  · refine (gtCmd_keeps (h := fun s5 => ?_) ..)
    exact (doGtRead_keeps ..)
  · exact (cmdPlain_keeps ..)

theorem peerWinWr_keeps (fn vi o v s) : Keeps s (peerWinWr fn vi o v s) := by
  unfold peerWinWr
  extract_lets +onlyGivenNames x1
  extract_lets +onlyGivenNames x2
  refine .ite (rset_keeps ..) ?_
  refine .ite (accessErr_keeps ..) ?_
  exact (rset_keeps ..)

theorem hostWinWr_keeps (fn vi v s) : Keeps s (hostWinWr fn vi v s) := by
  unfold hostWinWr
  extract_lets +onlyGivenNames x1
  extract_lets +onlyGivenNames x2
  refine .ite (.of (accessErr_keeps ..) (rset_keeps ..)) ?_
  exact (rset_keeps ..)

theorem wdogWr_keeps (fn vi v s) : Keeps s (wdogWr fn vi v s) := by
  unfold wdogWr
  refine .ite (accessErr_keeps ..) ?_
  exact (rset_keeps ..)

theorem viWrBody_keeps (fn vi o v free s) : Keeps s (viWrBody fn vi o v free s) := by
  unfold viWrBody
  refine .ite (viPollWr_keeps ..) ?_
  refine .ite (viShareWr_keeps ..) ?_
  refine .ite ?_ ?_
  · split
    · exact (resCommand_keeps ..)
    · exact (cmdPlain_keeps ..)
  · refine .ite (rset_keeps ..) ?_
    refine .ite (clearOvr_keeps ..) ?_
    refine .ite (viLimitsWr_keeps ..) ?_
    refine .ite (wdogWr_keeps ..) ?_
    refine .ite (rset_keeps ..) ?_
    refine .ite (hdlWrite_keeps ..) ?_
    refine .ite (rset_keeps ..) ?_
    refine .ite (evRingWr_keeps ..) ?_
    refine .ite (evAckWr_keeps ..) ?_
    refine .ite (evPostWr_keeps ..) ?_
    refine .ite (rstCmdWr_keeps ..) ?_
    refine .ite ?_ ?_
    · refine .ite (modInst_keeps ..) ?_
      exact (.refl _)
    · refine .ite (gtCmdWr_keeps ..) ?_
      refine .ite (rset_keeps ..) ?_
      refine .ite (clearOvr_keeps ..) ?_
      refine .ite (hostWinWr_keeps ..) ?_
      refine .ite (spillWriteReg_keeps ..) ?_
      refine .ite (spillWriteReg_keeps ..) ?_
      refine .ite (peerWinWr_keeps ..) ?_
      refine .ite (queueWr_keeps ..) ?_
      refine .ite ?_ ?_
      · refine .ite (rset_keeps ..) ?_
        refine .ite (rset_keeps ..) ?_
        exact (.refl _)
      · refine .ite ?_ ?_
        · extract_lets +onlyGivenNames x1
          extract_lets +onlyGivenNames x2
          refine .ite (ringBaseWr_keeps ..) ?_
          refine .ite ?_ ?_
          · refine .ite (txCfgWr_keeps ..) ?_
            exact (rxCfgWr_keeps ..)
          · exact (.refl _)
        · refine .ite ?_ ?_
          · split
            · exact (viShapeWr_keeps ..)
            · exact (.refl _)
          · exact (.refl _)

theorem viWr_keeps (fn vi o v free s) : Keeps s (viWr fn vi o v free s) := by
  unfold viWr
  refine .ite ?_ ?_
  · refine .ite (viWrBody_keeps ..) ?_
    exact (accessErr_keeps ..)
  · refine .ite (viWrBody_keeps ..) ?_
    refine .ite (viRefused_keeps ..) ?_
    exact (.refl _)

theorem irsWr_keeps (fn p o v s) : Keeps s (irsWr fn p o v s) := by
  unfold irsWr
  refine .ite ?_ ?_
  · refine .ite (.refl _) ?_
    exact (rset_keeps ..)
  · refine .ite (qCfgWr_keeps ..) ?_
    refine .ite (rset_keeps ..) ?_
    refine .ite (cShapeWr_keeps ..) ?_
    refine .ite (rset_keeps ..) ?_
    refine .ite (gclWr_keeps ..) ?_
    refine .ite (gclListWr_keeps ..) ?_
    refine .ite (smpRingWr_keeps ..) ?_
    refine .ite (smpCfgWr_keeps ..) ?_
    refine .ite (rset_keeps ..) ?_
    exact (.refl _)

theorem portWr_keeps (fn p o v free s) : Keeps s (portWr fn p o v free s) := by
  unfold portWr
  refine .ite (prmModeWr_keeps ..) ?_
  refine .ite (clearOvr_keeps ..) ?_
  refine .ite (prmCmdWr_keeps ..) ?_
  refine .ite (rset_keeps ..) ?_
  refine .ite (rset_keeps ..) ?_
  refine .ite (prmRangeWr_keeps ..) ?_
  refine .ite (prmMirWr_keeps ..) ?_
  refine .ite (prmFlowWr_keeps ..) ?_
  refine .ite (rset_keeps ..) ?_
  refine .ite (irsWr_keeps ..) ?_
  refine .ite (phyCfgWr_keeps ..) ?_
  exact (.refl _)

theorem synWr_keeps (fn o v s) : Keeps s (synWr fn o v s) := by
  unfold synWr
  refine .ite ?_ ?_
  · split
    · exact (synCommand_keeps ..)
    · exact (cmdPlain_keeps ..)
  · refine .ite (rset_keeps ..) ?_
    refine .ite (rset_keeps ..) ?_
    refine .ite (clearOvr_keeps ..) ?_
    refine .ite (rset_keeps ..) ?_
    exact (.refl _)

theorem untWr_keeps (fn o v s) : Keeps s (untWr fn o v s) := by
  unfold untWr
  refine .ite (rset_keeps ..) ?_
  refine .ite (rset_keeps ..) ?_
  refine .ite ?_ ?_
  · split
    · exact (cmpCommand_keeps ..)
    · exact (cmdPlain_keeps ..)
  · refine .ite (rset_keeps ..) ?_
    refine .ite (clearOvr_keeps ..) ?_
    refine .ite (rset_keeps ..) ?_
    exact (.refl _)

theorem errWr_keeps (fn o v s) : Keeps s (errWr fn o v s) := by
  unfold errWr
  refine .ite ?_ ?_
  · refine .ite (.same ⟨rfl, rfl, rfl, rfl, rfl⟩) ?_
    exact (.refl _)
  · refine .ite (errAckWr_keeps ..) ?_
    refine .ite (errCfgWr_keeps ..) ?_
    refine .ite (rset_keeps ..) ?_
    refine .ite (fctOffWr_keeps ..) ?_
    exact (.refl _)

theorem trcWr_keeps (fn o v s) : Keeps s (trcWr fn o v s) := by
  unfold trcWr
  refine .ite (trcCfgWr_keeps ..) ?_
  refine .ite (trcHostWr_keeps ..) ?_
  refine .ite (trcAckWr_keeps ..) ?_
  refine .ite (trcTrigWr_keeps ..) ?_
  refine .ite (trcStwWr_keeps ..) ?_
  refine .ite (rset_keeps ..) ?_
  refine .ite (trcMarkWr_keeps ..) ?_
  refine .ite (rset_keeps ..) ?_
  refine .ite (rset_keeps ..) ?_
  refine .ite (clearOvr_keeps ..) ?_
  exact (.refl _)

theorem cntWr_keeps (fn o v s) : Keeps s (cntWr fn o v s) := by
  unfold cntWr
  refine .ite (rset_keeps ..) ?_
  refine .ite (cntCfgWr_keeps ..) ?_
  refine .ite (cntIdxWr_keeps ..) ?_
  refine .ite ?_ ?_
  · extract_lets +onlyGivenNames x1
    extract_lets +onlyGivenNames x2
    refine .ite (cntSmpRingWr_keeps ..) ?_
    refine .ite (cntSmpWr_keeps ..) ?_
    refine .ite (cntSmpRingWr_keeps ..) ?_
    refine .ite (rset_keeps ..) ?_
    exact (.refl _)
  · exact (.refl _)

theorem pwrWr_keeps (o v s) : Keeps s (pwrWr o v s) := by
  unfold pwrWr
  refine .ite (pwrCmdWr_keeps ..) ?_
  refine .ite (clearOvr_keeps ..) ?_
  refine .ite (pwrCfgWr_keeps ..) ?_
  refine .ite (rset_keeps ..) ?_
  refine .ite (rset_keeps ..) ?_
  refine .ite ?_ ?_
  · refine .ite (.same ⟨rfl, rfl, rfl, rfl, rfl⟩) ?_
    exact (.refl _)
  · refine .ite (cluFreqWr_keeps ..) ?_
    exact (.refl _)

theorem secWr_keeps (fn o v s) : Keeps s (secWr fn o v s) := by
  unfold secWr
  refine .ite (rset_keeps ..) ?_
  refine .ite (secKeyWr_keeps ..) ?_
  refine .ite (rset_keeps ..) ?_
  refine .ite (clearOvr_keeps ..) ?_
  refine .ite (msecCfgWr_keeps ..) ?_
  exact (.refl _)

theorem fwWr_keeps (fn o v s) : Keeps s (fwWr fn o v s) := by
  unfold fwWr
  refine .ite ?_ ?_
  · refine .ite (rset_keeps ..) ?_
    exact (mbWr_keeps ..)
  · refine .ite (rset_keeps ..) ?_
    refine .ite (clearOvr_keeps ..) ?_
    refine .ite (rset_keeps ..) ?_
    refine .ite (logRingWr_keeps ..) ?_
    refine .ite (logAckWr_keeps ..) ?_
    exact (.refl _)

theorem pfWr_keeps (fn off v free s) : Keeps s (pfWr fn off v free s) := by
  unfold pfWr
  refine .ite ?_ ?_
  · refine .ite (rmaCfgWr_keeps ..) ?_
    exact (.refl _)
  · refine .ite (errWr_keeps ..) ?_
    refine .ite (trcWr_keeps ..) ?_
    refine .ite (cntWr_keeps ..) ?_
    refine .ite ?_ ?_
    · refine .ite (snpCmdWr_keeps ..) ?_
      refine .ite (rset_keeps ..) ?_
      refine .ite (clearOvr_keeps ..) ?_
      refine .ite (rset_keeps ..) ?_
      exact (.refl _)
    · refine .ite ?_ ?_
      · refine .ite (mtrReqWr_keeps ..) ?_
        refine .ite (rset_keeps ..) ?_
        refine .ite (clearOvr_keeps ..) ?_
        exact (.refl _)
      · refine .ite ?_ ?_
        · refine .ite ?_ ?_
          · refine .ite (rset_keeps ..) ?_
            exact (.refl _)
          · refine .ite (chcfgWr_keeps ..) ?_
            exact (.refl _)
        · refine .ite (pwrWr_keeps ..) ?_
          refine .ite (secWr_keeps ..) ?_
          refine .ite (fwWr_keeps ..) ?_
          exact (.refl _)

theorem regWriteBase_keeps (fn off v s) : Keeps s (regWriteBase fn off v s) := by
  unfold regWriteBase
  extract_lets +onlyGivenNames x1
  extract_lets +onlyGivenNames x2
  have h3 : Keeps s x2 := by
    unfold x2
    refine .ite (.refl _) ?_
    refine .ite ?_ ?_
    · refine .ite (devWr_keeps ..) ?_
      exact (.refl _)
    · refine .ite ?_ ?_
      · refine .ite (viWr_keeps ..) ?_
        refine .ite (viWr_keeps ..) ?_
        exact (.refl _)
      · refine .ite ?_ ?_
        · refine .ite ?_ ?_
          · split
            · exact (portWr_keeps ..)
            · exact (.refl _)
          · refine .ite (queueWr_keeps ..) ?_
            exact (.refl _)
        · refine .ite (synWr_keeps ..) ?_
          refine .ite (untWr_keeps ..) ?_
          refine .ite (pfWr_keeps ..) ?_
          exact (.refl _)
  clear_value x2
  exact (.of (nextFree_keeps ..) h3)

theorem asReached_keeps (fn off body s) (h : ∀ s, Keeps s (body s)) : Keeps s (asReached fn off body s) := by
  unfold asReached
  refine .ite ?_ ?_
  · extract_lets +onlyGivenNames x1
    extract_lets +onlyGivenNames x2
    refine .ite ?_ ?_
    · refine .ite (h ..) ?_
      exact (accessErr_keeps ..)
    · refine .ite (.refl _) ?_
      refine .ite (h ..) ?_
      refine .ite (viRefused_keeps ..) ?_
      exact (.refl _)
  · refine .ite (h ..) ?_
    refine .ite (h ..) ?_
    exact (.refl _)

theorem smpLowWr_keeps (fn k v s) : Keeps s (smpLowWr fn k v s) := by
  unfold smpLowWr
  extract_lets +onlyGivenNames x1
  refine .ite (accessErr_keeps ..) ?_
  exact (rset_keeps ..)

theorem halfWr_keeps (wr fn off v s) (h : ∀ b0 b1 b2 s, Keeps s (wr b0 b1 b2 s)) : Keeps s (halfWr wr fn off v s) := by
  unfold halfWr
  extract_lets +onlyGivenNames x1
  extract_lets +onlyGivenNames x2
  extract_lets +onlyGivenNames x3
  extract_lets +onlyGivenNames x4
  extract_lets +onlyGivenNames x5
  refine .ite ?_ ?_
  · split
    · refine (asReached_keeps (h := fun s6 => ?_) ..)
      exact (rset_keeps ..)
    · exact (h ..)
  · refine .ite (.refl _) ?_
    refine .ite (smpLowWr_keeps ..) ?_
    split
    · extract_lets +onlyGivenNames x7
      have h8 : Keeps s x7 := (h ..)
      clear_value x7
      exact (.of (rset_keeps ..) h8)
    · exact (h ..)

/-! ## Debug -/

theorem stwRead_keeps (s fn n a) : Keeps s (stwRead s fn n a).1 := by
  unfold stwRead
  split
  · split
    · exact (.pair (nextFree_keeps ..))
    · exact (.pair (accessErrUnit_keeps ..))
  · split
    · exact (.pair (.refl _))
    · split
      · exact (.pair (nextFree_keeps ..))
      · exact (.pair (accessErrUnit_keeps ..))

theorem stwWrite_keeps (dbg fn n a v s) (h : ∀ b0 s, Keeps s (dbg b0 s)) : Keeps s (stwWrite dbg fn n a v s) := by
  unfold stwWrite
  refine .ite ?_ ?_
  · refine .ite (accessErrUnit_keeps ..) ?_
    refine .ite (h ..) ?_
    refine .ite (.refl _) ?_
    exact (regWriteBase_keeps ..)
  · refine .ite (.refl _) ?_
    exact (accessErrUnit_keeps ..)

theorem haltSeen_keeps (s op arg data) : Keeps s (haltSeen s op arg data) := by
  unfold haltSeen
  exact (.of (trcTrigger_keeps ..) (debugSeen_keeps ..))

theorem haltThread_keeps (s index launch) : Keeps s (haltThread s index launch).1 := by
  unfold haltThread
  split
  · split
    · exact (.pair (.refl _))
    · extract_lets +onlyGivenNames x1
      have h2 : Keeps s x1 := (haltSeen_keeps ..)
      clear_value x1
      split
      · exact (.pair (.of (putThr_keeps ..) h2))
      · exact (.pair (.of (beginSave_keeps ..) h2))
  · split
    · exact (.pair (.refl _))
    · split
      · exact (.pair (.refl _))
      · extract_lets +onlyGivenNames x3
        have h4 : Keeps s x3 := (.same ⟨rfl, rfl, rfl, rfl, rfl⟩)
        clear_value x3
        exact (.pair (.of (haltSeen_keeps ..) h4))

theorem unhaltThread_keeps (s vi a) : Keeps s (unhaltThread s vi a).1 := by
  unfold unhaltThread
  split
  · exact (.pair (.refl _))
  · extract_lets +onlyGivenNames x1
    extract_lets +onlyGivenNames x2
    have h3 : Keeps s x2 := (.same ⟨rfl, rfl, rfl, rfl, rfl⟩)
    clear_value x2
    exact (.pair (.of (resumeSaved_keeps ..) h3))

theorem endHalted_keeps (s vi a status) : Keeps s (endHalted s vi a status).1 := by
  unfold endHalted
  split
  · exact (.pair (.refl _))
  · exact (.pair (endSaved_keeps ..))

theorem setHalt_keeps (s n h) : Keeps s (setHalt s n h) := by
  unfold setHalt
  exact (.same ⟨rfl, rfl, rfl, rfl, rfl⟩)

theorem haltCore_keeps (s n) : Keeps s (haltCore s n).1 := by
  unfold haltCore
  split
  · exact (.pair (.refl _))
  · exact (.pair (.of (haltSeen_keeps ..) (setHalt_keeps ..)))

theorem stepCore_keeps (s n) : Keeps s (stepCore s n).1 := by
  unfold stepCore
  split
  · exact (.pair (.refl _))
  · exact (.pair (.refl _))

theorem unhaltCore_keeps (s n) : Keeps s (unhaltCore s n).1 := by
  unfold unhaltCore
  split
  · exact (.pair (.of (mbResume_keeps ..) (setHalt_keeps ..)))
  · exact (.pair (.refl _))

theorem physRefused_keeps (s a) : Keeps s (physRefused s a) := by
  unfold physRefused
  refine .ite (accessErrUnit_keeps ..) ?_
  exact (.refl _)

theorem readPhys_keeps (s a) : Keeps s (readPhys s a).1 := by
  unfold readPhys
  split
  · exact (.pair (physRefused_keeps ..))
  · split
    · rename_i s2 _ _ e5
      have h6 : Keeps s s2 := .fst e5 (devRead_keeps ..)
      exact h6

theorem writePhys_keeps (s a v) : Keeps s (writePhys s a v).1 := by
  unfold writePhys
  split
  · exact (.pair (devWrite_keeps ..))
  · exact (.pair (physRefused_keeps ..))

theorem readSreg_keeps (s a) : Keeps s (readSreg s a).1 := by
  unfold readSreg
  split
  · exact (.pair (.refl _))
  · split
    · rename_i s2 _ e4
      have h5 : Keeps s s2 := .fst e4 (stwRead_keeps ..)
      exact h5

theorem writeSreg_keeps (s a v) : Keeps s (writeSreg s a v).1 := by
  unfold writeSreg
  split
  · refine .pair ?_
    refine (stwWrite_keeps (h := fun y1 s2 => ?_) ..)
    refine .ite (rset_keeps ..) ?_
    exact (statOvr_keeps ..)
  · exact (.pair (.refl _))

theorem dbgDo_keeps (s op) : Keeps s (dbgDo s op).1 := by
  unfold dbgDo
  extract_lets +onlyGivenNames x1
  extract_lets +onlyGivenNames x2
  split
  · exact (readPhys_keeps ..)
  · exact (writePhys_keeps ..)
  · exact (readSreg_keeps ..)
  · exact (writeSreg_keeps ..)
  · exact (haltThread_keeps ..)
  · exact (unhaltThread_keeps ..)
  · exact (endHalted_keeps ..)
  · exact (haltCore_keeps ..)
  · exact (stepCore_keeps ..)
  · exact (unhaltCore_keeps ..)

theorem dbgEnd_keeps (r) : Keeps r.1 (dbgEnd r) := by
  unfold dbgEnd
  split
  · exact (.refl _)
  · refine .of (statDone_keeps ..) ?_
    split
    · exact (rset_keeps ..)
    · exact (.refl _)

theorem dbgCmdWr_keeps (op s) : Keeps s (dbgCmdWr op s) := by
  unfold dbgCmdWr
  refine .ite (rset_keeps ..) ?_
  refine .ite (.refl _) ?_
  refine .ite (statOvr_keeps ..) ?_
  exact (.of (dbgEnd_keeps ..) (.of (dbgDo_keeps ..) (.of (statStart_keeps ..) (rset_keeps ..))))

theorem regWrite_keeps (fn off v s) : Keeps s (regWrite fn off v s) := by
  unfold regWrite
  refine .ite (dbgCmdWr_keeps ..) ?_
  exact (regWriteBase_keeps ..)

theorem dbgWake_keeps (s cause) : Keeps s (dbgWake s cause) := by
  unfold dbgWake
  refine .ite (.same ⟨rfl, rfl, rfl, rfl, rfl⟩) ?_
  exact (.refl _)

theorem dbgPf_keeps (fn ws s) : KeepsO s (dbgPf fn ws s) := by
  unfold dbgPf
  split
  · exact .next (.refl _)
  · refine .next ?_
    refine Keeps.foldl (fun s1 y2 => ?_)
    exact (aerReq_keeps ..)
  · exact .next (.refl _)
  · exact .next (.of (dbgWake_keeps ..) (.same ⟨rfl, rfl, rfl, rfl, rfl⟩))
  · exact .next (.of (stopEntry_keeps ..) (.same ⟨rfl, rfl, rfl, rfl, rfl⟩))
  · refine .next ?_
    refine .of (settle_keeps ..) ?_
    refine .of (Keeps.foldl (fun s3 y4 => ?_)) (stopEntry_keeps ..)
    exact (regWrite_keeps ..)

theorem dbgSelect_keeps (s) : Keeps s (dbgSelect s) := by
  unfold dbgSelect
  extract_lets +onlyGivenNames x1
  have h2 : Keeps s x1 := by
    unfold x1
    refine .ite (.refl _) ?_
    exact (debugSeen_keeps ..)
  clear_value x1
  exact (h2.trans (.same ⟨rfl, rfl, rfl, rfl, rfl⟩))

theorem dbgUpdate_keeps (op a d s) : Keeps s (dbgUpdate op a d s) := by
  unfold dbgUpdate
  refine .ite (.refl _) ?_
  refine .ite ?_ ?_
  · refine .ite (.refl _) ?_
    refine .ite (statOvr_keeps ..) ?_
    exact (.of (nextFree_keeps ..) (.of (dbgWake_keeps ..) (.same ⟨rfl, rfl, rfl, rfl, rfl⟩)))
  · refine .ite (statOvr_keeps ..) ?_
    exact (.of (dbgCmdWr_keeps ..) (.of (rset_keeps ..) (rset_keeps ..)))

theorem execDbgacc_keeps (op addr data s) : KeepsO s (execDbgacc op addr data s) := by
  unfold execDbgacc
  refine .ite (.next (.of (settle_keeps ..) (.of (dbgUpdate_keeps ..) (dbgSelect_keeps ..)))) ?_
  exact .next (.refl _)

theorem dbgCommand_keeps (via op addr data s) : KeepsO s (dbgCommand via op addr data s) := by
  unfold dbgCommand
  split
  · exact (execDbgacc_keeps ..)
  · exact (dbgPf_keeps ..)

theorem execReadPhys_keeps (via addr s) : KeepsO s (execReadPhys via addr s) := by
  unfold execReadPhys
  exact (dbgCommand_keeps ..)

theorem execWritePhys_keeps (via addr data s) : KeepsO s (execWritePhys via addr data s) := by
  unfold execWritePhys
  exact (dbgCommand_keeps ..)

theorem execReadSreg_keeps (via addr s) : KeepsO s (execReadSreg via addr s) := by
  unfold execReadSreg
  exact (dbgCommand_keeps ..)

theorem execWriteSreg_keeps (via addr data s) : KeepsO s (execWriteSreg via addr data s) := by
  unfold execWriteSreg
  exact (dbgCommand_keeps ..)

theorem execHaltThread_keeps (via index launch s) : KeepsO s (execHaltThread via index launch s) := by
  unfold execHaltThread
  exact (dbgCommand_keeps ..)

theorem execResumeThread_keeps (via vi rec_ s) : KeepsO s (execResumeThread via vi rec_ s) := by
  unfold execResumeThread
  exact (dbgCommand_keeps ..)

theorem execEndThread_keeps (via vi rec_ status s) : KeepsO s (execEndThread via vi rec_ status s) := by
  unfold execEndThread
  exact (dbgCommand_keeps ..)

theorem execHaltCore_keeps (via core s) : KeepsO s (execHaltCore via core s) := by
  unfold execHaltCore
  exact (dbgCommand_keeps ..)

theorem execStepCore_keeps (via core s) : KeepsO s (execStepCore via core s) := by
  unfold execStepCore
  exact (dbgCommand_keeps ..)

theorem execResumeCore_keeps (via core s) : KeepsO s (execResumeCore via core s) := by
  unfold execResumeCore
  exact (dbgCommand_keeps ..)

theorem boundary__keeps (ir shift s) : KeepsO s (boundary_ ir shift s) := by
  unfold boundary_
  refine .ite (.next (.of (nextFree_keeps ..) (.same ⟨rfl, rfl, rfl, rfl, rfl⟩))) ?_
  exact .next (.refl _)

theorem execExtest_keeps (shift s) : KeepsO s (execExtest shift s) := by
  unfold execExtest
  exact (boundary__keeps ..)

theorem execSamplePreload_keeps (shift s) : KeepsO s (execSamplePreload shift s) := by
  unfold execSamplePreload
  exact (boundary__keeps ..)

theorem execIdcode_keeps (s) : KeepsO s (execIdcode s) := by
  unfold execIdcode
  refine .ite (.next (.same ⟨rfl, rfl, rfl, rfl, rfl⟩)) ?_
  exact .next (.refl _)

theorem execBypass_keeps (s) : KeepsO s (execBypass s) := by
  unfold execBypass
  refine .ite (.next (.same ⟨rfl, rfl, rfl, rfl, rfl⟩)) ?_
  exact .next (.refl _)

theorem execTapReset_keeps (s) : KeepsO s (execTapReset s) := by
  unfold execTapReset
  refine .ite (.next (.same ⟨rfl, rfl, rfl, rfl, rfl⟩)) ?_
  exact .next (.refl _)

/-! ## HostRead -/

theorem regAnswer_keeps (fn off w s) : Keeps s (regAnswer fn off w s) := by
  unfold regAnswer
  extract_lets +onlyGivenNames x1
  refine .ite (.of (answerHost_keeps ..) (accessErr_keeps ..)) ?_
  exact (.of (nextFree_keeps ..) (answerHost_keeps ..))

theorem hostRd_keeps (fn off w s) : KeepsO s (hostRd fn off w s) := by
  unfold hostRd
  extract_lets +onlyGivenNames x1
  have h2 : Keeps s x1 := (answerHost_keeps ..)
  clear_value x1
  split
  · exact .next (.refl _)
  · exact .next (.of (aerReq_keeps ..) (answerHost_keeps ..))
  · exact .next h2
  · exact .next (.of (startWake_keeps ..) h2)
  · exact .next (.of (stopEntry_keeps ..) (.same ⟨rfl, rfl, rfl, rfl, rfl⟩))
  · exact .next (.of (regAnswer_keeps ..) (stopEntry_keeps ..))

theorem execUntCntvalRead_keeps (rd s) : KeepsO s (execUntCntvalRead rd s) := by
  unfold execUntCntvalRead
  exact (hostRd_keeps ..)

/-! ## Late -/

theorem doTresume_keeps (s vi a) : Keeps s (doTresume s vi a) := by
  unfold doTresume
  split
  · split
    · exact (.refl _)
    · split
      · rename_i s2 _ _ e5
        have h6 : Keeps s s2 := .fst e5 (spillRead_keeps ..)
        refine .ite (.of (endTrapped_keeps ..) h6) ?_
        exact (.of (resumeIn_keeps ..) (.of (spillFree_keeps ..) h6))
  · split
    · exact (.refl _)
    · split
      · rename_i s8 _ _ e11
        have h12 : Keeps s s8 := .fst e11 (spillRead_keeps ..)
        refine .ite (.of (endSaved_keeps ..) h12) ?_
        exact (h12.trans (.same ⟨rfl, rfl, rfl, rfl, rfl⟩))

theorem doTendOther_keeps (s vi a status) : Keeps s (doTendOther s vi a status) := by
  unfold doTendOther
  split
  · exact (endTrapped_keeps ..)
  · split
    · exact (endSaved_keeps ..)
    · exact (.refl _)

theorem takeEvent_keeps (s t th o) : Keeps s (takeEvent s t th o) := by
  unfold takeEvent
  extract_lets +onlyGivenNames x1
  refine .ite (.refl _) ?_
  extract_lets +onlyGivenNames x2
  extract_lets +onlyGivenNames x3
  have h4 : Keeps s x3 := (modInst_keeps ..)
  clear_value x3
  extract_lets +onlyGivenNames x5
  exact (.of (opDone_keeps ..) (.of (putThr_keeps ..) h4))

theorem memComplete_keeps (s t th o status ext) : Keeps s (memComplete s t th o status ext) := by
  unfold memComplete
  refine .ite (.refl _) ?_
  extract_lets +onlyGivenNames x1
  have h2 : Keeps s x1 := by
    unfold x1
    refine .ite (aerReq_keeps ..) ?_
    exact (.refl _)
  clear_value x1
  split
  · rename_i s4 _ e6
    have h7 : Keeps s s4 := .fst e6 (.of (performAct_keeps ..) h2)
    split
    · exact h7
    · exact (.of (putThr_keeps ..) h7)

theorem loadDone_keeps (s t th o status data) : Keeps s (loadDone s t th o status data) := by
  unfold loadDone
  refine .ite (memComplete_keeps ..) ?_
  split
  · exact (takeEvent_keeps ..)
  · split
    · rename_i s2 _ e4
      have h5 : Keeps s s2 := .fst e4 (stwRead_keeps ..)
      exact (.of (opDone_keeps ..) h5)
  · exact (.refl _)

theorem storeDone_keeps (s t th o status) : Keeps s (storeDone s t th o status) := by
  unfold storeDone
  refine .ite (memComplete_keeps ..) ?_
  split
  · exact (.of (doTresume_keeps ..) (stDone_keeps ..))
  · exact (.of (doTendOther_keeps ..) (stDone_keeps ..))
  · refine .of (stwWrite_keeps (h := fun y1 s2 => ?_) ..) (stDone_keeps ..)
    exact (dbgCmdWr_keeps ..)
  · exact (.of (postEvent_keeps ..) (stDone_keeps ..))
  · exact (.refl _)

theorem execLoadComplete_keeps (t op status data s) : KeepsO s (execLoadComplete t op status data s) := by
  unfold execLoadComplete
  split
  · exact .next (.refl _)
  · split
    · exact .next (.refl _)
    · refine .ite (.next (.of (settle_keeps ..) (loadDone_keeps ..))) ?_
      exact .next (.refl _)

theorem execStoreComplete_keeps (t op status s) : KeepsO s (execStoreComplete t op status s) := by
  unfold execStoreComplete
  split
  · exact .next (.refl _)
  · split
    · exact .next (.refl _)
    · refine .ite (.next (.of (settle_keeps ..) (storeDone_keeps ..))) ?_
      exact .next (.refl _)

theorem heldPerform_keeps (s h) : Keeps s (heldPerform s h) := by
  unfold heldPerform
  split
  · exact (regWrite_keeps ..)
  · refine (halfWr_keeps (h := fun y1 y2 y3 s4 => ?_) ..)
    exact (regWrite_keeps ..)
  · exact (aperWrite_keeps ..)
  · exact (dbgUpdate_keeps ..)
  · exact (regAnswer_keeps ..)

theorem releaseHost_keeps (s) : Keeps s (releaseHost s) := by
  unfold releaseHost
  refine .of (Keeps.foldl (fun s1 y2 => ?_)) (.same ⟨rfl, rfl, rfl, rfl, rfl⟩)
  refine .ite (.same ⟨rfl, rfl, rfl, rfl, rfl⟩) ?_
  exact (heldPerform_keeps ..)

theorem execWakeComplete_keeps (s) : KeepsO s (execWakeComplete s) := by
  unfold execWakeComplete
  refine .ite (.next (.refl _)) ?_
  exact .next (.of (settle_keeps ..) (.of (mbResume_keeps ..) (.of (releaseHost_keeps ..) (.of (portsTrain_keeps ..) (toBright_keeps ..)))))

/-! ## ConfigSpace -/

theorem cfgPlain_keeps (s k d m v mask) : Keeps s (cfgPlain s k d m v mask) := by
  unfold cfgPlain
  refine .ite (.refl _) ?_
  exact (rset_keeps ..)

theorem cfgCommand_keeps (fn m v s) : Keeps s (cfgCommand fn m v s) := by
  unfold cfgCommand
  extract_lets +onlyGivenNames x1
  have h2 : Keeps s x1 := by
    unfold x1
    refine .ite (modCfg_keeps ..) ?_
    exact (.refl _)
  clear_value x1
  refine .ite (.of (bmeWr_keeps ..) h2) ?_
  exact h2

theorem cfgPower_keeps (fn m v s) : Keeps s (cfgPower fn m v s) := by
  unfold cfgPower
  refine .ite (.refl _) ?_
  refine .ite (d3Wr_keeps ..) ?_
  refine .ite (d3Wr_keeps ..) ?_
  exact (.refl _)

theorem cfgDevCtl_keeps (fn m v s) : Keeps s (cfgDevCtl fn m v s) := by
  unfold cfgDevCtl
  extract_lets +onlyGivenNames x1
  have h2 : Keeps s x1 := (modCfg_keeps ..)
  clear_value x1
  refine .ite (.of (flrStart_keeps ..) h2) ?_
  exact h2

theorem cfgDevCtl2_keeps (fn m v s) : Keeps s (cfgDevCtl2 fn m v s) := by
  unfold cfgDevCtl2
  exact (modCfg_keeps ..)

theorem cfgAer_keeps (fn d m v s) : Keeps s (cfgAer fn d m v s) := by
  unfold cfgAer
  extract_lets +onlyGivenNames x1
  extract_lets +onlyGivenNames x2
  exact (modCfg_keeps ..)

theorem cfgSriov_keeps (fn m v s) : Keeps s (cfgSriov fn m v s) := by
  unfold cfgSriov
  extract_lets +onlyGivenNames x1
  have h2 : Keeps s x1 := (modCfg_keeps ..)
  clear_value x1
  refine .ite (.of (vfEnWr_keeps ..) h2) ?_
  exact h2

theorem cfgIde_keeps (fn i o m v s) : Keeps s (cfgIde fn i o m v s) := by
  unfold cfgIde
  extract_lets +onlyGivenNames x1
  extract_lets +onlyGivenNames x2
  extract_lets +onlyGivenNames x3
  exact (.of (ideResume_keeps ..) (setIde_keeps ..))

theorem cfgWr_keeps (fn d m v s) : Keeps s (cfgWr fn d m v s) := by
  unfold cfgWr
  extract_lets +onlyGivenNames x1
  refine .ite (cfgCommand_keeps ..) ?_
  refine .ite (cfgPower_keeps ..) ?_
  refine .ite (cfgDevCtl_keeps ..) ?_
  refine .ite (cfgDevCtl2_keeps ..) ?_
  refine .ite (cfgAer_keeps ..) ?_
  refine .ite ?_ ?_
  · refine .ite (modCfg_keeps ..) ?_
    exact (.refl _)
  · refine .ite (cfgSriov_keeps ..) ?_
    refine .ite ?_ ?_
    · refine .ite (numVfsWr_keeps ..) ?_
      exact (.refl _)
    · refine .ite (cfgIde_keeps ..) ?_
      exact (cfgPlain_keeps ..)

theorem captureBus_keeps (fn bus s) : Keeps s (captureBus fn bus s) := by
  unfold captureBus
  exact (modCfg_keeps ..)

theorem swReset_keeps (s p on) : Keeps s (swReset s p on) := by
  unfold swReset
  extract_lets +onlyGivenNames x1
  refine .ite (.refl _) ?_
  refine .ite (.of (linkLoss_keeps ..) (.same ⟨rfl, rfl, rfl, rfl, rfl⟩)) ?_
  exact (.of (trainPort_keeps ..) (.same ⟨rfl, rfl, rfl, rfl, rfl⟩))

theorem endpointReset_keeps (s port) : Keeps s (endpointReset s port) := by
  unfold endpointReset
  refine .ite (flrStart_keeps ..) ?_
  exact (.refl _)

theorem swBridge_keeps (n m v s) : Keeps s (swBridge n m v s) := by
  unfold swBridge
  refine .ite (.refl _) ?_
  extract_lets +onlyGivenNames x1
  refine .ite (swReset_keeps ..) ?_
  extract_lets +onlyGivenNames x2
  have h3 : Keeps s x2 := by
    unfold x2
    refine .ite (.refl _) ?_
    refine Keeps.foldl (fun s4 y5 => ?_)
    exact (swReset_keeps ..)
  clear_value x2
  refine .ite (.of (endpointReset_keeps ..) h3) ?_
  exact h3

theorem swLinkEn_keeps (port f s) : Keeps s (swLinkEn port f s) := by
  unfold swLinkEn
  exact (.same ⟨rfl, rfl, rfl, rfl, rfl⟩)

theorem swWr_keeps (n d m v s) : Keeps s (swWr n d m v s) := by
  unfold swWr
  extract_lets +onlyGivenNames x1
  extract_lets +onlyGivenNames x2
  extract_lets +onlyGivenNames x3
  refine .ite (swBridge_keeps ..) ?_
  refine .ite ?_ ?_
  · refine .ite (swLinkEn_keeps ..) ?_
    exact (.refl _)
  · iterate 2
      refine .ite ?_ ?_
      · unfold x3
        exact (.same ⟨rfl, rfl, rfl, rfl, rfl⟩)
    refine .ite ?_ ?_
    · extract_lets +onlyGivenNames x4
      refine .ite ?_ ?_
      · unfold x3
        exact (.same ⟨rfl, rfl, rfl, rfl, rfl⟩)
      · exact (.refl _)
    · refine .ite ?_ ?_
      · refine .ite ?_ ?_
        · refine .of (trainPort_keeps ..) ?_
          unfold x3
          exact (.same ⟨rfl, rfl, rfl, rfl, rfl⟩)
        · exact (.refl _)
      · refine .ite ?_ ?_
        · exact .ite (swLinkEn_keeps ..) (.refl _)
        · refine .ite ?_ ?_
          · exact .ite (swLinkEn_keeps ..) (.refl _)
          · refine .ite ?_ ?_
            · unfold x3
              exact (.same ⟨rfl, rfl, rfl, rfl, rfl⟩)
            · exact (cfgPlain_keeps ..)

theorem hostHalf_keeps (fn off v s) : KeepsO s (hostHalf fn off v s) := by
  unfold hostHalf
  split
  · exact .next (.refl _)
  · exact .next (aerReq_keeps ..)
  · exact .next (.refl _)
  · extract_lets +onlyGivenNames x1
    have h2 : Keeps s x1 := (.same ⟨rfl, rfl, rfl, rfl, rfl⟩)
    clear_value x1
    extract_lets +onlyGivenNames x3
    have h4 : Keeps s x3 := by
      unfold x3
      refine .ite (.of (dbgWake_keeps ..) h2) ?_
      exact h2
    clear_value x3
    extract_lets +onlyGivenNames x5
    have h6 : Keeps s x5 := by
      unfold x5
      refine .ite (.of (dbgWake_keeps ..) h4) ?_
      exact h4
    clear_value x5
    exact .next (.of (startWake_keeps ..) h6)
  · exact .next (.of (stopEntry_keeps ..) (.same ⟨rfl, rfl, rfl, rfl, rfl⟩))
  · refine .next ?_
    refine .of (settle_keeps ..) ?_
    refine .of (halfWr_keeps (h := fun y7 y8 y9 s10 => ?_) ..) (stopEntry_keeps ..)
    exact (regWrite_keeps ..)

theorem hostWhole_keeps (fn off v s) : KeepsO s (hostWhole fn off v s) := by
  unfold hostWhole
  refine .ite (dbgPf_keeps ..) ?_
  refine .ite (pwrCommand_keeps ..) ?_
  refine (hostWr_keeps (h := fun s1 => ?_) ..)
  exact (regWrite_keeps ..)

theorem hostBad_keeps (fn off s) : KeepsO s (hostBad fn off s) := by
  unfold hostBad
  split
  · exact .next (.refl _)
  · exact .next (aerReq_keeps ..)
  · exact .next (.refl _)
  · exact .next (.of (startWake_keeps ..) (accessErr_keeps ..))
  · exact .next (.of (settle_keeps ..) (.of (accessErr_keeps ..) (stopEntry_keeps ..)))
  · exact .next (.of (settle_keeps ..) (.of (accessErr_keeps ..) (stopEntry_keeps ..)))

theorem hostCfgWr_keeps (fn bus off w v s) : KeepsO s (hostCfgWr fn bus off w v s) := by
  unfold hostCfgWr
  split
  · exact .next (.refl _)
  · refine (hostCfg_keeps (h := fun s1 => ?_) ..)
    exact (.of (cfgWr_keeps ..) (captureBus_keeps ..))

theorem hostSwWr_keeps (n off w v s) : KeepsO s (hostSwWr n off w v s) := by
  unfold hostSwWr
  split
  · exact .next (.refl _)
  · refine .ite (.next (.of (settle_keeps ..) (swWr_keeps ..))) ?_
    exact .next (.refl _)

theorem hostBar0_keeps (fn off w v s) : KeepsO s (hostBar0 fn off w v s) := by
  unfold hostBar0
  refine .ite (.next (.refl _)) ?_
  split
  · refine .ite (hostWhole_keeps ..) ?_
    exact (hostBad_keeps ..)
  · refine .ite (hostHalf_keeps ..) ?_
    exact (hostBad_keeps ..)
  · exact (hostBad_keeps ..)
  · exact (hostBad_keeps ..)

theorem execRegisterWrite_keeps (fn space off w v s) : KeepsO s (execRegisterWrite fn space off w v s) := by
  unfold execRegisterWrite
  split
  · exact (hostBar0_keeps ..)
  · exact (hostCfgWr_keeps ..)
  · exact (hostSwWr_keeps ..)

/-! ## Timeouts -/

theorem retireTag_keeps (s fn tag hdr) : Keeps s (retireTag s fn tag hdr) := by
  unfold retireTag
  extract_lets +onlyGivenNames x1
  extract_lets +onlyGivenNames x2
  have h3 : Keeps s x2 := (.same ⟨rfl, rfl, rfl, rfl, rfl⟩)
  clear_value x2
  exact (.of (aerUnc_keeps ..) h3)

theorem timeoutLoad_keeps (s t op) : Keeps s (timeoutLoad s t op) := by
  unfold timeoutLoad
  split
  · exact (.refl _)
  · split
    · exact (.refl _)
    · split
      · rename_i s2 _ e4
        have h5 : Keeps s s2 := .fst e4 (performAct_keeps ..)
        exact (.of (opDone_keeps ..) h5)

theorem timeoutRead_keeps (s r) : Keeps s (timeoutRead s r) := by
  unfold timeoutRead
  split
  · exact (timeoutLoad_keeps ..)
  · exact (.of (stopSq_keeps ..) (setSq_keeps ..))
  · split
    · exact (finish_keeps ..)
    · exact (.refl _)
  · split
    · rename_i s2 _ _ e5
      have h6 : Keeps s s2 := KeepsP.elim e5 (takeHead_keeps ..)
      split
      · rename_i s8 _ e10
        have h11 : Keeps s s8 := .fst e10 (.of (newDesc_keeps ..) h6)
        exact (.of (bFail_keeps ..) h11)
    · exact (.refl _)
  · split
    · rename_i s13 _ _ e16
      have h17 : Keeps s s13 := KeepsP.elim e16 (txTake_keeps ..)
      exact (.of (txDiscard_keeps ..) h17)
    · exact (.refl _)

theorem execCompletionTimeout_keeps (r tag hdr s) : KeepsO s (execCompletionTimeout r tag hdr s) := by
  unfold execCompletionTimeout
  extract_lets +onlyGivenNames x1
  split
  · exact .next (.refl _)
  · refine .ite (.next (.refl _)) ?_
    exact .next (.of (settle_keeps ..) (.of (timeoutRead_keeps ..) (retireTag_keeps ..)))

theorem execUnexpectedCompletion_keeps (fn tag hdr s) : KeepsO s (execUnexpectedCompletion fn tag hdr s) := by
  unfold execUnexpectedCompletion
  refine .ite (.next (aerUnc_keeps ..)) ?_
  exact .next (.refl _)

end Sys2Proof.Machine
end

