-- ==== Sys2Proof/Laws/Nexts.lean ====
section
/-! SUPPORT. Every command answers a next state: none faults and none is refused. -/

namespace Sys2Proof.Machine

/-- The outcome is a next state. -/
structure Nexts (o : Host.Outcome State Fault Refusal) : Prop where
  get : ∃ t, o = .next t

theorem Nexts.of (s : State) : Nexts (.next s) := ⟨s, rfl⟩

theorem Nexts.ite {c : Prop} [Decidable c] {a b} (h : Nexts a) (k : Nexts b) : Nexts (if c then a else b) := by
  split
  · exact h
  · exact k

theorem issue_nexts (t c wf priv word body s) : Nexts (issue t c wf priv word body s) := by
  unfold issue
  repeat' first | split | dsimp only
  all_goals first | exact .of _

theorem accInstr_nexts (t wf word body s) : Nexts (accInstr t wf word body s) := issue_nexts ..

theorem execEaadd_nexts (t et ea va km s) : Nexts (execEaadd t et ea va km s) := accInstr_nexts ..

theorem execEamac_nexts (t et ea va vb km s) : Nexts (execEamac t et ea va vb km s) := accInstr_nexts ..

theorem execEaclr_nexts (t ea s) : Nexts (execEaclr t ea s) := accInstr_nexts ..

theorem execEaround_nexts (t et g ea s) : Nexts (execEaround t et g ea s) := accInstr_nexts ..

theorem execEainfo_nexts (t g ea s) : Nexts (execEainfo t g ea s) := accInstr_nexts ..

theorem execEamerge_nexts (t ea g s) : Nexts (execEamerge t ea g s) := issue_nexts ..

theorem execEasave_nexts (t g ea s) : Nexts (execEasave t g ea s) := issue_nexts ..

theorem execRevokeComplete_nexts (ctx s) : Nexts (execRevokeComplete ctx s) := by
  unfold execRevokeComplete
  repeat' first | split | dsimp only
  all_goals first | exact .of _

theorem execQpCloseComplete_nexts (qp s) : Nexts (execQpCloseComplete qp s) := by
  unfold execQpCloseComplete
  repeat' first | split | dsimp only
  all_goals first | exact .of _

theorem execBrmWrite_nexts (vi q s) : Nexts (execBrmWrite vi q s) := .of _

theorem execBrmRead_nexts (vi q s) : Nexts (execBrmRead vi q s) := .of _

theorem execBrmAtomic_nexts (vi q s) : Nexts (execBrmAtomic vi q s) := .of _

theorem execQpCreate_nexts (vi q s) : Nexts (execQpCreate vi q s) := .of _

theorem execConnect_nexts (vi q s) : Nexts (execConnect vi q s) := .of _

theorem execQpDestroy_nexts (vi q s) : Nexts (execQpDestroy vi q s) := .of _

theorem execQpQuery_nexts (vi q s) : Nexts (execQpQuery vi q s) := .of _

theorem execRegister_nexts (vi q s) : Nexts (execRegister vi q s) := .of _

theorem execRevoke_nexts (vi q s) : Nexts (execRevoke vi q s) := .of _

theorem execWritePacket_nexts (p s) : Nexts (execWritePacket p s) := .of _

theorem execAtomicReq_nexts (p s) : Nexts (execAtomicReq p s) := .of _

theorem execReadReq_nexts (p s) : Nexts (execReadReq p s) := .of _

theorem execReadResp_nexts (p s) : Nexts (execReadResp p s) := .of _

theorem execAtomicResp_nexts (p s) : Nexts (execAtomicResp p s) := .of _

theorem execPlacementPerformed_nexts (qp psn s) : Nexts (execPlacementPerformed qp psn s) := by
  unfold execPlacementPerformed
  repeat' first | split | dsimp only
  all_goals first | exact .of _

theorem execAck_nexts (p s) : Nexts (execAck p s) := .of _

theorem execNak_nexts (p s) : Nexts (execNak p s) := .of _

theorem execHeld_nexts (p s) : Nexts (execHeld p s) := .of _

theorem execConnectReq_nexts (p s) : Nexts (execConnectReq p s) := .of _

theorem execConnectResp_nexts (p s) : Nexts (execConnectResp p s) := .of _

theorem execDisconnect_nexts (p s) : Nexts (execDisconnect p s) := .of _

theorem execAckTimer_nexts (qp s) : Nexts (execAckTimer qp s) := by
  unfold execAckTimer
  repeat' first | split | dsimp only
  all_goals first | exact .of _

theorem execRetransmitTimeout_nexts (qp psn s) : Nexts (execRetransmitTimeout qp psn s) := by
  unfold execRetransmitTimeout
  repeat' first | split | dsimp only
  all_goals first | exact .of _

theorem execBusyRetransmit_nexts (qp psn s) : Nexts (execBusyRetransmit qp psn s) := by
  unfold execBusyRetransmit
  repeat' first | split | dsimp only
  all_goals first | exact .of _

theorem execConnectReqTimer_nexts (qp s) : Nexts (execConnectReqTimer qp s) := by
  unfold execConnectReqTimer
  repeat' first | split | dsimp only
  all_goals first | exact .of _

theorem execConnectTimeout_nexts (qp s) : Nexts (execConnectTimeout qp s) := by
  unfold execConnectTimeout
  repeat' first | split | dsimp only
  all_goals first | exact .of _

theorem execMessageExpiry_nexts (qp msn s) : Nexts (execMessageExpiry qp msn s) := by
  unfold execMessageExpiry
  repeat' first | split | dsimp only
  all_goals first | exact .of _

theorem hostWr_nexts (fn off v body s) : Nexts (hostWr fn off v body s) := by
  unfold hostWr
  repeat' first | split | dsimp only
  all_goals first | exact .of _

theorem execCmpCreate_nexts (fn c s) : Nexts (execCmpCreate fn c s) := hostWr_nexts ..

theorem execCmpAdd_nexts (fn c s) : Nexts (execCmpAdd fn c s) := hostWr_nexts ..

theorem execCmpRemove_nexts (fn c s) : Nexts (execCmpRemove fn c s) := hostWr_nexts ..

theorem execCmpDestroy_nexts (fn c s) : Nexts (execCmpDestroy fn c s) := hostWr_nexts ..

theorem execCmpRead_nexts (fn c s) : Nexts (execCmpRead fn c s) := hostWr_nexts ..

theorem execCmpReset_nexts (fn c s) : Nexts (execCmpReset fn c s) := hostWr_nexts ..

theorem execCmpExport_nexts (fn c s) : Nexts (execCmpExport fn c s) := hostWr_nexts ..

theorem execCompositeConfirm_nexts (m s) : Nexts (execCompositeConfirm m s) := by
  unfold execCompositeConfirm
  repeat' first | split | dsimp only
  all_goals first | exact .of _

theorem execUnitResetComplete_nexts (s) : Nexts (execUnitResetComplete s) := by
  unfold execUnitResetComplete
  repeat' first | split | dsimp only
  all_goals first | exact .of _

theorem hostHalf_nexts (fn off v s) : Nexts (hostHalf fn off v s) := by
  unfold hostHalf
  repeat' first | split | dsimp only
  all_goals first | exact .of _

theorem dbgPf_nexts (fn ws s) : Nexts (dbgPf fn ws s) := by
  unfold dbgPf
  repeat' first | split | dsimp only
  all_goals first | exact .of _

theorem hostPf_nexts (fn off v body s) : Nexts (hostPf fn off v body s) := by
  unfold hostPf
  repeat' first | split | dsimp only
  all_goals first | exact hostWr_nexts .. | exact .of _

theorem pwrCommand_nexts (fn op s) : Nexts (pwrCommand fn op s) := by
  unfold pwrCommand
  repeat' first | split | dsimp only
  all_goals first | exact hostPf_nexts .. | exact .of _

theorem hostWhole_nexts (fn off v s) : Nexts (hostWhole fn off v s) := by
  unfold hostWhole
  repeat' first | split | dsimp only
  all_goals first | exact dbgPf_nexts .. | exact hostWr_nexts .. | exact pwrCommand_nexts .. | exact .of _

theorem hostBad_nexts (fn off s) : Nexts (hostBad fn off s) := by
  unfold hostBad
  repeat' first | split | dsimp only
  all_goals first | exact .of _

theorem hostCfg_nexts (fn body s) : Nexts (hostCfg fn body s) := by
  unfold hostCfg
  repeat' first | split | dsimp only
  all_goals first | exact .of _

theorem hostCfgWr_nexts (fn bus off w v s) : Nexts (hostCfgWr fn bus off w v s) := by
  unfold hostCfgWr
  repeat' first | split | dsimp only
  all_goals first | exact hostCfg_nexts .. | exact .of _

theorem hostSwWr_nexts (n off w v s) : Nexts (hostSwWr n off w v s) := by
  unfold hostSwWr
  repeat' first | split | dsimp only
  all_goals first | exact .of _

theorem hostBar0_nexts (fn off w v s) : Nexts (hostBar0 fn off w v s) := by
  unfold hostBar0
  repeat' first | split | dsimp only
  all_goals first | exact hostHalf_nexts .. | exact hostWhole_nexts .. | exact hostBad_nexts .. | exact .of _

theorem execRegisterWrite_nexts (fn space off w v s) : Nexts (execRegisterWrite fn space off w v s) := by
  unfold execRegisterWrite
  repeat' first | split | dsimp only
  all_goals first | exact hostCfgWr_nexts .. | exact hostSwWr_nexts .. | exact hostBar0_nexts .. | exact .of _

theorem control_nexts (t wf word body s) : Nexts (control t wf word body s) := issue_nexts ..

theorem execB_nexts (t imm s) : Nexts (execB t imm s) := control_nexts ..

theorem execCall_nexts (t imm s) : Nexts (execCall t imm s) := control_nexts ..

theorem execBcc_nexts (t c a d imm s) : Nexts (execBcc t c a d imm s) := control_nexts ..

theorem execBr_nexts (t a s) : Nexts (execBr t a s) := control_nexts ..

theorem execCallr_nexts (t a s) : Nexts (execCallr t a s) := control_nexts ..

theorem execRet_nexts (t s) : Nexts (execRet t s) := control_nexts ..

theorem execWait_nexts (t a b s) : Nexts (execWait t a b s) := control_nexts ..

theorem execBrep_nexts (t a len s) : Nexts (execBrep t a len s) := control_nexts ..

theorem execTend_nexts (t s) : Nexts (execTend t s) := control_nexts ..

theorem hostRd_nexts (fn off w s) : Nexts (hostRd fn off w s) := by
  unfold hostRd
  repeat' first | split | dsimp only
  all_goals first | exact .of _

theorem execUntCntvalRead_nexts (rd s) : Nexts (execUntCntvalRead rd s) := hostRd_nexts ..

theorem execCntVicfgWrite_nexts (fn en autoReset s) : Nexts (execCntVicfgWrite fn en autoReset s) := by
  unfold execCntVicfgWrite
  repeat' first | split | dsimp only
  all_goals first | exact hostPf_nexts .. | exact .of _

theorem execSamplerEnable_nexts (fn k c s) : Nexts (execSamplerEnable fn k c s) := hostPf_nexts ..

theorem execCounterSample_nexts (k s) : Nexts (execCounterSample k s) := by
  unfold execCounterSample
  repeat' first | split | dsimp only
  all_goals first | exact .of _

theorem execDbgacc_nexts (op addr data s) : Nexts (execDbgacc op addr data s) := by
  unfold execDbgacc
  repeat' first | split | dsimp only
  all_goals first | exact .of _

theorem dbgCommand_nexts (via op addr data s) : Nexts (dbgCommand via op addr data s) := by
  unfold dbgCommand
  repeat' first | split | dsimp only
  all_goals first | exact dbgPf_nexts .. | exact execDbgacc_nexts .. | exact .of _

theorem execReadPhys_nexts (via addr s) : Nexts (execReadPhys via addr s) := dbgCommand_nexts ..

theorem execWritePhys_nexts (via addr data s) : Nexts (execWritePhys via addr data s) := dbgCommand_nexts ..

theorem execReadSreg_nexts (via addr s) : Nexts (execReadSreg via addr s) := dbgCommand_nexts ..

theorem execWriteSreg_nexts (via addr data s) : Nexts (execWriteSreg via addr data s) := dbgCommand_nexts ..

theorem execHaltThread_nexts (via index launch s) : Nexts (execHaltThread via index launch s) := dbgCommand_nexts ..

theorem execResumeThread_nexts (via vi rec_ s) : Nexts (execResumeThread via vi rec_ s) := dbgCommand_nexts ..

theorem execEndThread_nexts (via vi rec_ status s) : Nexts (execEndThread via vi rec_ status s) := dbgCommand_nexts ..

theorem execHaltCore_nexts (via core s) : Nexts (execHaltCore via core s) := dbgCommand_nexts ..

theorem execStepCore_nexts (via core s) : Nexts (execStepCore via core s) := dbgCommand_nexts ..

theorem execResumeCore_nexts (via core s) : Nexts (execResumeCore via core s) := dbgCommand_nexts ..

theorem boundary__nexts (ir shift s) : Nexts (boundary_ ir shift s) := by
  unfold boundary_
  repeat' first | split | dsimp only
  all_goals first | exact .of _

theorem execExtest_nexts (shift s) : Nexts (execExtest shift s) := boundary__nexts ..

theorem execSamplePreload_nexts (shift s) : Nexts (execSamplePreload shift s) := boundary__nexts ..

theorem execIdcode_nexts (s) : Nexts (execIdcode s) := by
  unfold execIdcode
  repeat' first | split | dsimp only
  all_goals first | exact .of _

theorem execBypass_nexts (s) : Nexts (execBypass s) := by
  unfold execBypass
  repeat' first | split | dsimp only
  all_goals first | exact .of _

theorem execTapReset_nexts (s) : Nexts (execTapReset s) := by
  unfold execTapReset
  repeat' first | split | dsimp only
  all_goals first | exact .of _

theorem execBar2Read_nexts (fn off n s) : Nexts (execBar2Read fn off n s) := by
  unfold execBar2Read
  repeat' first | split | dsimp only
  all_goals first | exact .of _

theorem execBar2Write_nexts (fn off data poison s) : Nexts (execBar2Write fn off data poison s) := by
  unfold execBar2Write
  repeat' first | split | dsimp only
  all_goals first | exact .of _

theorem execCompletionTimeout_nexts (r tag hdr s) : Nexts (execCompletionTimeout r tag hdr s) := by
  unfold execCompletionTimeout
  repeat' first | split | dsimp only
  all_goals first | exact .of _

theorem execUnexpectedCompletion_nexts (fn tag hdr s) : Nexts (execUnexpectedCompletion fn tag hdr s) := by
  unfold execUnexpectedCompletion
  repeat' first | split | dsimp only
  all_goals first | exact .of _

theorem execL0pEnter_nexts (port lanes s) : Nexts (execL0pEnter port lanes s) := by
  unfold execL0pEnter
  repeat' first | split | dsimp only
  all_goals first | exact .of _

theorem execAspmL1Enter_nexts (port sub s) : Nexts (execAspmL1Enter port sub s) := by
  unfold execAspmL1Enter
  repeat' first | split | dsimp only
  all_goals first | exact .of _

theorem execLinkPowerExit_nexts (port s) : Nexts (execLinkPowerExit port s) := by
  unfold execLinkPowerExit
  repeat' first | split | dsimp only
  all_goals first | exact .of _

theorem execErrorHandle_nexts (found s) : Nexts (execErrorHandle found s) := by
  unfold execErrorHandle
  repeat' first | split | dsimp only
  all_goals first | exact .of _

theorem execErrorSecondTick_nexts (s) : Nexts (execErrorSecondTick s) := by
  unfold execErrorSecondTick
  repeat' first | split | dsimp only
  all_goals first | exact .of _

theorem execErrAckWrite_nexts (fn r s) : Nexts (execErrAckWrite fn r s) := hostPf_nexts ..

theorem execErrCfgWrite_nexts (fn auto_ s) : Nexts (execErrCfgWrite fn auto_ s) := hostPf_nexts ..

theorem execErrFctOffWrite_nexts (fn k off s) : Nexts (execErrFctOffWrite fn k off s) := hostPf_nexts ..

theorem execDevTimeMax_nexts (s) : Nexts (execDevTimeMax s) := by
  unfold execDevTimeMax
  repeat' first | split | dsimp only
  all_goals first | exact .of _

theorem execDeviceReset_nexts (fn s) : Nexts (execDeviceReset fn s) := by
  unfold execDeviceReset
  repeat' first | split | dsimp only
  all_goals first | exact hostPf_nexts .. | exact .of _

theorem execDeviceResetComplete_nexts (s) : Nexts (execDeviceResetComplete s) := by
  unfold execDeviceResetComplete
  repeat' first | split | dsimp only
  all_goals first | exact .of _

theorem execLinkPacketReceive_nexts (port p s) : Nexts (execLinkPacketReceive port p s) := by
  unfold execLinkPacketReceive
  repeat' first | split | dsimp only
  all_goals first | exact .of _

theorem execLinkCtlAck_nexts (port lseq credits s) : Nexts (execLinkCtlAck port lseq credits s) := by
  unfold execLinkCtlAck
  repeat' first | split | dsimp only
  all_goals first | exact .of _

theorem execLinkAckInterval_nexts (port s) : Nexts (execLinkAckInterval port s) := by
  unfold execLinkAckInterval
  repeat' first | split | dsimp only
  all_goals first | exact .of _

theorem execLinkRetryRequest_nexts (port lseq s) : Nexts (execLinkRetryRequest port lseq s) := by
  unfold execLinkRetryRequest
  repeat' first | split | dsimp only
  all_goals first | exact .of _

theorem execLinkInit_nexts (port far s) : Nexts (execLinkInit port far s) := by
  unfold execLinkInit
  repeat' first | split | dsimp only
  all_goals first | exact .of _

theorem execLaneFailure_nexts (port lane s) : Nexts (execLaneFailure port lane s) := by
  unfold execLaneFailure
  repeat' first | split | dsimp only
  all_goals first | exact .of _

theorem execLossOfLock_nexts (port s) : Nexts (execLossOfLock port s) := by
  unfold execLossOfLock
  repeat' first | split | dsimp only
  all_goals first | exact .of _

theorem execTrainingTimeout_nexts (port s) : Nexts (execTrainingTimeout port s) := by
  unfold execTrainingTimeout
  repeat' first | split | dsimp only
  all_goals first | exact .of _

theorem execRetrainTimer_nexts (port s) : Nexts (execRetrainTimer port s) := by
  unfold execRetrainTimer
  repeat' first | split | dsimp only
  all_goals first | exact .of _

theorem execPortEnable_nexts (fn port c s) : Nexts (execPortEnable fn port c s) := hostPf_nexts ..

theorem execPortDisable_nexts (fn port c s) : Nexts (execPortDisable fn port c s) := hostPf_nexts ..

theorem execDevFabCfgWrite_nexts (fn v s) : Nexts (execDevFabCfgWrite fn v s) := hostPf_nexts ..

theorem execDevPairCfgWrite_nexts (fn v s) : Nexts (execDevPairCfgWrite fn v s) := hostPf_nexts ..

theorem execPairPacketReceive_nexts (m s) : Nexts (execPairPacketReceive m s) := by
  unfold execPairPacketReceive
  repeat' first | split | dsimp only
  all_goals first | exact .of _

theorem execPairHeartbeat_nexts (s) : Nexts (execPairHeartbeat s) := by
  unfold execPairHeartbeat
  repeat' first | split | dsimp only
  all_goals first | exact .of _

theorem execMirrorLostNotice_nexts (s) : Nexts (execMirrorLostNotice s) := by
  unfold execMirrorLostNotice
  repeat' first | split | dsimp only
  all_goals first | exact .of _

theorem execMirrorLostRepeat_nexts (s) : Nexts (execMirrorLostRepeat s) := by
  unfold execMirrorLostRepeat
  repeat' first | split | dsimp only
  all_goals first | exact .of _

theorem execMirrorLostAck_nexts (s) : Nexts (execMirrorLostAck s) := by
  unfold execMirrorLostAck
  repeat' first | split | dsimp only
  all_goals first | exact .of _

theorem execPartnerLost_nexts (s) : Nexts (execPartnerLost s) := by
  unfold execPartnerLost
  repeat' first | split | dsimp only
  all_goals first | exact .of _

theorem execTakeover_nexts (fn s) : Nexts (execTakeover fn s) := hostPf_nexts ..

theorem execResync_nexts (fn s) : Nexts (execResync fn s) := hostPf_nexts ..

theorem execResyncComplete_nexts (s) : Nexts (execResyncComplete s) := by
  unfold execResyncComplete
  repeat' first | split | dsimp only
  all_goals first | exact .of _

theorem execFwLogRingWrite_nexts (fn c s) : Nexts (execFwLogRingWrite fn c s) := by
  unfold execFwLogRingWrite
  repeat' first | split | dsimp only
  all_goals first | exact hostPf_nexts .. | exact .of _

theorem execFwLogAckWrite_nexts (fn r s) : Nexts (execFwLogAckWrite fn r s) := hostPf_nexts ..

theorem execDeferredActivationTimer_nexts (s) : Nexts (execDeferredActivationTimer s) := by
  unfold execDeferredActivationTimer
  repeat' first | split | dsimp only
  all_goals first | exact .of _

theorem mailbox_nexts (fn tag c s) : Nexts (mailbox fn tag c s) := hostPf_nexts ..

theorem execGetInfo_nexts (fn tag s) : Nexts (execGetInfo fn tag s) := mailbox_nexts ..

theorem execFeatureSet_nexts (fn tag s) : Nexts (execFeatureSet fn tag s) := mailbox_nexts ..

theorem execFeatureGet_nexts (fn tag s) : Nexts (execFeatureGet fn tag s) := mailbox_nexts ..

theorem execStage_nexts (fn tag img s) : Nexts (execStage fn tag img s) := mailbox_nexts ..

theorem execActivate_nexts (fn tag s) : Nexts (execActivate fn tag s) := mailbox_nexts ..

theorem execActivateCancel_nexts (fn tag s) : Nexts (execActivateCancel fn tag s) := mailbox_nexts ..

theorem execSvnCommit_nexts (fn tag s) : Nexts (execSvnCommit fn tag s) := mailbox_nexts ..

theorem execKeyRevoke_nexts (fn tag s) : Nexts (execKeyRevoke fn tag s) := mailbox_nexts ..

theorem execLogCfg_nexts (fn tag s) : Nexts (execLogCfg fn tag s) := mailbox_nexts ..

theorem execTraceCfg_nexts (fn tag s) : Nexts (execTraceCfg fn tag s) := mailbox_nexts ..

theorem execStgBind_nexts (fn tag r s) : Nexts (execStgBind fn tag r s) := mailbox_nexts ..

theorem execStgUnbind_nexts (fn tag s) : Nexts (execStgUnbind fn tag s) := mailbox_nexts ..

theorem execSlowCfg_nexts (fn tag s) : Nexts (execSlowCfg fn tag s) := mailbox_nexts ..

theorem execPtpCfg_nexts (fn tag s) : Nexts (execPtpCfg fn tag s) := mailbox_nexts ..

theorem execRestart_nexts (fn tag s) : Nexts (execRestart fn tag s) := mailbox_nexts ..

theorem coreFails_nexts (s core cause pc) : Nexts (coreFails s core cause pc) := by
  unfold coreFails
  repeat' first | split | dsimp only
  all_goals first | exact .of _

theorem execStewardWatchdog_nexts (core pc s) : Nexts (execStewardWatchdog core pc s) := coreFails_nexts ..

theorem execStewardFault_nexts (core pc s) : Nexts (execStewardFault core pc s) := coreFails_nexts ..

theorem execStewardRestartDone_nexts (core s) : Nexts (execStewardRestartDone core s) := by
  unfold execStewardRestartDone
  repeat' first | split | dsimp only
  all_goals first | exact .of _

theorem execActivationComplete_nexts (gone s) : Nexts (execActivationComplete gone s) := by
  unfold execActivationComplete
  repeat' first | split | dsimp only
  all_goals first | exact .of _

theorem execPtpMessage_nexts (port rate s) : Nexts (execPtpMessage port rate s) := by
  unfold execPtpMessage
  repeat' first | split | dsimp only
  all_goals first | exact .of _

theorem oob_nexts (via body s) : Nexts (oob via body s) := by
  unfold oob
  repeat' first | split | dsimp only
  all_goals first | exact .of _

theorem execMctpControl_nexts (via eid s) : Nexts (execMctpControl via eid s) := oob_nexts ..

theorem execPldmPlatform_nexts (via sensor s) : Nexts (execPldmPlatform via sensor s) := oob_nexts ..

theorem execPldmFirmwareUpdate_nexts (via img s) : Nexts (execPldmFirmwareUpdate via img s) := oob_nexts ..

theorem execActivateFirmware_nexts (via s) : Nexts (execActivateFirmware via s) := oob_nexts ..

theorem execSlowPathFrame_nexts (quad owned s) : Nexts (execSlowPathFrame quad owned s) := by
  unfold execSlowPathFrame
  repeat' first | split | dsimp only
  all_goals first | exact .of _

theorem execReassemblyTimeout_nexts (quad n s) : Nexts (execReassemblyTimeout quad n s) := by
  unfold execReassemblyTimeout
  repeat' first | split | dsimp only
  all_goals first | exact .of _

theorem execDescriptorGateRelease_nexts (vi q seq s) : Nexts (execDescriptorGateRelease vi q seq s) := by
  unfold execDescriptorGateRelease
  repeat' first | split | dsimp only
  all_goals first | exact .of _

theorem execBusMasterClear_nexts (fn s) : Nexts (execBusMasterClear fn s) := hostCfg_nexts ..

theorem execBusMasterSet_nexts (fn s) : Nexts (execBusMasterSet fn s) := hostCfg_nexts ..

theorem execPowerStateWrite_nexts (fn d3 s) : Nexts (execPowerStateWrite fn d3 s) := hostCfg_nexts ..

theorem execFrameToIris_nexts (port src data s) : Nexts (execFrameToIris port src data s) := by
  unfold execFrameToIris
  repeat' first | split | dsimp only
  all_goals first | exact .of _

theorem execTcpRetransmit_nexts (target data s) : Nexts (execTcpRetransmit target data s) := by
  unfold execTcpRetransmit
  repeat' first | split | dsimp only
  all_goals first | exact .of _

theorem execShaperRefill_nexts (port sh s) : Nexts (execShaperRefill port sh s) := by
  unfold execShaperRefill
  repeat' first | split | dsimp only
  all_goals first | exact .of _

theorem hostVi_nexts (fn vi off v body s) : Nexts (hostVi fn vi off v body s) := by
  unfold hostVi
  repeat' first | split | dsimp only
  all_goals first | exact hostWr_nexts .. | exact .of _

theorem execViShapeWrite_nexts (fn vi port v s) : Nexts (execViShapeWrite fn vi port v s) := hostVi_nexts ..

theorem execIrsCshapeWrite_nexts (fn port c v s) : Nexts (execIrsCshapeWrite fn port c v s) := hostPf_nexts ..

theorem execIrsQcfgWrite_nexts (fn port q v s) : Nexts (execIrsQcfgWrite fn port q v s) := hostPf_nexts ..

theorem execConfigChange_nexts (fn port c s) : Nexts (execConfigChange fn port c s) := by
  unfold execConfigChange
  repeat' first | split | dsimp only
  all_goals first | exact hostPf_nexts .. | exact .of _

theorem execCancel_nexts (fn port c s) : Nexts (execCancel fn port c s) := by
  unfold execCancel
  repeat' first | split | dsimp only
  all_goals first | exact hostPf_nexts .. | exact .of _

theorem execGateEnWrite_nexts (fn port c s) : Nexts (execGateEnWrite fn port c s) := hostPf_nexts ..

theorem execGateEntryAdvance_nexts (port s) : Nexts (execGateEntryAdvance port s) := .of _

theorem execConfigChangeTime_nexts (port s) : Nexts (execConfigChangeTime port s) := by
  unfold execConfigChangeTime
  repeat' first | split | dsimp only
  all_goals first | exact .of _

theorem execTxRingEnable_nexts (fn vi r c s) : Nexts (execTxRingEnable fn vi r c s) := by
  unfold execTxRingEnable
  repeat' first | split | dsimp only
  all_goals first | exact hostVi_nexts .. | exact .of _

theorem execTxRingDisable_nexts (fn vi r c s) : Nexts (execTxRingDisable fn vi r c s) := by
  unfold execTxRingDisable
  repeat' first | split | dsimp only
  all_goals first | exact hostVi_nexts .. | exact .of _

theorem execTxSlotTake_nexts (vi r ext s) : Nexts (execTxSlotTake vi r ext s) := by
  unfold execTxSlotTake
  repeat' first | split | dsimp only
  all_goals first | exact .of _

theorem execFrameTransmitEnd_nexts (port s) : Nexts (execFrameTransmitEnd port s) := by
  unfold execFrameTransmitEnd
  repeat' first | split | dsimp only
  all_goals first | exact .of _

theorem execSampleRingEnable_nexts (fn port c s) : Nexts (execSampleRingEnable fn port c s) := hostPf_nexts ..

theorem execQueueSample_nexts (port s) : Nexts (execQueueSample port s) := by
  unfold execQueueSample
  repeat' first | split | dsimp only
  all_goals first | exact .of _

theorem execEthernetLinkDown_nexts (port s) : Nexts (execEthernetLinkDown port s) := by
  unfold execEthernetLinkDown
  repeat' first | split | dsimp only
  all_goals first | exact .of _

theorem execEthernetLinkUp_nexts (port s) : Nexts (execEthernetLinkUp port s) := by
  unfold execEthernetLinkUp
  repeat' first | split | dsimp only
  all_goals first | exact .of _

theorem execLoadComplete_nexts (t op status data s) : Nexts (execLoadComplete t op status data s) := by
  unfold execLoadComplete
  repeat' first | split | dsimp only
  all_goals first | exact .of _

theorem execStoreComplete_nexts (t op status s) : Nexts (execStoreComplete t op status s) := by
  unfold execStoreComplete
  repeat' first | split | dsimp only
  all_goals first | exact .of _

theorem execWakeComplete_nexts (s) : Nexts (execWakeComplete s) := by
  unfold execWakeComplete
  repeat' first | split | dsimp only
  all_goals first | exact .of _

theorem memLoad_nexts (t wf word body s) : Nexts (memLoad t wf word body s) := issue_nexts ..

theorem memStore_nexts (t wf word body s) : Nexts (memStore t wf word body s) := issue_nexts ..

theorem memFs_nexts (t word body s) : Nexts (memFs t word body s) := issue_nexts ..

theorem execLd_nexts (t fw d a imm s) : Nexts (execLd t fw d a imm s) := memLoad_nexts ..

theorem execSt_nexts (t fw d a imm s) : Nexts (execSt t fw d a imm s) := memStore_nexts ..

theorem execVld_nexts (t f s) : Nexts (execVld t f s) := memLoad_nexts ..

theorem execVst_nexts (t f s) : Nexts (execVst t f s) := memStore_nexts ..

theorem execVldx_nexts (t f s) : Nexts (execVldx t f s) := memLoad_nexts ..

theorem execVstx_nexts (t f s) : Nexts (execVstx t f s) := memStore_nexts ..

theorem execLds_nexts (t fw d a imm s) : Nexts (execLds t fw d a imm s) := memFs_nexts ..

theorem execSts_nexts (t fw d a imm s) : Nexts (execSts t fw d a imm s) := memFs_nexts ..

theorem execVlds_nexts (t f s) : Nexts (execVlds t f s) := memFs_nexts ..

theorem execVsts_nexts (t f s) : Nexts (execVsts t f s) := memFs_nexts ..

theorem execAmo_nexts (t op dbl n d a b c s) : Nexts (execAmo t op dbl n d a b c s) := by
  unfold execAmo
  repeat' first | split | dsimp only
  all_goals first | exact issue_nexts .. | exact .of _

theorem execRspush_nexts (t a imm s) : Nexts (execRspush t a imm s) := memStore_nexts ..

theorem execRspop_nexts (t a imm s) : Nexts (execRspop t a imm s) := memLoad_nexts ..

theorem execGtMap_nexts (fn vi index confirmed s) : Nexts (execGtMap fn vi index confirmed s) := hostVi_nexts ..

theorem execGtUnmap_nexts (fn vi index s) : Nexts (execGtUnmap fn vi index s) := hostVi_nexts ..

theorem execGtSetattr_nexts (fn vi index confirmed s) : Nexts (execGtSetattr fn vi index confirmed s) := hostVi_nexts ..

theorem execGtRead_nexts (fn vi index s) : Nexts (execGtRead fn vi index s) := hostVi_nexts ..

theorem execScrubComplete_nexts (g s) : Nexts (execScrubComplete g s) := by
  unfold execScrubComplete
  repeat' first | split | dsimp only
  all_goals first | exact .of _

theorem execMakeColumnLocal_nexts (fn row s) : Nexts (execMakeColumnLocal fn row s) := hostPf_nexts ..

theorem execMakeSpread_nexts (fn row s) : Nexts (execMakeSpread fn row s) := hostPf_nexts ..

theorem execViSpillWrite_nexts (fn vi host v s) : Nexts (execViSpillWrite fn vi host v s) := hostVi_nexts ..

theorem execDevCtxSpillWrite_nexts (fn v s) : Nexts (execDevCtxSpillWrite fn v s) := hostPf_nexts ..

theorem execPatrolScrub_nexts (block found s) : Nexts (execPatrolScrub block found s) := by
  unfold execPatrolScrub
  repeat' first | split | dsimp only
  all_goals first | exact .of _

theorem execMirrorWr_nexts (src g off data marker s) : Nexts (execMirrorWr src g off data marker s) := by
  unfold execMirrorWr
  repeat' first | split | dsimp only
  all_goals first | exact .of _

theorem execMirrorAck_nexts (seq s) : Nexts (execMirrorAck seq s) := .of _

theorem execTallyFrameSend_nexts (blocks s) : Nexts (execTallyFrameSend blocks s) := by
  unfold execTallyFrameSend
  repeat' first | split | dsimp only
  all_goals first | exact .of _

theorem execTallyFrameReceive_nexts (fate s) : Nexts (execTallyFrameReceive fate s) := by
  unfold execTallyFrameReceive
  repeat' first | split | dsimp only
  all_goals first | exact .of _

theorem execIntervalEnd_nexts (m s) : Nexts (execIntervalEnd m s) := by
  unfold execIntervalEnd
  repeat' first | split | dsimp only
  all_goals first | exact .of _

theorem execIslandPowerUp_nexts (c m s) : Nexts (execIslandPowerUp c m s) := by
  unfold execIslandPowerUp
  repeat' first | split | dsimp only
  all_goals first | exact .of _

theorem execSealBroken_nexts (s) : Nexts (execSealBroken s) := .of _

theorem execFetch_nexts (fn tag s) : Nexts (execFetch fn tag s) := by
  unfold execFetch
  repeat' first | split | dsimp only
  all_goals first | exact hostPf_nexts .. | exact .of _

theorem execQuote_nexts (fn tag ns e s) : Nexts (execQuote fn tag ns e s) := by
  unfold execQuote
  repeat' first | split | dsimp only
  all_goals first | exact hostPf_nexts .. | exact .of _

theorem execPollPageUpdate_nexts (vi s) : Nexts (execPollPageUpdate vi s) := by
  unfold execPollPageUpdate
  repeat' first | split | dsimp only
  all_goals first | exact .of _

theorem execLoupeSample_nexts (ch raw s) : Nexts (execLoupeSample ch raw s) := by
  unfold execLoupeSample
  dsimp only
  exact .ite (.of _) (.ite (.of _) (.ite (.of _) (.of _)))

theorem execLpeChcfgWrite_nexts (fn crit warn s) : Nexts (execLpeChcfgWrite fn crit warn s) := by
  unfold execLpeChcfgWrite
  repeat' first | split | dsimp only
  all_goals first | exact hostPf_nexts .. | exact .of _

theorem execLoupeMsTick_nexts (s) : Nexts (execLoupeMsTick s) := by
  unfold execLoupeMsTick
  repeat' first | split | dsimp only
  all_goals first | exact .of _

theorem execInputOvercurrent_nexts (ma s) : Nexts (execInputOvercurrent ma s) := by
  unfold execInputOvercurrent
  repeat' first | split | dsimp only
  all_goals first | exact .of _

theorem execPwrCluFreqWrite_nexts (fn c v s) : Nexts (execPwrCluFreqWrite fn c v s) := hostPf_nexts ..

theorem execFreqChangeDone_nexts (c s) : Nexts (execFreqChangeDone c s) := by
  unfold execFreqChangeDone
  repeat' first | split | dsimp only
  all_goals first | exact .of _

theorem execGoBright_nexts (fn s) : Nexts (execGoBright fn s) := pwrCommand_nexts ..

theorem execGoDim_nexts (fn s) : Nexts (execGoDim fn s) := pwrCommand_nexts ..

theorem execGoDark_nexts (fn s) : Nexts (execGoDark fn s) := pwrCommand_nexts ..

theorem execDarkEntryComplete_nexts (s) : Nexts (execDarkEntryComplete s) := by
  unfold execDarkEntryComplete
  repeat' first | split | dsimp only
  all_goals first | exact .of _

theorem execAutoDimTimeout_nexts (s) : Nexts (execAutoDimTimeout s) := by
  unfold execAutoDimTimeout
  repeat' first | split | dsimp only
  all_goals first | exact .of _

theorem execWake_nexts (src s) : Nexts (execWake src s) := by
  unfold execWake
  repeat' first | split | dsimp only
  all_goals first | exact .of _

theorem execWakeTimer_nexts (s) : Nexts (execWakeTimer s) := by
  unfold execWakeTimer
  repeat' first | split | dsimp only
  all_goals first | exact .of _

theorem execRxRingEnable_nexts (fn vi r c s) : Nexts (execRxRingEnable fn vi r c s) := by
  unfold execRxRingEnable
  repeat' first | split | dsimp only
  all_goals first | exact hostVi_nexts .. | exact .of _

theorem execRxRingDisable_nexts (fn vi r c s) : Nexts (execRxRingDisable fn vi r c s) := by
  unfold execRxRingDisable
  repeat' first | split | dsimp only
  all_goals first | exact hostVi_nexts .. | exact .of _

theorem execPrmModeWrite_nexts (fn port m s) : Nexts (execPrmModeWrite fn port m s) := hostPf_nexts ..

theorem prmCmd_nexts (fn p op i pass s) : Nexts (prmCmd fn p op i pass s) := by
  unfold prmCmd
  repeat' first | split | dsimp only
  all_goals first | exact hostPf_nexts .. | exact .of _

theorem execRuleWrite_nexts (fn port index s) : Nexts (execRuleWrite fn port index s) := prmCmd_nexts ..

theorem execRuleRead_nexts (fn port index s) : Nexts (execRuleRead fn port index s) := prmCmd_nexts ..

theorem execRuleClear_nexts (fn port index s) : Nexts (execRuleClear fn port index s) := prmCmd_nexts ..

theorem execCommit_nexts (fn port s) : Nexts (execCommit fn port s) := prmCmd_nexts ..

theorem execTest_nexts (fn port pass s) : Nexts (execTest fn port pass s) := prmCmd_nexts ..

theorem execTplWrite_nexts (fn port index s) : Nexts (execTplWrite fn port index s) := prmCmd_nexts ..

theorem execTplRead_nexts (fn port index s) : Nexts (execTplRead fn port index s) := prmCmd_nexts ..

theorem execBankCopyComplete_nexts (port s) : Nexts (execBankCopyComplete port s) := by
  unfold execBankCopyComplete
  repeat' first | split | dsimp only
  all_goals first | exact .of _

theorem execBankError_nexts (port s) : Nexts (execBankError port s) := by
  unfold execBankError
  repeat' first | split | dsimp only
  all_goals first | exact .of _

theorem execFlowInsert_nexts (fn port vi s) : Nexts (execFlowInsert fn port vi s) := by
  unfold execFlowInsert
  repeat' first | split | dsimp only
  all_goals first | exact hostPf_nexts .. | exact .of _

theorem execFlowRemove_nexts (fn port ctx s) : Nexts (execFlowRemove fn port ctx s) := by
  unfold execFlowRemove
  repeat' first | split | dsimp only
  all_goals first | exact hostPf_nexts .. | exact .of _

theorem execFlowRead_nexts (fn port ctx s) : Nexts (execFlowRead fn port ctx s) := by
  unfold execFlowRead
  repeat' first | split | dsimp only
  all_goals first | exact hostPf_nexts .. | exact .of _

theorem hostQ_nexts (fn vi off v body s) : Nexts (hostQ fn vi off v body s) := by
  unfold hostQ
  repeat' first | split | dsimp only
  all_goals first | exact hostWr_nexts .. | exact hostVi_nexts .. | exact .of _

theorem execSqEnable_nexts (fn vi q c s) : Nexts (execSqEnable fn vi q c s) := hostQ_nexts ..

theorem execSqDisable_nexts (fn vi q c s) : Nexts (execSqDisable fn vi q c s) := hostQ_nexts ..

theorem execSqDrainComplete_nexts (vi q s) : Nexts (execSqDrainComplete vi q s) := .of _

theorem execCqEnable_nexts (fn vi q size s) : Nexts (execCqEnable fn vi q size s) := hostQ_nexts ..

theorem execCqDisable_nexts (fn vi q size s) : Nexts (execCqDisable fn vi q size s) := hostQ_nexts ..

theorem execSqDoorbell_nexts (fn vi q index s) : Nexts (execSqDoorbell fn vi q index s) := hostQ_nexts ..

theorem execCqDoorbell_nexts (fn vi q index s) : Nexts (execCqDoorbell fn vi q index s) := hostQ_nexts ..

theorem execDescriptorFetch_nexts (vi q n out data s) : Nexts (execDescriptorFetch vi q n out data s) := by
  unfold execDescriptorFetch
  repeat' first | split | dsimp only
  all_goals first | exact .of _

theorem execLaunchTake_nexts (vi q s) : Nexts (execLaunchTake vi q s) := by
  unfold execLaunchTake
  repeat' first | split | dsimp only
  all_goals first | exact .of _

theorem execResetDrainComplete_nexts (vi s) : Nexts (execResetDrainComplete vi s) := by
  unfold execResetDrainComplete
  repeat' first | split | dsimp only
  all_goals first | exact .of _

theorem execResetForceTimeout_nexts (vi s) : Nexts (execResetForceTimeout vi s) := by
  unfold execResetForceTimeout
  repeat' first | split | dsimp only
  all_goals first | exact .of _

theorem execInstanceReset_nexts (fn vi s) : Nexts (execInstanceReset fn vi s) := hostVi_nexts ..

theorem execReleaseComplete_nexts (vi s) : Nexts (execReleaseComplete vi s) := by
  unfold execReleaseComplete
  repeat' first | split | dsimp only
  all_goals first | exact .of _

theorem execVfEnable_nexts (fn n s) : Nexts (execVfEnable fn n s) := by
  unfold execVfEnable
  repeat' first | split | dsimp only
  all_goals first | exact hostCfg_nexts .. | exact .of _

theorem execVfDisable_nexts (fn s) : Nexts (execVfDisable fn s) := by
  unfold execVfDisable
  repeat' first | split | dsimp only
  all_goals first | exact hostCfg_nexts .. | exact .of _

theorem execFunctionLevelReset_nexts (fn s) : Nexts (execFunctionLevelReset fn s) := hostCfg_nexts ..

theorem execUpstreamPortReset_nexts (port kind s) : Nexts (execUpstreamPortReset port kind s) := by
  unfold execUpstreamPortReset
  repeat' first | split | dsimp only
  all_goals first | exact .of _

theorem execPerstDeassert_nexts (port s) : Nexts (execPerstDeassert port s) := by
  unfold execPerstDeassert
  repeat' first | split | dsimp only
  all_goals first | exact .of _

theorem execPresenceDetectChange_nexts (port s) : Nexts (execPresenceDetectChange port s) := by
  unfold execPresenceDetectChange
  repeat' first | split | dsimp only
  all_goals first | exact .of _

theorem execGive_nexts (fn vi r s) : Nexts (execGive fn vi r s) := hostVi_nexts ..

theorem execShare_nexts (fn vi r s) : Nexts (execShare fn vi r s) := hostVi_nexts ..

theorem execTake_nexts (fn vi r s) : Nexts (execTake fn vi r s) := hostVi_nexts ..

theorem execReshare_nexts (fn vi r s) : Nexts (execReshare fn vi r s) := hostVi_nexts ..

theorem execGiveGroup_nexts (fn vi r s) : Nexts (execGiveGroup fn vi r s) := hostVi_nexts ..

theorem execTakeGroup_nexts (fn vi r s) : Nexts (execTakeGroup fn vi r s) := hostVi_nexts ..

theorem execResRead_nexts (fn vi r s) : Nexts (execResRead fn vi r s) := hostVi_nexts ..

theorem execReshapingComplete_nexts (what s) : Nexts (execReshapingComplete what s) := by
  unfold execReshapingComplete
  repeat' first | split | dsimp only
  all_goals first | exact .of _

theorem execViShareWrite_nexts (fn vi v s) : Nexts (execViShareWrite fn vi v s) := hostVi_nexts ..

theorem execViLimitsWrite_nexts (fn vi v s) : Nexts (execViLimitsWrite fn vi v s) := hostVi_nexts ..

theorem execViPollWrite_nexts (fn vi v s) : Nexts (execViPollWrite fn vi v s) := hostVi_nexts ..

theorem execHandlerStart_nexts (fn vi c s) : Nexts (execHandlerStart fn vi c s) := hostVi_nexts ..

theorem execHandlerStop_nexts (fn vi c s) : Nexts (execHandlerStop fn vi c s) := hostVi_nexts ..

theorem execViEvRingWrite_nexts (fn vi v s) : Nexts (execViEvRingWrite fn vi v s) := hostVi_nexts ..

theorem execViEvAckWrite_nexts (fn vi v s) : Nexts (execViEvAckWrite fn vi v s) := hostVi_nexts ..

theorem execViEvPostWrite_nexts (fn vi v s) : Nexts (execViEvPostWrite fn vi v s) := hostVi_nexts ..

theorem scalar_nexts (t word body s) : Nexts (scalar t word body s) := issue_nexts ..

theorem execAdd_nexts (t d a b s) : Nexts (execAdd t d a b s) := scalar_nexts ..

theorem execSub_nexts (t d a b s) : Nexts (execSub t d a b s) := scalar_nexts ..

theorem execAddv_nexts (t d a b s) : Nexts (execAddv t d a b s) := scalar_nexts ..

theorem execSubv_nexts (t d a b s) : Nexts (execSubv t d a b s) := scalar_nexts ..

theorem execAnd_nexts (t d a b s) : Nexts (execAnd t d a b s) := scalar_nexts ..

theorem execOr_nexts (t d a b s) : Nexts (execOr t d a b s) := scalar_nexts ..

theorem execXor_nexts (t d a b s) : Nexts (execXor t d a b s) := scalar_nexts ..

theorem execAndn_nexts (t d a b s) : Nexts (execAndn t d a b s) := scalar_nexts ..

theorem execSlt_nexts (t d a b s) : Nexts (execSlt t d a b s) := scalar_nexts ..

theorem execSltu_nexts (t d a b s) : Nexts (execSltu t d a b s) := scalar_nexts ..

theorem execSeq_nexts (t d a b s) : Nexts (execSeq t d a b s) := scalar_nexts ..

theorem execMin_nexts (t d a b s) : Nexts (execMin t d a b s) := scalar_nexts ..

theorem execMinu_nexts (t d a b s) : Nexts (execMinu t d a b s) := scalar_nexts ..

theorem execMax_nexts (t d a b s) : Nexts (execMax t d a b s) := scalar_nexts ..

theorem execMaxu_nexts (t d a b s) : Nexts (execMaxu t d a b s) := scalar_nexts ..

theorem execShl_nexts (t d a b s) : Nexts (execShl t d a b s) := scalar_nexts ..

theorem execShr_nexts (t d a b s) : Nexts (execShr t d a b s) := scalar_nexts ..

theorem execSra_nexts (t d a b s) : Nexts (execSra t d a b s) := scalar_nexts ..

theorem execRol_nexts (t d a b s) : Nexts (execRol t d a b s) := scalar_nexts ..

theorem execRor_nexts (t d a b s) : Nexts (execRor t d a b s) := scalar_nexts ..

theorem execMov_nexts (t d src s) : Nexts (execMov t d src s) := scalar_nexts ..

theorem execNeg_nexts (t d a s) : Nexts (execNeg t d a s) := scalar_nexts ..

theorem execNegs_nexts (t d a s) : Nexts (execNegs t d a s) := scalar_nexts ..

theorem execSext_nexts (t fw d a s) : Nexts (execSext t fw d a s) := scalar_nexts ..

theorem execZextW_nexts (t d a s) : Nexts (execZextW t d a s) := scalar_nexts ..

theorem execMovhi_nexts (t d a imm s) : Nexts (execMovhi t d a imm s) := scalar_nexts ..

theorem execMul_nexts (t d a b s) : Nexts (execMul t d a b s) := scalar_nexts ..

theorem execMulv_nexts (t d a b s) : Nexts (execMulv t d a b s) := scalar_nexts ..

theorem execMulh_nexts (t d a b s) : Nexts (execMulh t d a b s) := scalar_nexts ..

theorem execMulhu_nexts (t d a b s) : Nexts (execMulhu t d a b s) := scalar_nexts ..

theorem execDiv_nexts (t d a b s) : Nexts (execDiv t d a b s) := scalar_nexts ..

theorem execDivu_nexts (t d a b s) : Nexts (execDivu t d a b s) := scalar_nexts ..

theorem execRem_nexts (t d a b s) : Nexts (execRem t d a b s) := scalar_nexts ..

theorem execRemu_nexts (t d a b s) : Nexts (execRemu t d a b s) := scalar_nexts ..

theorem execPopc_nexts (t d a s) : Nexts (execPopc t d a s) := scalar_nexts ..

theorem execClz_nexts (t d a s) : Nexts (execClz t d a s) := scalar_nexts ..

theorem execCtz_nexts (t d a s) : Nexts (execCtz t d a s) := scalar_nexts ..

theorem execRngk_nexts (t d a b s) : Nexts (execRngk t d a b s) := scalar_nexts ..

theorem keyCmd_nexts (fn op slot vi ext s) : Nexts (keyCmd fn op slot vi ext s) := by
  unfold keyCmd
  repeat' first | split | dsimp only
  all_goals first | exact hostPf_nexts .. | exact .of _

theorem execInstall_nexts (fn slot vi ext s) : Nexts (execInstall fn slot vi ext s) := keyCmd_nexts ..

theorem execClear_nexts (fn slot s) : Nexts (execClear fn slot s) := keyCmd_nexts ..

theorem execKeyRead_nexts (fn slot s) : Nexts (execKeyRead fn slot s) := keyCmd_nexts ..

theorem execInstallSa_nexts (fn vi ext s) : Nexts (execInstallSa fn vi ext s) := keyCmd_nexts ..

theorem execRetireSa_nexts (fn vi ext s) : Nexts (execRetireSa fn vi ext s) := keyCmd_nexts ..

theorem execMsecCfgWrite_nexts (fn port c s) : Nexts (execMsecCfgWrite fn port c s) := hostPf_nexts ..

theorem secured_nexts (via sid body s) : Nexts (secured via sid body s) := by
  unfold secured
  repeat' first | split | dsimp only
  all_goals first | exact .of _

theorem execFrameReceive_nexts (port f s) : Nexts (execFrameReceive port f s) := by
  unfold execFrameReceive
  repeat' first | split | dsimp only
  all_goals first | exact secured_nexts .. | exact .of _

theorem execFrameTransmitStart_nexts (port s) : Nexts (execFrameTransmitStart port s) := by
  unfold execFrameTransmitStart
  repeat' first | split | dsimp only
  all_goals first | exact .of _

theorem spdmReq_nexts (v need body s) : Nexts (spdmReq v need body s) := by
  unfold spdmReq
  repeat' first | split | dsimp only
  all_goals first | exact .of _

theorem execGetVersion_nexts (via s) : Nexts (execGetVersion via s) := spdmReq_nexts ..

theorem execGetCapabilities_nexts (via s) : Nexts (execGetCapabilities via s) := spdmReq_nexts ..

theorem execNegotiateAlgorithms_nexts (via match_ s) : Nexts (execNegotiateAlgorithms via match_ s) := spdmReq_nexts ..

theorem execGetDigests_nexts (via s) : Nexts (execGetDigests via s) := spdmReq_nexts ..

theorem execGetCertificate_nexts (via slot s) : Nexts (execGetCertificate via slot s) := spdmReq_nexts ..

theorem execChallenge_nexts (via slot nonce s) : Nexts (execChallenge via slot nonce s) := spdmReq_nexts ..

theorem execGetMeasurements_nexts (via block s) : Nexts (execGetMeasurements via block s) := spdmReq_nexts ..

theorem execKeyExchange_nexts (via beat s) : Nexts (execKeyExchange via beat s) := spdmReq_nexts ..

theorem execFinish_nexts (via sid ok s) : Nexts (execFinish via sid ok s) := by
  unfold execFinish
  repeat' first | split | dsimp only
  all_goals first | exact spdmReq_nexts .. | exact secured_nexts .. | exact .of _

theorem execHeartbeat_nexts (via sid s) : Nexts (execHeartbeat via sid s) := secured_nexts ..

theorem execKeyUpdate_nexts (via sid s) : Nexts (execKeyUpdate via sid s) := secured_nexts ..

theorem execEndSession_nexts (via sid s) : Nexts (execEndSession via sid s) := secured_nexts ..

theorem execSetKek_nexts (via sid kek s) : Nexts (execSetKek via sid kek s) := secured_nexts ..

theorem execHeartbeatPeriodExpiry_nexts (via sid s) : Nexts (execHeartbeatPeriodExpiry via sid s) := by
  unfold execHeartbeatPeriodExpiry
  repeat' first | split | dsimp only
  all_goals first | exact .of _

theorem ideReq_nexts (port sid body s) : Nexts (ideReq port sid body s) := secured_nexts ..

theorem execIdeQuery_nexts (port sid s) : Nexts (execIdeQuery port sid s) := ideReq_nexts ..

theorem execKeyProg_nexts (port sid k key s) : Nexts (execKeyProg port sid k key s) := ideReq_nexts ..

theorem execKSetGo_nexts (port sid k s) : Nexts (execKSetGo port sid k s) := ideReq_nexts ..

theorem execKSetStop_nexts (port sid k s) : Nexts (execKSetStop port sid k s) := ideReq_nexts ..

theorem execSnapshot_nexts (fn vi fits s) : Nexts (execSnapshot fn vi fits s) := hostPf_nexts ..

theorem execRestore_nexts (fn vi s) : Nexts (execRestore fn vi s) := hostPf_nexts ..

theorem execAbort_nexts (fn vi s) : Nexts (execAbort fn vi s) := hostPf_nexts ..

theorem execSnapshotArm_nexts (vi s) : Nexts (execSnapshotArm vi s) := by
  unfold execSnapshotArm
  repeat' first | split | dsimp only
  all_goals first | exact .of _

theorem execPageCopy_nexts (vi page s) : Nexts (execPageCopy vi page s) := by
  unfold execPageCopy
  repeat' first | split | dsimp only
  all_goals first | exact .of _

theorem execChunkVerify_nexts (vi pages out s) : Nexts (execChunkVerify vi pages out s) := by
  unfold execChunkVerify
  repeat' first | split | dsimp only
  all_goals first | exact .of _

theorem execSnapshotSeal_nexts (vi out s) : Nexts (execSnapshotSeal vi out s) := by
  unfold execSnapshotSeal
  repeat' first | split | dsimp only
  all_goals first | exact .of _

theorem execCatalogueReadComplete_nexts (vi found s) : Nexts (execCatalogueReadComplete vi found s) := by
  unfold execCatalogueReadComplete
  repeat' first | split | dsimp only
  all_goals first | exact .of _

theorem execRestorePage_nexts (vi p s) : Nexts (execRestorePage vi p s) := by
  unfold execRestorePage
  repeat' first | split | dsimp only
  all_goals first | exact .of _

theorem execPwrEnHigh_nexts (held s) : Nexts (execPwrEnHigh held s) := by
  unfold execPwrEnHigh
  repeat' first | split | dsimp only
  all_goals first | exact .of _

theorem execPwrEnLow_nexts (s) : Nexts (execPwrEnLow s) := .of _

theorem execInputRise_nexts (held s) : Nexts (execInputRise held s) := by
  unfold execInputRise
  repeat' first | split | dsimp only
  all_goals first | exact .of _

theorem execInputUndervoltage_nexts (s) : Nexts (execInputUndervoltage s) := .of _

theorem execInputRemoved_nexts (m persisted s) : Nexts (execInputRemoved m persisted s) := .of _

theorem execModRst_nexts (s) : Nexts (execModRst s) := by
  unfold execModRst
  repeat' first | split | dsimp only
  all_goals first | exact .of _

theorem execConvert_nexts (ms addr1 addr0 s) : Nexts (execConvert ms addr1 addr0 s) := by
  unfold execConvert
  repeat' first | split | dsimp only
  all_goals first | exact .of _

theorem execCoolant_nexts (s) : Nexts (execCoolant s) := by
  unfold execCoolant
  repeat' first | split | dsimp only
  all_goals first | exact .of _

theorem execCoolantTimeout_nexts (s) : Nexts (execCoolantTimeout s) := by
  unfold execCoolantTimeout
  repeat' first | split | dsimp only
  all_goals first | exact .of _

theorem execRails_nexts (s) : Nexts (execRails s) := by
  unfold execRails
  repeat' first | split | dsimp only
  all_goals first | exact .of _

theorem execSecure_nexts (s) : Nexts (execSecure s) := by
  unfold execSecure
  repeat' first | split | dsimp only
  all_goals first | exact .of _

theorem execTrain_nexts (r s) : Nexts (execTrain r s) := by
  unfold execTrain
  repeat' first | split | dsimp only
  all_goals first | exact .of _

theorem execFill_nexts (s) : Nexts (execFill s) := by
  unfold execFill
  repeat' first | split | dsimp only
  all_goals first | exact .of _

theorem execFirmware_nexts (s) : Nexts (execFirmware s) := by
  unfold execFirmware
  repeat' first | split | dsimp only
  all_goals first | exact .of _

theorem stringStep_nexts (t fn wf word body s) : Nexts (stringStep t fn wf word body s) := issue_nexts ..

theorem execMovs_nexts (t desc exit d sr n s) : Nexts (execMovs t desc exit d sr n s) := stringStep_nexts ..

theorem execFills_nexts (t exit d n v s) : Nexts (execFills t exit d n v s) := stringStep_nexts ..

theorem execCmps_nexts (t exit r a b n s) : Nexts (execCmps t exit r a b n s) := stringStep_nexts ..

theorem execScans_nexts (t var exit r p n c s) : Nexts (execScans t var exit r p n c s) := stringStep_nexts ..

theorem execXlats_nexts (t del exit d sr n tb e s) : Nexts (execXlats t del exit d sr n tb e s) := stringStep_nexts ..

theorem execRhash_nexts (t exit h p n k w s) : Nexts (execRhash t exit h p n k w s) := stringStep_nexts ..

theorem execDistsB_nexts (t exit d a b c s) : Nexts (execDistsB t exit d a b c s) := stringStep_nexts ..

theorem execSynConfig_nexts (fn c s) : Nexts (execSynConfig fn c s) := hostWr_nexts ..

theorem execSynRead_nexts (fn c s) : Nexts (execSynRead fn c s) := hostWr_nexts ..

theorem execSynRestore_nexts (fn c s) : Nexts (execSynRestore fn c s) := hostWr_nexts ..

theorem execSynUnset_nexts (fn c s) : Nexts (execSynUnset fn c s) := hostWr_nexts ..

theorem execHostSemv_nexts (fn c s) : Nexts (execHostSemv fn c s) := hostWr_nexts ..

theorem execHostSemt_nexts (fn c s) : Nexts (execHostSemt fn c s) := hostWr_nexts ..

theorem execHostEcadd_nexts (fn c s) : Nexts (execHostEcadd fn c s) := hostWr_nexts ..

theorem execHostEcread_nexts (fn c s) : Nexts (execHostEcread fn c s) := hostWr_nexts ..

theorem execSyncOpAtHome_nexts (a s) : Nexts (execSyncOpAtHome a s) := by
  unfold execSyncOpAtHome
  repeat' first | split | dsimp only
  all_goals first | exact .of _

theorem execNearUnitRelease_nexts (q obj s) : Nexts (execNearUnitRelease q obj s) := by
  unfold execNearUnitRelease
  repeat' first | split | dsimp only
  all_goals first | exact .of _

theorem execSyncWithdraw_nexts (t op s) : Nexts (execSyncWithdraw t op s) := by
  unfold execSyncWithdraw
  repeat' first | split | dsimp only
  all_goals first | exact .of _

theorem execSyncWatchdog_nexts (obj s) : Nexts (execSyncWatchdog obj s) := by
  unfold execSyncWatchdog
  repeat' first | split | dsimp only
  all_goals first | exact .of _

theorem execNearUnitTimeout_nexts (q late s) : Nexts (execNearUnitTimeout q late s) := by
  unfold execNearUnitTimeout
  repeat' first | split | dsimp only
  all_goals first | exact .of _

theorem syncIssue_nexts (t wf word idx d handle operand s) : Nexts (syncIssue t wf word idx d handle operand s) := issue_nexts ..

theorem execUbar_nexts (t d scope s) : Nexts (execUbar t d scope s) := by
  unfold execUbar
  repeat' first | split | dsimp only
  all_goals first | exact issue_nexts .. | exact .of _

theorem execSbar_nexts (t d a s) : Nexts (execSbar t d a s) := syncIssue_nexts ..

theorem execSemp_nexts (t d a b s) : Nexts (execSemp t d a b s) := syncIssue_nexts ..

theorem execSemv_nexts (t d a b s) : Nexts (execSemv t d a b s) := syncIssue_nexts ..

theorem execSemt_nexts (t d a b s) : Nexts (execSemt t d a b s) := syncIssue_nexts ..

theorem execEcadd_nexts (t d a b s) : Nexts (execEcadd t d a b s) := syncIssue_nexts ..

theorem execEcwait_nexts (t d a b s) : Nexts (execEcwait t d a b s) := syncIssue_nexts ..

theorem execEcread_nexts (t d a s) : Nexts (execEcread t d a s) := syncIssue_nexts ..

theorem execLkacq_nexts (t d a s) : Nexts (execLkacq t d a s) := syncIssue_nexts ..

theorem execLkrel_nexts (t d a s) : Nexts (execLkrel t d a s) := syncIssue_nexts ..

theorem execLktry_nexts (t d a s) : Nexts (execLktry t d a s) := syncIssue_nexts ..

theorem sysInstr_nexts (t c wf priv word body s) : Nexts (sysInstr t c wf priv word body s) := issue_nexts ..

theorem execMfs_nexts (t d sreg s) : Nexts (execMfs t d sreg s) := sysInstr_nexts ..

theorem execMts_nexts (t sreg a s) : Nexts (execMts t sreg a s) := sysInstr_nexts ..

theorem execBrk_nexts (t imm s) : Nexts (execBrk t imm s) := sysInstr_nexts ..

theorem execHcall_nexts (t imm s) : Nexts (execHcall t imm s) := sysInstr_nexts ..

theorem execNop_nexts (t s) : Nexts (execNop t s) := sysInstr_nexts ..

theorem execLaunch_nexts (t d a s) : Nexts (execLaunch t d a s) := sysInstr_nexts ..

theorem execTresume_nexts (t a s) : Nexts (execTresume t a s) := sysInstr_nexts ..

theorem execTendOther_nexts (t a d s) : Nexts (execTendOther t a d s) := sysInstr_nexts ..

theorem execEvwait_nexts (t d s) : Nexts (execEvwait t d s) := by
  unfold execEvwait
  repeat' first | split | dsimp only
  all_goals first | exact sysInstr_nexts .. | exact .of _

theorem execSysrd_nexts (t d a s) : Nexts (execSysrd t d a s) := sysInstr_nexts ..

theorem execSyswr_nexts (t a d s) : Nexts (execSyswr t a d s) := sysInstr_nexts ..

theorem execEvpost_nexts (t a d s) : Nexts (execEvpost t a d s) := sysInstr_nexts ..

theorem execIllegalEncoding_nexts (t word s) : Nexts (execIllegalEncoding t word s) := sysInstr_nexts ..

theorem execSaveComplete_nexts (t s) : Nexts (execSaveComplete t s) := by
  unfold execSaveComplete
  repeat' first | split | dsimp only
  all_goals first | exact .of _

theorem execThreadResume_nexts (w s) : Nexts (execThreadResume w s) := by
  unfold execThreadResume
  repeat' first | split | dsimp only
  all_goals first | exact .of _

theorem execThreadDrained_nexts (e s) : Nexts (execThreadDrained e s) := by
  unfold execThreadDrained
  repeat' first | split | dsimp only
  all_goals first | exact .of _

theorem execHandlerModeTrap_nexts (vi s) : Nexts (execHandlerModeTrap vi s) := by
  unfold execHandlerModeTrap
  repeat' first | split | dsimp only
  all_goals first | exact .of _

theorem execLaunchAdmit_nexts (num s) : Nexts (execLaunchAdmit num s) := .of _

theorem execTrcCfgWrite_nexts (fn c s) : Nexts (execTrcCfgWrite fn c s) := hostPf_nexts ..

theorem execFire_nexts (fn s) : Nexts (execFire fn s) := by
  unfold execFire
  repeat' first | split | dsimp only
  all_goals first | exact hostPf_nexts .. | exact .of _

theorem execArm_nexts (fn s) : Nexts (execArm fn s) := by
  unfold execArm
  repeat' first | split | dsimp only
  all_goals first | exact hostPf_nexts .. | exact .of _

theorem execTrcMarkWrite_nexts (fn v s) : Nexts (execTrcMarkWrite fn v s) := hostPf_nexts ..

theorem execTrcHostAckWrite_nexts (fn v s) : Nexts (execTrcHostAckWrite fn v s) := hostPf_nexts ..

theorem execCopy_nexts (vi q s) : Nexts (execCopy vi q s) := .of _

theorem execStgRead_nexts (vi q s) : Nexts (execStgRead vi q s) := .of _

theorem execStgWrite_nexts (vi q s) : Nexts (execStgWrite vi q s) := .of _

theorem execStgFlush_nexts (vi q s) : Nexts (execStgFlush vi q s) := .of _

theorem execStgDeallocate_nexts (vi q s) : Nexts (execStgDeallocate vi q s) := .of _

theorem execStgWriteZeroes_nexts (vi q s) : Nexts (execStgWriteZeroes vi q s) := .of _

theorem execStorageWindowAccess_nexts (port rid off r ext s) : Nexts (execStorageWindowAccess port rid off r ext s) := .of _

theorem execNvmeCompletion_nexts (vi q seq status data s) : Nexts (execNvmeCompletion vi q seq status data s) := by
  unfold execNvmeCompletion
  repeat' first | split | dsimp only
  all_goals first | exact .of _

theorem execNvmeCmdTimeout_nexts (vi q seq s) : Nexts (execNvmeCmdTimeout vi q seq s) := by
  unfold execNvmeCmdTimeout
  repeat' first | split | dsimp only
  all_goals first | exact .of _

theorem execHostReadCompletion_nexts (vi q seq out data s) : Nexts (execHostReadCompletion vi q seq out data s) := by
  unfold execHostReadCompletion
  repeat' first | split | dsimp only
  all_goals first | exact step_nexts .. | exact .of _

theorem execDownstreamLinkLoss_nexts (loss s) : Nexts (execDownstreamLinkLoss loss s) := .of _

theorem execDownstreamPerstRelease_nexts (port s) : Nexts (execDownstreamPerstRelease port s) := by
  unfold execDownstreamPerstRelease
  repeat' first | split | dsimp only
  all_goals first | exact .of _

theorem vector_nexts (t wf word et n body s) : Nexts (vector t wf word et n body s) := issue_nexts ..

theorem vec2_nexts (t major fn lat ok f g s) : Nexts (vec2 t major fn lat ok f g s) := vector_nexts ..

theorem vec1_nexts (t major fn lat ok f g s) : Nexts (vec1 t major fn lat ok f g s) := vector_nexts ..

theorem execVaddI_nexts (t sub f s) : Nexts (execVaddI t sub f s) := vec2_nexts ..

theorem execVadds_nexts (t sub f s) : Nexts (execVadds t sub f s) := vec2_nexts ..

theorem execVminI_nexts (t k f s) : Nexts (execVminI t k f s) := vec2_nexts ..

theorem execVlogic_nexts (t k f s) : Nexts (execVlogic t k f s) := vec2_nexts ..

theorem execVshift_nexts (t k f s) : Nexts (execVshift t k f s) := vec2_nexts ..

theorem execVnegI_nexts (t f s) : Nexts (execVnegI t f s) := vec1_nexts ..

theorem execVcmp_nexts (t k et md va vb km s) : Nexts (execVcmp t k et md va vb km s) := by
  unfold execVcmp
  repeat' first | split | dsimp only
  all_goals first | exact vector_nexts .. | exact .of _

theorem execVsel_nexts (t et vd va vb km s) : Nexts (execVsel t et vd va vb km s) := vector_nexts ..

theorem execVmov_nexts (t f s) : Nexts (execVmov t f s) := vec1_nexts ..

theorem execVbcast_nexts (t et vd g km s) : Nexts (execVbcast t et vd g km s) := vector_nexts ..

theorem execVperm_nexts (t et vd va vb km s) : Nexts (execVperm t et vd va vb km s) := vector_nexts ..

theorem execVins_nexts (t et vd g x km s) : Nexts (execVins t et vd g x km s) := vector_nexts ..

theorem execVext_nexts (t et g va x s) : Nexts (execVext t et g va x s) := vector_nexts ..

theorem execVaddF_nexts (t k f s) : Nexts (execVaddF t k f s) := vec2_nexts ..

theorem execVfma_nexts (t f vc s) : Nexts (execVfma t f vc s) := vector_nexts ..

theorem execVminF_nexts (t max f s) : Nexts (execVminF t max f s) := vec2_nexts ..

theorem execVnegF_nexts (t abs f s) : Nexts (execVnegF t abs f s) := vec1_nexts ..

theorem execVmac_nexts (t f s) : Nexts (execVmac t f s) := by
  unfold execVmac
  repeat' first | split | dsimp only
  all_goals first | exact vector_nexts .. | exact .of _

theorem execVmulI_nexts (t f s) : Nexts (execVmulI t f s) := vec2_nexts ..

theorem execVcvt_nexts (t f s) : Nexts (execVcvt t f s) := vector_nexts ..

theorem execVcvtu_nexts (t f s) : Nexts (execVcvtu t f s) := vector_nexts ..

theorem execVredAdd_nexts (t et g va km s) : Nexts (execVredAdd t et g va km s) := vector_nexts ..

theorem execVredMinmax_nexts (t k et g va km s) : Nexts (execVredMinmax t k et g va km s) := vector_nexts ..

theorem execMaskLogic_nexts (t k md a b s) : Nexts (execMaskLogic t k md a b s) := issue_nexts ..

theorem execMset_nexts (t md x g s) : Nexts (execMset t md x g s) := issue_nexts ..

theorem execMpop_nexts (t et g a s) : Nexts (execMpop t et g a s) := issue_nexts ..

end Sys2Proof.Machine
end

