-- ==== Sys2Proof/WellFormed.lean ====
section
/-! DEFINITION. Well-formed commands: a thread instruction whose operands keep the encoding rules of R115. The operands of every other
command are typed so that each value is one the outside world can bring. -/

namespace Sys2Proof

open Machine

/-- The command keeps the operand rules of its encoding (R115); one that does not traps with ILLEGAL. -/
def wellFormed (i : Instr) : Bool :=
  match i with
  | .add _ _ _ _ => true
  | .sub _ _ _ _ => true
  | .addv _ _ _ _ => true
  | .subv _ _ _ _ => true
  | .and _ _ _ _ => true
  | .or _ _ _ _ => true
  | .xor _ _ _ _ => true
  | .andn _ _ _ _ => true
  | .slt _ _ _ _ => true
  | .sltu _ _ _ _ => true
  | .seq _ _ _ _ => true
  | .min _ _ _ _ => true
  | .minu _ _ _ _ => true
  | .max _ _ _ _ => true
  | .maxu _ _ _ _ => true
  | .shl _ _ _ _ => true
  | .shr _ _ _ _ => true
  | .sra _ _ _ _ => true
  | .rol _ _ _ _ => true
  | .ror _ _ _ _ => true
  | .mov _ _ _ => true
  | .neg _ _ _ => true
  | .negs _ _ _ => true
  | .sext _ _ _ _ => true
  | .zextW _ _ _ => true
  | .movhi _ _ _ _ => true
  | .mul _ _ _ _ => true
  | .mulv _ _ _ _ => true
  | .mulh _ _ _ _ => true
  | .mulhu _ _ _ _ => true
  | .div _ _ _ _ => true
  | .divu _ _ _ _ => true
  | .rem _ _ _ _ => true
  | .remu _ _ _ _ => true
  | .popc _ _ _ => true
  | .clz _ _ _ => true
  | .ctz _ _ _ => true
  | .rngk _ _ _ _ => true
  | .b _ _ => true
  | .call _ _ => true
  | .bcc _ _ _ _ _ => true
  | .br _ _ => true
  | .callr _ _ => true
  | .ret _ => true
  | .wait _ _ _ => true
  | .brep _ _ len => okBrep len
  | .tend _ => true
  | .ld _ _ _ _ _ => true
  | .st _ _ _ _ _ => true
  | .vld _ _ => true
  | .vst _ _ => true
  | .vldx _ _ => true
  | .vstx _ _ => true
  | .lds _ _ _ _ _ => true
  | .sts _ _ _ _ _ => true
  | .vlds _ _ => true
  | .vsts _ _ => true
  | .amo _ op _ n d _ _ c => okAmo op n d c
  | .rspush _ _ _ => true
  | .rspop _ _ _ => true
  | .movs _ _ _ d sr n => okDistinct [d, sr, n]
  | .fills _ _ d n _ => okDistinct [d, n]
  | .cmps _ _ r a b n => okDistinct [r, a, b, n]
  | .scans _ _ _ r p n _ => okDistinct [r, p, n]
  | .xlats _ _ _ d sr n _ e => okDistinct [d, sr, n, e]
  | .rhash _ _ h p n _ w => okDistinct [h, p, n] && okWin w
  | .distsB _ _ d _ _ _ => okDistinct [d]
  | .vaddI _ _ f => f.et.isInt
  | .vadds _ _ f => f.et.isInt
  | .vminI _ _ f => f.et.isInt
  | .vlogic _ _ f => f.et.isInt
  | .vshift _ _ f => f.et.isInt
  | .vnegI _ f => f.et.isInt
  | .vcmp _ k et _ _ _ _ => okVcmp k et
  | .vsel _ et _ _ _ _ => !et.isMx
  | .vmov _ f => !f.et.isMx
  | .vbcast _ et _ _ _ => !et.isMx
  | .vperm _ et _ _ _ _ => !et.isMx
  | .vins _ et _ _ x _ => okLane et x
  | .vext _ et _ _ x => okLane et x
  | .vaddF _ _ f => f.et.isArith
  | .vfma _ f _ => f.et.isArith
  | .vminF _ _ f => f.et.isArith
  | .vnegF _ _ f => f.et.isArith
  | .vmac _ f => okVmac f.et
  | .vmulI _ f => f.et.isInt
  | .vcvt _ f => okCvt f
  | .vcvtu _ f => okCvt f
  | .vredAdd _ et _ _ _ => okRed et
  | .vredMinmax _ _ et _ _ _ => et.isInt
  | .maskLogic _ k _ _ b => okMask k b
  | .mset _ _ x _ => okHalf x
  | .mpop _ _ _ _ => true
  | .eaadd _ et _ _ _ => okFold et
  | .eamac _ et _ _ _ _ => okFold et
  | .eaclr _ _ => true
  | .earound _ et _ _ => okRound et
  | .eainfo _ _ _ => true
  | .eamerge _ _ _ => true
  | .easave _ _ _ => true
  | .ubar _ _ scope => okScope scope
  | .sbar _ _ _ => true
  | .semp _ _ _ _ => true
  | .semv _ _ _ _ => true
  | .semt _ _ _ _ => true
  | .ecadd _ _ _ _ => true
  | .ecwait _ _ _ _ => true
  | .ecread _ _ _ => true
  | .lkacq _ _ _ => true
  | .lkrel _ _ _ => true
  | .lktry _ _ _ => true
  | .mfs _ _ sreg => okSreg sreg
  | .mts _ sreg _ => okSreg sreg
  | .brk _ _ => true
  | .hcall _ _ => true
  | .nop _ => true
  | .launch _ _ _ => true
  | .tresume _ _ => true
  | .tendOther _ _ _ => true
  | .evwait _ _ => true
  | .sysrd _ _ _ => true
  | .syswr _ _ _ => true
  | .evpost _ _ _ => true
  | .handlerModeTrap _ => true
  | .loadComplete _ _ _ _ => true
  | .storeComplete _ _ _ => true
  | .threadDrained _ => true
  | .saveComplete _ => true
  | .threadResume _ => true
  | .launchTake _ _ => true
  | .launchAdmit _ => true
  | .cmpCreate _ _ => true
  | .cmpAdd _ _ => true
  | .cmpRemove _ _ => true
  | .cmpDestroy _ _ => true
  | .cmpRead _ _ => true
  | .cmpReset _ _ => true
  | .cmpExport _ _ => true
  | .compositeConfirm _ => true
  | .unitResetComplete => true
  | .reshapingComplete _ => true
  | .untCntvalRead _ => true
  | .gtMap _ _ _ _ => true
  | .gtUnmap _ _ _ => true
  | .gtSetattr _ _ _ _ => true
  | .gtRead _ _ _ => true
  | .scrubComplete _ => true
  | .makeColumnLocal _ _ => true
  | .makeSpread _ _ => true
  | .viSpillWrite _ _ _ _ => true
  | .devCtxSpillWrite _ _ => true
  | .patrolScrub _ _ => true
  | .mirrorWr _ _ _ _ _ => true
  | .mirrorAck _ => true
  | .synConfig _ _ => true
  | .synRead _ _ => true
  | .synRestore _ _ => true
  | .synUnset _ _ => true
  | .hostSemv _ _ => true
  | .hostSemt _ _ => true
  | .hostEcadd _ _ => true
  | .hostEcread _ _ => true
  | .syncOpAtHome _ => true
  | .nearUnitRelease _ _ => true
  | .syncWithdraw _ _ => true
  | .syncWatchdog _ => true
  | .nearUnitTimeout _ _ => true
  | .vfEnable _ _ => true
  | .vfDisable _ => true
  | .viPollWrite _ _ _ => true
  | .give _ _ _ => true
  | .share _ _ _ => true
  | .take _ _ _ => true
  | .reshare _ _ _ => true
  | .giveGroup _ _ _ => true
  | .takeGroup _ _ _ => true
  | .resRead _ _ _ => true
  | .viShareWrite _ _ _ => true
  | .viLimitsWrite _ _ _ => true
  | .handlerStart _ _ _ => true
  | .handlerStop _ _ _ => true
  | .viEvRingWrite _ _ _ => true
  | .viEvAckWrite _ _ _ => true
  | .viEvPostWrite _ _ _ => true
  | .instanceReset _ _ => true
  | .resetDrainComplete _ => true
  | .resetForceTimeout _ => true
  | .releaseComplete _ => true
  | .busMasterClear _ => true
  | .busMasterSet _ => true
  | .powerStateWrite _ _ => true
  | .functionLevelReset _ => true
  | .bar2Read _ _ _ => true
  | .bar2Write _ _ _ _ => true
  | .sqEnable _ _ _ _ => true
  | .sqDisable _ _ _ _ => true
  | .sqDrainComplete _ _ => true
  | .cqEnable _ _ _ _ => true
  | .cqDisable _ _ _ _ => true
  | .sqDoorbell _ _ _ _ => true
  | .cqDoorbell _ _ _ _ => true
  | .descriptorFetch _ _ _ _ _ => true
  | .pollPageUpdate _ => true
  | .hostReadCompletion _ _ _ _ _ => true
  | .completionTimeout _ _ _ => true
  | .unexpectedCompletion _ _ _ => true
  | .l0pEnter _ _ => true
  | .aspmL1Enter _ _ => true
  | .linkPowerExit _ => true
  | .upstreamPortReset _ _ => true
  | .perstDeassert _ => true
  | .copy _ _ => true
  | .descriptorGateRelease _ _ _ => true
  | .stgRead _ _ => true
  | .stgWrite _ _ => true
  | .stgFlush _ _ => true
  | .stgDeallocate _ _ => true
  | .stgWriteZeroes _ _ => true
  | .nvmeCompletion _ _ _ _ _ => true
  | .nvmeCmdTimeout _ _ _ => true
  | .storageWindowAccess _ _ _ _ _ => true
  | .downstreamLinkLoss _ => true
  | .downstreamPerstRelease _ => true
  | .tcpRetransmit _ _ => true
  | .frameReceive _ _ => true
  | .prmModeWrite _ _ _ => true
  | .ruleWrite _ _ _ => true
  | .ruleRead _ _ _ => true
  | .ruleClear _ _ _ => true
  | .commit _ _ => true
  | .bankCopyComplete _ => true
  | .test _ _ _ => true
  | .tplWrite _ _ _ => true
  | .tplRead _ _ _ => true
  | .bankError _ => true
  | .flowInsert _ _ _ => true
  | .flowRemove _ _ _ => true
  | .flowRead _ _ _ => true
  | .rxRingEnable _ _ _ _ => true
  | .rxRingDisable _ _ _ _ => true
  | .slowPathFrame _ _ => true
  | .reassemblyTimeout _ _ => true
  | .frameToIris _ _ _ => true
  | .shaperRefill _ _ => true
  | .frameTransmitStart _ => true
  | .frameTransmitEnd _ => true
  | .viShapeWrite _ _ _ _ => true
  | .irsCshapeWrite _ _ _ _ => true
  | .irsQcfgWrite _ _ _ _ => true
  | .configChange _ _ _ => true
  | .cancel _ _ _ => true
  | .gateEnWrite _ _ _ => true
  | .gateEntryAdvance _ => true
  | .configChangeTime _ => true
  | .txRingEnable _ _ _ _ => true
  | .txRingDisable _ _ _ _ => true
  | .txSlotTake _ _ _ => true
  | .queueSample _ => true
  | .sampleRingEnable _ _ _ => true
  | .brmWrite _ _ => true
  | .brmRead _ _ => true
  | .brmAtomic _ _ => true
  | .qpCreate _ _ => true
  | .connect _ _ => true
  | .qpDestroy _ _ => true
  | .qpQuery _ _ => true
  | .register _ _ => true
  | .revoke _ _ => true
  | .revokeComplete _ => true
  | .qpCloseComplete _ => true
  | .writePacket _ => true
  | .readReq _ => true
  | .readResp _ => true
  | .atomicReq _ => true
  | .atomicResp _ => true
  | .ack _ => true
  | .nak _ => true
  | .held _ => true
  | .connectReq _ => true
  | .connectResp _ => true
  | .disconnect _ => true
  | .placementPerformed _ _ => true
  | .ackTimer _ => true
  | .retransmitTimeout _ _ => true
  | .busyRetransmit _ _ => true
  | .connectReqTimer _ => true
  | .connectTimeout _ => true
  | .messageExpiry _ _ => true
  | .portEnable _ _ _ => true
  | .portDisable _ _ _ => true
  | .linkPacketReceive _ _ => true
  | .linkRetryRequest _ _ => true
  | .linkCtlAck _ _ _ => true
  | .linkInit _ _ => true
  | .laneFailure _ _ => true
  | .lossOfLock _ => true
  | .trainingTimeout _ => true
  | .retrainTimer _ => true
  | .devFabCfgWrite _ _ => true
  | .devPairCfgWrite _ _ => true
  | .takeover _ => true
  | .resync _ => true
  | .resyncComplete => true
  | .pairHeartbeat => true
  | .pairPacketReceive _ => true
  | .partnerLost => true
  | .mirrorLostNotice => true
  | .mirrorLostRepeat => true
  | .mirrorLostAck => true
  | .snapshot _ _ _ => true
  | .snapshotArm _ => true
  | .pageCopy _ _ => true
  | .chunkVerify _ _ _ => true
  | .snapshotSeal _ _ => true
  | .restore _ _ => true
  | .catalogueReadComplete _ _ => true
  | .restorePage _ _ => true
  | .abort _ _ => true
  | .install _ _ _ _ => true
  | .clear _ _ => true
  | .keyRead _ _ => true
  | .installSa _ _ _ => true
  | .retireSa _ _ _ => true
  | .msecCfgWrite _ _ _ => true
  | .getVersion _ => true
  | .getCapabilities _ => true
  | .negotiateAlgorithms _ _ => true
  | .getDigests _ => true
  | .getCertificate _ _ => true
  | .challenge _ _ _ => true
  | .getMeasurements _ _ => true
  | .keyExchange _ _ => true
  | .finish _ _ _ => true
  | .heartbeat _ _ => true
  | .keyUpdate _ _ => true
  | .endSession _ _ => true
  | .setKek _ _ _ => true
  | .ideQuery _ _ => true
  | .keyProg _ _ _ _ => true
  | .kSetGo _ _ _ => true
  | .kSetStop _ _ _ => true
  | .getInfo _ _ => true
  | .featureSet _ _ => true
  | .featureGet _ _ => true
  | .stage _ _ _ => true
  | .activate _ _ => true
  | .activateCancel _ _ => true
  | .deferredActivationTimer => true
  | .svnCommit _ _ => true
  | .keyRevoke _ _ => true
  | .logCfg _ _ => true
  | .traceCfg _ _ => true
  | .stgBind _ _ _ => true
  | .stgUnbind _ _ => true
  | .slowCfg _ _ => true
  | .ptpCfg _ _ => true
  | .restart _ _ => true
  | .ptpMessage _ _ => true
  | .stewardWatchdog _ _ => true
  | .stewardFault _ _ => true
  | .stewardRestartDone _ => true
  | .fwLogRingWrite _ _ => true
  | .fwLogAckWrite _ _ => true
  | .mctpControl _ _ => true
  | .pldmPlatform _ _ => true
  | .pldmFirmwareUpdate _ _ => true
  | .activateFirmware _ => true
  | .tallyFrameSend _ => true
  | .tallyFrameReceive _ => true
  | .intervalEnd _ => true
  | .fetch _ _ => true
  | .quote _ _ _ _ => true
  | .sealBroken => true
  | .islandPowerUp _ _ => true
  | .goBright _ => true
  | .goDim _ => true
  | .goDark _ => true
  | .darkEntryComplete => true
  | .autoDimTimeout => true
  | .wake _ => true
  | .wakeTimer => true
  | .pwrCluFreqWrite _ _ _ => true
  | .freqChangeDone _ => true
  | .lpeChcfgWrite _ _ _ => true
  | .loupeSample _ _ => true
  | .loupeMsTick => true
  | .inputOvercurrent _ => true
  | .errorHandle _ => true
  | .errorSecondTick => true
  | .errAckWrite _ _ => true
  | .errCfgWrite _ _ => true
  | .errFctOffWrite _ _ _ => true
  | .devTimeMax => true
  | .deviceReset _ => true
  | .deviceResetComplete => true
  | .readPhys _ _ => true
  | .writePhys _ _ _ => true
  | .readSreg _ _ => true
  | .writeSreg _ _ _ => true
  | .haltThread _ _ _ => true
  | .resumeThread _ _ _ => true
  | .endThread _ _ _ _ => true
  | .haltCore _ _ => true
  | .stepCore _ _ => true
  | .resumeCore _ _ => true
  | .extest _ => true
  | .samplePreload _ => true
  | .idcode => true
  | .dbgacc _ _ _ => true
  | .bypass => true
  | .tapReset => true
  | .cntVicfgWrite _ _ _ => true
  | .samplerEnable _ _ _ => true
  | .counterSample _ => true
  | .trcCfgWrite _ _ => true
  | .fire _ => true
  | .arm _ => true
  | .trcMarkWrite _ _ => true
  | .trcHostAckWrite _ _ => true
  | .pwrEnHigh _ => true
  | .pwrEnLow => true
  | .inputRise _ => true
  | .inputUndervoltage => true
  | .inputRemoved _ _ => true
  | .modRst => true
  | .convert _ _ _ => true
  | .coolant => true
  | .coolantTimeout => true
  | .rails => true
  | .secure => true
  | .train _ => true
  | .fill => true
  | .firmware => true
  | .registerWrite _ _ _ _ _ => true
  | .illegalEncoding _ _ => false
  | .presenceDetectChange _ => true
  | .ethernetLinkDown _ => true
  | .ethernetLinkUp _ => true
  | .linkAckInterval _ => true
  | .wakeComplete => true
  | .activationComplete _ => true
  | .heartbeatPeriodExpiry _ _ => true

end Sys2Proof
end

