-- ==== Sys2Proof/Tests/Slice0.lean ====
section
/-! SUPPORT. Small tests: each check of `wellFormed` refuses a term that breaks it, states that meet the hypotheses of the statements, and
results worked out by hand from the spec. -/

namespace Sys2Proof.Tests

open Sys2Proof Sys2Proof.Machine

-- One theorem after another: each evaluates a state, and a thread for each would take more memory than a check has.
set_option Elab.async false

/-! ## Operand rules (R115): one term that a check refuses, beside one it takes -/

def t0 : Tid := ⟨9, 3⟩

theorem test_brep_length : wellFormed (.brep t0 1 0) = false ∧ wellFormed (.brep t0 1 1025) = false ∧ wellFormed (.brep t0 1 1024) = true := by
  decide
theorem test_amo_short_swap : wellFormed (.amo t0 .swap true true 0 1 2 0) = false ∧ wellFormed (.amo t0 .add true true 1 1 2 0) = false
    ∧ wellFormed (.amo t0 .add true false 1 1 2 3) = false ∧ wellFormed (.amo t0 .cas true false 1 1 2 3) = true := by decide
theorem test_string_registers : wellFormed (.movs t0 false false 1 1 2) = false ∧ wellFormed (.fills t0 false 0 2 3) = false
    ∧ wellFormed (.cmps t0 false 1 2 3 1) = false ∧ wellFormed (.scans t0 .eq false 1 2 2 3) = false
    ∧ wellFormed (.xlats t0 false false 1 2 3 4 1) = false ∧ wellFormed (.distsB t0 false 0 1 2 3) = false
    ∧ wellFormed (.movs t0 false false 1 2 3) = true := by decide
theorem test_rhash_window : wellFormed (.rhash t0 false 1 2 3 4 33) = false ∧ wellFormed (.rhash t0 false 1 2 3 4 32) = true := by decide
theorem test_integer_types : wellFormed (.vaddI t0 false ⟨.f32, 1, 2, .vec 3, 0⟩) = false ∧ wellFormed (.vadds t0 false ⟨.f32, 1, 2, .vec 3, 0⟩) = false
    ∧ wellFormed (.vminI t0 .min ⟨.f32, 1, 2, .vec 3, 0⟩) = false ∧ wellFormed (.vlogic t0 .and ⟨.f32, 1, 2, .vec 3, 0⟩) = false
    ∧ wellFormed (.vshift t0 .shl ⟨.f32, 1, 2, .vec 3, 0⟩) = false ∧ wellFormed (.vmulI t0 ⟨.f32, 1, 2, .vec 3, 0⟩) = false
    ∧ wellFormed (.vnegI t0 ⟨.f32, 1, 2, 0⟩) = false ∧ wellFormed (.vredMinmax t0 .min .f32 1 2 0) = false
    ∧ wellFormed (.vaddI t0 false ⟨.i8, 1, 2, .vec 3, 0⟩) = true := by decide
theorem test_float_types : wellFormed (.vaddF t0 .add ⟨.i8, 1, 2, .vec 3, 0⟩) = false ∧ wellFormed (.vfma t0 ⟨.i8, 1, 2, .vec 3, 0⟩ 4) = false
    ∧ wellFormed (.vminF t0 false ⟨.i8, 1, 2, .vec 3, 0⟩) = false ∧ wellFormed (.vnegF t0 false ⟨.i8, 1, 2, 0⟩) = false
    ∧ wellFormed (.vredAdd t0 .mxfp8e4 1 2 0) = false ∧ wellFormed (.vaddF t0 .add ⟨.f32, 1, 2, .vec 3, 0⟩) = true := by decide
theorem test_mx_types : wellFormed (.vsel t0 .mxfp8e4 1 2 3 0) = false ∧ wellFormed (.vmov t0 ⟨.mxfp8e4, 1, 2, 0⟩) = false
    ∧ wellFormed (.vbcast t0 .mxfp8e4 1 2 0) = false ∧ wellFormed (.vperm t0 .mxfp8e4 1 2 3 0) = false
    ∧ wellFormed (.vcmp t0 .ltu .f32 1 2 (.vec 3) 0) = false ∧ wellFormed (.vmac t0 ⟨.i16, 1, 2, .vec 3, 0⟩) = false
    ∧ wellFormed (.vmac t0 ⟨.i8, 1, 2, .vec 3, 0⟩) = true := by decide
theorem test_lane_numbers : wellFormed (.vins t0 .i64 1 2 16 0) = false ∧ wellFormed (.vext t0 .i64 1 2 16) = false
    ∧ wellFormed (.vins t0 .i64 1 2 15 0) = true := by decide
theorem test_masks : wellFormed (.maskLogic t0 .not 1 2 3) = false ∧ wellFormed (.mset t0 1 2 3) = false
    ∧ wellFormed (.mset t0 1 1 3) = true := by decide
theorem test_conversion_part : wellFormed (.vcvt t0 ⟨.f32, .i8, 4, 1, 2, 0, 0⟩) = false ∧ wellFormed (.vcvtu t0 ⟨.f32, .i8, 3, 1, 2, 0, 1⟩) = false
    ∧ wellFormed (.vcvt t0 ⟨.f32, .i8, 3, 1, 2, 0, 0⟩) = true := by decide
theorem test_accumulator_types : wellFormed (.eaadd t0 .i8 1 2 0) = false ∧ wellFormed (.eamac t0 .i8 1 2 3 0) = false
    ∧ wellFormed (.earound t0 .i8 1 2) = false ∧ wellFormed (.earound t0 .i64 1 2) = true := by decide
theorem test_scope_and_special : wellFormed (.ubar t0 1 2) = false ∧ wellFormed (.mfs t0 1 9) = false ∧ wellFormed (.mts t0 9 1) = false
    ∧ wellFormed (.illegalEncoding t0 0) = false ∧ wellFormed (.mfs t0 1 8) = true := by decide

/-! ## States that meet the hypotheses of the statements, and their helpers -/

/-- A device that is up, its functions enabled, instances 0, 5 and 128 ACTIVE, a granule of instance 5, its Clusters 0 and 1. -/
def live : State := { State.reset with
  boot := { State.reset.boot with phase := 8, perst := Vector.replicate 2 false, upLink := Vector.replicate 2 true }
  cfg := [(0, { mse := true, bme := true, vfMse := true }), (5, { bme := true }), (128, { mse := true, bme := true, vfMse := true })]
  inst := [(0, { st := 2 }), (5, { st := 2 }), (128, { st := 2 })]
  gt := [(5 * 4096, 0xF000000000000003)], gran := [(3, .mapped 5 0)], clu := [(0, .dedicated 5), (1, .dedicated 5)], devTime := 5000 }

theorem settled_nil {s : State} (h : s.threads = []) : Settled s := by intro p hp; simp [h] at hp
theorem settled_one {s : State} {k : Nat} {th : Thread} (h : s.threads = [(k, th)]) (r : th.st = .ready) : Settled s := by
  intro p hp a b e; simp [h] at hp; subst hp; simp [r] at e
theorem reaches {s : State} {fn : Fn} {off : Nat} (g : gate s fn (some off) = .pass) (p : s.pwr.st ≠ 3) (h : s.threads = []) :
    HostReaches s fn off := ⟨g, p, settled_nil h⟩
theorem fetch_clean {s : State} {th : Thread} {pa : Nat} {mp : Option Nat} (h : translate s th.vi th.pc 8 .ex = .dev pa mp)
    (hu : s.ue = []) (hp : s.poison = []) : fetchFault s th = (s, none) := by
  have : touchBlocks s pa 8 (some th.vi) = s := List.foldl_fixed' (fun b => by simp [hu]) _
  simp [fetchFault, h, this, anyPoison, hp]
/-- `Issues` on a dedicated cluster, where the turn costs nothing. -/
abbrev Now (s : State) := Issues s s
theorem issues_of {s : State} {t : Tid} {th : Thread} {c : Cls} {priv pa : Nat} {mp : Option Nat} (h : s.threads = [(Tid.key t, th)])
    (r : th.st = .ready) (f : facetRuns s t.facet = true) (d : held s t th c = false)
    (n : takeTurn s t th.vi = some s)
    (x : translate s th.vi th.pc 8 .ex = .dev pa mp) (u : s.ue = []) (p : s.poison = []) (q : priv ≤ th.priv) (z : th.sstep = false) :
    Now s t th c priv :=
  ⟨by simp [getThr, h, tget?], r, f, d, n, fetch_clean x u p, q, z, settled_one h r⟩

/-! ## Thread instructions -/

def desc : LaunchDesc := { target := 0, entry := 0x2000000000000, arg := 0, storeKib := 4, spread := 0, perFacet := 1, threads := 1, compq := 0, tctl := 0, tag := 0, startQ := 0, startAt := 0, subbar := false, startEn := false, resv := false }
def launch7 : Launch := { num := 7, vi := 5, d := desc, sq := none, seq := 0, admitted := true, counts := [], bar := 0, subs := [], ended := 0, okCount := 0, fail := none, stores := [9] }
/-- A READY thread of launch 7 with `TCTL` and registers g8 onwards as given. -/
def thr (tctl : Word) (g8 g9 g10 : Word) : Thread :=
  let x := newThread State.reset 5 false 7 0 1 0 0 9 0x2000000000000 0 0 tctl
  { x with g := ((x.g.set 8 g8).set 9 g9).set 10 g10 }
def busy (th : Thread) : State := { live with threads := [(Tid.key t0, th)], launches := [launch7] }
theorem live_runs : facetRuns live 9 = true := by decide
theorem live_code : translate live 5 0x2000000000000 8 .ex = .dev 3221225472 none := by rfl
/-- Such a thread issues an instruction of a class it may issue. -/
theorem busy_issues (tctl a b c : Word) (cl : Cls) (priv : Nat) (h : held (busy (thr tctl a b c)) t0 (thr tctl a b c) cl = false)
    (q : priv ≤ (thr tctl a b c).priv) (z : (thr tctl a b c).sstep = false) : Now (busy (thr tctl a b c)) t0 (thr tctl a b c) cl priv :=
  issues_of rfl rfl live_runs h rfl live_code rfl rfl q z

def th1 : Thread := thr 0 7 0 0x2000000001000
theorem witness_ScalarResults : Now (busy th1) t0 th1 { major := 0 } 0 := busy_issues _ _ _ _ _ _ (by decide) (by decide) (by decide)
theorem witness_ScalarOverflowAndDivision : Now (busy th1) t0 th1 { major := 0 } 0 ∧ (rdG (busy th1) th1 8).toInt ≠ 0
    ∧ rdG (busy th1) th1 9 = 0 ∧ th1.dzt = false := ⟨witness_ScalarResults, by decide⟩
theorem witness_ScalarOverflowAndDivision_traps : Now (busy (thr 0x30 (1 <<< 63) 0 0)) t0 (thr 0x30 (1 <<< 63) 0 0) { major := 0 } 0
    ∧ (thr 0x30 (1 <<< 63) 0 0).vt = true ∧ rdG (busy (thr 0x30 (1 <<< 63) 0 0)) (thr 0x30 (1 <<< 63) 0 0) 9 = 0
    ∧ (thr 0x30 (1 <<< 63) 0 0).dzt = true := ⟨busy_issues _ _ _ _ _ _ (by decide) (by decide) (by decide), by decide⟩

/-- A result that retires in the next slot. -/
def due1 : PendRes := { (wrG 1 8 5).p with due := 1 }
theorem witness_ResultsRetireAtTheirLatency : th1.pend = [] ∧ (1 : Nat) ≤ 64 ∧ (63 : Reg) ≠ 0
    ∧ due1 ∈ { th1 with pend := [due1] }.pend ∧ due1.due = 1 := ⟨rfl, by decide, by decide, by simp, rfl⟩
theorem witness_RegisterFileRules : (wrG 1 0 5).p.num = 0 ∧ (wrG 1 0 5).p.file = .gen ∧ (wrM 1 0 1 5).p.num = 0 ∧ (wrM 1 0 1 5).p.file = .mask
    ∧ (127 : Nat) < 1024 / 8 ∧ (15 : Nat) < 1024 / 64
    ∧ { th1 with pend := [{ (wrV 1 7 (laneBytes 8 (1024 / 8) 3) 9).p with due := 1 }] }.pend = [{ (wrV 1 7 (laneBytes 8 (1024 / 8) 3) 9).p with due := 1 }]
    ∧ (63 : Reg) ≠ 0 ∧ { th1 with pend := [{ (wrG 1 63 9).p with due := 1 }] }.pend = [{ (wrG 1 63 9).p with due := 1 }] := by
  refine ⟨?_, ?_, ?_, ?_, ?_, ?_, rfl, ?_, rfl⟩ <;> decide
/-- A thread at the last address of its block, `n` repeats to come. -/
def inLoop (n : Word) : Thread := { th1 with brs := 0x1FFFFFFFFFFF8, brc := 0x200000000 + n }
theorem witness_BlockRepeatControl :
    th1.pc ≠ th1.brs + BitVec.ofNat 64 (8 * th1.brcLen) - 8
    ∧ (inLoop 2).pc = (inLoop 2).brs + BitVec.ofNat 64 (8 * (inLoop 2).brcLen) - 8 ∧ (inLoop 2).brcCount > 1
    ∧ (inLoop 1).pc = (inLoop 1).brs + BitVec.ofNat 64 (8 * (inLoop 1).brcLen) - 8 ∧ (inLoop 1).brcCount ≤ 1
    ∧ inBlock (inLoop 1) (inLoop 1).pc = true := by decide
theorem witness_UnhandledTrapEndsThread : th1.handler = false ∧ hasHandler live th1.vi = false ∧ { th1 with handler := true }.handler = true := by
  decide
/-- A thread whose return stack has depth `n`, with `TCTL` as given. -/
def stacked (tctl n : Word) : Thread := { thr tctl 7 7 0x2000000001000 with rsp := n }
theorem stacked_issues (tctl n : Word) (c : Cls) (priv : Nat) (h : held (busy (stacked tctl n)) t0 (stacked tctl n) c = false)
    (q : priv ≤ (stacked tctl n).priv) (z : (stacked tctl n).sstep = false) : Now (busy (stacked tctl n)) t0 (stacked tctl n) c priv :=
  issues_of rfl rfl live_runs h rfl live_code rfl rfl q z
/-- The return stack full and empty, wrapping and trapping. -/
theorem witness_BranchesCallsAndReturns :
    (∀ x ∈ [(0, 8), (0x40, 8), (0, 0), (0x40, 0)], Now (busy (stacked x.1 x.2)) t0 (stacked x.1 x.2) { major := 1 } 0)
    ∧ (stacked 0x40 8).rsBusy = false ∧ (stacked 0x40 8).rspDepth = 8 ∧ (stacked 0x40 8).rso = true ∧ (stacked 0 0).rspDepth = 0
    ∧ (stacked 0 0).rso = false ∧ (rdG (busy (stacked 0 8)) (stacked 0 8) 10).toNat % 8 = 0 ∧ (stacked 0 0).rspTop = 0
    ∧ (stacked 0 0).rs[0].toNat % 8 = 0 := by
  refine ⟨?_, by decide⟩
  intro x hx
  simp only [List.mem_cons, List.not_mem_nil, or_false] at hx
  rcases hx with rfl | rfl | rfl | rfl <;> exact stacked_issues _ _ _ _ (by decide) (by decide) (by decide)
/-- A thread with one outstanding load. -/
def waits : Thread := { th1 with loads := [{ id := 0, act := .ldScalar 0x2000000001000 8 false, dest := some ⟨.gen, 5, 0xFF⟩ }], nextOp := 1 }
theorem waits_issues (c : Cls) (h : held (busy waits) t0 waits c = false) : Now (busy waits) t0 waits c 0 :=
  issues_of rfl rfl live_runs h rfl live_code rfl rfl (by decide) (by decide)
theorem witness_WaitRepeatAndEnd : Now (busy th1) t0 th1 { major := 1 } 0 ∧ waitHolds th1 0 0 = true ∧ faultsAt th1 0 0 = false
    ∧ Now (busy waits) t0 waits { major := 1 } 0 ∧ waitHolds waits 0 63 = false
    ∧ 1 ≤ (1024 : Imm).toNat ∧ (1024 : Imm).toNat ≤ 1024 ∧ th1.brcCount = 0 :=
  ⟨busy_issues _ _ _ _ _ _ (by decide) (by decide) (by decide), by decide, by decide, waits_issues _ (by decide), by decide⟩
theorem inLoop_issues : Now (busy (inLoop 2)) t0 (inLoop 2) { major := 1 } 0 :=
  issues_of rfl rfl live_runs (by decide) rfl live_code rfl rfl (by decide) (by decide)
theorem witness_WaitRepeatAndEnd_nested : Now (busy (inLoop 2)) t0 (inLoop 2) { major := 1 } 0 ∧ (inLoop 2).brcCount ≠ 0 :=
  ⟨inLoop_issues, by decide⟩

/-! Memory: g10 holds an aligned address of the instance's memory, g8 one of the Facet store. -/

def vmem : VMem := ⟨.f32, 1, 0, 10, 0⟩
def vidx : VIdx := ⟨.f32, 1, 0, 2, 10⟩
theorem witness_LoadInstructionsJoinLoads :
    (∀ c ∈ [2, 5, 7], Now (busy th1) t0 th1 { major := c, ld := true } 0)
    ∧ (rdG (busy th1) th1 10 + (0 : Imm).signExtend 64).toNat % 64 = 0 ∧ okAmo .cas false 5 6 = true ∧ activeLanes th1 .f32 0 ≠ []
    ∧ staysHome (busy th1) th1.vi (.ldScalar 0x2000000001000 8 false) ∧ staysHome (busy th1) th1.vi (.rspop 0x2000000001000)
    ∧ staysHome (busy th1) th1.vi (.eamerge 0x2000000001000 0) ∧ staysHome (busy th1) th1.vi (.launch 0x2000000001000)
    ∧ staysHome (busy th1) th1.vi (.amo .cas 8 0x2000000001000 0 0 true)
    ∧ staysHome (busy th1) th1.vi (.ldLanes 4 [(0, 0x2000000001000), (124, 0x200000000107C)])
    ∧ (∀ k ∈ activeLanes th1 .f32 0, (rdG (busy th1) th1 10 + BitVec.ofNat 64 (lane 32 (rdV (busy th1) th1 2) k)).toNat % 4 = 0) := by
  refine ⟨?_, by decide, by decide, by decide, by unfold staysHome; decide, by unfold staysHome; decide, by unfold staysHome; decide,
    by unfold staysHome; decide, by unfold staysHome; decide, by unfold staysHome; decide, by decide +kernel⟩
  intro c hc
  simp only [List.mem_cons, List.not_mem_nil, or_false] at hc
  rcases hc with rfl | rfl | rfl <;> exact busy_issues _ _ _ _ _ _ (by decide) (by decide) (by decide)
/-- A busy device whose fold unit holds the launch's accumulators. -/
def folding : State := { busy th1 with accs := [(accKey 7 9, .held (Vector.replicate 8 0))] }
theorem folding_issues (c : Cls) (h : held folding t0 th1 c = false) : Now folding t0 th1 c 0 :=
  issues_of rfl rfl live_runs h rfl live_code rfl rfl (by decide) (by decide)
theorem witness_StoreInstructionsJoinStores : Now folding t0 th1 { major := 2, st := true } 0 ∧ Now folding t0 th1 { major := 5, st := true } 0
    ∧ th1.rsBusy = false ∧ AmoOp.add.code < 8 ∧ activeLanes th1 .f32 0 ≠ [] ∧ mergeOpen th1 7 = false
    ∧ (rdG folding th1 10).toNat % 64 = 0 ∧ tget? folding.accs (accKey (accLaunch th1) t0.facet) = some (.held (Vector.replicate 8 0))
    ∧ staysHome folding th1.vi (.stLanes 8 [(0x2000000001000, toBytes 8 7)])
    ∧ staysHome folding th1.vi (.amo .add 8 0x2000000001000 7 0 false)
    ∧ staysHome folding th1.vi (.stLanes 544 [(0x2000000001000, accBytes 0)]) := by
  refine ⟨folding_issues _ (by decide), folding_issues _ (by decide), by decide, by decide, by decide, by decide, by decide, rfl,
    by unfold staysHome; decide, by unfold staysHome; decide, by unfold staysHome; decide +kernel⟩
/-- The last word of a 4 KiB store, the byte behind it, and a misaligned one. -/
theorem witness_FacetStoreAccesses : Now (busy (thr 0 4088 4096 1)) t0 (thr 0 4088 4096 1) { major := 2 } 0
    ∧ (rdG (busy (thr 0 4088 4096 1)) (thr 0 4088 4096 1) 8).toNat + 8 ≤ fsSize (busy (thr 0 4088 4096 1)) (thr 0 4088 4096 1)
    ∧ (rdG (busy (thr 0 4088 4096 1)) (thr 0 4088 4096 1) 8).toNat % 8 = 0
    ∧ fsSize (busy (thr 0 4088 4096 1)) (thr 0 4088 4096 1) < (rdG (busy (thr 0 4088 4096 1)) (thr 0 4088 4096 1) 9).toNat + 8
    ∧ (rdG (busy (thr 0 4088 4096 1)) (thr 0 4088 4096 1) 10).toNat % 8 ≠ 0
    ∧ (∀ i ∈ activeLanes (thr 0 3968 4096 1) .f32 0, ((3968 : Word) + BitVec.ofNat 64 (4 * i)).toNat + 4 ≤ fsSize (busy (thr 0 3968 4096 1)) (thr 0 3968 4096 1)) :=
  ⟨busy_issues _ _ _ _ _ _ (by decide) (by decide) (by decide), by decide⟩
/-- Sixteen bytes at the end of the store (g8), at its start (g9), and their count (g10). -/
theorem witness_StringSteps : Now (busy (thr 0 4080 0 16)) t0 (thr 0 4080 0 16) { major := 3 } 0
    ∧ okDistinct [11, 8, 9, 10] = true ∧ okDistinct [8, 9, 10] = true ∧ okDistinct [11, 8, 10] = true ∧ okDistinct [8, 10] = true
    ∧ 0 < min 16 (rdG (busy (thr 0 4080 0 16)) (thr 0 4080 0 16) 10).toNat
    ∧ (rdG (busy (thr 0 4080 0 16)) (thr 0 4080 0 16) 8).toNat + 16 ≤ fsSize (busy (thr 0 4080 0 16)) (thr 0 4080 0 16)
    ∧ (rdG (busy (thr 0 4080 0 16)) (thr 0 4080 0 16) 9).toNat + 256 ≤ fsSize (busy (thr 0 4080 0 16)) (thr 0 4080 0 16)
    ∧ bits (64 + 64 * 256 : Word) 6 0 ≤ 64 ∧ bits (64 + 64 * 256 : Word) 14 8 ≤ 64 :=
  ⟨busy_issues _ _ _ _ _ _ (by decide) (by decide) (by decide), by decide⟩

/-! Vectors, accumulators, sync and system instructions -/

theorem witness_VectorIntegerLanes : Now (busy th1) t0 th1 { major := 4 } 0 ∧ EType.i64.isInt = true ∧ EType.i8.isInt = true ∧ th1.fpt = 0
    ∧ th1.vt = false ∧ Now (busy (thr 0x20 0 0 0)) t0 (thr 0x20 0 0 0) { major := 4 } 0 ∧ (thr 0x20 0 0 0).vt = true
    ∧ active (rdM (thr 0x20 0 0 0) 0) 0 = true :=
  ⟨busy_issues _ _ _ _ _ _ (by decide) (by decide) (by decide), by decide, by decide, by decide, by decide,
    busy_issues _ _ _ _ _ _ (by decide) (by decide) (by decide), by decide⟩
theorem witness_VectorMovesComparesAndMasks : Now (busy th1) t0 th1 { major := 4 } 0 ∧ th1.fpt = 0 ∧ EType.i8.isMx = false
    ∧ okVcmp .ltu .i8 = true ∧ okLane .i8 127 = true ∧ okMask .not 0 = true ∧ okHalf 1 = true :=
  ⟨busy_issues _ _ _ _ _ _ (by decide) (by decide) (by decide), by decide⟩
/-- Every exception enabled, and none. -/
theorem witness_VectorFloatingPointLanes : Now (busy (thr 0x1D00 0 0 0)) t0 (thr 0x1D00 0 0 0) { major := 4 } 0 ∧ (thr 0x1D00 0 0 0).vt = false
    ∧ EType.f32.isArith = true ∧ Now (busy th1) t0 th1 { major := 4 } 0 ∧ th1.fpt = 0 :=
  ⟨busy_issues _ _ _ _ _ _ (by decide) (by decide) (by decide), by decide, by decide,
    busy_issues _ _ _ _ _ _ (by decide) (by decide) (by decide), by decide⟩
theorem witness_VectorAccumulateConvertReduce : Now (busy th1) t0 th1 { major := 4 } 0 ∧ th1.fpt = 0 ∧ th1.vt = false
    ∧ okVmac .i8 = true ∧ okCvt ⟨.f32, .i8, 3, 1, 2, 0, 0⟩ = true ∧ okCvt ⟨.mxfp8e4, .f32, 3, 1, 2, 1, 0⟩ = true ∧ EType.i64.isInt = true
    ∧ active (rdM th1 0) 15 = true ∧ okRed .f32 = true ∧ EType.f32.isInt = false :=
  ⟨busy_issues _ _ _ _ _ _ (by decide) (by decide) (by decide), by decide⟩
theorem witness_AccumulatorInstructions : Now folding t0 th1 { major := 5 } 0 ∧ okFold .f32 = true ∧ mergeOpen th1 7 = false
    ∧ tget? folding.accs (accKey (accLaunch th1) t0.facet) = some (.held (Vector.replicate 8 0)) ∧ okRound .i64 = true ∧ th1.fpt = 0 :=
  ⟨folding_issues _ (by decide), by decide, by decide, rfl, by decide⟩
theorem witness_SyncInstructionsIssue : Now (busy th1) t0 th1 { major := 6, ld := true, sync := true } 0 ∧ (1 : Imm).toNat ≤ 1
    ∧ th1.handler = false ∧ 1 < (2 : Imm).toNat :=
  ⟨busy_issues _ _ _ _ _ _ (by decide) (by decide) (by decide), by decide⟩
def th2 : Thread := thr 0x80000000 7 0 0x2000000001000
theorem witness_SystemInstructions : Now (busy th2) t0 th2 { major := 7 } 0 ∧ Now (busy th2) t0 th2 { major := 7, st := true } 2
    ∧ Now (busy th2) t0 th2 { major := 7, ld := true } 2 ∧ (8 : Imm).toNat ≤ 8 ∧ (rdG (busy th2) th2 10).toNat % 64 = 0 ∧ th2.evTaken = none
    ∧ th2.loads.all (fun o => match o.act with | .evwait _ => o.done | _ => true) = true
    ∧ Now (busy th1) t0 th1 { major := 7, st := true } 0 ∧ th1.priv < 2 :=
  ⟨busy_issues _ _ _ _ _ _ (by decide) (by decide) (by decide), busy_issues _ _ _ _ _ _ (by decide) (by decide) (by decide),
    busy_issues _ _ _ _ _ _ (by decide) (by decide) (by decide), by decide, by decide, by decide, by decide,
    busy_issues _ _ _ _ _ _ (by decide) (by decide) (by decide), by decide⟩

/-! ## Operations, slots and launches -/

def load0 : Op := { id := 0, act := .ldScalar 0x2000000001000 8 false, dest := some ⟨.gen, 5, 0xFF⟩, sent := true }
def store0 : Op := { id := 1, act := .stLanes 8 [(0x2000000001008, toBytes 8 7)], dest := none, sent := true }
def opens : Thread := { th1 with loads := [load0], stores := [store0], nextOp := 2 }
theorem witness_OperationsComplete : MayPerform (busy opens) t0 opens load0 ∧ MayPerform (busy opens) t0 opens store0
    ∧ opens.loads.find? (fun x => x.id == 0 && !x.done) = some load0 ∧ opens.stores.find? (fun x => x.id == 1 && !x.done) = some store0
    ∧ translate (busy opens) opens.vi 0x2000000001000 8 .rd = .dev 3221229568 none
    ∧ translate (busy opens) opens.vi 0x2000000001008 8 .wr = .dev 3221229576 none
    ∧ cleanAt (busy opens) 3221229568 8 ∧ cleanAt (busy opens) 3221229576 8 ∧ 3221229576 % 64 + 8 ≤ 64
    ∧ guarded (busy opens) (pageOf 3221229576) = false ∧ writeOpen (busy opens) t0 1 = false ∧ (busy opens).mem.wf = true :=
  ⟨⟨rfl, rfl, rfl, rfl, rfl, rfl, rfl⟩, ⟨rfl, rfl, rfl, rfl, rfl, rfl, by decide⟩, rfl, rfl, rfl, rfl,
    fun _ _ => ⟨List.not_mem_nil, List.not_mem_nil⟩, fun _ _ => ⟨List.not_mem_nil, List.not_mem_nil⟩, by decide⟩
/-- A system thread with operations of the higher profiles outstanding. -/
def systemOps : Thread := { th2 with
  loads := [{ id := 0, act := .sysrd 0xC00010, dest := some ⟨.gen, 5, 0xFF⟩, sent := true }]
  stores := [{ id := 1, act := .evpost 5 9, dest := none, sent := true }, { id := 2, act := .tresume 0x2000000004000, dest := none, sent := true },
    { id := 3, act := .tendOther 0x2000000004000 0, dest := none, sent := true }], nextOp := 4 }
theorem witness_OperationsComplete_system : getThr (busy systemOps) t0 = some systemOps ∧ memServes (busy systemOps) = true
    ∧ (systemOps.loads.find? (fun x => x.id == 0 && !x.done)).isSome = true
    ∧ ∀ k ∈ [1, 2, 3], (systemOps.stores.find? (fun x => x.id == k && !x.done)).isSome = true := ⟨rfl, rfl, rfl, by decide⟩
/-- The same device with a spill area in granule 0 of instance 5, a saved launch thread and a saved handler thread. -/
def saved7 : Saved := { vi := 5, handler := false, launch := 7, index := 1, loc := .dev 0x2000000004000, facet := 9, trapped := false, resumed := false, halted := false, pf := none }
def savedH : Saved := { saved7 with handler := true, launch := 0, index := 2 }
def spilling : State := { rset (busy { th1 with st := .saving, reason := 1 }) (viReg 5 0x220) (at_ 1 16) with
  saved := [saved7, savedH], launches := [{ launch7 with d := { desc with target := clusterUd live 1 }, stores := [9] }] }
theorem witness_ThreadSlotEvents : { th1 with st := .ending }.lcnt = 0 ∧ { th1 with st := .ending }.scnt = 0
    ∧ getThr spilling t0 = some { th1 with st := .saving, reason := 1 } ∧ savable th1 = true ∧ (spillPick spilling 5 9).isSome = true
    ∧ spilling.saved.find? (fun x => x.vi == 5 && x.handler == true && x.launch == 0 && x.index == 2) = some savedH
    ∧ (getInst spilling 5).st = 2 ∧ handlerPosition spilling 5 = some 0 := by
  refine ⟨by decide, by decide, rfl, by decide +kernel⟩
theorem witness_ThreadSlotEvents_launch :
    spilling.saved.find? (fun x => x.vi == 5 && x.handler == false && x.launch == 7 && x.index == 1) = some saved7
    ∧ (getLaunch spilling 7).isSome = true ∧ stillLeaving { spilling with threads := [] } saved7 = false
    ∧ (positionFor { spilling with threads := [] } { launch7 with d := { desc with target := clusterUd live 1 } }).isSome = true
    ∧ spilling.saved.any (fun y => !y.handler && y.launch == 7 && !y.halted && decide (y.index.toNat < 1)) = false := by
  refine ⟨by decide, by decide +kernel⟩
def trappedH : Thread := { th1 with handler := true, st := .trapped }
def failing : State := { busy trappedH with fw := { live.fw with up := true } }
theorem witness_ThreadSlotEvents_trap : failing.threads.find? (fun p => p.2.vi == 5 && p.2.handler && p.2.st == .trapped) = some (Tid.key t0, trappedH)
    ∧ slowUp failing (Tid.key t0 / 64 / 256) = true := by refine ⟨rfl, by decide⟩
/-- A launch descriptor for Cluster 1, one with no threads, and an SQ that holds it. -/
def descBytes (threads : Nat) : List Byte := [(clusterUd live 1).toNat, 0x2000000000000, 0, 4 * 2 ^ 48 + 2 ^ 32 + threads, 0, 0, 0, 0].flatMap (toBytes 8)
def queued (threads : Nat) : State := { rset (rset live (viReg 5 0x408) (at_ 1 63 ||| at_ 1 56 ||| at_ 4 0)) (viReg 5 0x18) 16 with
  sqs := [(5 * 16, { st := 1, tail := 1, got := [descBytes threads] })], cqs := [(5 * 16, { st := 1 })], grp := [(2, 5)] }
theorem witness_LaunchesTakenAndAdmitted :
    (∃ s1, HeadReady (queued 2) s1 5 0 1 (descBytes 2) [] ∧ (launchCheck (headTaken s1 5 0 []) 5 (parseDesc (descBytes 2))).1 = 0)
    ∧ ∃ s1, HeadReady (queued 0) s1 5 0 1 (descBytes 0) [] ∧ (launchCheck (headTaken s1 5 0 []) 5 (parseDesc (descBytes 0))).1 ≠ 0
      ∧ compqOk (headTaken s1 5 0 []) 5 (parseDesc (descBytes 0)) = true :=
  ⟨⟨_, ⟨by decide +kernel, rfl, rfl, rfl⟩, by decide +kernel⟩, ⟨_, ⟨by decide +kernel, rfl, rfl, rfl⟩, by decide +kernel⟩⟩
def launch8 : Launch := { launch7 with num := 8, d := { desc with target := clusterUd live 1 }, admitted := false }
def admits : State := { queued 2 with launches := [launch8] }
theorem witness_LaunchesTakenAndAdmitted_admit : getLaunch admits 8 = some launch8 ∧ admissible admits launch8 = true
    ∧ (roundTake admits 5 ((admits.launches.filter (admissible admits)).map (fun x => x.vi.toNat)) 5).isSome = true
    ∧ launch8.d.subbar = false := by
  refine ⟨rfl, by decide +kernel⟩

/-! ## Composites and units -/

def cmpArg : CmpArgs := { number := 0, count := 1, vi := 5, lock := true }
def cmpArg300 : CmpArgs := { number := 300, count := 1, vi := 5, grantEn := true }
def setComp (s : State) (m : Nat) (x : Composite) : State := { s with comps := tset s.comps m x }
/-- The member buffer of PF 0 names Cluster 0. -/
def naming : State := rset live (memLoReg 0 0) (clusterUd live 0)
def newComp : Composite := { st := 1, gen := nextGen 0, owner := 5, lock := true, members := namedMembers naming 0 cmpArg }
theorem witness_CompositeCommands_create : CmpIdle naming 0 cmpArg
    ∧ GoodMembers naming 0 cmpArg 0 (at_ 1 63 ||| at_ (nextGen 0).toNat 48 ||| BitVec.ofNat 64 (freeComp naming)) ∧ compsFree naming ≠ 0
    ∧ bits (rget naming (viReg 5 0x38)) 15 0 = 0 ∧ (structCheck (setComp naming (freeComp naming) newComp) (freeComp naming)).1 = 0 := by
  refine ⟨⟨reaches (by decide) (by decide) rfl, by decide, rfl, by decide, by decide⟩, ⟨by decide, by decide, by decide +kernel⟩, by decide +kernel⟩
/-- Instance 5 owns composite 300, of Cluster 1; the member buffer of PF 0 names Cluster 0, or Cluster 1. -/
def owning (c : Nat) : State := rset (setComp live 300 { st := 1, gen := 1, owner := 5, members := [{ ud := clusterUd live 1, remote := false, home := 0 }] })
  (memLoReg 0 0) (clusterUd live c)
theorem witness_CompositeCommands : CmpIdle (owning 0) 0 cmpArg300 ∧ ownsEntry (owning 0) 0 cmpArg300 ∧ (compEntry (owning 0) 300).lock = false
    ∧ GoodMembers (owning 0) 0 cmpArg300 (placedCount (compEntry (owning 0) 300).members) (compUd (owning 0) 300)
    ∧ (structCheck (setMembers (owning 0) 300 ((tget (owning 0).comps 300 {}).members ++ namedMembers (owning 0) 0 cmpArg300)) 300).1 = 0
    ∧ (compEntry (owning 0) 300).st = 1 ∧ hasParent (owning 0) 300 = false ∧ (compEntry (owning 0) 300).imports = []
    ∧ CmpIdle (owning 1) 0 cmpArg300 ∧ ownsEntry (owning 1) 0 cmpArg300
    ∧ (namedMembers (owning 1) 0 cmpArg300).all (names (tget (owning 1).comps 300 {}).members) = true := by
  refine ⟨⟨reaches (by decide) (by decide) rfl, by decide, rfl, by decide, by decide⟩, ⟨by decide, by decide⟩, by decide,
    ⟨by decide, by decide, by decide +kernel⟩, by decide +kernel, by decide, by decide +kernel, by decide,
    ⟨reaches (by decide) (by decide) rfl, by decide, rfl, by decide, by decide⟩, ⟨by decide, by decide⟩, by decide +kernel⟩
/-- The argument names Cluster 0, to be reset. -/
def resets : State := rset live (cmpArgReg 0) (clusterUd live 0)
def job (op : CmpOp) (u : List (BitVec 16 × Word)) : CmpJob := { fn := 0, pf := true, vi := 5, op := op, number := 300, lock := false, grantEn := false, count := 0, mems := [], bad := false, arg := clusterUd live 0, started := true, unconf := u }
theorem witness_UnitsAndConfirmations : CmpIdle resets 0 cmpArg300 ∧ isComp (rget resets (cmpArgReg 0)) = false
    ∧ actor 0 cmpArg300.vi ≠ 0 ∧ actor 0 cmpArg300.vi ≠ 128 ∧ (resolveDeep resets (rget resets (cmpArgReg 0)) 17).1 = 0
    ∧ HostReaches resets 0 0x800020 ∧ 4 ≤ accWidth .w64
    ∧ (job .reset []).op = .reset ∧ (job .reset []).started = true ∧ Settled { live with cmpJobs := [job .reset []] }
    ∧ ((7, (1 : Word) <<< 63) : BitVec 16 × Word) ∈ (job .add [(7, 1 <<< 63), (8, 1 <<< 63)]).unconf
    ∧ (job .add [(7, 1 <<< 63), (8, 1 <<< 63)]).unconf.filter (fun x => x != ((7, 1 <<< 63) : BitVec 16 × Word)) ≠ []
    ∧ (compEntry (setComp live 300 { st := 3, gen := 1, owner := 5 }) 300).st = 3 := by
  refine ⟨⟨reaches (by decide) (by decide) rfl, by decide, rfl, by decide, by decide⟩, by decide, by decide, by decide, by decide +kernel,
    reaches (by decide) (by decide) rfl, by decide, rfl, rfl, settled_nil rfl, by decide⟩
/-- Composite 300 of instance 5 grants itself to device 8. -/
def granting : State := setComp live 300 { st := 1, gen := 1, owner := 5, exported := some (5, 8) }
theorem witness_UnitsAndConfirmations_home : ∃ others, homeConfirms granting 8 5 (compUd granting 300) others = true := ⟨[], by decide +kernel⟩

/-! ## Granules -/

theorem viReaches {s : State} {fn : Fn} {vi : Vi} {off : Nat} (o : viReach fn vi = true) (g : gate s fn (some (viOff fn vi off)) = .pass)
    (p : s.pwr.st ≠ 3) (h : s.threads = []) : ViReaches s fn vi off := ⟨o, reaches g p h⟩
/-- `VI_GT_ARG` of instance 5 asks for any granule, for reading and writing, or for attributes of one it has. -/
def mapping (a : Word) : State := rset live (gtArgReg 5) a
theorem witness_GranuleCommands : GtIdle (mapping 0x7000000000000FFF) 0 5 ∧ gtValid (gtEntry (mapping 0x7000000000000FFF) 5 4095) = false
    ∧ mirrorOk (mapping 0x7000000000000FFF) 0x7000000000000FFF false = true ∧ gtPgran 0x7000000000000FFF = 0xFFF
    ∧ pickGran (mapping 0x7000000000000FFF) false = some 0 ∧ tget? (mapping 0x7000000000000FFF).gran 0 = none
    ∧ GtIdle (mapping 0x6000000000000FFF) 5 5 ∧ gtValid (gtEntry (mapping 0x6000000000000FFF) 5 0) = true
    ∧ snapCovers (mapping 0x6000000000000FFF) 5 0 = false ∧ usedIn (mapping 0x6000000000000FFF) 5 0 = []
    ∧ (mapping 0x6000000000000FFF).heldW.any (fun h => decide (h.page / 16384 = gtPgran (gtEntry (mapping 0x6000000000000FFF) 5 0))) = false
    ∧ gtSnap 0x6000000000000FFF = gtSnap (gtEntry (mapping 0x6000000000000FFF) 5 0)
    ∧ gtMirror 0x6000000000000FFF = gtMirror (gtEntry (mapping 0x6000000000000FFF) 5 0)
    ∧ tget? { live with gran := [(2287, .scrubbing)] }.gran 2287 = some .scrubbing := by
  refine ⟨⟨viReaches (by decide) (by decide) (by decide) rfl, by decide⟩, by decide, by decide, by decide, by decide +kernel, by decide,
    ⟨viReaches (by decide) (by decide) (by decide) rfl, by decide⟩, by decide⟩
theorem witness_GranuleCommands_row : HostReaches live 0 (devReg 0x4000) ∧ statBusy live granStatReg = false ∧ (70 : BitVec 7).toNat ≤ 70
    ∧ ((List.range 32).all (fun k => granFree live (32 * 70 + k))) = true :=
  ⟨reaches (by decide) (by decide) rfl, by decide +kernel⟩
/-- Granule 3 is instance 5's, mirrored from the partner's granule 9. -/
def mirrorsIn : State := { live with gt := [(5 * 4096 + 7, mkEntry (0x7C00000000000000 ||| at_ 9 32) 3)], gran := [(3, .mapped 5 7)] }
/-- No Cluster is held, so no spill space is needed. -/
def bare : State := { live with clu := [] }
theorem witness_SpillScrubAndMirror : ViReaches bare 0 5 0x220 ∧ ViReaches bare 5 5 0x228
    ∧ (spillCheck bare 5 true (0x12345678ABFFFFFF &&& 0xFFFFFFFFFFE00FFF)).1 = 0
    ∧ (spillCheck bare 5 false (spillDevVal (rget bare (viReg 5 0x220)) 0)).1 = 0
    ∧ (spillCheck bare 5 false (spillDevVal (rget bare (viReg 5 0x220)) 0x10001)).1 ≠ 0
    ∧ HostReaches bare 0 (devReg 0x4030) ∧ bare.ctxs.all (fun p => decide (p.1 < 1048576)) = true ∧ bits (15360 : Word) 13 0 ≤ 15360
    ∧ (38654705663 : BitVec 36).toNat * 64 < memEnd ∧ bare.ue.contains 5 = false ∧ bare.poison.contains 5 = false
    ∧ mapOf mirrorsIn 3 = some (5, gtEntry mirrorsIn 5 7) ∧ gtMirror (gtEntry mirrorsIn 5 7) = true
    ∧ gtMpgran (gtEntry mirrorsIn 5 7) = (9 : BitVec 12).toNat ∧ gtMpgran (gtEntry mirrorsIn 5 7) ≠ (8 : BitVec 12).toNat := by
  refine ⟨viReaches (by decide) (by decide) (by decide) rfl, viReaches (by decide) (by decide) (by decide) rfl, by decide, by decide,
    by decide, reaches (by decide) (by decide) rfl, by decide +kernel⟩

/-! ## Sync objects -/

/-- Object 7 of instance 5 as given, and PF 0's arguments. -/
def syncing (o : SynObj) (v w : Word) : State := rset (rset { live with grp := [(0, 5)], syn := [(7, o)] } (fnReg 0 0x400008) v) (fnReg 0 0x400010) w
def synArg : SynArgs := { obj := 7, ty := 0, vi := 5 }
theorem syn_idle (o : SynObj) (v w : Word) (g : gate (syncing o v w) 0 (some 0x400000) = .pass) (f : statBusy (syncing o v w) (synStatReg 0) = false)
    (h : objHolder (syncing o v w) 7 = some 5) : SynIdle (syncing o v w) 0 synArg :=
  ⟨⟨g, by simp [syncing, rset]; decide, settled_nil rfl⟩, f, by decide, h⟩
def counter5 : SynObj := { st := 1, ty := 2, gen := 0xFFFF, value := 5 }
def sema5 : SynObj := { st := 1, ty := 1, gen := 3, value := 5 }
theorem witness_HostSyncCommands : SynIdle (syncing counter5 (1 <<< 28) 60000000) 0 synArg ∧ synBusy counter5 = false ∧ lockOwned counter5 = false
    ∧ synArg0 (syncing counter5 (1 <<< 28) 60000000) 0 ≠ 0 ∧ synArg0 (syncing counter5 (1 <<< 28) 60000000) 0 ≤ 2 ^ 28
    ∧ synArg1 (syncing counter5 (1 <<< 28) 60000000) 0 ≤ 60000000 ∧ counter5.st ≠ 0 ∧ counter5.st ≠ 2 ∧ counter5.bad = false ∧ counter5.ty = 2
    ∧ SynIdle (syncing sema5 5 0) 0 synArg ∧ sema5.ty = 1 ∧ sema5.waiters = [] ∧ synArg0 (syncing sema5 5 0) 0 ≤ sema5.value.toNat
    ∧ SynIdle (syncing sema5 6 0) 0 synArg ∧ sema5.value.toNat < synArg0 (syncing sema5 6 0) 0
    ∧ sema5.value.toNat + synArg0 (syncing sema5 (2 ^ 48 - 6) 0) 0 < 2 ^ 48 := by
  refine ⟨syn_idle _ _ _ (by decide) (by decide) (by decide), ?_, ?_, ?_, ?_, ?_, ?_, ?_,
    ?_, ?_, syn_idle _ _ _ (by decide) (by decide) (by decide), ?_, ?_, ?_,
    syn_idle _ _ _ (by decide) (by decide) (by decide), ?_⟩ <;> decide
/-- Thread t0 has asked for 3 of semaphore 7; its handle names the object's generation, or none. -/
def asks (handle : Word) : Thread := { th1 with loads := [{ id := 4, act := .sync (encT 0x39 0 5 6 7) handle 3, dest := some ⟨.gen, 5, 0xFF⟩ }], nextOp := 5 }
def asking (handle : Word) : State := { syncing sema5 0 0 with threads := [(Tid.key t0, asks handle)] }
theorem witness_SyncAtTheHome_op : getThr (asking 0) t0 = some (asks 0)
    ∧ (asks 0).loads.find? (fun o => o.id == 4 && !o.done && !o.wd && isSyncAct o.act) = some { id := 4, act := .sync (encT 0x39 0 5 6 7) 0 3, dest := some ⟨.gen, 5, 0xFF⟩ }
    ∧ syncKind (encT 0x39 0 5 6 7) = some .semp ∧ isUbar (encT 0x39 0 5 6 7) = false ∧ alreadySent (asking 0) t0 4 = false
    ∧ behindSync (asking 0) t0 (asks 0) { id := 4, act := .sync (encT 0x39 0 5 6 7) 0 3, dest := some ⟨.gen, 5, 0xFF⟩ } = false ∧ needsStores .semp = false
    ∧ synCheck (asking 0) 5 0 .semp false ≠ 0 ∧ synCheck (asking 0x300010007) 5 0x300010007 .semp false = 0 := by
  refine ⟨rfl, rfl, by decide⟩
def waiter (k : SyncKind) (v : BitVec 48) : Waiter := { kind := k, t := t0, op := 4, operand := v, launch := 7, index := 0, since := 0, near := none }
def bar3 : SynObj := { st := 1, ty := 0, gen := 3, expect := 3, value := 1, waiters := [waiter .bar 0] }
theorem witness_SyncAtTheHome : (waiter .semp 5).operand.toNat ≤ sema5.value.toNat ∧ sema5.value.toNat < (waiter .semp 6).operand.toNat
    ∧ sema5.value.toNat + (waiter .semv (2 ^ 48 - 6)).operand.toNat < 2 ^ 48 ∧ atOrAfter counter5.value (waiter .ecwait 6).operand = false
    ∧ ({ st := 1, ty := 3 } : SynObj).owner = none ∧ ({ st := 1, ty := 3, owner := some (7, 0) } : SynObj).owner = some ((waiter .lkrel 0).launch, (waiter .lkrel 0).index)
    ∧ bar3.value ≠ 0 ∧ (bar3.value + 1).toNat < bar3.expect.toNat ∧ ({ bar3 with value := 2 } : SynObj).expect.toNat ≤ (({ bar3 with value := 2 } : SynObj).value + 1).toNat := by
  decide
def nearState (x : NearBar) : State := { syncing bar3 0 0 with near := [(nearKey 2 7, x)], devTime := 0x7FFFFFFFFFFFFFFF }
theorem witness_SyncAtTheHome_near : (getNear (nearState { rel := [([waiter .bar 0], true, 0)] }) 2 7).rel = ([waiter .bar 0], true, 0) :: []
    ∧ (getNear (nearState { sent := [waiter .bar 0] }) 2 7).sent.any (fun w =>
      decide (2 * (wdogUs (getSyn (nearState { sent := [waiter .bar 0] }) 7) * 1000) ≤ ((nearState {}).devTime - w.since).toNat)) = true
    ∧ (getSyn (nearState {}) 7).st = 1 ∧ wdogDue (nearState {}) (getSyn (nearState {}) 7) = true := by decide
def withdrawing : State := { asking 0 with threads := [(Tid.key t0, { asks 0 with st := .saving })] }
theorem witness_SyncAtTheHome_withdraw : getThr withdrawing t0 = some { asks 0 with st := .saving } ∧ nearAnswer withdrawing t0 4 = none := by
  refine ⟨rfl, by decide⟩

/-! ## Resources and registers of an instance -/

def sel : ResSel := { cluster := 127, group := 1023 }
/-- Nine granules of instance 5, its spill area in them, a sharer's figures in `VI_RES_ARG`. -/
def funded : State := rset (rset { live with gt := (List.range 9).map (fun i => (5 * 4096 + i, 0xF000000000000000 ||| BitVec.ofNat 64 (i + 3))), gran := (List.range 9).map (fun i => (i + 3, .mapped 5 (BitVec.ofNat 12 i))) }
  (viReg 5 0x220) 0x90000) (viReg 5 0x28) (at_ 32 16 ||| at_ 100 32 ||| at_ 500 0)
def other : Sharer := { vi := 6, slots := 10, store := 20, weight := 3 }
def mine : Sharer := { vi := 5, slots := 1, store := 2, weight := 3 }
theorem witness_ResourceCommands : ResIdle funded 0 5 ∧ getClu funded 127 = .none ∧ spillShort funded 5 = false
    ∧ badSharer (argSharer funded 5) = false ∧ overLimit [argSharer funded 5] = false
    ∧ getClu (setClu funded 127 (.shared [other])) 127 = .shared [other] ∧ holdOf (getClu (setClu funded 127 (.shared [other])) 127) 5 = none
    ∧ [other, other, other].length < 4 ∧ overLimit ([other] ++ [argSharer funded 5]) = false
    ∧ [other, mine].any (fun y => y.vi == 5) = true
    ∧ (facetsOfClu 127).any (fun f => decide (slotsUsedBy funded 5 f > (argSharer funded 5).slots) || decide (storeUsed funded 5 f > (argSharer funded 5).store)) = false
    ∧ overLimit ([other, mine].map (fun y => if y.vi = 5 then argSharer funded 5 else y)) = false
    ∧ getClu (setClu funded 127 (.dedicated 5)) 127 = .dedicated 5 ∧ tget? funded.grp 1023 = none
    ∧ (objsOfGroup 1023).all (fun n => (getSyn funded n).st == 0) = true ∧ (holdOf (getClu (setClu funded 127 (.dedicated 5)) 127) 5).isSome = true := by
  refine ⟨⟨viReaches (by decide) (by decide) (by decide) rfl, by decide, rfl, rfl, by decide⟩, by decide +kernel⟩
def hdl : HdlCfg := { tctl := 0, store := 4, count := 2 }
def handling (f : BitVec 10) : State := rset funded (viReg 5 0x98) (facetUd funded f)
theorem witness_InstanceRegisters : ViReaches live 5 5 0x18 ∧ ViReaches live 0 5 0x18 ∧ ViReaches live 5 5 0x38
    ∧ bits (at_ 16777216 32 ||| at_ 65279 0) 56 32 ≤ 16777216 ∧ bits (at_ 16777216 32 ||| at_ 65279 0) 15 0 ≤ 65279
    ∧ ViReaches live 5 5 0x10 ∧ ViReaches (handling 8) 5 5 0x80 ∧ (getInst (handling 8) 5).st ≠ 3 ∧ (getInst (handling 8) 5).st ≠ 4
    ∧ (getInst (handling 8) 5).hdlSt = 0 ∧ (hdlCheck (rset (handling 8) (viReg 5 0x80) (hdlWord true hdl &&& 0x0000FFFF01FF0701)) 5).1 = 0
    ∧ (hdlCheck (rset (handling 1023) (viReg 5 0x80) (hdlWord true hdl &&& 0x0000FFFF01FF0701)) 5).1 ≠ 0
    ∧ (getInst (modInst live 5 (fun i => { i with hdlSt := 1 })) 5).hdlSt = 1 := by
  refine ⟨viReaches (by decide) (by decide) (by decide) rfl, viReaches (by decide) (by decide) (by decide) rfl, viReaches (by decide) (by decide) (by decide) rfl,
    by decide, by decide, viReaches (by decide) (by decide) (by decide) rfl, viReaches (by decide) (by decide) (by decide) rfl, by decide +kernel⟩
def events : State := modInst live 5 (fun i => { i with produced := 10, retired := 4, nextTake := 5 })
theorem witness_InstanceRegisters_events : ViReaches live 5 5 0xC0 ∧ (getInst live 5).produced = (getInst live 5).retired ∧ bits (8 : Word) 3 0 ≤ 8
    ∧ ¬((getInst events 5).produced = (getInst events 5).retired) ∧ ViReaches events 5 5 0xD0 ∧ hasHandler events 5 = false
    ∧ ((10 : BitVec 48) - (getInst events 5).retired).toNat ≤ ((getInst events 5).produced - (getInst events 5).retired).toNat
    ∧ ((getInst events 5).produced - (getInst events 5).retired).toNat < ((11 : BitVec 48) - (getInst events 5).retired).toNat
    ∧ ViReaches events 5 5 0xE0 := by
  refine ⟨viReaches (by decide) (by decide) (by decide) rfl, by decide, by decide, by decide, viReaches (by decide) (by decide) (by decide) rfl, by decide,
    by decide, by decide, viReaches (by decide) (by decide) (by decide) rfl⟩

/-! ## Resets, functions and the aperture -/

def resetting (n : Nat) : State := { modInst live 5 (fun i => { i with st := 3, rstPhase := 2 }) with devTime := BitVec.ofNat 64 n }
theorem witness_ResetsAndFunctions : ViReaches live 5 5 0x100 ∧ (getInst live 5).st = 2 ∧ (getInst (resetting 0) 5).st = 3
    ∧ (getInst (resetting 0) 5).rstPhase ≠ 0 ∧ undrained (resetting 0) 5 = 0
    ∧ ((resetting 1000000).devTime - (getInst (resetting 1000000) 5).rstStart).toNat ≥ 1000000
    ∧ ((resetting 999999).devTime - (getInst (resetting 999999) 5).rstStart).toNat < 1000000
    ∧ (getInst (modInst live 5 (fun i => { i with st := 4, rstPhase := 0 })) 5).st = 4
    ∧ CfgReaches live 0 ∧ (getCfg live 0).vfEn = false ∧ (127 : BitVec 16).toNat ≤ 127
    ∧ (getCfg (modCfg live 0 (fun c => { c with numVfs := 7, vfEn := true })) 0).vfEn = true
    ∧ CfgReaches (modCfg live 0 (fun c => { c with numVfs := 7, vfEn := true })) 5 ∧ isPf 5 = false ∧ isPf 128 = true := by
  refine ⟨viReaches (by decide) (by decide) (by decide) rfl, ?_, ?_, ?_, by decide +kernel, ?_, ?_, ?_,
    ⟨by decide, by decide, settled_nil rfl⟩, ?_, ?_, ?_, ⟨by decide, by decide, settled_nil rfl⟩, ?_⟩ <;> decide
/-- Aperture slot 0 of PF 0 names granule 0 of instance 5, and slot 1 an entry that is not VALID. -/
def windows : State := rset (rset live (aperReg 0 0) (at_ 1 63 ||| at_ 5 48)) (aperReg 0 1) (at_ 1 63 ||| at_ 5 48 ||| 1)
theorem witness_ApertureAccesses : isPf 0 = true ∧ gate windows 0 none = .pass ∧ windows.pwr.st ≠ 3 ∧ Settled windows ∧ hostWaits windows 0 = false
    ∧ tlpOk 0 4096 = true ∧ tlpOk 4095 1 = true
    ∧ aperAddr windows 0 (2 ^ 31) = none ∧ aperAddr windows 0 4095 = some (5, 0x2000000000FFF) ∧ aperAddr windows 0 (2 ^ 30) = some (5, 0x2000040000000)
    ∧ translate windows 5 0x2000040000000 4096 .rd = .fault ∧ translate windows 5 0x2000040000000 4096 .wr = .fault
    ∧ translate windows 5 0x2000000000FFF 1 .rd = .dev (3 * 2 ^ 30 + 4095) none ∧ translate windows 5 0x2000000000FFF 1 .wr = .dev (3 * 2 ^ 30 + 4095) none := by
  refine ⟨?_, ?_, ?_, settled_nil rfl, rfl, ?_, ?_, ?_, ?_, ?_, rfl, rfl, rfl, rfl⟩ <;> decide

/-! ## Queues and links -/

/-- SQ 0 and CQ 0 of instance 5 with their rings in granule 0, in the states given. -/
def ringed (sq : Sq) (cq : Cq) (cfg : Word) : State := rset (rset (rset (rset { live with sqs := [(5 * 16, sq)], cqs := [(5 * 16, cq)] } (viReg 5 0x400) 0x2000000000000)
  (viReg 5 0x600) 0x2000000100000) (sqCfgReg 5 0) cfg) (cqCfgReg 5 0) (at_ 1 63 ||| at_ 4 0)
def sqw : SqCfgW := { kind := 1, cq := 0, size := 4 }
def sqOn : Word := sqCfgVal 0 (sqCfgWord true sqw)
def withEn (s : State) : State := rset (setSq s 5 0 { getSq s 5 0 with refused := 0 }) (sqCfgReg 5 0) (sqCfgVal (rget s (sqCfgReg 5 0)) (sqCfgWord true sqw))
theorem qReaches {s : State} {fn : Fn} {vi : Vi} {off : Nat} (o : viReach fn vi = true) (g : gate s fn (some (qOff fn vi off)) = .pass)
    (p : s.pwr.st ≠ 3) (h : s.threads = []) : QReaches s fn vi off := ⟨o, reaches g p h⟩
theorem witness_QueueOperations : QReaches (ringed {} {} 0) 5 5 0x408 ∧ (getSq (ringed {} {} 0) 5 0).st = 0
    ∧ sqCfgOk (withEn (ringed {} {} 0)) 5 0 = false ∧ sqCfgOk (withEn (ringed {} { st := 1 } 0)) 5 0 = true
    ∧ (getSq (ringed { st := 1 } {} sqOn) 5 0).st = 1
    ∧ sqCfgVal (rget (ringed { st := 1 } {} sqOn) (sqCfgReg 5 0)) (sqCfgWord false sqw) ||| at_ 1 63 = rget (ringed { st := 1 } {} sqOn) (sqCfgReg 5 0) ||| at_ 1 63
    ∧ (getSq (ringed { st := 3 } {} 0) 5 0).st = 3 ∧ (getSq (ringed { st := 3 } {} 0) 5 0).taken = 0 := by
  refine ⟨qReaches (by decide) (by decide) (by decide) rfl, by decide +kernel⟩
def cqEn (s : State) : State := rset s (cqCfgReg 5 0) (at_ 1 63 ||| at_ 16 0)
theorem witness_QueueOperations_cq : QReaches (ringed {} {} 0) 5 5 0x608 ∧ (getCq (ringed {} {} 0) 5 0).st = 0 ∧ (16 : BitVec 5).toNat ≤ 16 ∧ 4 ≤ (4 : BitVec 5).toNat
    ∧ rangeOk (cqEn (ringed {} {} 0)) 5 (cqBase (cqEn (ringed {} {} 0)) 5 0) (32 * 2 ^ 16) .wr = true
    ∧ 16 < (17 : BitVec 5).toNat ∧ (3 : BitVec 5).toNat < 4 ∧ (getCq (ringed {} { st := 1 } 0) 5 0).st ≠ 0
    ∧ bits (rget (ringed {} { st := 1 } 0) (cqCfgReg 5 0)) 4 0 = (4 : BitVec 5).toNat ∧ cqUsed (ringed {} { st := 1 } 0) 5 0 = false
    ∧ cqUsed (ringed { st := 1 } { st := 1 } sqOn) 5 0 = true := by
  refine ⟨qReaches (by decide) (by decide) (by decide) rfl, by decide +kernel⟩
theorem witness_QueueOperations_ctx : pickCtx (withEn (ringed {} { st := 1 } 0)) 5 = .ok 0 ∧ pickCtx (cqEn (ringed {} {} 0)) 5 = .ok 0 := ⟨rfl, rfl⟩
/-- Both rings hold 16; the last free entry, one behind the ring, and one more than was written. -/
def serving : State := ringed { st := 1, tail := 3 } { st := 1, tail := 2, phase := true } sqOn
theorem witness_QueueOperations_doorbells : QReaches serving 5 5 0x800 ∧ QReaches serving 5 5 0x880 ∧ (getInst serving 5).st = 2
    ∧ sqSize serving 5 0 = 16 ∧ cqSize serving 5 0 = 16 ∧ (15 : BitVec 16).toNat < sqSize serving 5 0 ∧ sqSize serving 5 0 ≤ (16 : BitVec 16).toNat
    ∧ ((2 : BitVec 16).toNat + 16 - 0) % 16 ≤ ((getCq serving 5 0).tail.toNat + 16 - (getCq serving 5 0).head.toNat % 16) % 16
    ∧ ((getCq serving 5 0).tail.toNat + 16 - (getCq serving 5 0).head.toNat % 16) % 16 < ((3 : BitVec 16).toNat + 16 - 0) % 16
    ∧ canTake serving 5 0 = true ∧ (getSq serving 5 0).got = [] ∧ sqInHost serving 5 0 = false
    ∧ Nat.min (Nat.min (8 : BitVec 4).toNat 8) (((getSq serving 5 0).tail.toNat + 16 - (getSq serving 5 0).head.toNat % 16) % 16) = 3
    ∧ (readDescs serving 5 0 .ok [] 0 3).2.1 ≠ [] ∧ (readDescs { serving with poison := [3 * 2 ^ 30 / 64] } 5 0 .ok [] 0 3).2.1 = [] := by
  refine ⟨qReaches (by decide) (by decide) (by decide) rfl, qReaches (by decide) (by decide) (by decide) rfl, by decide +kernel⟩
/-- The links enabled for L0p and every ASPM state. -/
def aspm : State := { live with links := Vector.replicate 2 { live.links[(0 : Fin 2)] with en := 0xF } }
theorem witness_PollPageAndLinks : pollOn (rset live (viReg 5 0x10) 0x1001) 5 = true ∧ live.boot.phase = 8 ∧ upLinkUp aspm 0 = true
    ∧ bit (aspm.links[(0 : Fin 2)]).en 0 = true ∧ bit (aspm.links[(0 : Fin 2)]).en 3 = true ∧ (aspm.links[(0 : Fin 2)]).pm = 0
    ∧ (8 : BitVec 4).toNat < (aspm.links[(0 : Fin 2)]).lanes.toNat ∧ runsEth live 10 = true ∧ (getPhy live 10).st = 0
    ∧ bit (phyCfg live 10) 63 = true ∧ live.err.fatal = false ∧ ((tget live.sw 5 {} : SwPort)).present = false
    ∧ live.boot.upLink.toList.getD 1 false = true ∧ ltrUs aspm 0 = 1000 := by decide

/-! ## Descriptors and completions -/

/-- SQ 2 of instance 5, of the kind given, with one descriptor read and not taken. -/
def holding (kind : Nat) (b : List Byte) : State := rset { live with sqs := [(5 * 16 + 2, { st := 1, tail := 1, got := [b], seq := 9 })], cqs := [(5 * 16, { st := 1 })] }
  (sqCfgReg 5 2) (at_ 1 63 ||| at_ kind 56 ||| at_ 4 0)
def copyBytes (sp n : Nat) : List Byte := toBytes 8 (1 + sp * 256) ++ toBytes 8 0x2000000000100 ++ toBytes 8 0x2000000000200 ++ toBytes 8 n ++ List.replicate 32 0
def stgDesc (op : Nat) : List Byte := toBytes 8 op ++ toBytes 8 0x2000000000100 ++ toBytes 8 0 ++ toBytes 8 1 ++ List.replicate 32 0
/-- The state with the turn of instance 5 spent, and its descriptor taken. -/
def turned (s : State) (kind : Nat) : State := (roundTake s kind (descWork s kind) 5).getD s
def taken (s : State) (kind : Nat) (b : List Byte) : State × DOp := newDesc (headTaken (turned s kind) 5 2 []) 5 2 kind 9 b
theorem head_ready (s : State) (kind : Nat) (b : List Byte) (m : canTake s 5 2 = true) (f : bits (sqCfg s 5 2) 59 56 = kind)
    (h : (getSq s 5 2).got = [b]) (t : (roundTake s kind (descWork s kind) 5).isSome = true) : HeadReady s (turned s kind) 5 2 kind b [] := by
  refine ⟨m, f, h, ?_⟩
  unfold turned
  cases e : roundTake s kind (descWork s kind) 5 with
  | none => rw [e] at t; cases t
  | some x => rfl
theorem witness_DescriptorsTaken : HeadReady (holding 2 (copyBytes 0 64)) (turned (holding 2 (copyBytes 0 64)) 2) 5 2 2 (copyBytes 0 64) []
    ∧ ∀ op ∈ [1, 2, 3, 4, 5], HeadReady (holding 3 (stgDesc op)) (turned (holding 3 (stgDesc op)) 3) 5 2 3 (stgDesc op) []
      ∧ ofBytes ((stgDesc op).take 1) = op := by
  refine ⟨head_ready _ _ _ (by decide +kernel) rfl rfl (by decide +kernel), fun op h => ?_⟩
  simp only [List.mem_cons, List.not_mem_nil, or_false] at h
  rcases h with rfl | rfl | rfl | rfl | rfl <;> exact ⟨head_ready _ _ _ (by decide +kernel) rfl rfl (by decide +kernel), by decide⟩
def copied (sp : Nat) : State × DOp := taken (holding 2 (copyBytes sp 64)) 2 (copyBytes sp 64)
theorem witness_DescriptorsTaken_copy : gateOk (copied 0).1 (copied 0).2 = true ∧ copyOk (copied 0).2 = true ∧ bits (dWord (copied 0).2 3) 39 0 = 64
    ∧ spaceOk (copied 0).1 (copied 0).2 0 0x2000000000100 64 .rd = true ∧ spaceOk (copied 0).1 (copied 0).2 0 0x2000000000200 64 .wr = true
    ∧ spaceOut 0 0x2000000000100 = false ∧ (0x2000000000100 : Word).toNat + 64 ≤ (0x2000000000200 : Word).toNat
    ∧ (∃ t b, rangeRead (copied 0).1 5 0x2000000000100 64 [] = some (t, b, false))
    ∧ spaceOk (copied 1).1 (copied 1).2 1 0x2000000000100 64 .rd = false := by
  refine ⟨by decide +kernel, by decide +kernel, by decide +kernel, by decide +kernel, by decide +kernel, by decide, by decide, ⟨_, _, rfl⟩, by decide +kernel⟩
/-- Space map 0 of instance 5 gives one block of an NVMe/TCP target that is READY, for reads and writes. -/
def storing : State := rset (rset (rset (holding 3 (stgDesc 1)) (viReg 5 0x900) 3) (viReg 5 0x910) 1) (stgTgtReg 0) (at_ 1 62 ||| at_ 2 60 ||| at_ 9 32)
def stored : State × DOp := taken storing 3 (stgDesc 1)
theorem witness_DescriptorsTaken_drive : gateOk stored.1 stored.2 = true ∧ stgOk stored.2 = true ∧ bit (dMapCfg stored.2) 0 = true
    ∧ otherBlocks stored.1 stored.2 = false ∧ otherSwitch stored.1 stored.2 = false ∧ (dWord stored.2 2).toNat + dNlb stored.2 ≤ (stored.2.wins.getD 6 0).toNat
    ∧ bit (dMapCfg stored.2) 1 = true ∧ spaceOk stored.1 stored.2 (bufSpace stored.2) (dWord stored.2 1) (stgBytes stored.1 stored.2) .wr = true
    ∧ tgtReady stored.1 stored.2 = true ∧ busMaster stored.1 5 = true ∧ usesWindow stored.1 stored.2 = false := by
  decide +kernel
/-- A waiting copy of 64 bytes from place `sp`, and a waiting storage command on target 0, whose state is READY. -/
def copyOp (sp : Nat) : DOp := { id := 4, vi := 5, q := 2, kind := 2, seq := 9, desc := copyBytes sp 64 }
def driveOp (st : DSt) : DOp := { id := 4, vi := 5, q := 2, kind := 3, seq := 9, st := st, desc := stgDesc 1, wins := [0, 0, 0, 0, 3, 0, 1] }
def drives (d : DOp) : State := rset { holding 2 (copyBytes 0 64) with descs := [d] } (stgTgtReg 0) (at_ 1 62 ||| at_ 9 32 ||| at_ 0x100 0)
theorem witness_DescriptorsTaken_start : findDesc (drives (copyOp 0)) 5 2 9 = some (copyOp 0) ∧ (copyOp 0).st = .waiting
    ∧ working (drives (copyOp 0)) = true := ⟨rfl, rfl, by decide⟩
/-- A flush the drive works on, its time-out about to pass, and a copy whose host read is out. -/
def flushOp : DOp := { driveOp .drive with desc := stgDesc 3 }
def readingOp : DOp := { copyOp 1 with st := .reading }
theorem witness_CompletionsArrive : findDescIn (drives readingOp) 5 2 9 .reading = some readingOp ∧ readingOp.dead = false
    ∧ findDescIn (drives flushOp) 5 2 9 .drive = some flushOp ∧ flushOp.st = .drive ∧ flushOp.dead = false ∧ (5 : BitVec 15) ≠ 0 ∧ flushOp.poisoned = false
    ∧ dOp flushOp ≠ 1 ∧ tgtTimeout (drives flushOp) (dTarget flushOp) * 1000000 ≤ ((0xFFFFFFFFFF : Word) - flushOp.since).toNat
    ∧ readSince (drives readingOp) (.desc 5 2 9) = some 0 ∧ (getCfg (drives readingOp) (readFn (drives readingOp) (.desc 5 2 9))).ctoDis = false
    ∧ tagRetired (drives readingOp) 5 3 = false ∧ tagRetired { live with lateTags := [(5, 3, 5001)] } 5 3 = true
    ∧ ctoNs (getCfg (drives readingOp) 5).ctoVal ≤ ((0xFFFFFFFFFF : Word) - 0).toNat := by
  refine ⟨rfl, rfl, rfl, rfl, rfl, by decide, rfl, by decide, by decide, rfl, by decide⟩
/-- Page 1 of the storage window of port 0 belongs to the drive's command; target 3 is a TCP target on port 11. -/
def winState : State := { drives (driveOp .drive) with stgWin := [(1, (4, 0))] }
theorem witness_CompletionsArrive_window : tget? winState.stgWin 0 = none ∧ tget? winState.stgWin 1 = some (4, 0)
    ∧ winState.descs.find? (fun d => d.id == 4) = some (driveOp .drive) ∧ (driveOp .drive).dead = false
    ∧ bits (rget winState (stgTgtReg (dTarget (driveOp .drive)))) 15 0 = (0x100 : BitVec 16).toNat ∧ (508 : Nat) + 4 ≤ stgBytes winState (driveOp .drive)
    ∧ 4604 % 4096 + 4 ≤ 4096 ∧ (rangeRead winState 5 (0x2000000000100 + BitVec.ofNat 64 508) 4 []).isSome = true
    ∧ (rangeWriteBy winState 5 (0x2000000000100 + BitVec.ofNat 64 508) [1, 2, 3, 4] (.desc 4)).isSome = true
    ∧ portOfNat (bits (at_ 1 62 ||| at_ 2 60 ||| at_ 11 56) 59 56) = some 11 ∧ bits (at_ 1 62 ||| at_ 2 60 ||| at_ 11 56) 61 60 = 2 ∧ runsEth live 11 = true
    ∧ (14 : Nat) ≤ (List.replicate 14 (0 : Byte)).length ∧ (List.replicate 14 (0 : Byte)).length + 4 ≤ maxFrame live 11 := by
  refine ⟨by decide, by decide, rfl, rfl, by decide +kernel⟩

/-! ## Prism -/

theorem prmIdle {s : State} {fn : Fn} {p : Port} {off : Nat} (f : isPf fn = true) (g : gate s fn (some (portOff p off)) = .pass)
    (w : s.pwr.st ≠ 3) (h : s.threads = []) (b : statBusy s (prmStat p) = false) : PrmIdle s fn p off := ⟨f, reaches g w h, b⟩
/-- Port 11 with its rule buffer all ones, or all zeros but byte 0 of the action, and its bank copy and mode as given. -/
def prismed (cp : Bool) (cur : BitVec 2) : State := setPrism live 11 { getPrism live 11 with copying := cp, cur := cur }
def filled (v : Word) : State := (List.range 24).foldl (fun s i => rset s (prmReg 11 0x1000 + 8 * i) v) live
theorem witness_PrismCommands : PrmIdle live 0 11 0x10 ∧ (getPrism live 11).copying = false ∧ (getPrism live 11).cur ≠ 2
    ∧ badAction live (getPrism live 11).shadow (ruleAction (getWords live (prmReg 11 0x1000) 24)) = false
    ∧ tplOk (getWords live (prmReg 11 0x1000) 16) = true ∧ (63 : BitVec 11).toNat ≤ 63
    ∧ PrmIdle (filled 0xFFFFFFFFFFFFFFFF) 0 11 0x10 ∧ (getPrism (filled 0xFFFFFFFFFFFFFFFF) 11).copying = false
    ∧ badAction (filled 0xFFFFFFFFFFFFFFFF) (getPrism (filled 0xFFFFFFFFFFFFFFFF) 11).shadow (ruleAction (getWords (filled 0xFFFFFFFFFFFFFFFF) (prmReg 11 0x1000) 24)) = true
    ∧ PrmIdle (prismed true 0) 128 11 0x10 ∧ (getPrism (prismed true 0) 11).copying = true ∧ (getPrism (prismed false 2) 11).cur = 2 := by
  refine ⟨prmIdle (by decide) (by decide) (by decide) rfl (by decide), by decide, by decide, by decide +kernel, by decide +kernel, by decide,
    prmIdle (by decide) (by decide +kernel) (by decide +kernel) rfl (by decide +kernel), by decide +kernel, by decide +kernel,
    prmIdle (by decide) (by decide) (by decide) rfl (by decide), by decide⟩
theorem witness_PrismCommands_flows : PrmIdle live 0 11 0x400
    ∧ badAction live (getPrism live 11).active (((getWords live (prmReg 11 0x1100) 16).drop 0x30).take 48) = false
    ∧ flowExists live (flowKey (getWords live (prmReg 11 0x1100) 16)) = false ∧ flowCount live < 1048576 ∧ 0 < 2 ^ 24
    ∧ PrmIdle (newCtx live 5 0 (.flow 5 [] [] {})) 0 11 0x400 ∧ getFlow (newCtx live 5 0 (.flow 5 [] [] {})) (0 : BitVec 24).toNat = some (5, [], [], {})
    ∧ ctxReachable (newCtx live 5 0 (.flow 5 [] [] {})) 0 = true ∧ getFlow live (0xFFFFFF : BitVec 24).toNat = none ∧ pickCtx live 5 = .ok 0 := by
  refine ⟨prmIdle (by decide) (by decide) (by decide) rfl (by decide), by decide +kernel, by decide +kernel, by decide, by decide,
    prmIdle (by decide) (by decide) (by decide) rfl (by decide), rfl, by decide, rfl, rfl⟩
/-- Port 11 has a link of eight lanes. -/
def linked : State := { live with phy := [(11, { st := 2, lanes := 8 })] }
def rxf (n : Nat) (stopped overrun : Bool) : RxFrame := { data := List.replicate n 0, tag := none, stopped := stopped, overrun := overrun }
def slowOf (c : Nat) : State := { linked with fw := { linked.fw with up := true }, slowQ := [(3, { port := 11, cause := c, data := List.replicate 60 0, reinject := false, time := 0, fhash := 0 })] }
theorem witness_FramesReceived : FrameTaken linked 11 (rxf 60 false false) ∧ FrameTaken linked 11 (rxf 60 false true)
    ∧ (∃ t b, msecRecv linked 11 none = (t, some b)) ∧ maxFrame linked 11 < (rxf 10000 false false).data.length + 4
    ∧ (rxf 60 true false).data.length + 4 ≤ maxFrame linked 11 ∧ (rxf 60 true false).stopped = true
    ∧ HostReaches linked 0 (portOff 11 0) ∧ (2 : BitVec 2) ≠ 3 ∧ (∀ c ∈ [1, 4], slowUp (slowOf c) 3 = true
      ∧ ∃ f, (slowOf c).slowQ.find? (fun x => x.1 == 3) = some (3, f) ∧ f.cause = c)
    ∧ slowUp (slowOf 2) 3 = true ∧ portOfNat 11 = some 11 := by
  refine ⟨⟨by decide, by decide, by decide, by decide +kernel, rfl⟩, ⟨by decide, by decide, by decide, by decide +kernel, rfl⟩, ⟨_, _, rfl⟩,
    by decide +kernel, by decide +kernel, rfl, reaches (by decide) (by decide) rfl, by decide, ?_, by decide, rfl⟩
  intro c h; simp at h; obtain rfl | rfl := h <;> exact ⟨by decide, _, rfl, rfl⟩
/-- A ring of 64 slots in granule 0 of instance 5, or with no base set, with event counters 129 and 130. -/
def ringCfg (port : BitVec 4) : RingCfg := { pcntEn := false, port := port, slot := 11, ccnt := 130, pcnt := 129, size := 6 }
def counted : State := { linked with grp := [(2, 5)], syn := [(129, { st := 1, ty := 2, value := 77 }), (130, { st := 1, ty := 2 })] }
def rxWord (en : Bool) : Word := (ringCfg 0).word en &&& 0xC00FFFFFFFFF001F
def rxBased : State := rset counted (viReg 5 (rxOff 3)) 0x2000000000000
def rxRuns : State := rset { rxBased with rx := [(ringKey 5 3, { run := true, base := 77 })] } (viReg 5 (rxOff 3 + 8)) (rxWord true)
theorem witness_FramesReceived_rings : ViReaches linked 0 5 (rxOff 3 + 8) ∧ ViReaches rxBased 0 5 (rxOff 3 + 8) ∧ ViReaches rxRuns 0 5 (rxOff 3 + 8) ∧ isPf 0 = true
    ∧ ViReaches counted 5 5 (rxOff 3 + 8) ∧ isPf 5 = false ∧ (getRx linked 5 3).run = false ∧ (getRx rxBased 5 3).run = false ∧ bit (rxWord true) 63 = true
    ∧ rxRingOk (rset linked (viReg 5 (rxOff 3 + 8)) (rxWord true)) 5 3 = false ∧ rxRingOk (rset rxBased (viReg 5 (rxOff 3 + 8)) (rxWord true)) 5 3 = true
    ∧ (getRx rxRuns 5 3).run = true ∧ bit (rxWord false) 63 = false
    ∧ setBits (rxWord false) 63 63 0 = setBits (rget rxRuns (viReg 5 (rxOff 3 + 8))) 63 63 0 := by
  refine ⟨viReaches (by decide) (by decide) (by decide) rfl, viReaches (by decide) (by decide) (by decide) rfl, viReaches (by decide) (by decide) (by decide) rfl, by decide,
    viReaches (by decide) (by decide) (by decide) rfl, by decide +kernel⟩
def datagram : Datagram := { quad := 3, port := 11, key := [], head := [], parts := [], total := none, first := 0 }
theorem witness_FramesReceived_expiry : ([datagram].filter (fun d => d.quad == 3))[0]? = some datagram
    ∧ 10000000 ≤ ({ linked with reasm := [datagram], devTime := 10000000 }.devTime - datagram.first).toNat := ⟨rfl, by decide⟩

/-! ## Iris -/


def slotFrame (sl : Option (Nat × Word × Bool)) : IFrame := { kind := 0, data := List.replicate 60 0, vi := some 5, slot := sl }
def qcfgW (w qmax : Nat) : Word := at_ 1 63 ||| at_ w 48 ||| at_ qmax 0
theorem witness_IrisOperations : runsEth counted 11 = true ∧ 14 ≤ (List.replicate 14 (0 : Byte)).length
    ∧ (List.replicate 14 (0 : Byte)).length + 4 ≤ maxFrame counted 11 ∧ counted.devTime.toNat % 1000 = 0
    ∧ (tget (getIris counted 11).viSh 5 {}).last ≠ some counted.devTime ∧ (tget (getIris counted 11).clSh 3 {}).last ≠ some counted.devTime
    ∧ (tget (getIris counted 11).clSh 3 {}).pend = [] ∧ portUse counted 11 < 2 ∧ msecReady counted 11 = true ∧ (slotFrame none).slot = none
    ∧ (slotFrame (some (130, 0x2000000000100, false))).vi = some 5
    ∧ ViReaches counted 0 5 (0xE00 + 8 * (11 : Port).val) ∧ HostReaches counted 0 (portOff 11 (0x4400 + 8 * 3)) ∧ HostReaches counted 0 (portOff 11 (0x4100 + 8 * 15))
    ∧ (∀ m ∈ [1, 8192], bits (qcfgW 7 m) 57 48 ≠ 0 ∧ 1 ≤ bits (qcfgW 7 m) 13 0 ∧ bits (qcfgW 7 m) 13 0 ≤ 8192) := by
  refine ⟨?_, ?_, by decide +kernel, ?_, ?_, ?_, ?_, ?_, ?_, rfl, rfl,
    viReaches (by decide) (by decide) (by decide) rfl, reaches (by decide) (by decide) rfl, reaches (by decide) (by decide) rfl, ?_⟩ <;> decide
/-- An instance's shaper that has had this microsecond's bits. -/
theorem witness_IrisOperations_shaper : (tget (getIris (setIris counted 11 { getIris counted 11 with viSh := [(5, { last := some 5000 })] }) 11).viSh 5 {}).last
    = some (setIris counted 11 { getIris counted 11 with viSh := [(5, { last := some 5000 })] }).devTime := rfl
/-- A frame of instance 5's BRM engine for port 11, and port 11 as a Barvar port. -/
def brmSends : State := { counted with brmOut := [{ vi := 5, par := 2816, path := 0, pkt := [] }] }
theorem witness_IrisOperations_brm : (brmSends.brmOut.find? (fun o => o.vi == 5 && decide (bits o.par 11 8 = (11 : Port).val))).isSome = true
    ∧ stageFull brmSends 11 5 = false ∧ 2 ≤ portUse (rset counted (portReg 11 0x8000) (at_ 1 63 ||| at_ 2 58)) 11 := by decide +kernel
/-- An administrative list of one entry of 32 ns, the shortest, in the shortest cycle, and a change that gateWaits for its time. -/
def gcl (en : Bool) : GclW := { init := 0xFFFF, alen := 1, en := en }
def listed : State := rset (rset counted (irsReg 11 0x1000) (at_ 0xFFFF 48 ||| at_ 32 0)) (irsReg 11 0x810) 1000
def gateWaits : State := rset (setIris counted 11 { getIris counted 11 with pend := true, chtime := 5000 }) (gclReg 11) (gclWord (gcl true))
theorem witness_IrisOperations_gates : HostReaches counted 0 (portOff 11 0x4800) ∧ (getIris counted 11).pend = false
    ∧ gclCheck (rset counted (gclReg 11) (gclWord (gcl true))) 11 ≠ 0 ∧ (gcl true).en = true
    ∧ HostReaches listed 0 (portOff 11 0x4800) ∧ (getIris listed 11).pend = false ∧ gclCheck (rset listed (gclReg 11) (gclWord (gcl true))) 11 = 0
    ∧ HostReaches gateWaits 0 (portOff 11 0x4800) ∧ (getIris gateWaits 11).pend = true ∧ bits (rget gateWaits (gclReg 11)) 21 13 = (gcl true).alen.toNat
    ∧ (getIris gateWaits 11).chtime.toNat ≤ gateWaits.devTime.toNat := by
  refine ⟨reaches (by decide) (by decide) rfl, by decide, by decide +kernel, rfl, reaches (by decide) (by decide) rfl, by decide, by decide +kernel, reaches (by decide) (by decide) rfl, by decide⟩
/-- A transmit ring of instance 5 with one slot posted, its length in the slot's first bytes. -/
def txWord (en : Bool) : Word := (ringCfg 11).word en &&& 0x8F0FFFFFFFFF001F
def txBased : State := rset counted (viReg 5 0xC60) 0x2000000000000
def txRuns (len : Byte) : State := setSyn (rset { txBased with tx := [(ringKey 5 3, { run := true, base := 77 })], mem := [(3 * 2 ^ 30, len)] } (viReg 5 0xC68) (txWord true)) 129 { st := 1, ty := 2, value := 78 }
theorem witness_TransmitAndSampleRings : ViReaches linked 0 5 0xC68 ∧ ViReaches txBased 0 5 0xC68 ∧ ViReaches counted 5 5 0xC68 ∧ (tget linked.tx (ringKey 5 3) {}).run = false ∧ (tget txBased.tx (ringKey 5 3) {}).run = false
    ∧ bit (txWord true) 63 = true ∧ txRingOk (rset linked (viReg 5 0xC68) (txWord true)) 5 3 = false ∧ txRingOk (rset txBased (viReg 5 0xC68) (txWord true)) 5 3 = true
    ∧ (tget (txRuns 60).tx (ringKey 5 3) {}).run = true ∧ ViReaches (txRuns 60) 0 5 0xC68 ∧ bit (txWord false) 63 = false
    ∧ setBits (txWord false) 63 63 0 = setBits (rget (txRuns 60) (viReg 5 0xC68)) 63 63 0 := by
  refine ⟨viReaches (by decide) (by decide) (by decide) rfl, viReaches (by decide) (by decide) (by decide) rfl, viReaches (by decide) (by decide) (by decide) rfl, by decide, by decide, by decide, by decide +kernel, by decide +kernel,
    by decide, viReaches (by decide) (by decide) (by decide) rfl, by decide⟩
/-- The state in which instance 5 has taken its turn of port 11's transmit engine. -/
def txTurn (len : Byte) : State := (roundTake (txRuns len) 17 (txWork (txRuns len) 11) 5).getD (txRuns len)
theorem witness_TransmitAndSampleRings_slot : ∀ len ∈ [13, 14], txReady (txRuns len) 5 3 = some 11
    ∧ (roundTake (txRuns len) (6 + (11 : Port).val) (txWork (txRuns len) 11) 5).isSome = true := by decide +kernel
theorem witness_TransmitAndSampleRings_read : (∃ t h b, rangeRead (txTaken (txTurn 14) 5 3) 5 (txBase (txRuns 14) 5 3) 8 [] = some (t, h, b) ∧ ofBytes (h.take 2) = 14
      ∧ ∃ t' d, rangeRead t 5 (txBase (txRuns 14) 5 3 + 32) 14 [] = some (t', d, false))
    ∧ ∃ t h b, rangeRead (txTaken (txTurn 13) 5 3) 5 (txBase (txRuns 13) 5 3) 8 [] = some (t, h, b) ∧ ofBytes (h.take 2) = 13 := by
  refine ⟨⟨_, _, _, rfl, ?_, _, _, rfl⟩, _, _, _, rfl, ?_⟩ <;> decide +kernel
/-- A sampling ring of 64 records with a place in granule 0, running and full, at a whole period. -/
def smpW : SmpCfg := { en := true, pcntEn := false, vi := 5, qmask := 3, period := 5, size := 6 }
def smpWord : Word := smpW.word &&& 0xC0FFFFFFFFFF001F
def smpBased : State := rset (rset counted (irsReg 11 0x900) 0x2000000000000) (irsReg 11 0x910) (at_ 130 32)
def smpRuns (n : Nat) : State := setIris (rset smpBased (irsReg 11 0x908) smpWord) 11 { getIris smpBased 11 with smpRun := true, smpRecs := BitVec.ofNat 48 n }
theorem witness_TransmitAndSampleRings_samples : HostReaches smpBased 0 (portOff 11 0x4908) ∧ (getIris smpBased 11).smpRun = false ∧ bit smpWord 63 = true
    ∧ smpOk (rset smpBased (irsReg 11 0x908) smpWord) 11 = true ∧ (getIris (smpRuns 62) 11).smpRun = true
    ∧ (smpRuns 62).devTime.toNat % (5 * 1000) = 0 ∧ bits (smpCfg (smpRuns 62) 11) 31 16 = 5 ∧ (getIris (smpRuns 62) 11).smpAt ≠ some (smpRuns 62).devTime
    ∧ ((getSyn (smpRuns 62) (bits (smpCnt (smpRuns 62) 11) 47 32)).value - (getIris (smpRuns 62) 11).smpBase).toNat = 0
    ∧ ((List.range 16).filter (fun q => (bits (smpCfg (smpRuns 62) 11) 47 32).testBit q)).length = 2 ∧ 2 ^ bits (smpCfg (smpRuns 62) 11) 4 0 = 64
    ∧ bit (smpCfg (smpRuns 62) 11) 62 = false := by
  refine ⟨reaches (by decide) (by decide) rfl, by decide +kernel⟩

/-! ## BRM -/

/-- A waiting descriptor of BRM queue 2, its words given. -/
def brmBytes (w0 w1 w2 w3 w4 w5 : Word) : List Byte := toBytes 8 w0.toNat ++ toBytes 8 w1.toNat ++ toBytes 8 w2.toNat ++ toBytes 8 w3.toNat
  ++ toBytes 8 w4.toNat ++ toBytes 8 w5.toNat ++ List.replicate 16 0
def brmDesc (w0 : Word) : List Byte := brmBytes w0 0x2000000000100 (at_ 1 24) (at_ 1 24 ||| 1) 0 64
def txAt (psn : BitVec 32) (busy : Bool) (sends : Nat) : TxPkt := { psn := psn, msn := 0, opc := 1, off := 0, bytes := 64, data := [], poison := false, since := 0, busy := busy, sends := sends }
def qpBase (st : BitVec 3) : Qp := { owner := 5, st := st, gen := 1, par := 0, home := 0, destroy := some (2, 9, 77), connect := some (2, 9, 77), toAck := 1, pkts := [txAt 3 false 7, txAt 4 true 8] }
def qpAt (st : BitVec 3) : Qp := { qpBase st with placed := [{ psn := 2, msn := 0, opc := 1, bytes := 64 }], rmsgs := [{ msn := 1, opc := 1, count := 1, mlen := 64, firstAt := 0, notify := false, fence := false }] }
/-- Region 1 is the first 4096 bytes of instance 5, which any peer may read, write and update. -/
def regBlk : BitVec 256 := BitVec.ofNat 256 (4096 * 2 ^ 64 + 0x17 * 2 ^ 128)
def regionAt (rv : Bool) : Region := { owner := 5, gen := 1, blk := regBlk, revoke := if rv then some (2, 9, 77) else none }
def paired (st : BitVec 3) (w0 : Word) : State := { holding 4 (brmDesc w0) with fw := { live.fw with features := [(4, 1)] }, ctxs := [(0, .qp (qpAt st)), (1, .region (regionAt false))], devTime := 1000000000 }
/-- The descriptor taken, and the state it starts in. -/
def brmTaken (st : BitVec 3) (w0 : Word) : State × DOp := taken (paired st w0) 4 (brmDesc w0)
theorem witness_BrmDescriptors : ∀ op ∈ [1, 2, 3, 0x10, 0x11, 0x12, 0x13, 0x20, 0x21],
    HeadReady (paired 2 op) (turned (paired 2 op) 4) 5 2 4 (brmDesc op) [] ∧ ofBytes ((brmDesc op).take 1) = op.toNat
      ∧ gateOk (brmTaken 2 op).1 (brmTaken 2 op).2 = true ∧ featureVer (paired 2 op).fw 4 ≠ 0 ∧ brmDescOk (brmTaken 2 op).2 = true
      ∧ ((bQp (brmTaken 2 op).1 (brmTaken 2 op).2).toOption.map (·.1)) = some 0 := by
  intro op h
  simp only [List.mem_cons, List.not_mem_nil, or_false] at h
  rcases h with rfl | rfl | rfl | rfl | rfl | rfl | rfl | rfl | rfl <;>
    exact ⟨head_ready _ _ _ (by decide +kernel) rfl rfl (by decide +kernel), by decide +kernel⟩
theorem witness_BrmDescriptors_states : ([0, 1, 2, 3].all (fun st => (bQp (brmTaken st 1).1 (brmTaken st 1).2).toOption.map (fun x => (x.2.st, x.2.bad)) == some (st, false))) = true := by
  decide +kernel
theorem witness_BrmDescriptors_messages : ([1, 2, 3, at_ 9 24 ||| 3].all (fun op => let x := brmTaken 2 op; !bit (dWord x.2 0) 22 && accOk x.2 && localOk x.1 x.2)) = true
    ∧ bits (dWord (brmTaken 2 (at_ 9 24 ||| 3)).2 0) 27 24 = 9
    ∧ (rangeRead (brmTaken 2 3).1 5 (dWord (brmTaken 2 3).2 1) 8 []).map (·.2.2) = some false := by decide +kernel
theorem witness_BrmDescriptors_query : let x := brmTaken 2 0x13; (rangeWriteBy x.1 5 (dWord x.2 1) (qpStatus (qpAt 2)) (.desc x.2.id)).isSome = true := by decide +kernel
def gatedDesc (op : Nat) : List Byte := toBytes 8 op ++ List.replicate 40 0 ++ toBytes 8 (3 * 2 ^ 48 + 5) ++ toBytes 8 1
theorem witness_BrmDescriptors_gated : HeadReady (holding 4 (gatedDesc 1)) (turned (holding 4 (gatedDesc 1)) 4) 5 2 4 (gatedDesc 1) []
    ∧ gateOk (taken (holding 4 (gatedDesc 1)) 4 (gatedDesc 1)).1 (taken (holding 4 (gatedDesc 1)) 4 (gatedDesc 1)).2 = false :=
  ⟨head_ready _ _ _ (by decide +kernel) rfl rfl (by decide +kernel), by decide +kernel⟩
theorem witness_BrmDescriptors_regions : let x := brmTaken 2 0x21
    regionOf x.1 ((dWord x.2 3).setWidth 48) = some (1, regionAt false) ∧ (regionAt false).owner = x.2.vi ∧ ctxReachable x.1 1 = true ∧ (regionAt false).revoke = none
    ∧ (regionAt true).revoke = some (2, 9, 77) ∧ (regionAt true).admitted = [] ∧ (qpAt 4).st = 4 ∧ (qpAt 4).msgs = [] := by
  refine ⟨by decide +kernel, by decide +kernel, by decide +kernel, rfl, rfl, rfl, rfl, rfl⟩
/-- The region block stands in memory where REGISTER reads it; unwritten memory, read as zeros, is a parameter block. -/
def blockMem : Memory := (List.range 32).filterMap (fun i => let b : Byte := (BitVec.ofNat 256 (ofBytes (toBytes 32 regBlk.toNat)) >>> (8 * i)).setWidth 8; if b = 0 then none else some (3 * 2 ^ 30 + 256 + i, b))
def blocked : State := { (brmTaken 2 0x20).1 with mem := blockMem }
theorem witness_BrmDescriptors_register : ((bRead blocked (brmTaken 2 0x20).2 32).toOption.map (fun x => ofBytes x.2)) = some regBlk.toNat
    ∧ ((bRead blocked (brmTaken 2 0x20).2 32).toOption.map (fun x => (pickCtx x.1 5).toOption)) = some (some 2)
    ∧ regionOk (regionAt false) = true ∧ ((bRead blocked (brmTaken 2 0x20).2 32).toOption.map (fun x => (regionMapped x.1 5 (regionAt false), importClash x.1 5 (regionAt false)))) = some (true, false)
    ∧ regEnc (regionAt false) = false := by
  refine ⟨by decide +kernel, by decide +kernel⟩
def zeroQp : Qp := { owner := 5, gen := 0, par := 0, home := 0 }
theorem witness_BrmDescriptors_create : let x := brmTaken 2 0x10
    bits (dWord x.2 1) 5 0 = 0
    ∧ (((bRead x.1 x.2 128).toOption.map (fun y => ((pickCtx y.1 5).toOption, ofBytes y.2)))) = some (some 2, 0)
    ∧ qpParOk x.1 5 zeroQp = true ∧ qpThreads zeroQp = false ∧ qpEnc zeroQp = false ∧ qpLink zeroQp = 0 := by
  refine ⟨by decide +kernel, by decide +kernel⟩
/-- A packet of the peer for the queue pair end, addressed to region 1. -/
def packet (psn msn : BitVec 32) : Pkt := { src := 0, dqp := 0, dqgen := 1, svi := 0, psn := psn, msn := msn, rkey := BitVec.ofNat 48 (2 ^ 24 + 1), mlen := 4096, data := List.replicate 64 0 }
def peered (st : BitVec 3) : State := paired st 0x21
theorem arrives (p : Pkt) (h : p = packet 4095 7 ∨ p = packet 9 8) : PacketInOrder (peered 2) p (qpAt 2) := by
  rcases h with h | h <;> subst h <;>
    exact ⟨by decide +kernel, rfl, by decide +kernel, by decide +kernel, rfl, ⟨by decide +kernel, by decide +kernel⟩, .inl rfl, by decide +kernel, by decide +kernel, by decide +kernel⟩
theorem witness_BrmPacketsAndTimers : PacketInOrder (peered 2) (packet 4095 7) (qpAt 2) ∧ msnStale (qpAt 2) 7 = false
    ∧ ((pktBytesOf (packet 4095 7)).map (·.length)).getD 0 = 64 ∧ ((target (peered 2) (qpAt 2) (packet 4095 7) 1 64).toOption.map (fun x => (x.1, x.2.2))) = some (1, 0)
    ∧ ((target (peered 2) (qpAt 2) (packet 4095 7) 4 4).toOption.map (fun x => (x.1, x.2.2))) = some (1, 0) ∧ (packet 4095 7).fence = false
    ∧ ((target (peered 2) (qpAt 2) (packet 4095 7) 2 4096).toOption.map (fun x => (x.1, x.2.2))) = some (1, 0) ∧ (packet 4095 7).enc = false
    ∧ rangeOk (peered 2) 5 (ownAddr 0) 4096 .rd = true ∧ msnStale { qpAt 2 with outcomes := [(7, true)] } 7 = true := by
  refine ⟨arrives _ (.inl rfl), by decide +kernel, by decide +kernel, by decide +kernel, by decide +kernel, rfl, by decide +kernel, rfl, by decide +kernel⟩
theorem witness_BrmPacketsAndTimers_peer : FromPeer (peered 1) (packet 3 0) (qpAt 1) ∧ FromPeer (peered 2) (packet 3 0) (qpAt 2)
    ∧ ((qpAt 2).pkts.find? (fun x => x.psn == (packet 3 0).psn && x.msn == (packet 3 0).msn)).isSome = true
    ∧ (qpAt 1).st = 1 ∧ ofBytes ((packet 3 0).data.take 8) = (qpAt 1).peer.toNat :=
  ⟨⟨by decide +kernel, rfl, by decide +kernel, ⟨by decide +kernel, by decide +kernel⟩⟩, ⟨by decide +kernel, rfl, by decide +kernel, ⟨by decide +kernel, by decide +kernel⟩⟩, by decide +kernel, rfl, by decide +kernel⟩
theorem witness_BrmPacketsAndTimers_timers : getQp (peered 2) 0 = some (qpAt 2) ∧ ((qpAt 2).placed.find? (fun x => x.psn == 2)).isSome = true
    ∧ brmOpen (peered 2) 0 0 2 = false ∧ (qpAt 2).toAck > 0 ∧ bits (rget (peered 2) 0x300000) 15 0 ≤ 1000
    ∧ 1000 ≤ ((peered 2).devTime - (qpAt 2).ackFrom).toNat ∧ ((qpAt 2).pkts.find? (fun x => x.psn == 3 && !x.busy)).isSome = true ∧ working (peered 2) = true
    ∧ rtoNs (qpAt 2) 7 ≤ ((peered 2).devTime - 0).toNat ∧ qpRetries (qpAt 2) = 7 ∧ ((qpAt 2).pkts.find? (fun x => x.psn == 4 && x.busy)).isSome = true
    ∧ Nat.max 1 (bits (rget (peered 2) 0x300000) 31 16) * 1000 ≤ ((peered 2).devTime - 0).toNat
    ∧ getQp (peered 1) 0 = some (qpAt 1) ∧ (qpAt 1).st = 1 ∧ qpRtoUs (qpAt 1) * 1000 ≤ ((peered 1).devTime - (qpAt 1).reqAt).toNat
    ∧ 1000000000 ≤ ((peered 1).devTime - (qpAt 1).connAt).toNat ∧ (qpAt 1).connect = some (2, 9, 77)
    ∧ ((qpAt 2).rmsgs.find? (fun m => m.msn == 1)).isSome = true ∧ qpMsgUs (qpAt 2) * 1000 ≤ ((peered 2).devTime - 0).toNat := by
  refine ⟨rfl, ?_, ?_, ?_, ?_, ?_, ?_, ?_, ?_, ?_, ?_, ?_, rfl, rfl, ?_, ?_, rfl, ?_⟩ <;> decide +kernel

/-! ## Links and the pair -/

/-- Barvar port 1 is up, with two packets in its retry buffer. -/
def linkPkt (ty : BitVec 8) : LinkPkt := { ty := ty, vc := 7, dst := 0x10, src := 0x20, lseq := 5 }
def barPhy (st : BitVec 3) : Phy := { st := st, lanes := 8, rxSeq := 5, txSeq := 9, ackDue := 3, retry := [{ linkPkt 1 with lseq := 7 }, { linkPkt 1 with lseq := 8 }] }
def barred (h : Phy) : State := { live with phy := [(1, h)], devTime := 1000000000 }
def portCfg (n : Nat) : PhyCfgW := { use_ := BitVec.ofNat 2 (bits (phyCfg live 1) 59 58), dir := BitVec.ofNat 3 (bits (phyCfg live 1) 57 55), maxFrame := BitVec.ofNat 14 n }
def portEn (s : State) (en : Nat) : State := rset s (portReg 1 0x8000) (setBits (phyCfg s 1) 63 63 en)
theorem witness_BarvarLinks : HostReaches (barred (barPhy 2)) 0 (portReg 1 0x8000)
    ∧ (∀ n ∈ [64, 9216], bits (phyCfgWord true (portCfg n)) 59 58 = bits (phyCfg live 1) 59 58 ∧ bits (phyCfgWord true (portCfg n)) 57 55 = bits (phyCfg live 1) 57 55
      ∧ bits (phyCfg live 1) 57 55 ≤ 5 ∧ 64 ≤ bits (phyCfgWord true (portCfg n)) 13 0 ∧ bits (phyCfgWord true (portCfg n)) 13 0 ≤ 9216 ∧ bits (phyCfgWord true (portCfg n)) 59 58 ≠ 0)
    ∧ bit (phyCfg (portEn (barred {}) 0) 1) 63 = false ∧ bit (phyCfg (portEn (barred {}) 1) 1) 63 = true ∧ linkOn (portEn (barred {}) 1) 1 = false
    ∧ linkOn (barred (barPhy 2)) 1 = true ∧ (∀ t ∈ [1, 2, 4, 5], knownType t = true ∧ (linkPkt t).ty ≠ 0x0F ∧ (linkPkt t).hcrcOk = true ∧ (linkPkt t).pcrcOk = true
      ∧ (linkPkt t).lseq = (getPhy (barred (barPhy 2)) 1).rxSeq ∧ (linkPkt t).stomp = false ∧ (linkPkt t).vc.toNat ≤ 7 ∧ (linkPkt t).body.length ≤ 4168) := by
  refine ⟨reaches (by decide) (by decide) rfl, by decide⟩
/-- The port trains, and its neighbour's answer fits the fabric. -/
def fabWord : Word := 0x8000000000000000 ||| at_ 3 44 ||| at_ 3 40 ||| at_ 1 36
def trains (h : Phy) : State := rset (barred h) (devReg 0x4800) fabWord
def farEnd (use : BitVec 2) : LinkInit := { dev := (neighbour (trains { st := 1 }) (portDir (trains { st := 1 }) 1)).getD 0, use_ := use, dir := BitVec.ofNat 3 (if portDir (trains { st := 1 }) 1 % 2 = 0 then portDir (trains { st := 1 }) 1 + 1 else portDir (trains { st := 1 }) 1 - 1), size := fabSize (trains { st := 1 }) }
theorem witness_BarvarLinks_training : barvar (trains { st := 1 }) 1 = true ∧ (getPhy (trains { st := 1 }) 1).st = 1 ∧ initMatches (trains { st := 1 }) 1 (farEnd 2) = true
    ∧ initMatches (trains { st := 1 }) 1 (farEnd 3) = false ∧ (getPhy (trains { st := 1 }) 1).half = false ∧ (getPhy (trains { st := 1 }) 1).retry = []
    ∧ (getPhy (trains { st := 1 }) 1).queue = [] ∧ portUse (trains { st := 1 }) 1 ≠ 3
    ∧ (getPhy (barred (barPhy 2)) 1).st = 2 ∧ portUse (barred (barPhy 2)) 1 ≠ 3 ∧ decide ((3 : Fin 8).val ≥ 4) ≠ ({ st := 3, half := true, badHigh := true } : Phy).badHigh
    ∧ 1000000000 ≤ ((trains { st := 1 }).devTime - (getPhy (trains { st := 1 }) 1).since).toNat ∧ bit (phyCfg (portEn (barred {}) 1) 1) 63 = true
    ∧ (getPhy (barred (barPhy 2)) 1).ackDue > 0 ∧ 500 ≤ ((barred (barPhy 2)).devTime - (getPhy (barred (barPhy 2)) 1).ackAt).toNat
    ∧ HostReaches (barred (barPhy 2)) 0 (devReg 0x4800) ∧ fabEn (trains {}) = true ∧ fabEn (barred {}) = false ∧ siteOk fabWord = true := by
  refine ⟨?_, ?_, by decide +kernel, by decide +kernel, rfl, rfl, rfl, ?_, rfl, ?_, ?_, ?_, ?_, ?_, ?_,
    reaches (by decide) (by decide) rfl, ?_⟩ <;> decide
/-- A pair in a state and of a mode, whose Mirror link on port 7 is up or not; the torus is up. -/
def pairedDev (st : BitVec 3) (mode stby : Nat) (link : Bool) (gt : List (Nat × Word)) : State :=
  rset (rset { live with phy := [(1, { st := 2, lanes := 8 }), (7, { st := if link then 2 else 0, lanes := 8 })], pair := { live.pair with st := st, mode := BitVec.ofNat 2 mode }, gt := gt, devTime := 50000 }
    (devReg 0x4808) (at_ mode 62 ||| at_ stby 61 ||| at_ 50 0)) (devReg 0x4800) fabWord
def mirGt : List (Nat × Word) := [(5 * 4096, 0xF800000000000003)]
def pairW (mode n : Nat) : Word := at_ mode 62 ||| at_ n 0
theorem witness_PairOperations : HostReaches (pairedDev 0 0 0 true []) 0 (devReg 0x4808)
    ∧ (∀ n ∈ [10, 1000000], bits (pairW 1 n) 63 62 ≠ 3 ∧ 10 ≤ bits (pairW 1 n) 19 0 ∧ bits (pairW 1 n) 19 0 ≤ 1000000)
    ∧ bits (pairW 1 10) 63 62 = 1 ∧ featureVer (pairedDev 0 0 0 true []).fw 5 = 0 ∧ bits (pairW 0 10) 63 62 = 0 ∧ anyMirror (pairedDev 0 0 0 true []) = false
    ∧ (pairedDev 0 0 0 true []).pair.st ≠ 2 ∧ HostReaches (pairedDev 2 1 1 true mirGt) 0 (devReg 0x4810) ∧ (pairedDev 2 1 1 true mirGt).pair.busy = false
    ∧ isStandby (pairedDev 2 1 0 true mirGt) = false ∧ bits (pairCfg (pairedDev 2 1 1 true mirGt)) 63 62 = 1 ∧ isStandby (pairedDev 2 1 1 true mirGt) = true
    ∧ (pairedDev 3 1 1 true mirGt).pair.st = 3 ∧ (pairedDev 3 1 1 true mirGt).pair.mirAtLoss = false := by
  refine ⟨reaches (by decide) (by decide) rfl, ?_, ?_, ?_, ?_, ?_, ?_, reaches (by decide) (by decide) rfl, ?_⟩ <;> decide
theorem witness_PairOperations_mirror : mirrored (pairedDev 2 1 0 true mirGt) = true ∧ (pairedDev 2 1 0 true mirGt).pair.st = 2 ∧ mirrorOn (pairedDev 2 1 0 true mirGt) = true
    ∧ (pairedDev 2 1 0 true mirGt).pair.holding = false ∧ (pairedDev 5 1 0 true mirGt).pair.st = 5 ∧ mirrorOn (pairedDev 5 1 0 true mirGt) = true
    ∧ working (pairedDev 2 1 0 false mirGt) = true ∧ mirrorOn (pairedDev 2 1 0 false mirGt) = false ∧ anyTorus (pairedDev 2 1 0 false mirGt) = true
    ∧ 10000 ≤ ((pairedDev 2 1 0 false mirGt).devTime - (pairedDev 2 1 0 false mirGt).pair.beatAt).toNat
    ∧ bits (pairCfg (pairedDev 2 1 1 true mirGt)) 19 0 * 1000 ≤ ((pairedDev 2 1 1 true mirGt).devTime - (pairedDev 2 1 1 true mirGt).pair.lastHeard).toNat
    ∧ mirrored (pairedDev 2 1 1 true mirGt) = true
    ∧ 10000 ≤ ((pairedDev 2 1 0 true mirGt).devTime - ({ (pairedDev 2 1 0 true mirGt).pair with holding := true }).noticeAt).toNat := by
  refine ⟨by decide, rfl, by decide, rfl, rfl, by decide⟩
theorem witness_BarvarLinks_packets : (linkPkt 1).dst ≠ ownSite (barred (barPhy 2)) ∧ ({ linkPkt 1 with dst := 0 } : LinkPkt).dst = ownSite (barred (barPhy 2))
    ∧ ({ linkPkt 1 with lseq := 6 } : LinkPkt).lseq ≠ (getPhy (barred (barPhy 2)) 1).rxSeq ∧ ({ linkPkt 1 with stomp := true } : LinkPkt).stomp = true
    ∧ linkOn (barred { barPhy 2 with replays := 7, replayAt := 4 }) 1 = true ∧ ({ barPhy 2 with replays := 7, replayAt := 4 } : Phy).replays + 1 = 8 := by decide
/-- A resynchronisation with every block sent, and the partner's last message a moment more than LOSS_US ago. -/
def resynced : State := let s := pairedDev 5 1 0 true []; { s with pair := { s.pair with resyncAt := some 0 } }
def silent : State := let s := pairedDev 2 1 0 true mirGt; { s with devTime := 50001 }
theorem witness_PairOperations_ends : resynced.pair.st = 5 ∧ mirrorOn resynced = true ∧ resynced.pair.holding = false ∧ resyncDone resynced = true
    ∧ bits (pairCfg silent) 19 0 * 1000 < (silent.devTime - silent.pair.lastHeard).toNat ∧ (silent.pair.st = 2 ∨ silent.pair.st = 5)
    ∧ 1000 ≤ (silent.devTime - silent.pair.beatAt).toNat ∧ mirrorOn silent = true ∧ (mirrorOn silent = true ∨ anyTorus silent = true)
    ∧ ({ (pairedDev 3 1 1 true mirGt).pair with mirAtLoss := true } : Pair).mirAtLoss = true ∧ fabEn (trains {}) = true := by decide +kernel

/-! ## Snapshots, keys, sessions -/

/-- Bytes at `base`, from words, as the memory lists them. -/
def bytesAt (base : Nat) (ws : List Nat) : List (Nat × Byte) :=
  (ws.zipIdx.flatMap (fun p => (List.range 8).map (fun j => (base + p.2 * 8 + j, BitVec.ofNat 8 (p.1 / 256 ^ j))))).filter (fun p => p.2 ≠ 0)
/-- Instance 5 has a data granule, a SNAP granule and one for staging; a block of words stands in the first. -/
def snapDev (ws : List Nat) : State := rset (rset { live with fw := { live.fw with features := [(8, 1), (9, 1)] }, mem := bytesAt (3 * 2 ^ 30 + 0x1000) ws, ctxs := [(7, .qp { owner := 5, st := 2, gen := 1, par := 0, home := 0 })], gt := [(5 * 4096, 0xF000000000000003), (5 * 4096 + 1, 0xF400000000000004), (5 * 4096 + 2, 0xF000000000000006)], gran := [(3, .mapped 5 0), (4, .mapped 5 1), (6, .mapped 5 2)] } 0xD00008 0x1000) 0xF80108 0x1000
def snapWords : List Nat := [2, 1 * 2 ^ 24 + 7, 0x1000, 0, 5, 6, 0x10000, 0, 0, 0, 0x10002]
def snapStart : State := rset (snapDev snapWords) 0xD00000 (snpWord 5 1)
def blockOf (x : State × Except (BitVec 8 × BitVec 8) (List Byte)) : List Byte := x.2.toOption.getD []
theorem witness_SnapshotOperations : HostReaches (snapDev snapWords) 0 0xD00000 ∧ statBusy (snapDev snapWords) snpStat = false ∧ samePort 0 5 = true
    ∧ featureVer (snapDev snapWords).fw 8 ≠ 0 ∧ (snapBlock snapStart 5 128).2.isOk = true ∧ snapBlockOk (blockOf (snapBlock snapStart 5 128)) = true
    ∧ stageOk (snapBlock snapStart 5 128).1 5 (snapPar (blockOf (snapBlock snapStart 5 128))) = true ∧ (snapGrans (snapBlock snapStart 5 128).1 5).length = 1
    ∧ (targetCheck (snapBlock snapStart 5 128).1 5 (snapPar (blockOf (snapBlock snapStart 5 128))) (shardLen 1) true).1 = 0
    ∧ snapLive (snapBlock snapStart 5 128).1 5 = false ∧ snapsLive (snapBlock snapStart 5 128).1 < 16
    ∧ (snapKey (snapBlock snapStart 5 128).1 5 (snapPar (blockOf (snapBlock snapStart 5 128)))).1 = 0 ∧ getSnap (snapDev snapWords) 5 = none := by
  refine ⟨reaches (by decide +kernel) (by decide +kernel) rfl, by decide +kernel⟩
def restWords : List Nat := [0x10001, 0x8000, 0x9000, 3, 4]
def restStart : State := rset (snapDev restWords) 0xD00000 (snpWord 5 2)
theorem witness_SnapshotOperations_restore : (snapBlock restStart 5 48).2.isOk = true ∧ restoreBlockOk (blockOf (snapBlock restStart 5 48)) = true
    ∧ viBusy (snapBlock restStart 5 48).1 5 = false ∧ snapLive (snapBlock restStart 5 48).1 5 = false ∧ snapsLive (snapBlock restStart 5 48).1 < 16 := by
  refine ⟨by decide +kernel, by decide +kernel⟩
/-- A snapshot of instance 5 in a state, with pages 0 and 1 staged and page 2 to copy. -/
def staged (p : Nat) : Staged := { page := p, entry := p, crc := 5, poison := [] }
def snapAt (st : BitVec 3) : Snap := { vi := 5, st := st, p := snapPar (blockOf (snapBlock snapStart 5 128)), staged := [staged 0, staged 1], todo := [2], table := [(0, (5, none, 0)), (1, (5, none, 0))], grans := snapGrans snapStart 5 }
def snapping (x : Snap) : State := { setSnap (snapDev snapWords) x with guard := [4 * 16384 + 2] }
def restoring : Snap := { vi := 5, st := 5, p := (snapAt 5).p, catCount := 1 }
theorem witness_SnapshotOperations_run : getSnap (snapping (snapAt 2)) 5 = some (snapAt 2) ∧ working (snapping (snapAt 2)) = true ∧ snapGate (snapping (snapAt 2)) (snapAt 2) = true
    ∧ (snapAt 2).p.enc = false ∧ mayCopy (snapping (snapAt 3)) (snapAt 3) 2 = true ∧ (snapAt 3).st = 3
    ∧ (snapAt 3).staged.filter (fun g => [0].contains g.page) ≠ [] ∧ ((snapAt 3).staged.filter (fun g => [0].contains g.page)).length ≤ 16
    ∧ targetUp (snapping (snapAt 3)) (snapAt 3) = true ∧ ((snapAt 3).staged.filter (fun g => [0].contains g.page)).all (fun g => decide (g.fails < 2)) = true
    ∧ targetUp { snapping (snapAt 3) with ctxs := [] } (snapAt 3) = false ∧ (snapAt 4).st = 4 ∧ targetUp (snapping (snapAt 4)) (snapAt 4) = true
    ∧ (snapAt 4).sealFails < 2 ∧ 2 ≤ ({ snapAt 4 with sealFails := 2 } : Snap).sealFails ∧ getSnap (snapping restoring) 5 = some restoring ∧ restoring.st = 5 ∧ restoring.pages = 0 := by
  refine ⟨?_, ?_, ?_, ?_, ?_, rfl, ?_, ?_, ?_, ?_,
    ?_, rfl, ?_, by decide, by decide, ?_, rfl, rfl⟩ <;> decide +kernel
/-- A block for INSTALL, one for INSTALL_SA, and slot 9 filled, referenced by a snapshot or not. -/
def installing (d : Nat) : State := rset (snapDev ([d, 0, 0, 0, 0, 0, 0, 0, 1, 2, 3, 4])) 0xF80100 (at_ 9 32 ||| at_ 5 8 ||| at_ 1 0)
def keyed (ref : Bool) : State := { snapDev snapWords with keys := [(9, { owner := 5, decOnly := false, key := [] })], snaps := if ref then [(5, { snapAt 4 with p := { (snapAt 4).p with enc := true, keyslot := 9 } })] else [] }
def readOf (s : State) (n : Nat) : List Byte := ((rangeRead s 5 0x1000 n []).map (·.2.1)).getD []
theorem witness_KeySlotsAndMacsec : HostReaches (snapDev [1]) 0 0xF80100 ∧ statBusy (snapDev [1]) keyStat = false ∧ samePort 0 5 = true ∧ tget? (installing 1).keys 9 = none
    ∧ ((rangeRead (installing 1) 5 (rget (snapDev [1]) 0xF80108 &&& 0xFFFFFFFFFFFFFFC0) 128 []).map (fun x => (ofBytes (x.2.1.take 8), x.2.2))) = some (1, false)
    ∧ zeroBytes (readOf (installing 1) 128) 8 64 = true ∧ zeroBytes (readOf (installing 1) 128) 96 128 = true ∧ (blockKey (installing 1) 0 (readOf (installing 1) 128) false).isSome = true
    ∧ (tget? (keyed false).keys 9).isSome = true ∧ keyRef (keyed false) 9 = 0 ∧ keyRef (keyed true) 9 ≠ 0 ∧ tget? (keyed false).keys 8 = none ∧ samePort 0 128 = false := by
  refine ⟨reaches (by decide +kernel) (by decide +kernel) rfl, by decide +kernel⟩
def saDev : State := snapDev [2 + 16 + 4096, 11, 12, 13, 14, 15, 0, 0, 1, 2, 3, 4]
theorem witness_KeySlotsAndMacsec_sa : ofBytes ((readOf saDev 128).take 8) = 4114 ∧ zeroBytes (readOf saDev 128) 28 32 = true ∧ zeroBytes (readOf saDev 128) 44 64 = true
    ∧ zeroBytes (readOf saDev 128) 96 128 = true ∧ msecAllowed saDev 2 = true ∧ (blockKey saDev 0 (readOf saDev 128) false).isSome = true
    ∧ HostReaches saDev 0 (msecReg 2) ∧ bit (msecCfg saDev 2) 63 = false ∧ msecAllowed saDev 1 = false
    ∧ bit (msecCfg (rset saDev (msecReg 2) 0x8000000000000000) 2) 63 = true := by
  refine ⟨?_, ?_, ?_, ?_, ?_, ?_, reaches (by decide +kernel) (by decide +kernel) rfl, ?_⟩ <;> decide +kernel
/-- DOE of port 0 with a connection state and a secured session 0. -/
def spdmDev (c : Nat) (ide : Bool) : State :=
  let w := setConn { live with devTime := 5000000000, sec := { live.sec with sessions := [{ via := .doe 0, id := 0, beat := 5, last := 0, secured := true }] } } (.doe 0) c
  if ide then setIde w 0 1 { getIde w 0 1 with keys := [(11, 0)] } else w
def ideKey : IdeKey := { stream := 1, tx := true, sub := 2, set := 1 }
theorem witness_SpdmSessions : (∀ c ∈ [0, 1, 2, 3], viaUp (spdmDev c false) (.doe 0) = true ∧ connOf (spdmDev c false) (.doe 0) = c)
    ∧ (spdmDev 3 false).sec.sessions.length < 2 ∧ inSession (spdmDev 3 false) (.doe 0) 0 = true ∧ inSession (spdmDev 3 false) (.doe 0) 1 = false
    ∧ (viaPf (.doe 0)).isSome = true ∧ inSession (spdmDev 3 true) (.doe 0) 0 = true ∧ (tget? (getIde (spdmDev 3 true) 0 1).keys (ideDir ideKey * 2 + ideKey.set.val)).isSome = true
    ∧ ((spdmDev 3 false).sec.sessions.find? (fun x => x.via == .doe 0 && x.id == 0 && x.secured)).isSome = true ∧ 5 * 1000000000 ≤ ((spdmDev 3 false).devTime - 0).toNat := by
  refine ⟨by decide, by decide⟩

/-! ## The Stewards -/

/-- The Steward firmware runs, with an active image; the PF's request holds two words. -/
def image (ok : Bool) : Image := { version := 6, svn := 4, key := some 1, sigOk := ok, digest := 100 }
def stwDev : State := { live with fw := { live.fw with up := true, images := [(0, image true)] }, gt := [(0, 0xF000000000000004), (5 * 4096, 0xF000000000000003)], gran := [(3, .mapped 5 0), (4, .mapped 0 0)] }
def mbAsks (s : State) (a b : Word) : State := rset (rset (rset s (fwReg 0 0x108) a) (fwReg 0 0x110) b) 0xFC0008 0
theorem mbIdle {s : State} {tag : BitVec 8} {c : MbCmd} (g : gate s 0 (some 0xFC0000) = .pass) (p : s.pwr.st ≠ 3) (h : s.threads = [])
    (b : statBusy s (mbStat 0) = false) (d : dutyUp s (4 * portOf 0) = true) (k : mbClean (mbOpened s 0 tag c) 0 c = true) : MbIdle s 0 tag c :=
  ⟨rfl, reaches g p h, b, d, k⟩
theorem witness_MailboxCommands : MbIdle (mbAsks stwDev 0 0) 0 1 .getInfo ∧ MbIdle (mbAsks stwDev 1 0) 0 1 .featureSet ∧ MbIdle (mbAsks stwDev (9 ||| at_ 1 16) 0) 0 1 .featureSet
    ∧ featureUsed (mbOpened (mbAsks stwDev 1 0) 0 1 .featureSet) 1 = true ∧ featureVer (mbAsks stwDev 1 0).fw 1 ≠ 0
    ∧ featureUsed (mbOpened (mbAsks stwDev (9 ||| at_ 1 16) 0) 0 1 .featureSet) 9 = false ∧ MbIdle (mbAsks stwDev 8 0) 0 1 .featureGet := by
  refine ⟨mbIdle (by decide +kernel) (by decide) rfl (by decide +kernel) (by decide) (by decide +kernel), mbIdle (by decide +kernel) (by decide) rfl (by decide +kernel) (by decide) (by decide +kernel),
    mbIdle (by decide +kernel) (by decide) rfl (by decide +kernel) (by decide) (by decide +kernel), by decide +kernel, by decide, by decide +kernel,
    mbIdle (by decide +kernel) (by decide) rfl (by decide +kernel) (by decide) (by decide +kernel)⟩
/-- An image is staged; the instances are OFF, which is a boundary, or ACTIVE. -/
def withImage (off : Bool) : State := { mbAsks stwDev 0 0 with fw := { stwDev.fw with staged := true, images := [(0, image true), (1, image true)] }, inst := if off then [] else live.inst }
theorem witness_MailboxCommands_images : MbIdle (mbAsks stwDev 0x1000 4096) 0 1 (.stage (image true)) ∧ MbIdle (mbAsks stwDev 0x1000 4096) 0 1 (.stage (image false))
    ∧ rangeOk (mbOpened (mbAsks stwDev 0x1000 4096) 0 1 (.stage (image true))) 0 0x1000 4096 .rd = true
    ∧ imagePass (mbAsks stwDev 0x1000 4096) (image true) = true ∧ imagePass (mbAsks stwDev 0x1000 4096) (image false) = false
    ∧ (mbAsks stwDev 0 0).fw.staged = false ∧ MbIdle (mbAsks stwDev 0 0) 0 1 .activate ∧ MbIdle (withImage false) 0 1 .activate ∧ MbIdle (withImage true) 0 1 .activate
    ∧ emergency (withImage true) = false ∧ boundary (mbOpened (withImage false) 0 1 .activate) = false ∧ boundary (mbOpened (withImage true) 0 1 .activate) = true
    ∧ MbIdle (withImage true) 0 1 .activateCancel ∧ MbIdle (withImage true) 0 1 .svnCommit := by
  refine ⟨mbIdle (by decide +kernel) (by decide) rfl (by decide +kernel) (by decide) (by decide +kernel), mbIdle (by decide +kernel) (by decide) rfl (by decide +kernel) (by decide) (by decide +kernel),
    by decide +kernel, by decide +kernel, by decide +kernel, by decide, mbIdle (by decide +kernel) (by decide) rfl (by decide +kernel) (by decide) (by decide +kernel),
    mbIdle (by decide +kernel) (by decide) rfl (by decide +kernel) (by decide) (by decide +kernel), mbIdle (by decide +kernel) (by decide) rfl (by decide +kernel) (by decide) (by decide +kernel),
    by decide +kernel, by decide +kernel, by decide +kernel, mbIdle (by decide +kernel) (by decide) rfl (by decide +kernel) (by decide) (by decide +kernel),
    mbIdle (by decide +kernel) (by decide) rfl (by decide +kernel) (by decide) (by decide +kernel)⟩
theorem witness_MailboxCommands_settings : (∀ k ∈ [0, 3], MbIdle (mbAsks stwDev k 0) 0 1 .keyRevoke) ∧ stwDev.sec.keyUsed.toNat = 0 ∧ MbIdle (mbAsks stwDev 4 0) 0 1 .logCfg
    ∧ MbIdle (mbAsks stwDev 0x7F 0) 0 1 .traceCfg ∧ MbIdle (mbAsks stwDev 11 0) 0 1 .slowCfg ∧ MbIdle (mbAsks stwDev 11 0x55) 0 1 .ptpCfg
    ∧ MbIdle (mbAsks stwDev 7 0) 0 1 .restart ∧ (tget (mbAsks stwDev 7 0).fw.cores 7 {}).st = 0 := by
  refine ⟨?_, by decide, mbIdle (by decide +kernel) (by decide) rfl (by decide +kernel) (by decide) (by decide +kernel),
    mbIdle (by decide +kernel) (by decide) rfl (by decide +kernel) (by decide) (by decide +kernel), mbIdle (by decide +kernel) (by decide) rfl (by decide +kernel) (by decide) (by decide +kernel),
    mbIdle (by decide +kernel) (by decide) rfl (by decide +kernel) (by decide) (by decide +kernel), mbIdle (by decide +kernel) (by decide) rfl (by decide +kernel) (by decide) (by decide +kernel), by decide⟩
  intro k h; simp at h; obtain rfl | rfl := h <;> exact mbIdle (by decide +kernel) (by decide) rfl (by decide +kernel) (by decide) (by decide +kernel)
/-- Target 0 is bound through port 5, and a command of its is with the drive or not. -/
def bindIn : BindIn := { ready := true, bsz := 12, qpairs := 3, tmo := 0, wz := true, ns := [] }
def bound (busy : Bool) : State := { rset (mbAsks stwDev 0 0) (stgTgtReg 0) (at_ 1 62 ||| at_ 5 56) with descs := if busy then [{ id := 4, vi := 5, q := 2, kind := 3, seq := 9, st := .drive, desc := stgDesc 1 }] else [] }
theorem witness_MailboxCommands_targets : MbIdle (mbAsks stwDev (1 ||| at_ 5 8) 0) 0 1 (.stgBind bindIn)
    ∧ (bits (mbReq (mbOpened (mbAsks stwDev (1 ||| at_ 5 8) 0) 0 1 (.stgBind bindIn)) 0 1) 1 0 = 2 → slowUp (mbAsks stwDev (1 ||| at_ 5 8) 0) (bits (mbReq (mbOpened (mbAsks stwDev (1 ||| at_ 5 8) 0) 0 1 (.stgBind bindIn)) 0 1) 11 8 / 3) = true)
    ∧ ((List.range 64).find? (fun t => bits (rget (mbOpened (mbAsks stwDev (1 ||| at_ 5 8) 0) 0 1 (.stgBind bindIn)) (stgTgtReg t)) 63 62 == 0)) = some 0
    ∧ MbIdle (bound true) 0 1 .stgUnbind ∧ MbIdle (bound false) 0 1 .stgUnbind ∧ bits (rget (mbOpened (bound true) 0 1 .stgUnbind) (stgTgtReg 0)) 63 62 ≠ 0
    ∧ ((bound true).descs.any (fun d => d.kind == 3 && d.st == .drive && dTarget d == 0)) = true ∧ (bound false).descs = [] := by
  refine ⟨mbIdle (by decide +kernel) (by decide) rfl (by decide +kernel) (by decide) (by decide +kernel), by decide +kernel, by decide +kernel,
    mbIdle (by decide +kernel) (by decide +kernel) rfl (by decide +kernel) (by decide +kernel) (by decide +kernel),
    mbIdle (by decide +kernel) (by decide +kernel) rfl (by decide +kernel) (by decide +kernel) (by decide +kernel), by decide +kernel⟩
/-- A core that restarts, an activation that waits 10 s or is under way with an image that verifies or not. -/
def acting (act : Nat) (off ok : Bool) : State := { withImage off with devTime := 10000000005, fw := { stwDev.fw with staged := true, images := [(0, image true), (1, image ok)], act := act, clear := some 5, cores := [(3, { st := 1, cause := 1 })], ptp := [(3, (at_ 1 16, 0))] } }
theorem witness_StewardEvents : stwRuns (acting 1 true true) 7 = true ∧ (tget (acting 1 true true).fw.cores 3 {}).st = 1 ∧ (tget (acting 1 true true).fw.cores 3 {}).by_ = none
    ∧ (acting 1 true true).fw.clear = some 5 ∧ (acting 1 true true).fw.act = 1 ∧ emergency (acting 1 true true) = false ∧ 10000000000 ≤ ((acting 1 true true).devTime - 5).toNat
    ∧ boundary (acting 1 true true) = true ∧ boundary (acting 1 false true) = false ∧ (acting 2 true true).fw.actBy = none ∧ (acting 2 true true).fw.actWas = false
    ∧ tget? (acting 2 true true).fw.images (stageSlot (acting 2 true true)) = some (image true) ∧ imagePass (acting 2 true true) (image true) = true
    ∧ tget? (acting 2 true false).fw.images (stageSlot (acting 2 true false)) = some (image false) ∧ imagePass (acting 2 true false) (image false) = false
    ∧ dutyUp (acting 1 true true) 5 = true ∧ bit (tget (acting 1 true true).fw.ptp 3 (0, 0)).1 16 = true
    ∧ HostReaches stwDev 0 0xFC0300 ∧ HostReaches stwDev 0 0xFC0310 ∧ bit (logRing stwDev 0) 11 = false ∧ viaUp stwDev .smbus = true
    ∧ (mbAsks stwDev 0 0).fw.staged = false ∧ (withImage true).fw.staged = true ∧ boundary (withImage true) = true := by
  refine ⟨?_, ?_, ?_, ?_, ?_, ?_, ?_, by decide +kernel, ?_, ?_, ?_, ?_, ?_, ?_, ?_,
    ?_, ?_, reaches (by decide +kernel) (by decide +kernel) rfl, reaches (by decide +kernel) (by decide +kernel) rfl, ?_⟩ <;> decide +kernel

/-! ## Metering and power -/

/-- The island runs with a cartridge that keeps two records, and a tally frame is on its link. -/
def cartridge (t : Bool) : Cartridge := { (State.reset.mtr.cart.getD {}) with boots := 3, seq := 9, tampered := t, records := [(8, [1, 2]), (7, [3])] }
def tallyFrame : TallyFrame := { fseq := 5, time := 4000, blocks := [] }
def metered (run : Bool) (e : Option (BitVec 32)) (c : Option Cartridge) : State :=
  rset { live with devTime := 10000000, mtr := { live.mtr with running := run, cart := c, expect := e, link := [tallyFrame] } } 0xE00108 7
theorem witness_MeteringOperations : 2 ≤ (metered true none (some (cartridge false))).boot.phase.toNat ∧ (metered true none (some (cartridge false))).devTime.toNat % 10000000 = 0
    ∧ (metered true (some 2) (some (cartridge false))).mtr.running = true ∧ (metered true (some 2) (some (cartridge false))).mtr.cart.isSome = true
    ∧ (metered true (some 2) (some (cartridge false))).mtr.link = tallyFrame :: [] ∧ (metered true (some 2) (some (cartridge false))).mtr.expect = some 2 ∧ tallyFrame.fseq ≠ 0
    ∧ (metered true none (some (cartridge false))).mtr.expect = none ∧ (cartridge true).tampered = true ∧ (cartridge false).tampered = false
    ∧ HostReaches (metered true none (some (cartridge false))) 0 0xE00100 ∧ (∀ i ∈ [1, 2, 3], mtrArg (metered true none (some (cartridge false))) i = 0)
    ∧ (cartridge false).records.find? (fun r => r.1 == mtrArg (metered true none (some (cartridge false))) 0) = some (7, [3])
    ∧ (metered false none (some (cartridge false))).mtr.running = false ∧ (metered false none none).mtr.cart = none := by
  refine ⟨by decide, by decide, rfl, rfl, rfl, rfl, by decide, rfl, rfl, rfl, reaches (by decide) (by decide) rfl, by decide, rfl, rfl, rfl⟩
/-- The module in a power state, every wake source and automatic dimming on. -/
def powered (st former : BitVec 3) : State := rset (rset (rset { live with devTime := 10000000, pwr := { live.pwr with st := st, former := former } } 0xF08018 (at_ 1 63 ||| at_ 600 0)) 0xF08020 (at_ 15 60)) 0xF08028 10000000
theorem witness_PowerOperations : HostReaches (powered 0 0) 0 0xF08008 ∧ statBusy (powered 0 0) pwrStat = false ∧ (darkCheck (rset (rset (powered 0 0) (devReg 0x4800) 0x8000000000000000) 0xF08008 3)).1 ≠ 0
    ∧ (darkCheck (rset (powered 0 0) 0xF08008 3)).1 = 0 ∧ (powered 2 0).pwr.st = 2 ∧ gate (powered 2 0) 0 (some 0xF08008) = .held ∧ (powered 3 0).pwr.st = 3
    ∧ bit (rget (powered 0 0) 0xF08018) 63 = true ∧ (powered 0 0).boot.phase = 8 ∧ (powered 0 0).drst.phase = 0 ∧ (powered 0 0).err.fatal = false ∧ workless (powered 0 0) = true
    ∧ bit (rget (powered 2 0) 0xF08020) 63 = true ∧ (powered 2 0).devTime = rget (powered 2 0) 0xF08028 ∧ bit (rget (powered 2 0) 0xF08020) 62 = true
    ∧ (powered 3 1).pwr.former ≠ 2 ∧ (powered 4 0).heldHost = [] ∧ (powered 4 0).fw.mbWait = [] ∧ Settled (powered 4 0)
    ∧ HostReaches (powered 0 0) 0 (0xF08100 + 8 * 127) ∧ (getIsl (powered 0 0) 127).stopped = false ∧ (powered 0 0).pwr.st ≠ 2 ∧ (powered 0 0).pwr.st ≠ 4 := by
  refine ⟨reaches (by decide) (by decide) rfl, ?_, ?_, ?_, rfl, ?_, rfl, ?_, ?_, ?_, ?_, ?_, ?_, ?_,
    ?_, ?_, rfl, rfl, settled_nil rfl, reaches (by decide) (by decide) rfl, ?_⟩ <;> decide
theorem witness_PowerOperations_idle : let s := { powered 0 0 with devTime := 1000000000000 }
    s.pwr.st = 0 ∧ workless s = true ∧ idleNs s ≤ (s.devTime - s.pwr.busyAt).toNat ∧ s.boot.phase = 8 ∧ s.drst.phase = 0 ∧ s.err.fatal = false
    ∧ bit (rget s 0xF08018) 63 = true := by decide
/-- Channel 69 is selected, and channel 40 is twice beyond its trip point. -/
def sampled (n : Nat) : State := rset { powered 0 0 with pwr := { (powered 0 0).pwr with chans := [(40, { (getChan live 40) with beyond := n })] } } 0xF00008 69
theorem witness_PowerOperations_channels : HostReaches (sampled 2) 0 0xF00018 ∧ bits (rget (sampled 2) 0xF00008) 6 0 = 69
    ∧ ((BitVec.ofNat 16 (chanDefault 69).1).toNat ≤ (chanDefault 69).1 ∧ (BitVec.ofNat 16 (chanDefault 69).2.1).toNat ≤ (chanDefault 69).2.1)
    ∧ chanTrip 40 ≠ 0 ∧ (BitVec.ofNat 16 (chanTrip 40 + 1)).toNat > chanTrip 40 ∧ 2 ≤ (getChan (sampled 2) 40).beyond ∧ (BitVec.ofNat 16 (chanTrip 40)).toNat ≤ chanTrip 40
    ∧ chanTrip 70 = 0 ∧ (sampled 2).devTime.toNat % 1000000 = 0 ∧ (sampled 2).pwr.msAt ≠ some (sampled 2).devTime ∧ 4 ≤ (sampled 2).pwr.g
    ∧ 32000 < (32001 : BitVec 16).toNat := by
  refine ⟨reaches (by decide) (by decide) rfl, by decide, ⟨by decide, by decide⟩, by decide⟩
def unpowered (risen en : Bool) : State := { live with boot := { live.boot with phase := 0, risen := risen, pwrEn := en, locked := false } }
theorem witness_PowerOperations_input : (unpowered true false).boot.phase = 0 ∧ (unpowered true false).boot.risen = true ∧ (unpowered true false).boot.locked = false
    ∧ (unpowered false true).boot.pwrEn = true ∧ (unpowered true false).boot.pwrEn = false := ⟨rfl, rfl, rfl, rfl, rfl⟩

/-! ## Errors and the device reset -/

/-- An error of a severity is pending; the ring is full to a point; all time has passed. -/
def errOf (sev : BitVec 2) : Err := { cause := 0x0E, sev := sev, slot := true, arg0 := 4 }
def errDev (sev : BitVec 2) : State := rset { live with devTime := 5000000000, err := { live.err with pending := [errOf sev], seq := 9, retired := 3, unfreed := 5, fctOff := [3, 66, 67] } } 0xC10040 0x300000
def noRetire : State := rset (errDev 0) 0xC00018 0
theorem witness_ErrorsAndDeviceReset : (∀ e ∈ [0, 1, 2, 3], (errDev e).boot.phase ≠ 0 ∧ (errDev e).drst.phase = 0 ∧ (errDev e).err.owed = [] ∧ (errDev e).err.cur = []
      ∧ nextErr (errDev e).err.pending = some (errOf e)) ∧ Settled (errDev 2) ∧ (errOf 2).storm = false ∧ (errOf 2).vi = none ∧ bits (rget (errDev 2) 0xC10040) 21 20 > 2
    ∧ (errDev 2).err.hist.length < 16776960 ∧ (errDev 3).err.fatals = 0 ∧ (errDev 2).devTime.toNat / 1000000000 ≠ (errDev 2).err.second
    ∧ HostReaches (errDev 0) 0 0xC00010 ∧ autoRetire (errDev 0) = true ∧ autoRetire noRetire = false
    ∧ ((9 : BitVec 48) - noRetire.err.retired).toNat ≤ (noRetire.err.seq - noRetire.err.retired).toNat
    ∧ ((10 : BitVec 48) - noRetire.err.retired).toNat > (noRetire.err.seq - noRetire.err.retired).toNat
    ∧ HostReaches (errDev 0) 0 0xC00018 ∧ HostReaches (errDev 0) 0 (0xC00100 + 8 * 15) := by
  refine ⟨?_, settled_nil rfl, rfl, rfl, ?_, ?_, ?_, ?_, reaches (by decide) (by decide) rfl, ?_, ?_, ?_, ?_,
    reaches (by decide) (by decide) rfl, reaches (by decide) (by decide) rfl⟩ <;> decide
theorem witness_ErrorsAndDeviceReset_resets : { live with devTime := BitVec.allOnes 64 }.devTime = BitVec.allOnes 64 ∧ errUsed live < 256
    ∧ HostReaches live 0 (devReg 0x100) ∧ HostReaches live 128 (devReg 0x100) ∧ live.drst.phase = 0 ∧ { live with drst := { live.drst with phase := 3 } }.drst.phase ≠ 0
    ∧ live.boot.perst.toList.getD (portOf 0) true = false ∧ live.boot.phase = 8 :=
  ⟨rfl, by decide, reaches (by decide) (by decide) rfl, reaches (by decide) (by decide) rfl, rfl, by decide, by decide, rfl⟩

/-! ## Debug, counters, the trace, start-up -/

def savedTh (h : Bool) : Saved := { vi := 5, handler := false, launch := 9, index := 4, loc := .dev 0x2000, facet := 9, trapped := false, resumed := false, halted := h, pf := none }
def debugged : State := { live with saved := [savedTh true] }
theorem dbgIdle (via : DbgVia) : DbgIdle debugged via := by
  refine ⟨settled_nil rfl, by decide, ?_⟩
  match via with
  | .jtag => exact ⟨by decide, by decide⟩
  | .pf 0 => exact ⟨by decide, by decide⟩
  | .pf 1 => exact ⟨by decide, by decide⟩
/-- A READY thread that debug finds, and a core that debug holds. -/
def seen : State := busy { th1 with launch := 9 }
theorem witness_DebugAndJtag : (∀ via, DbgIdle debugged via) ∧ physOk 0x1000 = true ∧ physOk 0x1001 = false ∧ stwAddr 0xC10108 = true ∧ (0xDFFFF8 : Word).toNat < 0xE00000
    ∧ stwAddr 0xDFFFF8 = true ∧ stwAddr 0x1001000 = false
    ∧ DbgIdle seen .jtag ∧ seen.threads.find? (fun p => !p.2.handler && p.2.launch == 9 && p.2.index == th1.index && p.2.st != .ending) = some (Tid.key t0, { th1 with launch := 9 })
    ∧ (haltedAt debugged 5 0x2000).isSome = true ∧ haltedAt debugged 5 0x1000 = none
    ∧ (tget live.fw.cores 7 {}).halted = false ∧ (tget (setHalt debugged 7 true).fw.cores 7 {}).halted = true
    ∧ tapOn live = true ∧ dbgReach live = true ∧ live.jtag.opened = false ∧ Settled live := by
  refine ⟨dbgIdle, ?_, ?_, ?_, ?_, ?_, ?_, ⟨settled_one (th := { th1 with launch := 9 }) rfl rfl, by decide⟩, rfl,
    ?_, rfl, ?_, ?_, ?_, ?_, ?_, settled_nil rfl⟩ <;> decide
/-- Counter sampler 2 with a ring at an address of instance 5, and its settings. -/
def smpSet : SmpW := { vi := 5, period := 9, size := 5 }
def sampling (a : Word) : State := rset { live with devTime := 9000000 } (cSmpReg 2 0x10) a
def smpGoes (n : Nat) : State := rset { sampling 0x2000000000000 with smp := [(2, { run := true, n := BitVec.ofNat 48 n })] } (cSmpReg 2 8) (cSmpWord smpSet)
theorem witness_CountersAndTrace : HostReaches (rset live 0xC20000 0) 0 0xC20008 ∧ samePort 0 (cntVi (rset live 0xC20000 0)) = true
    ∧ HostReaches (sampling 0x2000000000000) 0 (cSmpReg 2 8) ∧ samePort 0 smpSet.vi = true ∧ (getSmp (sampling 0x2000000000000) 2).run = false
    ∧ cSmpOk (rset (sampling 0x2000000000000) (cSmpReg 2 8) (cSmpWord smpSet)) 2 = true ∧ cSmpOk (rset (sampling 0x2000040000000) (cSmpReg 2 8) (cSmpWord smpSet)) 2 = false
    ∧ (getSmp (smpGoes 0) 2).run = true ∧ (smpGoes 0).devTime.toNat % cSmpPeriod (smpGoes 0) 2 = 0 ∧ (getSmp (smpGoes 0) 2).last ≠ some (smpGoes 0).devTime
    ∧ cSmpRoom (smpGoes 0) 2 = true ∧ cSmpRoom (smpGoes 400) 2 = false := by
  refine ⟨reaches (by decide) (by decide) rfl, by decide, reaches (by decide) (by decide) rfl, by decide +kernel⟩
def trcSet (en : Bool) : TrcW := { en := en, reserve := 4, ovfMib := 6144, postKib := 0xABCDE }
def tracing (st : BitVec 2) (trig : Word) : State := rset (rset (rset { live with trc := { live.trc with st := st } } 0xC10048 0) 0xC10040 trig) 0xC10000 (trcWord (trcSet true))
theorem witness_CountersAndTrace_trace : HostReaches live 0 0xC10000 ∧ trcEn live = false ∧ (trcSet true).reserve.toNat ≤ 4 ∧ (trcSet true).ovfMib.toNat ≤ 6144
    ∧ bits (rget (rset live 0xC10048 0) 0xC10048) 15 0 = 0 ∧ trcEn (tracing 1 0x300001) = true ∧ HostReaches (tracing 1 0x300001) 0 0xC10040
    ∧ rget (tracing 1 0x300001) 0xC10040 &&& 0xFF37001F = rget (tracing 1 0x300001) 0xC10040 ∧ bit (rget (tracing 1 0x300001) 0xC10040) 0 = true
    ∧ bit (rget (tracing 1 0x300000) 0xC10040) 0 = false ∧ (2 : Nat) ≤ (tracing 2 0x300001).trc.st.toNat ∧ HostReaches (tracing 1 0x300001) 0 0xC10058
    ∧ trcFits (rset (tracing 1 0x300001) 0xC10058 77) [pktHeader 0x06 1 false 0 0x30 (tracing 1 0x300001).devTime, 77] = true
    ∧ HostReaches (tracing 1 0x300001) 0 0xC10020 ∧ (tracing 1 0x300001).trc.held = [] := by
  refine ⟨reaches (by decide) (by decide) rfl, ?_, ?_, ?_, ?_, ?_, reaches (by decide) (by decide) rfl, ?_, ?_, ?_, ?_,
    reaches (by decide) (by decide) rfl, by decide +kernel, reaches (by decide) (by decide) rfl, ?_⟩ <;> decide
/-- A phase of start-up, with the images of the slots, the coolant's flow and its temperature. -/
def starting (p : BitVec 4) (images : List (Nat × Image)) (flow temp t : Nat) : State :=
  { live with boot := { live.boot with phase := p }, devTime := BitVec.ofNat 64 t, fw := { live.fw with images := images, pref := 1 }, pwr := { live.pwr with chans := [(70, { (getChan live 70) with window := List.replicate 300 flow }), (68, { (getChan live 68) with window := List.replicate 300 temp })] } }
theorem witness_StartUpPhases : (starting 1 [] 0 0 0).boot.phase = 1 ∧ 100 ≤ chanValue (getChan (starting 2 [] 100 449 0) 70) 70 ∧ (getChan (starting 2 [] 100 449 0) 68).window ≠ []
    ∧ chanValue (getChan (starting 2 [] 100 449 0) 68) 68 < 450 ∧ chanValue (getChan (starting 2 [] 99 449 0) 70) 70 < 100 ∧ 450 ≤ chanValue (getChan (starting 2 [] 100 450 0) 68) 68
    ∧ 60000000000 ≤ (starting 2 [] 100 449 60000000000).devTime.toNat ∧ (starting 2 [] 100 449 59999999999).devTime.toNat < 60000000000
    ∧ tget? (starting 4 [(0, image true), (1, image false)] 0 0 0).fw.images 0 = some (image true) ∧ (image true).sigOk = true ∧ (image true).key = some 1
    ∧ bit live.sec.revoked 1 = false ∧ live.sec.fused.toNat ≤ (image true).svn.toNat ∧ (image false).sigOk = false := by
  refine ⟨rfl, ?_, ?_, ?_, ?_, ?_, ?_, ?_, rfl, rfl, rfl, ?_, ?_, rfl⟩ <;> decide
theorem witness_RegisterWrites : (0xD00008 : BitVec 28).toNat < barSize 0 ∧ HostReaches live 0 0xD00008 ∧ HostReaches live 0 0xE00108 ∧ HostReaches live 0 0xE00128 ∧ HostReaches live 0 0xF00008
    ∧ HostReaches live 5 8 ∧ fnExists live 5 = true ∧ endpointUp live 5 = true ∧ barsOn { live with cfg := [] } 5 = false
    ∧ endpointUp State.reset 0 = false ∧ barsOn live 0 = true ∧ (starting 9 [] 0 0 0).boot.phase = 9 ∧ failedBlock 0xD00008 = false
    ∧ { live with err := { live.err with fatal := true } }.err.fatal = true ∧ fatalBlock 0xD00008 = false ∧ barsOn (powered 2 0) 0 = true ∧ (powered 2 0).err.fatal = false
    ∧ (∃ n, swUp live n = true) := by
  refine ⟨?_, reaches (by decide) (by decide) rfl, reaches (by decide) (by decide) rfl, reaches (by decide) (by decide) rfl, reaches (by decide) (by decide) rfl,
    reaches (by decide) (by decide) rfl, ?_, ?_, ?_, ?_, ?_, rfl, ?_, rfl, ?_, ?_, ?_, ⟨0, by decide⟩⟩ <;> decide
theorem witness_StepRunsTheFrontCommand : State.reset.pending = [] := rfl
/-- A state with a byte of memory and one of a Facet's store written keeps the canonical form, and its step answers. -/
def written : State := { live with mem := [(0, 1), (4096, 2)], fstore := [(9, [(5, 7)])] }
theorem witness_EveryStepKeepsCanonicalMemory : step written = .next (tick written) ∧ written.mem.wf = true ∧ ∀ p ∈ written.fstore, Memory.wf p.2 = true :=
  ⟨rfl, by decide⟩
theorem witness_EveryStepAnswersAndFusesHold : { live with sec := { live.sec with revoked := 2 } }.sec.revoked.getLsbD 1 = true := by decide

/-! ## Results worked out by hand from the spec's tables -/

/-- Format T has MAJOR at 58, D at 46, A at 40, B at 34 (R114), and format I has IMM at 0: `mul g1, g2, g3` and `add g1, g2, −1`. -/
theorem test_encoding : encT 0x02 0x00 1 2 3 = 0x0800420C00000000 ∧ encAlu 0x00 1 2 (.imm 0xFFFFFFFF) = 0x04004200FFFFFFFF := by decide
/-- IEEE 754: 1 + 1 = 2 in FP32; the largest FP16 doubled is infinite to nearest and the largest toward zero, with OF and NX (R157). -/
theorem test_float_add : fadd fp32 0 0x3F800000 0x3F800000 = (0x40000000, 0) ∧ fadd fp16 0 0x7BFF 0x7BFF = (0x7C00, fOF ||| fNX)
    ∧ fadd fp16 1 0x7BFF 0x7BFF = (0x7BFF, fOF ||| fNX) := by decide
/-- 1 + 2^−11 is halfway in FP16: even, up toward +∞, up away from zero (the modes of `TCTL.RM`). -/
theorem test_float_ties : fadd fp16 0 0x3C00 0x1000 = (0x3C00, fNX) ∧ fadd fp16 2 0x3C00 0x1000 = (0x3C01, fNX) ∧ fadd fp16 3 0x3C00 0x1000 = (0x3C00, fNX)
    ∧ fadd fp16 4 0x3C00 0x1000 = (0x3C01, fNX) := by decide
/-- R153's greatest finite values: 448 is 0x7E in E4M3, 28 is 0x1F in E3M2, 7.5 is 0x1F in E2M3, 6 is 0x7 in E2M1. -/
theorem test_maximums : e4m3.maxFin = 0x7E ∧ e3m2.maxFin = 0x1F ∧ e2m3.maxFin = 0x1F ∧ e2m1.maxFin = 0x7 := by decide
/-- R151: overflow and infinity to E4M3; a float beyond the integers, NaN, and 2.5 to an integer. -/
theorem test_conversions : fconv fp32 e4m3 0 (fdec fp32 0x44000000) = (0x7E, fOF ||| fNX) ∧ fconv fp32 e4m3 0 (fdec fp32 0xFF800000) = (0xFE, fNV ||| fNX)
    ∧ ftoi 0 8 true (fdec fp32 0x43960000) = (0x7F, fNV) ∧ ftoi 0 8 false (fdec fp32 0xBF800000) = (0, fNV) ∧ ftoi 0 8 true (fdec fp32 0x7FC00000) = (0, fNV)
    ∧ ftoi 0 32 true (fdec fp32 0x40200000) = (2, fNX) := by decide
/-- R151: arithmetic and logical shifts past the width, and the smallest word negated. -/
theorem test_shifts : shl64 1 64 = 0 ∧ sra64 0x8000000000000000 200 = 0xFFFFFFFFFFFFFFFF ∧ shr64 0x8000000000000000 63 = 1 ∧ 0 - minWord = minWord := by decide
/-- The check value of CRC-32C, over the nine bytes "123456789". -/
theorem test_crc32c : crc32c [0x31, 0x32, 0x33, 0x34, 0x35, 0x36, 0x37, 0x38, 0x39] = 0xE3069283 := by decide +kernel
/-- Bytes are little-endian. -/
theorem test_bytes : toBytes 8 0x0102 = [2, 1, 0, 0, 0, 0, 0, 0] ∧ ofBytes [2, 1, 0] = 0x0102 := by decide

end Sys2Proof.Tests
end

/-! A host write to a register with no row of its own: what the gates of the endpoint make of it (R297, R549, R576, R615), and what the
registers that hold only what is written take (R10-R13). -/

namespace Sys2Proof.Machine

/-! ## Recorded errors do not touch threads -/

@[simp] theorem rollSecond_threads (s : State) : (rollSecond s).threads = s.threads := by
  unfold rollSecond
  dsimp only
  split <;> rfl

@[simp] theorem enqueueErr_threads (s : State) (e : Err) : (enqueueErr s e).threads = s.threads := by
  unfold enqueueErr
  split
  · rfl
  · split <;> rfl

@[simp] theorem raiseErr_threads (s : State) (e : Err) : (raiseErr s e).threads = s.threads := by
  unfold raiseErr
  dsimp only
  split
  · simp
  · split <;> simp

@[simp] theorem accessErr_threads (s : State) (fn : Fn) (addr : Nat) : (accessErr s fn addr).threads = s.threads :=
  raiseErr_threads ..

/-! ## The gates, in the order in which they are asked -/

theorem gate_eq_absent {s : State} {fn : Fn} (h : fnExists s fn = false ∨ endpointUp s fn = false) (off : Option Nat) :
    gate s fn off = .absent := by
  rcases h with h | h <;> simp [gate, h]

section
variable {s : State} {fn : Fn} (he : fnExists s fn = true) (hu : endpointUp s fn = true)
include he hu

theorem gate_eq_ur (hb : barsOn s fn = false) (off : Option Nat) : gate s fn off = .ur := by
  simp [gate, he, hu, hb]

variable (hb : barsOn s fn = true)
include hb

theorem gate_eq_ignored_of_failed {off : Nat} (hp : s.boot.phase = 9) (hf : failedBlock off = false) :
    gate s fn (some off) = .ignored := by
  simp [gate, he, hu, hb, hp, hf]

theorem gate_eq_ignored_of_fatal {off : Nat} (hp : s.boot.phase ≠ 9) (hf : s.err.fatal = true) (ho : fatalBlock off = false) :
    gate s fn (some off) = .ignored := by
  unfold gate
  rw [if_neg (by simp [he, hu]), if_neg (by simp [hb]), if_neg hp, if_pos hf]
  simp [ho]

theorem gate_eq_held_of_dark (hp : s.boot.phase ≠ 9) (hf : s.err.fatal = false) (hd : s.pwr.st = 2) (off : Option Nat) :
    gate s fn off = .held := by
  unfold gate
  rw [if_neg (by simp [he, hu]), if_neg (by simp [hb]), if_neg hp, if_neg (by simp [hf]), if_pos (.inl hd)]

end

/-! ## A write by its gate -/

section
variable {s : State} {fn : Fn} {off : Nat} {v : Word} {body : State → State}

theorem hostWr_absent (h : gate s fn (some off) = .absent) : hostWr fn off v body s = .next s := by simp [hostWr, h]

theorem hostWr_ur (h : gate s fn (some off) = .ur) : hostWr fn off v body s = .next (aerReq s fn 20) := by simp [hostWr, h]

theorem hostWr_ignored (h : gate s fn (some off) = .ignored) : hostWr fn off v body s = .next s := by simp [hostWr, h]

/-- A wake starts in Dark where its source is enabled (R550). -/
theorem startWake_dark {w : State} (h : w.pwr.st = 2) (cause : BitVec 8) (b : Nat) :
    startWake w cause b = { w with pwr := if bit (rget w 0xF08020) b then { w.pwr with st := 4, wake := cause } else w.pwr } := by
  unfold startWake
  by_cases c : bit (rget w 0xF08020) b = true
  · simp [h, c]
  · simp [c]

theorem hostWr_held (h : gate s fn (some off) = .held) :
    hostWr fn off v body s = .next (startWake { s with heldHost := s.heldHost ++ [.reg fn off v] } 1 63) := by simp [hostWr, h]

/-- The debug commands and `GO_BRIGHT`, which `hostWhole` tells apart, meet an absent endpoint as any write does. -/
theorem hostWhole_absent (h : ∀ o, gate s fn o = .absent) : hostWhole fn off v s = .next s := by
  unfold hostWhole
  split
  · simp [dbgPf, h]
  · split
    · next c => simp [pwrCommand, hostPf, c.2.1, h, hostWr_absent]
    · exact hostWr_absent (h _)

/-- So do they with the BARs off (R297). -/
theorem hostWhole_ur (h : ∀ o, gate s fn o = .ur) : hostWhole fn off v s = .next (aerReq s fn 20) := by
  unfold hostWhole
  split
  · simp [dbgPf, h]
  · split
    · next c => simp [pwrCommand, hostPf, c.2.1, h, hostWr_ur]
    · exact hostWr_ur (h _)

theorem hostBad_absent (h : ∀ o, gate s fn o = .absent) : hostBad fn off s = .next s := by simp [hostBad, h]

/-- A write of a register other than the two whose command has a wake of its own goes through the gates to its handler. -/
theorem hostWhole_eq_hostWr (hd : off ≠ 0xC10100) (hg : off ≠ 0xF08008) :
    hostWhole fn off v s = hostWr fn off v (regWrite fn off v) s := by
  simp [hostWhole, hd, hg]

/-- An access of a width or alignment that R8 refuses is recorded, once the gates let it through. -/
theorem hostBad_records (h : HostReaches s fn (off / 8 * 8)) : hostBad fn off s = .next (accessErr s fn off) := by
  unfold hostBad
  rw [h.gate]
  simp only [stopEntry_awake h.awake, settle_same h.settled (accessErr_threads ..)]

/-! ## Which path a write of BAR0 takes (R8) -/

theorem hostBar0_aligned64 (hs : off < barSize fn) (h8 : off % 8 = 0) : hostBar0 fn off .w64 v s = hostWhole fn off v s := by
  simp [hostBar0, Nat.not_le.mpr hs, h8]

theorem hostBar0_bad {k : AccW} (hs : off < barSize fn)
    (hk : (off % 8 ≠ 0 ∧ k = .w64) ∨ (off % 4 ≠ 0 ∧ k = .w32) ∨ k = .w16 ∨ k = .w8) :
    hostBar0 fn off k v s = hostBad fn off s := by
  have hs' : ¬ barSize fn ≤ off := Nat.not_le.mpr hs
  rcases hk with ⟨h, rfl⟩ | ⟨h, rfl⟩ | rfl | rfl
  · simp [hostBar0, hs', h]
  · simp [hostBar0, hs', h]
  · simp [hostBar0, hs']
  · simp [hostBar0, hs']

theorem hostBar0_absent (h : ∀ o, gate s fn o = .absent) : hostBar0 fn off .w64 v s = .next s := by
  simp [hostBar0, hostWhole_absent h, hostBad_absent h]

end

/-! ## Registers that only hold what is written (R10-R13) -/

@[simp] theorem rget_nextFree (s : State) (k : Nat) : rget (nextFree s) k = rget s k := rfl

/-- A PF's write to the blocks above 0xC0_0000, the debug command apart, is `pfWr`'s. -/
theorem regWrite_pf {fn : Fn} {off : Nat} (v : Word) (s : State) (hp : isPf fn = true) (hlo : 0xC00000 ≤ off) (hd : off ≠ 0xC10100) :
    regWrite fn off v s = nextFree (pfWr fn off v (bit (freeBits s 1 6012) 0) s) := by
  have h1 : ¬ off < 0x10000 := by omega
  have h2 : ¬ off < 0x100000 := by omega
  have h3 : ¬ off < 0x200000 := by omega
  have h4 : ¬ off < 0x300000 := by omega
  have h5 : ¬ off < 0x800000 := by omega
  have h6 : ¬ off < 0xC00000 := by omega
  simp only [regWrite, regWriteBase, hd, h1, h2, h3, h4, h5, h6, hp, false_and, and_false, if_false, if_true]

theorem pfWr_snpArg (fn : Fn) (v : Word) (b : Bool) (s : State) :
    pfWr fn 0xD00008 v b s = rset s 0xD00008 (v &&& 0xFFFFFFFFFFFFFFC0) := by simp [pfWr]

theorem pfWr_mtrReqArg (fn : Fn) {off : Nat} (v : Word) (b : Bool) (s : State) (hlo : 0xE00108 ≤ off) (hhi : off < 0xE00128) :
    pfWr fn off v b s = rset s off v := by
  have h1 : ¬ off < 0x400000 := by omega
  have h2 : ¬ off < 0xC10000 := by omega
  have h3 : ¬ off < 0xC20000 := by omega
  have h4 : ¬ off < 0xD00000 := by omega
  have h5 : ¬ off < 0xE00000 := by omega
  have h6 : off < 0xF00000 := by omega
  have h7 : off ≠ 0xE00100 := by omega
  simp only [pfWr, h1, h2, h3, h4, h5, h6, h7, hlo, hhi, if_false, if_true, and_self]

theorem pfWr_mtrReqStat (fn : Fn) (v : Word) (b : Bool) (s : State) : pfWr fn 0xE00128 v b s = clearOvr s 0xE00128 v := by
  simp [pfWr, mtrStat]

theorem pfWr_lpeSel (fn : Fn) (v : Word) (b : Bool) (s : State) :
    pfWr fn 0xF00008 v b s = if bits v 6 0 ≤ 73 then rset s 0xF00008 (v &&& 0x7F) else s := by simp [pfWr]

theorem regWrite_snpArg {fn : Fn} (v : Word) (s : State) (hp : isPf fn = true) :
    rget (regWrite fn 0xD00008 v s) 0xD00008 = v &&& 0xFFFFFFFFFFFFFFC0 := by
  rw [regWrite_pf v s hp (by decide) (by decide), pfWr_snpArg, rget_nextFree, rget_rset_self]

theorem regWrite_mtrReqArg {fn : Fn} {off : Nat} (v : Word) (s : State) (hp : isPf fn = true) (hlo : 0xE00108 ≤ off)
    (hhi : off < 0xE00128) : rget (regWrite fn off v s) off = v := by
  rw [regWrite_pf v s hp (by omega) (by omega), pfWr_mtrReqArg fn v _ s hlo hhi, rget_nextFree, rget_rset_self]

theorem regWrite_mtrReqStat {fn : Fn} (v : Word) (s : State) (hp : isPf fn = true) :
    rget (regWrite fn 0xE00128 v s) 0xE00128 = rget (clearOvr s 0xE00128 v) 0xE00128 := by
  rw [regWrite_pf v s hp (by decide) (by decide), pfWr_mtrReqStat, rget_nextFree]

theorem regWrite_lpeSel {fn : Fn} (v : Word) (s : State) (hp : isPf fn = true) :
    rget (regWrite fn 0xF00008 v s) 0xF00008 = if bits v 6 0 ≤ 73 then v &&& 0x7F else rget s 0xF00008 := by
  rw [regWrite_pf v s hp (by decide) (by decide), pfWr_lpeSel, rget_nextFree]
  split
  · exact rget_rset_self ..
  · rfl

theorem bit_setBits_zero (w : Word) {i : Nat} (hi : i < 64) : bit (setBits w i i 0) i = false := by
  have h : (setBits w i i 0).getLsbD i = false := by simp [getLsbD_setBits _ _ _ _ _ hi]
  exact h

/-- OVR goes where a 1 is written to it, and else stands (R13). -/
theorem bit_clearOvr (s : State) (k : Nat) (v : Word) : bit (rget (clearOvr s k v) k) 1 = (bit (rget s k) 1 && !bit v 1) := by
  unfold clearOvr
  split
  · next h => simp [h, bit_setBits_zero]
  · next h => simp [h]

/-- Writing a status register changes none of its other fields (R13). -/
theorem bits_clearOvr (s : State) (k : Nat) (v : Word) {hi lo : Nat} (hl : 1 < lo) (hh : hi < 64) :
    bits (rget (clearOvr s k v) k) hi lo = bits (rget s k) hi lo := by
  unfold clearOvr
  split
  · rw [rget_rset_self, bits_setBits_ne _ _ _ _ _ _ (.inl hl) hh]
  · rfl

/-- The Device Description Table is read-only, and no register stands beside `RMA_CFG` up to the sync block (R12, R298). -/
theorem regWrite_ignored {fn : Fn} {off : Nat} (v : Word) (s : State)
    (h : off < 0x10000 ∨ (0x300008 ≤ off ∧ off < 0x400000)) : regWrite fn off v s = nextFree s := by
  have hd : off ≠ 0xC10100 := by omega
  rcases h with h | ⟨hlo, hhi⟩
  · simp only [regWrite, regWriteBase, hd, h, false_and, if_false, if_true]
  · have h1 : ¬ off < 0x10000 := by omega
    have h2 : ¬ off < 0x100000 := by omega
    have h3 : ¬ off < 0x200000 := by omega
    have h4 : ¬ off < 0x300000 := by omega
    have h5 : ¬ 0x400000 ≤ off := by omega
    have h6 : ¬ 0x800000 ≤ off := by omega
    have h7 : off ≠ 0x300000 := by omega
    simp only [regWrite, regWriteBase, pfWr, hd, h1, h2, h3, h4, h5, h6, h7, hhi, false_and, if_false, if_true, ite_self]

/-! ## Configuration space (R9, R294, R295) -/

/-- An aligned dword of configuration space is written whole. -/
theorem cfgSpan_w32 {off : Nat} (x : BitVec 32) (h4 : off % 4 = 0) (hs : off < 4096) :
    cfgSpan off .w32 (x.setWidth 64) = some (off, BitVec.allOnes 32, x) := by
  have hx : x.toNat % 2 ^ 64 % 2 ^ 32 = x.toNat := by have := x.isLt; omega
  have ha : ¬ off ≥ 4096 := by omega
  have hm : BitVec.ofNat 32 (2 ^ 32 - 1) = BitVec.allOnes 32 := rfl
  have hd : off / 4 * 4 = off := by omega
  simp only [cfgSpan, accWidth, h4, ha, hd, reduceCtorEq, ne_eq, not_true_eq_false, or_self, if_false, BitVec.toNat_setWidth,
    Nat.mul_zero, Nat.shiftLeft_zero, Nat.reduceMul, hx, hm, BitVec.ofNat_toNat, BitVec.setWidth_eq]

theorem hostCfgWr_w32 {s : State} {fn : Fn} {off : Nat} (bus : BitVec 8) (x : BitVec 32) (he : fnExists s fn = true)
    (hu : endpointUp s fn = true) (h4 : off % 4 = 0) (hs : off < 4096) :
    hostCfgWr fn bus off .w32 (x.setWidth 64) s = .next (settle (cfgWr fn off (BitVec.allOnes 32) x (captureBus fn bus s))) := by
  simp [hostCfgWr, cfgSpan_w32 x h4 hs, hostCfg, he, hu]

theorem hostSwWr_w32 {s : State} {n : Fin 10} {off : Nat} (x : BitVec 32) (hu : swUp s n = true) (h4 : off % 4 = 0) (hs : off < 4096) :
    hostSwWr n off .w32 (x.setWidth 64) s = .next (settle (swWr n off (BitVec.allOnes 32) x s)) := by
  simp [hostSwWr, cfgSpan_w32 x h4 hs, hu]

end Sys2Proof.Machine

/-! How the device describes itself: the Device Description Table (R301, R302) and the Revision ID (R2). -/

namespace Sys2Proof.Machine

/-! ## The entries of the table -/

@[simp] theorem ddtEntry_length (ty id : Nat) (a b c : Word) : (ddtEntry ty id a b c).length = 4 := rfl

/-- The last entry of the table. -/
theorem ddtEntry_end : ddtEntry 0 0 0 0 0 = List.replicate 4 0 := by decide

/-- Every entry takes 32 bytes. -/
theorem length_of_mem_ddtAll {s : State} {e : List Word} (h : e ∈ ddtAll s) : e.length = 4 := by
  simp only [ddtAll, List.mem_append] at h
  rcases h with (((h | h) | h) | h) | h
  · obtain ⟨i, _, rfl⟩ := List.mem_mapIdx.1 h
    rfl
  · obtain ⟨i, _, rfl⟩ := List.mem_mapIdx.1 h
    rfl
  · obtain ⟨i, _, rfl⟩ := List.mem_map.1 h
    rfl
  · simp only [ddtFirmware, List.mem_cons, List.not_mem_nil, or_false] at h
    rcases h with rfl | rfl <;> rfl
  · obtain ⟨i, _, rfl⟩ := List.mem_mapIdx.1 h
    rfl

theorem ddtAll_length (s : State) : (ddtAll s).length = 42 := by
  simp [ddtAll, ddtCounts, ddtBlocks, ddtBlockList, ddtFeatures, ddtFirmware, ddtLimits]

/-- A table is the entries of `ddtAll` that concern the function, then END. -/
theorem ddtEntries_eq (s : State) (fn : Fn) :
    ∃ es, ddtEntries s fn = es ++ [List.replicate 4 0] ∧ es.length ≤ 42 ∧ ∀ e ∈ es, e.length = 4 := by
  refine ⟨_, congrArg (_ ++ [·]) ddtEntry_end, ?_, ?_⟩
  · split
    · exact (ddtAll_length s).le
    · calc _ ≤ ((ddtAll s).zipIdx).length := by rw [List.length_map]; exact List.length_filter_le ..
        _ = 42 := by rw [List.length_zipIdx, ddtAll_length]
  · intro e he
    split at he
    · exact length_of_mem_ddtAll he
    · obtain ⟨p, hp, rfl⟩ := List.mem_map.1 he
      exact length_of_mem_ddtAll (List.fst_mem_of_mem_zipIdx (List.mem_filter.1 hp).1)

theorem length_flatten_of_forall {es : List (List Word)} (h : ∀ e ∈ es, e.length = 4) : es.flatten.length = 4 * es.length := by
  induction es with
  | nil => rfl
  | cons e es ih =>
    rw [List.flatten_cons, List.length_append, h e List.mem_cons_self, ih (fun x hx => h x (List.mem_cons_of_mem _ hx)),
      List.length_cons]
    omega

/-! ## The sum of the 32-bit words -/

/-- The two 32-bit words of a word, added. -/
def halves (w : Word) : BitVec 32 := w.setWidth 32 + (w >>> 32).setWidth 32

theorem sum32_cons (w : Word) (l : List Word) : sum32 (w :: l) = halves w + sum32 l := by
  have acc : ∀ (l : List Word) (a : BitVec 32),
      l.foldl (fun (a : BitVec 32) (w : Word) => a + w.setWidth 32 + (w >>> 32).setWidth 32) a = a + sum32 l := by
    intro l
    induction l with
    | nil => intro a; simp [sum32]
    | cons x l ih =>
      intro a
      have hx : sum32 (x :: l) = 0 + x.setWidth 32 + (x >>> 32).setWidth 32 + sum32 l := ih _
      rw [List.foldl_cons, ih, hx]
      ring
  rw [sum32, List.foldl_cons, acc]
  simp [halves]

/-- A CHECKSUM put into an empty lower half adds to the sum as it stands. -/
theorem halves_or_low {w : Word} (c : BitVec 32) (h : w.setWidth 32 = 0) : halves (w ||| c.setWidth 64) = halves w + c := by
  have hc : (c.setWidth 64 >>> 32).setWidth 32 = (0 : BitVec 32) := by
    apply BitVec.eq_of_toNat_eq
    have := c.isLt
    simp [Nat.shiftRight_eq_div_pow]
    omega
  have lo : (w ||| c.setWidth 64).setWidth 32 = c := by
    simp [BitVec.setWidth_or, h]
  have hi : ((w ||| c.setWidth 64) >>> 32).setWidth 32 = (w >>> 32).setWidth 32 := by
    simp [BitVec.ushiftRight_or_distrib, BitVec.setWidth_or, hc]
  rw [halves, halves, lo, hi, h]
  ring

/-! ## Header and table -/

/-- The header's third word without its CHECKSUM: VI and SUBSET of a VF's table (R301). -/
def ddtOwner (fn : Fn) : Word := if isPf fn then 0 else at_ fn.toNat 32 ||| at_ 1 40

theorem setWidth_at_high (v : Nat) {lo : Nat} (h : 32 ≤ lo) : (at_ v lo).setWidth 32 = (0 : BitVec 32) := by
  apply BitVec.eq_of_getLsbD_eq
  intro i hi
  have : ¬ lo ≤ i := by omega
  simp [at_, BitVec.getLsbD_ofNat, this]

theorem ddtOwner_low (fn : Fn) : (ddtOwner fn).setWidth 32 = 0 := by
  unfold ddtOwner
  split
  · rfl
  · simp [BitVec.setWidth_or, setWidth_at_high]

/-- LENGTH and ENTRIES of a table of `n` entries (R301). -/
def ddtSize (n : Nat) : Word := at_ (0x40 + 32 * n) 0 ||| at_ n 32

theorem bits_ddtSize {n : Nat} (h : n ≤ 43) : bits (ddtSize n) 31 0 = 0x40 + 32 * n := by
  apply Nat.eq_of_testBit_eq
  intro i
  rw [testBit_bits]
  by_cases c : i < 32
  · have h64 : i < 64 := by omega
    have : ¬ 32 ≤ i := by omega
    simp only [ddtSize, at_, BitVec.getLsbD_or, BitVec.getLsbD_ofNat, Nat.testBit_shiftLeft]
    simp [c, this, h64]
  · have : (0x40 + 32 * n) < 2 ^ i := calc
      0x40 + 32 * n < 2 ^ 32 := by omega
      _ ≤ 2 ^ i := Nat.pow_le_pow_right (by decide) (by omega)
    simp [c, Nat.testBit_lt_two_pow this]

/-- The words from SERIAL to the END entry of a table with the entries `es`. -/
def ddtBody (es : List (List Word)) : List Word := [Config.serial, 0, 0, 0, 0] ++ es.flatten

/-- A table: signature, size, CHECKSUM that makes the words sum to zero, its entries, and END. -/
theorem ddtTable_eq (s : State) (fn : Fn) : ∃ (c : BitVec 32) (es : List (List Word)), es.length ≤ 42 ∧ (∀ e ∈ es, e.length = 4)
    ∧ ddtTable s fn = 0x00B0000154444C48 :: ddtSize (es.length + 1) :: (ddtOwner fn ||| c.setWidth 64) :: (ddtBody es ++ List.replicate 4 0)
    ∧ sum32 (ddtTable s fn) = 0 := by
  obtain ⟨es, he, hn, h4⟩ := ddtEntries_eq s fn
  have plain : ddtPlain s fn
      = 0x00B0000154444C48 :: ddtSize (es.length + 1) :: ddtOwner fn :: (ddtBody es ++ List.replicate 4 0) := by
    simp [ddtPlain, he, ddtSize, ddtOwner, ddtBody]
  have table : ddtTable s fn = 0x00B0000154444C48 :: ddtSize (es.length + 1)
      :: (ddtOwner fn ||| (0 - sum32 (ddtPlain s fn)).setWidth 64) :: (ddtBody es ++ List.replicate 4 0) := by
    simp only [ddtTable]
    rw [plain]
    rfl
  refine ⟨_, es, hn, h4, table, ?_⟩
  generalize hc : 0 - sum32 (ddtPlain s fn) = c at table
  rw [plain] at hc
  simp only [sum32_cons] at hc
  rw [table]
  simp only [sum32_cons, halves_or_low c (ddtOwner_low fn)]
  rw [← hc]
  ring

theorem map_ddtRd (s : State) (fn : Fn) : (List.range (ddtTable s fn).length).map (fun i => ddtRd s fn (8 * i)) = ddtTable s fn := by
  apply List.ext_getElem
  · simp
  · intro i _ hi
    simp [ddtRd, hi]

/-- LENGTH counts the table's bytes, so its last 32 are END and its words are all those that sum to zero (R301). -/
theorem ddt_wellFormed (s : State) (fn : Fn) (n : Nat) (hn : bits (ddtRd s fn 8) 31 0 = n) :
    0x60 ≤ n ∧ n ≤ 65536 ∧ n % 32 = 0 ∧ (∀ i < 4, ddtRd s fn (n - 32 + 8 * i) = 0)
      ∧ sum32 ((List.range (n / 8)).map (fun i => ddtRd s fn (8 * i))) = 0 := by
  obtain ⟨c, es, hes, h4, table, sum⟩ := ddtTable_eq s fn
  have size : ddtRd s fn 8 = ddtSize (es.length + 1) := by simp [ddtRd, table]
  have hn' : n = 0x60 + 32 * es.length := by
    rw [← hn, size, bits_ddtSize (by omega)]
    omega
  have len : n / 8 = (ddtTable s fn).length := by
    simp only [table, ddtBody, List.length_cons, List.length_append, length_flatten_of_forall h4, List.length_replicate, List.length_nil]
    omega
  refine ⟨by omega, by omega, by omega, fun i hi => ?_, ?_⟩
  · have at_end : (n - 32 + 8 * i) / 8 = 4 * es.length + 5 + i + 3 := by omega
    have body : (ddtBody es).length = 4 * es.length + 5 := by simp [ddtBody, length_flatten_of_forall h4]
    rw [ddtRd, at_end, table]
    simp only [List.getD_cons_succ]
    rw [List.getD_append_right _ _ _ _ (by omega), body, Nat.add_sub_cancel_left]
    exact List.getD_replicate _ hi
  · rw [len, map_ddtRd, sum]

theorem ddtRd_signature (s : State) (fn : Fn) : ddtRd s fn 0 = 0x00B0000154444C48 := by
  obtain ⟨_, _, _, _, table, _⟩ := ddtTable_eq s fn
  simp [ddtRd, table]

/-- Every function's Revision ID is the stepping's (R2). -/
theorem cfgRead_revision (s : State) (fn : Fn) : cfgRead s fn 8 = 0x120000B0 := by
  unfold cfgRead
  split <;> rfl

end Sys2Proof.Machine

/-! The statement about register writes, from the lemmas above. -/

namespace Sys2Proof.Machine

/-- An aligned 64-bit write of a register without a wake of its own goes through the gates to `regWrite`. -/
theorem exec_registerWrite_plain {s : State} {fn : Fn} {off : BitVec 28} (v : Word) (hs : off.toNat < barSize fn)
    (h8 : off.toNat % 8 = 0) (hp : off.toNat ≠ 0xC10100 ∧ off.toNat ≠ 0xF08008) :
    exec (.registerWrite fn .bar0 off .w64 v) s = hostWr fn off.toNat v (regWrite fn off.toNat v) s := by
  rw [exec_registerWrite, execRegisterWrite, hostBar0_aligned64 hs h8, hostWhole_eq_hostWr hp.1 hp.2]

/-- Settles O60: each outcome is that of the gate the write meets, a register that only holds what is written takes it, and the table's
CHECKSUM makes its words sum to zero. -/
theorem registerWrites : Obligations.RegisterWrites := by
  unfold Obligations.RegisterWrites
  intro s fn off v hs w plain
  have gated (h8 : off.toNat % 8 = 0) (hp : plain) : w = hostWr fn off.toNat v (regWrite fn off.toNat v) s :=
    exec_registerWrite_plain v hs h8 hp
  refine ⟨fun hr h8 hp => ?passes, fun hr k hk => ?bad, fun he hu hb h8 => ?barsOff, fun ha => ?absent,
    fun he hu hb h8 => ⟨fun ph hf hp => ?failed, fun ph ft hf hp => ?fatal, fun ph ft dark hp => ?dark⟩,
    fun bus x he hu h4 hc => hostCfgWr_w32 bus x he hu h4 hc, fun n x hu h4 hc => hostSwWr_w32 x hu h4 hc, ?description⟩
  case passes =>
    refine ⟨_, (gated h8 hp).trans (hostWr_settles hr), rfl, fun pf e => ?snpArg, regWrite_mtrReqArg v s, fun pf e => ?mtrReqStat,
      fun pf e => ?lpeSel, regWrite_ignored v s⟩
    case snpArg => rw [e, regWrite_snpArg v s pf]
    case mtrReqStat =>
      rw [e, regWrite_mtrReqStat v s pf]
      exact ⟨bit_clearOvr .., bits_clearOvr _ _ _ (by decide) (by decide)⟩
    case lpeSel => rw [e, regWrite_lpeSel v s pf]
  case bad => rw [exec_registerWrite, execRegisterWrite, hostBar0_bad hs hk, hostBad_records hr]
  case barsOff => exact (hostBar0_aligned64 hs h8).trans (hostWhole_ur (gate_eq_ur he hu hb))
  case absent => exact hostBar0_absent (gate_eq_absent ha)
  case failed => exact (gated h8 hp).trans (hostWr_ignored (gate_eq_ignored_of_failed he hu hb ph hf))
  case fatal => exact (gated h8 hp).trans (hostWr_ignored (gate_eq_ignored_of_fatal he hu hb ph ft hf))
  case dark =>
    rw [gated h8 hp, hostWr_held (gate_eq_held_of_dark he hu hb ph ft dark _)]
    exact congrArg Host.Outcome.next (startWake_dark (w := { s with heldHost := s.heldHost ++ [.reg fn off.toNat v] }) dark 1 63)
  case description =>
    rw [cfgRead_revision, ddtRd_signature]
    exact ⟨by decide, by decide, by decide, ddt_wellFormed s fn _ rfl⟩

end Sys2Proof.Machine

/-! No operation of a thread changes the clock islands: what settling the waiting threads leaves of a change of frequency (R33). -/

namespace Sys2Proof.Machine

/-! ## Composition -/

/-- What every step of a fold keeps, the fold keeps. -/
theorem foldl_proj {σ α β : Type} (proj : σ → β) {f : σ → α → σ} (h : ∀ s x, proj (f s x) = proj s) (l : List α) (s : σ) :
    proj (l.foldl f s) = proj s := by
  induction l generalizing s with
  | nil => rfl
  | cons x l ih => exact (ih _).trans (h s x)

theorem foldl_isl {α : Type} {f : State → α → State} (h : ∀ s x, (f s x).pwr.isl = s.pwr.isl) (l : List α) (s : State) :
    (l.foldl f s).pwr.isl = s.pwr.isl := foldl_proj (fun s => s.pwr.isl) h l s

/-- The same for a fold that carries more beside the state. -/
theorem foldl_fst_isl {α β : Type} {f : State × β → α → State × β} (h : ∀ p x, (f p x).1.pwr.isl = p.1.pwr.isl) (l : List α)
    (p : State × β) : (l.foldl f p).1.pwr.isl = p.1.pwr.isl := foldl_proj (fun p => p.1.pwr.isl) h l p

theorem ite_isl {c : Prop} [Decidable c] {r a b : State} (h : a.pwr.isl = r.pwr.isl) (k : b.pwr.isl = r.pwr.isl) :
    (if c then a else b).pwr.isl = r.pwr.isl := by
  split
  · exact h
  · exact k

/-- The islands of a state that was taken out of a pair. -/
theorem isl_of_fst {α : Type} {t : State} {a : α} {p : State × α} (e : p = (t, a)) : t.pwr.isl = p.1.pwr.isl := by rw [e]

/-! ## Errors -/

@[simp] theorem rollSecond_pwr (s : State) : (rollSecond s).pwr = s.pwr := by
  unfold rollSecond
  dsimp only
  split <;> rfl

@[simp] theorem enqueueErr_pwr (s : State) (e : Err) : (enqueueErr s e).pwr = s.pwr := by
  unfold enqueueErr
  split
  · rfl
  · split <;> rfl

@[simp] theorem raiseErr_pwr (s : State) (e : Err) : (raiseErr s e).pwr = s.pwr := by
  unfold raiseErr
  dsimp only
  split
  · simp
  · split <;> simp

/-! ## Device memory -/

@[simp] theorem poisonBlock_isl (s : State) (b : Nat) : (poisonBlock s b).pwr.isl = s.pwr.isl := by
  unfold poisonBlock
  split <;> rfl

@[simp] theorem foundUe_isl (s : State) (b : Nat) (c : Option Vi) : (foundUe s b c).pwr.isl = s.pwr.isl := by
  cases c <;> simp [foundUe]

@[simp] theorem touchBlocks_isl (s : State) (pa n : Nat) (c : Option Vi) : (touchBlocks s pa n c).pwr.isl = s.pwr.isl := by
  refine foldl_isl (fun s b => ?_) ..
  split
  · exact foundUe_isl ..
  · rfl

@[simp] theorem devRead_isl (s : State) (pa n : Nat) (c : Option Vi) : (devRead s pa n c).1.pwr.isl = s.pwr.isl := by
  unfold devRead
  cases c with
  | none => exact touchBlocks_isl ..
  | some v =>
    dsimp only
    split <;> simp

@[simp] theorem writeBlock_isl (s : State) (vi : Option Vi) (pa : Nat) (d : List Byte) :
    (writeBlock s vi pa d).pwr.isl = s.pwr.isl := by
  unfold writeBlock
  extract_lets +onlyGivenNames b
  split
  · rfl
  · extract_lets +onlyGivenNames u st
    have touched : u.pwr.isl = s.pwr.isl := by
      unfold u
      split <;> simp
    split
    · rw [raiseErr_pwr, touched]
    · exact touched

@[simp] theorem writeBlocks_isl (vi : Option Vi) (n : Nat) (s : State) (pa : Nat) (d : List Byte) :
    (writeBlocks s vi pa d n).pwr.isl = s.pwr.isl := by
  induction n generalizing s pa d with
  | zero => rfl
  | succ n ih =>
    unfold writeBlocks
    split
    · rfl
    · rw [ih, writeBlock_isl]

@[simp] theorem devWrite_isl (s : State) (vi : Option Vi) (pa : Nat) (d : List Byte) : (devWrite s vi pa d).pwr.isl = s.pwr.isl :=
  writeBlocks_isl ..

@[simp] theorem mirrorCut_isl (mark : Bool) (w : Writer) (k : Nat) (s : State) (src dst n : Nat) (d : List Byte) :
    (mirrorCut s src dst n mark d w k).pwr.isl = s.pwr.isl := by
  induction k generalizing s src dst n d with
  | zero => rfl
  | succ k ih =>
    unfold mirrorCut
    split
    · rfl
    · rw [ih]; rfl

@[simp] theorem mirrorOut_isl (s : State) (mirror : Option Nat) (pa : Nat) (d : List Byte) (mark : Nat) (w : Writer) :
    (mirrorOut s mirror pa d mark w).pwr.isl = s.pwr.isl := by
  cases mirror with
  | none => rfl
  | some g =>
    unfold mirrorOut
    dsimp only
    split
    · exact mirrorCut_isl ..
    · split <;> rfl

@[simp] theorem markPoison_isl (s : State) (mirror : Option Nat) (pa n : Nat) (w : Writer) :
    (markPoison s mirror pa n w).pwr.isl = s.pwr.isl := by
  unfold markPoison
  rw [mirrorOut_isl, foldl_isl poisonBlock_isl]

@[simp] theorem performW_isl (s : State) (vi : Option Vi) (mirror : Option Nat) (w : Writer) (a : WAct) :
    (performW s vi mirror w a).1.pwr.isl = s.pwr.isl := by
  cases a with
  | bytes pa d => simp [performW]
  | mark pa n => simp [performW]
  | amo pa op wd x y =>
    unfold performW
    dsimp only
    split <;> simp

@[simp] theorem partAct_isl (s : State) (vi : Vi) (mirror : Option Nat) (w : Writer) (a : WAct) :
    (partAct s vi mirror w a).1.pwr.isl = s.pwr.isl := by
  unfold partAct
  split
  · rfl
  · exact performW_isl ..

@[simp] theorem engWrite_isl (s : State) (vi : Vi) (pa : Nat) (mirror : Option Nat) (d : List Byte) (w : Writer) :
    (engWrite s vi pa mirror d w).pwr.isl = s.pwr.isl :=
  foldl_isl (fun s p => partAct_isl s vi mirror w p) ..

@[simp] theorem hostPut_isl (s : State) (fn : Fn) (bus : Nat) (d : List Byte) : (hostPut s fn bus d).pwr.isl = s.pwr.isl := by
  unfold hostPut
  split <;> rfl

theorem instWrite_isl {s u : State} {vi : Vi} {a : Word} {d : List Byte} (h : instWrite s vi a d = some u) :
    u.pwr.isl = s.pwr.isl := by
  unfold instWrite at h
  split at h
  · cases h; exact engWrite_isl ..
  · cases h; exact hostPut_isl ..
  · cases h
  · cases h

theorem instRead_isl {s : State} {vi : Vi} {a : Word} {n : Nat} {ext : List Byte} {r : State × List Byte × Bool}
    (h : instRead s vi a n ext = some r) : r.1.pwr.isl = s.pwr.isl := by
  unfold instRead at h
  split at h
  · cases h; exact devRead_isl ..
  · cases h; rfl
  · cases h
  · cases h

@[simp] theorem spillWrite_isl (s : State) (vi : Vi) (loc : RecLoc) (d : List Byte) : (spillWrite s vi loc d).pwr.isl = s.pwr.isl := by
  cases loc with
  | host b => exact hostPut_isl ..
  | dev a =>
    simp only [spillWrite]
    cases h : instWrite s vi a d with
    | none => rfl
    | some u => exact instWrite_isl h

@[simp] theorem spillRead_isl (s : State) (vi : Vi) (loc : RecLoc) (n : Nat) : (spillRead s vi loc n).1.pwr.isl = s.pwr.isl := by
  cases loc with
  | host b => rfl
  | dev a =>
    simp only [spillRead]
    cases h : instRead s vi a n [] with
    | none => rfl
    | some r => exact instRead_isl h

@[simp] theorem spillTake_isl (s : State) (vi : Vi) (loc : RecLoc) : (spillTake s vi loc).pwr.isl = s.pwr.isl := rfl

@[simp] theorem spillFree_isl (s : State) (vi : Vi) (loc : RecLoc) : (spillFree s vi loc).pwr.isl = s.pwr.isl := rfl

/-! ## The trace, counters and events -/

@[simp] theorem trcFlush_isl (n : Nat) (s : State) : (trcFlush s n).pwr.isl = s.pwr.isl := by
  induction n generalizing s with
  | zero => rfl
  | succ n ih =>
    have flushed (u : State) (r : List (List Word)) (q : Word) (h : u.pwr.isl = s.pwr.isl) :
        (trcFlush { u with trc := { u.trc with held := r, hostProd := q } } n).pwr.isl = s.pwr.isl := (ih _).trans h
    rw [trcFlush]
    split
    · rfl
    · refine ite_isl rfl (flushed _ _ _ ?_)
      rw [hostPut_isl]
      exact ite_isl rfl (hostPut_isl ..)

@[simp] theorem trcEnter_isl (s : State) (p : List Word) : (trcEnter s p).pwr.isl = s.pwr.isl := trcFlush_isl ..

@[simp] theorem trcDrop_isl (s : State) : (trcDrop s).pwr.isl = s.pwr.isl := by
  unfold trcDrop
  dsimp only
  split <;> rfl

@[simp] theorem trcLoss_isl (s : State) : (trcLoss s).pwr.isl = s.pwr.isl := by
  unfold trcLoss
  split
  · rfl
  · exact trcEnter_isl ..

@[simp] theorem trcOffer_isl (s : State) (p : List Word) : (trcOffer s p).pwr.isl = s.pwr.isl := by
  unfold trcOffer
  split
  · rfl
  · split <;> simp

@[simp] theorem trcTrigger_isl (s : State) (src : Nat) : (trcTrigger s src).pwr.isl = s.pwr.isl := by
  unfold trcTrigger
  split
  · simp
  · rfl

@[simp] theorem facetEvent_isl (s : State) (kind : Nat) (vi : Vi) (status : BitVec 8) (launch : Nat) (index : BitVec 32)
    (f : BitVec 10) : (facetEvent s kind vi status launch index f).pwr.isl = s.pwr.isl := by
  unfold facetEvent
  dsimp only
  split
  · rw [trcTrigger_isl]
    split <;> simp
  · split <;> simp

@[simp] theorem countEv_isl (s : State) (f : BitVec 10) (vi : Vi) (idx n : Nat) : (countEv s f vi idx n).pwr.isl = s.pwr.isl := by
  unfold countEv
  split
  · refine foldl_isl (fun s j => ?_) ..
    split <;> rfl
  · rfl

@[simp] theorem loseEvent_isl (s : State) (vi : Vi) (e : Event) : (loseEvent s vi e).pwr.isl = s.pwr.isl := rfl

@[simp] theorem writeEvent_isl (s : State) (vi : Vi) (e : Event) : (writeEvent s vi e).pwr.isl = s.pwr.isl := by
  unfold writeEvent
  dsimp only
  split
  next u h => exact (instWrite_isl h : u.pwr.isl = s.pwr.isl)
  next => simp

@[simp] theorem postEvent_isl (s : State) (vi : Vi) (e : Event) : (postEvent s vi e).pwr.isl = s.pwr.isl := by
  unfold postEvent
  extract_lets +onlyGivenNames i
  split
  · rfl
  · extract_lets +onlyGivenNames u
    have counted : u.pwr.isl = s.pwr.isl := ite_isl rfl rfl
    split
    · exact ite_isl counted counted
    · exact ite_isl ((loseEvent_isl ..).trans counted) ((writeEvent_isl ..).trans counted)

/-! ## Sync objects -/

@[simp] theorem opDone_isl (s : State) (t : Tid) (op : Nat) (res : BitVec 1024) (fault : Option (Bool × Word)) :
    (opDone s t op res fault).pwr.isl = s.pwr.isl := by
  unfold opDone
  split <;> rfl

@[simp] theorem answer_isl (s : State) (w : Waiter) (value : BitVec 48) (phase : Bool) (status : BitVec 8) :
    (answer s w value phase status).pwr.isl = s.pwr.isl := by
  unfold answer
  split
  · rfl
  · dsimp only
    split
    · rfl
    · rw [opDone_isl]
      split <;> simp

@[simp] theorem setSyn_isl (s : State) (n : Nat) (o : SynObj) : (setSyn s n o).pwr.isl = s.pwr.isl := rfl

@[simp] theorem serveQueue_isl (n k : Nat) (s : State) : (serveQueue s n k).pwr.isl = s.pwr.isl := by
  fun_induction serveQueue s n k with
  | case3 | case5 =>
    rename_i ih
    rw [ih, answer_isl, setSyn_isl]
  | _ => rfl

@[simp] theorem withdrawAt_isl (s : State) (n : Nat) (t : Tid) (op : Nat) : (withdrawAt s n t op).pwr.isl = s.pwr.isl := by
  unfold withdrawAt
  dsimp only
  split
  · split <;> simp
  · rfl

@[simp] theorem withdrawOp_isl (s : State) (t : Tid) (op : Nat) : (withdrawOp s t op).pwr.isl = s.pwr.isl :=
  foldl_isl (fun s (p : Nat × SynObj) => withdrawAt_isl s p.1 t op) ..

@[simp] theorem withdrawSync_isl (s : State) (t : Tid) (op : Nat) : (withdrawSync s t op).pwr.isl = s.pwr.isl := by
  unfold withdrawSync
  split <;> simp

@[simp] theorem withdrawSyncs_isl (s : State) (t : Tid) : (withdrawSyncs s t).pwr.isl = s.pwr.isl := by
  unfold withdrawSyncs
  split
  · rfl
  · exact foldl_isl (fun s (o : Op) => withdrawSync_isl s t o.id) ..

theorem allocBar_isl {s u : State} {vi : Vi} {launch expect n : Nat} {target : Bool}
    (h : allocBar s vi launch expect target = some (n, u)) : u.pwr.isl = s.pwr.isl := by
  unfold allocBar at h
  dsimp only at h
  split at h
  · cases h
  · cases h; rfl

/-! ## Accumulators and launches -/

@[simp] theorem setLoad_isl (s : State) (vi : Vi) (loc : RecLoc) : (setLoad s vi loc).1.pwr.isl = s.pwr.isl := by
  unfold setLoad
  dsimp only
  rw [spillFree_isl, foldl_fst_isl]
  exact fun _ _ => spillRead_isl ..

@[simp] theorem writeOut_isl (s : State) (key : Nat) : (writeOut s key).pwr.isl = s.pwr.isl := by
  unfold writeOut
  split
  · dsimp only
    split
    · exact spillWrite_isl ..
    · rfl
  · rfl

@[simp] theorem accUse_isl (s : State) (vi : Vi) (l : Nat) (f : BitVec 10) : (accUse s vi l f).1.pwr.isl = s.pwr.isl := by
  have spilled : (match heldKey s f with | some k => countEv (writeOut s k) f vi 0x7A 1 | none => s).pwr.isl = s.pwr.isl := by
    split <;> simp
  unfold accUse
  dsimp only
  split
  · rfl
  · dsimp only
    split
    · exact (setLoad_isl ..).trans spilled
    · exact spilled

@[simp] theorem accPut_isl (s : State) (l : Nat) (f : BitVec 10) (v : Vector (BitVec 4352) 8) :
    (accPut s l f v).pwr.isl = s.pwr.isl := rfl

@[simp] theorem allocSubs_isl (vi : Vi) (num : Nat) (counts : List (Word × Nat × Nat)) (l : List Nat) (s : State) :
    (allocSubs s vi num counts l).1.pwr.isl = s.pwr.isl := by
  induction l generalizing s with
  | nil => rfl
  | cons m r ih =>
    unfold allocSubs
    dsimp only
    split
    · rfl
    next h => exact (ih _).trans (allocBar_isl h)

@[simp] theorem acceptLaunch_isl (s : State) (vi : Vi) (d : LaunchDesc) (sq : Option (BitVec 4)) (seq : BitVec 48) :
    (acceptLaunch s vi d sq seq).pwr.isl = s.pwr.isl := by
  unfold acceptLaunch
  extract_lets +onlyGivenNames counts num
  split
  · rfl
  next bar u h =>
    split
    next w subs e =>
    have placed : w.pwr.isl = u.pwr.isl := by
      rw [isl_of_fst e]
      split <;> simp
    extract_lets +onlyGivenNames l v
    split
    · exact placed.trans (allocBar_isl h)
    · exact placed.trans (allocBar_isl h)

@[simp] theorem wakeDim_isl (s : State) : (wakeDim s).pwr.isl = s.pwr.isl := by
  unfold wakeDim
  dsimp only
  split <;> rfl

@[simp] theorem submitThread_isl (s : State) (vi : Vi) (d : LaunchDesc) : (submitThread s vi d).1.pwr.isl = s.pwr.isl := by
  unfold submitThread
  split
  · rfl
  · dsimp only
    split <;> simp

/-! ## A thread's operations -/

@[simp] theorem readAt_isl (s : State) (vi : Vi) (a : Word) (n : Nat) (status : BitVec 8) (ext : List Byte) :
    (readAt s vi a n status ext).1.pwr.isl = s.pwr.isl := by
  unfold readAt
  dsimp only
  split
  · rfl
  · rfl
  · split <;> rfl
  · exact (devRead_isl s _ n (some vi) :)

@[simp] theorem readSpan_isl (s : State) (vi : Vi) (a : Word) (n : Nat) (status : BitVec 8) (ext : List Byte) :
    (readSpan s vi a n status ext).1.pwr.isl = s.pwr.isl := by
  unfold readSpan
  rw [foldl_fst_isl]
  exact fun _ _ => readAt_isl ..

@[simp] theorem readLanes_isl (vi : Vi) (w : Nat) (status : BitVec 8) (l : List (Nat × Word)) (s : State) (ext : List Byte)
    (r : ActRes) : (readLanes s vi w status l ext r).1.pwr.isl = s.pwr.isl := by
  induction l generalizing s ext r with
  | nil => rfl
  | cons p l ih => exact (ih ..).trans (readAt_isl ..)

@[simp] theorem writeLanes_isl (vi : Vi) (t : Tid) (o : Op) (l : List (Word × List Byte)) (s : State) :
    (writeLanes s vi t o l).pwr.isl = s.pwr.isl := by
  induction l generalizing s with
  | nil => rfl
  | cons p l ih =>
    unfold writeLanes
    rw [ih]
    split
    · exact engWrite_isl ..
    · split
      · rfl
      · exact hostPut_isl ..
    · rfl

@[simp] theorem performAct_isl (s : State) (t : Tid) (th : Thread) (op : Op) (status : BitVec 8) (ext : List Byte) :
    (performAct s t th op status ext).1.pwr.isl = s.pwr.isl := by
  unfold performAct
  split
  case h_1 => exact readAt_isl ..
  case h_2 => exact readLanes_isl ..
  case h_3 =>
    split
    · rfl
    · exact writeLanes_isl ..
  case h_4 =>
    split
    · dsimp only
      split
      next h => exact (isl_of_fst h).trans (partAct_isl ..)
      next h => exact (isl_of_fst h).trans (partAct_isl ..)
    · rfl
    · rfl
  case h_5 => exact readSpan_isl ..
  case h_6 =>
    dsimp only
    split
    · exact readSpan_isl ..
    · exact (accUse_isl ..).trans (readSpan_isl ..)
  case h_7 =>
    dsimp only
    split
    · exact readAt_isl ..
    · exact (submitThread_isl ..).trans (readAt_isl ..)
  all_goals rfl

@[simp] theorem drainOne_isl (s : State) (t : Tid) (o : Op) : (drainOne s t o).pwr.isl = s.pwr.isl := by
  unfold drainOne
  split
  · rfl
  · split
    · rfl
    · split
      · rfl
      · exact performAct_isl ..

@[simp] theorem drainMem_isl (s : State) (t : Tid) : (drainMem s t).pwr.isl = s.pwr.isl := by
  unfold drainMem
  split
  · rfl
  · exact foldl_isl (fun s o => drainOne_isl s t o) ..

/-! ## Traps and the matching wait -/

@[simp] theorem endThread_isl (s : State) (t : Tid) (th : Thread) (status : BitVec 8) :
    (endThread s t th status).pwr.isl = s.pwr.isl := rfl

@[simp] theorem quiesce_isl (s : State) (t : Tid) : (quiesce s t).1.pwr.isl = s.pwr.isl := by
  unfold quiesce
  dsimp only
  split <;> simp

@[simp] theorem takeTrap_isl (s : State) (t : Tid) (th : Thread) (cause : Nat) (tval : Word) (atWait : Bool) :
    (takeTrap s t th cause tval atWait).pwr.isl = s.pwr.isl := by
  unfold takeTrap
  dsimp only
  split
  · simp
  · split
    · split
      · simp
      · split <;> simp
    · simp

@[simp] theorem stepTrap_isl (s : State) (t : Tid) (on : Bool) : (stepTrap s t on).pwr.isl = s.pwr.isl := by
  unfold stepTrap
  split
  · split <;> simp
  · rfl

@[simp] theorem finishWait_isl (s : State) (t : Tid) (th : Thread) (a b : Nat) : (finishWait s t th a b).pwr.isl = s.pwr.isl := by
  unfold finishWait
  dsimp only
  split
  · split <;> simp
  · simp

/-- Threads that complete their `wait` leave the clock islands as they are. -/
@[simp] theorem settle_isl (s : State) : (settle s).pwr.isl = s.pwr.isl := by
  refine foldl_isl (fun s p => ?_) ..
  split
  · split
    · split <;> simp
    · rfl
  · rfl

end Sys2Proof.Machine

/-! The statement about power: commands of `PWR_CMD`, the entry to Dark and the wake, the Loupe's samples and caps, and conversion. -/

namespace Sys2Proof.Machine

/-! ## Folds that visit each unit once -/

section
variable {σ κ β : Type} {get : σ → κ → β} {f : σ → κ → σ} (hne : ∀ s k n, n ≠ k → get (f s k) n = get s n)
include hne

/-- A unit that the fold does not visit stays as it was. -/
theorem foldl_get_not_mem (l : List κ) (s : σ) {k : κ} (hk : k ∉ l) : get (l.foldl f s) k = get s k := by
  induction l generalizing s with
  | nil => rfl
  | cons x l ih =>
    obtain ⟨hx, hl⟩ := not_or.mp (mt List.mem_cons.mpr hk)
    exact (ih _ hl).trans (hne s x k hx)

/-- A unit that the fold visits once is what its own step makes of the state before the fold, where no other step matters to it. -/
theorem foldl_get_mem (hself : ∀ s k n, n ≠ k → get (f (f s k) n) n = get (f s n) n) {l : List κ} (hl : l.Nodup) (s : σ) {k : κ}
    (hk : k ∈ l) : get (l.foldl f s) k = get (f s k) k := by
  induction l generalizing s with
  | nil => cases hk
  | cons x l ih =>
    obtain ⟨hx, hl⟩ := List.nodup_cons.mp hl
    by_cases e : k = x
    · subst e
      exact foldl_get_not_mem hne l _ hx
    · exact (ih hl _ ((List.mem_cons.mp hk).resolve_left e)).trans (hself s x k e)

end

/-! ## Fields of a word -/

/-- A field above a number that it does not meet. -/
theorem at_or_ofNat (a : Nat) {i b : Nat} (h : b < 2 ^ i) : at_ a i ||| BitVec.ofNat 64 b = BitVec.ofNat 64 (a * 2 ^ i + b) := by
  rw [at_, ← BitVec.ofNat_or, ← Nat.shiftLeft_add_eq_or_of_lt h, Nat.shiftLeft_eq]

theorem at_zero (a : Nat) : at_ a 0 = BitVec.ofNat 64 a := rfl

/-! ## Commands of `PWR_CMD` (R545-R548) -/

/-- A power command that reaches its register performs it; a wake of its own is for a device in Dark. -/
theorem pwrCommand_reaches {s u : State} {fn : Fn} {op : Nat} (hp : isPf fn = true) (h : HostReaches s fn 0xF08008)
    (hb : pwrCmdWr (at_ op 0) s = u) (ht : u.threads = s.threads) : pwrCommand fn op s = .next u := by
  unfold pwrCommand
  rw [if_neg (by simp [h.gate])]
  exact hostPf_ok hp h hb ht

theorem pwrCmdWr_goBright {s : State} (h : statBusy s pwrStat = false) :
    pwrCmdWr (at_ 1 0) s = statDone (rset (toBright s) 0xF08008 1) pwrStat (0, 0) := by
  simp only [pwrCmdWr, h]
  rfl

theorem pwrCmdWr_goDim {s : State} (h : statBusy s pwrStat = false) :
    pwrCmdWr (at_ 2 0) s = statDone (rset { s with pwr := { s.pwr with st := 1, auto := false } } 0xF08008 2) pwrStat (0, 0) := by
  simp only [pwrCmdWr, h]
  rfl

theorem pwrCmdWr_goDark {s : State} (h : statBusy s pwrStat = false) : pwrCmdWr (at_ 3 0) s =
    if (darkCheck (rset s 0xF08008 3)).1 ≠ 0 then statDone (rset s 0xF08008 3) pwrStat (darkCheck (rset s 0xF08008 3))
    else statStart (rset { s with pwr := { s.pwr with st := 3, former := s.pwr.st } } 0xF08008 3) pwrStat := by
  simp only [pwrCmdWr, h]
  rfl

theorem statBusy_statStart (s : State) (k : Nat) : statBusy (statStart s k) k = true := by
  unfold statBusy statStart
  rw [rget_rset_self]
  simp [bit]

/-- A power command that completes at once: its effect is `w`, and it reports `r`. -/
theorem pwrCommand_answers {s w : State} {fn : Fn} {op : Nat} {v : Word} {r : BitVec 8 × BitVec 8} (hp : isPf fn = true)
    (h : HostReaches s fn 0xF08008) (hb : pwrCmdWr (at_ op 0) s = statDone (rset w 0xF08008 v) pwrStat r)
    (ht : w.threads = s.threads) : answers (pwrCommand fn op s) w [0xF08008] pwrStat r.1 r.2 :=
  answers_intro (pwrCommand_reaches hp h hb ht) (regsOnly_rset (.refl _ _) (by simp))

/-- GO_DARK is refused with the reason of R547 that it meets. -/
theorem goDark_refused {s : State} {fn : Fn} (hp : isPf fn = true) (h : HostReaches s fn 0xF08008) (hb : statBusy s pwrStat = false)
    (hr : (darkCheck (rset s 0xF08008 3)).1 ≠ 0) : answers (exec (.goDark fn) s) s [0xF08008] pwrStat
      (darkCheck (rset s 0xF08008 3)).1 (darkCheck (rset s 0xF08008 3)).2 := by
  rw [exec_goDark]
  exact pwrCommand_answers hp h ((pwrCmdWr_goDark hb).trans (if_pos hr)) rfl

/-- GO_DARK begins the entry where nothing refuses it. -/
theorem goDark_begins {s : State} {fn : Fn} (hp : isPf fn = true) (h : HostReaches s fn 0xF08008) (hb : statBusy s pwrStat = false)
    (hr : (darkCheck (rset s 0xF08008 3)).1 = 0) : exec (.goDark fn) s =
      .next (statStart (rset { s with pwr := { s.pwr with st := 3, former := s.pwr.st } } 0xF08008 3) pwrStat) := by
  rw [exec_goDark]
  exact pwrCommand_reaches hp h ((pwrCmdWr_goDark hb).trans (if_neg (not_not.mpr hr))) rfl

/-- A GO_BRIGHT that Dark holds wakes the device. -/
theorem goBright_wakes {s : State} {fn : Fn} (hp : isPf fn = true) (hd : s.pwr.st = 2) (hg : gate s fn (some 0xF08008) = .held) :
    exec (.goBright fn) s
      = .next { s with pwr := { s.pwr with st := 4, wake := 4 }, heldHost := s.heldHost ++ [.reg fn 0xF08008 1] } :=
  if_pos ⟨rfl, hp, hd, hg⟩

/-! ## The ports (R548, R550) -/

@[simp] theorem getPhy_setPhy_self (s : State) (p : Port) (x : Phy) : getPhy (setPhy s p x) p = x := tget_tset_self ..

theorem getPhy_setPhy_ne (s : State) {p q : Port} (x : Phy) (h : q ≠ p) : getPhy (setPhy s p x) q = getPhy s q :=
  tget_tset_ne _ _ _ (fun e => h (Fin.ext e))

theorem getPhy_congr {s u : State} (h : u.phy = s.phy) (p : Port) : getPhy u p = getPhy s p := by
  unfold getPhy
  rw [h]

/-- A fold whose every step changes only ports changes only ports. -/
theorem foldl_phy {α : Type} {f : State → α → State} (h : ∀ s x, f s x = { s with phy := (f s x).phy }) (l : List α) (s : State) :
    l.foldl f s = { s with phy := (l.foldl f s).phy } := by
  induction l generalizing s with
  | nil => rfl
  | cons x l ih =>
    exact (ih _).trans (congrArg (fun u : State => { u with phy := (l.foldl f (f s x)).phy }) (h s x))

theorem portsOff_frame (s : State) : portsOff s = { s with phy := (portsOff s).phy } := foldl_phy (fun _ _ => rfl) ..

theorem getPhy_portsOff (s : State) (p : Port) :
    getPhy (portsOff s) p = { getPhy s p with st := 5, lanes := 0, half := false, since := s.devTime } := by
  refine (foldl_get_mem (get := getPhy) (fun s k n h => getPhy_setPhy_ne s _ h) (fun s k n h => ?_) (List.nodup_finRange 12) s
    (List.mem_finRange p)).trans (getPhy_setPhy_self ..)
  rw [getPhy_setPhy_self, getPhy_setPhy_self, getPhy_setPhy_ne s _ h]
  rfl

theorem portsTrain_frame (s : State) : portsTrain s = { s with phy := (portsTrain s).phy } :=
  foldl_phy (fun _ _ => by split <;> rfl) ..

theorem getPhy_portsTrain (s : State) (p : Port) : getPhy (portsTrain s) p = (if bit (phyCfg s p) 63 = true ∧ portUse s p ≠ 0 then
    { getPhy s p with st := 1, lanes := 0, half := false, since := s.devTime } else getPhy s p) := by
  have own (s : State) (k : Port) : getPhy (if bit (phyCfg s k) 63 = true ∧ portUse s k ≠ 0 then
      setPhy s k { getPhy s k with st := 1, lanes := 0, half := false, since := s.devTime } else s) k
      = (if bit (phyCfg s k) 63 = true ∧ portUse s k ≠ 0 then
        { getPhy s k with st := 1, lanes := 0, half := false, since := s.devTime } else getPhy s k) := by
    split <;> simp
  refine (foldl_get_mem (get := getPhy) (fun s k n h => ?_) (fun s k n h => ?_) (List.nodup_finRange 12) s
    (List.mem_finRange p)).trans (own s p)
  · split
    · exact getPhy_setPhy_ne s _ h
    · rfl
  · rw [own, own]
    split
    · rw [getPhy_setPhy_ne s _ h]
      rfl
    · rfl

/-! ## The entry to Dark, dimming, and wakes (R546, R548, R550, R560) -/

theorem darkEntryComplete_dark {s : State} (h : s.pwr.st = 3) : exec .darkEntryComplete s =
    .next (statDone { s with phy := (portsOff s).phy, pwr := { s.pwr with st := 2 } } pwrStat (0, 0)) := by
  rw [exec_darkEntryComplete, execDarkEntryComplete, if_neg (not_not.mpr h), portsOff_frame]

/-- In Dark a wake source acts where `PWR_WAKE` enables it. -/
theorem wakeBy_dark {s : State} (h : s.pwr.st = 2) (c : BitVec 8) (b : Nat) :
    wakeBy s c b = if bit (rget s 0xF08020) b then { s with pwr := { s.pwr with st := 4, wake := c } } else s := by
  unfold wakeBy
  rw [stopEntry_awake (by rw [h]; decide), startWake_dark h]
  split <;> rfl

/-- A wake during the entry to Dark ends the entry with RETRY and WOKEN. -/
theorem wakeBy_entering {s : State} (h : s.pwr.st = 3) (hf : s.pwr.former ≠ 2) {c : BitVec 8} {b : Nat}
    (hb : bit (rget s 0xF08020) b = true) : wakeBy s c b
      = statDone { s with pwr := { s.pwr with st := s.pwr.former, wake := c, busyAt := s.devTime } } pwrStat (1, 0xF4) := by
  unfold wakeBy stopEntry
  rw [if_pos ⟨h, hb⟩]
  exact if_neg (fun k => hf k.1)

theorem autoDimTimeout_dims {s : State} (h : bit (rget s 0xF08018) 63 = true) (hp : s.boot.phase = 8) (hd : s.drst.phase = 0)
    (hf : s.err.fatal = false) (hb : s.pwr.st = 0) (hw : workless s = true) (hi : idleNs s ≤ (s.devTime - s.pwr.busyAt).toNat) :
    exec .autoDimTimeout s = .next { s with pwr := { s.pwr with st := 1, auto := true } } :=
  if_pos ⟨h, hp, hd, by simp [hf], hb, hw, hi⟩

theorem releaseHost_nil {s : State} (h : s.heldHost = []) : releaseHost s = s := by
  have same : { s with heldHost := [] } = s := by rw [← h]
  rw [releaseHost, h, same]
  rfl

theorem mbResume_nil {s : State} (h : s.fw.mbWait = []) : mbResume s = s := by
  have same : { s with fw := { s.fw with mbWait := [] } } = s := by rw [← h]
  rw [mbResume, h, same]
  rfl

/-- With nothing held, a wake ends Bright with the ports in training. -/
theorem wakeComplete_bright {s : State} (hw : s.pwr.st = 4) (hh : s.heldHost = []) (hm : s.fw.mbWait = []) (hs : Settled s) :
    exec .wakeComplete s = .next (portsTrain (toBright s)) := by
  have held : (portsTrain (toBright s)).heldHost = [] := by rw [portsTrain_frame]; exact hh
  have waiting : (portsTrain (toBright s)).fw.mbWait = [] := by rw [portsTrain_frame]; exact hm
  have threads : (portsTrain (toBright s)).threads = s.threads := by rw [portsTrain_frame]; rfl
  rw [exec_wakeComplete, execWakeComplete, if_neg (not_not.mpr hw), releaseHost_nil held, mbResume_nil waiting,
    settle_same hs threads]

/-! ## Cluster frequencies (R33, R551) -/

@[simp] theorem getIsl_setIsl_self (s : State) (c : Nat) (x : Island) : getIsl (setIsl s c x) c = x := tget_tset_self ..

theorem getIsl_setIsl_ne (s : State) {c d : Nat} (x : Island) (h : d ≠ c) : getIsl (setIsl s c x) d = getIsl s d :=
  tget_tset_ne _ _ _ h

theorem getIsl_settle (s : State) (c : Nat) : getIsl (settle s) c = getIsl s c := by
  unfold getIsl
  rw [settle_isl]

theorem bits_setWidth_low (v : BitVec 5) : bits (v.setWidth 64) 4 0 = v.toNat := by
  have := v.isLt
  simp only [bits, BitVec.toNat_setWidth, Nat.shiftRight_zero]
  omega

theorem pwrCluFreqWrite_sets {s : State} {fn : Fn} (c : Fin 128) (v : BitVec 5) (hp : isPf fn = true)
    (h : HostReaches s fn (0xF08100 + 8 * c.val)) : exec (.pwrCluFreqWrite fn c v) s = .next
      (if 4 ≤ v.toNat ∧ v.toNat ≤ 16 then setIsl s c.val { getIsl s c.val with set_ := v.toNat } else s) :=
  hostPf_ok hp h (by simp only [cluFreqWr, bits_setWidth_low]) (by split <;> rfl)

/-- The end of a change of frequency: the island runs at its target, the others are as they were. -/
theorem freqChangeDone_reaches {s : State} (c : Fin 128) (hr : (getIsl s c).stopped = false) (h2 : s.pwr.st ≠ 2)
    (h4 : s.pwr.st ≠ 4) :
    ∃ u, exec (.freqChangeDone c) s = .next u ∧ (getIsl u c).cur = islTarget s c.val
      ∧ ∀ d, d ≠ c.val → getIsl u d = getIsl s d := by
  rw [exec_freqChangeDone, execFreqChangeDone]
  by_cases hc : (getIsl s c).cur = islTarget s c.val
  · exact ⟨s, by simp [hc], hc, fun _ _ => rfl⟩
  · refine ⟨_, if_neg (by simp only [not_or]; exact ⟨by simp [hr], hc, h2, h4⟩), ?_, fun d hd => ?_⟩
    · rw [getIsl_settle, getIsl_setIsl_self]
    · rw [getIsl_settle, getIsl_setIsl_ne _ _ hd]

/-! ## Thresholds (R553) -/

theorem thresholds_word (crit warn : BitVec 16) :
    at_ crit.toNat 16 ||| at_ warn.toNat 0 = BitVec.ofNat 64 (crit.toNat * 65536 + warn.toNat) :=
  at_or_ofNat _ warn.isLt

theorem bits_thresholds_word (crit warn : BitVec 16) :
    bits (BitVec.ofNat 64 (crit.toNat * 65536 + warn.toNat)) 15 0 = warn.toNat
      ∧ bits (BitVec.ofNat 64 (crit.toNat * 65536 + warn.toNat)) 31 16 = crit.toNat := by
  have hc := crit.isLt
  have hw := warn.isLt
  simp only [bits, BitVec.toNat_ofNat, Nat.shiftRight_eq_div_pow]
  omega

/-- Channels up to 69 have both thresholds. -/
theorem chanDefault_pos {ch : Nat} (h : ch ≤ 69) : (chanDefault ch).1 ≠ 0 ∧ (chanDefault ch).2.1 ≠ 0 := by
  unfold chanDefault
  split
  · decide
  · split
    · decide
    · split
      · decide
      · rw [if_pos (by omega)]
        decide

/-- Thresholds no less protective than the default are stored. -/
theorem chcfgWr_stores {s : State} (fn : Fn) {crit warn : BitVec 16} (hch : bits (rget s 0xF00008) 6 0 ≤ 69)
    (hw : warn.toNat ≤ (chanDefault (bits (rget s 0xF00008) 6 0)).1)
    (hc : crit.toNat ≤ (chanDefault (bits (rget s 0xF00008) 6 0)).2.1) :
    chcfgWr fn (at_ crit.toNat 16 ||| at_ warn.toNat 0) s
      = rset s (chanKey (bits (rget s 0xF00008) 6 0)) (BitVec.ofNat 64 (crit.toNat * 65536 + warn.toNat)) := by
  obtain ⟨hw0, hc0⟩ := chanDefault_pos hch
  obtain ⟨bw, bc⟩ := bits_thresholds_word crit warn
  have h70 : bits (rget s 0xF00008) 6 0 ≠ 70 := by omega
  simp only [chcfgWr, thresholds_word, bw, bc, hw0, hc0, h70, if_false, Nat.not_lt.mpr hw, Nat.not_lt.mpr hc, decide_false,
    Bool.or_self, Bool.false_eq_true]

/-! ## Samples (R552, R554, R558) -/

/-- Channel `ch` after a sample that is not beyond its trip point. -/
def sampleTaken (s : State) (ch raw : Nat) : Chan :=
  let x := { getChan s ch with window := (raw :: (getChan s ch).window).take (chanLong ch), beyond := 0 }
  if chanLevel s ch x = x.level then x else { x with level := chanLevel s ch x, since := s.devTime }

theorem sampleTaken_level (s : State) (ch raw : Nat) : (sampleTaken s ch raw).level = chanLevel s ch
    { getChan s ch with window := (raw :: (getChan s ch).window).take (chanLong ch), beyond := 0 } := by
  unfold sampleTaken
  dsimp only
  split
  next h => exact h.symm
  next => rfl

theorem sampleTaken_window (s : State) (ch raw : Nat) :
    (sampleTaken s ch raw).window = (raw :: (getChan s ch).window).take (chanLong ch) ∧ (sampleTaken s ch raw).beyond = 0 := by
  unfold sampleTaken
  dsimp only
  split <;> exact ⟨rfl, rfl⟩

@[simp] theorem trackClear_pwr (s : State) : (trackClear s).pwr = s.pwr := rfl

@[simp] theorem trackBelow_chans (s : State) : (trackBelow s).pwr.chans = s.pwr.chans := rfl

@[simp] theorem hotRefresh_chans (s : State) (st v : Nat) : (hotRefresh s st v).pwr.chans = s.pwr.chans := by
  unfold hotRefresh
  split
  · rfl
  · split <;> rfl

theorem loupeSample_trips {s : State} {ch : Fin 74} {raw : BitVec 16} (hp : s.boot.phase ≠ 0) (ht : chanTrip ch.val ≠ 0)
    (hr : raw.toNat > chanTrip ch.val) (hb : 2 ≤ (getChan s ch.val).beyond) :
    exec (.loupeSample ch raw) s = .next (tripOff s ch.val raw.toNat) := by
  rw [exec_loupeSample, execLoupeSample, if_neg hp]
  simp only [ne_eq, ht, not_false_eq_true, hr, and_self, if_true]
  exact if_pos (by omega)

/-- A sample within the trip point goes into its channel's filter, and no other channel changes. -/
theorem loupeSample_chans {s : State} {ch : Fin 74} {raw : BitVec 16} (hp : s.boot.phase ≠ 0)
    (ht : chanTrip ch.val = 0 ∨ raw.toNat ≤ chanTrip ch.val) : ∃ u, exec (.loupeSample ch raw) s = .next u
      ∧ u.pwr.chans = tset s.pwr.chans ch.val (sampleTaken s ch.val raw.toNat) := by
  have hb : ¬(chanTrip ch.val ≠ 0 ∧ raw.toNat > chanTrip ch.val) := by omega
  rw [exec_loupeSample, execLoupeSample, if_neg hp]
  extract_lets +onlyGivenNames c x beyond
  have within : beyond = 0 := if_neg hb
  rw [if_neg (show ¬beyond ≥ 3 by omega)]
  extract_lets +onlyGivenNames y l entered old s1 s2 s3
  have hy : y = { getChan s ch with window := (raw.toNat :: (getChan s ch).window).take (chanLong ch), beyond := 0 } := by
    unfold y
    rw [within]
  have h1 : s1.pwr.chans = tset s.pwr.chans ch.val (sampleTaken s ch.val raw.toNat) := by
    unfold sampleTaken
    rw [← hy]
  have h2 : s2.pwr.chans = s1.pwr.chans := by
    unfold s2
    split <;> simp
  have h3 : s3.pwr.chans = s2.pwr.chans := by
    unfold s3
    split <;> simp
  split
  · extract_lets +onlyGivenNames now s4 src s5
    have h5 : s5.pwr.chans = s3.pwr.chans := by
      unfold s5
      split <;> rfl
    exact ⟨_, rfl, by rw [raiseErr_pwr, h5, h3, h2, h1]⟩
  · exact ⟨_, rfl, by rw [h3, h2, h1]⟩

theorem getChan_of_chans {s u : State} {c : Nat} {x : Chan} (h : u.pwr.chans = tset s.pwr.chans c x) :
    getChan u c = x ∧ ∀ d, d ≠ c → getChan u d = getChan s d := by
  unfold getChan
  rw [h]
  exact ⟨tget_tset_self .., fun d hd => tget_tset_ne _ _ _ hd⟩

/-! ## The millisecond tick (R555, R556) -/

/-- The tick changes G and the times kept for it. -/
theorem powerCapTick_frame (s : State) : ∃ g gAt below, powerCapTick s
    = { s with pwr := { s.pwr with g := g, gAt := gAt, below := below } } := by
  unfold powerCapTick
  extract_lets +onlyGivenNames u g
  split
  · exact ⟨_, _, _, rfl⟩
  · exact ⟨_, _, _, rfl⟩

/-- G falls by one while the mean power is above the cap; else it stands or rises by one. -/
theorem powerCapTick_g {s : State} (h : 4 ≤ s.pwr.g) :
    s.pwr.g - 1 ≤ (powerCapTick s).pwr.g ∧ (powerCapTick s).pwr.g ≤ s.pwr.g + 1 ∧ 4 ≤ (powerCapTick s).pwr.g
      ∧ (power100 s > capW s → (powerCapTick s).pwr.g = max (s.pwr.g - 1) 4) := by
  unfold powerCapTick
  extract_lets +onlyGivenNames u g
  have taken : (if g = u.pwr.g then u else { u with pwr := { u.pwr with g := g, gAt := u.devTime } }).pwr.g = g := by
    split
    next e => exact e.symm
    next => rfl
  rw [taken]
  by_cases above : power100 s > capW s
  · have falls : g = max (s.pwr.g - 1) 4 := if_pos above
    omega
  · have rises : g = s.pwr.g + 1 ∨ g = s.pwr.g := by
      unfold g
      rw [if_neg (show ¬power100 u > capW u from above)]
      split
      · exact .inl rfl
      · exact .inr rfl
    omega

/-- An island after the tick. -/
def islandNext (s : State) (c : Nat) : Island := getIsl (islandTick s c) c

theorem islandTick_eq (s : State) (c : Nat) : islandTick s c = setIsl s c (islandNext s c) := by
  unfold islandNext islandTick
  rw [getIsl_setIsl_self]

/-- What an island does at the tick is its own affair: another island's step changes nothing that it looks at. -/
theorem islandNext_setIsl (s : State) {k n : Nat} (x : Island) (h : n ≠ k) : islandNext (setIsl s k x) n = islandNext s n := by
  unfold islandNext islandTick
  simp only [getIsl_setIsl_self, getIsl_setIsl_ne s x h]
  rfl

theorem getIsl_ticks (s : State) {c : Nat} (h : c < 128) : getIsl ((List.range 128).foldl islandTick s) c = islandNext s c := by
  refine foldl_get_mem (get := getIsl) (fun s k n h => ?_) (fun s k n h => ?_) List.nodup_range s (List.mem_range.mpr h)
  · rw [islandTick_eq, getIsl_setIsl_ne _ _ h]
  · rw [islandTick_eq s k]
    exact islandNext_setIsl s _ h

/-- T falls by one while a channel that acts on the cluster is CRITICAL; else it stands or rises by one. -/
theorem islandNext_t (s : State) (c : Nat) :
    (clusterLevel s c = 2 → (islandNext s c).t = max ((getIsl s c).t - 1) 4)
      ∧ (clusterLevel s c ≠ 2 → (islandNext s c).t = (getIsl s c).t ∨ (islandNext s c).t = (getIsl s c).t + 1) := by
  unfold islandNext islandTick
  simp only [getIsl_setIsl_self]
  refine ⟨fun h => if_pos h, fun h => ?_⟩
  rw [if_neg h]
  split
  · exact .inr rfl
  · exact .inl rfl

/-- The step of one island changes no other part of the state. -/
theorem ticks_frame (l : List Nat) (s : State) : ∃ isl, l.foldl islandTick s = { s with pwr := { s.pwr with isl := isl } } := by
  induction l generalizing s with
  | nil => exact ⟨_, rfl⟩
  | cons c l ih =>
    obtain ⟨isl, h⟩ := ih (islandTick s c)
    exact ⟨isl, h⟩

/-- The state at whose caps the islands tick. -/
def capTicked (s : State) : State := powerCapTick { s with pwr := { s.pwr with msAt := some s.devTime } }

theorem loupeMsTick_ticks {s : State} (hp : 2 ≤ s.boot.phase.toNat) (hm : s.devTime.toNat % 1000000 = 0)
    (hn : s.pwr.msAt ≠ some s.devTime) : exec .loupeMsTick s = .next ((List.range 128).foldl islandTick (capTicked s)) :=
  if_neg (by simp [hm, hn]; omega)

/-! ## Trips and conversion (R558, R559, R605, R607) -/

theorem trip_word (raw : BitVec 16) :
    at_ 1 63 ||| at_ 73 48 ||| at_ raw.toNat 0 = BitVec.ofNat 64 (2 ^ 63 + 73 * 2 ^ 48 + raw.toNat) := by
  have := raw.isLt
  rw [BitVec.or_assoc, at_zero, at_or_ofNat 73 (by omega), at_or_ofNat 1 (by omega)]
  exact congrArg _ (by omega)

theorem inputOvercurrent_trips {s : State} {ma : BitVec 16} (hp : s.boot.phase ≠ 0) (hm : 32000 < ma.toNat) :
    exec (.inputOvercurrent ma) s = .next (tripOff s 73 ma.toNat) :=
  if_neg (not_or.mpr ⟨hp, by omega⟩)

/-- Conversion turns on where everything lets it. -/
theorem convTry_on {s : State} (h0 : s.boot.phase = 0) (he : s.boot.pwrEn = true) (hr : s.boot.risen = true)
    (hl : s.boot.locked = false) : convTry s = { s with boot := { s.boot with phase := 1 } } :=
  if_pos ⟨h0, he, hr, by simp [hl]⟩

/-- PWR_EN and the input turn conversion on together, and PWR_EN after 100 ms low frees it from a trip (R605, R607). -/
theorem conversion_on {s : State} (h0 : s.boot.phase = 0) (held : Bool) :
    ∃ u v, exec (.pwrEnHigh held) s = .next u ∧ exec (.inputRise held) s = .next v
      ∧ (s.boot.risen = true → s.boot.locked = false → u = { s with boot := { s.boot with pwrEn := true, phase := 1 } })
      ∧ (s.boot.pwrEn = true → s.boot.locked = false → v = { s with boot := { s.boot with risen := true, phase := 1 } })
      ∧ (s.boot.risen = true → s.boot.pwrEn = false → held = true → u.boot.phase = 1 ∧ u.boot.locked = false) := by
  have kept (l : s.boot.locked = false) (b : Bool) : (s.boot.locked && b) = s.boot.locked := by simp [l]
  refine ⟨_, _, rfl, rfl, fun hr hl => ?_, fun he hl => ?_, fun hr he hh => ?_⟩
  · rw [kept hl]
    exact convTry_on (s := { s with boot := { s.boot with pwrEn := true } }) h0 rfl hr hl
  · rw [kept hl]
    exact convTry_on (s := { s with boot := { s.boot with risen := true } }) h0 he rfl hl
  · have freed : (s.boot.locked && !(held && !s.boot.pwrEn)) = false := by simp [he, hh]
    rw [freed, convTry_on (s := { s with boot := { s.boot with pwrEn := true, locked := false } }) h0 rfl hr rfl]
    exact ⟨rfl, rfl⟩

/-- The loss of PWR_EN or of the input turns conversion off; memory is lost, the fuses stay, and the island meets a removed input as
well (R543, R605). -/
theorem conversion_off (s : State) :
    ∃ u v, exec .pwrEnLow s = .next u ∧ exec .inputUndervoltage s = .next v ∧ u.boot.phase = 0 ∧ v.boot.phase = 0
      ∧ u.boot.pwrEn = false ∧ v.boot.risen = false ∧ u.mem = [] ∧ v.mem = [] ∧ u.sec.fused = s.sec.fused
      ∧ v.sec.revoked = s.sec.revoked ∧ ∀ m p, exec (.inputRemoved m p) s = .next (islandDown v m p) :=
  ⟨_, _, rfl, rfl, rfl, rfl, rfl, rfl, rfl, rfl, rfl, rfl, fun _ _ => rfl⟩

/-! ## The statement -/

/-- A power command of a PF that reaches `PWR_CMD`. -/
theorem pwrCmd_performs {s : State} {fn : Fn} (hp : isPf fn = true) (h : HostReaches s fn 0xF08008) (hb : statBusy s pwrStat = false) :
    answers (exec (.goBright fn) s) (toBright s) [0xF08008] pwrStat 0 0
    ∧ answers (exec (.goDim fn) s) { s with pwr := { s.pwr with st := 1, auto := false } } [0xF08008] pwrStat 0 0
    ∧ (let r := darkCheck (rset s 0xF08008 3)
      (r.1 ≠ 0 → answers (exec (.goDark fn) s) s [0xF08008] pwrStat r.1 r.2)
      ∧ (r.1 = 0 → ∃ u, exec (.goDark fn) s = .next u ∧ u.pwr = { s.pwr with st := 3, former := s.pwr.st }
          ∧ u = { s with regs := u.regs, pwr := u.pwr } ∧ statBusy u pwrStat = true)) :=
  ⟨pwrCommand_answers hp h (pwrCmdWr_goBright hb) rfl, pwrCommand_answers hp h (pwrCmdWr_goDim hb) rfl,
    goDark_refused hp h hb, fun hr => ⟨_, goDark_begins hp h hb hr, rfl, rfl, statBusy_statStart ..⟩⟩

theorem darkEntryComplete_ends {s : State} (h : s.pwr.st = 3) : ∃ u, exec .darkEntryComplete s = .next u
    ∧ u.pwr = { s.pwr with st := 2 } ∧ reports u pwrStat 0 0
    ∧ (∀ p, getPhy u p = { getPhy s p with st := 5, lanes := 0, half := false, since := s.devTime })
    ∧ u.mem = s.mem := by
  refine ⟨_, darkEntryComplete_dark h, rfl, reports_statDone .., fun p => ?_, rfl⟩
  rw [← getPhy_portsOff]
  exact getPhy_congr (by simp only [statDone, rset_phy]) p

theorem wake_wakes_dark {s : State} (h : s.pwr.st = 2) :
    (∀ (src : WakeSrc) (c : BitVec 8) (b : Nat), (c, b) = (match src with | .hostRead => (1, 63) | .smbus => (3, 61)) →
      exec (.wake src) s = .next (if bit (rget s 0xF08020) b then { s with pwr := { s.pwr with st := 4, wake := c } } else s))
    ∧ (s.devTime = rget s 0xF08028 → bit (rget s 0xF08020) 62 = true →
      exec .wakeTimer s = .next { s with pwr := { s.pwr with st := 4, wake := 2 } }) := by
  refine ⟨fun src c b e => ?_, fun ht hb => ?_⟩
  · cases src <;> cases e <;> exact congrArg Host.Outcome.next (wakeBy_dark h _ _)
  · rw [exec_wakeTimer, execWakeTimer, if_pos ht, wakeBy_dark h, if_pos hb]

theorem wake_abandons_entry {s : State} (h : s.pwr.st = 3) (hf : s.pwr.former ≠ 2) (hb : bit (rget s 0xF08020) 63 = true) :
    answers (exec (.wake .hostRead) s) { s with pwr := { s.pwr with st := s.pwr.former, wake := 1, busyAt := s.devTime } } []
      pwrStat 1 0xF4 :=
  answers_intro (congrArg Host.Outcome.next (wakeBy_entering h hf hb)) (.refl _ _)

theorem wakeComplete_ends {s : State} (hw : s.pwr.st = 4) (hh : s.heldHost = []) (hm : s.fw.mbWait = []) (hs : Settled s) :
    ∃ u, exec .wakeComplete s = .next u ∧ u.pwr = { s.pwr with st := 0, auto := false, busyAt := s.devTime } ∧ u.mem = s.mem
      ∧ ∀ p, getPhy u p = (if bit (phyCfg s p) 63 = true ∧ portUse s p ≠ 0 then
          { getPhy s p with st := 1, lanes := 0, half := false, since := s.devTime } else getPhy s p) := by
  refine ⟨_, wakeComplete_bright hw hh hm hs, ?_, ?_, fun p => getPhy_portsTrain (toBright s) p⟩
  · rw [portsTrain_frame]
    simp [toBright, hw]
  · rw [portsTrain_frame]
    rfl

theorem loupeSample_effect {s : State} (ch : Fin 74) (raw : BitVec 16) (hp : s.boot.phase ≠ 0) :
    let x := getChan s ch.val
    (chanTrip ch.val ≠ 0 → raw.toNat > chanTrip ch.val → 2 ≤ x.beyond →
      exec (.loupeSample ch raw) s = .next (tripOff s ch.val raw.toNat))
    ∧ (chanTrip ch.val = 0 ∨ raw.toNat ≤ chanTrip ch.val → ∃ u, exec (.loupeSample ch raw) s = .next u
        ∧ (getChan u ch.val).window = (raw.toNat :: x.window).take (chanLong ch.val) ∧ (getChan u ch.val).beyond = 0
        ∧ (getChan u ch.val).level = chanLevel s ch.val { x with window := (raw.toNat :: x.window).take (chanLong ch.val), beyond := 0 }
        ∧ ∀ d, d ≠ ch.val → getChan u d = getChan s d) := by
  refine ⟨loupeSample_trips hp, fun ht => ?_⟩
  obtain ⟨u, hu, hc⟩ := loupeSample_chans hp ht
  obtain ⟨own, others⟩ := getChan_of_chans hc
  obtain ⟨window, beyond⟩ := sampleTaken_window s ch raw.toNat
  exact ⟨u, hu, by rw [own, window], by rw [own, beyond], by rw [own, sampleTaken_level], others⟩

theorem loupeMsTick_effect {s : State} (hp : 2 ≤ s.boot.phase.toNat) (hm : s.devTime.toNat % 1000000 = 0)
    (hn : s.pwr.msAt ≠ some s.devTime) (hg : 4 ≤ s.pwr.g) : ∃ u, exec .loupeMsTick s = .next u
      ∧ s.pwr.g - 1 ≤ u.pwr.g ∧ u.pwr.g ≤ s.pwr.g + 1 ∧ 4 ≤ u.pwr.g ∧ u.pwr.msAt = some s.devTime
      ∧ (power100 s > capW s → u.pwr.g = max (s.pwr.g - 1) 4)
      ∧ ∀ c < 128, (clusterLevel s c = 2 → (getIsl u c).t = max ((getIsl s c).t - 1) 4)
        ∧ (clusterLevel s c ≠ 2 → (getIsl u c).t = (getIsl s c).t ∨ (getIsl u c).t = (getIsl s c).t + 1) := by
  obtain ⟨isl, hisl⟩ := ticks_frame (List.range 128) (capTicked s)
  obtain ⟨low, high, floor, falls⟩ :=
    powerCapTick_g (s := { s with pwr := { s.pwr with msAt := some s.devTime } }) hg
  obtain ⟨g, gAt, below, hcap⟩ := powerCapTick_frame { s with pwr := { s.pwr with msAt := some s.devTime } }
  have kept : capTicked s = { s with pwr := { s.pwr with msAt := some s.devTime, g := g, gAt := gAt, below := below } } := hcap
  have hG : ((List.range 128).foldl islandTick (capTicked s)).pwr.g = (capTicked s).pwr.g := by rw [hisl]
  refine ⟨_, loupeMsTick_ticks hp hm hn, ?_⟩
  rw [hG]
  refine ⟨low, high, floor, by rw [hisl, kept], falls, fun c hc => ?_⟩
  rw [getIsl_ticks _ hc]
  have next := islandNext_t (capTicked s) c
  rw [kept] at next ⊢
  exact next

/-- Settles O55: each command by its own lemma above. A cluster's change of frequency rests on `settle_isl`: the threads that go on at its
end leave the islands alone. -/
theorem powerOperations : Obligations.PowerOperations := by
  unfold Obligations.PowerOperations
  intro s fn
  refine ⟨pwrCmd_performs, goBright_wakes, darkEntryComplete_ends, autoDimTimeout_dims, wake_wakes_dark, wake_abandons_entry,
    wakeComplete_ends, fun c v hp hr => pwrCluFreqWrite_sets c v hp hr, freqChangeDone_reaches,
    fun crit warn hp hr hch => ?thresholds, loupeSample_effect, loupeMsTick_effect, fun ma hp hm => ?overcurrent, conversion_on,
    conversion_off s⟩
  case thresholds => exact fun hw hc => hostPf_ok hp hr (chcfgWr_stores fn hch hw hc) rfl
  case overcurrent => exact ⟨_, inputOvercurrent_trips hp hm, rfl, rfl, rfl, trip_word ma⟩

end Sys2Proof.Machine

/-! What memory, the trace, events, sync objects and completions leave alone: the thread slots, and the commands that wait at the composite
manager and at the manager of resources (R51, R268). -/

namespace Sys2Proof.Machine

/-- The commands that wait at the composite manager and at the manager of resources. -/
def jobs (s : State) : List CmpJob × List ResJob := (s.cmpJobs, s.resJobs)

/-- The thread slots beside them. -/
def work (s : State) : Tab Thread × List CmpJob × List ResJob := (s.threads, jobs s)

theorem threads_of_work {s u : State} (h : work u = work s) : u.threads = s.threads := congrArg Prod.fst h

theorem jobs_of_work {s u : State} (h : work u = work s) : jobs u = jobs s := congrArg Prod.snd h

theorem cmpJobs_of_jobs {s u : State} (h : jobs u = jobs s) : u.cmpJobs = s.cmpJobs := congrArg Prod.fst h

theorem resJobs_of_jobs {s u : State} (h : jobs u = jobs s) : u.resJobs = s.resJobs := congrArg Prod.snd h

/-! ## Composition -/

theorem ite_work {c : Prop} [Decidable c] {r a b : State} (h : work a = work r) (k : work b = work r) :
    work (if c then a else b) = work r := by
  split
  · exact h
  · exact k

theorem ite_jobs {c : Prop} [Decidable c] {r a b : State} (h : jobs a = jobs r) (k : jobs b = jobs r) :
    jobs (if c then a else b) = jobs r := by
  split
  · exact h
  · exact k

theorem foldl_work {α : Type} {f : State → α → State} (h : ∀ s x, work (f s x) = work s) (l : List α) (s : State) :
    work (l.foldl f s) = work s := foldl_proj work h l s

/-- The same for a fold that carries more beside the state. -/
theorem foldl_fst_jobs {α β : Type} {f : State × β → α → State × β} (h : ∀ p x, jobs (f p x).1 = jobs p.1) (l : List α)
    (p : State × β) : jobs (l.foldl f p).1 = jobs p.1 := foldl_proj (fun p => jobs p.1) h l p

theorem foldl_jobs {α : Type} {f : State → α → State} (h : ∀ s x, jobs (f s x) = jobs s) (l : List α) (s : State) :
    jobs (l.foldl f s) = jobs s := foldl_proj jobs h l s

/-! ## Errors -/

@[simp] theorem raiseErr_work (s : State) (e : Err) : work (raiseErr s e) = work s := by
  have roll (s : State) : work (rollSecond s) = work s := by
    unfold rollSecond
    dsimp only
    split <;> rfl
  have enqueue (s : State) (e : Err) : work (enqueueErr s e) = work s := by
    unfold enqueueErr
    split
    · rfl
    · split <;> rfl
  unfold raiseErr
  dsimp only
  split
  · exact (enqueue ..).trans (roll s)
  · split
    · exact (enqueue ..).trans (roll s)
    · exact roll s

/-! ## Device and host memory -/

@[simp] theorem poisonBlock_work (s : State) (b : Nat) : work (poisonBlock s b) = work s := by
  unfold poisonBlock
  split <;> rfl

@[simp] theorem foundUe_work (s : State) (b : Nat) (c : Option Vi) : work (foundUe s b c) = work s := by
  cases c <;> exact (raiseErr_work ..).trans (poisonBlock_work ..)

@[simp] theorem devRead_work (s : State) (pa n : Nat) (c : Option Vi) : work (devRead s pa n c).1 = work s := by
  have touched : work (touchBlocks s pa n c) = work s := by
    refine foldl_work (fun s b => ?_) ..
    split
    · exact foundUe_work ..
    · rfl
  unfold devRead
  cases c with
  | none => exact touched
  | some v => exact ite_work touched touched

@[simp] theorem writeBlock_work (s : State) (vi : Option Vi) (pa : Nat) (d : List Byte) : work (writeBlock s vi pa d) = work s := by
  unfold writeBlock
  extract_lets +onlyGivenNames b
  split
  · rfl
  · extract_lets +onlyGivenNames u st
    have touched : work u = work s := ite_work (foundUe_work ..) rfl
    split
    · exact (raiseErr_work ..).trans touched
    · exact touched

@[simp] theorem devWrite_work (s : State) (vi : Option Vi) (pa : Nat) (d : List Byte) : work (devWrite s vi pa d) = work s := by
  unfold devWrite
  generalize d.length / 64 + 2 = n
  induction n generalizing s pa d with
  | zero => rfl
  | succ n ih =>
    unfold writeBlocks
    split
    · rfl
    · rw [ih, writeBlock_work]

@[simp] theorem mirrorOut_work (s : State) (mirror : Option Nat) (pa : Nat) (d : List Byte) (mark : Nat) (w : Writer) :
    work (mirrorOut s mirror pa d mark w) = work s := by
  have cut (k : Nat) : ∀ (s : State) src dst n m d, work (mirrorCut s src dst n m d w k) = work s := by
    induction k with
    | zero => intros; rfl
    | succ k ih =>
      intros
      unfold mirrorCut
      split
      · rfl
      · exact (ih ..).trans rfl
  cases mirror with
  | none => rfl
  | some g =>
    unfold mirrorOut
    dsimp only
    split
    · exact cut ..
    · split <;> rfl

@[simp] theorem performW_work (s : State) (vi : Option Vi) (mirror : Option Nat) (w : Writer) (a : WAct) :
    work (performW s vi mirror w a).1 = work s := by
  cases a with
  | bytes pa d => exact (mirrorOut_work ..).trans (devWrite_work ..)
  | mark pa n => exact (mirrorOut_work ..).trans (foldl_work poisonBlock_work ..)
  | amo pa op wd x y =>
    unfold performW
    dsimp only
    split
    · exact devRead_work ..
    · exact (mirrorOut_work ..).trans ((devWrite_work ..).trans (devRead_work ..))

@[simp] theorem partAct_work (s : State) (vi : Vi) (mirror : Option Nat) (w : Writer) (a : WAct) :
    work (partAct s vi mirror w a).1 = work s := by
  unfold partAct
  split
  · rfl
  · exact performW_work ..

@[simp] theorem engWrite_work (s : State) (vi : Vi) (pa : Nat) (mirror : Option Nat) (d : List Byte) (w : Writer) :
    work (engWrite s vi pa mirror d w) = work s := foldl_work (fun s p => partAct_work s vi mirror w p) ..

@[simp] theorem hostPut_work (s : State) (fn : Fn) (bus : Nat) (d : List Byte) : work (hostPut s fn bus d) = work s := by
  unfold hostPut
  split <;> rfl

theorem instWrite_work {s u : State} {vi : Vi} {a : Word} {d : List Byte} (h : instWrite s vi a d = some u) : work u = work s := by
  unfold instWrite at h
  split at h
  · cases h; exact engWrite_work ..
  · cases h; exact hostPut_work ..
  · cases h
  · cases h

theorem instRead_work {s : State} {vi : Vi} {a : Word} {n : Nat} {ext : List Byte} {r : State × List Byte × Bool}
    (h : instRead s vi a n ext = some r) : work r.1 = work s := by
  unfold instRead at h
  split at h
  · cases h; exact devRead_work ..
  · cases h; rfl
  · cases h
  · cases h

/-! ## Spill areas (R202-R205) -/

@[simp] theorem spillWrite_work (s : State) (vi : Vi) (loc : RecLoc) (d : List Byte) : work (spillWrite s vi loc d) = work s := by
  cases loc with
  | host b => exact hostPut_work ..
  | dev a =>
    simp only [spillWrite]
    cases h : instWrite s vi a d with
    | none => rfl
    | some u => exact instWrite_work h

@[simp] theorem spillRead_work (s : State) (vi : Vi) (loc : RecLoc) (n : Nat) : work (spillRead s vi loc n).1 = work s := by
  cases loc with
  | host b => rfl
  | dev a =>
    simp only [spillRead]
    cases h : instRead s vi a n [] with
    | none => rfl
    | some r => exact instRead_work h

@[simp] theorem spillTake_work (s : State) (vi : Vi) (loc : RecLoc) : work (spillTake s vi loc) = work s := rfl

@[simp] theorem spillFree_work (s : State) (vi : Vi) (loc : RecLoc) : work (spillFree s vi loc) = work s := rfl

/-! ## The trace, counters and events -/

theorem TrcOnly.work {s u : State} (h : TrcOnly s u) : work u = work s := by
  rw [h]
  rfl

@[simp] theorem facetEvent_work (s : State) (kind : Nat) (vi : Vi) (status : BitVec 8) (launch : Nat) (index : BitVec 32)
    (f : BitVec 10) : work (facetEvent s kind vi status launch index f) = work s := (facetEvent_trcOnly ..).work

@[simp] theorem countEv_work (s : State) (f : BitVec 10) (vi : Vi) (idx n : Nat) : work (countEv s f vi idx n) = work s := by
  rw [countEv_eq]
  rfl

@[simp] theorem modInst_work (s : State) (vi : Vi) (f : Inst → Inst) : work (modInst s vi f) = work s := rfl

@[simp] theorem writeEvent_work (s : State) (vi : Vi) (e : Event) : work (writeEvent s vi e) = work s := by
  unfold writeEvent
  dsimp only
  split
  next u h => exact (modInst_work ..).trans (instWrite_work h)
  next => exact raiseErr_work ..

@[simp] theorem postEvent_work (s : State) (vi : Vi) (e : Event) : work (postEvent s vi e) = work s := by
  unfold postEvent
  extract_lets +onlyGivenNames i
  split
  · rfl
  · extract_lets +onlyGivenNames u
    have counted : work u = work s := ite_work rfl rfl
    split
    · exact ite_work counted counted
    · exact ite_work counted ((writeEvent_work ..).trans counted)

@[simp] theorem drainEvents_work (s : State) (vi : Vi) : work (drainEvents s vi) = work s := by
  have traps (n : Nat) : ∀ s : State, work (drainTraps s vi n) = work s := by
    induction n with
    | zero => intro s; rfl
    | succ n ih =>
      intro s
      unfold drainTraps
      split
      · rfl
      · exact ite_work rfl ((ih _).trans (writeEvent_work ..))
  have lost : work (postLost s vi) = work s := ite_work (writeEvent_work ..) rfl
  exact (traps ..).trans lost

@[simp] theorem retireEvent_work (s : State) (vi : Vi) (seq : BitVec 48) : work (retireEvent s vi seq) = work s :=
  drainEvents_work ..

/-! ## Completion records (R310-R313) -/

@[simp] theorem setCq_work (s : State) (vi : Vi) (q : Nat) (x : Cq) : work (setCq s vi q x) = work s := rfl

@[simp] theorem sqUntake_work (s : State) (vi : Vi) (q : Nat) : work (sqUntake s vi q) = work s := rfl

@[simp] theorem cqWrite_work (s : State) (vi : Vi) (q : Nat) (r : CRec) : work (cqWrite s vi q r) = work s := by
  unfold cqWrite
  dsimp only
  split
  next u h =>
    have written : work u = work s := by
      split at h
      · cases h
      · exact instWrite_work h
    exact (setCq_work ..).trans (ite_work written written)
  next => exact (setCq_work ..).trans (raiseErr_work ..)

@[simp] theorem complete_work (s : State) (vi : Vi) (q : Nat) (r : CRec) : work (complete s vi q r) = work s :=
  ite_work rfl (ite_work rfl (ite_work rfl (cqWrite_work ..)))


/-! ## Sync objects and threads: the waiting commands -/

@[simp] theorem opDone_jobs (s : State) (t : Tid) (op : Nat) (res : BitVec 1024) (fault : Option (Bool × Word)) :
    jobs (opDone s t op res fault) = jobs s := by
  unfold opDone
  split <;> rfl

@[simp] theorem answer_jobs (s : State) (w : Waiter) (value : BitVec 48) (phase : Bool) (status : BitVec 8) :
    jobs (answer s w value phase status) = jobs s := by
  unfold answer
  split
  · rfl
  · exact ite_jobs rfl ((opDone_jobs ..).trans (ite_jobs rfl (jobs_of_work (countEv_work ..))))

@[simp] theorem answerAll_jobs (s : State) (n : Nat) (ws : List Waiter) (value : BitVec 48) (phase : Bool) (status : BitVec 8) :
    jobs (answerAll s n ws value phase status) = jobs s := by
  unfold answerAll
  refine (foldl_jobs (fun s q => ?_) ..).trans (foldl_jobs (fun s w => answer_jobs ..) ..)
  exact ite_jobs rfl rfl

@[simp] theorem serveQueue_jobs (n k : Nat) (s : State) : jobs (serveQueue s n k) = jobs s := by
  fun_induction serveQueue s n k with
  | case3 | case5 =>
    rename_i ih
    exact ih.trans (answer_jobs ..)
  | _ => rfl

@[simp] theorem abandonLocks_jobs (s : State) (vi : Vi) (launch : Nat) (index : BitVec 32) :
    jobs (abandonLocks s vi launch index) = jobs s := by
  have one (s : State) (n : Nat) : jobs (abandonLock s vi n) = jobs s := by
    unfold abandonLock
    exact (jobs_of_work (postEvent_work ..)).trans (answerAll_jobs ..)
  exact foldl_jobs (fun s (p : Nat × SynObj) => one s p.1) ..

@[simp] theorem withdrawAt_jobs (s : State) (n : Nat) (t : Tid) (op : Nat) : jobs (withdrawAt s n t op) = jobs s := by
  unfold withdrawAt
  exact ite_jobs (ite_jobs rfl (serveQueue_jobs ..)) rfl

@[simp] theorem withdrawOp_jobs (s : State) (t : Tid) (op : Nat) : jobs (withdrawOp s t op) = jobs s :=
  foldl_jobs (fun s (p : Nat × SynObj) => withdrawAt_jobs s p.1 t op) ..

@[simp] theorem withdrawSyncs_jobs (s : State) (t : Tid) : jobs (withdrawSyncs s t) = jobs s := by
  have one (s : State) (op : Nat) : jobs (withdrawSync s t op) = jobs s := by
    unfold withdrawSync
    split
    · exact (opDone_jobs ..).trans (withdrawOp_jobs ..)
    · exact withdrawOp_jobs ..
  unfold withdrawSyncs
  split
  · rfl
  · exact foldl_jobs (fun s (o : Op) => one s o.id) ..

/-! ## Accumulator sets (R165, R166) -/

@[simp] theorem setLoad_jobs (s : State) (vi : Vi) (loc : RecLoc) : jobs (setLoad s vi loc).1 = jobs s := by
  unfold setLoad
  dsimp only
  rw [jobs_of_work (spillFree_work ..), foldl_fst_jobs]
  exact fun _ _ => jobs_of_work (spillRead_work ..)

@[simp] theorem writeOut_jobs (s : State) (key : Nat) : jobs (writeOut s key) = jobs s := by
  unfold writeOut
  split
  · dsimp only
    split
    · exact jobs_of_work (spillWrite_work ..)
    · rfl
  · rfl

@[simp] theorem accUse_jobs (s : State) (vi : Vi) (l : Nat) (f : BitVec 10) : jobs (accUse s vi l f).1 = jobs s := by
  have used (u : State) (x : Option AccLoc) (h : jobs u = jobs s) :
      jobs (match x with | some (.spilled loc) => setLoad u vi loc | _ => (u, zeroSet)).1 = jobs s := by
    split
    · exact (setLoad_jobs ..).trans h
    · exact h
  have spilled (k : Nat) : jobs (countEv (writeOut s k) f vi 0x7A 1) = jobs s :=
    (jobs_of_work (countEv_work ..)).trans (writeOut_jobs ..)
  unfold accUse
  dsimp only
  split
  · rfl
  · cases heldKey s f with
    | none => exact used s _ rfl
    | some k => exact used _ _ (spilled k)

end Sys2Proof.Machine

/-! The statements about a thread's slot (R67, R95, R109, R276, R277) and about launches (R62, R272, R619). -/

namespace Sys2Proof.Machine

/-! ## What a save leaves of a thread's identity (R109, R111) -/

/-- Who a thread is, and why it is being saved. -/
def identity (th : Thread) : Vi × Bool × Nat × BitVec 32 × BitVec 8 := (th.vi, th.handler, th.launch, th.index, th.reason)

theorem applyRes_identity (th : Thread) (p : PendRes) : identity (applyRes th p) = identity th := by
  unfold applyRes writeSpecial
  dsimp only
  repeat' split
  all_goals rfl

theorem applyOp_identity (s : State) (th : Thread) (o : Op) : identity (applyOp s th o) = identity th := by
  unfold applyOp
  dsimp only
  cases o.dest with
  | none => split <;> rfl
  | some d => split <;> exact applyRes_identity ..

theorem applyOps_identity (s : State) (th : Thread) (l : List Op) : identity (applyOps s th l) = identity th :=
  foldl_proj identity (applyOp_identity s) l th

/-! ## A thread's slot -/

theorem threadDrained_empties {s : State} {t : Tid} {th : Thread} (h : getThr s t = some th) (he : th.st = .ending) (hl : th.lcnt = 0)
    (hs : th.scnt = 0) : exec (.threadDrained (.here t)) s = .next (settle (emptySlot s t th)) := by
  simp [execThreadDrained, h, he, hl, hs]

/-- The saved thread's record stands in the spill area, its slot is EMPTY, and its launch leaves the Facet with its last thread there. -/
theorem saveComplete_saves {s : State} {t : Tid} {th : Thread} {loc : RecLoc} (h : getThr s t = some th) (hst : th.st = .saving)
    (hsv : savable th = true) (hp : spillPick s th.vi t.facet = some loc) (hr : th.reason ≠ 3) :
    ∃ w x, exec (.saveComplete t) s = .next (settle (if th.handler then w else leaveFacet w th.launch t.facet))
      ∧ w.threads = tdel s.threads (Tid.key t) ∧ x ∈ w.saved
      ∧ x.vi = th.vi ∧ x.handler = th.handler ∧ x.launch = th.launch ∧ x.index = th.index ∧ x.loc = loc ∧ x.facet = t.facet := by
  rw [exec_saveComplete]
  unfold execSaveComplete
  simp -zeta only [h, hst, hsv, hp, ne_eq, not_true_eq_false, Bool.not_true, Bool.false_eq_true, or_self, if_false]
  extract_lets s1 pf th1 th2 th3 s2 s3 s4 s5 s6 s7 s8
  have same : identity th3 = identity th := applyOps_identity ..
  obtain ⟨hvi, hhandler, hlaunch, hindex, hreason⟩ : th3.vi = th.vi ∧ th3.handler = th.handler ∧ th3.launch = th.launch
      ∧ th3.index = th.index ∧ th3.reason = th.reason := by
    simpa only [identity, Prod.mk.injEq] using same
  have h8 : s8 = s7 := by
    unfold s8
    rw [hreason, if_neg hr]
  have slots : s5.threads = s.threads := threads_of_work (by simp [s5, s4, s3, s2, s1])
  rw [hhandler, hlaunch, h8]
  exact ⟨s7, _, rfl, congrArg (tdel · (Tid.key t)) slots, List.mem_append_right _ (List.mem_singleton_self _), hvi, hhandler, hlaunch,
    hindex, rfl, rfl⟩

/-- A thread named for resumption is the one that is saved. -/
theorem threadResume_named {s : State} {w : SavedId} {x : Saved}
    (h : s.saved.find? (fun x => x.vi == w.vi && x.handler == w.handler && x.launch == w.launch && x.index == w.index) = some x) :
    exec (.threadResume w) s = .next (resumeSaved s x) := by
  simp only [exec_threadResume, execThreadResume, h]

theorem resumeSaved_handler {s : State} {x : Saved} {f : BitVec 10} (hh : x.halted = false)
    (hst : (getInst s x.vi).st = 2 ∨ (getInst s x.vi).st = 1) (hx : x.handler = true) (hp : handlerPosition s x.vi = some f) :
    resumeSaved s x = settle (handlerMoved (placeSaved s x f) x.vi f) := by
  unfold resumeSaved
  rcases hst with hst | hst <;> simp [hh, hst, hx, hp]

theorem resumeSaved_launch {s : State} {x : Saved} {l : Launch} {f : BitVec 10} (hh : x.halted = false)
    (hst : (getInst s x.vi).st = 2) (hx : x.handler = false) (hl : getLaunch s x.launch = some l) (hs : stillLeaving s x = false)
    (hp : positionFor s l = some f)
    (low : s.saved.any (fun y => !y.handler && y.launch == x.launch && !y.halted && decide (y.index.toNat < x.index.toNat)) = false) :
    resumeSaved s x = settle (mergeWaiting (placeSaved (modLaunch s x.launch (fun l => { l with
      stores := if l.d.storeKib = 0 ∨ l.stores.contains f.toNat then l.stores else l.stores ++ [f.toNat] })) x f) x.launch) := by
  unfold resumeSaved
  simp only [hh, hst, hx, hl, hs, hp, low, ne_eq, not_true_eq_false, false_and, Bool.false_eq_true, or_self, if_false]

theorem handlerModeTrap_fails {s : State} {vi : Vi} {p : Nat × Thread}
    (h : s.threads.find? (fun p => p.2.vi == vi && p.2.handler && p.2.st == .trapped) = some p)
    (hu : slowUp s (p.1 / 64 / 256) = true) :
    exec (.handlerModeTrap vi) s = .next (settle (endAllTrapped
      (modInst (endHandlers s vi) vi (fun i => { i with hdlSt := 2, hdlCause := p.2.cause, hdlThread := p.2.index.setWidth 8 })) vi)) := by
  simp only [exec_handlerModeTrap, execHandlerModeTrap, h, hu, Bool.not_true, Bool.false_eq_true, if_false]

/-- Settles O25: each event by its own lemma above; who a saved thread is does not change as its results reach their registers. -/
theorem threadSlotEvents : Obligations.ThreadSlotEvents := by
  unfold Obligations.ThreadSlotEvents
  refine ⟨fun s t th => threadDrained_empties, fun s t th loc => saveComplete_saves, fun s x w l f hx hh => ⟨fun hst hk hp => ?handler,
    fun hst hk hl hs hp low => ?launch⟩, fun s vi p => handlerModeTrap_fails⟩
  case handler => rw [threadResume_named hx, resumeSaved_handler hh hst hk hp]
  case launch => rw [threadResume_named hx, resumeSaved_launch hh hst hk hl hs hp low]

/-! ## Launches (R62, R272, R619) -/

/-- A turn of an engine's round spends the round's quotas and nothing else. -/
theorem roundTake_eq {s s1 : State} {eng : Nat} {work : List Nat} {vi : Vi} (h : roundTake s eng work vi = some s1) :
    s1 = { s with rounds := s1.rounds } := by
  unfold roundTake at h
  extract_lets left q served at h
  split at h
  · cases h
  · cases h
    rfl

/-- The descriptor at the head of a queue is taken, with the queue's sequence number. -/
theorem takeHead_ready {s s1 : State} {vi : Vi} {q kind : Nat} {b : List Byte} {r : List (List Byte)} (h : HeadReady s s1 vi q kind b r) :
    takeHead s vi q kind = some (headTaken s1 vi q r, b, (getSq s vi q).seq) := by
  have seq : (getSq s1 vi q).seq = (getSq s vi q).seq := by
    rw [roundTake_eq h.turn]
    rfl
  unfold takeHead
  simp only [h.may, h.form, h.head, h.turn, true_and, if_true, headTaken, seq]

theorem launchTake_accepts {s s1 : State} {vi : Vi} {q : BitVec 4} {b : List Byte} {r : List (List Byte)}
    (h : HeadReady s s1 vi q.toNat 1 b r) (hc : (launchCheck (headTaken s1 vi q.toNat r) vi (parseDesc b)).1 = 0) :
    exec (.launchTake vi q) s
      = .next (acceptLaunch (headTaken s1 vi q.toNat r) vi (parseDesc b) (some q) (getSq s vi q.toNat).seq) := by
  simp only [exec_launchTake, execLaunchTake, takeHead_ready h, hc, if_true]

theorem launchTake_refuses {s s1 : State} {vi : Vi} {q : BitVec 4} {b : List Byte} {r : List (List Byte)}
    (h : HeadReady s s1 vi q.toNat 1 b r) (hc : (launchCheck (headTaken s1 vi q.toNat r) vi (parseDesc b)).1 ≠ 0)
    (hq : compqOk (headTaken s1 vi q.toNat r) vi (parseDesc b) = true) :
    exec (.launchTake vi q) s
      = .next (complete (sqUntake (headTaken s1 vi q.toNat r) vi q.toNat) vi (parseDesc b).compq.toNat
          ⟨(launchCheck (headTaken s1 vi q.toNat r) vi (parseDesc b)).1, q.setWidth 16,
            (launchCheck (headTaken s1 vi q.toNat r) vi (parseDesc b)).2, (getSq s vi q.toNat).seq, 0, 0⟩) := by
  simp only [exec_launchTake, execLaunchTake, takeHead_ready h, hc, hq, if_false, if_true]

/-- An admissible launch whose VI has the turn starts. -/
theorem launchAdmit_starts {s s1 : State} {num : Nat} {l : Launch} (h : getLaunch s num = some l) (ha : admissible s l = true)
    (ht : roundTake s 5 ((s.launches.filter (admissible s)).map (fun x => x.vi.toNat)) l.vi = some s1) :
    exec (.launchAdmit num) s = .next (startLaunch s1 l) := by
  simp only [exec_launchAdmit, execLaunchAdmit, admitLaunch, h, ha, ht, if_true]

/-- Settles O26: a descriptor at the head is taken once, and its checks decide; an admissible launch starts in its turn. -/
theorem launchesTakenAndAdmitted : Obligations.LaunchesTakenAndAdmitted := by
  unfold Obligations.LaunchesTakenAndAdmitted
  refine ⟨fun s s1 vi q b r h => ⟨launchTake_accepts h, launchTake_refuses h⟩, fun s s1 num l h ha ht sub => ?starts⟩
  case starts =>
    rw [launchAdmit_starts h ha ht]
    simp only [startLaunch, sub, Bool.false_eq_true, if_false, Bool.and_eq_true, beq_iff_eq]

end Sys2Proof.Machine

/-! What units and composites are (R36-R47) does not depend on command registers or waiting commands. -/

namespace Sys2Proof.Machine

/-- Two states agree on what units are read from: the composite table, the VIs and their clusters, and the fabric. -/
structure SameUnits (s u : State) : Prop where
  comps : u.comps = s.comps
  inst  : u.inst = s.inst
  clu   : u.clu = s.clu
  fab   : fabCfg u = fabCfg s

/-! ## Read of the same units -/

section
variable {s u : State} (h : SameUnits s u)
include h

theorem SameUnits.fabEn : fabEn u = fabEn s := congrArg (bit · 63) h.fab

theorem SameUnits.ownDev : ownDev u = ownDev s := by
  simp only [Machine.ownDev, h.fabEn, h.fab]

theorem SameUnits.inFabric (d : BitVec 16) : inFabric u d = inFabric s d := by
  simp only [Machine.inFabric, h.fabEn, h.fab]

theorem SameUnits.validPhys (ud : Word) : validPhys u ud = validPhys s ud := by
  simp only [Machine.validPhys, h.inFabric]

theorem SameUnits.facetUd (f : BitVec 10) : facetUd u f = facetUd s f := by
  simp only [Machine.facetUd, h.ownDev]

theorem SameUnits.clusterUd (c : Nat) : clusterUd u c = clusterUd s c := by
  simp only [Machine.clusterUd, h.facetUd]

theorem SameUnits.compEntry (n : Nat) : compEntry u n = compEntry s n := by
  simp only [Machine.compEntry, resGen, getInst, clustersOf, getClu, h.clusterUd, h.comps, h.inst, h.clu]

theorem SameUnits.compUd (n : Nat) : compUd u n = compUd s n := by
  simp only [Machine.compUd, h.compEntry]

theorem SameUnits.resolveUd (ud : Word) : resolveUd u ud = resolveUd s ud := by
  simp only [Machine.resolveUd, h.validPhys, h.compEntry]

theorem SameUnits.resolveDeep (n : Nat) (ud : Word) : resolveDeep u ud n = resolveDeep s ud n := by
  induction n generalizing ud with
  | zero => rfl
  | succ n ih => simp only [Machine.resolveDeep, h.resolveUd, h.compEntry, ih]

theorem SameUnits.physLeaves (n : Nat) (ud : Word) : physLeaves u ud n = physLeaves s ud n := by
  induction n generalizing ud with
  | zero => rfl
  | succ n ih => simp only [Machine.physLeaves, h.resolveUd, h.compEntry, ih]

theorem SameUnits.reached (n : Nat) (ud : Word) : reached u ud n = reached s ud n := by
  induction n generalizing ud with
  | zero => rfl
  | succ n ih => simp only [Machine.reached, h.resolveUd, h.compEntry, ih]

theorem SameUnits.levelOf (k n : Nat) : levelOf u n k = levelOf s n k := by
  induction k generalizing n with
  | zero => rfl
  | succ k ih => simp only [Machine.levelOf, h.compEntry, ih]

theorem SameUnits.ancestors (n : Nat) : ancestors u n = ancestors s n := by
  simp only [Machine.ancestors, h.comps, h.compEntry, h.reached, h.compUd]

theorem SameUnits.structCheck (n : Nat) : structCheck u n = structCheck s n := by
  simp only [Machine.structCheck, h.ancestors, h.compUd, h.levelOf, h.physLeaves]

theorem SameUnits.hasParent (n : Nat) : hasParent u n = hasParent s n := by
  simp only [Machine.hasParent, h.comps, h.compUd]

theorem SameUnits.placeCheck (vi : Vi) (m : Member) : placeCheck u vi m = placeCheck s vi m := by
  have out (ud : Word) : beyond u ud = beyond s ud := by simp only [beyond, h.fabEn, h.ownDev]
  have under (ud : Word) : clustersUnder u ud = clustersUnder s ud := by simp only [clustersUnder, physFacets, h.ownDev]
  have hold (c : Nat) : getClu u c = getClu s c := by simp only [getClu, h.clu]
  simp only [Machine.placeCheck, h.ownDev, h.inFabric, h.resolveDeep, h.compEntry, out, under, hold]

theorem SameUnits.setComps (t : Tab Composite) : SameUnits { s with comps := t } { u with comps := t } := ⟨rfl, h.inst, h.clu, h.fab⟩

end

/-! ## Registers by their names -/

theorem fnReg_ne_devReg (fn : Fn) (off : Nat) {o : Nat} (h : o < 0x10000) : devReg o ≠ fnReg fn off := by
  unfold devReg fnReg
  omega

theorem viReg_ne_fnReg (vi : Vi) (fn : Fn) (off : Nat) {o : Nat} (h : o < 0x1000) : viReg vi o ≠ fnReg fn off := by
  have := vi.isLt
  unfold viReg fnReg
  omega

theorem fnReg_ne (fn : Fn) {a b : Nat} (h : a ≠ b) : fnReg fn a ≠ fnReg fn b := by
  unfold fnReg
  omega

theorem viReg_ne (vi : Vi) {a b : Nat} (h : a ≠ b) : viReg vi a ≠ viReg vi b := by
  unfold viReg
  omega

theorem viReg_ne_devReg (vi : Vi) (off : Nat) {o : Nat} (h : o < 0x10000) : devReg o ≠ viReg vi off := by
  unfold devReg viReg
  omega

/-! ## A command of the composite manager (R50, R51) -/

/-- The command as it waits at the composite manager. -/
def cmpJob (s : State) (fn : Fn) (op : CmpOp) (c : CmpArgs) : CmpJob where
  fn := fn
  pf := isPf fn
  vi := actor fn c.vi
  op := op
  number := c.number.toNat
  lock := c.lock
  grantEn := c.grantEn
  count := c.count.toNat
  mems := namedMembers s fn c
  bad := ((List.range (Nat.min c.count.toNat 256)).map (membufEntry s fn)).any (·.2)
  arg := rget s (cmpArgReg fn)

/-- The state in which the manager executes it: `CMP_CMD` holds it, and BUSY is 1. -/
def cmpOpened (s : State) (fn : Fn) (op : CmpOp) (c : CmpArgs) : State :=
  statStart { rset s (cmpCmdReg fn) (cmpWord op c) with cmpJobs := [cmpJob s fn op c] } (cmpStatReg fn)

/-- What becomes of it: complete with codes, or waiting. -/
def cmpSettled (fn : Fn) : CmpRes → State
  | .done w r => statDone { w with cmpJobs := [] } (cmpStatReg fn) r
  | .wait w => w

section
variable {s : State} {fn : Fn} {c : CmpArgs} (op : CmpOp)

theorem rget_cmpOpened {n : Nat} (hs : n ≠ cmpStatReg fn) (hc : n ≠ cmpCmdReg fn) : rget (cmpOpened s fn op c) n = rget s n :=
  (rget_rset_ne _ _ hs).trans (rget_rset_ne s _ hc)

theorem cmpOpened_sameUnits : SameUnits s (cmpOpened s fn op c) :=
  ⟨rfl, rfl, rfl, rget_cmpOpened op (fnReg_ne_devReg fn _ (by decide)) (fnReg_ne_devReg fn _ (by decide))⟩

/-- Opening the command wrote its registers. -/
theorem cmpOpened_regs (h : s.cmpJobs = []) :
    RegsOnly [cmpStatReg fn, cmpCmdReg fn] s { cmpOpened s fn op c with cmpJobs := [] } := by
  refine ⟨?same, fun n hn => ?other⟩
  case same =>
    rw [← h]
    rfl
  case other =>
    simp only [List.mem_cons, List.not_mem_nil, or_false, not_or] at hn
    exact rget_cmpOpened op hn.1 hn.2

theorem membufEntry_opened (v : Word) : membufEntry (rset s (cmpCmdReg fn) v) fn = membufEntry s fn := by
  funext i
  have lo : memLoReg fn i ≠ cmpCmdReg fn := fnReg_ne fn (by omega)
  have hi : memHiReg fn i ≠ cmpCmdReg fn := fnReg_ne fn (by omega)
  simp only [membufEntry, rget_rset_ne s v lo, rget_rset_ne s v hi]

/-- The manager executes the only command that waits. -/
theorem cmpRun_one {w : State} {j : CmpJob} (h : w.cmpJobs = [j]) (hs : j.started = false) :
    cmpRun w 1 = cmpSettled j.fn (cmpExec w j) := by
  simp only [cmpRun, h, hs, Bool.false_eq_true, if_false]
  cases cmpExec w j <;> rfl

/-- With no command before it, the manager executes the command at once. -/
theorem cmpCommand_executes (h : CmpIdle s fn c) :
    cmpCommand fn op c s = cmpSettled fn (cmpExec (cmpOpened s fn op c) (cmpJob s fn op c)) := by
  have port : ¬ (isPf fn = true ∧ (!samePort fn c.vi) = true) := by simpa using h.port
  have arg : rget (rset s (cmpCmdReg fn) (cmpWord op c)) (cmpArgReg fn) = rget s (cmpArgReg fn) :=
    rget_rset_ne s _ (fnReg_ne fn (by decide))
  unfold cmpCommand
  simp only [h.free, h.feature, port, membufEntry_opened, arg, rset_fw, rset_cmpJobs, h.jobs, List.nil_append, Bool.false_eq_true,
    if_false]
  exact cmpRun_one (w := cmpOpened s fn op c) (j := cmpJob s fn op c) rfl rfl

variable {op} {v : Word} {w : State} {r : BitVec 8 × BitVec 8}

/-- A write of `CMP_CMD` whose command changes no thread and is complete at once. -/
theorem cmpWrite_completes (h : CmpIdle s fn c) (he : cmpExec (cmpOpened s fn op c) (cmpJob s fn op c) = .done w r)
    (ht : w.threads = s.threads) :
    hostWr fn 0x810000 v (cmpCommand fn op c) s = .next (statDone { w with cmpJobs := [] } (cmpStatReg fn) r) :=
  hostWr_ok h.reach (by rw [cmpCommand_executes op h, he]; rfl) ht

/-- The same, with what the command changed beside registers: `d` of the state before it. -/
theorem cmpWrite_answers {d : State} {ks : List Nat} {o : Host.Outcome State Fault Refusal} (h : CmpIdle s fn c)
    (ho : o = hostWr fn 0x810000 v (cmpCommand fn op c) s)
    (he : cmpExec (cmpOpened s fn op c) (cmpJob s fn op c) = .done w r) (ht : w.threads = s.threads)
    (hd : RegsOnly (cmpStatReg fn :: ks) d { w with cmpJobs := [] }) : answers o d ks (cmpStatReg fn) r.1 r.2 :=
  answers_intro (ho.trans (cmpWrite_completes h he ht)) hd

end

end Sys2Proof.Machine

/-! The statement about composites: CREATE, ADD, DESTROY, EXPORT, READ and REMOVE of local members (R42-R52). -/

namespace Sys2Proof.Machine

/-! ## Checks that pass -/

theorem firstFail_passes {l : List (BitVec 8 × BitVec 8)} (h : ∀ r ∈ l, r.1 = 0) : (firstFail l).1 = 0 := by
  induction l with
  | nil => rfl
  | cons r l ih =>
    obtain ⟨hr, hl⟩ := List.forall_mem_cons.mp h
    rw [firstFail, if_neg (not_not_intro hr)]
    exact ih hl

section
variable {s : State} {fn : Fn} {c : CmpArgs} (op : CmpOp)

/-- A command on an entry its VI owns, and may change under its lock, passes the checks of the entry. -/
theorem entryCheck_passes {lockable : Bool} (ho : ownsEntry s fn c)
    (hl : lockable = true → (compEntry s c.number.toNat).lock = true → isPf fn = true) :
    (entryCheck (cmpOpened s fn op c) (cmpJob s fn op c) true lockable).1 = 0 := by
  obtain ⟨high, live, own⟩ := ho
  have h0 : c.number.toNat ≠ 0 := by omega
  have hlow : ¬ c.number.toNat ≤ 256 := by omega
  have hlock : ¬ (lockable = true ∧ (compEntry s c.number.toNat).lock = true ∧ (!isPf fn) = true) := by
    rintro ⟨a, b, hp⟩
    simp [hl a b] at hp
  unfold entryCheck
  simp only [cmpJob, (cmpOpened_sameUnits op).compEntry, h0, hlow, live, own, hlock, ne_eq, not_true_eq_false, and_false, or_self,
    if_false]

/-- So does a READ of any entry the VI owns, the resource composite's too. -/
theorem entryCheck_read (h0 : c.number.toNat ≠ 0) (live : (compEntry s c.number.toNat).st ≠ 0)
    (own : (compEntry s c.number.toNat).owner = actor fn c.vi) :
    (entryCheck (cmpOpened s fn .read c) (cmpJob s fn .read c) false false).1 = 0 := by
  unfold entryCheck
  simp only [cmpJob, (cmpOpened_sameUnits .read).compEntry, h0, live, own, ne_eq, not_true_eq_false, Bool.false_eq_true, false_and,
    or_self, if_false]

end

/-! ## Members that join (R44-R48) -/

/-- The UD the members would join: of the new composite, or of the one named. -/
def joinTarget (s : State) (j : CmpJob) : Word :=
  match j.op with
  | .create => at_ 1 63 ||| at_ (nextGen (tget s.comps (freeComp s) {}).gen).toNat 48 ||| BitVec.ofNat 64 (freeComp s)
  | _ => compUd s j.number

/-- Members placed there already. -/
def joinHave (s : State) (j : CmpJob) : Nat := match j.op with | .add => placedCount (compEntry s j.number).members | _ => 0

/-- A new composite has no free entry, or its VI has as many as it may. -/
def joinFull (s : State) (j : CmpJob) : Bool :=
  match j.op with
  | .create => decide (compsFree s = 0)
    || (decide (bits (rget s (viReg j.vi 0x38)) 15 0 ≠ 0) && decide (compsOwned s j.vi ≥ bits (rget s (viReg j.vi 0x38)) 15 0))
  | _ => false

/-- Local members that pass the checks join at once; levels and overlaps are checked last. -/
theorem startMembers_applies {s : State} {j : CmpJob} (hc : j.count ≤ 256 ∧ joinHave s j + j.mems.length ≤ 256) (hb : j.bad = false)
    (hm : ∀ m ∈ j.mems, m.remote = false ∧ (reached s m.ud 18).contains (joinTarget s j) = false ∧ (placeCheck s j.vi m).1 = 0)
    (hf : joinFull s j = false) : startMembers s j = .done (applyMembers s j).1 (applyMembers s j).2 := by
  unfold startMembers
  extract_lets n target have_ most full r un
  have count : ¬ (j.count > 256 ∨ have_ + j.mems.length > 256) := by
    have : have_ + j.mems.length ≤ 256 := hc.2
    omega
  have cycle : ¬ j.mems.any (fun m => !m.remote && (reached s m.ud 18).contains target) = true := by
    rw [List.any_eq_true]
    rintro ⟨m, hmem, hx⟩
    have : (reached s m.ud 18).contains target = false := (hm m hmem).2.1
    rw [this, Bool.and_false] at hx
    exact Bool.false_ne_true hx
  have placed : ¬ r.1 ≠ 0 := not_not_intro (firstFail_passes (by
    intro x hx
    obtain ⟨m, hmem, rfl⟩ := List.mem_map.mp hx
    exact (hm m hmem).2.2))
  have room : ¬ full = true := by
    rw [show full = false from hf]
    exact Bool.false_ne_true
  have confirmed : un = [] := by
    have : j.mems.filter (·.remote) = [] := List.filter_eq_nil_iff.mpr fun m hmem => by simp [(hm m hmem).1]
    unfold un
    rw [this]
    rfl
  rw [if_neg count, if_neg (by simp [hb]), if_neg cycle, if_neg placed, if_neg room, if_pos confirmed]

section
variable {s : State} {fn : Fn} {c : CmpArgs} {have_ : Nat} {target : Word}

/-- Well-formed entries of the member buffer break no rule of it (R52). -/
theorem GoodMembers.not_bad (h : GoodMembers s fn c have_ target) (op : CmpOp) : (cmpJob s fn op c).bad = false := by
  have small : Nat.min c.count.toNat 256 = c.count.toNat := Nat.min_eq_left h.count.1
  refine List.any_eq_false.mpr fun x hx => ?_
  obtain ⟨i, hi, rfl⟩ := List.mem_map.mp hx
  rw [small, List.mem_range] at hi
  exact Bool.not_eq_true _ ▸ h.formed i hi

/-- Good members of a command that is opened join at once. -/
theorem GoodMembers.join (op : CmpOp) (h : GoodMembers s fn c have_ target) (ht : joinTarget (cmpOpened s fn op c) (cmpJob s fn op c) = target)
    (hh : joinHave (cmpOpened s fn op c) (cmpJob s fn op c) = have_)
    (hf : joinFull (cmpOpened s fn op c) (cmpJob s fn op c) = false) :
    startMembers (cmpOpened s fn op c) (cmpJob s fn op c)
      = .done (applyMembers (cmpOpened s fn op c) (cmpJob s fn op c)).1 (applyMembers (cmpOpened s fn op c) (cmpJob s fn op c)).2 := by
  refine startMembers_applies ⟨h.count.1, hh ▸ h.count.2⟩ (h.not_bad op) (fun m hm => ?_) hf
  rw [ht, (cmpOpened_sameUnits op).reached, (cmpOpened_sameUnits op).placeCheck]
  exact h.placed m hm

end

/-! ## The table of composites -/

/-- The state with a composite table entry written. -/
def setEntry (s : State) (n : Nat) (x : Composite) : State := { s with comps := tset s.comps n x }

theorem setMembers_eq (s : State) (n : Nat) (ms : List Member) :
    setMembers s n ms = setEntry s n { tget s.comps n {} with members := ms } := rfl

/-- Above the resource composites, an entry is what the table holds. -/
theorem compEntry_table (s : State) {n : Nat} (h : n > 256) : compEntry s n = tget s.comps n {} := by
  unfold compEntry
  exact if_neg (by omega)

section
variable {s : State} {fn : Fn} {c : CmpArgs} {v : Word}

/-- The entry the opened command writes, on the state before it. -/
theorem setEntry_opened (h : s.cmpJobs = []) (op : CmpOp) (n : Nat) (x : Composite) (ks : List Nat) :
    RegsOnly (cmpStatReg fn :: cmpCmdReg fn :: ks) (setEntry s n x) { setEntry (cmpOpened s fn op c) n x with cmpJobs := [] } := by
  obtain ⟨same, others⟩ := cmpOpened_regs (fn := fn) (c := c) op h
  refine ⟨?_, fun k hk => others k fun hm => hk ?_⟩
  · unfold setEntry
    rw [← h]
    rfl
  · simp only [List.mem_cons, List.not_mem_nil, or_false] at hm ⊢
    exact hm.imp_right .inl

theorem setEntry_sameUnits (op : CmpOp) (n : Nat) (x : Composite) : SameUnits (setEntry s n x) (setEntry (cmpOpened s fn op c) n x) :=
  (cmpOpened_sameUnits op).setComps _

/-! ## The commands -/

/-- The composite CREATE makes (R42). -/
def newComposite (s : State) (fn : Fn) (c : CmpArgs) : Composite where
  st := 1
  gen := nextGen (tget s.comps (freeComp s) {}).gen
  owner := actor fn c.vi
  lock := isPf fn && c.lock
  members := namedMembers s fn c

theorem cmpCreate_executes
    (hg : GoodMembers s fn c 0 (at_ 1 63 ||| at_ (nextGen (tget s.comps (freeComp s) {}).gen).toNat 48 ||| BitVec.ofNat 64 (freeComp s)))
    (hfree : compsFree s ≠ 0)
    (hmost : bits (rget s (viReg (actor fn c.vi) 0x38)) 15 0 ≠ 0 →
      compsOwned s (actor fn c.vi) < bits (rget s (viReg (actor fn c.vi) 0x38)) 15 0)
    (hs : (structCheck (setEntry s (freeComp s) (newComposite s fn c)) (freeComp s)).1 = 0) :
    cmpExec (cmpOpened s fn .create c) (cmpJob s fn .create c)
      = .done (rset (setEntry (cmpOpened s fn .create c) (freeComp s) (newComposite s fn c)) (cmpResultReg fn)
          (compUd (setEntry s (freeComp s) (newComposite s fn c)) (freeComp s))) (0, 0) := by
  have same := setEntry_sameUnits (s := s) (fn := fn) (c := c) .create (freeComp s) (newComposite s fn c)
  have most : rget (cmpOpened s fn .create c) (viReg (actor fn c.vi) 0x38) = rget s (viReg (actor fn c.vi) 0x38) :=
    rget_cmpOpened .create (viReg_ne_fnReg _ _ _ (by decide)) (viReg_ne_fnReg _ _ _ (by decide))
  have room : joinFull (cmpOpened s fn .create c) (cmpJob s fn .create c) = false := by
    have hm : ¬ (bits (rget s (viReg (actor fn c.vi) 0x38)) 15 0 ≠ 0
        ∧ bits (rget s (viReg (actor fn c.vi) 0x38)) 15 0 ≤ compsOwned s (actor fn c.vi)) := fun ⟨a, b⟩ => Nat.not_le.mpr (hmost a) b
    have hf : compsFree (cmpOpened s fn .create c) ≠ 0 := hfree
    have ho : compsOwned (cmpOpened s fn .create c) (actor fn c.vi) = compsOwned s (actor fn c.vi) := rfl
    simp only [joinFull, cmpJob, most, hf, ho, decide_false, Bool.false_or, ← Bool.decide_and, decide_eq_false_iff_not]
    exact hm
  have checked : (structCheck (setEntry (cmpOpened s fn .create c) (freeComp s) (newComposite s fn c)) (freeComp s)).1 = 0 := by
    rw [same.structCheck]
    exact hs
  have applied : applyMembers (cmpOpened s fn .create c) (cmpJob s fn .create c)
      = (rset (setEntry (cmpOpened s fn .create c) (freeComp s) (newComposite s fn c)) (cmpResultReg fn)
          (compUd (setEntry s (freeComp s) (newComposite s fn c)) (freeComp s)), (0, 0)) := by
    rw [← same.compUd]
    exact if_neg (not_not_intro checked)
  refine (hg.join .create rfl rfl room).trans ?_
  rw [applied]

variable (h : CmpIdle s fn c)
include h

/-- A command that only writes an entry of the table is complete at once. -/
theorem cmpWrite_setsEntry {op : CmpOp} {n : Nat} {x : Composite} {o : Host.Outcome State Fault Refusal}
    (ho : o = hostWr fn 0x810000 v (cmpCommand fn op c) s)
    (he : cmpExec (cmpOpened s fn op c) (cmpJob s fn op c) = .done (setEntry (cmpOpened s fn op c) n x) (0, 0)) :
    answers o (setEntry s n x) [cmpCmdReg fn] (cmpStatReg fn) 0 0 :=
  cmpWrite_answers h ho he rfl (setEntry_opened h.jobs op n x [])

theorem cmpCreate_answers
    (hg : GoodMembers s fn c 0 (at_ 1 63 ||| at_ (nextGen (tget s.comps (freeComp s) {}).gen).toNat 48 ||| BitVec.ofNat 64 (freeComp s)))
    (hfree : compsFree s ≠ 0)
    (hmost : bits (rget s (viReg (actor fn c.vi) 0x38)) 15 0 ≠ 0 →
      compsOwned s (actor fn c.vi) < bits (rget s (viReg (actor fn c.vi) 0x38)) 15 0)
    (hs : (structCheck (setEntry s (freeComp s) (newComposite s fn c)) (freeComp s)).1 = 0) :
    answers (exec (.cmpCreate fn c) s) (setEntry s (freeComp s) (newComposite s fn c)) [cmpCmdReg fn, cmpResultReg fn] (cmpStatReg fn) 0 0
    ∧ ∃ u, exec (.cmpCreate fn c) s = .next u
      ∧ rget u (cmpResultReg fn) = compUd (setEntry s (freeComp s) (newComposite s fn c)) (freeComp s) := by
  have made := cmpCreate_executes hg hfree hmost hs
  refine ⟨cmpWrite_answers h rfl made rfl ?_, _, cmpWrite_completes h made rfl, ?_⟩
  · exact regsOnly_rset (setEntry_opened h.jobs .create _ _ _) (by simp)
  · have other : cmpResultReg fn ≠ cmpStatReg fn := fnReg_ne fn (by decide)
    rw [rget_statDone_ne _ _ other]
    exact rget_rset_self ..

theorem cmpAdd_answers (ho : ownsEntry s fn c) (hl : (compEntry s c.number.toNat).lock = true → isPf fn = true)
    (hg : GoodMembers s fn c (placedCount (compEntry s c.number.toNat).members) (compUd s c.number.toNat))
    (hs : (structCheck (setMembers s c.number.toNat ((tget s.comps c.number.toNat {}).members ++ namedMembers s fn c)) c.number.toNat).1 = 0) :
    answers (exec (.cmpAdd fn c) s) (setMembers s c.number.toNat ((tget s.comps c.number.toNat {}).members ++ namedMembers s fn c))
      [cmpCmdReg fn] (cmpStatReg fn) 0 0 := by
  have same := cmpOpened_sameUnits (s := s) (fn := fn) (c := c) .add
  have checked : (structCheck (setMembers (cmpOpened s fn .add c) c.number.toNat
      ((tget s.comps c.number.toNat {}).members ++ namedMembers s fn c)) c.number.toNat).1 = 0 := by
    rw [setMembers_eq, (setEntry_sameUnits .add _ _).structCheck]
    exact hs
  have applied : applyMembers (cmpOpened s fn .add c) (cmpJob s fn .add c)
      = (setMembers (cmpOpened s fn .add c) c.number.toNat ((tget s.comps c.number.toNat {}).members ++ namedMembers s fn c), (0, 0)) :=
    if_neg (not_not_intro checked)
  have joined := hg.join .add (same.compUd _) (by rw [← same.compEntry]; rfl) rfl
  refine cmpWrite_setsEntry (op := .add) h rfl ?_
  rw [applied] at joined
  exact (if_neg (not_not_intro (entryCheck_passes .add ho fun _ => hl))).trans joined

theorem cmpDestroy_answers (ho : ownsEntry s fn c) (hl : (compEntry s c.number.toNat).lock = true → isPf fn = true)
    (hst : (compEntry s c.number.toNat).st = 1) (hp : hasParent s c.number.toNat = false)
    (hi : (compEntry s c.number.toNat).imports = []) :
    answers (exec (.cmpDestroy fn c) s) (setEntry s c.number.toNat { gen := (compEntry s c.number.toNat).gen })
      [cmpCmdReg fn] (cmpStatReg fn) 0 0 := by
  have same := cmpOpened_sameUnits (s := s) (fn := fn) (c := c) .destroy
  have busy : ¬ ((compEntry s c.number.toNat).st ≠ 1 ∨ hasParent s c.number.toNat = true ∨ (compEntry s c.number.toNat).imports ≠ []) := by
    simp [hst, hp, hi]
  refine cmpWrite_setsEntry (op := .destroy) h rfl ?_
  refine (if_neg (not_not_intro (entryCheck_passes .destroy ho fun _ => hl))).trans ?_
  rw [← same.compEntry, ← same.hasParent] at busy
  rw [← same.compEntry]
  exact if_neg busy

/-- What EXPORT grants: the importing VI and its device, or nothing (R49). -/
def exportGrant (s : State) (fn : Fn) (c : CmpArgs) : Option (Vi × BitVec 16) :=
  if c.grantEn then some (BitVec.ofNat 8 (bits (rget s (cmpArgReg fn)) 23 16), BitVec.ofNat 16 (bits (rget s (cmpArgReg fn)) 15 0))
  else none

theorem cmpExport_answers (ho : ownsEntry s fn c) (hi : (compEntry s c.number.toNat).imports = []) :
    answers (exec (.cmpExport fn c) s)
      (setEntry s c.number.toNat { tget s.comps c.number.toNat {} with exported := exportGrant s fn c }) [cmpCmdReg fn] (cmpStatReg fn) 0 0 := by
  refine cmpWrite_setsEntry (op := .grant) h rfl ?_
  refine (if_neg (not_not_intro (entryCheck_passes .grant ho (by simp)))).trans ?_
  rw [compEntry_table s ho.1] at hi
  exact if_neg (not_not_intro hi)

theorem cmpRemove_reshapes (ho : ownsEntry s fn c) (hl : (compEntry s c.number.toNat).lock = true → isPf fn = true)
    (hm : (namedMembers s fn c).all (names (tget s.comps c.number.toNat {}).members) = true) :
    exec (.cmpRemove fn c) s = .next (settle (statDone
      { (reshape (setMembers (cmpOpened s fn .remove c) c.number.toNat
          ((tget s.comps c.number.toNat {}).members.filter (fun m => !names (namedMembers s fn c) m))) (actor fn c.vi)).1 with cmpJobs := [] }
      (cmpStatReg fn) (0, 0))) := by
  have found : (namedMembers s fn c).all (fun x => (tget s.comps c.number.toNat {}).members.any (fun m =>
      x.ud == m.ud && x.remote == m.remote && (!m.remote || x.home == m.home))) = true := by
    simp only [List.all_eq_true, names, List.any_eq_true, Bool.and_eq_true, Bool.or_eq_true, Bool.not_eq_true', beq_iff_eq] at hm ⊢
    intro x hx
    obtain ⟨m, hmem, ⟨ud, remote⟩, home⟩ := hm x hx
    exact ⟨m, hmem, ⟨ud.symm, remote.symm⟩, home.imp (remote ▸ ·) Eq.symm⟩
  have removed : removeMembers (cmpOpened s fn .remove c) (cmpJob s fn .remove c)
      = ((reshape (setMembers (cmpOpened s fn .remove c) c.number.toNat
          ((tget s.comps c.number.toNat {}).members.filter (fun m => !names (namedMembers s fn c) m))) (actor fn c.vi)).1, (0, 0)) :=
    if_pos found
  have done : cmpExec (cmpOpened s fn .remove c) (cmpJob s fn .remove c) = .done (removeMembers (cmpOpened s fn .remove c) (cmpJob s fn .remove c)).1
      (removeMembers (cmpOpened s fn .remove c) (cmpJob s fn .remove c)).2 :=
    if_neg (not_not_intro (entryCheck_passes .remove ho fun _ => hl))
  rw [exec_cmpRemove, execCmpRemove, hostWr_settles h.reach, cmpCommand_executes .remove h, done, removed]
  rfl

end

/-! ## READ copies the members to the buffer (R52) -/

/-- Entry `p.2` of the member buffer holds member `p.1`. -/
def copyMember (fn : Fn) (s : State) (p : Member × Nat) : State :=
  rset (rset s (memLoReg fn p.2) p.1.ud) (memHiReg fn p.2) (at_ (b2n p.1.remote) 16 ||| p.1.home.setWidth 64)

theorem rget_copyMember_ne {fn : Fn} {s : State} {p : Member × Nat} {k : Nat} (lo : k ≠ memLoReg fn p.2) (hi : k ≠ memHiReg fn p.2) :
    rget (copyMember fn s p) k = rget s k := (rget_rset_ne _ _ hi).trans (rget_rset_ne _ _ lo)

/-- Copying members leaves the registers that are no entry of theirs. -/
theorem rget_copied_ne {fn : Fn} {k : Nat} (l : List (Member × Nat)) (s : State)
    (hk : ∀ p ∈ l, k ≠ memLoReg fn p.2 ∧ k ≠ memHiReg fn p.2) : rget (l.foldl (copyMember fn) s) k = rget s k := by
  induction l generalizing s with
  | nil => rfl
  | cons p l ih =>
    obtain ⟨⟨lo, hi⟩, hl⟩ := List.forall_mem_cons.mp hk
    exact (ih _ hl).trans (rget_copyMember_ne lo hi)

/-- Every copied member stands in its entry. -/
theorem rget_copied {fn : Fn} (ms : List Member) (k : Nat) (s : State) {i : Nat} {m : Member} (h : ms[i]? = some m) :
    rget ((ms.zipIdx k).foldl (copyMember fn) s) (memLoReg fn (k + i)) = m.ud
    ∧ rget ((ms.zipIdx k).foldl (copyMember fn) s) (memHiReg fn (k + i)) = (at_ (b2n m.remote) 16 ||| m.home.setWidth 64) := by
  induction ms generalizing k s i with
  | nil => cases h
  | cons a ms ih =>
    cases i with
    | zero =>
      obtain rfl : a = m := by simpa using h
      have later (p : Member × Nat) (hp : p ∈ ms.zipIdx (k + 1)) : k ≠ p.2 := by
        have := (List.mem_zipIdx hp).1
        omega
      constructor
      · refine (rget_copied_ne (ms.zipIdx (k + 1)) _ fun p hp => ⟨fnReg_ne fn ?_, fnReg_ne fn (by omega)⟩).trans ?_
        · have := later p hp
          omega
        · exact (rget_rset_ne _ _ (fnReg_ne fn (by omega))).trans (rget_rset_self ..)
      · refine (rget_copied_ne (ms.zipIdx (k + 1)) _ fun p hp => ⟨fnReg_ne fn (by omega), fnReg_ne fn ?_⟩).trans (rget_rset_self ..)
        have := later p hp
        omega
    | succ i =>
      have next := ih (k + 1) (copyMember fn s (a, k)) (i := i) (by simpa using h)
      rwa [Nat.add_right_comm, Nat.add_assoc k i 1] at next

/-- Copying members changes registers only. -/
theorem copied_regs {fn : Fn} (l : List (Member × Nat)) (s : State) : ∃ r, l.foldl (copyMember fn) s = { s with regs := r } := by
  induction l generalizing s with
  | nil => exact ⟨s.regs, rfl⟩
  | cons p l ih =>
    obtain ⟨r, hr⟩ := ih (copyMember fn s p)
    exact ⟨r, hr⟩

/-- What READ leaves before its codes: the members in the buffer, and `RCOUNT`. -/
theorem readMembers_eq (s : State) (fn : Fn) (n : Nat) :
    readMembers s fn n = rset ((((compEntry s n).members.take 256).zipIdx).foldl (copyMember fn) s) (cmpStatReg fn)
      (setBits (rget ((((compEntry s n).members.take 256).zipIdx).foldl (copyMember fn) s) (cmpStatReg fn)) 40 32
        ((compEntry s n).members.take 256).length) := rfl

theorem cmpRead_copies {s : State} {fn : Fn} {c : CmpArgs} (h : CmpIdle s fn c) (h0 : c.number.toNat ≠ 0)
    (live : (compEntry s c.number.toNat).st ≠ 0) (own : (compEntry s c.number.toNat).owner = actor fn c.vi) :
    ∃ u, exec (.cmpRead fn c) s = .next u ∧ u = { s with regs := u.regs } ∧ reports u (cmpStatReg fn) 0 0
      ∧ bits (rget u (cmpStatReg fn)) 40 32 = ((compEntry s c.number.toNat).members.take 256).length
      ∧ ∀ (i : Nat) (m : Member), ((compEntry s c.number.toNat).members.take 256)[i]? = some m →
        rget u (memLoReg fn i) = m.ud ∧ rget u (memHiReg fn i) = (at_ (b2n m.remote) 16 ||| m.home.setWidth 64) := by
  have same := cmpOpened_sameUnits (s := s) (fn := fn) (c := c) .read
  have done : cmpExec (cmpOpened s fn .read c) (cmpJob s fn .read c) = .done (readMembers (cmpOpened s fn .read c) fn c.number.toNat) (0, 0) :=
    if_neg (not_not_intro (entryCheck_read h0 live own))
  rw [readMembers_eq, same.compEntry] at done
  generalize hms : (compEntry s c.number.toNat).members.take 256 = ms at done ⊢
  have few : ms.length < 2 ^ 9 := by
    have := List.length_take_le 256 (compEntry s c.number.toNat).members
    rw [hms] at this
    omega
  obtain ⟨r, hr⟩ := copied_regs (fn := fn) (ms.zipIdx) (cmpOpened s fn .read c)
  refine ⟨_, cmpWrite_completes h done (by rw [hr]; rfl), ?regs, reports_statDone .., ?rcount, fun i m hm => ?entry⟩
  case regs =>
    rw [hr, ← h.jobs]
    rfl
  case rcount =>
    rw [statDone_keeps_field _ _ _ _ _ (.inl (by decide)) (by decide)]
    exact (congrArg (bits · 40 32) (rget_rset_self ..)).trans
      ((bits_setBits_self _ _ _ _ (by decide)).trans (Nat.mod_eq_of_lt few))
  case entry =>
    have copied := rget_copied (fn := fn) ms 0 (cmpOpened s fn .read c) hm
    rw [Nat.zero_add] at copied
    have lo : memLoReg fn i ≠ cmpStatReg fn := fnReg_ne fn (by omega)
    have hi : memHiReg fn i ≠ cmpStatReg fn := fnReg_ne fn (by omega)
    rw [rget_statDone_ne _ _ lo, rget_statDone_ne _ _ hi]
    exact ⟨(rget_rset_ne _ _ lo).trans copied.1, (rget_rset_ne _ _ hi).trans copied.2⟩

/-- Settles O27: each command by its own lemma above. What its checks read is the same before the command is opened, and no other command
waits, so that it is complete at once. -/
theorem compositeCommands : Obligations.CompositeCommands := by
  unfold Obligations.CompositeCommands
  intro s fn c h
  exact ⟨fun hg hfree hmost hs => cmpCreate_answers h hg hfree hmost hs, fun ho hl hg hs => cmpAdd_answers h ho hl hg hs,
    fun ho hl hst hp hi => cmpDestroy_answers h ho hl hst hp hi, fun ho hi => cmpExport_answers h ho hi,
    fun h0 live own => cmpRead_copies h h0 live own,
    fun ho hl hm => ⟨cmpOpened s fn .remove c, cmpJob s fn .remove c, rfl, cmpRemove_reshapes h ho hl hm⟩⟩

end Sys2Proof.Machine

/-! Discarding threads and launches, and reshaping, leave the commands that wait at the composite manager and at the manager of resources. -/

namespace Sys2Proof.Machine

/-! ## Discarding (R55-R57) -/

@[simp] theorem freeBar_jobs (s : State) (n : Nat) : jobs (freeBar s n) = jobs s := rfl

@[simp] theorem setCompSt_jobs (s : State) (n : Nat) (st : BitVec 3) : jobs (setCompSt s n st) = jobs s := rfl

@[simp] theorem dropRecord_jobs (s : State) (th : Thread) : jobs (dropRecord s th) = jobs s := by
  unfold dropRecord
  split <;> rfl

@[simp] theorem discardThread_jobs (s : State) (t : Tid) : jobs (discardThread s t) = jobs s := by
  unfold discardThread
  split
  · rfl
  next th _ =>
    extract_lets u v w x
    have orphaned : jobs v = jobs s := Eq.trans (b := jobs (withdrawSyncs s t)) rfl (withdrawSyncs_jobs ..)
    have abandoned : jobs w = jobs s := ite_jobs ((abandonLocks_jobs ..).trans orphaned) ((abandonLocks_jobs ..).trans orphaned)
    exact Eq.trans (b := jobs (dropRecord x th)) rfl ((dropRecord_jobs ..).trans (ite_jobs abandoned abandoned))

@[simp] theorem discardSaved_jobs (s : State) (x : Saved) : jobs (discardSaved s x) = jobs s := by
  unfold discardSaved
  exact Eq.trans (b := jobs (ite _ _ _)) rfl (ite_jobs (abandonLocks_jobs ..) (abandonLocks_jobs ..))

@[simp] theorem discardLaunchThreads_jobs (s : State) (num : Nat) : jobs (discardLaunchThreads s num) = jobs s :=
  (foldl_jobs discardSaved_jobs ..).trans (foldl_jobs (fun s (p : Nat × Thread) => discardThread_jobs s (tidOf p.1)) ..)

@[simp] theorem launchRecord_jobs (s : State) (l : Launch) (status : BitVec 8) (bytes detail : Nat) (dcode : BitVec 8) :
    jobs (launchRecord s l status bytes detail dcode) = jobs s := by
  unfold launchRecord
  refine (jobs_of_work (complete_work ..)).trans ?_
  split <;> rfl

@[simp] theorem dropLaunch_jobs (s : State) (l : Launch) : jobs (dropLaunch s l) = jobs s := by
  unfold dropLaunch
  extract_lets s1 s2 gone s3 sets s4 s5 n
  have bars : jobs s2 = jobs s := foldl_jobs (fun s (p : Nat × Nat) => freeBar_jobs s p.2) ..
  have waiting : jobs s3 = jobs s := (foldl_jobs (fun s (w : WaitSet) => jobs_of_work (spillFree_work s w.vi w.loc)) ..).trans bars
  have spilled : jobs s4 = jobs s := by
    refine (foldl_jobs (fun s (p : Nat × AccLoc) => ?_) ..).trans waiting
    split <;> rfl
  exact ite_jobs spilled spilled

@[simp] theorem abortLaunch_jobs (s : State) (l : Launch) (dcode : BitVec 8) : jobs (abortLaunch s l dcode) = jobs s := by
  unfold abortLaunch
  rw [dropLaunch_jobs, launchRecord_jobs, discardLaunchThreads_jobs]

/-! ## A unit reset acts on a VI (R55, R56) -/

@[simp] theorem abortMeeting_jobs (s : State) (vi : Vi) (leaves : List Word) : jobs (abortMeeting s vi leaves).1 = jobs s := by
  refine foldl_jobs (fun s (l : Launch) => ?_) ..
  split
  · exact abortLaunch_jobs ..
  · rfl

@[simp] theorem resetHandlers_jobs (s : State) (vi : Vi) (fs : List Nat) : jobs (resetHandlers s vi fs).1 = jobs s := by
  unfold resetHandlers
  extract_lets ts here s1 s2
  have threads : jobs s1 = jobs s := by
    refine foldl_jobs (fun s (p : Nat × Thread) => (discardThread_jobs ..).trans ?_) ..
    split
    · exact jobs_of_work (retireEvent_work ..)
    · rfl
  refine (foldl_jobs (fun s (p : Nat × AccLoc) => ?_) ..).trans threads
  split <;> rfl

@[simp] theorem resetOn_jobs (s : State) (vi : Vi) (leaves : List Word) : jobs (resetOn s vi leaves).1 = jobs s :=
  (resetHandlers_jobs ..).trans (abortMeeting_jobs ..)

/-! ## Reshaping (R65-R70) -/

@[simp] theorem beginSave_jobs (s : State) (t : Tid) (reason : BitVec 8) : jobs (beginSave s t reason) = jobs s := by
  unfold beginSave
  split
  · rfl
  · split
    case h_3 => split <;> rfl
    all_goals rfl

@[simp] theorem mergeWaiting_jobs (s : State) (launch : Nat) : jobs (mergeWaiting s launch) = jobs s := by
  have merge (s : State) (w : WaitSet) (f : BitVec 10) : jobs (mergeSet s w f) = jobs s := by
    have loaded := (accUse_jobs (setLoad s w.vi w.loc).1 w.vi w.launch f).trans (setLoad_jobs ..)
    unfold mergeSet
    generalize setLoad s w.vi w.loc = p at loaded ⊢
    obtain ⟨u, b⟩ := p
    generalize hq : accUse u w.vi w.launch f = q at loaded
    obtain ⟨v, a⟩ := q
    simp only [hq]
    exact loaded
  refine foldl_jobs (fun s (w : WaitSet) => ?_) ..
  split
  · exact merge ..
  · rfl

@[simp] theorem leaveFacet_jobs (s : State) (num : Nat) (f : BitVec 10) : jobs (leaveFacet s num f) = jobs s := by
  unfold leaveFacet
  split
  · rfl
  · refine ite_jobs rfl ?_
    extract_lets key s1 mine low s2 s3 s4
    have written : jobs s2 = jobs s := by
      unfold s2
      split <;> exact writeOut_jobs ..
    exact (mergeWaiting_jobs ..).trans written

@[simp] theorem leaveOne_jobs (s : State) (num f : Nat) : jobs (leaveOne s num f).1 = jobs s :=
  (leaveFacet_jobs ..).trans (foldl_jobs (fun s k => beginSave_jobs s (tidOf k) 1) ..)

@[simp] theorem reshapeLaunch_jobs (s : State) (l : Launch) : jobs (reshapeLaunch s l).1 = jobs s := by
  unfold reshapeLaunch
  split
  · rfl
  · dsimp only
    have moved := foldl_fst_jobs (f := fun (a : State × Nat) f => ((leaveOne a.1 l.num f).1, a.2 + (leaveOne a.1 l.num f).2))
      (fun a f => leaveOne_jobs a.1 l.num f) ((launchFacets s l.num).filter (fun f => outside s l (BitVec.ofNat 10 f))) (s, 0)
    split <;> exact moved

@[simp] theorem reshapeHandlers_jobs (s : State) (vi : Vi) : jobs (reshapeHandlers s vi).1 = jobs s :=
  foldl_jobs (fun s (p : Nat × Thread) => beginSave_jobs s (tidOf p.1) 1) ..

@[simp] theorem reshape_jobs (s : State) (vi : Vi) : jobs (reshape s vi).1 = jobs s := by
  refine (reshapeHandlers_jobs ..).trans (foldl_fst_jobs (fun p l => ?_) ..)
  exact reshapeLaunch_jobs p.1 l

end Sys2Proof.Machine

/-! The statement about units: RESET of a physical unit, confirmations of remote members, the end of reshaping, and the closure counter
(R49, R53-R59, R70). -/

namespace Sys2Proof.Machine

/-! ## RESET of a physical unit (R54-R58) -/

/-- A started command is BUSY. -/
theorem bits_busy (w : Word) : bits (w ||| 1) 0 0 = 1 := by simp [bits]

section
variable {s : State} {fn : Fn} {c : CmpArgs}

/-- A physical unit's reset acts on its VI and waits for the unit. -/
theorem resetUnit_waits {w : State} {j : CmpJob} (hj : w.cmpJobs = [j]) (hc : isComp j.arg = false) (h0 : j.vi ≠ 0) (h128 : j.vi ≠ 128)
    (hr : (resolveDeep w j.arg 17).1 = 0) :
    resetUnit w j = .wait { (resetOn w j.vi (physLeaves w j.arg 18)).1 with cmpJobs := [{ j with started := true }] } := by
  have kept : (resetOn w j.vi (physLeaves w j.arg 18)).1.cmpJobs = [j] := (cmpJobs_of_jobs (resetOn_jobs ..)).trans hj
  unfold resetUnit
  simp only [hr, hc, h0, h128, ne_eq, not_true_eq_false, Bool.false_eq_true, false_and, and_false, or_self, if_false, kept]

theorem cmpReset_starts (h : CmpIdle s fn c) (hc : isComp (rget s (cmpArgReg fn)) = false) (h0 : actor fn c.vi ≠ 0)
    (h128 : actor fn c.vi ≠ 128) (hr : (resolveDeep s (rget s (cmpArgReg fn)) 17).1 = 0) :
    exec (.cmpReset fn c) s = .next (settle
      { (resetOn (cmpOpened s fn .reset c) (actor fn c.vi) (physLeaves (cmpOpened s fn .reset c) (rget s (cmpArgReg fn)) 18)).1 with
        cmpJobs := [{ cmpJob s fn .reset c with started := true }] }) := by
  have waits := resetUnit_waits (w := cmpOpened s fn .reset c) (j := cmpJob s fn .reset c) rfl hc h0 h128
    (by rw [(cmpOpened_sameUnits .reset).resolveDeep]; exact hr)
  have done : cmpExec (cmpOpened s fn .reset c) (cmpJob s fn .reset c) = resetUnit (cmpOpened s fn .reset c) (cmpJob s fn .reset c) := rfl
  rw [exec_cmpReset, execCmpReset, hostWr_settles h.reach, cmpCommand_executes .reset h, done, waits]
  rfl

end

/-! ## The command that waits (R49, R58) -/

section
variable {s : State} {j : CmpJob}

/-- The only command that waits is complete. -/
theorem cmpFinish_only (hj : s.cmpJobs = [j]) (r : BitVec 8 × BitVec 8) :
    cmpFinish s j r = statDone { s with cmpJobs := [] } (cmpStatReg j.fn) r := by
  simp only [cmpFinish, hj, List.drop_succ_cons, List.drop_zero, List.length_nil, cmpRun]

variable (hj : s.cmpJobs = [j]) (hs : j.started = true)
include hj hs

theorem unitResetComplete_answers (hset : Settled s) (hop : j.op = .reset) :
    answers (exec .unitResetComplete s)
      { (if isComp j.arg = true ∧ (resolveUd s j.arg).1 = 0 ∧ (compEntry s (compNum j.arg)).st = 4
          then setCompSt s (compNum j.arg) (if launchOn s (compNum j.arg) then 2 else 1) else s) with cmpJobs := [] }
      [] (cmpStatReg j.fn) 0 0 := by
  generalize hu : (if isComp j.arg = true ∧ (resolveUd s j.arg).1 = 0 ∧ (compEntry s (compNum j.arg)).st = 4
    then setCompSt s (compNum j.arg) (if launchOn s (compNum j.arg) then 2 else 1) else s) = u
  have waiting : u.cmpJobs = [j] := by
    rw [← hu, ← hj]
    split <;> rfl
  have slots : u.threads = s.threads := by
    rw [← hu]
    split <;> rfl
  refine answers_intro (u := { u with cmpJobs := [] }) (r := (0, 0)) ?_ (.refl ..)
  simp only [exec_unitResetComplete, execUnitResetComplete, hj, hs, hop, beq_self_eq_true, Bool.and_self, if_true, hu, cmpFinish_only waiting]
  exact congrArg _ (settle_same hset slots)

theorem compositeConfirm_refused (hset : Settled s) {home : BitVec 16} {ud : Word} {leaves : List (Word × Nat)} {level : Nat}
    (hu : (home, ud) ∈ j.unconf) :
    answers (exec (.compositeConfirm (.answer home ud false leaves level)) s) { s with cmpJobs := [] } [] (cmpStatReg j.fn) 5 0x87 := by
  refine answers_intro (u := { s with cmpJobs := [] }) (r := (0x05, 0x87)) ?_ (.refl ..)
  have waits : ¬ ((!j.started) = true ∨ (!j.unconf.contains (home, ud)) = true) := by simp [hs, hu]
  simp only [exec_compositeConfirm, execCompositeConfirm, hj, waits, if_false, Bool.not_false, if_true, cmpFinish_only hj]
  exact congrArg _ (settle_same hset rfl)

theorem compositeConfirm_taken {home : BitVec 16} {ud : Word} {leaves : List (Word × Nat)} {level : Nat} (hu : (home, ud) ∈ j.unconf)
    (more : j.unconf.filter (fun x => x != (home, ud)) ≠ []) :
    exec (.compositeConfirm (.answer home ud true leaves level)) s = .next { s with cmpJobs := [{ j with
      mems := j.mems.map (fun m => if m.remote ∧ m.home = home ∧ m.ud = ud then { m with leaves := leaves, level := level } else m),
      unconf := j.unconf.filter (fun x => x != (home, ud)) }] } := by
  have waits : ¬ ((!j.started) = true ∨ (!j.unconf.contains (home, ud)) = true) := by simp [hs, hu]
  simp only [exec_compositeConfirm, execCompositeConfirm, hj, waits, if_false, Bool.not_true, Bool.false_eq_true]
  exact if_pos more

end

theorem compositeConfirm_home {s : State} {dev : BitVec 16} {vi : Vi} {ud : Word} {others : List Word}
    (h : homeConfirms s dev vi ud others = true) :
    exec (.compositeConfirm (.ask dev vi ud others)) s = .next { s with comps := tset s.comps (compNum ud) { tget s.comps (compNum ud) {} with
      imports := (compEntry s (compNum ud)).imports ++ [dev] } } := by
  simp only [exec_compositeConfirm, execCompositeConfirm, h, if_true]

/-! ## The end of reshaping (R53, R70) -/

theorem reshapedComp_returns {s : State} {n : Nat} (hst : (compEntry s n).st = 3)
    (hm : s.launches.all (fun l => !(isComp l.d.target && compNum l.d.target == n) || movesDone s l) = true) :
    reshapedComp s n = setCompSt s n (if launchOn s n then 2 else 1) := by
  have moved : (s.launches.filter (fun l => isComp l.d.target && compNum l.d.target == n)).all (movesDone s) = true := by
    rw [List.all_filter]
    exact hm
  have empty : (s.launches.filter (fun l => isComp l.d.target && compNum l.d.target == n)).isEmpty = !launchOn s n := by
    rw [Bool.eq_iff_iff, List.isEmpty_iff, List.filter_eq_nil_iff, Bool.not_eq_true', launchOn, List.any_eq_false]
  unfold reshapedComp
  simp only [hst, moved, empty, if_true]
  cases launchOn s n <;> rfl

theorem reshapingComplete_returns {s : State} {n : BitVec 16} (hst : (compEntry s n.toNat).st = 3) (hr : s.resJobs = []) (hs : Settled s)
    (hm : s.launches.all (fun l => !(isComp l.d.target && compNum l.d.target == n.toNat) || movesDone s l) = true) :
    exec (.reshapingComplete (.comp n)) s = .next (setCompSt s n.toNat (if launchOn s n.toNat then 2 else 1)) := by
  have none : resTakeDone (setCompSt s n.toNat (if launchOn s n.toNat then 2 else 1))
      = setCompSt s n.toNat (if launchOn s n.toNat then 2 else 1) := by
    unfold resTakeDone
    rw [show (setCompSt s n.toNat (if launchOn s n.toNat then 2 else 1)).resJobs = [] from hr]
  simp only [exec_reshapingComplete, execReshapingComplete, reshapedComp_returns hst hm, none]
  exact congrArg _ (settle_same hs rfl)

/-! ## The closure counter (R59) -/

theorem untCntvalRead_answers {s : State} {fn : Fn} {part : BitVec 3} {w : AccW} (h : HostReaches s fn (0x800020 + part.toNat))
    (hw : 4 ≤ accWidth w) (ha : part.toNat % accWidth w = 0) :
    exec (.untCntvalRead ⟨fn, part, w⟩) s = .next (nextFree (answerHost s
      ((toBytes 8 (cntVal s (isPf fn) fn (untSel s fn) (untCntSel s fn)).toNat).drop part.toNat |>.take (accWidth w)) false)) := by
  have hp : part.toNat < 8 := part.isLt
  have whole : (0x800020 + part.toNat) / 8 * 8 = 0x800020 := by omega
  have half : (0x800020 + part.toNat) % 8 = part.toNat := by omega
  have good : ¬ (accWidth w < 4 ∨ (0x800020 + part.toNat) % accWidth w ≠ 0) := by
    cases w <;> simp only [accWidth] at hw ha ⊢ <;> omega
  have register : regRead s fn 0x800020 = cntVal s (isPf fn) fn (untSel s fn) (untCntSel s fn) := by
    simp [regRead, untRd]
  rw [exec_untCntvalRead]
  unfold execUntCntvalRead hostRd
  simp only [h.gate, stopEntry_awake h.awake, regAnswer, good, if_false, whole, half, register]

/-- Settles O28: each event by its own lemma above. What a unit reset does to launches and handler threads leaves the command that waits, and
with no other behind it the next completion ends it. -/
theorem unitsAndConfirmations : Obligations.UnitsAndConfirmations := by
  unfold Obligations.UnitsAndConfirmations
  intro s fn
  refine ⟨?reset, fun j hj hs hset => ⟨fun hop => unitResetComplete_answers hj hs hset hop,
      fun home ud leaves level hu => ⟨compositeConfirm_refused hj hs hset hu, compositeConfirm_taken hj hs hu⟩⟩,
    fun dev vi ud others => compositeConfirm_home, fun n hst hr hs hm => reshapingComplete_returns hst hr hs hm,
    fun part w h hw ha => untCntvalRead_answers h hw ha⟩
  case reset =>
    intro c h vi ud hc h0 h128 hr
    have busy : bits (rget (cmpOpened s fn .reset c) (cmpStatReg fn)) 0 0 = 1 :=
      (congrArg (bits · 0 0) (rget_rset_self ..)).trans (bits_busy _)
    exact ⟨cmpOpened s fn .reset c, cmpJob s fn .reset c, rfl, rfl, rfl, rfl, rfl, busy, cmpReset_starts h hc h0 h128 hr⟩

end Sys2Proof.Machine

/-! The statement about resource commands of a PF: GIVE, SHARE, RESHARE, the sync groups, READ and TAKE (R65-R70, R263-R268). -/

namespace Sys2Proof.Machine

/-- More registers may have changed. -/
theorem RegsOnly.mono {ks ls : List Nat} {w u : State} (h : RegsOnly ks w u) (hs : ks ⊆ ls) : RegsOnly ls w u :=
  ⟨h.1, fun n hn => h.2 n (mt (@hs n) hn)⟩

/-! ## A resource command (R268) -/

/-- The command as it waits at the manager of resources. -/
def resJob (fn : Fn) (vi : Vi) (op : ResOp) (r : ResSel) : ResJob where
  vi := vi
  pf := isPf fn
  op := op
  cluster := r.cluster.toNat
  group := r.group.toNat

/-- The state in which the manager executes it: `VI_RES_CMD` holds it, and BUSY is 1. -/
def resOpened (s : State) (fn : Fn) (vi : Vi) (op : ResOp) (r : ResSel) : State :=
  statStart { rset s (viReg vi 0x20) (resWord op r) with resJobs := [resJob fn vi op r] } (resStatReg vi)

/-- The sharers moved of the command at the head. -/
def headSaved (w : State) : Nat := (w.resJobs.head?.map (·.saved)).getD 0

/-- What becomes of a command: complete with codes, or waiting. -/
def resSettled (j : ResJob) : ResRes → State
  | .done w x ch => resFinish { w with resJobs := [] } { j with saved := headSaved w } x ch
  | .wait w => w

section
variable {s : State} {fn : Fn} {vi : Vi} {r : ResSel} (op : ResOp)

/-- Opening the command writes `VI_RES_CMD` and its status register alone. -/
theorem rget_resOpened {n : Nat} (hs : n ≠ resStatReg vi) (hc : n ≠ viReg vi 0x20) : rget (resOpened s fn vi op r) n = rget s n :=
  (rget_rset_ne _ _ hs).trans (rget_rset_ne s _ hc)

theorem rget_resOpened_vi {o : Nat} (hs : o ≠ 0x30) (hc : o ≠ 0x20) : rget (resOpened s fn vi op r) (viReg vi o) = rget s (viReg vi o) :=
  rget_resOpened op (viReg_ne vi hs) (viReg_ne vi hc)

theorem resOpened_regs (h : s.resJobs = []) :
    RegsOnly [viReg vi 0x20, resStatReg vi] s { resOpened s fn vi op r with resJobs := [] } := by
  refine ⟨?same, fun n hn => ?other⟩
  case same =>
    rw [← h]
    rfl
  case other =>
    simp only [List.mem_cons, List.not_mem_nil, or_false, not_or] at hn
    exact rget_resOpened op hn.2 hn.1

/-- The manager executes the only command that waits. -/
theorem resRun_one {w : State} {j : ResJob} (h : w.resJobs = [j]) (hs : j.started = false) : resRun w 1 = resSettled j (resExec w j) := by
  simp only [resRun, h, hs, Bool.false_eq_true, if_false]
  cases resExec w j <;> rfl

/-- With no command before it, the manager executes the command at once. -/
theorem resCommand_executes (h : ResIdle s fn vi) :
    resCommand fn vi op r s = resSettled (resJob fn vi op r) (resExec (resOpened s fn vi op r) (resJob fn vi op r)) := by
  unfold resCommand
  simp only [h.free, rset_resJobs, h.jobs, List.nil_append, Bool.false_eq_true, if_false]
  exact resRun_one (w := resOpened s fn vi op r) (j := resJob fn vi op r) rfl rfl

/-- An operation on what a VI holds, past the checks of the VI. -/
def resChange (w : State) (vi : Vi) (r : ResSel) : ResOp → ResRes
  | .give => resGive w vi r.cluster.toNat
  | .share => resShare w vi r.cluster.toNat
  | .take => resTake w vi r.cluster.toNat
  | .reshare => resReshare w vi r.cluster.toNat
  | .giveGroup => resGiveGroup w vi r.group.toNat
  | .takeGroup => resTakeGroup w vi r.group.toNat
  | .read => .done w (0, 0) false

/-- What a PF commands of a VI that works passes the checks of the VI. -/
theorem resExec_works (h : ResIdle s fn vi) (hop : op ≠ .read) :
    resExec (resOpened s fn vi op r) (resJob fn vi op r) = resChange (resOpened s fn vi op r) vi r op := by
  have pf : ¬ (!(resJob fn vi op r).pf) = true := by simp [resJob, h.pf]
  have moving : ¬ ((getInst s vi).st = 3 ∨ (getInst s vi).st = 4) := by
    rcases h.works with w | w <;> rw [w] <;> decide
  have off : ¬ (getInst s vi).st = 0 := by
    rcases h.works with w | w <;> rw [w] <;> decide
  cases op
  case read => exact absurd rfl hop
  all_goals exact (if_neg pf).trans ((if_neg moving).trans (if_neg off))

variable {op}

/-- The opened command with clusters and sync groups changed, on the state before it. -/
theorem resOpened_holds (h : s.resJobs = []) (op : ResOp) (a : Tab CluHold) (b : Tab Vi) :
    RegsOnly [viReg vi 0x20, resStatReg vi] { s with clu := a, grp := b }
      { resOpened s fn vi op r with clu := a, grp := b, resJobs := [] } := by
  obtain ⟨same, others⟩ := resOpened_regs (fn := fn) (vi := vi) (r := r) op h
  refine ⟨?_, others⟩
  rw [← h]
  rfl

theorem rget_resOpened_cmd : rget (resOpened s fn vi op r) (viReg vi 0x20) = resWord op r :=
  (rget_rset_ne _ _ (viReg_ne vi (by decide))).trans (rget_rset_self ..)

/-- Completion reports the codes, and a change posts the event of what the registers hold (R280). -/
theorem resFinish_reports (w : State) (j : ResJob) (x : BitVec 8 × BitVec 8) : ∃ q, RegsOnly [resStatReg j.vi] w q
    ∧ reports q (resStatReg j.vi) x.1 x.2 ∧ ∀ changed, resFinish w j x changed
      = if changed then postEvent q j.vi (resourceEvent (rget q (viReg j.vi 0x20)) (resArg q j.vi) j.saved) else q := by
  refine ⟨_, regsOnly_statDone ?_ (List.mem_singleton_self _), reports_statDone .., fun _ => rfl⟩
  split
  · exact regsOnly_rset (.refl ..) (List.mem_singleton_self _)
  · exact .refl ..

/-- A change of clusters or sync groups is complete at once, with its RESOURCE event. -/
theorem resWrite_changes {a : Tab CluHold} {b : Tab Vi} {o : Host.Outcome State Fault Refusal} (h : ResIdle s fn vi) (hop : op ≠ .read)
    (ho : o = hostVi fn vi 0x20 (resWord op r) (resCommand fn vi op r) s)
    (he : resChange (resOpened s fn vi op r) vi r op = .done { resOpened s fn vi op r with clu := a, grp := b } (0, 0) true) :
    changesRes o { s with clu := a, grp := b } vi (resWord op r) := by
  have done := (resCommand_executes op h).trans (congrArg (resSettled (resJob fn vi op r)) ((resExec_works op h hop).trans he))
  obtain ⟨q, hq, codes, finished⟩ := resFinish_reports { resOpened s fn vi op r with clu := a, grp := b, resJobs := [] }
    { resJob fn vi op r with saved := 0 } (0, 0)
  have other {k : Nat} (hk : k ≠ 0x30) : viReg vi k ∉ [resStatReg vi] := mt List.mem_singleton.mp (viReg_ne vi hk)
  have cmd : rget q (viReg vi 0x20) = resWord op r := (hq.2 _ (other (by decide))).trans rget_resOpened_cmd
  have arg : resArg q vi = resArg { s with clu := a, grp := b } vi :=
    (hq.2 _ (other (by decide))).trans (rget_resOpened_vi op (by decide) (by decide))
  obtain ⟨same, others⟩ := (resOpened_holds h.jobs op a b).trans (hq.mono (List.subset_cons_self ..))
  refine ⟨q, same, others, cmd, codes, ?_⟩
  rw [ho, hostVi_settles h.reach, done, ← cmd, ← arg]
  exact congrArg (fun w => Host.Outcome.next (settle w)) (finished true)

/-! ## What the checks of the operations read -/

theorem spillShort_opened : spillShort (resOpened s fn vi op r) vi = spillShort s vi := by
  have dev : rget (resOpened s fn vi op r) (viReg vi 0x220) = rget s (viReg vi 0x220) := rget_resOpened_vi op (by decide) (by decide)
  have host : rget (resOpened s fn vi op r) (viReg vi 0x228) = rget s (viReg vi 0x228) := rget_resOpened_vi op (by decide) (by decide)
  have held : cluCount (resOpened s fn vi op r) vi = cluCount s vi := rfl
  have capacity : spillCapacity (resOpened s fn vi op r) vi = spillCapacity s vi := by
    simp only [spillCapacity, spillDevRun, spillHostEntries, dev, host]
  unfold spillShort
  rw [capacity, held]

theorem argSharer_opened : argSharer (resOpened s fn vi op r) vi = argSharer s vi := by
  have arg : rget (resOpened s fn vi op r) (viReg vi 0x28) = rget s (viReg vi 0x28) := rget_resOpened_vi op (by decide) (by decide)
  simp only [argSharer, resArg, arg]

theorem storeUsed_opened (f : BitVec 10) : storeUsed (resOpened s fn vi op r) vi f = storeUsed s vi f := by
  have cfg : rget (resOpened s fn vi op r) (viReg vi 0x80) = rget s (viReg vi 0x80) := rget_resOpened_vi op (by decide) (by decide)
  unfold storeUsed
  rw [cfg]
  rfl

theorem resOpened_sameUnits : SameUnits s (resOpened s fn vi op r) :=
  ⟨rfl, rfl, rfl, rget_resOpened op (viReg_ne_devReg vi _ (by decide)) (viReg_ne_devReg vi _ (by decide))⟩

/-! ## The commands -/

variable (h : ResIdle s fn vi)
include h

theorem give_changes (hc : getClu s r.cluster.toNat = .none) (hs : spillShort s vi = false) :
    changesRes (exec (.give fn vi r) s) (setClu s r.cluster.toNat (.dedicated vi)) vi (resWord .give r) := by
  have free : getClu (resOpened s fn vi .give r) r.cluster.toNat = .none := hc
  refine resWrite_changes (op := .give) h (by decide) rfl ?_
  simp only [resChange, resGive, free, spillShort_opened, hs, Bool.false_eq_true, if_false]
  rfl

/-- A sharer that fits joins the sharers `l` of a cluster. -/
theorem share_joins {l : List Sharer} (hh : holdOf (getClu s r.cluster.toNat) vi = none)
    (hc : getClu s r.cluster.toNat = .none ∧ l = [] ∨ getClu s r.cluster.toNat = .shared l) (hl : l.length < 4)
    (hs : spillShort s vi = false) (hb : badSharer (argSharer s vi) = false) (hf : overLimit (l ++ [argSharer s vi]) = false) :
    changesRes (exec (.share fn vi r) s) (setClu s r.cluster.toNat (.shared (l ++ [argSharer s vi]))) vi (resWord .share r) := by
  have same : getClu (resOpened s fn vi .share r) r.cluster.toNat = getClu s r.cluster.toNat := rfl
  have room : ¬ l.length ≥ 4 := by omega
  refine resWrite_changes (op := .share) h (by decide) rfl ?_
  rcases hc with ⟨hc, rfl⟩ | hc
  all_goals
    rw [hc] at hh
    simp only [resChange, resShare, argSharer_opened, hb, same, hc, hh, room, hf, spillShort_opened, hs, Option.isSome_none, Bool.false_eq_true,
      if_false]
    rfl

/-- New figures of a sharer replace its old ones. -/
theorem reshare_replaces {l : List Sharer}
    (hc : getClu s r.cluster.toNat = .dedicated vi ∧ l = [argSharer s vi]
      ∨ ∃ k, getClu s r.cluster.toNat = .shared k ∧ k.any (fun y => y.vi == vi) = true
        ∧ l = k.map (fun y => if y.vi = vi then argSharer s vi else y))
    (hq : (facetsOfClu r.cluster.toNat).any (fun f => decide (slotsUsedBy s vi f > (argSharer s vi).slots)
      || decide (storeUsed s vi f > (argSharer s vi).store)) = false)
    (hb : badSharer (argSharer s vi) = false) (hf : overLimit l = false) :
    changesRes (exec (.reshare fn vi r) s) (setClu s r.cluster.toNat (.shared l)) vi (resWord .reshare r) := by
  have same : getClu (resOpened s fn vi .reshare r) r.cluster.toNat = getClu s r.cluster.toNat := rfl
  have slots (f : BitVec 10) : slotsUsedBy (resOpened s fn vi .reshare r) vi f = slotsUsedBy s vi f := rfl
  refine resWrite_changes (op := .reshare) h (by decide) rfl ?_
  rcases hc with ⟨hc, rfl⟩ | ⟨k, hc, mine, rfl⟩
  · simp only [resChange, resReshare, argSharer_opened, hb, same, hc, slots, storeUsed_opened, hq, hf, Bool.false_eq_true, if_false, if_true]
    rfl
  · simp only [resChange, resReshare, argSharer_opened, hb, same, hc, mine, slots, storeUsed_opened, hq, hf, Bool.false_eq_true, if_false, if_true]
    rfl

theorem giveGroup_changes (hg : tget? s.grp r.group.toNat = none) :
    changesRes (exec (.giveGroup fn vi r) s) { s with grp := tset s.grp r.group.toNat vi } vi (resWord .giveGroup r) := by
  have free : tget? (resOpened s fn vi .giveGroup r).grp r.group.toNat = none := hg
  refine resWrite_changes (op := .giveGroup) h (by decide) rfl ?_
  simp only [resChange, resGiveGroup, free, Option.isSome_none, Bool.false_eq_true, if_false]
  rfl

theorem takeGroup_changes (hg : tget? s.grp r.group.toNat = some vi)
    (hu : (objsOfGroup r.group.toNat).all (fun n => (getSyn s n).st == 0) = true) :
    changesRes (exec (.takeGroup fn vi r) s) { s with grp := tdel s.grp r.group.toNat } vi (resWord .takeGroup r) := by
  have mine : tget? (resOpened s fn vi .takeGroup r).grp r.group.toNat = some vi := hg
  have unset : (objsOfGroup r.group.toNat).any (fun n => (getSyn (resOpened s fn vi .takeGroup r) n).st != 0) = false := by
    rw [List.any_eq_false]
    intro n hn
    have same : getSyn (resOpened s fn vi .takeGroup r) n = getSyn s n := rfl
    simpa [same] using List.all_eq_true.mp hu n hn
  refine resWrite_changes (op := .takeGroup) h (by decide) rfl ?_
  simp only [resChange, resTakeGroup, mine, unset, ne_eq, not_true_eq_false, Bool.false_eq_true, if_false]
  rfl

/-- What READ leaves: the report in `VI_RES_ARG`. -/
theorem resRead_reports : exec (.resRead fn vi r) s = .next (statDone
      (rset { resOpened s fn vi .read r with resJobs := [] } (viReg vi 0x28) (resReport s vi r.cluster.toNat r.group.toNat)) (resStatReg vi) (0, 0)) :=
  hostVi_ok h.reach (resCommand_executes .read h) rfl

theorem resRead_answers : answers (exec (.resRead fn vi r) s) s [viReg vi 0x20, viReg vi 0x28] (resStatReg vi) 0 0 := by
  refine answers_intro (resRead_reports h) (regsOnly_rset ((resOpened_regs .read h.jobs).mono ?_) (by simp))
  simp

omit h in
/-- TAKE of a held cluster: it is dropped, the unit is lost, and the command waits where the reshaping is not complete (R65-R70). -/
theorem resTake_reshapes {w : State} {j : ResJob} {n : Nat} (hj : w.resJobs = [j]) (hh : (holdOf (getClu w n) vi).isSome = true) :
    let a := reshape (loseUnit (setClu w n (dropHold (getClu w n) vi)) vi (clusterUd w n)) vi
    let u : State := { a.1 with resJobs := [{ j with started := true, saved := a.2 }] }
    resTake w vi n = if takeDone u vi then .done u (0, 0) true else .wait u := by
  intro a u
  have kept : a.1.resJobs = [j] := (resJobs_of_jobs (reshape_jobs ..)).trans hj
  have held : ¬ (holdOf (getClu w n) vi).isNone = true := by simp [Option.isSome_iff_ne_none.mp hh]
  have unit : clusterUd (setClu w n (dropHold (getClu w n) vi)) n = clusterUd w n := rfl
  unfold resTake
  simp only [held, unit]
  change (match a.1.resJobs with | [] => _ | h :: r => _) = _
  rw [kept]

theorem take_reshapes (hh : (holdOf (getClu s r.cluster.toNat) vi).isSome = true) :
    let a := reshape (loseUnit (setClu (resOpened s fn vi .take r) r.cluster.toNat (dropHold (getClu s r.cluster.toNat) vi)) vi
      (clusterUd s r.cluster.toNat)) vi
    let w : State := { a.1 with resJobs := [{ resJob fn vi .take r with started := true, saved := a.2 }] }
    exec (.take fn vi r) s = .next (settle (if takeDone w vi
      then resFinish { w with resJobs := [] } { resJob fn vi .take r with saved := a.2 } (0, 0) true else w)) := by
  intro a w
  have taken := resTake_reshapes (vi := vi) (w := resOpened s fn vi .take r) (j := resJob fn vi .take r) (n := r.cluster.toNat) rfl hh
  rw [resOpened_sameUnits.clusterUd] at taken
  have done := (resCommand_executes .take h).trans (congrArg (resSettled _) ((resExec_works .take h (by decide)).trans taken))
  have settled := (apply_ite (resSettled (resJob fn vi .take r)) (takeDone w vi = true)
    (.done w (0, 0) true) (.wait w))
  exact (hostVi_settles h.reach).trans (congrArg (fun u => Host.Outcome.next (settle u)) (done.trans settled))

end

/-- Settles O33: each operation changes the holdings by its own lemma above, and completion posts the event. -/
theorem resourceCommands : Obligations.ResourceCommands := by
  unfold Obligations.ResourceCommands
  intro s fn vi r h c g x join fits quiet
  refine ⟨give_changes h, fun hc hs hf => ?alone, fun l hc hh hl hs hf => ?joins, fun l hc mine hq hf => ?replaced, fun hc hq hf => ?opened,
    giveGroup_changes h, takeGroup_changes h, ⟨resRead_answers h, _, resRead_reports h, ?report⟩,
    fun hh => ⟨resOpened s fn vi .take r, resJob fn vi .take r, rfl, rfl, rfl, take_reshapes h hh⟩⟩
  case alone => exact share_joins h (by rw [hc]; rfl) (.inl ⟨hc, rfl⟩) (by decide) hs hf.1 hf.2
  case joins => exact share_joins h hh (.inr hc) hl hs hf.1 hf.2
  case replaced => exact reshare_replaces h (.inr ⟨l, hc, mine, rfl⟩) hq hf.1 hf.2
  case opened => exact reshare_replaces h (.inl ⟨hc, rfl⟩) hq hf.1 hf.2
  case report => exact (rget_statDone_ne _ _ (viReg_ne vi (by decide))).trans (rget_rset_self ..)

end Sys2Proof.Machine

/-! Scalar instructions (R117, R136, R151): each is its own result under one write. -/

namespace Sys2Proof.Machine

/-! ## The values of scalar instructions -/

/-- Sign-extension of a number's low bits is that of the bit vector they are. -/
theorem sextN_toNat (w : Word) {k : Nat} (hk : k ≤ 64) : sextN k w.toNat = (w.setWidth k).signExtend 64 := by
  have hw : (w.setWidth k).toNat = w.toNat % 2 ^ k := BitVec.toNat_setWidth ..
  have hlt : w.toNat % 2 ^ k < 2 ^ k := Nat.mod_lt _ (Nat.two_pow_pos k)
  have hp : 2 ^ k ≤ 2 ^ 64 := Nat.pow_le_pow_right (by omega) hk
  apply BitVec.eq_of_toNat_eq
  rw [BitVec.toNat_signExtend, BitVec.msb_eq_decide, BitVec.toNat_setWidth, hw, Nat.mod_eq_of_lt (by omega : w.toNat % 2 ^ k < 2 ^ 64)]
  unfold sextN
  by_cases h : 2 ^ (k - 1) ≤ w.toNat % 2 ^ k
  · simp only [ge_iff_le, h, if_true, decide_true, BitVec.toNat_ofNat]
    omega
  · simp only [ge_iff_le, h, if_false, decide_false, Bool.false_eq_true, BitVec.toNat_ofNat]
    omega

theorem and_low_word (w : Word) : w &&& 0xFFFFFFFF = (w.setWidth 32).setWidth 64 := by
  apply BitVec.eq_of_toNat_eq
  have : w.toNat &&& 0xFFFFFFFF = w.toNat % 2 ^ 32 := Nat.and_two_pow_sub_one_eq_mod w.toNat 32
  simp [this]
  omega

theorem low_or_high (w : Word) (imm : Imm) : (w &&& (0xFFFFFFFF : Word)) ||| (imm.setWidth 64 <<< 32) = imm ++ w.setWidth 32 := by
  rw [and_low_word]
  apply BitVec.eq_of_getLsbD_eq
  intro i hi
  rw [BitVec.getLsbD_append]
  by_cases h : i < 32
  · simp [h, hi]
  · simp [h, hi, BitVec.getLsbD_setWidth]

/-- A rotation takes the shift amount modulo 64. -/
theorem amt_mod (w : Word) : amt w % 64 = w.toNat % 64 := by unfold amt; omega

/-- The leading zeros of a word tell between which powers of two it lies. -/
theorem clz64_spec (w : Word) : clz64 w ≤ 64 ∧ w.toNat < 2 ^ (64 - clz64 w) ∧ (clz64 w < 64 → 2 ^ (63 - clz64 w) ≤ w.toNat) := by
  unfold clz64 bitLen
  by_cases h : w.toNat = 0
  · simp [h]
  · have hlog : Nat.log2 w.toNat < 64 := (Nat.log2_lt h).2 w.isLt
    rw [if_neg h]
    refine ⟨by omega, ?_, fun _ => ?_⟩
    · rw [show 64 - (64 - (Nat.log2 w.toNat + 1)) = Nat.log2 w.toNat + 1 by omega]
      exact Nat.lt_log2_self
    · rw [show 63 - (64 - (Nat.log2 w.toNat + 1)) = Nat.log2 w.toNat by omega]
      exact Nat.log2_self_le h

/-- The trailing zeros of a word are the bits below its lowest 1. -/
theorem ctz64_spec (w : Word) : ctz64 w ≤ 64 ∧ (∀ i < ctz64 w, w.getLsbD i = false) ∧ (ctz64 w < 64 → w.getLsbD (ctz64 w) = true) := by
  unfold ctz64
  cases h : (List.range 64).find? (fun i => w.toNat.testBit i) with
  | none =>
    refine ⟨le_rfl, fun i hi => ?_, fun hlt => absurd hlt (lt_irrefl 64)⟩
    simpa [BitVec.getLsbD] using List.find?_eq_none.1 h i (List.mem_range.2 hi)
  | some z =>
    obtain ⟨hz, hlt, hmin⟩ := List.find?_range_eq_some.1 h
    refine ⟨?_, fun i hi => ?_, fun _ => hz⟩
    · have := List.mem_range.1 hlt
      exact this.le
    · have := hmin i hi
      simpa [BitVec.getLsbD] using this

/-! ## Issue -/

/-- A scalar instruction that writes one register and sets no flag. -/
theorem scalar_writes {s s1 : State} {t : Tid} {th : Thread} {word v : Word} {lat : Nat} {d : Reg} {body : State → Thread → Eff}
    (h : Issues s s1 t th { major := 0 } 0) (hb : body s1 th = justWr s1 th [wrG lat d v]) :
    scalar t word body s = .next (wroteG s1 t th 0 lat d v 0) := issue_wr h rfl hb

/-- A word written as 1 or 0. -/
theorem boolWord_decide (p : Prop) [Decidable p] : boolWord (decide p) = if p then 1 else 0 := by simp [boolWord]

/-- Settles O5: each instruction writes one register; the lemmas above turn the model's values into those of the rules. -/
theorem scalarResults : Obligations.ScalarResults := by
  intro s s1 t th d a b y imm k h
  have wr {word v v' : Word} {lat : Nat} {body : State → Thread → Eff} (hb : body s1 th = justWr s1 th [wrG lat d v']) (hv : v' = v) :
      scalar t word body s = .next (wroteG s1 t th 0 lat d v 0) := scalar_writes h (hv ▸ hb)
  refine ⟨wr rfl rfl, wr rfl rfl, wr rfl rfl, wr rfl rfl, wr rfl rfl, wr rfl rfl, wr rfl rfl, wr rfl rfl, wr rfl rfl, wr rfl (by rw [amt_mod]),
    wr rfl (by rw [amt_mod]), wr rfl rfl, ?sext, wr rfl (and_low_word _), wr rfl (low_or_high _ _), wr rfl ?mul, wr rfl rfl, wr rfl rfl,
    wr rfl (boolWord_decide _), wr rfl (boolWord_decide _), wr rfl ?seq, wr rfl rfl, wr rfl rfl, wr rfl ?max, wr rfl ?maxu,
    wr rfl rfl, ⟨_, wr rfl rfl, clz64_spec _⟩, ⟨_, wr rfl rfl, ctz64_spec _⟩, wr rfl rfl⟩
  case sext =>
    cases k
    · exact wr rfl (sextN_toNat _ (by decide))
    · exact wr rfl (sextN_toNat _ (by decide))
    · exact wr rfl (sextN_toNat _ (by decide))
  case mul => exact BitVec.mul_def
  case seq => simp [boolWord]
  case max =>
    simp only [sv, ge_iff_le]
    split <;> split
    · exact BitVec.eq_of_toInt_eq (by omega)
    · rfl
    · rfl
    · omega
  case maxu =>
    split <;> split
    · exact BitVec.eq_of_toNat_eq (by omega)
    · rfl
    · rfl
    · omega

end Sys2Proof.Machine

/-! What the end of an instruction's slot does to its thread: the results due then are written in issue order, and their flags set
(R81, R83, R85). -/

namespace Sys2Proof.Machine

/-! ## One retired result -/

@[simp] theorem mergeBytes_word (old new : Word) : mergeBytes 64 255#128 old new = new := by
  have h : BitVec.ofNat 64 (byteMask (64 / 8) 255#128) = BitVec.allOnes 64 := by decide
  rw [mergeBytes, h, BitVec.not_allOnes, BitVec.and_allOnes, BitVec.and_zero, BitVec.zero_or]

theorem specialOld_loads (t : Thread) (l : List Op) (n : Nat) : specialOld { t with loads := l } n = specialOld t n := by
  unfold specialOld
  split <;> rfl

theorem writeSpecial_loads (t : Thread) (l : List Op) (n : Nat) (v : Word) :
    writeSpecial { t with loads := l } n v = { writeSpecial t n v with loads := l } := by
  rcases n with _ | _ | _ | _ | _ | _ | _ | n
  case succ.succ.succ.succ.succ.succ.zero =>
    have e : ({ t with loads := l } : Thread).priv = t.priv := rfl
    by_cases h : t.priv ≥ 1 <;> simp [writeSpecial, e, h]
  all_goals rfl

/-- Writing a result reads nothing of the outstanding loads. -/
theorem applyRes_loads (t : Thread) (l : List Op) (p : PendRes) : applyRes { t with loads := l } p = { applyRes t p with loads := l } := by
  unfold applyRes
  cases p.file
  case gen => dsimp only; split <;> rfl
  case vec => rfl
  case mask => dsimp only; split <;> rfl
  case special => dsimp only; rw [specialOld_loads, writeSpecial_loads]

/-- A result for a general register: g0 discards it. -/
theorem applyRes_gen (t : Thread) {p : PendRes} (h : p.file = .gen) : applyRes t p = { t with
    g := if p.num = 0 then t.g else t.g.set p.num.toFin (mergeBytes 64 p.bytes t.g[p.num.toFin] (p.data.setWidth 64)) } := by
  simp only [applyRes, h]
  split <;> rfl

/-- A result of an instruction for a general register as a whole. -/
theorem applyRes_wrG (t : Thread) (lat : Nat) (d : Reg) (v fl : Word) (n : Nat) :
    applyRes t { (wrG lat d v fl).p with due := n } = { t with g := if d = 0 then t.g else t.g.set d.toFin v } := by
  rw [applyRes_gen t rfl]
  simp [wrG]

theorem applyRes_pc (t : Thread) (p : PendRes) : (applyRes t p).pc = t.pc := by
  unfold applyRes writeSpecial
  dsimp only
  repeat' split
  all_goals rfl

theorem get_set_reg (g : Vector Word 64) (d r : Reg) (v : Word) : (g.set d.toFin v)[r.toFin] = if r = d then v else g[r.toFin] := by
  by_cases h : r = d
  · subst h; simp
  · have hn : d.toNat ≠ r.toNat := fun e => h (BitVec.eq_of_toNat_eq e.symm)
    simp [h, hn]

theorem and_or_self (a b : Word) : a &&& b ||| a = a := by
  apply BitVec.eq_of_getLsbD_eq
  intro i _
  rw [BitVec.getLsbD_or, BitVec.getLsbD_and]
  cases a.getLsbD i <;> simp

/-! ## The end of a slot -/

/-- The thread's results in issue order once its slot ends, each with the slots still to come. -/
def slotPend (th : Thread) (ws : List Wr) : List PendRes :=
  th.pend.map (fun p => { p with due := p.due - 1 }) ++ ws.map (fun w => { w.p with due := w.lat - 1 })

/-- Those that retire at the slot's end, and those that stay. -/
def dueNow (th : Thread) (ws : List Wr) : List PendRes := (slotPend th ws).filter (fun p => p.due == 0)
def dueLater (th : Thread) (ws : List Wr) : List PendRes := (slotPend th ws).filter (fun p => p.due != 0)

/-- The flags of a list of results. -/
def flagsOf (l : List PendRes) : Word := l.foldl (fun f p => f ||| p.flags) 0

/-- The registers as the slot's end leaves them. -/
def slotRegs (th : Thread) (ws : List Wr) : Thread := (dueNow th ws).foldl applyRes { th with pend := dueLater th ws }

theorem foldl_applyRes_clobber (l : List PendRes) : ∀ (t : Thread) (ops : List Op), ∃ ops',
    l.foldl (fun t p => { applyRes t p with loads := clobber t.loads p }) { t with loads := ops }
      = { l.foldl applyRes t with loads := ops' } := by
  induction l with
  | nil => exact fun t ops => ⟨ops, rfl⟩
  | cons p l ih =>
    intro t ops
    rw [List.foldl_cons, applyRes_loads]
    exact ih (applyRes t p) (clobber ops p)

/-- The slot's end writes the results due in issue order and then sets their flags; loads are at most marked (R81, R83, R85, R92). -/
theorem advanceSlot_eq (th : Thread) (ws : List Wr) : ∃ ops, advanceSlot th ws
    = { slotRegs th ws with loads := ops, tstat := (slotRegs th ws).tstat ||| flagsOf (dueNow th ws) } := by
  obtain ⟨ops, h⟩ := foldl_applyRes_clobber (dueNow th ws) { th with pend := dueLater th ws }
    ((ws.map (fun w => { w.p with due := w.lat - 1 })).foldl clobber th.loads)
  exact ⟨ops, congrArg (fun u : Thread => { u with tstat := u.tstat ||| flagsOf (dueNow th ws) }) h⟩

@[simp] theorem slotRegs_pc (th : Thread) (ws : List Wr) : (slotRegs th ws).pc = th.pc := foldl_proj Thread.pc applyRes_pc _ _

theorem getLsbD_flagsOf (l : List PendRes) (i : Nat) : (flagsOf l).getLsbD i = l.any (fun p => p.flags.getLsbD i) := by
  have acc : ∀ (l : List PendRes) (a : Word), (l.foldl (fun f p => f ||| p.flags) a).getLsbD i
      = (a.getLsbD i || l.any (fun p => p.flags.getLsbD i)) := by
    intro l
    induction l with
    | nil => simp
    | cons p l ih => intro a; rw [List.foldl_cons, ih, BitVec.getLsbD_or, List.any_cons, Bool.or_assoc]
  rw [flagsOf, acc]
  simp

theorem flagsOf_append (a b : List PendRes) : flagsOf (a ++ b) = flagsOf a ||| flagsOf b := by
  apply BitVec.eq_of_getLsbD_eq
  intro i _
  simp [getLsbD_flagsOf]

/-- The flags of a result are among those of the list. -/
theorem and_flagsOf_of_mem {l : List PendRes} {p : PendRes} (h : p ∈ l) : p.flags &&& flagsOf l = p.flags := by
  apply BitVec.eq_of_getLsbD_eq
  intro i _
  rw [BitVec.getLsbD_and, getLsbD_flagsOf, Bool.and_eq_left_iff_imp, List.any_eq_true]
  exact fun hi => ⟨p, h, hi⟩

/-! ## A result of latency 1 (R81, R82) -/

theorem dueNow_one (th : Thread) {w : Wr} (h : w.lat = 1) : dueNow th [w] = dueNow th [] ++ [{ w.p with due := 0 }] := by
  simp [dueNow, slotPend, h]

theorem dueLater_one (th : Thread) {w : Wr} (h : w.lat = 1) : dueLater th [w] = dueLater th [] := by
  simp [dueLater, slotPend, h]

theorem slotRegs_one (th : Thread) {w : Wr} (h : w.lat = 1) : slotRegs th [w] = applyRes (slotRegs th []) { w.p with due := 0 } := by
  rw [slotRegs, dueNow_one th h, dueLater_one th h, List.foldl_append]
  rfl

/-! ## One result in flight -/

section
variable {d : Reg} {v fl : Word}

/-- The result of an instruction for a general register, `n` slots from its retirement. -/
def pendG (d : Reg) (v fl : Word) (n : Nat) : PendRes := { (wrG 1 d v fl).p with due := n }

theorem advanceSlot_idle {th : Thread} (h : th.pend = []) : ∃ ops, advanceSlot th [] = { th with loads := ops } := by
  obtain ⟨ops, e⟩ := advanceSlot_eq th []
  refine ⟨ops, e.trans ?_⟩
  simp [slotRegs, dueNow, dueLater, slotPend, h, flagsOf]

/-- A result that is not yet due comes one slot nearer. -/
theorem advanceSlot_waits {th : Thread} {n : Nat} (h : th.pend = [pendG d v fl (n + 2)]) :
    ∃ ops, advanceSlot th [] = { th with pend := [pendG d v fl (n + 1)], loads := ops } := by
  obtain ⟨ops, e⟩ := advanceSlot_eq th []
  refine ⟨ops, e.trans ?_⟩
  simp [slotRegs, dueNow, dueLater, slotPend, h, flagsOf, pendG]

/-- A result in its last slot is written, with its flags. -/
theorem advanceSlot_retires {th : Thread} (h : th.pend = [pendG d v fl 1]) : ∃ ops, advanceSlot th []
    = { th with pend := [], loads := ops, g := if d = 0 then th.g else th.g.set d.toFin v, tstat := th.tstat ||| fl } := by
  obtain ⟨ops, e⟩ := advanceSlot_eq th []
  refine ⟨ops, e.trans ?_⟩
  simp [slotRegs, dueNow, dueLater, slotPend, h, flagsOf, pendG, applyRes_wrG]
  rfl

theorem iterate_advanceSlot_idle (k : Nat) : ∀ {th : Thread}, th.pend = [] →
    ((fun x => advanceSlot x [])^[k] th).g = th.g ∧ ((fun x => advanceSlot x [])^[k] th).tstat = th.tstat := by
  induction k with
  | zero => exact fun _ => ⟨rfl, rfl⟩
  | succ k ih =>
    intro th h
    obtain ⟨ops, e⟩ := advanceSlot_idle h
    rw [Function.iterate_succ_apply, e]
    exact ih h

/-- A result `n + 1` slots from its retirement is read from the slot after on, and the value from before until then. -/
theorem iterate_advanceSlot_pendG (hd : d ≠ 0) (k : Nat) : ∀ {th : Thread} {n : Nat}, th.pend = [pendG d v fl (n + 1)] →
    ((fun x => advanceSlot x [])^[k] th).g[d.toFin] = (if k < n + 1 then th.g[d.toFin] else v)
      ∧ ((fun x => advanceSlot x [])^[k] th).tstat = if k < n + 1 then th.tstat else th.tstat ||| fl := by
  induction k with
  | zero => intro th n _; simp
  | succ k ih =>
    intro th n h
    rw [Function.iterate_succ_apply]
    cases n with
    | zero =>
      obtain ⟨ops, e⟩ := advanceSlot_retires h
      rw [e]
      obtain ⟨hg, ht⟩ := iterate_advanceSlot_idle k (th := { th with
        pend := [], loads := ops, g := if d = 0 then th.g else th.g.set d.toFin v, tstat := th.tstat ||| fl }) rfl
      rw [hg, ht]
      exact ⟨by simp only [if_neg hd, get_set_reg, if_true]; rfl, rfl⟩
    | succ n =>
      obtain ⟨ops, e⟩ := advanceSlot_waits h
      rw [e]
      simpa using ih (th := { th with pend := [pendG d v fl (n + 1)], loads := ops }) rfl

/-- An instruction's own slot, with no other write in flight: the result is written at once or waits. -/
theorem advanceSlot_issue {th : Thread} (h : th.pend = []) {lat : Nat} (hl : 1 ≤ lat) :
    ∃ ops, advanceSlot th [wrG lat d v fl] = if lat = 1
      then { th with loads := ops, g := if d = 0 then th.g else th.g.set d.toFin v, tstat := th.tstat ||| fl }
      else { th with pend := [pendG d v fl (lat - 1)], loads := ops } := by
  obtain ⟨ops, e⟩ := advanceSlot_eq th [wrG lat d v fl]
  refine ⟨ops, e.trans ?_⟩
  by_cases h1 : lat = 1
  · subst h1
    rw [if_pos rfl, slotRegs_one th rfl, applyRes_wrG]
    simp [slotRegs, dueNow, dueLater, slotPend, h, flagsOf, wrG]
  · have h2 : lat - 1 ≠ 0 := by omega
    simp [slotRegs, dueNow, dueLater, slotPend, h, flagsOf, pendG, wrG, h1, h2]

end

/-- Settles O7: the slot of a result of latency 1 ends with it, after everything else that retires; one alone in flight waits its slots; and
flags are set after every write of the slot. -/
theorem resultsRetireAtTheirLatency : Obligations.ResultsRetireAtTheirLatency := by
  refine ⟨fun th d v fl => ?_, fun th d v fl lat k hp hl hd => ?_, fun th ws p hp hd => ?_⟩
  · obtain ⟨ops, hu⟩ := advanceSlot_eq th [wrG 1 d v fl]
    obtain ⟨ops', hw⟩ := advanceSlot_eq th []
    have hf : flagsOf (dueNow th [wrG 1 d v fl]) = flagsOf (dueNow th []) ||| fl := by
      rw [dueNow_one th rfl, flagsOf_append]
      simp [flagsOf, wrG]
    rw [slotRegs_one th rfl, applyRes_wrG, hf] at hu
    dsimp only
    rw [hu, hw]
    refine ⟨fun r => ?_, (BitVec.or_assoc ..).symm, rfl, rfl, rfl, rfl, rfl, rfl, rfl, slotRegs_pc th [], rfl, rfl⟩
    show (if d = 0 then (slotRegs th []).g else (slotRegs th []).g.set d.toFin v)[r.toFin]
      = if r = d ∧ d ≠ 0 then v else (slotRegs th []).g[r.toFin]
    by_cases h0 : d = 0
    · rw [if_pos h0, if_neg (fun h => h.2 h0)]
    · rw [if_neg h0, get_set_reg]
      simp only [ne_eq, h0, not_false_eq_true, and_true]
  · obtain ⟨ops, hi⟩ := advanceSlot_issue (d := d) (v := v) (fl := fl) hp hl
    dsimp only
    rw [hi]
    by_cases h1 : lat = 1
    · subst h1
      obtain ⟨hg, ht⟩ := iterate_advanceSlot_idle k (th := { th with
        loads := ops, g := if d = 0 then th.g else th.g.set d.toFin v, tstat := th.tstat ||| fl }) hp
      rw [if_pos rfl, hg, ht]
      exact ⟨by simp only [if_neg hd, get_set_reg, if_true]; rfl, rfl⟩
    · obtain ⟨n, rfl⟩ : ∃ n, lat = n + 2 := ⟨lat - 2, by omega⟩
      rw [if_neg h1]
      simpa using iterate_advanceSlot_pendG hd k (th := { th with pend := [pendG d v fl (n + 1)], loads := ops }) rfl
  · obtain ⟨ops, e⟩ := advanceSlot_eq th ws
    have hm : ({ p with due := p.due - 1 } : PendRes) ∈ dueNow th ws :=
      List.mem_filter.2 ⟨List.mem_append_left _ (List.mem_map_of_mem hp), by simp [hd]⟩
    rw [e]
    have := and_flagsOf_of_mem hm
    dsimp only at this ⊢
    rw [BitVec.and_or_distrib_left, this]
    exact and_or_self _ _

end Sys2Proof.Machine

/-! The register files (R77, R79, R83): what byte enables over lanes let through. -/

namespace Sys2Proof.Machine

/-! ## Bits of a number made of blocks -/

/-- The mask of the blocks of `b` bits that are chosen, of the first `n`. -/
def blockMask (b : Nat) (f : Nat → Bool) (n : Nat) : Nat :=
  (List.range n).foldl (fun a i => if f i then a + (2 ^ b - 1) <<< (b * i) else a) 0

theorem blockMask_succ (b : Nat) (f : Nat → Bool) (n : Nat) :
    blockMask b f (n + 1) = 2 ^ (b * n) * (if f n then 2 ^ b - 1 else 0) + blockMask b f n := by
  have last : blockMask b f (n + 1) = if f n then blockMask b f n + (2 ^ b - 1) <<< (b * n) else blockMask b f n := by
    rw [blockMask, List.range_succ, List.foldl_append]
    rfl
  rw [last, Nat.shiftLeft_eq]
  split
  · ring
  · rw [Nat.mul_zero, Nat.zero_add]

theorem blockMask_lt (b : Nat) (f : Nat → Bool) (n : Nat) : blockMask b f n < 2 ^ (b * n) := by
  induction n with
  | zero => simp [blockMask]
  | succ n ih =>
    have hb : (if f n then 2 ^ b - 1 else 0) + 1 ≤ 2 ^ b := by
      have := Nat.two_pow_pos b
      split <;> omega
    calc blockMask b f (n + 1) < 2 ^ (b * n) * (if f n then 2 ^ b - 1 else 0) + 2 ^ (b * n) := by rw [blockMask_succ]; omega
      _ = 2 ^ (b * n) * ((if f n then 2 ^ b - 1 else 0) + 1) := by ring
      _ ≤ 2 ^ (b * n) * 2 ^ b := Nat.mul_le_mul_left _ hb
      _ = 2 ^ (b * (n + 1)) := by rw [← Nat.pow_add, Nat.mul_succ]

/-- A bit of the mask is 1 where its block is chosen. -/
theorem testBit_blockMask {b : Nat} (hb : 0 < b) (f : Nat → Bool) (n j : Nat) :
    (blockMask b f n).testBit j = (decide (j < b * n) && f (j / b)) := by
  induction n with
  | zero => simp [blockMask]
  | succ n ih =>
    rw [blockMask_succ, Nat.testBit_two_pow_mul_add _ (blockMask_lt b f n)]
    have hs : b * (n + 1) = b * n + b := Nat.mul_succ b n
    by_cases h : j < b * n
    · have h' : j < b * (n + 1) := by omega
      simp [h, h', ih]
    · have hd : (j < b * (n + 1)) ↔ j / b = n := by
        rw [Nat.div_eq_iff hb, Nat.mul_comm n b]
        omega
      rw [if_neg h]
      by_cases hj : j < b * (n + 1)
      · have hn := hd.1 hj
        have hlt : j - b * n < b := by omega
        cases hf : f n
        · simp [hj, hn, hf]
        · simp [hj, hn, hf, hlt]
      · have hge : ¬ j - b * n < b := by omega
        cases hf : f n
        · simp [hj]
        · simp [hj, hge]

theorem byteMask_eq (n : Nat) (en : BitVec 128) : byteMask n en = blockMask 8 (fun i => en.toNat.testBit i) n := rfl

theorem laneBytes_eq (w n : Nat) (m : BitVec 128) : laneBytes w n m = BitVec.ofNat 128 (blockMask (w / 8) (active m) n) := rfl

/-! ## Bytes and lanes of a written register -/

/-- An enabled byte is the new value's, every other the old one's. -/
theorem getLsbD_mergeBytes {c : Nat} (en : BitVec 128) (old new : BitVec (8 * c)) {j : Nat} (hj : j < 8 * c) :
    (mergeBytes (8 * c) en old new).getLsbD j = if en.getLsbD (j / 8) then new.getLsbD j else old.getLsbD j := by
  have hm : (BitVec.ofNat (8 * c) (byteMask (8 * c / 8) en)).getLsbD j = en.getLsbD (j / 8) := by
    have h8 : 8 * c / 8 = c := by omega
    rw [BitVec.getLsbD_ofNat, byteMask_eq, h8, testBit_blockMask (by decide)]
    simp [hj, BitVec.getLsbD]
  rw [mergeBytes]
  simp only [BitVec.getLsbD_or, BitVec.getLsbD_and, BitVec.getLsbD_not, hm, hj, decide_true, Bool.true_and]
  cases en.getLsbD (j / 8) <;> simp

theorem testBit_lane (w : Nat) (v : BitVec 1024) (k i : Nat) : (lane w v k).testBit i = (decide (i < w) && v.getLsbD (w * k + i)) := by
  rw [lane, Nat.testBit_mod_two_pow, Nat.testBit_shiftRight]
  rfl

/-- The width of an element that is whole bytes and divides a register. -/
def laneWidth (w : Nat) : Prop := w = 8 ∨ w = 16 ∨ w = 32 ∨ w = 64

/-- The byte enables of lane `k` are its mask bit. -/
theorem getLsbD_laneBytes {w k i : Nat} (m : BitVec 128) (hw : laneWidth w) (hk : k < 1024 / w) (hi : i < w) :
    (laneBytes w (1024 / w) m).getLsbD ((w * k + i) / 8) = active m k := by
  have hdiv : (w * k + i) / 8 / (w / 8) = k := by rcases hw with rfl | rfl | rfl | rfl <;> omega
  have hlt : (w * k + i) / 8 < w / 8 * (1024 / w) := by rcases hw with rfl | rfl | rfl | rfl <;> omega
  have h128 : (w * k + i) / 8 < 128 := by rcases hw with rfl | rfl | rfl | rfl <;> omega
  have hpos : 0 < w / 8 := by rcases hw with rfl | rfl | rfl | rfl <;> decide
  rw [laneBytes_eq, BitVec.getLsbD_ofNat, testBit_blockMask hpos, hdiv]
  simp [hlt, h128]

/-- A vector result under a mask is written lane by lane (R79). -/
theorem lane_mergeBytes {w k : Nat} (m : BitVec 128) (old new : BitVec 1024) (hw : laneWidth w) (hk : k < 1024 / w) :
    lane w (mergeBytes 1024 (laneBytes w (1024 / w) m) old new) k = if active m k then lane w new k else lane w old k := by
  have hbit : ∀ i, (lane w (mergeBytes 1024 (laneBytes w (1024 / w) m) old new) k).testBit i
      = if active m k then (lane w new k).testBit i else (lane w old k).testBit i := by
    intro i
    simp only [testBit_lane]
    by_cases hi : i < w
    · have hj : w * k + i < 8 * 128 := by rcases hw with rfl | rfl | rfl | rfl <;> omega
      rw [getLsbD_mergeBytes (c := 128) _ old new hj, getLsbD_laneBytes m hw hk hi]
      simp [hi]
    · simp [hi]
  apply Nat.eq_of_testBit_eq
  intro i
  rw [hbit]
  split <;> rfl

theorem get_set_vreg (v : Vector (BitVec 1024) 8) (d r : VReg) (x : BitVec 1024) :
    (v.set d.toFin x)[r.toFin] = if r = d then x else v[r.toFin] := by
  by_cases h : r = d
  · subst h; simp
  · have hn : d.toNat ≠ r.toNat := fun e => h (BitVec.eq_of_toNat_eq e.symm)
    simp [h, hn]

/-- A result for a vector register. -/
theorem applyRes_wrV (t : Thread) (lat : Nat) (d : VReg) (en : BitVec 128) (x : BitVec 1024) (fl : Word) (n : Nat) :
    applyRes t { (wrV lat d en x fl).p with due := n } = { t with v := t.v.set d.toFin (mergeBytes 1024 en t.v[d.toFin] x) } := by
  have hd : (d.setWidth 6).setWidth 3 = d := BitVec.eq_of_toNat_eq (by simp)
  simp only [applyRes, wrV, hd]

/-! ## Two results that retire together -/

/-- With one result due this slot and one of latency 1 issued in it, both are written, in issue order (R83). -/
theorem slotRegs_two {th : Thread} {p : PendRes} {w : Wr} (hp : th.pend = [{ p with due := 1 }]) (hw : w.lat = 1) :
    slotRegs th [w] = applyRes (applyRes { th with pend := [] } { p with due := 0 }) { w.p with due := 0 } := by
  rw [slotRegs_one th hw]
  simp [slotRegs, dueNow, dueLater, slotPend, hp]

/-- Settles O8: g0 and m0 discard; a vector result goes through its byte enables, bit by bit; and what retires together is written in issue
order. -/
theorem registerFileRules : Obligations.RegisterFileRules := by
  refine ⟨fun s th p => ⟨rfl, rfl, fun hn hf => ?_, fun hn hf => ?_⟩, fun th w k vd r m new fl hw hk => ?_,
    fun th w k vd m n a b hw hk hp => ?_, fun th d a b hd hp => ?_⟩
  · rw [applyRes_gen th hf, if_pos hn]
  · simp [applyRes, hf, hn]
  · have e : applyRes th (wrV 1 vd (laneBytes w (1024 / w) m) new fl).p = _ := applyRes_wrV th 1 vd _ new fl 0
    rw [e]
    show lane w (th.v.set vd.toFin (mergeBytes 1024 (laneBytes w (1024 / w) m) th.v[vd.toFin] new))[r.toFin] k = _
    rw [get_set_vreg]
    by_cases h : r = vd
    · subst h
      simp only [if_true, lane_mergeBytes m _ _ hw hk, true_and]
    · simp only [h, if_false, false_and]
  · obtain ⟨ops, e⟩ := advanceSlot_eq th [wrV 1 vd (laneBytes w (1024 / w) n) b]
    rw [e, slotRegs_two hp rfl, applyRes_wrV, applyRes_wrV]
    show lane w ((th.v.set vd.toFin _).set vd.toFin _)[vd.toFin] k = _
    rw [get_set_vreg, if_pos rfl, lane_mergeBytes n _ _ hw hk]
    show (if active n k = true then _ else lane w (th.v.set vd.toFin _)[vd.toFin] k) = _
    rw [get_set_vreg, if_pos rfl, lane_mergeBytes m _ _ hw hk]
  · obtain ⟨ops, e⟩ := advanceSlot_eq th [wrG 1 d b]
    rw [e, slotRegs_two hp rfl, applyRes_wrG, applyRes_wrG]
    show (if d = 0 then _ else Vector.set _ d.toFin b)[d.toFin] = b
    rw [if_neg hd, get_set_reg, if_pos rfl]

end Sys2Proof.Machine

/-! Where a thread goes (R97, R98), and a trap that no handler takes (R103, R104, R107, R108). -/

namespace Sys2Proof.Machine

/-! ## Block repeat -/

/-- While repetitions are left, counting one down leaves the length. -/
theorem brc_sub_one {th : Thread} (h : 1 < th.brcCount) :
    bits (th.brc - 1) 31 0 = th.brcCount - 1 ∧ bits (th.brc - 1) 47 32 = th.brcLen := by
  have hlt := th.brc.isLt
  unfold Thread.brcCount bits at h
  unfold Thread.brcCount Thread.brcLen bits
  simp only [Nat.shiftRight_eq_div_pow] at h ⊢
  have hs : (th.brc - 1).toNat = th.brc.toNat - 1 := by
    rw [BitVec.toNat_sub_of_le (by simp [BitVec.le_def]; omega)]
    rfl
  rw [hs]
  omega

theorem goNext_on_inside {th : Thread} (h : th.pc ≠ th.brs + BitVec.ofNat 64 (8 * th.brcLen) - 8) :
    goNext th .on = { th with pc := th.pc + 8 } := by
  simp only [goNext, if_neg h]

theorem goNext_on_repeats {th : Thread} (h : th.pc = th.brs + BitVec.ofNat 64 (8 * th.brcLen) - 8) (hc : 1 < th.brcCount) :
    goNext th .on = { th with brc := th.brc - 1, pc := th.brs } := by
  simp only [goNext, if_pos h, gt_iff_lt, if_pos hc]

theorem goNext_on_leaves {th : Thread} (h : th.pc = th.brs + BitVec.ofNat 64 (8 * th.brcLen) - 8) (hc : th.brcCount ≤ 1) :
    goNext th .on = { th with brc := 0, pc := th.pc + 8 } := by
  simp only [goNext, if_pos h, gt_iff_lt, if_neg (Nat.not_lt.2 hc)]

theorem goNext_transfer (th : Thread) (a : Word) :
    goNext th (.to a false) = { th with pc := a, brc := if inBlock th th.pc ∧ !inBlock th a then 0 else th.brc } := by
  simp only [goNext, Bool.not_false, true_and]
  split <;> rfl

/-- Settles O9, case by case of the block's end and of the transfer. -/
theorem blockRepeatControl : Obligations.BlockRepeatControl := by
  intro th a
  refine ⟨goNext_on_inside, fun h hc => ?_, fun h hc => ?_, ⟨?_, rfl⟩, ?_, rfl⟩
  · rw [goNext_on_repeats h hc]
    exact ⟨rfl, brc_sub_one hc⟩
  · rw [goNext_on_leaves h hc]
    exact ⟨rfl, rfl⟩
  · rw [goNext_transfer]
  · rw [goNext_transfer]

/-! ## An unhandled trap -/

/-- Settles O10: the trap leaves the thread ENDING or, in handler mode, TRAPPED, and counts and traces it. -/
theorem unhandledTrapEndsThread : Obligations.UnhandledTrapEndsThread := by
  intro s t th cause tval w
  refine ⟨fun hm hh => ?_, fun hm => ?_, fun h => ?_⟩
  · obtain ⟨u, e, -, -⟩ := takeTrap_unhandled s t th cause tval w (.inr hh)
    rw [e, getThr_putThr_self, if_neg (by simp [hm])]
  · obtain ⟨u, e, -, -⟩ := takeTrap_unhandled s t th cause tval w (.inl hm)
    rw [e, getThr_putThr_self, if_pos hm]
  · obtain ⟨u, e, hu, hframe⟩ := takeTrap_unhandled s t th cause tval w h
    rw [e]
    exact ⟨by rw [hu]; rfl, fun t' ht => (getThr_putThr_ne u _ ht).trans (hframe t' ht)⟩

end Sys2Proof.Machine

/-! Branches, calls and returns (R100, R101, R118, R119). -/

namespace Sys2Proof.Machine

/-! ## Transfers -/

theorem bits_low_three (a : Word) : bits a 2 0 = a.toNat % 8 := rfl

section
variable {s s1 : State} {t : Tid} {th : Thread} {word p : Word} {body : State → Thread → Eff} (h : Issues s s1 t th { major := 1 } 0)
include h

/-- A transfer goes to an aligned address, and traps with MISALIGN at another (R119). -/
theorem control_jump (hb : body s1 th = jump s1 th p false []) : control t true word body s
    = if p.toNat % 8 = 0 then .next (issued s1 t th th.vi 1 (.to p false) []) else .next (trapped s1 t th 3 p) := by
  have hj : body s1 th = if p.toNat % 8 = 0 then .ok s1 th [] (.to p false) none else .trap 3 p := by
    rw [hb, jump, bits_low_three, ite_not]
  by_cases hp : p.toNat % 8 = 0
  · rw [if_pos hp] at hj ⊢
    exact issue_ok h rfl hj rfl h.ready
  · rw [if_neg hp] at hj ⊢
    exact issue_trap h rfl hj

/-- A conditional branch is a transfer where its comparison holds, and goes on where it does not. -/
theorem bcc_branches {c : Cond} {a d : Reg} {imm : Imm} : execBcc t c a d imm s = if condHolds c (rdG s1 th a) (rdG s1 th d)
    then if (branchTo th imm).toNat % 8 = 0 then .next (issued s1 t th th.vi 1 (.to (branchTo th imm) false) [])
      else .next (trapped s1 t th 3 (branchTo th imm))
    else .next (issued s1 t th th.vi 1 .on []) := by
  by_cases hc : condHolds c (rdG s1 th a) (rdG s1 th d) = true
  · rw [if_pos hc]
    exact control_jump h (if_pos hc)
  · rw [if_neg hc]
    exact issue_wr h rfl (if_neg hc)

end

/-! ## The return stack -/

/-- `RSP` of a position and a depth. -/
theorem rsp_fields {top depth : Nat} (ht : top < 8) (hd : depth < 16) :
    bits (at_ top 8 ||| BitVec.ofNat 64 depth) 10 8 = top ∧ bits (at_ top 8 ||| BitVec.ofNat 64 depth) 3 0 = depth := by
  rw [at_or_ofNat top (by omega)]
  unfold bits
  simp only [BitVec.toNat_ofNat, Nat.shiftRight_eq_div_pow]
  omega

theorem get_set_stack (v : Vector Word 8) {top : Nat} (ht : top < 8) (x : Word) (i : Fin 8) :
    (v.set (BitVec.ofNat 3 top).toFin x)[i] = if i.val = top then x else v[i] := by
  have e : top % 8 = top := Nat.mod_eq_of_lt ht
  simp [Vector.getElem_set, e, eq_comm]

/-- The stack after a push: at DEPTH 8 the oldest entry is lost. -/
def pushed (th : Thread) (addr : Word) : Thread :=
  { th with
    rs := th.rs.set (BitVec.ofNat 3 ((th.rspTop + 1) % 8)).toFin addr,
    rsp := at_ ((th.rspTop + 1) % 8) 8 ||| BitVec.ofNat 64 (if th.rspDepth = 8 then 8 else th.rspDepth + 1) }

/-- The stack after a pop. -/
def popped (th : Thread) : Thread := { th with rsp := at_ ((th.rspTop + 7) % 8) 8 ||| BitVec.ofNat 64 (th.rspDepth - 1) }

theorem push_eq {th : Thread} (hb : th.rsBusy = false) (hd : ¬ (th.rspDepth = 8 ∧ th.rso = true)) (addr : Word) :
    push th addr = .ok (pushed th addr, if th.rspDepth = 8 then [wrFlags 1 fRSW] else []) := by
  simp only [push, hb, Bool.false_eq_true, if_false, if_neg hd, pushed]

theorem push_full {th : Thread} (hb : th.rsBusy = false) (hd : th.rspDepth = 8 ∧ th.rso = true) (addr : Word) :
    push th addr = .error 9 := by
  simp only [push, hb, Bool.false_eq_true, if_false, if_pos hd]

theorem pop_eq {th : Thread} (hb : th.rsBusy = false) (hd : ¬ (th.rspDepth = 0 ∧ th.rso = true)) :
    pop th = .ok (th.rs[(BitVec.ofNat 3 th.rspTop).toFin], popped th, if th.rspDepth = 0 then [wrFlags 1 fRSU] else []) := by
  simp only [pop, hb, Bool.false_eq_true, if_false, if_neg hd, popped]

theorem pop_empty {th : Thread} (hb : th.rsBusy = false) (hd : th.rspDepth = 0 ∧ th.rso = true) : pop th = .error 0x0A := by
  simp only [pop, hb, Bool.false_eq_true, if_false, if_pos hd]

theorem pushed_fields {th : Thread} (hd : th.rspDepth ≤ 8) (addr : Word) : (pushed th addr).rspTop = (th.rspTop + 1) % 8
    ∧ (pushed th addr).rspDepth = min 8 (th.rspDepth + 1)
    ∧ ∀ i : Fin 8, (pushed th addr).rs[i] = if i.val = (th.rspTop + 1) % 8 then addr else th.rs[i] := by
  have ht : (th.rspTop + 1) % 8 < 8 := Nat.mod_lt _ (by decide)
  obtain ⟨htop, hdep⟩ := rsp_fields (depth := if th.rspDepth = 8 then 8 else th.rspDepth + 1) ht (by split <;> omega)
  exact ⟨htop, hdep.trans (by split <;> omega), get_set_stack th.rs ht addr⟩

theorem popped_fields {th : Thread} (hd : th.rspDepth ≤ 8) :
    (popped th).rspTop = (th.rspTop + 7) % 8 ∧ (popped th).rspDepth = th.rspDepth - 1 :=
  rsp_fields (Nat.mod_lt _ (by decide)) (by omega)

/-- The entry at the top, by its number. -/
theorem top_entry (th : Thread) {i : Fin 8} (hi : i.val = th.rspTop) : th.rs[(BitVec.ofNat 3 th.rspTop).toFin] = th.rs[i] := by
  have e : th.rspTop % 8 = i.val := by rw [← hi]; exact Nat.mod_eq_of_lt i.isLt
  simp [e]

section
variable {s s1 : State} {t : Tid} {th : Thread} {word p : Word} {body : State → Thread → Eff} (h : Issues s s1 t th { major := 1 } 0)
  (hb : th.rsBusy = false)
include h hb

/-- A call to an aligned address pushes the address of the following instruction and goes there, or traps with RS_OVERFLOW. -/
theorem control_call (hbody : body s1 th = callTo s1 th p) (hp : p.toNat % 8 = 0) :
    if th.rspDepth = 8 ∧ th.rso then control t true word body s = .next (trapped s1 t th 9 0)
    else control t true word body s
      = .next (issued s1 t (pushed th (th.pc + 8)) th.vi 1 (.to p true) (if th.rspDepth = 8 then [wrFlags 1 fRSW] else [])) := by
  have hc : ¬ bits p 2 0 ≠ 0 := by rw [bits_low_three]; exact not_not.2 hp
  rw [callTo, if_neg hc] at hbody
  split
  next hd =>
    rw [push_full hb hd] at hbody
    exact issue_trap h rfl hbody
  next hd =>
    rw [push_eq hb hd] at hbody
    exact issue_ok h rfl hbody rfl h.ready

/-- `ret` pops the entry at the top and goes there, or traps with RS_UNDERFLOW. -/
theorem ret_pops {i : Fin 8} (hi : i.val = th.rspTop) (hp : th.rs[i].toNat % 8 = 0) :
    if th.rspDepth = 0 ∧ th.rso then execRet t s = .next (trapped s1 t th 0x0A 0)
    else execRet t s = .next (issued s1 t (popped th) th.vi 1 (.to th.rs[i] false) (if th.rspDepth = 0 then [wrFlags 1 fRSU] else [])) := by
  have hc : ¬ bits th.rs[i] 2 0 ≠ 0 := by rw [bits_low_three]; exact not_not.2 hp
  unfold execRet control
  split
  next hd =>
    refine issue_trap h rfl ?_
    simp only [hb, Bool.false_eq_true, if_false, top_entry th hi, if_neg hc, pop_empty hb hd]
  next hd =>
    refine issue_ok h rfl ?_ rfl h.ready
    simp only [hb, Bool.false_eq_true, if_false, top_entry th hi, if_neg hc, pop_eq hb hd]

end

/-- Settles O11: transfers by `control_jump`, calls by `control_call`, returns by `ret_pops`. -/
theorem branchesCallsAndReturns : Obligations.BranchesCallsAndReturns := by
  intro s s1 t th imm c a d h
  refine ⟨control_jump h rfl, control_jump h rfl, ?_, fun hb hd => ?_⟩
  · refine (bcc_branches h).trans (if_congr ?_ rfl rfl)
    cases c <;> simp [condHolds]
  · refine ⟨fun hp => ?_, fun hp => ?_, fun i hi hp => ?_⟩
    · have e := control_call (word := encI 0x08 0x01 0 0 imm) (body := fun s th => callTo s th (branchTo th imm)) h hb rfl hp
      split at e
      next hf => rw [if_pos hf]; exact e
      next hf => rw [if_neg hf]; exact ⟨_, e, rfl, pushed_fields hd _⟩
    · have e := control_call (word := encT 0x0A 0x01 0 a 0) (body := fun s th => callTo s th (rdG s th a)) h hb rfl hp
      split at e
      next hf => rw [if_pos hf]; exact e
      next hf => rw [if_neg hf]; exact ⟨_, e, rfl, pushed_fields hd _⟩
    · have e := ret_pops h hb hi hp
      split at e
      next hf => rw [if_pos hf]; exact e
      next hf => rw [if_neg hf]; exact ⟨_, e, rfl, popped_fields hd⟩

end Sys2Proof.Machine

/-! `wait`, `brep` and `tend` (R90, R91, R95, R97). -/

namespace Sys2Proof.Machine

/-! ## Results at a wait -/

theorem applyOp_st (s : State) (th : Thread) (o : Op) : (applyOp s th o).st = th.st := by
  unfold applyOp
  dsimp only
  cases o.dest with
  | none => split <;> rfl
  | some d => split <;> exact applyRes_st ..

theorem applyOps_st (s : State) (th : Thread) (l : List Op) : (applyOps s th l).st = th.st := foldl_proj Thread.st (applyOp_st s) l th

/-- Results at a wait draw on no counter. -/
theorem countsOnly.applyOps {s u : State} (h : countsOnly s u) (th : Thread) (l : List Op) :
    Machine.applyOps u th l = Machine.applyOps s th l := by
  rw [h]
  rfl

/-- The thread past a `wait` of limits a and b that raises no fault: what it met is in its registers and leaves the lists. -/
def waited (s : State) (th : Thread) (a b : Nat) : Thread :=
  let th' := applyOps s { th with st := .ready } (metLoads th a)
  { th' with loads := th'.loads.drop (metLoads th a).length, stores := th'.stores.drop (metStores th b).length }

theorem waited_st (s : State) (th : Thread) (a b : Nat) : (waited s th a b).st = .ready := applyOps_st s { th with st := .ready } _

theorem stepTrap_off (s : State) (t : Tid) : stepTrap s t false = s := by
  unfold stepTrap
  split <;> rfl

theorem finishWait_goesOn (s : State) (t : Tid) {th : Thread} {a b : Nat} (hs : th.sstep = false) (hf : faultsAt th a b = false) :
    finishWait s t th a b = putThr (nextFree s) t (advanceSlot (goNext (waited s th a b) .on) []) := by
  have hf' : faultsAt { th with st := .ready } a b = false := hf
  have hs' : ({ th with st := .ready } : Thread).sstep = false := hs
  unfold finishWait
  dsimp only
  rw [hf', hs', if_neg Bool.false_ne_true]
  exact stepTrap_off _ t

/-! ## Issue -/

section
variable {s s1 : State} {t : Tid} {th : Thread} {c : Cls} {priv : Nat} {word : Word} {body : State → Thread → Eff}
  (h : Issues s s1 t th c priv)
include h

theorem issue_waits {a b : BitVec 6} (hb : body s1 th = .waits a b) : issue t c true priv word body s
    = .next (if waitHolds th a.toNat b.toNat then settle (finishWait (countIssue s1 t.facet th.vi c.major) t th a.toNat b.toNat)
      else putThr (countIssue s1 t.facet th.vi c.major) t { th with st := .waiting a b }) := by
  have hp : ¬ th.priv < priv := Nat.not_lt.2 h.priv
  rw [issue_now h]
  simp only [issueNow, h.fetch, hb, hp, Bool.not_true, Bool.false_eq_true, if_false]

theorem issue_ends (hb : body s1 th = .ends) :
    issue t c true priv word body s = .next (endThread (countIssue s1 t.facet th.vi c.major) t th 0) := by
  have hp : ¬ th.priv < priv := Nat.not_lt.2 h.priv
  rw [issue_now h]
  simp only [issueNow, h.fetch, hb, hp, Bool.not_true, Bool.false_eq_true, if_false]

end

section
variable {s s1 : State} {t : Tid} {th : Thread} (h : Issues s s1 t th { major := 1 } 0)
include h

theorem wait_goesOn {a b : BitVec 6} (hw : waitHolds th a.toNat b.toNat = true) (hf : faultsAt th a.toNat b.toNat = false) :
    execWait t a b s = .next (issued s1 t (waited s1 th a.toNat b.toNat) th.vi 1 .on []) := by
  have hc : waited (countIssue s1 t.facet th.vi 1) th a.toNat b.toNat = waited s1 th a.toNat b.toNat := by
    rw [waited, (countIssue_counts s1 t.facet th.vi 1).applyOps]
    rfl
  refine (issue_waits h rfl).trans ?_
  rw [if_pos hw, finishWait_goesOn _ t h.step hf, settle_id, hc, issued]
  exact settled_putThr h.settled1 (countIssue_threads ..) (by rw [advanceSlot_st, goNext_st, waited_st])

theorem wait_waits {a b : BitVec 6} (hw : waitHolds th a.toNat b.toNat = false) :
    execWait t a b s = .next (putThr (countIssue s1 t.facet th.vi 1) t { th with st := .waiting a b }) := by
  refine (issue_waits h rfl).trans ?_
  rw [if_neg (by rw [hw]; exact Bool.false_ne_true)]

/-- With no block active, `brep` starts one, or skips it for a count of zero (R97). -/
theorem brep_starts {g : Reg} {len : Imm} (h1 : 1 ≤ len.toNat) (h2 : len.toNat ≤ 1024) (h0 : th.brcCount = 0) :
    execBrep t g len s = if rdG s1 th g = 0 then .next (issued s1 t th th.vi 1 (.to (th.pc + 8 + 8 * len.signExtend 64) true) [])
      else .next (issued s1 t th th.vi 1 .on [wrS 1 3 (th.pc + 8), wrS 1 2 (at_ len.toNat 32 ||| (rdG s1 th g &&& 0xFFFFFFFF))]) := by
  have hl : bits len 15 0 = len.toNat := Nat.mod_eq_of_lt (by omega : len.toNat >>> 0 < 2 ^ 16)
  have hw : okBrep len = true := by simp [okBrep, h1, h2]
  have hc : ¬ th.brcCount ≠ 0 := not_not.2 h0
  split
  next hg => exact issue_ok h hw (by dsimp only; rw [if_neg hc, if_pos hg]; rfl) rfl h.ready
  next hg => exact issue_ok h hw (by dsimp only; rw [if_neg hc, if_neg hg, hl]) rfl h.ready

theorem brep_nested {g : Reg} {len : Imm} (h1 : 1 ≤ len.toNat) (h2 : len.toNat ≤ 1024) (h0 : th.brcCount ≠ 0) :
    execBrep t g len s = .next (trapped s1 t th 0x0C th.brs) :=
  issue_trap h (by simp [okBrep, h1, h2]) (if_pos h0)

end

/-- Settles O12: `wait` by the truth of its condition, `brep` by the block count, `tend` at once. -/
theorem waitRepeatAndEnd : Obligations.WaitRepeatAndEnd := by
  intro s s1 t th a b g len h
  refine ⟨fun hw hf => ⟨s1, _, countsOnly.refl s1, wait_goesOn h hw hf, rfl⟩,
    fun hw => ⟨_, countIssue_counts .., wait_waits h hw⟩, fun h1 h2 h0 => brep_starts h h1 h2 h0, fun h1 h2 h0 => brep_nested h h1 h2 h0,
    ⟨_, countIssue_counts .., issue_ends h rfl⟩⟩

end Sys2Proof.Machine

/-! Memory instructions as they issue (R76, R88, R121-R123, R125): the operation joins the thread's outstanding ones. -/

namespace Sys2Proof.Machine

theorem aligned_eq_true {a : Word} {n : Nat} : aligned a n = true ↔ a.toNat % n = 0 := decide_eq_true_iff

/-- A vector access with an active lane is misaligned where its address is (R122, R123). -/
theorem misaligned_eq {th : Thread} {f : VMem} (h : activeLanes th f.et f.km ≠ []) (ea : Word) :
    misaligned th f ea = !aligned ea (memLane f.et) := by
  have he : (activeLanes th f.et f.km).isEmpty = false := by simpa using h
  simp [misaligned, he]

section
variable {s s1 : State} {t : Tid} {th : Thread} {c : Cls} {wf : Bool} {word a p : Word} {n m : Nat} {k : AccKind} {act : Act}
  {body : State → Thread → Eff} (h : Issues s s1 t th c 0) (hw : wf = true)
include h hw

/-- A load-class access that stays home joins the loads. -/
theorem issue_startLoad {dest : Option Dest} (hs : staysHome s1 th.vi act) (hb : body s1 th = startLoad s1 t th act dest a m k) :
    issues (issue t c wf 0 word body s) s1 t (withLoad s1 th act dest) th.vi c.major .on [] :=
  issues_ok h hw (countTarget_counts ..) (hb.trans (startLoad_home hs)) h.ready

/-- A store-class access that stays home joins the stores; `th0` is what else the instruction made of the thread. -/
theorem issue_startStore {th0 : Thread} (hv : th0.vi = th.vi) (hr : th0.st = .ready) (hs : staysHome s1 th.vi act)
    (hb : body s1 th = startStore s1 t th0 act a m k) :
    issues (issue t c wf 0 word body s) s1 t (withStore s1 th0 act) th.vi c.major .on [] :=
  issues_ok h hw (countTarget_counts ..) (hb.trans (startStore_home (hv ▸ hs))) hr

/-- A load joins the loads, or traps with MISALIGN and `TVAL` its address (R122). -/
theorem issue_load {dest : Option Dest} (hb : body s1 th = if !aligned p n then .trap 3 p else startLoad s1 t th act dest a m k) :
    if p.toNat % n = 0 then staysHome s1 th.vi act →
      issues (issue t c wf 0 word body s) s1 t (withLoad s1 th act dest) th.vi c.major .on []
    else issue t c wf 0 word body s = .next (trapped s1 t th 3 p) := by
  split
  next hp =>
    rw [aligned_eq_true.2 hp, if_neg (by decide)] at hb
    exact fun hs => issue_startLoad h hw hs hb
  next hp =>
    rw [Bool.eq_false_iff.2 (mt aligned_eq_true.1 hp), if_pos (by rfl)] at hb
    exact issue_trap h hw hb

/-- A store joins the stores, or traps with MISALIGN and `TVAL` its address (R122). -/
theorem issue_store {th0 : Thread} (hv : th0.vi = th.vi) (hr : th0.st = .ready)
    (hb : body s1 th = if !aligned p n then .trap 3 p else startStore s1 t th0 act a m k) :
    if p.toNat % n = 0 then staysHome s1 th.vi act →
      issues (issue t c wf 0 word body s) s1 t (withStore s1 th0 act) th.vi c.major .on []
    else issue t c wf 0 word body s = .next (trapped s1 t th 3 p) := by
  split
  next hp =>
    rw [aligned_eq_true.2 hp, if_neg (by decide)] at hb
    exact fun hs => issue_startStore h hw hv hr hs hb
  next hp =>
    rw [Bool.eq_false_iff.2 (mt aligned_eq_true.1 hp), if_pos (by rfl)] at hb
    exact issue_trap h hw hb

end

/-- No lane of a gather or scatter is misaligned. -/
theorem find_misaligned {l : List (Nat × Word)} {n : Nat} (h : ∀ p ∈ l, p.2.toNat % n = 0) :
    l.find? (fun p => !aligned p.2 n) = none := by
  rw [List.find?_eq_none]
  intro p hp
  rw [aligned_eq_true.2 (h p hp)]
  decide

/-- Settles O13: each instruction is one load, with its own access and destination. -/
theorem loadInstructionsJoinLoads : Obligations.LoadInstructionsJoinLoads := by
  intro s s1 t th size d a b c imm f x op dbl ea
  refine ⟨fun h => ⟨issue_load h rfl rfl, issue_load h rfl rfl, fun hok => ?amo, fun hl => ?vld, fun hal hs => ?vldx⟩,
    fun h => issue_load h rfl rfl, fun h => issue_load h rfl rfl⟩
  case amo => exact issue_load (c := { major := 2, ld := true }) h hok rfl
  case vld => exact issue_load h rfl (by dsimp only; rw [misaligned_eq hl]; rfl)
  case vldx =>
    refine issue_startLoad h rfl hs ?_ (a := ((idxLanes s1 th x).head?.map (·.2)).getD 0) (m := memLane x.et) (k := .rd)
    dsimp only
    have hf : (idxLanes s1 th x).find? (fun p => !aligned p.2 (memLane x.et)) = none := find_misaligned hal
    rw [hf]
    rfl

/-- `amo.n` names no result, and neither D nor C. -/
theorem okAmo_noResult {op : AmoOp} (h : op.code < 8) : okAmo op true 0 0 = true := by
  cases op <;> simp_all [okAmo, AmoOp.code]

/-- Settles O14: each instruction is one store, with the bytes it will write. -/
theorem storeInstructionsJoinStores : Obligations.StoreInstructionsJoinStores := by
  intro s s1 t th size d a b imm f x op dbl ea
  refine ⟨fun h => ⟨issue_store h rfl rfl h.ready rfl, fun hb => ?rspush, fun hop => ?amo, fun hl => ?vst, fun hal hs => ?vstx⟩,
    fun h hm hal v hv hs => ?easave⟩
  case rspush =>
    refine issue_store h rfl rfl h.ready ?_ (th0 := { th with rsp := th.rsp &&& 0x700 }) (a := rdG s1 th a + immS imm) (m := 8) (k := .wr)
    dsimp only
    rw [hb]
    rfl
  case amo => exact issue_store (c := { major := 2, st := true }) h (okAmo_noResult hop) rfl h.ready rfl
  case vst => exact issue_store h rfl rfl h.ready (by dsimp only; rw [misaligned_eq hl]; rfl)
  case vstx =>
    refine issue_startStore h rfl rfl h.ready hs ?_ (a := ((idxLanes s1 th x).head?.map (·.2)).getD 0) (m := memLane x.et) (k := .wr)
    dsimp only
    have hf : (idxLanes s1 th x).find? (fun p => !aligned p.2 (memLane x.et)) = none := find_misaligned hal
    rw [hf]
    rfl
  case easave =>
    refine issue_startStore h rfl rfl h.ready hs ?_ (a := rdG s1 th a) (m := 8) (k := .wr)
    dsimp only
    rw [aligned_eq_true.2 hal, hm]
    simp only [accRead, accUse, hv]
    rfl

end Sys2Proof.Machine

/-! Integer vector instructions, moves, compares and mask instructions (R77-R79, R138-R142, R151). -/

namespace Sys2Proof.Machine

/-! ## Flags over lanes -/

theorem zipIdx_map_range {α : Type} (g : Nat → α) (n : Nat) : ((List.range n).map g).zipIdx = (List.range n).map (fun i => (g i, i)) :=
  List.ext_getElem (by simp) (by simp)

theorem laneFlags_map_range (m : BitVec 128) (g : Nat → Nat × Word) (n : Nat) : laneFlags m ((List.range n).map g)
    = (List.range n).foldl (fun f i => if active m i then f ||| (g i).2 else f) 0 := by
  rw [laneFlags, zipIdx_map_range, List.foldl_map]

/-- One flag over lanes is set where an active lane raises it. -/
theorem laneFlags_flagIf (m : BitVec 128) (r : Nat → Nat) (ov : Nat → Bool) (n : Nat) (fl : Word) :
    laneFlags m ((List.range n).map (fun i => (r i, flagIf (ov i) fl)))
      = if (List.range n).any (fun i => active m i && ov i) then fl else 0 := by
  have acc : ∀ (l : List Nat) (a : Word), l.foldl (fun f i => if active m i then f ||| flagIf (ov i) fl else f) a
      = a ||| if l.any (fun i => active m i && ov i) then fl else 0 := by
    intro l
    induction l with
    | nil => intro a; simp
    | cons i l ih =>
      intro a
      rw [List.foldl_cons, ih]
      rw [List.any_cons]
      cases active m i <;> cases ov i <;> cases l.any (fun i => active m i && ov i) <;> simp [flagIf, BitVec.or_assoc]
  rw [laneFlags_map_range, acc]
  simp

/-- A flag that no lane raises is not among the flags. -/
theorem laneFlags_and_eq_zero (m : BitVec 128) (g : Nat → Nat × Word) (n : Nat) {fl : Word} (h : ∀ i, (g i).2 &&& fl = 0) :
    laneFlags m ((List.range n).map g) &&& fl = 0 := by
  have acc : ∀ (l : List Nat) (a : Word), a &&& fl = 0 → l.foldl (fun f i => if active m i then f ||| (g i).2 else f) a &&& fl = 0 := by
    intro l
    induction l with
    | nil => exact fun a ha => ha
    | cons i l ih =>
      intro a ha
      rw [List.foldl_cons]
      refine ih _ ?_
      split
      · rw [BitVec.and_comm, BitVec.and_or_distrib_left, BitVec.and_comm fl, BitVec.and_comm fl, ha, h i]
        rfl
      · exact ha
  rw [laneFlags_map_range]
  exact acc _ 0 (BitVec.zero_and ..)

/-! ## Issue -/

/-- Raised exceptions are counted and nothing else. -/
theorem flagged_goesOn (u : State) (t : Tid) {th : Thread} {fl : Word} (ws : List Wr) (hv : fl &&& fV = 0 ∨ th.vt = false)
    (hf : fl &&& th.fpt = 0) : ∃ u', countsOnly u u' ∧ flagged u t th fl ws = .ok u' th ws .on none := by
  have hc : ((fl &&& fV != 0) && th.vt) = false := by rcases hv with hv | hv <;> simp [hv]
  have count (u : State) (f : Word) (i : Nat) : countsOnly u (if fl &&& f != 0 then countEv u t.facet th.vi i 1 else u) := by
    split
    · exact countEv_counts ..
    · exact countsOnly.refl u
  unfold flagged
  rw [hc, if_neg Bool.false_ne_true, if_neg (not_not.2 hf)]
  exact ⟨_, (((count _ _ _).trans (count _ _ _)).trans (count _ _ _)).trans (count _ _ _), rfl⟩

theorem flagged_overflows (u : State) (t : Tid) {th : Thread} {fl : Word} (ws : List Wr) (hv : fl &&& fV ≠ 0) (ht : th.vt = true) :
    flagged u t th fl ws = .trap 7 0 := by
  have hc : ((fl &&& fV != 0) && th.vt) = true := by rw [ht, Bool.and_true]; exact bne_iff_ne.2 hv
  unfold flagged
  rw [hc, if_pos rfl]

/-- What a lane-wise instruction of latency `lat` does whose lane `i` is `r i` and overflows where `ov i` (R78, R79, R151). -/
def eachLane (o : Host.Outcome State Fault Refusal) (s1 : State) (t : Tid) (th : Thread) (lat : Nat) (et : EType) (vd : VReg) (km : MReg)
    (r : Nat → Nat) (ov : Nat → Bool) : Prop :=
  if (List.range et.lanes).any (fun i => active (rdM th km) i && ov i) = true ∧ th.vt = true then o = .next (trapped s1 t th 7 0)
  else th.fpt = 0 → issues o s1 t th th.vi 4 .on
    [wrV lat vd (laneBytes et.width et.lanes (rdM th km)) (pack et.width ((List.range et.lanes).map r))
      (if (List.range et.lanes).any (fun i => active (rdM th km) i && ov i) then fV else 0)]

section
variable {s s1 : State} {t : Tid} {th : Thread} {ok : Bool} {word : Word} {et : EType} {n : Nat} {body : State → Thread → Eff}
  (h : Issues s s1 t th { major := 4 } 0) (hok : ok = true)
include h hok

/-- The counting of lane operations reaches the body as a state that differs in counters. -/
theorem vector_issues {ws : List Wr} (hb : ∀ c, ∃ u, countsOnly s1 u ∧ body { s1 with cnts := c } th = .ok u th ws .on none) :
    issues (vector t ok word et n body s) s1 t th th.vi 4 .on ws := by
  obtain ⟨c, hc⟩ := countEv_ex s1 t.facet th.vi (0x10 + et.code) n
  obtain ⟨u, hu, e⟩ := hb c
  exact issues_ok h hok hu (by rw [hc, e]) h.ready

/-- A vector instruction that sets no flag. -/
theorem vector_writes {ws : List Wr} (hb : ∀ c, body { s1 with cnts := c } th = justWr { s1 with cnts := c } th ws) :
    issues (vector t ok word et n body s) s1 t th th.vi 4 .on ws :=
  vector_issues h hok (fun c => ⟨{ s1 with cnts := c }, rfl, hb c⟩)

/-- A vector instruction whose flags raise nothing. -/
theorem vector_flagged {fl : Word} {ws : List Wr} (hv : fl &&& fV = 0 ∨ th.vt = false) (hf : fl &&& th.fpt = 0)
    (hb : ∀ c, body { s1 with cnts := c } th = flagged { s1 with cnts := c } t th fl ws) :
    issues (vector t ok word et n body s) s1 t th th.vi 4 .on ws := by
  refine vector_issues h hok (fun c => ?_)
  obtain ⟨u, hu, e⟩ := flagged_goesOn { s1 with cnts := c } t ws hv hf
  exact ⟨u, countsOnly.trans (u := { s1 with cnts := c }) rfl hu, (hb c).trans e⟩

/-- A lane-wise instruction with no flag writes the lanes of its mask. -/
theorem vector_lanes {lat : Nat} {et' : EType} {vd : VReg} {km : MReg} {r : Nat → Nat}
    (hb : ∀ c, body { s1 with cnts := c } th
      = laneWrite { s1 with cnts := c } t th lat et' vd km ((List.range et'.lanes).map (fun i => (r i, 0)))) :
    issues (vector t ok word et n body s) s1 t th th.vi 4 .on
      [wrV lat vd (laneBytes et'.width et'.lanes (rdM th km)) (pack et'.width ((List.range et'.lanes).map r))] := by
  have hz : laneFlags (rdM th km) ((List.range et'.lanes).map (fun i => (r i, (0 : Word)))) = 0 := by
    rw [laneFlags_map_range]
    simp
  refine vector_flagged h hok (fl := 0) (.inl (BitVec.zero_and ..)) (BitVec.zero_and ..) (fun c => ?_)
  rw [hb c, laneWrite, hz, List.map_map]
  rfl

/-- A lane-wise instruction whose lanes may overflow: V with the result, or OVERFLOW under `TCTL.VT` (R151). -/
theorem vector_eachLane {lat : Nat} {et' : EType} {vd : VReg} {km : MReg} {r : Nat → Nat} {ov : Nat → Bool}
    (hb : ∀ c, body { s1 with cnts := c } th
      = laneWrite { s1 with cnts := c } t th lat et' vd km ((List.range et'.lanes).map (fun i => (r i, flagIf (ov i) fV)))) :
    eachLane (vector t ok word et n body s) s1 t th lat et' vd km r ov := by
  have hl (c : Tab (BitVec 48 × Bool)) : body { s1 with cnts := c } th = flagged { s1 with cnts := c } t th
      (if (List.range et'.lanes).any (fun i => active (rdM th km) i && ov i) then fV else 0)
      [wrV lat vd (laneBytes et'.width et'.lanes (rdM th km)) (pack et'.width ((List.range et'.lanes).map r))
        (if (List.range et'.lanes).any (fun i => active (rdM th km) i && ov i) then fV else 0)] := by
    rw [hb c, laneWrite, laneFlags_flagIf, List.map_map]
    rfl
  unfold eachLane
  cases ho : (List.range et'.lanes).any (fun i => active (rdM th km) i && ov i) with
  | false =>
    simp only [ho, Bool.false_eq_true, false_and, if_false] at hl ⊢
    exact fun hf => vector_flagged h hok (.inl (BitVec.zero_and ..)) (BitVec.zero_and ..) hl
  | true =>
    simp only [ho, true_and, if_true] at hl ⊢
    split
    next hv =>
      obtain ⟨c, hc⟩ := countEv_ex s1 t.facet th.vi (0x10 + et.code) n
      exact issue_trap h hok (by rw [hc, hl c]; exact flagged_overflows _ t _ (by decide) hv)
    next hv => exact fun hf => vector_flagged h hok (.inr (Bool.eq_false_iff.2 hv)) (by rw [hf]; exact BitVec.and_zero) hl

end

/-! ## The values of integer lanes -/

/-- Saturation in the words of R151. -/
theorem satS_eq (w : Nat) (x : Int) :
    satS w x = if x < -(2 ^ (w - 1)) then -(2 ^ (w - 1)) else if 2 ^ (w - 1) ≤ x then 2 ^ (w - 1) - 1 else x := by
  unfold satS
  refine if_congr Iff.rfl rfl (if_congr ?_ rfl rfl)
  omega

theorem not_fitsS (w : Nat) (x : Int) : (!fitsS w x) = decide (x < -(2 ^ (w - 1)) ∨ 2 ^ (w - 1) ≤ x) := by
  rw [fitsS, Bool.not_and, Bool.decide_or, ← decide_not, ← decide_not]
  simp only [not_le, not_lt]

section
variable {s s1 : State} {t : Tid} {th : Thread} {major fn lat : Nat} {ok : Bool} (h : Issues s s1 t th { major := 4 } 0) (hok : ok = true)
include h hok

theorem vec2_lanes {f : VOp} {g : Thread → Nat → Nat → Nat × Word} {r : Nat → Nat} {ov : Nat → Bool}
    (hg : ∀ i, g th (lane f.et.width (rdV s1 th f.va) i) (rdVB s1 th f.et.width f.vb i) = (r i, flagIf (ov i) fV)) :
    eachLane (vec2 t major fn lat ok f g s) s1 t th lat f.et f.vd f.km r ov := by
  refine vector_eachLane h hok (fun c => ?_)
  simp only [← hg]
  rfl

theorem vec1_lanes {f : VUn} {g : Thread → Nat → Nat × Word} {r : Nat → Nat} {ov : Nat → Bool}
    (hg : ∀ i, g th (lane f.et.width (rdV s1 th f.va) i) = (r i, flagIf (ov i) fV)) :
    eachLane (vec1 t major fn lat ok f g s) s1 t th lat f.et f.vd f.km r ov := by
  refine vector_eachLane h hok (fun c => ?_)
  simp only [← hg]
  rfl

end

/-- Settles O17: each instruction is its own value in every lane, under the write mask; only saturation and negation overflow. -/
theorem vectorIntegerLanes : Obligations.VectorIntegerLanes := by
  intro s s1 t th f g sub k l sh h hf hg
  refine ⟨vec2_lanes h hf ?add, vec2_lanes h hf ?adds, vec2_lanes h hf ?min, vec2_lanes h hf ?log, vec2_lanes h hf ?shift,
    vec2_lanes h hf ?mul, vec1_lanes h hg ?neg⟩
  case adds => exact fun i => Prod.ext (congrArg (uval f.et.width) (satS_eq ..)) (congrArg (flagIf · fV) (not_fitsS ..))
  case log => cases l <;> exact fun _ => rfl
  case neg => exact fun i => Prod.ext rfl (congrArg (flagIf · fV) (beq_eq_decide ..))
  all_goals exact fun _ => rfl

/-! ## Compares -/

theorem flagIf_and_eq_zero {c : Bool} {a b : Word} (h : a &&& b = 0) : flagIf c a &&& b = 0 := by
  cases c
  · exact BitVec.zero_and ..
  · exact h

/-- A compare raises at most NV. -/
theorem fcmp_flags (f : Fmt) (k : VCmp) (a b : Nat) : (fcmp f k a b).2 &&& fV = 0 := by
  have hnv : ∀ c, flagIf c fNV &&& fV = 0 := fun c => flagIf_and_eq_zero (by decide)
  cases k
  case eq => exact hnv _
  case ne => exact hnv _
  case lt => exact hnv _
  case le => exact hnv _
  case un => exact hnv _
  case ltu => exact BitVec.zero_and ..
  case leu => exact BitVec.zero_and ..

theorem laneCmp_flags (k : VCmp) (et : EType) (a b : Nat) : (laneCmp k et a b).2 &&& fV = 0 := by
  unfold laneCmp
  split
  · exact BitVec.zero_and ..
  · exact fcmp_flags ..

/-- Settles O18: a compare is its mask bits under the write mask, with NV; the others set no flag. -/
theorem vectorMovesComparesAndMasks : Obligations.VectorMovesComparesAndMasks := by
  refine ⟨fun s s1 t th k et vd va vb b md km g x f h hf hmx hfmx => ?_, fun s s1 t th k md a b x g et h => ?_⟩
  · have hm : (!et.isMx) = true := by rw [hmx]; rfl
    have hm' : (!f.et.isMx) = true := by rw [hfmx]; rfl
    refine ⟨fun hk => ?cmp, ?sel, ?mov, ?bcast, ?perm, fun hx => ⟨?ins, ?ext⟩⟩
    case cmp =>
      rw [exec_vcmp, execVcmp]
      have hv : laneFlags (rdM th km) ((List.range et.lanes).map (fun i =>
          (0, (laneCmp k et (lane et.width (rdV s1 th va) i) (rdVB s1 th et.width b i)).2))) &&& fV = 0 :=
        laneFlags_and_eq_zero _ _ _ (fun i => laneCmp_flags ..)
      refine vector_flagged h hk (.inl hv) (by rw [hf]; exact BitVec.and_zero) (fun c => ?_)
      dsimp only
      rw [zipIdx_map_range, List.map_map, List.map_map]
      rfl
    case sel =>
      rw [exec_vsel, execVsel]
      exact vector_writes h hm (fun _ => rfl)
    case mov =>
      rw [exec_vmov, execVmov, vec1]
      exact vector_lanes h hm' (fun _ => rfl)
    case bcast =>
      rw [exec_vbcast, execVbcast]
      exact vector_lanes h hm (fun _ => rfl)
    case perm =>
      rw [exec_vperm, execVperm]
      exact vector_lanes h hm (fun _ => rfl)
    case ins =>
      rw [exec_vins, execVins]
      exact vector_writes h hx (fun _ => rfl)
    case ext =>
      rw [exec_vext, execVext]
      exact vector_writes h hx (fun _ => rfl)
  · refine ⟨fun hk => ?logic, fun hx => ?set, ?pop⟩
    case logic =>
      refine issues_ok h hk (countsOnly.refl s1) ?_ h.ready
      cases k <;> rfl
    case set => exact issues_ok h hx (countsOnly.refl s1) rfl h.ready
    case pop => exact issues_ok h rfl (countsOnly.refl s1) rfl h.ready

end Sys2Proof.Machine

/-! System instructions (R80, R102, R104, R115, R150, R282). -/

namespace Sys2Proof.Machine

/-- An instruction above the thread's profile traps with PRIVILEGE (R102). -/
theorem issue_privilege {s s1 : State} {t : Tid} {th : Thread} {c : Cls} {p priv : Nat} {word : Word} {body : State → Thread → Eff}
    (h : Issues s s1 t th c p) (hp : th.priv < priv) : issue t c true priv word body s = .next (trapped s1 t th 2 word) := by
  unfold issue
  rw [h.here]
  simp only [h.ready, h.runs, h.free, h.turn, ne_eq, not_true_eq_false, Bool.not_true, Bool.false_eq_true, or_self, if_false]
  simp only [issueNow, h.fetch, hp, Bool.not_true, Bool.false_eq_true, if_false, if_true, trapped]

/-- With every earlier `evwait` complete, another may be outstanding (R237). -/
theorem no_open_evwait {l : List Op} (h : l.all (fun o => match o.act with | .evwait _ => o.done | _ => true) = true) :
    l.any (fun o => !o.done && (match o.act with | .evwait _ => true | _ => false)) = false := by
  rw [List.any_eq_false]
  intro o ho
  have := List.all_eq_true.1 h o ho
  cases ha : o.act <;> simp_all

/-- Settles O23: each instruction by its own effect at issue. -/
theorem systemInstructions : Obligations.SystemInstructions := by
  intro s s1 t th d a n imm word
  refine ⟨fun h hn => ?special, fun h => ⟨?nop, ?brk, ?hcall, ?illegal⟩, fun h ha => ?tresume, fun h => ?tend, fun h => ⟨?syswr, ?evpost⟩,
    fun h => ?sysrd, fun h he hl => ?evwait, fun p h hp => ?privilege⟩
  case special =>
    have hok : okSreg n = true := decide_eq_true hn
    refine ⟨?_, issue_wr h hok rfl⟩
    refine (issue_wr h hok rfl).trans ?_
    obtain ⟨k, hk⟩ : ∃ k, n.toNat = k := ⟨_, rfl⟩
    rw [hk]
    rfl
  case nop => exact issue_wr h rfl rfl
  case brk => exact issue_after h rfl rfl
  case hcall => exact issue_after h rfl rfl
  case illegal => exact issue_illegal h
  case tresume =>
    refine issue_ok h rfl ?_ rfl h.ready
    dsimp only
    rw [aligned_eq_true.2 ha]
    rfl
  case tend => exact issue_ok h rfl rfl rfl h.ready
  case syswr => exact issue_ok h rfl rfl rfl h.ready
  case evpost => exact issue_ok h rfl rfl rfl h.ready
  case sysrd => exact issue_ok h rfl rfl rfl h.ready
  case evwait =>
    have ht : { th with evTaken := none } = th := by rw [← he]
    refine issue_ok h rfl ?_ rfl h.ready
    refine (if_neg (fun hc => Bool.false_ne_true ((no_open_evwait hl).symm.trans hc))).trans ?_
    rw [he, ht]
    rfl
  case privilege => exact issue_privilege h hp

end Sys2Proof.Machine

/-! Outstanding loads and stores complete where they stand (R88, R89, R92, R121, R124). -/

namespace Sys2Proof.Machine

/-! ## Bytes read back after a write -/

/-- No key below the lowest is listed. -/
theorem tget?_none_below {α : Type} {m : Tab α} {lo k : Nat} (h : risingFrom lo m = true) (hk : k < lo) : tget? m k = none := by
  induction m generalizing lo with
  | nil => rfl
  | cons c r ih =>
    obtain ⟨j, w⟩ := c
    simp only [risingFrom, Bool.and_eq_true, decide_eq_true_eq] at h
    rw [tget?, if_neg (by omega)]
    exact ih h.2 (by omega)

/-- A key deleted from a table of rising keys is listed no more. -/
theorem tget?_tdel_self {α : Type} {m : Tab α} {lo : Nat} (h : risingFrom lo m = true) (k : Nat) : tget? (tdel m k) k = none := by
  induction m generalizing lo with
  | nil => rfl
  | cons c r ih =>
    obtain ⟨j, w⟩ := c
    simp only [risingFrom, Bool.and_eq_true, decide_eq_true_eq] at h
    by_cases hj : j = k
    · rw [tdel, if_pos hj]
      exact tget?_none_below h.2 (by omega)
    · rw [tdel, if_neg hj, tget?, if_neg hj]
      exact ih h.2

theorem Memory.byte_put_self {m : Memory} (h : m.wf = true) (a : Nat) (b : Byte) : (m.put a b).byte a = b := by
  unfold Memory.put Memory.byte
  by_cases hb : b = 0
  · rw [if_pos hb, hb, tget, tget?_tdel_self (Bool.and_eq_true_iff.1 h).1]
    rfl
  · rw [if_neg hb, tget_tset_self]

theorem Memory.byte_put_ne (m : Memory) {a x : Nat} (b : Byte) (h : x ≠ a) : (m.put a b).byte x = m.byte x := by
  unfold Memory.put Memory.byte
  by_cases hb : b = 0
  · rw [if_pos hb, tget_tdel_ne m _ h]
  · rw [if_neg hb, tget_tset_ne m _ _ h]

theorem Memory.byte_puts_outside {d : List Byte} {m : Memory} {a x : Nat} (h : x < a ∨ a + d.length ≤ x) :
    (m.puts a d).byte x = m.byte x := by
  induction d generalizing m a with
  | nil => rfl
  | cons b r ih =>
    rw [List.length_cons] at h
    exact (ih (by omega)).trans (m.byte_put_ne b (by omega))

/-- What was written is read back. -/
theorem Memory.bytes_puts {d : List Byte} {m : Memory} (h : m.wf = true) (a : Nat) : (m.puts a d).bytes a d.length = d := by
  induction d generalizing m a with
  | nil => rfl
  | cons b r ih =>
    have hfirst : ((m.put a b).puts (a + 1) r).byte a = b :=
      (Memory.byte_puts_outside (.inl (Nat.lt_succ_self a))).trans (Memory.byte_put_self h a b)
    exact congrArg₂ List.cons hfirst (ih (m.put_wf a b h) (a + 1))

/-! ## Clean blocks -/

theorem mem_blocksOf_self (pa : Nat) {n : Nat} (hn : n ≠ 0) : pa / 64 ∈ blocksOf pa n := by
  unfold blocksOf
  rw [if_neg hn]
  exact List.mem_map.2 ⟨0, List.mem_range.2 (Nat.succ_pos _), Nat.zero_add _⟩

theorem touchBlocks_clean {s : State} {pa n : Nat} (h : cleanAt s pa n) (c : Option Vi) : touchBlocks s pa n c = s := by
  have keep : ∀ l : List Nat, (∀ b ∈ l, b ∉ s.ue) → l.foldl (fun s b => if s.ue.contains b then foundUe s b c else s) s = s := by
    intro l
    induction l with
    | nil => exact fun _ => rfl
    | cons b r ih =>
      intro hl
      have hb : s.ue.contains b = false := by simpa using hl b List.mem_cons_self
      rw [List.foldl_cons, if_neg (by rw [hb]; exact Bool.false_ne_true)]
      exact ih (fun x hx => hl x (List.mem_cons_of_mem _ hx))
  exact keep _ (fun b hb => (h b hb).2)

theorem anyPoison_clean {s : State} {pa n : Nat} (h : cleanAt s pa n) : anyPoison s pa n = false := by
  rw [anyPoison, List.any_eq_false]
  intro b hb
  simpa using (h b hb).1

/-- A read of clean bytes leaves the state. -/
theorem devRead_clean {s : State} {pa n : Nat} (h : cleanAt s pa n) (c : Option Vi) : devRead s pa n c = (s, s.mem.bytes pa n, false) := by
  simp only [devRead, touchBlocks_clean h, anyPoison_clean h]
  cases c <;> rfl

/-- A write inside one clean block that it does not fill puts its bytes. -/
theorem devWrite_clean {s : State} {pa : Nat} {d : List Byte} (h : cleanAt s pa d.length) (hd : d.length < 64)
    (hfit : pa % 64 + d.length ≤ 64) (vi : Option Vi) : devWrite s vi pa d = { s with mem := s.mem.puts pa d } := by
  by_cases hne : d = []
  · rw [hne]; rfl
  · obtain ⟨hp, hu⟩ := h _ (mem_blocksOf_self pa (by simpa using hne))
    have hblock : writeBlock s vi pa d = { s with mem := s.mem.puts pa d } := by
      unfold writeBlock
      rw [if_neg (by omega)]
      simp [hp, hu]
    have hfuel : d.length / 64 + 2 = 2 := by omega
    rw [devWrite, hfuel, writeBlocks, if_neg (by simpa using hne)]
    simp only [List.take_of_length_le (show d.length ≤ 64 - pa % 64 by omega), List.drop_of_length_le (show d.length ≤ 64 - pa % 64 by omega)]
    rw [hblock]
    rfl

/-- A thread's write inside one clean block of a page that nothing guards is performed at once. -/
theorem engWrite_clean {s : State} {pa : Nat} {d : List Byte} (h : cleanAt s pa d.length) (hd : d.length < 64)
    (hfit : pa % 64 + d.length ≤ 64) (hg : guarded s (pageOf pa) = false) (vi : Vi) (t : Tid) (op : Nat) :
    engWrite s vi pa none d (.thread t op) = { s with mem := s.mem.puts pa d } := by
  by_cases hne : d = []
  · rw [hne]; rfl
  · have hparts : (WAct.bytes pa d).parts = [.bytes pa d] := by
      have hk : d.length ≤ 65536 - pa % 65536 := by omega
      simp [WAct.parts, pageParts, hne, hk]
    have hfree : holds s s.heldW none (.thread t op) (.bytes pa d) = false := by
      simp [holds, WAct.page, hg]
    rw [engWrite, engAct, hparts]
    simp only [List.foldl_cons, List.foldl_nil, partAct, hfree, Bool.false_eq_true, if_false, performW, mirrorOut]
    exact devWrite_clean h hd hfit (some vi)

/-! ## An operation that may be performed is -/

theorem execLoadComplete_loadDone {s : State} {t : Tid} {th : Thread} {op : Nat} {o : Op} (hth : getThr s t = some th) (hm : memServes s = true)
    (ho : th.loads.find? (fun x => x.id == op && !x.done) = some o) (status : BitVec 8) (data : List Byte) :
    exec (.loadComplete t op status data) s = .next (settle (loadDone s t th o status data)) := by
  rw [exec_loadComplete, execLoadComplete, hth]
  simp only [ho, hm, if_true]

theorem execStoreComplete_storeDone {s : State} {t : Tid} {th : Thread} {op : Nat} {o : Op} (hth : getThr s t = some th) (hm : memServes s = true)
    (ho : th.stores.find? (fun x => x.id == op && !x.done) = some o) (status : BitVec 8) :
    exec (.storeComplete t op status) s = .next (settle (storeDone s t th o status)) := by
  rw [exec_storeComplete, execStoreComplete, hth]
  simp only [ho, hm, if_true]

/-- The state once memory has performed operation `o`: `ext` is what memory outside the device answers. -/
def afterPerform (s : State) (t : Tid) (th : Thread) (o : Op) (status : BitVec 8) (ext : List Byte) : State :=
  let p := performAct s t th o status (if o.got = [] then ext else gotBytes o)
  recordOp p.1 t { o with done := !p.2.wait, perf := true, res := p.2.res, fault := p.2.fault }

theorem memComplete_performed {s : State} {t : Tid} {th : Thread} {o : Op} (h : MayPerform s t th o) {status : BitVec 8} (hs : status ≠ 0x0A)
    (ext : List Byte) : memComplete s t th o status ext = afterPerform s t th o status ext := by
  have hext : (if o.got.isEmpty then ext else gotBytes o) = if o.got = [] then ext else gotBytes o := by cases o.got <;> rfl
  simp only [memComplete, h.once, h.whole, h.turn, h.sent, hs, hext, Bool.false_eq_true, gt_iff_lt, lt_self_iff_false, Bool.not_true, or_self,
    false_and, if_false, afterPerform, recordOp]
  cases getThr (performAct s t th o status (if o.got = [] then ext else gotBytes o)).1 t with
  | none => rfl
  | some _ => rfl

theorem loadComplete_performed {s : State} {t : Tid} {th : Thread} {op : Nat} {o : Op} (h : MayPerform s t th o) {status : BitVec 8}
    (hs : status ≠ 0x0A) (ho : th.loads.find? (fun x => x.id == op && !x.done) = some o) (data : List Byte) :
    exec (.loadComplete t op status data) s = .next (settle (afterPerform s t th o status data)) := by
  rw [execLoadComplete_loadDone h.here h.serves ho, loadDone, if_pos h.act, memComplete_performed h hs]

theorem storeComplete_performed {s : State} {t : Tid} {th : Thread} {op : Nat} {o : Op} (h : MayPerform s t th o) {status : BitVec 8}
    (hs : status ≠ 0x0A) (ho : th.stores.find? (fun x => x.id == op && !x.done) = some o) :
    exec (.storeComplete t op status) s = .next (settle (afterPerform s t th o status [])) := by
  rw [execStoreComplete_storeDone h.here h.serves ho, storeDone, if_pos h.act, memComplete_performed h hs]

/-- A scalar load of clean bytes takes them, and leaves the state. -/
theorem performAct_scalarLoad {s : State} {t : Tid} {th : Thread} {o : Op} {a : Word} {n pa : Nat} {sg : Bool} {m : Option Nat}
    (ha : o.act = .ldScalar a n sg) (htr : translate s th.vi a n .rd = .dev pa m) (hc : cleanAt s pa n) (status : BitVec 8) (ext : List Byte) :
    performAct s t th o status ext = 
      (s, { res := if sg then (sextN (8 * n) (ofBytes (s.mem.bytes pa n))).setWidth 1024 else BitVec.ofNat 1024 (ofBytes (s.mem.bytes pa n)) }) := by
  simp only [performAct, ha, readAt, htr, devRead_clean hc, Bool.false_eq_true, if_false]

/-- A scalar store inside one clean block of an unguarded page puts its bytes and is complete. -/
theorem performAct_scalarStore {s : State} {t : Tid} {th : Thread} {o : Op} {w pa : Nat} {a : Word} {d : List Byte}
    (ha : o.act = .stLanes w [(a, d)]) (htr : translate s th.vi a d.length .wr = .dev pa none) (hc : cleanAt s pa d.length)
    (hd : d.length < 64) (hfit : pa % 64 + d.length ≤ 64) (hg : guarded s (pageOf pa) = false) (hw : writeOpen s t o.id = false)
    (status : BitVec 8) (ext : List Byte) :
    performAct s t th o status ext = ({ s with mem := s.mem.puts pa d }, {}) := by
  have hopen : writeOpen { s with mem := s.mem.puts pa d } t o.id = false := hw
  have htr' : translate { s with mem := s.mem.puts pa d } th.vi a d.length .wr = .dev pa none := htr
  have hrun : joinRuns [(a, d)] = [(a, d)] := rfl
  simp only [performAct, ha, storeFault, htr, hrun, writeLanes, engWrite_clean hc hd hfit hg, htr', hopen, List.find?_cons, List.find?_nil]
  rfl

/-- Settles O24: a memory operation by what performing it does, the others by their own effect. -/
theorem operationsComplete : Obligations.OperationsComplete := by
  intro s t th op o status data load store ran
  refine ⟨fun h hs => ⟨fun ho => ⟨?load, fun a n sg pa m ha htr hc => ?scalarLoad⟩, fun ho => ⟨?store,
      fun w a d pa ha hd hfit htr hc hg hw hm => ?scalarStore⟩⟩,
    fun hth hm => ⟨fun a ho ha => ?sysrd, fun vi v ho ha => ?evpost, fun a ho ha => ?tresume, fun a b ho ha => ?tendOther⟩⟩
  case load => exact loadComplete_performed h hs ho data
  case store => exact storeComplete_performed h hs ho
  case scalarLoad =>
    refine (loadComplete_performed h hs ho data).trans ?_
    rw [afterPerform, performAct_scalarLoad ha htr hc]
    simp only [recordOp, h.here]
    rfl
  case scalarStore =>
    refine ⟨afterPerform s t th o status [], storeComplete_performed h hs ho, ?_⟩
    rw [afterPerform, performAct_scalarStore ha htr hc (by omega) hfit hg hw]
    have hth : getThr { s with mem := s.mem.puts pa d } t = some th := h.here
    simp only [recordOp, hth]
    exact ⟨rfl, Memory.bytes_puts hm pa, fun x hx => Memory.byte_puts_outside hx⟩
  case sysrd =>
    rw [execLoadComplete_loadDone hth hm ho]
    simp only [loadDone, ha, isMemAct, Bool.false_eq_true, if_false]
  case evpost =>
    rw [execStoreComplete_storeDone hth hm ho]
    simp only [storeDone, ha, isMemAct, Bool.false_eq_true, if_false]
  case tresume =>
    rw [execStoreComplete_storeDone hth hm ho]
    simp only [storeDone, ha, isMemAct, Bool.false_eq_true, if_false]
  case tendOther =>
    rw [execStoreComplete_storeDone hth hm ho]
    simp only [storeDone, ha, isMemAct, Bool.false_eq_true, if_false]

end Sys2Proof.Machine

/-! Scalar instructions that may overflow, and division (R151). -/

namespace Sys2Proof.Machine

/-! ## Exact results and the words that hold them -/

theorem not_fits64 (x : Int) : (!fits64 x) = decide ¬(-(2 ^ 63) ≤ x ∧ x < 2 ^ 63) := by
  rw [fits64, ← Bool.decide_and, decide_not]

theorem word_toInt_bounds (a : Word) : -(2 ^ 63) ≤ a.toInt ∧ a.toInt < 2 ^ 63 :=
  ⟨BitVec.le_toInt a, BitVec.toInt_lt⟩

theorem eq_minWord_iff (a : Word) : a = minWord ↔ a.toInt = -(2 ^ 63) :=
  ⟨fun h => h ▸ rfl, fun h => BitVec.eq_of_toInt_eq h⟩

/-- Only the negation of -2^63 does not fit. -/
theorem beq_minWord (a : Word) : (a == minWord) = !fits64 (-a.toInt) := by
  obtain ⟨hlo, hhi⟩ := word_toInt_bounds a
  rw [not_fits64, beq_eq_decide, decide_eq_decide, eq_minWord_iff]
  omega

/-- A quotient fits unless -2^63 is divided by -1. -/
theorem tdiv_fits {x y : Int} (hx : -(2 ^ 63) ≤ x ∧ x < 2 ^ 63) (hy : y ≠ 0) :
    (-(2 ^ 63) ≤ x.tdiv y ∧ x.tdiv y < 2 ^ 63) ↔ ¬(x = -(2 ^ 63) ∧ y = -1) := by
  have habs : (x.tdiv y).natAbs = x.natAbs / y.natAbs := Int.natAbs_tdiv x y
  have hle : x.natAbs / y.natAbs ≤ x.natAbs := Nat.div_le_self ..
  constructor
  · rintro ⟨-, hlt⟩ ⟨rfl, rfl⟩
    exact absurd hlt (by decide)
  · intro hn
    by_cases hmin : x = -(2 ^ 63)
    · by_cases h1 : y = 1
      · subst h1
        rw [Int.tdiv_one]
        exact hx
      · have h2 : 2 ≤ y.natAbs := by omega
        have : x.natAbs / y.natAbs ≤ x.natAbs / 2 := Nat.div_le_div_left h2 (by decide)
        omega
    · omega

theorem div_overflows (a b : Word) (hb : b.toInt ≠ 0) :
    (a == minWord && b == BitVec.allOnes 64) = !fits64 (a.toInt.tdiv b.toInt) := by
  have h1 : b = BitVec.allOnes 64 ↔ b.toInt = -1 := ⟨fun h => h ▸ rfl, fun h => BitVec.eq_of_toInt_eq h⟩
  rw [not_fits64, beq_eq_decide, beq_eq_decide, ← Bool.decide_and, decide_eq_decide, tdiv_fits (word_toInt_bounds a) hb, not_not,
    eq_minWord_iff, h1]

/-! ## Issue -/

section
variable {s s1 : State} {t : Tid} {th : Thread} {word : Word} {lat : Nat} {d : Reg} {body : State → Thread → Eff}
  (h : Issues s s1 t th { major := 0 } 0)
include h

/-- A scalar instruction whose exact result is `x` and whose word is `v`: V where the word does not hold the result, or OVERFLOW. -/
theorem scalar_mayOverflow {v v' : Word} {ovf : Bool} {x : Int} (hb : body s1 th = withV s1 th lat d v' ovf) (hv : v' = v)
    (ho : ovf = !fits64 x) : scalar t word body s
      = if -(2 ^ 63) ≤ x ∧ x < 2 ^ 63 then .next (wroteG s1 t th 0 lat d v 0)
        else if th.vt then .next (trapped s1 t th 7 0) else .next (wroteG s1 t th 0 lat d v fV) := by
  subst hv
  rw [ho, not_fits64, withV] at hb
  by_cases hx : -(2 ^ 63) ≤ x ∧ x < 2 ^ 63
  · rw [if_pos hx]
    rw [decide_eq_false (not_not.2 hx)] at hb
    exact issue_wr h rfl hb
  · rw [if_neg hx]
    rw [decide_eq_true hx, Bool.true_and] at hb
    cases hvt : th.vt
    · exact issue_wr h rfl (by rw [hb, hvt]; rfl)
    · exact issue_trap h rfl (by rw [hb, hvt]; rfl)

/-- A division by zero gives its result with DZ (R151). -/
theorem scalar_byZero {x v : Word} (hb : body s1 th = byZero s1 th d x v) (hz : th.dzt = false) :
    scalar t word body s = .next (wroteG s1 t th 0 12 d v fDZ) :=
  issue_wr h rfl (by rw [hb, byZero, hz]; rfl)

/-- A division by zero under `TCTL.DZT` traps with DIVZERO and `TVAL` the dividend (R151). -/
theorem scalar_divZeroTrap {x v : Word} (hb : body s1 th = byZero s1 th d x v) (hz : th.dzt = true) :
    scalar t word body s = .next (trapped s1 t th 6 x) :=
  issue_trap h rfl (by rw [hb, byZero, hz]; rfl)

end

/-- Settles O6: a result that may overflow by `scalar_mayOverflow`, a division by whether the divisor is zero. -/
theorem scalarOverflowAndDivision : Obligations.ScalarOverflowAndDivision := by
  intro s s1 t th d a b y h
  have sub0 (x : Word) : 0 - x = -x := BitVec.zero_sub x
  refine ⟨scalar_mayOverflow h rfl ?add rfl, scalar_mayOverflow h rfl ?sub rfl, scalar_mayOverflow h rfl ?mul rfl,
    scalar_mayOverflow h rfl (sub0 _) (beq_minWord _), scalar_mayOverflow h rfl ?negs (beq_minWord _), fun hb => ?nonzero,
    fun hb hz => ?zero, fun hb hz => ?divzero⟩
  case add => simp only [lowWord, sv, BitVec.ofInt_add, BitVec.ofInt_toInt]
  case sub => simp only [lowWord, sv, Int.sub_eq_add_neg, BitVec.sub_eq_add_neg, BitVec.ofInt_add, BitVec.ofInt_neg, BitVec.ofInt_toInt]
  case mul => simp only [lowWord, sv, BitVec.ofInt_mul, BitVec.ofInt_toInt]
  case negs => rw [sub0]; exact if_congr (eq_minWord_iff _) rfl rfl
  case nonzero =>
    have hb0 : rdG s1 th b ≠ 0 := fun e => hb (by rw [e]; rfl)
    exact ⟨scalar_mayOverflow h (if_neg hb0) rfl (div_overflows _ _ hb), scalar_writes h (if_neg hb0),
      scalar_writes h ((if_neg hb0).trans (by rw [BitVec.udiv_def])), scalar_writes h ((if_neg hb0).trans (by rw [BitVec.umod_def]))⟩
  case zero =>
    exact ⟨scalar_byZero h (if_pos hb) hz, scalar_byZero h (if_pos hb) hz, scalar_byZero h (if_pos hb) hz, scalar_byZero h (if_pos hb) hz⟩
  case divzero =>
    exact ⟨scalar_divZeroTrap h (if_pos hb) hz, scalar_divZeroTrap h (if_pos hb) hz, scalar_divZeroTrap h (if_pos hb) hz,
      scalar_divZeroTrap h (if_pos hb) hz⟩

end Sys2Proof.Machine

/-! Sync instructions as they issue (R148, R149, R237). -/

namespace Sys2Proof.Machine

section
variable {s s1 : State} {t : Tid} {th : Thread} {d : Reg} (h : Issues s s1 t th { major := 6, ld := true, sync := true } 0)
include h

/-- A sync operation joins the thread's loads with its word, handle and operand; counting it changes neither. -/
theorem syncIssue_joins {word : Word} {idx : Nat} {handle operand : State → Thread → Word} :
    issues (syncIssue t true word idx d handle operand s) s1 t (addLoad th (.sync word (handle s1 th) (operand s1 th)) (destG d)) th.vi 6
      .on [] :=
  issues_ok h rfl (countEv_counts ..) rfl h.ready

/-- `ubar` of a thread of a launch joins the loads as the others do; a handler thread's completes at once (R64). -/
theorem ubar_joins {scope : Imm} (hs : scope.toNat ≤ 1) (hh : th.handler = false) :
    issues (execUbar t d scope s) s1 t (addLoad th (.sync (encI 0x38 0x00 d 0 scope) (scope.setWidth 64) 0) (destG d)) th.vi 6 .on [] := by
  refine issues_ok h (decide_eq_true hs) (countEv_counts s1 t.facet th.vi 0x60 1) ?_ h.ready
  dsimp only
  rw [hh, if_neg Bool.false_ne_true]

/-- A scope above 1 is a reserved encoding (R148). -/
theorem ubar_illegal {scope : Imm} (hs : 1 < scope.toNat) :
    execUbar t d scope s = .next (trapped s1 t th 1 (encI 0x38 0x00 d 0 scope)) := by
  have hok : okScope scope = false := decide_eq_false (Nat.not_le.2 hs)
  rw [execUbar, hok]
  exact issue_illegal h

end

/-- Settles O22: each instruction is a sync operation with its own word, handle and operand. -/
theorem syncInstructionsIssue : Obligations.SyncInstructionsIssue := by
  intro s s1 t th d a b scope h
  exact ⟨syncIssue_joins h, syncIssue_joins h, syncIssue_joins h, syncIssue_joins h, syncIssue_joins h, syncIssue_joins h,
    syncIssue_joins h, syncIssue_joins h, syncIssue_joins h, syncIssue_joins h, ubar_joins h, ubar_illegal h⟩

end Sys2Proof.Machine

/-! Exact accumulator instructions on a set in the fold unit (R146, R147, R165, R166, R168, R173, R174). -/

namespace Sys2Proof.Machine

/-! ## A set in the fold unit -/

section
variable {s : State} {t : Tid} {th : Thread} {v : Vector (BitVec 4352) 8}

/-- A set in the fold unit is used where it is (R166). -/
theorem accUse_held (vi : Vi) {l : Nat} {f : BitVec 10} (hv : tget? s.accs (accKey l f) = some (.held v)) : accUse s vi l f = (s, v) := by
  simp only [accUse, hv]

variable (hv : tget? s.accs (accKey (accLaunch th) t.facet) = some (.held v)) (ea : EaReg)
include hv

theorem accRead_held : accRead s t th ea = (s, v[ea.toFin]) := by
  rw [accRead, accUse_held th.vi hv]

/-- An update replaces one accumulator of the set. -/
theorem accUpdate_held (f : BitVec 4352 → BitVec 4352) : accUpdate s t th ea f
    = { s with accs := tset s.accs (accKey (accLaunch th) t.facet) (.held (v.set ea.toFin (f v[ea.toFin]))) } := by
  rw [accUpdate, accUse_held th.vi hv]
  rfl

end

/-- Only the floating-point types and i64 round out, so an integer type that does is i64 (R146). -/
theorem isInt_of_okRound {et : EType} (h : okRound et = true) : et.isInt = true ↔ et = .i64 := by
  cases et <;> revert h <;> decide

/-! ## Issue -/

section
variable {s s1 : State} {t : Tid} {th : Thread} {ea : EaReg} {v : Vector (BitVec 4352) 8} {wf : Bool} {word : Word}
  {body : State → Thread → Eff} (h : Issues s s1 t th { major := 5 } 0) (hw : wf = true)
  (hv : tget? s1.accs (accKey (accLaunch th) t.facet) = some (.held v))
include h hw hv

/-- An instruction that replaces one accumulator and writes no register. -/
theorem accInstr_updates {u : State} (hu : countsOnly s1 u) {f : BitVec 4352 → BitVec 4352}
    (hb : body s1 th = justWr (accUpdate u t th ea f) th []) : ∃ u, countsOnly s1 u ∧ accInstr t wf word body s = .next (issued
      { u with accs := tset u.accs (accKey (accLaunch th) t.facet) (.held (v.set ea.toFin (f v[ea.toFin]))) } t th th.vi 5 .on []) := by
  have hvu : tget? u.accs (accKey (accLaunch th) t.facet) = some (.held v) := by rw [hu]; exact hv
  rw [accUpdate_held hvu] at hb
  exact ⟨u, hu, issue_ok h hw hb hu.threads h.ready⟩

end

/-- Settles O21: folds and the clearing update one accumulator, the others read one. -/
theorem accumulatorInstructions : Obligations.AccumulatorInstructions := by
  intro s s1 t th et ea va vb km g v h hv
  refine ⟨fun hok => ⟨?add, ?mac⟩, fun hm => ⟨?clr, ?info, fun hok hf ht => ?round⟩⟩
  case add =>
    rw [exec_eaadd, execEaadd]
    exact accInstr_updates h hok hv (countEv_counts ..) (f := fun a => (foldLanes th et km).foldl
      (fun a k => accFold a (.val (srcVal th et km 0 (lane et.width (rdV s1 th va) k) k))) a) rfl
  case mac =>
    rw [exec_eamac, execEamac]
    exact accInstr_updates h hok hv (countEv_counts ..) (f := fun a => (foldLanes th et km).foldl
      (fun a k => accFold a (prodTerm (srcVal th et km 0 (lane et.width (rdV s1 th va) k) k)
        (srcVal th et km 8 (lane et.width (rdV s1 th vb) k) k))) a) rfl
  case clr =>
    have hn : ¬ mergeOpen th ea = true := by rw [hm]; exact Bool.false_ne_true
    rw [exec_eaclr, execEaclr]
    exact accInstr_updates h rfl hv (f := fun _ => 0) (countsOnly.refl s1) (if_neg hn)
  case info =>
    refine issues_ok h rfl (countsOnly.refl s1) ?_ h.ready
    dsimp only
    rw [hm, accRead_held hv]
    rfl
  case round =>
    dsimp only
    generalize hr : (if et = .i64 then accRoundI th.rm v[ea.toFin] else accRoundF et.fmt th.rm v[ea.toFin]) = r
    obtain ⟨u, hu, e⟩ := flagged_goesOn s1 t [wrG 8 g (BitVec.ofNat 64 r.1) r.2] (.inr ht)
      (by rw [hf]; exact BitVec.and_zero : r.2 &&& th.fpt = 0)
    refine issues_ok h hok hu ?_ h.ready
    dsimp only
    rw [hm, accRead_held hv, ← e, ← hr, if_congr (isInt_of_okRound hok) rfl rfl]
    rfl

end Sys2Proof.Machine

/-! Floating-point vector arithmetic (R141, R142, R157, R159, R160): the union of the lanes' flags decides between result and trap. -/

namespace Sys2Proof.Machine

/-- An exception enabled in `TCTL.FPT` traps with FP_EXCEPTION (R141). -/
theorem flagged_excepts (u : State) (t : Tid) {th : Thread} {fl : Word} (ws : List Wr) (hv : fl &&& fV = 0 ∨ th.vt = false)
    (hf : fl &&& th.fpt ≠ 0) : flagged u t th fl ws = .trap 8 (fl &&& 0x1F00) := by
  have hc : ((fl &&& fV != 0) && th.vt) = false := by rcases hv with hv | hv <;> simp [hv]
  unfold flagged
  rw [hc, if_neg Bool.false_ne_true, if_pos hf]

/-- What a lane-wise instruction of latency 4 does whose lane `i` has value and flags `r i` (R141, R159). -/
def eachLaneF (o : Host.Outcome State Fault Refusal) (s1 : State) (t : Tid) (th : Thread) (et : EType) (vd : VReg) (km : MReg)
    (r : Nat → Nat × Word) : Prop :=
  let l := (List.range et.lanes).map r
  let fl := laneFlags (rdM th km) l
  (fl &&& fV = 0 ∨ th.vt = false) →
  if fl &&& th.fpt = 0 then issues o s1 t th th.vi 4 .on
      [wrV 4 vd (laneBytes et.width et.lanes (rdM th km)) (pack et.width (l.map (·.1))) fl]
  else o = .next (trapped s1 t th 8 (fl &&& 0x1F00))

section
variable {s s1 : State} {t : Tid} {th : Thread} {ok : Bool} {word : Word} {et : EType} {n : Nat} {body : State → Thread → Eff}
  (h : Issues s s1 t th { major := 4 } 0) (hok : ok = true)
include h hok

/-- A vector instruction whose flags raise an enabled exception. -/
theorem vector_excepts {fl : Word} {ws : List Wr} (hv : fl &&& fV = 0 ∨ th.vt = false) (hf : fl &&& th.fpt ≠ 0)
    (hb : ∀ c, body { s1 with cnts := c } th = flagged { s1 with cnts := c } t th fl ws) :
    vector t ok word et n body s = .next (trapped s1 t th 8 (fl &&& 0x1F00)) := by
  obtain ⟨c, hc⟩ := countEv_ex s1 t.facet th.vi (0x10 + et.code) n
  exact issue_trap h hok (by rw [hc, hb c]; exact flagged_excepts _ t ws hv hf)

/-- A lane-wise instruction with flags: its result, or FP_EXCEPTION and no write (R141). -/
theorem vector_eachLaneF {et' : EType} {vd : VReg} {km : MReg} {r : Nat → Nat × Word}
    (hb : ∀ c, body { s1 with cnts := c } th
      = laneWrite { s1 with cnts := c } t th 4 et' vd km ((List.range et'.lanes).map r)) :
    eachLaneF (vector t ok word et n body s) s1 t th et' vd km r := by
  intro hv
  split
  next hf => exact vector_flagged h hok hv hf hb
  next hf => exact vector_excepts h hok hv hf hb

end

/-- Settles O19: each instruction is its own rounded operation in every lane; negation raises no flag. -/
theorem vectorFloatingPointLanes : Obligations.VectorFloatingPointLanes := by
  intro s s1 t th f u vc k mx h
  refine ⟨fun hok => ⟨?arith, ?fma, ?minmax⟩, fun hok _ => ?neg⟩
  case arith =>
    rw [exec_vaddF, execVaddF, vec2]
    exact vector_eachLaneF h hok (fun _ => rfl)
  case fma =>
    rw [exec_vfma, execVfma]
    exact vector_eachLaneF h hok (fun _ => rfl)
  case minmax =>
    rw [exec_vminF, execVminF, vec2]
    exact vector_eachLaneF h hok (fun _ => rfl)
  case neg =>
    rw [exec_vnegF, execVnegF, vec1]
    exact vector_lanes h hok (fun _ => rfl)

end Sys2Proof.Machine

/-! One step of each string instruction (R129, R130, R131, R134, R135): the bytes of the step lie in the allocation, and it advances by the
items done. -/

namespace Sys2Proof.Machine

/-! ## What a step accesses -/

@[simp] theorem Memory.length_bytes (m : Memory) (a n : Nat) : (m.bytes a n).length = n := by
  induction n generalizing a with
  | zero => rfl
  | succ n ih => exact congrArg (· + 1) (ih (a + 1))

@[simp] theorem fsBytes_length (s : State) (t : Tid) (th : Thread) (a n : Nat) : (fsBytes s t th a n).length = n := Memory.length_bytes ..

/-- The `m` bytes from `p` on lie in the allocation; an empty range accesses nothing (R130). -/
def inStore (s : State) (th : Thread) (p : Word) (m : Nat) : Prop := m = 0 ∨ p.toNat + m ≤ fsSize s th

theorem inStore_zero (s : State) (th : Thread) (p : Word) : inStore s th p 0 := .inl rfl

theorem outByte_none {s : State} {th : Thread} {p : Word} {m : Nat} (h : inStore s th p m) : outByte s th p m = none :=
  if_pos (h.imp_right decide_eq_true)

theorem outRange_none {s : State} {th : Thread} {l : List (Word × Nat)} (h : ∀ r ∈ l, inStore s th r.1 r.2) : outRange s th l = none := by
  induction l with
  | nil => rfl
  | cons r l ih =>
    have hr := outByte_none (h r List.mem_cons_self)
    have hl := ih (fun x hx => h x (List.mem_cons_of_mem _ hx))
    rw [outRange, List.foldl_cons, hr]
    exact hl

theorem outRange_one {s : State} {th : Thread} {p : Word} {m : Nat} (h : inStore s th p m) : outRange s th [(p, m)] = none :=
  outRange_none (List.forall_mem_singleton.2 h)

theorem outRange_two {s : State} {th : Thread} {p q : Word} {m n : Nat} (hp : inStore s th p m) (hq : inStore s th q n) :
    outRange s th [(p, m), (q, n)] = none :=
  outRange_none (List.forall_mem_cons.2 ⟨hp, List.forall_mem_singleton.2 hq⟩)

/-- The least j below k that meets a test is the first that does (R134). -/
theorem leastJ_spec (k : Nat) (p : Nat → Bool) :
    leastJ k p ≤ k ∧ (∀ i < leastJ k p, p i = false) ∧ (leastJ k p < k → p (leastJ k p) = true) := by
  unfold leastJ
  cases h : (List.range k).find? p with
  | none =>
    refine ⟨le_rfl, fun i hi => ?_, fun hlt => absurd hlt (lt_irrefl k)⟩
    simpa using List.find?_eq_none.1 h i (List.mem_range.2 hi)
  | some j =>
    obtain ⟨hj, hmem, hmin⟩ := List.find?_range_eq_some.1 h
    exact ⟨(List.mem_range.1 hmem).le, fun i hi => by simpa using hmin i hi, fun _ => hj⟩

theorem ofNat_shiftRight_byte (w : Word) (m : Nat) : BitVec.ofNat 8 (w.toNat >>> m) = (w >>> m).setWidth 8 := by
  apply BitVec.eq_of_toNat_eq
  simp

/-- The bytes that a step of `fills` leaves: byte j is that of V at its address modulo 8 (R134). -/
def fillBytes (p v : Word) (k : Nat) : List Byte :=
  (List.range k).map (fun j => BitVec.ofNat 8 (v.toNat >>> (8 * ((p.toNat + j) % 8))))

/-- The bytes that a step of `xlats` leaves: each looked up in the table (R134). -/
def xlatBytes (s : State) (t : Tid) (th : Thread) (p table : Word) (k : Nat) : List Byte :=
  (fsBytes s t th p.toNat k).map (fun b => fsByte s t th (table.toNat + b.toNat))

theorem xlatBytes_length (s : State) (t : Tid) (th : Thread) (p table : Word) (k : Nat) : (xlatBytes s t th p table k).length = k := by
  rw [xlatBytes, List.length_map, fsBytes_length]

/-- Counting changes no register. -/
theorem rdG_counted (s : State) (c : Tab (BitVec 48 × Bool)) (y : Tab Nat) (th : Thread) (r : Reg) :
    rdG { s with cnts := c, tally := y } th r = rdG s th r := rfl

/-- Two lengths further apart than the band have no distance in it (R135). -/
theorem band_exceeded (la lb k : Nat) : (if la ≤ lb then lb - la else la - lb) > k ↔ la + k < lb ∨ lb + k < la := by
  split
  · omega
  · omega

/-- With no byte outside, a step goes on (R130). -/
theorem within_goesOn {x : Option Word} {e : Eff} : x = none → (match x with | some a => Eff.trap 4 a | none => e) = e := by
  rintro rfl
  rfl

/-- With EXIT 0 a step ends no block (R133). -/
theorem stepDone_noExit (u : State) (th : Thread) (ended : Bool) (ws : List Wr) : stepDone u th false ended ws = .ok u th ws .on none := rfl

/-- A step that moves something has put its bytes. -/
theorem stepDone_moved {k : Nat} (hk : 0 < k) (u w : State) (th : Thread) (ended : Bool) (ws : List Wr) :
    stepDone (if k = 0 then u else w) th false ended ws = .ok w th ws .on none := by
  rw [if_neg hk.ne', stepDone_noExit]

/-! ## Issue -/

/-- A step is counted by its FN and as a Facet store access (R587). -/
theorem countStep_counts (s : State) (f : BitVec 10) (vi : Vi) (fn : Nat) :
    countsOnly s (countStore (countEv s f vi (0x68 + fn) 1) f vi) :=
  (countEv_counts ..).trans (countStore_counts ..)

section
variable {s s1 : State} {t : Tid} {th : Thread} {fn : Nat} {ok : Bool} {word : Word} {body : State → Thread → Eff}
  (h : Issues s s1 t th { major := 3 } 0) (hok : ok = true)
include h hok

/-- The counting of a step reaches its body as a state that differs in counters and tallies. -/
theorem stringStep_issues {ws : List Wr} (hb : ∀ c y, body { s1 with cnts := c, tally := y } th
      = .ok { s1 with cnts := c, tally := y } th ws .on none) :
    issues (stringStep t fn ok word body s) s1 t th th.vi 3 .on ws := by
  have hu := countStep_counts s1 t.facet th.vi fn
  refine issues_ok h hok hu ?_ h.ready
  rw [hu]
  exact hb _ _

/-- A step that leaves bytes in the Facet store. -/
theorem stringStep_puts {ws : List Wr} {a : Nat} {data : List Byte} (hb : ∀ c y, body { s1 with cnts := c, tally := y } th
      = .ok (fsPut { s1 with cnts := c, tally := y } t th a data) th ws .on none) :
    ∃ u, countsOnly s1 u ∧ stringStep t fn ok word body s = .next (issued (fsPut u t th a data) t th th.vi 3 .on ws) := by
  have hu := countStep_counts s1 t.facet th.vi fn
  refine ⟨_, hu, issue_ok h hok ?_ hu.threads h.ready⟩
  rw [hu]
  exact hb _ _

end

section
variable {s s1 : State} {t : Tid} {th : Thread}

/-- A step of `fills` inside the allocation. -/
theorem fills_puts {d n v : Reg} (h : Issues s s1 t th { major := 3 } 0) (hok : okDistinct [d, n] = true)
    (hD : inStore s1 th (rdG s1 th d) (items 16 (rdG s1 th n))) (hk : 0 < items 16 (rdG s1 th n)) :
    ∃ u, countsOnly s1 u ∧ execFills t false d n v s = .next (issued
      (fsPut u t th (rdG s1 th d).toNat (fillBytes (rdG s1 th d) (rdG s1 th v) (items 16 (rdG s1 th n)))) t th th.vi 3 .on
      [wrG 1 d (rdG s1 th d + BitVec.ofNat 64 (items 16 (rdG s1 th n))), wrG 1 n (rdG s1 th n - BitVec.ofNat 64 (items 16 (rdG s1 th n)))]) := by
  rw [execFills]
  exact stringStep_puts h hok (fun _ _ => (within_goesOn (outRange_one hD)).trans (stepDone_moved hk ..))

/-- A step of `xlats` that deletes nothing, inside the allocation; `k` are its items and `out` the bytes it leaves. -/
theorem xlats_puts {d a n v c : Reg} {k : Nat} {out : List Byte} (h : Issues s s1 t th { major := 3 } 0)
    (hok : okDistinct [d, a, n, c] = true) (hk : k = items 16 (rdG s1 th n)) (ho : out = xlatBytes s1 t th (rdG s1 th a) (rdG s1 th v) k)
    (hA : inStore s1 th (rdG s1 th a) k) (hV : inStore s1 th (rdG s1 th v) (if k > 0 then 256 else 0))
    (hD : inStore s1 th (rdG s1 th d) out.length) (hpos : 0 < out.length) :
    ∃ u, countsOnly s1 u ∧ execXlats t false false d a n v c s = .next (issued (fsPut u t th (rdG s1 th d).toNat out) t th th.vi 3 .on
      [wrG 3 c (rdG s1 th c + BitVec.ofNat 64 (k - out.length)), wrG 1 a (rdG s1 th a + BitVec.ofNat 64 k),
        wrG 1 d (rdG s1 th d + BitVec.ofNat 64 out.length), wrG 1 n (rdG s1 th n - BitVec.ofNat 64 k)]) := by
  subst hk ho
  rw [execXlats]
  exact stringStep_puts h hok (fun _ _ => (within_goesOn (outRange_two hA hV)).trans
    ((within_goesOn (outByte_none hD)).trans (stepDone_moved hpos ..)))

end

/-- Settles O16: every range a step accesses lies in the allocation, so no step traps, and with EXIT 0 none ends a block. -/
theorem stringSteps : Obligations.StringSteps := by
  intro s s1 t th d a n v c h
  refine ⟨fun hok hA hD hk => ?movs, fun hok hD hk => ?fills, fun hok hD hA => ?cmps, fun hok hD => ?scans,
    fun hok hA hV hD hk => ?xlats, fun hok hA => ?rhash, fun hd hla hlb hA hN => ?dists⟩
  case movs =>
    rw [exec_movs, execMovs]
    exact stringStep_puts h hok (fun _ _ => (within_goesOn (outRange_two hA hD)).trans (stepDone_moved hk ..))
  case fills =>
    obtain ⟨u, hu, e⟩ := fills_puts (v := v) h hok hD hk
    refine ⟨u, _, hu, ?_, fun j hj => ?_, e⟩
    · rw [fillBytes, List.length_map, List.length_range]
      rfl
    · simp only [fillBytes, List.getElem_map, List.getElem_range, ofNat_shiftRight_byte]
  case cmps =>
    rw [exec_cmps, execCmps]
    obtain ⟨hle, hbefore, hat⟩ := leastJ_spec (min 16 (rdG s1 th n).toNat)
      (fun j => (fsByte s1 t th ((rdG s1 th d).toNat + j)).toNat != (fsByte s1 t th ((rdG s1 th a).toNat + j)).toNat)
    refine ⟨_, hle, fun i hi => ?_, fun hj => ?_, stringStep_issues h hok (fun _ _ => within_goesOn (outRange_two hD hA))⟩
    · exact BitVec.eq_of_toNat_eq (by simpa using hbefore i hi)
    · exact fun e => (bne_iff_ne.1 (hat hj)) (congrArg BitVec.toNat e)
  case scans =>
    rw [exec_scans, execScans]
    obtain ⟨hle, hbefore, hat⟩ := leastJ_spec (min 16 (rdG s1 th n).toNat)
      (fun j => (fsByte s1 t th ((rdG s1 th d).toNat + j)).toNat == (rdG s1 th v).toNat % 256)
    refine ⟨_, hle, fun i hi => ?_, fun hj => beq_iff_eq.1 (hat hj),
      stringStep_issues h hok (fun _ _ => within_goesOn (outRange_two hD (inStore_zero ..)))⟩
    exact fun e => Bool.false_ne_true ((hbefore i hi).symm.trans (beq_iff_eq.2 e))
  case xlats =>
    have hlen := xlatBytes_length s1 t th (rdG s1 th a) (rdG s1 th v) (min 16 (rdG s1 th n).toNat)
    have e := xlats_puts (v := v) (c := c) (k := min 16 (rdG s1 th n).toNat) h hok rfl rfl hA
      (by rw [if_pos hk]; exact hV) (by rw [hlen]; exact hD) (by rw [hlen]; exact hk)
    rw [hlen, Nat.sub_self, BitVec.add_zero] at e
    exact e
  case rhash =>
    have hr : inStore s1 th (rdG s1 th a - BitVec.ofNat 64 0) (if min 8 (rdG s1 th n).toNat = 0 then 0 else min 8 (rdG s1 th n).toNat + 0) := by
      rw [BitVec.sub_zero, Nat.add_zero]
      split
      · exact inStore_zero ..
      · exact hA
    rw [exec_rhash, execRhash]
    exact stringStep_issues h (by rw [hok]; rfl) (fun _ _ => within_goesOn (outRange_one hr))
  case dists =>
    have hok : okDistinct [d] = true := by simpa [okDistinct] using hd
    have ela : Nat.min (bits (rdG s1 th c) 6 0) 64 = bits (rdG s1 th c) 6 0 := Nat.min_eq_left hla
    have elb : Nat.min (bits (rdG s1 th c) 14 8) 64 = bits (rdG s1 th c) 14 8 := Nat.min_eq_left hlb
    rw [exec_distsB, execDistsB]
    refine stringStep_issues h hok (fun _ _ => ?_)
    simp only [rdG_counted, ela, elb, band_exceeded, Nat.not_lt.2 hla, Nat.not_lt.2 hlb, gt_iff_lt, decide_false, Bool.or_self, Bool.false_and,
      Bool.false_eq_true, if_false]
    split
    next => rfl
    next => exact within_goesOn (outRange_two hA hN)

end Sys2Proof.Machine

/-! Facet store loads and stores (R120-R123). -/

namespace Sys2Proof.Machine

/-! ## Lanes of a register that is put together from numbers -/

theorem packNat_cons (w x : Nat) (l : List Nat) : packNat w (x :: l) = x % 2 ^ w + 2 ^ w * packNat w l := rfl

/-- The lanes of a number put together from lanes. -/
theorem packNat_lane (w : Nat) (l : List Nat) (k : Nat) : (packNat w l >>> (w * k)) % 2 ^ w = l.getD k 0 % 2 ^ w := by
  induction l generalizing k with
  | nil => simp [packNat]
  | cons x l ih =>
    cases k with
    | zero => rw [packNat_cons, Nat.mul_zero, Nat.shiftRight_zero, Nat.add_mul_mod_self_left, Nat.mod_mod, List.getD_cons_zero]
    | succ k =>
      have hnext : packNat w (x :: l) >>> w = packNat w l := by
        rw [packNat_cons, Nat.shiftRight_eq_div_pow, Nat.add_mul_div_left _ _ (Nat.two_pow_pos w), Nat.mod_div_self, Nat.zero_add]
      rw [Nat.mul_succ, Nat.add_comm, Nat.shiftRight_add, hnext, ih, List.getD_cons_succ]

theorem packNat_append (w : Nat) (l : List Nat) (x : Nat) :
    packNat w (l ++ [x]) = packNat w l + (x % 2 ^ w) <<< (w * l.length) := by
  induction l with
  | nil => simp [packNat]
  | cons y l ih =>
    rw [List.cons_append, packNat_cons, packNat_cons, ih, List.length_cons, Nat.shiftLeft_eq, Nat.shiftLeft_eq, Nat.mul_succ, Nat.pow_add]
    ring

theorem getD_map_range (g : Nat → Nat) {n k : Nat} (h : k < n) : ((List.range n).map g).getD k 0 = g k := by
  simp [h]

/-- A lane of a register given as a number. -/
theorem lane_ofNat {w k : Nat} (h : w * k + w ≤ 1024) (x : Nat) : lane w (BitVec.ofNat 1024 x) k = (x >>> (w * k)) % 2 ^ w := by
  apply Nat.eq_of_testBit_eq
  intro i
  rw [testBit_lane, Nat.testBit_mod_two_pow, Nat.testBit_shiftRight, BitVec.getLsbD_ofNat]
  by_cases hi : i < w
  · have : w * k + i < 1024 := by omega
    simp [hi, this]
  · simp [hi]

/-- A lane of a register put together from lanes. -/
theorem lane_pack {w k : Nat} (h : w * k + w ≤ 1024) (l : List Nat) : lane w (pack w l) k = l.getD k 0 % 2 ^ w := by
  rw [pack, lane_ofNat h, packNat_lane]

/-- Values of the chosen lanes, each in its place, are the register put together from them, with zero in every other lane. -/
theorem foldl_shiftLeft_eq_packNat {w : Nat} {p : Nat → Bool} {g : Nat → Nat} (hg : ∀ k, g k < 2 ^ w) (n : Nat) :
    ((List.range n).filter p).foldl (fun r k => r + g k <<< (w * k)) 0
      = packNat w ((List.range n).map (fun k => if p k then g k else 0)) := by
  induction n with
  | zero => rfl
  | succ n ih =>
    have hlen : ((List.range n).map (fun k => if p k then g k else 0)).length = n := by simp
    rw [List.range_succ, List.filter_append, List.foldl_append, ih, List.map_append, List.map_singleton, packNat_append, hlen]
    cases hp : p n
    · simp [hp]
    · simp [hp, Nat.mod_eq_of_lt (hg n)]

theorem ofBytes_lt (l : List Byte) : ofBytes l < 2 ^ (8 * l.length) := by
  induction l with
  | nil => decide
  | cons b l ih =>
    have hb : b.toNat < 256 := b.isLt
    have hp : 2 ^ (8 * (l.length + 1)) = 256 * 2 ^ (8 * l.length) := by rw [Nat.mul_succ, Nat.pow_add]; ring
    rw [List.length_cons, hp, ofBytes]
    omega

/-! ## What an access checks -/

section
variable {s : State} {th : Thread} {p : Word} {n : Nat} {e : Eff}

theorem aligned_goesOn (h : p.toNat % n = 0) : (if !aligned p n then Eff.trap 3 p else e) = e := by
  rw [aligned_eq_true.2 h]
  rfl

theorem misaligned_traps (h : p.toNat % n ≠ 0) : (if !aligned p n then Eff.trap 3 p else e) = .trap 3 p := by
  rw [Bool.eq_false_iff.2 (mt aligned_eq_true.1 h)]
  rfl

theorem inside_goesOn (h : p.toNat + n ≤ fsSize s th) : (if !fsIn s th p n then Eff.trap 4 p else e) = e := by
  rw [fsIn, decide_eq_true h]
  rfl

theorem outside_traps (h : fsSize s th < p.toNat + n) : (if !fsIn s th p n then Eff.trap 4 p else e) = .trap 4 p := by
  rw [fsIn, decide_eq_false (Nat.not_le.2 h)]
  rfl

/-- No vector access whose address is aligned is misaligned (R122). -/
theorem aligned_vector_goesOn {f : VMem} (h : p.toNat % memLane f.et = 0) : (if misaligned th f p then Eff.trap 3 p else e) = e := by
  rw [misaligned, aligned_eq_true.2 h]
  rfl

/-- With every active lane inside the allocation, a vector access meets no fault (R120, R123). -/
theorem fsFault_none {w : Nat} {l : List Nat} (h : ∀ i ∈ l, (p + BitVec.ofNat 64 (w * i)).toNat + w ≤ fsSize s th) :
    fsFault s th p w l = none := by
  rw [fsFault, List.find?_eq_none]
  intro a ha
  obtain ⟨i, hi, rfl⟩ := List.mem_map.1 ha
  rw [fsIn, decide_eq_true (h i hi)]
  decide

end

/-- A lane of a vector access in memory is 1, 2, 4 or 8 bytes. -/
theorem memLane_cases (et : EType) : memLane et = 1 ∨ memLane et = 2 ∨ memLane et = 4 ∨ memLane et = 8 := by
  cases et <;> decide

/-- The register that a vector load of the active lanes gives. -/
def fsLoaded (s : State) (t : Tid) (th : Thread) (f : VMem) (p : Word) : BitVec 1024 :=
  BitVec.ofNat 1024 ((activeLanes th f.et f.km).foldl (fun r k =>
    r + ofBytes (fsBytes s t th (p + BitVec.ofNat 64 (memLane f.et * k)).toNat (memLane f.et)) <<< (8 * memLane f.et * k)) 0)

/-- An active lane of it holds the bytes at the lane's address. -/
theorem lane_fsLoaded (s : State) (t : Tid) (th : Thread) (f : VMem) (p : Word) {i : Nat} (hi : i ∈ activeLanes th f.et f.km) :
    lane (8 * memLane f.et) (fsLoaded s t th f p) i
      = ofBytes (fsBytes s t th (p + BitVec.ofNat 64 (memLane f.et * i)).toNat (memLane f.et)) := by
  have hlt (k : Nat) : ofBytes (fsBytes s t th (p + BitVec.ofNat 64 (memLane f.et * k)).toNat (memLane f.et)) < 2 ^ (8 * memLane f.et) := by
    simpa using ofBytes_lt (fsBytes s t th (p + BitVec.ofNat 64 (memLane f.et * k)).toNat (memLane f.et))
  obtain ⟨hmem, hact⟩ := List.mem_filter.1 hi
  have hn : i < memLanes f.et := List.mem_range.1 hmem
  have hfit : 8 * memLane f.et * i + 8 * memLane f.et ≤ 1024 := by
    rw [memLanes] at hn
    rcases memLane_cases f.et with h | h | h | h <;> rw [h] at hn ⊢ <;> omega
  rw [fsLoaded, activeLanes, foldl_shiftLeft_eq_packNat hlt, lane_ofNat hfit, packNat_lane,
    getD_map_range _ hn, if_pos hact, Nat.mod_eq_of_lt (hlt i)]

/-! ## Issue -/

theorem foldl_fsPut_threads (t : Tid) (th : Thread) (g : Nat → Nat) (b : Nat → List Byte) (l : List Nat) (u : State) :
    (l.foldl (fun z i => fsPut z t th (g i) (b i)) u).threads = u.threads :=
  foldl_proj State.threads (f := fun z i => fsPut z t th (g i) (b i)) (fun _ _ => rfl) l u

section
variable {s s1 : State} {t : Tid} {th : Thread} {word : Word} {body : State → Thread → Eff} (h : Issues s s1 t th { major := 2 } 0)
include h

/-- A Facet store access that goes on; `w` is what it does to the state, counted. -/
theorem memFs_goesOn {w : State → State} {ws : List Wr} (hw : ∀ u, (w u).threads = u.threads)
    (hb : ∀ c y, body { s1 with cnts := c, tally := y } th = .ok (w { s1 with cnts := c, tally := y }) th ws .on none) :
    ∃ u, countsOnly s1 u ∧ memFs t word body s = .next (issued (w u) t th th.vi 2 .on ws) := by
  have hu := countStore_counts s1 t.facet th.vi
  refine ⟨_, hu, issue_ok h rfl ?_ ((hw _).trans hu.threads) h.ready⟩
  rw [hu]
  exact hb _ _

theorem memFs_traps {cause : Nat} {tval : Word} (hb : ∀ c y, body { s1 with cnts := c, tally := y } th = .trap cause tval) :
    memFs t word body s = .next (trapped s1 t th cause tval) := by
  refine issue_trap h rfl ?_
  rw [countStore_counts s1 t.facet th.vi]
  exact hb _ _

end

/-- Settles O15: an access inside goes on, and one that is misaligned or has a byte outside traps. -/
theorem facetStoreAccesses : Obligations.FacetStoreAccesses := by
  intro s s1 t th lw sw d a imm f h
  refine ⟨fun ha hi => ?lds, fun ha hi => ?sts, fun ha hi => ?vlds, fun ha hi => ?vsts, fun ha ho => ?outside, fun ha => ?misaligned⟩
  case lds =>
    rw [exec_lds, execLds]
    exact memFs_goesOn h (w := id) (fun _ => rfl) (fun _ _ => (aligned_goesOn ha).trans (inside_goesOn hi))
  case sts =>
    rw [exec_sts, execSts]
    exact memFs_goesOn h (w := fun u => fsPut u t th _ _) (fun _ => rfl) (fun _ _ => (aligned_goesOn ha).trans (inside_goesOn hi))
  case vlds =>
    have e : ∃ u, countsOnly s1 u ∧ execVlds t f s = .next (issued u t th th.vi 2 .on
        [wrV 3 f.vd (destV th f.et f.vd f.km).bytes (fsLoaded s1 t th f (rdG s1 th f.a + immS f.imm))]) := by
      rw [execVlds]
      exact memFs_goesOn h (w := id) (fun _ => rfl) (fun _ _ => (aligned_vector_goesOn ha).trans (within_goesOn (fsFault_none hi)))
    obtain ⟨u, hu, e⟩ := e
    exact ⟨u, _, hu, fun i hi => lane_fsLoaded s1 t th f _ hi, e⟩
  case vsts =>
    rw [exec_vsts, execVsts]
    exact memFs_goesOn h (w := fun u => (activeLanes th f.et f.km).foldl (fun z i => fsPut z t th
        (rdG s1 th f.a + f.imm.signExtend 64 + BitVec.ofNat 64 (memLane f.et * i)).toNat (laneOf (memLane f.et) (rdV s1 th f.vd) i)) u)
      (fun u => foldl_fsPut_threads t th _ _ _ u) (fun _ _ => (aligned_vector_goesOn ha).trans (within_goesOn (fsFault_none hi)))
  case outside =>
    rw [exec_lds, execLds]
    exact memFs_traps h (fun _ _ => (aligned_goesOn ha).trans (outside_traps ho))
  case misaligned =>
    rw [exec_lds, execLds]
    exact memFs_traps h (fun _ _ => misaligned_traps ha)

end Sys2Proof.Machine

/-! `vmac`, conversions and reductions (R138, R143-R145, R151, R161). -/

namespace Sys2Proof.Machine

/-! ## Encodings fit their format -/

theorem Fmt.infMag_add (f : Fmt) : f.infMag + 2 ^ f.t = 2 ^ (f.e + f.t) := by
  have hp := Nat.two_pow_pos f.e
  rw [Fmt.infMag, ← Nat.succ_mul, Nat.succ_eq_add_one, Nat.sub_add_cancel hp, Nat.pow_add]

theorem Fmt.infMag_lt (f : Fmt) : f.infMag < 2 ^ (f.e + f.t) := by
  have := f.infMag_add
  have := Nat.two_pow_pos f.t
  omega

theorem Fmt.maxFin_lt (f : Fmt) : f.maxFin < 2 ^ (f.e + f.t) := by
  have hinf := f.infMag_lt
  have hp := Nat.two_pow_pos (f.e + f.t)
  unfold Fmt.infMag at hinf
  unfold Fmt.maxFin
  split
  · omega
  · split <;> omega

/-- Half a step of the fraction is less than one. -/
theorem half_fraction {t : Nat} (ht : 1 ≤ t) : 2 ^ (t - 1) + 2 ^ (t - 1) = 2 ^ t := by
  obtain ⟨n, rfl⟩ : ∃ n, t = n + 1 := ⟨t - 1, by omega⟩
  rw [Nat.add_sub_cancel, Nat.pow_succ]
  omega

theorem Fmt.qnan_lt {f : Fmt} (ht : 1 ≤ f.t) : f.qnan < 2 ^ (f.e + f.t) := by
  have hinf := f.infMag_add
  have hhalf := half_fraction ht
  have hp := Nat.two_pow_pos (f.t - 1)
  have hp' := Nat.two_pow_pos (f.e + f.t)
  unfold Fmt.qnan
  split <;> omega

/-- A magnitude with its sign in place. -/
theorem Fmt.sgn_add_lt (f : Fmt) (neg : Bool) {m : Nat} (h : m < 2 ^ (f.e + f.t)) : f.sgn neg + m < 2 ^ f.width := by
  have hw : 2 ^ f.width = 2 * 2 ^ (f.e + f.t) := by rw [Fmt.width, Nat.add_assoc, Nat.pow_add]
  rw [hw, Fmt.sgn]
  split <;> omega

theorem overflowMag_lt (f : Fmt) (rm : Nat) (neg : Bool) : overflowMag f rm neg < 2 ^ (f.e + f.t) := by
  have hfin := f.maxFin_lt
  have hinf := f.infMag_lt
  unfold overflowMag
  repeat' split
  all_goals assumption

theorem fround_lt (f : Fmt) (rm : Nat) (neg : Bool) (m : Nat) (x : Int) : (fround f rm neg m x).1 < 2 ^ f.width := by
  unfold fround
  dsimp only
  split
  · exact f.sgn_add_lt neg (Nat.two_pow_pos _)
  · generalize (if x + (bitLen m : Int) - 1 < 1 - (f.bias : Int) then 1 - (f.bias : Int) else x + (bitLen m : Int) - 1) - (f.t : Int) = q
    split
    · exact f.sgn_add_lt neg (overflowMag_lt ..)
    next h => exact f.sgn_add_lt neg (Nat.lt_of_le_of_lt (Nat.not_lt.1 h) f.maxFin_lt)

theorem nanInto_lt (src : Fmt) {dst : Fmt} (ht : 1 ≤ dst.t) (neg : Bool) (p : Nat) : nanInto src dst neg p < 2 ^ dst.width := by
  have hp := Nat.two_pow_pos (dst.e + dst.t)
  unfold nanInto
  dsimp only
  split
  · exact dst.sgn_add_lt neg (by omega)
  · split
    · exact dst.sgn_add_lt neg (Fmt.qnan_lt ht)
    · have hinf := dst.infMag_add
      have hhalf := half_fraction ht
      rw [Nat.add_assoc, Nat.add_assoc]
      refine dst.sgn_add_lt neg ?_
      generalize (if src.t ≤ dst.t then p * 2 ^ (dst.t - src.t) else p / 2 ^ (src.t - dst.t)) = q
      have hq : q % 2 ^ (dst.t - 1) < 2 ^ (dst.t - 1) := Nat.mod_lt _ (Nat.two_pow_pos _)
      omega

theorem fconv_lt (src : Fmt) {dst : Fmt} (ht : 1 ≤ dst.t) (rm : Nat) (v : FVal) : (fconv src dst rm v).1 < 2 ^ dst.width := by
  cases v with
  | nan n p s => exact nanInto_lt src ht n p
  | inf n =>
    unfold fconv
    dsimp only
    split
    · exact dst.sgn_add_lt n dst.infMag_lt
    · exact dst.sgn_add_lt n dst.maxFin_lt
  | fin n m x => exact fround_lt ..

theorem uval_lt (w : Nat) (x : Int) : uval w x < 2 ^ w := by
  have hp : (0 : Int) < 2 ^ w := by positivity
  have h0 := Int.emod_nonneg x hp.ne'
  have h1 := Int.emod_lt_of_pos x hp
  unfold uval
  zify
  rw [Int.toNat_of_nonneg h0]
  exact h1

theorem ftoi_lt (rm w : Nat) (sgn : Bool) (v : FVal) : (ftoi rm w sgn v).1 < 2 ^ w := by
  cases v with
  | nan n p s => exact Nat.two_pow_pos w
  | inf n => exact uval_lt ..
  | fin n m x =>
    unfold ftoi
    dsimp only
    generalize (if sgn then -(2 ^ (w - 1) : Int) else 0) = lo
    generalize (if sgn then (2 ^ (w - 1) : Int) - 1 else (2 ^ w : Int) - 1) = hi
    split
    · exact uval_lt ..
    · split
      · exact uval_lt ..
      · exact uval_lt ..

/-- A type that is neither an integer nor MX has the width of its format. -/
theorem fmt_width {et : EType} (hi : et.isInt = false) : et.fmt.width = et.width := by
  cases et <;> revert hi <;> decide

theorem fmt_fraction_pos (et : EType) : 1 ≤ et.fmt.t := by
  cases et <;> decide

/-- A converted element is an element of the destination type (R161). -/
theorem cvtOne_lt (th : Thread) (f : VCvt) (uns : Bool) (v k : Nat) : (cvtOne th f uns v k).1 < 2 ^ f.et.width := by
  have hp := Nat.two_pow_pos f.et.width
  unfold cvtOne
  dsimp only
  split
  · split
    · split
      next h => exact h
      next => dsimp only; omega
    · exact uval_lt ..
  · split
    · exact ftoi_lt ..
    next hi =>
      rw [← fmt_width (Bool.eq_false_iff.2 hi)]
      exact fconv_lt _ (fmt_fraction_pos _) ..

/-! ## Sums over lanes -/

theorem foldl_add_eq_sum {α : Type} (g : α → Int) (l : List α) (a : Int) : l.foldl (fun a x => a + g x) a = a + (l.map g).sum := by
  induction l generalizing a with
  | nil => simp
  | cons x l ih => rw [List.foldl_cons, ih, List.map_cons, List.sum_cons, Int.add_assoc]

theorem foldl_if_add_eq_sum {α : Type} (p : α → Bool) (g : α → Int) (l : List α) :
    l.foldl (fun a x => if p x then a + g x else a) 0 = (l.map (fun x => if p x then g x else 0)).sum := by
  have hf : (fun (a : Int) x => if p x then a + g x else a) = fun a x => a + if p x then g x else 0 := by
    funext a x
    split
    · rfl
    · exact (Int.add_zero a).symm
  rw [hf, foldl_add_eq_sum, Int.zero_add]

theorem lane_lt (w : Nat) (v : BitVec 1024) (k : Nat) : lane w v k < 2 ^ w := Nat.mod_lt _ (Nat.two_pow_pos w)

/-- The signed value of a number differs from it by a multiple of 2^w. -/
theorem sval_emod (w v : Nat) : sval w v % 2 ^ w = (v : Int) % 2 ^ w := by
  unfold sval
  split
  · rw [Int.sub_emod_right, Int.emod_emod]
  · rw [Int.emod_emod]

/-- An integer added to a lane wraps around (R143). -/
theorem uval_sval_add (w v : Nat) (x : Int) : uval w (sval w v + x) = (v + uval w x) % 2 ^ w := by
  have hp : (0 : Int) < 2 ^ w := by positivity
  have hx : ((x % 2 ^ w).toNat : Int) = x % 2 ^ w := Int.toNat_of_nonneg (Int.emod_nonneg x hp.ne')
  have e : ((v + uval w x) % 2 ^ w : Nat) = ((sval w v + x) % 2 ^ w : Int) := by
    push_cast
    rw [uval, hx, Int.add_emod_emod, Int.add_emod (sval w v), sval_emod, ← Int.add_emod]
  rw [uval, ← e, Int.toNat_natCast]

/-! ## Multiply-accumulate (R143) -/

/-- Lane j of a `vmac`: value and flags. -/
def macOne (s : State) (th : Thread) (f : VOp) (j : Nat) : Nat × Word :=
  let es := (List.range (macShape f.et).2.2).map (fun i => (macShape f.et).2.2 * j + i)
  let va := rdV s th f.va
  let old := rdV s th f.vd
  if f.et = .i8 then
    (uval 32 (es.foldl (fun a e => a + sval 8 (lane 8 va e) * sval 8 (rdVB s th 8 f.vb e)) (sval 32 (lane 32 old j))), 0)
  else
    macLane f.et.fmt (macShape f.et).1.fmt th.rm (es.map (fun e => (srcVal th f.et f.km 0 (lane f.et.width va e) e,
      srcVal th f.et f.km 8 (rdVB s th f.et.width f.vb e) e))) (lane (macShape f.et).1.width old j)

/-- The lanes that a `vmac` writes: every one for an MX type, else those of its mask (R139, R143). -/
def macMask (th : Thread) (f : VOp) : BitVec 128 := if f.et.isMx then BitVec.allOnes 128 else rdM th f.km

/-- Counting changes nothing that a `vmac` reads. -/
theorem macOne_counted (s : State) (c : Tab (BitVec 48 × Bool)) (th : Thread) (f : VOp) :
    macOne { s with cnts := c } th f = macOne s th f := rfl

/-- Four products of i8 elements added to a lane of i32 (R143). -/
theorem macOne_i8 (s : State) (th : Thread) {f : VOp} (he : f.et = .i8) (j : Nat) : (macOne s th f j).1
    = (lane 32 (rdV s th f.vd) j + uval 32 ((List.range 4).map (fun i =>
        sval 8 (lane 8 (rdV s th f.va) (4 * j + i)) * sval 8 (rdVB s th 8 f.vb (4 * j + i)))).sum) % 2 ^ 32 := by
  have hk : (macShape f.et).2.2 = 4 := by rw [he]; rfl
  rw [macOne, if_pos he, hk, foldl_add_eq_sum, uval_sval_add, List.map_map]
  rfl

/-! ## Conversions (R144) -/

/-- A conversion to a type that is not MX places the converted elements from its first destination element on. -/
theorem convert_places (t : Tid) (th : Thread) {f : VCvt} (uns : Bool) (x : BitVec 1024) (hmx : f.et.isMx = false) :
    ∃ en fl, ∀ u, rdV u th f.va = x → convert u t th f uns = flagged u t th fl [wrV 4 f.vd en
      (BitVec.ofNat 1024 (packNat f.et.width ((List.range (cvtRange f).2.2).map (fun i =>
        (cvtOne th f uns (lane f.src.width x ((cvtRange f).1 + i)) ((cvtRange f).1 + i)).1)) <<< (f.et.width * (cvtRange f).2.1))) fl] := by
  iterate 2 apply Exists.intro
  intro u hu
  unfold convert
  simp only [hu, hmx, Bool.false_eq_true, if_false, List.map_map]
  rfl

/-- A conversion to an MX type writes elements and, beside them, the scale byte of each block (R144, R162). -/
theorem convert_scales (t : Tid) (th : Thread) {f : VCvt} (uns : Bool) (x : BitVec 1024) (hmx : f.et.isMx = true) :
    ∃ en v fl me ms, ∀ u, rdV u th f.va = x → convert u t th f uns = flagged u t th fl [wrV 4 f.vd en v fl, wrM 4 f.md me ms] := by
  iterate 5 apply Exists.intro
  intro u hu
  unfold convert
  simp only [hu, hmx, if_true]
  rfl

/-- The destination elements of a part lie in the register (R144). -/
theorem cvtRange_fits {f : VCvt} (hok : okCvt f = true) (hmx : f.et.isMx = false) {i : Nat} (hi : i < (cvtRange f).2.2) :
    f.et.width * ((cvtRange f).2.1 + i) + f.et.width ≤ 1024 := by
  have hreg : f.et.width * f.et.lanes = 1024 := by
    revert hmx
    cases f.et <;> decide
  have hlt : (cvtRange f).2.1 + i + 1 ≤ f.et.lanes := by
    obtain ⟨hpart, -⟩ := Bool.and_eq_true_iff.1 hok
    have hpart := of_decide_eq_true hpart
    by_cases h : f.et.lanes > f.src.lanes
    · have hr : cvtRange f = (0, f.p.toNat * Nat.min f.et.lanes f.src.lanes, Nat.min f.et.lanes f.src.lanes) := if_pos h
      have hmax : Nat.max f.et.lanes f.src.lanes = f.et.lanes := Nat.max_eq_left h.le
      rw [hr] at hi ⊢
      dsimp only at hi ⊢
      omega
    · have hr : cvtRange f = (f.p.toNat * Nat.min f.et.lanes f.src.lanes, 0, Nat.min f.et.lanes f.src.lanes) := if_neg h
      have hmin : Nat.min f.et.lanes f.src.lanes = f.et.lanes := Nat.min_eq_left (Nat.not_lt.1 h)
      rw [hr] at hi ⊢
      dsimp only at hi ⊢
      omega
  calc f.et.width * ((cvtRange f).2.1 + i) + f.et.width = f.et.width * ((cvtRange f).2.1 + i + 1) := (Nat.mul_succ ..).symm
    _ ≤ f.et.width * f.et.lanes := Nat.mul_le_mul_left _ hlt
    _ = 1024 := hreg

/-- An element of a number of elements that is placed from element `d` on. -/
theorem lane_placed {w d i : Nat} (h : w * (d + i) + w ≤ 1024) (l : List Nat) :
    lane w (BitVec.ofNat 1024 (packNat w l <<< (w * d))) (d + i) = l.getD i 0 % 2 ^ w := by
  rw [lane_ofNat h, Nat.mul_add, Nat.shiftRight_add, Nat.shiftLeft_shiftRight, packNat_lane]

/-- Counting changes no vector register. -/
theorem rdV_counted (s : State) (c : Tab (BitVec 48 × Bool)) (th : Thread) (r : VReg) : rdV { s with cnts := c } th r = rdV s th r := rfl

/-! ## Minima and maxima over lanes (R142, R145) -/

/-- The order in which a minimum or maximum takes the first (R142). -/
def ahead (k : MinMax) (w a b : Nat) : Prop :=
  match k with
  | .min => sval w a ≤ sval w b
  | .max => sval w b ≤ sval w a
  | .minu => a ≤ b
  | .maxu => b ≤ a

theorem ahead_refl (k : MinMax) (w a : Nat) : ahead k w a a := by
  cases k <;> exact le_refl _

theorem ahead_trans {k : MinMax} {w a b c : Nat} (h : ahead k w a b) (h' : ahead k w b c) : ahead k w a c := by
  cases k
  case min => exact le_trans h h'
  case max => exact le_trans h' h
  case minu => exact le_trans h h'
  case maxu => exact le_trans h' h

theorem minMax_ahead (k : MinMax) (w a b : Nat) :
    (minMax k w a b = a ∨ minMax k w a b = b) ∧ ahead k w (minMax k w a b) a ∧ ahead k w (minMax k w a b) b := by
  cases k
  case min =>
    unfold minMax ahead
    dsimp only
    split
    next h => exact ⟨.inl rfl, le_rfl, h⟩
    next h => exact ⟨.inr rfl, (not_le.1 h).le, le_rfl⟩
  case max =>
    unfold minMax ahead
    dsimp only
    split
    next h => exact ⟨.inl rfl, le_rfl, h⟩
    next h => exact ⟨.inr rfl, (not_le.1 h).le, le_rfl⟩
  case minu => exact ⟨min_choice a b, min_le_left a b, min_le_right a b⟩
  case maxu => exact ⟨max_choice a b, le_max_left a b, le_max_right a b⟩

/-- The least or greatest of a list is in it and ahead of all in it. -/
theorem foldl_minMax (k : MinMax) (w : Nat) (l : List Nat) (a : Nat) :
    l.foldl (minMax k w) a ∈ a :: l ∧ ∀ x ∈ a :: l, ahead k w (l.foldl (minMax k w) a) x := by
  induction l generalizing a with
  | nil => exact ⟨List.mem_cons_self, by simp [ahead_refl]⟩
  | cons b l ih =>
    obtain ⟨hmem, hall⟩ := ih (minMax k w a b)
    obtain ⟨hor, ha, hb⟩ := minMax_ahead k w a b
    have hfirst := hall _ List.mem_cons_self
    rw [List.foldl_cons]
    constructor
    · rcases List.mem_cons.1 hmem with e | e
      · rw [e]
        rcases hor with e | e <;> simp [e]
      · simp [e]
    · intro x hx
      rcases List.mem_cons.1 hx with rfl | hx
      · exact ahead_trans hfirst ha
      · rcases List.mem_cons.1 hx with rfl | hx
        · exact ahead_trans hfirst hb
        · exact hall x (List.mem_cons_of_mem _ hx)

/-- What a reduction starts from. -/
def redStart (k : MinMax) (w : Nat) : Nat :=
  match k with | .min => 2 ^ (w - 1) - 1 | .max => 2 ^ (w - 1) | .minu => 2 ^ w - 1 | .maxu => 0

theorem sval_mod (w v : Nat) : sval w (v % 2 ^ w) = sval w v := by
  unfold sval
  rw [Nat.mod_mod, Int.natCast_mod]
  push_cast
  rw [Int.emod_emod]

/-- The signed value of a number of `n + 1` bits. -/
theorem sval_succ {n v : Nat} (h : v < 2 ^ (n + 1)) : sval (n + 1) v = if 2 ^ n ≤ v then (v : Int) - 2 * (2 ^ n : Nat) else v := by
  have hz : (v : Int) % 2 ^ (n + 1) = v := Int.emod_eq_of_lt (Int.natCast_nonneg v) (by exact_mod_cast h)
  unfold sval
  rw [Nat.mod_eq_of_lt h, hz, Nat.add_sub_cancel]
  push_cast
  rw [pow_succ' (2 : Int) n]

theorem sval_bounds (n v : Nat) : -(2 ^ n : Nat) ≤ sval (n + 1) v ∧ sval (n + 1) v < (2 ^ n : Nat) := by
  have hv : v % 2 ^ (n + 1) < 2 ^ (n + 1) := Nat.mod_lt _ (Nat.two_pow_pos _)
  have hs : 2 ^ (n + 1) = 2 * 2 ^ n := Nat.pow_succ'
  rw [← sval_mod, sval_succ hv]
  split <;> omega

/-- Nothing is behind what a reduction starts from. -/
theorem minMax_start (k : MinMax) {w b : Nat} (hw : 1 ≤ w) (hb : b < 2 ^ w) : minMax k w (redStart k w) b = b := by
  obtain ⟨n, rfl⟩ : ∃ n, w = n + 1 := ⟨w - 1, by omega⟩
  have hs : 2 ^ (n + 1) = 2 * 2 ^ n := Nat.pow_succ'
  have hp := Nat.two_pow_pos n
  have hsb := sval_succ hb
  cases k
  case min =>
    have hstart : sval (n + 1) (2 ^ n - 1) = (2 ^ n - 1 : Nat) := by
      rw [sval_succ (by omega), if_neg (by omega)]
    have hle : sval (n + 1) (2 ^ n - 1) ≤ sval (n + 1) b → 2 ^ n - 1 = b := by
      rw [hstart, hsb]
      split <;> omega
    exact ite_eq_right_iff.2 hle
  case max =>
    have hstart : sval (n + 1) (2 ^ n) = -(2 ^ n : Nat) := by
      rw [sval_succ (by omega), if_pos le_rfl]
      omega
    have hle : sval (n + 1) (2 ^ n) ≥ sval (n + 1) b → 2 ^ n = b := by
      rw [hstart, hsb]
      split <;> omega
    exact ite_eq_right_iff.2 hle
  case minu => exact Nat.min_eq_right (Nat.le_sub_one_of_lt hb)
  case maxu => exact Nat.max_eq_right (Nat.zero_le b)

/-- The lanes that take part in a reduction. -/
def redLanes (et : EType) (x : BitVec 1024) (m : BitVec 128) : List Nat :=
  ((List.range et.lanes).filter (fun i => active m i)).map (lane et.width x)

theorem mem_redLanes {et : EType} {x : BitVec 1024} {m : BitVec 128} {v : Nat} :
    v ∈ redLanes et x m ↔ ∃ i < et.lanes, active m i = true ∧ lane et.width x i = v := by
  simp [redLanes, and_assoc]

theorem width_pos (et : EType) : 1 ≤ et.width := by
  cases et <;> decide

/-- The reduced lane. -/
def redLane (k : MinMax) (et : EType) (x : BitVec 1024) (m : BitVec 128) : Nat :=
  (List.range et.lanes).foldl (fun a j => if active m j then minMax k et.width a (lane et.width x j) else a) (redStart k et.width)

theorem redLane_eq (k : MinMax) (et : EType) (x : BitVec 1024) (m : BitVec 128) :
    redLane k et x m = (redLanes et x m).foldl (minMax k et.width) (redStart k et.width) := by
  rw [redLane, redLanes, List.foldl_map, List.foldl_filter]

/-- With an active lane, the reduced lane is one of the active lanes and ahead of every one (R145). -/
theorem redLane_spec (k : MinMax) {et : EType} {x : BitVec 1024} {m : BitVec 128} {i : Nat} (hi : i < et.lanes) (ha : active m i = true) :
    (∃ j < et.lanes, active m j = true ∧ lane et.width x j = redLane k et x m) ∧ ahead k et.width (redLane k et x m) (lane et.width x i) := by
  have hi' : lane et.width x i ∈ redLanes et x m := mem_redLanes.2 ⟨i, hi, ha, rfl⟩
  rw [redLane_eq]
  cases hl : redLanes et x m with
  | nil => exact absurd (hl ▸ hi') List.not_mem_nil
  | cons a l =>
    have hmem : ∀ v ∈ a :: l, ∃ j < et.lanes, active m j = true ∧ lane et.width x j = v := fun v hv => mem_redLanes.1 (hl ▸ hv)
    have hlt : a < 2 ^ et.width := by
      obtain ⟨j, -, -, rfl⟩ := hmem a List.mem_cons_self
      exact lane_lt ..
    obtain ⟨hin, hall⟩ := foldl_minMax k et.width l a
    rw [List.foldl_cons, minMax_start k (width_pos et) hlt]
    exact ⟨hmem _ hin, hall _ (hl ▸ hi')⟩

theorem redLane_lt (k : MinMax) {et : EType} (x : BitVec 1024) {m : BitVec 128} {i : Nat} (hi : i < et.lanes) (ha : active m i = true) :
    redLane k et x m < 2 ^ et.width := by
  obtain ⟨⟨j, -, -, e⟩, -⟩ := redLane_spec (x := x) k hi ha
  exact e ▸ lane_lt ..

/-- The word that a minimum or maximum writes: a signed lane extends its sign, an unsigned one zeros (R145). -/
def redWord (k : MinMax) (w r : Nat) : Word := if k = .min ∨ k = .max then BitVec.ofInt 64 (sval w r) else BitVec.ofNat 64 r

theorem redWord_toInt {k : MinMax} (hk : k = .min ∨ k = .max) (et : EType) (r : Nat) :
    (redWord k et.width r).toInt = sval et.width r := by
  have hw : et.width ≤ 64 := by cases et <;> decide
  obtain ⟨n, hn⟩ : ∃ n, et.width = n + 1 := ⟨et.width - 1, by have := width_pos et; omega⟩
  obtain ⟨hlo, hhi⟩ := sval_bounds n r
  have hp : 2 ^ n ≤ 2 ^ 63 := Nat.pow_le_pow_right (by decide) (by omega)
  rw [redWord, if_pos hk, hn, BitVec.toInt_ofInt]
  exact Int.bmod_eq_of_le (by omega) (by omega)

theorem redWord_toNat {k : MinMax} (hk : ¬(k = .min ∨ k = .max)) {et : EType} {r : Nat} (h : r < 2 ^ et.width) :
    (redWord k et.width r).toNat = r := by
  have hw : et.width ≤ 64 := by cases et <;> decide
  have hp : 2 ^ et.width ≤ 2 ^ 64 := Nat.pow_le_pow_right (by decide) hw
  rw [redWord, if_neg hk, BitVec.toNat_ofNat]
  exact Nat.mod_eq_of_lt (by omega)

/-! ## Issue -/

theorem execVmac_eq (t : Tid) (f : VOp) (s : State) :
    execVmac t f s = vector t (okVmac f.et) (encVOp 0x24 0x00 f) f.et ((macShape f.et).2.1 * (macShape f.et).2.2) (fun s th =>
      flagged s t th (laneFlags (macMask th f) ((List.range (macShape f.et).2.1).map (macOne s th f)))
        [wrV 4 f.vd (laneBytes (macShape f.et).1.width (macShape f.et).2.1 (macMask th f))
          (pack (macShape f.et).1.width (((List.range (macShape f.et).2.1).map (macOne s th f)).map (·.1)))
          (laneFlags (macMask th f) ((List.range (macShape f.et).2.1).map (macOne s th f)))]) s := rfl

section
variable {s s1 : State} {t : Tid} {th : Thread} (h : Issues s s1 t th { major := 4 } 0)
include h

/-- The integer sum of the active lanes (R145). -/
theorem vredAdd_int_writes {et : EType} {g : Reg} {va : VReg} {km : MReg} (hi : et.isInt = true) :
    issues (execVredAdd t et g va km s) s1 t th th.vi 4 .on [wrG 5 g (BitVec.ofInt 64 ((List.range et.lanes).map (fun i =>
      if active (rdM th km) i then sval et.width (lane et.width (rdV s1 th va) i) else (0 : Int))).sum)] := by
  have hok : okRed et = true := by rw [okRed, hi]; rfl
  rw [execVredAdd]
  refine vector_writes h hok (fun c => ?_)
  dsimp only
  rw [if_pos hi, foldl_if_add_eq_sum, rdV_counted]

/-- The integer minimum or maximum of the active lanes (R145). -/
theorem vredMinmax_writes {k : MinMax} {et : EType} {g : Reg} {va : VReg} {km : MReg} (hi : et.isInt = true) :
    issues (execVredMinmax t k et g va km s) s1 t th th.vi 4 .on
      [wrG 5 g (redWord k et.width (redLane k et (rdV s1 th va) (rdM th km)))] := by
  rw [execVredMinmax]
  refine vector_writes h hi (fun c => ?_)
  cases k
  case min => rfl
  case max => rfl
  case minu => rfl
  case maxu => rfl

variable (hf : th.fpt = 0) (hv : th.vt = false)
include hf hv

/-- With no exception enabled, an instruction with flags writes its result. -/
theorem vector_flags {ok : Bool} {word : Word} {et : EType} {n : Nat} {body : State → Thread → Eff} {fl : Word} {ws : List Wr}
    (hok : ok = true) (hb : ∀ c, body { s1 with cnts := c } th = flagged { s1 with cnts := c } t th fl ws) :
    issues (vector t ok word et n body s) s1 t th th.vi 4 .on ws :=
  vector_flagged h hok (.inr hv) (by rw [hf]; exact BitVec.and_zero) hb

theorem vmac_writes {f : VOp} (hok : okVmac f.et = true) : issues (execVmac t f s) s1 t th th.vi 4 .on
    [wrV 4 f.vd (laneBytes (macShape f.et).1.width (macShape f.et).2.1 (macMask th f))
      (pack (macShape f.et).1.width (((List.range (macShape f.et).2.1).map (macOne s1 th f)).map (·.1)))
      (laneFlags (macMask th f) ((List.range (macShape f.et).2.1).map (macOne s1 th f)))] := by
  rw [execVmac_eq]
  exact vector_flags h hf hv hok (fun c => by rw [macOne_counted])

theorem vcvt_writes {f : VCvt} {uns : Bool} {fl : Word} {ws : List Wr} (hok : okCvt f = true)
    (hb : ∀ u, rdV u th f.va = rdV s1 th f.va → convert u t th f uns = flagged u t th fl ws) :
    issues (if uns then exec (.vcvtu t f) s else exec (.vcvt t f) s) s1 t th th.vi 4 .on ws := by
  cases uns
  · rw [if_neg Bool.false_ne_true, exec_vcvt, execVcvt]
    exact vector_flags h hf hv hok (fun c => hb { s1 with cnts := c } rfl)
  · rw [if_pos rfl, exec_vcvtu, execVcvtu]
    exact vector_flags h hf hv hok (fun c => hb { s1 with cnts := c } rfl)

end

/-- Settles O20: `vmac` and the conversions lane by lane, the sums as they stand, and minima and maxima by `redLane_spec`. -/
theorem vectorAccumulateConvertReduce : Obligations.VectorAccumulateConvertReduce := by
  intro s s1 t th f c uns et g va km mm h hf hv
  refine ⟨fun hok => ⟨_, _, vmac_writes h hf hv hok, fun he j hj => ?mac⟩, fun hok => ?cvt, fun hi => ⟨?sum, ?minmax⟩,
    fun hok hi => ?tree⟩
  case mac =>
    have hw : (macShape f.et).1.width = 32 := by rw [he]; rfl
    have hn : (macShape f.et).2.1 = 32 := by rw [he]; rfl
    rw [hw, hn, lane_pack (by omega), List.map_map, getD_map_range _ hj]
    exact (Nat.mod_eq_of_lt (by rw [Function.comp_apply, macOne_i8 s1 th he]; exact Nat.mod_lt _ (by decide))).trans (macOne_i8 s1 th he j)
  case cvt =>
    cases hmx : c.et.isMx with
    | true =>
      obtain ⟨en, v, fl, me, ms, e⟩ := convert_scales t th uns (rdV s1 th c.va) hmx
      exact ⟨v, en, fl, _, vcvt_writes h hf hv hok e, fun _ => ⟨me, ms, rfl⟩, fun e => absurd e (by decide)⟩
    | false =>
      obtain ⟨en, fl, e⟩ := convert_places t th uns (rdV s1 th c.va) hmx
      refine ⟨_, en, fl, _, vcvt_writes h hf hv hok e, fun e => absurd e (by decide), fun _ => ⟨rfl, fun i hi => ?_⟩⟩
      rw [lane_placed (cvtRange_fits hok hmx hi), getD_map_range _ hi, Nat.mod_eq_of_lt (cvtOne_lt ..)]
  case sum => exact vredAdd_int_writes h hi
  case minmax =>
    have front {i : Nat} (hlt : i < et.lanes) (ha : active (rdM th km) i = true) := (redLane_spec (x := rdV s1 th va) mm hlt ha).2
    have bound {i : Nat} (hlt : i < et.lanes) (ha : active (rdM th km) i = true) := redLane_lt mm (rdV s1 th va) hlt ha
    refine ⟨_, vredMinmax_writes h hi, ?mem, fun hk i hlt ha => ?maxu, fun hk i hlt ha => ?minu, fun hk i hlt ha => ?max,
      fun hk i hlt ha => ?min⟩
    case mem =>
      rintro ⟨i, hlt, ha⟩
      obtain ⟨⟨j, hj, haj, e⟩, -⟩ := redLane_spec (x := rdV s1 th va) mm hlt ha
      exact ⟨j, hj, haj, by rw [e, redWord]⟩
    case maxu =>
      rw [redWord_toNat (by rw [hk]; decide) (bound hlt ha)]
      subst hk
      exact front hlt ha
    case minu =>
      rw [redWord_toNat (by rw [hk]; decide) (bound hlt ha)]
      subst hk
      exact front hlt ha
    case max =>
      rw [redWord_toInt (.inr hk)]
      subst hk
      exact front hlt ha
    case min =>
      rw [redWord_toInt (.inl hk)]
      subst hk
      exact front hlt ha
  case tree =>
    have hi' : ¬ et.isInt = true := by rw [hi]; exact Bool.false_ne_true
    intro r
    rw [exec_vredAdd, execVredAdd]
    refine vector_flags h hf hv hok (fl := r.2) (fun c => ?_)
    dsimp only
    rw [if_neg hi', rdV_counted, show treeSum _ _ _ _ _ = r from rfl]

end Sys2Proof.Machine

/-! The statement about the granule table, scrubbing and row modes (R185, R194-R199). -/

namespace Sys2Proof.Machine

/-! ## A granule table command (R197) -/

/-- The state in which a granule table command runs: `VI_GT_CMD` holds it. -/
def gtOpened (s : State) (vi : Vi) (op index : Nat) : State := rset s (viReg vi 0x200) (at_ index 16 ||| at_ op 0)

/-- The command leaves its argument as the host wrote it. -/
theorem rget_gtOpened_arg (s : State) (vi : Vi) (op index : Nat) : rget (gtOpened s vi op index) (gtArgReg vi) = rget s (gtArgReg vi) :=
  rget_rset_ne _ _ (viReg_ne vi (by decide))

section
variable {s : State} {fn : Fn} {vi : Vi}

/-- A command whose effect `body` is complete at once answers what `body` leaves, with the codes it reports. -/
theorem gtCommand_reports {op : Nat} {i : BitVec 12} {body : State → State} {u : State} {r : BitVec 8 × BitVec 8} (h : GtIdle s fn vi)
    (hb : body (gtOpened s vi op i.toNat) = gtDone u vi r) (ht : u.threads = s.threads) :
    hostVi fn vi 0x200 (gtWord op i) (gtCmd vi op i.toNat body) s = .next (statDone u (gtStatReg vi) r) :=
  hostVi_ok h.reach ((if_neg (by rw [h.free]; exact Bool.false_ne_true)).trans hb) ht

/-- The same for an effect on the granule table and the granules alone. -/
theorem gtCommand_changes {op : Nat} {i : BitVec 12} {body : State → State} {t : Tab Word} {m : Tab GranSt} {r : BitVec 8 × BitVec 8}
    (h : GtIdle s fn vi) (hb : body (gtOpened s vi op i.toNat) = gtDone { gtOpened s vi op i.toNat with gt := t, gran := m } vi r) :
    answers (hostVi fn vi 0x200 (gtWord op i) (gtCmd vi op i.toNat body) s) { s with gt := t, gran := m } [viReg vi 0x200] (gtStatReg vi)
      r.1 r.2 :=
  answers_intro (gtCommand_reports h hb rfl) (regsOnly_rset (.refl _ { s with gt := t, gran := m }) (by simp))

end

/-! ## The commands on a table entry (R195, R197, R199) -/

section
variable {s : State} {fn : Fn} {vi : Vi} {i : BitVec 12} {conf : Bool} {a : Word} {g : Nat}

/-- The granule a MAP asks for: the one it names, or with 0xFFF the lowest FREE one of the row mode it names (R195, R197). -/
def gtWanted (s : State) (a : Word) : Option Nat := if gtPgran a = 0xFFF then pickGran s (bit a 57) else some (gtPgran a)

theorem doMap_maps (ha : rget s (gtArgReg vi) = a) (hp : isPf fn = true) (hv : gtValid (gtEntry s vi i.toNat) = false)
    (hm : mirrorOk s a conf = true) (hg : gtWanted s a = some g) (hl : g ≤ 2287) (hf : tget? s.gran g = none) :
    doMap fn vi i conf s = gtDone (rset
        { s with gt := tset s.gt (vi.toNat * 4096 + i.toNat) (mkEntry a g), gran := tset s.gran g (.mapped vi i) }
        (gtStatReg vi) (setBits (rget s (gtStatReg vi)) 43 32 g)) vi (0, 0) := by
  have exists_ : ¬ g > 2287 := by omega
  unfold gtWanted at hg
  simp only [doMap, ha, hp, hv, hg, exists_, hf, hm, Bool.not_true, Bool.false_eq_true, if_false, reduceCtorEq, Option.isSome_none]
  rfl

theorem doUnmap_frees (hp : isPf fn = true) (hv : gtValid (gtEntry s vi i.toNat) = true) (hs : snapCovers s vi i.toNat = false)
    (hu : usedIn s vi i.toNat = []) (hh : s.heldW.any (fun h => decide (h.page / 16384 = gtPgran (gtEntry s vi i.toNat))) = false) :
    doUnmap fn vi i s = gtDone { s with
      gt := tdel s.gt (vi.toNat * 4096 + i.toNat), gran := tset s.gran (gtPgran (gtEntry s vi i.toNat)) .scrubbing } vi (0, 0) := by
  simp only [doUnmap, hp, hv, hs, hu, hh, Bool.not_true, Bool.false_eq_true, if_false, ne_eq, not_true_eq_false]

/-- SETATTR passes where what it changes of SNAP and of the mirror may be changed; a VF changes neither. -/
theorem doSetattr_sets (ha : rget s (gtArgReg vi) = a) (hv : gtValid (gtEntry s vi i.toNat) = true)
    (hs : gtSnap a ≠ gtSnap (gtEntry s vi i.toNat) → isPf fn = true ∧ snapGuards s vi = false)
    (hm : gtMirror a ≠ gtMirror (gtEntry s vi i.toNat) ∨ (gtMirror a = true ∧ gtMpgran a ≠ gtMpgran (gtEntry s vi i.toNat)) →
      isPf fn = true ∧ mirrorOk s a conf = true) :
    doSetattr fn vi i conf s
      = gtDone { s with gt := tset s.gt (vi.toNat * 4096 + i.toNat) (mkEntry a (gtPgran (gtEntry s vi i.toNat))) } vi (0, 0) := by
  unfold doSetattr
  rw [ha]
  generalize gtEntry s vi i.toNat = e at *
  have snap : (gtSnap a != gtSnap e) = true → isPf fn = true ∧ snapGuards s vi = false := fun h => hs (bne_iff_ne.mp h)
  have mirror : (gtMirror a != gtMirror e || (gtMirror a && gtMpgran a != gtMpgran e)) = true → isPf fn = true ∧ mirrorOk s a conf = true :=
    fun h => hm (by simpa only [Bool.or_eq_true, Bool.and_eq_true, bne_iff_ne] using h)
  have allowed : ¬ ((!isPf fn) = true ∧ gtValid e = true ∧ ((gtMirror a != gtMirror e || (gtMirror a && gtMpgran a != gtMpgran e)) = true
      ∨ (gtSnap a != gtSnap e) = true)) := by
    rintro ⟨vf, -, ch⟩
    rw [ch.elim (fun c => (mirror c).1) (fun c => (snap c).1)] at vf
    exact Bool.false_ne_true vf
  have unguarded : ¬ ((gtSnap a != gtSnap e) = true ∧ snapGuards s vi = true) :=
    fun ⟨ch, guards⟩ => Bool.false_ne_true ((snap ch).2.symm.trans guards)
  have confirmed : ¬ ((gtMirror a != gtMirror e || (gtMirror a && gtMpgran a != gtMpgran e)) = true ∧ (!mirrorOk s a conf) = true) := by
    rintro ⟨ch, no⟩
    rw [(mirror ch).2] at no
    exact Bool.false_ne_true no
  exact (if_neg allowed).trans ((if_neg (by simp [hv])).trans ((if_neg unguarded).trans (if_neg confirmed)))

end

section
variable {s : State} {fn : Fn} {vi : Vi} {i : BitVec 12} {conf : Bool} (h : GtIdle s fn vi)
include h

/-- A MAP that succeeds answers with the entry made, and reports the granule. -/
theorem gtMap_answers {g : Nat} (hp : isPf fn = true) (hv : gtValid (gtEntry s vi i.toNat) = false)
    (hm : mirrorOk s (rget s (gtArgReg vi)) conf = true) (hg : gtWanted s (rget s (gtArgReg vi)) = some g) (hl : g ≤ 2287)
    (hf : tget? s.gran g = none) :
    answers (exec (.gtMap fn vi i conf) s) { s with
        gt := tset s.gt (vi.toNat * 4096 + i.toNat) (mkEntry (rget s (gtArgReg vi)) g), gran := tset s.gran g (.mapped vi i) }
      [viReg vi 0x200] (gtStatReg vi) 0 0
    ∧ ∃ u, exec (.gtMap fn vi i conf) s = .next u ∧ bits (rget u (gtStatReg vi)) 43 32 = g := by
  have done := gtCommand_reports (op := 1) h (doMap_maps (rget_gtOpened_arg s vi 1 i.toNat) hp hv hm hg hl hf) rfl
  refine ⟨answers_intro done (regsOnly_rset (regsOnly_rset (.refl _ _) (by simp)) (by simp)), _, done, ?granule⟩
  rw [statDone_keeps_field _ _ _ _ _ (.inl (by decide)) (by decide), rget_rset_self, bits_setBits_self _ _ _ _ (by decide)]
  exact Nat.mod_eq_of_lt (by omega)

theorem gtUnmap_answers (hp : isPf fn = true) (hv : gtValid (gtEntry s vi i.toNat) = true) (hs : snapCovers s vi i.toNat = false)
    (hu : usedIn s vi i.toNat = []) (hh : s.heldW.any (fun h => decide (h.page / 16384 = gtPgran (gtEntry s vi i.toNat))) = false) :
    answers (exec (.gtUnmap fn vi i) s) { s with
        gt := tdel s.gt (vi.toNat * 4096 + i.toNat), gran := tset s.gran (gtPgran (gtEntry s vi i.toNat)) .scrubbing }
      [viReg vi 0x200] (gtStatReg vi) 0 0 :=
  gtCommand_changes (op := 2) h (doUnmap_frees hp hv hs hu hh)

theorem gtSetattr_answers (hv : gtValid (gtEntry s vi i.toNat) = true)
    (hs : gtSnap (rget s (gtArgReg vi)) ≠ gtSnap (gtEntry s vi i.toNat) → isPf fn = true ∧ snapGuards s vi = false)
    (hm : gtMirror (rget s (gtArgReg vi)) ≠ gtMirror (gtEntry s vi i.toNat)
        ∨ (gtMirror (rget s (gtArgReg vi)) = true ∧ gtMpgran (rget s (gtArgReg vi)) ≠ gtMpgran (gtEntry s vi i.toNat)) →
      isPf fn = true ∧ mirrorOk s (rget s (gtArgReg vi)) conf = true) :
    answers (exec (.gtSetattr fn vi i conf) s) { s with
        gt := tset s.gt (vi.toNat * 4096 + i.toNat) (mkEntry (rget s (gtArgReg vi)) (gtPgran (gtEntry s vi i.toNat))) }
      [viReg vi 0x200] (gtStatReg vi) 0 0 :=
  gtCommand_changes (op := 3) h (doSetattr_sets (rget_gtOpened_arg s vi 3 i.toNat) hv hs hm)

/-- READ answers with the entry in `VI_GT_ARG`. -/
theorem gtRead_answers : answers (exec (.gtRead fn vi i) s) s [viReg vi 0x200, gtArgReg vi] (gtStatReg vi) 0 0
    ∧ ∃ u, exec (.gtRead fn vi i) s = .next u ∧ rget u (gtArgReg vi) = gtShow s vi i.toNat := by
  have done := gtCommand_reports (op := 4) (body := doGtRead vi i) (i := i) h rfl rfl
  refine ⟨answers_intro done (regsOnly_rset (regsOnly_rset (.refl _ _) (by simp)) (by simp)), _, done, ?shown⟩
  exact (rget_statDone_ne _ _ (viReg_ne vi (by decide))).trans (rget_rset_self ..)

end

/-! ## Row modes (R185) -/

/-- A row of FREE granules takes the mode that the command gives. -/
theorem rowCommand_answers {s : State} {fn : Fn} {row : BitVec 7} {v : Word} (op : Nat) (hp : isPf fn = true)
    (h : HostReaches s fn (devReg 0x4000)) (hb : statBusy s granStatReg = false) (hr : row.toNat ≤ 70)
    (hf : ((List.range 32).all (fun k => granFree s (32 * row.toNat + k))) = true) :
    answers (hostPf fn (devReg 0x4000) v (rowCommand op row) s) { s with
        rowSpread := if op = 2 then s.rowSpread ||| BitVec.ofNat 72 (2 ^ row.toNat) else s.rowSpread &&& ~~~BitVec.ofNat 72 (2 ^ row.toNat) }
      [devReg 0x4000] granStatReg 0 0 := by
  have exists_ : ¬ row.toNat > 70 := by omega
  have free (w : Word) : ((List.range 32).all (fun k => granFree (rset s (devReg 0x4000) w) (32 * row.toNat + k))) = true := hf
  have set_ : rowCommand op row s = statDone (rset { s with
      rowSpread := if op = 2 then s.rowSpread ||| BitVec.ofNat 72 (2 ^ row.toNat) else s.rowSpread &&& ~~~BitVec.ofNat 72 (2 ^ row.toNat) }
      (devReg 0x4000) (at_ row.toNat 8 ||| at_ op 0)) granStatReg (0, 0) := by
    simp only [rowCommand, hb, exists_, free, Bool.not_true, Bool.false_eq_true, if_false]
    rfl
  exact answers_intro (hostPf_ok hp h set_ rfl) (regsOnly_rset (.refl _ _) (by simp))

/-- Settles O29: each table command passes its checks and answers as its lemma above says, a scrubbed granule is filled with zeros, and both
row commands are one command with two values of OP. -/
theorem granuleCommands : Obligations.GranuleCommands := by
  unfold Obligations.GranuleCommands
  intro s fn vi
  refine ⟨fun i conf h => ⟨fun hp hv hm g hg hl hf => gtMap_answers h hp hv hm hg hl hf,
    fun hp hv hs hu hh => gtUnmap_answers h hp hv hs hu hh, fun hv hs hm => gtSetattr_answers h hv hs hm, gtRead_answers h⟩,
    fun g hg => ⟨_, if_pos hg, rfl⟩, fun row hp h hb hr hf => ⟨rowCommand_answers 2 hp h hb hr hf, rowCommand_answers 1 hp h hb hr hf⟩⟩

end Sys2Proof.Machine

/-! The statement about spill areas, patrol scrub and mirrored writes (R203-R208, R212, R216-R219). -/

namespace Sys2Proof.Machine

/-! ## Spill areas (R203-R208) -/

section
variable {s : State} {fn : Fn} {vi : Vi} {host : Bool} {v : Word}

theorem spillWriteReg_vf (h : isPf fn = false) :
    spillWriteReg fn vi host v s = viRefused s fn vi (if host then 0x228 else 0x220) :=
  if_pos (by rw [h]; rfl)

/-- What a write of a spill area register puts in it: the register's fields, where a COUNT out of range keeps the old one (R203). -/
def spillWord (s : State) (vi : Vi) (host : Bool) (v : Word) : Word :=
  if host then v &&& 0xFFFFFFFFFFE00FFF else spillDevVal (rget s (viReg vi (if host then 0x228 else 0x220))) v

/-- A PF's write is kept where the checks of the area pass, and else refused with their codes (R203, R205). -/
theorem spillWriteReg_pf (h : isPf fn = true) : spillWriteReg fn vi host v s =
    if (spillCheck s vi host (spillWord s vi host v)).1 = 0 then rset s (viReg vi (if host then 0x228 else 0x220)) (spillWord s vi host v)
    else viRefused (statDone s (gtStatReg vi) (spillCheck s vi host (spillWord s vi host v))) fn vi (if host then 0x228 else 0x220) :=
  if_neg (by rw [h]; exact Bool.false_ne_true)

/-- A write that passes the checks of `DEV_CTX_SPILL` is kept (R208). -/
theorem ctxSpillWrite_takes (ha : s.ctxs.all (fun p => decide (p.1 < 1048576)) = true) (hc : bits v 13 0 ≤ 15360) :
    ctxSpillWrite fn v s
      = rset { s with ctxFn := fn } (devReg 0x4030) ((v &&& 0xFFFFFFFFFFE00000) ||| at_ (bits v 13 0) 0) := by
  have none_held : s.ctxs.any (fun p => decide (p.1 ≥ 1048576)) = false := by
    rw [List.any_eq_false]
    intro p hp
    simpa using List.all_eq_true.mp ha p hp
  have fits : ¬ bits v 13 0 > 15360 := by omega
  simp only [ctxSpillWrite, none_held, fits, Bool.false_eq_true, if_false]

end

/-! ## Patrol scrub (R212) -/

/-- The patrol reads a block of memory while the device works. -/
theorem patrol_reads {s : State} {b : Nat} (hm : b * 64 < memEnd) (hd : s.pwr.st ≠ 2) (hb : s.boot.phase = 8) :
    ¬ (b * 64 ≥ memEnd ∨ s.pwr.st = 2 ∨ s.boot.phase ≠ 8) := by
  rintro (h | h | h)
  · exact absurd hm (not_lt.mpr h)
  · exact hd h
  · exact h hb

/-! ## Mirrored writes (R216, R219) -/

/-- A mirrored write has arrived (R217). -/
def mirCounted (s : State) : State := { s with pair := { s.pair with mirGot := s.pair.mirGot + 1 } }

section
variable {s : State} {src g off : Nat} {data : List Byte} {o : Vi} {e : Word} (hg : mapOf s g = some (o, e))
include hg

/-- The write is performed on the granule whose entry names the partner's. -/
theorem mirrorArrive_performs (hn : off + data.length ≤ 2 ^ 30) (hm : gtMirror e = true) (hp : gtMpgran e = src) :
    mirrorArrive src g off data 0 s = mirrorAckOut (engAct (mirCounted s) o none (.bytes (g * 2 ^ 30 + off) data) .partner) := by
  have mapped : mapOf (mirCounted s) g = some (o, e) := hg
  unfold mirCounted at mapped ⊢
  simp only [mirrorArrive, mapped, hm, hp, decide_true, Bool.and_self, if_true, hn]

/-- A write of a granule whose entry does not name the partner's is refused with an error record. -/
theorem mirrorArrive_refuses (h : gtMirror e = false ∨ gtMpgran e ≠ src) (marker : Nat) : mirrorArrive src g off data marker s
    = raiseErr (mirCounted s)
      { cause := 0x10, sev := 2, vi := some o, addr := BitVec.ofNat 64 (g * 2 ^ 30 + off), arg0 := BitVec.ofNat 64 src } := by
  have mapped : mapOf (mirCounted s) g = some (o, e) := hg
  have other : (gtMirror e && decide (gtMpgran e = src)) = false := by
    rcases h with h | h <;> simp [h]
  unfold mirCounted at mapped ⊢
  simp only [mirrorArrive, mapped, other, Bool.false_eq_true, if_false]

end

/-- Settles O30: the checks of each register are passed or fail as assumed, and a mirrored write meets the entry of its granule. -/
theorem spillScrubAndMirror : Obligations.SpillScrubAndMirror := by
  unfold Obligations.SpillScrubAndMirror
  intro s fn vi v
  refine ⟨?spill, fun hp h ha hc => ?ctx, fun block hm hd hb => ?patrol, ?mirror, fun seq => rfl⟩
  case spill =>
    intro host off w h
    have write : exec (.viSpillWrite fn vi host v) s = .next (settle (spillWriteReg fn vi host v s)) := hostVi_settles h
    refine ⟨fun hp hc => hostVi_ok h ((spillWriteReg_pf hp).trans (if_pos hc)) rfl, fun hp => ?vf, fun hp hc => ?fails⟩
    case vf => rw [write, spillWriteReg_vf hp]
    case fails => exact write.trans (congrArg (fun u => Host.Outcome.next (settle u)) ((spillWriteReg_pf hp).trans (if_neg hc)))
  case ctx => exact hostPf_ok hp h (ctxSpillWrite_takes ha hc) rfl
  case patrol =>
    have reads := patrol_reads hm hd hb
    refine ⟨fun hu => ?clean, fun hp => ?fresh⟩
    case clean =>
      have good : ¬ s.ue.contains block.toNat = true := ne_true_of_eq_false hu
      exact ⟨(if_neg reads).trans (congrArg Host.Outcome.next (if_neg good)),
        (if_neg reads).trans (congrArg Host.Outcome.next (if_neg good))⟩
    case fresh => exact (if_neg reads).trans (congrArg Host.Outcome.next (if_neg (ne_true_of_eq_false hp)))
  case mirror =>
    intro src g off data o e hg hn w
    refine ⟨fun hm hp => ?performed, fun hr => ?refused⟩
    case performed => exact congrArg (fun u => Host.Outcome.next (settle u)) (mirrorArrive_performs hg hn hm hp)
    case refused =>
      have arg : src.setWidth 64 = BitVec.ofNat 64 src.toNat := (BitVec.ofNat_toNat ..).symm
      rw [arg]
      exact congrArg (fun u => Host.Outcome.next (settle u)) (mirrorArrive_refuses hg hr _)

end Sys2Proof.Machine

/-! The statement about the phases of start-up (R181, R480-R484, R601-R615). -/

namespace Sys2Proof.Machine

/-! ## SECURE (R480, R481, R484) -/

/-- An image passes with a good signature, a version that the fuses allow, and a key that is not revoked (R481). -/
theorem imagePass_iff (s : State) (i : Image) : imagePass s i = true ↔
    i.sigOk = true ∧ s.sec.fused.toNat ≤ i.svn.toNat ∧ ∃ key, i.key = some key ∧ bit s.sec.revoked key.toNat = false := by
  cases hk : i.key with
  | none => simp [imagePass, hk]
  | some key =>
    simp only [imagePass, hk, Option.map_some, Option.getD_some, Option.some.injEq, exists_eq_left', Bool.and_eq_true, Bool.not_eq_true',
      decide_eq_true_eq, and_assoc]
    rw [and_comm (b := i.svn.toNat ≥ s.sec.fused.toNat)]

/-- The slot with its image, where the image passes. -/
def bootable (s : State) (k : Nat) : Option (Nat × Image) :=
  (tget? s.fw.images k).bind (fun i => if imagePass s i then some (k, i) else none)

theorem bootable_passes {s : State} {k : Nat} {i : Image} (h : tget? s.fw.images k = some i) (hp : imagePass s i = true) :
    bootable s k = some (k, i) := by
  simp [bootable, h, hp]

theorem bootable_none {s : State} {k : Nat} (h : ¬ ∃ i, tget? s.fw.images k = some i ∧ imagePass s i = true) : bootable s k = none := by
  cases hi : tget? s.fw.images k with
  | none => simp [bootable, hi]
  | some i =>
    have fails : ¬ imagePass s i = true := fun hp => h ⟨i, hi, hp⟩
    simp [bootable, hi, fails]

/-- The first slot in the order of boot whose image passes (R480, R507). -/
def bootFrom (s : State) : Option (Nat × Image) := (bootOrder s).findSome? (bootable s)

/-- A slot boots where its image passes and no earlier one's does. -/
theorem bootFrom_first {s : State} {k : Nat} {x : Nat × Image} (hk : bootable s k = some x)
    (h : k = s.fw.pref ∨ (k = 1 - s.fw.pref ∧ bootable s s.fw.pref = none)
      ∨ (k = 2 ∧ bootable s s.fw.pref = none ∧ bootable s (1 - s.fw.pref) = none)) : bootFrom s = some x := by
  rcases h with rfl | ⟨rfl, first⟩ | ⟨rfl, first, second⟩
  · simp [bootFrom, bootOrder, hk]
  · simp [bootFrom, bootOrder, first, hk]
  · simp [bootFrom, bootOrder, first, second, hk]

theorem bootFrom_none {s : State} (h1 : bootable s s.fw.pref = none) (h2 : bootable s (1 - s.fw.pref) = none) (h3 : bootable s 2 = none) :
    bootFrom s = none := by
  simp [bootFrom, bootOrder, h1, h2, h3]

/-! ## Measurement registers (R484) -/

theorem measOf_measExtend_self (s : State) (i : Nat) (d : BitVec 384) :
    measOf (measExtend s i d) i = Config.sha384 (digestBytes (measOf s i) ++ digestBytes d) := by
  simp [measOf, measExtend]

theorem measOf_measExtend_ne (s : State) {i j : Nat} (d : BitVec 384) (h : j ≠ i) : measOf (measExtend s i d) j = measOf s j :=
  congrArg Prod.fst (tget_tset_ne _ _ _ h)

/-- The registers but those of the ROM and the island start from zero. -/
theorem measOf_measureBoot (s : State) {j : Nat} (h0 : j ≠ 0) (h5 : j ≠ 5) : measOf (measureBoot s) j = 0 :=
  (measOf_measExtend_ne _ _ h5).trans (measOf_measExtend_ne _ _ h0)

/-! ## SECURE ends -/

/-- Measurement does not change which image boots. -/
theorem bootFrom_measureBoot (s : State) : bootFrom (measureBoot s) = bootFrom s := rfl

section
variable {s : State} (h : s.boot.phase = 4)
include h

/-- The Stewards are released into the image that boots, which M1 takes. -/
theorem execSecure_boots {k : Nat} {i : Image} (hb : bootFrom s = some (k, i)) :
    execSecure s = .next { measExtend (measureBoot s) 1 i.digest with
      sec := { (measExtend (measureBoot s) 1 i.digest).sec with boot := 1, slot := BitVec.ofNat 2 k, svn := i.svn, keyUsed := i.key.getD 0 }
      fw := { s.fw with active := k }
      boot := { s.boot with phase := 5 } } := by
  have taken := (bootFrom_measureBoot s).trans hb
  unfold bootFrom bootable at taken
  simp only [execSecure, h, ne_eq, not_true_eq_false, if_false, taken]
  rfl

theorem execSecure_fails (hb : bootFrom s = none) : execSecure s
    = .next (startFail { measureBoot s with sec := { (measureBoot s).sec with boot := 2 } } 2 0) := by
  have none_ := (bootFrom_measureBoot s).trans hb
  unfold bootFrom bootable at none_
  simp only [execSecure, h, ne_eq, not_true_eq_false, if_false, none_]

/-- What the device is after SECURE took an image. -/
theorem secure_takes {k : Nat} {i : Image} (hb : bootFrom s = some (k, i)) : ∃ u, exec .secure s = .next u ∧ u.boot.phase = 5
    ∧ u.fw.active = k ∧ u.sec.boot = 1 ∧ u.sec.svn = i.svn ∧ u.sec.fused = s.sec.fused ∧ u.sec.revoked = s.sec.revoked
    ∧ measOf u 1 = Config.sha384 (digestBytes 0 ++ digestBytes i.digest) := by
  refine ⟨_, execSecure_boots h hb, rfl, rfl, rfl, rfl, rfl, rfl, ?_⟩
  rw [← measOf_measureBoot s (j := 1) (by decide) (by decide)]
  exact measOf_measExtend_self (measureBoot s) 1 i.digest

end

/-! ## CONVERT, TRAIN and FIRMWARE (R602, R610, R611, R615) -/

theorem smbAddr_b2n (a1 a0 : Bool) : 0x58 + 2 * b2n a1 + b2n a0 = 0x58 + 2 * a1.toNat + a0.toNat := by
  cases a1 <;> cases a0 <;> rfl

/-- A failed phase holds its code and the unit that failed (R615). -/
theorem startFail_reports (s : State) (code : Nat) {n : Nat} (hn : n < 256) : (startFail s code n).boot.phase = 9
    ∧ (startFail s code n).boot.fail = BitVec.ofNat 8 code ∧ (startFail s code n).boot.failUnit.toNat = n :=
  ⟨rfl, rfl, Nat.mod_eq_of_lt hn⟩

/-- The state in which FIRMWARE starts the ports: the image runs, and the device is Bright. -/
def firmwareUp (s : State) : State :=
  { s with
    boot := { s.boot with
      phase := 8, ms := if s.drst.phase = 0 then BitVec.ofNat 16 (sat 65535 (s.boot.convMs + s.devTime.toNat / 1000000)) else s.boot.ms }
    fw := { s.fw with up := true }
    pwr := (toBright s).pwr }

theorem firmware_ends {s : State} (h : s.boot.phase = 7) : exec .firmware s = .next (portsTrain (firmwareUp s)) :=
  if_neg (not_not.mpr h)

/-- Before conversion, and once start-up has ended or failed, no phase can end. -/
theorem no_phase_ends {s : State} (h : s.boot.phase = 0 ∨ s.boot.phase = 8 ∨ s.boot.phase = 9) {c : Instr}
    (hc : c ∈ [Instr.convert 0 false false, .coolant, .coolantTimeout, .rails, .secure, .train .ok, .fill, .firmware]) :
    exec c s = .next s := by
  have other (n : BitVec 4) (hn : n ≠ 0 ∧ n ≠ 8 ∧ n ≠ 9) : s.boot.phase ≠ n := by
    rintro rfl
    exact h.elim hn.1 (fun k => k.elim hn.2.1 hn.2.2)
  simp only [List.mem_cons, List.not_mem_nil, or_false] at hc
  rcases hc with rfl | rfl | rfl | rfl | rfl | rfl | rfl | rfl
  · exact if_pos (other 1 (by decide))
  · exact if_neg (fun k => other 2 (by decide) k.1)
  · exact if_neg (fun k => other 2 (by decide) k.1)
  · exact if_neg (other 3 (by decide))
  · exact if_pos (other 4 (by decide))
  · exact if_pos (other 5 (by decide))
  · exact if_pos (other 6 (by decide))
  · exact if_pos (other 7 (by decide))

/-- Settles O59: each phase ends where its condition holds; SECURE by the order of boot, FIRMWARE by what the ports make of it. -/
theorem startUpPhases : Obligations.StartUpPhases := by
  unfold Obligations.StartUpPhases
  intro s
  refine ⟨fun ms a1 a0 h => ?convert, fun h => ?coolant, fun h => if_pos h, fun h => ?secure, fun h => ?train, fun h => if_neg (not_not.mpr h),
    fun h => ?firmware, fun c hc h => no_phase_ends h hc⟩
  case convert =>
    refine ⟨_, if_neg (not_not.mpr h), rfl, rfl, congrArg (some <| BitVec.ofNat 7 ·) (smbAddr_b2n a1 a0), fun p => ?_, rfl⟩
    exact Vector.getElem_map ..
  case coolant =>
    refine ⟨fun flow warm cool => if_pos ⟨h, flow, warm, cool⟩, fun bad => if_neg ?_,
      fun late => ⟨_, if_pos ⟨h, late⟩, rfl, rfl, rfl⟩, fun early => if_neg (fun k => absurd k.2 (not_le.mpr early))⟩
    rintro ⟨-, flow, -, cool⟩
    omega
  case secure =>
    intro ok
    have passes (k : Nat) : ok k ↔ ∃ i, tget? s.fw.images k = some i ∧ imagePass s i = true :=
      exists_congr fun i => and_congr_right fun _ => (imagePass_iff s i).symm
    have none_ {k : Nat} (hk : ¬ ok k) : bootable s k = none := bootable_none (mt (passes k).mpr hk)
    refine ⟨fun k i hi hk first => secure_takes h (bootFrom_first (k := k) ?_ ?_), fun h1 h2 h3 => ?_⟩
    · obtain ⟨j, hj, hp⟩ := (passes k).mp hk
      cases hi.symm.trans hj
      exact bootable_passes hi hp
    · exact first.imp id (Or.imp (And.imp id none_) (And.imp id (And.imp none_ none_)))
    · exact ⟨_, execSecure_fails h (bootFrom_none (none_ h1) (none_ h2) (none_ h3)), rfl, rfl, rfl⟩
  case train =>
    have run : ¬ s.boot.phase ≠ 5 := not_not.mpr h
    refine ⟨_, if_neg run, rfl, rfl, fun st l f => ⟨startFail s 3 st.val, startFail s 4 st.val, startFail s 5 l.val,
      startFail s 6 (f.toNat / 8), ⟨if_neg run, startFail_reports s 3 ?_⟩, ⟨if_neg run, startFail_reports s 4 ?_⟩,
      ⟨if_neg run, startFail_reports s 5 ?_⟩, ⟨if_neg run, startFail_reports s 6 ?_⟩⟩⟩
    all_goals omega
  case firmware =>
    have same := portsTrain_frame (firmwareUp s)
    refine ⟨_, firmware_ends h, ?_, ?_, ?_, fun p => ?_⟩
    · rw [same]; rfl
    · rw [same]; rfl
    · rw [same]; rfl
    · exact getPhy_portsTrain (firmwareUp s) p

end Sys2Proof.Machine

/-! The statement about the host's commands to the sync block (R229, R230, R239, R250, R620). -/

namespace Sys2Proof.Machine

/-! ## A command of the sync block -/

/-- The state in which a command runs: `SYN_CMD` holds it. -/
def synOpened (s : State) (fn : Fn) (op : SynOp) (c : SynArgs) : State := rset s (fnReg fn 0x400000) (synCmdWord op c)

/-- The command as the sync block takes it, for the acting VI. -/
def synJob (fn : Fn) (op : SynOp) (c : SynArgs) : SynJob where
  fn := fn
  op := op
  vi := actor fn c.vi
  obj := c.obj.toNat
  ty := c.ty

/-- A command leaves its arguments as the host wrote them. -/
theorem synArg0_opened (s : State) (fn : Fn) (op : SynOp) (c : SynArgs) : synArg0 (synOpened s fn op c) fn = synArg0 s fn :=
  congrArg (bits · 47 0) (rget_rset_ne s _ (fnReg_ne fn (by decide)))

theorem synArg1_opened (s : State) (fn : Fn) (op : SynOp) (c : SynArgs) : synArg1 (synOpened s fn op c) fn = synArg1 s fn :=
  congrArg (bits · 25 0) (rget_rset_ne s _ (fnReg_ne fn (by decide)))

theorem synDataReg_ne (fn : Fn) {i j : Nat} (h : i ≠ j) : synDataReg fn i ≠ synDataReg fn j := fnReg_ne fn (by omega)

theorem synDataReg_ne_stat (fn : Fn) (i : Nat) : synDataReg fn i ≠ synStatReg fn := fnReg_ne fn (by omega)

/-! ## The data registers -/

theorem regsOnly_fillSyn {ks : List Nat} {w u : State} {fn : Fn} (h : RegsOnly ks w u) (hk : ∀ i < 4, synDataReg fn i ∈ ks) (vi : Vi)
    (n : Nat) : RegsOnly ks w (fillSyn u fn vi n) :=
  regsOnly_rset (regsOnly_rset (regsOnly_rset (regsOnly_rset h (hk 0 (by decide))) (hk 1 (by decide))) (hk 2 (by decide))) (hk 3 (by decide))

theorem rget_fillSyn (s : State) (fn : Fn) (vi : Vi) (n : Nat) (i : Fin 4) :
    rget (fillSyn s fn vi n) (synDataReg fn i) = (synData s vi n)[i] := by
  match i with
  | 0 | 1 | 2 | 3 => simp [fillSyn, rget_rset_ne, synDataReg_ne]

theorem bits_fillValue (s : State) (fn : Fn) (v : BitVec 48) : bits (rget (fillValue s fn v) (synDataReg fn 0)) 47 0 = v.toNat := by
  unfold fillValue
  rw [rget_rset_self, bits_setBits_self _ _ _ _ (by decide)]
  exact Nat.mod_eq_of_lt v.isLt

/-! ## The operations on an object that pass their checks -/

/-- An object as CONFIG makes it, with the generation after the old one's (R229). -/
def configured (o : SynObj) (ty : BitVec 2) (v w : Nat) : SynObj where
  st := 1
  ty := ty
  gen := if o.gen = 0xFFFF then 1 else o.gen + 1
  value := if ty = 1 ∨ ty = 2 then BitVec.ofNat 48 v else 0
  expect := if ty = 0 then BitVec.ofNat 32 v else 0
  wdog := BitVec.ofNat 26 (if w = 0 then 1000000 else w)

/-- An object as RESTORE makes it (R250). -/
def restored (o : SynObj) (v : Nat) : SynObj :=
  { o with st := 1, owner := none, bad := false, value := if o.ty = 1 ∨ o.ty = 2 then BitVec.ofNat 48 v else 0 }

section
variable {s : State} {fn : Fn} {n : Nat}

theorem synConfigure_configures {ty : BitVec 2} (vi : Vi) (hb : synBusy (getSyn s n) = false) (hl : lockOwned (getSyn s n) = false)
    (hv : ty = 0 → synArg0 s fn ≠ 0 ∧ synArg0 s fn ≤ 2 ^ 28) (hw : synArg1 s fn ≤ 60000000) :
    synConfigure s fn vi n ty = (fillSyn (setSyn s n (configured (getSyn s n) ty (synArg0 s fn) (synArg1 s fn))) fn vi n, (0, 0)) := by
  have free : ¬ (synBusy (getSyn s n) = true ∨ lockOwned (getSyn s n) = true) := by simp [hb, hl]
  have figures : ¬ ((ty = 0 ∧ (synArg0 s fn = 0 ∨ synArg0 s fn > 2 ^ 28)) ∨ synArg1 s fn > 60000000) := by
    rintro (⟨bar, zero | large⟩ | large)
    · exact (hv bar).1 zero
    · exact absurd (hv bar).2 (not_le.mpr large)
    · exact absurd hw (not_le.mpr large)
  exact (if_neg free).trans (if_neg figures)

theorem synRestoreObj_restores (hs : (getSyn s n).st ≠ 0) (hb : synBusy (getSyn s n) = false) (hl : lockOwned (getSyn s n) = false) :
    synRestoreObj s fn n = (setSyn s n (restored (getSyn s n) (synArg0 s fn)), (0, 0)) :=
  (if_neg hs).trans (if_neg (by simp [hb, hl]))

theorem synUnsetObj_unsets (hb : synBusy (getSyn s n) = false) :
    synUnsetObj s n = (setSyn s n { getSyn s n with st := 0, owner := none, value := 0, bad := false }, (0, 0)) :=
  if_neg (by simp [hb])

/-- Operations on an object of type `ty` are performed: it is neither UNSET nor FAULTED, and its storage is intact (R229, R239). -/
def SynActive (o : SynObj) (ty : BitVec 2) : Prop := o.st ≠ 0 ∧ o.st ≠ 2 ∧ o.bad = false ∧ o.ty = ty

theorem hostOpOn_performs {ty : BitVec 2} (op : SynOp) (ha : SynActive (getSyn s n) ty) : hostOpOn s fn n op ty = hostOp s fn n op := by
  obtain ⟨set_, sound, good, suits⟩ := ha
  have passes : hostOpCheck (getSyn s n) ty = (0, 0) :=
    (if_neg set_).trans ((if_neg (by simp [good])).trans ((if_neg (not_not.mpr suits)).trans (if_neg sound)))
  simp only [hostOpOn, passes, ne_eq, not_true_eq_false, if_false]

theorem hostOp_semt_takes (hw : (getSyn s n).waiters = []) (hv : synArg0 s fn ≤ (getSyn s n).value.toNat) :
    hostOp s fn n .semt = (fillValue
      (setSyn s n { getSyn s n with value := (getSyn s n).value - BitVec.ofNat 48 (synArg0 s fn) }) fn
      ((getSyn s n).value - BitVec.ofNat 48 (synArg0 s fn)), (0, 0)) :=
  if_pos ⟨List.isEmpty_iff.mpr hw, hv⟩

theorem hostOp_semt_retries (hv : (getSyn s n).waiters ≠ [] ∨ (getSyn s n).value.toNat < synArg0 s fn) :
    hostOp s fn n .semt = (fillValue s fn (getSyn s n).value, (1, 0)) :=
  if_neg fun ⟨none_, fits⟩ => hv.elim (· (List.isEmpty_iff.mp none_)) (not_lt.mpr fits)

theorem hostOp_semv_adds (hv : (getSyn s n).value.toNat + synArg0 s fn < 2 ^ 48) :
    hostOp s fn n .semv = (serveQueue (fillValue
      (setSyn s n { getSyn s n with value := (getSyn s n).value + BitVec.ofNat 48 (synArg0 s fn) }) fn
      ((getSyn s n).value + BitVec.ofNat 48 (synArg0 s fn))) n (getSyn s n).waiters.length, (0, 0)) :=
  if_neg (not_le.mpr hv)

end

/-! ## The commands -/

section
variable {s : State} {fn : Fn} {c : SynArgs} (h : SynIdle s fn c)
include h

/-- With no command before it, the sync block performs the command at once and reports its codes. -/
theorem synCommand_performs (op : SynOp) : synCommand fn op c s
    = statDone (synExec (synOpened s fn op c) (synJob fn op c)).1 (synStatReg fn) (synExec (synOpened s fn op c) (synJob fn op c)).2 := by
  have port : ¬ (isPf fn = true ∧ (!samePort fn c.vi) = true) := by simpa using h.port
  exact (if_neg (by simp [h.free])).trans (if_neg port)

theorem synJob_held (op : SynOp) : ¬ objHolder (synOpened s fn op c) (synJob fn op c).obj ≠ some (synJob fn op c).vi := not_not.mpr h.holds

theorem synWrite_completes {op : SynOp} {v : Word} {w : State} {r : BitVec 8 × BitVec 8}
    (he : synExec (synOpened s fn op c) (synJob fn op c) = (w, r)) (ht : w.threads = s.threads) :
    hostWr fn 0x400000 v (synCommand fn op c) s = .next (statDone w (synStatReg fn) r) :=
  hostWr_ok h.reach (by rw [synCommand_performs h, he]) ht

/-- A command that serves waiters may complete a thread's `wait`. -/
theorem synWrite_settles {op : SynOp} {v : Word} {w : State} {r : BitVec 8 × BitVec 8}
    (he : synExec (synOpened s fn op c) (synJob fn op c) = (w, r)) :
    hostWr fn 0x400000 v (synCommand fn op c) s = .next (settle (statDone w (synStatReg fn) r)) := by
  rw [hostWr_settles h.reach, synCommand_performs h, he]

/-- A command that changes no register beside its own: `d` is the state before it with what it changed. -/
theorem synPlain_answers {op : SynOp} {v : Word} (d : State) {r : BitVec 8 × BitVec 8}
    (he : synExec (synOpened s fn op c) (synJob fn op c) = (synOpened d fn op c, r)) (hd : d.threads = s.threads) :
    answers (hostWr fn 0x400000 v (synCommand fn op c) s) d [fnReg fn 0x400000] (synStatReg fn) r.1 r.2 :=
  answers_intro (synWrite_completes h he hd) (regsOnly_rset (.refl _ _) (by simp))

/-- One that fills the data registers. -/
theorem fillSyn_answers {op : SynOp} {v : Word} (d : State) {vi : Vi} {n : Nat} {r : BitVec 8 × BitVec 8}
    (he : synExec (synOpened s fn op c) (synJob fn op c) = (fillSyn (synOpened d fn op c) fn vi n, r)) (hd : d.threads = s.threads) :
    answers (hostWr fn 0x400000 v (synCommand fn op c) s) d
      [fnReg fn 0x400000, synDataReg fn 0, synDataReg fn 1, synDataReg fn 2, synDataReg fn 3] (synStatReg fn) r.1 r.2 := by
  refine answers_intro (synWrite_completes h he hd) (regsOnly_fillSyn (regsOnly_rset (.refl _ _) (by simp)) (fun i hi => ?named) ..)
  interval_cases i <;> simp

/-- One that fills `SYN_DATA0.VALUE`. -/
theorem fillValue_answers {op : SynOp} {v : Word} (d : State) {x : BitVec 48} {r : BitVec 8 × BitVec 8}
    (he : synExec (synOpened s fn op c) (synJob fn op c) = (fillValue (synOpened d fn op c) fn x, r)) (hd : d.threads = s.threads) :
    answers (hostWr fn 0x400000 v (synCommand fn op c) s) d [fnReg fn 0x400000, synDataReg fn 0] (synStatReg fn) r.1 r.2 :=
  answers_intro (synWrite_completes h he hd) (regsOnly_rset (regsOnly_rset (.refl _ _) (by simp)) (by simp))

theorem synConfig_answers (hb : synBusy (getSyn s c.obj.toNat) = false) (hl : lockOwned (getSyn s c.obj.toNat) = false)
    (hv : c.ty = 0 → synArg0 s fn ≠ 0 ∧ synArg0 s fn ≤ 2 ^ 28) (hw : synArg1 s fn ≤ 60000000) :
    answers (exec (.synConfig fn c) s) (setSyn s c.obj.toNat (configured (getSyn s c.obj.toNat) c.ty (synArg0 s fn) (synArg1 s fn)))
      [fnReg fn 0x400000, synDataReg fn 0, synDataReg fn 1, synDataReg fn 2, synDataReg fn 3] (synStatReg fn) 0 0 := by
  have done : synExec (synOpened s fn .config c) (synJob fn .config c) = _ := (if_neg (synJob_held h .config)).trans
    (synConfigure_configures (s := synOpened s fn .config c) (fn := fn) (n := c.obj.toNat) (actor fn c.vi) hb hl
      (by rwa [synArg0_opened]) (by rwa [synArg1_opened]))
  rw [synArg0_opened, synArg1_opened] at done
  exact fillSyn_answers h (setSyn s c.obj.toNat _) done rfl

theorem synRestore_answers (hs : (getSyn s c.obj.toNat).st ≠ 0) (hb : synBusy (getSyn s c.obj.toNat) = false)
    (hl : lockOwned (getSyn s c.obj.toNat) = false) :
    answers (exec (.synRestore fn c) s) (setSyn s c.obj.toNat (restored (getSyn s c.obj.toNat) (synArg0 s fn)))
      [fnReg fn 0x400000] (synStatReg fn) 0 0 := by
  have done : synExec (synOpened s fn .restore c) (synJob fn .restore c) = _ := (if_neg (synJob_held h .restore)).trans
    (synRestoreObj_restores (s := synOpened s fn .restore c) (fn := fn) (n := c.obj.toNat) hs hb hl)
  rw [synArg0_opened] at done
  exact synPlain_answers h (setSyn s c.obj.toNat _) done rfl

theorem synUnset_answers (hb : synBusy (getSyn s c.obj.toNat) = false) :
    answers (exec (.synUnset fn c) s)
      (setSyn s c.obj.toNat { getSyn s c.obj.toNat with st := 0, owner := none, value := 0, bad := false })
      [fnReg fn 0x400000] (synStatReg fn) 0 0 :=
  synPlain_answers h (setSyn s c.obj.toNat _) ((if_neg (synJob_held h .unset)).trans
    (synUnsetObj_unsets (s := synOpened s fn .unset c) (n := c.obj.toNat) hb)) rfl

theorem synRead_answers : answers (exec (.synRead fn c) s) s
      [fnReg fn 0x400000, synDataReg fn 0, synDataReg fn 1, synDataReg fn 2, synDataReg fn 3] (synStatReg fn) 0 0
    ∧ ∃ u, exec (.synRead fn c) s = .next u ∧ ∀ i : Fin 4, rget u (synDataReg fn i) = (synData s (actor fn c.vi) c.obj.toNat)[i] := by
  have done : synExec (synOpened s fn .read c) (synJob fn .read c)
      = (fillSyn (synOpened s fn .read c) fn (actor fn c.vi) c.obj.toNat, (0, 0)) := if_neg (synJob_held h .read)
  refine ⟨fillSyn_answers h s done rfl, _, synWrite_completes h done rfl, fun i => ?filled⟩
  exact (rget_statDone_ne _ _ (synDataReg_ne_stat fn i)).trans (rget_fillSyn ..)

/-- An operation on an object of the type it is for is performed in the state that holds the command (R239). -/
theorem synExec_hostOp {op : SynOp} {ty : BitVec 2}
    (hop : (op = .semv ∨ op = .semt) ∧ ty = 1 ∨ (op = .ecadd ∨ op = .ecread) ∧ ty = 2) (ha : SynActive (getSyn s c.obj.toNat) ty) :
    synExec (synOpened s fn op c) (synJob fn op c) = hostOp (synOpened s fn op c) fn c.obj.toNat op := by
  rcases hop with ⟨rfl | rfl, rfl⟩ | ⟨rfl | rfl, rfl⟩
  all_goals exact (if_neg (synJob_held h _)).trans (hostOpOn_performs _ ha)

theorem hostEcread_answers (ha : SynActive (getSyn s c.obj.toNat) 2) :
    answers (exec (.hostEcread fn c) s) s [fnReg fn 0x400000, synDataReg fn 0] (synStatReg fn) 0 0
    ∧ ∃ u, exec (.hostEcread fn c) s = .next u ∧ bits (rget u (synDataReg fn 0)) 47 0 = (getSyn s c.obj.toNat).value.toNat := by
  have done := synExec_hostOp h (op := .ecread) (by simp) ha
  refine ⟨fillValue_answers h s done rfl, _, synWrite_completes h done rfl, ?value⟩
  exact (congrArg (bits · 47 0) (rget_statDone_ne _ _ (synDataReg_ne_stat fn 0))).trans (bits_fillValue ..)

theorem hostSemt_takes (ha : SynActive (getSyn s c.obj.toNat) 1) (hw : (getSyn s c.obj.toNat).waiters = [])
    (hv : synArg0 s fn ≤ (getSyn s c.obj.toNat).value.toNat) :
    answers (exec (.hostSemt fn c) s) (setSyn s c.obj.toNat { getSyn s c.obj.toNat with
        value := (getSyn s c.obj.toNat).value - BitVec.ofNat 48 (synArg0 s fn) })
      [fnReg fn 0x400000, synDataReg fn 0] (synStatReg fn) 0 0 := by
  have done := (synExec_hostOp h (op := .semt) (by simp) ha).trans (hostOp_semt_takes hw (by rwa [synArg0_opened]))
  rw [synArg0_opened] at done
  exact fillValue_answers h (setSyn s c.obj.toNat _) done rfl

theorem hostSemt_retries (ha : SynActive (getSyn s c.obj.toNat) 1)
    (hv : (getSyn s c.obj.toNat).waiters ≠ [] ∨ (getSyn s c.obj.toNat).value.toNat < synArg0 s fn) :
    answers (exec (.hostSemt fn c) s) s [fnReg fn 0x400000, synDataReg fn 0] (synStatReg fn) 1 0 :=
  fillValue_answers h s ((synExec_hostOp h (op := .semt) (by simp) ha).trans (hostOp_semt_retries (by rwa [synArg0_opened]))) rfl

/-- SEMV adds, then serves waiters from the state `q` that differs in registers alone. -/
theorem hostSemv_serves (ha : SynActive (getSyn s c.obj.toNat) 1) (hv : (getSyn s c.obj.toNat).value.toNat + synArg0 s fn < 2 ^ 48) :
    let o := getSyn s c.obj.toNat
    let x : BitVec 48 := BitVec.ofNat 48 (synArg0 s fn)
    ∃ q, q = { s with regs := q.regs } ∧ bits (rget q (synDataReg fn 0)) 47 0 = (o.value + x).toNat
      ∧ exec (.hostSemv fn c) s = .next (settle (statDone
          (serveQueue (setSyn q c.obj.toNat { o with value := o.value + x }) c.obj.toNat o.waiters.length) (synStatReg fn) (0, 0))) := by
  intro o x
  have done := (synExec_hostOp h (op := .semv) (by simp) ha).trans (hostOp_semv_adds (by rwa [synArg0_opened]))
  rw [synArg0_opened] at done
  exact ⟨fillValue (synOpened s fn .semv c) fn (o.value + x), rfl, bits_fillValue .., synWrite_settles h done⟩

theorem hostEcadd_serves (ha : SynActive (getSyn s c.obj.toNat) 2) :
    let o := getSyn s c.obj.toNat
    let x : BitVec 48 := BitVec.ofNat 48 (synArg0 s fn)
    ∃ q, q = { s with regs := q.regs } ∧ bits (rget q (synDataReg fn 0)) 47 0 = (o.value + x).toNat
      ∧ exec (.hostEcadd fn c) s = .next (settle (statDone
          (serveEc (setSyn q c.obj.toNat { o with value := o.value + x }) c.obj.toNat) (synStatReg fn) (0, 0))) := by
  intro o x
  have done := synExec_hostOp h (op := .ecadd) (by simp) ha
  rw [hostOp, synArg0_opened] at done
  exact ⟨fillValue (synOpened s fn .ecadd c) fn (o.value + x), rfl, bits_fillValue .., synWrite_settles h done⟩

end

/-- Settles O31: the object passes the checks of each command, which the sync block then performs at once. -/
theorem hostSyncCommands : Obligations.HostSyncCommands := by
  unfold Obligations.HostSyncCommands
  intro s fn c h n o v w x k data cmd active
  exact ⟨synConfig_answers h, synRestore_answers h, synUnset_answers h, synRead_answers h, hostEcread_answers h, hostSemt_takes h,
    hostSemt_retries h, hostSemv_serves h, hostEcadd_serves h⟩

end Sys2Proof.Machine

/-! What an event that is posted, or an error that is raised on the way, leaves alone (R278, R284, R570). -/

namespace Sys2Proof.Machine

/-- What posting an event leaves alone: the state without memory and its errors, the writes and mirror messages that go out, the error
manager, and the VIs with their rings. -/
def outsidePost (s : State) : State :=
  { s with
    mem := [], hostMem := [], hostHeld := [], poison := [], ue := [], stkUe := [], heldW := [], inst := [], linkOut := [], err := {}, pair := {} }

theorem ite_outsidePost {c : Prop} [Decidable c] {r a b : State} (h : outsidePost a = outsidePost r) (k : outsidePost b = outsidePost r) :
    outsidePost (if c then a else b) = outsidePost r := by
  split
  · exact h
  · exact k

theorem foldl_outsidePost {α : Type} {f : State → α → State} (h : ∀ s x, outsidePost (f s x) = outsidePost s) (l : List α) (s : State) :
    outsidePost (l.foldl f s) = outsidePost s := foldl_proj outsidePost h l s

theorem raiseErr_outsidePost (s : State) (e : Err) : outsidePost (raiseErr s e) = outsidePost s := by
  have roll (s : State) : outsidePost (rollSecond s) = outsidePost s := ite_outsidePost rfl rfl
  have enqueue (s : State) (e : Err) : outsidePost (enqueueErr s e) = outsidePost s := ite_outsidePost rfl (ite_outsidePost rfl rfl)
  unfold raiseErr
  exact ite_outsidePost ((enqueue ..).trans (roll s)) (ite_outsidePost ((enqueue ..).trans (roll s)) (roll s))

theorem poisonBlock_outsidePost (s : State) (b : Nat) : outsidePost (poisonBlock s b) = outsidePost s := ite_outsidePost rfl rfl

theorem foundUe_outsidePost (s : State) (b : Nat) (c : Option Vi) : outsidePost (foundUe s b c) = outsidePost s := by
  cases c <;> exact (raiseErr_outsidePost ..).trans (poisonBlock_outsidePost ..)

theorem devRead_outsidePost (s : State) (pa n : Nat) (c : Option Vi) : outsidePost (devRead s pa n c).1 = outsidePost s := by
  have touched : outsidePost (touchBlocks s pa n c) = outsidePost s :=
    foldl_outsidePost (fun s b => ite_outsidePost (foundUe_outsidePost s b c) rfl) ..
  cases c with
  | none => exact touched
  | some v => exact (ite_outsidePost rfl rfl : outsidePost (devRead s pa n (some v)).1 = _).trans touched

theorem devWrite_outsidePost (s : State) (vi : Option Vi) (pa : Nat) (d : List Byte) : outsidePost (devWrite s vi pa d) = outsidePost s := by
  have block (s : State) (pa : Nat) (d : List Byte) : outsidePost (writeBlock s vi pa d) = outsidePost s := by
    unfold writeBlock
    extract_lets +onlyGivenNames b
    split
    · rfl
    · extract_lets +onlyGivenNames u st
      have touched : outsidePost u = outsidePost s := ite_outsidePost (foundUe_outsidePost ..) rfl
      exact ite_outsidePost ((raiseErr_outsidePost ..).trans touched) touched
  unfold devWrite
  generalize d.length / 64 + 2 = n
  induction n generalizing s pa d with
  | zero => rfl
  | succ n ih => exact ite_outsidePost rfl ((ih ..).trans (block ..))

theorem mirrorOut_outsidePost (s : State) (mirror : Option Nat) (pa : Nat) (d : List Byte) (mark : Nat) (w : Writer) :
    outsidePost (mirrorOut s mirror pa d mark w) = outsidePost s := by
  have cut (k : Nat) : ∀ (s : State) src dst n m d, outsidePost (mirrorCut s src dst n m d w k) = outsidePost s := by
    induction k with
    | zero => intros; rfl
    | succ k ih => exact fun s src dst n m d => ite_outsidePost rfl ((ih ..).trans rfl)
  cases mirror with
  | none => rfl
  | some g => exact ite_outsidePost (cut ..) (ite_outsidePost rfl rfl)

theorem performW_outsidePost (s : State) (vi : Option Vi) (mirror : Option Nat) (w : Writer) (a : WAct) :
    outsidePost (performW s vi mirror w a).1 = outsidePost s := by
  cases a with
  | bytes pa d => exact (mirrorOut_outsidePost ..).trans (devWrite_outsidePost ..)
  | mark pa n => exact (mirrorOut_outsidePost ..).trans (foldl_outsidePost poisonBlock_outsidePost ..)
  | amo pa op wd x y =>
    unfold performW
    dsimp only
    split
    · exact devRead_outsidePost ..
    · exact (mirrorOut_outsidePost ..).trans ((devWrite_outsidePost ..).trans (devRead_outsidePost ..))

theorem instWrite_outsidePost {s u : State} {vi : Vi} {a : Word} {d : List Byte} (h : instWrite s vi a d = some u) :
    outsidePost u = outsidePost s := by
  have part (s : State) (m : Option Nat) (w : Writer) (a : WAct) : outsidePost (partAct s vi m w a).1 = outsidePost s := by
    unfold partAct
    split
    · rfl
    · exact performW_outsidePost ..
  unfold instWrite at h
  split at h
  · cases h; exact foldl_outsidePost (fun s p => part ..) ..
  · cases h; exact ite_outsidePost rfl rfl
  · cases h
  · cases h

theorem postEvent_outsidePost (s : State) (vi : Vi) (e : Event) : outsidePost (postEvent s vi e) = outsidePost s := by
  have written (s : State) : outsidePost (writeEvent s vi e) = outsidePost s := by
    unfold writeEvent
    dsimp only
    split
    next u h => exact (instWrite_outsidePost h : outsidePost u = outsidePost s)
    next => exact (raiseErr_outsidePost ..)
  unfold postEvent
  extract_lets +onlyGivenNames i
  split
  · rfl
  · extract_lets +onlyGivenNames u
    have counted : outsidePost u = outsidePost s := ite_outsidePost rfl rfl
    split
    · exact ite_outsidePost counted counted
    · exact ite_outsidePost counted ((written u).trans counted)

@[simp] theorem postEvent_syn (s : State) (vi : Vi) (e : Event) : (postEvent s vi e).syn = s.syn :=
  congrArg State.syn (a₁ := outsidePost (postEvent s vi e)) (a₂ := outsidePost s) (postEvent_outsidePost s vi e)

end Sys2Proof.Machine

/-! The statement about sync operations at their homes, near units, watchdogs and withdrawal (R232-R234, R241-R246). -/

namespace Sys2Proof.Machine

/-! ## Objects -/

@[simp] theorem getSyn_setSyn_self (s : State) (n : Nat) (o : SynObj) : getSyn (setSyn s n o) n = o := tget_tset_self ..

theorem getSyn_congr {s u : State} (h : u.syn = s.syn) (n : Nat) : getSyn u n = getSyn s n := congrArg (fun m => tget m n ({} : SynObj)) h

/-! ## Answers (R248): they leave the objects, and every slot keeps a thread -/

@[simp] theorem opDone_syn (s : State) (t : Tid) (op : Nat) (res : BitVec 1024) (fault : Option (Bool × Word)) :
    (opDone s t op res fault).syn = s.syn := by
  unfold opDone
  split <;> rfl

@[simp] theorem answer_syn (s : State) (w : Waiter) (value : BitVec 48) (phase : Bool) (status : BitVec 8) :
    (answer s w value phase status).syn = s.syn := by
  unfold answer
  split
  · rfl
  · dsimp only
    split
    · rfl
    · rw [opDone_syn]
      split
      · rfl
      · rw [countEv_eq]

@[simp] theorem getSyn_answer (s : State) (w : Waiter) (value : BitVec 48) (phase : Bool) (status : BitVec 8) (n : Nat) :
    getSyn (answer s w value phase status) n = getSyn s n := getSyn_congr (answer_syn ..) n

@[simp] theorem answerAll_syn (s : State) (n : Nat) (ws : List Waiter) (value : BitVec 48) (phase : Bool) (status : BitVec 8) :
    (answerAll s n ws value phase status).syn = s.syn := by
  unfold answerAll
  refine (foldl_proj State.syn (fun s q => ?near) ..).trans (foldl_proj State.syn (fun s w => answer_syn ..) ..)
  dsimp only
  split <;> rfl

@[simp] theorem getSyn_answerAll (s : State) (n : Nat) (ws : List Waiter) (value : BitVec 48) (phase : Bool) (status : BitVec 8) (k : Nat) :
    getSyn (answerAll s n ws value phase status) k = getSyn s k := getSyn_congr (answerAll_syn ..) k

/-- The slot holds a thread. -/
def resides (t : Tid) (s : State) : Bool := (getThr s t).isSome

theorem resides_congr {s u : State} (h : u.threads = s.threads) (t : Tid) : resides t u = resides t s :=
  congrArg (fun m => (tget? m (Tid.key t)).isSome) h

theorem resides_putThr {s : State} {u : Tid} {old : Thread} (h : getThr s u = some old) (th : Thread) (t : Tid) :
    resides t (putThr s u th) = resides t s := by
  unfold resides
  by_cases e : t = u
  · rw [e, getThr_putThr_self, h]; rfl
  · rw [getThr_putThr_ne s th e]

theorem resides_answer (t : Tid) (s : State) (w : Waiter) (value : BitVec 48) (phase : Bool) (status : BitVec 8) :
    resides t (answer s w value phase status) = resides t s := by
  have done (s : State) (u : Tid) (op : Nat) (res : BitVec 1024) : resides t (opDone s u op res) = resides t s := by
    unfold opDone
    split
    · rfl
    next h => exact resides_putThr h ..
  unfold answer
  split
  · rfl
  · dsimp only
    split
    · rfl
    · rw [done]
      split
      · rfl
      · exact resides_congr (countEv_threads ..) t

theorem resides_serveQueue (t : Tid) (n k : Nat) (s : State) : resides t (serveQueue s n k) = resides t s := by
  fun_induction serveQueue s n k with
  | case3 | case5 =>
    rename_i ih
    exact ih.trans (resides_answer ..)
  | _ => rfl

theorem resides_withdrawOp (t : Tid) (s : State) (u : Tid) (op : Nat) : resides t (withdrawOp s u op) = resides t s := by
  have home (s : State) (n : Nat) : resides t (withdrawAt s n u op) = resides t s := by
    unfold withdrawAt
    dsimp only
    split
    · split
      · rfl
      · exact resides_serveQueue ..
    · rfl
  exact foldl_proj (resides t) (fun s (p : Nat × SynObj) => home s p.1) ..

/-! ## A thread's operation arrives (R229, R232, R245) -/

/-- The operation as it waits: what it is of, and since when. -/
def arrival (s : State) (t : Tid) (op : Nat) (th : Thread) (operand : Word) (kd : SyncKind) : Waiter where
  kind := kd
  t := t
  op := op
  operand := BitVec.ofNat 48 operand.toNat
  launch := (syncIdent th).1
  index := (syncIdent th).2
  since := s.devTime
  near := none

section
variable {s : State} {t : Tid} {op : Nat} {th : Thread} {o : Op} {word handle operand : Word} {kd : SyncKind}

/-- An operation that may be sent is checked, and answered or performed. -/
theorem opArrive_checks (hth : getThr s t = some th)
    (ho : th.loads.find? (fun o => o.id == op && !o.done && !o.wd && isSyncAct o.act) = some o) (ha : o.act = .sync word handle operand)
    (hk : syncKind word = some kd) (hu : isUbar word = false) (hs : alreadySent s t op = false) (hb : behindSync s t th o = false)
    (hn : needsStores kd = true → th.scnt = 0) :
    opArrive s t op = if synCheck s th.vi handle kd th.handler ≠ 0
      then answer s (arrival s t op th operand kd) (refusedVal s (bits handle 15 0) (synCheck s th.vi handle kd th.handler)) false
        (synCheck s th.vi handle kd th.handler)
      else synPerform s (bits handle 15 0) (arrival s t op th operand kd) th.member.toNat := by
  have goes : ¬ (alreadySent s t op = true ∨ (needsStores kd = true ∧ th.scnt ≠ 0) ∨ behindSync s t th o = true) := by
    rintro (sent | ⟨needs, stores⟩ | behind)
    · exact Bool.false_ne_true (hs.symm.trans sent)
    · exact stores (hn needs)
    · exact Bool.false_ne_true (hb.symm.trans behind)
  unfold opArrive
  simp only [hth, ho, ha, hk, hu, Bool.false_eq_true]
  exact if_neg goes

end

/-! ## What an operation makes of its object (R232-R234) -/

section
variable (s : State) (n mem : Nat) (w : Waiter)

theorem serveEc_filters : getSyn (serveEc s n) n
    = { getSyn s n with waiters := (getSyn s n).waiters.filter (fun x => !atOrAfter (getSyn s n).value x.operand) } := by
  simp [serveEc]

/-- The barrier with the arrival counted. -/
def arrived : SynObj :=
  { getSyn s n with value := (getSyn s n).value + 1, waiters := (getSyn s n).waiters ++ [{ w with since := s.devTime }] }

theorem arrive_waits (h : ((getSyn s n).value + 1).toNat < (getSyn s n).expect.toNat) :
    getSyn (arrive s n [w] 0 0 mem) n = arrived s n w := by
  have short : arrive s n [w] 0 0 mem = setSyn s n (arrived s n w) := if_neg (not_le.mpr h)
  rw [short, getSyn_setSyn_self]

theorem arrive_releases (h : (getSyn s n).expect.toNat ≤ ((getSyn s n).value + 1).toNat) :
    arrive s n [w] 0 0 mem = releaseBar (setSyn s n (arrived s n w)) n mem := if_pos h

/-- A released barrier counts from zero in the next phase, and nobody waits. -/
theorem releaseBar_next : (getSyn (releaseBar s n mem) n).value = 0 ∧ (getSyn (releaseBar s n mem) n).phase = !(getSyn s n).phase
    ∧ (getSyn (releaseBar s n mem) n).waiters = [] ∧ (getSyn (releaseBar s n mem) n).st = (getSyn s n).st
    ∧ (getSyn (releaseBar s n mem) n).gen = (getSyn s n).gen := by
  unfold releaseBar
  simp only [getSyn_answerAll, getSyn_setSyn_self]
  split <;> split <;> simp

variable {s n w}

theorem synPerform_takes (hk : w.kind = .semp ∨ w.kind = .semt) (hw : (getSyn s n).waiters = [])
    (hv : w.operand.toNat ≤ (getSyn s n).value.toNat) :
    getSyn (synPerform s n w mem) n = { getSyn s n with value := (getSyn s n).value - w.operand } := by
  rcases hk with hk | hk <;> simp [synPerform, hk, hw, hv]

theorem synPerform_semp_queues (hk : w.kind = .semp) (hv : (getSyn s n).waiters ≠ [] ∨ (getSyn s n).value.toNat < w.operand.toNat) :
    getSyn (synPerform s n w mem) n = { getSyn s n with waiters := (getSyn s n).waiters ++ [w] } := by
  have short : ((getSyn s n).waiters.isEmpty && decide (w.operand.toNat ≤ (getSyn s n).value.toNat)) = false := by
    rcases hv with hv | hv <;> simp [hv]
  simp [synPerform, hk, short]

theorem synPerform_semv_adds (hk : w.kind = .semv) (hw : (getSyn s n).waiters = [])
    (hv : (getSyn s n).value.toNat + w.operand.toNat < 2 ^ 48) :
    getSyn (synPerform s n w mem) n = { getSyn s n with value := (getSyn s n).value + w.operand } := by
  have fits : ¬ (getSyn s n).value.toNat + w.operand.toNat ≥ 2 ^ 48 := not_le.mpr hv
  simp only [synPerform, hk, fits, if_false, hw, List.length_nil, serveQueue, getSyn_answer, getSyn_setSyn_self]

theorem synPerform_ecadd_serves (hk : w.kind = .ecadd) :
    getSyn (synPerform s n w mem) n = { getSyn s n with
      value := (getSyn s n).value + w.operand
      waiters := (getSyn s n).waiters.filter (fun x => !atOrAfter ((getSyn s n).value + w.operand) x.operand) } := by
  simp [synPerform, hk, serveEc_filters]

theorem synPerform_ecwait_queues (hk : w.kind = .ecwait) (hv : atOrAfter (getSyn s n).value w.operand = false) :
    getSyn (synPerform s n w mem) n = { getSyn s n with waiters := (getSyn s n).waiters ++ [w] } := by
  simp [synPerform, hk, hv]

theorem synPerform_acquires (hk : w.kind = .lkacq ∨ w.kind = .lktry) (ho : (getSyn s n).owner = none) (hw : (getSyn s n).waiters = []) :
    getSyn (synPerform s n w mem) n = { getSyn s n with owner := some (w.launch, w.index) } := by
  rcases hk with hk | hk <;> simp [synPerform, hk, ho, hw]

theorem synPerform_lkrel_frees (hk : w.kind = .lkrel) (hs : (getSyn s n).st = 1) (ho : (getSyn s n).owner = some (w.launch, w.index))
    (hw : (getSyn s n).waiters = []) : getSyn (synPerform s n w mem) n = { getSyn s n with owner := none } := by
  simp [synPerform, hk, hs, ho, hw, serveQueue]

theorem synPerform_bar (hk : w.kind = .bar) : synPerform s n w mem = arrive s n [w] 0 0 mem := by
  simp only [synPerform, hk]

end

/-! ## Near units, watchdogs and withdrawal (R241-R246) -/

theorem wdogFire_faults (s : State) (n : Nat) :
    getSyn (wdogFire s n) n = { getSyn s n with st := 2, waiters := [], remote := [] } := by
  unfold wdogFire
  dsimp only
  split
  · rw [getSyn_congr (postEvent_syn ..), getSyn_answerAll, getSyn_setSyn_self]
  · rw [getSyn_answerAll, getSyn_setSyn_self]

theorem execSyncWithdraw_withdraws {s : State} {t : Tid} {op : Nat} {th : Thread} {o : Op} (hth : getThr s t = some th)
    (hst : th.st = .saving) (ho : th.loads.find? (fun o => o.id == op && !o.done && !o.wd && isSyncAct o.act) = some o)
    (hn : nearAnswer s t op = none) :
    execSyncWithdraw t op s = .next (settle (recordOp (withdrawOp s t op) t { o with wd := true })) := by
  have stays : (getThr (withdrawOp s t op) t).isSome = true := by
    have kept : resides t (withdrawOp s t op) = resides t s := resides_withdrawOp ..
    rwa [resides, resides, hth] at kept
  obtain ⟨after, ha⟩ := Option.isSome_iff_exists.mp stays
  simp [execSyncWithdraw, hth, ho, hst, hn, recordOp, ha]

/-- Settles O32: what reaches a home is checked and performed there; an operation changes its object as its kind says, and answers change
no object. -/
theorem syncAtTheHome : Obligations.SyncAtTheHome := by
  unfold Obligations.SyncAtTheHome
  refine ⟨fun s t op th o word handle operand kd hth ho ha hk hu hs hb hn => ?arrives, fun s n mem w => ?performed, fun s q obj => ?near,
    fun s t op th o hth hst ho hn => execSyncWithdraw_withdraws hth hst ho hn⟩
  case arrives =>
    have checked := opArrive_checks hth ho ha hk hu hs hb hn
    exact ⟨fun bad => congrArg (fun u => Host.Outcome.next (settle u)) (checked.trans (if_pos bad)),
      fun ok => congrArg (fun u => Host.Outcome.next (settle u)) (checked.trans (if_neg (not_not.mpr ok)))⟩
  case performed =>
    refine ⟨synPerform_takes mem, synPerform_semp_queues mem, synPerform_semv_adds mem, synPerform_ecadd_serves mem,
      synPerform_ecwait_queues mem, synPerform_acquires mem, synPerform_lkrel_frees mem, fun hk h => ?waits, fun hk h => ?releases⟩
    case waits => exact (congrArg (getSyn · n) (synPerform_bar mem hk)).trans (arrive_waits s n mem w h)
    case releases =>
      have next := releaseBar_next (setSyn s n (arrived s n w)) n mem
      rw [← arrive_releases s n mem w h, ← synPerform_bar mem hk, getSyn_setSyn_self] at next
      exact next
  case near =>
    refine ⟨fun l ph st r h => ?fansOut, fun late => if_pos ?late, fun active due => ⟨_, if_pos ⟨active, due⟩, wdogFire_faults ..⟩⟩
    case fansOut => simp only [exec_nearUnitRelease, execNearUnitRelease, h]
    case late => rwa [Bool.true_and]

end Sys2Proof.Machine

/-! The statement about the registers of a VI block: shares, limits, the Poll Page, handlers and the event ring (R262, R269-R284). -/

namespace Sys2Proof.Machine

/-- A write that reaches its register ends in what the register's handler makes, settled. -/
theorem hostVi_settles_to {s u : State} {fn : Fn} {vi : Vi} {off : Nat} {v : Word} {body : State → State} (h : ViReaches s fn vi off)
    (hb : body s = u) : hostVi fn vi off v body s = .next (settle u) := by
  rw [hostVi_settles h, hb]

@[simp] theorem getInst_rset (s : State) (k : Nat) (v : Word) (vi : Vi) : getInst (rset s k v) vi = getInst s vi := rfl

/-! ## Shares and limits (R269, R272, R274) -/

/-- Counts within their ranges are all that a write of `VI_LIMITS` stores. -/
theorem viLimitsVal_in_range (old : Word) {v : Word} (hg : bits v 56 32 ≤ 16777216) (hc : bits v 15 0 ≤ 65279) :
    viLimitsVal old v = at_ (bits v 56 32) 32 ||| at_ (bits v 15 0) 0 := by
  unfold viLimitsVal
  rw [if_neg (not_lt.mpr hg), if_neg (not_lt.mpr hc)]

theorem viShareWr_eq (fn : Fn) (vi : Vi) (v : Word) (s : State) : viShareWr fn vi v s =
    if isPf fn then
      let w := rset s (viReg vi 0x18) (v &&& 0x3FF)
      postEvent (if v &&& 0x3FF = 0 then freezeRounds w vi else w) vi (resourceEvent 0 (v &&& 0x3FF) 0)
    else viRefused s fn vi 0x18 := by
  unfold viShareWr
  cases isPf fn <;> rfl

theorem viLimitsWr_in_range (fn : Fn) (vi : Vi) {v : Word} (s : State) (hg : bits v 56 32 ≤ 16777216) (hc : bits v 15 0 ≤ 65279) :
    viLimitsWr fn vi v s =
      let w := at_ (bits v 56 32) 32 ||| at_ (bits v 15 0) 0
      if isPf fn then postEvent (rset s (viReg vi 0x38) w) vi (resourceEvent 0 w 0) else viRefused s fn vi 0x38 := by
  unfold viLimitsWr
  rw [viLimitsVal_in_range _ hg hc]
  cases isPf fn <;> rfl

/-! ## The Poll Page register (R262) -/

theorem viPollWr_eq (fn : Fn) (vi : Vi) (v : Word) (s : State) : viPollWr fn vi v s =
    let w := rset s (viReg vi 0x10) (v &&& 0xFFFFFFFFFFFFF001)
    if (getInst s vi).st ≠ 1 then accessErr s fn (viOff fn vi 0x10)
    else if bit v 0 then modInst w vi (fun i => { i with st := 2 }) else w := by
  unfold viPollWr
  by_cases idle : (getInst s vi).st = 1 <;> simp only [idle, if_true, if_false, ne_eq, not_true_eq_false, not_false_eq_true]

/-! ## Handlers (R275, R277) -/

/-- `VI_HDL_CFG` holds a configuration, with EN as given. -/
def hdlWritten (s : State) (vi : Vi) (c : HdlCfg) (en : Bool) : State :=
  rset s (viReg vi 0x80) (hdlWord en c &&& 0x0000FFFF01FF0701)

@[simp] theorem bit_hdlWord_en (en : Bool) (c : HdlCfg) : bit (hdlWord en c) 0 = en := by
  have low : bit (hdlWord en c) 0 = (hdlWord en c).getLsbD 0 := rfl
  rw [low]
  simp only [hdlWord, at_, BitVec.getLsbD_or, BitVec.getLsbD_ofNat, Nat.testBit_shiftLeft]
  cases en <;> simp [b2n]

section
variable {s : State} {vi : Vi} (c : HdlCfg) (runs : (getInst s vi).st ≠ 3 ∧ (getInst s vi).st ≠ 4)
include runs

/-- Outside a reset a write of `VI_HDL_CFG` acts at once. -/
theorem hdlWrite_acts (en : Bool) : hdlWrite vi (hdlWord en c) s =
    let w := hdlWritten s vi c en
    if en then (if (getInst s vi).hdlSt = 0 ∨ (getInst s vi).hdlSt = 2 then startHandlers w vi else w)
    else if hasHandler w vi then endAllTrapped (modInst (endHandlers w vi) vi (fun i => { i with hdlSt := 0 })) vi
    else modInst w vi (fun i => { i with hdlSt := 0, hdlCause := 0, hdlThread := 0 }) := by
  have active : ¬ ((getInst s vi).st = 3 ∨ (getInst s vi).st = 4) := not_or.mpr runs
  refine (if_neg active).trans ?_
  rw [bit_hdlWord_en]
  rfl

theorem hdlWrite_starts (stopped : (getInst s vi).hdlSt = 0 ∨ (getInst s vi).hdlSt = 2) :
    hdlWrite vi (hdlWord true c) s = startHandlers (hdlWritten s vi c true) vi := by
  rw [hdlWrite_acts c runs]
  simp only [stopped, if_true]

theorem hdlWrite_running_keeps (running : (getInst s vi).hdlSt = 1 ∨ (getInst s vi).hdlSt = 3) :
    hdlWrite vi (hdlWord true c) s = hdlWritten s vi c true := by
  have started : ¬ ((getInst s vi).hdlSt = 0 ∨ (getInst s vi).hdlSt = 2) := by rcases running with h | h <;> simp [h]
  rw [hdlWrite_acts c runs]
  simp only [started, if_true, if_false]

theorem hdlWrite_running_ends (running : (getInst s vi).hdlSt = 1 ∨ (getInst s vi).hdlSt = 3) :
    hdlWrite vi (hdlWord false c) s
      = endAllTrapped (modInst (endHandlers (hdlWritten s vi c false) vi) vi (fun i => { i with hdlSt := 0 })) vi := by
  have handles : hasHandler (hdlWritten s vi c false) vi = true := by
    rcases running with h | h <;> simp [hasHandler, hdlWritten, h]
  rw [hdlWrite_acts c runs]
  simp only [handles, Bool.false_eq_true, if_true, if_false]

theorem hdlWrite_stopped_clears (stopped : (getInst s vi).hdlSt = 0 ∨ (getInst s vi).hdlSt = 2) :
    hdlWrite vi (hdlWord false c) s
      = modInst (hdlWritten s vi c false) vi (fun i => { i with hdlSt := 0, hdlCause := 0, hdlThread := 0 }) := by
  have noHandler : hasHandler (hdlWritten s vi c false) vi = false := by
    rcases stopped with h | h <;> simp [hasHandler, hdlWritten, h]
  rw [hdlWrite_acts c runs]
  simp only [noHandler, Bool.false_eq_true, if_false]

end

theorem startHandlers_fails {s : State} {vi : Vi} (h : (hdlCheck s vi).1 ≠ 0) :
    startHandlers s vi = modInst s vi (fun i => { i with hdlStatus := (hdlCheck s vi).1, hdlDetail := (hdlCheck s vi).2 }) := if_pos h

theorem startHandlers_places {s : State} {vi : Vi} (h : (hdlCheck s vi).1 = 0) : startHandlers s vi =
    placeHandlers (modInst s vi (fun i => { i with hdlSt := 1, hdlStatus := 0, hdlDetail := 0, hdlCause := 0, hdlThread := 0 })) vi
      (facetOfUd (rget s (viReg vi 0x98))) (rget s (viReg vi 0x80)) 0 (hdlCount (rget s (viReg vi 0x80))) :=
  if_neg (not_not.mpr h)

/-- The handler's unit is read from a register of its own. -/
theorem rget_hdlWritten_unit (s : State) (vi : Vi) (c : HdlCfg) (en : Bool) :
    rget (hdlWritten s vi c en) (viReg vi 0x98) = rget s (viReg vi 0x98) :=
  rget_rset_ne s _ (by simp [viReg])

/-! ## The event ring (R279, R282, R283) -/

section
variable (fn : Fn) {vi : Vi} {v : Word} {s : State}

theorem evRingWr_quiet (quiet : ((getInst s vi).hdlSt = 0 ∨ (getInst s vi).hdlSt = 2) ∧ (getInst s vi).produced = (getInst s vi).retired)
    (size : bits v 3 0 ≤ 8) :
    evRingWr fn vi v s = rset s (viReg vi 0xC0) ((v &&& 0xFFFFFFFFFFFFF000) ||| at_ (bits v 3 0) 0) := by
  have kept : ¬ bits v 3 0 > 8 := not_lt.mpr size
  refine (if_pos quiet).trans ?_
  simp only [kept, if_false]

theorem evRingWr_busy (busy : ¬ (((getInst s vi).hdlSt = 0 ∨ (getInst s vi).hdlSt = 2) ∧ (getInst s vi).produced = (getInst s vi).retired)) :
    evRingWr fn vi v s = accessErr s fn (viOff fn vi 0xC0) := if_neg busy

/-- Without a handler the host acknowledges events, and no more than were produced. -/
theorem evAckWr_host (noHandler : hasHandler s vi = false) : evAckWr fn vi v s =
    let i := getInst s vi
    let a : BitVec 48 := BitVec.ofNat 48 v.toNat
    if (a - i.retired).toNat ≤ (i.produced - i.retired).toNat then
      drainEvents (modInst s vi (fun i => { i with
        retired := a, nextTake := (if atOrAfter i.nextTake a then i.nextTake else a),
        retMarks := i.retMarks.filter (fun m => atOrAfter m a) })) vi
    else accessErr s fn (viOff fn vi 0xD0) := by
  unfold evAckWr
  simp only [noHandler, Bool.false_eq_true, if_false]

end

/-- Settles O34: each write reaches its register's handler, which acts as the rules of the register say. -/
theorem instanceRegisters : Obligations.InstanceRegisters := by
  unfold Obligations.InstanceRegisters
  intro s fn vi v i
  refine ⟨fun h => hostVi_settles_to h (viShareWr_eq ..), fun h hg hc => hostVi_settles_to h (viLimitsWr_in_range _ _ _ hg hc),
    fun h => hostVi_settles_to h (viPollWr_eq ..), fun c h resetting releasing => ?handlers, fun h => ?ring,
    fun h noHandler => ?ack, fun h => hostVi_settles h⟩
  case handlers =>
    have runs : (getInst s vi).st ≠ 3 ∧ (getInst s vi).st ≠ 4 := ⟨resetting, releasing⟩
    refine ⟨fun stopped bad => ?fails, fun stopped ok => ?places, fun running => ⟨?kept, ?ended⟩, fun stopped => ?cleared⟩
    case fails => exact hostVi_ok h ((hdlWrite_starts c runs stopped).trans (startHandlers_fails bad)) rfl
    case places =>
      have placed := startHandlers_places (s := hdlWritten s vi c true) ok
      rw [rget_hdlWritten_unit] at placed
      exact hostVi_settles_to h ((hdlWrite_starts c runs stopped).trans placed)
    case kept => exact hostVi_ok h (hdlWrite_running_keeps c runs running) rfl
    case ended => exact hostVi_settles_to h (hdlWrite_running_ends c runs running)
    case cleared => exact hostVi_ok h (hdlWrite_stopped_clears c runs stopped) rfl
  case ring =>
    exact ⟨fun quiet size => hostVi_ok h (evRingWr_quiet fn quiet size) rfl, fun busy => hostVi_settles_to h (evRingWr_busy fn busy)⟩
  case ack =>
    exact ⟨fun within => hostVi_settles_to h ((evAckWr_host fn noHandler).trans (if_pos within)),
      fun beyond => hostVi_settles_to h ((evAckWr_host fn noHandler).trans (if_neg (not_le.mpr beyond)))⟩

end Sys2Proof.Machine

/-! The statement about resets of VIs, the release of a VI, and the functions' VF Enable, Bus Master Enable, power state and
Function Level Reset (R257, R259, R285-R287, R296, R297, R326, R327). -/

namespace Sys2Proof.Machine

/-! ## Resets (R285-R287) -/

section
variable {s : State} {vi : Vi} (src : BitVec 4)

theorem resetRequest_begins (works : (getInst s vi).st = 1 ∨ (getInst s vi).st = 2) : resetRequest s vi src = resetBegin s vi 3 src := by
  rcases works with h | h <;> simp [resetRequest, h]

theorem resetRequest_again (resets : (getInst s vi).st = 3 ∨ (getInst s vi).st = 4) :
    resetRequest s vi src = modInst s vi (fun i => { i with rstOvr := true }) := by
  rcases resets with h | h <;> simp [resetRequest, h]

end

/-- INSTANCE_RESET writes GO: a reset is requested, by the VI's own function or by its PF. -/
theorem rstCmdWr_go (fn : Fn) (vi : Vi) (s : State) : rstCmdWr fn vi 1 s = resetRequest s vi (if fn = vi then 1 else 2) :=
  if_pos (by decide)

section
variable {s : State} {vi : Vi} (resets : (getInst s vi).st = 3 ∨ (getInst s vi).st = 4) (running : (getInst s vi).rstPhase ≠ 0)
include resets running

theorem resetDrain_ends (drained : undrained s vi = 0) : exec (.resetDrainComplete vi) s = .next (settle (resetEnd s vi)) :=
  if_pos ⟨resets, running, drained⟩

theorem resetForce_ends (old : (s.devTime - (getInst s vi).rstStart).toNat ≥ 1000000) :
    exec (.resetForceTimeout vi) s = .next (settle (resetEnd (forceDiscard s vi) vi)) :=
  if_pos ⟨resets, running, old⟩

end

theorem resetForce_waits {s : State} {vi : Vi} (young : (s.devTime - (getInst s vi).rstStart).toNat < 1000000) :
    exec (.resetForceTimeout vi) s = .next s :=
  if_neg fun ⟨_, _, due⟩ => absurd due (not_le.mpr young)

/-! ## Release (R259) -/

/-- A VI does not hold a Cluster it has given up. -/
theorem holdOf_dropHold (h : CluHold) (vi : Vi) : holdOf (dropHold h vi) vi = none := by
  cases h with
  | none => rfl
  | dedicated v =>
    by_cases mine : v = vi
    · simp [dropHold, mine, holdOf]
    · simp [dropHold, mine, holdOf]
  | shared l =>
    have others : (l.filter (fun x => x.vi != vi)).find? (fun x => x.vi == vi) = none := by simp [List.find?_eq_none]
    unfold dropHold
    dsimp only
    split
    · rfl
    · exact congrArg (Option.map _) others

theorem getInst_releaseAll (s : State) (vi : Vi) : getInst (releaseAll s vi) vi = { gen := (getInst s vi).gen } := tget_tset_self ..

theorem releaseAll_groups {s : State} {vi : Vi} {p : Nat × Vi} (h : p ∈ (releaseAll s vi).grp) : p.2 ≠ vi := by
  have kept := (List.mem_filter.mp h).2
  simpa using kept

theorem releaseAll_granules {s : State} {vi : Vi} {p : Nat × Word} (h : p ∈ (releaseAll s vi).gt) : p.1 / 4096 ≠ vi.toNat :=
  of_decide_eq_true (List.mem_filter.mp h).2

theorem releaseAll_clusters {s : State} {vi : Vi} {p : Nat × CluHold} (h : p ∈ (releaseAll s vi).clu) : (holdOf p.2 vi).isNone = true := by
  obtain ⟨before, -, rfl⟩ := List.mem_map.mp (List.mem_filter.mp h).1
  rw [holdOf_dropHold]
  rfl

theorem releaseAll_composites {s : State} {vi : Vi} {p : Nat × Composite} (h : p ∈ (releaseAll s vi).comps) (hn : p.1 > 256)
    (ho : p.2.owner = vi) : p.2.st = 0 := by
  obtain ⟨before, -, rfl⟩ := List.mem_map.mp h
  by_cases own : before.1 > 256 ∧ before.2.owner = vi
  · rw [if_pos own]
  · rw [if_neg own] at hn ho
    exact absurd ⟨hn, ho⟩ own

/-- The state once a released VI is OFF: a VF's configuration space goes with its function. -/
def released (s : State) (vi : Vi) : State :=
  { releaseAll s vi with cfg := if isPf vi then (releaseAll s vi).cfg else tdel (releaseAll s vi).cfg vi.toNat }

theorem releaseComplete_releases {s : State} {vi : Vi} (releasing : (getInst s vi).st = 4) (drained : (getInst s vi).rstPhase = 0) :
    exec (.releaseComplete vi) s = .next (settle (released s vi)) := if_pos ⟨releasing, drained⟩

/-! ## A write of configuration space -/

theorem hostCfg_settles_to {s u : State} {fn : Fn} {body : State → State} (h : CfgReaches s fn) (hb : body s = u) :
    hostCfg fn body s = .next (settle u) := by
  simp only [hostCfg, h.exists_, h.up, Bool.and_self, if_true, hb]

/-- Where no thread is touched, nothing settles. -/
theorem hostCfg_ok {s u : State} {fn : Fn} {body : State → State} (h : CfgReaches s fn) (hb : body s = u) (ht : u.threads = s.threads) :
    hostCfg fn body s = .next u := by
  rw [hostCfg_settles_to h hb, settle_same h.settled ht]

@[simp] theorem getCfg_modCfg_self (s : State) (fn : Fn) (f : Cfg → Cfg) : getCfg (modCfg s fn f) fn = f (getCfg s fn) := tget_tset_self ..

/-! ## SR-IOV (R296) -/

/-- The first `n` VFs of a PF, those that are OFF, come to IDLE. -/
def idleVfs (s : State) (fn : Fn) (n : Nat) : State :=
  ((vfsOf fn).take n).foldl (fun s vi => if (getInst s vi).st = 0 then modInst s vi (fun i => { i with st := 1 }) else s) s

@[simp] theorem idleVfs_threads (s : State) (fn : Fn) (n : Nat) : (idleVfs s fn n).threads = s.threads := by
  refine foldl_proj State.threads (fun u vi => ?_) ..
  split <;> rfl

theorem numVfsWr_stores {s : State} {fn : Fn} {n : BitVec 16} (off : (getCfg s fn).vfEn = false) (hn : n.toNat ≤ 127) :
    numVfsWr fn n s = modCfg s fn (fun c => { c with numVfs := n }) := by
  simp [numVfsWr, off, hn]

theorem vfEnWr_enables {s : State} {fn : Fn} (off : (getCfg s fn).vfEn = false) :
    vfEnWr fn true s = idleVfs (modCfg s fn (fun c => { c with vfEn := true })) fn (getCfg s fn).numVfs.toNat := by
  simp [vfEnWr, off, idleVfs]

theorem vfEnWr_disables {s : State} {fn : Fn} (on : (getCfg s fn).vfEn = true) : vfEnWr fn false s =
    ((vfsOf fn).take (getCfg s fn).numVfs.toNat).foldl startRelease (modCfg s fn (fun c => { c with vfEn := false })) := by
  simp [vfEnWr, on]

/-- VF Enable brings the first `n` VFs to IDLE, since NumVFs was written before it. -/
theorem vfEnable_enables {s : State} {fn : Fn} {n : BitVec 16} (h : CfgReaches s fn) (pf : isPf fn = true)
    (off : (getCfg s fn).vfEn = false) (hn : n.toNat ≤ 127) : exec (.vfEnable fn n) s = .next
      (idleVfs (modCfg (modCfg s fn (fun c => { c with numVfs := n })) fn (fun c => { c with vfEn := true })) fn n.toNat) := by
  have numbered : (getCfg (modCfg s fn (fun c => { c with numVfs := n })) fn).vfEn = false := by simp [off]
  refine (if_pos pf).trans (hostCfg_ok h ?_ (idleVfs_threads ..))
  rw [numVfsWr_stores off hn, vfEnWr_enables numbered, getCfg_modCfg_self]

/-! ## Bus Master Enable, the power state and Function Level Reset (R297, R326, R327) -/

theorem bmeWr_clears (fn : Fn) (s : State) : bmeWr fn false s =
    if (getCfg s fn).bme = false then s else resumeFn (modCfg (pauseFn s fn) fn (fun c => { c with bme := false })) fn :=
  if_congr eq_comm rfl rfl

theorem bmeWr_sets (fn : Fn) (s : State) : bmeWr fn true s =
    if (getCfg s fn).bme = true then s else resumeFn (modCfg s fn (fun c => { c with bme := true })) fn :=
  if_congr eq_comm rfl rfl

theorem d3Wr_eq (fn : Fn) (d3 : Bool) (s : State) : d3Wr fn d3 s =
    if (getCfg s fn).d3 = d3 then s
    else resumeFn (modCfg (if d3 then pauseFn s fn else s) fn (fun c => { c with d3 := d3 })) fn :=
  if_congr eq_comm rfl rfl

/-- The tags of a function under Function Level Reset are gone, and Bus Master Enable is clear. -/
def flrBegun (s : State) (fn : Fn) : State :=
  modCfg { s with lateTags := s.lateTags.filter (fun x => x.1 != fn) } fn (fun c => { c with flr := true, bme := false })

theorem flrStart_vf {fn : Fn} (vf : isPf fn = false) (s : State) : flrStart s fn = resetRequest (flrBegun s fn) fn 3 := by
  simp [flrStart, vf, flrBegun]

theorem flrStart_pf {fn : Fn} (pf : isPf fn = true) (s : State) :
    flrStart s fn = resetRequest (flrSecurity (vfEnWr fn false (flrBegun s fn)) (portOf fn)) fn 3 := by
  simp [flrStart, pf, flrBegun]

/-- Settles O35: a request that reaches its register starts, ends or repeats a reset; what a release leaves is read off its state. -/
theorem resetsAndFunctions : Obligations.ResetsAndFunctions := by
  unfold Obligations.ResetsAndFunctions
  intro s fn vi i begun
  refine ⟨fun h => ⟨fun works => ?begins, fun resets => ?again⟩, fun resets running => ?ends,
    fun releasing drained _ => ?off, fun h => ?functions⟩
  case begins => exact hostVi_settles_to h ((rstCmdWr_go ..).trans (resetRequest_begins _ works))
  case again => exact hostVi_ok h ((rstCmdWr_go ..).trans (resetRequest_again _ resets)) rfl
  case ends => exact ⟨resetDrain_ends resets running, resetForce_ends resets running, resetForce_waits⟩
  case off =>
    have off : getInst (released s vi) vi = { gen := i.gen } := getInst_releaseAll s vi
    exact ⟨released s vi, releaseComplete_releases releasing drained, by rw [off], by rw [off], fun p => releaseAll_groups,
      fun p => releaseAll_granules, fun p => releaseAll_clusters, fun p => releaseAll_composites⟩
  case functions =>
    refine ⟨fun pf off n hn => vfEnable_enables h pf off hn, fun pf on => (if_pos pf).trans (hostCfg_settles_to h (vfEnWr_disables on)),
      hostCfg_settles_to h (bmeWr_clears ..), hostCfg_settles_to h (bmeWr_sets ..), fun d3 => hostCfg_settles_to h (d3Wr_eq ..),
      fun vf => ?vf, fun pf => ?pf⟩
    case vf => exact hostCfg_settles_to (body := (flrStart · fn)) h (flrStart_vf vf s)
    case pf => exact hostCfg_settles_to (body := (flrStart · fn)) h (flrStart_pf pf s)

end Sys2Proof.Machine

/-! The statement about transfer and storage descriptors: how they are taken, gated and started (R272, R307-R311, R335-R337, R342, R410, R411). -/

namespace Sys2Proof.Machine

/-! ## A descriptor's OP -/

theorem ofBytes_low_byte (l : List Byte) : ofBytes l % 256 = ofBytes (l.take 1) := by
  cases l with
  | nil => rfl
  | cons b r =>
    have low := b.isLt
    simp only [ofBytes, List.take_succ_cons, List.take_zero]
    omega

/-- The OP of a descriptor is its first byte. -/
theorem bits_dWord_op (d : DOp) : bits (dWord d 0) 7 0 = ofBytes (d.desc.take 1) := by
  have first : (d.desc.take 8).take 1 = d.desc.take 1 := by rw [List.take_take]; rfl
  have low := ofBytes_low_byte (d.desc.take 8)
  rw [first] at low
  rw [← low]
  simp only [bits, dWord, Nat.mul_zero, List.drop_zero, BitVec.toNat_ofNat, Nat.shiftRight_zero]
  omega

/-! ## Taking (R272, R307) -/

theorem takeOp_ready {s s1 : State} {vi : Vi} {q kind : Nat} {b : List Byte} {r : List (List Byte)} {mine : Nat → Bool}
    (h : HeadReady s s1 vi q kind b r) (hm : mine (ofBytes (b.take 1)) = true) : takeOp s vi q kind mine =
      tryStart (newDesc (headTaken s1 vi q r) vi q kind (getSq s vi q).seq b).1 (newDesc (headTaken s1 vi q r) vi q kind (getSq s vi q).seq b).2 := by
  unfold takeOp
  simp only [h.head, hm, Bool.not_true, Bool.false_eq_true, if_false, takeHead_ready h]

/-! ## The gate (R410, R411) -/

section
variable {u : State} {d : DOp} (waits : d.st = .waiting)

theorem tryStart_gated (shut : gateOk u d = false) : tryStart u d = u :=
  if_neg fun start => absurd start.2 (ne_true_of_eq_false shut)

include waits

theorem tryStart_copy (kind : d.kind = 2) (met : gateOk u d = true) : tryStart u d = startCopy u d := by
  simp only [tryStart, waits, met, kind, and_self, if_true]

theorem tryStart_storage (kind : d.kind = 3) (met : gateOk u d = true) : tryStart u d = startStorage u d := by
  simp only [tryStart, waits, met, kind, and_self, if_true, Nat.reduceEqDiff, if_false]

end

theorem gateRelease_tries {s : State} {vi : Vi} {q : BitVec 4} {seq : BitVec 48} {d : DOp} (found : findDesc s vi q.toNat seq = some d)
    (waits : d.st = .waiting) (works : working s = true) :
    exec (.descriptorGateRelease vi q seq) s = .next (settle (tryStartAny s d)) := by
  simp only [exec_descriptorGateRelease, execDescriptorGateRelease, found, waits, works, and_self, if_true]

/-! ## COPY (R336, R337) -/

section
variable {u : State} {d : DOp}

/-- Bytes that move to a place apart from their source arrive as they were read. -/
theorem copyBytes_apart (u : State) {src dst : Word} {n : Nat} (data : List Byte)
    (apart : dst.toNat + n ≤ src.toNat ∨ src.toNat + n ≤ dst.toNat) : copyBytes u src dst n data = data := if_pos apart

/-- A copy of clean bytes within the VI's memory writes them and completes with OK and their count. -/
theorem copyMove_own {t : State} {data : List Byte} (src : bits (dWord d 0) 11 8 = 0) (dst : bits (dWord d 0) 15 12 = 0)
    (writable : spaceOk u d (bits (dWord d 0) 15 12) (dWord d 2) (bits (dWord d 3) 39 0) .wr = true)
    (apart : (dWord d 2).toNat + bits (dWord d 3) 39 0 ≤ (dWord d 1).toNat ∨ (dWord d 1).toNat + bits (dWord d 3) 39 0 ≤ (dWord d 2).toNat)
    (read : rangeRead u d.vi (dWord d 1) (bits (dWord d 3) 39 0) [] = some (t, data, false)) :
    copyMove u d [] = finish (nextFree (copyOut t d data [(0, bits (dWord d 3) 39 0, false)])) d 0 0 (bits (dWord d 3) 39 0) (dUser d) := by
  rw [dst] at writable
  unfold copyMove
  simp only [writable, src, dst, read, copyBytes_apart _ _ apart, Bool.not_true, Bool.false_eq_true, ne_eq, not_true_eq_false, if_true, if_false]

theorem startCopy_within (form : copyOk d = true)
    (readable : spaceOk u d (bits (dWord d 0) 11 8) (dWord d 1) (bits (dWord d 3) 39 0) .rd = true)
    (writable : spaceOk u d (bits (dWord d 0) 15 12) (dWord d 2) (bits (dWord d 3) 39 0) .wr = true)
    (srcIn : spaceOut (bits (dWord d 0) 11 8) (dWord d 1) = false) (dstIn : spaceOut (bits (dWord d 0) 15 12) (dWord d 2) = false) :
    startCopy u d = copyMove u d [] := by
  unfold startCopy
  simp only [form, readable, writable, srcIn, dstIn, Bool.not_true, Bool.or_self, Bool.false_eq_true, if_false]

/-- A copy that names a place it may not use writes nothing (FAULT_ACCESS). -/
theorem startCopy_refused (form : copyOk d = true)
    (bad : spaceOk u d (bits (dWord d 0) 11 8) (dWord d 1) (bits (dWord d 3) 39 0) .rd = false
      ∨ spaceOk u d (bits (dWord d 0) 15 12) (dWord d 2) (bits (dWord d 3) 39 0) .wr = false) :
    startCopy u d = finish u d 5 0x80 0 (dUser d) := by
  have refused : (!spaceOk u d (bits (dWord d 0) 11 8) (dWord d 1) (bits (dWord d 3) 39 0) .rd
      || !spaceOk u d (bits (dWord d 0) 15 12) (dWord d 2) (bits (dWord d 3) 39 0) .wr) = true := by
    rcases bad with bad | bad <;> simp [bad]
  unfold startCopy
  simp only [form, refused, Bool.not_true, Bool.false_eq_true, if_true, if_false]

end

/-! ## Storage commands (R341, R342) -/

/-- The checks of R342 are passed by command `dOp d`, on a target that is READY, with no page of the storage data window needed. -/
structure StorageMay (u : State) (d : DOp) : Prop where
  form   : stgOk d = true
  map    : bit (dMapCfg d) 0 = true
  blocks : otherBlocks u d = false
  switch : otherSwitch u d = false
  within : dOp d ≠ 3 → (dWord d 2).toNat + dNlb d ≤ (d.wins.getD 6 0).toNat
  writes : bit (dMapCfg d) 1 = true
  buffer : hasBuf d = true → spaceOk u d (bufSpace d) (dWord d 1) (stgBytes u d) (if dOp d = 1 then .wr else .rd) = true
  ready  : tgtReady u d = true
  zeroes : dOp d = 5 → (tget u.stgs (dTarget d) {}).wz = true
  master : busMaster u d.vi = true
  direct : usesWindow u d = false

theorem startStorage_issues {u : State} {d : DOp} (h : StorageMay u d) :
    startStorage u d = modDesc u d.id (fun x => { x with st := .drive, since := u.devTime }) := by
  have permitted : ¬ (!bit (dMapCfg d) 0 ∨ otherBlocks u d ∨ otherSwitch u d
      ∨ (dOp d ≠ 3 ∧ (dWord d 2).toNat + dNlb d > (d.wins.getD 6 0).toNat)
      ∨ ((dOp d = 2 ∨ dOp d = 4 ∨ dOp d = 5) ∧ !bit (dMapCfg d) 1)) := by
    simpa [h.map, h.blocks, h.switch, h.writes] using h.within
  have buffered : (hasBuf d && !spaceOk u d (bufSpace d) (dWord d 1) (stgBytes u d) (if dOp d = 1 then .wr else .rd)) = false := by
    cases buf : hasBuf d with
    | false => rfl
    | true => simp [h.buffer buf]
  have zeroed : ¬ (dOp d = 5 ∧ !(tget u.stgs (dTarget d) {}).wz) := fun ⟨op, lacks⟩ => by simp [h.zeroes op] at lacks
  unfold startStorage
  simp only [h.form, permitted, buffered, h.ready, zeroed, h.master, h.direct, Bool.not_true, Bool.false_eq_true, false_and, if_false]

/-- Settles O39: a descriptor at the head is taken; its gate decides whether it starts, and its checks what it does. -/
theorem descriptorsTaken : Obligations.DescriptorsTaken := by
  unfold Obligations.DescriptorsTaken
  intro s s1 vi q b r op w stg
  refine ⟨fun h => ?copy, fun h => ?storage, fun seq d found waits works => gateRelease_tries found waits works⟩
  case copy =>
    intro u d n sp dp
    have taken : exec (.copy vi q) s = .next (settle (tryStart u d)) :=
      congrArg (fun t => Host.Outcome.next (settle t)) (takeOp_ready h rfl)
    refine ⟨taken, fun shut => ?waits, fun met form src dst readable writable srcIn dstIn apart t data read => ?moves, fun met form bad => ?refused⟩
    case waits => rw [taken, tryStart_gated shut]
    case moves =>
      rw [taken, tryStart_copy rfl rfl met, startCopy_within form readable writable srcIn dstIn, copyMove_own src dst writable apart read]
    case refused => rw [taken, tryStart_copy rfl rfl met, startCopy_refused form bad]
  case storage =>
    have takes (mine : Nat → Bool) (code : Nat) (hm : mine code = true) : stg (.next (takeOp s vi q.toNat 3 mine)) code := by
      intro hop u d
      have taken : takeOp s vi q.toNat 3 mine = tryStart u d := takeOp_ready h ((congrArg mine hop).trans hm)
      have named : dOp d = code := (bits_dWord_op d).trans hop
      refine ⟨congrArg _ taken, fun shut => ?waits, fun met form map blocks switch within writes buffer ready zeroes master direct => ?issues⟩
      case waits => rw [taken, tryStart_gated shut]
      case issues =>
        subst named
        rw [taken, tryStart_storage rfl rfl met,
          startStorage_issues ⟨form, map, blocks, switch, within, writes, buffer, ready, zeroes, master, direct⟩]
    exact ⟨takes _ 1 rfl, takes _ 2 rfl, takes _ 3 rfl, takes _ 4 rfl, takes _ 5 rfl⟩

end Sys2Proof.Machine

/-! The statement about BRM descriptors: queue pair commands, regions and messages (R272, R401-R409, R415, R429). -/

namespace Sys2Proof.Machine

/-! ## Taking and starting (R272, R410, R411) -/

theorem takeBrm_ready {s s1 : State} {vi : Vi} {q : Nat} {b : List Byte} {r : List (List Byte)} {mine : Nat → Bool}
    (h : HeadReady s s1 vi q 4 b r) (hm : mine (ofBytes (b.take 1)) = true) : takeBrm s vi q mine =
      tryStartAny (newDesc (headTaken s1 vi q r) vi q 4 (getSq s vi q).seq b).1 (newDesc (headTaken s1 vi q r) vi q 4 (getSq s vi q).seq b).2 := by
  unfold takeBrm
  simp only [h.head, hm, Bool.not_true, Bool.false_eq_true, if_false, takeHead_ready h]

/-- Taking a descriptor changes no feature. -/
theorem headTaken_fw {s s1 : State} {vi : Vi} {q kind : Nat} {b : List Byte} {r : List (List Byte)} (h : HeadReady s s1 vi q kind b r) :
    (headTaken s1 vi q r).fw = s.fw := by
  have woken (u : State) : (wakeDim u).fw = u.fw := by
    unfold wakeDim
    dsimp only
    split <;> rfl
  unfold headTaken
  rw [woken, roundTake_eq h.turn]
  rfl

section
variable {u : State} {d : DOp} (kind : d.kind = 4)
include kind

theorem tryStartAny_gated (shut : gateOk u d = false) : tryStartAny u d = u := by
  simp only [tryStartAny, kind, shut, Bool.false_eq_true, and_false, if_true, if_false]

theorem tryStartAny_starts (waits : d.st = .waiting) (met : gateOk u d = true) : tryStartAny u d = startBrm u d := by
  simp only [tryStartAny, kind, waits, met, and_self, if_true]

end

section
variable {u : State} {d : DOp} (feature : featureVer u.fw 4 ≠ 0) (form : brmDescOk d = true)
include feature form

theorem startBrm_create (op : bOp d = 0x10) : startBrm u d = qpCreate u d := by
  simp only [startBrm, feature, form, op, Bool.not_true, Bool.false_eq_true, if_false]

theorem startBrm_connect (op : bOp d = 0x11) : startBrm u d = qpConnect u d := by
  simp only [startBrm, feature, form, op, Bool.not_true, Bool.false_eq_true, if_false]

theorem startBrm_destroy (op : bOp d = 0x12) : startBrm u d = qpDestroy u d := by
  simp only [startBrm, feature, form, op, Bool.not_true, Bool.false_eq_true, if_false]

theorem startBrm_query (op : bOp d = 0x13) : startBrm u d = qpQuery u d := by
  simp only [startBrm, feature, form, op, Bool.not_true, Bool.false_eq_true, if_false]

theorem startBrm_register (op : bOp d = 0x20) : startBrm u d = regRegister u d := by
  simp only [startBrm, feature, form, op, Bool.not_true, Bool.false_eq_true, if_false]

theorem startBrm_revoke (op : bOp d = 0x21) : startBrm u d = regRevoke u d := by
  simp only [startBrm, feature, form, op, Bool.not_true, Bool.false_eq_true, if_false]

theorem startBrm_message (op : bOp d = 1 ∨ bOp d = 2 ∨ bOp d = 3) : startBrm u d = startMsg u d := by
  rcases op with op | op | op <;> simp only [startBrm, feature, form, op, Bool.not_true, Bool.false_eq_true, if_false]

end

/-! ## Messages (R409) -/

section
variable {u : State} {d : DOp} {n : Nat} {e : Qp} (named : bQp u d = .ok (n, e)) (sound : e.bad = false)
include named sound

theorem startMsg_unconnected (st : e.st ≠ 2) : startMsg u d = bFail u d (1, 0x91) := by
  unfold startMsg
  simp only [named, sound, st, Bool.false_eq_true, ne_eq, not_false_eq_true, if_true, if_false]

variable (connected : e.st = 2) (plain : bit (dWord d 0) 22 = false) (mapped : localOk u d = true)
include connected plain mapped

theorem startMsg_sends (acc : accOk d = true) (op : bOp d ≠ 3) :
    startMsg u d = settleAll (sendMsg (inMessage u d) n e (bMsg d [])) n := by
  unfold startMsg
  simp only [named, sound, connected, plain, mapped, acc, op, Bool.not_true, Bool.false_eq_true, ne_eq, not_true_eq_false, if_false]

/-- An ATOMIC whose operation takes a second operand reads it at LOCAL, and sends zeros for it else. -/
theorem startMsg_atomic {t : State} {y : List Byte} (op : bOp d = 3)
    (operand : (if bits (dWord d 0) 27 24 = 9 then rangeRead u d.vi (dWord d 1) 8 [] else some (u, List.replicate 8 0, false)) = some (t, y, false)) :
    startMsg u d = settleAll (sendMsg (inMessage t d) n e (bMsg d (toBytes 8 (dWord d 5).toNat ++ y))) n := by
  have acc : accOk d = true := by simp [accOk, op]
  unfold startMsg
  simp only [named, sound, connected, plain, mapped, acc, op, operand, Bool.not_true, Bool.false_eq_true, ne_eq, not_true_eq_false, if_true,
    if_false]

end

/-! ## Queue pair commands (R401, R402, R405, R409) -/

section
variable {u : State} {d : DOp} {n : Nat} {e : Qp} (named : bQp u d = .ok (n, e))
include named

/-- The end as CONNECT leaves it: CONNECTING, to the peer the descriptor names. -/
theorem qpConnect_connecting (sound : e.bad = false) (created : e.st = 0) :
    qpConnect u d =
      let e' := { e with
        st := 1, peer := dWord d 3, sentReq := true, accepted := false, connect := some (d.q, d.seq, bUser d), connAt := u.devTime,
        reqAt := u.devTime }
      sendShake (setQp (inMessage u d) n e') n e' 0x10 := by
  unfold qpConnect
  simp only [named, sound, created, Bool.false_eq_true, ne_eq, not_true_eq_false, if_false]

theorem qpDestroy_frees (idle : e.st = 0 ∨ e.st = 3) : qpDestroy u d = finish (freeQp u n e) d 0 0 0 (bUser d) := by
  unfold qpDestroy
  simp only [named, idle, if_true]

theorem qpDestroy_closes (connected : e.st = 2) :
    qpDestroy u d = setQp (inMessage u d) n { e with st := 4, destroy := some (d.q, d.seq, bUser d) } := by
  have busy : ¬ (e.st = 0 ∨ e.st = 3) := by simp [connected]
  unfold qpDestroy
  simp only [named]
  rw [if_neg busy, if_pos connected]

theorem qpQuery_reports {t : State} (sound : e.bad = false) (written : rangeWriteBy u d.vi (dWord d 1) (qpStatus e) (.desc d.id) = some t) :
    qpQuery u d = finish t d 0 0 64 (bUser d) := by
  unfold qpQuery
  simp only [named, sound, written, Bool.false_eq_true, if_false]

end

/-- The generation of a new end, and where it is at home, are not in its parameter block. -/
theorem qpCreate_creates {u t : State} {d : DOp} {x : List Byte} {n : Nat} (aligned : bits (dWord d 1) 5 0 = 0)
    (read : bRead u d 128 = .ok (t, x)) (picked : pickCtx t d.vi = .ok n) {e0 : Qp}
    (he : e0 = { owner := d.vi, gen := 0, par := BitVec.ofNat 1024 (ofBytes x), home := 0 })
    (form : qpParOk t d.vi e0 = true) (threads : qpThreads e0 = false) (clear : qpEnc e0 = false) (link : qpLink e0 = 0) :
    qpCreate u d =
      let g := nextGen16 (tget t.qpGens n 0)
      let e : Qp := { e0 with gen := g, home := qpHomeOf t e0 }
      finish (setQp (newCtx { t with qpGens := tset t.qpGens n g } d.vi n (.qp e)) n { e with flows := [] }) d 0 0 (qpHandle n e).toNat (bUser d) := by
  have byLink (g : BitVec 16) (h : BitVec 2) : qpLink { e0 with gen := g, home := h } = 0 := link
  subst he
  unfold qpCreate
  simp only [aligned, read, form, threads, clear, picked, byLink, addFlows, Bool.not_true, Bool.false_and, Bool.false_eq_true, ne_eq,
    not_true_eq_false, if_true, if_false]

/-! ## Regions (R406, R429) -/

theorem regRegister_registers {u t : State} {d : DOp} {x : List Byte} {n : Nat} (read : bRead u d 32 = .ok (t, x))
    (picked : pickCtx t d.vi = .ok n) {e : Region} (he : e = { owner := d.vi, gen := 0, blk := BitVec.ofNat 256 (ofBytes x) })
    (form : regionOk e = true) (mapped : regionMapped t d.vi e = true) (apart : importClash t d.vi e = false) (clear : regEnc e = false) :
    regRegister u d =
      let g := nextGen24 (tget t.regGens n 0)
      finish (newCtx { t with regGens := tset t.regGens n g } d.vi n (.region { e with gen := g })) d 0 0 (rkeyOf n { e with gen := g }).toNat
        (bUser d) := by
  subst he
  unfold regRegister
  simp only [read, form, mapped, apart, clear, picked, Bool.not_true, Bool.false_eq_true, if_false]

section
variable {u : State} {d : DOp} {n : Nat} {x : Region} (named : regionOf u ((dWord d 3).setWidth 48) = some (n, x)) (own : x.owner = d.vi)
  (known : ctxReachable u n = true)
include named own known

theorem regRevoke_begins (fresh : x.revoke = none) :
    regRevoke u d = setRegion (inMessage u d) n { x with revoke := some (d.q, d.seq, bUser d) } := by
  unfold regRevoke
  simp only [named, own, known, fresh, Option.isSome_none, Bool.not_true, Bool.false_eq_true, ne_eq, not_true_eq_false, if_false]

theorem regRevoke_again (begun : x.revoke ≠ none) : regRevoke u d = bFail u d (3, 0) := by
  have pending : x.revoke.isSome = true := Option.isSome_iff_ne_none.mpr begun
  unfold regRevoke
  simp only [named, own, known, pending, Bool.not_true, Bool.false_eq_true, ne_eq, not_true_eq_false, if_true, if_false]

end

theorem revokeComplete_frees {s : State} {c : BitVec 24} {x : Region} {q : Nat} {seq : BitVec 48} {user : BitVec 32}
    (found : getRegion s c.toNat = some x) (begun : x.revoke = some (q, seq, user)) (drained : x.admitted = []) :
    exec (.revokeComplete c) s = .next (settle (brmFinish (freeCtx s x.owner c.toNat) x.owner q seq (0, 0) 0)) := by
  simp only [exec_revokeComplete, execRevokeComplete, found, begun, drained, ne_eq, not_true_eq_false, if_false]

section
variable {s : State} {c : BitVec 24} {e : Qp} (found : getQp s c.toNat = some e) (closing : e.st = 4) (drained : e.msgs = [])
include found closing drained

theorem qpClose_finishes {q : Nat} {seq : BitVec 48} {user : BitVec 32} (asked : e.destroy = some (q, seq, user)) :
    exec (.qpCloseComplete c) s
      = .next (settle (brmFinish (freeQp (emitCtl s e 0x12 0 0 0 []) c.toNat e) e.owner q seq (0, 0) 0)) := by
  simp only [exec_qpCloseComplete, execQpCloseComplete, found, closing, drained, asked, ne_eq, not_true_eq_false, or_self, if_false]

theorem qpClose_frees (unasked : e.destroy = none) :
    exec (.qpCloseComplete c) s = .next (freeQp (emitCtl s e 0x12 0 0 0 []) c.toNat e) := by
  simp only [exec_qpCloseComplete, execQpCloseComplete, found, closing, drained, unasked, ne_eq, not_true_eq_false, or_self, if_false]

end

/-- Settles O45: a descriptor at the head is taken; its gate decides whether it starts, and its OP what it does. -/
theorem brmDescriptors : Obligations.BrmDescriptors := by
  unfold Obligations.BrmDescriptors
  refine ⟨fun s s1 vi q b r h => ?taken, fun s c => ⟨fun x q seq user => revokeComplete_frees, fun e found closing drained => ?closes⟩⟩
  case closes =>
    exact ⟨fun q seq user => qpClose_finishes found closing drained, qpClose_frees found closing drained⟩
  case taken =>
    intro w s' d op starts on message
    have takes {mine : Nat → Bool} {code : Nat} (hm : mine code = true) (hop : op = code) :
        Host.Outcome.next (settle (takeBrm s vi q.toNat mine)) = (.next (settle (tryStartAny s' d)) : Host.Outcome State Fault Refusal) :=
      congrArg (fun t => Host.Outcome.next (settle t)) (takeBrm_ready h ((congrArg mine hop).trans hm))
    have fw : s'.fw = s.fw := headTaken_fw h
    have opIs {code : Nat} (hop : op = code) : bOp d = code := (bits_dWord_op d).trans hop
    have taken (mine : Nat → Bool) (code : Nat) (hm : mine code = true) : on (.next (settle (takeBrm s vi q.toNat mine))) code :=
      fun hop => ⟨takes hm hop, fun shut => (takes hm hop).trans (by rw [tryStartAny_gated rfl shut])⟩
    have begins {mine : Nat → Bool} {code : Nat} {t : State} (hm : mine code = true) (hop : op = code)
        (ht : featureVer s'.fw 4 ≠ 0 → brmDescOk d = true → startBrm s' d = t) : starts (.next (settle (takeBrm s vi q.toNat mine))) t :=
      fun met feature ok => (takes hm hop).trans (by rw [tryStartAny_starts rfl rfl met, ht (fw ▸ feature) ok])
    have sends (mine : Nat → Bool) (code : Nat) (hm : mine code = true) (hc : code = 1 ∨ code = 2 ∨ code = 3) :
        message (.next (settle (takeBrm s vi q.toNat mine))) code := by
      intro hop n e named sound
      have msg (feature : featureVer s'.fw 4 ≠ 0) (ok : brmDescOk d = true) : startBrm s' d = startMsg s' d :=
        startBrm_message feature ok (by rwa [opIs hop])
      refine ⟨fun st plain acc mapped other => begins hm hop fun feature ok => (msg feature ok).trans ?sent,
        fun st plain mapped atomic => ⟨fun single => begins hm hop fun feature ok => (msg feature ok).trans ?zeros,
          fun swaps t y read => begins hm hop fun feature ok => (msg feature ok).trans ?operand⟩,
        fun st => begins hm hop fun feature ok => (msg feature ok).trans (startMsg_unconnected named sound st)⟩
      case sent => exact startMsg_sends named sound st plain mapped acc (by rwa [opIs hop])
      case zeros => exact startMsg_atomic named sound st plain mapped ((opIs hop).trans atomic) (if_neg single)
      case operand => exact startMsg_atomic named sound st plain mapped ((opIs hop).trans atomic) ((if_pos swaps).trans read)
    refine ⟨⟨taken _ 1 rfl, taken _ 2 rfl, taken _ 3 rfl, taken _ 0x10 rfl, taken _ 0x11 rfl, taken _ 0x12 rfl, taken _ 0x13 rfl,
        taken _ 0x20 rfl, taken _ 0x21 rfl⟩, sends _ 1 rfl (by decide), sends _ 2 rfl (by decide), sends _ 3 rfl (by decide),
      fun n e named => ⟨fun hop sound st => begins rfl hop fun feature ok => ?connects, fun hop st => begins rfl hop fun feature ok => ?frees,
        fun hop st => begins rfl hop fun feature ok => ?closing, fun hop sound t written => begins rfl hop fun feature ok => ?reports⟩,
      fun n x hop named own known => ⟨fun fresh => begins rfl hop fun feature ok => ?revokes,
        fun begun => begins rfl hop fun feature ok => ?again⟩,
      fun t x n hop read picked => ?registers, fun t x n hop aligned read picked => ?creates⟩
    case connects => exact (startBrm_connect feature ok (opIs hop)).trans (qpConnect_connecting named sound st)
    case frees => exact (startBrm_destroy feature ok (opIs hop)).trans (qpDestroy_frees named st)
    case closing => exact (startBrm_destroy feature ok (opIs hop)).trans (qpDestroy_closes named st)
    case reports => exact (startBrm_query feature ok (opIs hop)).trans (qpQuery_reports named sound written)
    case revokes => exact (startBrm_revoke feature ok (opIs hop)).trans (regRevoke_begins named own known fresh)
    case again => exact (startBrm_revoke feature ok (opIs hop)).trans (regRevoke_again named own known begun)
    case registers =>
      intro e g form mapped apart clear
      exact begins rfl hop fun feature ok =>
        (startBrm_register feature ok (opIs hop)).trans (regRegister_registers read picked rfl form mapped apart clear)
    case creates =>
      intro e0 g e form threads clear link
      exact begins rfl hop fun feature ok =>
        (startBrm_create feature ok (opIs hop)).trans (qpCreate_creates aligned read picked rfl form threads clear link)

end Sys2Proof.Machine

/-! The statement about the state that module reset leaves (R257, R610). -/

namespace Sys2Proof.Machine

/-! ## Reset values of registers of a VI block -/

/-- No register has been written yet. -/
theorem rget_reset (k : Nat) : rget .reset k = regReset k := rfl

/-- A register of a VI block lies among those of the VI blocks, at its own place in its block. -/
theorem viReg_place (vi : Vi) {off : Nat} (h : off < 0x1000) :
    (0x100000 ≤ viReg vi off ∧ viReg vi off < 0x200000) ∧ (viReg vi off - 0x100000) % 0x1000 = off := by
  have last := vi.isLt
  unfold viReg
  omega

section
variable (vi : Vi)

theorem regReset_viShare : regReset (viReg vi 0x18) = 16 := by
  obtain ⟨block, place⟩ := viReg_place vi (off := 0x18) (by decide)
  simp only [regReset, block, place, and_self, if_true]

theorem regReset_viPollCfg : regReset (viReg vi 0x50) = 0x03E801F4 := by
  obtain ⟨block, place⟩ := viReg_place vi (off := 0x50) (by decide)
  simp only [regReset, block, place, and_self, if_true]

theorem regReset_viPeerWin : regReset (viReg vi 0x300) = 7 := by
  obtain ⟨block, place⟩ := viReg_place vi (off := 0x300) (by decide)
  simp only [regReset, block, place, and_self, if_true]

end

/-! ## VIs (R257) -/

/-- No VI but those of the PFs is listed at reset. -/
theorem getInst_reset_vf {vi : Vi} (h : ¬ (vi = 0 ∨ vi = 128)) : getInst .reset vi = {} := by
  have number (w : Vi) : w.toNat = vi.toNat → vi = w := fun e => (BitVec.eq_of_toNat_eq e).symm
  obtain ⟨first, second⟩ := not_or.mp h
  have unlisted : tget? State.reset.inst vi.toNat = none :=
    (if_neg (mt (number 0) first)).trans (if_neg (mt (number 128) second))
  rw [getInst, tget, unlisted]
  rfl

theorem getInst_reset (vi : Vi) : getInst .reset vi = { st := if vi = 0 ∨ vi = 128 then 1 else 0 } := by
  split
  next pf => rcases pf with rfl | rfl <;> rfl
  next vf => exact getInst_reset_vf vf

/-- Settles O2: the state is written out, and the rest is read from the reset values of registers and VIs. -/
theorem resetState : Obligations.ResetState := by
  unfold Obligations.ResetState
  refine ⟨rfl, rfl, rfl, rfl, rfl, rfl, rfl, rfl, fun vi => ?vis, fun vi => ?block, fun p => ?port, rfl, rfl, rfl, rfl, rfl,
    fun p h => ?stores, fun p h => ?settled, ⟨_, rfl⟩⟩
  case vis =>
    rw [getInst_reset]
    exact ⟨rfl, rfl⟩
  case block =>
    rw [rget_reset, rget_reset, rget_reset]
    exact ⟨regReset_viShare vi, regReset_viPollCfg vi, regReset_viPeerWin vi⟩
  case port =>
    revert p
    decide
  case stores => exact absurd h List.not_mem_nil
  case settled => exact absurd h List.not_mem_nil

end Sys2Proof.Machine

/-! The statement about the BAR2 aperture (R299, R300). -/

namespace Sys2Proof.Machine

/-! ## Reads (R299) -/

section
variable {s : State} {fn : Fn} {off n : Nat}

/-- What the host gets for a read that the aperture refuses: zeros, and the error is recorded. -/
def aperReadRefused (s : State) (fn : Fn) (off n : Nat) : State := answerHost (accessErr s fn off) (List.replicate n 0) false

theorem aperRead_of_invalid (slot : aperAddr s fn off = none) : aperRead s fn off n = aperReadRefused s fn off n := by
  simp only [aperRead, slot, aperReadRefused]

variable {vi : Vi} {a : Word} (slot : aperAddr s fn off = some (vi, a))
include slot

theorem aperRead_of_fault (denied : translate s vi a n .rd = .fault) : aperRead s fn off n = aperReadRefused s fn off n := by
  simp only [aperRead, slot, denied, aperReadRefused]

theorem aperRead_of_dev {pa : Nat} {m : Option Nat} (found : translate s vi a n .rd = .dev pa m) :
    aperRead s fn off n = answerHost (devRead s pa n none).1 (devRead s pa n none).2.1 (devRead s pa n none).2.2 := by
  simp only [aperRead, slot, found]

end

theorem bar2Read_reads {s : State} {fn : Fn} {off : BitVec 36} {n : BitVec 13} (pf : isPf fn = true) (passes : gate s fn none = .pass)
    (awake : s.pwr.st ≠ 3) (form : tlpOk off.toNat n.toNat = true) :
    exec (.bar2Read fn off n) s = .next (aperRead s fn off.toNat n.toNat) := by
  simp only [exec_bar2Read, execBar2Read, pf, form, passes, stopEntry_awake awake, Bool.not_true, Bool.or_self, Bool.false_eq_true, if_false]

/-! ## Writes (R300) -/

section
variable {s : State} {fn : Fn} {off : Nat} {data : List Byte}

theorem aperWrite_of_invalid (slot : aperAddr s fn off = none) (p : Bool) : aperWrite fn off data p s = accessErr s fn off := by
  simp only [aperWrite, slot]

variable {vi : Vi} {a : Word} (slot : aperAddr s fn off = some (vi, a))
include slot

theorem aperWrite_of_fault (denied : translate s vi a data.length .wr = .fault) (p : Bool) :
    aperWrite fn off data p s = accessErr s fn off := by
  simp only [aperWrite, slot, denied]

variable {pa : Nat} {m : Option Nat} (found : translate s vi a data.length .wr = .dev pa m)
include found

theorem aperWrite_clean : aperWrite fn off data false s = engAct s vi m (.bytes pa data) (.bar2 fn) := by
  simp only [aperWrite, slot, found, Bool.false_eq_true, if_false]

theorem aperWrite_poisoned :
    aperWrite fn off data true s = aerReq (engAct s vi m (.mark pa data.length) (.bar2 fn)) fn 12 := by
  simp only [aperWrite, slot, found, if_true]

end

/-- A write behind no other access of its function reaches the aperture at once. -/
theorem bar2Write_writes {s : State} {fn : Fn} {off : BitVec 36} {data : List Byte} (p : Bool) (pf : isPf fn = true)
    (passes : gate s fn none = .pass) (awake : s.pwr.st ≠ 3) (form : tlpOk off.toNat data.length = true) (first : hostWaits s fn = false) :
    exec (.bar2Write fn off data p) s = .next (settle (aperWrite fn off.toNat data p s)) := by
  simp only [exec_bar2Write, execBar2Write, pf, form, passes, first, stopEntry_awake awake, Bool.not_true, Bool.or_self, Bool.false_eq_true,
    if_false]

/-- Settles O36: an access that passes the gates reaches the aperture, and the slot and the VI's permissions decide what it does there. -/
theorem apertureAccesses : Obligations.ApertureAccesses := by
  unfold Obligations.ApertureAccesses
  intro s fn off n data p pf passes awake _
  refine ⟨fun form => ?reads, fun form first => ?writes⟩
  case reads =>
    rw [bar2Read_reads pf passes awake form]
    exact ⟨fun slot => congrArg _ (aperRead_of_invalid slot), fun vi a slot => ⟨fun denied => congrArg _ (aperRead_of_fault slot denied),
      fun pa m found => congrArg _ (aperRead_of_dev slot found)⟩⟩
  case writes =>
    rw [bar2Write_writes p pf passes awake form first]
    refine ⟨fun slot => ?invalid, fun vi a slot => ⟨fun denied => ?denied, fun pa m found => ⟨?clean, ?poisoned⟩⟩⟩
    case invalid => rw [aperWrite_of_invalid slot]
    case denied => rw [aperWrite_of_fault slot denied]
    case clean =>
      rintro rfl
      rw [aperWrite_clean slot found]
    case poisoned =>
      rintro rfl
      rw [aperWrite_poisoned slot found]

end Sys2Proof.Machine

/-! The statement about submission and completion queues (R304-R308, R310, R313). -/

namespace Sys2Proof.Machine

/-! ## A write of a queue register (R303) -/

section
variable {s u : State} {fn : Fn} {vi : Vi} {off : Nat} {v : Word} {body : State → State}

/-- A write of a queue register goes by one way to its offset, in the VI block or in the queue page. -/
theorem hostQ_eq_hostWr (own : viReach fn vi = true) : hostQ fn vi off v body s = hostWr fn (qOff fn vi off) v body s := by
  by_cases pf : isPf fn = true
  · simp only [hostQ, hostVi, qOff, own, pf, if_true]
  · obtain rfl : fn = vi := by simpa [viReach, pf] using own
    simp only [hostQ, qOff, pf, Bool.false_eq_true, if_true, if_false]

theorem hostQ_settles_to (h : QReaches s fn vi off) (hb : body s = u) : hostQ fn vi off v body s = .next (settle u) := by
  rw [hostQ_eq_hostWr h.own, hostWr_settles h.reach, hb]

theorem hostQ_ok (h : QReaches s fn vi off) (hb : body s = u) (ht : u.threads = s.threads) : hostQ fn vi off v body s = .next u :=
  (hostQ_eq_hostWr h.own).trans (hostWr_ok h.reach hb ht)

end

/-! ## Queues among the state -/

section
variable (s : State) (vi : Vi) (q : Nat)

@[simp] theorem getSq_setSq_self (x : Sq) : getSq (setSq s vi q x) vi q = x := tget_tset_self ..

@[simp] theorem getSq_rset (k : Nat) (v : Word) : getSq (rset s k v) vi q = getSq s vi q := rfl

@[simp] theorem getCq_rset (k : Nat) (v : Word) : getCq (rset s k v) vi q = getCq s vi q := rfl

@[simp] theorem cqCfg_written (v : Word) : cqCfg (rset s (cqCfgReg vi q) v) vi q = v := rget_rset_self ..

@[simp] theorem hostPut_threads (bus : Nat) (d : List Byte) : (hostPut s vi bus d).threads = s.threads := by
  unfold hostPut
  split <;> simp

@[simp] theorem newCtx_threads (n : Nat) (c : Ctx) : (newCtx s vi n c).threads = s.threads := by
  unfold newCtx putCtx
  simp only [modInst_threads]
  split <;> simp

@[simp] theorem freeQueueCtx_threads (cq : Bool) : (freeQueueCtx s vi cq q).threads = s.threads := by
  unfold freeQueueCtx
  split <;> rfl

end

/-! ## Configuration words (R304) -/

theorem bit_eq_getLsbD (w : Word) (i : Nat) : bit w i = w.getLsbD i := rfl

theorem bit_sqCfgWord_en (en : Bool) (c : SqCfgW) : bit (sqCfgWord en c) 63 = en := by
  rw [bit_eq_getLsbD]
  simp only [sqCfgWord, at_, BitVec.getLsbD_or, BitVec.getLsbD_ofNat, Nat.testBit_shiftLeft]
  cases en <;> simp [b2n, BitVec.testBit_toNat]

section
variable (en : Bool) (size : BitVec 5)

/-- EN stands above SIZE in `VI_CQ_CFG`. -/
theorem cqCfgWord_toNat : (cqCfgWord en size).toNat = b2n en * 2 ^ 63 + size.toNat := by
  have small := size.isLt
  have enable : b2n en ≤ 1 := by cases en <;> decide
  rw [cqCfgWord, at_zero, at_or_ofNat _ (by omega), BitVec.toNat_ofNat]
  omega

theorem bits_cqCfgWord_en : bits (cqCfgWord en size) 63 63 = b2n en := by
  have small := size.isLt
  have enable : b2n en ≤ 1 := by cases en <;> decide
  simp only [bits, cqCfgWord_toNat, Nat.shiftRight_eq_div_pow]
  omega

theorem bits_cqCfgWord_size : bits (cqCfgWord en size) 4 0 = size.toNat := by
  have small := size.isLt
  simp only [bits, cqCfgWord_toNat, Nat.shiftRight_zero]
  omega

theorem bit_cqCfgWord_en : bit (cqCfgWord en size) 63 = en := by
  rw [bit_eq_getLsbD]
  simp only [cqCfgWord, at_, BitVec.getLsbD_or, BitVec.getLsbD_ofNat, Nat.testBit_shiftLeft]
  cases en <;> simp [b2n, BitVec.testBit_toNat]

end

/-! ## Submission queues (R304, R305) -/

/-- The state a write of `VI_SQ_CFG` of a DISABLED queue leaves before the queue is checked: the refusals are cleared (R304). -/
def sqConfigured (s : State) (vi : Vi) (q : Nat) (v : Word) : State :=
  rset (setSq s vi q { getSq s vi q with refused := 0 }) (sqCfgReg vi q) (sqCfgVal (rget s (sqCfgReg vi q)) v)

theorem getSq_sqConfigured (s : State) (vi : Vi) (q : Nat) (v : Word) :
    getSq (sqConfigured s vi q v) vi q = { getSq s vi q with refused := 0 } := getSq_setSq_self ..

section
variable {s : State} {vi : Vi} {q : Nat}

theorem sqStart_invalid (bad : sqCfgOk s vi q = false) :
    sqStart s vi q = setSq s vi q { getSq s vi q with status := 0x0B, detail := 0x80 } := by
  simp only [sqStart, bad, Bool.not_false, if_true]

theorem sqStart_starts {m : Nat} (ok : sqCfgOk s vi q = true) (ctx : pickCtx s vi = .ok m) :
    sqStart s vi q = newCtx (setSq s vi q { st := 1 }) vi m (.queue vi false q) := by
  simp only [sqStart, ok, ctx, Bool.not_true, Bool.false_eq_true, if_false]

theorem sqCfgWr_enables (fn : Fn) (c : SqCfgW) (disabled : (getSq s vi q).st = 0) :
    sqCfgWr fn vi q (sqCfgWord true c) s = sqStart (sqConfigured s vi q (sqCfgWord true c)) vi q := by
  unfold sqCfgWr
  rw [bit_sqCfgWord_en]
  exact if_pos disabled

/-- EN 0 with the other fields as they stand: the queue takes no more and drains. -/
theorem sqCfgWr_drains (fn : Fn) {c : SqCfgW} (enabled : (getSq s vi q).st = 1 ∨ (getSq s vi q).st = 2)
    (same : sqCfgVal (rget s (sqCfgReg vi q)) (sqCfgWord false c) ||| at_ 1 63 = rget s (sqCfgReg vi q) ||| at_ 1 63) :
    sqCfgWr fn vi q (sqCfgWord false c) s =
      setSq (rset (setSq s vi q { getSq s vi q with refused := 0 }) (sqCfgReg vi q) (setBits (rget s (sqCfgReg vi q)) 63 63 0)) vi q
        { getSq s vi q with refused := 0, st := 3, got := [] } := by
  have active : (getSq s vi q).st ≠ 0 := by rcases enabled with h | h <;> simp [h]
  simp only [sqCfgWr, active, enabled, same, bit_sqCfgWord_en, getSq_rset, getSq_setSq_self, ne_eq, not_true_eq_false,
    Bool.false_eq_true, if_true, if_false]

theorem sqDrained_disables (draining : (getSq s vi q).st = 3) (done : (getSq s vi q).taken = 0) :
    sqDrained s vi q = freeQueueCtx (setSq s vi q { getSq s vi q with st := 0 }) vi false q := if_pos ⟨draining, done⟩

end

/-! ## Completion queues (R304, R305) -/

section
variable {s : State} {vi : Vi} {q : Nat}

theorem cqStart_badSize {size : Nat} (field : bits (cqCfg s vi q) 4 0 = size) (bad : size < 4 ∨ 16 < size) :
    cqStart s vi q = setCq s vi q { getCq s vi q with status := 0x0B, detail := 0x80 } := by
  subst field
  exact if_pos (or_assoc.mp (.inl bad))

theorem cqStart_starts {m size : Nat} (field : bits (cqCfg s vi q) 4 0 = size) (least : 4 ≤ size) (most : size ≤ 16)
    (ring : rangeOk s vi (cqBase s vi q) (32 * 2 ^ size) .wr = true) (ctx : pickCtx s vi = .ok m) :
    cqStart s vi q = newCtx (setCq s vi q { st := 1, phase := true }) vi m (.queue vi true q) := by
  simp only [cqStart, field, not_lt.mpr least, not_lt.mpr most, ring, ctx, Bool.not_true, Bool.false_eq_true, or_self, if_false]

/-- A DISABLED completion queue takes the whole configuration word. -/
theorem cqCfgWr_enables (fn : Fn) (size : BitVec 5) (disabled : (getCq s vi q).st = 0) :
    cqCfgWr fn vi q (cqCfgWord true size) s = cqStart (rset s (cqCfgReg vi q) (cqCfgWord true size)) vi q := by
  simp only [cqCfgWr, disabled, bit_cqCfgWord_en, bits_cqCfgWord_en, bits_cqCfgWord_size, if_true]
  rfl

variable {size : BitVec 5} (fn : Fn) (enabled : (getCq s vi q).st ≠ 0) (same : bits (rget s (cqCfgReg vi q)) 4 0 = size.toNat)
include enabled same

/-- EN 0 with SIZE as it stands acts on the queue unless something uses it. -/
theorem cqCfgWr_disables : cqCfgWr fn vi q (cqCfgWord false size) s =
    if cqUsed s vi q then accessErr s fn (qOff fn vi (0x608 + 0x20 * q))
    else freeQueueCtx (setCq (rset s (cqCfgReg vi q) (setBits (rget s (cqCfgReg vi q)) 63 63 0)) vi q
      { getCq s vi q with st := 0, held := [] }) vi true q := by
  simp only [cqCfgWr, enabled, same, bit_cqCfgWord_en, bits_cqCfgWord_size, getCq_rset, ne_eq, not_true_eq_false, Bool.false_eq_true, if_false]

end

/-! ## Doorbells (R306, R313) -/

section
variable {s : State} {vi : Vi} {q : Nat} (fn : Fn) (x : BitVec 16) (active : (getInst s vi).st = 2)
include active

theorem sqDbWr_running (runs : (getSq s vi q).st = 1) : sqDbWr fn vi q x.toNat s =
    let sq := getSq s vi q
    let size := sqSize s vi q
    if x.toNat < size ∧ (x.toNat + size - sq.tail.toNat % size) % size
        ≤ size - 1 - (sq.tail.toNat + size - sq.head.toNat % size) % size then
      setSq s vi q { sq with tail := x, reqAt := if sq.tail = sq.head ∧ sq.got = [] then s.devTime else sq.reqAt }
    else setSq s vi q { sq with refused := if sq.refused = 255 then 255 else sq.refused + 1 } := by
  simp [sqDbWr, active, runs]

theorem cqDbWr_enabled (enabled : (getCq s vi q).st ≠ 0) : cqDbWr fn vi q x.toNat s =
    let cq := getCq s vi q
    let size := cqSize s vi q
    if x.toNat < size ∧ (x.toNat + size - cq.head.toNat % size) % size ≤ (cq.tail.toNat + size - cq.head.toNat % size) % size then
      cqRetry (setCq s vi q { cq with head := x }) vi q (cq.held.length + 1)
    else accessErr s fn (qOff fn vi (0x880 + 8 * q)) := by
  have idle : (getInst s vi).st ≠ 1 := by simp [active]
  have serves : ¬ ((getInst s vi).st = 3 ∨ (getInst s vi).st = 4 ∨ (getCq s vi q).st = 0) := by simpa [active] using enabled
  simp only [cqDbWr, idle, serves, if_false, BitVec.ofNat_toNat, BitVec.setWidth_eq]

end

/-- A count that passes one of two bounds fails the check of both. -/
theorem not_within {a b c d : Nat} (h : b ≤ a ∨ d < c) : ¬ (a < b ∧ c ≤ d) := by omega

/-! ## Reading descriptors (R307, R308) -/

/-- The descriptors one request asks for: at most 8, and none that the doorbell has not added. -/
def fetchCount (s : State) (vi : Vi) (q n : Nat) : Nat :=
  Nat.min (Nat.min n 8) (((getSq s vi q).tail.toNat + sqSize s vi q - (getSq s vi q).head.toNat % sqSize s vi q) % sqSize s vi q)

theorem descriptorFetch_reads {s : State} {vi : Vi} {q m : BitVec 4} (out : RdOut) (data : List Byte)
    (may : canTake s vi q.toNat = true) (empty : (getSq s vi q.toNat).got = [])
    (serves : sqInHost s vi q.toNat = true → busMaster s vi = true ∨ (getSq s vi q.toNat).flight = true)
    (asked : fetchCount s vi q.toNat m.toNat ≠ 0) : exec (.descriptorFetch vi q m out data) s =
      let r := readDescs (setSq s vi q.toNat { getSq s vi q.toNat with flight := false }) vi q.toNat out data 0
        (fetchCount s vi q.toNat m.toNat)
      if r.2.1 = [] then .next (stopSq r.1 vi q.toNat r.2.2.1 r.2.2.2)
      else .next (setSq r.1 vi q.toNat { getSq r.1 vi q.toNat with got := r.2.1 }) := by
  have starts : ¬ (!canTake s vi q.toNat ∨ (getSq s vi q.toNat).got ≠ [] ∨ fetchCount s vi q.toNat m.toNat = 0
      ∨ (sqInHost s vi q.toNat ∧ !busMaster s vi ∧ !(getSq s vi q.toNat).flight)) := by
    rintro (shut | holds | none | ⟨host, stopped, landed⟩)
    · simp [may] at shut
    · exact holds empty
    · exact asked none
    · rcases serves host with h | h
      · simp [h] at stopped
      · simp [h] at landed
  exact if_neg starts

/-- Settles O37: each write reaches its register's handler, and the state of the queue decides what it does. -/
theorem queueOperations : Obligations.QueueOperations := by
  unfold Obligations.QueueOperations
  intro s fn vi q n sq cq i sqOff cqOff
  refine ⟨fun c h => ?sqs, fun draining done => congrArg _ (sqDrained_disables draining done), fun size h => ?cqs,
    fun x h active runs => ?sqDoorbell, fun x h active enabled => ?cqDoorbell, fun m out data may empty serves => ?fetch⟩
  case sqs =>
    refine ⟨fun disabled bad => ?invalid, fun disabled ok m ctx => ?starts, fun enabled same => hostQ_ok h (sqCfgWr_drains fn enabled same) rfl⟩
    case invalid =>
      have recorded := sqStart_invalid (s := sqConfigured s vi n (sqCfgWord true c)) bad
      rw [getSq_sqConfigured] at recorded
      exact hostQ_ok h ((sqCfgWr_enables fn c disabled).trans recorded) rfl
    case starts =>
      exact hostQ_ok h ((sqCfgWr_enables fn c disabled).trans (sqStart_starts (s := sqConfigured s vi n (sqCfgWord true c)) ok ctx))
        (newCtx_threads ..)
  case cqs =>
    have written : bits (cqCfg (rset s (cqCfgReg vi n) (cqCfgWord true size)) vi n) 4 0 = size.toNat := by
      rw [cqCfg_written, bits_cqCfgWord_size]
    refine ⟨fun disabled least most ring m ctx => ?starts, fun disabled bad => ?badSize, fun enabled same free => ?frees,
      fun enabled same used => ?used⟩
    case starts =>
      exact hostQ_ok h ((cqCfgWr_enables fn size disabled).trans (cqStart_starts written least most ring ctx)) (newCtx_threads ..)
    case badSize => exact hostQ_ok h ((cqCfgWr_enables fn size disabled).trans (cqStart_badSize written bad)) rfl
    case frees =>
      exact hostQ_ok h ((cqCfgWr_disables fn enabled same).trans (if_neg (ne_true_of_eq_false free))) (freeQueueCtx_threads ..)
    case used => exact hostQ_settles_to h ((cqCfgWr_disables fn enabled same).trans (if_pos used))
  case sqDoorbell =>
    intro size add free
    exact
      ⟨fun inRing fits => hostQ_ok h ((sqDbWr_running fn x active runs).trans (if_pos ⟨inRing, fits⟩)) rfl,
        fun beyond => hostQ_ok h ((sqDbWr_running fn x active runs).trans (if_neg (not_within beyond))) rfl⟩
  case cqDoorbell =>
    intro size rel written
    exact
      ⟨fun inRing fits => hostQ_settles_to h ((cqDbWr_enabled fn x active enabled).trans (if_pos ⟨inRing, fits⟩)),
        fun beyond => hostQ_settles_to h ((cqDbWr_enabled fn x active enabled).trans (if_neg (not_within beyond)))⟩
  case fetch =>
    intro size count r asked
    exact ⟨fun got => (descriptorFetch_reads out data may empty serves asked).trans (if_neg got),
      fun none => (descriptorFetch_reads out data may empty serves asked).trans (if_pos none)⟩

end Sys2Proof.Machine

/-! The statement about the Poll Page, the upstream and downstream links and the Ethernet links (R313-R318, R330, R344, R578, R612, R614). -/

namespace Sys2Proof.Machine

/-! ## The Poll Page (R314-R316, R549) -/

/-- A write to host memory, held or not, leaves the registers as they are. -/
@[simp] theorem rget_hostPut (s : State) (fn : Fn) (bus : Nat) (d : List Byte) (k : Nat) : rget (hostPut s fn bus d) k = rget s k := by
  unfold hostPut
  split
  · simp only [rget, hostWrite_regs]
  · rfl

/-- The fields are written before `SEQ`, both where `VI_POLL` points. -/
theorem pollUpdate_eq (s : State) (vi : Vi) : pollUpdate s vi =
    let seq := (getInst s vi).pollSeq + 2
    let fields := (pollWords s vi).flatMap (fun w => toBytes 8 w.toNat) ++ List.replicate 3584 0
    modInst (hostPut (hostPut s vi (pollBase s vi + 8) fields) vi (pollBase s vi) (toBytes 8 seq.toNat)) vi
      (fun i => { i with pollSeq := seq }) := by
  unfold pollUpdate
  simp only [pollBase, rget_hostPut]

section
variable {s : State} {vi : Vi} (ready : s.boot.phase = 8) (up : s.drst.phase = 0) (alive : s.err.fatal = false) (on : pollOn s vi = true)
include ready up alive on

theorem pollPage_updates :
    exec (.pollPageUpdate vi) s = .next (if s.pwr.st = 2 ∨ s.pwr.st = 4 then pollBeat s vi else pollUpdate s vi) := by
  simp only [exec_pollPageUpdate, execPollPageUpdate, ready, up, alive, on, ne_eq, not_true_eq_false, Bool.not_true, Bool.false_eq_true,
    or_self, if_false]

theorem pollPage_beats (dark : s.pwr.st = 2 ∨ s.pwr.st = 4) : exec (.pollPageUpdate vi) s = .next (pollBeat s vi) := by
  rw [pollPage_updates ready up alive on, if_pos dark]

theorem pollPage_writes (dark : s.pwr.st ≠ 2) (wakes : s.pwr.st ≠ 4) : exec (.pollPageUpdate vi) s = .next (pollUpdate s vi) := by
  rw [pollPage_updates ready up alive on, if_neg (not_or.mpr ⟨dark, wakes⟩)]

end

/-! ## Power states of an upstream link (R318, R319) -/

section
variable {s : State} {port : Fin 2} (up : upLinkUp s port = true)
include up

theorem l0p_narrows {lanes : BitVec 4} (enabled : bit s.links[port].en 0 = true) (l0 : s.links[port].pm = 0)
    (width : lanes = 8 ∨ lanes = 4 ∨ lanes = 2) (fewer : lanes.toNat < s.links[port].lanes.toNat) :
    exec (.l0pEnter port lanes) s = .next (setLink s port { s.links[port] with lanes := lanes.setWidth 5 }) := by
  refine if_pos ?_
  simp only [up, enabled, l0, fewer, beq_self_eq_true, Bool.true_and, decide_true, Bool.and_true, Bool.or_eq_true, beq_iff_eq, or_assoc]
  exact width

variable (enabled : bit s.links[port].en 1 = true)
include enabled

/-- A link that is up with ASPM L1 enabled is past the check all three states share. -/
theorem not_aspm_refused : ¬ (!upLinkUp s port || !bit s.links[port].en 1) = true := by
  simp only [up, enabled, Bool.not_true, Bool.or_self, Bool.false_eq_true, not_false_eq_true]

theorem aspmL1_enters (l0 : s.links[port].pm = 0) :
    exec (.aspmL1Enter port .l1) s = .next (setLink s port { s.links[port] with pm := 1 }) :=
  (if_neg (not_aspm_refused up enabled)).trans (if_pos l0)

theorem aspmL11_enters (l11 : bit s.links[port].en 2 = true) (shallower : s.links[port].pm ≤ 1) :
    exec (.aspmL1Enter port .l11) s = .next (setLink s port { s.links[port] with pm := 2 }) :=
  (if_neg (not_aspm_refused up enabled)).trans (if_pos ⟨shallower, l11⟩)

theorem aspmL12_enters (l12 : bit s.links[port].en 3 = true) (shallower : s.links[port].pm ≤ 2) (tolerates : ltrUs s port.val = 1000) :
    exec (.aspmL1Enter port .l12) s = .next (setLink s port { s.links[port] with pm := 3 }) :=
  (if_neg (not_aspm_refused up enabled)).trans (if_pos ⟨shallower, l12, tolerates⟩)

end

/-! ## Resets of an upstream port (R578, R612) -/

/-- The state once an upstream port and its switch are reset, before its PF is. -/
def portCleared (s : State) (port : Fin 2) (kind : PortRst) : State :=
  { switchReset { s with boot := { s.boot with
      upLink := s.boot.upLink.set port (decide (kind = .hotReset) && s.boot.upLink[port])
      perst := if kind = .perst then s.boot.perst.set port true else s.boot.perst } } port.val with links := s.links.set port {} }

theorem upstreamPortReset_eq (s : State) (port : Fin 2) (kind : PortRst) : exec (.upstreamPortReset port kind) s =
    .next (settle (if (portCleared s port kind).boot.phase == 8 && (portCleared s port kind).drst.phase == 0
      then flrStart (portCleared s port kind) (BitVec.ofNat 8 (128 * port.val)) else portCleared s port kind)) := rfl

section
variable {s : State} {port : Fin 2} {kind : PortRst}

theorem upstreamPortReset_resets (ready : (portCleared s port kind).boot.phase = 8) (up : (portCleared s port kind).drst.phase = 0) :
    exec (.upstreamPortReset port kind) s
      = .next (settle (flrStart (portCleared s port kind) (BitVec.ofNat 8 (128 * port.val)))) := by
  rw [upstreamPortReset_eq, if_pos (Bool.and_eq_true_iff.mpr ⟨beq_iff_eq.mpr ready, beq_iff_eq.mpr up⟩)]

theorem upstreamPortReset_clears (ready : (portCleared s port kind).boot.phase ≠ 8) :
    exec (.upstreamPortReset port kind) s = .next (settle (portCleared s port kind)) := by
  rw [upstreamPortReset_eq, if_neg fun both => ready (beq_iff_eq.mp (Bool.and_eq_true_iff.mp both).1)]

end

theorem perstDeassert_raises (s : State) (port : Fin 2) : exec (.perstDeassert port) s = .next { s with boot := { s.boot with
    perst := s.boot.perst.set port false
    upLink := if s.boot.phase ≥ 2 then s.boot.upLink.set port true else s.boot.upLink } } := by
  rw [exec_perstDeassert, execPerstDeassert]
  split <;> rfl

/-! ## Downstream slots (R330, R344, R614) -/

theorem presence_trains {s : State} {port : Fin 6} (empty : (tget s.sw port.val ({} : SwPort)).present = false) :
    exec (.presenceDetectChange port) s = .next (trainPort { s with
      sw := tset s.sw port.val { tget s.sw port.val ({} : SwPort) with present := true, pdc := true } } port.val) :=
  if_neg (ne_true_of_eq_false empty)

theorem downstreamLinkLoss_eq (s : State) (port : Fin 6) (removed : Bool) :
    exec (.downstreamLinkLoss ⟨port, removed⟩) s = .next (linkLoss (slotLost s port.val removed) port.val) := rfl

theorem perstRelease_trains {s : State} {port : Fin 6} (up : s.boot.upLink.toList.getD (port.val / 3) false = true) :
    exec (.downstreamPerstRelease port) s
      = .next (trainPort { s with boot := { s.boot with downRst := s.boot.downRst.set port false } } port.val) := if_pos up

/-! ## Ethernet links -/

section
variable {s : State} {port : Port} (eth : runsEth s port = true)
include eth

theorem ethernetLink_falls (up : (getPhy s port).st = 2) : exec (.ethernetLinkDown port) s = .next (setPhy s port
    { getPhy s port with st := 0, lanes := 0, since := s.devTime, cnt := bumpCnt (getPhy s port).cnt 6 1 }) := if_pos ⟨eth, up⟩

theorem ethernetLink_rises (enabled : bit (phyCfg s port) 63 = true) (ready : s.boot.phase = 8) (alive : s.err.fatal = false)
    (down : (getPhy s port).st = 0 ∨ (getPhy s port).st = 1) : exec (.ethernetLinkUp port) s = .next (runShapers (setPhy s port
    { getPhy s port with st := 2, lanes := 8, since := s.devTime }) port) :=
  if_pos ⟨eth, enabled, ready, by simp [alive], down⟩

end

/-- Settles O38: each command's conditions are met, and its effect is the state written out. -/
theorem pollPageAndLinks : Obligations.PollPageAndLinks := by
  unfold Obligations.PollPageAndLinks
  refine ⟨fun s vi ready up alive on => ?poll, fun s port up => ?power, fun s port kind => ?resets, fun s port => ?slots,
    fun s port eth => ?ethernet⟩
  case poll =>
    refine ⟨pollPage_beats ready up alive on, fun dark wakes => ?_⟩
    rw [pollPage_writes ready up alive on dark wakes, pollUpdate_eq]
  case power =>
    exact ⟨fun lanes enabled l0 width fewer => l0p_narrows up enabled l0 width fewer, fun enabled l0 => aspmL1_enters up enabled l0,
      fun enabled l11 shallower => aspmL11_enters up enabled l11 shallower,
      fun enabled l12 shallower tolerates => aspmL12_enters up enabled l12 shallower tolerates, if_pos up⟩
  case resets =>
    intro b s1 s2
    exact ⟨fun ready up => upstreamPortReset_resets ready up, fun ready => upstreamPortReset_clears ready, perstDeassert_raises s port⟩
  case slots => exact ⟨presence_trains, downstreamLinkLoss_eq s port, perstRelease_trains⟩
  case ethernet => exact ⟨ethernetLink_falls eth, ethernetLink_rises eth⟩

end Sys2Proof.Machine

/-! The statement about what comes back from the host, drives and peers (R323-R326, R333, R340, R342-R344). -/

namespace Sys2Proof.Machine

/-! ## Data from the host (R326, R343) -/

section
variable {s : State} {vi : Vi} {q : BitVec 4} {seq : BitVec 48} {d : DOp} (data : List Byte)
  (found : findDescIn s vi q.toNat seq .reading = some d) (live : d.dead = false)
include found live

theorem hostRead_moves : exec (.hostReadCompletion vi q seq .ok data) s = .next (settle (copyMove s d data)) := by
  simp only [exec_hostReadCompletion, execHostReadCompletion, found, live, Bool.false_eq_true, if_false]

theorem hostRead_refused : exec (.hostReadCompletion vi q seq .refused data) s = .next (finish s d 0x05 0x82 0 (dUser d)) := by
  simp only [exec_hostReadCompletion, execHostReadCompletion, found, live, Bool.false_eq_true, if_false]

end

/-! ## NVMe completions and time-outs (R342-R344) -/

section
variable {s : State} {vi : Vi} {q : BitVec 4} {seq : BitVec 48} {d : DOp}
  (found : findDescIn s vi q.toNat seq .drive = some d) (waits : d.st = .drive) (live : d.dead = false)
include found waits live

/-- A drive's error ends the descriptor with the drive's status in DETAIL. -/
theorem nvme_fails {st : BitVec 15} (error : st ≠ 0) (data : List Byte) : exec (.nvmeCompletion vi q seq st data) s =
    .next (finish (unmapWin s d.id) d (if unrecovered st then 0x0A else 0x05) 0x85 0 (st.setWidth 32)) := by
  simp only [exec_nvmeCompletion, execNvmeCompletion, found, waits, live, error, ne_eq, not_true_eq_false, not_false_eq_true,
    Bool.false_eq_true, if_true, if_false]

/-- A success whose data went by the storage data window, or straight to a peer, leaves no bytes to write. -/
theorem nvme_succeeds (clean : d.poisoned = false) (placed : dOp d = 1 → bufSpace d = 0 → usesWindow (unmapWin s d.id) d = true)
    (data : List Byte) : exec (.nvmeCompletion vi q seq 0 data) s =
    .next (finish (unmapWin s d.id) d 0 0 (if dOp d = 3 then 0 else stgBytes s d) (dUser d)) := by
  have written : ¬ (dOp d = 1 ∧ bufSpace d = 0 ∧ !usesWindow (unmapWin s d.id) d) := by
    rintro ⟨read, own, direct⟩
    simp [placed read own] at direct
  simp only [exec_nvmeCompletion, execNvmeCompletion, found, waits, live, clean, written, ne_eq, not_true_eq_false,
    Bool.false_eq_true, if_false]
  rfl

theorem nvme_timesOut (late : tgtTimeout s (dTarget d) * 1000000 ≤ (s.devTime - d.since).toNat) :
    exec (.nvmeCmdTimeout vi q seq) s = .next (finish (unmapWin s d.id) d 0x04 0x86 0 0) := by
  simp only [exec_nvmeCmdTimeout, execNvmeCmdTimeout, found, waits, live, not_lt.mpr late, ne_eq, not_true_eq_false, or_self,
    Bool.false_eq_true, if_false]

end

/-! ## Reads that time out (R323-R325) -/

theorem completionTimeout_ends {s : State} {r : ReadOf} {tag : BitVec 14} {t : Word} (hdr : List Byte) (sent : readSince s r = some t)
    (enabled : (getCfg s (readFn s r)).ctoDis = false) (free : tagRetired s (readFn s r) tag = false)
    (late : ctoNs (getCfg s (readFn s r)).ctoVal ≤ (s.devTime - t).toNat) :
    exec (.completionTimeout r tag hdr) s = .next (settle (timeoutRead (retireTag s (readFn s r) tag hdr) r)) := by
  simp only [exec_completionTimeout, execCompletionTimeout, sent, enabled, free, not_lt.mpr late, decide_false, Bool.or_self,
    Bool.false_eq_true, if_false]

/-! ## The storage data window (R333) -/

theorem winAccess_unmapped {s : State} {port off : Nat} (unmapped : tget? s.stgWin (port * 4194304 + off / 4096) = none) (rid : BitVec 16)
    (r : WinReq) (ext : List Byte) : winAccess s port rid off r ext = raiseErr { s with reply := [], replyPoison := false }
      { cause := 0x01, sev := 0, addr := BitVec.ofNat 64 off, arg0 := rid.setWidth 64 } := by
  simp only [winAccess, unmapped]

section
variable {s : State} {port off id k : Nat} {rid : BitVec 16} {d : DOp} (ext : List Byte)
  (mapped : tget? s.stgWin (port * 4194304 + off / 4096) = some (id, k)) (owner : s.descs.find? (fun d => d.id == id) = some d)
  (live : d.dead = false) (drive : bits (rget s (stgTgtReg (dTarget d))) 15 0 = rid.toNat)
include mapped owner live drive

/-- A drive reads the bytes of the buffer behind the page it was given. -/
theorem winAccess_reads {n : BitVec 13} {t : State} {b : List Byte} {p : Bool} (within : 4096 * k + off % 4096 + n.toNat ≤ stgBytes s d)
    (inPage : off % 4096 + n.toNat ≤ 4096)
    (read : rangeRead s d.vi (dWord d 1 + BitVec.ofNat 64 (4096 * k + off % 4096)) n.toNat ext = some (t, b, p)) :
    winAccess s port rid off (.read n) ext
      = { modDesc t id (fun x => { x with poisoned := x.poisoned || p }) with reply := b, replyPoison := p } := by
  simp only [winAccess, mapped, owner, drive, live, read, not_lt.mpr within, not_lt.mpr inPage, ne_eq, not_true_eq_false, or_self,
    Bool.false_eq_true, if_false]

theorem winAccess_writes {b : List Byte} {t : State} (within : 4096 * k + off % 4096 + b.length ≤ stgBytes s d)
    (inPage : off % 4096 + b.length ≤ 4096)
    (written : rangeWriteBy s d.vi (dWord d 1 + BitVec.ofNat 64 (4096 * k + off % 4096)) b (.desc id) = some t) :
    winAccess s port rid off (.write b false) ext = t := by
  simp only [winAccess, mapped, owner, drive, live, written, not_lt.mpr within, not_lt.mpr inPage, ne_eq, not_true_eq_false, or_self,
    Bool.false_eq_true, if_false, Option.getD_some]

end

/-! ## NVMe/TCP (R340) -/

theorem tcpRetransmit_sends {s : State} {target : BitVec 6} {p : Port} {data : List Byte}
    (port : portOfNat (bits (rget s (stgTgtReg target.toNat)) 59 56) = some p) (tcp : bits (rget s (stgTgtReg target.toNat)) 61 60 = 2)
    (bound : bits (rget s (stgTgtReg target.toNat)) 63 62 = 1 ∨ bits (rget s (stgTgtReg target.toNat)) 63 62 = 3)
    (duty : slowUp s (p.val / 3) = true) (eth : runsEth s p = true) (least : 14 ≤ data.length) (most : data.length + 4 ≤ maxFrame s p) :
    exec (.tcpRetransmit target data) s = .next (toIris s p { kind := 2, data := data }) := by
  simp only [exec_tcpRetransmit, execTcpRetransmit, port]
  exact if_pos ⟨tcp, bound, duty, eth, least, most⟩

/-- Settles O40: what comes back finds its descriptor, read or page, and ends or serves it. -/
theorem completionsArrive : Obligations.CompletionsArrive := by
  unfold Obligations.CompletionsArrive
  intro s vi q seq data
  refine ⟨fun d found live => ⟨hostRead_moves data found live, hostRead_refused data found live⟩, fun d found waits live => ?nvme,
    fun r tag hdr t sent enabled free late => completionTimeout_ends hdr sent enabled free late,
    fun fn tag hdr retired => if_pos retired, fun port rid off r ext => ⟨fun unmapped => ?refused, fun id k d mapped owner live drive => ?served⟩,
    fun target p => ?retransmits⟩
  case nvme =>
    exact ⟨fun st error => nvme_fails found waits live error data, fun clean placed => nvme_succeeds found waits live clean placed data,
      nvme_timesOut found waits live⟩
  case refused => exact congrArg _ (winAccess_unmapped unmapped rid r ext)
  case served =>
    refine ⟨?reads, ?writes⟩
    case reads =>
      rintro n rfl within inPage t b p read
      exact congrArg _ (winAccess_reads ext mapped owner live drive within inPage read)
    case writes =>
      rintro b t rfl within inPage written
      exact congrArg _ (winAccess_writes ext mapped owner live drive within inPage written)
  case retransmits =>
    intro w port tcp bound duty eth least most
    exact tcpRetransmit_sends port tcp bound duty eth least most

end Sys2Proof.Machine

/-! The registers of a port block and the buffers of a Prism: 64-bit registers written from bytes and read back
as bytes (R354, R360, R363). -/

namespace Sys2Proof.Machine

/-! ## Bytes of a number -/

@[simp] theorem length_toBytes (n v : Nat) : (toBytes n v).length = n := by
  induction n generalizing v with
  | zero => rfl
  | succ n ih => exact congrArg Nat.succ (ih _)

theorem toBytes_ofBytes (l : List Byte) : toBytes l.length (ofBytes l) = l := by
  induction l with
  | nil => rfl
  | cons b r ih =>
    have low : BitVec.ofNat 8 (b.toNat + 256 * ofBytes r) = b := BitVec.eq_of_toNat_eq (by
      rw [BitVec.toNat_ofNat]
      omega)
    have high : (b.toNat + 256 * ofBytes r) / 256 = ofBytes r := by omega
    simp only [ofBytes, List.length_cons, toBytes, low, high, ih]

/-- Eight bytes are the word they make. -/
theorem toBytes_word {l : List Byte} (h : l.length = 8) : toBytes 8 (BitVec.ofNat 64 (ofBytes l)).toNat = l := by
  have fits := ofBytes_lt l
  rw [h] at fits
  rw [BitVec.toNat_ofNat, Nat.mod_eq_of_lt fits, ← h, toBytes_ofBytes]

/-! ## Registers of port blocks -/

theorem prmReg_ne (p : Port) {a b : Nat} (h : a ≠ b) : prmReg p a ≠ prmReg p b := by
  unfold prmReg portReg
  omega

theorem portReg_ne_prmReg (q p : Port) {a b : Nat} (ha : a < 0x10000) (hb : b < 0x10000) (h : a ≠ b) : portReg q a ≠ prmReg p b := by
  unfold prmReg portReg
  omega

theorem devReg_ne_prmReg (p : Port) (b : Nat) {a : Nat} (h : a < 0x10000) : devReg a ≠ prmReg p b := by
  unfold devReg prmReg portReg
  omega

theorem viReg_ne_prmReg (vi : Vi) (p : Port) (b : Nat) {a : Nat} (h : a < 0x1000) : viReg vi a ≠ prmReg p b := by
  have last := vi.isLt
  unfold viReg prmReg portReg
  omega

/-! ## Buffers -/

/-- Registers that agree hold the same bytes. -/
theorem getWords_congr {s u : State} {k n : Nat} (h : ∀ i < n, rget u (k + 8 * i) = rget s (k + 8 * i)) :
    getWords u k n = getWords s k n := by
  induction n generalizing k with
  | zero => rfl
  | succ n ih =>
    have first : rget u k = rget s k := h 0 (Nat.succ_pos n)
    have rest : getWords u (k + 8) n = getWords s (k + 8) n := ih fun i hi => by
      have next := h (i + 1) (by omega)
      rwa [show k + 8 * (i + 1) = k + 8 + 8 * i by omega] at next
    rw [getWords, getWords, first, rest]

/-- A buffer filled changes its own registers alone. -/
theorem regsOnly_putWords (s : State) (k : Nat) (b : List Byte) (n : Nat) :
    RegsOnly ((List.range n).map (fun i => k + 8 * i)) s (putWords s k b n) := by
  induction n generalizing s k b with
  | zero => exact .refl _ s
  | succ n ih =>
    refine (regsOnly_rset (.refl _ s) (k := k) ?first).trans ((ih ..).mono ?rest)
    case first => exact List.mem_map.mpr ⟨0, by simp, rfl⟩
    case rest =>
      intro m hm
      obtain ⟨i, hi, rfl⟩ := List.mem_map.mp hm
      exact List.mem_map.mpr ⟨i + 1, by simpa using hi, by omega⟩

theorem rget_putWords_ne {s : State} {k n m : Nat} (b : List Byte) (h : ∀ i < n, m ≠ k + 8 * i) :
    rget (putWords s k b n) m = rget s m := by
  refine (regsOnly_putWords s k b n).2 m fun hm => ?_
  obtain ⟨i, hi, rfl⟩ := List.mem_map.mp hm
  exact h i (List.mem_range.mp hi) rfl

/-- The first registers of a buffer just filled read as the first bytes. -/
theorem getWords_putWords (s : State) (k : Nat) (b : List Byte) (n m : Nat) (h : 8 * n ≤ b.length) :
    getWords (putWords s k b (n + m)) k n = b.take (8 * n) := by
  induction n generalizing s k b with
  | zero => rfl
  | succ n ih =>
    have first : (b.take 8).length = 8 := List.length_take_of_le (by omega)
    rw [Nat.succ_add, putWords, getWords, rget_putWords_ne _ (by omega), rget_rset_self, toBytes_word first,
      ih _ _ _ (by rw [List.length_drop]; omega), Nat.mul_succ, Nat.add_comm, List.take_add]

end Sys2Proof.Machine

/-! The statement about the commands of a port's Prism: rules, templates, banks and flows (R348-R356, R360, R363). -/

namespace Sys2Proof.Machine

/-! ## The word of a command -/

section
variable {a k op : Nat}

/-- OP of a command's word, below its argument. -/
theorem bits_command_op (hk : 4 ≤ k) (hop : op < 2 ^ 4) : bits (at_ a k ||| at_ op 0) 3 0 = op := by
  refine Nat.eq_of_testBit_eq fun i => ?_
  have above (hi : i < 4) : ¬ k ≤ i := by omega
  have small (hi : 4 ≤ i) : op.testBit i = false :=
    Nat.testBit_lt_two_pow (hop.trans_le (Nat.pow_le_pow_right (by decide) hi))
  simp only [testBit_bits, at_, BitVec.getLsbD_or, BitVec.getLsbD_ofNat, Nat.testBit_shiftLeft, Nat.zero_add, Nat.sub_zero]
  by_cases hi : i < 4
  · have word : i < 64 := by omega
    simp [hi, word, above hi]
  · simp [hi, small (by omega)]

/-- Argument of a command's word, above its OP. -/
theorem bits_command_arg {hi : Nat} (hk : 4 ≤ k) (hhi : hi < 64) (hop : op < 2 ^ 4) (ha : a < 2 ^ (hi + 1 - k)) :
    bits (at_ a k ||| at_ op 0) hi k = a := by
  refine Nat.eq_of_testBit_eq fun i => ?_
  have small : op.testBit (k + i) = false :=
    Nat.testBit_lt_two_pow (hop.trans_le (Nat.pow_le_pow_right (by decide) (hk.trans (Nat.le_add_right k i))))
  simp only [testBit_bits, at_, BitVec.getLsbD_or, BitVec.getLsbD_ofNat, Nat.testBit_shiftLeft, Nat.zero_le, decide_true, Nat.sub_zero,
    small, Nat.le_add_right, Nat.add_sub_cancel_left, Bool.and_false, Bool.or_false, Bool.true_and]
  by_cases inside : i < hi + 1 - k
  · have word : k + i < 64 := by omega
    simp [inside, word]
  · simp [inside, Nat.testBit_lt_two_pow (ha.trans_le (Nat.pow_le_pow_right (by decide) (not_lt.mp inside)))]

end

/-! ## What the command registers are not read for -/

section
variable {s : State} {p : Port} {off : Nat} (v : Word)

/-- Whether an action may be written depends on the configuration of ports, which a command register is not. -/
theorem badAction_rset (h : off < 0x8000) (b : Bank) (a : List Byte) : badAction (rset s (prmReg p off) v) b a = badAction s b a := by
  have eth (q : Port) : runsEth (rset s (prmReg p off) v) q = runsEth s q := by
    have other : portReg q 0x8000 ≠ prmReg p off := portReg_ne_prmReg q p (by decide) (by omega) (by omega)
    simp only [runsEth, portUse, phyCfg, rget_rset_ne s v other]
  simp only [badAction, funext eth]

theorem getWords_rset {buf : Nat} (n : Nat) (h : off < buf) :
    getWords (rset s (prmReg p off) v) (prmReg p buf) n = getWords s (prmReg p buf) n :=
  getWords_congr fun i _ => rget_rset_ne s v (by unfold prmReg portReg; omega)

theorem pickCtx_rset (vi : Vi) : pickCtx (rset s (prmReg p off) v) vi = pickCtx s vi := by
  have limits : rget (rset s (prmReg p off) v) (viReg vi 0x38) = rget s (viReg vi 0x38) :=
    rget_rset_ne s v (viReg_ne_prmReg vi p off (by decide))
  have store : rget (rset s (prmReg p off) v) (devReg 0x4030) = rget s (devReg 0x4030) :=
    rget_rset_ne s v (devReg_ne_prmReg p off (by decide))
  simp only [pickCtx, allocCtx, ctxLimit, limits, store]
  rfl

/-- A write to host memory, held or not, and a register do not meet. -/
theorem hostPut_rset (s : State) (fn : Fn) (bus : Nat) (d : List Byte) (k : Nat) :
    hostPut (rset s k v) fn bus d = rset (hostPut s fn bus d) k v := by
  by_cases master : busMaster s fn = true
  · have still : busMaster (rset s k v) fn = true := master
    simp only [hostPut, master, still, if_true]
    rfl
  · have still : ¬ busMaster (rset s k v) fn = true := master
    simp only [hostPut, master, still]
    rfl

/-- Context `n` is written to its place in host memory (R207). -/
def storeCtx (s : State) (n : Nat) : State :=
  nextFree (hostPut s s.ctxFn (ctxAddr s n) ((List.range 2048).map (fun i => freeBits s 8 (0x2070000 + i))))

theorem putCtx_eq (s : State) (n : Nat) (c : Ctx) :
    putCtx s n c = if n < 1048576 then { s with ctxs := tset s.ctxs n c } else storeCtx { s with ctxs := tset s.ctxs n c } n := rfl

theorem storeCtx_rset (s : State) (n : Nat) : storeCtx (rset s (prmReg p off) v) n = rset (storeCtx s n) (prmReg p off) v := by
  have place : ctxAddr (rset s (prmReg p off) v) n = ctxAddr s n := by
    unfold ctxAddr
    rw [rget_rset_ne s v (devReg_ne_prmReg p off (by decide))]
  simp only [storeCtx, place, rset_ctxFn, freeBits, rset_free, hostPut_rset]
  rfl

/-- A context, here or in host memory, and a command register do not meet. -/
theorem putCtx_rset (n : Nat) (c : Ctx) : putCtx (rset s (prmReg p off) v) n c = rset (putCtx s n c) (prmReg p off) v := by
  rw [putCtx_eq, putCtx_eq]
  by_cases here : n < 1048576
  · rw [if_pos here, if_pos here]
    rfl
  · rw [if_neg here, if_neg here]
    exact storeCtx_rset v { s with ctxs := tset s.ctxs n c } n

theorem newCtx_rset (vi : Vi) (n : Nat) (c : Ctx) : newCtx (rset s (prmReg p off) v) vi n c = rset (newCtx s vi n c) (prmReg p off) v := by
  unfold newCtx
  rw [putCtx_rset]
  rfl

end

/-! ## Commands of `PRM_CMD` (R350-R356, R360) -/

/-- The state in which a command runs: `PRM_CMD` holds it. -/
def prmOpened (s : State) (p : Port) (op i : Nat) : State :=
  rset s (prmReg p 0x10) (opKept (rget s (prmReg p 0x10)) ((at_ i 16 ||| at_ op 0) &&& 0x7FF000F) 7)

/-- What each OP does once `PRM_CMD` holds it. -/
def prmPerform (p : Port) (pass : Bool) (op i : Nat) (s : State) : State :=
  match op with
  | 1 => ruleWrite p i s
  | 2 => ruleRead p i s
  | 3 => ruleClear p i s
  | 4 => prmCommit p s
  | 5 => prmTest p pass s
  | 6 => tplWrite p i s
  | 7 => tplRead p i s
  | _ => prmDone s p (0x0B, 0x80)

/-- With no command before it, a command is performed at once. -/
theorem prmCmdWr_performs {s : State} {p : Port} (free : statBusy s (prmStat p) = false) (pass : Bool) {op : Nat} (i : BitVec 11)
    (known : op ≠ 0 ∧ op < 2 ^ 4) :
    prmCmdWr p pass (at_ i.toNat 16 ||| at_ op 0) s = prmPerform p pass op i.toNat (prmOpened s p op i.toNat) := by
  have still (v : Word) : statBusy (rset s (prmReg p 0x10) v) (prmStat p) = false := by
    rw [statBusy, prmStat, rget_rset_ne s v (prmReg_ne p (by decide))]
    exact free
  have arg : bits (at_ i.toNat 16 ||| at_ op 0) 26 16 = i.toNat := bits_command_arg (by decide) (by decide) known.2 i.isLt
  have code : bits (at_ i.toNat 16 ||| at_ op 0) 3 0 = op := bits_command_op (by decide) known.2
  simp only [prmCmdWr, free, still, arg, code, known.1, Bool.false_eq_true, if_false]
  rfl

theorem rget_prmDone_ne (s : State) {p : Port} {off : Nat} (r : BitVec 8 × BitVec 8) (h : off ≠ 0x8) :
    rget (prmDone s p r) (prmReg p off) = rget s (prmReg p off) := rget_statDone_ne s r (prmReg_ne p h)

section
variable {s : State} {fn : Fn} {p : Port}

/-- A command that touches no thread ends in what it makes of the state that holds it. -/
theorem prmCmd_completes (h : PrmIdle s fn p 0x10) {pass : Bool} {op : Nat} {i : BitVec 11} {u : State} {r : BitVec 8 × BitVec 8}
    (done : prmPerform p pass op i.toNat (prmOpened s p op i.toNat) = prmDone u p r) (ht : u.threads = s.threads)
    (known : op ≠ 0 ∧ op < 2 ^ 4 := by decide) : prmCmd fn p op i.toNat pass s = .next (prmDone u p r) :=
  hostPf_ok h.pf h.reach ((prmCmdWr_performs h.free pass i known).trans done) ht

/-- One that changes Prisms alone. -/
theorem prmCmd_answers (h : PrmIdle s fn p 0x10) {pass : Bool} {op : Nat} {i : BitVec 11} {t : Tab Prism} {r : BitVec 8 × BitVec 8}
    (done : prmPerform p pass op i.toNat (prmOpened s p op i.toNat) = prmDone { prmOpened s p op i.toNat with prism := t } p r)
    (known : op ≠ 0 ∧ op < 2 ^ 4 := by decide) :
    answers (prmCmd fn p op i.toNat pass s) { s with prism := t } [prmReg p 0x10] (prmStat p) r.1 r.2 :=
  answers_intro (prmCmd_completes h done rfl known) (regsOnly_rset (.refl _ { s with prism := t }) (by simp))

theorem getWords_opened (op i n : Nat) : getWords (prmOpened s p op i) (prmReg p 0x1000) n = getWords s (prmReg p 0x1000) n :=
  getWords_rset _ n (by decide)

theorem badAction_opened (op i : Nat) (b : Bank) (a : List Byte) : badAction (prmOpened s p op i) b a = badAction s b a :=
  badAction_rset _ (by decide) b a

/-! ## Rules, templates and banks (R350-R356, R360) -/

/-- STATUS and DETAIL of a TEST, by whether it found the banks sound (R351). -/
def testCodes (pass : Bool) : BitVec 8 × BitVec 8 := if pass then (0, 0) else (0x05, 0x83)

section
variable {i : Nat} (free : (getPrism s p).copying = false)
include free

theorem ruleWrite_writes (good : badAction s (getPrism s p).shadow (ruleAction (getWords s (prmReg p 0x1000) 24)) = false) :
    ruleWrite p i s = prmDone (setPrism s p { getPrism s p with
      shadow := { (getPrism s p).shadow with rules := tset (getPrism s p).shadow.rules i (getWords s (prmReg p 0x1000) 24) } })
      p (0, 0) := by
  simp only [ruleWrite, free, good, Bool.false_eq_true, if_false]

theorem ruleWrite_refuses (bad : badAction s (getPrism s p).shadow (ruleAction (getWords s (prmReg p 0x1000) 24)) = true) :
    ruleWrite p i s = prmDone s p (0x0B, 0x80) := by
  simp only [ruleWrite, free, bad, Bool.false_eq_true, if_false, if_true]

theorem tplWrite_writes (inside : i ≤ 63) (good : tplOk (getWords s (prmReg p 0x1000) 16) = true) :
    tplWrite p i s = prmDone (setPrism s p { getPrism s p with
      shadow := { (getPrism s p).shadow with tpls := tset (getPrism s p).shadow.tpls i (getWords s (prmReg p 0x1000) 16) } }) p (0, 0) := by
  have accepted : ¬ (i > 63 ∨ (!tplOk (getWords s (prmReg p 0x1000) 16)) = true) := by simpa [good] using inside
  simp only [tplWrite, free, accepted, Bool.false_eq_true, if_false]

omit i in
theorem prmCommit_exchanges : prmCommit p s = prmDone (setPrism s p { getPrism s p with
    bank := !(getPrism s p).bank, active := (getPrism s p).shadow, shadow := (getPrism s p).active, copying := true }) p (0, 0) := by
  simp only [prmCommit, free, Bool.false_eq_true, if_false]

omit i in
theorem prmTest_clears (running : (getPrism s p).cur ≠ 2) (pass : Bool) :
    prmTest p pass s = prmDone (setPrism s p { getPrism s p with active := {}, shadow := {} }) p (testCodes pass) := by
  simp only [prmTest, testCodes, free, running, Bool.false_eq_true, if_false]

end

/-! ## The buffer as a read leaves it -/

/-- A buffer filled and a command complete: registers alone have changed. -/
theorem prmFilled_same (w : State) (k : Nat) (b : List Byte) (n : Nat) (r : BitVec 8 × BitVec 8) :
    prmDone (putWords w k b n) p r = { w with regs := (prmDone (putWords w k b n) p r).regs } := by
  rw [(regsOnly_putWords w k b n).1]
  rfl

/-- The first bytes of what a read fills in stand in the buffer once it is complete. -/
theorem getWords_prmFilled (w : State) (b : List Byte) (n m : Nat) (r : BitVec 8 × BitVec 8) (h : 8 * n ≤ b.length) :
    getWords (prmDone (putWords w (prmReg p 0x1000) b (n + m)) p r) (prmReg p 0x1000) n = b.take (8 * n) := by
  refine (getWords_congr fun i _ => rget_statDone_ne _ r ?_).trans (getWords_putWords w _ b n m h)
  unfold prmStat prmReg portReg
  omega

theorem putWords_threads (w : State) (k : Nat) (b : List Byte) (n : Nat) : (putWords w k b n).threads = w.threads := by
  rw [(regsOnly_putWords w k b n).1]

/-! ## The commands -/

section
variable (h : PrmIdle s fn p 0x10) (i : BitVec 11)
include h

section
variable (free : (getPrism s p).copying = false)
include free

theorem ruleWrite_answers (good : badAction s (getPrism s p).shadow (ruleAction (getWords s (prmReg p 0x1000) 24)) = false) :
    answers (exec (.ruleWrite fn p i) s) (setPrism s p { getPrism s p with
        shadow := { (getPrism s p).shadow with rules := tset (getPrism s p).shadow.rules i.toNat (getWords s (prmReg p 0x1000) 24) } })
      [prmReg p 0x10] (prmStat p) 0 0 := by
  have done := ruleWrite_writes (s := prmOpened s p 1 i.toNat) (i := i.toNat) free (by rwa [getWords_opened, badAction_opened])
  rw [getWords_opened] at done
  exact prmCmd_answers (op := 1) (pass := true) h done

theorem ruleWrite_answersBadAction (bad : badAction s (getPrism s p).shadow (ruleAction (getWords s (prmReg p 0x1000) 24)) = true) :
    answers (exec (.ruleWrite fn p i) s) s [prmReg p 0x10] (prmStat p) 0x0B 0x80 :=
  prmCmd_answers (op := 1) (pass := true) (t := s.prism) h
    (ruleWrite_refuses (s := prmOpened s p 1 i.toNat) free (by rwa [getWords_opened, badAction_opened]))

theorem tplWrite_answers (inside : i.toNat ≤ 63) (good : tplOk (getWords s (prmReg p 0x1000) 16) = true) :
    answers (exec (.tplWrite fn p i) s) (setPrism s p { getPrism s p with
        shadow := { (getPrism s p).shadow with tpls := tset (getPrism s p).shadow.tpls i.toNat (getWords s (prmReg p 0x1000) 16) } })
      [prmReg p 0x10] (prmStat p) 0 0 := by
  have done := tplWrite_writes (s := prmOpened s p 6 i.toNat) free inside (by rwa [getWords_opened])
  rw [getWords_opened] at done
  exact prmCmd_answers (op := 6) (pass := true) h done

omit i in
theorem commit_answers : answers (exec (.commit fn p) s)
    (setPrism s p { getPrism s p with
      bank := !(getPrism s p).bank, active := (getPrism s p).shadow, shadow := (getPrism s p).active, copying := true })
    [prmReg p 0x10] (prmStat p) 0 0 :=
  prmCmd_answers (op := 4) (i := 0) (pass := true) h (prmCommit_exchanges (s := prmOpened s p 4 0) free)

omit i in
/-- TEST clears both banks whatever it finds. -/
theorem test_answers (running : (getPrism s p).cur ≠ 2) (pass : Bool) :
    answers (exec (.test fn p pass) s) (setPrism s p { getPrism s p with active := {}, shadow := {} }) [prmReg p 0x10] (prmStat p)
      (testCodes pass).1 (testCodes pass).2 :=
  prmCmd_answers (op := 5) (i := 0) h (prmTest_clears (s := prmOpened s p 5 0) free running pass)

end

omit i in
theorem commit_answersBusy (copying : (getPrism s p).copying = true) :
    answers (exec (.commit fn p) s) s [prmReg p 0x10] (prmStat p) 1 0x81 :=
  prmCmd_answers (op := 4) (i := 0) (pass := true) (t := s.prism) h (if_pos copying)

theorem ruleClear_answers : answers (exec (.ruleClear fn p i) s)
    (setPrism s p { getPrism s p with cnts := tdel (getPrism s p).cnts i.toNat }) [prmReg p 0x10] (prmStat p) 0 0 :=
  prmCmd_answers (op := 3) (pass := true) (i := i) h rfl

/-- RULE_READ fills the rule in, and its counters behind it. -/
theorem ruleRead_fills (whole : (tget (getPrism s p).shadow.rules i.toNat (List.replicate 192 0)).length = 192) :
    ∃ u, exec (.ruleRead fn p i) s = .next u ∧ u = { s with regs := u.regs } ∧ reports u (prmStat p) 0 0
      ∧ getWords u (prmReg p 0x1000) 24 = tget (getPrism s p).shadow.rules i.toNat (List.replicate 192 0) := by
  refine ⟨_, prmCmd_completes (op := 2) (pass := true) (i := i) h rfl (putWords_threads ..),
    prmFilled_same (prmOpened s p 2 i.toNat) .., reports_statDone .., ?words⟩
  refine (getWords_prmFilled _ _ 24 2 _ ?long).trans (List.take_left' whole)
  rw [List.length_append]
  exact (le_of_eq whole.symm).trans (Nat.le_add_right ..)

theorem tplRead_fills (inside : i.toNat ≤ 63) (whole : (tget (getPrism s p).shadow.tpls i.toNat (List.replicate 128 0)).length = 128) :
    ∃ u, exec (.tplRead fn p i) s = .next u ∧ u = { s with regs := u.regs } ∧ reports u (prmStat p) 0 0
      ∧ getWords u (prmReg p 0x1000) 16 = tget (getPrism s p).shadow.tpls i.toNat (List.replicate 128 0) := by
  refine ⟨_, prmCmd_completes (op := 7) (pass := true) (i := i) h (if_neg (not_lt.mpr inside)) (putWords_threads ..),
    prmFilled_same (prmOpened s p 7 i.toNat) .., reports_statDone .., ?words⟩
  exact (getWords_prmFilled _ _ 16 0 _ (le_of_eq whole.symm)).trans (List.take_of_length_le (le_of_eq whole))

end
end

/-! ## The end of a bank copy, and an error in a bank (R350, R352) -/

theorem bankCopy_ends {s : State} {p : Port} (copying : (getPrism s p).copying = true) :
    exec (.bankCopyComplete p) s = .next (setPrism s p { getPrism s p with shadow := (getPrism s p).active, copying := false }) :=
  if_pos copying

theorem bankError_falls {s : State} {p : Port} (rules : (getPrism s p).cur = 2) : exec (.bankError p) s = .next (raiseErr
    (prismDrop (setPrism s p { getPrism s p with cur := if bit (prmMode s p) 4 && bit (rget s (prmReg p 0x18)) 0 then 1 else 0 }) p.val 14)
    { cause := 0x0B, sev := 2, unit := quadUd s (portQuad p).toNat, arg0 := BitVec.ofNat 64 p.val }) :=
  if_neg (not_not.mpr rules)

/-! ## Commands of `PRM_FLOW_CMD` (R362, R363) -/

/-- The state in which a flow command runs: `PRM_FLOW_CMD` holds it. -/
def flowOpened (s : State) (p : Port) (v : Word) : State :=
  rset s (prmReg p 0x400) (opKept (rget s (prmReg p 0x400)) (v &&& 0xFFFFFF000000FF0F) 3)

/-- What each OP does once `PRM_FLOW_CMD` holds it. -/
def flowPerform (p : Port) (op : Nat) (vi : Vi) (n : Nat) (s : State) : State :=
  match op with
  | 1 => flowInsert p vi s
  | 2 => flowRemove p n s
  | 3 => flowRead p n s
  | _ => prmDone s p (0x0B, 0x80)

/-- With no command before it, a flow command is performed at once. -/
theorem prmFlowWr_performs {s : State} {p : Port} (free : statBusy s (prmStat p) = false) {v : Word} (known : bits v 3 0 ≠ 0) :
    prmFlowWr p v s = flowPerform p (bits v 3 0) (BitVec.ofNat 8 (bits v 15 8)) (bits v 63 40) (flowOpened s p v) := by
  have still (w : Word) : statBusy (rset s (prmReg p 0x400) w) (prmStat p) = false := by
    rw [statBusy, prmStat, rget_rset_ne s w (prmReg_ne p (by decide))]
    exact free
  simp only [prmFlowWr, free, still, known, Bool.false_eq_true, if_false]
  rfl

section
variable {s : State} {fn : Fn} {p : Port}

/-- A flow command that touches no thread ends in what it makes of the state that holds it. -/
theorem flow_completes (h : PrmIdle s fn p 0x400) {v : Word} {op : Nat} {u : State} {r : BitVec 8 × BitVec 8} (code : bits v 3 0 = op)
    (done : flowPerform p op (BitVec.ofNat 8 (bits v 15 8)) (bits v 63 40) (flowOpened s p v) = prmDone u p r)
    (ht : u.threads = s.threads) (known : op ≠ 0 := by decide) :
    hostPf fn (portOff p 0x400) v (prmFlowWr p v) s = .next (prmDone u p r) := by
  subst code
  exact hostPf_ok h.pf h.reach ((prmFlowWr_performs h.free known).trans done) ht

/-! ### INSERT -/

/-- The key that the buffer holds for INSERT (R361, R363). -/
def bufKey (s : State) (p : Port) : List Byte := flowKey (getWords s (prmReg p 0x1100) 16)

/-- The action that the buffer holds for INSERT (R363). -/
def bufAction (s : State) (p : Port) : List Byte := ((getWords s (prmReg p 0x1100) 16).drop 0x30).take 48

theorem flowInsert_inserts {vi : Vi} {n : Nat} (good : badAction s (getPrism s p).active (bufAction s p) = false)
    (new : flowExists s (bufKey s p) = false) (room : flowCount s < 1048576) (ctx : pickCtx s vi = .ok n) :
    flowInsert p vi s =
      let u := newCtx s vi n (.flow vi (bufKey s p) (bufAction s p) {})
      prmDone (rset u (prmReg p 0x400) (setBits (rget u (prmReg p 0x400)) 63 40 n)) p (0, 0) := by
  unfold bufAction at good
  unfold bufKey at new
  have fewer : ¬ flowCount s ≥ 1048576 := not_le.mpr room
  simp only [flowInsert, good, new, fewer, ctx, Bool.false_eq_true, if_false]
  rfl

/-- The state that holds a flow command is as good as the one before it for an INSERT. -/
theorem flowInsert_opened (v : Word) {vi : Vi} {n : Nat} (good : badAction s (getPrism s p).active (bufAction s p) = false)
    (new : flowExists s (bufKey s p) = false) (room : flowCount s < 1048576) (ctx : pickCtx s vi = .ok n) :
    ∃ w, flowInsert p vi (flowOpened s p v)
      = prmDone (rset (rset (newCtx s vi n (.flow vi (bufKey s p) (bufAction s p) {})) (prmReg p 0x400) w) (prmReg p 0x400)
        (setBits w 63 40 n)) p (0, 0) := by
  have buf : getWords (flowOpened s p v) (prmReg p 0x1100) 16 = getWords s (prmReg p 0x1100) 16 := getWords_rset _ 16 (by decide)
  have key : bufKey (flowOpened s p v) p = bufKey s p := congrArg flowKey buf
  have act : bufAction (flowOpened s p v) p = bufAction s p := congrArg (fun b => (b.drop 0x30).take 48) buf
  have done := flowInsert_inserts (s := flowOpened s p v) (p := p) (vi := vi) (n := n)
    (by rw [act]; exact (badAction_rset _ (by decide) ..).trans good) (by rw [key]; exact new) room ((pickCtx_rset _ vi).trans ctx)
  rw [key, act] at done
  unfold flowOpened at done
  simp only [newCtx_rset, rget_rset_self] at done
  exact ⟨_, done⟩

theorem flowInsert_answers (h : PrmIdle s fn p 0x400) {vi : Vi} {n : Nat}
    (good : badAction s (getPrism s p).active (bufAction s p) = false) (new : flowExists s (bufKey s p) = false)
    (room : flowCount s < 1048576) (ctx : pickCtx s vi = .ok n) :
    answers (exec (.flowInsert fn p vi) s) (newCtx s vi n (.flow vi (bufKey s p) (bufAction s p) {})) [prmReg p 0x400] (prmStat p) 0 0
    ∧ (n < 2 ^ 24 → ∃ u, exec (.flowInsert fn p vi) s = .next u ∧ bits (rget u (prmReg p 0x400)) 63 40 = n) := by
  have code : bits (at_ vi.toNat 8 ||| at_ 1 0) 3 0 = 1 := bits_command_op (by decide) (by decide)
  have owner : BitVec.ofNat 8 (bits (at_ vi.toNat 8 ||| at_ 1 0) 15 8) = vi := by
    rw [bits_command_arg (by decide) (by decide) (by decide) vi.isLt, BitVec.ofNat_toNat, BitVec.setWidth_eq]
  obtain ⟨w, made⟩ := flowInsert_opened (at_ vi.toNat 8 ||| at_ 1 0) good new room ctx
  have done : exec (.flowInsert fn p vi) s = _ := flow_completes h code
    ((congrArg (flowInsert p · (flowOpened s p _)) owner).trans made) (newCtx_threads s vi n _)
  refine ⟨answers_intro done (regsOnly_rset (regsOnly_rset (.refl _ _) (by simp)) (by simp)), fun fits => ⟨_, done, ?number⟩⟩
  rw [rget_prmDone_ne _ _ (by decide), rget_rset_self, bits_setBits_self _ _ _ _ (by decide)]
  exact Nat.mod_eq_of_lt fits

/-! ### REMOVE and READ -/

theorem flowRemove_frees {n : Nat} {o : Vi} {key act : List Byte} {c : FCount} (found : getFlow s n = some (o, key, act, c))
    (near : ctxReachable s n = true) : flowRemove p n s = prmDone (freeCtx s o n) p (0, 0) := by
  simp only [flowRemove, found, near, if_true]

theorem flowRemove_unknown {n : Nat} (absent : getFlow s n = none) : flowRemove p n s = prmDone s p (0x05, 0x85) := by
  simp only [flowRemove, absent]

theorem flowRead_fills {n : Nat} {o : Vi} {key act : List Byte} {c : FCount} (found : getFlow s n = some (o, key, act, c))
    (near : ctxReachable s n = true) :
    flowRead p n s = prmDone (putWords s (prmReg p 0x1100) (key ++ act ++ fcountBytes c) 14) p (0, 0) := by
  simp only [flowRead, found, near, Bool.not_true, Bool.false_eq_true, if_false]

section
variable (h : PrmIdle s fn p 0x400) {ctx : BitVec 24}
include h

/-- A flow command on a context that touches no thread, from its effect on that context. -/
theorem flowCtx_completes {op : Nat} {u : State} {r : BitVec 8 × BitVec 8}
    (done : ∀ vi, flowPerform p op vi ctx.toNat (flowOpened s p (at_ ctx.toNat 40 ||| at_ op 0)) = prmDone u p r)
    (ht : u.threads = s.threads) (known : op ≠ 0 ∧ op < 2 ^ 4 := by decide) :
    hostPf fn (portOff p 0x400) (at_ ctx.toNat 40 ||| at_ op 0) (prmFlowWr p (at_ ctx.toNat 40 ||| at_ op 0)) s = .next (prmDone u p r) :=
  flow_completes h (bits_command_op (by decide) known.2)
    ((congrArg (flowPerform p op _ · _) (bits_command_arg (by decide) (by decide) known.2 ctx.isLt)).trans (done _)) ht known.1

variable {o : Vi} {key act : List Byte} {c : FCount}

theorem flowRemove_answers (found : getFlow s ctx.toNat = some (o, key, act, c)) (near : ctxReachable s ctx.toNat = true) :
    answers (exec (.flowRemove fn p ctx) s) (freeCtx s o ctx.toNat) [prmReg p 0x400] (prmStat p) 0 0 :=
  answers_intro (flowCtx_completes (op := 2) h (fun _ => flowRemove_frees (s := flowOpened s p _) found near) rfl)
    (regsOnly_rset (.refl _ (freeCtx s o ctx.toNat)) (by simp))

theorem flowRemove_answersUnknown (absent : getFlow s ctx.toNat = none) :
    answers (exec (.flowRemove fn p ctx) s) s [prmReg p 0x400] (prmStat p) 5 0x85 :=
  answers_intro (flowCtx_completes (op := 2) h (fun _ => flowRemove_unknown (s := flowOpened s p _) absent) rfl)
    (regsOnly_rset (.refl _ s) (by simp))

theorem flowRead_reports (found : getFlow s ctx.toNat = some (o, key, act, c)) (near : ctxReachable s ctx.toNat = true) :
    ∃ u, exec (.flowRead fn p ctx) s = .next u ∧ u = { s with regs := u.regs } ∧ reports u (prmStat p) 0 0 :=
  ⟨_, flowCtx_completes (op := 3) h (fun _ => flowRead_fills (s := flowOpened s p _) found near) (putWords_threads ..),
    prmFilled_same (flowOpened s p _) .., reports_statDone ..⟩

end
end

/-- Settles O41: a command runs in the state that holds it, where its buffer, its Prism and its contexts are those of the state before it;
what it does there is its own equation. -/
theorem prismCommands : Obligations.PrismCommands := by
  unfold Obligations.PrismCommands
  intro s fn p i m k cmd
  refine ⟨fun h => ?commands, bankCopy_ends, bankError_falls, fun h => ?flows⟩
  case commands =>
    exact ⟨ruleWrite_answers h i, ruleWrite_answersBadAction h i, tplWrite_answers h i, commit_answers h, commit_answersBusy h,
      fun free running => ⟨test_answers h free running true, test_answers h free running false⟩, ruleClear_answers h i,
      ruleRead_fills h i, tplRead_fills h i⟩
  case flows =>
    exact ⟨fun vi n good new room ctx => flowInsert_answers h good new room ctx,
      fun ctx o key act n found near => ⟨flowRemove_answers h found near, flowRead_reports h found near⟩,
      fun ctx absent => flowRemove_answersUnknown h absent⟩

end Sys2Proof.Machine

/-! The statement about received frames: the MAC's drops, the mode of a port, receive rings, the slow path and the end of a datagram that
stays incomplete (R348, R353, R364-R370, R492, R512). -/

namespace Sys2Proof.Machine

/-! ## What the MAC does with a frame (R348, R353, R435, R492) -/

/-- A frame that the MAC takes goes through MACsec, then is dropped for an overrun or classified. -/
theorem frameReceive_taken {s : State} {p : Port} {f : RxFrame} (h : FrameTaken s p f) {b : Bool}
    (passed : (msecRecv s p f.tag).2 = some b) :
    exec (.frameReceive p f) s = .next (if f.overrun then prismDrop (msecRecv s p f.tag).1 p.val 8
      else settle (brmFrames (classify (msecRecv s p f.tag).1 p f.data b false (msecRecv s p f.tag).1.devTime))) := by
  have fits : ¬ f.data.length + 4 > maxFrame s p := not_lt.mpr h.length
  have secured : msecRecv s p f.tag = ((msecRecv s p f.tag).1, some b) := Prod.ext rfl passed
  simp only [exec_frameReceive, execFrameReceive, h.eth, h.up, h.works, h.whole, fits, Bool.not_true, Bool.or_self,
    Bool.false_eq_true, if_false]
  rw [secured]
  cases f.overrun <;> rfl

section
variable {s : State} {p : Port} {f : RxFrame} (eth : runsEth s p = true) (up : linkUp s p = true) (works : working s = true)
include eth up works

theorem frameReceive_tooLong (long : maxFrame s p < f.data.length + 4) : exec (.frameReceive p f) s = .next (macDiscard s p) :=
  (if_neg (by simp [eth, up, works])).trans (if_pos long)

theorem frameReceive_stopped (fits : f.data.length + 4 ≤ maxFrame s p) (stopped : f.stopped = true) :
    exec (.frameReceive p f) s = .next (prismDrop s p.val 2) :=
  (if_neg (by simp [eth, up, works])).trans ((if_neg (not_lt.mpr fits)).trans (if_pos stopped))

end

/-! ## The mode of a port (R348) -/

/-- The fields of `PRM_MODE` are the low seven bits, and MODE the lowest two. -/
theorem prmModeWord_fields (m : PrmModeW) : prmModeWord m &&& 0x7F = prmModeWord m ∧ bits (prmModeWord m) 1 0 = m.mode.toNat := by
  obtain ⟨l3bad, deepSlow, fallback, fragSlow, keysel, mode⟩ := m
  revert l3bad deepSlow fallback fragSlow keysel mode
  decide

theorem prmModeWr_sets {s : State} {fn : Fn} {p : Port} {m : PrmModeW} (known : m.mode ≠ 3)
    (tree : m.mode = 1 → bit (rget s (prmReg p 0x18)) 0 = true) : prmModeWr fn p (prmModeWord m) s
      = setPrism (rset s (prmReg p 0) (prmModeWord m)) p { getPrism s p with cur := m.mode } := by
  obtain ⟨kept, mode⟩ := prmModeWord_fields m
  have one : (m.mode.toNat = 1) ↔ m.mode = 1 := BitVec.toNat_inj (y := 1#2)
  have three : ¬ m.mode.toNat = 3 := fun e => known (BitVec.eq_of_toNat_eq e)
  have planted : ¬ (decide (m.mode.toNat = 1) && !bit (rget s (prmReg p 0x18)) 0) = true := by
    simpa [one] using tree
  simp only [prmModeWr, mode, kept, three, planted, if_false, BitVec.ofNat_toNat, BitVec.setWidth_eq]
  rfl

/-! ## Receive rings (R364, R365) -/

section
variable {s : State} {fn : Fn} {vi : Vi} {r : Nat} {v : Word}

/-- The state in which a ring's configuration stands as written. -/
def rxStored (s : State) (vi : Vi) (r : Nat) (v : Word) : State := rset s (viReg vi (rxOff r + 8)) (v &&& 0xC00FFFFFFFFF001F)

theorem rxCfgWr_vf (vf : isPf fn = false) : rxCfgWr fn vi r v s = viRefused s fn vi (rxOff r + 8) := by
  simp only [rxCfgWr, vf, Bool.not_false, if_true]

/-- A ring that stands takes its configuration, and runs if that is enabled and passes the checks. -/
theorem rxCfgWr_stands (pf : isPf fn = true) (stands : (getRx s vi r).run = false) (en : bit (v &&& 0xC00FFFFFFFFF001F) 63 = true) :
    rxCfgWr fn vi r v s = if rxRingOk (rxStored s vi r v) vi r
      then { rxStored s vi r v with
        rx := tset s.rx (ringKey vi r) { run := true, base := (getSyn s (bits (v &&& 0xC00FFFFFFFFF001F) 47 32)).value } }
      else rxStored s vi r v := by
  simp only [rxCfgWr, pf, stands, en, true_and, Bool.not_true, Bool.not_false, Bool.false_eq_true, if_true, if_false]
  rfl

/-- EN 0 with the other fields as they stand stops a ring that runs. -/
theorem rxCfgWr_stops (pf : isPf fn = true) (runs : (getRx s vi r).run = true) (off : bit (v &&& 0xC00FFFFFFFFF001F) 63 = false)
    (same : setBits (v &&& 0xC00FFFFFFFFF001F) 63 63 0 = setBits (rget s (viReg vi (rxOff r + 8))) 63 63 0) :
    rxCfgWr fn vi r v s = rset { s with rx := tset s.rx (ringKey vi r) { getRx s vi r with run := false } } (viReg vi (rxOff r + 8))
      (setBits (rget s (viReg vi (rxOff r + 8))) 63 63 0) := by
  simp only [rxCfgWr, pf, runs, off, same, Bool.not_true, ne_eq, not_true_eq_false, Bool.false_eq_true, if_false]

end

/-! ## The slow path (R370, R512) -/

/-- What the Stewards do with a frame they have taken, by its cause. -/
def slowHandle (s : State) (quad : BitVec 2) (owned : Bool) (f : SlowFrame) : State :=
  if f.cause = 4 then slowCount s f.port 4
  else if f.cause = 2 then (match portOfNat f.port with | some p => reassemble s quad f p | none => s)
  else if owned then slowCount s f.port 1
  else slowDeliver s f

section
variable {s : State} {quad : BitVec 2} {owned : Bool} {f : SlowFrame}

theorem slowHandle_counted (cause : f.cause = 4) : slowHandle s quad owned f = slowCount s f.port 4 := if_pos cause

theorem slowHandle_whole (other : f.cause ≠ 4) (whole : f.cause ≠ 2) :
    slowHandle s quad owned f = if owned then slowCount s f.port 1 else slowDeliver s f := (if_neg other).trans (if_neg whole)

theorem slowHandle_fragment {p : Port} (fragment : f.cause = 2) (port : portOfNat f.port = some p) :
    slowHandle s quad owned f = reassemble s quad f p := by
  refine (if_neg (by omega)).trans ((if_pos fragment).trans ?_)
  rw [port]

/-- The Stewards on duty take a quadrant's oldest frame, and handle it. -/
theorem slowPath_takes {u : State} (oldest : s.slowQ.find? (fun x => x.1 == quad) = some (quad, f)) (duty : slowUp s quad.toNat = true)
    (handled : slowHandle (fwPoint { s with slowQ := s.slowQ.erase (quad, f) } 1 (4 * quad.toNat + 2)) quad owned f = u) :
    exec (.slowPathFrame quad owned) s = .next (settle u) := by
  subst handled
  simp only [exec_slowPathFrame, execSlowPathFrame, oldest, duty, Bool.not_true, Bool.false_eq_true, if_false]
  rfl

end

theorem reassembly_expires {s : State} {quad : BitVec 2} {n : Nat} {d : Datagram}
    (found : (s.reasm.filter (fun d => d.quad == quad))[n]? = some d) (late : 10000000 ≤ (s.devTime - d.first).toNat) :
    exec (.reassemblyTimeout quad n) s = .next (prismDrop { s with reasm := s.reasm.erase d } d.port 13) := by
  simp only [exec_reassemblyTimeout, execReassemblyTimeout, found]
  exact if_neg (not_lt.mpr late)

/-- Settles O42: each command's conditions are met, and its effect is the one its lemma above says. -/
theorem framesReceived : Obligations.FramesReceived := by
  unfold Obligations.FramesReceived
  intro s fn vi p
  refine ⟨fun f h b passed => ?taken, fun f eth up works => ⟨frameReceive_tooLong eth up works, frameReceive_stopped eth up works⟩,
    fun m pf h known tree => hostPf_ok pf h (prmModeWr_sets known tree) rfl, fun r c h => ?rings,
    fun quad owned f oldest duty => ?slow, fun quad n d found late => reassembly_expires found late⟩
  case taken =>
    rw [frameReceive_taken h passed]
    exact ⟨fun kept => congrArg _ (if_neg (ne_true_of_eq_false kept)), fun overrun => congrArg _ (if_pos overrun)⟩
  case rings =>
    refine ⟨fun vf => hostVi_settles_to h (rxCfgWr_vf vf), fun pf stands en => ⟨fun ok => ?starts, fun bad => ?stays⟩,
      fun pf runs off same => hostVi_ok h (rxCfgWr_stops pf runs off same) rfl⟩
    case starts => exact hostVi_ok h ((rxCfgWr_stands pf stands en).trans (if_pos ok)) rfl
    case stays => exact hostVi_ok h ((rxCfgWr_stands pf stands en).trans (if_neg (ne_true_of_eq_false bad))) rfl
  case slow =>
    exact ⟨fun cause => slowPath_takes oldest duty (slowHandle_counted cause),
      fun other whole => slowPath_takes oldest duty (slowHandle_whole other whole),
      fun pt fragment port => slowPath_takes oldest duty (slowHandle_fragment fragment port)⟩

end Sys2Proof.Machine

/-! The statement about Iris: frames offered, shapers, the MAC, gate control lists and their changes (R372, R376, R380-R391). -/

namespace Sys2Proof.Machine

@[simp] theorem getIris_rset (s : State) (k : Nat) (v : Word) (p : Port) : getIris (rset s k v) p = getIris s p := rfl

/-! ## Frames offered (R372, R381) -/

section
variable {s : State} {p : Port} {data : List Byte} (eth : runsEth s p = true)
include eth

/-- A frame in range of an engine with no check of its own, or of a Steward, is offered. -/
theorem frameToIris_offers {src : IrisSrc} (engine : ∀ vi, src ≠ .brm vi) (long : 14 ≤ data.length)
    (fits : data.length + 4 ≤ maxFrame s p) : exec (.frameToIris p src data) s = .next (offer s p src data) := by
  have passes : ¬ (decide (data.length < 14) || decide (data.length + 4 > maxFrame s p)) = true := by
    simp only [Bool.or_eq_true, decide_eq_true_eq]
    omega
  simp only [exec_frameToIris, execFrameToIris, eth]
  cases src with
  | brm vi => exact absurd rfl (engine vi)
  | storage => exact if_neg passes
  | snapshot => exact if_neg passes
  | telemetry => exact if_neg passes
  | steward => exact if_neg passes

/-- The BRM engine's next packet of an instance enters the instance's stage, which has room. -/
theorem frameToIris_brm {vi : Vi} {o : BrmOut} (waits : s.brmOut.find? (fun o => o.vi == vi && decide (bits o.par 11 8 = p.val)) = some o)
    (room : stageFull s p vi = false) : exec (.frameToIris p (.brm vi) data) s
      = .next (toIris (nextFree { s with brmOut := s.brmOut.erase o }) p { kind := 1, data := brmFrameOut s o, vi := some vi }) := by
  simp only [exec_frameToIris, execFrameToIris, brmToIris, eth, waits, room, Bool.not_true, Bool.false_eq_true, if_false]

end

/-! ## Refills (R380, R384) -/

section
variable {s : State} {p : Port} (whole : s.devTime.toNat % 1000 = 0)
include whole

/-- A shaper of an instance that has had this microsecond's bits gains none. -/
theorem shaperRefill_had {vi : Vi} (had : (tget (getIris s p).viSh vi.toNat {}).last = some s.devTime) :
    exec (.shaperRefill p (.inst vi)) s = .next s :=
  (if_neg (not_not.mpr whole)).trans (if_pos had)

theorem shaperRefill_inst {vi : Vi} (due : (tget (getIris s p).viSh vi.toNat {}).last ≠ some s.devTime) :
    let x := getIris s p
    let h := tget x.viSh vi.toNat {}
    exec (.shaperRefill p (.inst vi)) s = .next (runShaper (setIris s p { x with viSh := tset x.viSh vi.toNat { h with
      credit := refillTo (rget s (viShapeReg vi p)) h.credit, last := some s.devTime } }) p true vi.toNat) :=
  (if_neg (not_not.mpr whole)).trans (if_neg due)

/-- The state in which the last write of a class's shaper from before this refill applies. -/
def cShapeApplied (s : State) (p : Port) (c : BitVec 2) : State :=
  match ((tget (getIris s p).clSh c.toNat {}).pend.filter (fun y => y.2 != s.devTime)).getLast? with
  | some (v, _) => rset s (clShapeReg p c.toNat) v
  | none => s

theorem shaperRefill_cls {c : BitVec 2} (due : (tget (getIris s p).clSh c.toNat {}).last ≠ some s.devTime) :
    let x := getIris s p
    let h := tget x.clSh c.toNat {}
    let u := cShapeApplied s p c
    let w := rget u (clShapeReg p c.toNat)
    exec (.shaperRefill p (.cls c)) s = .next (runShaper (setIris u p { x with clSh := tset x.clSh c.toNat { h with
      credit := refillTo w (min h.credit (fullCredit w)), last := some s.devTime,
      pend := h.pend.filter (fun y => y.2 == s.devTime) } }) p false c.toNat) := by
  refine (if_neg (not_not.mpr whole)).trans ((if_neg due).trans ?_)
  unfold cShapeApplied
  cases ((tget (getIris s p).clSh c.toNat {}).pend.filter (fun y => y.2 != s.devTime)).getLast? <;> rfl

end

/-! ## The MAC (R376, R393, R397) -/

/-- A port that is no Barvar port takes the frame Iris chooses, which goes through MACsec. -/
theorem frameTransmitStart_eth {s : State} {p : Port} (eth : portUse s p < 2) (ready : msecReady s p = true) :
    exec (.frameTransmitStart p) s = .next (if (getIris s p).tx.isNone && (getIris (transmitStart s p) p).tx.isSome
      then msecSend (transmitStart s p) p else transmitStart s p) :=
  (if_neg (not_le.mpr eth)).trans (if_neg (by simp [ready]))

theorem frameTransmitStart_link {s : State} {p : Port} (link : 2 ≤ portUse s p) :
    exec (.frameTransmitStart p) s = .next (linkTransmit s p) := if_pos link

section
variable {s : State} {p : Port} {f : IFrame} {start : BitVec 64} {q : Nat} (sends : (getIris s p).tx = some (f, start, q))
include sends

/-- The MAC is idle again after a frame from elsewhere than a transmit ring. -/
theorem frameTransmitEnd_other (other : f.slot = none) :
    exec (.frameTransmitEnd p) s = .next (setIris s p { getIris s p with tx := none }) := by
  simp only [exec_frameTransmitEnd, execFrameTransmitEnd, sends, other]

/-- The end of a frame of a transmit ring writes the timestamp that its slot asks for, and counts the slot. -/
theorem frameTransmitEnd_slot {ccnt : Nat} {a : Word} {ts : Bool} {vi : Vi} (slot : f.slot = some (ccnt, a, ts)) (owner : f.vi = some vi) :
    let w := setIris s p { getIris s p with tx := none }
    exec (.frameTransmitEnd p) s = .next (settle (ecBump
      (if ts then (instWrite w vi (a + 8) (toBytes 8 start.toNat)).getD (ringFault w vi a 0x200) else w) ccnt 1)) := by
  simp only [exec_frameTransmitEnd, execFrameTransmitEnd, sends, slot, owner]

end

/-! ## Settings (R375, R377, R383, R384) -/

/-- A PF's write of an instance's shaper sets its register and its credit, and the stage is served. -/
theorem viShapeWr_applies {s : State} {fn : Fn} {vi : Vi} {p : Port} {v : Word} (pf : isPf fn = true) :
    let x := getIris s p
    let k := viShapeReg vi p
    let w := shapeVal (rget s k) v 0xC0FFFFFFFF1FFFFF
    let c := if bit w 62 ∨ !bit w 63 then fullCredit w else 0
    viShapeWr fn vi p v s = runShaper
      (rset (setIris s p { x with viSh := tset x.viSh vi.toNat { tget x.viSh vi.toNat {} with credit := c } }) k w) p true vi.toNat := by
  simp only [viShapeWr, pf, viCredit, rget_rset_self, getIris_rset, Bool.not_true, Bool.false_eq_true, if_false]
  rfl

/-- The last write of a class's shaper, waiting or in effect. -/
theorem cShapeLast_eq (s : State) (p : Port) (c : Nat) : cShapeLast s p c =
    match (tget (getIris s p).clSh c {}).pend.getLast? with | some (w, _) => w | none => rget s (clShapeReg p c) := by
  unfold cShapeLast
  cases (tget (getIris s p).clSh c {}).pend.getLast? <;> rfl

/-- A write of a class's shaper waits for a refill, its ignored values those of the last write. -/
theorem cShapeWr_waits {s : State} {p : Port} {c : Nat} {v old : Word} (last : cShapeLast s p c = old) :
    let x := getIris s p
    let sh := tget x.clSh c {}
    cShapeWr p c v s = setIris s p { x with
      clSh := tset x.clSh c { sh with pend := sh.pend ++ [(shapeVal old v 0x80FFFFFFFF1FFFFF, s.devTime)] } } := by
  rw [cShapeWr, last]

/-- A write of `IRS_QCFG` with both its values in range sets the register; a queue whose STRICT changes loses its deficit. -/
theorem qCfgWr_in_range {s : State} {p : Port} {q : Nat} {v : Word} (weight : bits v 57 48 ≠ 0) (low : 1 ≤ bits v 13 0)
    (high : bits v 13 0 ≤ 8192) :
    let x := getIris s p
    let k := irsReg p (0x100 + 8 * q)
    let w := at_ (bits v 63 63) 63 ||| at_ (bits v 57 48) 48 ||| at_ (bits v 13 0) 0
    qCfgWr p q v s = runShapers
      (rset (if bit w 63 != bit (rget s k) 63 then setIris s p { x with deficit := tset x.deficit q 0 } else s) k w) p := by
  have limit : ¬ (bits v 13 0 = 0 ∨ bits v 13 0 > 8192) := by omega
  simp only [qCfgWr, weight, limit, false_and, if_false]

/-! ## The word of a gate control command (R390, R391) -/

section
variable (c : GclW) {n : Nat} (two : n < 4)
include two

/-- A gate control word with the two command bits: CONFIG_CHANGE the lower, CANCEL the upper. -/
theorem gclCommand_toNat : (gclWord c ||| at_ n 3).toNat = c.init.toNat * 2 ^ 48 + c.alen.toNat * 2 ^ 13 + n * 2 ^ 3 + b2n c.en := by
  have init := c.init.isLt
  have alen := c.alen.isLt
  have en : b2n c.en < 2 ^ 1 := by cases c.en <;> decide
  have order : gclWord c ||| at_ n 3 = at_ c.init.toNat 48 ||| (at_ c.alen.toNat 13 ||| (at_ n 3 ||| at_ (b2n c.en) 0)) := by
    rw [gclWord, BitVec.or_assoc, BitVec.or_assoc, BitVec.or_comm (at_ (b2n c.en) 0)]
  rw [order, at_zero, at_or_ofNat n (by omega), at_or_ofNat c.alen.toNat (by omega), at_or_ofNat c.init.toNat (by omega),
    BitVec.toNat_ofNat]
  omega

theorem bits_gclCommand : bits (gclWord c ||| at_ n 3) 63 48 = c.init.toNat ∧ bits (gclWord c ||| at_ n 3) 21 13 = c.alen.toNat
    ∧ bits (gclWord c ||| at_ n 3) 0 0 = b2n c.en := by
  have init := c.init.isLt
  have alen := c.alen.isLt
  have en : b2n c.en < 2 := by cases c.en <;> decide
  simp only [bits, gclCommand_toNat c two, Nat.shiftRight_eq_div_pow]
  omega

theorem bit_gclCommand : bit (gclWord c ||| at_ n 3) 0 = c.en ∧ bit (gclWord c ||| at_ n 3) 3 = decide (n % 2 = 1)
    ∧ bit (gclWord c ||| at_ n 3) 4 = decide (n / 2 = 1) := by
  simp only [bit, gclCommand_toNat c two, Nat.testBit_eq_decide_div_mod_eq]
  refine ⟨?_, ?_, ?_⟩
  · cases c.en <;> simp [b2n] <;> omega
  · cases c.en <;> simp [b2n] <;> omega
  · cases c.en <;> simp [b2n] <;> omega

end

/-- The fields of a gate control word as they are stored. -/
theorem gclWord_of_fields (c : GclW) : at_ c.init.toNat 48 ||| at_ c.alen.toNat 13 ||| at_ (b2n c.en) 0 = gclWord c := rfl

/-! ## Gate control commands (R390, R391) -/

/-- The state in which the fields of `IRS_GCL_CTRL` stand as written. -/
def gclStored (s : State) (p : Port) (c : GclW) : State := rset s (gclReg p) (gclWord c)

/-- A change that waits for its time no longer does. -/
def gclCancelled (s : State) (p : Port) : State := setIris s p { getIris s p with pend := false }

/-- CONFIG_CHANGE checks the lists, and a change that passes waits for its time. -/
def gclChanged (s : State) (p : Port) : State :=
  if gclCheck s p ≠ 0 then setIris s p { getIris s p with gclErr := BitVec.ofNat 8 (gclCheck s p) }
  else setIris s p { getIris s p with gclErr := 0, chtime := BitVec.ofNat 64 (chTime s p), pend := true }

section
variable {s : State} (fn : Fn) {p : Port} (c : GclW)

/-- A gate control command that leaves the length of a pending list alone: its fields are stored, then its command bits act, and EN 0
cancels too. -/
theorem gclWr_eq (kept : (getIris s p).pend = true → bits (rget s (gclReg p)) 21 13 = c.alen.toNat) {n : Nat} (two : n < 4) :
    gclWr fn p (gclWord c ||| at_ n 3) s =
      let u := if decide (n / 2 = 1) || !c.en then gclCancelled (gclStored s p c) p else gclStored s p c
      if n % 2 = 1 then if (getIris u p).pend then accessErr u fn (portOff p 0x4800) else gclChanged u p else u := by
  obtain ⟨init, alen, en⟩ := bits_gclCommand c two
  obtain ⟨enabled, changes, cancels⟩ := bit_gclCommand c two
  have allowed : ((getIris s p).pend && (c.alen.toNat != bits (rget s (gclReg p)) 21 13)) = false := by
    cases pend : (getIris s p).pend
    · rfl
    · simp [kept pend]
  have length : (if (getIris s p).pend then bits (rget s (gclReg p)) 21 13 else c.alen.toNat) = c.alen.toNat := by
    split
    · exact kept ‹_›
    · rfl
  simp only [gclWr, init, alen, en, enabled, changes, cancels, allowed, length, gclWord_of_fields, Bool.false_eq_true, if_false,
    decide_eq_true_eq]
  rfl

theorem gclWr_configChange (idle : (getIris s p).pend = false) (en : c.en = true) :
    gclWr fn p (gclWord c ||| at_ 1 3) s = gclChanged (gclStored s p c) p := by
  have stands : (getIris (gclStored s p c) p).pend = false := idle
  rw [gclWr_eq fn c (by simp [idle]) (by decide : 1 < 4)]
  simp [en, stands]

theorem gclWr_gateEn (idle : (getIris s p).pend = false) :
    gclWr fn p (gclWord c) s = if c.en then gclStored s p c else gclCancelled (gclStored s p c) p := by
  have word : gclWord c = gclWord c ||| at_ 0 3 := (BitVec.or_zero ..).symm
  rw [word, gclWr_eq fn c (by simp [idle]) (by decide : 0 < 4)]
  cases c.en <;> rfl

theorem gclWr_cancel (kept : bits (rget s (gclReg p)) 21 13 = c.alen.toNat) :
    gclWr fn p (gclWord c ||| at_ 1 4) s = gclCancelled (gclStored s p c) p :=
  gclWr_eq fn c (fun _ => kept) (by decide : 2 < 4)

end

/-- A change whose checks pass waits for its time. -/
theorem gclChanged_pends {s : State} {p : Port} (ok : gclCheck s p = 0) : gclChanged s p
    = setIris s p { getIris s p with gclErr := 0, chtime := BitVec.ofNat 64 (chTime s p), pend := true } := if_neg (not_not.mpr ok)

/-- At its time the administrative list becomes operational (R390). -/
theorem configChangeTime_applies {s : State} {p : Port} (waits : (getIris s p).pend = true)
    (due : (getIris s p).chtime.toNat ≤ s.devTime.toNat) :
    let x := getIris s p
    exec (.configChangeTime p) s = .next (setIris s p { x with
      oper := aList s p, obase := x.chtime, ocycle := aCycle s p, pend := false,
      gates := BitVec.ofNat 16 (listGates (aList s p) (s.devTime.toNat - x.chtime.toNat)) }) := if_pos ⟨waits, due⟩

/-! ## The statement -/

/-- Settles O43: each command's conditions are met, and its effect is the one its lemma above says. -/
theorem irisOperations : Obligations.IrisOperations := by
  unfold Obligations.IrisOperations
  intro s fn vi p
  refine ⟨fun data eth long fits => ?offers, fun data o eth waits room => frameToIris_brm eth waits room, fun whole => ?refills,
    frameTransmitStart_eth, frameTransmitStart_link, fun f start q sends => ?ends, fun v h pf => hostVi_settles_to h (viShapeWr_applies pf),
    fun c v pf h => ?classShape, fun q v pf h weight low high => ?queue, fun c pf h idle => ?gates, fun c pf h waits kept => ?cancel,
    configChangeTime_applies, rfl⟩
  case offers =>
    exact ⟨frameToIris_offers eth nofun long fits, frameToIris_offers eth nofun long fits, frameToIris_offers eth nofun long fits,
      frameToIris_offers eth nofun long fits⟩
  case refills => exact ⟨shaperRefill_had whole, shaperRefill_inst whole, fun c due => shaperRefill_cls whole due⟩
  case ends =>
    exact ⟨frameTransmitEnd_other sends, fun ccnt a v => frameTransmitEnd_slot sends, fun ccnt a v => frameTransmitEnd_slot sends⟩
  case classShape => exact hostPf_ok pf h (cShapeWr_waits (cShapeLast_eq s p c.toNat)) rfl
  case queue => rw [exec_irsQcfgWrite, execIrsQcfgWrite, hostPf_settles pf h, qCfgWr_in_range weight low high]
  case gates =>
    refine ⟨fun en ok => ?waits, fun en bad => ?fails, fun en => ?opens, fun en => ?closes⟩
    case waits => exact hostPf_ok pf h ((gclWr_configChange fn c idle en).trans (gclChanged_pends ok)) rfl
    case fails => exact hostPf_ok pf h ((gclWr_configChange fn c idle en).trans (if_pos bad)) rfl
    case opens => exact hostPf_ok pf h ((gclWr_gateEn fn c idle).trans (if_pos en)) rfl
    case closes => exact hostPf_ok pf h ((gclWr_gateEn fn c idle).trans (if_neg (ne_true_of_eq_false en))) rfl
  case cancel => exact hostPf_ok pf h (gclWr_cancel fn c kept) rfl

end Sys2Proof.Machine

/-! The statement about transmit rings and queue samples (R392-R396). -/

namespace Sys2Proof.Machine

/-! ## Transmit rings (R365, R392) -/

section
variable {s : State} {fn : Fn} {vi : Vi} {r : Nat} {v : Word}

/-- The state in which a transmit ring's configuration stands as written. -/
def txStored (s : State) (vi : Vi) (r : Nat) (v : Word) : State := rset s (viReg vi (0xC08 + 0x20 * r)) (v &&& 0x8F0FFFFFFFFF001F)

theorem txCfgWr_vf (vf : isPf fn = false) : txCfgWr fn vi r v s = viRefused s fn vi (0xC08 + 0x20 * r) := by
  simp only [txCfgWr, vf, Bool.not_false, if_true]

/-- A transmit ring that stands takes its configuration, and runs if that is enabled and passes the checks. -/
theorem txCfgWr_stands (pf : isPf fn = true) (stands : (tget s.tx (ringKey vi r) {}).run = false)
    (en : bit (v &&& 0x8F0FFFFFFFFF001F) 63 = true) :
    txCfgWr fn vi r v s = if txRingOk (txStored s vi r v) vi r
      then { txStored s vi r v with
        tx := tset s.tx (ringKey vi r) { run := true, reqAt := s.devTime, base := (getSyn s (bits (v &&& 0x8F0FFFFFFFFF001F) 31 16)).value } }
      else txStored s vi r v := by
  simp only [txCfgWr, pf, stands, en, true_and, Bool.not_true, Bool.not_false, Bool.false_eq_true, if_true, if_false]
  rfl

/-- EN 0 with the other fields as they stand stops a transmit ring that runs. -/
theorem txCfgWr_stops (pf : isPf fn = true) (runs : (tget s.tx (ringKey vi r) {}).run = true)
    (off : bit (v &&& 0x8F0FFFFFFFFF001F) 63 = false)
    (same : setBits (v &&& 0x8F0FFFFFFFFF001F) 63 63 0 = setBits (rget s (viReg vi (0xC08 + 0x20 * r))) 63 63 0) :
    txCfgWr fn vi r v s = rset { s with tx := tset s.tx (ringKey vi r) { tget s.tx (ringKey vi r) {} with run := false } }
      (viReg vi (0xC08 + 0x20 * r)) (setBits (rget s (viReg vi (0xC08 + 0x20 * r))) 63 63 0) := by
  simp only [txCfgWr, pf, runs, off, same, Bool.not_true, ne_eq, not_true_eq_false, Bool.false_eq_true, if_false]

end

/-! ## Slots (R381, R393) -/

section
variable {s s1 t : State} {vi : Vi} {r : BitVec 4} {p : Port} {ext h : List Byte} {b : Bool}

/-- Address of the next slot of a transmit ring. -/
def txSlotAddr (s : State) (vi : Vi) (r : Nat) : Word := txBase s vi r
  + BitVec.ofNat 64 ((tget s.tx (ringKey vi r) {}).count.toNat % 2 ^ bits (txCfg s vi r) 4 0 * 2 ^ bits (txCfg s vi r) 51 48)

/-- Iris takes the next slot of a ring that is ready, in its instance's turn. -/
theorem txTake_ready {r : Nat} (ready : txReady s vi r = some p) (turn : roundTake s (6 + p.val) (txWork s p) vi = some s1) :
    txTake s vi r = some (txTaken s1 vi r, p, txSlotAddr s vi r) := by
  simp only [txTake, ready, turn]
  rw [roundTake_eq turn]
  rfl

/-- A turn and a taken slot leave the ring's configuration. -/
theorem txCfg_txTaken {r : Nat} (turn : roundTake s (6 + p.val) (txWork s p) vi = some s1) :
    txCfg (txTaken s1 vi r) vi r = txCfg s vi r := by
  rw [roundTake_eq turn]
  rfl

variable (ready : txReady s vi r.toNat = some p) (turn : roundTake s (6 + p.val) (txWork s p) vi = some s1)
  (head : rangeRead (txTaken s1 vi r.toNat) vi (txSlotAddr s vi r.toNat) 8 ext = some (t, h, b))
include ready turn head

/-- A slot whose length is out of range is recorded and released. -/
theorem txSlotTake_discards (bad : ofBytes (h.take 2) < 14
      ∨ Nat.min (2 ^ bits (txCfg s vi r.toNat) 51 48 - 32) (maxFrame t p - 4) < ofBytes (h.take 2)) :
    exec (.txSlotTake vi r ext) s = .next (settle (txDiscard t vi r.toNat (txSlotAddr s vi r.toNat))) := by
  simp only [exec_txSlotTake, execTxSlotTake, txTake_ready ready turn, txCfg_txTaken turn, head]
  exact if_pos bad

/-- The frame of a slot that is read whole goes to Iris, with its slot and the timestamp it asks for. -/
theorem txSlotTake_sends (long : 14 ≤ ofBytes (h.take 2))
    (fits : ofBytes (h.take 2) ≤ Nat.min (2 ^ bits (txCfg s vi r.toNat) 51 48 - 32) (maxFrame t p - 4)) {u : State} {d : List Byte}
    (body : rangeRead t vi (txSlotAddr s vi r.toNat + 32) (ofBytes (h.take 2)) (ext.drop 32) = some (u, d, false)) :
    exec (.txSlotTake vi r ext) s = .next (settle (toIris u p {
      kind := 0, data := d, vi := some vi
      slot := some (bits (txCfg s vi r.toNat) 47 32, txSlotAddr s vi r.toNat, decide (ofBytes h % 2 ^ 17 ≥ 65536)) })) := by
  have good : ¬ (ofBytes (h.take 2) < 14
      ∨ ofBytes (h.take 2) > Nat.min (2 ^ bits (txCfg s vi r.toNat) 51 48 - 32) (maxFrame t p - 4)) :=
    not_or.mpr ⟨not_lt.mpr long, not_lt.mpr fits⟩
  simp only [exec_txSlotTake, execTxSlotTake, txTake_ready ready turn, txCfg_txTaken turn, head, good, body, Bool.false_eq_true,
    if_false]

end

/-! ## Queue samples (R395, R396) -/

/-- A sample ring that stands and whose configuration passes the checks starts with its event counter's value. -/
theorem smpCfgWr_starts {s : State} {fn : Fn} {p : Port} {v : Word} (stands : (getIris s p).smpRun = false)
    (en : bit (v &&& 0xC0FFFFFFFFFF001F) 63 = true) :
    let u := rset s (irsReg p 0x908) (v &&& 0xC0FFFFFFFFFF001F)
    smpOk u p = true → smpCfgWr fn p v s = setIris u p { getIris s p with
      smpRun := true, smpBase := (getSyn u (bits (smpCnt u p) 47 32)).value, smpRecs := 0, smpNum := 0, smpAt := none } := by
  intro u ok
  simp only [smpCfgWr, stands, en, ok, u, true_and, Bool.not_false, if_true]

section
variable (s : State) (p : Port)

/-- Microseconds between samples. -/
def smpPeriod : Nat := if bits (smpCfg s p) 31 16 = 0 then 1000 else bits (smpCfg s p) 31 16

/-- The queues that are sampled. -/
def smpQueues : List Nat := (List.range 16).filter (fun q => (bits (smpCfg s p) 47 32).testBit q)

/-- Records of a sample ring that its instance has not yet taken. -/
def smpHeld : Int :=
  ((getIris s p).smpRecs - ((getSyn s (bits (smpCnt s p) 47 32)).value - (getIris s p).smpBase)).toInt

/-- The sample is written, and what the sampled queues saw since the last one is cleared. -/
def smpSampled : State :=
  let u := smpWriteAll s p (smpVi (smpCfg s p)) (2 ^ bits (smpCfg s p) 4 0) (getIris s p).smpRecs.toNat (smpQueues s p)
  let z := getIris u p
  setIris u p { z with
    smpAt := some u.devTime, smpNum := z.smpNum + 1, smpRecs := z.smpRecs + BitVec.ofNat 48 (smpQueues s p).length,
    smpDrop := (smpQueues s p).foldl (fun m q => tdel m q) z.smpDrop, smpMax := (smpQueues s p).foldl (fun m q => tdel m q) z.smpMax }

end

section
variable {s : State} {p : Port} (runs : (getIris s p).smpRun = true) (whole : s.devTime.toNat % (smpPeriod s p * 1000) = 0)
  (once : (getIris s p).smpAt ≠ some s.devTime)
include runs whole once

/-- A sample is due: its time has come, and it was not taken yet. -/
theorem sample_due : ¬ ((!(getIris s p).smpRun) = true ∨ s.devTime.toNat % (smpPeriod s p * 1000) ≠ 0
    ∨ (getIris s p).smpAt = some s.devTime) := by
  simp [runs, whole, once]

theorem queueSample_loses (full : (2 : Int) ^ bits (smpCfg s p) 4 0 < smpHeld s p + (smpQueues s p).length) :
    let y := getIris s p
    exec (.queueSample p) s = .next (setIris s p { y with
      smpAt := some s.devTime, smpLost := y.smpLost + 1, smpWrap := y.smpWrap || decide (y.smpLost + 1 = 0) }) := by
  have noRoom : smpHeld s p + (smpQueues s p).length > ((2 ^ bits (smpCfg s p) 4 0 : Nat) : Int) := by
    rwa [Nat.cast_pow]
  exact (if_neg (sample_due runs whole once)).trans (if_pos noRoom)

/-- A sample with room is written; without PCNT enabled no posted counter moves. -/
theorem queueSample_writes (room : smpHeld s p + (smpQueues s p).length ≤ (2 : Int) ^ bits (smpCfg s p) 4 0)
    (uncounted : bit (smpCfg s p) 62 = false) : exec (.queueSample p) s = .next (settle (smpSampled s p)) := by
  have fits : ¬ smpHeld s p + (smpQueues s p).length > ((2 ^ bits (smpCfg s p) 4 0 : Nat) : Int) := by
    rwa [Nat.cast_pow, not_lt]
  refine (if_neg (sample_due runs whole once)).trans ((if_neg fits).trans ?_)
  exact congrArg (fun u => Host.Outcome.next (settle u)) (if_neg (ne_true_of_eq_false uncounted))

end

/-! ## The statement -/

/-- Settles O44: each command's conditions are met, and its effect is the one its lemma above says. -/
theorem transmitAndSampleRings : Obligations.TransmitAndSampleRings := by
  unfold Obligations.TransmitAndSampleRings
  intro s fn vi r p
  refine ⟨fun c h => ?rings, fun s1 ext ready turn t h b head => ⟨txSlotTake_discards ready turn head,
      fun long fits u d body => txSlotTake_sends ready turn head long fits body⟩,
    fun c pf h stands en ok => hostPf_ok pf h (smpCfgWr_starts stands en ok) rfl,
    fun runs whole once => ⟨queueSample_loses runs whole once, queueSample_writes runs whole once⟩⟩
  case rings =>
    refine ⟨fun vf => hostVi_settles_to h (txCfgWr_vf vf), fun pf stands en => ⟨fun ok => ?starts, fun bad => ?stays⟩,
      fun pf runs off same => hostVi_ok h (txCfgWr_stops pf runs off same) rfl⟩
    case starts => exact hostVi_ok h ((txCfgWr_stands pf stands en).trans (if_pos ok)) rfl
    case stays => exact hostVi_ok h ((txCfgWr_stands pf stands en).trans (if_neg (ne_true_of_eq_false bad))) rfl

end Sys2Proof.Machine

/-! What every step keeps: a step answers a next state, and between the state before and after it holds the relation `Keeps`, which
`exec_nexts_keeps` gathers from the lemma of each command. -/

namespace Sys2Proof.Machine

/-! ## A step by the front of its queue -/

theorem step_of_cons (c : Instr) (r : List Instr) (s : State) :
    step { s with pending := c :: r } = exec c { s with pending := r } := rfl

theorem step_of_empty {s : State} (h : s.pending = []) : step s = .next (tick s) := by
  simp [step, h]

theorem withFetchWord_eq (s : State) (nbits w : Nat) : s.withFetchWord nbits w = s := rfl

/-! ## The clocks -/

theorem clock_keeps (s : State) : Keeps s (clock s) :=
  .ite (.refl s) (.same ⟨rfl, rfl, rfl, rfl, rfl⟩)

theorem tick_keeps (s : State) : Keeps s (tick s) :=
  .ite (clock_keeps s) (.of (settle_keeps _) (.of (releaseHost_keeps _) (clock_keeps s)))

/-! ## The commands -/

theorem Nexts.keeps {s : State} {o : Host.Outcome State Fault Refusal} (h : Nexts o) (k : KeepsO s o) :
    ∃ t, o = .next t ∧ Keeps s t := by
  obtain ⟨t, ht⟩ := h.get
  exact ⟨t, ht, k.get t ht⟩

/-- Every command answers a next state that keeps what `Keeps` says. -/
theorem exec_nexts_keeps (c : Instr) (s : State) : ∃ t, exec c s = .next t ∧ Keeps s t :=
  match c with
  | .add .. => (execAdd_nexts ..).keeps (execAdd_keeps ..)
  | .sub .. => (execSub_nexts ..).keeps (execSub_keeps ..)
  | .addv .. => (execAddv_nexts ..).keeps (execAddv_keeps ..)
  | .subv .. => (execSubv_nexts ..).keeps (execSubv_keeps ..)
  | .and .. => (execAnd_nexts ..).keeps (execAnd_keeps ..)
  | .or .. => (execOr_nexts ..).keeps (execOr_keeps ..)
  | .xor .. => (execXor_nexts ..).keeps (execXor_keeps ..)
  | .andn .. => (execAndn_nexts ..).keeps (execAndn_keeps ..)
  | .slt .. => (execSlt_nexts ..).keeps (execSlt_keeps ..)
  | .sltu .. => (execSltu_nexts ..).keeps (execSltu_keeps ..)
  | .seq .. => (execSeq_nexts ..).keeps (execSeq_keeps ..)
  | .min .. => (execMin_nexts ..).keeps (execMin_keeps ..)
  | .minu .. => (execMinu_nexts ..).keeps (execMinu_keeps ..)
  | .max .. => (execMax_nexts ..).keeps (execMax_keeps ..)
  | .maxu .. => (execMaxu_nexts ..).keeps (execMaxu_keeps ..)
  | .shl .. => (execShl_nexts ..).keeps (execShl_keeps ..)
  | .shr .. => (execShr_nexts ..).keeps (execShr_keeps ..)
  | .sra .. => (execSra_nexts ..).keeps (execSra_keeps ..)
  | .rol .. => (execRol_nexts ..).keeps (execRol_keeps ..)
  | .ror .. => (execRor_nexts ..).keeps (execRor_keeps ..)
  | .mov .. => (execMov_nexts ..).keeps (execMov_keeps ..)
  | .neg .. => (execNeg_nexts ..).keeps (execNeg_keeps ..)
  | .negs .. => (execNegs_nexts ..).keeps (execNegs_keeps ..)
  | .sext .. => (execSext_nexts ..).keeps (execSext_keeps ..)
  | .zextW .. => (execZextW_nexts ..).keeps (execZextW_keeps ..)
  | .movhi .. => (execMovhi_nexts ..).keeps (execMovhi_keeps ..)
  | .mul .. => (execMul_nexts ..).keeps (execMul_keeps ..)
  | .mulv .. => (execMulv_nexts ..).keeps (execMulv_keeps ..)
  | .mulh .. => (execMulh_nexts ..).keeps (execMulh_keeps ..)
  | .mulhu .. => (execMulhu_nexts ..).keeps (execMulhu_keeps ..)
  | .div .. => (execDiv_nexts ..).keeps (execDiv_keeps ..)
  | .divu .. => (execDivu_nexts ..).keeps (execDivu_keeps ..)
  | .rem .. => (execRem_nexts ..).keeps (execRem_keeps ..)
  | .remu .. => (execRemu_nexts ..).keeps (execRemu_keeps ..)
  | .popc .. => (execPopc_nexts ..).keeps (execPopc_keeps ..)
  | .clz .. => (execClz_nexts ..).keeps (execClz_keeps ..)
  | .ctz .. => (execCtz_nexts ..).keeps (execCtz_keeps ..)
  | .rngk .. => (execRngk_nexts ..).keeps (execRngk_keeps ..)
  | .b .. => (execB_nexts ..).keeps (execB_keeps ..)
  | .call .. => (execCall_nexts ..).keeps (execCall_keeps ..)
  | .bcc .. => (execBcc_nexts ..).keeps (execBcc_keeps ..)
  | .br .. => (execBr_nexts ..).keeps (execBr_keeps ..)
  | .callr .. => (execCallr_nexts ..).keeps (execCallr_keeps ..)
  | .ret .. => (execRet_nexts ..).keeps (execRet_keeps ..)
  | .wait .. => (execWait_nexts ..).keeps (execWait_keeps ..)
  | .brep .. => (execBrep_nexts ..).keeps (execBrep_keeps ..)
  | .tend .. => (execTend_nexts ..).keeps (execTend_keeps ..)
  | .ld .. => (execLd_nexts ..).keeps (execLd_keeps ..)
  | .st .. => (execSt_nexts ..).keeps (execSt_keeps ..)
  | .vld .. => (execVld_nexts ..).keeps (execVld_keeps ..)
  | .vst .. => (execVst_nexts ..).keeps (execVst_keeps ..)
  | .vldx .. => (execVldx_nexts ..).keeps (execVldx_keeps ..)
  | .vstx .. => (execVstx_nexts ..).keeps (execVstx_keeps ..)
  | .lds .. => (execLds_nexts ..).keeps (execLds_keeps ..)
  | .sts .. => (execSts_nexts ..).keeps (execSts_keeps ..)
  | .vlds .. => (execVlds_nexts ..).keeps (execVlds_keeps ..)
  | .vsts .. => (execVsts_nexts ..).keeps (execVsts_keeps ..)
  | .amo .. => (execAmo_nexts ..).keeps (execAmo_keeps ..)
  | .rspush .. => (execRspush_nexts ..).keeps (execRspush_keeps ..)
  | .rspop .. => (execRspop_nexts ..).keeps (execRspop_keeps ..)
  | .movs .. => (execMovs_nexts ..).keeps (execMovs_keeps ..)
  | .fills .. => (execFills_nexts ..).keeps (execFills_keeps ..)
  | .cmps .. => (execCmps_nexts ..).keeps (execCmps_keeps ..)
  | .scans .. => (execScans_nexts ..).keeps (execScans_keeps ..)
  | .xlats .. => (execXlats_nexts ..).keeps (execXlats_keeps ..)
  | .rhash .. => (execRhash_nexts ..).keeps (execRhash_keeps ..)
  | .distsB .. => (execDistsB_nexts ..).keeps (execDistsB_keeps ..)
  | .vaddI .. => (execVaddI_nexts ..).keeps (execVaddI_keeps ..)
  | .vadds .. => (execVadds_nexts ..).keeps (execVadds_keeps ..)
  | .vminI .. => (execVminI_nexts ..).keeps (execVminI_keeps ..)
  | .vlogic .. => (execVlogic_nexts ..).keeps (execVlogic_keeps ..)
  | .vshift .. => (execVshift_nexts ..).keeps (execVshift_keeps ..)
  | .vnegI .. => (execVnegI_nexts ..).keeps (execVnegI_keeps ..)
  | .vcmp .. => (execVcmp_nexts ..).keeps (execVcmp_keeps ..)
  | .vsel .. => (execVsel_nexts ..).keeps (execVsel_keeps ..)
  | .vmov .. => (execVmov_nexts ..).keeps (execVmov_keeps ..)
  | .vbcast .. => (execVbcast_nexts ..).keeps (execVbcast_keeps ..)
  | .vperm .. => (execVperm_nexts ..).keeps (execVperm_keeps ..)
  | .vins .. => (execVins_nexts ..).keeps (execVins_keeps ..)
  | .vext .. => (execVext_nexts ..).keeps (execVext_keeps ..)
  | .vaddF .. => (execVaddF_nexts ..).keeps (execVaddF_keeps ..)
  | .vfma .. => (execVfma_nexts ..).keeps (execVfma_keeps ..)
  | .vminF .. => (execVminF_nexts ..).keeps (execVminF_keeps ..)
  | .vnegF .. => (execVnegF_nexts ..).keeps (execVnegF_keeps ..)
  | .vmac .. => (execVmac_nexts ..).keeps (execVmac_keeps ..)
  | .vmulI .. => (execVmulI_nexts ..).keeps (execVmulI_keeps ..)
  | .vcvt .. => (execVcvt_nexts ..).keeps (execVcvt_keeps ..)
  | .vcvtu .. => (execVcvtu_nexts ..).keeps (execVcvtu_keeps ..)
  | .vredAdd .. => (execVredAdd_nexts ..).keeps (execVredAdd_keeps ..)
  | .vredMinmax .. => (execVredMinmax_nexts ..).keeps (execVredMinmax_keeps ..)
  | .maskLogic .. => (execMaskLogic_nexts ..).keeps (execMaskLogic_keeps ..)
  | .mset .. => (execMset_nexts ..).keeps (execMset_keeps ..)
  | .mpop .. => (execMpop_nexts ..).keeps (execMpop_keeps ..)
  | .eaadd .. => (execEaadd_nexts ..).keeps (execEaadd_keeps ..)
  | .eamac .. => (execEamac_nexts ..).keeps (execEamac_keeps ..)
  | .eaclr .. => (execEaclr_nexts ..).keeps (execEaclr_keeps ..)
  | .earound .. => (execEaround_nexts ..).keeps (execEaround_keeps ..)
  | .eainfo .. => (execEainfo_nexts ..).keeps (execEainfo_keeps ..)
  | .eamerge .. => (execEamerge_nexts ..).keeps (execEamerge_keeps ..)
  | .easave .. => (execEasave_nexts ..).keeps (execEasave_keeps ..)
  | .ubar .. => (execUbar_nexts ..).keeps (execUbar_keeps ..)
  | .sbar .. => (execSbar_nexts ..).keeps (execSbar_keeps ..)
  | .semp .. => (execSemp_nexts ..).keeps (execSemp_keeps ..)
  | .semv .. => (execSemv_nexts ..).keeps (execSemv_keeps ..)
  | .semt .. => (execSemt_nexts ..).keeps (execSemt_keeps ..)
  | .ecadd .. => (execEcadd_nexts ..).keeps (execEcadd_keeps ..)
  | .ecwait .. => (execEcwait_nexts ..).keeps (execEcwait_keeps ..)
  | .ecread .. => (execEcread_nexts ..).keeps (execEcread_keeps ..)
  | .lkacq .. => (execLkacq_nexts ..).keeps (execLkacq_keeps ..)
  | .lkrel .. => (execLkrel_nexts ..).keeps (execLkrel_keeps ..)
  | .lktry .. => (execLktry_nexts ..).keeps (execLktry_keeps ..)
  | .mfs .. => (execMfs_nexts ..).keeps (execMfs_keeps ..)
  | .mts .. => (execMts_nexts ..).keeps (execMts_keeps ..)
  | .brk .. => (execBrk_nexts ..).keeps (execBrk_keeps ..)
  | .hcall .. => (execHcall_nexts ..).keeps (execHcall_keeps ..)
  | .nop .. => (execNop_nexts ..).keeps (execNop_keeps ..)
  | .launch .. => (execLaunch_nexts ..).keeps (execLaunch_keeps ..)
  | .tresume .. => (execTresume_nexts ..).keeps (execTresume_keeps ..)
  | .tendOther .. => (execTendOther_nexts ..).keeps (execTendOther_keeps ..)
  | .evwait .. => (execEvwait_nexts ..).keeps (execEvwait_keeps ..)
  | .sysrd .. => (execSysrd_nexts ..).keeps (execSysrd_keeps ..)
  | .syswr .. => (execSyswr_nexts ..).keeps (execSyswr_keeps ..)
  | .evpost .. => (execEvpost_nexts ..).keeps (execEvpost_keeps ..)
  | .handlerModeTrap .. => (execHandlerModeTrap_nexts ..).keeps (execHandlerModeTrap_keeps ..)
  | .loadComplete .. => (execLoadComplete_nexts ..).keeps (execLoadComplete_keeps ..)
  | .storeComplete .. => (execStoreComplete_nexts ..).keeps (execStoreComplete_keeps ..)
  | .threadDrained .. => (execThreadDrained_nexts ..).keeps (execThreadDrained_keeps ..)
  | .saveComplete .. => (execSaveComplete_nexts ..).keeps (execSaveComplete_keeps ..)
  | .threadResume .. => (execThreadResume_nexts ..).keeps (execThreadResume_keeps ..)
  | .launchTake .. => (execLaunchTake_nexts ..).keeps (execLaunchTake_keeps ..)
  | .launchAdmit .. => (execLaunchAdmit_nexts ..).keeps (execLaunchAdmit_keeps ..)
  | .cmpCreate .. => (execCmpCreate_nexts ..).keeps (execCmpCreate_keeps ..)
  | .cmpAdd .. => (execCmpAdd_nexts ..).keeps (execCmpAdd_keeps ..)
  | .cmpRemove .. => (execCmpRemove_nexts ..).keeps (execCmpRemove_keeps ..)
  | .cmpDestroy .. => (execCmpDestroy_nexts ..).keeps (execCmpDestroy_keeps ..)
  | .cmpRead .. => (execCmpRead_nexts ..).keeps (execCmpRead_keeps ..)
  | .cmpReset .. => (execCmpReset_nexts ..).keeps (execCmpReset_keeps ..)
  | .cmpExport .. => (execCmpExport_nexts ..).keeps (execCmpExport_keeps ..)
  | .compositeConfirm .. => (execCompositeConfirm_nexts ..).keeps (execCompositeConfirm_keeps ..)
  | .unitResetComplete => (execUnitResetComplete_nexts ..).keeps (execUnitResetComplete_keeps ..)
  | .reshapingComplete .. => (execReshapingComplete_nexts ..).keeps (execReshapingComplete_keeps ..)
  | .untCntvalRead .. => (execUntCntvalRead_nexts ..).keeps (execUntCntvalRead_keeps ..)
  | .gtMap .. => (execGtMap_nexts ..).keeps (execGtMap_keeps ..)
  | .gtUnmap .. => (execGtUnmap_nexts ..).keeps (execGtUnmap_keeps ..)
  | .gtSetattr .. => (execGtSetattr_nexts ..).keeps (execGtSetattr_keeps ..)
  | .gtRead .. => (execGtRead_nexts ..).keeps (execGtRead_keeps ..)
  | .scrubComplete .. => (execScrubComplete_nexts ..).keeps (execScrubComplete_keeps ..)
  | .makeColumnLocal .. => (execMakeColumnLocal_nexts ..).keeps (execMakeColumnLocal_keeps ..)
  | .makeSpread .. => (execMakeSpread_nexts ..).keeps (execMakeSpread_keeps ..)
  | .viSpillWrite .. => (execViSpillWrite_nexts ..).keeps (execViSpillWrite_keeps ..)
  | .devCtxSpillWrite .. => (execDevCtxSpillWrite_nexts ..).keeps (execDevCtxSpillWrite_keeps ..)
  | .patrolScrub .. => (execPatrolScrub_nexts ..).keeps (execPatrolScrub_keeps ..)
  | .mirrorWr .. => (execMirrorWr_nexts ..).keeps (execMirrorWr_keeps ..)
  | .mirrorAck .. => (execMirrorAck_nexts ..).keeps (execMirrorAck_keeps ..)
  | .synConfig .. => (execSynConfig_nexts ..).keeps (execSynConfig_keeps ..)
  | .synRead .. => (execSynRead_nexts ..).keeps (execSynRead_keeps ..)
  | .synRestore .. => (execSynRestore_nexts ..).keeps (execSynRestore_keeps ..)
  | .synUnset .. => (execSynUnset_nexts ..).keeps (execSynUnset_keeps ..)
  | .hostSemv .. => (execHostSemv_nexts ..).keeps (execHostSemv_keeps ..)
  | .hostSemt .. => (execHostSemt_nexts ..).keeps (execHostSemt_keeps ..)
  | .hostEcadd .. => (execHostEcadd_nexts ..).keeps (execHostEcadd_keeps ..)
  | .hostEcread .. => (execHostEcread_nexts ..).keeps (execHostEcread_keeps ..)
  | .syncOpAtHome .. => (execSyncOpAtHome_nexts ..).keeps (execSyncOpAtHome_keeps ..)
  | .nearUnitRelease .. => (execNearUnitRelease_nexts ..).keeps (execNearUnitRelease_keeps ..)
  | .syncWithdraw .. => (execSyncWithdraw_nexts ..).keeps (execSyncWithdraw_keeps ..)
  | .syncWatchdog .. => (execSyncWatchdog_nexts ..).keeps (execSyncWatchdog_keeps ..)
  | .nearUnitTimeout .. => (execNearUnitTimeout_nexts ..).keeps (execNearUnitTimeout_keeps ..)
  | .vfEnable .. => (execVfEnable_nexts ..).keeps (execVfEnable_keeps ..)
  | .vfDisable .. => (execVfDisable_nexts ..).keeps (execVfDisable_keeps ..)
  | .viPollWrite .. => (execViPollWrite_nexts ..).keeps (execViPollWrite_keeps ..)
  | .give .. => (execGive_nexts ..).keeps (execGive_keeps ..)
  | .share .. => (execShare_nexts ..).keeps (execShare_keeps ..)
  | .take .. => (execTake_nexts ..).keeps (execTake_keeps ..)
  | .reshare .. => (execReshare_nexts ..).keeps (execReshare_keeps ..)
  | .giveGroup .. => (execGiveGroup_nexts ..).keeps (execGiveGroup_keeps ..)
  | .takeGroup .. => (execTakeGroup_nexts ..).keeps (execTakeGroup_keeps ..)
  | .resRead .. => (execResRead_nexts ..).keeps (execResRead_keeps ..)
  | .viShareWrite .. => (execViShareWrite_nexts ..).keeps (execViShareWrite_keeps ..)
  | .viLimitsWrite .. => (execViLimitsWrite_nexts ..).keeps (execViLimitsWrite_keeps ..)
  | .handlerStart .. => (execHandlerStart_nexts ..).keeps (execHandlerStart_keeps ..)
  | .handlerStop .. => (execHandlerStop_nexts ..).keeps (execHandlerStop_keeps ..)
  | .viEvRingWrite .. => (execViEvRingWrite_nexts ..).keeps (execViEvRingWrite_keeps ..)
  | .viEvAckWrite .. => (execViEvAckWrite_nexts ..).keeps (execViEvAckWrite_keeps ..)
  | .viEvPostWrite .. => (execViEvPostWrite_nexts ..).keeps (execViEvPostWrite_keeps ..)
  | .instanceReset .. => (execInstanceReset_nexts ..).keeps (execInstanceReset_keeps ..)
  | .resetDrainComplete .. => (execResetDrainComplete_nexts ..).keeps (execResetDrainComplete_keeps ..)
  | .resetForceTimeout .. => (execResetForceTimeout_nexts ..).keeps (execResetForceTimeout_keeps ..)
  | .releaseComplete .. => (execReleaseComplete_nexts ..).keeps (execReleaseComplete_keeps ..)
  | .busMasterClear .. => (execBusMasterClear_nexts ..).keeps (execBusMasterClear_keeps ..)
  | .busMasterSet .. => (execBusMasterSet_nexts ..).keeps (execBusMasterSet_keeps ..)
  | .powerStateWrite .. => (execPowerStateWrite_nexts ..).keeps (execPowerStateWrite_keeps ..)
  | .functionLevelReset .. => (execFunctionLevelReset_nexts ..).keeps (execFunctionLevelReset_keeps ..)
  | .bar2Read .. => (execBar2Read_nexts ..).keeps (execBar2Read_keeps ..)
  | .bar2Write .. => (execBar2Write_nexts ..).keeps (execBar2Write_keeps ..)
  | .sqEnable .. => (execSqEnable_nexts ..).keeps (execSqEnable_keeps ..)
  | .sqDisable .. => (execSqDisable_nexts ..).keeps (execSqDisable_keeps ..)
  | .sqDrainComplete .. => (execSqDrainComplete_nexts ..).keeps (execSqDrainComplete_keeps ..)
  | .cqEnable .. => (execCqEnable_nexts ..).keeps (execCqEnable_keeps ..)
  | .cqDisable .. => (execCqDisable_nexts ..).keeps (execCqDisable_keeps ..)
  | .sqDoorbell .. => (execSqDoorbell_nexts ..).keeps (execSqDoorbell_keeps ..)
  | .cqDoorbell .. => (execCqDoorbell_nexts ..).keeps (execCqDoorbell_keeps ..)
  | .descriptorFetch .. => (execDescriptorFetch_nexts ..).keeps (execDescriptorFetch_keeps ..)
  | .pollPageUpdate .. => (execPollPageUpdate_nexts ..).keeps (execPollPageUpdate_keeps ..)
  | .hostReadCompletion .. => (execHostReadCompletion_nexts ..).keeps (execHostReadCompletion_keeps ..)
  | .completionTimeout .. => (execCompletionTimeout_nexts ..).keeps (execCompletionTimeout_keeps ..)
  | .unexpectedCompletion .. => (execUnexpectedCompletion_nexts ..).keeps (execUnexpectedCompletion_keeps ..)
  | .l0pEnter .. => (execL0pEnter_nexts ..).keeps (execL0pEnter_keeps ..)
  | .aspmL1Enter .. => (execAspmL1Enter_nexts ..).keeps (execAspmL1Enter_keeps ..)
  | .linkPowerExit .. => (execLinkPowerExit_nexts ..).keeps (execLinkPowerExit_keeps ..)
  | .upstreamPortReset .. => (execUpstreamPortReset_nexts ..).keeps (execUpstreamPortReset_keeps ..)
  | .perstDeassert .. => (execPerstDeassert_nexts ..).keeps (execPerstDeassert_keeps ..)
  | .copy .. => (execCopy_nexts ..).keeps (execCopy_keeps ..)
  | .descriptorGateRelease .. => (execDescriptorGateRelease_nexts ..).keeps (execDescriptorGateRelease_keeps ..)
  | .stgRead .. => (execStgRead_nexts ..).keeps (execStgRead_keeps ..)
  | .stgWrite .. => (execStgWrite_nexts ..).keeps (execStgWrite_keeps ..)
  | .stgFlush .. => (execStgFlush_nexts ..).keeps (execStgFlush_keeps ..)
  | .stgDeallocate .. => (execStgDeallocate_nexts ..).keeps (execStgDeallocate_keeps ..)
  | .stgWriteZeroes .. => (execStgWriteZeroes_nexts ..).keeps (execStgWriteZeroes_keeps ..)
  | .nvmeCompletion .. => (execNvmeCompletion_nexts ..).keeps (execNvmeCompletion_keeps ..)
  | .nvmeCmdTimeout .. => (execNvmeCmdTimeout_nexts ..).keeps (execNvmeCmdTimeout_keeps ..)
  | .storageWindowAccess .. => (execStorageWindowAccess_nexts ..).keeps (execStorageWindowAccess_keeps ..)
  | .downstreamLinkLoss .. => (execDownstreamLinkLoss_nexts ..).keeps (execDownstreamLinkLoss_keeps ..)
  | .downstreamPerstRelease .. => (execDownstreamPerstRelease_nexts ..).keeps (execDownstreamPerstRelease_keeps ..)
  | .tcpRetransmit .. => (execTcpRetransmit_nexts ..).keeps (execTcpRetransmit_keeps ..)
  | .frameReceive .. => (execFrameReceive_nexts ..).keeps (execFrameReceive_keeps ..)
  | .prmModeWrite .. => (execPrmModeWrite_nexts ..).keeps (execPrmModeWrite_keeps ..)
  | .ruleWrite .. => (execRuleWrite_nexts ..).keeps (execRuleWrite_keeps ..)
  | .ruleRead .. => (execRuleRead_nexts ..).keeps (execRuleRead_keeps ..)
  | .ruleClear .. => (execRuleClear_nexts ..).keeps (execRuleClear_keeps ..)
  | .commit .. => (execCommit_nexts ..).keeps (execCommit_keeps ..)
  | .bankCopyComplete .. => (execBankCopyComplete_nexts ..).keeps (execBankCopyComplete_keeps ..)
  | .test .. => (execTest_nexts ..).keeps (execTest_keeps ..)
  | .tplWrite .. => (execTplWrite_nexts ..).keeps (execTplWrite_keeps ..)
  | .tplRead .. => (execTplRead_nexts ..).keeps (execTplRead_keeps ..)
  | .bankError .. => (execBankError_nexts ..).keeps (execBankError_keeps ..)
  | .flowInsert .. => (execFlowInsert_nexts ..).keeps (execFlowInsert_keeps ..)
  | .flowRemove .. => (execFlowRemove_nexts ..).keeps (execFlowRemove_keeps ..)
  | .flowRead .. => (execFlowRead_nexts ..).keeps (execFlowRead_keeps ..)
  | .rxRingEnable .. => (execRxRingEnable_nexts ..).keeps (execRxRingEnable_keeps ..)
  | .rxRingDisable .. => (execRxRingDisable_nexts ..).keeps (execRxRingDisable_keeps ..)
  | .slowPathFrame .. => (execSlowPathFrame_nexts ..).keeps (execSlowPathFrame_keeps ..)
  | .reassemblyTimeout .. => (execReassemblyTimeout_nexts ..).keeps (execReassemblyTimeout_keeps ..)
  | .frameToIris .. => (execFrameToIris_nexts ..).keeps (execFrameToIris_keeps ..)
  | .shaperRefill .. => (execShaperRefill_nexts ..).keeps (execShaperRefill_keeps ..)
  | .frameTransmitStart .. => (execFrameTransmitStart_nexts ..).keeps (execFrameTransmitStart_keeps ..)
  | .frameTransmitEnd .. => (execFrameTransmitEnd_nexts ..).keeps (execFrameTransmitEnd_keeps ..)
  | .viShapeWrite .. => (execViShapeWrite_nexts ..).keeps (execViShapeWrite_keeps ..)
  | .irsCshapeWrite .. => (execIrsCshapeWrite_nexts ..).keeps (execIrsCshapeWrite_keeps ..)
  | .irsQcfgWrite .. => (execIrsQcfgWrite_nexts ..).keeps (execIrsQcfgWrite_keeps ..)
  | .configChange .. => (execConfigChange_nexts ..).keeps (execConfigChange_keeps ..)
  | .cancel .. => (execCancel_nexts ..).keeps (execCancel_keeps ..)
  | .gateEnWrite .. => (execGateEnWrite_nexts ..).keeps (execGateEnWrite_keeps ..)
  | .gateEntryAdvance .. => (execGateEntryAdvance_nexts ..).keeps (execGateEntryAdvance_keeps ..)
  | .configChangeTime .. => (execConfigChangeTime_nexts ..).keeps (execConfigChangeTime_keeps ..)
  | .txRingEnable .. => (execTxRingEnable_nexts ..).keeps (execTxRingEnable_keeps ..)
  | .txRingDisable .. => (execTxRingDisable_nexts ..).keeps (execTxRingDisable_keeps ..)
  | .txSlotTake .. => (execTxSlotTake_nexts ..).keeps (execTxSlotTake_keeps ..)
  | .queueSample .. => (execQueueSample_nexts ..).keeps (execQueueSample_keeps ..)
  | .sampleRingEnable .. => (execSampleRingEnable_nexts ..).keeps (execSampleRingEnable_keeps ..)
  | .brmWrite .. => (execBrmWrite_nexts ..).keeps (execBrmWrite_keeps ..)
  | .brmRead .. => (execBrmRead_nexts ..).keeps (execBrmRead_keeps ..)
  | .brmAtomic .. => (execBrmAtomic_nexts ..).keeps (execBrmAtomic_keeps ..)
  | .qpCreate .. => (execQpCreate_nexts ..).keeps (execQpCreate_keeps ..)
  | .connect .. => (execConnect_nexts ..).keeps (execConnect_keeps ..)
  | .qpDestroy .. => (execQpDestroy_nexts ..).keeps (execQpDestroy_keeps ..)
  | .qpQuery .. => (execQpQuery_nexts ..).keeps (execQpQuery_keeps ..)
  | .register .. => (execRegister_nexts ..).keeps (execRegister_keeps ..)
  | .revoke .. => (execRevoke_nexts ..).keeps (execRevoke_keeps ..)
  | .revokeComplete .. => (execRevokeComplete_nexts ..).keeps (execRevokeComplete_keeps ..)
  | .qpCloseComplete .. => (execQpCloseComplete_nexts ..).keeps (execQpCloseComplete_keeps ..)
  | .writePacket .. => (execWritePacket_nexts ..).keeps (execWritePacket_keeps ..)
  | .readReq .. => (execReadReq_nexts ..).keeps (execReadReq_keeps ..)
  | .readResp .. => (execReadResp_nexts ..).keeps (execReadResp_keeps ..)
  | .atomicReq .. => (execAtomicReq_nexts ..).keeps (execAtomicReq_keeps ..)
  | .atomicResp .. => (execAtomicResp_nexts ..).keeps (execAtomicResp_keeps ..)
  | .ack .. => (execAck_nexts ..).keeps (execAck_keeps ..)
  | .nak .. => (execNak_nexts ..).keeps (execNak_keeps ..)
  | .held .. => (execHeld_nexts ..).keeps (execHeld_keeps ..)
  | .connectReq .. => (execConnectReq_nexts ..).keeps (execConnectReq_keeps ..)
  | .connectResp .. => (execConnectResp_nexts ..).keeps (execConnectResp_keeps ..)
  | .disconnect .. => (execDisconnect_nexts ..).keeps (execDisconnect_keeps ..)
  | .placementPerformed .. => (execPlacementPerformed_nexts ..).keeps (execPlacementPerformed_keeps ..)
  | .ackTimer .. => (execAckTimer_nexts ..).keeps (execAckTimer_keeps ..)
  | .retransmitTimeout .. => (execRetransmitTimeout_nexts ..).keeps (execRetransmitTimeout_keeps ..)
  | .busyRetransmit .. => (execBusyRetransmit_nexts ..).keeps (execBusyRetransmit_keeps ..)
  | .connectReqTimer .. => (execConnectReqTimer_nexts ..).keeps (execConnectReqTimer_keeps ..)
  | .connectTimeout .. => (execConnectTimeout_nexts ..).keeps (execConnectTimeout_keeps ..)
  | .messageExpiry .. => (execMessageExpiry_nexts ..).keeps (execMessageExpiry_keeps ..)
  | .portEnable .. => (execPortEnable_nexts ..).keeps (execPortEnable_keeps ..)
  | .portDisable .. => (execPortDisable_nexts ..).keeps (execPortDisable_keeps ..)
  | .linkPacketReceive .. => (execLinkPacketReceive_nexts ..).keeps (execLinkPacketReceive_keeps ..)
  | .linkRetryRequest .. => (execLinkRetryRequest_nexts ..).keeps (execLinkRetryRequest_keeps ..)
  | .linkCtlAck .. => (execLinkCtlAck_nexts ..).keeps (execLinkCtlAck_keeps ..)
  | .linkInit .. => (execLinkInit_nexts ..).keeps (execLinkInit_keeps ..)
  | .laneFailure .. => (execLaneFailure_nexts ..).keeps (execLaneFailure_keeps ..)
  | .lossOfLock .. => (execLossOfLock_nexts ..).keeps (execLossOfLock_keeps ..)
  | .trainingTimeout .. => (execTrainingTimeout_nexts ..).keeps (execTrainingTimeout_keeps ..)
  | .retrainTimer .. => (execRetrainTimer_nexts ..).keeps (execRetrainTimer_keeps ..)
  | .devFabCfgWrite .. => (execDevFabCfgWrite_nexts ..).keeps (execDevFabCfgWrite_keeps ..)
  | .devPairCfgWrite .. => (execDevPairCfgWrite_nexts ..).keeps (execDevPairCfgWrite_keeps ..)
  | .takeover .. => (execTakeover_nexts ..).keeps (execTakeover_keeps ..)
  | .resync .. => (execResync_nexts ..).keeps (execResync_keeps ..)
  | .resyncComplete => (execResyncComplete_nexts ..).keeps (execResyncComplete_keeps ..)
  | .pairHeartbeat => (execPairHeartbeat_nexts ..).keeps (execPairHeartbeat_keeps ..)
  | .pairPacketReceive .. => (execPairPacketReceive_nexts ..).keeps (execPairPacketReceive_keeps ..)
  | .partnerLost => (execPartnerLost_nexts ..).keeps (execPartnerLost_keeps ..)
  | .mirrorLostNotice => (execMirrorLostNotice_nexts ..).keeps (execMirrorLostNotice_keeps ..)
  | .mirrorLostRepeat => (execMirrorLostRepeat_nexts ..).keeps (execMirrorLostRepeat_keeps ..)
  | .mirrorLostAck => (execMirrorLostAck_nexts ..).keeps (execMirrorLostAck_keeps ..)
  | .snapshot .. => (execSnapshot_nexts ..).keeps (execSnapshot_keeps ..)
  | .snapshotArm .. => (execSnapshotArm_nexts ..).keeps (execSnapshotArm_keeps ..)
  | .pageCopy .. => (execPageCopy_nexts ..).keeps (execPageCopy_keeps ..)
  | .chunkVerify .. => (execChunkVerify_nexts ..).keeps (execChunkVerify_keeps ..)
  | .snapshotSeal .. => (execSnapshotSeal_nexts ..).keeps (execSnapshotSeal_keeps ..)
  | .restore .. => (execRestore_nexts ..).keeps (execRestore_keeps ..)
  | .catalogueReadComplete .. => (execCatalogueReadComplete_nexts ..).keeps (execCatalogueReadComplete_keeps ..)
  | .restorePage .. => (execRestorePage_nexts ..).keeps (execRestorePage_keeps ..)
  | .abort .. => (execAbort_nexts ..).keeps (execAbort_keeps ..)
  | .install .. => (execInstall_nexts ..).keeps (execInstall_keeps ..)
  | .clear .. => (execClear_nexts ..).keeps (execClear_keeps ..)
  | .keyRead .. => (execKeyRead_nexts ..).keeps (execKeyRead_keeps ..)
  | .installSa .. => (execInstallSa_nexts ..).keeps (execInstallSa_keeps ..)
  | .retireSa .. => (execRetireSa_nexts ..).keeps (execRetireSa_keeps ..)
  | .msecCfgWrite .. => (execMsecCfgWrite_nexts ..).keeps (execMsecCfgWrite_keeps ..)
  | .getVersion .. => (execGetVersion_nexts ..).keeps (execGetVersion_keeps ..)
  | .getCapabilities .. => (execGetCapabilities_nexts ..).keeps (execGetCapabilities_keeps ..)
  | .negotiateAlgorithms .. => (execNegotiateAlgorithms_nexts ..).keeps (execNegotiateAlgorithms_keeps ..)
  | .getDigests .. => (execGetDigests_nexts ..).keeps (execGetDigests_keeps ..)
  | .getCertificate .. => (execGetCertificate_nexts ..).keeps (execGetCertificate_keeps ..)
  | .challenge .. => (execChallenge_nexts ..).keeps (execChallenge_keeps ..)
  | .getMeasurements .. => (execGetMeasurements_nexts ..).keeps (execGetMeasurements_keeps ..)
  | .keyExchange .. => (execKeyExchange_nexts ..).keeps (execKeyExchange_keeps ..)
  | .finish .. => (execFinish_nexts ..).keeps (execFinish_keeps ..)
  | .heartbeat .. => (execHeartbeat_nexts ..).keeps (execHeartbeat_keeps ..)
  | .keyUpdate .. => (execKeyUpdate_nexts ..).keeps (execKeyUpdate_keeps ..)
  | .endSession .. => (execEndSession_nexts ..).keeps (execEndSession_keeps ..)
  | .setKek .. => (execSetKek_nexts ..).keeps (execSetKek_keeps ..)
  | .ideQuery .. => (execIdeQuery_nexts ..).keeps (execIdeQuery_keeps ..)
  | .keyProg .. => (execKeyProg_nexts ..).keeps (execKeyProg_keeps ..)
  | .kSetGo .. => (execKSetGo_nexts ..).keeps (execKSetGo_keeps ..)
  | .kSetStop .. => (execKSetStop_nexts ..).keeps (execKSetStop_keeps ..)
  | .getInfo .. => (execGetInfo_nexts ..).keeps (execGetInfo_keeps ..)
  | .featureSet .. => (execFeatureSet_nexts ..).keeps (execFeatureSet_keeps ..)
  | .featureGet .. => (execFeatureGet_nexts ..).keeps (execFeatureGet_keeps ..)
  | .stage .. => (execStage_nexts ..).keeps (execStage_keeps ..)
  | .activate .. => (execActivate_nexts ..).keeps (execActivate_keeps ..)
  | .activateCancel .. => (execActivateCancel_nexts ..).keeps (execActivateCancel_keeps ..)
  | .deferredActivationTimer => (execDeferredActivationTimer_nexts ..).keeps (execDeferredActivationTimer_keeps ..)
  | .svnCommit .. => (execSvnCommit_nexts ..).keeps (execSvnCommit_keeps ..)
  | .keyRevoke .. => (execKeyRevoke_nexts ..).keeps (execKeyRevoke_keeps ..)
  | .logCfg .. => (execLogCfg_nexts ..).keeps (execLogCfg_keeps ..)
  | .traceCfg .. => (execTraceCfg_nexts ..).keeps (execTraceCfg_keeps ..)
  | .stgBind .. => (execStgBind_nexts ..).keeps (execStgBind_keeps ..)
  | .stgUnbind .. => (execStgUnbind_nexts ..).keeps (execStgUnbind_keeps ..)
  | .slowCfg .. => (execSlowCfg_nexts ..).keeps (execSlowCfg_keeps ..)
  | .ptpCfg .. => (execPtpCfg_nexts ..).keeps (execPtpCfg_keeps ..)
  | .restart .. => (execRestart_nexts ..).keeps (execRestart_keeps ..)
  | .ptpMessage .. => (execPtpMessage_nexts ..).keeps (execPtpMessage_keeps ..)
  | .stewardWatchdog .. => (execStewardWatchdog_nexts ..).keeps (execStewardWatchdog_keeps ..)
  | .stewardFault .. => (execStewardFault_nexts ..).keeps (execStewardFault_keeps ..)
  | .stewardRestartDone .. => (execStewardRestartDone_nexts ..).keeps (execStewardRestartDone_keeps ..)
  | .fwLogRingWrite .. => (execFwLogRingWrite_nexts ..).keeps (execFwLogRingWrite_keeps ..)
  | .fwLogAckWrite .. => (execFwLogAckWrite_nexts ..).keeps (execFwLogAckWrite_keeps ..)
  | .mctpControl .. => (execMctpControl_nexts ..).keeps (execMctpControl_keeps ..)
  | .pldmPlatform .. => (execPldmPlatform_nexts ..).keeps (execPldmPlatform_keeps ..)
  | .pldmFirmwareUpdate .. => (execPldmFirmwareUpdate_nexts ..).keeps (execPldmFirmwareUpdate_keeps ..)
  | .activateFirmware .. => (execActivateFirmware_nexts ..).keeps (execActivateFirmware_keeps ..)
  | .tallyFrameSend .. => (execTallyFrameSend_nexts ..).keeps (execTallyFrameSend_keeps ..)
  | .tallyFrameReceive .. => (execTallyFrameReceive_nexts ..).keeps (execTallyFrameReceive_keeps ..)
  | .intervalEnd .. => (execIntervalEnd_nexts ..).keeps (execIntervalEnd_keeps ..)
  | .fetch .. => (execFetch_nexts ..).keeps (execFetch_keeps ..)
  | .quote .. => (execQuote_nexts ..).keeps (execQuote_keeps ..)
  | .sealBroken => (execSealBroken_nexts ..).keeps (execSealBroken_keeps ..)
  | .islandPowerUp .. => (execIslandPowerUp_nexts ..).keeps (execIslandPowerUp_keeps ..)
  | .goBright .. => (execGoBright_nexts ..).keeps (execGoBright_keeps ..)
  | .goDim .. => (execGoDim_nexts ..).keeps (execGoDim_keeps ..)
  | .goDark .. => (execGoDark_nexts ..).keeps (execGoDark_keeps ..)
  | .darkEntryComplete => (execDarkEntryComplete_nexts ..).keeps (execDarkEntryComplete_keeps ..)
  | .autoDimTimeout => (execAutoDimTimeout_nexts ..).keeps (execAutoDimTimeout_keeps ..)
  | .wake .. => (execWake_nexts ..).keeps (execWake_keeps ..)
  | .wakeTimer => (execWakeTimer_nexts ..).keeps (execWakeTimer_keeps ..)
  | .pwrCluFreqWrite .. => (execPwrCluFreqWrite_nexts ..).keeps (execPwrCluFreqWrite_keeps ..)
  | .freqChangeDone .. => (execFreqChangeDone_nexts ..).keeps (execFreqChangeDone_keeps ..)
  | .lpeChcfgWrite .. => (execLpeChcfgWrite_nexts ..).keeps (execLpeChcfgWrite_keeps ..)
  | .loupeSample .. => (execLoupeSample_nexts ..).keeps (execLoupeSample_keeps ..)
  | .loupeMsTick => (execLoupeMsTick_nexts ..).keeps (execLoupeMsTick_keeps ..)
  | .inputOvercurrent .. => (execInputOvercurrent_nexts ..).keeps (execInputOvercurrent_keeps ..)
  | .errorHandle .. => (execErrorHandle_nexts ..).keeps (execErrorHandle_keeps ..)
  | .errorSecondTick => (execErrorSecondTick_nexts ..).keeps (execErrorSecondTick_keeps ..)
  | .errAckWrite .. => (execErrAckWrite_nexts ..).keeps (execErrAckWrite_keeps ..)
  | .errCfgWrite .. => (execErrCfgWrite_nexts ..).keeps (execErrCfgWrite_keeps ..)
  | .errFctOffWrite .. => (execErrFctOffWrite_nexts ..).keeps (execErrFctOffWrite_keeps ..)
  | .devTimeMax => (execDevTimeMax_nexts ..).keeps (execDevTimeMax_keeps ..)
  | .deviceReset .. => (execDeviceReset_nexts ..).keeps (execDeviceReset_keeps ..)
  | .deviceResetComplete => (execDeviceResetComplete_nexts ..).keeps (execDeviceResetComplete_keeps ..)
  | .readPhys .. => (execReadPhys_nexts ..).keeps (execReadPhys_keeps ..)
  | .writePhys .. => (execWritePhys_nexts ..).keeps (execWritePhys_keeps ..)
  | .readSreg .. => (execReadSreg_nexts ..).keeps (execReadSreg_keeps ..)
  | .writeSreg .. => (execWriteSreg_nexts ..).keeps (execWriteSreg_keeps ..)
  | .haltThread .. => (execHaltThread_nexts ..).keeps (execHaltThread_keeps ..)
  | .resumeThread .. => (execResumeThread_nexts ..).keeps (execResumeThread_keeps ..)
  | .endThread .. => (execEndThread_nexts ..).keeps (execEndThread_keeps ..)
  | .haltCore .. => (execHaltCore_nexts ..).keeps (execHaltCore_keeps ..)
  | .stepCore .. => (execStepCore_nexts ..).keeps (execStepCore_keeps ..)
  | .resumeCore .. => (execResumeCore_nexts ..).keeps (execResumeCore_keeps ..)
  | .extest .. => (execExtest_nexts ..).keeps (execExtest_keeps ..)
  | .samplePreload .. => (execSamplePreload_nexts ..).keeps (execSamplePreload_keeps ..)
  | .idcode => (execIdcode_nexts ..).keeps (execIdcode_keeps ..)
  | .dbgacc .. => (execDbgacc_nexts ..).keeps (execDbgacc_keeps ..)
  | .bypass => (execBypass_nexts ..).keeps (execBypass_keeps ..)
  | .tapReset => (execTapReset_nexts ..).keeps (execTapReset_keeps ..)
  | .cntVicfgWrite .. => (execCntVicfgWrite_nexts ..).keeps (execCntVicfgWrite_keeps ..)
  | .samplerEnable .. => (execSamplerEnable_nexts ..).keeps (execSamplerEnable_keeps ..)
  | .counterSample .. => (execCounterSample_nexts ..).keeps (execCounterSample_keeps ..)
  | .trcCfgWrite .. => (execTrcCfgWrite_nexts ..).keeps (execTrcCfgWrite_keeps ..)
  | .fire .. => (execFire_nexts ..).keeps (execFire_keeps ..)
  | .arm .. => (execArm_nexts ..).keeps (execArm_keeps ..)
  | .trcMarkWrite .. => (execTrcMarkWrite_nexts ..).keeps (execTrcMarkWrite_keeps ..)
  | .trcHostAckWrite .. => (execTrcHostAckWrite_nexts ..).keeps (execTrcHostAckWrite_keeps ..)
  | .pwrEnHigh .. => (execPwrEnHigh_nexts ..).keeps (execPwrEnHigh_keeps ..)
  | .pwrEnLow => (execPwrEnLow_nexts ..).keeps (execPwrEnLow_keeps ..)
  | .inputRise .. => (execInputRise_nexts ..).keeps (execInputRise_keeps ..)
  | .inputUndervoltage => (execInputUndervoltage_nexts ..).keeps (execInputUndervoltage_keeps ..)
  | .inputRemoved .. => (execInputRemoved_nexts ..).keeps (execInputRemoved_keeps ..)
  | .modRst => (execModRst_nexts ..).keeps (execModRst_keeps ..)
  | .convert .. => (execConvert_nexts ..).keeps (execConvert_keeps ..)
  | .coolant => (execCoolant_nexts ..).keeps (execCoolant_keeps ..)
  | .coolantTimeout => (execCoolantTimeout_nexts ..).keeps (execCoolantTimeout_keeps ..)
  | .rails => (execRails_nexts ..).keeps (execRails_keeps ..)
  | .secure => (execSecure_nexts ..).keeps (execSecure_keeps ..)
  | .train .. => (execTrain_nexts ..).keeps (execTrain_keeps ..)
  | .fill => (execFill_nexts ..).keeps (execFill_keeps ..)
  | .firmware => (execFirmware_nexts ..).keeps (execFirmware_keeps ..)
  | .registerWrite .. => (execRegisterWrite_nexts ..).keeps (execRegisterWrite_keeps ..)
  | .illegalEncoding .. => (execIllegalEncoding_nexts ..).keeps (execIllegalEncoding_keeps ..)
  | .presenceDetectChange .. => (execPresenceDetectChange_nexts ..).keeps (execPresenceDetectChange_keeps ..)
  | .ethernetLinkDown .. => (execEthernetLinkDown_nexts ..).keeps (execEthernetLinkDown_keeps ..)
  | .ethernetLinkUp .. => (execEthernetLinkUp_nexts ..).keeps (execEthernetLinkUp_keeps ..)
  | .linkAckInterval .. => (execLinkAckInterval_nexts ..).keeps (execLinkAckInterval_keeps ..)
  | .wakeComplete => (execWakeComplete_nexts ..).keeps (execWakeComplete_keeps ..)
  | .activationComplete .. => (execActivationComplete_nexts ..).keeps (execActivationComplete_keeps ..)
  | .heartbeatPeriodExpiry .. => (execHeartbeatPeriodExpiry_nexts ..).keeps (execHeartbeatPeriodExpiry_keeps ..)

/-! ## A step -/

/-- A step answers a next state, which keeps all of the state that the front command finds. -/
theorem step_nexts_keeps (s : State) : ∃ t, step s = .next t ∧ Keeps { s with pending := s.pending.tail } t := by
  unfold step
  split
  next empty =>
    have same : { s with pending := s.pending.tail } = s := by rw [empty, List.tail_nil, ← empty]
    exact ⟨tick s, rfl, same.symm ▸ tick_keeps s⟩
  next c r front =>
    rw [front, List.tail_cons]
    exact exec_nexts_keeps c _

/-- No bit of `a` is lost in `b`. -/
theorem getLsbD_of_and_eq_self {n : Nat} {a b : BitVec n} (h : a &&& b = a) {k : Nat} (ha : a.getLsbD k = true) :
    b.getLsbD k = true := by
  rw [← h, BitVec.getLsbD_and, Bool.and_eq_true] at ha
  exact ha.2

/-! ## The statements -/

/-- Settles O1: `step` reads its queue, and the decoder spells no command. -/
theorem stepRunsTheFrontCommand : Obligations.StepRunsTheFrontCommand := by
  unfold Obligations.StepRunsTheFrontCommand
  exact ⟨step_of_cons, fun _ => step_of_empty, fun s nbits w => ⟨rfl, withFetchWord_eq s nbits w⟩⟩

/-- Settles O3: the memories are among what a step keeps. -/
theorem everyStepKeepsCanonicalMemory : Obligations.EveryStepKeepsCanonicalMemory := by
  unfold Obligations.EveryStepKeepsCanonicalMemory
  rintro s s' ran ⟨mem, stores⟩
  obtain ⟨t, next, kept⟩ := step_nexts_keeps s
  obtain rfl : t = s' := Host.Outcome.next.inj (next.symm.trans ran)
  exact ⟨kept.mem mem, kept.fstore stores⟩

/-- Settles O4: the waiting commands and the fuses are among what a step keeps. -/
theorem everyStepAnswersAndFusesHold : Obligations.EveryStepAnswersAndFusesHold := by
  unfold Obligations.EveryStepAnswersAndFusesHold
  intro s
  obtain ⟨t, next, kept⟩ := step_nexts_keeps s
  exact ⟨t, next, kept.pending, kept.fused, fun _ => getLsbD_of_and_eq_self kept.revoked⟩

end Sys2Proof.Machine

/-! The statement about the pair: its configuration, TAKEOVER and RESYNC, heartbeats, the loss of the partner and of the mirror
(R448-R457). -/

namespace Sys2Proof.Machine

/-- A write of a PF's register performs the handler; what that makes of the waiting threads is settled. -/
theorem hostPf_settles_to {s u : State} {fn : Fn} {off : Nat} {v : Word} {body : State → State} (hp : isPf fn = true)
    (h : HostReaches s fn off) (hb : body s = u) : hostPf fn off v body s = .next (settle u) :=
  hb ▸ hostPf_settles hp h

/-! ## Configuration (R448, R454) -/

section
variable {s : State} {fn : Fn} {v : Word}

theorem pairCfgWr_absent
    (absent : bits v 63 62 = 1 ∧ featureVer s.fw 5 = 0 ∨ bits v 63 62 = 2 ∧ featureVer s.fw 6 = 0) :
    pairCfgWr fn v s = accessErr s fn (devReg 0x4808) := by
  have known : bits v 63 62 ≠ 3 := by rcases absent with ⟨h, -⟩ | ⟨h, -⟩ <;> omega
  simp [pairCfgWr, known, absent]

/-- A mode that the features allow is in effect at once while the pair is not JOINED and no granule is mirrored. -/
theorem pairCfgWr_stores (known : bits v 63 62 ≠ 3) (low : 10 ≤ bits v 19 0) (high : bits v 19 0 ≤ 1000000)
    (allowed : ¬(bits v 63 62 = 1 ∧ featureVer s.fw 5 = 0 ∨ bits v 63 62 = 2 ∧ featureVer s.fw 6 = 0)) (plain : anyMirror s = false)
    (alone : s.pair.st ≠ 2) (measured : bits v 63 62 = 0 ∨ bits (pairCfg s) 63 62 ≠ 0) :
    pairCfgWr fn v s = { rset s (devReg 0x4808) (at_ (bits v 63 62) 62 ||| (v &&& 0x3000000000000000) ||| at_ (bits v 19 0) 0) with
      pair := { s.pair with isolated := false, mode := BitVec.ofNat 2 (bits v 63 62) } } := by
  have unchanged : ¬(bits v 63 62 ≠ 0 ∧ bits (pairCfg s) 63 62 = 0) := by tauto
  simp only [pairCfgWr, known, low, high, plain, allowed, alone, unchanged, and_self, and_false, false_and, or_self, if_true, if_false,
    Bool.false_eq_true, rset_pair]

end

/-! ## Commands of the pair manager (R455, R456) -/

section
variable (s : State) (v : Word)

theorem pairCfg_rset_cmd : pairCfg (rset s (devReg 0x4810) v) = pairCfg s := rget_rset_ne _ _ (by decide)

theorem isStandby_rset_cmd : isStandby (rset s (devReg 0x4810) v) = isStandby s := by rw [isStandby, pairCfg_rset_cmd, isStandby]

theorem mirrorOn_rset_cmd : mirrorOn (rset s (devReg 0x4810) v) = mirrorOn s := by
  have use_ : portUse (rset s (devReg 0x4810) v) 7 = portUse s 7 :=
    congrArg (fun w => bits w 59 58) (rget_rset_ne _ _ (by decide))
  unfold mirrorOn linkOn
  rw [use_]
  rfl

end

theorem pairCmdWr_takeover {s : State} (free : s.pair.busy = false) :
    let w := rset s (devReg 0x4810) (at_ 1 0)
    pairCmdWr 1 s =
      if bits (pairCfg s) 63 62 ≠ 1 ∨ isStandby s = false then pairDone w 0x0B 0xA1
      else if s.pair.st ≠ 3 then pairDone w 1 0xA3
      else if s.pair.mirAtLoss = false then pairDone w 8 0xA2
      else pairDone (takeOver w) 0 0 := by
  have op : bits 1#64 3 0 = 1 := by decide
  simp [pairCmdWr, op, free, pairCfg_rset_cmd, isStandby_rset_cmd]

theorem pairCmdWr_resync {s : State} (free : s.pair.busy = false) (active : isStandby s = false) (mode : mirrored s = true)
    (joined : s.pair.st = 2) (link : mirrorOn s = true) (flows : s.pair.holding = false) :
    let w := rset s (devReg 0x4810) (at_ 2 0)
    pairCmdWr 2 s = { w with pair := { s.pair with
      busy := true, st := 5, resyncAt := some 0, resyncLeft := (mirrorHolders w).foldl (fun a e => a + e.2) 0 } } := by
  have op : bits 2#64 3 0 = 2 := by decide
  have mode' : mirrored (rset s (devReg 0x4810) (at_ 2 0)) = true := mode
  simp [pairCmdWr, op, free, isStandby_rset_cmd, active, mode', joined, mirrorOn_rset_cmd, link, flows]

/-! ## Heartbeats and losses (R448, R449, R451, R457) -/

section
variable {s : State} (works : working s = true)
include works

section
variable (speaks : s.pair.st = 1 ∨ s.pair.st = 2 ∨ s.pair.st = 5)
include speaks

theorem heartbeats : ¬((!working s) = true ∨ (!(s.pair.st == 1 || s.pair.st == 2 || s.pair.st == 5)) = true) := by
  rcases speaks with h | h | h <;> simp [works, h]

theorem pairHeartbeat_mirror (link : mirrorOn s = true) (due : 1000 ≤ (s.devTime - s.pair.beatAt).toNat) :
    exec .pairHeartbeat s = .next { s with pair := { s.pair with beatAt := s.devTime, viaTorus := false } } :=
  (if_neg (heartbeats works speaks)).trans ((if_pos link).trans (if_pos due))

theorem pairHeartbeat_torus (noLink : mirrorOn s = false) (due : 10000 ≤ (s.devTime - s.pair.beatAt).toNat) :
    exec .pairHeartbeat s = .next { s with pair := { s.pair with beatAt := s.devTime, viaTorus := true } } :=
  (if_neg (heartbeats works speaks)).trans ((if_neg (ne_true_of_eq_false noLink)).trans (if_pos due))

end

theorem mirrorLostNotice_marks (joined : s.pair.st = 2 ∨ s.pair.st = 5) (mode : mirrored s = true) (standby : isStandby s = true) :
    exec .mirrorLostNotice s = .next { s with pair := { s.pair with lastHeard := s.devTime, mir := 2 } } :=
  (if_pos ⟨works, joined⟩).trans (congrArg Host.Outcome.next (if_pos (Bool.and_eq_true_iff.mpr ⟨mode, standby⟩)))

end

theorem mirrorLostAck_loses {s : State} (holds : s.pair.holding = true) (noResync : s.pair.st ≠ 5) :
    exec .mirrorLostAck s = .next (settle (mirrorIsLost { s with pair := { s.pair with lastHeard := s.devTime } })) := by
  simp only [exec_mirrorLostAck, execMirrorLostAck, holds, Bool.not_true, Bool.false_eq_true, if_false, noResync]

/-! ## The statement -/

/-- Settles O48: each command and each message meets one case of its handler, named by the lemmas above. -/
theorem pairOperations : Obligations.PairOperations := by
  unfold Obligations.PairOperations
  intro s fn pr
  refine ⟨fun v pf h => ?config, fun pf h free => ?commands, fun st link flows done => if_pos ⟨st, link, Bool.not_eq_true' _ |>.mpr flows, done⟩,
    fun works => ?partner, fun holds => ?mirror⟩
  case config =>
    intro old mode known low high absent
    exact ⟨fun refused => hostPf_settles_to pf h (pairCfgWr_absent refused),
      fun allowed plain alone measured => hostPf_ok pf h (pairCfgWr_stores known low high allowed plain alone measured) rfl⟩
  case commands =>
    intro w
    have takes := pairCmdWr_takeover free
    refine ⟨fun refused => hostPf_settles_to pf h (takes.trans (if_pos refused)), fun mode standby => ?takeover,
      fun active mode joined link flows => hostPf_ok pf h (pairCmdWr_resync free active mode joined link flows) rfl⟩
    case takeover =>
      have able : ¬(bits (pairCfg s) 63 62 ≠ 1 ∨ isStandby s = false) := by simp [mode, standby]
      replace takes := takes.trans (if_neg able)
      refine ⟨fun notLost => hostPf_settles_to pf h (takes.trans (if_pos notLost)), fun lost stale => ?_, fun lost kept => ?_⟩
      · exact hostPf_settles_to pf h ((takes.trans (if_neg (not_not.mpr lost))).trans (if_pos stale))
      · exact hostPf_settles_to pf h ((takes.trans (if_neg (not_not.mpr lost))).trans (if_neg (ne_false_of_eq_true kept)))
  case partner =>
    exact ⟨fun speaks => ⟨pairHeartbeat_mirror works speaks, pairHeartbeat_torus works speaks⟩, fun m link => if_pos ⟨works, link⟩,
      fun joined => ⟨fun silent => if_pos ⟨works, joined, silent⟩, mirrorLostNotice_marks works joined⟩⟩
  case mirror =>
    exact ⟨fun due => if_pos ⟨holds, due⟩, mirrorLostAck_loses holds⟩

end Sys2Proof.Machine

/-! The statement about Barvar links: their configuration, packets in and out of sequence, replay, LINK_INIT, lost lanes and links, and
`DEV_FAB_CFG` (R434, R437-R442). -/

namespace Sys2Proof.Machine

/-! ## `PHY_CFG` (R434, R440) -/

section
variable (en : Bool) (c : PhyCfgW)

theorem bit_phyCfgWord_en : bit (phyCfgWord en c) 63 = en := by
  have use_ : c.use_.toNat.testBit 5 = false := Nat.testBit_lt_two_pow (c.use_.isLt.trans (by decide))
  have dir : c.dir.toNat.testBit 8 = false := Nat.testBit_lt_two_pow (c.dir.isLt.trans (by decide))
  have frame : c.maxFrame.toNat.testBit 63 = false := Nat.testBit_lt_two_pow (c.maxFrame.isLt.trans (by decide))
  rw [bit_eq_getLsbD]
  simp only [phyCfgWord, at_, BitVec.getLsbD_or, BitVec.getLsbD_ofNat, Nat.testBit_shiftLeft, use_, dir, frame, Nat.reduceSub,
    Nat.sub_zero, Bool.and_false, Bool.or_false]
  cases en <;> simp [b2n]

/-- EN shares no bit with the fields below it. -/
theorem bits_phyCfgWord {hi lo : Nat} (h : hi < 63) : bits (phyCfgWord en c) hi lo = bits (phyCfgWord true c) hi lo := by
  refine Nat.eq_of_testBit_eq fun i => ?_
  rw [testBit_bits, testBit_bits]
  by_cases inside : i < hi + 1 - lo
  · have below : ¬ 63 ≤ lo + i := by omega
    simp [phyCfgWord, at_, BitVec.getLsbD_ofNat, below]
  · simp [inside]

end

section
variable {s : State} {fn : Fn} {p : Port} {v : Word} (use_ : bits v 59 58 = bits (phyCfg s p) 59 58)
  (dir : bits v 57 55 = bits (phyCfg s p) 57 55) (known : bits (phyCfg s p) 57 55 ≤ 5) (low : 64 ≤ bits v 13 0) (high : bits v 13 0 ≤ 9216)
include use_ dir known low high

/-- EN 1 trains a port of a used kind. -/
theorem phyCfgWr_trains (used : bits v 59 58 ≠ 0) (off : bit (phyCfg s p) 63 = false) (en : bit v 63 = true) :
    phyCfgWr fn p v s = setPhy
      (rset s (portReg p 0x8000) (at_ 1 63 ||| at_ (bits v 59 58) 58 ||| at_ (bits v 57 55) 55 ||| at_ (bits v 13 0) 0)) p
      { getPhy s p with st := 1, lanes := 0, half := false, since := s.devTime } := by
  rw [use_] at used
  simp only [phyCfgWr, use_, dir, known, low, high, used, off, en, ne_eq, not_true_eq_false, not_false_eq_true, decide_true, decide_false,
    Bool.or_self, Bool.false_and, Bool.and_self, Bool.not_true, Bool.not_false, Bool.false_eq_true, if_true, if_false, and_self]
  rfl

/-- EN 0 takes the port down. -/
theorem phyCfgWr_stops (on : bit (phyCfg s p) 63 = true) (en : bit v 63 = false) :
    let off := setPhy s p { getPhy s p with st := 5, lanes := 0, half := false, since := s.devTime }
    phyCfgWr fn p v s = rset (if 2 ≤ portUse s p then linkLost off p else off) (portReg p 0x8000)
      (at_ 0 63 ||| at_ (bits v 59 58) 58 ||| at_ (bits v 57 55) 55 ||| at_ (bits v 13 0) 0) := by
  simp only [phyCfgWr, use_, dir, known, low, high, on, en, ne_eq, not_true_eq_false, decide_false, Bool.or_self, Bool.false_and,
    Bool.and_self, Bool.not_false, Bool.false_eq_true, if_true, if_false, and_self]
  rfl

end

/-! ## Packets (R437, R439) -/

section
variable {s : State} {p : Port} {k : LinkPkt} (on : linkOn s p = true) (carried : k.ty ≠ 0x0F) (header : k.hcrcOk = true)
include on carried header

theorem linkPacket_outOfOrder (other : k.lseq ≠ (getPhy s p).rxSeq) : exec (.linkPacketReceive p k) s = .next s := by
  simp only [exec_linkPacketReceive, execLinkPacketReceive, on, carried, header, other, ne_eq, not_false_eq_true, Bool.not_true,
    Bool.false_eq_true, or_self, if_true, if_false]

variable (next : k.lseq = (getPhy s p).rxSeq)
include next

theorem linkPacket_stomped (stomp : k.stomp = true) :
    exec (.linkPacketReceive p k) s = .next (tookPacket (phyCount s p 4) p) := by
  simp only [exec_linkPacketReceive, execLinkPacketReceive, on, carried, header, next, stomp, ne_eq, not_true_eq_false, Bool.not_true,
    Bool.false_eq_true, or_self, if_true, if_false]

/-- A packet in sequence whose checks hold is taken. -/
theorem linkPacket_taken (whole : k.stomp = false) (payload : k.pcrcOk = true) (type : knownType k.ty = true) (channel : k.vc.toNat ≤ 7)
    (length : k.body.length ≤ 4168) : exec (.linkPacketReceive p k) s =
      if k.dst = ownSite s then .next (settle (takeLocal (tookPacket s p) p k))
      else if k.ty = 1 ∨ k.ty = 2 ∨ k.ty = 5 then .next (forward (tookPacket s p) (some p) none k)
      else .next (tookPacket s p) := by
  have form : ¬((!knownType k.ty) = true ∨ k.vc > 7 ∨ k.body.length > 4168) := by
    simp only [type, Bool.not_true, Bool.false_eq_true, false_or, not_or, not_lt]
    exact ⟨not_lt.mpr channel, length⟩
  simp only [exec_linkPacketReceive, execLinkPacketReceive, on, carried, header, next, whole, payload, form, ne_eq, not_true_eq_false,
    Bool.not_true, Bool.false_eq_true, or_self, if_false]

end

/-! ## Replay and training (R437, R440) -/

section
variable {s : State} {p : Port}

theorem linkRetryRequest_counts (on : linkOn s p = true) (lseq : BitVec 12) :
    let h := getPhy s p
    let n := if h.replays > 0 ∧ h.replayAt = lseq then h.replays + 1 else 1
    let w := linkErr (setPhy s p { h with replays := n, replayAt := lseq, cnt := bumpCnt h.cnt 3 1 }) p 7 1
    exec (.linkRetryRequest p lseq) s = .next (settle (if n ≥ 8 then goDown w p else w)) :=
  if_neg (by simp [on])

section
variable (used : barvar s p = true)
include used

theorem linkInit_ends (training : (getPhy s p).st = 1) (far : LinkInit) :
    let h := getPhy s p
    let up := setPhy s p { h with st := if h.half then 3 else 2, lanes := if h.half then 4 else 8, nbr := far.dev, since := s.devTime }
    exec (.linkInit p far) s =
      if initMatches s p far then .next (if portUse s p = 3 ∧ s.pair.st = 0 then { up with pair := { s.pair with st := 1 } } else up)
      else .next (linkLost (setPhy s p { h with st := 4, lanes := 0, nbr := far.dev, since := s.devTime }) p) :=
  if_neg (by simp [used, training])

theorem laneFailure_full (lane : Fin 8) (full : (getPhy s p).st = 2) :
    let h := getPhy s p
    let e := linkErr (setPhy s p { h with
      st := 1, lanes := 0, half := true, badHigh := decide (lane.val ≥ 4), since := s.devTime, cnt := bumpCnt h.cnt 7 1 }) p 8 1
    exec (.laneFailure p lane) s = .next (if portUse e p = 3 then mirrorLinkLost e else e) :=
  (if_neg (by simp [used])).trans (if_pos full)

theorem laneFailure_half (lane : Fin 8) (half : (getPhy s p).st = 3) (good : decide (lane.val ≥ 4) ≠ (getPhy s p).badHigh) :
    exec (.laneFailure p lane) s = .next (settle (goDown s p)) :=
  (if_neg (by simp [used])).trans ((if_neg (by simp [half])).trans (if_pos ⟨half, good⟩))

end

end

/-! ## `DEV_FAB_CFG` (R442) -/

theorem fabCfgWr_stores {s : State} {fn : Fn} {v : Word} (off : fabEn s = false) (site : siteOk v = true) :
    let w := rset s (devReg 0x4800) (v &&& 0xC000FF700000FFFF)
    fabCfgWr fn v s = if bit v 63 then measFabric w else w :=
  (if_neg (ne_true_of_eq_false off)).trans (if_neg (by simp [site]))

/-! ## The statement -/

/-- Settles O47: each event of a link meets one case of its rule, named by the lemmas above. -/
theorem barvarLinks : Obligations.BarvarLinks := by
  unfold Obligations.BarvarLinks
  intro s fn p h laneLost
  refine ⟨fun c pf reach => ?config, fun k on carried header => ?packets, fun lseq on => ?retry, fun lseq credits on => if_neg (by simp [on]),
    fun far used training => ?init, fun lane used => ⟨laneFailure_full used lane, laneFailure_half used lane⟩, fun on => if_pos on,
    fun used due => ⟨fun training => if_pos ⟨used, training, due⟩, fun down en => if_pos ⟨used, en, down, due⟩⟩,
    fun on owed due => if_pos ⟨on, owed, due⟩, fun v pf reach => ?site⟩
  case config =>
    intro old w use_ dir known low high used kept
    refine ⟨fun off => hostPf_ok pf reach (phyCfgWr_trains use_ dir known low high used off (bit_phyCfgWord_en true c)) rfl,
      fun on => hostPf_settles_to pf reach ?_⟩
    have below {hi lo : Nat} (h : hi < 63) : bits (phyCfgWord false c) hi lo = bits w hi lo := bits_phyCfgWord false c h
    rw [← below (hi := 59) (lo := 58) (by decide)] at use_ ⊢
    rw [← below (hi := 57) (lo := 55) (by decide)] at dir ⊢
    rw [← below (hi := 13) (lo := 0) (by decide)] at low high ⊢
    exact phyCfgWr_stops use_ dir known low high on (bit_phyCfgWord_en false c)
  case packets =>
    refine ⟨linkPacket_outOfOrder on carried header, linkPacket_stomped on carried header, fun next whole payload type channel length => ?_⟩
    have taken := linkPacket_taken on carried header next whole payload type channel length
    exact ⟨fun here => taken.trans (if_pos here), fun away => (taken.trans (if_neg away)).trans (apply_ite Host.Outcome.next ..).symm⟩
  case retry =>
    intro n w
    have counts := linkRetryRequest_counts on lseq
    exact ⟨fun few => counts.trans (congrArg (fun u => Host.Outcome.next (settle u)) (if_neg (not_le.mpr few))),
      fun eighth => counts.trans (congrArg (fun u => Host.Outcome.next (settle u)) (if_pos eighth))⟩
  case init =>
    exact ⟨fun other => (linkInit_ends used training far).trans (if_neg (ne_true_of_eq_false other)),
      fun same => (linkInit_ends used training far).trans (if_pos same)⟩
  case site =>
    exact ⟨fun on => hostPf_settles_to pf reach (if_pos on), fun off site => hostPf_settles_to pf reach (fabCfgWr_stores off site)⟩

end Sys2Proof.Machine

/-! The statement about snapshots and restores: the commands of `SNP_CMD`, arming, copies, verification, sealing and the steps of a
restore (R460-R479). -/

namespace Sys2Proof.Machine

/-! ## The word of a snapshot command -/

theorem lt_of_testBit_of_lt_two_pow {a n i : Nat} (set_ : a.testBit i = true) (small : a < 2 ^ n) : i < n := by
  by_contra above
  have clear : a.testBit i = false := Nat.testBit_lt_two_pow (small.trans_le (Nat.pow_le_pow_right (by decide) (not_lt.mp above)))
  rw [clear] at set_
  contradiction

section
variable (vi : Vi) {op : Nat}

theorem bits_snpWord_op (known : op ≤ 3) : bits (snpWord vi op) 3 0 = op := bits_command_op (by decide) (by omega)

theorem bits_snpWord_vi (known : op ≤ 3) : bits (snpWord vi op) 15 8 = vi.toNat :=
  bits_command_arg (by decide) (by decide) (by omega) vi.isLt

/-- Every bit of the word is one that `SNP_CMD` holds. -/
theorem snpWord_and_mask (known : op ≤ 3) : snpWord vi op &&& 0xFF0F = snpWord vi op := by
  have mask : ∀ i < 64, (i < 2 ∨ 8 ≤ i ∧ i < 16) → (0xFF0F : Word).getLsbD i = true := by decide
  refine BitVec.eq_of_getLsbD_eq fun i word => ?_
  rw [BitVec.getLsbD_and, Bool.and_eq_left_iff_imp]
  simp only [snpWord, at_, BitVec.getLsbD_or, BitVec.getLsbD_ofNat, Nat.testBit_shiftLeft, Bool.or_eq_true, Bool.and_eq_true,
    decide_eq_true_eq]
  rintro (⟨-, above, set_⟩ | ⟨-, -, set_⟩)
  · exact mask i word (.inr ⟨above, by have inside := lt_of_testBit_of_lt_two_pow set_ vi.isLt; omega⟩)
  · exact mask i word (.inl (lt_of_testBit_of_lt_two_pow set_ (by omega)))

end

/-- A command that finds the snapshot block idle is carried out at once. -/
theorem snpCmdWr_word {s : State} {op : Nat} (free : statBusy s snpStat = false) (some_ : op ≠ 0) (known : op ≤ 3) (fn : Fn) (vi : Vi)
    (fits : Bool) :
    let w := rset s 0xD00000 (snpWord vi op)
    let r := if op = 1 then snapStart w fn vi fits else if op = 2 then restoreStart w fn vi
      else if op = 3 then snapAbort w fn vi else (w, 0x0B, 0xB1)
    snpCmdWr fn fits (snpWord vi op) s = statDone r.1 snpStat r.2 := by
  have kept : opKept (rget s 0xD00000) (snpWord vi op &&& 0xFF0F) 3 = snpWord vi op := by
    rw [snpWord_and_mask vi known]
    exact if_pos ((bits_snpWord_op vi known).trans_le known)
  have idle (v : Word) : statBusy (rset s 0xD00000 v) snpStat = false := by rwa [statBusy, rget_rset_ne _ _ (by decide)]
  simp only [snpCmdWr, kept, idle, bits_snpWord_op vi known, bits_snpWord_vi vi known, BitVec.ofNat_toNat, BitVec.setWidth_eq, some_,
    if_false, Bool.false_eq_true]

/-! ## SNAPSHOT, RESTORE and ABORT (R461, R469, R473) -/

section
variable {s t : State} {fn : Fn} {vi : Vi} {b : List Byte} (mine : samePort fn vi = true)
include mine

section
variable (feature : featureVer s.fw 8 ≠ 0)
include feature

theorem snapStart_accepts {fits : Bool} (block : snapBlock s vi 128 = (t, .ok b)) (form : snapBlockOk b = true)
    (stage : stageOk t vi (snapPar b) = true) (covers : (snapGrans t vi).length ≠ 0)
    (target : (targetCheck t vi (snapPar b) (shardLen (snapGrans t vi).length) fits).1 = 0) (idle : snapLive t vi = false)
    (room : snapsLive t < 16) (key : (snapKey t vi (snapPar b)).1 = 0) :
    snapStart s fn vi fits = (setSnap t { vi := vi, st := if (snapPar b).startEn then 1 else 2, p := snapPar b }, 0, 0) := by
  have free : (snapLive t vi || decide (snapsLive t ≥ 16)) = false := by simp [idle, room]
  have passes : (firstFail [
      if snapBlockOk b then (0, 0) else (0x0B, 0xB1),
      if stageOk t vi (snapPar b) then (0, 0) else (0x05, 0xB2),
      if (snapGrans t vi).length = 0 then (0x0B, 0xB1) else (0, 0),
      targetCheck t vi (snapPar b) (shardLen (snapGrans t vi).length) fits,
      if snapLive t vi || decide (snapsLive t ≥ 16) then (0x01, 0xB0) else (0, 0),
      snapKey t vi (snapPar b)]).1 = 0 :=
    firstFail_passes (by simp [form, stage, covers, target, free, key])
  simp only [snapStart, feature, mine, block, passes, Bool.not_true, Bool.false_eq_true, if_false, if_true]

theorem restoreStart_accepts (block : snapBlock s vi 48 = (t, .ok b)) (form : restoreBlockOk b = true) (quiet : viBusy t vi = false)
    (idle : snapLive t vi = false) (room : snapsLive t < 16) : restoreStart s fn vi = (setSnap t (restorePar vi b), 0, 0) := by
  have free : (snapLive t vi || decide (snapsLive t ≥ 16)) = false := by simp [idle, room]
  simp only [restoreStart, feature, mine, block, form, quiet, free, Bool.not_true, Bool.false_eq_true, if_false]

end

theorem snapAbort_ends {x : Snap} (here : getSnap s vi = some x) (live : x.st ≠ 0) :
    snapAbort s fn vi = (snapFail s x 2 0xBD, 0, 0) := by
  simp only [snapAbort, mine, here, live, Bool.not_true, Bool.false_eq_true, if_false]

theorem snapAbort_nothing (absent : getSnap s vi = none) : snapAbort s fn vi = (s, 0, 0) := by
  simp only [snapAbort, mine, absent, Bool.not_true, Bool.false_eq_true, if_false]

end

/-! ## The steps of an operation (R462-R468, R474, R475) -/

section
variable {s : State} {vi : Vi} {x : Snap} (here : getSnap s vi = some x)
include here

theorem snapshotArm_arms (works : working s = true) (gate : snapGate s x = true) (plain : x.p.enc = false) :
    exec (.snapshotArm vi) s = .next (setSnap
      { s with guard := s.guard ++ (snapGrans s x.vi).flatMap (fun g => (List.range 16384).map (· + g.pgran * 16384)) }
      { x with st := 3, grans := snapGrans s x.vi, armed := s.devTime, todo := List.range (16384 * (snapGrans s x.vi).length), ivbase := 0 }) := by
  simp only [exec_snapshotArm, execSnapshotArm, here, works, gate, and_self, if_true, snapArm, plain, Bool.false_eq_true, if_false]

theorem pageCopy_copies (works : working s = true) {page : Nat} (may : mayCopy s x page = true) :
    exec (.pageCopy vi page) s = .next (settle (copyPage s x page)) := by
  simp only [exec_pageCopy, execPageCopy, here, works, may, and_self, if_true]

theorem restorePage_advances (works : working s = true) (restoring : x.st = 5) (pg : PageIn) :
    exec (.restorePage vi pg) s = .next (settle (restoreNext s x pg)) := by
  simp only [exec_restorePage, execRestorePage, here, works, restoring, and_self, if_true]

theorem catalogueRead_advances (works : working s = true) (restoring : x.st = 5) {found : List CatIn} (first : x.pages = 0)
    (all : found.length = x.catCount) : exec (.catalogueReadComplete vi found) s = .next (settle (catalogueRead s x found)) := by
  simp only [exec_catalogueReadComplete, execCatalogueReadComplete, here, works, restoring, first, all, and_self, if_true]

section
variable (copying : x.st = 3) {pages : List Nat} (any : x.staged.filter (fun g => pages.contains g.page) ≠ [])
  (few : (x.staged.filter (fun g => pages.contains g.page)).length ≤ 16)
include copying any few

theorem chunkVerify_lost (down : targetUp s x = false) (out : TargetOut) :
    exec (.chunkVerify vi pages out) s = .next (settle (snapFail s x 5 0xB4)) := by
  simp only [exec_chunkVerify, execChunkVerify, here, copying, List.isEmpty_iff, any, not_lt.mpr few, down, ne_eq, not_true_eq_false, or_self,
    if_false, Bool.not_false, if_true]

variable (up : targetUp s x = true)
include up

theorem chunkVerify_ok : exec (.chunkVerify vi pages .ok) s
    = .next (chunkDone s x (x.staged.filter (fun g => pages.contains g.page))) := by
  simp only [exec_chunkVerify, execChunkVerify, here, copying, List.isEmpty_iff, any, not_lt.mpr few, up, ne_eq, not_true_eq_false, or_self,
    if_false, Bool.not_true, Bool.false_eq_true]

theorem chunkVerify_again (young : (x.staged.filter (fun g => pages.contains g.page)).all (fun g => decide (g.fails < 2)) = true) :
    exec (.chunkVerify vi pages .mismatch) s = .next (setSnap s { x with
      staged := x.staged.map (fun g => if (x.staged.filter (fun g => pages.contains g.page)).contains g
        then { g with fails := g.fails + 1 } else g) }) := by
  have third : (x.staged.filter (fun g => pages.contains g.page)).any (fun g => decide (g.fails ≥ 2)) = false := by
    rw [List.any_eq_false]
    intro g staged
    have few := of_decide_eq_true (List.all_eq_true.mp young g staged)
    simpa using few
  simp only [exec_chunkVerify, execChunkVerify, here, copying, List.isEmpty_iff, any, not_lt.mpr few, up, third, ne_eq, not_true_eq_false,
    or_self, if_false, Bool.not_true, Bool.false_eq_true]

end

section
variable (sealing : x.st = 4) (up : targetUp s x = true)
include sealing up

theorem snapshotSeal_ok : exec (.snapshotSeal vi .ok) s =
    .next (settle (snapRecord (snapEnd s (sealSnap s x)) x 0 0 (shardLen x.grans.length))) := by
  simp only [exec_snapshotSeal, execSnapshotSeal, here, sealing, up, ne_eq, not_true_eq_false, Bool.not_true, Bool.false_eq_true, if_false]

theorem snapshotSeal_mismatch : exec (.snapshotSeal vi .mismatch) s =
    if x.sealFails ≥ 2 then .next (settle (snapFail s x 5 0xB5)) else .next (setSnap s { x with sealFails := x.sealFails + 1 }) := by
  simp only [exec_snapshotSeal, execSnapshotSeal, here, sealing, up, ne_eq, not_true_eq_false, Bool.not_true, Bool.false_eq_true, if_false]

end

end

/-! ## The statement -/

/-- Settles O49: a command meets its check, and an event the case of its operation's state, each named by a lemma above. -/
theorem snapshotOperations : Obligations.SnapshotOperations := by
  unfold Obligations.SnapshotOperations
  intro s fn vi
  refine ⟨fun pf h free mine => ?commands, fun x here => ⟨fun works => ?working, fun pages copying => ?chunk,
    fun sealing up => ?sealed⟩⟩
  case commands =>
    intro w
    have runs {op : Nat} (some_ : op ≠ 0) (known : op ≤ 3) := snpCmdWr_word free some_ known fn vi
    refine ⟨fun fits t b feature block form stage covers target idle room key => hostPf_settles_to pf h ?_,
      fun t b feature block form quiet idle room => hostPf_settles_to pf h ?_,
      fun x here live => hostPf_settles_to pf h ?_, fun absent => hostPf_ok pf h ?_ rfl⟩
    · have accepts := snapStart_accepts (s := w 1) mine feature block form stage covers target idle room key
      exact (runs (by decide) (by decide) fits).trans (congrArg (fun r => statDone r.1 snpStat r.2) accepts)
    · have accepts := restoreStart_accepts (s := w 2) mine feature block form quiet idle room
      exact (runs (by decide) (by decide) true).trans (congrArg (fun r => statDone r.1 snpStat r.2) accepts)
    · have ends := snapAbort_ends (s := w 3) mine here live
      exact (runs (by decide) (by decide) true).trans (congrArg (fun r => statDone r.1 snpStat r.2) ends)
    · have nothing := snapAbort_nothing (s := w 3) mine absent
      exact (runs (by decide) (by decide) true).trans (congrArg (fun r => statDone r.1 snpStat r.2) nothing)
  case working =>
    exact ⟨snapshotArm_arms here works, fun page => pageCopy_copies here works, fun restoring =>
      ⟨restorePage_advances here works restoring, fun found => catalogueRead_advances here works restoring⟩⟩
  case chunk =>
    intro chunk any few
    exact ⟨chunkVerify_ok here copying any few, chunkVerify_again here copying any few, chunkVerify_lost here copying any few⟩
  case sealed =>
    have again := snapshotSeal_mismatch here sealing up
    exact ⟨snapshotSeal_ok here sealing up, fun few => again.trans (if_neg (not_le.mpr few)), fun third => again.trans (if_pos third)⟩

end Sys2Proof.Machine

/-! The statement about SPDM connections and sessions, and IDE_KM (R486-R491). -/

namespace Sys2Proof.Machine

/-! ## Requests of a connection and of a session -/

section
variable {s : State} {via : SpdmVia} (up : viaUp s via = true)
include up

theorem spdmReq_runs {need : Nat} (body : State → State) (negotiated : need ≤ connOf s via) :
    spdmReq via need body s = .next (body s) := by
  simp only [spdmReq, up, ge_iff_le, negotiated, decide_true, Bool.and_self, if_true]

theorem secured_runs {sid : Nat} (body : State → State) (session : inSession s via sid = true) :
    secured via sid body s = .next (body s) := by
  simp only [secured, up, session, Bool.and_self, if_true]

end

section
variable {s : State} {via : SpdmVia}

theorem spdmReq_ignores {need : Nat} (body : State → State) (early : connOf s via < need) : spdmReq via need body s = .next s := by
  simp only [spdmReq, ge_iff_le, not_le.mpr early, decide_false, Bool.and_false, Bool.false_eq_true, if_false]

theorem secured_ignores {sid : Nat} (body : State → State) (none_ : inSession s via sid = false) : secured via sid body s = .next s := by
  simp only [secured, none_, Bool.and_false, Bool.false_eq_true, if_false]

end

/-! ## Requests after the algorithms (R486-R488) -/

section
variable {s : State} {via : SpdmVia} (up : viaUp s via = true) (negotiated : 3 ≤ connOf s via)
include up negotiated

/-- A measurement block holds the register one below its number. -/
theorem getMeasurements_replies (b : BitVec 8) (low : 1 ≤ b.toNat) (high : b.toNat ≤ 8) :
    exec (.getMeasurements via b) s = .next { s with reply := digestBytes (measOf s (b.toNat - 1)), replyPoison := false } := by
  have single : b ≠ 0xFF := by
    rintro rfl
    exact absurd high (by decide)
  rw [exec_getMeasurements, execGetMeasurements, spdmReq_runs up _ negotiated]
  simp only [single, low, high, and_self, if_true, if_false]

theorem keyExchange_opens (n : Nat) (room : (s.sec.sessions.filter (fun x => viaGroup x.via == viaGroup via)).length < 2) :
    exec (.keyExchange via n) s = .next { s with sec := { s.sec with sessions := s.sec.sessions ++ [{
      via := via, id := leastFree ((s.sec.sessions.filter (fun x => viaGroup x.via == viaGroup via)).map (·.id)), beat := n,
      last := s.devTime }] } } := by
  rw [exec_keyExchange, execKeyExchange, spdmReq_runs up _ negotiated]
  exact congrArg Host.Outcome.next (if_neg (not_le.mpr room))

end

/-! ## Within a session (R489-R491) -/

theorem setKek_stores {s : State} {via : SpdmVia} (up : viaUp s via = true) {sid p : Nat} (session : inSession s via sid = true)
    (pf : viaPf via = some p) (kek : BitVec 256) : exec (.setKek via sid kek) s
      = .next { s with sec := { s.sec with kek := tset s.sec.kek p (kek, viaKey via * 256 + sid) } } := by
  rw [exec_setKek, execSetKek, secured_runs up _ session]
  simp only [pf]

theorem heartbeatPeriodExpiry_drops {s : State} {via : SpdmVia} {sid : Nat} {x : Session}
    (here : s.sec.sessions.find? (fun x => x.via == via && x.id == sid && x.secured) = some x) (beats : x.beat ≠ 0)
    (late : x.beat * 1000000000 ≤ (s.devTime - x.last).toNat) :
    exec (.heartbeatPeriodExpiry via sid) s = .next (dropSession s via sid) := by
  simp only [exec_heartbeatPeriodExpiry, execHeartbeatPeriodExpiry, here]
  exact if_pos ⟨beats, late⟩

theorem ideReq_runs {s : State} {port : Fin 2} {sid : Nat} (up : viaUp s (.doe port) = true) (session : inSession s (.doe port) sid = true)
    (body : State → State) : ideReq port sid body s = .next (body s) := secured_runs up body session

theorem kSetGo_uses {s : State} {port : Fin 2} {sid : Nat} {k : IdeKey} (up : viaUp s (.doe port) = true)
    (session : inSession s (.doe port) sid = true)
    (programmed : (tget? (getIde s port.val k.stream.val).keys (ideDir k * 2 + k.set.val)).isSome = true) :
    let x := getIde s port.val k.stream.val
    exec (.kSetGo port sid k) s
      = .next (ideResume (setIde s port.val k.stream.val { x with go := tset x.go (ideDir k) k.set.val }) port.val) := by
  rw [exec_kSetGo, execKSetGo, ideReq_runs up session]
  exact congrArg Host.Outcome.next (if_neg (by simp [Option.isSome_iff_ne_none.mp programmed]))

/-! ## The statement -/

/-- Settles O51: a request runs where its connection or session allows it, and is ignored elsewhere. -/
theorem spdmSessions : Obligations.SpdmSessions := by
  unfold Obligations.SpdmSessions
  intro s via up c upd
  refine ⟨(exec_getVersion ..).trans (spdmReq_runs up _ (Nat.zero_le _)),
    fun versioned => (exec_getCapabilities ..).trans (spdmReq_runs up _ versioned),
    fun capable => ⟨(exec_negotiateAlgorithms ..).trans (spdmReq_runs up _ capable),
      (exec_negotiateAlgorithms ..).trans (spdmReq_runs up _ capable)⟩,
    fun early => ⟨(exec_getDigests ..).trans (spdmReq_ignores _ early), fun b => (exec_getMeasurements ..).trans (spdmReq_ignores _ early),
      fun n => (exec_keyExchange ..).trans (spdmReq_ignores _ early)⟩,
    fun negotiated => ?negotiated, fun sid session => ?session,
    fun sid none_ => ⟨(exec_keyUpdate ..).trans (secured_ignores _ none_), (exec_endSession ..).trans (secured_ignores _ none_),
      fun kek => (exec_setKek ..).trans (secured_ignores _ none_)⟩,
    fun sid x => heartbeatPeriodExpiry_drops, ?ide⟩
  case negotiated =>
    exact ⟨(exec_getDigests ..).trans (spdmReq_runs up _ negotiated), (exec_getCertificate ..).trans (spdmReq_runs up _ negotiated),
      fun nonce => (exec_challenge ..).trans (spdmReq_runs up _ negotiated), getMeasurements_replies up negotiated,
      keyExchange_opens up negotiated, fun sid => ⟨(exec_finish ..).trans (spdmReq_runs up _ negotiated),
        (exec_finish ..).trans (spdmReq_runs up _ negotiated)⟩⟩
  case session =>
    exact ⟨(exec_heartbeat ..).trans (secured_runs up _ session), (exec_keyUpdate ..).trans (secured_runs up _ session),
      (exec_endSession ..).trans (secured_runs up _ session), fun p kek pf => setKek_stores up session pf kek⟩
  case ide =>
    rintro port sid k rfl session
    exact ⟨(exec_ideQuery ..).trans (ideReq_runs up session _), fun key => (exec_keyProg ..).trans (ideReq_runs up session _),
      kSetGo_uses up session, (exec_kSetStop ..).trans (ideReq_runs up session _)⟩

end Sys2Proof.Machine

/-! The statement about key slots, MACsec security associations and the MACsec configuration of a port (R492-R497). -/

namespace Sys2Proof.Machine

/-! ## The word of a key command -/

/-- The word of a key command. -/
def keyWord (op slot : Nat) (vi : Vi) : Word := at_ slot 32 ||| at_ vi.toNat 8 ||| at_ op 0

section
variable {op slot : Nat} (known : op ≤ 5) (inside : slot < 256) (vi : Vi)
include known inside

theorem keyWord_toNat : (keyWord op slot vi).toNat = slot * 2 ^ 32 + (vi.toNat * 2 ^ 8 + op) := by
  have owner := vi.isLt
  rw [keyWord, BitVec.or_assoc, at_zero, at_or_ofNat _ (by omega), at_or_ofNat _ (by omega), BitVec.toNat_ofNat]
  omega

theorem bits_keyWord_op : bits (keyWord op slot vi) 3 0 = op := by
  have owner := vi.isLt
  simp only [bits, keyWord_toNat known inside, Nat.shiftRight_zero]
  omega

theorem bits_keyWord_slot : bits (keyWord op slot vi) 39 32 = slot := by
  have owner := vi.isLt
  simp only [bits, keyWord_toNat known inside, Nat.shiftRight_eq_div_pow]
  omega

theorem bits_keyWord_vi : bits (keyWord op slot vi) 15 8 = vi.toNat := by
  have owner := vi.isLt
  simp only [bits, keyWord_toNat known inside, Nat.shiftRight_eq_div_pow]
  omega

/-- Every bit of the word is one that `SEC_KEY_CMD` holds. -/
theorem keyWord_and_mask : keyWord op slot vi &&& 0xFF0000FF0F = keyWord op slot vi := by
  have mask : ∀ i < 64, (i < 3 ∨ 8 ≤ i ∧ i < 16 ∨ 32 ≤ i ∧ i < 40) → (0xFF0000FF0F : Word).getLsbD i = true := by decide
  refine BitVec.eq_of_getLsbD_eq fun i word => ?_
  rw [BitVec.getLsbD_and, Bool.and_eq_left_iff_imp]
  simp only [keyWord, at_, BitVec.getLsbD_or, BitVec.getLsbD_ofNat, Nat.testBit_shiftLeft, Bool.or_eq_true, Bool.and_eq_true,
    decide_eq_true_eq]
  rintro ((⟨-, above, set_⟩ | ⟨-, above, set_⟩) | ⟨-, -, set_⟩)
  · have below := lt_of_testBit_of_lt_two_pow set_ (n := 8) inside
    exact mask i word (.inr (.inr ⟨above, by omega⟩))
  · have below := lt_of_testBit_of_lt_two_pow set_ vi.isLt
    exact mask i word (.inr (.inl ⟨above, by omega⟩))
  · exact mask i word (.inl (lt_of_testBit_of_lt_two_pow set_ (by omega)))

end

/-- What a key command of each OP does. -/
def keyHandler (fn : Fn) (op slot : Nat) (vi : Vi) (ext : List Byte) : State → State :=
  match op with
  | 1 => keyInstall fn slot vi ext
  | 2 => keyClear fn slot
  | 3 => keyReport fn slot
  | 4 => saInstall fn vi ext
  | _ => saRetire fn vi ext

/-- A key command that finds none before it is carried out at once. -/
theorem secKeyWr_keyWord {s : State} (free : statBusy s keyStat = false) {op slot : Nat} (some_ : 1 ≤ op) (known : op ≤ 5)
    (inside : slot < 256) (fn : Fn) (vi : Vi) (ext : List Byte) :
    secKeyWr fn (keyWord op slot vi) ext s = keyHandler fn op slot vi ext (rset s 0xF80100 (keyWord op slot vi)) := by
  have kept : opKept (rget s 0xF80100) (keyWord op slot vi &&& 0xFF0000FF0F) 5 = keyWord op slot vi := by
    rw [keyWord_and_mask known inside]
    exact if_pos ((bits_keyWord_op known inside vi).trans_le known)
  have idle : statBusy (rset s 0xF80100 (keyWord op slot vi)) keyStat = false := by rwa [statBusy, rget_rset_ne _ _ (by decide)]
  simp only [secKeyWr, free, kept, idle, bits_keyWord_op known inside, bits_keyWord_slot known inside, bits_keyWord_vi known inside,
    BitVec.ofNat_toNat, BitVec.setWidth_eq, Nat.one_le_iff_ne_zero.mp some_, Bool.false_eq_true, if_false]
  interval_cases op <;> rfl

section
variable {s u : State} {fn : Fn} (pf : isPf fn = true) (h : HostReaches s fn 0xF80100) (free : statBusy s keyStat = false)
  {op slot : Nat} {vi : Vi} {ext : List Byte} (some_ : 1 ≤ op) (known : op ≤ 5) (inside : slot < 256)
include pf h free some_ known inside

theorem keyCmd_settles (does : keyHandler fn op slot vi ext (rset s 0xF80100 (keyWord op slot vi)) = u) :
    keyCmd fn op slot vi ext s = .next (settle u) :=
  hostPf_settles_to pf h ((secKeyWr_keyWord free some_ known inside fn vi ext).trans does)

/-- A key command whose effect is `w`, with its report. -/
theorem keyCmd_answers {w : State} {r : BitVec 8 × BitVec 8} (threads : w.threads = s.threads)
    (does : keyHandler fn op slot vi ext (rset s 0xF80100 (keyWord op slot vi))
      = keyDone (rset w 0xF80100 (keyWord op slot vi)) r) : answers (keyCmd fn op slot vi ext s) w [0xF80100] keyStat r.1 r.2 :=
  answers_intro (hostPf_ok pf h ((secKeyWr_keyWord free some_ known inside fn vi ext).trans does) threads)
    (regsOnly_rset (.refl _ _) (by simp))

/-- READ that succeeds: only registers change, and `SEC_KEY_INFO` takes the value. -/
theorem keyCmd_reports {v : Word} (does : keyHandler fn op slot vi ext (rset s 0xF80100 (keyWord op slot vi))
      = keyDone (rset (rset s 0xF80100 (keyWord op slot vi)) 0xF80118 v) (0, 0)) : ∃ u, keyCmd fn op slot vi ext s = .next u
        ∧ u = { s with regs := u.regs } ∧ rget u 0xF80118 = v ∧ reports u keyStat 0 0 := by
  refine ⟨_, hostPf_ok pf h ((secKeyWr_keyWord free some_ known inside fn vi ext).trans does) rfl, rfl, ?_, reports_statDone _ _ (0, 0)⟩
  rw [keyDone, rget_statDone_ne _ _ (by decide), rget_rset_self]

end

/-! ## INSTALL, CLEAR and READ (R494, R496, R497) -/

section
variable {s t : State} {fn : Fn} {slot : Nat} {vi : Vi} {ext b : List Byte}

theorem keyInstall_fills (mine : samePort fn vi = true) (empty : tget? s.keys slot = none)
    (block : rangeRead s vi (rget s 0xF80108 &&& 0xFFFFFFFFFFFFFFC0) 128 ext = some (t, b, false)) {d : Nat} (first : ofBytes (b.take 8) = d)
    (kind : d % 4 = 1) (high : d / 1024 = 0) (low : d / 4 % 64 = 0) (head : zeroBytes b 8 64 = true)
    (tail : zeroBytes b (if d.testBit 9 then 104 else 96) 128 = true) {k : List Byte} (key : blockKey t fn b (d.testBit 9) = some k) :
    keyInstall fn slot vi ext s = keyDone { t with
      keys := tset t.keys slot { owner := vi, decOnly := d.testBit 8, key := k }
      brmIv := (List.range 4).foldl (fun m q => tset m (slot * 4 + q) 0) t.brmIv } (0, 0) := by
  simp only [keyInstall, mine, empty, block, first, kind, high, low, head, tail, key, Option.isSome_none, ne_eq, not_true_eq_false,
    decide_false, Bool.not_true, Bool.or_self, Bool.false_eq_true, if_false]

theorem keyClear_absent (empty : tget? s.keys slot = none) : keyClear fn slot s = keyDone s (5, 0xC0) := by
  simp only [keyClear, empty]

section
variable {k : KeySlot} (here : tget? s.keys slot = some k) (mine : samePort fn k.owner = true)
include here mine

theorem keyClear_clears (idle : keyRef s slot = 0) : keyClear fn slot s = keyDone { s with keys := tdel s.keys slot } (0, 0) := by
  simp only [keyClear, here, mine, idle, ne_eq, not_true_eq_false, Bool.not_true, Bool.false_eq_true, if_false]

theorem keyClear_refuses (used : keyRef s slot ≠ 0) : keyClear fn slot s = keyDone s (1, 0xC3) := by
  simp only [keyClear, here, mine, used, ne_eq, not_false_eq_true, Bool.not_true, Bool.false_eq_true, if_false, if_true]

theorem keyReport_reports : keyReport fn slot s = keyDone (rset s 0xF80118 (keyInfo s slot)) (0, 0) := by
  simp only [keyReport, here, mine, if_true]

end

theorem keyReport_empty (empty : tget? s.keys slot = none) : keyReport fn slot s = keyDone (rset s 0xF80118 0) (0, 0) := by
  simp only [keyReport, empty]

/-! ## INSTALL_SA and RETIRE_SA (R492) -/

theorem saInstall_foreign (foreign : samePort fn vi = false) : saInstall fn vi ext s = keyDone s (5, 0xC0) := by
  simp only [saInstall, foreign, Bool.not_false, if_true]

theorem saInstall_sets (mine : samePort fn vi = true)
    (block : rangeRead s vi (rget s 0xF80108 &&& 0xFFFFFFFFFFFFFFC0) 128 ext = some (t, b, false)) {d : Nat} (first : ofBytes (b.take 8) = d)
    (low : d / 32 % 8 = 0) (eleven : d.testBit 11 = false) (mid : d / 2 ^ 14 % 4 = 0) (high : d / 2 ^ 17 = 0)
    (channel : d.testBit 4 = true → d / 2 ^ 8 % 8 = 0) (port : d % 16 ≤ 11) (ssci : zeroBytes b 28 32 = true)
    (salt : zeroBytes b 44 64 = true) (tail : zeroBytes b (if d.testBit 16 then 104 else 96) 128 = true)
    (allowed : msecAllowed t (d % 16) = true) {k : List Byte} (key : blockKey t fn b (d.testBit 16) = some k) :
    saInstall fn vi ext s = keyDone { t with sec := { t.sec with
      sas := tset t.sec.sas (saKey (d % 16) (d.testBit 4) (d / 2 ^ 8 % 8) (d / 2 ^ 12 % 4)) {
        sci := BitVec.ofNat 64 (ofBytes ((b.drop 8).take 8)), pn := BitVec.ofNat 64 (ofBytes ((b.drop 16).take 8)),
        ssci := BitVec.ofNat 32 (ofBytes ((b.drop 24).take 4)), salt := (b.drop 32).take 12, key := k } } } (0, 0) := by
  have transmit : (d.testBit 4 && decide (d / 2 ^ 8 % 8 ≠ 0)) = false := by
    cases tx : d.testBit 4 with
    | false => rfl
    | true => rw [channel tx]; rfl
  simp only [saInstall, mine, block, first, low, eleven, mid, high, transmit, not_lt.mpr port, ssci, salt, tail, allowed, key, ne_eq,
    not_true_eq_false, decide_false, Bool.not_true, Bool.or_self, Bool.false_eq_true, if_false]

theorem saRetire_clears (mine : samePort fn vi = true)
    (block : rangeRead s vi (rget s 0xF80108 &&& 0xFFFFFFFFFFFFFFC0) 8 ext = some (t, b, false)) (port : ofBytes b % 16 ≤ 11) :
    saRetire fn vi ext s = keyDone { t with sec := { t.sec with
      sas := tdel t.sec.sas (saKey (ofBytes b % 16) ((ofBytes b).testBit 4) (ofBytes b / 2 ^ 8 % 8) (ofBytes b / 2 ^ 12 % 4)) } } (0, 0) := by
  simp only [saRetire, mine, block, not_lt.mpr port, decide_false, Bool.not_true, Bool.or_self, Bool.false_eq_true, if_false]

end

/-! ## `SEC_MSEC_CFG` (R492, R493) -/

section
variable {s : State} {fn : Fn} {p : Nat} {x : Word}

theorem msecCfgWr_stores (off : bit (msecCfg s p) 63 = false)
    (allowed : bit (x &&& 0xFE0000003FFFFFFF) 63 = true → msecAllowed s p = true) :
    msecCfgWr fn p x s = rset s (msecReg p) (x &&& 0xFE0000003FFFFFFF) := by
  simp only [msecCfgWr, off, Bool.false_eq_true, if_false]
  exact if_neg fun ⟨en, _, refused⟩ => by simp [allowed en] at refused

/-- CIPHER stands while EN is 1. -/
theorem msecCfgWr_keepsCipher (on : bit (msecCfg s p) 63 = true) : msecCfgWr fn p x s
    = rset s (msecReg p) (setBits (x &&& 0xFE0000003FFFFFFF) 62 62 (bits (msecCfg s p) 62 62)) := by
  simp only [msecCfgWr, on, Bool.not_true, Bool.false_eq_true, false_and, and_false, if_true, if_false]

theorem msecCfgWr_refusesEn (off : bit (msecCfg s p) 63 = false) (en : bit (x &&& 0xFE0000003FFFFFFF) 63 = true)
    (absent : msecAllowed s p = false) : msecCfgWr fn p x s
      = rset (accessErr s fn (msecReg p)) (msecReg p) (setBits (x &&& 0xFE0000003FFFFFFF) 63 63 0) := by
  simp only [msecCfgWr, off, Bool.false_eq_true, if_false]
  exact if_pos ⟨en, rfl, by simp [absent]⟩

end

/-! ## The statement -/

/-- Settles O50: each key command runs its handler on the state that holds its word, and the handler meets the case of its lemma above. -/
theorem keySlotsAndMacsec : Obligations.KeySlotsAndMacsec := by
  unfold Obligations.KeySlotsAndMacsec
  intro s fn slot vi ext
  refine ⟨fun pf h free => ?keys, fun p c pf h => ?macsec⟩
  case keys =>
    intro w src
    have inside := slot.isLt
    have source (v : Word) : rget (rset s 0xF80100 v) 0xF80108 = rget s 0xF80108 := rget_rset_ne _ _ (by decide)
    refine ⟨fun mine empty t b block => ?install, fun k here mine => ?clear, fun empty => ?absent, fun k here mine => ?read,
      fun empty => ?empty, fun foreign => ?foreign, fun mine t b block => ?installSa, fun mine t b block port => ?retireSa⟩
    case install =>
      intro d wrapped kind high low head tail k key
      refine keyCmd_settles pf h free (by decide) (by decide) inside ?_
      exact keyInstall_fills (s := w 1 slot.toNat vi.toNat) mine empty (by rw [source]; exact block) rfl kind high low head tail key
    case clear =>
      exact ⟨fun idle => keyCmd_answers (r := (0, 0)) pf h free (by decide) (by decide) inside rfl (keyClear_clears here mine idle),
        fun used => keyCmd_answers (r := (1, 0xC3)) pf h free (by decide) (by decide) inside rfl (keyClear_refuses here mine used)⟩
    case absent => exact keyCmd_answers (r := (5, 0xC0)) pf h free (by decide) (by decide) inside rfl (keyClear_absent empty)
    case read => exact keyCmd_reports pf h free (by decide) (by decide) inside (keyReport_reports here mine)
    case empty => exact keyCmd_reports pf h free (by decide) (by decide) inside (keyReport_empty empty)
    case foreign =>
      exact keyCmd_answers (r := (5, 0xC0)) pf h free (by decide) (by decide) (by decide) rfl (saInstall_foreign foreign)
    case installSa =>
      intro d tx sc low eleven mid high channel port ssci salt tail allowed k key a
      refine keyCmd_settles pf h free (by decide) (by decide) (by decide) ?_
      exact saInstall_sets (s := w 4 0 vi.toNat) mine (by rw [source]; exact block) rfl low eleven mid high channel port ssci salt tail allowed key
    case retireSa =>
      refine keyCmd_settles pf h free (by decide) (by decide) (by decide) ?_
      exact saRetire_clears (s := w 5 0 vi.toNat) mine (by rw [source]; exact block) port
  case macsec =>
    exact ⟨fun off allowed => hostPf_ok pf h (msecCfgWr_stores off allowed) rfl, fun on => hostPf_ok pf h (msecCfgWr_keepsCipher on) rfl,
      fun off en absent => hostPf_settles_to pf h (msecCfgWr_refusesEn off en absent)⟩

end Sys2Proof.Machine

/-! The statement about the mailbox commands of a PF (R482, R504-R513, R519). -/

namespace Sys2Proof.Machine

/-! ## A trace point (R518) -/

/-- `u` is `s` but for the trace unit, what the device wrote to host memory, and the draw count. -/
def TrcDraw (s u : State) : Prop := u = { s with trc := u.trc, hostMem := u.hostMem, hostHeld := u.hostHeld, free := u.free }

theorem TrcDraw.refl (s : State) : TrcDraw s s := rfl

theorem TrcDraw.trans {s u w : State} (h : TrcDraw s u) (k : TrcDraw u w) : TrcDraw s w := by
  unfold TrcDraw at *
  rw [k, h]

theorem TrcDraw.draw {s u : State} (h : TrcDraw s u) : TrcDraw s (nextFree u) := h.trans rfl

theorem TrcDraw.trc {s u : State} (h : TrcDraw s u) (x : Trc) : TrcDraw s { u with trc := x } := h.trans rfl

theorem TrcOnly.trcDraw {s u : State} (h : TrcOnly s u) : TrcDraw s u := by
  unfold TrcOnly at h
  unfold TrcDraw
  rw [h]

theorem TrcDraw.ite {c : Prop} [Decidable c] {s u w : State} (h : TrcDraw s u) (k : TrcDraw s w) : TrcDraw s (if c then u else w) := by
  split
  · exact h
  · exact k

theorem stwPut_trcDraw (s : State) (n : Nat) (p : List Word) : TrcDraw s (stwPut s n p) :=
  .ite (trcOffer_trcOnly s p).trcDraw ((trcOffer_trcOnly s p).trcDraw.trc _)

theorem stwOffer_trcDraw (s : State) (n : Nat) (p : List Word) : TrcDraw s (stwOffer s n p) := by
  refine .ite (.refl s) (.ite (.ite ?_ (trcDrop_trcOnly s).trcDraw) (stwPut_trcDraw s n p))
  exact (((TrcDraw.refl s).trc _).trans (trcOffer_trcOnly _ _).trcDraw).draw.trans (stwPut_trcDraw _ _ _)

theorem fwPoint_trcDraw (s : State) (cls core : Nat) : TrcDraw s (fwPoint s cls core) := by
  have offered (p : List Word) : TrcDraw s (stwOffer s core p) := stwOffer_trcDraw s core p
  exact .ite (.refl s) (TrcDraw.ite ((offered _).trans (trcTrigger_trcOnly _ _).trcDraw) (offered _)).draw

section
variable (s : State) (cls core : Nat)

@[simp] theorem fwPoint_regs : (fwPoint s cls core).regs = s.regs := by rw [fwPoint_trcDraw s cls core]
@[simp] theorem fwPoint_fw : (fwPoint s cls core).fw = s.fw := by rw [fwPoint_trcDraw s cls core]
@[simp] theorem fwPoint_sec : (fwPoint s cls core).sec = s.sec := by rw [fwPoint_trcDraw s cls core]
@[simp] theorem fwPoint_pwr : (fwPoint s cls core).pwr = s.pwr := by rw [fwPoint_trcDraw s cls core]
@[simp] theorem fwPoint_descs : (fwPoint s cls core).descs = s.descs := by rw [fwPoint_trcDraw s cls core]

@[simp] theorem rget_fwPoint (k : Nat) : rget (fwPoint s cls core) k = rget s k := by
  unfold rget
  rw [fwPoint_regs]

end

/-! ## The state in which a command runs -/

section
variable (s : State) (fn : Fn) (tag : BitVec 8) (c : MbCmd)

@[simp] theorem mbOpened_fw : (mbOpened s fn tag c).fw = s.fw := fwPoint_fw ..
@[simp] theorem mbOpened_sec : (mbOpened s fn tag c).sec = s.sec := fwPoint_sec ..
@[simp] theorem mbOpened_pwr : (mbOpened s fn tag c).pwr = s.pwr := fwPoint_pwr ..
@[simp] theorem mbOpened_descs : (mbOpened s fn tag c).descs = s.descs := fwPoint_descs ..
@[simp] theorem mbOpened_stageSlot : stageSlot (mbOpened s fn tag c) = stageSlot s := by simp [stageSlot]
@[simp] theorem mbOpened_stagedVersion : stagedVersion (mbOpened s fn tag c) = stagedVersion s := by simp [stagedVersion]
@[simp] theorem mbOpened_imagePass (i : Image) : imagePass (mbOpened s fn tag c) i = imagePass s i := by simp [imagePass]
@[simp] theorem mbOpened_slowCounts (p : Nat) : slowCounts (mbOpened s fn tag c) p = slowCounts s p := by simp [slowCounts]
@[simp] theorem mbOpened_emergency : emergency (mbOpened s fn tag c) = emergency s := by rw [emergency, mbOpened_pwr, emergency]

end

/-! ## A command that its core serves (R504) -/

/-- The state once a command has run: replied to, or still to be. -/
def mbEnd (fn : Fn) (tag : BitVec 8) (c : MbCmd) (x : State × Option ((BitVec 8 × BitVec 8) × List Word)) : State :=
  match x.2 with
  | some a => mbReply x.1 fn tag (mbOp c) a.1 a.2
  | none => x.1

/-- The Stewards that set up the connection of a STG_BIND are up (R340); no other command needs them. -/
def BindServed (s : State) (fn : Fn) (c : MbCmd) : Prop :=
  ∀ r, c = .stgBind r → bits (mbReq s fn 1) 1 0 = 2 → slowUp s (bits (mbReq s fn 1) 11 8 / 3) = true

theorem bindServed_other {c : MbCmd} (other : ∀ r, c ≠ .stgBind r) (s : State) (fn : Fn) : BindServed s fn c :=
  fun r bind => absurd bind (other r)

theorem mbStart_serves {s : State} {fn : Fn} {c : MbCmd} (served : BindServed s fn c) (up : dutyUp s (4 * portOf fn) = true)
    (tag : BitVec 8) : mbStart s fn tag c = mbEnd fn tag c (mbRun (fwPoint s 0 (dutyCore s (4 * portOf fn))) fn tag c) := by
  have runs (x : State × Option ((BitVec 8 × BitVec 8) × List Word)) :
      (match x with | (s, some (r, d)) => mbReply s fn tag (mbOp c) r d | (s, none) => s) = mbEnd fn tag c x := by
    rcases x with ⟨t, _ | ⟨r, d⟩⟩ <;> rfl
  refine (if_neg ?_).trans (runs _)
  rw [up]
  cases c with
  | stgBind r => simpa using served r rfl
  | _ => simp

section
variable {s t : State} {fn : Fn} {tag : BitVec 8} {c : MbCmd} (idle : MbIdle s fn tag c)
  (served : BindServed (statStart (rset s (fwReg fn 0) (at_ tag.toNat 40 ||| at_ (mbOp c) 0)) (mbStat fn)) fn c)
include idle served

/-- The command runs in the state `mbOpened`. -/
theorem mbWr_runs : mbWr fn tag c s = mbEnd fn tag c (mbRun (mbOpened s fn tag c) fn tag c) :=
  (if_neg (ne_true_of_eq_false idle.free)).trans (mbStart_serves served idle.core tag)

/-- A command that is complete as it runs replies. -/
theorem mailbox_replies {r : BitVec 8 × BitVec 8} {d : List Word} (run : mbRun (mbOpened s fn tag c) fn tag c = (t, some (r, d))) :
    mbAnswers (mailbox fn tag c s) t fn tag c r.1 r.2 d :=
  hostPf_settles_to idle.pf idle.reach ((mbWr_runs idle served).trans (congrArg (mbEnd fn tag c) run))

theorem mailbox_waits (run : mbRun (mbOpened s fn tag c) fn tag c = (t, none)) : mailbox fn tag c s = .next (settle t) :=
  hostPf_settles_to idle.pf idle.reach ((mbWr_runs idle served).trans (congrArg (mbEnd fn tag c) run))

end

/-! ## What each command does (R482, R505-R513, R519) -/

section
variable {s : State} {fn : Fn} {tag : BitVec 8}

theorem mbRun_featureSet (clean : mbClean s fn .featureSet = true) : mbRun s fn tag .featureSet =
    let x := doFeatureSet s (bits (mbReq s fn 1) 15 0) (bits (mbReq s fn 1) 31 16)
    (x.1, some (x.2, [])) := if_neg (by simp [clean])

section
variable {n v : Nat} (low : 1 ≤ n) (high : n ≤ 9) (version : v ≤ 1)
include low high version

theorem doFeatureSet_refuses (changes : featureVer s.fw n ≠ v) (used : featureUsed s n = true) : doFeatureSet s n v = (s, (1, 0xD6)) :=
  (if_neg (by omega)).trans (if_pos ⟨changes, used⟩)

theorem doFeatureSet_sets (unused : featureUsed s n = false) :
    doFeatureSet s n v = (measFeatures { s with fw := { s.fw with features := tset s.fw.features n v } }, (0, 0)) :=
  (if_neg (by omega)).trans (if_neg (by simp [unused]))

end

theorem mbRun_stage {img : Image} (clean : mbClean s fn (.stage img) = true) (some_ : (mbReq s fn 2).toNat ≠ 0)
    (fits : (mbReq s fn 2).toNat ≤ 33554432) (readable : rangeOk s fn (mbReq s fn 1) (mbReq s fn 2).toNat .rd = true) :
    mbRun s fn tag (.stage img) = ((doStage s img).1, some ((doStage s img).2, [])) :=
  (if_neg (by simp [clean])).trans ((if_neg (by omega)).trans (if_neg (by simp [readable])))

theorem mbRun_activate (clean : mbClean s fn .activate = true) : mbRun s fn tag .activate =
    let x := doActivate s (bit (mbReq s fn 1) 0) (some (fn, tag))
    (x.1, x.2.map (fun r => (r, []))) := if_neg (by simp [clean])

theorem doActivate_unstaged (unstaged : s.fw.staged = false) (auto : Bool) (who : Option (Fn × BitVec 8)) :
    doActivate s auto who = (s, some (0x0B, 0xD4)) := if_pos (by simp [unstaged])

theorem doActivate_eq (staged : s.fw.staged = true) (clear : emergency s = false) (auto : Bool) (who : Option (Fn × BitVec 8)) :
    doActivate s auto who = if boundary s = true then (activateBegin s who false, none) else (s, some (1, 0xD5)) :=
  (if_neg (by simp [staged])).trans (if_neg (by simp [clear]))

theorem mbRun_keyRevoke (clean : mbClean s fn .keyRevoke = true) : mbRun s fn tag .keyRevoke =
    if s.sec.keyUsed.toNat = bits (mbReq s fn 1) 1 0 then (s, some ((0x0B, 0xD7), []))
    else ({ s with sec := { s.sec with revoked := s.sec.revoked ||| BitVec.ofNat 4 (2 ^ bits (mbReq s fn 1) 1 0) } }, some ((0, 0), [])) :=
  if_neg (by simp [clean])

theorem mbRun_logCfg (clean : mbClean s fn .logCfg = true) (level : bits (mbReq s fn 1) 2 0 ≤ 4) :
    mbRun s fn tag .logCfg = ({ s with fw := { s.fw with level := bits (mbReq s fn 1) 2 0 } }, some ((0, 0), [])) :=
  (if_neg (by simp [clean])).trans (if_neg (not_lt.mpr level))

section
variable (port : bits (mbReq s fn 1) 3 0 ≤ 11)
include port

theorem mbRun_slowCfg (clean : mbClean s fn .slowCfg = true) : mbRun s fn tag .slowCfg =
    let p := bits (mbReq s fn 1) 3 0
    ({ s with fw := { s.fw with slow := tset s.fw.slow p (mbReq s fn 1) } }, some ((0, 0), slowCounts s p)) :=
  (if_neg (by simp [clean])).trans (if_neg (not_lt.mpr port))

theorem mbRun_ptpCfg (clean : mbClean s fn .ptpCfg = true) : mbRun s fn tag .ptpCfg =
    ({ s with fw := { s.fw with ptp := tset s.fw.ptp (bits (mbReq s fn 1) 3 0) (mbReq s fn 1, mbReq s fn 2) } }, some ((0, 0), [])) :=
  (if_neg (by simp [clean])).trans (if_neg (not_lt.mpr port))

end

theorem mbRun_stgUnbind (clean : mbClean s fn .stgUnbind = true) : mbRun s fn tag .stgUnbind =
    let x := doUnbind s (bits (mbReq s fn 1) 5 0)
    (x.1, some (x.2, [])) := if_neg (by simp [clean])

theorem doUnbind_refuses {t : Nat} (bound : bits (rget s (stgTgtReg t)) 63 62 ≠ 0)
    (busy : s.descs.any (fun d => d.kind == 3 && d.st == .drive && dTarget d == t) = true) : doUnbind s t = (s, (1, 0xD9)) :=
  (if_neg bound).trans (if_pos busy)

theorem doUnbind_frees {t : Nat} (bound : bits (rget s (stgTgtReg t)) 63 62 ≠ 0)
    (idle : s.descs.any (fun d => d.kind == 3 && d.st == .drive && dTarget d == t) = false) :
    let freed := (tget s.stgs t {}).flows.foldl (fun u n => match getFlow u n with | some (o, _) => freeCtx u o n | none => u) s
    doUnbind s t = (fwPoint { rset freed (stgTgtReg t) 0 with stgs := tdel freed.stgs t } 2 2, (0, 0)) := by
  have frees : (fun (u : State) (n : Nat) => match getFlow u n with | some (o, _, _, _) => freeCtx u o n | none => u)
      = fun u n => match getFlow u n with | some (o, _) => freeCtx u o n | none => u := by
    funext u n
    cases getFlow u n <;> rfl
  rw [← frees]
  exact (if_neg bound).trans (if_neg (ne_true_of_eq_false idle))

theorem mbRun_restart (clean : mbClean s fn .restart = true) (runs : (tget s.fw.cores (bits (mbReq s fn 1) 3 0) {}).st = 0) :
    let n := bits (mbReq s fn 1) 3 0
    let u := restartCore s n 3 (freeBits s 64 5020) (some (fn, tag))
    (tget u.fw.cores n {}).st ≠ 2 → mbRun s fn tag .restart = (nextFree u, none) := by
  intro n u restarts
  refine (if_neg (by simp [clean])).trans ((if_neg (by rw [runs]; decide)).trans ((if_neg (by rw [runs]; decide)).trans ?_))
  exact congrArg (nextFree u, ·) (if_neg restarts)

/-! ## STG_BIND of a drive (R339, R505) -/

theorem mbRun_stgBind {r : BindIn} (clean : mbClean s fn (.stgBind r) = true) : mbRun s fn tag (.stgBind r) =
    let x := doBind s fn r
    (x.1, some (x.2.1, x.2.2)) := if_neg (by simp [clean])

end

/-- The target register of a bound drive. -/
def driveTarget (r : BindIn) (port nsid : Nat) : Word :=
  at_ 1 62 ||| at_ 1 60 ||| at_ port 56 ||| at_ (Nat.min 4 r.qpairs.toNat) 48 ||| at_ r.bsz.toNat 32 ||| at_ nsid 0

section
variable (r : BindIn) {port nsid : Nat} (hp : port ≤ 5) (hn : nsid < 2 ^ 16)
include hp hn

theorem driveTarget_toNat : (driveTarget r port nsid).toNat = 1 * 2 ^ 62 + (1 * 2 ^ 60 + (port * 2 ^ 56
    + (Nat.min 4 r.qpairs.toNat * 2 ^ 48 + (r.bsz.toNat * 2 ^ 32 + nsid)))) := by
  have pairs : Nat.min 4 r.qpairs.toNat ≤ 4 := Nat.min_le_left ..
  have block := r.bsz.isLt
  simp only [driveTarget, BitVec.or_assoc, at_zero]
  rw [at_or_ofNat _ (by omega), at_or_ofNat _ (by omega), at_or_ofNat _ (by omega), at_or_ofNat _ (by omega), at_or_ofNat _ (by omega),
    BitVec.toNat_ofNat]
  omega

theorem bits_driveTarget_state : bits (driveTarget r port nsid) 63 62 = 1 := by
  have pairs : Nat.min 4 r.qpairs.toNat ≤ 4 := Nat.min_le_left ..
  have block := r.bsz.isLt
  simp only [bits, driveTarget_toNat r hp hn, Nat.shiftRight_eq_div_pow]
  omega

theorem bits_driveTarget_port : bits (driveTarget r port nsid) 59 56 = port := by
  have pairs : Nat.min 4 r.qpairs.toNat ≤ 4 := Nat.min_le_left ..
  have block := r.bsz.isLt
  simp only [bits, driveTarget_toNat r hp hn, Nat.shiftRight_eq_div_pow]
  omega

end

/-- A drive takes the lowest target that is free. -/
theorem doBind_drive {s : State} {fn : Fn} {r : BindIn} {port t : Nat} (kind : bits (mbReq s fn 1) 1 0 = 1)
    (at_port : bits (mbReq s fn 1) 11 8 = port) (hp : port ≤ 5) (plain : mbReq s fn 2 = 0) (ready : r.ready = true)
    (free : (List.range 64).find? (fun t => bits (rget s (stgTgtReg t)) 63 62 == 0) = some t) :
    doBind s fn r = (fwPoint { rset s (stgTgtReg t) (driveTarget r port (bits (mbReq s fn 1) 31 16)) with
      stgs := tset s.stgs t { tmo := if r.tmo = 0 then 10000 else r.tmo, wz := r.wz, ns := r.ns, flows := [] } } 2 2, (0, 0),
      [BitVec.ofNat 64 t]) := by
  have form : ¬((bits (mbReq s fn 1) 1 0 ≠ 1 ∧ bits (mbReq s fn 1) 1 0 ≠ 2)
      ∨ (bits (mbReq s fn 1) 1 0 = 1 ∧ (bits (mbReq s fn 1) 11 8 > 5 ∨ mbReq s fn 2 ≠ 0))
      ∨ (bits (mbReq s fn 1) 1 0 = 2 ∧ (bits (mbReq s fn 1) 11 8 > 11 ∨ bits (mbReq s fn 1) 31 16 ≠ 0))) := by
    simp [kind, at_port, hp, plain]
  refine (if_neg form).trans ?_
  simp only [kind, at_port, free, ready, bindFlows, driveTarget, rset_stgs, Nat.reduceEqDiff, false_and, if_false, if_true, Bool.not_true,
    Bool.false_eq_true]

/-! ## The statement -/

/-- Settles O52: a command runs in the state `mbOpened`, whose firmware and fuses are those of the state before. -/
theorem mailboxCommands : Obligations.MailboxCommands := by
  unfold Obligations.MailboxCommands
  intro s fn tag r1 replies w
  have plain {c : MbCmd} (other : ∀ r, c ≠ .stgBind r) {t : State} {r : BitVec 8 × BitVec 8} {d : List Word} (idle : MbIdle s fn tag c)
      (run : mbRun (mbOpened s fn tag c) fn tag c = (t, some (r, d))) : mbAnswers (mailbox fn tag c s) t fn tag c r.1 r.2 d :=
    mailbox_replies idle (bindServed_other other _ _) run
  refine ⟨fun idle => ?getInfo, fun idle => ?featureSet, fun idle => ?featureGet, fun img idle => ?stage, fun idle => ?activate,
    fun idle => ?activateCancel, fun idle => ?svnCommit, fun idle => ?keyRevoke, fun idle => ?logCfg, fun idle => ?traceCfg,
    fun idle => ?slowCfg, fun idle => ?ptpCfg, fun r idle => ?stgBind, fun idle => ?stgUnbind, fun idle => ?restart⟩
  case getInfo =>
    intro act stg
    refine plain (r := (0, 0)) (by simp) idle ((if_neg (by simp [idle.clean])).trans ?_)
    simp only [mbOpened_fw, mbOpened_stagedVersion, mbOpened_stageSlot]
    rfl
  case featureSet =>
    intro n v low high version
    refine ⟨fun changes used => plain (r := (1, 0xD6)) (by simp) idle ((mbRun_featureSet idle.clean).trans ?_),
      fun unused => plain (r := (0, 0)) (by simp) idle ((mbRun_featureSet idle.clean).trans ?_)⟩
    · rw [← mbOpened_fw s fn tag .featureSet] at changes
      exact congrArg (fun x => (x.1, some (x.2, []))) (doFeatureSet_refuses low high version changes used)
    · rw [← mbOpened_fw s fn tag .featureSet]
      exact congrArg (fun x => (x.1, some (x.2, []))) (doFeatureSet_sets low high version unused)
  case featureGet =>
    refine plain (r := (0, 0)) (by simp) idle ((if_neg (by simp [idle.clean])).trans ?_)
    rw [mbOpened_fw]
  case stage =>
    intro c n some_ fits readable
    have run := mbRun_stage (tag := tag) idle.clean some_ fits readable
    rw [doStage, mbOpened_imagePass, mbOpened_stageSlot, mbOpened_fw] at run
    refine ⟨fun passes => plain (r := (0, 0)) (by simp) idle (run.trans ?_),
      fun fails => plain (r := (5, 0xD3)) (by simp) idle (run.trans ?_)⟩
    · rw [if_pos passes]
      simp only [mbOpened_fw, w, c]
    · rw [if_neg (ne_true_of_eq_false fails)]
      simp only [mbOpened_fw, w, c]
  case activate =>
    have run := mbRun_activate (tag := tag) idle.clean
    have acts (staged : s.fw.staged = true) (clear : emergency s = false) :=
      doActivate_eq (s := mbOpened s fn tag .activate) (by rwa [mbOpened_fw]) (by rwa [mbOpened_emergency])
    refine ⟨fun unstaged => plain (r := (0x0B, 0xD4)) (by simp) idle (run.trans ?_),
      fun staged clear away => plain (r := (1, 0xD5)) (by simp) idle (run.trans ?_),
      fun staged clear there => mailbox_waits idle (bindServed_other (by simp) _ _) (run.trans ?_)⟩
    · rw [doActivate_unstaged (by rwa [mbOpened_fw])]
      rfl
    · rw [acts staged clear, if_neg (ne_true_of_eq_false away)]
      rfl
    · rw [acts staged clear, if_pos there]
      rfl
  case activateCancel =>
    refine plain (r := (0, 0)) (by simp) idle ((if_neg (by simp [idle.clean])).trans ?_)
    rw [← mbOpened_fw s fn tag .activateCancel]
  case svnCommit =>
    intro n
    refine plain (r := (0, 0)) (by simp) idle ((if_neg (by simp [idle.clean])).trans ?_)
    simp only [mbOpened_fw, mbOpened_sec, w, n]
  case keyRevoke =>
    intro k
    have run := mbRun_keyRevoke (tag := tag) idle.clean
    rw [mbOpened_sec] at run
    exact ⟨fun used => plain (r := (0x0B, 0xD7)) (by simp) idle (run.trans (if_pos used)),
      fun unused => plain (r := (0, 0)) (by simp) idle (run.trans (if_neg unused))⟩
  case logCfg => exact fun level => plain (r := (0, 0)) (by simp) idle (mbRun_logCfg idle.clean level)
  case traceCfg => exact plain (r := (0, 0)) (by simp) idle (if_neg (by simp [idle.clean]))
  case slowCfg =>
    intro port
    rw [← mbOpened_fw s fn tag .slowCfg, ← mbOpened_slowCounts s fn tag .slowCfg]
    exact plain (r := (0, 0)) (by simp) idle (mbRun_slowCfg port idle.clean)
  case ptpCfg =>
    intro port
    rw [← mbOpened_fw s fn tag .ptpCfg]
    exact plain (r := (0, 0)) (by simp) idle (mbRun_ptpCfg port idle.clean)
  case stgBind =>
    intro slow
    have served : BindServed (statStart (rset s (fwReg fn 0) (at_ tag.toNat 40 ||| at_ (mbOp (.stgBind r)) 0)) (mbStat fn)) fn (.stgBind r) := by
      rintro _ - kind
      have kept : mbReq (mbOpened s fn tag (.stgBind r)) fn 1
        = mbReq (statStart (rset s (fwReg fn 0) (at_ tag.toNat 40 ||| at_ (mbOp (.stgBind r)) 0)) (mbStat fn)) fn 1 := rget_fwPoint ..
      rw [← kept] at kind ⊢
      exact slow kind
    let v := mbOpened s fn tag (.stgBind r)
    refine ⟨(doBind v fn r).1, (doBind v fn r).2.1, (doBind v fn r).2.2, rfl, mailbox_replies idle served (mbRun_stgBind idle.clean),
      fun p t kind at_port hp zero ready free => ?_⟩
    rw [doBind_drive kind at_port hp zero ready free]
    have nsid : bits (mbReq v fn 1) 31 16 < 2 ^ 16 := Nat.mod_lt _ (by decide)
    have target (x : Tab StgT) : rget (fwPoint { rset v (stgTgtReg t) (driveTarget r p (bits (mbReq v fn 1) 31 16)) with stgs := x } 2 2)
        (stgTgtReg t) = driveTarget r p (bits (mbReq v fn 1) 31 16) := (rget_fwPoint ..).trans (rget_rset_self ..)
    rw [target]
    exact ⟨rfl, rfl, bits_driveTarget_state r hp nsid, bits_driveTarget_port r hp nsid⟩
  case stgUnbind =>
    intro t v bound
    have run := mbRun_stgUnbind (tag := tag) idle.clean
    rw [← mbOpened_descs s fn tag .stgUnbind]
    refine ⟨fun busy => plain (r := (1, 0xD9)) (by simp) idle (run.trans ?_),
      fun quiet => plain (r := (0, 0)) (by simp) idle (run.trans ?_)⟩
    · exact congrArg (fun x => (x.1, some (x.2, []))) (doUnbind_refuses bound busy)
    · exact congrArg (fun x => (x.1, some (x.2, []))) (doUnbind_frees bound quiet)
  case restart =>
    intro n v u runs restarts
    rw [← mbOpened_fw s fn tag .restart] at runs
    exact mailbox_waits idle (bindServed_other (by simp) _ _) (mbRun_restart idle.clean runs restarts)

end Sys2Proof.Machine

/-! The statement about the Stewards: failures and restarts, deferred and running activations, IEEE 1588, the log ring and out-of-band
commands (R507-R521). -/

namespace Sys2Proof.Machine

/-! ## Failures and restarts (R517, R519) -/

theorem coreFails_restarts {s : State} {core : Nat} (runs : stwRuns s core = true) (cause : BitVec 8) (pc : Word) :
    let w := restartCore s core cause pc none
    coreFails s core cause pc = .next (if (tget w.fw.cores core {}).st = 2 then mbResume w else w) :=
  if_neg (by simp [runs])

theorem stewardRestartDone_runs {s : State} {core : BitVec 4} :
    let c := tget s.fw.cores core.toNat {}
    let n := core.toNat
    c.st = 1 → c.by_ = none → exec (.stewardRestartDone core) s = .next (mbRestarted
      (logRecord (traceRestart { s with fw := { s.fw with cores := tset s.fw.cores n { c with st := 0, by_ := none } } } n) 0 n 1
        [n, c.cause.toNat, c.pc.toNat]) n) := by
  intro c n restarting alone
  refine (if_neg (not_not.mpr restarting)).trans ?_
  simp only [show (tget s.fw.cores core.toNat {}).by_ = none from alone]
  rfl

/-! ## Activation (R509-R511) -/

section
variable {s : State} {t : Word} (since : s.fw.clear = some t) (deferred : s.fw.act = 1) (clear : emergency s = false)
  (due : 10000000000 ≤ (s.devTime - t).toNat)
include since deferred clear due

theorem deferredActivation_eq : exec .deferredActivationTimer s =
    if boundary s = true then .next (activateBegin { s with fw := { s.fw with auto := false } } none true)
    else
      let w : State := { s with fw := { s.fw with act := 0, auto := false, actSt := 1, actDt := 0xD5 } }
      .next (nextFree (logRecord w 2 0 (freeCode w) [])) := by
  have waits : ¬(s.fw.act ≠ 1 ∨ emergency s = true ∨ (s.devTime - t).toNat < 10000000000) := by
    rw [deferred, clear]
    simp [not_lt.mpr due, -BitVec.toNat_sub]
  simp only [exec_deferredActivationTimer, execDeferredActivationTimer, since, waits, if_false]

end

/-- The image that an activation starts, with what the Stewards and the sessions lose (R509-R511). -/
def activated (s : State) (i : Image) : State :=
  let k := stageSlot s
  let v := measExtend { s with
    fw := { s.fw with
      act := 0, active := k, pref := k, staged := (tget? s.fw.images (1 - k)).isSome && s.fw.active != 2
      cores := s.fw.cores.map (fun (c : Nat × StwCore) => (c.1, { c.2 with st := 0, times := [], by_ := none })) }
    sec := { s.sec with svn := i.svn, keyUsed := i.key.getD 0, slot := BitVec.ofNat 2 k, sessions := [], kek := [] } } 1 i.digest
  { v with fw := { v.fw with actBy := none, actWas := false, auto := false, actSt := 0, actDt := 0 } }

section
variable {s : State} {i : Image} (running : s.fw.act = 2) (alone : s.fw.actBy = none) (plain : s.fw.actWas = false)
  (image : tget? s.fw.images (stageSlot s) = some i)
include running alone plain image

theorem activationComplete_starts (passes : imagePass s i = true) :
    exec (.activationComplete []) s = .next (mbResume (fwPoint (activated s i) 6 0)) := by
  simp only [exec_activationComplete, execActivationComplete, running, alone, plain, image, passes, ne_eq, not_true_eq_false, if_false,
    if_true, Bool.false_eq_true, dropFeatures, List.foldl_nil]
  rfl

theorem activationComplete_resumes (fails : imagePass s i = false) : exec (.activationComplete []) s
    = .next (mbResume (fwPoint { s with fw := { s.fw with
        act := 0, actBy := none, actWas := false, auto := false, actSt := 5, actDt := 0xD3 } } 6 0)) := by
  simp only [exec_activationComplete, execActivationComplete, running, alone, plain, image, fails, ne_eq, not_true_eq_false, if_false,
    Bool.false_eq_true]

end

theorem measOf_activated (s : State) (i : Image) :
    measOf (activated s i) 1 = Config.sha384 (digestBytes (measOf s 1) ++ digestBytes i.digest) := measOf_measExtend_self ..

/-! ## IEEE 1588 (R513) -/

theorem ptpMessage_sets {s : State} {p : Port} (up : dutyUp s 5 = true) (on : bit (tget s.fw.ptp p.val (0, 0)).1 16 = true) (r : Int) :
    exec (.ptpMessage p r) s = .next (fwPoint { s with fw := { s.fw with rate := max (-200000) (min 200000 r) } } 4 5) :=
  if_neg (by rw [up, on]; decide)

/-! ## The log ring (R514-R516) -/

/-- The register value of a log ring's fields. -/
def logRingWord (c : LogRingW) : Word :=
  ((c.base &&& 0xFFFFFFFFFFFFF000) ||| at_ (b2n c.en) 11 ||| at_ c.size.toNat 0) &&& 0xFFFFFFFFFFFFF81F

theorem getLsbD_logRingWord (c : LogRingW) {i : Nat} (below : i < 12) :
    (logRingWord c).getLsbD i = (decide (i < 5 ∨ i = 11) && ((decide (i = 11) && c.en) || c.size.getLsbD i)) := by
  have masks : ∀ i < 12, (0xFFFFFFFFFFFFF000 : Word).getLsbD i = false
      ∧ (0xFFFFFFFFFFFFF81F : Word).getLsbD i = decide (i < 5 ∨ i = 11) := by decide
  have enable : (b2n c.en).testBit (i - 11) = (decide (i - 11 = 0) && c.en) := by
    cases c.en with
    | false => simp [b2n]
    | true =>
      rw [Bool.eq_iff_iff]
      simp [b2n, Nat.testBit_one_eq_true_iff_self_eq_zero]
  have only : (decide (11 ≤ i) && decide (i - 11 = 0)) = decide (i = 11) := by
    rw [← Bool.decide_and, decide_eq_decide]
    omega
  simp only [logRingWord, at_, BitVec.getLsbD_and, BitVec.getLsbD_or, BitVec.getLsbD_ofNat, Nat.testBit_shiftLeft, masks i below, enable,
    show i < 64 by omega, decide_true, Bool.and_false, Bool.false_or, Bool.true_and, Nat.zero_le, ge_iff_le, Nat.sub_zero]
  rw [← Bool.and_assoc, only, Bool.and_comm]
  rfl

theorem bits_logRingWord_size (c : LogRingW) : bits (logRingWord c) 4 0 = c.size.toNat := by
  refine Nat.eq_of_testBit_eq fun i => ?_
  rw [testBit_bits, Nat.zero_add]
  by_cases inside : i < 5
  · have notEn : i ≠ 11 := by omega
    rw [getLsbD_logRingWord c (by omega)]
    simp only [inside, notEn, true_or, decide_true, decide_false, Bool.true_and, Bool.false_and, Bool.false_or]
    rfl
  · have clear : c.size.toNat.testBit i = false :=
      Nat.testBit_lt_two_pow (c.size.isLt.trans_le (Nat.pow_le_pow_right (by decide) (not_lt.mp inside)))
    simp [inside, clear]

theorem bit_logRingWord_en (c : LogRingW) : bit (logRingWord c) 11 = c.en := by
  have small : c.size.getLsbD 11 = false := BitVec.getLsbD_of_ge _ _ (by decide)
  rw [bit_eq_getLsbD, getLsbD_logRingWord c (by decide), small]
  simp

theorem logRingWr_sets {s : State} {fn : Fn} {c : LogRingW} (low : 6 ≤ c.size.toNat) (high : c.size.toNat ≤ 20)
    (off : bit (logRing s (portOf fn)) 11 = false) {v : Word} (value : v &&& 0xFFFFFFFFFFFFF81F = logRingWord c) :
    let w := rset s (fwReg fn 0x300) (logRingWord c)
    logRingWr fn v s = if c.en then logDrain w (portOf fn) ((getLog w (portOf fn)).kept.length + 1) else w := by
  simp only [logRingWr, off, value, bits_logRingWord_size, bit_logRingWord_en, low, high, and_self, if_true, if_false, Bool.false_eq_true,
    Bool.not_false, and_true]

/-! ## Out-of-band commands (R521) -/

/-- A message of MCTP that reaches the firmware. -/
theorem oob_runs {s : State} {via : SpdmVia} (up : viaUp s via = true) (mctp : ∀ p, via ≠ .doe p) (body : State → State) :
    oob via body s = .next (fwPoint (body s) 5 1) := by
  cases via with
  | doe p => exact absurd rfl (mctp p)
  | vdm p => exact if_pos up
  | smbus => exact if_pos up

/-! ## The statement -/

/-- Settles O53: each event meets the case of its lemma above. -/
theorem stewardEvents : Obligations.StewardEvents := by
  unfold Obligations.StewardEvents
  intro s fn
  refine ⟨fun core pc runs => ⟨coreFails_restarts runs 1 pc, coreFails_restarts runs 2 pc⟩, fun core => stewardRestartDone_runs,
    fun t since deferred clear due => ?deferred, fun i running alone plain image => ?complete, fun p r up on => ptpMessage_sets up on r,
    fun c pf h low high off => hostPf_settles_to pf h (logRingWr_sets low high off rfl), fun r pf h => hostPf_settles pf h,
    fun via up mctp => ?oob⟩
  case deferred =>
    have acts := deferredActivation_eq since deferred clear due
    exact ⟨fun there => acts.trans (if_pos there), fun away => acts.trans (if_neg (ne_true_of_eq_false away))⟩
  case complete =>
    exact ⟨fun passes => ⟨activated s i, activationComplete_starts running alone plain image passes, rfl, rfl, rfl, rfl, rfl, rfl, rfl,
      measOf_activated s i⟩, activationComplete_resumes running alone plain image⟩
  case oob =>
    refine ⟨fun e => (exec_mctpControl ..).trans (oob_runs up mctp _), fun n channel => ?sensor,
      fun img => (exec_pldmFirmwareUpdate ..).trans (oob_runs up mctp _), fun unstaged => ?_, fun staged clear there => ?_⟩
    case sensor =>
      rw [exec_pldmPlatform, execPldmPlatform, oob_runs up mctp]
      simp only [channel, true_or, if_true]
    · rw [exec_activateFirmware, execActivateFirmware, oob_runs up mctp, doActivate_unstaged unstaged]
      rfl
    · rw [exec_activateFirmware, execActivateFirmware, oob_runs up mctp, doActivate_eq staged clear, if_pos there]
      rfl

end Sys2Proof.Machine

/-! The statement about the metering island: frames, intervals, records, requests and tamper (R531-R543). -/

namespace Sys2Proof.Machine

/-! ## Tally frames (R531, R534) -/

/-- The rows of a tally frame: U's, then that of each instance that counted something. -/
def tallyRows (s : State) (bs : List TallyIn) : List (Nat × List Word) :=
  ((256 :: List.range 256).map (fun a => (a, increments s bs a))).filter (fun r => r.1 == 256 || r.2.any (· != 0))

/-- The block of a frame's row. -/
def tallyBlock (s : State) (r : Nat × List Word) : Nat × BitVec 32 × List Word :=
  (r.1, if r.1 = 256 then 0 else genOf s (BitVec.ofNat 8 r.1), r.2)

/-- A row holds its account's increments, and is there for U or for an account that counted something. -/
theorem mem_tallyRows {s : State} {bs : List TallyIn} {r : Nat × List Word} :
    r ∈ tallyRows s bs ↔ r.1 ≤ 256 ∧ r.2 = increments s bs r.1 ∧ (r.1 = 256 ∨ (increments s bs r.1).any (· != 0) = true) := by
  obtain ⟨account, incs⟩ := r
  simp only [tallyRows, List.mem_filter, List.mem_map, List.mem_cons, List.mem_range, Prod.mk.injEq, Bool.or_eq_true, beq_iff_eq]
  constructor
  · rintro ⟨⟨a, known, rfl, rfl⟩, there⟩
    exact ⟨by omega, rfl, there⟩
  · rintro ⟨known, rfl, there⟩
    exact ⟨⟨account, by omega, rfl, rfl⟩, there⟩

theorem tallyFrameSend_sends {s : State} (bs : List TallyIn) (on : 2 ≤ s.boot.phase.toNat) (due : s.devTime.toNat % 10000000 = 0) :
    ∃ sent, exec (.tallyFrameSend bs) s = .next { s with mtr := { s.mtr with
      link := s.mtr.link ++ [{ fseq := s.mtr.fseq, time := s.devTime, blocks := (tallyRows s bs).map (tallyBlock s) }]
      fseq := s.mtr.fseq + 1, sent := sent } } :=
  ⟨_, if_neg (by omega)⟩

theorem tallyBlocks_hold (s : State) (bs : List TallyIn) : ∀ b ∈ (tallyRows s bs).map (tallyBlock s),
    b.2.2 = increments s bs b.1 ∧ (b.1 ≠ 256 → b.2.1 = genOf s (BitVec.ofNat 8 b.1)) := by
  intro b there
  obtain ⟨r, row, rfl⟩ := List.mem_map.mp there
  obtain ⟨-, incs, -⟩ := mem_tallyRows.mp row
  exact ⟨incs, fun notU => if_neg notU⟩

theorem mem_tallyBlocks_accounts {s : State} {bs : List TallyIn} {a : Nat} (known : a ≤ 256) :
    a ∈ ((tallyRows s bs).map (tallyBlock s)).map (·.1) ↔ (a = 256 ∨ (increments s bs a).any (· != 0) = true) := by
  rw [List.map_map, List.mem_map]
  constructor
  · rintro ⟨r, row, rfl⟩
    obtain ⟨-, -, there⟩ := mem_tallyRows.mp row
    exact there
  · exact fun there => ⟨(a, increments s bs a), mem_tallyRows.mpr ⟨known, rfl, there⟩, rfl⟩

section
variable {s : State} {f : TallyFrame} {r : List TallyFrame} (running : s.mtr.running = true) (cart : s.mtr.cart.isSome = true)
  (link : s.mtr.link = f :: r)
include running cart

theorem tallyFrameReceive_strange : exec (.tallyFrameReceive .strange) s = .next { s with mtr := loseFrames s.mtr 1 } := by
  simp only [exec_tallyFrameReceive, execTallyFrameReceive, running, cart, Bool.and_self, if_true]

include link

theorem tallyFrameReceive_good :
    exec (.tallyFrameReceive .good) s = .next { s with mtr := acceptFrame { s.mtr with link := r } f } := by
  simp only [exec_tallyFrameReceive, execTallyFrameReceive, running, cart, link, Bool.and_self, Bool.not_true, Bool.false_eq_true,
    reduceCtorEq, if_false]

theorem tallyFrameReceive_bad : exec (.tallyFrameReceive .bad) s
    = .next { s with mtr := { loseFrames { s.mtr with link := r } 1 with expect := s.mtr.expect.map (· + 1) } } := by
  simp only [exec_tallyFrameReceive, execTallyFrameReceive, running, cart, link, Bool.and_self, Bool.not_true, Bool.false_eq_true,
    reduceCtorEq, if_false]

theorem tallyFrameReceive_lost : exec (.tallyFrameReceive .lost) s = .next { s with mtr := { s.mtr with link := r } } := by
  simp only [exec_tallyFrameReceive, execTallyFrameReceive, running, cart, link, Bool.and_self, Bool.not_true, Bool.false_eq_true,
    reduceCtorEq, if_false]

end

/-- A frame is taken after `gap` lost ones. -/
def tookFrame (m : Mtr) (f : TallyFrame) (gap : Nat) : Mtr :=
  { loseFrames m gap with
    expect := some (f.fseq + 1), accounts := f.blocks.foldl addBlock m.accounts, frames := m.frames + 1, lastDev := f.time, noTally := false }

theorem acceptFrame_gap {m : Mtr} {f : TallyFrame} {e : BitVec 32} (expects : m.expect = some e) (later : f.fseq ≠ 0) :
    acceptFrame m f = tookFrame m f (f.fseq - e).toNat := by
  simp only [acceptFrame, expects, later, if_false]
  rfl

theorem acceptFrame_first {m : Mtr} {f : TallyFrame} (first : m.expect = none) : acceptFrame m f = tookFrame m f 0 := by
  simp only [acceptFrame, first]
  rfl

/-! ## The end of an interval (R533, R535, R536) -/

theorem length_beBytes (n v : Nat) : (beBytes n v).length = n := (List.length_reverse ..).trans (length_toBytes n v)

theorem length_prevBytes (c : Cartridge) : (prevBytes c).length = 32 := by
  unfold prevBytes
  split
  · exact List.length_replicate
  · rw [List.length_take, length_beBytes]
    rfl

theorem length_entryBytes (a : Nat) (gen : BitVec 32) (mixed : Bool) (w mj cum : Nat) : (entryBytes a gen mixed w mj cum).length = 32 := by
  simp only [entryBytes, List.length_append, length_toBytes]

/-- The cartridge once the interval's energy is added. -/
def chargedCart (c : Cartridge) (tEnd : Word) (e : Word) : Cartridge :=
  { c with
    eTotal := BitVec.ofNat 64 (sat (2 ^ 64 - 1) (c.eTotal.toNat + e.toNat))
    sat := c.sat || decide (sat (2 ^ 64 - 1) (c.eTotal.toNat + e.toNat) = 2 ^ 64 - 1), time := tEnd }

section
variable (m : Mtr) {c : Cartridge} (start loss : Bool) (tEnd : Word) (x : Measured)

/-- The next interval begins with nothing counted. -/
theorem endInterval_restarts (c : Cartridge) : let w := endInterval m c start loss tEnd x
    w.iStart = tEnd ∧ w.frames = 0 ∧ w.lost = 0 ∧ w.accounts = [] ∧ w.running = m.running := by
  intro w
  by_cases tampered : c.tampered = true <;> simp [w, endInterval, tampered]

theorem endInterval_cart_of_tampered (tampered : c.tampered = true) :
    (endInterval m c start loss tEnd x).cart = some (chargedCart c tEnd x.e) :=
  congrArg Mtr.cart (if_pos tampered)

/-- A cartridge that is not tampered gets one signed record, of the length its entries give. -/
theorem endInterval_cart_of_intact (intact : c.tampered = false) :
    ∃ data cum, data.length = 160 + 32 * (entriesOf m (tEnd - m.iStart).toNat).length
      ∧ (endInterval m c start loss tEnd x).cart = some { chargedCart c tEnd x.e with
          seq := c.seq + 1, cum := cum, unclean := c.unclean && !start
          records := ((c.seq, data ++ beBytes 64 (Config.ed25519Sign data).toNat) :: c.records).take 7000000 } := by
  have sound : ¬c.tampered = true := by rw [intact]; decide
  refine ⟨?data, ?cum, ?length, ?cart⟩
  case cart => exact congrArg Mtr.cart (if_neg sound)
  simp only [List.length_append, List.length_flatMap, length_entryBytes, length_prevBytes, length_toBytes, List.length_replicate, List.map_const',
    List.sum_replicate, smul_eq_mul, List.map_cons, List.map_nil, List.sum_cons, List.sum_nil]
  omega

end

/-- The next whole second. -/
def nextSecond (t : Word) : Word := BitVec.ofNat 64 ((t.toNat / 1000000000 + 1) * 1000000000)

theorem intervalEnd_ends {s : State} {c : Cartridge} (running : s.mtr.running = true) (cart : s.mtr.cart = some c) (m : Measured) :
    exec (.intervalEnd m) s = .next { s with mtr := endInterval s.mtr c false false (nextSecond s.mtr.iStart) m } := by
  simp only [exec_intervalEnd, execIntervalEnd, nextSecond, cart, running, Bool.not_true, Bool.false_eq_true, if_false]

/-! ## Power-up (R538, R540) -/

/-- The cartridge that is there at power-up. -/
def cartFound (m : Mtr) : CartIn → Option Cartridge
  | .same => m.cart
  | .absent => none
  | .other x => some x

/-- The island runs with the cartridge. -/
def startedIsland (m : Mtr) (x : Cartridge) : Mtr :=
  { m with cart := some { x with boots := x.boots + 1 }, running := true, iStart := x.time, noTally := false }

section
variable {s : State} {ci : CartIn} (m : Measured) (off : s.mtr.running = false)
include off

theorem islandPowerUp_without (found : cartFound s.mtr ci = none) :
    exec (.islandPowerUp ci m) s = .next { s with mtr := { s.mtr with cart := none } } := by
  cases ci <;> simp_all [cartFound, exec_islandPowerUp, execIslandPowerUp]

theorem islandPowerUp_starts {x : Cartridge} (found : cartFound s.mtr ci = some x) :
    exec (.islandPowerUp ci m) s = .next { s with
      mtr := endInterval (startedIsland s.mtr x) { x with boots := x.boots + 1 } true false x.time { m with e := 0 } } := by
  cases ci <;> simp_all [cartFound, startedIsland, exec_islandPowerUp, execIslandPowerUp]

end

/-! ## Requests (R541) -/

/-- The word of a request. -/
def mtrWord (tag : BitVec 8) (op : Nat) : Word := at_ tag.toNat 8 ||| BitVec.ofNat 64 op

section
variable {op : Nat} (known : op ≤ 2) (tag : BitVec 8)
include known

theorem mtrWord_eq : mtrWord tag op = BitVec.ofNat 64 (tag.toNat * 2 ^ 8 + op) :=
  at_or_ofNat _ (by omega)

theorem bits_mtrWord_op : bits (mtrWord tag op) 3 0 = op := by
  have byte := tag.isLt
  rw [mtrWord_eq known, bits, BitVec.toNat_ofNat]
  omega

theorem bits_mtrWord_tag : bits (mtrWord tag op) 15 8 = tag.toNat := by
  have byte := tag.isLt
  rw [mtrWord_eq known, bits, BitVec.toNat_ofNat, Nat.shiftRight_eq_div_pow]
  omega

/-- Every bit of the word is one that `MTR_REQ` holds. -/
theorem mtrWord_and_mask : mtrWord tag op &&& 0xFF0F = mtrWord tag op := by
  have mask : ∀ i < 64, (i < 2 ∨ 8 ≤ i ∧ i < 16) → (0xFF0F : Word).getLsbD i = true := by decide
  refine BitVec.eq_of_getLsbD_eq fun i word => ?_
  rw [BitVec.getLsbD_and, Bool.and_eq_left_iff_imp]
  simp only [mtrWord, at_, BitVec.getLsbD_or, BitVec.getLsbD_ofNat, Nat.testBit_shiftLeft, Bool.or_eq_true, Bool.and_eq_true,
    decide_eq_true_eq]
  rintro (⟨-, above, set_⟩ | ⟨-, set_⟩)
  · have below := lt_of_testBit_of_lt_two_pow set_ tag.isLt
    exact mask i word (.inr ⟨above, by omega⟩)
  · exact mask i word (.inl (lt_of_testBit_of_lt_two_pow set_ (n := 2) (by omega)))

end

/-- The end of a request: its codes and its tag. -/
def mtrDone (s : State) (tag : BitVec 8) (r : BitVec 8 × BitVec 8) : State :=
  rset (statDone s mtrStat r) mtrStat (setBits (rget (statDone s mtrStat r) mtrStat) 39 32 tag.toNat)

theorem reports_mtrDone (s : State) (tag : BitVec 8) (r : BitVec 8 × BitVec 8) : reports (mtrDone s tag r) mtrStat r.1 r.2 := by
  have done := reports_statDone s mtrStat r
  simp only [reports, mtrDone, rget_rset_self] at done ⊢
  rwa [bits_setBits_ne _ _ _ _ _ _ (by decide) (by decide), bits_setBits_ne _ _ _ _ _ _ (by decide) (by decide),
    bits_setBits_ne _ _ _ _ _ _ (by decide) (by decide)]

theorem regsOnly_mtrDone {ks : List Nat} {w u : State} (tag : BitVec 8) (r : BitVec 8 × BitVec 8) (h : RegsOnly ks w u)
    (there : mtrStat ∈ ks) : RegsOnly ks w (mtrDone u tag r) :=
  regsOnly_rset (regsOnly_statDone h there) there

theorem mtrReqWr_mtrWord {s t : State} {op : Nat} (some_ : 1 ≤ op) (known : op ≤ 2) (tag : BitVec 8) {ns e : Nat}
    {r : BitVec 8 × BitVec 8} (runs : mtrRun (rset s 0xE00100 (mtrWord tag op)) op ns e = (t, r)) :
    mtrReqWr (mtrWord tag op) ns e s = mtrDone { t with mtr := { t.mtr with tag := tag } } tag r := by
  have kept : opKept (rget s 0xE00100) (mtrWord tag op &&& 0xFF0F) 2 = mtrWord tag op := by
    rw [mtrWord_and_mask known]
    exact if_pos ((bits_mtrWord_op known tag).trans_le known)
  simp only [mtrReqWr, kept, bits_mtrWord_op known, bits_mtrWord_tag known, Nat.one_le_iff_ne_zero.mp some_, runs,
    BitVec.ofNat_toNat, BitVec.setWidth_eq, if_false]
  rfl

section
variable {s : State} {c : Cartridge} (running : s.mtr.running = true) (cart : s.mtr.cart = some c) (intact : c.tampered = false)
include running cart intact

theorem mtrRun_fetches (ns e : Nat) {r : Word × List Byte} (one : mtrArg s 1 = 0) (two : mtrArg s 2 = 0) (three : mtrArg s 3 = 0)
    (found : c.records.find? (fun r => r.1 == mtrArg s 0) = some r) :
    mtrRun s 1 ns e = ({ s with mtr := { s.mtr with fetch := r.2 } }, (0, 0)) := by
  simp only [mtrRun, running, cart, intact, one, two, three, found, Bool.not_true, Bool.false_eq_true, ne_eq, not_true_eq_false, or_self,
    if_true, if_false]

theorem mtrRun_quotes (ns e : Nat) :
    mtrRun s 2 ns e = ({ s with mtr := { s.mtr with quote := quoteBytes s c ns e } }, (0, 0)) := by
  simp only [mtrRun, running, cart, intact, Bool.not_true, Bool.false_eq_true, show ¬(2 : Nat) = 1 by decide, if_true, if_false]

end

/-- The request's own register is not one of its arguments. -/
theorem mtrArg_rset (s : State) (v : Word) (n : Nat) : mtrArg (rset s 0xE00100 v) n = mtrArg s n := rget_rset_ne _ _ (by omega)

theorem quoteBytes_rset (s : State) (v : Word) (c : Cartridge) (ns e : Nat) :
    quoteBytes (rset s 0xE00100 v) c ns e = quoteBytes s c ns e := by
  simp only [quoteBytes, mtrArg_rset]
  rfl

theorem mtrRequest_answers {s w : State} {fn : Fn} (pf : isPf fn = true) (reach : HostReaches s fn 0xE00100) {op : Nat} (some_ : 1 ≤ op)
    (known : op ≤ 2) (tag : BitVec 8) {ns e : Nat} (threads : w.threads = s.threads)
    (runs : mtrRun (rset s 0xE00100 (mtrWord tag op)) op ns e = (rset w 0xE00100 (mtrWord tag op), (0, 0))) :
    answers (hostPf fn 0xE00100 (mtrWord tag op) (mtrReqWr (mtrWord tag op) ns e) s) { w with mtr := { w.mtr with tag := tag } }
      [0xE00100] mtrStat 0 0 :=
  have only := regsOnly_mtrDone (ks := [mtrStat, 0xE00100]) (w := { w with mtr := { w.mtr with tag := tag } }) tag (0, 0)
    (regsOnly_rset (.refl _ _) (v := mtrWord tag op) (List.mem_cons_of_mem _ List.mem_cons_self)) List.mem_cons_self
  ⟨_, hostPf_ok pf reach (mtrReqWr_mtrWord some_ known tag runs) threads, only.1, only.2, reports_mtrDone _ _ _⟩

/-! ## The statement -/

/-- Settles O54, from what the end of an interval does to the cartridge and to the counts. -/
theorem meteringOperations : Obligations.MeteringOperations := by
  intro s
  refine ⟨fun bs on due => ?_, fun f r running cart link => ?_, fun m c running cart => ?_,
    fun fn tag c pf reach running cart intact => ⟨fun r one two three found => ?_, fun ns e => ?_⟩, rfl,
    fun ci m off => ⟨fun found => ?_, fun x found intact => ?_⟩⟩
  · obtain ⟨sent, sends⟩ := tallyFrameSend_sends bs on due
    exact ⟨_, sent, sends, rfl, rfl, tallyBlocks_hold s bs, fun a known => mem_tallyBlocks_accounts known⟩
  · refine ⟨fun e expects later => ?_, fun first => ?_, tallyFrameReceive_bad running cart link, tallyFrameReceive_lost running cart link,
      tallyFrameReceive_strange running cart⟩
    · rw [tallyFrameReceive_good running cart link, acceptFrame_gap (m := { s.mtr with link := r }) expects later]
      rfl
    · rw [tallyFrameReceive_good running cart link, acceptFrame_first (m := { s.mtr with link := r }) first]
      rfl
  · obtain ⟨begins, frames, lost, accounts, -⟩ := endInterval_restarts s.mtr false false (nextSecond s.mtr.iStart) m c
    cases intact : c.tampered with
    | true => exact ⟨_, _, intervalEnd_ends running cart m, endInterval_cart_of_tampered _ _ _ _ _ intact, begins, frames, lost, accounts,
        rfl, fun _ => ⟨rfl, rfl⟩, fun h => absurd h (by decide)⟩
    | false =>
      obtain ⟨data, cum, length, kept⟩ := endInterval_cart_of_intact s.mtr false false (nextSecond s.mtr.iStart) m intact
      exact ⟨_, _, intervalEnd_ends running cart m, kept, begins, frames, lost, accounts, rfl, fun h => absurd h (by decide),
        fun _ => ⟨rfl, data, length, rfl⟩⟩
  · refine mtrRequest_answers (w := { s with mtr := { s.mtr with fetch := r.2 } }) pf reach (by decide) (by decide) tag rfl ?_
    exact mtrRun_fetches (s := rset s 0xE00100 (mtrWord tag 1)) running cart intact 0 0 ((mtrArg_rset ..).trans one)
      ((mtrArg_rset ..).trans two) ((mtrArg_rset ..).trans three) (by rwa [mtrArg_rset])
  · refine mtrRequest_answers (w := { s with mtr := { s.mtr with quote := quoteBytes s c ns.toNat e.toNat } }) pf reach (by decide) (by decide)
      tag rfl ?_
    rw [← quoteBytes_rset s (mtrWord tag 2)]
    exact mtrRun_quotes (s := rset s 0xE00100 (mtrWord tag 2)) running cart intact _ _
  · exact islandPowerUp_without m off (by cases ci <;> exact found)
  · have starts := islandPowerUp_starts (ci := ci) m off (x := x) (by cases ci <;> exact found)
    obtain ⟨-, -, -, -, runs⟩ := endInterval_restarts (startedIsland s.mtr x) true false x.time { m with e := 0 } { x with boots := x.boots + 1 }
    obtain ⟨data, cum, -, kept⟩ := endInterval_cart_of_intact (c := { x with boots := x.boots + 1 }) (startedIsland s.mtr x) true false x.time
      { m with e := 0 } intact
    exact ⟨_, _, starts, runs, kept, rfl, rfl, Bool.and_false _, rfl⟩

end Sys2Proof.Machine

/-! The statement about counters, their samplers and the trace unit (R586-R599). -/

namespace Sys2Proof.Machine

/-! ## Words made of fields -/

/-- A mask that holds every bit of a field keeps the field. -/
theorem at_and_of_covers {v i n : Nat} {mask : Word} (small : v < 2 ^ n) (covers : ∀ j < 64, i ≤ j → j < i + n → mask.getLsbD j = true) :
    at_ v i &&& mask = at_ v i := by
  refine BitVec.eq_of_getLsbD_eq fun j word => ?_
  rw [BitVec.getLsbD_and, Bool.and_eq_left_iff_imp]
  simp only [at_, BitVec.getLsbD_ofNat, Nat.testBit_shiftLeft, Bool.and_eq_true, decide_eq_true_eq]
  rintro ⟨-, above, set_⟩
  have below := lt_of_testBit_of_lt_two_pow set_ small
  exact covers j word above (by omega)

/-- Writing an entry twice leaves the second value. -/
theorem tset_tset {α : Type} (m : Tab α) (k : Nat) (v w : α) : tset (tset m k v) k w = tset m k w := by
  induction m with
  | nil => simp only [tset, Nat.lt_irrefl, if_true, if_false]
  | cons c r ih =>
    obtain ⟨j, x⟩ := c
    by_cases before : k < j
    · simp only [tset, before, Nat.lt_irrefl, if_true, if_false]
    · by_cases here : k = j
      · simp only [tset, here, Nat.lt_irrefl, if_true, if_false]
      · simp only [tset, before, here, ih, if_false]

/-! ## Counting (R586-R591) -/

theorem mem_cnts_zeroCounters {s : State} {vi : Vi} {p : Nat × BitVec 48 × Bool} :
    p ∈ (zeroCounters s vi).cnts ↔ (p ∈ s.cnts ∧ p.1 / 32 % 256 ≠ vi.toNat) := by
  simp only [zeroCounters, List.mem_filter, Bool.not_eq_true', decide_eq_false_iff_not, ne_eq]

/-- The word of `CNT_VICFG`. -/
def cntWordOf (en ar : Bool) : Word := at_ (b2n en) 63 ||| at_ (b2n ar) 62

theorem cntWordOf_and_mask : ∀ en ar, cntWordOf en ar &&& 0xC000000000000000 = cntWordOf en ar := by decide

theorem bit_cntWordOf : ∀ en ar, bit (cntWordOf en ar) 63 = en := by decide

theorem cntCfgWr_own {s : State} {fn : Fn} (own : samePort fn (cntVi s) = true) (en ar : Bool) :
    let w := rset s (cntReg (cntVi s) 8) (cntWordOf en ar)
    cntCfgWr fn (cntWordOf en ar) s = if en then zeroCounters w (cntVi s) else w := by
  simp only [cntCfgWr, own, cntWordOf_and_mask, bit_cntWordOf, Bool.not_true, Bool.false_eq_true, if_false]

/-! ## Samplers (R592, R593) -/

section
variable (c : SmpW)

/-- Every bit of the word is one that `CNT_SMP_CFG` holds. -/
theorem cSmpWord_and_mask : cSmpWord c &&& 0x80FF0000FFFF001F = cSmpWord c := by
  rw [cSmpWord, BitVec.and_or_distrib_right, BitVec.and_or_distrib_right, BitVec.and_or_distrib_right,
    at_and_of_covers (n := 1) (by decide) (by decide), at_and_of_covers (n := 8) c.vi.isLt (by decide),
    at_and_of_covers (n := 16) c.period.isLt (by decide), at_and_of_covers (n := 5) c.size.isLt (by decide)]

theorem cSmpWord_toNat : (cSmpWord c).toNat = 2 ^ 63 + (c.vi.toNat * 2 ^ 48 + (c.period.toNat * 2 ^ 16 + c.size.toNat)) := by
  have vi := c.vi.isLt
  have period := c.period.isLt
  have size := c.size.isLt
  rw [cSmpWord, BitVec.or_assoc, BitVec.or_assoc, at_zero, at_or_ofNat _ (by omega), at_or_ofNat _ (by omega), at_or_ofNat _ (by omega),
    BitVec.toNat_ofNat]
  omega

theorem bits_cSmpWord_vi : bits (cSmpWord c) 55 48 = c.vi.toNat := by
  have vi := c.vi.isLt
  have period := c.period.isLt
  have size := c.size.isLt
  simp only [bits, cSmpWord_toNat, Nat.shiftRight_eq_div_pow]
  omega

theorem bit_cSmpWord_en : bit (cSmpWord c) 63 = true := by
  rw [bit_eq_getLsbD, cSmpWord, BitVec.getLsbD_or, BitVec.getLsbD_or, BitVec.getLsbD_or, show (at_ 1 63).getLsbD 63 = true by decide,
    Bool.true_or, Bool.true_or, Bool.true_or]

end

theorem cntSmpWr_cSmpWord {s : State} {fn : Fn} {k : Nat} {c : SmpW} (own : samePort fn c.vi = true) (idle : (getSmp s k).run = false) :
    let w := rset s (cSmpReg k 8) (cSmpWord c)
    cntSmpWr fn k (cSmpWord c) s
      = if cSmpOk w k then setSmp w k { getSmp s k with run := true, n := 0, last := none } else setSmp w k { getSmp s k with run := false } := by
  simp only [cntSmpWr, cSmpWord_and_mask, bits_cSmpWord_vi, bit_cSmpWord_en, BitVec.ofNat_toNat, BitVec.setWidth_eq, own, idle,
    Bool.not_true, Bool.false_and, Bool.or_self, Bool.false_eq_true, if_false, Bool.true_and]

theorem getSmp_setSmp (s : State) (k : Nat) (x : Sampler) : getSmp (setSmp s k x) k = x := tget_tset_self ..

theorem setSmp_setSmp (s : State) (k : Nat) (x y : Sampler) : setSmp (setSmp s k x) k y = setSmp s k y :=
  congrArg (fun t => { s with smp := t }) (tset_tset ..)

section
variable {s : State} {k : Fin 4} (settled : Settled s) (works : working s = true) (runs : (getSmp s k.val).run = true)
  (due : s.devTime.toNat % cSmpPeriod s k.val = 0) (fresh : (getSmp s k.val).last ≠ some s.devTime)
include settled works runs due fresh

/-- A sample that is due is written to a ring with room, and dropped otherwise; either way it is the sampler's last. -/
theorem counterSample_samples {u : State} (does : (if cSmpRoom s k.val then cSmpWrite s k.val else cSmpDrop s k.val) = u)
    (threads : u.threads = s.threads) : exec (.counterSample k) s = .next (nextFree (setSmp u k.val
      { getSmp u k.val with n := (getSmp u k.val).n + 1, last := some u.devTime })) := by
  have first : ((getSmp s k.val).last == some s.devTime) = false := beq_eq_false_iff_ne.mpr fresh
  have does : (if cSmpRoom s k.val = true then cSmpWrite s k.val else cSmpDrop s k.val) = u := does
  simp only [exec_counterSample, execCounterSample, works, runs, due, first, does, Bool.not_true, ne_eq, not_true_eq_false, decide_false,
    Bool.or_self, Bool.false_eq_true, if_false]
  exact congrArg Host.Outcome.next (settle_same settled threads)

theorem counterSample_drops (full : cSmpRoom s k.val = false) : exec (.counterSample k) s = .next (nextFree (setSmp s k.val
    { getSmp s k.val with
      n := (getSmp s k.val).n + 1, last := some s.devTime, lost := (getSmp s k.val).lost + 1
      wrap := (getSmp s k.val).wrap || decide ((getSmp s k.val).lost + 1 = 0) })) := by
  refine (counterSample_samples settled works runs due fresh (if_neg (by rw [full]; decide)) rfl).trans ?_
  rw [cSmpDrop, getSmp_setSmp, setSmp_setSmp]
  rfl

theorem counterSample_writes (room : cSmpRoom s k.val = true) {u : State} (writes : cSmpWrite s k.val = u) (smp : u.smp = s.smp)
    (threads : u.threads = s.threads) (time : u.devTime = s.devTime) : exec (.counterSample k) s = .next (nextFree (setSmp u k.val
      { getSmp s k.val with n := (getSmp s k.val).n + 1, last := some s.devTime })) := by
  have same : getSmp u k.val = getSmp s k.val := by rw [getSmp, smp, getSmp]
  rw [counterSample_samples settled works runs due fresh ((if_pos room).trans writes) threads, same, time]

end

/-- A ring that translates takes the record. -/
theorem cSmpWrite_writes {s v u : State} {k : Nat}
    (tail : instWrite s (cSmpVi s k) (cSmpBase s k + BitVec.ofNat 64 (512 * ((getSmp s k).n.toNat % cSmpSize s k)) + 8) ((cSmpRecord s k).drop 8)
      = some v)
    (head : instWrite v (cSmpVi s k) (cSmpBase s k + BitVec.ofNat 64 (512 * ((getSmp s k).n.toNat % cSmpSize s k))) ((cSmpRecord s k).take 8)
      = some u) : cSmpWrite s k = u := by
  simp only [cSmpWrite, tail, head, Option.getD_some]

/-! ## `TRC_CFG` (R597-R599) -/

theorem trcEn_rset {s : State} {k : Nat} (v : Word) (other : 0xC10000 ≠ k) : trcEn (rset s k v) = trcEn s := by
  rw [trcEn, trcCfg, rget_rset_ne _ _ other, trcEn, trcCfg]

section
variable (c : TrcW)

/-- The fields of the word below EN. -/
def trcLow : Word := at_ c.reserve.toNat 56 ||| at_ c.ovfMib.toNat 32 ||| at_ c.postKib.toNat 0

theorem trcWord_eq : trcWord c = at_ (b2n c.en) 63 ||| trcLow c := by
  rw [trcWord, trcLow, BitVec.or_assoc, BitVec.or_assoc, ← BitVec.or_assoc (at_ c.reserve.toNat 56)]

theorem trcWord_toNat : (trcWord c).toNat
    = b2n c.en * 2 ^ 63 + (c.reserve.toNat * 2 ^ 56 + (c.ovfMib.toNat * 2 ^ 32 + c.postKib.toNat)) := by
  have en : b2n c.en < 2 := by unfold b2n; split <;> decide
  have reserve := c.reserve.isLt
  have ovf := c.ovfMib.isLt
  have post := c.postKib.isLt
  rw [trcWord, BitVec.or_assoc, BitVec.or_assoc, at_zero, at_or_ofNat _ (by omega), at_or_ofNat _ (by omega), at_or_ofNat _ (by omega),
    BitVec.toNat_ofNat]
  omega

theorem bits_trcWord_reserve : bits (trcWord c) 58 56 = c.reserve.toNat := by
  have en : b2n c.en < 2 := by unfold b2n; split <;> decide
  have reserve := c.reserve.isLt
  have ovf := c.ovfMib.isLt
  have post := c.postKib.isLt
  simp only [bits, trcWord_toNat, Nat.shiftRight_eq_div_pow]
  omega

theorem bits_trcWord_ovf : bits (trcWord c) 44 32 = c.ovfMib.toNat := by
  have reserve := c.reserve.isLt
  have ovf := c.ovfMib.isLt
  have post := c.postKib.isLt
  simp only [bits, trcWord_toNat, Nat.shiftRight_eq_div_pow]
  omega

theorem bits_trcWord_post : bits (trcWord c) 23 0 = c.postKib.toNat := by
  have post := c.postKib.isLt
  simp only [bits, trcWord_toNat, Nat.shiftRight_zero]
  omega

theorem bit_trcWord_en : bit (trcWord c) 63 = c.en := by
  have reserve := c.reserve.isLt
  have ovf := c.ovfMib.isLt
  have post := c.postKib.isLt
  have below : c.reserve.toNat * 2 ^ 56 + (c.ovfMib.toNat * 2 ^ 32 + c.postKib.toNat) < 2 ^ 63 := by omega
  rw [bit_eq_getLsbD, ← BitVec.testBit_toNat, trcWord_toNat, Nat.mul_comm, Nat.testBit_two_pow_mul_add _ below]
  cases c.en <;> rfl

variable {c} (reserve : c.reserve.toNat ≤ 4) (ovf : c.ovfMib.toNat ≤ 6144)
include reserve ovf

theorem trcFields_trcWord (old : Word) : trcFields old (trcWord c) = trcLow c := by
  simp only [trcFields, bits_trcWord_reserve, bits_trcWord_ovf, bits_trcWord_post, reserve, ovf, if_true, trcLow]

end

theorem syncCores_none (s : State) : syncCores s 0 = s :=
  List.foldlRecOn (List.range 16) _ (motive := fun u => u = s) rfl fun u same n _ => by
    simp only [Nat.zero_testBit, Bool.false_eq_true, if_false, same]

section
variable {s : State} {c : TrcW}

/-- A trace that starts: ARMED, with an empty buffer and host area. -/
def trcStarted (x : Trc) : Trc := { x with st := 1, post := 0, held := [], hostProd := 0, pendLoss := 0, needSync := [] }

theorem trcCfgWr_fields (idle : trcEn s = false) (off : c.en = false) (reserve : c.reserve.toNat ≤ 4) (ovf : c.ovfMib.toNat ≤ 6144) :
    trcCfgWr (trcWord c) s = rset s 0xC10000 (trcWord c) := by
  have low : trcLow c = trcWord c := by rw [trcWord_eq, off, show at_ (b2n false) 63 = 0#64 by decide, BitVec.zero_or]
  rw [trcEn] at idle
  simp only [trcCfgWr, idle, bit_trcWord_en, off, trcFields_trcWord reserve ovf, low, Bool.false_eq_true, if_false]

theorem trcCfgWr_starts (idle : trcEn s = false) (on : c.en = true) (reserve : c.reserve.toNat ≤ 4) (ovf : c.ovfMib.toNat ≤ 6144)
    (untraced : bits (rget s 0xC10048) 15 0 = 0) :
    trcCfgWr (trcWord c) s = { rset (rset s 0xC10000 (trcWord c)) 0xC10020 0 with trc := trcStarted s.trc } := by
  have word : trcLow c ||| at_ 1 63 = trcWord c := by rw [trcWord_eq, on, BitVec.or_comm]; rfl
  have mask (u : State) (same : u.regs = (rset (rset s 0xC10000 (trcWord c)) 0xC10020 0).regs) : bits (rget u 0xC10048) 15 0 = 0 := by
    rw [rget, same]
    exact (congrArg (bits · 15 0) ((rget_rset_ne _ _ (by decide)).trans (rget_rset_ne _ _ (by decide)))).trans untraced
  rw [trcEn] at idle
  simp only [trcCfgWr, idle, bit_trcWord_en, on, trcFields_trcWord reserve ovf, word, Bool.false_eq_true, if_true, if_false]
  exact (congrArg (syncCores _) (mask _ rfl)).trans (syncCores_none _)

theorem trcCfgWr_stops (runs : trcEn s = true) (off : c.en = false) :
    trcCfgWr (trcWord c) s = { rset s 0xC10000 (setBits (trcCfg s) 63 63 0) with trc := { s.trc with st := 0 } } := by
  rw [trcEn] at runs
  simp only [trcCfgWr, runs, bit_trcWord_en, off, Bool.false_eq_true, if_true, if_false]

end

/-! ## FIRE and ARM (R599) -/

section
variable {s : State} (held : rget s 0xC10040 &&& 0xFF37001F = rget s 0xC10040)
include held

/-- FIRE and ARM are no bits that `TRC_TRIG` holds. -/
theorem trcTrig_and_mask {i : Nat} (above : at_ 1 i &&& 0xFF37001F = 0#64) :
    (rget s 0xC10040 ||| at_ 1 i) &&& 0xFF37001F = rget s 0xC10040 := by
  rw [BitVec.and_or_distrib_right, held, above, BitVec.or_zero]

theorem bit_trcTrig_or {i j : Nat} (above : (0xFF37001F : Word).getLsbD j = false) : bit (rget s 0xC10040 ||| at_ 1 i) j = (at_ 1 i).getLsbD j := by
  rw [bit_eq_getLsbD, BitVec.getLsbD_or, ← held, BitVec.getLsbD_and, above, Bool.and_false, Bool.false_or]

theorem trcTrigWr_fire : trcTrigWr (rget s 0xC10040 ||| at_ 1 63) s = trcTrigger (rset s 0xC10040 (rget s 0xC10040)) 0 := by
  simp only [trcTrigWr, trcTrig_and_mask held (i := 63) (by decide), bit_trcTrig_or held (i := 63) (j := 62) (by decide),
    bit_trcTrig_or held (i := 63) (j := 63) (by decide), show (at_ 1 63).getLsbD 62 = false by decide,
    show (at_ 1 63).getLsbD 63 = true by decide, Bool.false_and, Bool.false_eq_true, if_true, if_false]

theorem trcTrigWr_arm (en : trcEn s = true) : trcTrigWr (rget s 0xC10040 ||| at_ 1 62) s
    = if 2 ≤ s.trc.st then trcArm (rset s 0xC10040 (rget s 0xC10040)) else rset s 0xC10040 (rget s 0xC10040) := by
  simp only [trcTrigWr, trcTrig_and_mask held (i := 62) (by decide), bit_trcTrig_or held (i := 62) (j := 62) (by decide),
    bit_trcTrig_or held (i := 62) (j := 63) (by decide), show (at_ 1 62).getLsbD 62 = true by decide,
    show (at_ 1 62).getLsbD 63 = false by decide, trcEn_rset _ (show 0xC10000 ≠ 0xC10040 by decide), en, Bool.true_and,
    decide_eq_true_eq, Bool.false_eq_true, if_false]
  rfl

end

section
variable {s : State} (src : Nat)

theorem trcTrigger_triggers (en : trcEn s = true) (armed : s.trc.st = 1) (on : bit (rget s 0xC10040) src = true) :
    trcTrigger s src = (let v := trcEnter (trcLoss s) [pktHeader 0x07 1 false 0 0x3F s.devTime, BitVec.ofNat 64 src]
      { v with trc := { v.trc with st := 2, post := 0 } }) :=
  if_pos (by rw [en, armed, on]; rfl)

theorem trcTrigger_idle (idle : s.trc.st ≠ 1 ∨ bit (rget s 0xC10040) src = false) : trcTrigger s src = s :=
  if_neg (by
    rw [Bool.and_eq_true, Bool.and_eq_true, beq_iff_eq]
    rintro ⟨⟨-, armed⟩, on⟩
    rcases idle with other | off
    · exact other armed
    · exact absurd (on.symm.trans off) (by decide))

end

theorem TrcOnly.threads {s u : State} (only : TrcOnly s u) : u.threads = s.threads := by rw [only]

/-! ## Packets (R595, R598) -/

section
variable {s : State} {p : List Word} (en : trcEn s = true) (armed : s.trc.st = 1)
include en armed

theorem trcOffer_fits (fits : trcFits s p = true) : trcOffer s p = trcEnter (trcLoss s) p :=
  (if_neg (by rw [en, armed]; decide)).trans (if_neg (by rw [fits, armed]; decide))

theorem trcOffer_drops (full : trcFits s p = false) : trcOffer s p = trcDrop s :=
  (if_neg (by rw [en, armed]; decide)).trans (if_pos (by rw [full]; exact .inr rfl))

end

theorem trcFlush_empty {s : State} (empty : s.trc.held = []) (n : Nat) : trcFlush s n = s := by
  cases n with
  | zero => rfl
  | succ n => simp only [trcFlush, empty]

/-! ## The statement -/

/-- Settles O58. A write that changes the trace unit alone leaves every thread as it is, so it is complete at once. -/
theorem countersAndTrace : Obligations.CountersAndTrace := by
  intro s fn pf
  refine ⟨fun reach own en ar => ?_, fun k c reach own idle => ⟨fun ok => ?_, fun bad => ?_⟩,
    fun k settled works runs due fresh => ⟨counterSample_drops settled works runs due fresh, fun v u room tail head smp threads time => ?_⟩,
    fun c reach => ⟨fun idle off reserve ovf => ?_, fun idle on reserve ovf untraced => ?_, fun runs off => ?_⟩,
    fun reach held en => ⟨fun armed on => ?_, fun idle => ?_, fun past => ?_, fun early => ?_⟩,
    fun reach v en armed => ⟨fun fits => ?_, fun full => ?_⟩,
    fun reach v empty => hostPf_ok pf reach (trcFlush_empty (s := rset s 0xC10020 v) empty _) rfl,
    fun reach v => hostPf_settles pf reach⟩
  · have does := cntCfgWr_own (s := s) own en ar
    cases en with
    | false => exact ⟨_, hostPf_ok pf reach does rfl, rget_rset_self .., rfl, fun _ => rfl, fun h => absurd h (by decide)⟩
    | true => exact ⟨_, hostPf_ok pf reach does rfl, rget_rset_self .., rfl, fun h => absurd h (by decide), fun _ _ => mem_cnts_zeroCounters⟩
  · exact hostPf_ok pf reach ((cntSmpWr_cSmpWord own idle).trans (if_pos ok)) rfl
  · exact hostPf_ok pf reach ((cntSmpWr_cSmpWord own idle).trans (if_neg (by rw [bad]; decide))) rfl
  · exact counterSample_writes settled works runs due fresh room (cSmpWrite_writes tail head) smp threads time
  · exact hostPf_ok pf reach (trcCfgWr_fields idle off reserve ovf) rfl
  · refine ⟨_, hostPf_ok pf reach (trcCfgWr_starts idle on reserve ovf untraced) rfl, ?_, rget_rset_self .., rfl, rfl⟩
    exact (rget_rset_ne (rset s 0xC10000 (trcWord c)) _ (by decide)).trans (rget_rset_self ..)
  · exact hostPf_ok pf reach (trcCfgWr_stops runs off) rfl
  · have on : bit (rget (rset s 0xC10040 (rget s 0xC10040)) 0xC10040) 0 = true := by rwa [rget_rset_self]
    have en := (trcEn_rset (s := s) (rget s 0xC10040) (show 0xC10000 ≠ 0xC10040 by decide)).trans en
    have only := (trcLoss_trcOnly (rset s 0xC10040 (rget s 0xC10040))).trans
      (trcEnter_trcOnly _ [pktHeader 0x07 1 false 0 0x3F s.devTime, 0])
    exact ⟨_, hostPf_ok pf reach ((trcTrigWr_fire held).trans (trcTrigger_triggers 0 en armed on)) only.threads, rfl⟩
  · refine hostPf_ok pf reach ((trcTrigWr_fire held).trans (trcTrigger_idle 0 ?_)) rfl
    rwa [rget_rset_self]
  · exact hostPf_ok pf reach ((trcTrigWr_arm held en).trans (if_pos past)) rfl
  · exact hostPf_ok pf reach ((trcTrigWr_arm held en).trans (if_neg (BitVec.not_le.mpr early))) rfl
  · have en := (trcEn_rset (s := s) v (show 0xC10000 ≠ 0xC10058 by decide)).trans en
    have only := (trcLoss_trcOnly (rset s 0xC10058 v)).trans (trcEnter_trcOnly _ [pktHeader 0x06 1 false 0 0x30 s.devTime, v])
    exact hostPf_ok pf reach (trcOffer_fits en armed fits) only.threads
  · have en := (trcEn_rset (s := s) v (show 0xC10000 ≠ 0xC10058 by decide)).trans en
    exact hostPf_ok pf reach (trcOffer_drops en armed full) (trcDrop_trcOnly (rset s 0xC10058 v)).threads

end Sys2Proof.Machine

/-! The statement about debug commands and the JTAG port (R582-R585). -/

namespace Sys2Proof.Machine

/-! ## How a debug command starts (R582, R583) -/

theorem isPf_portPf : ∀ p : Fin 2, isPf (portPf p.val) = true := by decide

section
variable {fn : Fn} (pf : isPf fn = true) (s : State) (v : Word)
include pf

theorem regWriteBase_dbgAddr : regWriteBase fn 0xC10108 v s = nextFree (rset s 0xC10108 v) := by
  simp only [regWriteBase, pf]
  rfl

theorem regWriteBase_dbgData : regWriteBase fn dbgData v s = nextFree (rset s dbgData v) := by
  simp only [regWriteBase, pf]
  rfl

end

/-- The state of the debug registers' route once the command's arguments are written. -/
def dbgArgs (s : State) (via : DbgVia) (a : Word) (d : Option Word) : State :=
  match via, d with
  | .jtag, _ => rset (rset (dbgSelect s) 0xC10108 a) dbgData (d.getD (rget s dbgData))
  | .pf _, some x => nextFree (rset (nextFree (rset s 0xC10108 a)) dbgData x)
  | .pf _, none => nextFree (rset s 0xC10108 a)

theorem dbgOpened_eq (s : State) (via : DbgVia) (op : Nat) (a : Word) (d : Option Word) :
    dbgOpened s via op a d = statStart (rset (dbgArgs s via a d) 0xC10100 (BitVec.ofNat 64 op)) dbgStat := by
  cases via with
  | jtag => rfl
  | pf p => cases d <;> simp only [dbgOpened, dbgArgs, regWriteBase_dbgAddr (isPf_portPf p), regWriteBase_dbgData (isPf_portPf p)]

theorem dbgSelect_keeps_rest (s : State) : dbgSelect s = { s with sec := (dbgSelect s).sec, jtag := (dbgSelect s).jtag } := by
  unfold dbgSelect
  split <;> rfl

theorem rget_dbgSelect (s : State) (k : Nat) : rget (dbgSelect s) k = rget s k := by
  rw [dbgSelect_keeps_rest]
  rfl

/-- The arguments are written to registers; nothing else that a command reads changes. -/
theorem dbgArgs_keeps_rest (s : State) (via : DbgVia) (a : Word) (d : Option Word) : let w := dbgArgs s via a d
    w = { s with regs := w.regs, free := w.free, sec := w.sec, jtag := w.jtag } := by
  intro w
  cases via with
  | jtag =>
    have rest := dbgSelect_keeps_rest s
    simp only [w, dbgArgs]
    rw [rest]
    rfl
  | pf p => cases d <;> rfl

section
variable (s : State) (via : DbgVia) (a : Word) (d : Option Word)

theorem rget_dbgArgs_addr : rget (dbgArgs s via a d) 0xC10108 = a := by
  cases via with
  | jtag => exact (rget_rset_ne _ _ (by decide)).trans (rget_rset_self ..)
  | pf p =>
    cases d with
    | some x => exact (rget_rset_ne (nextFree (rset s 0xC10108 a)) x (by decide)).trans (rget_rset_self s 0xC10108 a)
    | none => exact rget_rset_self s 0xC10108 a

theorem rget_dbgArgs_data (x : Word) : rget (dbgArgs s via a (some x)) dbgData = x := by
  cases via with
  | jtag => exact rget_rset_self ..
  | pf p => exact rget_rset_self (nextFree (rset s 0xC10108 a)) dbgData x

theorem rget_dbgArgs_stat : rget (dbgArgs s via a d) dbgStat = rget s dbgStat := by
  cases via with
  | jtag => exact (rget_rset_ne _ _ (by decide)).trans ((rget_rset_ne _ _ (by decide)).trans (rget_dbgSelect ..))
  | pf p =>
    cases d with
    | some x => exact (rget_rset_ne (nextFree (rset s 0xC10108 a)) x (by decide)).trans (rget_rset_ne s a (by decide))
    | none => exact rget_rset_ne s a (by decide)

variable (op : Nat)

@[simp] theorem rget_dbgOpened_addr : rget (dbgOpened s via op a d) 0xC10108 = a := by
  rw [dbgOpened_eq, statStart, rget_rset_ne _ _ (by decide), rget_rset_ne _ _ (by decide), rget_dbgArgs_addr]

@[simp] theorem rget_dbgOpened_data (x : Word) : rget (dbgOpened s via op a (some x)) dbgData = x := by
  rw [dbgOpened_eq, statStart, rget_rset_ne _ _ (by decide), rget_rset_ne _ _ (by decide), rget_dbgArgs_data]

@[simp] theorem threads_dbgOpened : (dbgOpened s via op a d).threads = s.threads := by
  rw [dbgOpened_eq, dbgArgs_keeps_rest]
  rfl

@[simp] theorem saved_dbgOpened : (dbgOpened s via op a d).saved = s.saved := by
  rw [dbgOpened_eq, dbgArgs_keeps_rest]
  rfl

@[simp] theorem fw_dbgOpened : (dbgOpened s via op a d).fw = s.fw := by
  rw [dbgOpened_eq, dbgArgs_keeps_rest]
  rfl

end

theorem dbgCmdWr_runs {w : State} {op : Nat} (some_ : op ≠ 0) (known : op ≤ 10) (free : statBusy w dbgStat = false) :
    dbgCmdWr op w = dbgEnd (dbgDo (statStart (rset w 0xC10100 (BitVec.ofNat 64 op)) dbgStat) op) :=
  (if_neg some_).trans ((if_neg (Nat.not_lt.mpr known)).trans (if_neg (by rw [free]; decide)))

section
variable {s : State} {via : DbgVia} (idle : DbgIdle s via) {op : BitVec 8} (some_ : op ≠ 0) (known : op.toNat ≤ 10)
include idle some_ known

/-- By either route a command that finds none before it runs at once. -/
theorem dbgCommand_runs (a : Word) (d : Option Word) :
    dbgCommand via op a d s = .next (settle (dbgEnd (dbgDo (dbgOpened s via op.toNat a d) op.toNat))) := by
  obtain ⟨-, free, route⟩ := idle
  have named : op.toNat ≠ 0 := fun h => some_ (BitVec.eq_of_toNat_eq h)
  have idle : statBusy (dbgArgs s via a d) dbgStat = false := by rwa [statBusy, rget_dbgArgs_stat]
  rw [dbgOpened_eq, ← dbgCmdWr_runs named known idle]
  cases via with
  | jtag =>
    obtain ⟨on, reach, bright, awake⟩ := route
    have selected : statBusy (dbgSelect s) dbgStat = false := by rwa [statBusy, rget_dbgSelect]
    have reach : dbgReach (dbgSelect s) = true := by rw [dbgSelect_keeps_rest]; exact reach
    have power : (dbgSelect s).pwr = s.pwr := by rw [dbgSelect_keeps_rest]
    have runs : dbgUpdate op a (d.getD (rget s dbgData)) (dbgSelect s) = dbgCmdWr op.toNat (dbgArgs s .jtag a d) :=
      (if_neg (by rw [reach]; decide)).trans ((if_neg (by rw [power]; exact fun h => h.elim bright awake)).trans
        (if_neg (by rw [selected]; exact fun h => absurd h.2 (by decide))))
    exact (if_pos on).trans (by rw [runs])
  | pf p =>
    obtain ⟨gate_, awake⟩ := route
    have command (w : State) : regWrite (portPf p.val) 0xC10100 (op.setWidth 64) w = dbgCmdWr op.toNat w := by
      have low : bits (op.setWidth 64) 7 0 = op.toNat := by
        have := op.isLt
        simp only [bits, BitVec.toNat_setWidth, Nat.shiftRight_zero]
        omega
      rw [regWrite, if_pos ⟨rfl, isPf_portPf p⟩, low]
    have argument (off : Nat) (v : Word) (w : State) (other : off ≠ 0xC10100) :
        regWrite (portPf p.val) off v w = regWriteBase (portPf p.val) off v w := if_neg fun h => other h.1
    cases d with
    | some x => simp only [dbgCommand, dbgPf, gate_, stopEntry_awake awake, List.cons_append, List.nil_append, List.foldl_cons,
        List.foldl_nil, command, argument _ _ _ (show dbgData ≠ 0xC10100 by decide), argument _ _ _ (show 0xC10108 ≠ 0xC10100 by decide),
        regWriteBase_dbgAddr (isPf_portPf p), regWriteBase_dbgData (isPf_portPf p), dbgArgs]
    | none => simp only [dbgCommand, dbgPf, gate_, stopEntry_awake awake, List.append_nil, List.cons_append, List.nil_append,
        List.foldl_cons, List.foldl_nil, command, argument _ _ _ (show 0xC10108 ≠ 0xC10100 by decide),
        regWriteBase_dbgAddr (isPf_portPf p), dbgArgs]

theorem dbgCommand_answers {a : Word} {d : Option Word} {w : State} {st dt : BitVec 8}
    (does : dbgDo (dbgOpened s via op.toNat a d) op.toNat = (w, some (none, st, dt))) : dbgAnswers (dbgCommand via op a d s) w st dt := by
  rw [dbgAnswers, dbgCommand_runs idle some_ known, does]
  rfl

/-- A command that leaves a result in the data register. -/
theorem dbgCommand_reads {a v : Word} {d : Option Word} {w : State} {st dt : BitVec 8}
    (does : dbgDo (dbgOpened s via op.toNat a d) op.toNat = (w, some (some v, st, dt))) :
    dbgAnswers (dbgCommand via op a d s) (rset w dbgData v) st dt := by
  rw [dbgAnswers, dbgCommand_runs idle some_ known, does]
  rfl

end

/-! ## Memory and registers (R583) -/

section
variable {s : State} {a v : Word}

theorem readPhys_reads (ok : physOk a = true) : readPhys s a = (let r := devRead s a.toNat 8 none
    (r.1, some (some (if r.2.2 then 0 else BitVec.ofNat 64 (ofBytes r.2.1)), if r.2.2 then 0x0A else 0, 0))) :=
  if_neg (by rw [ok]; decide)

theorem readPhys_refuses (bad : physOk a = false) : readPhys s a = (physRefused s a, some (none, 5, 0x83)) :=
  if_pos (by rw [bad]; rfl)

theorem writePhys_writes (ok : physOk a = true) : writePhys s a v = (devWrite s none a.toNat (toBytes 8 v.toNat), dbgOk) := if_pos ok

theorem writePhys_refuses (bad : physOk a = false) : writePhys s a v = (physRefused s a, some (none, 5, 0x83)) :=
  if_neg (by rw [bad]; decide)

theorem readSreg_reads (ok : stwAddr a = true) : readSreg s a = (let r := stwRead s 0 0 a; (r.1, some (some r.2, 0, 0))) :=
  if_neg (by rw [ok]; decide)

theorem readSreg_refuses (bad : stwAddr a = false) : readSreg s a = (s, some (none, 5, 0x83)) :=
  if_pos (by rw [bad]; rfl)

/-- A register below the metering mirror, other than the debug command itself, is written as BAR0 writes it. -/
theorem writeSreg_writes (ok : stwAddr a = true) (below : a.toNat < 0xE00000) (aligned : a.toNat % 8 = 0) (other : a.toNat ≠ 0xC10100) :
    writeSreg s a v = (regWriteBase (stwFn s 0 a.toNat v) a.toNat v s, dbgOk) := by
  simp only [writeSreg, ok, if_true, stwWrite, aligned, other, show a.toNat < 0x1000000 by omega, show ¬0xE00000 ≤ a.toNat by omega,
    ne_eq, not_true_eq_false, false_and, if_false]

theorem writeSreg_refuses (bad : stwAddr a = false) : writeSreg s a v = (s, some (none, 5, 0x83)) :=
  if_neg (by rw [bad]; decide)

end

/-! ## Threads (R584) -/

/-- The resident thread that HALT_THREAD names. -/
def namesThread (index : BitVec 32) (launch : Word) (p : Nat × Thread) : Bool :=
  !p.2.handler && p.2.launch == launch.toNat && p.2.index == index && p.2.st != .ending

section
variable {s : State} {index : BitVec 32} {launch : Word}

theorem haltThread_saves {p : Nat × Thread} (found : s.threads.find? (namesThread index launch) = some p) (ready : p.2.st = .ready) :
    haltThread s index launch = (beginSave (haltSeen s 5 (index.setWidth 64) launch) (tidOf p.1) 3, none) := by
  have found : s.threads.find? (fun p => !p.2.handler && p.2.launch == launch.toNat && p.2.index == index && p.2.st != .ending) = some p :=
    found
  simp only [haltThread, found, ready, reduceCtorEq, if_false]

theorem haltThread_absent (resident : s.threads.find? (namesThread index launch) = none)
    (saved : s.saved.find? (fun x => !x.handler && x.launch == launch.toNat && x.index == index) = none) :
    haltThread s index launch = (s, some (none, 5, 0x80)) := by
  have resident : s.threads.find? (fun p => !p.2.handler && p.2.launch == launch.toNat && p.2.index == index && p.2.st != .ending) = none :=
    resident
  simp only [haltThread, resident, saved]

end

section
variable {s : State} {vi : Vi} {a : Word} {x : Saved}

theorem unhaltThread_resumes (held : haltedAt s vi a = some x) : unhaltThread s vi a
    = (resumeSaved { s with saved := s.saved.map (fun z => if z = x then { x with halted := false } else z) } { x with halted := false },
      dbgOk) := by
  simp only [unhaltThread, held]

theorem unhaltThread_absent (absent : haltedAt s vi a = none) : unhaltThread s vi a = (s, some (none, 5, 0x80)) := by
  simp only [unhaltThread, absent]

theorem endHalted_ends (held : haltedAt s vi a = some x) (status : BitVec 8) : endHalted s vi a status = (endSaved s x status, dbgOk) := by
  simp only [endHalted, held]

theorem endHalted_absent (absent : haltedAt s vi a = none) (status : BitVec 8) : endHalted s vi a status = (s, some (none, 5, 0x80)) := by
  simp only [endHalted, absent]

/-- END_THREAD's argument names the instance in its low byte and the record above it. -/
theorem endWord_vi : ((a &&& 0xFFFFFFFFFFFFFF00) ||| vi.setWidth 64).setWidth 8 = vi := by
  have clear : ∀ i < 8, (0xFFFFFFFFFFFFFF00 : Word).getLsbD i = false := by decide
  refine BitVec.eq_of_getLsbD_eq fun i low => ?_
  simp only [BitVec.getLsbD_setWidth, BitVec.getLsbD_or, BitVec.getLsbD_and, clear i low, low, show i < 64 by omega, decide_true,
    Bool.and_false, Bool.false_or, Bool.true_and]

theorem endWord_record : ((a &&& 0xFFFFFFFFFFFFFF00) ||| vi.setWidth 64) &&& 0xFFFFFFFFFFFFFF00 = a &&& 0xFFFFFFFFFFFFFF00 := by
  have low : vi.setWidth 64 &&& 0xFFFFFFFFFFFFFF00 = 0#64 := by
    have clear : ∀ i < 8, (0xFFFFFFFFFFFFFF00 : Word).getLsbD i = false := by decide
    refine BitVec.eq_of_getLsbD_eq fun i word => ?_
    by_cases below : i < 8
    · rw [BitVec.getLsbD_and, clear i below, Bool.and_false, BitVec.getLsbD_zero]
    · rw [BitVec.getLsbD_and, BitVec.getLsbD_setWidth, BitVec.getLsbD_of_ge vi i (by omega), Bool.and_false, Bool.false_and,
        BitVec.getLsbD_zero]
  rw [BitVec.and_or_distrib_right, low, BitVec.or_zero, BitVec.and_assoc, BitVec.and_self]

end

/-! ## Cores (R585) -/

theorem bits_setWidth_core (core : BitVec 4) : bits (core.setWidth 64) 3 0 = core.toNat := by
  have := core.isLt
  simp only [bits, BitVec.toNat_setWidth, Nat.shiftRight_zero]
  omega

section
variable {s : State} {n : Nat}

theorem haltCore_halts (runs : (tget s.fw.cores n {}).halted = false) :
    haltCore s n = (haltSeen (setHalt s n true) 8 (BitVec.ofNat 64 n) 0, dbgOk) := if_neg (by rw [runs]; decide)

theorem stepCore_refuses (runs : (tget s.fw.cores n {}).halted = false) : stepCore s n = (s, some (none, 0x0B, 0x82)) :=
  if_neg (by rw [runs]; decide)

theorem unhaltCore_refuses (runs : (tget s.fw.cores n {}).halted = false) : unhaltCore s n = (s, some (none, 0x0B, 0x82)) :=
  if_neg (by rw [runs]; decide)

theorem haltCore_again (on : (tget s.fw.cores n {}).halted = true) : haltCore s n = (s, dbgOk) := if_pos on

theorem stepCore_steps (on : (tget s.fw.cores n {}).halted = true) : stepCore s n = (s, dbgOk) := if_pos on

theorem unhaltCore_resumes (on : (tget s.fw.cores n {}).halted = true) : unhaltCore s n = (mbResume (setHalt s n false), dbgOk) := if_pos on

end

/-! ## The port's own instructions (R582, R485) -/

theorem dbgSelect_opens {s : State} (closed : s.jtag.opened = false) :
    measOf (dbgSelect s) 3 = Config.sha384 (digestBytes (measOf s 3) ++ digestBytes (Config.sha384 [0x10])) := by
  have opens : dbgSelect s = { debugSeen s [0x10] with jtag := (dbgSelect s).jtag } := by
    simp only [dbgSelect, closed, Bool.false_eq_true, if_false]
  rw [opens]
  exact measOf_measExtend_self ..

theorem dbgSelect_again {s : State} (opened : s.jtag.opened = true) : (dbgSelect s).sec = s.sec := by
  simp only [dbgSelect, opened, if_true]

/-- DBGACC without a command writes the argument registers alone. -/
theorem dbgacc_loads {s : State} (on : tapOn s = true) (reach : dbgReach s = true) (bright : s.pwr.st ≠ 2) (awake : s.pwr.st ≠ 4)
    (settled : Settled s) (a d : Word) :
    exec (.dbgacc 0 a d) s = .next (rset (rset (rset (dbgSelect s) 0xC10108 a) dbgData d) 0xC10100 0) := by
  have reach : dbgReach (dbgSelect s) = true := by rw [dbgSelect_keeps_rest]; exact reach
  have power : (dbgSelect s).pwr = s.pwr := by rw [dbgSelect_keeps_rest]
  have loads : dbgUpdate 0 a d (dbgSelect s) = rset (rset (rset (dbgSelect s) 0xC10108 a) dbgData d) 0xC10100 0 :=
    (if_neg (by rw [reach]; decide)).trans ((if_neg (by rw [power]; exact fun h => h.elim bright awake)).trans
      ((if_neg (fun h => h.1 rfl)).trans (if_pos rfl)))
  have same : (rset (rset (rset (dbgSelect s) 0xC10108 a) dbgData d) 0xC10100 0).threads = s.threads := by
    rw [dbgSelect_keeps_rest]
    rfl
  exact (if_pos on).trans (by rw [loads, settle_same settled same])

/-! ## The operation that each command code starts (R583) -/

/-- A value that was widened to a word comes back. -/
theorem setWidth_of_setWidth {n : Nat} (x : BitVec n) (fits : n ≤ 64) : (x.setWidth 64).setWidth n = x :=
  (BitVec.setWidth_setWidth_of_le x fits).trans (BitVec.setWidth_eq x)

section
variable (s : State) (via : DbgVia) (a d : Word) (index : BitVec 32) (vi : Vi) (status : BitVec 8) (core : BitVec 4)

theorem dbgDo_readPhys : dbgDo (dbgOpened s via 1 a none) 1 = readPhys (dbgOpened s via 1 a none) a :=
  congrArg (readPhys _) (rget_dbgOpened_addr ..)

theorem dbgDo_writePhys : dbgDo (dbgOpened s via 2 a (some d)) 2 = writePhys (dbgOpened s via 2 a (some d)) a d :=
  congrArg₂ (writePhys _) (rget_dbgOpened_addr ..) (rget_dbgOpened_data ..)

theorem dbgDo_readSreg : dbgDo (dbgOpened s via 3 a none) 3 = readSreg (dbgOpened s via 3 a none) a :=
  congrArg (readSreg _) (rget_dbgOpened_addr ..)

theorem dbgDo_writeSreg : dbgDo (dbgOpened s via 4 a (some d)) 4 = writeSreg (dbgOpened s via 4 a (some d)) a d :=
  congrArg₂ (writeSreg _) (rget_dbgOpened_addr ..) (rget_dbgOpened_data ..)

theorem dbgDo_haltThread : let w := dbgOpened s via 5 (index.setWidth 64) (some d)
    dbgDo w 5 = haltThread w index d :=
  congrArg₂ (haltThread _) ((congrArg _ (rget_dbgOpened_addr ..)).trans (setWidth_of_setWidth _ (by decide)))
    (rget_dbgOpened_data ..)

theorem dbgDo_unhaltThread : let w := dbgOpened s via 6 (vi.setWidth 64) (some a)
    dbgDo w 6 = unhaltThread w vi a :=
  congrArg₂ (unhaltThread _) ((congrArg _ (rget_dbgOpened_addr ..)).trans (setWidth_of_setWidth _ (by decide)))
    (rget_dbgOpened_data ..)

theorem dbgDo_endHalted : let b := a &&& 0xFFFFFFFFFFFFFF00
    let v := dbgOpened s via 7 (b ||| vi.setWidth 64) (some (status.setWidth 64))
    dbgDo v 7 = endHalted v vi b status := by
  intro b v
  have low : (status.setWidth 64).setWidth 8 = status := setWidth_of_setWidth _ (by decide)
  show endHalted v ((rget v 0xC10108).setWidth 8) (rget v 0xC10108 &&& 0xFFFFFFFFFFFFFF00) ((rget v dbgData).setWidth 8) = _
  rw [rget_dbgOpened_addr, rget_dbgOpened_data, endWord_vi, endWord_record, low]

theorem dbgDo_haltCore : let w := dbgOpened s via 8 (core.setWidth 64) none
    dbgDo w 8 = haltCore w core.toNat :=
  congrArg (haltCore _) ((congrArg (bits · 3 0) (rget_dbgOpened_addr ..)).trans (bits_setWidth_core core))

theorem dbgDo_stepCore : let w := dbgOpened s via 9 (core.setWidth 64) none
    dbgDo w 9 = stepCore w core.toNat :=
  congrArg (stepCore _) ((congrArg (bits · 3 0) (rget_dbgOpened_addr ..)).trans (bits_setWidth_core core))

theorem dbgDo_unhaltCore : let w := dbgOpened s via 10 (core.setWidth 64) none
    dbgDo w 10 = unhaltCore w core.toNat :=
  congrArg (unhaltCore _) ((congrArg (bits · 3 0) (rget_dbgOpened_addr ..)).trans (bits_setWidth_core core))

end

/-! ## The statement -/

section
variable {s : State} {via : DbgVia} (idle : DbgIdle s via)
include idle

/-- The memory and register commands of the statement. -/
theorem dbgMemory_answers (a d : Word) :
    (physOk a = true →
      (let r := devRead (dbgOpened s via 1 a none) a.toNat 8 none; dbgAnswers (exec (.readPhys via a) s)
        (rset r.1 dbgData (if r.2.2 then 0 else BitVec.ofNat 64 (ofBytes r.2.1))) (if r.2.2 then 0x0A else 0) 0)
      ∧ dbgAnswers (exec (.writePhys via a d) s) (devWrite (dbgOpened s via 2 a (some d)) none a.toNat (toBytes 8 d.toNat)) 0 0)
    ∧ (physOk a = false → dbgAnswers (exec (.readPhys via a) s) (physRefused (dbgOpened s via 1 a none) a) 5 0x83
      ∧ dbgAnswers (exec (.writePhys via a d) s) (physRefused (dbgOpened s via 2 a (some d)) a) 5 0x83) :=
  ⟨fun ok => ⟨dbgCommand_reads (op := 1) idle (by decide) (by decide) ((dbgDo_readPhys ..).trans (readPhys_reads ok)),
    dbgCommand_answers (op := 2) idle (by decide) (by decide) ((dbgDo_writePhys ..).trans (writePhys_writes ok))⟩,
  fun bad => ⟨dbgCommand_answers (op := 1) idle (by decide) (by decide) ((dbgDo_readPhys ..).trans (readPhys_refuses bad)),
    dbgCommand_answers (op := 2) idle (by decide) (by decide) ((dbgDo_writePhys ..).trans (writePhys_refuses bad))⟩⟩

end

/-- Settles O57. By either route a command that finds none before it runs at once on the arguments written; what it then does is the
operation of its code. -/
theorem debugAndJtag : Obligations.DebugAndJtag := by
  intro s via
  refine ⟨fun idle a d => ?_, fun idle index launch => ?_, fun idle vi a st => ?_, fun idle core => ?_, fun on bs a d => ?_⟩
  · obtain ⟨reaches, refuses⟩ := dbgMemory_answers idle a d
    refine ⟨reaches, refuses, fun ok => ⟨?_, fun below aligned other => ?_⟩, fun bad => ⟨?_, ?_⟩⟩
    · exact dbgCommand_reads (op := 3) idle (by decide) (by decide) ((dbgDo_readSreg ..).trans (readSreg_reads ok))
    · exact dbgCommand_answers (op := 4) idle (by decide) (by decide)
        ((dbgDo_writeSreg ..).trans (writeSreg_writes ok below aligned other))
    · exact dbgCommand_answers (op := 3) idle (by decide) (by decide) ((dbgDo_readSreg ..).trans (readSreg_refuses bad))
    · exact dbgCommand_answers (op := 4) idle (by decide) (by decide) ((dbgDo_writeSreg ..).trans (writeSreg_refuses bad))
  · refine ⟨fun p found ready => ?_, fun resident saved => ?_⟩
    · have does := (dbgDo_haltThread s via launch index).trans (haltThread_saves (by rwa [threads_dbgOpened]) ready)
      refine (dbgCommand_runs (op := 5) idle (by decide) (by decide) _ _).trans ?_
      exact congrArg (fun r => Host.Outcome.next (settle (dbgEnd r))) does
    · exact dbgCommand_answers (op := 5) idle (by decide) (by decide) ((dbgDo_haltThread ..).trans
        (haltThread_absent (by rwa [threads_dbgOpened]) (by rwa [saved_dbgOpened])))
  · refine ⟨fun x held => ?_, fun absent => ?_, fun x held => ?_, fun absent => ?_⟩
    · exact dbgCommand_answers (op := 6) idle (by decide) (by decide) ((dbgDo_unhaltThread ..).trans (unhaltThread_resumes held))
    · exact dbgCommand_answers (op := 6) idle (by decide) (by decide) ((dbgDo_unhaltThread ..).trans (unhaltThread_absent absent))
    · exact dbgCommand_answers (op := 7) idle (by decide) (by decide) ((dbgDo_endHalted ..).trans (endHalted_ends held st))
    · exact dbgCommand_answers (op := 7) idle (by decide) (by decide) ((dbgDo_endHalted ..).trans (endHalted_absent absent st))
  · have named : core.setWidth 64 = BitVec.ofNat 64 core.toNat := (BitVec.ofNat_toNat ..).symm
    refine ⟨fun runs => ⟨?_, ?_, ?_⟩, fun halted => ⟨?_, ?_, ?_⟩⟩
    · refine dbgCommand_answers (op := 8) idle (by decide) (by decide) ((dbgDo_haltCore ..).trans
        ((haltCore_halts (by rwa [fw_dbgOpened])).trans ?_))
      rw [← named]
      rfl
    · exact dbgCommand_answers (op := 9) idle (by decide) (by decide) ((dbgDo_stepCore ..).trans
        (stepCore_refuses (by rwa [fw_dbgOpened])))
    · exact dbgCommand_answers (op := 10) idle (by decide) (by decide) ((dbgDo_unhaltCore ..).trans
        (unhaltCore_refuses (by rwa [fw_dbgOpened])))
    · exact dbgCommand_answers (op := 8) idle (by decide) (by decide) ((dbgDo_haltCore ..).trans (haltCore_again (by rwa [fw_dbgOpened])))
    · exact dbgCommand_answers (op := 9) idle (by decide) (by decide) ((dbgDo_stepCore ..).trans (stepCore_steps (by rwa [fw_dbgOpened])))
    · exact dbgCommand_answers (op := 10) idle (by decide) (by decide) ((dbgDo_unhaltCore ..).trans
        (unhaltCore_resumes (by rwa [fw_dbgOpened])))
  · refine ⟨⟨_, if_pos on, rfl, rfl, rfl⟩, ⟨_, if_pos on, rfl, rfl, rfl⟩, if_pos on, if_pos on, if_pos on,
      fun reach bright awake settled => ⟨_, dbgacc_loads on reach bright awake settled a d, ?_, ?_, rfl, rfl, dbgSelect_opens, dbgSelect_again⟩⟩
    · rw [rget_rset_ne _ _ (by decide), rget_rset_ne _ _ (by decide), rget_rset_self]
    · rw [rget_rset_ne _ _ (by decide), rget_rset_self]

end Sys2Proof.Machine

/-! The statement about the error manager, device reset and module reset (R560-R580). -/

namespace Sys2Proof.Machine

/-! ## Handling (R562-R577) -/

/-- An error that is next leaves those that wait. -/
def tookErr (s : State) (e : Err) : State := { s with err := { s.err with pending := dropErr s.err.pending e } }

theorem postOwed_none {s : State} (none_ : s.err.owed = []) : postOwed s = s := by
  have same : { s.err with owed := [] } = s.err := by rw [← none_]
  rw [postOwed, none_, List.foldl_nil, same]

section
variable {s : State} {e : Err} (free : s.err.cur = []) (next : nextErr s.err.pending = some e)
include free next

theorem handleNext_fatal (fatal : e.sev = 3) : handleNext s = handleFatal (tookErr s e) e := by
  unfold handleNext
  rw [next]
  dsimp only
  split
  · next busy => exact absurd (free.symm.trans busy) (List.cons_ne_nil _ _).symm
  · exact if_pos fatal

theorem handleNext_reports (nonfatal : e.sev ≠ 3) (calm : e.storm = false) : handleNext s = reportErr (tookErr s e) e := by
  have quiet : escalate (tookErr s e) e = tookErr s e := if_pos (by rw [calm]; rfl)
  unfold handleNext
  rw [next]
  dsimp only
  split
  · next busy => exact absurd (free.symm.trans busy) (List.cons_ne_nil _ _).symm
  · rw [if_neg nonfatal, calm]
    exact congrArg (reportErr · e) quiet

end

/-- With nothing found and no reset running, handling takes the next error. -/
theorem errorHandle_handles {s : State} (on : s.boot.phase ≠ 0) (calm : s.drst.phase = 0) (none_ : s.err.owed = []) :
    exec (.errorHandle []) s = .next (settle (handleNext s)) := by
  have nothing : (hwOrder s []).foldl foundHw s = s := by rw [hwOrder, List.mergeSort_nil, List.foldl_nil]
  refine (if_neg on).trans ?_
  simp only [nothing, calm, ne_eq, not_true_eq_false, false_and, if_false, postOwed_none none_]

/-- The first FATAL error stops the ports and updates every Poll Page. -/
theorem handleFatal_first {s : State} (e : Err) (first : s.err.fatals = 0) : handleFatal s e
    = reportErr (lastPolls (portsDown { s with err := { s.err with fatal := true, fatals := 1, fatalRec := errWords s.err.seq e } })) e := by
  simp only [handleFatal, first, decide_true, if_true]
  rfl

/-! ## Records (R570-R575) -/

section
variable (s : State) (e : Err)

theorem writeRecord_keeps_rest : writeRecord s e = { s with err := (writeRecord s e).err } := by
  unfold writeRecord toHistory
  dsimp only
  split <;> split <;> rfl

theorem writeRecord_pending : (writeRecord s e).err.pending = s.err.pending := by
  unfold writeRecord toHistory
  dsimp only
  split <;> split <;> rfl

theorem writeRecord_seq : (writeRecord s e).err.seq = s.err.seq + 1 := by
  unfold writeRecord toHistory
  dsimp only
  split <;> split <;> rfl

variable {s e}

theorem writeRecord_ring (slot : e.slot = true) : tget? (writeRecord s e).err.ring (s.err.seq.toNat % 256) = some (errWords s.err.seq e) := by
  have ring : (writeRecord s e).err.ring = tset s.err.ring (s.err.seq.toNat % 256) (errWords s.err.seq e) := by
    unfold writeRecord toHistory
    simp only [slot, if_true]
    split <;> split <;> rfl
  rw [ring, tget?_tset_self]

theorem writeRecord_hist (nonfatal : e.sev ≠ 3) (room : s.err.hist.length < 16776960) :
    (writeRecord s e).err.hist = s.err.hist ++ [errWords s.err.seq e] := by
  simp only [writeRecord, toHistory, nonfatal, if_false]
  rw [if_pos room]

/-- An error below FATAL that concerns no instance sets AER bits of the two PFs alone. -/
theorem aerInternal_keeps_rest (nonfatal : e.sev ≠ 3) (device : e.vi = none) :
    aerInternal s e = { s with cfg := (aerInternal s e).cfg } := by
  simp only [aerInternal, device, nonfatal, if_false]
  split <;> rfl

/-- An error below FATAL that concerns no instance and triggers no trace is recorded, and AER shows it. -/
theorem reportErr_records (nonfatal : e.sev ≠ 3) (device : e.vi = none) (quiet : bits (rget s 0xC10040) 21 20 > e.sev.toNat) :
    ∃ c, reportErr s e = { s with err := (writeRecord s e).err, cfg := c } := by
  have reported : aerInternal (writeRecord s e) e = { s with err := (writeRecord s e).err, cfg := (aerInternal (writeRecord s e) e).cfg } := by
    rw [aerInternal_keeps_rest nonfatal device, writeRecord_keeps_rest]
  refine ⟨_, Eq.trans ?_ reported⟩
  simp only [reportErr, device]
  refine if_neg ?_
  rw [reported]
  exact Nat.not_le.mpr quiet

end

/-- What the handling of an error below FATAL leaves, where no instance and no trigger is concerned. -/
theorem errorHandle_records {s : State} {e : Err} (on : s.boot.phase ≠ 0) (calm : s.drst.phase = 0) (none_ : s.err.owed = [])
    (free : s.err.cur = []) (next : nextErr s.err.pending = some e) (settled : Settled s) (nonfatal : e.sev ≠ 3) (quiet : e.storm = false)
    (device : e.vi = none) (untriggered : bits (rget s 0xC10040) 21 20 > e.sev.toNat) :
    ∃ c, exec (.errorHandle []) s = .next { s with err := (writeRecord (tookErr s e) e).err, cfg := c } := by
  obtain ⟨c, records⟩ := reportErr_records (s := tookErr s e) nonfatal device untriggered
  refine ⟨c, (errorHandle_handles on calm none_).trans ?_⟩
  rw [handleNext_reports free next nonfatal quiet, records]
  exact congrArg Host.Outcome.next (settle_same settled rfl)

theorem errorHandle_stops {s : State} {e : Err} (on : s.boot.phase ≠ 0) (calm : s.drst.phase = 0) (none_ : s.err.owed = [])
    (free : s.err.cur = []) (next : nextErr s.err.pending = some e) (fatal : e.sev = 3) (first : s.err.fatals = 0) :
    exec (.errorHandle []) s = .next (settle (reportErr (lastPolls (portsDown { s with err := { s.err with
      pending := dropErr s.err.pending e, fatal := true, fatals := 1, fatalRec := errWords s.err.seq e } })) e)) := by
  rw [errorHandle_handles on calm none_, handleNext_fatal free next fatal, handleFatal_first (s := tookErr s e) e first]
  rfl

/-! ## Storm counts (R567) -/

theorem rollSecond_new {s : State} (later : s.devTime.toNat / 1000000000 ≠ s.err.second) :
    ∃ r, rollSecond s = { s with err := { s.err with second := s.devTime.toNat / 1000000000, storms := [], ceRate := r } }
      ∧ (s.devTime.toNat / 1000000000 ≠ s.err.second + 1 → r = []) :=
  ⟨_, if_neg later, fun skips => if_neg skips⟩

/-! ## Registers of the error block (R569, R572) -/

section
variable {s : State} (fn : Fn) (r : BitVec 48)

theorem errAckWr_auto (auto_ : autoRetire s = true) : errAckWr fn (r.setWidth 64) s = s := if_pos auto_

variable (manual : autoRetire s = false)
include manual

theorem errAckWr_retires (inside : (r - s.err.retired).toNat ≤ (s.err.seq - s.err.retired).toNat) : errAckWr fn (r.setWidth 64) s
    = { s with err := { s.err with retired := r, unfreed := Nat.min s.err.unfreed (s.err.seq - r).toNat } } := by
  simp only [errAckWr, manual, setWidth_of_setWidth r (by decide), inside, Bool.false_eq_true, if_true, if_false]

theorem errAckWr_refuses (outside : (r - s.err.retired).toNat > (s.err.seq - s.err.retired).toNat) :
    errAckWr fn (r.setWidth 64) s = accessErr s fn 0xC00010 := by
  simp only [errAckWr, manual, setWidth_of_setWidth r (by decide), Nat.not_le.mpr outside, Bool.false_eq_true, if_false]

end

/-- Automatic retirement that begins frees every slot. -/
theorem errCfgWr_sets (s : State) (b : Bool) : let w := rset s 0xC00018 (at_ (b2n b) 0)
    errCfgWr (at_ (b2n b) 0) s = { w with err := { s.err with
      unfreed := if b = true ∧ autoRetire s = false then 0 else s.err.unfreed } } := by
  have word : ∀ b, at_ (b2n b) 0 &&& 1 = at_ (b2n b) 0 ∧ bit (at_ (b2n b) 0) 0 = b := by decide
  obtain ⟨kept, set_⟩ := word b
  intro w
  rw [errCfgWr, kept, set_]
  cases b <;> cases auto_ : autoRetire s <;> rfl

theorem autoRetire_rset (s : State) (b : Bool) : autoRetire (rset s 0xC00018 (at_ (b2n b) 0)) = b := by
  rw [autoRetire, rget_rset_self]
  cases b <;> rfl

theorem mem_fctOff_fctOffWr {s : State} {k f : Nat} {off : Word} :
    f ∈ (fctOffWr k off s).err.fctOff ↔ f ∈ s.err.fctOff ∧ ¬(f / 64 = k ∧ bit off (f % 64) = true) := by
  simp only [fctOffWr, List.mem_filter, Bool.not_eq_true', Bool.and_eq_false_iff, decide_eq_false_iff_not, not_and_or,
    Bool.not_eq_true]

/-! ## The last `DEV_TIME` (R571) -/

theorem rollSecond_keeps_rest (s : State) : ∃ second storms rate, rollSecond s
    = { s with err := { s.err with second := second, storms := storms, ceRate := rate } } := by
  unfold rollSecond
  dsimp only
  split
  · exact ⟨s.err.second, s.err.storms, s.err.ceRate, rfl⟩
  · exact ⟨_, _, _, rfl⟩

/-- A CONTAINED error is stamped with the time and looks for a slot. -/
theorem raiseErr_contained {s : State} {e : Err} (contained : e.sev = 2) : ∃ second storms rate gen count, raiseErr s e
    = enqueueErr { s with err := { s.err with second := second, storms := storms, ceRate := rate } }
        { e with time := s.devTime, gen := gen, count := count } := by
  obtain ⟨second, storms, rate, rolled⟩ := rollSecond_keeps_rest s
  unfold raiseErr
  rw [rolled]
  exact ⟨_, _, _, _, _, if_pos (by rw [contained]; rfl)⟩

theorem enqueueErr_waits {s : State} {e : Err} (contained : e.sev = 2) (room : errUsed s < 256) :
    enqueueErr s e = { s with err := { s.err with pending := s.err.pending ++ [{ e with slot := true }] } } :=
  (if_neg (by rw [contained]; decide)).trans (if_pos room)

/-! ## Device reset and module reset (R578, R579) -/

/-- The clock, the fuses, the debug port, the errors, host memory, power and the island stay as they are. -/
theorem deviceCleared_keeps_always_on (w : State) (source : BitVec 4) : let u := deviceCleared w source
    u.devTime = w.devTime ∧ u.sec.fused = w.sec.fused ∧ u.sec.revoked = w.sec.revoked ∧ u.jtag = w.jtag ∧ u.err = w.err
      ∧ u.hostMem = w.hostMem ∧ u.pwr = w.pwr ∧ u.mtr = w.mtr :=
  ⟨rfl, rfl, rfl, rfl, rfl, rfl, rfl, rfl⟩

theorem settle_of_no_threads {s : State} (none_ : s.threads = []) : settle s = s :=
  settle_id (by rw [Settled, none_]; exact fun _ h => absurd h List.not_mem_nil)

/-- GO clears the device, DEVICE_RESET recorded and every port down. -/
theorem deviceReset_clears {s : State} {fn : Fn} (pf : isPf fn = true) (reach : HostReaches s fn (devReg 0x100)) (calm : s.drst.phase = 0) :
    let source : BitVec 4 := if fn = 0 then 1 else 2
    exec (.deviceReset fn) s
      = .next (deviceCleared (portsDown (raiseErr s { cause := 0x16, sev := 0, arg0 := source.setWidth 64 })) source) := by
  intro source
  have starts : devRstWr fn 1 s = deviceCleared (portsDown (raiseErr s { cause := 0x16, sev := 0, arg0 := source.setWidth 64 })) source :=
    (if_pos (by decide)).trans (if_neg (not_not.mpr calm))
  exact (if_neg fun h => h.2.1 calm).trans ((hostPf_settles_to pf reach starts).trans (by rw [settle_of_no_threads rfl]))

/-! ## The statement -/

/-- Settles O56. A handled error below FATAL changes the record state and AER alone; a reset leaves no thread, so nothing is left to settle. -/
theorem errorsAndDeviceReset : Obligations.ErrorsAndDeviceReset := by
  intro s fn
  refine ⟨fun e on calm none_ free next settled => ⟨fun nonfatal quiet device untriggered => ?_, fun fatal first => ?_⟩,
    fun later => ?_, fun pf reach r => ⟨fun auto_ => ?_, fun manual inside => ?_, fun manual outside => ?_⟩, fun pf reach b => ?_,
    fun k off pf reach => ?_, fun last room => ?_, fun pf reach calm => ?_, fun pf busy up => ?_, fun busy up => ?_, fun on => ?_⟩
  · obtain ⟨c, handled⟩ := errorHandle_records on calm none_ free next settled nonfatal quiet device untriggered
    exact ⟨_, handled, writeRecord_pending .., writeRecord_seq .., writeRecord_ring (s := tookErr s e),
      writeRecord_hist (s := tookErr s e) nonfatal, rfl, rfl⟩
  · exact errorHandle_stops on calm none_ free next fatal first
  · obtain ⟨r, rolled, lost⟩ := rollSecond_new later
    exact ⟨r, congrArg Host.Outcome.next rolled, lost⟩
  · exact hostPf_ok pf reach (errAckWr_auto fn r auto_) rfl
  · exact hostPf_ok pf reach (errAckWr_retires fn r manual inside) rfl
  · exact hostPf_ok pf reach (errAckWr_refuses fn r manual outside) (raiseErr_threads ..)
  · exact ⟨_, hostPf_ok pf reach (errCfgWr_sets s b) rfl, autoRetire_rset s b, rfl⟩
  · exact ⟨_, hostPf_ok pf reach rfl rfl, fun _ => mem_fctOff_fctOffWr⟩
  · obtain ⟨second, storms, rate, gen, count, detected⟩ := raiseErr_contained (s := s) (e := { cause := 0x14, sev := 2 }) rfl
    have waits := detected.trans (enqueueErr_waits rfl room)
    exact ⟨_, _, (if_pos last).trans (congrArg Host.Outcome.next waits), rfl, rfl, rfl, rfl, rfl⟩
  · exact ⟨_, deviceReset_clears pf reach calm, rfl, rfl, rfl, rfl, rfl, rfl, rfl, deviceCleared_keeps_always_on ..⟩
  · exact (if_pos ⟨pf, busy, by rw [up]; rfl⟩).trans (congrArg Host.Outcome.next (if_pos busy))
  · exact if_neg (by rintro (calm | down); exacts [busy calm, down up])
  · exact ⟨_, if_neg on, rfl, rfl, rfl, rfl, rfl, rfl, rfl, rfl, rfl, rfl, rfl, rfl, rfl, rfl⟩

end Sys2Proof.Machine

/-! The statement about the packets and timers of Barvar Remote Memory (R401-R429). -/

namespace Sys2Proof.Machine

/-! ## Arriving requests and responses (R407) -/

section
variable {s : State} {p : Pkt} {q : Qp} (order : PacketInOrder s p q)
include order

/-- A packet that passes the checks of its end, its PSN and its key meets the check of its message next. -/
theorem arrivePkt_inOrder (resp : Bool) (accept : State → Nat → Qp → State) : arrivePkt s p resp accept
    = if !resp && msnStale q p.msn then sendNak s q p 0x08 (staleDetail q p.msn) else accept s p.dqp.toNat q := by
  obtain ⟨works, end_, gen, active, clean, ⟨device, peerVi⟩, state, fresh, window, keyed⟩ := order
  unfold arrivePkt
  rw [if_neg (by rw [works]; decide), end_]
  dsimp only
  rw [if_neg (not_or.mpr ⟨not_not.mpr gen, not_not.mpr active⟩), if_neg (by rw [clean]; decide),
    if_neg (not_or.mpr ⟨not_not.mpr device, not_not.mpr peerVi⟩), if_neg (fun h => state.elim h.1 h.2),
    if_neg (by rw [fresh]; decide), if_neg (Nat.not_le.mpr window), if_neg (by rw [keyed]; decide)]

theorem arrivePkt_accepts (fresh : msnStale q p.msn = false) (accept : State → Nat → Qp → State) :
    arrivePkt s p false accept = accept s p.dqp.toNat q :=
  (arrivePkt_inOrder order false accept).trans (if_neg (by rw [fresh]; decide))

theorem arrivePkt_stale (stale : msnStale q p.msn = true) (accept : State → Nat → Qp → State) :
    arrivePkt s p false accept = sendNak s q p 0x08 (staleDetail q p.msn) :=
  (arrivePkt_inOrder order false accept).trans (if_pos (by rw [stale]; rfl))

theorem arrivePkt_response (accept : State → Nat → Qp → State) : arrivePkt s p true accept = accept s p.dqp.toNat q :=
  (arrivePkt_inOrder order true accept).trans (if_neg Bool.false_ne_true)

end

/-- Target bytes of a WRITE or ATOMIC request. -/
def reqLen (opc : BitVec 8) (p : Pkt) : Nat :=
  if opc = 0x04 then (if bit p.aux 0 then 8 else 4) else ((pktBytesOf p).map (·.length)).getD 0

section
variable {s : State} {p : Pkt} {q : Qp} {n k off : Nat} {r : Region}

/-- An unfenced request whose region grants it is admitted and handed to memory. -/
theorem takeReq_places {opc : BitVec 8} (grants : target s q p opc (reqLen opc p) = .ok (k, r, off)) (unfenced : p.fence = false) :
    takeReq opc p s n q
      = placeReq (noteRx (setRegion s k { r with admitted := r.admitted ++ [(n, p.psn)] }) n opc p) n opc p (regBase r + off) := by
  unfold reqLen at grants
  simp only [takeReq, grants, unfenced, Bool.false_and, Bool.false_eq_true, if_false]

/-- A read that its region grants and that memory permits queues its response. -/
theorem takeRead_answers (grants : target s q p 2 p.mlen.toNat = .ok (k, r, off)) (plain : p.enc = false)
    (readable : rangeOk s q.owner (ownAddr (regBase r + off)) p.mlen.toNat .rd = true) :
    takeRead p s n q = (
      let m : TxMsg := {
        msn := p.msn, opc := 3, src := .gone, loc := ownAddr (regBase r + off), rkey := 0, roff := 0, len := p.mlen.toNat,
        keyslot := p.keyslot, enc := p.enc }
      let e := psnDone s q p.psn
      pumpAll (rxComplete (setQp e.1 n { e.2 with resps := e.2.resps ++ [m] }) n p.msn false) n) := by
  simp only [takeRead, grants, plain, readable, Bool.false_and, Bool.not_true, Bool.false_eq_true, if_false]

end

/-! ## Packets of the peer (R405, R417, R420) -/

theorem fromPeer_takes {s : State} {p : Pkt} {q : Qp} (peer : FromPeer s p q) (body : State → Nat → Qp → State) :
    fromPeer s p body = body s p.dqp.toNat q := by
  obtain ⟨works, end_, gen, device, peerVi⟩ := peer
  unfold fromPeer
  rw [if_neg (by rw [works]; decide), end_]
  dsimp only
  rw [if_neg (not_not.mpr gen), if_neg (not_or.mpr ⟨not_not.mpr device, not_not.mpr peerVi⟩)]

section
variable {s : State} {p : Pkt} {q : Qp} {n : Nat}

theorem takeNak_busy {x : TxPkt} (sent : q.pkts.find? (fun x => x.psn == p.psn && x.msn == p.msn) = some x) (busy : p.aux = 0x0F) :
    takeNak p s n q
      = setQp s n { q with pkts := q.pkts.map (fun y => if y.psn = x.psn then { y with busy := true, since := s.devTime } else y) } := by
  simp only [takeNak, sent, busy, if_true]

theorem shake_connects (connecting : q.st = 1) (named : ofBytes (p.data.take 8) = q.peer.toNat) (req : Bool) :
    shake req p s n q = qpConnected (if req then sendShake s n q 0x11 else s) n q := if_pos ⟨connecting, named⟩

end

/-! ## Timers (R405, R416, R417, R420, R424, R427) -/

section
variable {s : State} {c : BitVec 24} {q : Qp} (here : getQp s c.toNat = some q)
include here

theorem placementPerformed_performs {psn : BitVec 32} {x : RxPlaced} (placed : q.placed.find? (fun x => x.psn == psn) = some x)
    (done : brmOpen s c.toNat x.msn psn = false) :
    exec (.placementPerformed c psn) s = .next (settle (performPlaced s c.toNat q x)) := by
  simp only [exec_placementPerformed, execPlacementPerformed, here, placed, done, Bool.false_eq_true, if_false]

theorem ackTimer_sends (owed : q.toAck > 0)
    (due : (if bits (rget s 0x300000) 15 0 = 0 then 1000 else bits (rget s 0x300000) 15 0) ≤ (s.devTime - q.ackFrom).toNat) :
    exec (.ackTimer c) s = .next (sendAck (setQp s c.toNat { q with toAck := 0 }) q) := by
  simp only [exec_ackTimer, execAckTimer, here]
  exact if_pos ⟨owed, due⟩

section
variable {psn : BitVec 32} {x : TxPkt} (sent : q.pkts.find? (fun x => x.psn == psn && !x.busy) = some x) (works : working s = true)
  (due : rtoNs q x.sends ≤ (s.devTime - x.since).toNat)
include sent works due

theorem retransmitTimeout_due : exec (.retransmitTimeout c psn) s = if x.sends > qpRetries q then .next (settle (loseQp s c.toNat))
    else .next (brmDrop (resend s c.toNat { q with retrans := q.retrans + 1 } x) 5) := by
  simp only [exec_retransmitTimeout, execRetransmitTimeout, here, sent]
  exact if_neg (not_or.mpr ⟨by rw [works]; decide, Nat.not_lt.mpr due⟩)

end

theorem busyRetransmit_resends {psn : BitVec 32} {x : TxPkt} (sent : q.pkts.find? (fun x => x.psn == psn && x.busy) = some x)
    (works : working s = true) (due : Nat.max 1 (bits (rget s 0x300000) 31 16) * 1000 ≤ (s.devTime - x.since).toNat) :
    exec (.busyRetransmit c psn) s = .next (resend s c.toNat q { x with sends := x.sends - 1 }) := by
  simp only [exec_busyRetransmit, execBusyRetransmit, here, sent]
  exact if_neg (not_or.mpr ⟨by rw [works]; decide, Nat.not_lt.mpr due⟩)

theorem connectReqTimer_repeats (connecting : q.st = 1) (due : qpRtoUs q * 1000 ≤ (s.devTime - q.reqAt).toNat) :
    exec (.connectReqTimer c) s = .next (sendShake (setQp s c.toNat { q with reqAt := s.devTime }) c.toNat q 0x10) := by
  simp only [exec_connectReqTimer, execConnectReqTimer, here]
  exact if_pos ⟨connecting, due⟩

theorem connectTimeout_fails (connecting : q.st = 1) (due : 1000000000 ≤ (s.devTime - q.connAt).toNat) {k : Nat} {seq : BitVec 48}
    {u : BitVec 32} (waits : q.connect = some (k, seq, u)) : exec (.connectTimeout c) s
      = .next (settle (brmFinish (setQp s c.toNat { q with st := 0, connect := none, sentReq := false, accepted := false }) q.owner k seq
          (4, 0x94) 0)) := by
  simp only [exec_connectTimeout, execConnectTimeout, here, waits]
  exact if_neg (not_or.mpr ⟨not_not.mpr connecting, Nat.not_lt.mpr due⟩)

theorem messageExpiry_expires {msn : BitVec 32} {m : RxMsg} (part : q.rmsgs.find? (fun m => m.msn == msn) = some m)
    (due : qpMsgUs q * 1000 ≤ (s.devTime - m.firstAt).toNat) : exec (.messageExpiry c msn) s
      = .next (settle (failRx (raiseErr (brmDrop s 6)
          { cause := 0x0F, sev := 2, vi := some q.owner, status := 4, arg0 := qpHandle c.toNat q, arg1 := msn.setWidth 64 }) c.toNat msn)) := by
  simp only [exec_messageExpiry, execMessageExpiry, here, part]
  exact if_neg (Nat.not_lt.mpr due)

end

/-! ## The statement -/

/-- A step that settles what a packet does. -/
theorem next_settle_congr {a b : State} (same : a = b) : (Host.Outcome.next (settle a) : Host.Outcome State Fault Refusal) = .next (settle b) :=
  same ▸ rfl

/-- Settles O46. A packet in order reaches the handler of its opcode, and a timer whose period has passed its act. -/
theorem brmPacketsAndTimers : Obligations.BrmPacketsAndTimers := by
  refine ⟨fun s p q order => ⟨fun fresh => ⟨fun k r off len length grants unfenced => ?_, fun k r off grants unfenced => ?_, ?_,
      fun k r off grants plain readable => ?_⟩, ?_, ?_, fun stale => ⟨?_, ?_, ?_⟩⟩,
    fun s p q peer => ⟨?_, fun x sent busy => ?_, ?_, fun connecting named => ⟨?_, ?_⟩, fun connected => ?_⟩,
    fun s c q here => ⟨fun psn x => placementPerformed_performs here, ackTimer_sends here,
      fun psn x sent works due => ⟨fun exhausted => ?_, fun left => ?_⟩, fun psn x => busyRetransmit_resends here,
      connectReqTimer_repeats here, fun connecting due k seq u => connectTimeout_fails here connecting due,
      fun msn m => messageExpiry_expires here⟩⟩
  · subst length
    exact next_settle_congr ((arrivePkt_accepts order fresh _).trans (takeReq_places grants unfenced))
  · exact next_settle_congr ((arrivePkt_accepts order fresh _).trans (takeReq_places grants unfenced))
  · exact next_settle_congr (arrivePkt_accepts order fresh _)
  · exact next_settle_congr ((arrivePkt_accepts order fresh _).trans (takeRead_answers grants plain readable))
  · exact next_settle_congr (arrivePkt_response order _)
  · exact next_settle_congr (arrivePkt_response order _)
  · exact next_settle_congr (arrivePkt_stale order stale _)
  · exact next_settle_congr (arrivePkt_stale order stale _)
  · exact next_settle_congr (arrivePkt_stale order stale _)
  · exact next_settle_congr (fromPeer_takes peer _)
  · exact next_settle_congr ((fromPeer_takes peer _).trans (takeNak_busy sent busy))
  · exact congrArg Host.Outcome.next (fromPeer_takes peer _)
  · exact next_settle_congr ((fromPeer_takes peer _).trans (shake_connects connecting named true))
  · exact next_settle_congr ((fromPeer_takes peer _).trans (shake_connects connecting named false))
  · exact next_settle_congr ((fromPeer_takes peer _).trans (if_pos connected))
  · exact (retransmitTimeout_due here sent works due).trans (if_pos exhausted)
  · exact (retransmitTimeout_due here sent works due).trans (if_neg (Nat.not_lt.mpr left))

end Sys2Proof.Machine
